-- ==== Sys2Proof/Word.lean ====
section
/-! DEFINITION. The words of the part: widths of R21 and R46, and the plainest bit operations of R67. -/

namespace Sys2Proof

/-- A 64-bit word: scalar registers, pointers, special registers (R21, R31). -/
abbrev W64 := BitVec 64
/-- A 32-bit instruction word (R46). -/
abbrev W32 := BitVec 32
/-- A byte of storage. -/
abbrev Byte := BitVec 8
/-- A vector register of 512 bits (R21). -/
abbrev VWord := BitVec 512

/-- The `n` bits of `w` from bit `lo` up, as the helper Bits of R67 reads them. -/
def field (w lo n : Nat) : BitVec n := BitVec.ofNat n (w / 2 ^ lo)

/-- The number held in bits [hi:lo] of `w` (R67). -/
def bits (w hi lo : Nat) : Nat := w / 2 ^ lo % 2 ^ (hi + 1 - lo)

/-- The signed number held in the low `n` bits of `w` (SExt of R67). -/
def sextNat (w n : Nat) : Int := (BitVec.ofNat n w).toInt

end Sys2Proof
end

