-- ==== Sys2Proof/Config.lean ====
section
/-! DEFINITION. What one implementation or one image fixes, and the values the spec leaves open. Every constant
here is opaque: no proof can see a value of it. -/

namespace Sys2Proof.Config

/-- The machine trap entry, which the firmware image fixes (R288, R331). -/
opaque machineEntry : W64

/-- A fresh value where the spec says only that a value is lost or does not say which value results (R368);
applied to the counter `State.free`. -/
opaque freeWord : Nat → W64

/-- A fresh vector value, as `freeWord` (R368). -/
opaque freeVec : Nat → VWord

/-- The modulus of the RSA key that a key slot holds (R322): how a slot holds it is not in the spec. -/
opaque keyModulus (key : List Byte) : Nat

/-- Whether a firmware image verifies under a key (R371): the spec gives its signature no layout. -/
opaque firmwareOk (key image : List Byte) : Bool

/-- The Drihus key of slot 0 (R322). -/
opaque drihusKey : List Byte

/-- The firmware image's security version and the fused minimum (R371). -/
opaque fusedMinVersion : Nat

/-- The security version a firmware image carries (R371). -/
opaque imageVersion (image : List Byte) : Nat

/-- The firmware image the flash holds before any update (R371). -/
opaque bootImage : List Byte

/-- The bytes of a key slot that the digest of the key slots covers (R379): key and SUPER attribute; the layout is not in
the spec. -/
opaque slotBytes (used super : Bool) (key : List Byte) : List Byte

/-- The certificate chain that the root-of-trust core returns (R379). -/
opaque certChain : List Byte

/-- The signature that the root-of-trust core makes of a challenge (R379): its key is not in the spec. -/
opaque deviceSign (chain measured : BitVec 256) : List Byte

/-- The core cycles from the checks of a LOAD to its writes (R325), and those that an update takes to overwrite the image in flash (R371):
the spec gives none. -/
opaque loadTime : Nat → Nat
opaque updateTime : Nat → Nat

/-- What the training of a scale-up or an Ethernet port finds at a bring-up: whether the link trains, the package number that the peer
reports, the wire delay (R376). -/
opaque portTrains (free port : Nat) : Bool × BitVec 16 × BitVec 16

/-- What the training of the far-tier ports finds at a bring-up: the ports whose module is present and trained (R375). -/
opaque farTrains : Nat → BitVec 16

/-- How many of the messages on their way from other dies have come when a core acquires: one that is not causally before the acquire may
appear or not (R205). -/
opaque arrivals : Nat → Nat

/-- The pseudo-channel of a line of HBM4E or of the far tier (R369): the spec does not give the mapping. -/
opaque pseudoChannel (line : Nat) : Nat

/-- Which part of 16 KiB of a die's management block is its queue block, whose address QBLK holds (R377). -/
opaque qblkSlot : Nat

/-- The link-level retries that a request takes on a port (R376): the spec gives no count. -/
opaque linkRetries : Nat → Nat

/-- The key that a key-enrolment request at a physical address carries, with its slot and its SUPER attribute (R322, R377); none
where the request is not a valid one. The request's layout is not in the spec. -/
opaque keyRequest (mem : List (Nat × Byte)) (addr : W64) : Option (Nat × Bool × List Byte)

/-- Whether an access at a time uses the value of a table word, at a physical address, that was read before software changed it: until
`sfence` the spec allows both (R296). -/
opaque usesOld (clk pa : Nat) : Bool

/-- The code map that a context's table entry places at a physical address: payload start and LEN of each function (R106, R289). Its
layout is not in the spec. -/
opaque codeMapAt (addr : W64) (mem : List (Nat × Byte)) : List (W64 × Nat)

/-- What another package answers to an access through a window: performed, or the peer fault it raises with its TVAL2 (R298, R299); that
package is outside the part. -/
opaque peerAnswer : Nat → Option (BitVec 6 × W64)

/-- A byte of another package's memory (R298). -/
opaque peerByte (free i : Nat) : Byte

/-- A byte a scale-out peer returns for a read through a queue-pair descriptor (R232, R376): the peer's memory is
outside the part. -/
opaque roceByte : Nat → Byte

end Sys2Proof.Config
end

