-- ==== Sys2Proof/Syntax.lean ====
section
/-! DEFINITION. The instructions: one constructor for each row of spec/opcode_table.json. The rows with an
encoding (ADD to HINT) carry the fields of their word, in the order of R46 and of the row, as raw bit fields: a
register number, an immediate, a code. The rows without an encoding are the part's own indivisible steps (R63
to R379); each carries the operands that say on what it acts, and reaches the machine through `State.inputs`. -/

namespace Sys2Proof

/-- Every row of the opcode table (R52 to R59 for the words; the steps of spec/95 for the rest). -/
inductive Instr where
  /-- R99. Writes the 64-bit wrapped sum of two scalar registers to the destination register. -/
  | add (d : BitVec 5) (a : BitVec 5) (b : BitVec 5)
  /-- R99. Writes the 64-bit wrapped difference of two scalar registers to the destination register. -/
  | sub (d : BitVec 5) (a : BitVec 5) (b : BitVec 5)
  /-- R99. Writes the low 64 bits of the product of two scalar registers to the destination register. -/
  | mul (d : BitVec 5) (a : BitVec 5) (b : BitVec 5)
  /-- R99. Writes the high 64 bits of the signed 128-bit product to the destination register. -/
  | mulh (d : BitVec 5) (a : BitVec 5) (b : BitVec 5)
  /-- R99. Writes the high 64 bits of the unsigned 128-bit product to the destination register. -/
  | mulhz (d : BitVec 5) (a : BitVec 5) (b : BitVec 5)
  /-- R100. Writes the signed quotient, truncated toward zero, with fixed results for a zero divisor and for overflow. -/
  | div (d : BitVec 5) (a : BitVec 5) (b : BitVec 5)
  /-- R100. Writes the unsigned quotient, with all ones for a zero divisor. -/
  | divz (d : BitVec 5) (a : BitVec 5) (b : BitVec 5)
  /-- R100. Writes the signed remainder, which takes the sign of the dividend. -/
  | rem (d : BitVec 5) (a : BitVec 5) (b : BitVec 5)
  /-- R100. Writes the unsigned remainder, giving the dividend for a zero divisor. -/
  | remz (d : BitVec 5) (a : BitVec 5) (b : BitVec 5)
  /-- R99. Writes the bitwise AND of two scalar registers. -/
  | and (d : BitVec 5) (a : BitVec 5) (b : BitVec 5)
  /-- R99. Writes the bitwise OR of two scalar registers. -/
  | or (d : BitVec 5) (a : BitVec 5) (b : BitVec 5)
  /-- R99. Writes the bitwise XOR of two scalar registers. -/
  | xor (d : BitVec 5) (a : BitVec 5) (b : BitVec 5)
  /-- R99. Writes A AND NOT B. -/
  | andn (d : BitVec 5) (a : BitVec 5) (b : BitVec 5)
  /-- R99. Shifts A left by the low six bits of B. -/
  | shl (d : BitVec 5) (a : BitVec 5) (b : BitVec 5)
  /-- R99. Shifts A right by the low six bits of B, filling with zeros. -/
  | shr (d : BitVec 5) (a : BitVec 5) (b : BitVec 5)
  /-- R99. Shifts A right by the low six bits of B, filling with the sign. -/
  | sar (d : BitVec 5) (a : BitVec 5) (b : BitVec 5)
  /-- R99. Rotates A left by the low six bits of B. -/
  | rol (d : BitVec 5) (a : BitVec 5) (b : BitVec 5)
  /-- R99. Rotates A right by the low six bits of B. -/
  | ror (d : BitVec 5) (a : BitVec 5) (b : BitVec 5)
  /-- R99. Writes 1 if A is less than B as signed values, else 0. -/
  | slt (d : BitVec 5) (a : BitVec 5) (b : BitVec 5)
  /-- R99. Writes 1 if A is less than B as unsigned values, else 0. -/
  | sltz (d : BitVec 5) (a : BitVec 5) (b : BitVec 5)
  /-- R99. Writes the lesser of A and B as signed values. -/
  | min (d : BitVec 5) (a : BitVec 5) (b : BitVec 5)
  /-- R99. Writes the greater of A and B as signed values. -/
  | max (d : BitVec 5) (a : BitVec 5) (b : BitVec 5)
  /-- R99. Writes the lesser of A and B as unsigned values. -/
  | minz (d : BitVec 5) (a : BitVec 5) (b : BitVec 5)
  /-- R99. Writes the greater of A and B as unsigned values. -/
  | maxz (d : BitVec 5) (a : BitVec 5) (b : BitVec 5)
  /-- R99. Writes A to xd if B is non-zero, and otherwise keeps the old xd. -/
  | cmov (d : BitVec 5) (a : BitVec 5) (b : BitVec 5)
  /-- R99. Writes the number of leading zero bits of A. -/
  | clz (d : BitVec 5) (a : BitVec 5)
  /-- R99. Writes the number of trailing zero bits of A. -/
  | ctz (d : BitVec 5) (a : BitVec 5)
  /-- R99. Writes the number of 1 bits of A. -/
  | popc (d : BitVec 5) (a : BitVec 5)
  /-- R99. Writes the bit-reversed A. -/
  | brev (d : BitVec 5) (a : BitVec 5)
  /-- R99. Writes the byte-reversed A. -/
  | bswap (d : BitVec 5) (a : BitVec 5)
  /-- R101. Adds the sign-extended immediate to a scalar register. -/
  | addi (d : BitVec 5) (a : BitVec 5) (i : BitVec 12)
  /-- R101. ANDs a scalar register with the sign-extended immediate. -/
  | andi (d : BitVec 5) (a : BitVec 5) (i : BitVec 12)
  /-- R101. ORs a scalar register with the sign-extended immediate. -/
  | ori (d : BitVec 5) (a : BitVec 5) (i : BitVec 12)
  /-- R101. XORs a scalar register with the sign-extended immediate. -/
  | xori (d : BitVec 5) (a : BitVec 5) (i : BitVec 12)
  /-- R101. Writes 1 if the register is less than the immediate as signed values. -/
  | slti (d : BitVec 5) (a : BitVec 5) (i : BitVec 12)
  /-- R101. Writes 1 if the register is less than the sign-extended immediate as unsigned values. -/
  | sltzi (d : BitVec 5) (a : BitVec 5) (i : BitVec 12)
  /-- R102. Shifts a register left by an immediate amount. -/
  | shli (d : BitVec 5) (a : BitVec 5) (s : BitVec 6)
  /-- R102. Shifts a register right by an immediate amount, filling with zeros. -/
  | shri (d : BitVec 5) (a : BitVec 5) (s : BitVec 6)
  /-- R102. Shifts a register right by an immediate amount, filling with the sign. -/
  | sari (d : BitVec 5) (a : BitVec 5) (s : BitVec 6)
  /-- R102. Extracts a zero-extended bit field of a register. -/
  | ext (d : BitVec 5) (a : BitVec 5) (w : BitVec 6) (p : BitVec 6)
  /-- R102. Inserts the low bits of a register into a bit field of xd. -/
  | ins (d : BitVec 5) (a : BitVec 5) (w : BitVec 6) (p : BitVec 6)
  /-- R104. Loads the sign-extended immediate, shifted to bit 12, into a register. -/
  | lup (d : BitVec 5) (i : BitVec 20)
  /-- R104. Adds the immediate, shifted to bit 12, to the address of the instruction. -/
  | aupc (d : BitVec 5) (i : BitVec 20)
  /-- R112. Branches within the function when A equals B. -/
  | bEq (a : BitVec 5) (b : BitVec 5) (o : BitVec 12)
  /-- R112. Branches within the function when A differs from B. -/
  | bNe (a : BitVec 5) (b : BitVec 5) (o : BitVec 12)
  /-- R112. Branches when A is less than B as signed values. -/
  | bLt (a : BitVec 5) (b : BitVec 5) (o : BitVec 12)
  /-- R112. Branches when A is at least B as signed values. -/
  | bGe (a : BitVec 5) (b : BitVec 5) (o : BitVec 12)
  /-- R112. Branches when A is less than B as unsigned values. -/
  | bLtz (a : BitVec 5) (b : BitVec 5) (o : BitVec 12)
  /-- R112. Branches when A is at least B as unsigned values. -/
  | bGez (a : BitVec 5) (b : BitVec 5) (o : BitVec 12)
  /-- R113. Jumps to a target in any function of the code map, copying it in if needed. -/
  | j (o : BitVec 20)
  /-- R113. Jumps to a target and writes the return address to the link register. -/
  | call (d : BitVec 5) (o : BitVec 20)
  /-- R114. Transfers control to the address in a scalar register after resolving it in the code map. -/
  | jr (a : BitVec 5)
  /-- R114. Calls the code object named by a pointer register and writes the link register. -/
  | callr (d : BitVec 5) (p : BitVec 4)
  /-- R115. Runs the following body of 1 to 16 words for a count of passes, with v fields stepped by a stride. -/
  | rep (s : BitVec 5) (a : BitVec 5) (n : BitVec 8) (l : BitVec 4)
  /-- R188. Loads a 1-, 2-, 4- or 8-byte value through a pointer register after the pointer, bound and touch checks. -/
  | ld (d : BitVec 5) (p : BitVec 4) (m : BitVec 2) (z : BitVec 3) (o : BitVec 11)
  /-- R188. Stores a 1-, 2-, 4- or 8-byte value through a pointer register and marks a copy dirty. -/
  | st (d : BitVec 5) (p : BitVec 4) (m : BitVec 2) (z : BitVec 3) (o : BitVec 11)
  /-- R189. Loads a pointer from an 8-byte slot of a reference object into a pointer register. -/
  | ldp (q : BitVec 4) (p : BitVec 4) (m : BitVec 2) (o : BitVec 11)
  /-- R189. Stores a pointer into a reference object, promoting pad objects that would escape. -/
  | stp (q : BitVec 4) (p : BitVec 4) (m : BitVec 2) (o : BitVec 11)
  /-- R191. Copies a pointer register with its length and cursor. -/
  | pmov (d : BitVec 4) (a : BitVec 4)
  /-- R191. Copies a pointer register with its cursor moved by a signed amount, checked against LEN. -/
  | padj (d : BitVec 4) (a : BitVec 4) (b : BitVec 5)
  /-- R191. Writes the length of a pointer register to a scalar register. -/
  | plen (d : BitVec 5) (a : BitVec 4)
  /-- R191. Allocates a new object holding a byte range of the source object from its cursor. -/
  | pslice (d : BitVec 4) (a : BitVec 4) (b : BitVec 5)
  /-- R191. Makes a pointer register from an integer, in supervisor mode only. -/
  | pfrom (d : BitVec 4) (a : BitVec 5)
  /-- R191. Writes the pointer value of a pointer register to a scalar register. -/
  | ptox (d : BitVec 5) (a : BitVec 4)
  /-- R183. Creates a zeroed object of a given length and kind at or beyond a level, trapping when no room is found. -/
  | alloc (d : BitVec 4) (a : BitVec 5) (l : BitVec 2) (k : BitVec 4)
  /-- R183. Creates a zeroed object as alloc does, but writes a null pointer instead of trapping on exhaustion. -/
  | allocr (d : BitVec 4) (a : BitVec 5) (l : BitVec 2) (k : BitVec 4)
  /-- R188. Performs a touch of the object named by a pointer register and nothing else. -/
  | otouch (d : BitVec 4)
  /-- R192. Acquires an object: waits for causal releases and refreshes the clean bytes of the copy from the home. -/
  | oacq (d : BitVec 4) (g : BitVec 3) (s : BitVec 4)
  /-- R192. Releases an object: merges the copy's dirty bytes at the home, raises VER and stamps the release. -/
  | orel (d : BitVec 4) (g : BitVec 3) (s : BitVec 4)
  /-- R214. Performs an atomic read-modify-write at the place given by the object's level and the agent scope, returning the old value. -/
  | amo (d : BitVec 5) (p : BitVec 4) (b : BitVec 5) (o : BitVec 4) (g : BitVec 3) (s : BitVec 2) (w : BitVec 1)
  /-- R214. Performs an atomic compare-and-swap at its place, returning the old value. -/
  | cas (d : BitVec 5) (p : BitVec 4) (b : BitVec 5) (g : BitVec 3) (s : BitVec 2) (w : BitVec 1)
  /-- R215. Performs an atomic operation per selected vector element at indexed words of an object. -/
  | vamo (d : BitVec 5) (p : BitVec 4) (w : BitVec 1) (b : BitVec 5) (m : BitVec 3) (n : BitVec 1) (o : BitVec 4) (g : BitVec 2)
  /-- R216. Completes after every earlier ls access to the named storage is performed for the named agents, and holds back later ones. -/
  | fence (g : BitVec 3) (s : BitVec 4)
  /-- R218. Orders accesses of one path before accesses of another path for the named storage and agents. -/
  | xfence (c : BitVec 3) (e : BitVec 3) (g : BitVec 3) (s : BitVec 4)
  /-- R122. Grants a number of elements of a type, sets VL in bytes and writes the count granted. -/
  | setvl (d : BitVec 5) (a : BitVec 5) (t : BitVec 4)
  /-- R124. Adds the selected active elements of two vectors, integer or floating-point. -/
  | vadd (d : BitVec 5) (a : BitVec 5) (b : BitVec 5) (m : BitVec 3) (n : BitVec 1) (t : BitVec 4)
  /-- R124. Subtracts the selected active elements of two vectors. -/
  | vsub (d : BitVec 5) (a : BitVec 5) (b : BitVec 5) (m : BitVec 3) (n : BitVec 1) (t : BitVec 4)
  /-- R124. Multiplies the selected active elements of two vectors. -/
  | vmul (d : BitVec 5) (a : BitVec 5) (b : BitVec 5) (m : BitVec 3) (n : BitVec 1) (t : BitVec 4)
  /-- R124. Writes the high half of the signed element products. -/
  | vmulh (d : BitVec 5) (a : BitVec 5) (b : BitVec 5) (m : BitVec 3) (n : BitVec 1) (t : BitVec 4)
  /-- R124. Writes the high half of the unsigned element products. -/
  | vmulhz (d : BitVec 5) (a : BitVec 5) (b : BitVec 5) (m : BitVec 3) (n : BitVec 1) (t : BitVec 4)
  /-- R125. Computes A·B + D per element with one rounding. -/
  | vfma (d : BitVec 5) (a : BitVec 5) (b : BitVec 5) (m : BitVec 3) (n : BitVec 1) (t : BitVec 4)
  /-- R125. Computes A·B − D per element with one rounding. -/
  | vfms (d : BitVec 5) (a : BitVec 5) (b : BitVec 5) (m : BitVec 3) (n : BitVec 1) (t : BitVec 4)
  /-- R125. Computes −A·B + D per element with one rounding. -/
  | vfnma (d : BitVec 5) (a : BitVec 5) (b : BitVec 5) (m : BitVec 3) (n : BitVec 1) (t : BitVec 4)
  /-- R125. Computes −A·B − D per element with one rounding. -/
  | vfnms (d : BitVec 5) (a : BitVec 5) (b : BitVec 5) (m : BitVec 3) (n : BitVec 1) (t : BitVec 4)
  /-- R125. Divides the floating-point elements of two vectors. -/
  | vfdiv (d : BitVec 5) (a : BitVec 5) (b : BitVec 5) (m : BitVec 3) (n : BitVec 1) (t : BitVec 4)
  /-- R125. Takes the square root of floating-point elements. -/
  | vfsqrt (d : BitVec 5) (a : BitVec 5) (m : BitVec 3) (n : BitVec 1) (t : BitVec 4)
  /-- R124. Writes the lesser of signed integer elements. -/
  | vmin (d : BitVec 5) (a : BitVec 5) (b : BitVec 5) (m : BitVec 3) (n : BitVec 1) (t : BitVec 4)
  /-- R124. Writes the greater of signed integer elements. -/
  | vmax (d : BitVec 5) (a : BitVec 5) (b : BitVec 5) (m : BitVec 3) (n : BitVec 1) (t : BitVec 4)
  /-- R124. Writes the lesser of unsigned integer elements. -/
  | vminz (d : BitVec 5) (a : BitVec 5) (b : BitVec 5) (m : BitVec 3) (n : BitVec 1) (t : BitVec 4)
  /-- R124. Writes the greater of unsigned integer elements. -/
  | vmaxz (d : BitVec 5) (a : BitVec 5) (b : BitVec 5) (m : BitVec 3) (n : BitVec 1) (t : BitVec 4)
  /-- R125. Writes the lesser floating-point element, preferring a number to one NaN. -/
  | vfmin (d : BitVec 5) (a : BitVec 5) (b : BitVec 5) (m : BitVec 3) (n : BitVec 1) (t : BitVec 4)
  /-- R125. Writes the greater floating-point element, preferring a number to one NaN. -/
  | vfmax (d : BitVec 5) (a : BitVec 5) (b : BitVec 5) (m : BitVec 3) (n : BitVec 1) (t : BitVec 4)
  /-- R124. Writes the bitwise AND of elements. -/
  | vand (d : BitVec 5) (a : BitVec 5) (b : BitVec 5) (m : BitVec 3) (n : BitVec 1) (t : BitVec 4)
  /-- R124. Writes the bitwise OR of elements. -/
  | vor (d : BitVec 5) (a : BitVec 5) (b : BitVec 5) (m : BitVec 3) (n : BitVec 1) (t : BitVec 4)
  /-- R124. Writes the bitwise XOR of elements. -/
  | vxor (d : BitVec 5) (a : BitVec 5) (b : BitVec 5) (m : BitVec 3) (n : BitVec 1) (t : BitVec 4)
  /-- R124. Writes A AND NOT B per element. -/
  | vandn (d : BitVec 5) (a : BitVec 5) (b : BitVec 5) (m : BitVec 3) (n : BitVec 1) (t : BitVec 4)
  /-- R124. Shifts integer elements left by per-element amounts. -/
  | vshl (d : BitVec 5) (a : BitVec 5) (b : BitVec 5) (m : BitVec 3) (n : BitVec 1) (t : BitVec 4)
  /-- R124. Shifts integer elements right, filling with zeros. -/
  | vshr (d : BitVec 5) (a : BitVec 5) (b : BitVec 5) (m : BitVec 3) (n : BitVec 1) (t : BitVec 4)
  /-- R124. Shifts integer elements right, filling with the sign. -/
  | vsar (d : BitVec 5) (a : BitVec 5) (b : BitVec 5) (m : BitVec 3) (n : BitVec 1) (t : BitVec 4)
  /-- R126. Sets mask lanes where integer elements are equal. -/
  | vcmpEq (d : BitVec 3) (a : BitVec 5) (b : BitVec 5) (m : BitVec 3) (n : BitVec 1) (t : BitVec 4)
  /-- R126. Sets mask lanes where integer elements differ. -/
  | vcmpNe (d : BitVec 3) (a : BitVec 5) (b : BitVec 5) (m : BitVec 3) (n : BitVec 1) (t : BitVec 4)
  /-- R126. Sets mask lanes where A is less than B. -/
  | vcmpLt (d : BitVec 3) (a : BitVec 5) (b : BitVec 5) (m : BitVec 3) (n : BitVec 1) (t : BitVec 4)
  /-- R126. Sets mask lanes where A is at most B. -/
  | vcmpLe (d : BitVec 3) (a : BitVec 5) (b : BitVec 5) (m : BitVec 3) (n : BitVec 1) (t : BitVec 4)
  /-- R126. Sets mask lanes where floating-point elements are ordered and equal. -/
  | vfcmpEq (d : BitVec 3) (a : BitVec 5) (b : BitVec 5) (m : BitVec 3) (n : BitVec 1) (t : BitVec 4)
  /-- R126. Sets mask lanes where floating-point elements are ordered and A is less than B. -/
  | vfcmpLt (d : BitVec 3) (a : BitVec 5) (b : BitVec 5) (m : BitVec 3) (n : BitVec 1) (t : BitVec 4)
  /-- R126. Sets mask lanes where floating-point elements are ordered and A is at most B. -/
  | vfcmpLe (d : BitVec 3) (a : BitVec 5) (b : BitVec 5) (m : BitVec 3) (n : BitVec 1) (t : BitVec 4)
  /-- R126. Sets mask lanes where either floating-point element is NaN. -/
  | vfcmpUn (d : BitVec 3) (a : BitVec 5) (b : BitVec 5) (m : BitVec 3) (n : BitVec 1) (t : BitVec 4)
  /-- R127. Writes every active element from va or vb as the selector chooses. -/
  | vsel (d : BitVec 5) (a : BitVec 5) (b : BitVec 5) (m : BitVec 3) (n : BitVec 1) (t : BitVec 4)
  /-- R128. Converts elements from a source type to a destination type, wrapping or rounding by the plain rules. -/
  | vcvt (d : BitVec 5) (a : BitVec 5) (s : BitVec 4) (m : BitVec 3) (n : BitVec 1) (t : BitVec 4)
  /-- R128. Converts elements between types with saturating results. -/
  | vcvtSat (d : BitVec 5) (a : BitVec 5) (s : BitVec 4) (m : BitVec 3) (n : BitVec 1) (t : BitVec 4)
  /-- R129. Quantises one block into an MX or Q4 format with its scale, ignoring VL. -/
  | vquant (d : BitVec 5) (a : BitVec 5) (b : BitVec 5) (t : BitVec 4)
  /-- R130. Sums the selected active elements in a tree fixed by VL into element 0. -/
  | vredAdd (d : BitVec 5) (a : BitVec 5) (m : BitVec 3) (n : BitVec 1) (t : BitVec 4)
  /-- R130. Reduces the selected elements by minimum into element 0. -/
  | vredMin (d : BitVec 5) (a : BitVec 5) (m : BitVec 3) (n : BitVec 1) (t : BitVec 4)
  /-- R130. Reduces the selected elements by maximum into element 0. -/
  | vredMax (d : BitVec 5) (a : BitVec 5) (m : BitVec 3) (n : BitVec 1) (t : BitVec 4)
  /-- R130. Reduces the selected elements by bitwise OR into element 0. -/
  | vredOr (d : BitVec 5) (a : BitVec 5) (m : BitVec 3) (n : BitVec 1) (t : BitVec 4)
  /-- R131. Forms inclusive prefix sums with a fixed Kogge–Stone network. -/
  | vscanAdd (d : BitVec 5) (a : BitVec 5) (m : BitVec 3) (n : BitVec 1) (t : BitVec 4)
  /-- R131. Forms inclusive prefix minima. -/
  | vscanMin (d : BitVec 5) (a : BitVec 5) (m : BitVec 3) (n : BitVec 1) (t : BitVec 4)
  /-- R131. Forms inclusive prefix maxima. -/
  | vscanMax (d : BitVec 5) (a : BitVec 5) (m : BitVec 3) (n : BitVec 1) (t : BitVec 4)
  /-- R131. Forms inclusive prefix bitwise ORs. -/
  | vscanOr (d : BitVec 5) (a : BitVec 5) (m : BitVec 3) (n : BitVec 1) (t : BitVec 4)
  /-- R132. Writes each element from the element of va indexed by vb. -/
  | vperm (d : BitVec 5) (a : BitVec 5) (b : BitVec 5) (m : BitVec 3) (n : BitVec 1) (t : BitVec 4)
  /-- R132. Slides elements of va up by a scalar amount. -/
  | vslideUp (d : BitVec 5) (a : BitVec 5) (b : BitVec 5) (m : BitVec 3) (n : BitVec 1) (t : BitVec 4)
  /-- R132. Slides elements of va down by a scalar amount, filling with zero. -/
  | vslideDn (d : BitVec 5) (a : BitVec 5) (b : BitVec 5) (m : BitVec 3) (n : BitVec 1) (t : BitVec 4)
  /-- R133. Writes the low bits of a scalar register to every selected active element. -/
  | vbcast (d : BitVec 5) (a : BitVec 5) (m : BitVec 3) (n : BitVec 1) (t : BitVec 4)
  /-- R133. Writes one indexed element of a vector, extended, to a scalar register. -/
  | vext (d : BitVec 5) (a : BitVec 5) (b : BitVec 5) (t : BitVec 4)
  /-- R133. Writes the low bits of a scalar register into one indexed element. -/
  | vins (d : BitVec 5) (a : BitVec 5) (b : BitVec 5) (t : BitVec 4)
  /-- R134. Writes to each selected element the count of selected elements below it. -/
  | viota (d : BitVec 5) (m : BitVec 3) (n : BitVec 1) (t : BitVec 4)
  /-- R134. Packs the selected active elements of va into the low elements of vd. -/
  | vcompress (d : BitVec 5) (a : BitVec 5) (m : BitVec 3) (n : BitVec 1) (t : BitVec 4)
  /-- R134. Spreads the low elements of va into the selected elements of vd. -/
  | vexpand (d : BitVec 5) (a : BitVec 5) (m : BitVec 3) (n : BitVec 1) (t : BitVec 4)
  /-- R135. Writes the number of active elements the selector chooses. -/
  | vpopc (d : BitVec 5) (m : BitVec 3) (n : BitVec 1) (t : BitVec 4)
  /-- R135. Writes the index of the lowest selected active element, or all ones. -/
  | vfirst (d : BitVec 5) (m : BitVec 3) (n : BitVec 1) (t : BitVec 4)
  /-- R137. Writes the element numbers of the k largest selected elements, largest first. -/
  | vtopk (d : BitVec 5) (a : BitVec 5) (b : BitVec 5) (m : BitVec 3) (n : BitVec 1) (t : BitVec 4)
  /-- R138. Adds truncated floating-point elements into four exact 128-bit lanes at an anchor. -/
  | vxacc (d : BitVec 5) (a : BitVec 5) (b : BitVec 5) (m : BitVec 3) (n : BitVec 1) (t : BitVec 4)
  /-- R139. Rounds the sum of four exact lanes once into element 0. -/
  | vxrnd (d : BitVec 5) (a : BitVec 5) (b : BitVec 5) (t : BitVec 4)
  /-- R140. Loads consecutive elements from an object at the cursor, optionally advancing it by VL. -/
  | vld (d : BitVec 5) (p : BitVec 4) (v : BitVec 1) (b : BitVec 5) (m : BitVec 3) (n : BitVec 1) (t : BitVec 4)
  /-- R140. Loads elements at a scalar stride from the cursor. -/
  | vlds (d : BitVec 5) (p : BitVec 4) (v : BitVec 1) (b : BitVec 5) (m : BitVec 3) (n : BitVec 1) (t : BitVec 4)
  /-- R141. Stores the selected active elements at consecutive offsets from the cursor. -/
  | vst (d : BitVec 5) (p : BitVec 4) (v : BitVec 1) (b : BitVec 5) (m : BitVec 3) (n : BitVec 1) (t : BitVec 4)
  /-- R140. Loads elements at offsets given by an index vector. -/
  | vgath (d : BitVec 5) (p : BitVec 4) (v : BitVec 1) (b : BitVec 5) (m : BitVec 3) (n : BitVec 1) (t : BitVec 4)
  /-- R141. Stores elements at offsets given by an index vector, the higher element winning. -/
  | vscat (d : BitVec 5) (p : BitVec 4) (v : BitVec 1) (b : BitVec 5) (m : BitVec 3) (n : BitVec 1) (t : BitVec 4)
  /-- R127. Copies the selected active elements of a vector register. -/
  | vmv (d : BitVec 5) (a : BitVec 5) (m : BitVec 3) (n : BitVec 1) (t : BitVec 4)
  /-- R127. Pops one vector from a stream register and writes its selected active elements. -/
  | vmvStream (d : BitVec 5) (s : BitVec 3) (m : BitVec 3) (n : BitVec 1) (t : BitVec 4)
  /-- R136. Writes the AND of two mask registers. -/
  | mlogAnd (d : BitVec 3) (a : BitVec 3) (b : BitVec 3)
  /-- R136. Writes the OR of two mask registers. -/
  | mlogOr (d : BitVec 3) (a : BitVec 3) (b : BitVec 3)
  /-- R136. Writes the XOR of two mask registers. -/
  | mlogXor (d : BitVec 3) (a : BitVec 3) (b : BitVec 3)
  /-- R136. Writes ma AND NOT mb. -/
  | mlogAndn (d : BitVec 3) (a : BitVec 3) (b : BitVec 3)
  /-- R157. Multiplies two tile slots into an accumulator group by group in a fixed k-group order under a semiring. -/
  | mma (c : BitVec 2) (a : BitVec 4) (b : BitVec 4) (s : BitVec 2) (t : BitVec 4) (u : BitVec 4)
  /-- R154. Claims a tile slot and binds it to a tensor identifier. -/
  | tclaim (s : BitVec 4) (i : BitVec 8)
  /-- R154. Frees a tile slot. -/
  | tfree (s : BitVec 4)
  /-- R150. Starts the tile loader filling a slot from the tile of its tensor named by a scalar register. -/
  | tload (s : BitVec 4) (r : BitVec 5)
  /-- R152. Writes a slot back to the tile of its tensor after checking every element. -/
  | tstore (s : BitVec 4) (r : BitVec 5)
  /-- R154. Zeroes a slot's data and side area and makes it ready. -/
  | tzero (s : BitVec 4)
  /-- R155. Copies a tensor identifier entry into the first 64 payload bytes of an object. -/
  | tidld (p : BitVec 4) (i : BitVec 8)
  /-- R155. Validates and writes a tensor identifier entry from the first 64 payload bytes of an object. -/
  | tidst (p : BitVec 4) (i : BitVec 8)
  /-- R163. Sets every offset of an accumulator to +0.0, keeping the gains. -/
  | azero (d : BitVec 2)
  /-- R164. Loads a 32 × 32 block of a tensor into an accumulator. -/
  | aload (d : BitVec 2) (i : BitVec 8) (r : BitVec 5)
  /-- R164. Checks, drains and stores an accumulator into a 32 × 32 block of a tensor. -/
  | astore (d : BitVec 2) (i : BitVec 8) (r : BitVec 5)
  /-- R165. Drains an accumulator and writes its rounded cells into a tile slot. -/
  | adrain (d : BitVec 2) (s : BitVec 4) (t : BitVec 4)
  /-- R165. Sets accumulator offsets from the elements of a tile slot. -/
  | afill (d : BitVec 2) (s : BitVec 4) (t : BitVec 4)
  /-- R163. Sets an accumulator's semiring and its neutral offsets. -/
  | amode (d : BitVec 2) (e : BitVec 2)
  /-- R169. Loads an accumulator's gains from another accumulator and puts it in affine mode. -/
  | again (d : BitVec 2) (s : BitVec 2)
  /-- R169. Returns an accumulator to plain mode, keeping its offsets. -/
  | againPlain (d : BitVec 2)
  /-- R170. Composes the first n rows of an affine accumulator in five stages, then with a carry, and moves the last row into the carry. -/
  | ascan (d : BitVec 2) (c : BitVec 2) (n : BitVec 5)
  /-- R170. Composes the first n rows with the carry only, skipping the network stages. -/
  | ascanK (d : BitVec 2) (c : BitVec 2) (n : BitVec 5)
  /-- R170. Loads the gains from a slot, enters affine mode and scans as ascan does. -/
  | ascanG (d : BitVec 2) (s : BitVec 4) (c : BitVec 2) (t : BitVec 4) (n : BitVec 5)
  /-- R174. Applies every cell's map to the state vector held in a carry's offsets. -/
  | aapply (d : BitVec 2) (c : BitVec 2)
  /-- R175. Loads a carry from the image in four vector registers. -/
  | kload (c : BitVec 2) (a : BitVec 5)
  /-- R175. Writes a carry's image into four vector registers. -/
  | kstore (c : BitVec 2) (v : BitVec 5)
  /-- R176. Composes one carry after another under an accumulator's semiring. -/
  | kcomb (d : BitVec 2) (s : BitVec 2) (q : BitVec 2)
  /-- R176. Makes a carry empty. -/
  | kzero (c : BitVec 2)
  /-- R226. Checks two tensor entries and queues a copy or reduction of a region under a copy tag. -/
  | xfer (d : BitVec 5) (a : BitVec 5) (b : BitVec 5) (t : BitVec 6)
  /-- R228. Queues a gather of indexed source rows into consecutive destination rows under a copy tag. -/
  | xgath (d : BitVec 5) (a : BitVec 5) (b : BitVec 5) (t : BitVec 6)
  /-- R229. Fills the cluster translation buffer for the pages of a region. -/
  | xprefTr (a : BitVec 5) (b : BitVec 5) (t : BitVec 6)
  /-- R229. Marks the far-tier pages of a region as migration candidates. -/
  | xprefMg (a : BitVec 5) (b : BitVec 5) (t : BitVec 6)
  /-- R243. Reads the compression tags of 16 consecutive lines into a scalar register. -/
  | xprefTq (d : BitVec 5) (a : BitVec 5)
  /-- R231. Waits until no masked tag is running and returns the ready masked tags. -/
  | xwaitAll (d : BitVec 5) (a : BitVec 5)
  /-- R231. Waits until a masked tag is ready or none is running and returns the ready masked tags. -/
  | xwaitAny (d : BitVec 5) (a : BitVec 5)
  /-- R231. Returns the lowest ready masked tag and makes it idle, or 64. -/
  | xfind (d : BitVec 5) (a : BitVec 5)
  /-- R233. Binds a stream register to a tensor and job card and starts read-ahead. -/
  | sbind (s : BitVec 3) (a : BitVec 5) (c : BitVec 5)
  /-- R233. Discards buffered vectors, releases pins and unbinds a stream register. -/
  | sclose (s : BitVec 3)
  /-- R254. Enters one word into the exchange port for an inbox of a logical core. -/
  | send (t : BitVec 5) (v : BitVec 5) (q : BitVec 4)
  /-- R254. Enters the eight words of a vector into the exchange port for eight consecutive inboxes. -/
  | sendv (t : BitVec 5) (v : BitVec 5) (q : BitVec 4)
  /-- R254. Waits until an inbox is full, returns its word and empties it. -/
  | recv (d : BitVec 5) (q : BitVec 4)
  /-- R254. Waits until eight inboxes are full, empties them and writes their words to a vector. -/
  | recvV (d : BitVec 5) (q : BitVec 4)
  /-- R254. Clears the full bits of the inboxes named by a mask. -/
  | qclr (a : BitVec 5)
  /-- R258. Counts an arrival on a logical barrier without ordering. -/
  | arrive (n : BitVec 2)
  /-- R258. Counts an arrival on a logical barrier with release ordering. -/
  | arriveRel (n : BitVec 2)
  /-- R258. Waits until the phase of the core's last arrival on a barrier completes. -/
  | wait (n : BitVec 2)
  /-- R258. Waits for the phase of the last arrival and joins the phase's knowledge as an acquire. -/
  | waitAcq (n : BitVec 2)
  /-- R258. Arrives with a vote, waits for the phase and returns the OR of all votes. -/
  | bvote (d : BitVec 5) (a : BitVec 5) (n : BitVec 2)
  /-- R261. Pushes a task record onto the gang's pool, or hands it to a member waiting in sstep. -/
  | spawn (c : BitVec 4) (f : BitVec 4) (j : BitVec 4)
  /-- R261. Pops a task record from the pool into three pointer registers, or nulls. -/
  | take (c : BitVec 4) (f : BitVec 4) (j : BitVec 4)
  /-- R261. Decrements a join counter and pushes the continuation when it reaches zero. -/
  | join (j : BitVec 4)
  /-- R266. Posts a 64-byte command packet to an open queue of the context, returning 1 if the ring is full. -/
  | qpost (d : BitVec 5) (a : BitVec 5) (p : BitVec 4)
  /-- R302. Reads a special register into a scalar register. -/
  | rds (d : BitVec 5) (i : BitVec 12)
  /-- R302. Writes the writable fields of a special register from a scalar register. -/
  | wrs (a : BitVec 5) (i : BitVec 12)
  /-- R303. Raises SOFTWARE_TRAP with a code. -/
  | trap (c : BitVec 12)
  /-- R303. Raises BREAKPOINT with a code. -/
  | brk (c : BitVec 12)
  /-- R306. Drops named translations and cached table entries of the die and completes once no old value is in use. -/
  | sfence (a : BitVec 5) (b : BitVec 5)
  /-- R356. Writes the in-place record of the running logical core into an object and pins its pad objects. -/
  | cxsave (p : BitVec 4)
  /-- R356. Checks and loads an in-place record into the running logical core. -/
  | cxload (p : BitVec 4)
  /-- R49. Widens the immediate field of the instruction that follows it. -/
  | immx (p : BitVec 22)
  /-- R50. Passes a scheduling, prefetch or successor hint without changing architectural state. -/
  | hint (h : BitVec 22)
  /-- R331. Trap entry waits for a quiet coprocessor, fills the target bank and enters the handler. -/
  | takeTrap (code : BitVec 6) (late : Bool) (int : Bool) (tval : W64) (tval2 : W64)
  /-- R43. The install sequencer cancels copies, zeroes buffers and pads, writes launch values and starts fetch. -/
  | install (lcid : BitVec 16)
  /-- R187. A touch-copy completes when the snapshot data arrive, and the pointer register names the copy. -/
  | touchComplete (p : BitVec 4)
  /-- R110. The call-graph prefetcher copies a successor function into free or unentered granules. -/
  | prefetchCopyIn (addr : W64)
  /-- R196. The janitor collects a pad: writes back copies, moves live objects outward and resets the bump pointer. -/
  | collect (lvl : BitVec 2)
  /-- R293. A translation miss walks the page tables, sets A and D, and faults or fills the buffers. -/
  | pageWalk (va : W64) (acc : BitVec 3)
  /-- R281. A message of one class crosses a bridge or port once it holds all its permits; its kind and size give the class. -/
  | linkMessage (link : BitVec 6) (kind : BitVec 5) (ctx : BitVec 16) (size : BitVec 10)
  /-- R282. A receiver returns permits to the sender as a control message as it drains its buffers. -/
  | permitReturn (link : BitVec 6) (cls : BitVec 2) (ctx : BitVec 16) (size : BitVec 10)
  /-- R376. A port that exhausts its retries goes down and writes a type 7 error record. -/
  | linkDown (port : BitVec 5)
  /-- R372. A die whose power exceeds its share for 1 ms has its core clock stretched. -/
  | clockStretch (ratio : BitVec 16)
  /-- R368. An uncorrectable soft error in core state raises MACHINE_CHECK at the core's next point. -/
  | softError (unit : BitVec 4) (synd : W64)
  /-- R369. Firmware retires a failed line to a spare, or the whole frame when spares run out. -/
  | lineRetirement (addr : W64)
  /-- R274. A NOP packet is dispatched and completes at once. -/
  | nop (q : BitVec 8)
  /-- R274. A LAUNCH packet is checked, reserves barrier groups, grants cores and starts a gang. -/
  | launch (q : BitVec 8)
  /-- R274. A SIGNAL packet completes at dispatch, adding ARG0 to its completion counter. -/
  | signal (q : BitVec 8)
  /-- R280. A SHRINK packet registers a request to give up cores of a gang at its next boundary. -/
  | shrink (q : BitVec 8)
  /-- R275. When a packet's work is performed, the command processor adds to the completion counter. -/
  | packetComplete (q : BitVec 8) (tag : BitVec 32)
  /-- R271. A host write of QWR accepts a new write count or puts the queue into overrun. -/
  | doorbell (q : BitVec 8) (w : W64)
  /-- R269. QSTAT.SKIP in the error state drops the head packet and reactivates the queue. -/
  | queueSkip (q : BitVec 8)
  /-- R269. QSTAT.RESET discards every pending packet and reactivates the queue. -/
  | queueReset (q : BitVec 8)
  /-- R269. Writing STATE 0b00 enables a queue from the disabled, overrun or error state. -/
  | queueEnable (q : BitVec 8)
  /-- R269. Writing STATE 0b11 disables a queue's dispatch. -/
  | queueDisable (q : BitVec 8)
  /-- R377. A write to a register without behaviour of its own sets its writable fields under its access rules; `reg` is the offset in BAR0,
  or with bit 31 set in BAR2 (R374). -/
  | managementRegisterWrite (who : BitVec 18) (reg : BitVec 32) (val : W64)
  /-- R338. A write of the task-abort register names a logical core of a gang to end. -/
  | tabort (who : BitVec 18) (val : W64)
  /-- R338. At the target's next boundary its work is discarded, its barriers abandoned and its core released. -/
  | endTask (gang : BitVec 32) (lcid : BitVec 16)
  /-- R340. SATCTL OP 1 requests a portable image at the next boundary, after which the gang ends. -/
  | satchelFreeze (who : BitVec 18) (q : BitVec 8) (tag : BitVec 32)
  /-- R340. SATCTL OP 2 requests a portable image at the next boundary, after which the gang continues. -/
  | satchelCheckpoint (who : BitVec 18) (q : BitVec 8) (tag : BitVec 32)
  /-- R354. SATCTL OP 3 stops every member at its next progress point and writes an in-place image. -/
  | urgentPreemption (who : BitVec 18) (q : BitVec 8) (tag : BitVec 32)
  /-- R351. SATCTL OP 4 checks an image and restores it as a gang on this die. -/
  | satchelRestore (who : BitVec 18) (q : BitVec 8) (tag : BitVec 32)
  /-- R354. SATCTL OP 5 releases the pads held by an in-place image. -/
  | releaseInPlaceImage (who : BitVec 18) (q : BitVec 8) (tag : BitVec 32)
  /-- R363. DBGCTL MODE 0 disarms debug stops. -/
  | debugOff (who : BitVec 18) (q : BitVec 8) (tag : BitVec 32)
  /-- R363. DBGCTL MODE 1 arms a stop at the boundary where SSC reaches SSM. -/
  | debugAtSsm (who : BitVec 18) (q : BitVec 8) (tag : BitVec 32)
  /-- R363. DBGCTL MODE 2 arms a stop at every boundary. -/
  | debugEveryBoundary (who : BitVec 18) (q : BitVec 8) (tag : BitVec 32)
  /-- R363. DBGCTL MODE 3 arms a single stop at the next boundary. -/
  | debugNextBoundary (who : BitVec 18) (q : BitVec 8) (tag : BitVec 32)
  /-- R364. A write of a queue number releases that queue's packet breakpoint. -/
  | bkrel (who : BitVec 18) (val : W64)
  /-- R360. Setting TRCTL.EN from 0 to 1 zeroes WR, RD and DROP and starts tracing. -/
  | traceEnable (who : BitVec 18) (val : W64)
  /-- R360. Clearing TRCTL.EN stops tracing. -/
  | traceDisable (who : BitVec 18) (val : W64)
  /-- R366. A machine write of FREEZE stops every clock of the package at one GTC count. -/
  | freeze (who : BitVec 18)
  /-- R377. In recovery, a host write of an image length starts verification of the staged firmware image. -/
  | fwgo (len : W64)
  /-- R322. Machine firmware submits a key enrolment request for slots 1–7. -/
  | keyenr (who : BitVec 18) (addr : W64)
  /-- R379. The root-of-trust core returns the requested measurements, before or after any concurrent change. -/
  | getMeasurements (index : Byte)
  /-- R220. Supervisor software starts a page move by a migration engine on the mg path. -/
  | pageMoveStart (ctx : BitVec 16) (va : W64) (frame : W64)
  /-- R371. Machine software stages a new firmware image, which the root-of-trust core verifies in full and writes over the old one. -/
  | firmwareUpdate (who : BitVec 18) (addr : W64) (len : W64)
  /-- R367. Scrubbing finds an error that nobody consumes: bits [60:58] name the storage and whether the error was corrected (`State.scrub`),
  the others the place: an address, or for a pad its level in [63:61], its number in [57:32] and the offset in [31:0]. -/
  | scrubbing (addr : W64)
  /-- R118. Drains coprocessor and copies, writes back dirty copies, frees streams and slots and ends the logical core. -/
  | retire
  /-- R255. Puts the logical core into its exchange phase. -/
  | xphase
  /-- R262. Drains, runs pool tasks or arrives on the gang barrier, and ends the superstep when it completes. -/
  | sstep
  /-- R304. Returns from a trap bank, restoring privilege, REPC, ring entries and stopped copies. -/
  | eret
  /-- R305. Waits until an interrupt is pending for the core. -/
  | wfi
  /-- R333. Waits until every earlier coprocessor instruction completes and takes any pending late fault. -/
  | cdrain
  /-- R63. The coprocessor issues the instruction at the head of its queue when it is not frozen and the unit accepts it. -/
  | coprocessorIssue
  /-- R63. At the end of cycle i + L a coprocessor instruction's destinations are written. -/
  | destinationWrite
  /-- R249. At a blocking point a physical core saves one hosted logical core and loads the runnable one with the smallest hint. -/
  | logicalCoreSwitch
  /-- R250. An exchange word arrives at its target and lands, is held or is discarded. -/
  | depositArrive
  /-- R263. After barrier 0 completes, the roll-call record is written, pending stops and pre-emptions take effect, and timers restart. -/
  | superstepBoundary
  /-- R265. A logical core's superstep timer exceeds SSTL × 1,024 before it arrives, and it traps. -/
  | superstepOverrun
  /-- R150. The tile loader lands a row of a slot as its data arrive, making the slot ready after the last row. -/
  | tileRowLand
  /-- R222. A copy engine takes a copy from a core's start queue in round-robin order and runs it. -/
  | engineTakeCopy
  /-- R223. A copy completes, its tag becomes ready, its XRDY bit sets and its flags enter FSTAT. -/
  | copyComplete
  /-- R230. A copy meets a fault and stops at the first element it cannot complete, keeping its progress. -/
  | copyFaultStop
  /-- R237. A bound stream reads and transforms another vector into its four-entry buffer. -/
  | streamReadAhead
  /-- R108. A transfer into a non-resident function copies its payload into the instruction pad, evicting as needed. -/
  | demandCopyIn
  /-- R204. A home applies a release merge once its causal predecessors from every die are applied. -/
  | mergeApply
  /-- R204. A die receives a release notice carrying a stamp and counts it applied in order. -/
  | releaseNotice
  /-- R221. A migration engine finishes moving a page and the move counts as a release of the far-tier die. -/
  | migrationComplete
  /-- R220. Every 2²⁰ GTC ticks the fields of each page access counter halve. -/
  | counterHalve
  /-- R284. A cross-die request's timeout expires and the access fails with PEER_TIMEOUT. -/
  | crossDieTimeout
  /-- R284. A response that arrives after its timeout is discarded and counted. -/
  | lateResponse
  /-- R275. Every 1,000 GTC ticks the command processor checks waiting dependences again. -/
  | dependenceRecheck
  /-- R277. Each 2²⁰ ticks a waiting head raises its queue's effective priority by one, up to 7. -/
  | priorityAging
  /-- R277. A head LAUNCH waiting 2²³ ticks becomes senior and free cores and groups are held for it. -/
  | launchSeniority
  /-- R362. A trace writer held by a migrating page for 10,000 ticks starts dropping and counting records. -/
  | traceHoldExpiry
  /-- R366. Asserting the package's freeze input stops every clock at one GTC count. -/
  | freezeInput
  /-- R366. A frozen part's in-place records and pads are read out through the test access port. -/
  | testAccessReadout
  /-- R378. Power-good or reset verifies firmware, brings up the dies, clears queues and pads and trains the host link. -/
  | reset
  /-- R378. Verification of a recovery image ends, running and flashing it or rejecting it. -/
  | recoveryImageVerified
  /-- R323. The root-of-trust core verifies, checks, lays out, relocates and seals a Thomal object and writes STATUS. -/
  | load
  /-- R326. The root-of-trust core deletes a load record, evicts its functions and zeroes and unseals its code frames. -/
  | unload
  /-- R379. The root-of-trust core answers an SPDM GET_VERSION request. -/
  | getVersion
  /-- R379. The root-of-trust core answers an SPDM GET_CAPABILITIES request. -/
  | getCapabilities
  /-- R379. The root-of-trust core answers an SPDM NEGOTIATE_ALGORITHMS request. -/
  | negotiateAlgorithms
  /-- R379. The root-of-trust core answers an SPDM GET_DIGESTS request. -/
  | getDigests
  /-- R379. The root-of-trust core answers an SPDM GET_CERTIFICATE request. -/
  | getCertificate
  /-- R379. The root-of-trust core answers an SPDM CHALLENGE request. -/
  | challenge
  deriving DecidableEq, Repr

end Sys2Proof
end

