-- ==== Sys2Proof/Machine/State.lean ====
section
/-! DEFINITION. The state of the machine as plain data: the logical cores of one near-tier die, its pads, the
package's memory, the die's queues, gangs, engines, management registers and links (R10 to R45, and the chapters
each structure cites), and the reset state (R378). -/

namespace Sys2Proof.Machine

/-- Why a step ends with a fault. -/
inductive Fault where
  /-- Raised by `step` when every clock is stopped (R366): nothing changes state, and the part leaves this state
  only through reset. Safe. -/
  | clocksStopped
  deriving DecidableEq, Repr

/-- Why a step is refused. -/
inductive Refusal where
  /-- Raised by an arm of `exec` whose instruction has no meaning yet. Safe. -/
  | notModelled (mnemonic : String)
  deriving DecidableEq, Repr

/-- A trap or fault on its way to entry: cause code and the two values (R334). -/
structure Exn where
  code : BitVec 6
  tval : W64
  tval2 : W64
  deriving DecidableEq, Repr

/-- A pointer register: object pointer, cursor, cached length (R23). -/
structure PtrReg where
  ptr : W64
  cur : BitVec 32
  len : BitVec 40
  deriving DecidableEq, Repr

/-- The states of a tile slot, coded 0 to 3 (R27). -/
inductive SlotState where
  | free | claimed | loading | ready
  deriving DecidableEq, Repr

/-- A tile slot: 4 KiB of data (row j at bits [1024j+1023:1024j]), a side area of 512 bytes, and its binding (R27). -/
structure Slot where
  state : SlotState
  tid : BitVec 8
  row : BitVec 32
  col : BitVec 32
  prog : BitVec 6
  data : BitVec 32768
  side : BitVec 4096
  deriving DecidableEq, Repr

/-- An accumulator: 32 × 32 cells of 64 bits, g in [63:32] and b in [31:0], cell (i, j) at 32i + j (R162), and the
detector's row mask, column mask and first report (R160), and the gain report (R173). -/
structure Acc where
  cells : Vector W64 1024
  rf : BitVec 32
  cf : BitVec 32
  frT : W64
  frT2 : W64
  grT : W64
  grT2 : W64
  deriving DecidableEq, Repr

/-- A carry: 32 pairs, g in [63:32] and b in [31:0]; empty when `valid` is false (R28). `valid` is ASTAT.KV. -/
structure Carry where
  valid : Bool
  pairs : Vector W64 32
  deriving DecidableEq, Repr

/-- An inbox register (R29). -/
structure Inbox where
  word : W64
  full : Bool
  deriving DecidableEq, Repr

/-- A vector a stream holds ready, with the flags that each of its elements raises (R88, R236, R237). -/
structure StreamVec where
  vec : VWord
  flags : List (BitVec 6)
  deriving DecidableEq, Repr

/-- A stream register: its binding and pop count, the vectors read ahead, the elements of the next vector that were read before a fault,
with their flags, and a fault held for the pop that needs the data (R30, R236 to R238). -/
structure Stream where
  bound : Bool
  addr : W64
  card : W64
  fmode : W64
  ssc : W64
  pops : BitVec 32
  entry : BitVec 512
  buf : List StreamVec
  part : List (Nat × BitVec 6)
  fault : Option Exn
  deriving DecidableEq, Repr

/-- What a copy on a tag does (R222, R225). -/
inductive CopyKind where
  | xfer | xgath | prefTr | prefMg
  deriving DecidableEq, Repr

/-- How far a running copy has come (R222, R223, R230): waiting in the start queue, moved to its end, met a
fault, stopped on that fault, stopped with the fault taken by the bank named (true: machine). -/
inductive CopyPhase where
  | queued | moved | met (e : Exn) | stopped (e : Exn) | taken (machine : Bool)
  deriving DecidableEq, Repr

/-- A copy: its start word, address and shape words, the values captured at issue, its progress in row-major
order and the flags of the elements landed (R225, R226, R230). -/
structure Copy where
  kind : CopyKind
  word : W32
  dst : W64
  src : W64
  shape : W64
  fmode : W64
  ssc : W64
  dstE : BitVec 512
  srcE : BitVec 512
  idxE : BitVec 512
  phase : CopyPhase
  row : Nat
  col : Nat
  flags : BitVec 6
  deriving DecidableEq, Repr

/-- A copy tag: idle, running, or ready (R223). -/
inductive Tag where
  | idle | running (c : Copy) | ready
  deriving DecidableEq, Repr

/-- One bank of trap registers, with the repetition state saved beside EPC (R31, R331). -/
structure Bank where
  cause : W64
  epc : W64
  tval : W64
  tval2 : W64
  cseq : W64
  srepc : W64
  deriving DecidableEq, Repr

/-- The state of a ring entry (R66). -/
inductive RingState where
  | notIssued | issued | complete | faulted
  deriving DecidableEq, Repr

/-- An entry of the sequence ring: address, instruction, captured values, progress, and the sources read (R66,
R121, R355); and a cycle of the core: that of the dispatch while the entry has not issued, then the last in which it writes (R62, R63). -/
structure RingEntry where
  seq : BitVec 16
  addr : W64
  instr : Instr
  state : RingState
  prog : Nat
  xa : W64
  xb : W64
  vl : BitVec 7
  ptr : PtrReg
  entry : BitVec 512
  held : Bool
  src1 : VWord
  src2 : VWord
  mask : W64
  time : Nat
  deriving DecidableEq, Repr

/-- A destination of the coprocessor whose write has not landed, with the bits it writes (R63). -/
inductive PendDest where
  | v (r : BitVec 5) (mask val : VWord)
  | m (r : BitVec 3) (mask val : W64)
  deriving DecidableEq, Repr

/-- A write that lands at the end of coprocessor cycle `due` (R63). -/
structure PendWrite where
  due : Nat
  dest : PendDest
  deriving DecidableEq, Repr

/-- A late fault waiting to be taken: the ring entry it names, and the values (R66). -/
structure Late where
  seq : BitVec 16
  exn : Exn
  deriving DecidableEq, Repr

/-- The last `mma` or `ascan` that has issued, so that an urgent pre-emption can stop it before its end: its sequence number, the cycle it
started in, the cycles it takes, the accumulators, carries and ASTAT from before it, and FSTAT as it would be without it (R354, R337). -/
structure Work where
  seq : BitVec 16
  start : Nat
  cycles : Nat
  acc : Vector Acc 4
  k : Vector Carry 4
  astat : W64
  fstat : W64
  deriving DecidableEq, Repr

/-- A word in an exchange port: sender, target, inbox, value, the cycles of its way, the core cycle at whose end it arrives, whether it
has left the port, and whether it is held at its target (R250). -/
structure PortWord where
  src : BitVec 16
  tgt : BitVec 16
  qn : BitVec 4
  word : W64
  hop : Nat
  due : Nat
  left : Bool
  held : Bool
  deriving DecidableEq, Repr

/-- A logical core's arrival at a barrier: the phase of its last arrival, whether it has waited for it, its vote,
and whether a `bvote` made it (R258). -/
structure BarRec where
  phase : Option Nat
  waited : Bool
  vote : Bool
  byVote : Bool
  deriving DecidableEq, Repr

/-- What a logical core waits for: a blocking point (R17, R249), that is an empty inbox, a phase of a barrier at `wait` or `bvote`, the
phase of an earlier arrival at `arrive`, the gang barrier or the empty exchange port at `sstep`, an interrupt; or a wait that is none
(R268): releases at `oacq`, or a stall that runs again. -/
inductive Block where
  | inbox (q : BitVec 4) (count : Nat)
  | phase (n : BitVec 2) (p : Nat)
  | arrival (n : BitVec 2) (p : Nat)
  | sstep (p : Nat)
  | port
  | irq
  | causal
  | stall
  deriving DecidableEq, Repr

/-- What a logical core is doing (R16, R118, R338). -/
inductive RunState where
  | idle | running | retired | ended
  deriving DecidableEq, Repr

/-- A logical core: every register of R21 and R31, and the progress fields that let it resume. -/
structure LCore where
  gang : BitVec 32
  run : RunState
  blk : Option Block
  lcid : BitVec 16
  lcn : BitVec 16
  wid : W64
  wfw : W64
  wfe : W64
  pcid : BitVec 9
  pc : W64
  unit : Option W64
  pfx : Option (BitVec 22)
  x : Vector W64 32
  p : Vector PtrReg 16
  v : Vector VWord 32
  m : Vector W64 8
  t : Vector Slot 16
  acc : Vector Acc 4
  k : Vector Carry 4
  q : Vector Inbox 16
  st : Vector Stream 8
  tags : Vector Tag 64
  startQ : List (BitVec 6)
  vl : BitVec 7
  ssc : W64
  status : W64
  fstat : W64
  fmode : W64
  astat : W64
  repc : W64
  root : W64
  sbank : Bank
  mbank : Bank
  exch : Bool
  tip : Bool
  saveX1 : W64
  saveP13 : PtrReg
  saveP15 : PtrReg
  bars : Vector BarRec 4
  know : Vector Nat 10
  cidx : List (W64 × W64)
  cxpins : List W64
  ring : List RingEntry
  nextSeq : BitVec 16
  late : Option Late
  pend : List PendWrite
  loads : List (BitVec 16 × BitVec 4)
  ccy : Nat
  xrdy : Vector Nat 32
  divFree : Nat
  /-- The cycle in which the coprocessor froze, while an instruction freezes it (R64). -/
  frozenAt : Option Nat
  /-- The first cycle in which the coprocessor may issue again: one instruction a cycle (R63). -/
  copNext : Nat
  vecFree : Nat
  matFree : Nat
  port : List PortWord
  hint : BitVec 19
  timer : Nat
  overrun : Bool
  handed : Option (W64 × W64 × W64)
  /-- Trap levels since the entry into a late-fault handler whose `eret` has not come; 0 outside one (R329). -/
  handler : Nat
  /-- The late fault whose handler runs, while it runs (R66, R333). -/
  taken : Option Late
  /-- Faults of completed instructions that an earlier late fault has put off (R330). -/
  posts : List Late
  work : Option Work
  /-- Peer faults that acknowledgements have brought and that no fence has raised (R217). -/
  acks : List Exn
  /-- Machine checks of soft errors that wait for the core's next point (R368). -/
  lost : List Exn
  /-- MODE of a debug stop that the core takes once its `sstep` has ended: it was in a handler when the superstep ended (R363). -/
  debug : Option W64
  deriving DecidableEq, Repr

/-- Which pad: a core's, a cluster's, the die's (R15). -/
inductive PadId where
  | core (pcid : Nat) | cluster (n : Nat) | die
  deriving DecidableEq, Repr

/-- A place of storage: an offset in a pad, a physical address on the part or in host memory, or a place in another package. -/
inductive Loc where
  | pad (id : PadId) (off : Nat)
  | phys (host : Bool) (cmp : Bool) (pa : Nat)
  | away
  deriving DecidableEq, Repr

/-- A pad: its bytes that are not zero, its bump pointer, the offsets of dirty bytes of copies, the extents below
the bump pointer that hold no object, the extents a collection kept, its owner, and the context that owned it last (R14, R181, R185, R195, R355,
R401). -/
structure Pad where
  id : PadId
  mem : List Host.Cell
  bump : Nat
  dirty : List Nat
  gaps : List (Nat × Nat)
  kept : List (Nat × Nat)
  owner : Option (BitVec 16)
  last : Option (BitVec 16)
  deriving DecidableEq, Repr

/-- A function of a context's code map: payload start and LEN (R106). -/
structure FuncEntry where
  ctx : BitVec 16
  start : W64
  len : Nat
  deriving DecidableEq, Repr

/-- A function resident in a core's instruction pad: payload start, LEN, its words, and whether it came by a
prefetch and has been entered (R107 to R110). -/
structure Resident where
  pcid : BitVec 9
  ctx : BitVec 16
  start : W64
  len : Nat
  words : List W32
  prefetched : Bool
  entered : Bool
  deriving DecidableEq, Repr

/-- One function of a load record (R311): its header, LEN and successors. -/
structure FuncRec where
  hdr : Nat
  len : Nat
  succ : List Nat
  deriving DecidableEq, Repr

/-- An entry of a timetable: superstep, sender, receiver, inbox and cycle (R313). -/
structure TimeEnt where
  ss : Nat
  src : Nat
  dst : Nat
  qn : Nat
  cycle : Nat
  deriving DecidableEq, Repr

/-- One kernel of a load record (R312, R313): its L, the entry function of each placement range, the nominal
cores, the timetable. -/
structure KernRec where
  l : Nat
  places : List (Nat × Nat × Nat)
  nom : List Nat
  ttab : List TimeEnt
  deriving DecidableEq, Repr

/-- A load record of (die, CTX, BASE) (R323 step 6). -/
structure LoadRec where
  ctx : BitVec 16
  base : W64
  imgLen : Nat
  codeLen : Nat
  feat : BitVec 512
  funcs : List FuncRec
  kerns : List KernRec
  tens : List (Nat × Nat × BitVec 512)
  emul : List (Nat × Nat)
  frames : List Nat
  deriving DecidableEq, Repr

/-- A page of an image that is being loaded: its frame, whether its lines are compressed, and its virtual address, by which its write marks the
dirty-page bitmap (R297, R323). -/
structure ImagePage where
  frame : Nat
  cmp : Bool
  va : Nat
  deriving DecidableEq, Repr

/-- A LOAD between its steps 4 and 5: the file in the private memory of the root-of-trust core, the context, BASE, the frames that step 3
found, the relocations that step 4 computed, and the cycle in which it goes on (R323, R325). -/
structure LoadJob where
  file : List Host.Cell
  ctx : BitVec 16
  base : Nat
  pages : List ImagePage
  vals : List (Nat × Nat × Nat)
  due : Nat
  deriving DecidableEq, Repr

/-- A SHRINK that waits for its target's boundary: its queue, TAG, context and CA, and NVAC (R280). -/
structure Shrink where
  queue : BitVec 8
  tag : BitVec 32
  ctx : BitVec 16
  ca : W64
  nvac : BitVec 16
  deriving DecidableEq, Repr

/-- A gang: the launch that made it, its cores, and its barriers and pool (R16, R245, R256, R260). -/
structure Gang where
  id : BitVec 32
  tag : BitVec 32
  queue : BitVec 8
  ctx : BitVec 16
  hdr : BitVec 512
  ca : W64
  l : Nat
  pcids : List (BitVec 9)
  phase : Vector Nat 4
  count : Vector (List (BitVec 16)) 4
  join : Vector (Vector Nat 10) 4
  doneJoin : Vector (Vector Nat 10) 4
  doneVote : Vector Bool 4
  arriveAt : List (BitVec 16 × Nat)
  boundary : Bool
  depth : Nat
  abandoned : Option (BitVec 16)
  shrinks : List Shrink
  cut : Option (BitVec 4)
  deriving DecidableEq, Repr

/-- The registers of one queue (R269), with when its head began to wait (R277), a released breakpoint (R364) and
the launches of it that still run (R276 SER). -/
structure Queue where
  qbase : W64
  qcfg : W64
  qwr : W64
  qrd : W64
  qstat : W64
  since : Option Nat
  aged : Nat
  senior : Bool
  released : Bool
  deriving DecidableEq, Repr

/-- An interrupt that is pending for the core INTRT names (R332). -/
structure Irq where
  code : BitVec 6
  tval : W64
  tval2 : W64
  deriving DecidableEq, Repr

/-- The management block of the die (R377), with the registers other rules lay out. -/
structure Mgmt where
  enset : BitVec 320
  ctxbase : W64
  ctxn : W64
  expbase : W64
  ldmbox : W64
  candbase : W64
  candlen : W64
  candthr : W64
  candwr : W64
  canddrop : W64
  tmod : W64
  tmox : W64
  latecnt : W64
  intrt : W64
  satctl : W64
  satimg : W64
  satcnt : W64
  dbgctl : W64
  dbgss : W64
  bkstat : BitVec 256
  trbase : W64
  trlen : W64
  trctl : W64
  trwr : W64
  trrd : W64
  trdrop : W64
  erbase : W64
  erlen : W64
  erwr : W64
  errd : W64
  erdrop : W64
  pwrlim : W64
  pwrstat : W64
  linkstat : Vector W64 26
  /-- What LINKSTAT records of the far-tier ports whose module is absent or has failed training (R375); no rule gives that record a register (log entry 166),
  so no read shows it. -/
  farFailed : BitVec 16
  keyenr : W64
  fwstat : W64
  deriving DecidableEq, Repr

/-- The access counter of a 64 KiB page: CNT, REP and TIER (R220). -/
structure PageCtr where
  ctx : BitVec 16
  vpn : BitVec 48
  cnt : Nat
  rep : Bool
  far : Bool
  deriving DecidableEq, Repr

/-- A release merge on its way to a home: the context, the virtual address of the payload, its length and the bytes
that change (R204, R349). -/
structure Merge where
  ctx : BitVec 16
  addr : W64
  len : Nat
  bytes : List (Nat × Byte)
  deriving DecidableEq, Repr

/-- An object as its home names it: the die, its context there and its pointer (R204). -/
structure HomeObj where
  die : BitVec 4
  ctx : BitVec 16
  ptr : W64
  deriving DecidableEq, Repr

/-- A message from another die of the package: the object released, its stamp, and the merge it carries; a notice carries none (R204). -/
structure DieMsg where
  src : BitVec 4
  obj : HomeObj
  stamp : Vector Nat 10
  merge : Option Merge
  deriving DecidableEq, Repr

/-- A word of a page table, of a context's table entry, of an import or an export entry as the die has read it, which an access may use
until `sfence` drops it (R296, R306): its address and value, its context, and the addresses it translates (size 0: none). -/
structure HeldWord where
  pa : Nat
  val : W64
  ctx : BitVec 16
  base : Nat
  size : Nat
  deriving DecidableEq, Repr

/-- A message that holds permits of a link direction: its class, its context, and how many permits came from the class's
reserve and from the shared pool (R282). -/
structure LinkMsg where
  cls : BitVec 2
  ctx : BitVec 16
  own : Nat
  shared : Nat
  deriving DecidableEq, Repr

/-- One direction of a link as its sender sees it: free permits of each class and of the shared pool, and the messages whose
permits have not come back (R282). -/
structure Link where
  control : Nat
  request : Nat
  response : Nat
  bulk : Nat
  shared : Nat
  out : List LinkMsg
  deriving DecidableEq, Repr

/-- A page move under way: the logical core that started it, context, page, destination frame (R208, R220, R221). -/
structure Move where
  gang : BitVec 32
  lcid : BitVec 16
  ctx : BitVec 16
  va : W64
  frame : W64
  deriving DecidableEq, Repr

/-- A key slot of the root-of-trust core (R322). -/
structure KeySlot where
  used : Bool
  super : Bool
  key : List Byte
  deriving DecidableEq, Repr

/-- The root-of-trust core and the firmware it holds (R371, R378). -/
structure Rot where
  keys : Vector KeySlot 8
  flash : List Byte
  /-- The recovery window, which the host writes (R378). -/
  window : List Byte
  recovery : Bool
  /-- The length of the recovery image that is being verified. -/
  verifying : Option Nat
  /-- The verified image that an update is writing over the one in flash, and the cycle in which it will be done (R371). -/
  writing : Option (List Byte × Nat)
  deriving DecidableEq, Repr

/-- The asymmetric and hash algorithms of attestation: RSASSA-3072 and SHA-256 alone (R379). -/
inductive SpdmAsym where
  | rsassa3072
  deriving DecidableEq, Repr
inductive SpdmHash where
  | sha256
  deriving DecidableEq, Repr

/-- What an answer to GET_CAPABILITIES names: the requests that are supported, and whether sessions are (R379). -/
structure SpdmCaps where
  digests : Bool
  certificate : Bool
  challenge : Bool
  measurements : Bool
  sessions : Bool
  deriving DecidableEq, Repr

/-- An answer the root-of-trust core has given to an attestation request (R379): the versions, the capabilities, the algorithms, the
digest of the certificate chain, the chain, what a challenge signs with the signature, a measurement. -/
inductive SpdmReply where
  | version (major minor : Nat)
  | capabilities (caps : SpdmCaps)
  | algorithms (asym : List SpdmAsym) (hash : List SpdmHash)
  | digests (d : BitVec 256)
  | certificate (c : List Byte)
  | challenge (chain measured : BitVec 256) (signature : List Byte)
  | measurement (index : Byte) (value : BitVec 2560)
  deriving DecidableEq, Repr

/-- A byte written through a queue-pair descriptor, out of the part, with the key and the MTU that its descriptor names (R232, R376). -/
structure RoceWrite where
  port : BitVec 3
  qpn : BitVec 24
  raddr : W64
  rkey : BitVec 32
  mtu : BitVec 32
  byte : Byte
  deriving DecidableEq, Repr

/-- Where the header of a pinned object stands, with the die, the context and the virtual address that its pages are mapped by (0 in a pad) (R195,
R297). -/
structure PinSpot where
  loc : Loc
  die : Nat
  ctx : BitVec 16
  va : Nat
  deriving DecidableEq, Repr

/-- An in-place image that holds the pads of its gang (R354). -/
structure HeldImage where
  img : W64
  ctx : BitVec 16
  gang : Gang
  cores : List LCore
  pads : List Pad
  deriving DecidableEq, Repr

/-- The machine. -/
structure State where
  /-- The logical core that moves, and the others of the die (R45, R249). -/
  cur : LCore
  others : List LCore
  /-- The physical cores in the order they move next; empty: the present one goes on. -/
  turns : List (BitVec 9)
  /-- Inputs and steps of other parts of the machine that come next. -/
  inputs : List Instr
  /-- Physical memory (R373) and host memory (R374): the bytes that are not zero. -/
  mem : List Host.Cell
  hostMem : List Host.Cell
  pads : List Pad
  codeMap : List FuncEntry
  ipad : List Resident
  loads : List LoadRec
  /-- The mailboxes of the load and unload requests that have not been served, oldest first (R325). -/
  ldq : List W64
  /-- The LOAD that is being served, between its checks and its writes (R325). -/
  loading : Option LoadJob
  gangs : List Gang
  nextGang : BitVec 32
  queues : Vector Queue 256
  lastQ : Vector (Option (BitVec 8)) 8
  irqs : List Irq
  /-- Interrupts raised to the host, by queue (R271, R278). -/
  hostIrqs : List (BitVec 8)
  /-- CUT of the last cut that cleared a context's dirty-page bitmap (R345). -/
  lastCuts : List (BitVec 16 × W64)
  mg : Mgmt
  feat : BitVec 512
  die : BitVec 4
  pkg : BitVec 8
  /-- The package number at the strap inputs (R378). -/
  straps : BitVec 8
  /-- The management blocks of the near-tier dies (R377); that of this die is `mg`. -/
  peers : Vector Mgmt 8
  /-- The far-tier ports whose module is present and trained; the range of another is unmapped (R375). -/
  farPorts : BitVec 16
  frameOwner : List (Nat × BitVec 16)
  seals : List Nat
  lineTags : List (Nat × BitVec 4)
  /-- The sectors of 32 bytes that have failed uncorrectably: of memory, and of pads (R367). -/
  badSectors : List Nat
  badPads : List (PadId × Nat)
  /-- For each source of corrected errors the GTC of its last type 1 record, and the corrected errors since (R367). -/
  corr : List (BitVec 16 × Nat × Nat)
  /-- The physical address of the last failure at each address that an access has reported (R367, R370). -/
  failAt : List (W64 × W64)
  retiredLines : List Nat
  /-- The lines that a spare line has been taken for, one entry a spare (R369). -/
  spared : List Nat
  retiredFrames : List Nat
  pageCtrs : List PageCtr
  moves : List Move
  relNo : Nat
  applied : Vector Nat 10
  /-- Messages that other dies have sent to this one and that it has not applied, oldest first: an input of the model. -/
  msgs : List DieMsg
  /-- The stamps of the releases each object has had, joined (R204). -/
  stamps : List (HomeObj × Vector Nat 10)
  /-- The headers whose P bit is set: those of the objects that in-flight work pins (R25, R195). -/
  marked : List PinSpot
  /-- Table words that the die has read since `sfence` last dropped them (R296). -/
  held : List HeldWord
  /-- The next request of this die that crosses to another die of the package gets no response within its limit; the requests that
  have timed out and may still be answered (R284). -/
  silent : Bool
  expired : Nat
  /-- The directions of the links. The spec gives no count of die-to-die bridges: there are as many directions as the 26 ports have, and which
  bridge or port a number names is open (DESIGN CHOICE, log entry 157). -/
  links : Vector Link 52
  images : List HeldImage
  /-- Trace records of the present tick, by their source, which are written when it has passed (R359, R362). -/
  trPend : List (BitVec 256)
  trHeld : List (BitVec 256)
  trHoldSince : Option Nat
  trGap : Nat
  trGapAt : Nat
  /-- A write-back has met a memory error that no trap has reported yet (R367). -/
  wbFailed : Bool
  /-- A write-back of the word under way has failed: what its write-backs have done stands (R118, R196). -/
  stands : Bool
  /-- The levels of the pads that a `Place` of the word under way has collected, in order: where it traps, they stand (R184). -/
  collected : List Nat
  /-- The contexts whose identifier table the die has made zero since the last reset, since they were created (R144). -/
  created : List (BitVec 16)
  rot : Rot
  spdm : List SpdmReply
  roce : List RoceWrite
  /-- What the test access port has read out: for each physical core its in-place record and its RAWPAD (R366). -/
  readout : List (BitVec 9 × List Host.Cell)
  frozen : Bool
  clk : Nat
  free : Nat
  deriving DecidableEq, Repr

/-- The null pointer register (R21). -/
def PtrReg.null : PtrReg := ⟨0, 0, 0⟩
/-- A free tile slot of zeros (R21). -/
def Slot.zero : Slot := ⟨.free, 0, 0, 0, 0, 0, 0⟩
/-- A plain accumulator of zeros (R21). -/
def Acc.zero : Acc := ⟨Vector.replicate 1024 0, 0, 0, 0, 0, 0, 0⟩
/-- An empty carry (R28). -/
def Carry.empty : Carry := ⟨false, Vector.replicate 32 0⟩
/-- An unbound stream (R21). -/
def Stream.unbound : Stream := ⟨false, 0, 0, 0, 0, 0, 0, [], [], none⟩
/-- A bank of zeros: CAUSE holds NONE until the first trap (R334). -/
def Bank.zero : Bank := ⟨0, 0, 0, 0, 0, 0⟩
/-- No arrival yet (R258). -/
def BarRec.none : BarRec := ⟨.none, true, false, false⟩

/-- The largest hint: a core that has given none (R249). -/
def noHint : BitVec 19 := 0x7FFFF

/-- A logical core as steps 2 and 3 of the install sequence leave it (R43, R21). -/
def LCore.cleared : LCore where
  gang := 0
  run := .idle
  blk := none
  lcid := 0
  lcn := 0
  wid := 0
  wfw := 0
  wfe := 0
  pcid := 0
  pc := 0
  unit := none
  pfx := none
  x := Vector.replicate 32 0
  p := Vector.replicate 16 PtrReg.null
  v := Vector.replicate 32 0
  m := (Vector.replicate 8 0).set 0 0xFFFFFFFFFFFFFFFF
  t := Vector.replicate 16 Slot.zero
  acc := Vector.replicate 4 Acc.zero
  k := Vector.replicate 4 Carry.empty
  q := Vector.replicate 16 ⟨0, false⟩
  st := Vector.replicate 8 Stream.unbound
  tags := Vector.replicate 64 Tag.idle
  startQ := []
  vl := 0
  ssc := 0
  status := 0
  fstat := 0
  fmode := 0
  astat := 0
  repc := 0
  root := 0
  sbank := Bank.zero
  mbank := Bank.zero
  exch := false
  tip := false
  saveX1 := 0
  saveP13 := PtrReg.null
  saveP15 := PtrReg.null
  bars := Vector.replicate 4 BarRec.none
  know := Vector.replicate 10 0
  cidx := []
  cxpins := []
  ring := []
  nextSeq := 0
  late := none
  pend := []
  loads := []
  ccy := 0
  xrdy := Vector.replicate 32 0
  divFree := 0
  frozenAt := none
  copNext := 0
  vecFree := 0
  matFree := 0
  port := []
  hint := noHint
  timer := 0
  overrun := false
  handed := none
  handler := 0
  taken := none
  posts := []
  work := none
  acks := []
  lost := []
  debug := none

/-- A queue after reset: disabled (R269). -/
def Queue.reset : Queue := ⟨0, 0, 0, 0, 3, none, 0, false, false⟩

/-- The permits a direction of a link keeps for its classes and its shared pool (R282). -/
def Link.reset : Link := ⟨16, 32, 64, 16, 384, []⟩

/-- The management block at reset (R377). -/
def Mgmt.reset : Mgmt where
  enset := BitVec.ofNat 320 (2 ^ 288 - 1)
  ctxbase := 0
  ctxn := 0
  expbase := 0
  ldmbox := 0
  candbase := 0
  candlen := 0
  candthr := 0
  candwr := 0
  canddrop := 0
  tmod := 0x400000
  tmox := 0x2000000
  latecnt := 0
  intrt := 0
  satctl := 0
  satimg := 0
  satcnt := 0
  dbgctl := 0
  dbgss := 0
  bkstat := 0
  trbase := 0
  trlen := 0
  trctl := 0
  trwr := 0
  trrd := 0
  trdrop := 0
  erbase := 0
  erlen := 0
  erwr := 0
  errd := 0
  erdrop := 0
  pwrlim := 3200
  pwrstat := 0
  linkstat := Vector.replicate 26 0
  farFailed := 0
  keyenr := 0
  fwstat := 0

/-- The root-of-trust core after a reset that found a good firmware image (R371, R322). -/
def Rot.reset : Rot where
  keys := (Vector.replicate 8 ⟨false, false, []⟩).set 0 ⟨true, true, Config.drihusKey⟩
  flash := Config.bootImage
  window := []
  recovery := false
  verifying := none
  writing := none

/-- The machine after reset and bring-up (R378): every queue disabled, every pad zero and without owner, the frame
owner table empty, no gang, cores waiting for launches. -/
def State.reset : State where
  cur := LCore.cleared
  others := []
  turns := []
  inputs := []
  mem := []
  hostMem := []
  pads := []
  codeMap := []
  ipad := []
  loads := []
  ldq := []
  loading := none
  gangs := []
  nextGang := 1
  queues := Vector.replicate 256 Queue.reset
  lastQ := Vector.replicate 8 none
  irqs := []
  hostIrqs := []
  lastCuts := []
  mg := Mgmt.reset
  feat := 0x7FFF
  die := 0
  pkg := 0
  straps := 0
  peers := Vector.replicate 8 Mgmt.reset
  farPorts := 0xFFFF
  frameOwner := []
  seals := []
  lineTags := []
  badSectors := []
  badPads := []
  corr := []
  failAt := []
  retiredLines := []
  spared := []
  retiredFrames := []
  pageCtrs := []
  moves := []
  relNo := 0
  applied := Vector.replicate 10 0
  msgs := []
  stamps := []
  marked := []
  held := []
  silent := false
  expired := 0
  links := Vector.replicate 52 Link.reset
  images := []
  trPend := []
  trHeld := []
  trHoldSince := none
  trGap := 0
  trGapAt := 0
  wbFailed := false
  stands := false
  collected := []
  created := []
  rot := Rot.reset
  spdm := []
  roce := []
  readout := []
  frozen := false
  clk := 0
  free := 0

end Sys2Proof.Machine
end

