-- ==== Sys2Proof/Machine/Fp.lean ====
section
/-! DEFINITION. Number formats and rounding (R80 to R96): exact values, the one rounding function with its flags, the
conversions, and the arithmetic helpers. A type is named by its code of R56. -/

namespace Sys2Proof.Machine.Fp

/-- Flags of FSTAT (R38). -/
abbrev Flags := BitVec 6
def fNV : Flags := 1
def fDZ : Flags := 2
def fOF : Flags := 4
def fUF : Flags := 8
def fNX : Flags := 16
def fSAT : Flags := 32

/-- An exact value: a NaN (signalling or not), an infinity, or (−1)^neg · m · 2^e. -/
inductive Num where
  | nan (sig : Bool)
  | inf (neg : Bool)
  | fin (neg : Bool) (m : Nat) (e : Int)
  deriving DecidableEq, Repr

/-- Exponent bits, fraction bits, bias of a floating-point type code (R80). -/
def expBits (t : Nat) : Nat :=
  if t = 8 then 11 else if t = 9 then 8 else if t = 10 then 8 else if t = 11 then 5 else if t = 12 then 4
  else if t = 13 then 5 else 2
def fracBits (t : Nat) : Nat :=
  if t = 8 then 52 else if t = 9 then 23 else if t = 10 then 7 else if t = 11 then 10 else if t = 12 then 3
  else if t = 13 then 2 else 1
def bias (t : Nat) : Int :=
  if t = 8 then 1023 else if t = 9 then 127 else if t = 10 then 127 else if t = 11 then 15 else if t = 12 then 7
  else if t = 13 then 15 else 1

/-- Width in bits of a type code (R56). -/
def width (t : Nat) : Nat :=
  if t = 0 ∨ t = 4 ∨ t = 12 ∨ t = 13 then 8
  else if t = 1 ∨ t = 5 ∨ t = 10 ∨ t = 11 then 16
  else if t = 2 ∨ t = 6 ∨ t = 9 then 32
  else if t = 14 ∨ t = 15 then 4
  else 64

/-- A floating-point type. -/
def isFloat (t : Nat) : Bool := decide (8 ≤ t) && decide (t ≤ 14)
/-- A signed integer type. -/
def isSigned (t : Nat) : Bool := decide (t < 4)
/-- The formats with an infinity: all but E4M3 and E2M1 (R81). -/
def hasInf (t : Nat) : Bool := t != 12 && t != 14

/-- The canonical NaN (R81); E2M1 has none and takes +0 (R84). -/
def canonNaN (t : Nat) : Nat :=
  if t = 8 then 0x7FF8000000000000 else if t = 9 then 0x7FC00000 else if t = 10 then 0x7FC0
  else if t = 11 then 0x7E00 else if t = 12 then 0x7F else if t = 13 then 0x7E else 0

/-- The sign bit of a format. -/
def signBit (t : Nat) : Nat := 2 ^ (width t - 1)
/-- The magnitude bits of the largest finite value (R80). -/
def maxFin (t : Nat) : Nat :=
  if t = 12 then 0x7E else if t = 14 then 0x7
  else (2 ^ expBits t - 1) * 2 ^ fracBits t - 1
/-- The magnitude bits of infinity. -/
def infBits (t : Nat) : Nat := (2 ^ expBits t - 1) * 2 ^ fracBits t

def withSign (t : Nat) (neg : Bool) (mag : Nat) : Nat := if neg then signBit t + mag else mag

/-- The exact value of a stored pattern (R80, R81). -/
def decode (t v : Nat) : Num :=
  let fw := fracBits t
  let neg := v / signBit t % 2 == 1
  let ex := v / 2 ^ fw % 2 ^ expBits t
  let fr := v % 2 ^ fw
  if ex = 2 ^ expBits t - 1 ∧ hasInf t = true then
    if fr = 0 then .inf neg else .nan (fr < 2 ^ (fw - 1))
  else if t = 12 ∧ ex = 15 ∧ fr = 7 then .nan false
  else if ex = 0 then .fin neg fr (1 - bias t - fw)
  else .fin neg (fr + 2 ^ fw) (ex - bias t - fw)

/-- The exact value of an integer pattern (R83). -/
def ofInt (z : Int) : Num := .fin (z < 0) z.natAbs 0
def intVal (t v : Nat) : Int :=
  if isSigned t then sextNat v (width t) else ((v % 2 ^ width t : Nat) : Int)

/-- The exact value of a stored element of any type but q4. -/
def value (t v : Nat) : Num := if isFloat t then decode t v else ofInt (intVal t v)

/-- What the stochastic mode needs beside the value: FMODE.RM and SEED, LCID, SSC (R87). -/
structure Mode where
  rm : Nat
  seed : Nat
  lcid : Nat
  ssc : Nat
  deriving DecidableEq, Repr

/-- RNE, whatever FMODE holds (R79, R96). -/
def Mode.rne : Mode := ⟨0, 0, 0, 0⟩

/-- Mix of R87, products modulo 2^64. -/
def mix (z : W64) : W64 :=
  let z := (z ^^^ (z >>> 31)) * 0x8F1BC4A73D5962E5
  let z := (z ^^^ (z >>> 29)) * 0xB3C501E97A2D4C6B
  z ^^^ (z >>> 32)

/-- m · 2^e in units of 2^q: whole units, the remainder, and the bits of the remainder. -/
def split (m : Nat) (e q : Int) : Nat × Nat × Nat :=
  if q ≤ e then (m * 2 ^ (e - q).toNat, 0, 0)
  else
    let sh := (q - e).toNat
    (m / 2 ^ sh, m % 2 ^ sh, sh)

/-- The exponent of the leading bit of m · 2^e. -/
def topExp (m : Nat) (e : Int) : Int := e + m.log2

/-- The unit in which a value is rounded: the format's precision, not below its subnormals (R84 step 3). -/
def unitExp (t m : Nat) (e : Int) : Int := max (topExp m e) (1 - bias t) - fracBits t

/-- Magnitude bits of `k` units of 2^q, where q is at least the subnormal unit and k has at most one bit more than the
precision. -/
def packMag (t k : Nat) (q : Int) : Nat :=
  let fw := fracBits t
  let (k, q) := if 2 ^ (fw + 1) ≤ k then (k / 2, q + 1) else (k, q)
  if k < 2 ^ fw then k else (q + fw + bias t).toNat * 2 ^ fw + (k - 2 ^ fw)

/-- T of R87: x rounded toward zero to FP64, saturated to the largest finite. -/
def truncF64 (neg : Bool) (m : Nat) (e : Int) : Nat :=
  if m = 0 then withSign 8 neg 0
  else
    let q := unitExp 8 m e
    withSign 8 neg (min (packMag 8 (split m e q).1 q) (maxFin 8))

/-- StochU of R87. -/
def stochU (md : Mode) (neg : Bool) (m : Nat) (e : Int) (i : Nat) : Nat :=
  let h : W64 := BitVec.ofNat 64 (md.seed % 2 ^ 32 * 2 ^ 32 + md.lcid % 2 ^ 32)
  let h := mix (h ^^^ BitVec.ofNat 64 md.ssc)
  let h := mix (h ^^^ BitVec.ofNat 64 (truncF64 neg m e))
  let h := mix (h ^^^ BitVec.ofNat 64 i)
  h.toNat % 2 ^ 32

/-- Step 4 of R84: whether the value farther from zero is chosen. -/
def chooseHi (md : Mode) (neg : Bool) (m : Nat) (e : Int) (i k rem sh : Nat) : Bool :=
  if rem = 0 then false
  else if md.rm = 1 then false
  else if md.rm = 2 then !neg
  else if md.rm = 3 then neg
  else if md.rm = 4 then decide (stochU md neg m e i < rem * 2 ^ 32 / 2 ^ sh)
  else decide (2 ^ sh < 2 * rem) || (2 * rem == 2 ^ sh && k % 2 == 1)

/-- Units after rounding at unit 2^q. -/
def roundAt (md : Mode) (neg : Bool) (m : Nat) (e : Int) (i : Nat) (q : Int) : Nat × Bool :=
  let (k, rem, sh) := split m e q
  (if chooseHi md neg m e i k rem sh then k + 1 else k, rem != 0)

/-- How a value beyond the largest finite is treated: a plain conversion, a saturating one, or an MX element (R85). -/
inductive Over where
  | plain | sat | mx
  deriving DecidableEq, Repr

/-- The result of R85 for an overflow, as bits and flags. -/
def overflow (t : Nat) (md : Mode) (neg : Bool) (ov : Over) : Nat × Flags :=
  let big := withSign t neg (maxFin t)
  let away := md.rm = 0 ∨ md.rm = 4 ∨ (md.rm = 2 ∧ neg = false) ∨ (md.rm = 3 ∧ neg = true)
  if ov = .mx then (big, fNX)
  else if hasInf t then (if away then withSign t neg (infBits t) else big, fOF ||| fNX)
  else if t = 14 ∨ ov = .sat ∨ ¬ away then (big, fOF ||| fNX ||| fSAT)
  else (0x7F, fOF ||| fNX)

/-- `Round(x, fmt, mode)` at element index i, with the flags it raises (R84 to R87, R90). -/
def round (x : Num) (t : Nat) (md : Mode) (i : Nat) (ov : Over := .plain) : Nat × Flags :=
  match x with
  | .nan sig => (canonNaN t, if sig || t == 14 then fNV else 0)
  | .inf neg =>
    if hasInf t then (withSign t neg (infBits t), 0)
    else if t = 14 then (withSign t neg 7, fSAT)
    else if ov = .plain then (0x7F, fNV)
    else (withSign t neg 0x7E, fSAT)
  | .fin neg m e =>
    if m = 0 then (withSign t neg 0, 0)
    else
      let (k, inexact) := roundAt md neg m e i (unitExp t m e)
      let mag := packMag t k (unitExp t m e)
      if maxFin t < mag then overflow t md neg ov
      else
        let q' := topExp m e - fracBits t
        let (k', _) := roundAt md neg m e i q'
        let tiny := topExp m e < 1 - bias t &&
          decide ((k' : Int) < 2 ^ (1 - bias t - q').toNat)
        (withSign t neg mag,
          if inexact then (if tiny then fNX ||| fUF else fNX) else 0)

/-- RNE to FP32 (R96). -/
def rne (x : Num) : Nat := (round x 9 Mode.rne 0).1

/-! ### Exact arithmetic -/

def isSig : Num → Bool
  | .nan s => s
  | _ => false
def isNaN : Num → Bool
  | .nan _ => true
  | _ => false
def isZero : Num → Bool
  | .fin _ m _ => m == 0
  | _ => false
def negOf : Num → Bool
  | .nan _ => false
  | .inf s => s
  | .fin s _ _ => s

/-- NV where an operand is a signalling NaN (R81). -/
def sigFlag (l : List Num) : Flags := if l.any isSig then fNV else 0

def neg : Num → Num
  | .nan s => .nan s
  | .inf s => .inf (!s)
  | .fin s m e => .fin (!s) m e

/-- The signed multiple of 2^e' that a finite value is, for e' ≤ e. -/
def scaled (s : Bool) (m : Nat) (e e' : Int) : Int :=
  let v : Int := (m * 2 ^ (e - e').toNat : Nat)
  if s then -v else v

/-- Exact sum, with the zero signs of R81 under the mode. -/
def add (a b : Num) (rm : Nat) : Num × Flags :=
  match a, b with
  | .nan _, _ => (.nan false, sigFlag [a, b])
  | _, .nan _ => (.nan false, sigFlag [a, b])
  | .inf s, .inf t => if s = t then (.inf s, 0) else (.nan false, fNV)
  | .inf s, _ => (.inf s, 0)
  | _, .inf t => (.inf t, 0)
  | .fin s m e, .fin t n f =>
    let g := min e f
    let v := scaled s m e g + scaled t n f g
    if v = 0 then (if m = 0 ∧ n = 0 ∧ s = t then .fin s 0 0 else .fin (rm = 3) 0 0, 0)
    else (.fin (v < 0) v.natAbs g, 0)

/-- Exact product (R96: ∞ × 0 is invalid). -/
def mul (a b : Num) : Num × Flags :=
  match a, b with
  | .nan _, _ => (.nan false, sigFlag [a, b])
  | _, .nan _ => (.nan false, sigFlag [a, b])
  | .inf s, .inf t => (.inf (s != t), 0)
  | .inf s, .fin t n _ => if n = 0 then (.nan false, fNV) else (.inf (s != t), 0)
  | .fin s m _, .inf t => if m = 0 then (.nan false, fNV) else (.inf (s != t), 0)
  | .fin s m e, .fin t n f => (.fin (s != t) (m * n) (e + f), 0)

/-- Exact a·b + c before its one rounding. -/
def fmaExact (a b c : Num) (rm : Nat) : Num × Flags :=
  let (p, f1) := mul a b
  let (r, f2) := add p c rm
  (r, f1 ||| f2 ||| sigFlag [a, b, c])

/-- The quotient of two finite non-zero values, with a last bit that stands for what is cut off far below any
rounding point. -/
def quot (s : Bool) (m : Nat) (e : Int) (n : Nat) (f : Int) : Num :=
  let sh := 160 + n.log2
  let q := m * 2 ^ sh / n
  let r := m * 2 ^ sh % n
  .fin s (2 * q + (if r = 0 then 0 else 1)) (e - f - sh - 1)

/-- a / b (R125): exact special cases, else `quot`. -/
def div (a b : Num) : Num × Flags :=
  match a, b with
  | .nan _, _ => (.nan false, sigFlag [a, b])
  | _, .nan _ => (.nan false, sigFlag [a, b])
  | .inf _, .inf _ => (.nan false, fNV)
  | .inf s, .fin t _ _ => (.inf (s != t), 0)
  | .fin s _ _, .inf t => (.fin (s != t) 0 0, 0)
  | .fin s m e, .fin t n f =>
    if n = 0 then (if m = 0 then (.nan false, fNV) else (.inf (s != t), fDZ))
    else if m = 0 then (.fin (s != t) 0 0, 0)
    else (quot (s != t) m e n f, 0)

/-- The square root, with a last bit for what is cut off. -/
def sqrt (a : Num) : Num × Flags :=
  match a with
  | .nan s => (.nan false, if s then fNV else 0)
  | .inf s => if s then (.nan false, fNV) else (.inf false, 0)
  | .fin s m e =>
    if m = 0 then (.fin s 0 0, 0)
    else if s then (.nan false, fNV)
    else
      let odd := e % 2 ≠ 0
      let sh : Nat := 320
      let m' := (if odd then 2 * m else m) * 2 ^ sh
      let e' := if odd then e - 1 else e
      let r := Nat.sqrt m'
      (.fin false (2 * r + (if r * r = m' then 0 else 1)) (e' / 2 - 161), 0)

/-- Comparison of two values that are not NaN: the sign of a − b. -/
def cmp (a b : Num) : Int :=
  match a, b with
  | .inf s, .inf t => if s = t then 0 else if s then -1 else 1
  | .inf s, _ => if s then -1 else 1
  | _, .inf t => if t then 1 else -1
  | .fin s m e, .fin t n f =>
    let g := min e f
    let v := scaled s m e g - scaled t n f g
    if v < 0 then -1 else if v = 0 then 0 else 1
  | _, _ => 0

/-! ### Integers -/

/-- Round an exact finite value to an integer (R90). -/
def toInt (neg : Bool) (m : Nat) (e : Int) (md : Mode) (i : Nat) : Int × Bool :=
  let (k, inexact) := roundAt md neg m e i 0
  (if neg then -(k : Int) else k, inexact)

def intLo (t : Nat) : Int := if isSigned t then -(2 ^ (width t - 1) : Int) else 0
def intHi (t : Nat) : Int := if isSigned t then 2 ^ (width t - 1) - 1 else 2 ^ width t - 1

/-- The pattern of an integer in type t, modulo 2^N (R83). -/
def intBits (t : Nat) (z : Int) : Nat := (z % (2 ^ width t : Int)).toNat

/-- A value clamped to an integer type. -/
def clampInt (t : Nat) (z : Int) : Int × Bool :=
  if z < intLo t then (intLo t, true) else if intHi t < z then (intHi t, true) else (z, false)

/-! ### Conversions (R89, R90) -/

/-- A value converted to type t: by Round to a float, and to an integer as R90 sets out. -/
def convert (x : Num) (t : Nat) (md : Mode) (i : Nat) (ov : Over) : Nat × Flags :=
  if isFloat t then round x t md i ov
  else
    match x with
    | .nan _ => (0, fNV)
    | .inf s => (intBits t (if s then intLo t else intHi t), fNV ||| fSAT)
    | .fin s m e =>
      let (z, inexact) := toInt s m e md i
      let (c, clamped) := clampInt t z
      if clamped then (intBits t c, fNV ||| fSAT) else (intBits t z, if inexact then fNX else 0)

/-- `vcvt` or `vcvt.sat` of one element from type s to type t (R89, R90, R128). -/
def cvt (s t v : Nat) (md : Mode) (i : Nat) (ov : Over) : Nat × Flags :=
  if !isFloat s && !isFloat t then
    if ov = .sat then
      let (c, clamped) := clampInt t (intVal s v)
      (intBits t c, if clamped then fSAT else 0)
    else (intBits t (intVal s v), 0)
  else if s = t then
    (match decode s v with
      | .nan sig => (canonNaN t, if sig then fNV else 0)
      | _ => (v % 2 ^ width t, 0))
  else convert (value s v) t md i ov

/-! ### Q4 and block scales (R91 to R95) -/

/-- The codebook of R94, as FP32 patterns. -/
def q4Bits (c : Nat) : Nat :=
  [0xBF800000, 0xBF300000, 0xBF000000, 0xBEC00000, 0xBE8C0000, 0xBE300000, 0xBDB00000, 0x00000000,
   0x3DA00000, 0x3E200000, 0x3E780000, 0x3EAC0000, 0x3EE40000, 0x3F140000, 0x3F400000, 0x3F800000].getD (c % 16) 0

/-- RNE(b · S) of R95 for a Q4 block. A scale of 0 with a finite S gives +0 whatever the sign of S, as the sentence of R95 on
b = 0 says; its pseudocode alone would give −0 for a negative S (DEDUCED). -/
def q4Scale (b s : Nat) : Nat :=
  match b, decode 9 s with
  | 0, .fin _ _ _ => 0
  | _, x => rne (mul (ofInt (b : Int)) x).1

/-- RNE(code · c) of R95. -/
def q4Value (code c : Nat) : Nat := rne (mul (decode 9 (q4Bits code)) (decode 9 c)).1

/-- The exact value of an E8M0 scale; none for NaN (R91). -/
def e8m0 (x : Nat) : Option Int := if x % 256 = 255 then none else some ((x % 256 : Nat) - 127)

/-- A block-scaled element as an exact value (R91, R92): `t` is i8 for MXINT8, else a float code. -/
def mxValue (t v scale : Nat) : Num :=
  match e8m0 scale with
  | none => .nan false
  | some k =>
    let x := if t = 0 then (match ofInt (intVal 0 v) with
      | .fin s m e => Num.fin s m (e - 6)
      | y => y) else decode t v
    match x with
    | .fin s m e => .fin s m (e + k)
    | y => y

/-- EMAX of R93. -/
def emax (t : Nat) : Int := if t = 12 then 8 else if t = 13 then 15 else if t = 14 then 2 else 0

/-- The largest magnitude of a block; none when an input is NaN or infinite. -/
def blockMax : List Num → Option Num
  | [] => some (.fin false 0 0)
  | x :: l =>
    match x, blockMax l with
    | .fin _ m e, some y => some (if cmp (.fin false m e) y > 0 then .fin false m e else y)
    | _, _ => none

/-- The pattern of every element of a NaN block (R93). -/
def blockNaN (t : Nat) : Nat := if t = 12 then 0x7F else if t = 13 then 0x7E else 0

/-- x · 2^k. -/
def scaleBy (x : Num) (k : Int) : Num :=
  match x with
  | .fin s m e => .fin s m (e + k)
  | y => y

/-- One block of `vquant` for an MX type (R93): the scale, the elements, the flags. A signalling NaN raises NV (R81). R86 gives i8
no smallest normal value, so an MXINT8 element is never tiny and raises no UF (DESIGN CHOICE). -/
def quantBlock (t : Nat) (xs : List Num) (md : Mode) : Nat × List Nat × Flags :=
  match blockMax xs with
  | none => (0xFF, xs.map (fun _ => blockNaN t), sigFlag xs)
  | some (.fin _ m e) =>
    if m = 0 then (0, xs.map (fun _ => 0), 0)
    else
      let ex := topExp m e - emax t
      let (ex, uf) := if ex < -127 then ((-127 : Int), fUF) else (ex, 0)
      let r := (xs.zipIdx).map (fun p =>
        let y := scaleBy p.1 (-ex)
        if t = 0 then
          match scaleBy y 6 with
          | .fin s m e =>
            let (z, inexact) := toInt s m e md p.2
            let (c, clamped) := clampInt 0 z
            (intBits 0 c, if inexact || clamped then fNX else (0 : Flags))
          | _ => (0, 0)
        else round y t md p.2 .mx)
      ((ex + 127).toNat, r.map Prod.fst, r.foldl (fun f q => f ||| q.2) uf)
  | some _ => (0xFF, xs.map (fun _ => blockNaN t), 0)

/-! ### Helpers of R96 on FP32 patterns -/

def f32Zero (neg : Bool) : Nat := withSign 9 neg 0

/-- max and min of R96: a NaN gives the canonical NaN; of two zeros max is +0, min −0. -/
def maxF (a b : Nat) : Nat :=
  match decode 9 a, decode 9 b with
  | .nan _, _ => canonNaN 9
  | _, .nan _ => canonNaN 9
  | x, y => if isZero x && isZero y then f32Zero false else if cmp x y < 0 then b else a
def minF (a b : Nat) : Nat :=
  match decode 9 a, decode 9 b with
  | .nan _, _ => canonNaN 9
  | _, .nan _ => canonNaN 9
  | x, y => if isZero x && isZero y then f32Zero true else if cmp y x < 0 then b else a

/-- NV of R172: a result that is a NaN where no operand was, or a signalling operand. -/
def newNaN (r : Nat) (l : List Nat) : Flags :=
  let xs := l.map (decode 9)
  (if isNaN (decode 9 r) && !xs.any isNaN then fNV else 0) ||| sigFlag xs

/-- `FMA(a, b, c)` on FP32 patterns (R96), with the flags that R172 records. -/
def fma32 (a b c : Nat) : Nat × Flags :=
  let (r, g) := round (fmaExact (decode 9 a) (decode 9 b) (decode 9 c) 0).1 9 Mode.rne 0
  (r, g ||| newNaN r [a, b, c])

def add32 (a b : Nat) : Nat × Flags :=
  let (x, f) := add (decode 9 a) (decode 9 b) 0
  let (r, g) := round x 9 Mode.rne 0
  (r, f ||| g)

def mul32 (a b : Nat) : Nat × Flags :=
  let (x, f) := mul (decode 9 a) (decode 9 b)
  let (r, g) := round x 9 Mode.rne 0
  (r, f ||| g)

/-- max(RNE(g + s), b), or min for `low`, with the flags that R172 records. -/
def later (low : Bool) (g s b : Nat) : Nat × Flags :=
  let (x, f) := add32 g s
  let r := if low then minF x b else maxF x b
  (r, (f &&& ~~~fNV) ||| newNaN r [g, s, b])

/-- `Compose(sr, (g2, b2), (g1, b1))` of R96 on pairs held as (g, b): the pair, the underflow indication, the flags
of R172 (a gain raises no UF). -/
def compose (sr : Nat) (p2 p1 : Nat × Nat) : (Nat × Nat) × Bool × Flags :=
  let (g2, b2) := p2
  let (g1, b1) := p1
  let fs := sigFlag [decode 9 g2, decode 9 b2, decode 9 g1, decode 9 b1]
  if sr = 1 then
    let (g, f1) := add32 g2 g1
    let (b, f2) := later false g2 b1 b2
    ((g, b), false, f1 ||| f2 ||| fs)
  else if sr = 2 then
    let (g, f1) := add32 g2 g1
    let (b, f2) := later true g2 b1 b2
    ((g, b), false, f1 ||| f2 ||| fs)
  else
    let (x, f0) := mul (decode 9 g2) (decode 9 g1)
    let (g, f1) := round x 9 Mode.rne 0
    let (b, f2) := fma32 g2 b1 b2
    let under := match x with
      | .fin _ m _ => m != 0 && decide (g % 2 ^ 31 < 0x00800000)
      | _ => false
    ((if under then f32Zero (negOf x) else g, b), under, f0 ||| (f1 &&& ~~~fUF) ||| f2 ||| fs)

end Sys2Proof.Machine.Fp
end

