-- ==== Sys2Proof/WellFormed.lean ====
section
/-! DEFINITION. Which instructions are well formed: the checks of R60 step 1 that the word alone decides, beyond
the fixed fields of its row; the feature bits an instruction needs (R61) and its lowest privilege (R59). -/

namespace Sys2Proof

/-- TYPE holds a code from `lo` to `hi` (R56, R123). -/
def typeIn (t : BitVec 4) (lo hi : Nat) : Bool := decide (lo ≤ t.toNat) && decide (t.toNat ≤ hi)

/-- The addressing mode's must-be-zero bits, and no post-increment on p8 to p15 (R48). -/
def memFormWf (p : BitVec 4) (m : BitVec 2) (o : BitVec 11) : Bool :=
  if m == 1 then o == 0 && decide (p.toNat < 8)
  else if m == 2 then decide (o.toNat < 32)
  else true

/-- Agent codes 6 and 7 trap ILLEGAL (R55). -/
def agentWf (g : BitVec 3) : Bool := decide (g.toNat ≤ 5)

/-- ADV = 1 with a pointer of p8 to p15 traps ILLEGAL (R140). -/
def advWf (p : BitVec 4) (v : BitVec 1) : Bool := v == 0 || decide (p.toNat < 8)

/-- The accepted pairs of A and B types of `mma`, with the semirings of each (R156). -/
def mmaWf (s : BitVec 2) (t u : BitVec 4) : Bool :=
  if s == 3 then false
  else if t == 8 || t == 0 then u == t && s == 0
  else if t == 9 then u == 9
  else if typeIn t 10 11 then typeIn u 10 11
  else if typeIn t 12 13 then typeIn u 12 13
  else if typeIn t 14 15 then typeIn u 14 15
  else false

/-- A word of the row with these fields passes the checks of R60 step 1. A step that has no word is well formed. -/
def Instr.wf : Instr → Bool
  | .add .. | .sub .. | .mul .. | .mulh .. | .mulhz .. | .div .. | .divz .. | .rem .. | .remz .. | .and .. | .or ..
    | .xor .. | .andn .. | .shl .. | .shr .. | .sar .. | .rol .. | .ror .. | .slt .. | .sltz .. | .min .. | .max ..
    | .minz .. | .maxz .. | .cmov .. | .clz .. | .ctz .. | .popc .. | .brev .. | .bswap .. | .addi .. | .andi ..
    | .ori .. | .xori .. | .slti .. | .sltzi .. | .shli .. | .shri .. | .sari .. | .lup .. | .aupc .. | .bEq ..
    | .bNe .. | .bLt .. | .bGe .. | .bLtz .. | .bGez .. | .j .. | .jr .. | .retire | .pmov .. | .padj .. | .plen ..
    | .pslice .. | .pfrom .. | .ptox .. | .otouch .. | .mlogAnd .. | .mlogOr .. | .mlogXor .. | .mlogAndn ..
    | .tclaim .. | .tfree .. | .tload .. | .tstore .. | .tzero .. | .tidld .. | .tidst .. | .azero .. | .aload ..
    | .astore .. | .againPlain .. | .ascan .. | .ascanK .. | .aapply .. | .kload .. | .kstore .. | .kcomb ..
    | .kzero .. | .xfer .. | .xgath .. | .xprefTr .. | .xprefMg .. | .xwaitAll .. | .xwaitAny .. | .xfind ..
    | .sbind .. | .sclose .. | .send .. | .recv .. | .qclr .. | .xphase | .sstep | .spawn .. | .take .. | .join ..
    | .qpost .. | .rds .. | .wrs .. | .trap .. | .eret | .wfi | .brk .. | .sfence .. | .cdrain | .cxsave ..
    | .cxload .. | .immx .. | .hint .. | .coprocessorIssue | .destinationWrite | .takeTrap .. | .install ..
    | .logicalCoreSwitch | .depositArrive | .superstepBoundary | .superstepOverrun | .tileRowLand | .engineTakeCopy
    | .copyComplete | .copyFaultStop | .streamReadAhead | .touchComplete .. | .demandCopyIn | .prefetchCopyIn ..
    | .collect .. | .mergeApply | .releaseNotice | .pageWalk .. | .migrationComplete | .counterHalve
    | .crossDieTimeout | .lateResponse | .linkMessage .. | .permitReturn .. | .linkDown .. | .clockStretch ..
    | .softError .. | .lineRetirement .. | .nop .. | .launch .. | .signal .. | .shrink .. | .packetComplete ..
    | .dependenceRecheck | .priorityAging | .launchSeniority | .doorbell .. | .queueSkip .. | .queueReset ..
    | .queueEnable .. | .queueDisable .. | .managementRegisterWrite .. | .tabort .. | .endTask ..
    | .satchelFreeze .. | .satchelCheckpoint .. | .urgentPreemption .. | .satchelRestore ..
    | .releaseInPlaceImage .. | .debugOff .. | .debugAtSsm .. | .debugEveryBoundary .. | .debugNextBoundary ..
    | .bkrel .. | .traceEnable .. | .traceDisable .. | .traceHoldExpiry | .freeze .. | .freezeInput
    | .testAccessReadout | .reset | .fwgo .. | .recoveryImageVerified | .load | .unload | .keyenr .. | .getVersion
    | .getCapabilities | .negotiateAlgorithms | .getDigests | .getCertificate | .challenge | .getMeasurements ..
    | .pageMoveStart .. | .firmwareUpdate .. | .scrubbing .. => true
  | .ext _ _ w p | .ins _ _ w p => decide (p.toNat + w.toNat + 1 ≤ 64)
  | .call d _ | .callr d _ | .xprefTq d _ => d != 0
  | .rep _ a n _ => a == 0 || n == 0
  | .ld _ p m z o => decide (z.toNat ≤ 6) && memFormWf p m o
  | .st _ p m z o => decide (z.toNat ≤ 3) && memFormWf p m o
  | .ldp _ p m o | .stp _ p m o => memFormWf p m o
  | .alloc _ _ _ k | .allocr _ _ _ k => k == 0 || k == 1 || k == 3
  | .oacq _ g s | .orel _ g s | .fence g s => agentWf g && s != 0
  | .amo _ _ _ o g _ _ => decide (o.toNat ≤ 8) && agentWf g
  | .cas _ _ _ g _ _ => agentWf g
  | .vamo _ _ _ _ _ _ o _ => decide (o.toNat ≤ 8)
  | .xfence c e g s => agentWf g && s != 0 && decide (c.toNat ≤ 5) && decide (e.toNat ≤ 5)
  | .setvl _ _ t | .vpopc _ _ _ t | .vfirst _ _ _ t | .vmv _ _ _ _ t | .vmvStream _ _ _ _ t => typeIn t 0 13
  | .vadd _ _ _ _ _ t | .vsub _ _ _ _ _ t | .vmul _ _ _ _ _ t | .vand _ _ _ _ _ t | .vor _ _ _ _ _ t
    | .vxor _ _ _ _ _ t | .vandn _ _ _ _ _ t | .vsel _ _ _ _ _ t | .vredAdd _ _ _ _ t | .vredMin _ _ _ _ t
    | .vredMax _ _ _ _ t | .vscanAdd _ _ _ _ t | .vscanMin _ _ _ _ t | .vscanMax _ _ _ _ t | .vperm _ _ _ _ _ t
    | .vslideUp _ _ _ _ _ t | .vslideDn _ _ _ _ _ t | .vbcast _ _ _ _ t | .vext _ _ _ t | .vins _ _ _ t
    | .vcompress _ _ _ _ t | .vexpand _ _ _ _ t | .vtopk _ _ _ _ _ t => typeIn t 0 11
  | .vmulh _ _ _ _ _ t | .vmin _ _ _ _ _ t | .vmax _ _ _ _ _ t => typeIn t 0 3
  | .vmulhz _ _ _ _ _ t | .vminz _ _ _ _ _ t | .vmaxz _ _ _ _ _ t => typeIn t 4 7
  | .vfma _ _ _ _ _ t | .vfms _ _ _ _ _ t | .vfnma _ _ _ _ _ t | .vfnms _ _ _ _ _ t | .vfdiv _ _ _ _ _ t
    | .vfsqrt _ _ _ _ t | .vfmin _ _ _ _ _ t | .vfmax _ _ _ _ _ t | .vfcmpEq _ _ _ _ _ t | .vfcmpLt _ _ _ _ _ t
    | .vfcmpLe _ _ _ _ _ t | .vfcmpUn _ _ _ _ _ t | .vxacc _ _ _ _ _ t | .vxrnd _ _ _ t => typeIn t 8 11
  | .vshl _ _ _ _ _ t | .vshr _ _ _ _ _ t | .vsar _ _ _ _ _ t | .vcmpEq _ _ _ _ _ t | .vcmpNe _ _ _ _ _ t
    | .vcmpLt _ _ _ _ _ t | .vcmpLe _ _ _ _ _ t | .vredOr _ _ _ _ t | .vscanOr _ _ _ _ t | .viota _ _ _ t => typeIn t 0 7
  | .vcvt _ _ s _ _ t | .vcvtSat _ _ s _ _ t => typeIn t 0 14 && typeIn s 0 14
  | .vquant _ _ b t => t == 15 || ((t == 0 || typeIn t 12 14) && b == 0)
  | .vld _ p v _ _ _ t | .vlds _ p v _ _ _ t | .vst _ p v _ _ _ t => typeIn t 0 13 && advWf p v
  | .vgath _ p v _ _ _ t | .vscat _ p v _ _ _ t => typeIn t 0 11 && advWf p v
  | .mma _ _ _ s t u => mmaWf s t u
  | .adrain _ _ t | .afill _ _ t | .ascanG _ _ _ t _ => typeIn t 9 13
  | .amode _ e => e != 3
  | .again d s => s != d
  | .sendv _ _ q | .recvV _ q => decide (q.toNat ≤ 8)
  | .arrive n | .arriveRel n | .wait n | .waitAcq n | .bvote _ _ n => n != 0

/-- A type code 14 or 15 needs feature bit 6 (R61). -/
def typeFeat (t : BitVec 4) : List Nat := if typeIn t 14 15 then [6] else []

/-- The feature bits the instruction needs beyond bit 0, lowest first (R61, R163). -/
def Instr.feats : Instr → List Nat
  | .add .. | .sub .. | .mul .. | .mulh .. | .mulhz .. | .div .. | .divz .. | .rem .. | .remz .. | .and .. | .or ..
    | .xor .. | .andn .. | .shl .. | .shr .. | .sar .. | .rol .. | .ror .. | .slt .. | .sltz .. | .min .. | .max ..
    | .minz .. | .maxz .. | .cmov .. | .clz .. | .ctz .. | .popc .. | .brev .. | .bswap .. | .addi .. | .andi ..
    | .ori .. | .xori .. | .slti .. | .sltzi .. | .shli .. | .shri .. | .sari .. | .ext .. | .ins .. | .lup ..
    | .aupc .. | .bEq .. | .bNe .. | .bLt .. | .bGe .. | .bLtz .. | .bGez .. | .j .. | .call .. | .jr ..
    | .callr .. | .rep .. | .retire | .ld .. | .st .. | .ldp .. | .stp .. | .pmov .. | .padj .. | .plen ..
    | .pslice .. | .pfrom .. | .ptox .. | .alloc .. | .allocr .. | .otouch .. | .oacq .. | .orel .. | .amo ..
    | .cas .. | .fence .. | .xfence .. | .send .. | .sendv .. | .recv .. | .recvV .. | .qclr .. | .xphase | .sstep
    | .arrive .. | .arriveRel .. | .wait .. | .waitAcq .. | .bvote .. | .spawn .. | .take .. | .join .. | .qpost ..
    | .rds .. | .wrs .. | .trap .. | .eret | .wfi | .brk .. | .sfence .. | .cdrain | .cxsave .. | .cxload ..
    | .immx .. | .hint .. | .coprocessorIssue | .destinationWrite | .takeTrap .. | .install .. | .logicalCoreSwitch
    | .depositArrive | .superstepBoundary | .superstepOverrun | .tileRowLand | .engineTakeCopy | .copyComplete
    | .copyFaultStop | .streamReadAhead | .touchComplete .. | .demandCopyIn | .prefetchCopyIn .. | .collect ..
    | .mergeApply | .releaseNotice | .pageWalk .. | .migrationComplete | .counterHalve | .crossDieTimeout
    | .lateResponse | .linkMessage .. | .permitReturn .. | .linkDown .. | .clockStretch .. | .softError ..
    | .lineRetirement .. | .nop .. | .launch .. | .signal .. | .shrink .. | .packetComplete .. | .dependenceRecheck
    | .priorityAging | .launchSeniority | .doorbell .. | .queueSkip .. | .queueReset .. | .queueEnable ..
    | .queueDisable .. | .managementRegisterWrite .. | .tabort .. | .endTask .. | .satchelFreeze ..
    | .satchelCheckpoint .. | .urgentPreemption .. | .satchelRestore .. | .releaseInPlaceImage .. | .debugOff ..
    | .debugAtSsm .. | .debugEveryBoundary .. | .debugNextBoundary .. | .bkrel .. | .traceEnable ..
    | .traceDisable .. | .traceHoldExpiry | .freeze .. | .freezeInput | .testAccessReadout | .reset | .fwgo ..
    | .recoveryImageVerified | .load | .unload | .keyenr .. | .getVersion | .getCapabilities | .negotiateAlgorithms
    | .getDigests | .getCertificate | .challenge | .getMeasurements .. | .pageMoveStart .. | .firmwareUpdate ..
    | .scrubbing .. => []
  | .vamo .. | .setvl .. | .vadd .. | .vsub .. | .vmul .. | .vmulh .. | .vmulhz .. | .vfma .. | .vfms ..
    | .vfnma .. | .vfnms .. | .vfdiv .. | .vfsqrt .. | .vmin .. | .vmax .. | .vminz .. | .vmaxz .. | .vfmin ..
    | .vfmax .. | .vand .. | .vor .. | .vxor .. | .vandn .. | .vshl .. | .vshr .. | .vsar .. | .vcmpEq ..
    | .vcmpNe .. | .vcmpLt .. | .vcmpLe .. | .vfcmpEq .. | .vfcmpLt .. | .vfcmpLe .. | .vfcmpUn .. | .vsel ..
    | .vredAdd .. | .vredMin .. | .vredMax .. | .vredOr .. | .vscanAdd .. | .vscanMin .. | .vscanMax ..
    | .vscanOr .. | .vperm .. | .vslideUp .. | .vslideDn .. | .vbcast .. | .vext .. | .vins .. | .viota ..
    | .vcompress .. | .vexpand .. | .vpopc .. | .vfirst .. | .vld .. | .vlds .. | .vst .. | .vgath .. | .vscat ..
    | .vmv .. | .mlogAnd .. | .mlogOr .. | .mlogXor .. | .mlogAndn .. => [1]
  | .vcvt _ _ s _ _ t | .vcvtSat _ _ s _ _ t => 1 :: (typeFeat t ++ typeFeat s).eraseDups
  | .vquant _ _ _ t => 1 :: typeFeat t
  | .vtopk .. => [1, 9]
  | .vxacc .. | .vxrnd .. => [1, 2]
  | .vmvStream .. => [1, 8]
  | .mma _ _ _ s t u => 3 :: ((if s == 0 then [] else [4]) ++ (if t == 8 then [5] else []) ++ (typeFeat t ++ typeFeat u).eraseDups)
  | .tclaim .. | .tfree .. | .tload .. | .tstore .. | .tzero .. | .tidld .. | .tidst .. | .azero .. | .aload ..
    | .astore .. | .adrain .. | .afill .. => [3]
  | .amode _ e => 3 :: (if e == 0 then [] else [4])
  | .again .. | .againPlain .. | .ascan .. | .ascanK .. | .ascanG .. | .aapply .. | .kload .. | .kstore ..
    | .kcomb .. | .kzero .. => [4]
  | .xfer .. | .xgath .. | .xprefTr .. | .xprefMg .. | .xprefTq .. | .xwaitAll .. | .xwaitAny .. | .xfind .. => [7]
  | .sbind .. | .sclose .. => [8]

/-- The lowest privilege that may run the instruction, as the code of STATUS.PL (R59, R55, R191). `rds` and `wrs`
are checked against their register (R32). -/
def Instr.priv : Instr → Nat
  | .add .. | .sub .. | .mul .. | .mulh .. | .mulhz .. | .div .. | .divz .. | .rem .. | .remz .. | .and .. | .or ..
    | .xor .. | .andn .. | .shl .. | .shr .. | .sar .. | .rol .. | .ror .. | .slt .. | .sltz .. | .min .. | .max ..
    | .minz .. | .maxz .. | .cmov .. | .clz .. | .ctz .. | .popc .. | .brev .. | .bswap .. | .addi .. | .andi ..
    | .ori .. | .xori .. | .slti .. | .sltzi .. | .shli .. | .shri .. | .sari .. | .ext .. | .ins .. | .lup ..
    | .aupc .. | .bEq .. | .bNe .. | .bLt .. | .bGe .. | .bLtz .. | .bGez .. | .j .. | .call .. | .jr ..
    | .callr .. | .rep .. | .retire | .ld .. | .st .. | .ldp .. | .stp .. | .pmov .. | .padj .. | .plen ..
    | .pslice .. | .ptox .. | .alloc .. | .allocr .. | .otouch .. | .oacq .. | .orel .. | .amo .. | .cas ..
    | .vamo .. | .fence .. | .setvl .. | .vadd .. | .vsub .. | .vmul .. | .vmulh .. | .vmulhz .. | .vfma ..
    | .vfms .. | .vfnma .. | .vfnms .. | .vfdiv .. | .vfsqrt .. | .vmin .. | .vmax .. | .vminz .. | .vmaxz ..
    | .vfmin .. | .vfmax .. | .vand .. | .vor .. | .vxor .. | .vandn .. | .vshl .. | .vshr .. | .vsar ..
    | .vcmpEq .. | .vcmpNe .. | .vcmpLt .. | .vcmpLe .. | .vfcmpEq .. | .vfcmpLt .. | .vfcmpLe .. | .vfcmpUn ..
    | .vsel .. | .vcvt .. | .vcvtSat .. | .vquant .. | .vredAdd .. | .vredMin .. | .vredMax .. | .vredOr ..
    | .vscanAdd .. | .vscanMin .. | .vscanMax .. | .vscanOr .. | .vperm .. | .vslideUp .. | .vslideDn ..
    | .vbcast .. | .vext .. | .vins .. | .viota .. | .vcompress .. | .vexpand .. | .vpopc .. | .vfirst ..
    | .vtopk .. | .vxacc .. | .vxrnd .. | .vld .. | .vlds .. | .vst .. | .vgath .. | .vscat .. | .vmv ..
    | .vmvStream .. | .mlogAnd .. | .mlogOr .. | .mlogXor .. | .mlogAndn .. | .mma .. | .tclaim .. | .tfree ..
    | .tload .. | .tstore .. | .tzero .. | .tidld .. | .tidst .. | .azero .. | .aload .. | .astore .. | .adrain ..
    | .afill .. | .amode .. | .again .. | .againPlain .. | .ascan .. | .ascanK .. | .ascanG .. | .aapply ..
    | .kload .. | .kstore .. | .kcomb .. | .kzero .. | .xfer .. | .xgath .. | .xprefTr .. | .xprefMg ..
    | .xprefTq .. | .xwaitAll .. | .xwaitAny .. | .xfind .. | .sbind .. | .sclose .. | .send .. | .sendv ..
    | .recv .. | .recvV .. | .qclr .. | .xphase | .sstep | .arrive .. | .arriveRel .. | .wait .. | .waitAcq ..
    | .bvote .. | .spawn .. | .take .. | .join .. | .qpost .. | .rds .. | .wrs .. | .trap .. | .brk .. | .cdrain
    | .immx .. | .hint .. | .coprocessorIssue | .destinationWrite | .takeTrap .. | .install .. | .logicalCoreSwitch
    | .depositArrive | .superstepBoundary | .superstepOverrun | .tileRowLand | .engineTakeCopy | .copyComplete
    | .copyFaultStop | .streamReadAhead | .touchComplete .. | .demandCopyIn | .prefetchCopyIn .. | .collect ..
    | .mergeApply | .releaseNotice | .pageWalk .. | .migrationComplete | .counterHalve | .crossDieTimeout
    | .lateResponse | .linkMessage .. | .permitReturn .. | .linkDown .. | .clockStretch .. | .softError ..
    | .lineRetirement .. | .nop .. | .launch .. | .signal .. | .shrink .. | .packetComplete .. | .dependenceRecheck
    | .priorityAging | .launchSeniority | .doorbell .. | .queueSkip .. | .queueReset .. | .queueEnable ..
    | .queueDisable .. | .managementRegisterWrite .. | .tabort .. | .endTask .. | .satchelFreeze ..
    | .satchelCheckpoint .. | .urgentPreemption .. | .satchelRestore .. | .releaseInPlaceImage .. | .debugOff ..
    | .debugAtSsm .. | .debugEveryBoundary .. | .debugNextBoundary .. | .bkrel .. | .traceEnable ..
    | .traceDisable .. | .traceHoldExpiry | .freeze .. | .freezeInput | .testAccessReadout | .reset | .fwgo ..
    | .recoveryImageVerified | .load | .unload | .keyenr .. | .getVersion | .getCapabilities | .negotiateAlgorithms
    | .getDigests | .getCertificate | .challenge | .getMeasurements .. | .pageMoveStart .. | .firmwareUpdate ..
    | .scrubbing .. => 0
  | .pfrom .. | .eret | .wfi | .sfence .. | .cxsave .. | .cxload .. => 1
  | .xfence c e _ _ => if c == 5 || e == 5 then 1 else 0

end Sys2Proof
end

