-- ==== Sys2Proof/Decode.lean ====
section
/-! DEFINITION. The decoder, total on every word, and the encoder written from the same rows (R46 to R60). A word
is a number; its fields are read with `field`, counting bit 0 as the least significant (R4). -/

namespace Sys2Proof

/-- The rows of major opcode 0x01 (R52). -/
def decodeOp01 (w : Nat) : Option Instr :=
  if w % 1024 = 0 then some (.add (field w 20 5) (field w 15 5) (field w 10 5)) else
  if w % 1024 = 1 then some (.sub (field w 20 5) (field w 15 5) (field w 10 5)) else
  if w % 1024 = 2 then some (.mul (field w 20 5) (field w 15 5) (field w 10 5)) else
  if w % 1024 = 3 then some (.mulh (field w 20 5) (field w 15 5) (field w 10 5)) else
  if w % 1024 = 4 then some (.mulhz (field w 20 5) (field w 15 5) (field w 10 5)) else
  if w % 1024 = 5 then some (.div (field w 20 5) (field w 15 5) (field w 10 5)) else
  if w % 1024 = 6 then some (.divz (field w 20 5) (field w 15 5) (field w 10 5)) else
  if w % 1024 = 7 then some (.rem (field w 20 5) (field w 15 5) (field w 10 5)) else
  if w % 1024 = 8 then some (.remz (field w 20 5) (field w 15 5) (field w 10 5)) else
  if w % 1024 = 16 then some (.and (field w 20 5) (field w 15 5) (field w 10 5)) else
  if w % 1024 = 17 then some (.or (field w 20 5) (field w 15 5) (field w 10 5)) else
  if w % 1024 = 18 then some (.xor (field w 20 5) (field w 15 5) (field w 10 5)) else
  if w % 1024 = 19 then some (.andn (field w 20 5) (field w 15 5) (field w 10 5)) else
  if w % 1024 = 24 then some (.shl (field w 20 5) (field w 15 5) (field w 10 5)) else
  if w % 1024 = 25 then some (.shr (field w 20 5) (field w 15 5) (field w 10 5)) else
  if w % 1024 = 26 then some (.sar (field w 20 5) (field w 15 5) (field w 10 5)) else
  if w % 1024 = 27 then some (.rol (field w 20 5) (field w 15 5) (field w 10 5)) else
  if w % 1024 = 28 then some (.ror (field w 20 5) (field w 15 5) (field w 10 5)) else
  if w % 1024 = 32 then some (.slt (field w 20 5) (field w 15 5) (field w 10 5)) else
  if w % 1024 = 33 then some (.sltz (field w 20 5) (field w 15 5) (field w 10 5)) else
  if w % 1024 = 34 then some (.min (field w 20 5) (field w 15 5) (field w 10 5)) else
  if w % 1024 = 35 then some (.max (field w 20 5) (field w 15 5) (field w 10 5)) else
  if w % 1024 = 36 then some (.minz (field w 20 5) (field w 15 5) (field w 10 5)) else
  if w % 1024 = 37 then some (.maxz (field w 20 5) (field w 15 5) (field w 10 5)) else
  if w % 1024 = 38 then some (.cmov (field w 20 5) (field w 15 5) (field w 10 5)) else
  if w % 32768 = 48 then some (.clz (field w 20 5) (field w 15 5)) else
  if w % 32768 = 49 then some (.ctz (field w 20 5) (field w 15 5)) else
  if w % 32768 = 50 then some (.popc (field w 20 5) (field w 15 5)) else
  if w % 32768 = 51 then some (.brev (field w 20 5) (field w 15 5)) else
  if w % 32768 = 52 then some (.bswap (field w 20 5) (field w 15 5)) else
  none

/-- The rows of major opcode 0x03 (R52). -/
def decodeOp03 (w : Nat) : Option Instr :=
  if w / 4096 % 8 = 0 then some (.addi (field w 20 5) (field w 15 5) (field w 0 12)) else
  if w / 4096 % 8 = 1 then some (.andi (field w 20 5) (field w 15 5) (field w 0 12)) else
  if w / 4096 % 8 = 2 then some (.ori (field w 20 5) (field w 15 5) (field w 0 12)) else
  if w / 4096 % 8 = 3 then some (.xori (field w 20 5) (field w 15 5) (field w 0 12)) else
  if w / 4096 % 8 = 4 then some (.slti (field w 20 5) (field w 15 5) (field w 0 12)) else
  if w / 4096 % 8 = 5 then some (.sltzi (field w 20 5) (field w 15 5) (field w 0 12)) else
  none

/-- The rows of major opcode 0x04 (R52). -/
def decodeOp04 (w : Nat) : Option Instr :=
  if w / 64 % 512 = 0 then some (.shli (field w 20 5) (field w 15 5) (field w 0 6)) else
  if w / 64 % 512 = 64 then some (.shri (field w 20 5) (field w 15 5) (field w 0 6)) else
  if w / 64 % 512 = 128 then some (.sari (field w 20 5) (field w 15 5) (field w 0 6)) else
  if w / 4096 % 8 = 3 then some (.ext (field w 20 5) (field w 15 5) (field w 6 6) (field w 0 6)) else
  if w / 4096 % 8 = 4 then some (.ins (field w 20 5) (field w 15 5) (field w 6 6) (field w 0 6)) else
  none

/-- The rows of major opcode 0x05 (R52). -/
def decodeOp05 (w : Nat) : Option Instr :=
  some (.lup (field w 20 5) (field w 0 20))

/-- The rows of major opcode 0x06 (R52). -/
def decodeOp06 (w : Nat) : Option Instr :=
  some (.aupc (field w 20 5) (field w 0 20))

/-- The rows of major opcode 0x10 (R52). -/
def decodeOp10 (w : Nat) : Option Instr :=
  if w / 4096 % 8 = 0 then some (.bEq (field w 20 5) (field w 15 5) (field w 0 12)) else
  if w / 4096 % 8 = 1 then some (.bNe (field w 20 5) (field w 15 5) (field w 0 12)) else
  if w / 4096 % 8 = 2 then some (.bLt (field w 20 5) (field w 15 5) (field w 0 12)) else
  if w / 4096 % 8 = 3 then some (.bGe (field w 20 5) (field w 15 5) (field w 0 12)) else
  if w / 4096 % 8 = 4 then some (.bLtz (field w 20 5) (field w 15 5) (field w 0 12)) else
  if w / 4096 % 8 = 5 then some (.bGez (field w 20 5) (field w 15 5) (field w 0 12)) else
  none

/-- The rows of major opcode 0x11 (R52). -/
def decodeOp11 (w : Nat) : Option Instr :=
  if w / 1048576 % 32 = 0 then some (.j (field w 0 20)) else
  none

/-- The rows of major opcode 0x12 (R52). -/
def decodeOp12 (w : Nat) : Option Instr :=
  some (.call (field w 20 5) (field w 0 20))

/-- The rows of major opcode 0x13 (R52). -/
def decodeOp13 (w : Nat) : Option Instr :=
  if w % 32768 = 0 ∧ w / 1048576 % 32 = 0 then some (.jr (field w 15 5)) else
  if w % 32768 = 1 ∧ w / 524288 % 2 = 0 then some (.callr (field w 20 5) (field w 15 4)) else
  none

/-- The rows of major opcode 0x14 (R52). -/
def decodeOp14 (w : Nat) : Option Instr :=
  if w / 4096 % 8 = 0 then some (.rep (field w 20 5) (field w 15 5) (field w 4 8) (field w 0 4)) else
  none

/-- The rows of major opcode 0x15 (R52). -/
def decodeOp15 (w : Nat) : Option Instr :=
  if w % 33554432 = 0 then some (.retire) else
  none

/-- The rows of major opcode 0x18 (R52). -/
def decodeOp18 (w : Nat) : Option Instr :=
  some (.ld (field w 20 5) (field w 16 4) (field w 14 2) (field w 11 3) (field w 0 11))

/-- The rows of major opcode 0x19 (R52). -/
def decodeOp19 (w : Nat) : Option Instr :=
  some (.st (field w 20 5) (field w 16 4) (field w 14 2) (field w 11 3) (field w 0 11))

/-- The rows of major opcode 0x1A (R52). -/
def decodeOp1A (w : Nat) : Option Instr :=
  if w / 2048 % 8 = 3 ∧ w / 16777216 % 2 = 0 then some (.ldp (field w 20 4) (field w 16 4) (field w 14 2) (field w 0 11)) else
  if w / 2048 % 8 = 3 ∧ w / 16777216 % 2 = 1 then some (.stp (field w 20 4) (field w 16 4) (field w 14 2) (field w 0 11)) else
  none

/-- The rows of major opcode 0x1B (R52). -/
def decodeOp1B (w : Nat) : Option Instr :=
  if w % 32768 = 0 ∧ w / 524288 % 2 = 0 ∧ w / 16777216 % 2 = 0 then some (.pmov (field w 20 4) (field w 15 4)) else
  if w % 1024 = 1 ∧ w / 524288 % 2 = 0 ∧ w / 16777216 % 2 = 0 then some (.padj (field w 20 4) (field w 15 4) (field w 10 5)) else
  if w % 32768 = 2 ∧ w / 524288 % 2 = 0 then some (.plen (field w 20 5) (field w 15 4)) else
  if w % 1024 = 3 ∧ w / 524288 % 2 = 0 ∧ w / 16777216 % 2 = 0 then some (.pslice (field w 20 4) (field w 15 4) (field w 10 5)) else
  if w % 32768 = 4 ∧ w / 16777216 % 2 = 0 then some (.pfrom (field w 20 4) (field w 15 5)) else
  if w % 32768 = 5 ∧ w / 524288 % 2 = 0 then some (.ptox (field w 20 5) (field w 15 4)) else
  none

/-- The rows of major opcode 0x1C (R52). -/
def decodeOp1C (w : Nat) : Option Instr :=
  if w / 64 % 512 = 0 ∧ w / 16777216 % 2 = 0 then some (.alloc (field w 20 4) (field w 15 5) (field w 4 2) (field w 0 4)) else
  if w / 64 % 512 = 64 ∧ w / 16777216 % 2 = 0 then some (.allocr (field w 20 4) (field w 15 5) (field w 4 2) (field w 0 4)) else
  if w % 1048576 = 8192 ∧ w / 16777216 % 2 = 0 then some (.otouch (field w 20 4)) else
  if w % 2 = 0 ∧ w / 32 % 16 = 0 ∧ w / 4096 % 256 = 3 ∧ w / 16777216 % 2 = 0 then some (.oacq (field w 20 4) (field w 9 3) (field w 1 4)) else
  if w % 2 = 0 ∧ w / 32 % 16 = 0 ∧ w / 4096 % 256 = 4 ∧ w / 16777216 % 2 = 0 then some (.orel (field w 20 4) (field w 9 3) (field w 1 4)) else
  none

/-- The rows of major opcode 0x1D (R52). -/
def decodeOp1D (w : Nat) : Option Instr :=
  if w / 64 % 16 = 15 ∧ w / 32768 % 2 = 0 then some (.cas (field w 20 5) (field w 16 4) (field w 10 5) (field w 3 3) (field w 1 2) (field w 0 1)) else
  if w / 32768 % 2 = 0 then some (.amo (field w 20 5) (field w 16 4) (field w 10 5) (field w 6 4) (field w 3 3) (field w 1 2) (field w 0 1)) else
  none

/-- The rows of major opcode 0x1E (R52). -/
def decodeOp1E (w : Nat) : Option Instr :=
  some (.vamo (field w 20 5) (field w 16 4) (field w 15 1) (field w 10 5) (field w 7 3) (field w 6 1) (field w 2 4) (field w 0 2))

/-- The rows of major opcode 0x1F (R52). -/
def decodeOp1F (w : Nat) : Option Instr :=
  if w % 2 = 0 ∧ w / 256 % 131072 = 0 then some (.fence (field w 5 3) (field w 1 4)) else
  if w % 2 = 0 ∧ w / 256 % 4 = 1 ∧ w / 8192 % 4 = 0 ∧ w / 262144 % 128 = 0 then some (.xfence (field w 15 3) (field w 10 3) (field w 5 3) (field w 1 4)) else
  none

/-- The rows of major opcode 0x20 (R52). -/
def decodeOp20 (w : Nat) : Option Instr :=
  if w % 4 = 0 ∧ w / 64 % 512 = 0 then some (.setvl (field w 20 5) (field w 15 5) (field w 2 4)) else
  none

/-- The rows of major opcode 0x21 (R52). -/
def decodeOp21 (w : Nat) : Option Instr :=
  if w % 4 = 0 then some (.vadd (field w 20 5) (field w 15 5) (field w 10 5) (field w 7 3) (field w 6 1) (field w 2 4)) else
  if w % 4 = 1 then some (.vsub (field w 20 5) (field w 15 5) (field w 10 5) (field w 7 3) (field w 6 1) (field w 2 4)) else
  none

/-- The rows of major opcode 0x22 (R52). -/
def decodeOp22 (w : Nat) : Option Instr :=
  if w % 4 = 0 then some (.vmul (field w 20 5) (field w 15 5) (field w 10 5) (field w 7 3) (field w 6 1) (field w 2 4)) else
  if w % 4 = 1 then some (.vmulh (field w 20 5) (field w 15 5) (field w 10 5) (field w 7 3) (field w 6 1) (field w 2 4)) else
  if w % 4 = 2 then some (.vmulhz (field w 20 5) (field w 15 5) (field w 10 5) (field w 7 3) (field w 6 1) (field w 2 4)) else
  none

/-- The rows of major opcode 0x23 (R52). -/
def decodeOp23 (w : Nat) : Option Instr :=
  if w % 4 = 0 then some (.vfma (field w 20 5) (field w 15 5) (field w 10 5) (field w 7 3) (field w 6 1) (field w 2 4)) else
  if w % 4 = 1 then some (.vfms (field w 20 5) (field w 15 5) (field w 10 5) (field w 7 3) (field w 6 1) (field w 2 4)) else
  if w % 4 = 2 then some (.vfnma (field w 20 5) (field w 15 5) (field w 10 5) (field w 7 3) (field w 6 1) (field w 2 4)) else
  if w % 4 = 3 then some (.vfnms (field w 20 5) (field w 15 5) (field w 10 5) (field w 7 3) (field w 6 1) (field w 2 4)) else
  none

/-- The rows of major opcode 0x24 (R52). -/
def decodeOp24 (w : Nat) : Option Instr :=
  if w % 4 = 0 then some (.vfdiv (field w 20 5) (field w 15 5) (field w 10 5) (field w 7 3) (field w 6 1) (field w 2 4)) else
  if w % 4 = 1 ∧ w / 1024 % 32 = 0 then some (.vfsqrt (field w 20 5) (field w 15 5) (field w 7 3) (field w 6 1) (field w 2 4)) else
  none

/-- The rows of major opcode 0x25 (R52). -/
def decodeOp25 (w : Nat) : Option Instr :=
  if w % 4 = 0 then some (.vmin (field w 20 5) (field w 15 5) (field w 10 5) (field w 7 3) (field w 6 1) (field w 2 4)) else
  if w % 4 = 1 then some (.vmax (field w 20 5) (field w 15 5) (field w 10 5) (field w 7 3) (field w 6 1) (field w 2 4)) else
  if w % 4 = 2 then some (.vminz (field w 20 5) (field w 15 5) (field w 10 5) (field w 7 3) (field w 6 1) (field w 2 4)) else
  if w % 4 = 3 then some (.vmaxz (field w 20 5) (field w 15 5) (field w 10 5) (field w 7 3) (field w 6 1) (field w 2 4)) else
  none

/-- The rows of major opcode 0x26 (R52). -/
def decodeOp26 (w : Nat) : Option Instr :=
  if w % 4 = 0 then some (.vfmin (field w 20 5) (field w 15 5) (field w 10 5) (field w 7 3) (field w 6 1) (field w 2 4)) else
  if w % 4 = 1 then some (.vfmax (field w 20 5) (field w 15 5) (field w 10 5) (field w 7 3) (field w 6 1) (field w 2 4)) else
  none

/-- The rows of major opcode 0x27 (R52). -/
def decodeOp27 (w : Nat) : Option Instr :=
  if w % 4 = 0 then some (.vand (field w 20 5) (field w 15 5) (field w 10 5) (field w 7 3) (field w 6 1) (field w 2 4)) else
  if w % 4 = 1 then some (.vor (field w 20 5) (field w 15 5) (field w 10 5) (field w 7 3) (field w 6 1) (field w 2 4)) else
  if w % 4 = 2 then some (.vxor (field w 20 5) (field w 15 5) (field w 10 5) (field w 7 3) (field w 6 1) (field w 2 4)) else
  if w % 4 = 3 then some (.vandn (field w 20 5) (field w 15 5) (field w 10 5) (field w 7 3) (field w 6 1) (field w 2 4)) else
  none

/-- The rows of major opcode 0x28 (R52). -/
def decodeOp28 (w : Nat) : Option Instr :=
  if w % 4 = 0 then some (.vshl (field w 20 5) (field w 15 5) (field w 10 5) (field w 7 3) (field w 6 1) (field w 2 4)) else
  if w % 4 = 1 then some (.vshr (field w 20 5) (field w 15 5) (field w 10 5) (field w 7 3) (field w 6 1) (field w 2 4)) else
  if w % 4 = 2 then some (.vsar (field w 20 5) (field w 15 5) (field w 10 5) (field w 7 3) (field w 6 1) (field w 2 4)) else
  none

/-- The rows of major opcode 0x29 (R52). -/
def decodeOp29 (w : Nat) : Option Instr :=
  if w % 4 = 0 ∧ w / 8388608 % 4 = 0 then some (.vcmpEq (field w 20 3) (field w 15 5) (field w 10 5) (field w 7 3) (field w 6 1) (field w 2 4)) else
  if w % 4 = 1 ∧ w / 8388608 % 4 = 0 then some (.vcmpNe (field w 20 3) (field w 15 5) (field w 10 5) (field w 7 3) (field w 6 1) (field w 2 4)) else
  if w % 4 = 2 ∧ w / 8388608 % 4 = 0 then some (.vcmpLt (field w 20 3) (field w 15 5) (field w 10 5) (field w 7 3) (field w 6 1) (field w 2 4)) else
  if w % 4 = 3 ∧ w / 8388608 % 4 = 0 then some (.vcmpLe (field w 20 3) (field w 15 5) (field w 10 5) (field w 7 3) (field w 6 1) (field w 2 4)) else
  none

/-- The rows of major opcode 0x2A (R52). -/
def decodeOp2A (w : Nat) : Option Instr :=
  if w % 4 = 0 ∧ w / 8388608 % 4 = 0 then some (.vfcmpEq (field w 20 3) (field w 15 5) (field w 10 5) (field w 7 3) (field w 6 1) (field w 2 4)) else
  if w % 4 = 1 ∧ w / 8388608 % 4 = 0 then some (.vfcmpLt (field w 20 3) (field w 15 5) (field w 10 5) (field w 7 3) (field w 6 1) (field w 2 4)) else
  if w % 4 = 2 ∧ w / 8388608 % 4 = 0 then some (.vfcmpLe (field w 20 3) (field w 15 5) (field w 10 5) (field w 7 3) (field w 6 1) (field w 2 4)) else
  if w % 4 = 3 ∧ w / 8388608 % 4 = 0 then some (.vfcmpUn (field w 20 3) (field w 15 5) (field w 10 5) (field w 7 3) (field w 6 1) (field w 2 4)) else
  none

/-- The rows of major opcode 0x2B (R52). -/
def decodeOp2B (w : Nat) : Option Instr :=
  if w % 4 = 0 then some (.vsel (field w 20 5) (field w 15 5) (field w 10 5) (field w 7 3) (field w 6 1) (field w 2 4)) else
  none

/-- The rows of major opcode 0x2C (R52). -/
def decodeOp2C (w : Nat) : Option Instr :=
  if w % 4 = 0 ∧ w / 16384 % 2 = 0 then some (.vcvt (field w 20 5) (field w 15 5) (field w 10 4) (field w 7 3) (field w 6 1) (field w 2 4)) else
  if w % 4 = 1 ∧ w / 16384 % 2 = 0 then some (.vcvtSat (field w 20 5) (field w 15 5) (field w 10 4) (field w 7 3) (field w 6 1) (field w 2 4)) else
  none

/-- The rows of major opcode 0x2D (R52). -/
def decodeOp2D (w : Nat) : Option Instr :=
  if w % 4 = 0 ∧ w / 64 % 16 = 0 then some (.vquant (field w 20 5) (field w 15 5) (field w 10 5) (field w 2 4)) else
  none

/-- The rows of major opcode 0x2E (R52). -/
def decodeOp2E (w : Nat) : Option Instr :=
  if w % 4 = 0 ∧ w / 1024 % 32 = 0 then some (.vredAdd (field w 20 5) (field w 15 5) (field w 7 3) (field w 6 1) (field w 2 4)) else
  if w % 4 = 1 ∧ w / 1024 % 32 = 0 then some (.vredMin (field w 20 5) (field w 15 5) (field w 7 3) (field w 6 1) (field w 2 4)) else
  if w % 4 = 2 ∧ w / 1024 % 32 = 0 then some (.vredMax (field w 20 5) (field w 15 5) (field w 7 3) (field w 6 1) (field w 2 4)) else
  if w % 4 = 3 ∧ w / 1024 % 32 = 0 then some (.vredOr (field w 20 5) (field w 15 5) (field w 7 3) (field w 6 1) (field w 2 4)) else
  none

/-- The rows of major opcode 0x2F (R52). -/
def decodeOp2F (w : Nat) : Option Instr :=
  if w % 4 = 0 ∧ w / 1024 % 32 = 0 then some (.vscanAdd (field w 20 5) (field w 15 5) (field w 7 3) (field w 6 1) (field w 2 4)) else
  if w % 4 = 1 ∧ w / 1024 % 32 = 0 then some (.vscanMin (field w 20 5) (field w 15 5) (field w 7 3) (field w 6 1) (field w 2 4)) else
  if w % 4 = 2 ∧ w / 1024 % 32 = 0 then some (.vscanMax (field w 20 5) (field w 15 5) (field w 7 3) (field w 6 1) (field w 2 4)) else
  if w % 4 = 3 ∧ w / 1024 % 32 = 0 then some (.vscanOr (field w 20 5) (field w 15 5) (field w 7 3) (field w 6 1) (field w 2 4)) else
  none

/-- The rows of major opcode 0x30 (R52). -/
def decodeOp30 (w : Nat) : Option Instr :=
  if w % 4 = 0 then some (.vperm (field w 20 5) (field w 15 5) (field w 10 5) (field w 7 3) (field w 6 1) (field w 2 4)) else
  if w % 4 = 1 then some (.vslideUp (field w 20 5) (field w 15 5) (field w 10 5) (field w 7 3) (field w 6 1) (field w 2 4)) else
  if w % 4 = 2 then some (.vslideDn (field w 20 5) (field w 15 5) (field w 10 5) (field w 7 3) (field w 6 1) (field w 2 4)) else
  none

/-- The rows of major opcode 0x31 (R52). -/
def decodeOp31 (w : Nat) : Option Instr :=
  if w % 4 = 0 ∧ w / 1024 % 32 = 0 then some (.vbcast (field w 20 5) (field w 15 5) (field w 7 3) (field w 6 1) (field w 2 4)) else
  if w % 4 = 1 ∧ w / 64 % 16 = 0 then some (.vext (field w 20 5) (field w 15 5) (field w 10 5) (field w 2 4)) else
  if w % 4 = 2 ∧ w / 64 % 16 = 0 then some (.vins (field w 20 5) (field w 15 5) (field w 10 5) (field w 2 4)) else
  none

/-- The rows of major opcode 0x32 (R52). -/
def decodeOp32 (w : Nat) : Option Instr :=
  if w % 4 = 0 ∧ w / 1024 % 1024 = 0 then some (.viota (field w 20 5) (field w 7 3) (field w 6 1) (field w 2 4)) else
  if w % 4 = 1 ∧ w / 1024 % 32 = 0 then some (.vcompress (field w 20 5) (field w 15 5) (field w 7 3) (field w 6 1) (field w 2 4)) else
  if w % 4 = 2 ∧ w / 1024 % 32 = 0 then some (.vexpand (field w 20 5) (field w 15 5) (field w 7 3) (field w 6 1) (field w 2 4)) else
  none

/-- The rows of major opcode 0x33 (R52). -/
def decodeOp33 (w : Nat) : Option Instr :=
  if w % 4 = 0 ∧ w / 1024 % 1024 = 0 then some (.vpopc (field w 20 5) (field w 7 3) (field w 6 1) (field w 2 4)) else
  if w % 4 = 1 ∧ w / 1024 % 1024 = 0 then some (.vfirst (field w 20 5) (field w 7 3) (field w 6 1) (field w 2 4)) else
  none

/-- The rows of major opcode 0x34 (R52). -/
def decodeOp34 (w : Nat) : Option Instr :=
  if w % 4 = 0 then some (.vtopk (field w 20 5) (field w 15 5) (field w 10 5) (field w 7 3) (field w 6 1) (field w 2 4)) else
  none

/-- The rows of major opcode 0x35 (R52). -/
def decodeOp35 (w : Nat) : Option Instr :=
  if w % 4 = 0 then some (.vxacc (field w 20 5) (field w 15 5) (field w 10 5) (field w 7 3) (field w 6 1) (field w 2 4)) else
  if w % 4 = 1 ∧ w / 64 % 16 = 0 then some (.vxrnd (field w 20 5) (field w 15 5) (field w 10 5) (field w 2 4)) else
  none

/-- The rows of major opcode 0x36 (R52). -/
def decodeOp36 (w : Nat) : Option Instr :=
  if w % 4 = 0 then some (.vld (field w 20 5) (field w 16 4) (field w 15 1) (field w 10 5) (field w 7 3) (field w 6 1) (field w 2 4)) else
  if w % 4 = 1 then some (.vlds (field w 20 5) (field w 16 4) (field w 15 1) (field w 10 5) (field w 7 3) (field w 6 1) (field w 2 4)) else
  if w % 4 = 2 then some (.vst (field w 20 5) (field w 16 4) (field w 15 1) (field w 10 5) (field w 7 3) (field w 6 1) (field w 2 4)) else
  none

/-- The rows of major opcode 0x37 (R52). -/
def decodeOp37 (w : Nat) : Option Instr :=
  if w % 4 = 0 then some (.vgath (field w 20 5) (field w 16 4) (field w 15 1) (field w 10 5) (field w 7 3) (field w 6 1) (field w 2 4)) else
  if w % 4 = 1 then some (.vscat (field w 20 5) (field w 16 4) (field w 15 1) (field w 10 5) (field w 7 3) (field w 6 1) (field w 2 4)) else
  none

/-- The rows of major opcode 0x38 (R52). -/
def decodeOp38 (w : Nat) : Option Instr :=
  if w % 4 = 0 ∧ w / 1024 % 32 = 0 then some (.vmv (field w 20 5) (field w 15 5) (field w 7 3) (field w 6 1) (field w 2 4)) else
  if w % 4 = 0 ∧ w / 1024 % 32 = 1 ∧ w / 262144 % 4 = 0 then some (.vmvStream (field w 20 5) (field w 15 3) (field w 7 3) (field w 6 1) (field w 2 4)) else
  none

/-- The rows of major opcode 0x39 (R52). -/
def decodeOp39 (w : Nat) : Option Instr :=
  if w % 1024 = 0 ∧ w / 8192 % 4 = 0 ∧ w / 262144 % 4 = 0 ∧ w / 8388608 % 4 = 0 then some (.mlogAnd (field w 20 3) (field w 15 3) (field w 10 3)) else
  if w % 1024 = 1 ∧ w / 8192 % 4 = 0 ∧ w / 262144 % 4 = 0 ∧ w / 8388608 % 4 = 0 then some (.mlogOr (field w 20 3) (field w 15 3) (field w 10 3)) else
  if w % 1024 = 2 ∧ w / 8192 % 4 = 0 ∧ w / 262144 % 4 = 0 ∧ w / 8388608 % 4 = 0 then some (.mlogXor (field w 20 3) (field w 15 3) (field w 10 3)) else
  if w % 1024 = 3 ∧ w / 8192 % 4 = 0 ∧ w / 262144 % 4 = 0 ∧ w / 8388608 % 4 = 0 then some (.mlogAndn (field w 20 3) (field w 15 3) (field w 10 3)) else
  none

/-- The rows of major opcode 0x40 (R52). -/
def decodeOp40 (w : Nat) : Option Instr :=
  if w % 8 = 0 ∧ w / 2048 % 4 = 0 then some (.mma (field w 23 2) (field w 19 4) (field w 15 4) (field w 13 2) (field w 7 4) (field w 3 4)) else
  none

/-- The rows of major opcode 0x41 (R52). -/
def decodeOp41 (w : Nat) : Option Instr :=
  if w / 256 % 2048 = 0 ∧ w / 8388608 % 4 = 0 then some (.tclaim (field w 19 4) (field w 0 8)) else
  if w % 524288 = 256 ∧ w / 8388608 % 4 = 0 then some (.tfree (field w 19 4)) else
  if w / 32 % 16384 = 16 ∧ w / 8388608 % 4 = 0 then some (.tload (field w 19 4) (field w 0 5)) else
  if w / 32 % 16384 = 24 ∧ w / 8388608 % 4 = 0 then some (.tstore (field w 19 4) (field w 0 5)) else
  if w % 524288 = 1024 ∧ w / 8388608 % 4 = 0 then some (.tzero (field w 19 4)) else
  none

/-- The rows of major opcode 0x42 (R52). -/
def decodeOp42 (w : Nat) : Option Instr :=
  if w / 256 % 2048 = 0 ∧ w / 8388608 % 4 = 0 then some (.tidld (field w 19 4) (field w 0 8)) else
  if w / 256 % 2048 = 1 ∧ w / 8388608 % 4 = 0 then some (.tidst (field w 19 4) (field w 0 8)) else
  none

/-- The rows of major opcode 0x43 (R52). -/
def decodeOp43 (w : Nat) : Option Instr :=
  if w % 8388608 = 0 then some (.azero (field w 23 2)) else
  if w / 32 % 1024 = 8 then some (.aload (field w 23 2) (field w 15 8) (field w 0 5)) else
  if w / 32 % 1024 = 16 then some (.astore (field w 23 2) (field w 15 8) (field w 0 5)) else
  if w % 2048 = 768 ∧ w / 32768 % 16 = 0 then some (.adrain (field w 23 2) (field w 19 4) (field w 11 4)) else
  if w % 2048 = 1024 ∧ w / 32768 % 16 = 0 then some (.afill (field w 23 2) (field w 19 4) (field w 11 4)) else
  if w % 8192 = 1280 ∧ w / 32768 % 256 = 0 then some (.amode (field w 23 2) (field w 13 2)) else
  none

/-- The rows of major opcode 0x44 (R52). -/
def decodeOp44 (w : Nat) : Option Instr :=
  if w % 524288 = 0 ∧ w / 2097152 % 4 = 0 then some (.again (field w 23 2) (field w 19 2)) else
  if w % 8388608 = 1 then some (.againPlain (field w 23 2)) else
  if w / 32 % 1024 = 8 ∧ w / 131072 % 64 = 0 then some (.ascan (field w 23 2) (field w 15 2) (field w 0 5)) else
  if w / 32 % 1024 = 12 ∧ w / 131072 % 64 = 0 then some (.ascanK (field w 23 2) (field w 15 2) (field w 0 5)) else
  if w / 32 % 64 = 10 ∧ w / 131072 % 4 = 0 then some (.ascanG (field w 23 2) (field w 19 4) (field w 15 2) (field w 11 4) (field w 0 5)) else
  if w % 32768 = 512 ∧ w / 131072 % 64 = 0 then some (.aapply (field w 23 2) (field w 15 2)) else
  none

/-- The rows of major opcode 0x45 (R52). -/
def decodeOp45 (w : Nat) : Option Instr :=
  if w / 32 % 262144 = 0 then some (.kload (field w 23 2) (field w 0 5)) else
  if w / 32 % 262144 = 8 then some (.kstore (field w 23 2) (field w 0 5)) else
  if w % 32768 = 512 ∧ w / 131072 % 4 = 0 ∧ w / 2097152 % 4 = 0 then some (.kcomb (field w 23 2) (field w 19 2) (field w 15 2)) else
  if w % 8388608 = 768 then some (.kzero (field w 23 2)) else
  none

/-- The rows of major opcode 0x4C (R52). -/
def decodeOp4C (w : Nat) : Option Instr :=
  if w / 64 % 16 = 0 then some (.xfer (field w 20 5) (field w 15 5) (field w 10 5) (field w 0 6)) else
  if w / 64 % 16 = 2 then some (.xgath (field w 20 5) (field w 15 5) (field w 10 5) (field w 0 6)) else
  if w / 64 % 16 = 4 ∧ w / 1048576 % 32 = 0 then some (.xprefTr (field w 15 5) (field w 10 5) (field w 0 6)) else
  if w / 64 % 16 = 5 ∧ w / 1048576 % 32 = 0 then some (.xprefMg (field w 15 5) (field w 10 5) (field w 0 6)) else
  if w % 32768 = 256 then some (.xprefTq (field w 20 5) (field w 15 5)) else
  none

/-- The rows of major opcode 0x4D (R52). -/
def decodeOp4D (w : Nat) : Option Instr :=
  if w % 32768 = 0 then some (.xwaitAll (field w 20 5) (field w 15 5)) else
  if w % 32768 = 1 then some (.xwaitAny (field w 20 5) (field w 15 5)) else
  if w % 32768 = 128 then some (.xfind (field w 20 5) (field w 15 5)) else
  none

/-- The rows of major opcode 0x4E (R52). -/
def decodeOp4E (w : Nat) : Option Instr :=
  if w % 1024 = 0 ∧ w / 8388608 % 4 = 0 then some (.sbind (field w 20 3) (field w 15 5) (field w 10 5)) else
  if w % 1048576 = 128 ∧ w / 8388608 % 4 = 0 then some (.sclose (field w 20 3)) else
  none

/-- The rows of major opcode 0x50 (R52). -/
def decodeOp50 (w : Nat) : Option Instr :=
  if w / 16 % 64 = 0 ∧ w / 1048576 % 32 = 0 then some (.send (field w 15 5) (field w 10 5) (field w 0 4)) else
  if w / 16 % 64 = 8 ∧ w / 1048576 % 32 = 0 then some (.sendv (field w 15 5) (field w 10 5) (field w 0 4)) else
  none

/-- The rows of major opcode 0x51 (R52). -/
def decodeOp51 (w : Nat) : Option Instr :=
  if w / 16 % 65536 = 0 then some (.recv (field w 20 5) (field w 0 4)) else
  if w / 16 % 65536 = 4 then some (.recvV (field w 20 5) (field w 0 4)) else
  if w % 32768 = 128 ∧ w / 1048576 % 32 = 0 then some (.qclr (field w 15 5)) else
  none

/-- The rows of major opcode 0x52 (R52). -/
def decodeOp52 (w : Nat) : Option Instr :=
  if w % 33554432 = 0 then some (.xphase) else
  if w % 33554432 = 128 then some (.sstep) else
  none

/-- The rows of major opcode 0x53 (R52). -/
def decodeOp53 (w : Nat) : Option Instr :=
  if w / 4 % 8388608 = 0 then some (.arrive (field w 0 2)) else
  if w / 4 % 8388608 = 16 then some (.arriveRel (field w 0 2)) else
  if w / 4 % 8388608 = 32 then some (.wait (field w 0 2)) else
  if w / 4 % 8388608 = 48 then some (.waitAcq (field w 0 2)) else
  if w / 4 % 8192 = 64 then some (.bvote (field w 20 5) (field w 15 5) (field w 0 2)) else
  none

/-- The rows of major opcode 0x54 (R52). -/
def decodeOp54 (w : Nat) : Option Instr :=
  if w % 1024 = 0 ∧ w / 16384 % 2 = 0 ∧ w / 524288 % 2 = 0 ∧ w / 16777216 % 2 = 0 then some (.spawn (field w 20 4) (field w 15 4) (field w 10 4)) else
  if w % 1024 = 128 ∧ w / 16384 % 2 = 0 ∧ w / 524288 % 2 = 0 ∧ w / 16777216 % 2 = 0 then some (.take (field w 20 4) (field w 15 4) (field w 10 4)) else
  if w % 32768 = 256 ∧ w / 524288 % 64 = 0 then some (.join (field w 15 4)) else
  none

/-- The rows of major opcode 0x55 (R52). -/
def decodeOp55 (w : Nat) : Option Instr :=
  if w % 1024 = 0 ∧ w / 16384 % 2 = 0 then some (.qpost (field w 20 5) (field w 15 5) (field w 10 4)) else
  none

/-- The rows of major opcode 0x58 (R52). -/
def decodeOp58 (w : Nat) : Option Instr :=
  if w / 4096 % 256 = 0 then some (.rds (field w 20 5) (field w 0 12)) else
  if w / 4096 % 8 = 1 ∧ w / 1048576 % 32 = 0 then some (.wrs (field w 15 5) (field w 0 12)) else
  none

/-- The rows of major opcode 0x59 (R52). -/
def decodeOp59 (w : Nat) : Option Instr :=
  if w / 4096 % 8192 = 0 then some (.trap (field w 0 12)) else
  if w % 33554432 = 4096 then some (.eret) else
  if w % 33554432 = 8192 then some (.wfi) else
  if w / 4096 % 8192 = 3 then some (.brk (field w 0 12)) else
  none

/-- The rows of major opcode 0x5A (R52). -/
def decodeOp5A (w : Nat) : Option Instr :=
  if w % 1024 = 0 ∧ w / 1048576 % 32 = 0 then some (.sfence (field w 15 5) (field w 10 5)) else
  none

/-- The rows of major opcode 0x5B (R52). -/
def decodeOp5B (w : Nat) : Option Instr :=
  if w % 33554432 = 0 then some (.cdrain) else
  none

/-- The rows of major opcode 0x5C (R52). -/
def decodeOp5C (w : Nat) : Option Instr :=
  if w % 1048576 = 0 ∧ w / 16777216 % 2 = 0 then some (.cxsave (field w 20 4)) else
  if w % 1048576 = 1 ∧ w / 16777216 % 2 = 0 then some (.cxload (field w 20 4)) else
  none

/-- The rows of major opcode 0x7E (R52). -/
def decodeOp7E (w : Nat) : Option Instr :=
  if w / 4194304 % 8 = 0 then some (.immx (field w 0 22)) else
  if w / 4194304 % 8 = 1 then some (.hint (field w 0 22)) else
  none

/-- The row a word belongs to, by its fixed fields alone: the major opcode, then the function codes and the
must-be-zero fields (R52 to R59, R60). -/
def decodeRow (w : Nat) : Option Instr :=
  match w / 33554432 % 128 with
  | 0x01 => decodeOp01 w
  | 0x03 => decodeOp03 w
  | 0x04 => decodeOp04 w
  | 0x05 => decodeOp05 w
  | 0x06 => decodeOp06 w
  | 0x10 => decodeOp10 w
  | 0x11 => decodeOp11 w
  | 0x12 => decodeOp12 w
  | 0x13 => decodeOp13 w
  | 0x14 => decodeOp14 w
  | 0x15 => decodeOp15 w
  | 0x18 => decodeOp18 w
  | 0x19 => decodeOp19 w
  | 0x1A => decodeOp1A w
  | 0x1B => decodeOp1B w
  | 0x1C => decodeOp1C w
  | 0x1D => decodeOp1D w
  | 0x1E => decodeOp1E w
  | 0x1F => decodeOp1F w
  | 0x20 => decodeOp20 w
  | 0x21 => decodeOp21 w
  | 0x22 => decodeOp22 w
  | 0x23 => decodeOp23 w
  | 0x24 => decodeOp24 w
  | 0x25 => decodeOp25 w
  | 0x26 => decodeOp26 w
  | 0x27 => decodeOp27 w
  | 0x28 => decodeOp28 w
  | 0x29 => decodeOp29 w
  | 0x2A => decodeOp2A w
  | 0x2B => decodeOp2B w
  | 0x2C => decodeOp2C w
  | 0x2D => decodeOp2D w
  | 0x2E => decodeOp2E w
  | 0x2F => decodeOp2F w
  | 0x30 => decodeOp30 w
  | 0x31 => decodeOp31 w
  | 0x32 => decodeOp32 w
  | 0x33 => decodeOp33 w
  | 0x34 => decodeOp34 w
  | 0x35 => decodeOp35 w
  | 0x36 => decodeOp36 w
  | 0x37 => decodeOp37 w
  | 0x38 => decodeOp38 w
  | 0x39 => decodeOp39 w
  | 0x40 => decodeOp40 w
  | 0x41 => decodeOp41 w
  | 0x42 => decodeOp42 w
  | 0x43 => decodeOp43 w
  | 0x44 => decodeOp44 w
  | 0x45 => decodeOp45 w
  | 0x4C => decodeOp4C w
  | 0x4D => decodeOp4D w
  | 0x4E => decodeOp4E w
  | 0x50 => decodeOp50 w
  | 0x51 => decodeOp51 w
  | 0x52 => decodeOp52 w
  | 0x53 => decodeOp53 w
  | 0x54 => decodeOp54 w
  | 0x55 => decodeOp55 w
  | 0x58 => decodeOp58 w
  | 0x59 => decodeOp59 w
  | 0x5A => decodeOp5A w
  | 0x5B => decodeOp5B w
  | 0x5C => decodeOp5C w
  | 0x7E => decodeOp7E w
  | _ => none

/-- The decoder: the instruction of the row whose fixed fields a word has; none for every word that is no instruction, which
traps ILLEGAL (R52, R60). -/
def decode (w : W32) : Option Instr := decodeRow w.toNat

/-- The instruction of a word whose register and coded fields the rules accept as well (R60 step 1). -/
def decodeWf (w : W32) : Option Instr := (decode w).filter Instr.wf

/-- The word of an instruction, none for a step that has no word (R46, R52 to R59). -/
def encodeNat : Instr → Option Nat
  | .add d a b => some (0x02000000 + d.toNat * 1048576 + a.toNat * 32768 + b.toNat * 1024)
  | .sub d a b => some (0x02000001 + d.toNat * 1048576 + a.toNat * 32768 + b.toNat * 1024)
  | .mul d a b => some (0x02000002 + d.toNat * 1048576 + a.toNat * 32768 + b.toNat * 1024)
  | .mulh d a b => some (0x02000003 + d.toNat * 1048576 + a.toNat * 32768 + b.toNat * 1024)
  | .mulhz d a b => some (0x02000004 + d.toNat * 1048576 + a.toNat * 32768 + b.toNat * 1024)
  | .div d a b => some (0x02000005 + d.toNat * 1048576 + a.toNat * 32768 + b.toNat * 1024)
  | .divz d a b => some (0x02000006 + d.toNat * 1048576 + a.toNat * 32768 + b.toNat * 1024)
  | .rem d a b => some (0x02000007 + d.toNat * 1048576 + a.toNat * 32768 + b.toNat * 1024)
  | .remz d a b => some (0x02000008 + d.toNat * 1048576 + a.toNat * 32768 + b.toNat * 1024)
  | .and d a b => some (0x02000010 + d.toNat * 1048576 + a.toNat * 32768 + b.toNat * 1024)
  | .or d a b => some (0x02000011 + d.toNat * 1048576 + a.toNat * 32768 + b.toNat * 1024)
  | .xor d a b => some (0x02000012 + d.toNat * 1048576 + a.toNat * 32768 + b.toNat * 1024)
  | .andn d a b => some (0x02000013 + d.toNat * 1048576 + a.toNat * 32768 + b.toNat * 1024)
  | .shl d a b => some (0x02000018 + d.toNat * 1048576 + a.toNat * 32768 + b.toNat * 1024)
  | .shr d a b => some (0x02000019 + d.toNat * 1048576 + a.toNat * 32768 + b.toNat * 1024)
  | .sar d a b => some (0x0200001A + d.toNat * 1048576 + a.toNat * 32768 + b.toNat * 1024)
  | .rol d a b => some (0x0200001B + d.toNat * 1048576 + a.toNat * 32768 + b.toNat * 1024)
  | .ror d a b => some (0x0200001C + d.toNat * 1048576 + a.toNat * 32768 + b.toNat * 1024)
  | .slt d a b => some (0x02000020 + d.toNat * 1048576 + a.toNat * 32768 + b.toNat * 1024)
  | .sltz d a b => some (0x02000021 + d.toNat * 1048576 + a.toNat * 32768 + b.toNat * 1024)
  | .min d a b => some (0x02000022 + d.toNat * 1048576 + a.toNat * 32768 + b.toNat * 1024)
  | .max d a b => some (0x02000023 + d.toNat * 1048576 + a.toNat * 32768 + b.toNat * 1024)
  | .minz d a b => some (0x02000024 + d.toNat * 1048576 + a.toNat * 32768 + b.toNat * 1024)
  | .maxz d a b => some (0x02000025 + d.toNat * 1048576 + a.toNat * 32768 + b.toNat * 1024)
  | .cmov d a b => some (0x02000026 + d.toNat * 1048576 + a.toNat * 32768 + b.toNat * 1024)
  | .clz d a => some (0x02000030 + d.toNat * 1048576 + a.toNat * 32768)
  | .ctz d a => some (0x02000031 + d.toNat * 1048576 + a.toNat * 32768)
  | .popc d a => some (0x02000032 + d.toNat * 1048576 + a.toNat * 32768)
  | .brev d a => some (0x02000033 + d.toNat * 1048576 + a.toNat * 32768)
  | .bswap d a => some (0x02000034 + d.toNat * 1048576 + a.toNat * 32768)
  | .addi d a i => some (0x06000000 + d.toNat * 1048576 + a.toNat * 32768 + i.toNat)
  | .andi d a i => some (0x06001000 + d.toNat * 1048576 + a.toNat * 32768 + i.toNat)
  | .ori d a i => some (0x06002000 + d.toNat * 1048576 + a.toNat * 32768 + i.toNat)
  | .xori d a i => some (0x06003000 + d.toNat * 1048576 + a.toNat * 32768 + i.toNat)
  | .slti d a i => some (0x06004000 + d.toNat * 1048576 + a.toNat * 32768 + i.toNat)
  | .sltzi d a i => some (0x06005000 + d.toNat * 1048576 + a.toNat * 32768 + i.toNat)
  | .shli d a s => some (0x08000000 + d.toNat * 1048576 + a.toNat * 32768 + s.toNat)
  | .shri d a s => some (0x08001000 + d.toNat * 1048576 + a.toNat * 32768 + s.toNat)
  | .sari d a s => some (0x08002000 + d.toNat * 1048576 + a.toNat * 32768 + s.toNat)
  | .ext d a w p => some (0x08003000 + d.toNat * 1048576 + a.toNat * 32768 + w.toNat * 64 + p.toNat)
  | .ins d a w p => some (0x08004000 + d.toNat * 1048576 + a.toNat * 32768 + w.toNat * 64 + p.toNat)
  | .lup d i => some (0x0A000000 + d.toNat * 1048576 + i.toNat)
  | .aupc d i => some (0x0C000000 + d.toNat * 1048576 + i.toNat)
  | .bEq a b o => some (0x20000000 + a.toNat * 1048576 + b.toNat * 32768 + o.toNat)
  | .bNe a b o => some (0x20001000 + a.toNat * 1048576 + b.toNat * 32768 + o.toNat)
  | .bLt a b o => some (0x20002000 + a.toNat * 1048576 + b.toNat * 32768 + o.toNat)
  | .bGe a b o => some (0x20003000 + a.toNat * 1048576 + b.toNat * 32768 + o.toNat)
  | .bLtz a b o => some (0x20004000 + a.toNat * 1048576 + b.toNat * 32768 + o.toNat)
  | .bGez a b o => some (0x20005000 + a.toNat * 1048576 + b.toNat * 32768 + o.toNat)
  | .j o => some (0x22000000 + o.toNat)
  | .call d o => some (0x24000000 + d.toNat * 1048576 + o.toNat)
  | .jr a => some (0x26000000 + a.toNat * 32768)
  | .callr d p => some (0x26000001 + d.toNat * 1048576 + p.toNat * 32768)
  | .rep s a n l => some (0x28000000 + s.toNat * 1048576 + a.toNat * 32768 + n.toNat * 16 + l.toNat)
  | .retire => some (0x2A000000)
  | .ld d p m z o => some (0x30000000 + d.toNat * 1048576 + p.toNat * 65536 + m.toNat * 16384 + z.toNat * 2048 + o.toNat)
  | .st d p m z o => some (0x32000000 + d.toNat * 1048576 + p.toNat * 65536 + m.toNat * 16384 + z.toNat * 2048 + o.toNat)
  | .ldp q p m o => some (0x34001800 + q.toNat * 1048576 + p.toNat * 65536 + m.toNat * 16384 + o.toNat)
  | .stp q p m o => some (0x35001800 + q.toNat * 1048576 + p.toNat * 65536 + m.toNat * 16384 + o.toNat)
  | .pmov d a => some (0x36000000 + d.toNat * 1048576 + a.toNat * 32768)
  | .padj d a b => some (0x36000001 + d.toNat * 1048576 + a.toNat * 32768 + b.toNat * 1024)
  | .plen d a => some (0x36000002 + d.toNat * 1048576 + a.toNat * 32768)
  | .pslice d a b => some (0x36000003 + d.toNat * 1048576 + a.toNat * 32768 + b.toNat * 1024)
  | .pfrom d a => some (0x36000004 + d.toNat * 1048576 + a.toNat * 32768)
  | .ptox d a => some (0x36000005 + d.toNat * 1048576 + a.toNat * 32768)
  | .alloc d a l k => some (0x38000000 + d.toNat * 1048576 + a.toNat * 32768 + l.toNat * 16 + k.toNat)
  | .allocr d a l k => some (0x38001000 + d.toNat * 1048576 + a.toNat * 32768 + l.toNat * 16 + k.toNat)
  | .otouch d => some (0x38002000 + d.toNat * 1048576)
  | .oacq d g s => some (0x38003000 + d.toNat * 1048576 + g.toNat * 512 + s.toNat * 2)
  | .orel d g s => some (0x38004000 + d.toNat * 1048576 + g.toNat * 512 + s.toNat * 2)
  | .amo d p b o g s w => some (0x3A000000 + d.toNat * 1048576 + p.toNat * 65536 + b.toNat * 1024 + o.toNat * 64 + g.toNat * 8 + s.toNat * 2 + w.toNat)
  | .cas d p b g s w => some (0x3A0003C0 + d.toNat * 1048576 + p.toNat * 65536 + b.toNat * 1024 + g.toNat * 8 + s.toNat * 2 + w.toNat)
  | .vamo d p w b m n o g => some (0x3C000000 + d.toNat * 1048576 + p.toNat * 65536 + w.toNat * 32768 + b.toNat * 1024 + m.toNat * 128 + n.toNat * 64 + o.toNat * 4 + g.toNat)
  | .fence g s => some (0x3E000000 + g.toNat * 32 + s.toNat * 2)
  | .xfence c e g s => some (0x3E000100 + c.toNat * 32768 + e.toNat * 1024 + g.toNat * 32 + s.toNat * 2)
  | .setvl d a t => some (0x40000000 + d.toNat * 1048576 + a.toNat * 32768 + t.toNat * 4)
  | .vadd d a b m n t => some (0x42000000 + d.toNat * 1048576 + a.toNat * 32768 + b.toNat * 1024 + m.toNat * 128 + n.toNat * 64 + t.toNat * 4)
  | .vsub d a b m n t => some (0x42000001 + d.toNat * 1048576 + a.toNat * 32768 + b.toNat * 1024 + m.toNat * 128 + n.toNat * 64 + t.toNat * 4)
  | .vmul d a b m n t => some (0x44000000 + d.toNat * 1048576 + a.toNat * 32768 + b.toNat * 1024 + m.toNat * 128 + n.toNat * 64 + t.toNat * 4)
  | .vmulh d a b m n t => some (0x44000001 + d.toNat * 1048576 + a.toNat * 32768 + b.toNat * 1024 + m.toNat * 128 + n.toNat * 64 + t.toNat * 4)
  | .vmulhz d a b m n t => some (0x44000002 + d.toNat * 1048576 + a.toNat * 32768 + b.toNat * 1024 + m.toNat * 128 + n.toNat * 64 + t.toNat * 4)
  | .vfma d a b m n t => some (0x46000000 + d.toNat * 1048576 + a.toNat * 32768 + b.toNat * 1024 + m.toNat * 128 + n.toNat * 64 + t.toNat * 4)
  | .vfms d a b m n t => some (0x46000001 + d.toNat * 1048576 + a.toNat * 32768 + b.toNat * 1024 + m.toNat * 128 + n.toNat * 64 + t.toNat * 4)
  | .vfnma d a b m n t => some (0x46000002 + d.toNat * 1048576 + a.toNat * 32768 + b.toNat * 1024 + m.toNat * 128 + n.toNat * 64 + t.toNat * 4)
  | .vfnms d a b m n t => some (0x46000003 + d.toNat * 1048576 + a.toNat * 32768 + b.toNat * 1024 + m.toNat * 128 + n.toNat * 64 + t.toNat * 4)
  | .vfdiv d a b m n t => some (0x48000000 + d.toNat * 1048576 + a.toNat * 32768 + b.toNat * 1024 + m.toNat * 128 + n.toNat * 64 + t.toNat * 4)
  | .vfsqrt d a m n t => some (0x48000001 + d.toNat * 1048576 + a.toNat * 32768 + m.toNat * 128 + n.toNat * 64 + t.toNat * 4)
  | .vmin d a b m n t => some (0x4A000000 + d.toNat * 1048576 + a.toNat * 32768 + b.toNat * 1024 + m.toNat * 128 + n.toNat * 64 + t.toNat * 4)
  | .vmax d a b m n t => some (0x4A000001 + d.toNat * 1048576 + a.toNat * 32768 + b.toNat * 1024 + m.toNat * 128 + n.toNat * 64 + t.toNat * 4)
  | .vminz d a b m n t => some (0x4A000002 + d.toNat * 1048576 + a.toNat * 32768 + b.toNat * 1024 + m.toNat * 128 + n.toNat * 64 + t.toNat * 4)
  | .vmaxz d a b m n t => some (0x4A000003 + d.toNat * 1048576 + a.toNat * 32768 + b.toNat * 1024 + m.toNat * 128 + n.toNat * 64 + t.toNat * 4)
  | .vfmin d a b m n t => some (0x4C000000 + d.toNat * 1048576 + a.toNat * 32768 + b.toNat * 1024 + m.toNat * 128 + n.toNat * 64 + t.toNat * 4)
  | .vfmax d a b m n t => some (0x4C000001 + d.toNat * 1048576 + a.toNat * 32768 + b.toNat * 1024 + m.toNat * 128 + n.toNat * 64 + t.toNat * 4)
  | .vand d a b m n t => some (0x4E000000 + d.toNat * 1048576 + a.toNat * 32768 + b.toNat * 1024 + m.toNat * 128 + n.toNat * 64 + t.toNat * 4)
  | .vor d a b m n t => some (0x4E000001 + d.toNat * 1048576 + a.toNat * 32768 + b.toNat * 1024 + m.toNat * 128 + n.toNat * 64 + t.toNat * 4)
  | .vxor d a b m n t => some (0x4E000002 + d.toNat * 1048576 + a.toNat * 32768 + b.toNat * 1024 + m.toNat * 128 + n.toNat * 64 + t.toNat * 4)
  | .vandn d a b m n t => some (0x4E000003 + d.toNat * 1048576 + a.toNat * 32768 + b.toNat * 1024 + m.toNat * 128 + n.toNat * 64 + t.toNat * 4)
  | .vshl d a b m n t => some (0x50000000 + d.toNat * 1048576 + a.toNat * 32768 + b.toNat * 1024 + m.toNat * 128 + n.toNat * 64 + t.toNat * 4)
  | .vshr d a b m n t => some (0x50000001 + d.toNat * 1048576 + a.toNat * 32768 + b.toNat * 1024 + m.toNat * 128 + n.toNat * 64 + t.toNat * 4)
  | .vsar d a b m n t => some (0x50000002 + d.toNat * 1048576 + a.toNat * 32768 + b.toNat * 1024 + m.toNat * 128 + n.toNat * 64 + t.toNat * 4)
  | .vcmpEq d a b m n t => some (0x52000000 + d.toNat * 1048576 + a.toNat * 32768 + b.toNat * 1024 + m.toNat * 128 + n.toNat * 64 + t.toNat * 4)
  | .vcmpNe d a b m n t => some (0x52000001 + d.toNat * 1048576 + a.toNat * 32768 + b.toNat * 1024 + m.toNat * 128 + n.toNat * 64 + t.toNat * 4)
  | .vcmpLt d a b m n t => some (0x52000002 + d.toNat * 1048576 + a.toNat * 32768 + b.toNat * 1024 + m.toNat * 128 + n.toNat * 64 + t.toNat * 4)
  | .vcmpLe d a b m n t => some (0x52000003 + d.toNat * 1048576 + a.toNat * 32768 + b.toNat * 1024 + m.toNat * 128 + n.toNat * 64 + t.toNat * 4)
  | .vfcmpEq d a b m n t => some (0x54000000 + d.toNat * 1048576 + a.toNat * 32768 + b.toNat * 1024 + m.toNat * 128 + n.toNat * 64 + t.toNat * 4)
  | .vfcmpLt d a b m n t => some (0x54000001 + d.toNat * 1048576 + a.toNat * 32768 + b.toNat * 1024 + m.toNat * 128 + n.toNat * 64 + t.toNat * 4)
  | .vfcmpLe d a b m n t => some (0x54000002 + d.toNat * 1048576 + a.toNat * 32768 + b.toNat * 1024 + m.toNat * 128 + n.toNat * 64 + t.toNat * 4)
  | .vfcmpUn d a b m n t => some (0x54000003 + d.toNat * 1048576 + a.toNat * 32768 + b.toNat * 1024 + m.toNat * 128 + n.toNat * 64 + t.toNat * 4)
  | .vsel d a b m n t => some (0x56000000 + d.toNat * 1048576 + a.toNat * 32768 + b.toNat * 1024 + m.toNat * 128 + n.toNat * 64 + t.toNat * 4)
  | .vcvt d a s m n t => some (0x58000000 + d.toNat * 1048576 + a.toNat * 32768 + s.toNat * 1024 + m.toNat * 128 + n.toNat * 64 + t.toNat * 4)
  | .vcvtSat d a s m n t => some (0x58000001 + d.toNat * 1048576 + a.toNat * 32768 + s.toNat * 1024 + m.toNat * 128 + n.toNat * 64 + t.toNat * 4)
  | .vquant d a b t => some (0x5A000000 + d.toNat * 1048576 + a.toNat * 32768 + b.toNat * 1024 + t.toNat * 4)
  | .vredAdd d a m n t => some (0x5C000000 + d.toNat * 1048576 + a.toNat * 32768 + m.toNat * 128 + n.toNat * 64 + t.toNat * 4)
  | .vredMin d a m n t => some (0x5C000001 + d.toNat * 1048576 + a.toNat * 32768 + m.toNat * 128 + n.toNat * 64 + t.toNat * 4)
  | .vredMax d a m n t => some (0x5C000002 + d.toNat * 1048576 + a.toNat * 32768 + m.toNat * 128 + n.toNat * 64 + t.toNat * 4)
  | .vredOr d a m n t => some (0x5C000003 + d.toNat * 1048576 + a.toNat * 32768 + m.toNat * 128 + n.toNat * 64 + t.toNat * 4)
  | .vscanAdd d a m n t => some (0x5E000000 + d.toNat * 1048576 + a.toNat * 32768 + m.toNat * 128 + n.toNat * 64 + t.toNat * 4)
  | .vscanMin d a m n t => some (0x5E000001 + d.toNat * 1048576 + a.toNat * 32768 + m.toNat * 128 + n.toNat * 64 + t.toNat * 4)
  | .vscanMax d a m n t => some (0x5E000002 + d.toNat * 1048576 + a.toNat * 32768 + m.toNat * 128 + n.toNat * 64 + t.toNat * 4)
  | .vscanOr d a m n t => some (0x5E000003 + d.toNat * 1048576 + a.toNat * 32768 + m.toNat * 128 + n.toNat * 64 + t.toNat * 4)
  | .vperm d a b m n t => some (0x60000000 + d.toNat * 1048576 + a.toNat * 32768 + b.toNat * 1024 + m.toNat * 128 + n.toNat * 64 + t.toNat * 4)
  | .vslideUp d a b m n t => some (0x60000001 + d.toNat * 1048576 + a.toNat * 32768 + b.toNat * 1024 + m.toNat * 128 + n.toNat * 64 + t.toNat * 4)
  | .vslideDn d a b m n t => some (0x60000002 + d.toNat * 1048576 + a.toNat * 32768 + b.toNat * 1024 + m.toNat * 128 + n.toNat * 64 + t.toNat * 4)
  | .vbcast d a m n t => some (0x62000000 + d.toNat * 1048576 + a.toNat * 32768 + m.toNat * 128 + n.toNat * 64 + t.toNat * 4)
  | .vext d a b t => some (0x62000001 + d.toNat * 1048576 + a.toNat * 32768 + b.toNat * 1024 + t.toNat * 4)
  | .vins d a b t => some (0x62000002 + d.toNat * 1048576 + a.toNat * 32768 + b.toNat * 1024 + t.toNat * 4)
  | .viota d m n t => some (0x64000000 + d.toNat * 1048576 + m.toNat * 128 + n.toNat * 64 + t.toNat * 4)
  | .vcompress d a m n t => some (0x64000001 + d.toNat * 1048576 + a.toNat * 32768 + m.toNat * 128 + n.toNat * 64 + t.toNat * 4)
  | .vexpand d a m n t => some (0x64000002 + d.toNat * 1048576 + a.toNat * 32768 + m.toNat * 128 + n.toNat * 64 + t.toNat * 4)
  | .vpopc d m n t => some (0x66000000 + d.toNat * 1048576 + m.toNat * 128 + n.toNat * 64 + t.toNat * 4)
  | .vfirst d m n t => some (0x66000001 + d.toNat * 1048576 + m.toNat * 128 + n.toNat * 64 + t.toNat * 4)
  | .vtopk d a b m n t => some (0x68000000 + d.toNat * 1048576 + a.toNat * 32768 + b.toNat * 1024 + m.toNat * 128 + n.toNat * 64 + t.toNat * 4)
  | .vxacc d a b m n t => some (0x6A000000 + d.toNat * 1048576 + a.toNat * 32768 + b.toNat * 1024 + m.toNat * 128 + n.toNat * 64 + t.toNat * 4)
  | .vxrnd d a b t => some (0x6A000001 + d.toNat * 1048576 + a.toNat * 32768 + b.toNat * 1024 + t.toNat * 4)
  | .vld d p v b m n t => some (0x6C000000 + d.toNat * 1048576 + p.toNat * 65536 + v.toNat * 32768 + b.toNat * 1024 + m.toNat * 128 + n.toNat * 64 + t.toNat * 4)
  | .vlds d p v b m n t => some (0x6C000001 + d.toNat * 1048576 + p.toNat * 65536 + v.toNat * 32768 + b.toNat * 1024 + m.toNat * 128 + n.toNat * 64 + t.toNat * 4)
  | .vst d p v b m n t => some (0x6C000002 + d.toNat * 1048576 + p.toNat * 65536 + v.toNat * 32768 + b.toNat * 1024 + m.toNat * 128 + n.toNat * 64 + t.toNat * 4)
  | .vgath d p v b m n t => some (0x6E000000 + d.toNat * 1048576 + p.toNat * 65536 + v.toNat * 32768 + b.toNat * 1024 + m.toNat * 128 + n.toNat * 64 + t.toNat * 4)
  | .vscat d p v b m n t => some (0x6E000001 + d.toNat * 1048576 + p.toNat * 65536 + v.toNat * 32768 + b.toNat * 1024 + m.toNat * 128 + n.toNat * 64 + t.toNat * 4)
  | .vmv d a m n t => some (0x70000000 + d.toNat * 1048576 + a.toNat * 32768 + m.toNat * 128 + n.toNat * 64 + t.toNat * 4)
  | .vmvStream d s m n t => some (0x70000400 + d.toNat * 1048576 + s.toNat * 32768 + m.toNat * 128 + n.toNat * 64 + t.toNat * 4)
  | .mlogAnd d a b => some (0x72000000 + d.toNat * 1048576 + a.toNat * 32768 + b.toNat * 1024)
  | .mlogOr d a b => some (0x72000001 + d.toNat * 1048576 + a.toNat * 32768 + b.toNat * 1024)
  | .mlogXor d a b => some (0x72000002 + d.toNat * 1048576 + a.toNat * 32768 + b.toNat * 1024)
  | .mlogAndn d a b => some (0x72000003 + d.toNat * 1048576 + a.toNat * 32768 + b.toNat * 1024)
  | .mma c a b s t u => some (0x80000000 + c.toNat * 8388608 + a.toNat * 524288 + b.toNat * 32768 + s.toNat * 8192 + t.toNat * 128 + u.toNat * 8)
  | .tclaim s i => some (0x82000000 + s.toNat * 524288 + i.toNat)
  | .tfree s => some (0x82000100 + s.toNat * 524288)
  | .tload s r => some (0x82000200 + s.toNat * 524288 + r.toNat)
  | .tstore s r => some (0x82000300 + s.toNat * 524288 + r.toNat)
  | .tzero s => some (0x82000400 + s.toNat * 524288)
  | .tidld p i => some (0x84000000 + p.toNat * 524288 + i.toNat)
  | .tidst p i => some (0x84000100 + p.toNat * 524288 + i.toNat)
  | .azero d => some (0x86000000 + d.toNat * 8388608)
  | .aload d i r => some (0x86000100 + d.toNat * 8388608 + i.toNat * 32768 + r.toNat)
  | .astore d i r => some (0x86000200 + d.toNat * 8388608 + i.toNat * 32768 + r.toNat)
  | .adrain d s t => some (0x86000300 + d.toNat * 8388608 + s.toNat * 524288 + t.toNat * 2048)
  | .afill d s t => some (0x86000400 + d.toNat * 8388608 + s.toNat * 524288 + t.toNat * 2048)
  | .amode d e => some (0x86000500 + d.toNat * 8388608 + e.toNat * 8192)
  | .again d s => some (0x88000000 + d.toNat * 8388608 + s.toNat * 524288)
  | .againPlain d => some (0x88000001 + d.toNat * 8388608)
  | .ascan d c n => some (0x88000100 + d.toNat * 8388608 + c.toNat * 32768 + n.toNat)
  | .ascanK d c n => some (0x88000180 + d.toNat * 8388608 + c.toNat * 32768 + n.toNat)
  | .ascanG d s c t n => some (0x88000140 + d.toNat * 8388608 + s.toNat * 524288 + c.toNat * 32768 + t.toNat * 2048 + n.toNat)
  | .aapply d c => some (0x88000200 + d.toNat * 8388608 + c.toNat * 32768)
  | .kload c a => some (0x8A000000 + c.toNat * 8388608 + a.toNat)
  | .kstore c v => some (0x8A000100 + c.toNat * 8388608 + v.toNat)
  | .kcomb d s q => some (0x8A000200 + d.toNat * 8388608 + s.toNat * 524288 + q.toNat * 32768)
  | .kzero c => some (0x8A000300 + c.toNat * 8388608)
  | .xfer d a b t => some (0x98000000 + d.toNat * 1048576 + a.toNat * 32768 + b.toNat * 1024 + t.toNat)
  | .xgath d a b t => some (0x98000080 + d.toNat * 1048576 + a.toNat * 32768 + b.toNat * 1024 + t.toNat)
  | .xprefTr a b t => some (0x98000100 + a.toNat * 32768 + b.toNat * 1024 + t.toNat)
  | .xprefMg a b t => some (0x98000140 + a.toNat * 32768 + b.toNat * 1024 + t.toNat)
  | .xprefTq d a => some (0x98000100 + d.toNat * 1048576 + a.toNat * 32768)
  | .xwaitAll d a => some (0x9A000000 + d.toNat * 1048576 + a.toNat * 32768)
  | .xwaitAny d a => some (0x9A000001 + d.toNat * 1048576 + a.toNat * 32768)
  | .xfind d a => some (0x9A000080 + d.toNat * 1048576 + a.toNat * 32768)
  | .sbind s a c => some (0x9C000000 + s.toNat * 1048576 + a.toNat * 32768 + c.toNat * 1024)
  | .sclose s => some (0x9C000080 + s.toNat * 1048576)
  | .send t v q => some (0xA0000000 + t.toNat * 32768 + v.toNat * 1024 + q.toNat)
  | .sendv t v q => some (0xA0000080 + t.toNat * 32768 + v.toNat * 1024 + q.toNat)
  | .recv d q => some (0xA2000000 + d.toNat * 1048576 + q.toNat)
  | .recvV d q => some (0xA2000040 + d.toNat * 1048576 + q.toNat)
  | .qclr a => some (0xA2000080 + a.toNat * 32768)
  | .xphase => some (0xA4000000)
  | .sstep => some (0xA4000080)
  | .arrive n => some (0xA6000000 + n.toNat)
  | .arriveRel n => some (0xA6000040 + n.toNat)
  | .wait n => some (0xA6000080 + n.toNat)
  | .waitAcq n => some (0xA60000C0 + n.toNat)
  | .bvote d a n => some (0xA6000100 + d.toNat * 1048576 + a.toNat * 32768 + n.toNat)
  | .spawn c f j => some (0xA8000000 + c.toNat * 1048576 + f.toNat * 32768 + j.toNat * 1024)
  | .take c f j => some (0xA8000080 + c.toNat * 1048576 + f.toNat * 32768 + j.toNat * 1024)
  | .join j => some (0xA8000100 + j.toNat * 32768)
  | .qpost d a p => some (0xAA000000 + d.toNat * 1048576 + a.toNat * 32768 + p.toNat * 1024)
  | .rds d i => some (0xB0000000 + d.toNat * 1048576 + i.toNat)
  | .wrs a i => some (0xB0001000 + a.toNat * 32768 + i.toNat)
  | .trap c => some (0xB2000000 + c.toNat)
  | .eret => some (0xB2001000)
  | .wfi => some (0xB2002000)
  | .brk c => some (0xB2003000 + c.toNat)
  | .sfence a b => some (0xB4000000 + a.toNat * 32768 + b.toNat * 1024)
  | .cdrain => some (0xB6000000)
  | .cxsave p => some (0xB8000000 + p.toNat * 1048576)
  | .cxload p => some (0xB8000001 + p.toNat * 1048576)
  | .immx p => some (0xFC000000 + p.toNat)
  | .hint h => some (0xFC400000 + h.toNat)
  | .coprocessorIssue => none
  | .destinationWrite => none
  | .takeTrap _ _ _ _ _ => none
  | .install _ => none
  | .logicalCoreSwitch => none
  | .depositArrive => none
  | .superstepBoundary => none
  | .superstepOverrun => none
  | .tileRowLand => none
  | .engineTakeCopy => none
  | .copyComplete => none
  | .copyFaultStop => none
  | .streamReadAhead => none
  | .touchComplete _ => none
  | .demandCopyIn => none
  | .prefetchCopyIn _ => none
  | .collect _ => none
  | .mergeApply => none
  | .releaseNotice => none
  | .pageWalk _ _ => none
  | .migrationComplete => none
  | .counterHalve => none
  | .crossDieTimeout => none
  | .lateResponse => none
  | .linkMessage _ _ _ _ => none
  | .permitReturn _ _ _ _ => none
  | .linkDown _ => none
  | .clockStretch _ => none
  | .softError _ _ => none
  | .lineRetirement _ => none
  | .nop _ => none
  | .launch _ => none
  | .signal _ => none
  | .shrink _ => none
  | .packetComplete _ _ => none
  | .dependenceRecheck => none
  | .priorityAging => none
  | .launchSeniority => none
  | .doorbell _ _ => none
  | .queueSkip _ => none
  | .queueReset _ => none
  | .queueEnable _ => none
  | .queueDisable _ => none
  | .managementRegisterWrite _ _ _ => none
  | .tabort _ _ => none
  | .endTask _ _ => none
  | .satchelFreeze _ _ _ => none
  | .satchelCheckpoint _ _ _ => none
  | .urgentPreemption _ _ _ => none
  | .satchelRestore _ _ _ => none
  | .releaseInPlaceImage _ _ _ => none
  | .debugOff _ _ _ => none
  | .debugAtSsm _ _ _ => none
  | .debugEveryBoundary _ _ _ => none
  | .debugNextBoundary _ _ _ => none
  | .bkrel _ _ => none
  | .traceEnable _ _ => none
  | .traceDisable _ _ => none
  | .traceHoldExpiry => none
  | .freeze _ => none
  | .freezeInput => none
  | .testAccessReadout => none
  | .reset => none
  | .fwgo _ => none
  | .recoveryImageVerified => none
  | .load => none
  | .unload => none
  | .keyenr _ _ => none
  | .getVersion => none
  | .getCapabilities => none
  | .negotiateAlgorithms => none
  | .getDigests => none
  | .getCertificate => none
  | .challenge => none
  | .getMeasurements _ => none
  | .pageMoveStart _ _ _ => none
  | .firmwareUpdate _ _ _ => none
  | .scrubbing _ => none

/-- The encoder (R46). -/
def encode (i : Instr) : Option W32 := (encodeNat i).map (BitVec.ofNat 32)

/-- The instruction word a trap reports in TVAL (R60); 0 for a step that has no word. -/
def wordOf (i : Instr) : W32 := (encode i).getD 0

/-- Little-endian bytes give a word (R4). -/
def wordOfBytes : List Byte → Option W32
  | b0 :: b1 :: b2 :: b3 :: _ => some (b3 ++ b2 ++ b1 ++ b0)
  | _ => none

/-- Decoding any bytes: the first four, little-endian, with the rest of the list (R4, R46). -/
def decodeBytes (bs : List Byte) : Option (Instr × List Byte) :=
  match wordOfBytes bs with
  | some w => (decode w).map (fun i => (i, bs.drop 4))
  | none => none

/-- The bytes of a word as memory holds them (R4). -/
def bytesOfWord (w : W32) : List Byte :=
  [w.extractLsb' 0 8, w.extractLsb' 8 8, w.extractLsb' 16 8, w.extractLsb' 24 8]

/-- What the decoder reads from an instruction whose bits are `w` as the opcode table numbers them; every
instruction is one word of 32 bits (R46). -/
def decodeTableWord (nbits w : Nat) : Option Instr :=
  (decodeBytes (bytesOfWord (BitVec.ofNat 32 (w % 2 ^ nbits)))).map Prod.fst

/-- An instruction of a repeated body with every field that names a v register lowered by `off` modulo 32 (R116).
The b field of `vquant` names a register only for q4 (R129). -/
def Instr.shiftV (off : BitVec 5) (i : Instr) : Instr :=
  match i with
  | .vamo d p w b m n o g => .vamo (d - off) p w (b - off) m n o g
  | .vadd d a b m n t => .vadd (d - off) (a - off) (b - off) m n t
  | .vsub d a b m n t => .vsub (d - off) (a - off) (b - off) m n t
  | .vmul d a b m n t => .vmul (d - off) (a - off) (b - off) m n t
  | .vmulh d a b m n t => .vmulh (d - off) (a - off) (b - off) m n t
  | .vmulhz d a b m n t => .vmulhz (d - off) (a - off) (b - off) m n t
  | .vfma d a b m n t => .vfma (d - off) (a - off) (b - off) m n t
  | .vfms d a b m n t => .vfms (d - off) (a - off) (b - off) m n t
  | .vfnma d a b m n t => .vfnma (d - off) (a - off) (b - off) m n t
  | .vfnms d a b m n t => .vfnms (d - off) (a - off) (b - off) m n t
  | .vfdiv d a b m n t => .vfdiv (d - off) (a - off) (b - off) m n t
  | .vfsqrt d a m n t => .vfsqrt (d - off) (a - off) m n t
  | .vmin d a b m n t => .vmin (d - off) (a - off) (b - off) m n t
  | .vmax d a b m n t => .vmax (d - off) (a - off) (b - off) m n t
  | .vminz d a b m n t => .vminz (d - off) (a - off) (b - off) m n t
  | .vmaxz d a b m n t => .vmaxz (d - off) (a - off) (b - off) m n t
  | .vfmin d a b m n t => .vfmin (d - off) (a - off) (b - off) m n t
  | .vfmax d a b m n t => .vfmax (d - off) (a - off) (b - off) m n t
  | .vand d a b m n t => .vand (d - off) (a - off) (b - off) m n t
  | .vor d a b m n t => .vor (d - off) (a - off) (b - off) m n t
  | .vxor d a b m n t => .vxor (d - off) (a - off) (b - off) m n t
  | .vandn d a b m n t => .vandn (d - off) (a - off) (b - off) m n t
  | .vshl d a b m n t => .vshl (d - off) (a - off) (b - off) m n t
  | .vshr d a b m n t => .vshr (d - off) (a - off) (b - off) m n t
  | .vsar d a b m n t => .vsar (d - off) (a - off) (b - off) m n t
  | .vcmpEq d a b m n t => .vcmpEq d (a - off) (b - off) m n t
  | .vcmpNe d a b m n t => .vcmpNe d (a - off) (b - off) m n t
  | .vcmpLt d a b m n t => .vcmpLt d (a - off) (b - off) m n t
  | .vcmpLe d a b m n t => .vcmpLe d (a - off) (b - off) m n t
  | .vfcmpEq d a b m n t => .vfcmpEq d (a - off) (b - off) m n t
  | .vfcmpLt d a b m n t => .vfcmpLt d (a - off) (b - off) m n t
  | .vfcmpLe d a b m n t => .vfcmpLe d (a - off) (b - off) m n t
  | .vfcmpUn d a b m n t => .vfcmpUn d (a - off) (b - off) m n t
  | .vsel d a b m n t => .vsel (d - off) (a - off) (b - off) m n t
  | .vcvt d a s m n t => .vcvt (d - off) (a - off) s m n t
  | .vcvtSat d a s m n t => .vcvtSat (d - off) (a - off) s m n t
  | .vquant d a b t => .vquant (d - off) (a - off) (if t == 15 then b - off else b) t
  | .vredAdd d a m n t => .vredAdd (d - off) (a - off) m n t
  | .vredMin d a m n t => .vredMin (d - off) (a - off) m n t
  | .vredMax d a m n t => .vredMax (d - off) (a - off) m n t
  | .vredOr d a m n t => .vredOr (d - off) (a - off) m n t
  | .vscanAdd d a m n t => .vscanAdd (d - off) (a - off) m n t
  | .vscanMin d a m n t => .vscanMin (d - off) (a - off) m n t
  | .vscanMax d a m n t => .vscanMax (d - off) (a - off) m n t
  | .vscanOr d a m n t => .vscanOr (d - off) (a - off) m n t
  | .vperm d a b m n t => .vperm (d - off) (a - off) (b - off) m n t
  | .vslideUp d a b m n t => .vslideUp (d - off) (a - off) b m n t
  | .vslideDn d a b m n t => .vslideDn (d - off) (a - off) b m n t
  | .vbcast d a m n t => .vbcast (d - off) a m n t
  | .vext d a b t => .vext d (a - off) b t
  | .vins d a b t => .vins (d - off) a b t
  | .viota d m n t => .viota (d - off) m n t
  | .vcompress d a m n t => .vcompress (d - off) (a - off) m n t
  | .vexpand d a m n t => .vexpand (d - off) (a - off) m n t
  | .vtopk d a b m n t => .vtopk (d - off) (a - off) b m n t
  | .vxacc d a b m n t => .vxacc (d - off) (a - off) b m n t
  | .vxrnd d a b t => .vxrnd (d - off) (a - off) b t
  | .vld d p v b m n t => .vld (d - off) p v b m n t
  | .vlds d p v b m n t => .vlds (d - off) p v b m n t
  | .vst d p v b m n t => .vst (d - off) p v b m n t
  | .vgath d p v b m n t => .vgath (d - off) p v (b - off) m n t
  | .vscat d p v b m n t => .vscat (d - off) p v (b - off) m n t
  | .vmv d a m n t => .vmv (d - off) (a - off) m n t
  | .vmvStream d s m n t => .vmvStream (d - off) s m n t
  | .kload c a => .kload c (a - off)
  | .kstore c v => .kstore c (v - off)
  | .sendv t v q => .sendv t (v - off) q
  | .recvV d q => .recvV (d - off) q
  | .add .. | .sub .. | .mul .. | .mulh .. | .mulhz .. | .div .. | .divz .. | .rem .. | .remz .. | .and .. | .or ..
    | .xor .. | .andn .. | .shl .. | .shr .. | .sar .. | .rol .. | .ror .. | .slt .. | .sltz .. | .min .. | .max ..
    | .minz .. | .maxz .. | .cmov .. | .clz .. | .ctz .. | .popc .. | .brev .. | .bswap .. | .addi .. | .andi ..
    | .ori .. | .xori .. | .slti .. | .sltzi .. | .shli .. | .shri .. | .sari .. | .ext .. | .ins .. | .lup ..
    | .aupc .. | .bEq .. | .bNe .. | .bLt .. | .bGe .. | .bLtz .. | .bGez .. | .j .. | .call .. | .jr ..
    | .callr .. | .rep .. | .retire | .ld .. | .st .. | .ldp .. | .stp .. | .pmov .. | .padj .. | .plen ..
    | .pslice .. | .pfrom .. | .ptox .. | .alloc .. | .allocr .. | .otouch .. | .oacq .. | .orel .. | .amo ..
    | .cas .. | .fence .. | .xfence .. | .setvl .. | .vpopc .. | .vfirst .. | .mlogAnd .. | .mlogOr ..
    | .mlogXor .. | .mlogAndn .. | .mma .. | .tclaim .. | .tfree .. | .tload .. | .tstore .. | .tzero ..
    | .tidld .. | .tidst .. | .azero .. | .aload .. | .astore .. | .adrain .. | .afill .. | .amode .. | .again ..
    | .againPlain .. | .ascan .. | .ascanK .. | .ascanG .. | .aapply .. | .kcomb .. | .kzero .. | .xfer ..
    | .xgath .. | .xprefTr .. | .xprefMg .. | .xprefTq .. | .xwaitAll .. | .xwaitAny .. | .xfind .. | .sbind ..
    | .sclose .. | .send .. | .recv .. | .qclr .. | .xphase | .sstep | .arrive .. | .arriveRel .. | .wait ..
    | .waitAcq .. | .bvote .. | .spawn .. | .take .. | .join .. | .qpost .. | .rds .. | .wrs .. | .trap .. | .eret
    | .wfi | .brk .. | .sfence .. | .cdrain | .cxsave .. | .cxload .. | .immx .. | .hint .. | .coprocessorIssue
    | .destinationWrite | .takeTrap .. | .install .. | .logicalCoreSwitch | .depositArrive | .superstepBoundary
    | .superstepOverrun | .tileRowLand | .engineTakeCopy | .copyComplete | .copyFaultStop | .streamReadAhead
    | .touchComplete .. | .demandCopyIn | .prefetchCopyIn .. | .collect .. | .mergeApply | .releaseNotice
    | .pageWalk .. | .migrationComplete | .counterHalve | .crossDieTimeout | .lateResponse | .linkMessage ..
    | .permitReturn .. | .linkDown .. | .clockStretch .. | .softError .. | .lineRetirement .. | .nop ..
    | .launch .. | .signal .. | .shrink .. | .packetComplete .. | .dependenceRecheck | .priorityAging
    | .launchSeniority | .doorbell .. | .queueSkip .. | .queueReset .. | .queueEnable .. | .queueDisable ..
    | .managementRegisterWrite .. | .tabort .. | .endTask .. | .satchelFreeze .. | .satchelCheckpoint ..
    | .urgentPreemption .. | .satchelRestore .. | .releaseInPlaceImage .. | .debugOff .. | .debugAtSsm ..
    | .debugEveryBoundary .. | .debugNextBoundary .. | .bkrel .. | .traceEnable .. | .traceDisable ..
    | .traceHoldExpiry | .freeze .. | .freezeInput | .testAccessReadout | .reset | .fwgo ..
    | .recoveryImageVerified | .load | .unload | .keyenr .. | .getVersion | .getCapabilities | .negotiateAlgorithms
    | .getDigests | .getCertificate | .challenge | .getMeasurements .. | .pageMoveStart .. | .firmwareUpdate ..
    | .scrubbing .. => i

/-- The instruction has an immediate field that `immx` may widen (R49, R51, R103): ops 0x03, 0x05, 0x06, 0x10 to
0x12, and the memory form in mode 0b00 or 0b11. -/
def Instr.takesImmx : Instr → Bool
  | .add .. | .sub .. | .mul .. | .mulh .. | .mulhz .. | .div .. | .divz .. | .rem .. | .remz .. | .and .. | .or ..
    | .xor .. | .andn .. | .shl .. | .shr .. | .sar .. | .rol .. | .ror .. | .slt .. | .sltz .. | .min .. | .max ..
    | .minz .. | .maxz .. | .cmov .. | .clz .. | .ctz .. | .popc .. | .brev .. | .bswap .. | .shli .. | .shri ..
    | .sari .. | .ext .. | .ins .. | .jr .. | .callr .. | .rep .. | .retire | .pmov .. | .padj .. | .plen ..
    | .pslice .. | .pfrom .. | .ptox .. | .alloc .. | .allocr .. | .otouch .. | .oacq .. | .orel .. | .amo ..
    | .cas .. | .vamo .. | .fence .. | .xfence .. | .setvl .. | .vadd .. | .vsub .. | .vmul .. | .vmulh ..
    | .vmulhz .. | .vfma .. | .vfms .. | .vfnma .. | .vfnms .. | .vfdiv .. | .vfsqrt .. | .vmin .. | .vmax ..
    | .vminz .. | .vmaxz .. | .vfmin .. | .vfmax .. | .vand .. | .vor .. | .vxor .. | .vandn .. | .vshl ..
    | .vshr .. | .vsar .. | .vcmpEq .. | .vcmpNe .. | .vcmpLt .. | .vcmpLe .. | .vfcmpEq .. | .vfcmpLt ..
    | .vfcmpLe .. | .vfcmpUn .. | .vsel .. | .vcvt .. | .vcvtSat .. | .vquant .. | .vredAdd .. | .vredMin ..
    | .vredMax .. | .vredOr .. | .vscanAdd .. | .vscanMin .. | .vscanMax .. | .vscanOr .. | .vperm ..
    | .vslideUp .. | .vslideDn .. | .vbcast .. | .vext .. | .vins .. | .viota .. | .vcompress .. | .vexpand ..
    | .vpopc .. | .vfirst .. | .vtopk .. | .vxacc .. | .vxrnd .. | .vld .. | .vlds .. | .vst .. | .vgath ..
    | .vscat .. | .vmv .. | .vmvStream .. | .mlogAnd .. | .mlogOr .. | .mlogXor .. | .mlogAndn .. | .mma ..
    | .tclaim .. | .tfree .. | .tload .. | .tstore .. | .tzero .. | .tidld .. | .tidst .. | .azero .. | .aload ..
    | .astore .. | .adrain .. | .afill .. | .amode .. | .again .. | .againPlain .. | .ascan .. | .ascanK ..
    | .ascanG .. | .aapply .. | .kload .. | .kstore .. | .kcomb .. | .kzero .. | .xfer .. | .xgath .. | .xprefTr ..
    | .xprefMg .. | .xprefTq .. | .xwaitAll .. | .xwaitAny .. | .xfind .. | .sbind .. | .sclose .. | .send ..
    | .sendv .. | .recv .. | .recvV .. | .qclr .. | .xphase | .sstep | .arrive .. | .arriveRel .. | .wait ..
    | .waitAcq .. | .bvote .. | .spawn .. | .take .. | .join .. | .qpost .. | .rds .. | .wrs .. | .trap .. | .eret
    | .wfi | .brk .. | .sfence .. | .cdrain | .cxsave .. | .cxload .. | .immx .. | .hint .. | .coprocessorIssue
    | .destinationWrite | .takeTrap .. | .install .. | .logicalCoreSwitch | .depositArrive | .superstepBoundary
    | .superstepOverrun | .tileRowLand | .engineTakeCopy | .copyComplete | .copyFaultStop | .streamReadAhead
    | .touchComplete .. | .demandCopyIn | .prefetchCopyIn .. | .collect .. | .mergeApply | .releaseNotice
    | .pageWalk .. | .migrationComplete | .counterHalve | .crossDieTimeout | .lateResponse | .linkMessage ..
    | .permitReturn .. | .linkDown .. | .clockStretch .. | .softError .. | .lineRetirement .. | .nop ..
    | .launch .. | .signal .. | .shrink .. | .packetComplete .. | .dependenceRecheck | .priorityAging
    | .launchSeniority | .doorbell .. | .queueSkip .. | .queueReset .. | .queueEnable .. | .queueDisable ..
    | .managementRegisterWrite .. | .tabort .. | .endTask .. | .satchelFreeze .. | .satchelCheckpoint ..
    | .urgentPreemption .. | .satchelRestore .. | .releaseInPlaceImage .. | .debugOff .. | .debugAtSsm ..
    | .debugEveryBoundary .. | .debugNextBoundary .. | .bkrel .. | .traceEnable .. | .traceDisable ..
    | .traceHoldExpiry | .freeze .. | .freezeInput | .testAccessReadout | .reset | .fwgo ..
    | .recoveryImageVerified | .load | .unload | .keyenr .. | .getVersion | .getCapabilities | .negotiateAlgorithms
    | .getDigests | .getCertificate | .challenge | .getMeasurements .. | .pageMoveStart .. | .firmwareUpdate ..
    | .scrubbing .. => false
  | .addi .. | .andi .. | .ori .. | .xori .. | .slti .. | .sltzi .. | .lup .. | .aupc .. | .bEq .. | .bNe ..
    | .bLt .. | .bGe .. | .bLtz .. | .bGez .. | .j .. | .call .. => true
  | .ld _ _ m _ _ | .st _ _ m _ _ | .ldp _ _ m _ | .stp _ _ m _ => m == 0 || m == 3

end Sys2Proof
end

