-- ==== Sys2Proof/Machine/Mem.lean ====
section
/-! DEFINITION. Storage: byte lists in one canonical form, the physical address map (R373), context table entries
(R289), page walks with their side effects (R291 to R297, R300, R220), peer windows (R298, R299), and the reads and
writes of bytes through an object pointer (R24, R200). -/

namespace Sys2Proof.Machine

open Host (Cell)

/-! ### Byte lists -/

/-- The byte at `a`; an address that is not listed reads 0 (R378 zeroes pads, R300 zeroes frames). -/
def Mem.read : List Cell → Nat → Byte
  | [], _ => 0
  | (k, b) :: m, a => if k = a then b else Mem.read m a

/-- Put an entry before the first one of a higher address. -/
def Mem.insert (a : Nat) (b : Byte) : List Cell → List Cell
  | [] => [(a, b)]
  | (k, c) :: m => if a < k then (a, b) :: (k, c) :: m else (k, c) :: Mem.insert a b m

/-- Write one byte, keeping addresses rising and no zero listed. -/
def Mem.write (m : List Cell) (a : Nat) (b : Byte) : List Cell :=
  let rest := m.filter (fun c => c.1 != a)
  if b = 0 then rest else Mem.insert a b rest

/-- The canonical form from a lower bound: addresses strictly rising, no entry 0. -/
def Mem.wfFrom : Nat → List Cell → Bool
  | _, [] => true
  | lo, (k, b) :: m => decide (lo ≤ k) && b != 0 && Mem.wfFrom (k + 1) m

/-- The canonical form of a memory. -/
def Memory.wf (m : List Cell) : Bool := Mem.wfFrom 0 m

/-- `n` bytes from `a`, little-endian (R4). -/
def Mem.readN (m : List Cell) (a : Nat) : Nat → Nat
  | 0 => 0
  | n + 1 => (Mem.read m a).toNat + 256 * Mem.readN m (a + 1) n

/-- Store the low `n` bytes of `v` from `a`, little-endian (R4). -/
def Mem.writeN (m : List Cell) (a : Nat) : Nat → Nat → List Cell
  | 0, _ => m
  | n + 1, v => Mem.writeN (Mem.write m a (BitVec.ofNat 8 v)) (a + 1) n (v / 256)

/-- The listed bytes of [a, a + n), with offsets from `a`. -/
def Mem.range (m : List Cell) (a n : Nat) : List Cell :=
  (m.filter (fun c => decide (a ≤ c.1) && decide (c.1 < a + n))).map (fun c => (c.1 - a, c.2))

/-- Listed bytes in the canonical form; of two at one offset the later holds. -/
def Mem.canon (cs : List Cell) : List Cell :=
  if Memory.wf cs then cs else cs.foldl (fun m c => Mem.write m c.1 c.2) []

/-- Replace [a, a + n) by the bytes listed at offsets from `a`, zero elsewhere. -/
def Mem.fill (m : List Cell) (a n : Nat) (cs : List Cell) : List Cell :=
  m.filter (fun c => decide (c.1 < a)) ++
    ((Mem.canon cs).filter (fun c => decide (c.1 < n))).map (fun c => (c.1 + a, c.2)) ++
    m.filter (fun c => decide (a + n ≤ c.1))

/-- Insert an offset into a rising list without repeats. -/
def insertOff (a : Nat) : List Nat → List Nat
  | [] => [a]
  | k :: l => if a < k then a :: k :: l else if k = a then k :: l else k :: insertOff a l

/-- The offsets lo, lo + 1, …, of n bytes. -/
def offsets (lo : Nat) : Nat → List Nat
  | 0 => []
  | n + 1 => lo :: offsets (lo + 1) n

/-! ### The monad of a meaning: a state kept at the point of a trap -/

/-- An operation of the running logical core: it may trap, and a trap keeps the changes made before it (R67). -/
abbrev Ex (α : Type) := EStateM Exn State α

/-- Trap of R67. -/
def trapWith {α : Type} (code : BitVec 6) (t1 t2 : W64) : Ex α := throw ⟨code, t1, t2⟩

/-- Cause codes (R334). -/
def cILLEGAL : BitVec 6 := 0x01
def cFEATURE_ABSENT : BitVec 6 := 0x02
def cPRIVILEGE : BitVec 6 := 0x03
def cSOFTWARE_TRAP : BitVec 6 := 0x04
def cBREAKPOINT : BitVec 6 := 0x05
def cCODE_TARGET : BitVec 6 := 0x06
def cOBJ_NULL : BitVec 6 := 0x07
def cOBJ_MALFORMED : BitVec 6 := 0x08
def cOBJ_BOUND : BitVec 6 := 0x09
def cOBJ_KIND : BitVec 6 := 0x0A
def cOBJ_ESCAPE : BitVec 6 := 0x0B
def cOBJ_PINNED : BitVec 6 := 0x0C
def cCTX_ISOLATION : BitVec 6 := 0x0D
def cPAD_EXHAUSTED : BitVec 6 := 0x0E
def cHEAP_EXHAUSTED : BitVec 6 := 0x0F
def cOPERAND_RANGE : BitVec 6 := 0x10
def cPAGE_FAULT : BitVec 6 := 0x11
def cMEM_UNCORRECTABLE : BitVec 6 := 0x12
def cPEER_ACCESS : BitVec 6 := 0x13
def cPEER_REVOKED : BitVec 6 := 0x14
def cPEER_TIMEOUT : BitVec 6 := 0x15
def cSTREAM_UNBOUND : BitVec 6 := 0x16
def cCARD_ILLEGAL : BitVec 6 := 0x17
def cNAN_PRODUCED : BitVec 6 := 0x18
def cGAIN_UNDERFLOW : BitVec 6 := 0x19
def cBARRIER_ABANDONED : BitVec 6 := 0x1A
def cSUPERSTEP_OVERRUN : BitVec 6 := 0x1B
def cIMAGE_INVALID : BitVec 6 := 0x1C
def cDEBUG_STOP : BitVec 6 := 0x1D
def cMACHINE_CHECK : BitVec 6 := 0x1E

/-- Apply a change to the running logical core. -/
def State.modCur (s : State) (f : LCore → LCore) : State := { s with cur := f s.cur }

/-- STATUS.CTX and STATUS.PL of a logical core (R36). -/
def LCore.ctx (c : LCore) : BitVec 16 := c.status.extractLsb' 16 16
def LCore.pl (c : LCore) : BitVec 2 := c.status.extractLsb' 0 2

/-- Bits [hi:lo] of a 64-bit word replaced. -/
def setBits (w : W64) (hi lo : Nat) (v : Nat) : W64 :=
  BitVec.ofNat 64 (w.toNat - bits w.toNat hi lo * 2 ^ lo + v % 2 ^ (hi + 1 - lo) * 2 ^ lo)

/-- The GTC: ticks of 1 GHz for core cycles of 600 MHz (R1, R31). -/
def State.gtc (s : State) : Nat := s.clk * 5 / 3

/-! ### Physical memory -/

/-- The HBM4E or far-tier ranges of R373. -/
def isDram (pa : Nat) : Bool :=
  decide (pa < 0x8000000000) || (decide (0x10000000000 ≤ pa) && decide (pa < 0x50000000000))
/-- The far tier (R373). -/
def isFar (pa : Nat) : Bool := decide (0x10000000000 ≤ pa) && decide (pa < 0x50000000000)
/-- Memory that is present: the HBM4E range, and the range of a far-tier port whose module is trained (R373, R375). -/
def State.isDram (s : State) (pa : Nat) : Bool :=
  Machine.isDram pa && (!isFar pa || s.farPorts.getLsbD ((pa - 0x10000000000) / 0x4000000000))
/-- A management block of a near-tier die (R373). -/
def isMgmt (pa : Nat) : Bool := decide (0xF000000000 ≤ pa) && decide (pa < 0xF008000000)

/-- A pad of the part, empty and without owner when nothing has used it since reset (R378, R181). -/
def Pad.fresh (id : PadId) : Pad := ⟨id, [], 0x10, [], [], [], none, none⟩

def State.pad (s : State) (id : PadId) : Pad :=
  (s.pads.find? (fun p => p.id == id)).getD (Pad.fresh id)

def State.setPad (s : State) (p : Pad) : State :=
  { s with pads := p :: s.pads.filter (fun q => q.id != p.id) }

/-- The pad a logical core's pointer of level 0, 1 or 2 names (R24). -/
def LCore.padId (c : LCore) (lvl : Nat) : PadId :=
  if lvl = 0 then .core c.pcid.toNat else if lvl = 1 then .cluster (c.pcid.toNat / 16) else .die

/-- Pad sizes and copy limits by level (R1, R15). -/
def padSize (lvl : Nat) : Nat := if lvl = 0 then 0x40000 else if lvl = 1 then 0x400000 else 0x2000000
def copyLimit (lvl : Nat) : Nat := if lvl = 0 then 0x10000 else if lvl = 1 then 0x80000 else 0x400000

/-- Where the queue block lies in a die's management block: QBLK is a physical address, and R373 has no other place for it (DEDUCED, log entry 160; which
offset, the part fixes: Config.qblkSlot). -/
def queueOffset : Nat := 0x4000 * (1 + Config.qblkSlot % 511)

/-- QBLK of a die (R377). -/
def qblkOf (d : Nat) : W64 := BitVec.ofNat 64 (0xF000000000 + d * 0x1000000 + queueOffset)

/-- The registers of a die's management block as 64-bit words, by their offset (R377). -/
def Mgmt.read (g : Mgmt) (die off : Nat) : W64 :=
  if off < 0x28 then g.enset.extractLsb' (off / 8 * 64) 64
  else if off = 0x40 then g.ctxbase else if off = 0x48 then g.ctxn else if off = 0x50 then g.expbase
  else if off = 0x58 then qblkOf die else if off = 0x60 then g.ldmbox
  else if off = 0x70 then g.candbase else if off = 0x78 then g.candlen else if off = 0x80 then g.candthr
  else if off = 0x88 then g.candwr else if off = 0x90 then g.canddrop
  else if off = 0xA0 then g.tmod else if off = 0xA8 then g.tmox else if off = 0xB0 then g.latecnt
  else if off = 0xB8 then g.intrt
  else if off = 0x108 then g.satctl else if off = 0x110 then g.satimg else if off = 0x118 then g.satcnt
  else if off = 0x120 then g.dbgctl else if off = 0x128 then g.dbgss
  else if 0x130 ≤ off ∧ off < 0x150 then g.bkstat.extractLsb' ((off - 0x130) / 8 * 64) 64
  else if off = 0x180 then g.trbase else if off = 0x188 then g.trlen else if off = 0x190 then g.trctl
  else if off = 0x198 then g.trwr else if off = 0x1A0 then g.trrd else if off = 0x1A8 then g.trdrop
  else if off = 0x1C0 then g.erbase else if off = 0x1C8 then g.erlen else if off = 0x1D0 then g.erwr
  else if off = 0x1D8 then g.errd else if off = 0x1E0 then g.erdrop
  else if off = 0x200 then g.pwrlim else if off = 0x208 then g.pwrstat
  else if h : 0x280 ≤ off ∧ off < 0x350 then g.linkstat[(off - 0x280) / 8]'(by omega)
  else if off = 0x400 then g.keyenr
  else if off = 0x410 then g.fwstat
  else 0

/-- A register of this die's management block (R377). -/
def State.mgRead (s : State) (off : Nat) : W64 := s.mg.read s.die.toNat off

/-- The management block of a near-tier die (R377). -/
def State.dieTables (s : State) (d : Nat) : Mgmt := if d = s.die.toNat then s.mg else s.peers.getD d Mgmt.reset

/-- The lines of 128 bytes an access of n bytes meets, by their physical number (R239). -/
def linesOf (pa n : Nat) : List Nat := offsets (pa / 128) ((pa + n - 1) / 128 + 1 - pa / 128)

/-- An access meets a failed sector, a retired line or a retired frame, and fails (R367, R369). -/
def State.badAt (s : State) (pa n : Nat) : Bool :=
  n != 0 && (s.badSectors.any (fun k => decide (pa / 32 ≤ k) && decide (k ≤ (pa + n - 1) / 32)) ||
    s.retiredLines.any (fun l => decide (pa / 128 ≤ l) && decide (l ≤ (pa + n - 1) / 128)) ||
    s.retiredFrames.any (fun f => decide (pa / 65536 ≤ f) && decide (f ≤ (pa + n - 1) / 65536)))

/-- The same in a page whose lines are compressed, if `cmp`: a line is stored as one, so that a failed sector fails all of it (R239, R367;
DEDUCED). -/
def State.badIn (s : State) (cmp : Bool) (pa n : Nat) : Bool :=
  if cmp && n != 0 then s.badAt (pa / 128 * 128) ((pa + n + 127) / 128 * 128 - pa / 128 * 128) else s.badAt pa n

/-- A write of whole sectors, or in a page with compressed lines of whole lines, gives failed ones new contents; a retired line needs a
whole line (R367, R369). -/
def State.healLines (s : State) (cmp : Bool) (pa n : Nat) : State :=
  let whole := fun (w k : Nat) => decide (pa ≤ k * w) && decide (k * w + w ≤ pa + n)
  { s with badSectors := s.badSectors.filter (fun k => !(if cmp then whole 128 (k / 4) else whole 32 k)),
           retiredLines := s.retiredLines.filter (fun l => !whole 128 l) }

/-- An access of the part itself can be performed at a physical address: memory that is present and has not failed (R367, R373). -/
def State.physOk (s : State) (pa n : Nat) : Bool := s.isDram pa && !s.badAt pa n

/-- A sector of a pad has failed (R367). -/
def State.padBad (s : State) (id : PadId) (off n : Nat) : Bool :=
  n != 0 && s.badPads.any (fun k => k.1 == id && decide (off / 32 ≤ k.2) && decide (k.2 ≤ (off + n - 1) / 32))

/-- A write of whole sectors of a pad gives failed ones new contents (R367). -/
def State.healPad (s : State) (id : PadId) (off n : Nat) : State :=
  { s with badPads := s.badPads.filter (fun k => !(k.1 == id && decide (off ≤ k.2 * 32) && decide (k.2 * 32 + 32 ≤ off + n))) }

/-- The part notes where an access that reports `rep` has failed (R370). -/
def State.noteFail (s : State) (rep : W64) (pa : Nat) : State :=
  { s with failAt := (rep, BitVec.ofNat 64 pa) :: s.failAt.filter (fun e => e.1 != rep) }

/-- An access fails with MEM_UNCORRECTABLE: it reports `rep`; `pa` is the place that failed (R367, R373). -/
def failMem {α : Type} (rep : W64) (pa : Nat) : Ex α := do
  modify (fun s => s.noteFail rep pa)
  trapWith cMEM_UNCORRECTABLE rep 0

/-- The value of the base-and-delta test of R240: every delta of e-byte elements fits d bytes as a signed value. -/
def deltasFit (m : List Cell) (a e d : Nat) : Bool :=
  let base := Mem.readN m a e
  (List.range (128 / e)).all fun i =>
    let dl := (BitVec.ofNat (8 * e) (Mem.readN m (a + i * e) e + 2 ^ (8 * e) - base)).toInt
    decide (-(2 ^ (8 * d - 1) : Int) ≤ dl) && decide (dl < 2 ^ (8 * d - 1))

/-- The first form of R240 that holds the line whole. -/
def encodeLine (m : List Cell) (line : Nat) : BitVec 4 :=
  let a := line * 128
  if Mem.range m a 128 == [] then 0x1
  else if (List.range 16).all (fun i => Mem.readN m (a + 8 * i) 8 == Mem.readN m a 8) then 0x2
  else if deltasFit m a 8 1 then 0x3
  else if deltasFit m a 4 1 then 0x4
  else if deltasFit m a 8 2 then 0x5
  else if deltasFit m a 2 1 then 0x6
  else if deltasFit m a 4 2 then 0x7
  else if deltasFit m a 8 4 then 0x8
  else 0x0

/-- The tag of a line; a line nothing has written since its frame was zeroed holds the zero form (R242), and so does one that holds bytes from
before its page had the attribute or its frame an owner, until it is written (DESIGN CHOICE: R240 gives those no tag). -/
def State.tagOf (s : State) (line : Nat) : BitVec 4 :=
  ((s.lineTags.find? (fun t => t.1 == line)).map Prod.snd).getD 0x1

def State.setTag (s : State) (line : Nat) (t : BitVec 4) : State :=
  { s with lineTags := (line, t) :: s.lineTags.filter (fun x => x.1 != line) }

/-- The tag of a line after a write into it: one written whole is encoded afresh; a partial write leaves a raw line raw and encodes a
compressed one afresh (R241). -/
def State.retagLine (s : State) (whole : Bool) (l : Nat) : State :=
  if whole || s.tagOf l != 0x0 then s.setTag l (encodeLine s.mem l) else s

/-- Tags after a write of [pa, pa + n) into a page with the CMP attribute (R241). -/
def State.retag (s : State) (pa n : Nat) : State :=
  (linesOf pa n).foldl (fun s l => s.retagLine (decide (pa ≤ l * 128) && decide (l * 128 + 128 ≤ pa + n)) l) s

/-- The frame of a physical address is sealed (R294). -/
def State.sealedAt (s : State) (pa : Nat) : Bool := s.seals.contains (pa / 65536)

/-- A write of the part itself can be performed at a physical address: memory that is present, no failed sector of it but those that the write
covers whole, and no sealed frame, which no path writes (R294, R367, R373). -/
def State.canStore (s : State) (pa n : Nat) : Bool := (s.healLines false pa n).physOk pa n && !s.sealedAt pa

/-- A write of the part itself at a physical address: the lines that it meets get their tags anew (R241). One that cannot be performed
changes nothing (R294, R367, R373). -/
def State.physStore (s : State) (pa n v : Nat) : State :=
  let s1 := s.healLines false pa n
  if s.canStore pa n then { s1 with mem := Mem.writeN s1.mem pa n v }.retag pa n else s

/-- The part makes a stretch of memory zero, where it can be written (R241, R294, R367). -/
def State.physZero (s : State) (pa n : Nat) : State :=
  let s1 := s.healLines false pa n
  if s.canStore pa n then { s1 with mem := Mem.fill s1.mem pa n [] }.retag pa n else s

/-- A register of the queue block as a 64-bit word (R269). -/
def State.qbRead (s : State) (off : Nat) : W64 :=
  let q := s.queues.get ⟨off / 64 % 256, Nat.mod_lt _ (by decide)⟩
  let r := off % 64
  if r = 0x00 then q.qbase else if r = 0x08 then q.qcfg else if r = 0x10 then q.qwr
  else if r = 0x18 then q.qrd else if r = 0x20 then q.qstat else 0

/-- The number that an input carries for a register: the offset in BAR0, where die d begins at d × 16 MiB, or in BAR2, with bit 31 set, where
die d begins at d × 0x4000 (R374). -/
def barNumber (bar2 : Bool) (die off : Nat) : Nat := if bar2 then 2 ^ 31 + die * 0x4000 + off else die * 0x1000000 + off

/-- The register that such a number names: of BAR2, the die, the offset there (R374). -/
def barTarget (n : Nat) : Bool × Nat × Nat :=
  if n / 2 ^ 31 % 2 = 1 then (true, n % 2 ^ 31 / 0x4000, n % 0x4000) else (false, n % 2 ^ 31 / 0x1000000, n % 0x1000000)

/-- The register that such a number names, a die's queue block being a part of its management block too: of a queue block, the die, the offset
there; its first 16 KiB hold the registers (R374, R377). -/
def registerOf (n : Nat) : Bool × Nat × Nat :=
  let (bar2, d, off) := barTarget n
  if !bar2 && decide (0x4000 ≤ off) && decide (queueOffset ≤ off) && decide (off < queueOffset + 0x4000) then (true, d, off - queueOffset) else (bar2, d, off)

/-- A register of a management block or of a queue block by its number: of a near-tier die (R374, R377). The queue block of another die is
not held. -/
def State.regRead (s : State) (n : Nat) : W64 :=
  let (queue, d, off) := registerOf n
  if queue then (if d = s.die.toNat then s.qbRead off else 0)
  else (s.dieTables d).read d off

/-- The number of the register at a physical address outside DRAM: one of the management block of any near-tier die (R373, R377). -/
def regAt (pa : Nat) : Option Nat :=
  if isMgmt pa then some (barNumber false ((pa - 0xF000000000) / 0x1000000) (pa % 0x1000000 / 8 * 8)) else none

/-- n bytes of a register from byte k (R377). -/
def State.regBytes (s : State) (reg k n : Nat) : Nat := (s.regRead reg).toNat / 2 ^ (8 * k) % 2 ^ (8 * n)

/-- Registers from a physical address, as listed bytes with their offsets; none where an address holds no register. -/
def State.regCells (s : State) (pa n : Nat) : Option (List Cell) :=
  ((List.range n).mapM (fun i => (regAt (pa + i)).map (fun r => (i, BitVec.ofNat 8 (s.regBytes r ((pa + i) % 8) 1))))).map
    (fun l => l.filter (fun c => c.2 != 0))

/-- A store of n bytes of a register from byte k is the next input, made by the running logical core (R377). -/
def State.regStore (s : State) (reg k n v : Nat) : State :=
  let old := (s.regRead reg).toNat
  let new := old - old / 2 ^ (8 * k) % 2 ^ (8 * n) * 2 ^ (8 * k) + v % 2 ^ (8 * n) * 2 ^ (8 * k)
  let who : BitVec 18 := s.cur.ctx ++ s.cur.pl
  { s with inputs := s.inputs ++ [Sys2Proof.Instr.managementRegisterWrite who (BitVec.ofNat 32 reg) (BitVec.ofNat 64 new)] }

/-- n bytes of another package's memory: free values. -/
def awayBytes (free : Nat) : Nat → Nat
  | 0 => 0
  | n + 1 => awayBytes free n + (Config.peerByte free n).toNat * 2 ^ (8 * n)

/-- An access of this die to a physical address crosses a die boundary: to a far-tier die, or to the management block of another near-tier
die (R284). -/
def State.crosses (s : State) (pa : Nat) : Bool :=
  isFar pa || (isMgmt pa && (pa - 0xF000000000) / 0x1000000 != s.die.toNat)

/-- A request that crosses a die boundary gets no response within its limit: no later one is lost with it (R284). -/
def State.timedOut (s : State) : State := { s with silent := false, expired := s.expired + 1 }

/-- A request of this die to one of these addresses crosses to another die and gets no response within its limit, if the next one that crosses
gets none (R284). -/
def crossFar (l : List Nat) (rep : W64) : Ex Unit := do
  let s ← get
  if s.silent && l.any s.crosses then
    set s.timedOut
    trapWith cPEER_TIMEOUT rep s.mg.tmod

/-- Read n bytes at a location, little-endian. `va` is the address a failure reports (R367, R373). -/
def locRead (l : Loc) (n : Nat) (va : W64) : Ex Nat := do
  match l with
  | .pad id off =>
    let s ← get
    if s.padBad id off n then failMem va off else return Mem.readN (s.pad id).mem off n
  | .phys true _ pa => return Mem.readN (← get).hostMem pa n
  | .phys false cmp pa =>
    crossFar [pa] va
    let s ← get
    if s.isDram pa then
      if s.badIn cmp pa n then failMem va pa else return Mem.readN s.mem pa n
    else
      match regAt pa with
      | some r => return s.regBytes r (pa % 8) n
      | none => failMem va pa
  | .away =>
    let s ← get
    set { s with free := s.free + 1 }
    return awayBytes s.free n

/-- Write n bytes at a location. A store of part of a failed sector fails (R367); a store to a management register is the next input
(R377). -/
def locWrite (l : Loc) (n v : Nat) (va : W64) : Ex Unit := do
  match l with
  | .pad id off =>
    let s := (← get).healPad id off n
    if s.padBad id off n then failMem va off
    else
      let p := s.pad id
      set (s.setPad { p with mem := Mem.writeN p.mem off n v })
  | .phys true _ pa => modify (fun s => { s with hostMem := Mem.writeN s.hostMem pa n v })
  | .phys false cmp pa =>
    crossFar [pa] va
    let s ← get
    if s.isDram pa then
      let s' := s.healLines cmp pa n
      if s'.badIn cmp pa n then failMem va pa
      else
        let s1 := { s' with mem := Mem.writeN s'.mem pa n v }
        set (if cmp then s1.retag pa n else s1)
    else
      match regAt pa with
      | none => failMem va pa
      | some r => set (s.regStore r (pa % 8) n v)
  | .away => pure ()

/-- The listed bytes of k bytes at a location, within one 64 KiB piece. -/
def locCells (l : Loc) (k : Nat) (va : W64) : Ex (List Cell) := do
  match l with
  | .pad id off =>
    let s ← get
    if s.padBad id off k then failMem va off else return Mem.range (s.pad id).mem off k
  | .phys true _ pa => return Mem.range (← get).hostMem pa k
  | .phys false cmp pa =>
    crossFar [pa] va
    let s ← get
    if s.isDram pa then
      if s.badIn cmp pa k then failMem va pa else return Mem.range s.mem pa k
    else
      match s.regCells pa k with
      | some cs => return cs
      | none => failMem va pa
  | .away =>
    let s ← get
    set { s with free := s.free + 1 }
    return ((List.range k).map (fun i => (i, Config.peerByte s.free i))).filter (fun c => c.2 != 0)

/-- Fill k bytes at a location, within one 64 KiB piece, with the listed bytes, zero elsewhere. -/
def locFill (l : Loc) (k : Nat) (cs : List Cell) (va : W64) : Ex Unit := do
  match l with
  | .pad id off =>
    let s := (← get).healPad id off k
    if s.padBad id off k then failMem va off
    else
      let p := s.pad id
      set (s.setPad { p with mem := Mem.fill p.mem off k cs })
  | .phys true _ pa => modify (fun s => { s with hostMem := Mem.fill s.hostMem pa k cs })
  | .phys false cmp pa =>
    crossFar [pa] va
    let s ← get
    if s.isDram pa then
      let s' := s.healLines cmp pa k
      if s'.badIn cmp pa k then failMem va pa
      else
        let s1 := { s' with mem := Mem.fill s'.mem pa k cs }
        set (if cmp then s1.retag pa k else s1)
    else
      match s.regCells pa k with
      | none => failMem va pa
      | some _ =>
        set ((List.range (k / 8)).foldl (fun s i =>
          match regAt (pa + 8 * i) with
          | some r => s.regStore r 0 8 (Mem.readN cs (8 * i) 8)
          | none => s) s)
  | .away => pure ()

/-! ### Context table entries -/

/-- An 8-byte word of physical memory. -/
def State.physWord (s : State) (pa : Nat) : W64 := BitVec.ofNat 64 (Mem.readN s.mem pa 8)

/-- What the die holds of a table word serves an access of a context at an address: it was read for that context, and for addresses that
include this one (R296, R306). -/
def HeldWord.serves (h : HeldWord) (ctx : BitVec 16) (va : Nat) : Bool :=
  h.ctx == ctx && (h.size == 0 || (decide (h.base ≤ va) && decide (va < h.base + h.size)))

/-- A table word as an access uses it: what stands in memory, or, until `sfence`, what the die holds of it (R296). -/
def State.eitherWord (s : State) (pa : Nat) (held : Option HeldWord) : W64 :=
  let now := s.physWord pa
  match held with
  | none => now
  | some h => if h.val ≠ now && Config.usesOld s.clk pa then h.val else now

/-- A word of a table that an access of a context at an address reads (R296). -/
def State.tableWord (s : State) (ctx : BitVec 16) (va pa : Nat) : W64 :=
  s.eitherWord pa (s.held.find? (fun h => h.pa == pa && h.serves ctx va))

/-- A word of an export entry, which the die reads for whoever names it (R296, R298). -/
def State.exportWord (s : State) (pa : Nat) : W64 := s.eitherWord pa (s.held.find? (fun h => h.pa == pa && h.size == 0))

/-- The die holds a table word that it has read, for a context and the addresses it translates (R296). -/
def State.holdWord (s : State) (ctx : BitVec 16) (base size pa : Nat) : State :=
  if s.held.any (fun h => h.pa == pa && h.ctx == ctx && h.base == base && h.size == size) then s
  else { s with held := ⟨pa, s.physWord pa, ctx, base, size⟩ :: s.held }

def State.holdWords (s : State) (ctx : BitVec 16) (base size : Nat) (l : List Nat) : State :=
  l.foldl (fun s pa => s.holdWord ctx base size pa) s

/-- The part changes a table word itself: what the die holds of it goes too. -/
def State.ownTableWrite (s : State) (pa : Nat) (v : W64) : State :=
  { s.physStore pa 8 v.toNat with held := s.held.filter (fun h => h.pa != pa) }

/-- The translations of an address in a context go, so that a walk reads memory anew (R293). -/
def State.dropServing (s : State) (ctx : BitVec 16) (va : Nat) : State :=
  { s with held := s.held.filter (fun h => h.size == 0 || !h.serves ctx va) }

/-- Word w of a context's entry in the context table of a die (R289). -/
def State.ctxWordAt (s : State) (base : W64) (ctx : BitVec 16) (w : Nat) : W64 :=
  s.tableWord ctx 0 (base.toNat + 128 * ctx.toNat + 8 * w)

/-- The words of a context's entry are held: the part reads it at the first translation after `sfence` (R289). -/
def State.holdCtx (s : State) (base : W64) (ctx : BitVec 16) : State :=
  s.holdWords ctx 0 0 ((List.range 10).map (fun w => base.toNat + 128 * ctx.toNat + 8 * w))

def State.ctxWord (s : State) (ctx : BitVec 16) (w : Nat) : W64 := s.ctxWordAt s.mg.ctxbase ctx w

/-- The context table of a near-tier die has an entry for the context; 0xFFFF is never valid (R289). -/
def State.ctxNamedOn (s : State) (d : Nat) (ctx : BitVec 16) : Bool :=
  decide (ctx.toNat < (s.dieTables d).ctxn.toNat) && ctx != 0xFFFF

def State.ctxNamed (s : State) (ctx : BitVec 16) : Bool := s.ctxNamedOn s.die.toNat ctx

/-- The part can read the context's entry on this die (R367, R373). -/
def State.ctxReadable (s : State) (ctx : BitVec 16) : Bool := s.physOk (s.mg.ctxbase.toNat + 128 * ctx.toNat) 88

/-- The context has a valid entry on this die (R289). -/
def State.ctxValid (s : State) (ctx : BitVec 16) : Bool := s.ctxNamed ctx && s.ctxReadable ctx && (s.ctxWord ctx 0).getLsbD 0

/-- Where word w of a context's entry stands (R289). -/
def State.ctxPlace (s : State) (ctx : BitVec 16) (w : Nat) : Nat := s.mg.ctxbase.toNat + 128 * ctx.toNat + 8 * w

def State.setCtxWord (s : State) (ctx : BitVec 16) (w : Nat) (v : W64) : State :=
  s.ownTableWrite (s.mg.ctxbase.toNat + 128 * ctx.toNat + 8 * w) v

/-! ### Page walks -/

/-- ACC codes of R336. -/
def accLoad : Nat := 0
def accStore : Nat := 1
def accFetch : Nat := 2
def accAtomic : Nat := 3
def accTile : Nat := 4
def accCopyRd : Nat := 5
def accCopyWr : Nat := 6
/-- A write of the part itself to a page that software need not be able to write: it needs no permission and sets D (R292). -/
def accOwn : Nat := 8

def accWrites (acc : Nat) : Bool := acc == 1 || acc == 3 || acc == 6

/-- TVAL2 of PAGE_FAULT (R336). -/
def pfVal (tbl acc reason : Nat) : W64 := BitVec.ofNat 64 (tbl * 65536 + acc * 256 + reason)

/-- What a walk ends with: a leaf (its physical address, its entry, the table of the leaf, the address mapped), the table where it stopped
and the reason, or the address of a table word that could not be read (R291, R292, R367, R373). -/
inductive Walk where
  | leaf (pteAddr : Nat) (pte : W64) (tbl : Nat) (pa : Nat)
  | stop (tbl reason : Nat)
  | lost (pa : Nat)
  deriving DecidableEq, Repr

/-- The shift of the index into a table, and the bits of the index (R291). -/
def tableShift (tbl : Nat) : Nat := if tbl = 1 then 39 else if tbl = 2 then 30 else if tbl = 3 then 21 else 16
def tableWidth (tbl : Nat) : Nat := if tbl = 1 then 13 else if tbl = 4 then 5 else 9

/-- One level of the walk: table `tbl` at physical address `base`; the rest of the tables are given by the recursion (R291). A table outside
the memory that is present, or a failed sector of one, fails the access (R367, R373). With feature bit 14 clear no entry can map a far-tier
frame: one that names one stops the walk as a malformed entry does (R319, DEDUCED). -/
def walkFrom (s : State) (ctx : BitVec 16) (va : Nat) : Nat → Nat → Nat → Walk
  | 0, _, tbl => .stop tbl 1
  | fuel + 1, base, tbl =>
    let shift := tableShift tbl
    let ea := base + 8 * (va / 2 ^ shift % 2 ^ tableWidth tbl)
    let e := s.tableWord ctx va ea
    let ty := e.toNat % 4
    if s.physOk ea 8 = false then .lost ea
    else if ty = 0 then .stop tbl 1
    else if ty = 3 then .stop tbl 2
    else if ty = 1 then
      (if tbl = 4 then .stop tbl 2 else walkFrom s ctx va fuel (bits e.toNat 55 16 * 65536) (tbl + 1))
    else if tbl = 1 then .stop 1 2
    else
      let pa := bits e.toNat 55 16 * 65536 / 2 ^ shift * 2 ^ shift + va % 2 ^ shift
      if isFar pa && !e.getLsbD 15 && !s.feat.getLsbD 14 then .stop tbl 2 else .leaf ea e tbl pa

/-- The table words that a walk reads: how many bytes of addresses each translates, and where it stands (R291). -/
def walkTrail (s : State) (ctx : BitVec 16) (va : Nat) : Nat → Nat → Nat → List (Nat × Nat)
  | 0, _, _ => []
  | fuel + 1, base, tbl =>
    let shift := tableShift tbl
    let ea := base + 8 * (va / 2 ^ shift % 2 ^ tableWidth tbl)
    let e := s.tableWord ctx va ea
    (2 ^ shift, ea) ::
      (if s.physOk ea 8 && e.toNat % 4 == 1 && tbl != 4 then walkTrail s ctx va fuel (bits e.toNat 55 16 * 65536) (tbl + 1) else [])

/-- The top table of a context, or what a walk ends with before it: a context that the table has no entry for, or whose entry is not valid, maps
nothing; one whose entry cannot be read fails the access (R289, R367, R373). -/
def State.walkRoot (s : State) (ctxbase : W64) (named : Bool) (ctx : BitVec 16) : Except Walk Nat :=
  let entry := ctxbase.toNat + 128 * ctx.toNat
  let w := s.ctxWordAt ctxbase ctx 0
  if !named then .error (.stop 1 1)
  else if s.physOk entry 88 = false then .error (.lost entry)
  else if w.getLsbD 0 = false then .error (.stop 1 1)
  else .ok (bits w.toNat 63 16 * 65536)

/-- The walk of a level-3 address in a context (R291). -/
def State.walk (s : State) (ctxbase : W64) (named : Bool) (ctx : BitVec 16) (va : Nat) : Walk :=
  match s.walkRoot ctxbase named ctx with
  | .error w => w
  | .ok root => walkFrom s ctx va 4 root 1

/-- What the die holds after that walk: the context's entry, and the table words that the walk has read, each with the addresses it translates
(R289, R291, R296). -/
def State.walked (s : State) (ctxbase : W64) (named : Bool) (ctx : BitVec 16) (va : Nat) : State :=
  match s.walkRoot ctxbase named ctx with
  | .error _ => s
  | .ok root =>
    (walkTrail s ctx va 4 root 1).foldl (fun s w => s.holdWord ctx (va / w.1 * w.1) w.1 w.2) (s.holdCtx ctxbase ctx)

/-- The places that a walk reads and that the die does not hold: the context's entry, and table words (R289, R291). -/
def State.walkReads (s : State) (ctxbase : W64) (named : Bool) (ctx : BitVec 16) (va : Nat) : List Nat :=
  match s.walkRoot ctxbase named ctx with
  | .error _ => []
  | .ok root =>
    ((ctxbase.toNat + 128 * ctx.toNat) :: (walkTrail s ctx va 4 root 1).map Prod.snd).filter
      (fun pa => !s.held.any (fun h => h.pa == pa && h.serves ctx va))

/-- The lowest reason that fails an access to a leaf, 0 for none (R293, R294, R336). -/
def leafReason (s : State) (pte : W64) (pa acc : Nat) (user : Bool) : Nat :=
  let sealed := s.sealedAt pa && !pte.getLsbD 15
  if user && !pte.getLsbD 5 then 3
  else if acc == 2 && !pte.getLsbD 8 then 4
  else if accWrites acc && !pte.getLsbD 7 then 4
  else if (acc == 0 || acc == 4 || acc == 5 || acc == 3) && !pte.getLsbD 6 then 4
  else if acc == 2 && !sealed then 5
  else if (accWrites acc || acc == accOwn) && sealed then 6
  else 0

/-- A frame is zeroed: its lines get the zero form, and what had failed in it new contents (R300, R367). -/
def State.zeroFrame (s : State) (f : Nat) : State :=
  { s with mem := Mem.fill s.mem (f * 65536) 65536 [],
           lineTags := s.lineTags.filter (fun t => t.1 / 512 != f),
           badSectors := s.badSectors.filter (fun k => k / 2048 != f),
           retiredLines := s.retiredLines.filter (fun l => l / 512 != f) }

/-- The frames that a leaf of a table maps, at an address that it gives: 1, 32 or 16,384 of them, as their first and their number (R291). -/
def leafFrames (tbl pa : Nat) : Nat × Nat := let n := 2 ^ (tableShift tbl - 16); (pa / 65536 / n * n, n)

/-- A walk finds a leaf: of the frames that it maps, those that the table records for another context are zeroed, and all of them are the
context's (R300). -/
def State.takeFrame (s : State) (pa : Nat) (ctx : BitVec 16) (pte : W64) (tbl : Nat) : State :=
  let (lo, n) := leafFrames tbl pa
  let here := fun (x : Nat × BitVec 16) => decide (lo ≤ x.1) && decide (x.1 < lo + n)
  if pte.getLsbD 15 || !s.isDram pa || (s.frameOwner.filter (fun x => here x && x.2 == ctx)).length == n then s
  else
    let s1 := (s.frameOwner.filter (fun x => here x && x.2 != ctx)).foldl (fun s x => s.zeroFrame x.1) s
    { s1 with frameOwner := (List.range n).map (fun i => (lo + i, ctx)) ++ s.frameOwner.filter (fun x => !here x) }

/-- The bits that an access of a kind sets in a leaf, A and D (R292, R293). -/
def adBits (acc : Nat) : W64 := if accWrites acc || acc == accOwn then 0x600 else 0x200

/-- A leaf must have A or D set, and the entry no longer holds the FRAME and TYPE that the walk read (R293). -/
def State.staleLeaf (s : State) (ea : Nat) (pte : W64) (acc : Nat) : Bool :=
  pte ||| adBits acc != pte && s.physWord ea &&& 0xFFFFFFFFFF0003 != pte &&& 0xFFFFFFFFFF0003

/-- A and D are set with one atomic OR at the entry's place, in memory and in what the die holds of it (R293). The OR is not made where
the entry no longer holds the FRAME and TYPE that the walk read. -/
def State.setAD (s : State) (ea : Nat) (pte : W64) (acc : Nat) : State :=
  let ad := adBits acc
  if pte ||| ad == pte || s.staleLeaf ea pte acc then s
  else
    { s.physStore ea 8 (s.physWord ea ||| ad).toNat with
      held := s.held.map (fun h => if h.pa == ea then { h with val := h.val ||| ad } else h) }

/-- The walk of an access and what the die then holds. Where A or D must change and the entry no longer holds the FRAME and TYPE that the walk
read, the walk starts again (R293). -/
def State.walkFor (s : State) (ctxbase : W64) (named : Bool) (ctx : BitVec 16) (va acc : Nat) (user : Bool) : Walk × State :=
  let s1 := s.walked ctxbase named ctx va
  match s1.walk ctxbase named ctx va with
  | .leaf ea pte tbl pa =>
    if leafReason s1 pte pa acc user = 0 ∧ s1.staleLeaf ea pte acc = true then
      let s2 := (s1.dropServing ctx va).walked ctxbase named ctx va
      (s2.walk ctxbase named ctx va, s2)
    else (.leaf ea pte tbl pa, s1)
  | w => (w, s1)

/-- A leaf of level 3 that names the HBM4E stack of another near-tier die: memory that a die reaches only through an imported handle (R11).
The access fails as one to an address that the die does not have (R373; DEDUCED). -/
def foreignFrame (d : Nat) (pte : W64) (pa : Nat) : Bool := !pte.getLsbD 15 && decide (pa < 0x8000000000) && pa / 0x1000000000 != d

/-- The leaf that an access uses at an address of a context of die `d`: the walk, its checks, and its side effects (R293, R296, R300). `rep` is the
address TVAL holds; `deny` gives the trap of a table and a reason; with `pin` the page must be pinned, reason 8 (R298). A walk of this die that
reads tables in the far tier crosses to it (R284). A and D in a table that stands in a sealed frame cannot be set, and the access fails as a
write to such a frame does (R294). -/
def useLeaf (d : Nat) (ctxbase : W64) (named : Bool) (ctx : BitVec 16) (va acc : Nat) (user pin : Bool) (rep : W64)
    (deny : Nat → Nat → Exn) : Ex (W64 × Nat) := do
  let s0 ← get
  if d = s0.die.toNat then crossFar (s0.walkReads ctxbase named ctx va) rep
  let w := s0.walkFor ctxbase named ctx va acc user
  set w.2
  match w.1 with
  | .stop tbl reason => throw (deny tbl reason)
  | .lost pa => failMem rep pa
  | .leaf ea pte tbl pa =>
    let r := leafReason w.2 pte pa acc user
    if pin && !pte.getLsbD 12 then throw (deny tbl 8)
    else if r ≠ 0 then throw (deny tbl r)
    else if foreignFrame d pte pa then failMem rep pa
    else if pte ||| adBits acc ≠ pte ∧ w.2.sealedAt ea = true then throw (deny 0 6)
    else
      set ((w.2.takeFrame pa ctx pte tbl).setAD ea pte acc)
      return (pte, pa)

/-- The place that a leaf gives an address (R292, R239). -/
def leafLoc (s : State) (pte : W64) (pa : Nat) : Loc := .phys (pte.getLsbD 15) (pte.getLsbD 14 && s.feat.getLsbD 11) pa

/-- The 64-byte units of [a, a + n) (R220). -/
def units (a n : Nat) : Nat := (a + n - 1) / 64 + 1 - a / 64

/-- The candidate record of R220. -/
def candRecord (ctx : BitVec 16) (vpn : BitVec 48) (cnt : Nat) (die : BitVec 4) : Nat :=
  die.toNat + 1 * 16 + cnt % 256 * 256 + vpn.toNat * 65536 + ctx.toNat * 2 ^ 64

/-- The physical address that a leaf's counter goes by: a host page is of no tier. -/
def tierPa (pte : W64) (pa : Nat) : Nat := if pte.getLsbD 15 then 0 else pa

/-- An access counter gains n; at the threshold a far-tier page gets its candidate record, once; one that finds the ring full, or cannot be
written, is dropped and counted (R220). DESIGN CHOICE, log entry 148: CANDBASE is a physical address and CANDLEN counts records of 16 bytes, no
slot of the ring is freed since the ring has no read count, and REP is set also where the record is dropped. -/
def State.countPage (s : State) (ctx : BitVec 16) (va pa n : Nat) (setMax : Bool) : State :=
  let vpn := BitVec.ofNat 48 (va / 65536)
  let c := (s.pageCtrs.find? (fun c => c.ctx == ctx && c.vpn == vpn)).getD ⟨ctx, vpn, 0, false, false⟩
  let cnt := if setMax then 255 else min 255 (c.cnt + n)
  let thr := s.mg.candthr.toNat % 256
  let hit := isFar pa && !c.rep && thr != 0 && decide (thr ≤ cnt)
  let rest := s.pageCtrs.filter (fun c => !(c.ctx == ctx && c.vpn == vpn))
  let s1 := { s with pageCtrs := ⟨ctx, vpn, cnt, c.rep || hit, isFar pa⟩ :: rest }
  if hit then
    let cap := s.mg.candlen.toNat
    let at_ := s.mg.candbase.toNat + 16 * s.mg.candwr.toNat
    if decide (s.mg.candwr.toNat < cap) && s1.canStore at_ 16 then
      { s1.physStore at_ 16 (candRecord ctx vpn cnt s.die) with
        mg := { s1.mg with candwr := s.mg.candwr + 1 },
        irqs := if s.mg.candwr == 0 then
          s1.irqs ++ [⟨4, s.mg.candwr + 1, s.mg.canddrop⟩] else s1.irqs }
    else { s1 with mg := { s1.mg with canddrop := s.mg.canddrop + 1 } }
  else s1

/-- PAGE_FAULT at an address (R293, R336). A write of the part itself is a store. -/
def pageFault (rep : W64) (acc tbl reason : Nat) : Exn :=
  ⟨cPAGE_FAULT, rep, pfVal (if reason ≤ 4 then tbl else 0) (if acc = accOwn then accStore else acc) reason⟩

/-- Translate in a context of this die (R293, R296, R300, R220). `rep` is the address TVAL holds, `cnt` what the page's access counter
gains. -/
def translateIn (ctxbase : W64) (named : Bool) (ctx : BitVec 16) (va acc cnt : Nat) (user : Bool) (rep : W64) :
    Ex Loc := do
  let s ← get
  let (pte, pa) ← useLeaf s.die.toNat ctxbase named ctx va acc user false rep (pageFault rep acc)
  modify (fun s => s.countPage ctx va (tierPa pte pa) cnt false)
  return leafLoc s pte pa

/-- Set the dirty-page bit of a heap page of a context, which the tables of its die describe (R297). The bitmap write itself sets no bit;
its page is walked, taken and written as any other. An object that is unmapped or too short is reason 7; a page that lacks a permission, or a
sealed frame, keeps the reason and the table of its own (R336). -/
def setDirtyBit (d : Nat) (ctxbase : W64) (named : Bool) (ctx : BitVec 16) (va : Nat) : Ex Unit := do
  let s ← get
  let dbm := (s.ctxWordAt ctxbase ctx 3).toNat
  let hbase := (s.ctxWordAt ctxbase ctx 1).toNat
  let hlim := (s.ctxWordAt ctxbase ctx 2).toNat
  if dbm = 0 ∨ va < hbase ∨ hlim ≤ va then pure ()
  else
    let i := (va - hbase) / 65536
    let need := dbm + 16 + i / 8
    let rep : W64 := BitVec.ofNat 64 need
    let bad : Exn := ⟨cPAGE_FAULT, rep, pfVal 0 7 7⟩
    let deny := fun tbl r => if r ≤ 2 then bad else pageFault rep 7 tbl r
    let (hpte, hpa) ← useLeaf d ctxbase named ctx dbm accLoad false false rep deny
    let len ← locRead (.phys (hpte.getLsbD 15) false hpa) 5 rep
    if len ≤ i / 8 then throw bad
    let (pte, pa) ← useLeaf d ctxbase named ctx need accStore false false rep deny
    let l := leafLoc s pte pa
    let old ← locRead l 1 rep
    locWrite l 1 (if old / 2 ^ (i % 8) % 2 = 1 then old else old + 2 ^ (i % 8)) rep

/-- Translate a level-3 address for the running logical core; a write marks its heap page first (R293, R297). The page's counter
gains `cnt`. What U decides is the privilege level that the core is in when the access is made: R225 has a copy capture none, nor R234 a
stream (DESIGN CHOICE, log entry 149). -/
def translateN (va acc cnt : Nat) : Ex Loc := do
  let s ← get
  let c := s.cur.ctx
  let named := s.ctxNamed c
  let l ← translateIn s.mg.ctxbase named c va acc cnt (s.cur.pl == 0) (BitVec.ofNat 64 va)
  if accWrites acc then setDirtyBit s.die.toNat s.mg.ctxbase named c va
  return l

/-- A translated access: one more for the counter (R220). -/
def translate (va acc : Nat) : Ex Loc := translateN va acc 1

/-- Scale-up port that reaches a package and is up (R376). -/
def State.portTo (s : State) (pkg : Nat) : Option Nat :=
  (s.mg.linkstat.toList.take 18).findIdx? (fun w => w.getLsbD 0 && bits w.toNat 63 48 == pkg && pkg != s.pkg.toNat)

/-- The LINKSTAT word of a port changes: every near-tier die's management block holds it (R376, R377). -/
def State.setLink (s : State) (i : Nat) (f : W64 → W64) : State :=
  let put := fun (g : Mgmt) => { g with linkstat := g.linkstat.mapIdx (fun j w => if j = i then f w else w) }
  { s with mg := put s.mg, peers := s.peers.map put }

/-- A port has carried a request: RETRY counts, saturating, the link-level retries that it took, a free value (R376). -/
def State.useLink (s : State) (i : Nat) : State :=
  { s with free := s.free + 1 }.setLink i
    (fun w => setBits w 31 8 (min 0xFFFFFF (bits w.toNat 31 8 + Config.linkRetries s.free)))

/-- An access that another package answers (R298, R299): performed there, or refused with a peer fault; which, and what a read gives, are
free values. A port that is down gives no answer (R284, R376). A store is acknowledged later, so its fault waits for a fence (R217). -/
def awayAccess (ptr : W64) (pkg acc : Nat) : Ex Loc := do
  let s ← get
  match s.portTo pkg with
  | none => trapWith cPEER_TIMEOUT ptr s.mg.tmox
  | some i => set (s.useLink i)
  let s ← get
  set { s with free := s.free + 1 }
  match Config.peerAnswer s.free with
  | none => return .away
  | some (code, t2) =>
    let late := code ≠ cPEER_ACCESS ∧ code ≠ cPEER_REVOKED
    if late then modify (fun s => { s with expired := s.expired + 1 })
    let e : Exn := if late then ⟨cPEER_TIMEOUT, ptr, s.mg.tmox⟩
      else if code = cPEER_ACCESS then ⟨code, ptr, if t2 = 2 then 2 else 3⟩ else ⟨code, ptr, t2⟩
    if acc = accStore then
      modify (fun s => s.modCur (fun c => { c with acks := c.acks ++ [e] }))
      return .away
    else throw e

/-- A peer access of n bytes at byte `off` from a level-4 address: the importer's checks, the exporter's, and the exporter's
translation (R298, R299). The slot is that of the address, whatever the offset. A write to a sealed frame fails as everywhere (R294). The
exporter's counters count only its own agents, `cnt` (R220). A table entry that cannot be read, a context's own among them, fails the access
(R367, R373). -/
def peerAccess (addr off n acc cnt : Nat) : Ex Loc := do
  let s0 ← get
  let c := s0.cur.ctx
  let ptr : W64 := BitVec.ofNat 64 (4 * 2 ^ 61 + addr + off)
  let slot := addr / 2 ^ 40 % 4096
  let o := addr % 2 ^ 40 + off
  let w9 := s0.ctxWord c 9
  let base := bits w9.toNat 63 12 * 4096 + 32 * slot
  let lo := 4 * 2 ^ 61 + slot * 2 ^ 40
  if s0.ctxNamed c && !s0.ctxReadable c then failMem ptr (s0.mg.ctxbase.toNat + 128 * c.toNat)
  if !s0.ctxValid c || decide (w9.toNat % 4096 < slot) then trapWith cPEER_ACCESS ptr 1
  set ((s0.holdCtx s0.mg.ctxbase c).holdWords c lo (2 ^ 40) [base, base + 8, base + 16])
  let s ← get
  if s.physOk base 32 = false then failMem ptr base
  let imp := s.tableWord c lo
  let i0 := imp base
  let wr := accWrites acc
  let pkg := bits i0.toNat 43 36
  if !i0.getLsbD 63 then trapWith cPEER_ACCESS ptr 1
  if pkg ≠ s.pkg.toNat ∧ s.feat.getLsbD 12 = false then trapWith cPEER_ACCESS ptr 1
  if bits (imp (base + 16)).toNat 39 0 < o + n ∨ (wr = true ∧ i0.getLsbD 62 = false) then
    trapWith cPEER_ACCESS ptr 2
  if pkg ≠ s.pkg.toNat then awayAccess ptr pkg acc
  else
    let d := bits i0.toNat 35 32
    if s.silent = true ∧ d ≠ s.die.toNat then
      set s.timedOut
      trapWith cPEER_TIMEOUT ptr s.mg.tmod
    let t := s.dieTables d
    let eb := t.expbase.toNat + 32 * (bits i0.toNat 11 0)
    if s.physOk eb 32 = false then failMem ptr eb
    let ectx := BitVec.ofNat 16 (bits (s.exportWord eb).toNat 47 32)
    modify (fun s => s.holdWords ectx 0 0 [eb, eb + 8, eb + 16, eb + 24])
    let e0 := s.exportWord eb
    let gen := bits (s.exportWord (eb + 8)).toNat 47 0
    if !e0.getLsbD 63 || bits i0.toNat 31 12 != 0 || gen != bits (imp (base + 8)).toNat 47 0 ||
        bits e0.toNat 27 20 != s.pkg.toNat || bits e0.toNat 19 16 != s.die.toNat || bits e0.toNat 15 0 != c.toNat then
      trapWith cPEER_REVOKED ptr (BitVec.ofNat 64 gen)
    if bits (s.exportWord (eb + 24)).toNat 39 0 < o + n ∨ (wr = true ∧ e0.getLsbD 62 = false) then
      trapWith cPEER_ACCESS ptr 2
    let va := (s.exportWord (eb + 16)).toNat + o
    let named := s.ctxNamedOn d ectx
    let (pte, pa) ← useLeaf d t.ctxbase named ectx va acc false true ptr
      (fun _ r => if r = 6 then pageFault ptr acc 0 6 else ⟨cPEER_ACCESS, ptr, 3⟩)
    if d = s.die.toNat then modify (fun s => s.countPage ectx va (tierPa pte pa) cnt false)
    if wr then setDirtyBit d t.ctxbase named ectx va
    return leafLoc s pte pa

/-! ### Object pointers -/

def ptrLvl (p : W64) : Nat := p.toNat / 2 ^ 61
def ptrAddr (p : W64) : Nat := p.toNat % 2 ^ 61
def mkPtr (lvl addr : Nat) : W64 := BitVec.ofNat 64 (lvl * 2 ^ 61 + addr)

/-- The malformed values of R24. -/
def ptrMalformed (p : W64) : Bool :=
  let l := ptrLvl p
  let a := ptrAddr p
  decide (4 < l) || a % 16 != 0 || (a == 0 && l != 0) || (decide (l ≤ 2) && decide (padSize l ≤ a)) ||
    (decide (3 ≤ l) && bits a 60 52 != 0)

/-- The checks of R24, before any storage is touched. -/
def checkPtr (p : W64) : Ex Unit := do
  if p = 0 then trapWith cOBJ_NULL p 0
  if ptrMalformed p then trapWith cOBJ_MALFORMED p 0

/-- The running context owns the die pad (R401). -/
def State.ownsDie (s : State) : Bool := (s.pad .die).owner == some s.cur.ctx

/-- The location of n bytes at ADDR + off of an object; they lie in one 64 KiB piece (R24, R298, R401); the page's counter gains `cnt`.
While the die pad has no owner TVAL2 of the trap is 0 (DESIGN CHOICE: R401 names the owner's context and gives no value where there is
none). -/
def locateN (p : W64) (off n acc cnt : Nat) : Ex Loc := do
  let s ← get
  let l := ptrLvl p
  let a := ptrAddr p + off
  if l ≤ 2 then
    if l = 2 ∧ s.ownsDie = false then
      trapWith cCTX_ISOLATION p (BitVec.ofNat 64 (((s.pad .die).owner.map (·.toNat)).getD 0))
    else return .pad (s.cur.padId l) a
  else if l = 3 then translateN a acc cnt
  else peerAccess (ptrAddr p) off n acc cnt

/-- What a single access of n bytes at an address adds to its page's counter: a tile load counts its 64-byte units (R220). -/
def oneAccess (acc a n : Nat) : Nat := if acc = accTile then units a n else 1

/-- The location of a single access. -/
def locate (p : W64) (off n acc : Nat) : Ex Loc := locateN p off n acc (oneAccess acc (ptrAddr p + off) n)

/-- The address a failed access reports: the virtual address at level 3, the level-4 address, the pad offset. -/
def repAddr (p : W64) (off : Nat) : W64 :=
  if ptrLvl p = 4 then p + BitVec.ofNat 64 off else BitVec.ofNat 64 (ptrAddr p + off)

/-- n bytes from byte `off` of an object, counted from its header; an access that crosses a 64 KiB piece is read in two parts. `cnt` gives
what each part adds to its page's counter. -/
def readObjC (cnt : Nat → Nat → Nat) (p : W64) (off n acc : Nat) : Ex Nat := do
  let a := ptrAddr p + off
  let n1 := min n (65536 - a % 65536)
  let l1 ← locateN p off n1 acc (cnt a n1)
  let v1 ← locRead l1 n1 (repAddr p off)
  if n1 < n then
    let l2 ← locateN p (off + n1) (n - n1) acc (cnt (a + n1) (n - n1))
    let v2 ← locRead l2 (n - n1) (repAddr p (off + n1))
    return v1 + v2 * 2 ^ (8 * n1)
  else return v1

/-- The same of a single access. -/
def readObj (p : W64) (off n acc : Nat) : Ex Nat := readObjC (oneAccess acc) p off n acc

/-- Store the low n bytes of v at byte `off` of an object. Both pieces are located before either is written. The access is performed at once, so
that those of one path are performed in program order; R201 leaves the order of those to different bytes open (DESIGN CHOICE). -/
def writeObjC (cnt : Nat → Nat → Nat) (p : W64) (off n v acc : Nat) : Ex Unit := do
  let a := ptrAddr p + off
  let n1 := min n (65536 - a % 65536)
  let l1 ← locateN p off n1 acc (cnt a n1)
  if n1 < n then
    let l2 ← locateN p (off + n1) (n - n1) acc (cnt (a + n1) (n - n1))
    locWrite l1 n1 (v % 2 ^ (8 * n1)) (repAddr p off)
    locWrite l2 (n - n1) (v / 2 ^ (8 * n1)) (repAddr p (off + n1))
  else locWrite l1 n v (repAddr p off)

/-- The same of a single access. -/
def writeObj (p : W64) (off n v acc : Nat) : Ex Unit := writeObjC (oneAccess acc) p off n v acc

/-- The pieces of at most 64 KiB that [a, a + n) falls into, as (offset from a, length); `fuel` bounds their number. -/
def pieces (a : Nat) : Nat → Nat → Nat → List (Nat × Nat)
  | 0, _, _ => []
  | fuel + 1, off, n =>
    if n = 0 then []
    else
      let k := min n (65536 - (a + off) % 65536)
      (off, k) :: pieces a fuel (off + k) (n - k)

/-- The listed bytes of n bytes of an object from byte `off`, read as one whole (R193). -/
def snapshot (p : W64) (off n acc : Nat) : Ex (List Cell) := do
  let mut out : List Cell := []
  for (o, k) in pieces (ptrAddr p + off) (n / 65536 + 2) 0 n do
    let l ← locateN p (off + o) k acc (units (ptrAddr p + off + o) k)
    let cs ← locCells l k (repAddr p (off + o))
    out := out ++ cs.map (fun c => (c.1 + o, c.2))
  return out

/-- Fill n bytes of an object from byte `off` with the listed bytes, zero elsewhere. -/
def fillObj (p : W64) (off n : Nat) (cs : List Cell) (acc : Nat) : Ex Unit := do
  for (o, k) in pieces (ptrAddr p + off) (n / 65536 + 2) 0 n do
    let l ← locate p (off + o) k acc
    locFill l k ((cs.filter (fun c => decide (o ≤ c.1))).map (fun c => (c.1 - o, c.2))) (repAddr p (off + o))

/-- Header word 0 and word 1 of an object (R25, R26). -/
def readHdr (p : W64) : Ex W64 := do return BitVec.ofNat 64 (← readObj p 0 8 accLoad)
def readHdr1 (p : W64) : Ex W64 := do return BitVec.ofNat 64 (← readObj p 8 8 accLoad)

/-- Fields of header word 0 (R25). -/
def hdrLen (w : W64) : BitVec 40 := w.extractLsb' 0 40
def hdrKind (w : W64) : Nat := bits w.toNat 43 40
def hdrD (w : W64) : Bool := w.getLsbD 44
def hdrC (w : W64) : Bool := w.getLsbD 45
def hdrS (w : W64) : Bool := w.getLsbD 47
def hdrCtx (w : W64) : BitVec 16 := w.extractLsb' 48 16

/-- The canonical object a pointer stands for: CANON of a copy, else itself (R211). -/
def canonOf (p : W64) (w0 : W64) : Ex W64 := do
  if hdrC w0 && decide (ptrLvl p ≤ 2) then readHdr1 p else return p

end Sys2Proof.Machine
end

