-- ==== Sys2Proof/Machine/Records.lean ====
section
/-! DEFINITION. What the part writes on its own account: trace records (R359 to R362), error records (R370) and the
interrupts they raise (R332). -/

namespace Sys2Proof.Machine

/-- Run in another context, as the part itself: supervisor rights, the status restored afterwards. -/
def asCtx {α : Type} (ctx : BitVec 16) (m : Ex α) : Ex α := do
  let st := (← get).cur.status
  modify (fun s => s.modCur (fun c => { c with status := ctx.setWidth 64 <<< 16 ||| 1 }))
  let a ← m
  modify (fun s => s.modCur (fun c => { c with status := st }))
  return a

/-- An operation of the part itself; one that cannot be performed is abandoned. -/
def State.attempt {α : Type} (s : State) (m : Ex α) : State :=
  match m s with
  | .ok _ s' => s'
  | .error _ s' => s'

/-- What an operation that has been abandoned leaves known: where an access has failed, and that a request has timed out (R284, R370). -/
def State.knowing (s t : State) : State := { s with failAt := t.failAt, silent := t.silent, expired := t.expired }

/-- A write of n bytes in a context, with whether it could be performed; one that could not leaves only what is known of it. The context's space
has 52 bits (R291). -/
def State.tryStore (s : State) (ctx : BitVec 16) (va n v : Nat) : Bool × State :=
  if 2 ^ 52 < va + n then (false, s)
  else match asCtx ctx (do
      let l ← translate va accStore
      locWrite l n v (BitVec.ofNat 64 va)) s with
  | .ok _ t => (true, t)
  | .error _ t => (false, s.knowing t)

/-- A read of n bytes in a context, if it can be performed; one that cannot leaves only what is known of it. -/
def State.tryLoad (s : State) (ctx : BitVec 16) (va n : Nat) : Option Nat × State :=
  if 2 ^ 52 < va + n then (none, s)
  else match asCtx ctx (do
      let l ← translate va accLoad
      locRead l n (BitVec.ofNat 64 va)) s with
  | .ok v t => (some v, t)
  | .error _ t => (none, s.knowing t)

/-- An interrupt becomes pending (R332). -/
def State.raiseIrq (s : State) (code : BitVec 6) (t1 t2 : W64) : State := { s with irqs := s.irqs ++ [⟨code, t1, t2⟩] }

/-- SRC of a unit of a die, and of this die (R359). -/
def srcOf (die unit : Nat) : BitVec 16 := BitVec.ofNat 16 (die * 4096 + unit)
def State.src (s : State) (unit : Nat) : BitVec 16 := srcOf s.die.toNat unit

/-- The far-tier port of a physical address (R373). -/
def farPort (pa : Nat) : Nat := (pa - 0x10000000000) / 0x4000000000

/-- SRC of the memory at a physical address: the base die of its HBM4E stack, or the far-tier port of die 8 or 9 (R359, R373). -/
def memSrc (pa : Nat) : BitVec 16 :=
  if isFar pa then srcOf (8 + farPort pa / 8) (0x191 + farPort pa % 8) else srcOf (pa / 0x1000000000) 0x180

/-- A record of 32 bytes (R361). -/
def recordOf (gtc ty : Nat) (ctx lcid src : BitVec 16) (a b : W64) : BitVec 256 :=
  b ++ a ++ src ++ BitVec.ofNat 8 ty ++ (0 : BitVec 8) ++ ctx ++ lcid ++ BitVec.ofNat 64 gtc
/-- A record with the present GTC. -/
def State.record (s : State) (ty : Nat) (ctx lcid src : BitVec 16) (a b : W64) : BitVec 256 := recordOf s.gtc ty ctx lcid src a b

/-- GTC, SRC and TYPE of a record (R361). -/
def recGtc (r : BitVec 256) : Nat := (r.extractLsb' 0 64).toNat
def recSrc (r : BitVec 256) : Nat := (r.extractLsb' 112 16).toNat
def recType (r : BitVec 256) : Nat := (r.extractLsb' 104 8).toNat

/-- TRCTL fields (R360). -/
def Mgmt.trEn (g : Mgmt) : Bool := g.trctl.getLsbD 0
def Mgmt.trWrap (g : Mgmt) : Bool := g.trctl.getLsbD 1
def Mgmt.trOn (g : Mgmt) (ty : Nat) : Bool := g.trEn && (ty == 10 || g.trctl.getLsbD (16 + ty))
def Mgmt.trCtx (g : Mgmt) : BitVec 16 := g.trctl.extractLsb' 48 16
/-- Slots of the trace buffer, and the address of a slot (R360). -/
def Mgmt.trSlots (g : Mgmt) : Nat := 2048 * (g.trlen.toNat % 2 ^ 32)
def Mgmt.trAddr (g : Mgmt) : Nat := g.trbase.toNat / 65536 * 65536 + 32 * (g.trwr.toNat % g.trSlots)

/-- The page of the next slot is being moved (R362). -/
def State.trBusy (s : State) : Bool :=
  s.moves.any (fun m => m.ctx == s.mg.trCtx && m.va.toNat / 65536 == s.mg.trAddr / 65536)

/-- A record of time `at_` is lost and counted (R362). -/
def State.dropTrace (s : State) (at_ : Nat) : State :=
  { s with mg := { s.mg with trdrop := s.mg.trdrop + 1 }, trGap := s.trGap + 1,
           trGapAt := if s.trGap = 0 then at_ else s.trGapAt }

/-- The gap record of the drops so far, stamped with the time and the source of the record that follows it, so that records stand in order
(R362; DESIGN CHOICE). -/
def State.gapRec (s : State) (at_ : Nat) (src : BitVec 16) : BitVec 256 :=
  recordOf at_ 10 0 0xFFFF src (BitVec.ofNat 64 s.trGap) (BitVec.ofNat 64 s.trGapAt)

/-- The next record opens the next page (R362). -/
def State.nextTracePage (s : State) : State :=
  { s with mg := { s.mg with trwr := BitVec.ofNat 64 ((s.mg.trwr.toNat / 2048 + 1) * 2048) } }

/-- A buffer that does not wrap is full (R362). -/
def Mgmt.trFull (g : Mgmt) : Bool := g.trSlots == 0 || (!g.trWrap && decide (g.trSlots ≤ (g.trwr - g.trrd).toNat))

/-- Write a record in the next slot: dropped when the buffer is full or its page cannot be written (R362). The second
value says whether it was written. -/
def State.putTrace (s : State) (r : BitVec 256) : State × Bool :=
  if s.mg.trFull then (s.dropTrace (recGtc r), false)
  else
    match s.tryStore s.mg.trCtx s.mg.trAddr 32 r.toNat with
    | (true, t) => ({ t with mg := { t.mg with trwr := t.mg.trwr + 1 } }, true)
    | (false, t) => ((t.dropTrace (recGtc r)).nextTracePage, false)

/-- The gap record that opens before any later record, which comes at a time from a source (R362). -/
def State.putGap (s : State) (at_ : Nat) (src : BitVec 16) : State :=
  if s.trGap = 0 then s
  else
    let q := s.putTrace (s.gapRec at_ src)
    if q.2 then { q.1 with trGap := 0 } else s

/-- A record is put after the gap record of the drops before it (R362). -/
def State.putInOrder (s : State) (r : BitVec 256) : State := ((s.putGap (recGtc r) (r.extractLsb' 112 16)).putTrace r).1

/-- A held record is dropped: a gap record gives its drops back (R362). -/
def State.dropHeld1 (s : State) (r : BitVec 256) : State :=
  if recType r = 10 then { s with trGap := s.trGap + (r.extractLsb' 128 64).toNat, trGapAt := (r.extractLsb' 192 64).toNat }
  else s.dropTrace (recGtc r)

/-- Records held for a moved page are dropped and counted; they came before those that have been dropped meanwhile (R362). -/
def State.dropHeldRecords (s : State) : State :=
  let t := s.trHeld.foldl State.dropHeld1 { s with trHeld := [], trGap := 0 }
  { t with trGap := t.trGap + s.trGap, trGapAt := if t.trGap = 0 then s.trGapAt else t.trGapAt }

/-- Put a record after any gap record, or hold it while its page is moved: a gap record that waits is held before it (R362). -/
def State.writeTraceRec (s : State) (r : BitVec 256) : State :=
  if s.trBusy then
    match s.trHoldSince with
    | none =>
      if s.trGap = 0 then { s with trHeld := [r], trHoldSince := some (recGtc r) }
      else { s with trHeld := [s.gapRec (recGtc r) (r.extractLsb' 112 16), r], trHoldSince := some (recGtc r), trGap := 0 }
    | some since =>
      if s.trHeld.length < 256 ∧ s.trGap = 0 ∧ recGtc r ≤ since + 10000 then { s with trHeld := s.trHeld ++ [r] }
      else s.dropTrace (recGtc r)
  else s.putInOrder r

/-- Insert a record by its source, after those of the same source. -/
def insertRec (r : BitVec 256) : List (BitVec 256) → List (BitVec 256)
  | [] => [r]
  | x :: l => if recSrc r < recSrc x then r :: x :: l else x :: insertRec r l

/-- The records of a list are written. -/
def State.writeTraceRecs (s : State) (l : List (BitVec 256)) : State := l.foldl State.writeTraceRec s

/-- The records of a tick that has passed are written, by their source (R359, R362). -/
def State.flushTick (s : State) : State :=
  if s.trPend == [] then s
  else
    { s with trPend := s.trPend.filter (fun r => decide (s.gtc ≤ recGtc r)) }.writeTraceRecs
      (s.trPend.filter (fun r => decide (recGtc r < s.gtc)))

/-- A trace record of the present tick (R362). -/
def State.traceRec (s : State) (r : BitVec 256) : State :=
  let t := s.flushTick
  { t with trPend := insertRec r t.trPend }

/-- Held records are dropped once they have been held for more than 10,000 ticks (R362). -/
def State.expireHold (s : State) : State :=
  match s.trHoldSince with
  | none => s
  | some t => if s.gtc ≤ t + 10000 ∨ s.trHeld = [] then s else s.dropHeldRecords

/-- Records held for a moved page are written once the move has ended, each after the gap record of those of them that a page which cannot be
written has dropped; where records have been dropped meanwhile, a gap record opens the next page (R362). -/
def State.flushTrace (s : State) : State :=
  if s.trBusy then s
  else
    let s0 := s.expireHold
    let t := s0.trHeld.foldl State.putInOrder { s0 with trHeld := [], trHoldSince := none, trGap := 0 }
    let u := { t with trGap := t.trGap + s0.trGap, trGapAt := if t.trGap = 0 then s0.trGapAt else t.trGapAt }
    if s0.trHoldSince.isSome ∧ s0.trGap ≠ 0 then u.nextTracePage.putGap s.gtc (s.src 0) else u

/-- A trace record of an event at a source, if its type is enabled (R360, R361). -/
def State.traceAt (s : State) (ty : Nat) (ctx lcid src : BitVec 16) (a b : W64) : State :=
  if s.mg.trOn ty then s.traceRec (s.record ty ctx lcid src a b) else s
/-- A trace record of an event at a unit of this die. -/
def State.trace (s : State) (ty : Nat) (ctx lcid : BitVec 16) (unit : Nat) (a b : W64) : State :=
  s.traceAt ty ctx lcid (s.src unit) a b

/-- An error record, its interrupt and its trace record; one that finds the ring full, or cannot be written, is dropped and counted (R370,
R367). -/
def State.errorRecordAt (s : State) (ty : Nat) (ctx lcid src : BitVec 16) (a b : W64) : State :=
  let slots := 2048 * (s.mg.erlen.toNat % 2 ^ 32)
  let pa := s.mg.erbase.toNat / 65536 * 65536 + 32 * (s.mg.erwr.toNat % slots)
  if slots = 0 ∨ slots ≤ (s.mg.erwr - s.mg.errd).toNat ∨ s.canStore pa 32 = false then
    { s with mg := { s.mg with erdrop := s.mg.erdrop + 1 } }
  else
    let r := s.record ty ctx lcid src a b
    let s1 := { s.physStore pa 32 r.toNat with mg := { s.mg with erwr := s.mg.erwr + 1 } }
    (s1.raiseIrq 5 (BitVec.ofNat 64 pa) (BitVec.ofNat 64 ty)).traceAt 9 0 0xFFFF src (BitVec.ofNat 64 pa) (BitVec.ofNat 64 ty)
/-- An error record of a unit of this die (R370). -/
def State.errorRecord (s : State) (ty : Nat) (ctx lcid : BitVec 16) (unit : Nat) (a b : W64) : State :=
  s.errorRecordAt ty ctx lcid (s.src unit) a b

/-- A corrected error at a source: a type 1 record at most once in 2²⁰ ticks; B counts the errors since the last record that got none
(R367). -/
def State.corrected (s : State) (src : BitVec 16) (a : W64) : State :=
  let rest := s.corr.filter (fun e => e.1 != src)
  match s.corr.find? (fun e => e.1 == src) with
  | none => { s with corr := (src, s.gtc, 0) :: rest }.errorRecordAt 1 0 0xFFFF src a 0
  | some (_, t, n) =>
    if s.gtc < t + 2 ^ 20 then { s with corr := (src, t, n + 1) :: rest }
    else { s with corr := (src, s.gtc, 0) :: rest }.errorRecordAt 1 0 0xFFFF src a (BitVec.ofNat 64 n)

/-- The part could not write a word of its own: record type 8 (R370). -/
def State.ownWriteFailed (s : State) (what queue : Nat) (tag : BitVec 32) (ctx : BitVec 16) (va : W64) : State :=
  s.errorRecord 8 ctx 0xFFFF 0x150 va (BitVec.ofNat 64 (tag.toNat * 2 ^ 32 + queue % 256 * 256 + what))

/-- The physical address at which the last access that reported an address has failed (R370). -/
def State.failedAt (s : State) (rep : W64) : W64 := ((s.failAt.find? (fun e => e.1 == rep)).map Prod.snd).getD 0

/-- The record of a memory error that an access has reported: 2 consumed, 3 without a consumer, 6 a write-back abandoned; A is the physical
address that failed, and the syndrome B a free value, which no rule gives (R367, R370). -/
def State.memError (s : State) (ty : Nat) (ctx lcid : BitVec 16) (unit : Nat) (e : Exn) : State :=
  if e.code = cMEM_UNCORRECTABLE then
    { s with free := s.free + 1 }.errorRecord ty ctx lcid unit (s.failedAt e.tval) (Config.freeWord s.free)
  else s

/-- What trap entry records: a trace record, and the record of a memory error (R361, R367). -/
def State.noteTrap (s : State) (ctx lcid : BitVec 16) (unit : Nat) (cause epc : W64) (e : Exn) : State :=
  let ty := if s.wbFailed then 6 else 2
  ({ s with wbFailed := false }.trace 2 ctx lcid unit cause epc).memError ty ctx lcid unit e

end Sys2Proof.Machine
end

