-- ==== Sys2Proof/Machine/Ops.lean ====
section
/-! DEFINITION. The named operations every meaning is built from: registers (R21 to R23), status and repetition
state (R36, R41), advancing past a word (R51, R116), taking a trap (R288, R321, R328, R331) and returning from one
(R304), the checks of decode (R60), and the wrapper of an instruction word. -/

namespace Sys2Proof.Machine

/-! ### Registers -/

/-- x0 reads 0 (R22). -/
def LCore.getX (c : LCore) (r : BitVec 5) : W64 := if r = 0 then 0 else c.x.get r.toFin
/-- A write to x0 is discarded (R22). -/
def LCore.setX (c : LCore) (r : BitVec 5) (v : W64) : LCore :=
  { c with x := if r = 0 then c.x else c.x.set r.toNat v r.isLt }

def LCore.getP (c : LCore) (r : BitVec 4) : PtrReg := c.p.get r.toFin
def LCore.setP (c : LCore) (r : BitVec 4) (v : PtrReg) : LCore := { c with p := c.p.set r.toNat v r.isLt }

def LCore.getV (c : LCore) (r : BitVec 5) : VWord := c.v.get r.toFin
def LCore.setV (c : LCore) (r : BitVec 5) (v : VWord) : LCore := { c with v := c.v.set r.toNat v r.isLt }

/-- m0 reads all ones (R22). -/
def LCore.getM (c : LCore) (r : BitVec 3) : W64 := if r = 0 then BitVec.allOnes 64 else c.m.get r.toFin
/-- A write naming m0 is discarded (R22). -/
def LCore.setM (c : LCore) (r : BitVec 3) (v : W64) : LCore :=
  { c with m := if r = 0 then c.m else c.m.set r.toNat v r.isLt }

def LCore.getT (c : LCore) (r : BitVec 4) : Slot := c.t.get r.toFin
def LCore.setT (c : LCore) (r : BitVec 4) (v : Slot) : LCore := { c with t := c.t.set r.toNat v r.isLt }
def LCore.getA (c : LCore) (r : BitVec 2) : Acc := c.acc.get r.toFin
def LCore.setA (c : LCore) (r : BitVec 2) (v : Acc) : LCore := { c with acc := c.acc.set r.toNat v r.isLt }
def LCore.getK (c : LCore) (r : BitVec 2) : Carry := c.k.get r.toFin
def LCore.setK (c : LCore) (r : BitVec 2) (v : Carry) : LCore := { c with k := c.k.set r.toNat v r.isLt }
def LCore.getQ (c : LCore) (r : BitVec 4) : Inbox := c.q.get r.toFin
def LCore.setQ (c : LCore) (r : BitVec 4) (v : Inbox) : LCore := { c with q := c.q.set r.toNat v r.isLt }
def LCore.getS (c : LCore) (r : BitVec 3) : Stream := c.st.get r.toFin
def LCore.setS (c : LCore) (r : BitVec 3) (v : Stream) : LCore := { c with st := c.st.set r.toNat v r.isLt }
def LCore.getTag (c : LCore) (r : BitVec 6) : Tag := c.tags.get r.toFin
def LCore.setTag (c : LCore) (r : BitVec 6) (v : Tag) : LCore := { c with tags := c.tags.set r.toNat v r.isLt }

/-- The running logical core. -/
def cur : Ex LCore := do return (← get).cur
def modCur (f : LCore → LCore) : Ex Unit := modify (fun s => s.modCur f)
def rdX (r : BitVec 5) : Ex W64 := do return (← get).cur.getX r
def wrX (r : BitVec 5) (v : W64) : Ex Unit := modCur (fun c => c.setX r v)
def rdP (r : BitVec 4) : Ex PtrReg := do return (← get).cur.getP r
def wrP (r : BitVec 4) (v : PtrReg) : Ex Unit := modCur (fun c => c.setP r v)

/-- A fresh value the spec leaves open. -/
def freshWord : Ex W64 := do
  let s ← get
  set { s with free := s.free + 1 }
  return Config.freeWord s.free

/-! ### Status, repetition state -/

/-- STATUS.IE and PPL, PIE (R36). -/
def LCore.ie (c : LCore) : Bool := c.status.getLsbD 2
def LCore.ppl (c : LCore) : BitVec 2 := c.status.extractLsb' 4 2
def LCore.pie (c : LCore) : Bool := c.status.getLsbD 7

/-- STATUS with PL, IE, PPL and PIE replaced (R36). -/
def statusWith (st : W64) (pl : BitVec 2) (ie : Bool) (ppl : BitVec 2) (pie : Bool) : W64 :=
  (st &&& ~~~(0xB7 : W64)) ||| pl.setWidth 64 ||| (if ie then 4 else 0) ||| ((ppl.setWidth 64) <<< 4) |||
    (if pie then 0x80 else 0)

/-- REPC fields (R41). -/
def repcCnt (r : W64) : Nat := bits r.toNat 15 0
def repcLen (r : W64) : Nat := bits r.toNat 19 16
def repcPos (r : W64) : Nat := bits r.toNat 23 20
def repcStrd (r : W64) : BitVec 5 := r.extractLsb' 24 5
def repcAct (r : W64) : Bool := r.getLsbD 29

def mkRepc (cnt blen pos : Nat) (strd : BitVec 5) (act : Bool) : W64 :=
  BitVec.ofNat 64 (cnt % 65536 + blen % 16 * 65536 + pos % 16 * 0x100000 + strd.toNat * 0x1000000 +
    (if act then 0x20000000 else 0))

/-- A pass of a repetition ends with this word, and another one follows (R116). -/
def repeats (r : W64) : Bool := repcAct r && repcPos r == repcLen r && repcCnt r - 1 != 0

/-- The pc after one word in sequence: the next word, or in a repetition the word R116 names. -/
def nextPc (r pc : W64) : W64 := if repeats r then pc - BitVec.ofNat 64 (4 * repcLen r) else pc + 4

/-- The repetition state after one word in sequence (R116). -/
def nextRepc (r : W64) : W64 :=
  if repcAct r then
    if repcPos r = repcLen r then
      if repcCnt r - 1 = 0 then mkRepc 0 (repcLen r) 0 (repcStrd r) false
      else mkRepc (repcCnt r - 1) (repcLen r) 0 (repcStrd r) true
    else mkRepc (repcCnt r) (repcLen r) (repcPos r + 1) (repcStrd r) true
  else r

/-- One word in sequence (R51, R116). -/
def LCore.advance (c : LCore) : LCore := { c with pc := nextPc c.repc c.pc, repc := nextRepc c.repc }

/-- The first word of the unit under way (R51). -/
def LCore.unitStart (c : LCore) : W64 := c.unit.getD c.pc

/-- The repetition state at the first word of the unit under way (R116, R117). -/
def LCore.unitRepc (c : LCore) : W64 :=
  if c.unit.isSome && repcAct c.repc then
    mkRepc (repcCnt c.repc) (repcLen c.repc) (repcPos c.repc - (c.pc - c.unitStart).toNat / 4) (repcStrd c.repc) true
  else c.repc

/-- Back to the first word of the unit under way (R51): pc, and POS of a repetition (R116, R117). -/
def LCore.rewind (c : LCore) : LCore := { c with pc := c.unitStart, unit := none, pfx := none, repc := c.unitRepc }

/-! ### Taking a trap -/

/-- The target level of a trap or interrupt (R288): 3 machine, 1 supervisor. The delegation bits of the codes 0x1F to 0x3F are ignored
(R334). -/
def State.trapTarget (s : State) (code : BitVec 6) (int : Bool) : BitVec 2 :=
  if s.cur.pl = 3 ∨ 0x1F ≤ code.toNat then 3
  else if (s.ctxWord s.cur.ctx (if int then 8 else 7)).getLsbD code.toNat then 1 else 3

/-- The entry of the emulation routine bound to a feature bit by the loaded object whose function holds `pc`
(R321). Machine mode runs machine code, which belongs to context 0 and to no loaded object: its traps are machine traps (R288, R331). -/
def State.emulEntry (s : State) (pc : W64) (bit : Nat) : Option W64 :=
  if s.cur.pl = 3 then none else
  (s.loads.find? (fun r => r.ctx == s.cur.ctx &&
    r.funcs.any (fun f => decide (r.base.toNat + f.hdr + 16 ≤ pc.toNat) &&
      decide (pc.toNat < r.base.toNat + f.hdr + 16 + f.len)))).bind fun r =>
    (r.emul.find? (fun e => e.1 == bit)).bind fun e =>
      (r.funcs[e.2]?).map fun f => r.base + BitVec.ofNat 64 (f.hdr + 16)

/-- CAUSE (R39). -/
def mkCause (int late : Bool) (code : BitVec 6) : W64 :=
  (if int then 0x8000000000000000 else 0) ||| (if late then 0x4000000000000000 else 0) ||| code.setWidth 64

/-- TakeTrap of R331, with the bypass of R321: the point is the first word of the unit under way. `late` is the
sequence number of the faulted entry of a late fault. -/
def State.enterTrap (s : State) (e : Exn) (late : Option (BitVec 16)) (int : Bool) : State :=
  let c := s.cur.rewind
  let emul := if e.code = cFEATURE_ABSENT ∧ int = false then s.emulEntry c.pc e.tval2.toNat else none
  let tgt : BitVec 2 := if emul.isSome then 1 else s.trapTarget e.code int
  let old := if tgt = 3 then c.mbank else c.sbank
  let bank : Bank :=
    { cause := mkCause int late.isSome e.code, epc := c.pc, tval := e.tval, tval2 := e.tval2,
      cseq := match late with
        | some q => (c.nextSeq - 1).setWidth 64 <<< 16 ||| q.setWidth 64
        | none => old.cseq,
      srepc := c.repc }
  let entry := match emul with
    | some a => a
    | none => if tgt = 3 then Config.machineEntry else s.ctxWord c.ctx 6
  let t : State := { s with
    clk := s.clk + 8,
    cur := { c with
      mbank := if tgt = 3 then bank else c.mbank,
      sbank := if tgt = 3 then c.sbank else bank,
      repc := c.repc &&& ~~~(0x20000000 : W64),
      status := statusWith c.status tgt false c.pl c.ie,
      pc := entry, blk := none, ccy := c.ccy + 8,
      late := if late.isSome then none else c.late,
      handler := if late.isSome then 1 else if c.handler = 0 then 0 else c.handler + 1,
      taken := (late.map (fun q => ⟨q, e⟩)).or c.taken } }
  t.noteTrap c.ctx c.lcid c.pcid.toNat bank.cause bank.epc e

/-! ### How an instruction ends -/

/-- How a word ends: in sequence; as a prefix of the unit; at a target; at a point of its own that the body has
already set; waiting at a blocking point. -/
inductive Flow where
  | seq | prefix_ | jump (pc : W64) | placed | block (b : Block)
  deriving DecidableEq, Repr

/-- Where a word leaves the pc (R51, R116, R249). -/
def LCore.finish (c : LCore) : Flow → LCore
  | .seq => { c.advance with unit := none, pfx := none }
  | .prefix_ => { c.advance with unit := some (c.unit.getD c.pc) }
  | .jump a => { c with pc := a, unit := none, pfx := none }
  | .placed => { c with unit := none, pfx := none }
  | .block b => { c.rewind with blk := some b }

/-- ILLEGAL at a word (R60). -/
def illegal {α : Type} (i : Instr) : Ex α := trapWith cILLEGAL ((wordOf i).setWidth 64) 0

/-- OPERAND_RANGE with a reason (R335). -/
def rangeTrap {α : Type} (i : Instr) (reason : Nat) : Ex α :=
  trapWith cOPERAND_RANGE ((wordOf i).setWidth 64) (BitVec.ofNat 64 reason)

/-- The lowest clear feature bit the instruction needs (R60). -/
def State.missing (s : State) (i : Instr) : Option Nat :=
  (i.feats.filter (fun b => !s.feat.getLsbD b)).min?

/-- The checks of R60, in order. `rep` has a second ILLEGAL form that its meaning raises (R115). -/
def checkWord (i : Instr) : Ex Unit := do
  let s ← get
  if !i.wf then illegal i
  match s.missing i with
  | some b => trapWith cFEATURE_ABSENT ((wordOf i).setWidth 64) (BitVec.ofNat 64 b)
  | none => pure ()
  if s.cur.pl.toNat < i.priv then trapWith cPRIVILEGE ((wordOf i).setWidth 64) 0

/-- An `immx` before a word without an immediate field has already trapped at the `immx` (R51); a joined immediate
of `n` bits, signed, is read here: the payload above the field (R49). -/
def joined (c : LCore) {n : Nat} (imm : BitVec n) : Int :=
  match c.pfx with
  | none => imm.toInt
  | some p => (p ++ imm).toInt

/-- The joined field as an unsigned number (R48, R49). -/
def joinedNat (c : LCore) {n : Nat} (imm : BitVec n) : Nat :=
  match c.pfx with
  | none => imm.toNat
  | some p => (p ++ imm).toNat

/-- The x registers a word reads or writes in the scalar pipeline, its issue cycles and its latency (R65, R98). -/
structure Timing where
  uses : List (BitVec 5)
  dest : BitVec 5
  issue : Nat
  lat : Nat
  deriving DecidableEq, Repr

/-- One issue cycle, no operand. -/
def Timing.one : Timing := ⟨[], 0, 1, 1⟩

/-- The cycle in which a word issues: the present one, or the one in which its last x register is ready (R65, R98). -/
def LCore.issueAt (c : LCore) (uses : List (BitVec 5)) : Nat :=
  uses.foldl (fun t r => max t (c.xrdy.get r.toFin)) c.ccy

/-- Wait for the x registers a word names. -/
def LCore.await (c : LCore) (uses : List (BitVec 5)) : LCore := { c with ccy := c.issueAt uses }

/-- The state at which a word has waited for the x registers it names (R65, R98). -/
def State.awaited (s : State) (uses : List (BitVec 5)) : State :=
  { s with clk := s.clk + (s.cur.issueAt uses - s.cur.ccy), cur := s.cur.await uses }

/-- The time a word takes: its issue cycles, and its latency noted at its destination (R98). -/
def LCore.spend (c : LCore) (t : Timing) : LCore :=
  { c with
    ccy := c.ccy + t.issue,
    xrdy := if t.dest = 0 ∨ t.lat ≤ t.issue then c.xrdy else c.xrdy.set t.dest.toNat (c.ccy + t.lat) t.dest.isLt }

/-- The state after a word's body has ended: its flow, and the time it took. -/
def State.finish (s : State) (fl : Flow) (t : Timing) : State :=
  { s with cur := (s.cur.spend t).finish fl, clk := s.clk + t.issue }

/-- Return from a trap (R304), but for the reissue of ring entries and the copies, which the caller does. -/
def eretCore (i : Instr) : Ex Bank := do
  let c ← cur
  let bank := if c.pl = 3 then c.mbank else c.sbank
  if c.pl.toNat < c.ppl.toNat then trapWith cPRIVILEGE ((wordOf i).setWidth 64) 0
  modCur (fun c => { c with
    status := statusWith c.status c.ppl c.pie 0 false,
    repc := bank.srepc, pc := bank.epc })
  return bank

/-! ### Code (R105 to R110) -/

/-- The context whose code map a fetch uses: machine code belongs to context 0 (R289). -/
def State.fetchCtx (s : State) : BitVec 16 := if s.cur.pl = 3 then 0 else s.cur.ctx

/-- The functions of a context's code map (R106): those the model is given, and those that software keeps in memory at CMAP (R289). -/
def State.codeFuncs (s : State) (ctx : BitVec 16) : List FuncEntry :=
  s.codeMap.filter (fun f => f.ctx == ctx) ++
    (if s.ctxWord ctx 4 = 0 then [] else (Config.codeMapAt (s.ctxWord ctx 4) s.mem).map (fun f => ⟨ctx, f.1, f.2⟩))

/-- The function of the code map that holds an address (R105, R106). -/
def State.funcAt (s : State) (a : W64) : Option FuncEntry :=
  (s.codeFuncs s.fetchCtx).find? (fun f => decide (f.start.toNat ≤ a.toNat) && decide (a.toNat < f.start.toNat + f.len))

/-- The function of the code map whose payload starts at an address. -/
def State.funcFrom (s : State) (a : W64) : Option FuncEntry := (s.codeFuncs s.fetchCtx).find? (fun f => f.start == a)

/-- The resident function of this core that starts at `start` (R107). -/
def State.residentAt (s : State) (start : W64) : Option Resident :=
  s.ipad.find? (fun r => r.pcid == s.cur.pcid && r.ctx == s.fetchCtx && r.start == start)

def granules (len : Nat) : Nat := (len + 255) / 256

/-- Drop the oldest functions the rule lets go until `need` granules and a directory entry are free (R107, R109). -/
def evictFor (pcid : BitVec 9) (keep : W64) (onlyPref : Bool) (need : Nat) : Nat → List Resident → Option (List Resident)
  | fuel, l =>
    let mine := l.filter (fun r => r.pcid == pcid)
    let used := (mine.map (fun r => granules r.len)).sum
    if used + need ≤ 256 ∧ mine.length < 64 then some l
    else
      match fuel with
      | 0 => none
      | fuel + 1 =>
        match mine.find? (fun r => r.start != keep && (!onlyPref || (r.prefetched && !r.entered))) with
        | none => none
        | some r => evictFor pcid keep onlyPref need fuel (l.filter (fun q => q != r))

/-- The words of a payload, read as an instruction fetch (R108, R294). -/
def fetchWords (a : Nat) : Nat → Ex (List W32)
  | 0 => pure []
  | n + 1 => do
    let s ← get
    let l ← translateIn s.mg.ctxbase (s.ctxNamed s.fetchCtx) s.fetchCtx a accFetch 1 (s.cur.pl == 0)
      (BitVec.ofNat 64 a)
    let w ← locRead l 4 (BitVec.ofNat 64 a)
    let r ← fetchWords (a + 4) n
    return BitVec.ofNat 32 w :: r

/-- Copy a function into the instruction pad (R108, R109); oldest first in the list. -/
def copyIn (f : FuncEntry) (pref : Bool) : Ex Unit := do
  let ws ← fetchWords f.start.toNat (f.len / 4)
  modify fun s =>
    let here := ((s.funcAt s.cur.pc).map (·.start)).getD 0
    match evictFor s.cur.pcid here pref (granules f.len) 64 s.ipad with
    | none => s
    | some l => { s with ipad := l ++ [⟨s.cur.pcid, s.fetchCtx, f.start, f.len, ws, pref, !pref⟩] }

/-- A prefetch copy-in never traps: one that fails is abandoned (R110). -/
def prefetchIn (f : FuncEntry) : Ex Unit := do
  let s ← get
  if (s.residentAt f.start).isSome then pure ()
  else
    match copyIn f true s with
    | .ok _ s' => set s'
    | .error e t => set ((s.knowing t).memError 3 s.cur.ctx s.cur.lcid s.cur.pcid.toNat e)

/-- The load record and function record of a payload start (R311, R323). -/
def State.funcRecAt (s : State) (start : W64) : Option (LoadRec × FuncRec) :=
  (s.loads.filter (fun r => r.ctx == s.fetchCtx)).findSome? fun r =>
    (r.funcs.find? (fun f => r.base.toNat + f.hdr + 16 == start.toNat)).map (fun f => (r, f))

/-- The functions that the prefetcher starts, from a list of payload starts: in order, those that are mapped and not resident, four at
most (R110). -/
def State.toPrefetch (s : State) (l : List W64) : List FuncEntry :=
  ((l.filter (fun a => (s.residentAt a).isNone)).filterMap s.funcFrom).take 4

def prefetchAll : List FuncEntry → Ex Unit
  | [] => pure ()
  | f :: l => do
    prefetchIn f
    prefetchAll l

/-- The successors of an entered function are prefetched (R110). -/
def prefetchSucc (start : W64) : Ex Unit := do
  let s ← get
  match s.funcRecAt start with
  | none => pure ()
  | some (r, f) =>
    prefetchAll (s.toPrefetch ((f.succ.take 8).filterMap (fun k => (r.funcs[k]?).map (fun g => r.base + BitVec.ofNat 64 (g.hdr + 16)))))

/-- Resolve a target and make its function resident (R106, R108); TVAL holds `rep` for reason 4. -/
def enterCode (tgt : W64) : Ex Unit := do
  let s ← get
  if tgt.toNat % 4 ≠ 0 then trapWith cCODE_TARGET tgt 1
  match s.funcAt tgt with
  | none => trapWith cCODE_TARGET tgt 2
  | some f =>
    if (s.residentAt f.start).isNone then copyIn f false
    modify fun s => { s with ipad := s.ipad.map (fun r =>
      if r.pcid == s.cur.pcid && r.start == f.start then { r with entered := true } else r) }
    if s.funcAt s.cur.pc != some f then prefetchSucc f.start

/-- The word at an address of a resident function (R107). -/
def State.wordAt (s : State) (a : W64) : Option W32 :=
  (s.funcAt a).bind fun f => (s.residentAt f.start).bind fun r => r.words[(a.toNat - f.start.toNat) / 4]?

end Sys2Proof.Machine
end

