-- ==== Sys2Proof/Machine/Objects.lean ====
section
/-! DEFINITION. Objects and the janitor: the objects of a pad, pins and roots (R195), placement and collection
(R184, R196), promotion (R190), touches (R67, R185), release and acquire (R192, R204). -/

namespace Sys2Proof.Machine

open Host (Cell)

/-! ### Objects of a pad -/

def roundUp (a n : Nat) : Nat := (n + a - 1) / a * a

/-- The extent of an object (R25). -/
def extent (w0 : W64) : Nat := roundUp 16 (16 + (hdrLen w0).toNat)

def Pad.word (p : Pad) (off : Nat) : W64 := BitVec.ofNat 64 (Mem.readN p.mem off 8)
def Pad.setWord (p : Pad) (off : Nat) (w : W64) : Pad := { p with mem := Mem.writeN p.mem off 8 w.toNat }

/-- Offsets of the objects from `off` up to the bump pointer: header after header, past the extents that hold none. -/
def Pad.walk (p : Pad) : Nat → Nat → List Nat
  | 0, _ => []
  | fuel + 1, off =>
    if p.bump ≤ off then []
    else
      match p.gaps.find? (fun g => g.1 == off) with
      | some g => p.walk fuel (off + max 16 g.2)
      | none => off :: p.walk fuel (off + extent (p.word off))

/-- The objects of a pad, in increasing offset; those a collection kept above the bump pointer come last. -/
def Pad.objects (p : Pad) : List Nat :=
  p.walk (p.bump / 16) 0x10 ++ (p.kept.map Prod.fst).filter (fun o => decide (p.bump ≤ o))

/-- The 8-byte slots of a reference object that are not null, as (offset of the slot, pointer) (R180). -/
def Pad.slots (p : Pad) (off : Nat) : List (Nat × W64) :=
  let w0 := p.word off
  if hdrKind w0 = 1 then
    ((Mem.range p.mem (off + 16) ((hdrLen w0).toNat / 8 * 8)).map (fun c => c.1 / 8)).dedup.map
      (fun k => (off + 16 + 8 * k, p.word (off + 16 + 8 * k)))
  else []

/-- The pointers that an object of a pad holds: its slots, and CANON of a copy. -/
def Pad.refs (p : Pad) (o : Nat) : List W64 := (p.slots o).map Prod.snd ++ if hdrC (p.word o) then [p.word (o + 8)] else []

/-- The pad of a nearer level lies under a farther one: the cores of a cluster, the pads of the die (R15). -/
def PadId.under : PadId → PadId → Bool
  | .core n, .core m => n == m
  | .core n, .cluster m => n / 16 == m
  | .cluster n, .cluster m => n == m
  | _, .die => true
  | _, _ => false

def PadId.lvl : PadId → Nat
  | .core _ => 0
  | .cluster _ => 1
  | .die => 2

/-- Every logical core of the die that is loaded. -/
def State.allCores (s : State) : List LCore := s.cur :: s.others

def State.mapCores (s : State) (f : LCore → LCore) : State := { s with cur := f s.cur, others := s.others.map f }

/-- The logical core reaches the pad (R15). -/
def LCore.reaches (c : LCore) (id : PadId) : Bool := c.padId id.lvl == id

/-! ### Tensor identifier entries (R144, R145) -/

/-- Where the entry of a TID stands (R144, R289). -/
def tidAddr (s : State) (ctx : BitVec 16) (tid : BitVec 8) : Nat := (s.ctxWord ctx 5).toNat + 64 * tid.toNat
def State.tidEntry (s : State) (ctx : BitVec 16) (tid : BitVec 8) : BitVec 512 :=
  BitVec.ofNat 512 (Mem.readN s.mem (tidAddr s ctx tid) 64)
/-- Every entry of a context's table reads zero when the context is created, on whatever memory its TIDT names: the die makes the table zero
when it first reads the entry of a context that it has not known since the last reset, or since an `sfence` found its entry not valid (R144, R289;
DESIGN CHOICE, log entry 91: no instruction creates a context). -/
def State.createCtx (s : State) (ctx : BitVec 16) : State :=
  if s.created.contains ctx || !s.ctxValid ctx then s
  else { s.physZero (s.ctxWord ctx 5).toNat 16384 with created := ctx :: s.created }
/-- The entry can be read (R367, R373). -/
def State.tidOk (s : State) (ctx : BitVec 16) (tid : BitVec 8) : Bool := s.physOk (tidAddr s ctx tid) 64
def State.setTidEntry (s : State) (ctx : BitVec 16) (tid : BitVec 8) (e : BitVec 512) : State :=
  s.physStore (tidAddr s ctx tid) 64 e.toNat
/-- The whole table can be read (R367, R373). -/
def State.tidsOk (s : State) (ctx : BitVec 16) : Bool := s.physOk (tidAddr s ctx 0) 16384

/-- DATA, SCALE and SOS of an entry. -/
def entPtrs (e : BitVec 512) : List W64 := [e.extractLsb' 0 64, e.extractLsb' 64 64, e.extractLsb' 128 64]

/-! ### Pins (R195) -/

/-- A transfer or a gather pins; a prefetch does not (R195). -/
def Tag.pins : Tag → List W64
  | .running c => if c.kind = .xfer ∨ c.kind = .xgath then entPtrs c.dstE ++ entPtrs c.srcE ++ entPtrs c.idxE else []
  | _ => []

/-- A coprocessor instruction pins the object its pointer names and those of its entry (R195). -/
def capturedPins (ptr : W64) (entry : BitVec 512) : List W64 := ptr :: entPtrs entry
def RingEntry.pins (r : RingEntry) : List W64 := if r.state = .complete then [] else capturedPins r.ptr.ptr r.entry

/-- Pinned by stream bindings of a logical core, with the stream register. -/
def LCore.streamPins (c : LCore) : List (W64 × Nat) :=
  (c.st.toList.zipIdx).flatMap (fun s => if s.1.bound then (entPtrs s.1.entry).map (fun p => (p, s.2)) else [])

/-- Pinned by copies and by coprocessor instructions of a logical core. -/
def LCore.workPins (c : LCore) : List W64 :=
  c.tags.toList.flatMap Tag.pins ++ c.ring.flatMap RingEntry.pins

/-- The pointers that in-flight work of a logical core pins. -/
def LCore.pins (c : LCore) : List W64 := c.workPins ++ c.streamPins.map Prod.fst ++ c.cxpins

/-! ### Reachability (R195) -/

/-- The pointers that a logical core's registers, saved registers and captured values hold. -/
def LCore.pointers (c : LCore) : List W64 :=
  c.root :: c.saveP13.ptr :: c.saveP15.ptr :: c.p.toList.map (·.ptr) ++ c.ring.map (fun r => r.ptr.ptr)

/-- Offsets that a list of pointers names in the pads of a level. -/
def offsetsAt (lvl : Nat) (l : List W64) : List Nat :=
  (l.filter (fun p => ptrLvl p = lvl && p != 0)).map ptrAddr

/-- Close a set of offsets of one pad under its reference objects; `fuel` bounds the rounds. -/
def Pad.close (p : Pad) (objs : List Nat) : Nat → List Nat → List Nat
  | 0, seen => seen
  | fuel + 1, seen =>
    let more := (seen.flatMap (fun o => if objs.contains o then (p.slots o).map Prod.snd else [])).filterMap
      (fun q => if ptrLvl q = p.id.lvl ∧ q ≠ 0 then some (ptrAddr q) else none)
    let new := (more.filter (fun o => !seen.contains o)).dedup
    if new == [] then seen else p.close objs fuel (seen ++ new)

/-- The logical cores that reach a pad and to whose context it belongs: for the agents of another context than the die pad's owner, level 2 is
absent (R15, R401). -/
def State.holders (s : State) (id : PadId) : List LCore :=
  s.allCores.filter (fun c => c.reaches id && (id != .die || (s.pad .die).owner == some c.ctx))

/-- The context that a pad belongs to: a core's pad to that of the logical cores on it (R14, R181, R401). -/
def State.padCtx (s : State) (q : Pad) : Option (BitVec 16) :=
  match q.id with
  | .core n => (s.allCores.find? (fun c => c.pcid.toNat == n && c.run != .idle)).map LCore.ctx
  | _ => q.owner

/-- A pad lies under another one, and its context reaches that (R15, R401). -/
def State.under (s : State) (id : PadId) (q : Pad) : Bool :=
  q.id.under id && (id != .die || q.id == .die || s.padCtx q == (s.pad .die).owner)

/-- The objects of a pad that in-place images hold, beside `more`: all that the registers, copy indices and captured pointers of their cores
and the objects of their core pads reach (R354); in the die pad, the images of its owner's context (R401). -/
def State.heldFrom (s : State) (id : PadId) (more : List W64) : List Nat :=
  let p := s.pad id
  let objs := p.objects
  let ptrs := (s.images.filter (fun i => id != .die || (s.pad .die).owner == some i.ctx)).flatMap (fun i =>
    ((i.cores.filter (·.reaches id)).flatMap (fun c => c.pointers ++ c.pins ++ c.cidx.flatMap (fun e => [e.1, e.2]))) ++
    (i.pads.filter (fun q => q.id.under id)).flatMap (fun q => q.objects.flatMap q.refs))
  p.close objs (objs.length + 1) ((offsetsAt id.lvl (ptrs ++ more)).filter (fun o => objs.contains o))

/-- The objects of a cluster or die pad that in-place images hold; those of the cluster pads reach into the die pad (R354). -/
def State.heldIn (s : State) (id : PadId) : List Nat :=
  if s.images == [] then []
  else
    match id with
    | .core _ => []
    | .cluster _ => s.heldFrom id []
    | .die =>
      let near := s.pads.flatMap (fun q => if q.id.lvl = 1 && s.under .die q then (s.heldFrom q.id []).flatMap q.refs else [])
      s.heldFrom .die near

/-- The offsets of a pad that in-flight work pins (R195). -/
def State.workPinned (s : State) (id : PadId) : List Nat := offsetsAt id.lvl ((s.holders id).flatMap (·.pins))

/-- The offsets of a pad whose objects stay: pinned, or held by an in-place image (R195, R354). -/
def State.pinned (s : State) (id : PadId) : List Nat := s.workPinned id ++ s.heldIn id

/-- There is room for the pins of a start: no pad holds more than 128 pinned objects (R195). -/
def State.pinRoom (s : State) (new : List W64) : Bool :=
  [0, 1, 2].all (fun lvl =>
    let more := offsetsAt lvl new
    more == [] || (lvl == 2 && !s.ownsDie) || decide ((more ++ s.pinned (s.cur.padId lvl)).dedup.length ≤ 128))

/-- The pad of a level that the cores of a pad reach. -/
def PadId.reach (id : PadId) (lvl : Nat) : PadId :=
  match id with
  | .core n => if lvl = 0 then .core n else if lvl = 1 then .cluster (n / 16) else .die
  | .cluster n => if lvl ≤ 1 then .cluster n else .die
  | .die => .die

/-- A pad pointer as the die names the object: the pad's number stands above the offset. -/
def padKey (id : PadId) (p : W64) : W64 :=
  match id with
  | .core n => p + BitVec.ofNat 64 (n * 2 ^ 32)
  | .cluster n => p + BitVec.ofNat 64 (n * 2 ^ 32)
  | .die => p

/-- The object of this die that a pointer of level 0 to 3 names, seen from a pad. -/
def State.homeFrom (s : State) (id : PadId) (ctx : BitVec 16) (p : W64) : HomeObj :=
  ⟨s.die, ctx, if ptrLvl p ≤ 2 then padKey (id.reach (ptrLvl p)) p else p⟩

/-- The object that a canonical pointer names, at its home: through a window, the exporter's (R204, R298). -/
def State.homeOf (s : State) (p : W64) : HomeObj :=
  if ptrLvl p = 4 then
    let a := ptrAddr p
    let slot := a / 2 ^ 40 % 4096
    let base := bits (s.ctxWord s.cur.ctx 9).toNat 63 12 * 4096 + 32 * slot
    let i0 := s.tableWord s.cur.ctx (4 * 2 ^ 61 + slot * 2 ^ 40) base
    let d := bits i0.toNat 35 32
    let eb := (s.dieTables d).expbase.toNat + 32 * (bits i0.toNat 11 0)
    if bits i0.toNat 43 36 = s.pkg.toNat then
      ⟨BitVec.ofNat 4 d, BitVec.ofNat 16 (bits (s.exportWord eb).toNat 47 32),
        mkPtr 3 ((s.exportWord (eb + 16)).toNat + a % 2 ^ 40)⟩
    else ⟨15, s.cur.ctx, p⟩
  else s.homeFrom (s.cur.padId 0) s.cur.ctx p

/-- The header of a pinned object, where the part marks it: in a pad, or at levels 3 and 4 in memory that the pointer reaches, host memory too;
a sealed frame is never written, memory of another package is outside the part, and for an agent of another context than its owner the die pad is
absent (R25, R195, R294, R401). -/
def State.pinPlace (s : State) (c : LCore) (p : W64) : Option PinSpot :=
  if p = 0 ∨ ptrMalformed p = true then none
  else if ptrLvl p = 2 ∧ (s.pad .die).owner ≠ some c.ctx then none
  else if ptrLvl p ≤ 2 then some ⟨.pad (c.padId (ptrLvl p)) (ptrAddr p), 0, 0, 0⟩
  else
    let s1 := { s with cur := { c with status := c.status ||| 1 }, silent := false }
    match locateN p 0 8 accLoad 0 s1 with
    | .error _ _ => none
    | .ok .away _ => none
    | .ok l t =>
      let h := s1.homeOf p
      let sealed := match l with
        | .phys false _ pa => s.sealedAt pa
        | _ => false
      match locRead l 8 p t with
      | .ok w _ =>
        if t.frameOwner == s.frameOwner && !sealed && decide (hdrKind (BitVec.ofNat 64 w) < 4) then
          some ⟨l, h.die.toNat, h.ctx, ptrAddr h.ptr⟩ else none
      | .error _ _ => none

def State.pinPlaces (s : State) : List PinSpot := (s.allCores.flatMap (fun c => c.pins.filterMap (s.pinPlace c))).dedup

/-- The dirty-page bit of an address is set for a write of the part itself, at a physical address; the write is performed only where that
succeeds (R297). Where the address still names that place, its entry gets D (R292). -/
def State.dirtied (s : State) (d : Nat) (ctx : BitVec 16) (va pa : Nat) : Option State :=
  let base := (s.dieTables d).ctxbase
  let named := s.ctxNamedOn d ctx
  let s1 := match useLeaf d base named ctx va accOwn false false (BitVec.ofNat 64 va) (pageFault (BitVec.ofNat 64 va) accOwn) s with
    | .ok (_, at_) t => if at_ = pa then t else s
    | .error _ _ => s
  match setDirtyBit d base named ctx va s1 with
  | .ok _ t => some t
  | .error _ _ => none

/-- Set or clear P of a header; offsets of a pad that hold no object are left alone. -/
def State.markP (on : Bool) (s : State) (k : PinSpot) : State :=
  let put := fun (w : W64) => if on then w ||| 0x400000000000 else w &&& ~~~(0x400000000000 : W64)
  match k.loc with
  | .pad id off =>
    match s.pads.find? (fun p => p.id == id) with
    | some p =>
      if p.objects.contains off && put (p.word off) != p.word off then s.setPad (p.setWord off (put (p.word off))) else s
    | none => s
  | .phys host _ pa =>
    let w := if host then BitVec.ofNat 64 (Mem.readN s.hostMem pa 8) else s.physWord pa
    if put w == w then s
    else
      match s.dirtied k.die k.ctx k.va pa with
      | some t => if host then { t with hostMem := Mem.writeN t.hostMem pa 8 (put w).toNat } else t.physStore pa 8 (put w).toNat
      | none => s
  | .away => s

/-- P reads 1 in the header of an object while at least one pin is held (R195). -/
def State.syncPins (s : State) : State :=
  let now := s.pinPlaces
  if now == [] && s.marked == [] then s
  else
    let s1 := (s.marked.filter (fun l => !now.contains l)).foldl (State.markP false) s
    { now.foldl (State.markP true) s1 with marked := now }

/-- Offsets in `id` that the roots name. The canonical object of a copy is one: a register or the copy index reaches it through the copy
(R196, R198). -/
def State.rootsOf (s : State) (id : PadId) (ctx : BitVec 16) : List Nat :=
  let regs := (s.holders id).flatMap (·.pointers)
  let tids := (List.range 256).flatMap (fun t => entPtrs (s.tidEntry ctx (BitVec.ofNat 8 t)))
  let near := (s.pads.filter (fun q => q.id != id && s.under id q)).flatMap (fun q => q.objects.flatMap q.refs)
  offsetsAt id.lvl (regs ++ tids ++ near) ++ s.pinned id

/-- Live objects of a pad. -/
def State.liveIn (s : State) (id : PadId) (ctx : BitVec 16) : List Nat :=
  let p := s.pad id
  let objs := p.objects
  let l := p.close objs objs.length (s.rootsOf id ctx).dedup
  objs.filter (fun o => l.contains o)

/-- Of the objects of a pad, those that stay for some of them, `pin`: these and the live ones that reach one (R195). -/
def Pad.keptFor (p : Pad) (live pin : List Nat) : List Nat :=
  p.objects.filter (fun o => pin.contains o ||
    (live.contains o && (p.close p.objects p.objects.length [o]).any (fun q => pin.contains q)))

/-- Kept objects: the pinned ones and the live ones that reach one (R195), and those that in-place images hold (R354). -/
def State.keptIn (s : State) (id : PadId) (live : List Nat) : List Nat := (s.pad id).keptFor live (s.pinned id)

/-- A place that a collection of a pad reads and that has failed: a header, or the payload of a reference object, of the pad or of a pad under
it (R367). -/
def State.scanBad (s : State) (id : PadId) : Option W64 :=
  if s.badPads == [] then none
  else
    (s.pads.filter (s.under id)).findSome? (fun q =>
      (q.objects.find? (fun o => s.padBad q.id o 16 ||
        (hdrKind (q.word o) == 1 && s.padBad q.id o (16 + (hdrLen (q.word o)).toNat)))).map (fun o => mkPtr q.id.lvl o))

/-! ### Forwarding (R190 step 6) -/

def fwd (m : List (W64 × W64)) (p : W64) : W64 :=
  match m.find? (fun e => e.1 == p) with
  | some e => e.2
  | none => p

def PtrReg.forward (m : List (W64 × W64)) (p : PtrReg) : PtrReg := { p with ptr := fwd m p.ptr }

def forwardEntry (m : List (W64 × W64)) (e : BitVec 512) : BitVec 512 :=
  (e.extractLsb' 192 320) ++ (fwd m (e.extractLsb' 128 64)) ++ (fwd m (e.extractLsb' 64 64)) ++
    (fwd m (e.extractLsb' 0 64))

/-- The pointers of a logical core: registers, saved registers, ROOT, keys of the copy index, and what its streams and ring entries have
captured. -/
def LCore.forward (m : List (W64 × W64)) (c : LCore) : LCore :=
  { c with p := c.p.map (PtrReg.forward m), root := fwd m c.root,
           saveP13 := c.saveP13.forward m, saveP15 := c.saveP15.forward m,
           cidx := c.cidx.map (fun e => (fwd m e.1, e.2)),
           st := c.st.map (fun x => if x.bound then { x with entry := forwardEntry m x.entry } else x),
           ring := c.ring.map (fun r => { r with ptr := r.ptr.forward m,
                                                 entry := forwardEntry m r.entry }) }

/-- Pointers held in a pad's objects: reference slots, and CANON of copies. -/
def Pad.forward (m : List (W64 × W64)) (p : Pad) : Pad :=
  p.objects.foldl (fun q o =>
    let q1 := (p.slots o).foldl (fun q s => if fwd m s.2 != s.2 then q.setWord s.1 (fwd m s.2) else q) q
    if hdrC (p.word o) && fwd m (p.word (o + 8)) != p.word (o + 8) then
      q1.setWord (o + 8) (fwd m (p.word (o + 8))) else q1) p

/-- Rewrite every pointer to an old place in pad `id`, wherever R190 step 6 looks. -/
def State.forwardAll (s : State) (id : PadId) (ctx : BitVec 16) (m : List (W64 × W64)) : State :=
  let s1 : State := s.mapCores (fun c => if c.reaches id && (id != .die || (s.pad .die).owner == some c.ctx) then c.forward m else c)
  let s2 : State := { s1 with pads := s1.pads.map (fun p => if s.under id p then p.forward m else p) }
  let s3 : State := { s2 with stamps := s2.stamps.map (fun e =>
    match m.find? (fun x => s.homeFrom id ctx x.1 == e.1) with
    | some x => (s.homeFrom id ctx x.2, e.2)
    | none => e) }
  (List.range 256).foldl (fun s t =>
    let e := s.tidEntry ctx (BitVec.ofNat 8 t)
    if (entPtrs e).any (fun p => fwd m p != p) then s.setTidEntry ctx (BitVec.ofNat 8 t) (forwardEntry m e) else s) s3

/-! ### Write-back -/

/-- All or nothing: a trap leaves the state as it was before; that a write-back failed, that a request
has timed out, and where an access has failed is not forgotten (R367, R284, R370). -/
def allOrNothing {α : Type} (m : Ex α) : Ex α := fun s =>
  match m s with
  | .ok a s' => .ok a s'
  | .error e s' => .error e { s with wbFailed := s'.wbFailed, silent := s'.silent, expired := s'.expired, failAt := s'.failAt }

/-- Swallow the traps that say a level has no room. -/
def roomOr {α : Type} (d : α) (m : Ex α) : Ex α := fun s =>
  match m s with
  | .ok a s' => .ok a s'
  | .error e s' => if e.code = cPAD_EXHAUSTED ∨ e.code = cHEAP_EXHAUSTED then .ok d s' else .error e s'

/-- The dirty bytes of the copy at `off`, as offsets in its payload (R185). -/
def Pad.dirtyOf (p : Pad) (off : Nat) : List Nat :=
  let n := (hdrLen (p.word off)).toNat
  (p.dirty.filter (fun d => decide (off + 16 ≤ d) && decide (d < off + 16 + n))).map (fun d => d - (off + 16))

/-- The units of w bytes that a list of bytes of a page covers whole, by their number, given the place of the page's first byte (R241, R367). -/
def wholeUnits (w base : Nat) (bs : List (Nat × Byte)) : List Nat :=
  let ls := bs.map (fun b => (base + b.1) / w)
  ls.dedup.filter (fun l => decide (w ≤ ls.count l))

/-- The state in which listed bytes are stored: sectors that they cover whole, or lines in a page with compressed lines, get new contents, and
retired lines that they cover whole (R367, R369). -/
def State.healBytes (s : State) (cmp : Bool) (base : Nat) (bs : List (Nat × Byte)) : State :=
  if s.badSectors == [] && s.retiredLines == [] then s
  else
    let lines := wholeUnits 128 base bs
    let sectors := wholeUnits 32 base bs
    { s with badSectors := s.badSectors.filter (fun k => !(if cmp then lines.contains (k / 4) else sectors.contains k)),
             retiredLines := s.retiredLines.filter (fun l => !lines.contains l) }

/-- Store listed bytes of one 64 KiB page of an object at their place, as one burst: `base` is the place of the page's first byte as the list
counts. What they cover whole is written with new contents where it had failed; every other failed sector that they meet fails them (R367,
R369). A line's tag follows its final bytes (R241). -/
def storeBytes (l : Loc) (bs : List (Nat × Byte)) (va : W64) : Ex Unit := do
  let put := fun (base : Nat) (m : List Cell) => bs.foldl (fun m b => Mem.write m (base + b.1) b.2) m
  match l with
  | .pad id base =>
    let s ← get
    let sectors := wholeUnits 32 base bs
    if bs.any (fun b => !sectors.contains ((base + b.1) / 32) && s.padBad id (base + b.1) 1) then failMem va base
    else
      let s1 := { s with badPads := s.badPads.filter (fun k => !(k.1 == id && sectors.contains k.2)) }
      set (s1.setPad { s1.pad id with mem := put base (s1.pad id).mem })
  | .phys true _ base => modify (fun s => { s with hostMem := put base s.hostMem })
  | .phys false cmp base =>
    crossFar [base] va
    let s ← get
    if s.isDram base then
      let s1 := s.healBytes cmp base bs
      if bs.any (fun b => s1.badIn cmp (base + b.1) 1) then failMem va base
      else
        let s2 := { s1 with mem := put base s1.mem }
        let whole := wholeUnits 128 base bs
        let met := (bs.map (fun b => (base + b.1) / 128)).dedup
        set (if cmp then met.foldl (fun s x => s.retagLine (whole.contains x) x) s2 else s2)
    else
      for b in bs do locWrite (.phys false cmp (base + b.1)) 1 b.2.toNat va
  | .away => pure ()

/-- Store listed bytes at the home of an object, page by page, as one whole (R193): each page counts the 64-byte units that they meet (R220).
Where the home is a pad object that is itself a copy's canonical, its bytes change in the pad. -/
def mergePages (canon : W64) (bs : List (Nat × Byte)) : List Nat → Ex Unit
  | [] => pure ()
  | pg :: l => do
    let a0 := ptrAddr canon + 16
    let here := bs.filter (fun b => decide ((a0 + b.1) / 65536 = pg))
    match (here.map Prod.fst).min?, (here.map Prod.fst).max? with
    | some lo, some hi =>
      let n := ((here.map (fun b => (a0 + b.1) / 64)).dedup).length
      let loc ← locateN canon (16 + lo) (hi + 1 - lo) accStore n
      storeBytes loc (here.map (fun b => (b.1 - lo, b.2))) (repAddr canon (16 + lo))
    | _, _ => pure ()
    mergePages canon bs l

def mergeBytes (canon : W64) (bs : List (Nat × Byte)) : Ex Unit :=
  mergePages canon bs ((bs.map (fun b => (ptrAddr canon + 16 + b.1) / 65536)).dedup)

/-- The dirty bytes with their values. -/
def Pad.dirtyBytes (p : Pad) (off : Nat) : List (Nat × Byte) :=
  (p.dirtyOf off).map (fun i => (i, Mem.read p.mem (off + 16 + i)))

/-- Clear the dirty mask and D of a copy. -/
def Pad.clean (p : Pad) (off : Nat) : Pad :=
  let n := (hdrLen (p.word off)).toNat
  { p.setWord off (p.word off &&& ~~~(0x100000000000 : W64)) with
    dirty := p.dirty.filter (fun d => !(decide (off + 16 ≤ d) && decide (d < off + 16 + n))) }

/-- Bytes of a pad that the part reads itself; a failed sector fails with the address reported (R367). -/
def padReadable (id : PadId) (off n : Nat) (rep : W64) : Ex Unit := do
  if (← get).padBad id off n then failMem rep off

/-- The header and the dirty bytes of a copy, which a merge reads; a failed sector of them fails with the address reported (R367). -/
def dirtyReadable (id : PadId) (off : Nat) (rep : W64) : Ex Unit := do
  let s ← get
  if s.padBad id off 16 || ((s.pad id).dirtyOf off).any (fun i => s.padBad id (off + 16 + i) 1) then failMem rep off

/-- WriteBack: the dirty bytes of a copy merged at the home, with no release (R193, R196). One that meets a failed sector reports the home
address, and leaves the copy as it was (R367). -/
def writeBack (id : PadId) (off : Nat) : Ex Unit := do
  let p := (← get).pad id
  if hdrC (p.word off) && hdrD (p.word off) then
    let canon := p.word (off + 8)
    fun s =>
      match (do dirtyReadable id off canon; mergeBytes canon (p.dirtyBytes off) : Ex Unit) s with
      | .ok _ s' => .ok () s'
      | .error e s' =>
        let lost := e.code == cMEM_UNCORRECTABLE
        .error e { s with
          wbFailed := lost
          stands := lost || s.stands
          silent := s'.silent
          expired := s'.expired
          failAt := s'.failAt }
    modify (fun s => s.setPad ((s.pad id).clean off))

def writeBackAll (id : PadId) : List Nat → Ex Unit
  | [] => pure ()
  | o :: l => do writeBack id o; writeBackAll id l

/-! ### Placement (R184) -/

/-- Advance a bump pointer past kept extents it would overlap (R195): the place, and the gaps passed over. -/
def skipKept (kept : List (Nat × Nat)) (size : Nat) : Nat → Nat → List (Nat × Nat) → Nat × List (Nat × Nat)
  | 0, b, g => (b, g)
  | fuel + 1, b, g =>
    match kept.find? (fun k => decide (b ≤ k.1) && decide (k.1 < b + size)) with
    | some k => skipKept kept size fuel (k.1 + k.2) (if b < k.1 then g ++ [(b, k.1 - b)] else g)
    | none => (b, g)

/-- Take `size` bytes of a pad, if it has them. The space reads as zeros. -/
def State.bumpPad (s : State) (id : PadId) (size : Nat) : Option (Nat × State) :=
  let p := s.pad id
  let sz := roundUp 16 size
  let (b, g) := skipKept p.kept sz (p.kept.length + 1) p.bump []
  if b + sz ≤ padSize id.lvl then
    some (b, (s.healPad id b sz).setPad { p with
      bump := b + sz, gaps := p.gaps ++ g,
      kept := p.kept.filter (fun k => decide (b ≤ k.1)),
      mem := Mem.fill p.mem b sz [],
      dirty := p.dirty.filter (fun d => decide (d < b) || decide (b + sz ≤ d)) })
  else none

/-- Level 3: advance HNEXT, then zero the extent (R181, R184 steps 5 and 6). A context's entry that cannot be read fails it (R367, R373). -/
def heapPlace (size : Nat) : Ex W64 := do
  let s ← get
  let c := s.cur.ctx
  if s.ctxReadable c = false then failMem (BitVec.ofNat 64 (s.ctxPlace c 10)) (s.ctxPlace c 10)
  let a := (s.ctxWord c 10).toNat
  let lim := (s.ctxWord c 2).toNat
  let sz := roundUp 16 size
  if lim < a + sz then trapWith cHEAP_EXHAUSTED (BitVec.ofNat 64 size) (BitVec.ofNat 64 lim)
  set (s.setCtxWord c 10 (BitVec.ofNat 64 (a + sz)))
  let p := mkPtr 3 a
  fillObj p 0 sz [] accStore
  return p

/-- The pad of a level belongs to the running context (R14, R401). -/
def State.owned (s : State) (lvl : Nat) : Bool := lvl != 2 || s.ownsDie

/-- Header word 0 of a new object (R183). -/
def mkHdr (ctx : BitVec 16) (kind len : Nat) : W64 :=
  BitVec.ofNat 64 (len % 2 ^ 40 + kind % 16 * 2 ^ 40 + ctx.toNat * 2 ^ 48)

/-- The closure of pointers below level `h`, depth first, slots in increasing offset: objects of pads, the die pad's only for its owner (R190
step 1, R401). `todo` is the stack. -/
def State.closure (s : State) (h : Nat) : Nat → List W64 → List W64 → List W64
  | 0, _, seen => seen
  | _ + 1, [], seen => seen
  | fuel + 1, v :: todo, seen =>
    if v = 0 || decide (h ≤ ptrLvl v) || seen.contains v || (ptrLvl v == 2 && !s.ownsDie) then s.closure h fuel todo seen
    else
      let id := s.cur.padId (ptrLvl v)
      let next := ((s.pad id).slots (ptrAddr v)).map Prod.snd
      s.closure h fuel (next ++ todo) (seen ++ [v])

/-- A bound on the visits of a closure: objects and slots of the pads. -/
def State.closureFuel (s : State) : Nat :=
  (s.pads.map (fun p => 2 + p.objects.length + (p.objects.map (fun o => (p.slots o).length)).sum)).sum + 2

/-- The extent of the object that a pad pointer of the running logical core names. -/
def State.extentOf (s : State) (v : W64) : Nat := extent ((s.pad (s.cur.padId (ptrLvl v))).word (ptrAddr v))

/-- Reserve space at a level for each object of a list, pinning what is reserved so that a collection it causes keeps it; each reservation
carries a header, so that the pad stays a sequence of objects (R196). -/
def reserveEach (reserve : Nat → Nat → Ex W64) (h : Nat) : List W64 → Ex (List (W64 × W64))
  | [] => pure []
  | v :: l => do
    let s ← get
    let sz := s.extentOf v
    let n ← reserve h sz
    writeObj n 0 8 (mkHdr s.cur.ctx 0 (sz - 16)).toNat accStore
    modCur (fun c => { c with cxpins := n :: c.cxpins })
    let r ← reserveEach reserve h l
    modCur (fun c => { c with cxpins := c.cxpins.erase n })
    return (v, n) :: r

/-- Space at one level for objects and all that they reach at nearer levels, so that no object comes to hold a pointer of a nearer level than its
own (R180). Where `Place` goes on to a farther level than `h` (R184 step 3), all of it is taken there, and what they reach between the two levels
moves with them (DEDUCED, log entry 150); `have` is what is reserved at `h` by then. `check` sees each closure before its space is taken: false
where the move must wait. `rounds` bounds the levels. -/
def reserveUp (reserve : Nat → Nat → Ex W64) (check : List W64 → Ex Bool) :
    Nat → Nat → List W64 → List (W64 × W64) → Ex (Option (List (W64 × W64)))
  | 0, _, _, got => return some got
  | rounds + 1, h, roots, got => do
    let s ← get
    let cl := s.closure h s.closureFuel roots []
    if !(← check cl) then return none
    let new ← reserveEach reserve h (cl.filter (fun v => !got.any (fun e => e.1 == v)))
    let all := cl.filterMap (fun v => (got ++ new).find? (fun e => e.1 == v))
    let top := (all.map (fun e => ptrLvl e.2)).foldl max 0
    if top ≤ h then return some all
    let far := all.filter (fun e => ptrLvl e.2 == top)
    modCur (fun c => { c with cxpins := far.map Prod.snd ++ c.cxpins })
    let r ← reserveUp reserve check rounds top roots far
    modCur (fun c => { c with cxpins := far.foldl (fun a e => a.erase e.2) c.cxpins })
    return r

/-- Run with the pins of reservations dropped at the end, however it ends. -/
def unpinned {α : Type} (m : Ex α) : Ex α := fun s =>
  let back := fun (t : State) => t.modCur (fun c => { c with cxpins := s.cur.cxpins })
  match m s with
  | .ok a t => .ok a (back t)
  | .error e t => .error e (back t)

/-- Put an object of a pad at its new place: header word 0 with D and P of the old header cleared, the word 1 given, and the payload. -/
def moveObj (id : PadId) (o : Nat) (n : W64) (w1 : W64) : Ex Unit := do
  let s ← get
  let p := s.pad id
  let w0 := p.word o &&& ~~~(0x500000000000 : W64)
  let len := (hdrLen w0).toNat
  padReadable id o (16 + len) (mkPtr id.lvl o)
  fillObj n 16 len (Mem.range p.mem (o + 16) len) accStore
  writeObj n 0 16 (w0.toNat + w1.toNat * 2 ^ 64) accStore

/-- Rewrite the pointers inside moved objects (R190 step 6, R196). -/
def patchMoved (m : List (W64 × W64)) : List W64 → Ex Unit
  | [] => pure ()
  | n :: l => do
    let w ← readHdr n
    if hdrKind w = 1 then
      for k in List.range ((hdrLen w).toNat / 8) do
        let q ← readObj n (16 + 8 * k) 8 accLoad
        let q' := fwd m (BitVec.ofNat 64 q)
        if q'.toNat ≠ q then writeObj n (16 + 8 * k) 8 q'.toNat accStore
    patchMoved m l

/-- Objects of pads are put at their new places; `home` gives word 1 from the old one. -/
def moveAll (home : W64 → W64) : List (W64 × W64) → Ex Unit
  | [] => pure ()
  | (v, n) :: l => do
    let s ← get
    let id := s.cur.padId (ptrLvl v)
    moveObj id (ptrAddr v) n (home ((s.pad id).word (ptrAddr v + 8)))
    moveAll home l

/-- Pointers to the old places of objects of the pads that the running logical core reaches are rewritten, pad by pad (R190 step 6). -/
def forwardLevels (m : List (W64 × W64)) : Ex Unit := do
  for l in [0, 1, 2] do
    let here := m.filter (fun e => ptrLvl e.1 == l)
    if here != [] then
      modify (fun s => s.forwardAll (s.cur.padId l) s.cur.ctx here)

/-- A collection that the word under way has made, or that a memory error has abandoned, is noted (R184). -/
def noted (lvl : Nat) (m : Ex Unit) : Ex Unit := fun s =>
  let note := fun (t : State) => { t with collected := t.collected ++ [lvl] }
  match m s with
  | .ok a t => .ok a (note t)
  | .error e t => .error e (if e.code = cMEM_UNCORRECTABLE then note t else t)

/-- A collection of a pad may begin: the identifier table and what it scans can be read (R367), and it would keep at most 128 extents for pins,
a limit of the pad (R195); one that would keep more is not made (DESIGN CHOICE, log entry 145). -/
def mayCollect (id : PadId) (live : List Nat) : Ex Unit := do
  let s ← get
  let a := tidAddr s s.cur.ctx 0
  if s.tidsOk s.cur.ctx = false then failMem (BitVec.ofNat 64 a) a
  match s.scanBad id with
  | some p => failMem p (ptrAddr p)
  | none => pure ()
  if 128 < ((s.pad id).keptFor live (s.workPinned id)).length then trapWith cPAD_EXHAUSTED 0 (BitVec.ofNat 64 id.lvl)

/-- What a collection would move out of farther pads than its own is not pinned: a pinned object never moves, and the level beyond then counts as
full (R180, R195; DEDUCED, log entry 150). -/
def nonePinned (id : PadId) (cl : List W64) : Ex Bool := do
  let s ← get
  if cl.any (fun v => decide (id.lvl < ptrLvl v) && (s.pinned (s.cur.padId (ptrLvl v))).contains (ptrAddr v)) then
    trapWith cPAD_EXHAUSTED 0 (BitVec.ofNat 64 (id.lvl + 1))
  return true

/-- Collect of R196 for the pad `id` that the running logical core reaches, with `reserve` for the space at a level and beyond, from `up` on. -/
def collectWith (reserve : Nat → Nat → Ex W64) (up : Nat) (id : PadId) : Ex Unit := noted id.lvl do
  let s ← get
  let ctx := s.cur.ctx
  let live := s.liveIn id ctx
  mayCollect id live
  let kept := s.keptIn id live
  let isCopy := fun (o : Nat) => hdrC ((s.pad id).word o)
  let mv := live.filter (fun o => !kept.contains o && !isCopy o)
  let old := fun (o : Nat) => mkPtr id.lvl o
  let res := ((← unpinned (reserveUp reserve (nonePinned id) 4 up (mv.map old) [])).getD [])
  let copies := (s.pad id).objects.filter (fun o => isCopy o && !kept.contains o)
  writeBackAll id copies
  moveAll (fun w => w) res
  let s ← get
  let p := s.pad id
  let mine := res.filter (fun r => ptrLvl r.1 == id.lvl)
  let fw := copies.map (fun o => (old o, p.word (o + 8))) ++ mine
  let ext := kept.map (fun o => (o, extent (p.word o)))
  let keepAt := fun (a : Nat) => ext.any (fun k => decide (k.1 ≤ a) && decide (a < k.1 + k.2))
  let p' := { p with mem := p.mem.filter (fun c => keepAt c.1), dirty := p.dirty.filter keepAt,
                     bump := 0x10, gaps := [], kept := ext }
  let s1 := (s.setPad p').mapCores (fun c =>
    if c.reaches id then { c with cidx := c.cidx.filter (fun e => !copies.contains (ptrAddr e.2) ||
      ptrLvl e.2 != id.lvl) } else c)
  let s2 := s1.forwardAll id ctx fw
  let unit := match id with
    | .core n => n
    | .cluster n => 0x160 + n
    | .die => 0x152
  set s2
  forwardLevels (res.filter (fun r => ptrLvl r.1 != id.lvl))
  patchMoved (fw ++ res) (res.map Prod.snd)
  let s2 ← get
  set ({ s2 with free := s2.free + 1 }.trace 5 ctx s.cur.lcid unit (BitVec.ofNat 64 id.lvl) (Config.freeWord s2.free))

/-- `Place(l0, size)` from level `l` on; `fuel` is the number of pad levels left (R184). -/
def place (l0 size : Nat) : Nat → Nat → Ex W64
  | 0, l =>
    if 3 ≤ l then heapPlace size
    else trapWith cPAD_EXHAUSTED (BitVec.ofNat 64 size) (BitVec.ofNat 64 l0)
  | fuel + 1, l => do
    if 3 ≤ l then heapPlace size
    else
      let s ← get
      let id := s.cur.padId l
      let next : Ex W64 :=
        if l = 2 then trapWith cPAD_EXHAUSTED (BitVec.ofNat 64 size) (BitVec.ofNat 64 l0)
        else place l0 size fuel (l + 1)
      if s.owned l then
        match s.bumpPad id size with
        | some (b, s') => set s'; return mkPtr l b
        | none =>
          let up := if l + 1 = 2 && !s.ownsDie then 3 else l + 1
          roomOr () (collectWith (fun l sz => place l sz fuel l) up id)
          let s ← get
          match s.bumpPad id size with
          | some (b, s') => set s'; return mkPtr l b
          | none => next
      else next

/-- `Place(L, size)`; the collections of one that traps stay noted (R184). -/
def placeAt (l size : Nat) : Ex W64 := fun s =>
  match place l size 3 l s with
  | .ok a s' => .ok a { s' with collected := s.collected }
  | .error e s' => .error e { s' with stands := s.stands }

/-- Collect the pad of a level (R194, R196). -/
def collect (l : Nat) : Ex Unit := do
  let s ← get
  let up := if l + 1 = 2 && !s.ownsDie then 3 else l + 1
  collectWith (fun l sz => place l sz 3 l) up (s.cur.padId l)

/-- The collections that a `Place` which has trapped had made, made once more from the state before its instruction: they stand, and nothing else
of it (R184). -/
def State.recollect (s : State) (levels : List Nat) : State :=
  levels.foldl (fun s l =>
    match collect l s with
    | .ok _ t => { t with collected := s.collected }
    | .error _ t => { t with stands := s.stands, collected := s.collected }) s

/-- The unit of the janitor of a pad that a physical core reaches (R359). -/
def janitorOf (pcid : BitVec 9) (lvl : Nat) : Nat :=
  if lvl = 0 then pcid.toNat else if lvl = 1 then 0x160 + pcid.toNat / 16 else 0x152

/-- A collection that no instruction has asked for: an error abandons it, with a type 6 record where a write-back has met a memory error; what
it has done stands (R196, R367). -/
def State.collectBack (s : State) (lvl : Nat) : State :=
  match collect lvl s with
  | .ok _ t => { t with collected := s.collected }
  | .error e t => { t with wbFailed := false, stands := false, collected := s.collected }.memError 6 s.cur.ctx 0xFFFF (janitorOf s.cur.pcid lvl) e

/-- The room for a copy: from `tgt` up to the level before the canonical object's, without a trap (R185). -/
def placeCopy (size lvl : Nat) : Nat → Nat → Ex (Option W64)
  | 0, _ => pure none
  | fuel + 1, l => do
    if lvl ≤ l ∨ 3 ≤ l then return none
    let s ← get
    let id := s.cur.padId l
    if s.owned l then
      match s.bumpPad id size with
      | some (b, s') => set s'; return some (mkPtr l b)
      | none =>
        (fun s0 => match collect l s0 with
          | .ok _ s' => .ok () { s' with collected := s0.collected }
          | .error e s' => if e.code = cMEM_UNCORRECTABLE then .error e { s' with stands := s0.stands }
              else .ok () { s' with stands := s0.stands, collected := s0.collected } : Ex Unit)
        let s ← get
        match s.bumpPad id size with
        | some (b, s') => set s'; return some (mkPtr l b)
        | none => placeCopy size lvl fuel (l + 1)
    else placeCopy size lvl fuel (l + 1)

/-! ### Copies -/

/-- Evict one copy: write it back, forward it, drop it from the index (R196). -/
def evictCopy (canon cp : W64) : Ex Unit := do
  let s ← get
  let id := s.cur.padId (ptrLvl cp)
  writeBack id (ptrAddr cp)
  modify (fun s =>
    let s1 := s.modCur (fun c => { c with cidx := c.cidx.filter (fun e => e.1 != canon) })
    s1.forwardAll id s.cur.ctx [(cp, canon)])

/-- The least level whose copy limit holds `len` among the pads the running context owns (R67). -/
def State.copyLevel (s : State) (len : Nat) : Option Nat :=
  [0, 1, 2].find? (fun l => decide (len ≤ copyLimit l) && s.owned l)

/-- The least level whose copy limit is at least `len`, from `l` on (R183). -/
def allocLevel (l len : Nat) : Nat :=
  (([0, 1, 2].filter (fun k => decide (l ≤ k))).find? (fun k => decide (len ≤ copyLimit k))).getD 3

/-- S is set in a header at its home, as part of an access through a window (R290): a write of the part, which sets D in the page's entry, marks
its heap page and never falls in a sealed frame (R292, R294, R297). -/
def markShared (p w0 : W64) : Ex Unit := do
  let l ← locateN p 0 8 accOwn 0
  let s ← get
  let h := s.homeOf p
  match l with
  | .away => pure ()
  | .pad _ _ => pure ()
  | .phys _ _ _ =>
    setDirtyBit h.die.toNat (s.dieTables h.die.toNat).ctxbase (s.ctxNamedOn h.die.toNat h.ctx) h.ctx (ptrAddr h.ptr)
    locWrite l 8 ((w0 ||| 0x800000000000).toNat) p

/-- The context check of a header (R290): at level 3 the CTX must be the running context's unless S is set; through
a window the S bit is set at the home. -/
def ctxCheck (p w0 : W64) : Ex Unit := do
  let s ← get
  if ptrLvl p = 3 ∧ hdrCtx w0 ≠ s.cur.ctx ∧ hdrS w0 = false then
    trapWith cCTX_ISOLATION p ((hdrCtx w0).setWidth 64)
  if ptrLvl p = 4 ∧ hdrS w0 = false then markShared p w0

/-- `Touch(pr)` of R67, with R185 and R290; the pointer checks of R24 come first. Returns header word 0 of the object
the register names afterwards. -/
def touch (r : BitVec 4) : Ex W64 := do
  let pr ← rdP r
  checkPtr pr.ptr
  let w0 ← readHdr pr.ptr
  if 4 ≤ hdrKind w0 then trapWith cOBJ_MALFORMED pr.ptr 0
  ctxCheck pr.ptr w0
  let lvl := ptrLvl pr.ptr
  if hdrC w0 = true ∧ lvl ≤ 2 then
    modCur (fun c => { c with cidx := c.cidx.filter (fun e => e.2 == pr.ptr) ++ c.cidx.filter (fun e => e.2 != pr.ptr) })
    return w0
  if hdrKind w0 = 2 then return w0
  let s ← get
  match s.copyLevel pr.len.toNat with
  | none => return w0
  | some tgt =>
    if lvl ≤ tgt then return w0
    match s.cur.cidx.find? (fun e => e.1 == pr.ptr) with
    | some e =>
      modCur (fun c => { c with cidx := e :: c.cidx.filter (fun x => x.1 != pr.ptr) })
      let w ← readHdr e.2
      wrP r { ptr := e.2, cur := pr.cur, len := hdrLen w }
      return w
    | none =>
      if 512 ≤ s.cur.cidx.length then
        match s.cur.cidx.getLast? with
        | some e => evictCopy e.1 e.2
        | none => pure ()
      let n := (hdrLen w0).toNat
      let got ← placeCopy (16 + n) lvl 3 tgt
      match got with
      | none => return w0
      | some cp =>
        let canon := (← rdP r).ptr
        let s1 ← get
        let id := s1.cur.padId (ptrLvl cp)
        let snap ← (fun s0 => match snapshot canon 16 n accLoad s0 with
          | .ok a s' => .ok a s'
          | .error e s' => .error e (s'.setPad { s'.pad id with bump := ptrAddr cp }) : Ex (List Cell))
        let h := (w0 &&& ~~~(0xC00000000000 : W64)) ||| 0x200000000000
        fillObj cp 16 n snap accStore
        writeObj cp 0 16 (h.toNat + canon.toNat * 2 ^ 64) accStore
        modCur (fun c => { c with cidx := (canon, cp) :: c.cidx })
        wrP r { ptr := cp, cur := pr.cur, len := hdrLen w0 }
        return h

/-- Mark bytes of a copy dirty (R185, R188); `o` counts from the payload. -/
def markDirty (p : W64) (o n : Nat) : Ex Unit := do
  if ptrLvl p ≤ 2 then
    modify (fun s =>
      let id := s.cur.padId (ptrLvl p)
      let pd := s.pad id
      let w0 := pd.word (ptrAddr p)
      if hdrC w0 then
        let pd1 := if hdrD w0 then pd else pd.setWord (ptrAddr p) (w0 ||| 0x100000000000)
        s.setPad { pd1 with dirty := (offsets (ptrAddr p + 16 + o) n).foldl (fun l a => insertOff a l) pd1.dirty }
      else s)

/-- Read n bytes of a payload. -/
def readPay (p : W64) (o n acc : Nat) : Ex Nat := readObj p (16 + o) n acc

/-- Write n bytes of a payload, marking a copy dirty. -/
def writePayC (cnt : Nat → Nat → Nat) (p : W64) (o n v acc : Nat) : Ex Unit := do
  writeObjC cnt p (16 + o) n v acc
  markDirty p o n

def writePay (p : W64) (o n v acc : Nat) : Ex Unit := writePayC (oneAccess acc) p o n v acc

/-- The LEN a pointer register takes from the header its pointer names (R189, R191, R290); null and malformed
pointers load 0 (R24). -/
def lenOf (v : W64) : Ex (BitVec 40) := do
  if v = 0 || ptrMalformed v then return 0
  let w ← readHdr v
  ctxCheck v w
  return hdrLen w

/-- Create a zeroed object at or beyond level `l` (R183). -/
def allocObj (l kind len : Nat) : Ex W64 := do
  let p ← placeAt (allocLevel l len) (16 + len)
  let s ← get
  writeObj p 0 16 ((mkHdr s.cur.ctx kind len).toNat + s.die.toNat * 2 ^ 112) accStore
  return p

/-- The home level of the object a register names (R180). -/
def homeLevel (p w0 : W64) : Ex Nat := do
  let c ← canonOf p w0
  return ptrLvl c

/-! ### Promotion (R190) -/

/-- What may stand against the promotion of a closure: an object that a stream binding or a `cxsave` record pins traps, in the order of the list
(R190 step 2); one that an in-place image holds does not move either, and traps as one of a `cxsave` record does (R354; DESIGN CHOICE); a pointer
into the die pad is used only by its owner's agents (R401), and a failed sector of what is read fails (R367). False while other engine work pins an
object of it: the promotion waits (R190 step 3). -/
def promoteCheck (cl : List W64) : Ex Bool := do
  let s ← get
  let a := tidAddr s s.cur.ctx 0
  let pads := fun (v : W64) => s.cur.padId (ptrLvl v)
  if s.tidsOk s.cur.ctx = false then failMem (BitVec.ofNat 64 a) a
  for p in cl do
    let q := s.pad (pads p)
    padReadable q.id (ptrAddr p) 16 p
    if hdrKind (q.word (ptrAddr p)) = 1 then padReadable q.id (ptrAddr p) (s.extentOf p) p
    match (q.slots (ptrAddr p)).find? (fun x => ptrLvl x.2 == 2 && !s.ownsDie) with
    | some x => trapWith cCTX_ISOLATION x.2 (BitVec.ofNat 64 (((s.pad .die).owner.map (·.toNat)).getD 0))
    | none => pure ()
  for p in cl do
    match ((s.holders (pads p)).flatMap (·.streamPins)).find? (fun q => q.1 == p) with
    | some q => trapWith cOBJ_PINNED p (BitVec.ofNat 64 q.2)
    | none => pure ()
    if (s.holders (pads p)).any (fun c => c.cxpins.contains p) || (s.heldIn (pads p)).contains (ptrAddr p) then
      trapWith cOBJ_PINNED p 8
  return !cl.any (fun p => (s.holders (pads p)).any (fun c => c.workPins.contains p))

/-- `Promote(v, h)`: the new place of `v`, or none while it must wait (R190). -/
def promote (v : W64) (h : Nat) : Ex (Option W64) := do
  let die := (← get).die.toNat
  match ← unpinned (reserveUp placeAt promoteCheck 4 h [v] []) with
  | none => return none
  | some res =>
    moveAll (fun w => BitVec.ofNat 64 (w.toNat % 2 ^ 48 + die * 2 ^ 48)) res
    forwardLevels res
    patchMoved res (res.map Prod.snd)
    return some (fwd res v)

/-! ### Release and acquire (R192, R203, R204) -/

/-- Entry-wise maximum of two vector clocks. -/
def joinVec (a b : Vector Nat 10) : Vector Nat 10 := Vector.ofFn (fun i => max (a.get i) (b.get i))

/-- A release of an object has stamp S (R204). -/
def State.addStamp (s : State) (o : HomeObj) (v : Vector Nat 10) : State :=
  let old := ((s.stamps.find? (fun e => e.1 == o)).map Prod.snd).getD (Vector.replicate 10 0)
  { s with stamps := (o, joinVec old v) :: s.stamps.filter (fun e => e.1 != o) }

/-- The release of `canon` takes the die's next number, stamps it with K, and joins it into K (R204). This die has
applied its own release at once; the merge of a far home is applied as one step as it is sent. -/
def stampRelease (canon : W64) : Ex Unit := modify (fun s =>
  let n := s.relNo + 1
  let k := s.cur.know.setIfInBounds s.die.toNat n
  { s.addStamp (s.homeOf canon) k with
    relNo := n, applied := s.applied.setIfInBounds s.die.toNat n, cur := { s.cur with know := k } })

/-- K := max(K, S) for the releases of `canon` that an acquire observes (R204). -/
def observe (canon : W64) : Ex Unit := modify (fun s =>
  match s.stamps.find? (fun e => e.1 == s.homeOf canon) with
  | some e => { s with cur := { s.cur with know := joinVec s.cur.know e.2 } }
  | none => s)

/-- VER := (VER + 1) mod 2^48 at an object that is not a copy. -/
def raiseVer (p : W64) : Ex Unit := do
  let v ← readObj p 8 6 accStore
  writeObj p 8 6 ((v + 1) % 2 ^ 48) accStore

/-- Apply a merge at its home: the bytes and VER as one step (R192, R204). One that its home cannot perform is lost. -/
def State.applyMerge (s : State) (m : Merge) : State :=
  let p := mkPtr 3 (m.addr.toNat - 16)
  match asCtx m.ctx (do raiseVer p; mergeBytes p m.bytes) s with
  | .ok _ s' => s'
  | .error _ t => s.knowing t

/-- An object of this die that another die names has had its header read through a window: S is set at the home (R290). -/
def State.shareHome (s : State) (o : HomeObj) : State :=
  if o.die ≠ s.die ∨ ptrLvl o.ptr ≠ 3 then s
  else
    match asCtx o.ctx (do
      let w ← readHdr o.ptr
      if hdrS w = false then writeObj o.ptr 0 8 (w ||| 0x800000000000).toNat accStore) s with
    | .ok _ s' => s'
    | .error _ t => s.knowing t

/-- The first message of another die that this die may apply: the oldest of its source, with every earlier message
that its stamp names applied (R204). -/
def State.ripeMsg (s : State) : List DieMsg → List (BitVec 4) → Option DieMsg
  | [], _ => none
  | m :: l, seen =>
    if !seen.contains m.src && (List.range 10).all (fun f => f == m.src.toNat ||
        decide (m.stamp.getD f 0 ≤ s.applied.getD f 0)) then some m
    else s.ripeMsg l (m.src :: seen)

/-- A message of another die counts as applied, and its merge, if it carries one, is performed (R204): an acquire of the object observes the
release from then on. The releaser has reached the object through a window, so that its header shows S (R290). -/
def State.applyThis (s : State) (m : DieMsg) : State :=
  let s1 := { s.addStamp m.obj m.stamp with
    msgs := s.msgs.erase m
    applied := s.applied.setIfInBounds m.src.toNat (s.applied.getD m.src.toNat 0 + 1) }
  let s2 := if m.src = s.die then s1 else s1.shareHome m.obj
  match m.merge with
  | some x => s2.applyMerge x
  | none => s2

/-- Apply one message of another die that may be applied (R204). -/
def State.applyMsg (s : State) : State :=
  match s.ripeMsg s.msgs [] with
  | none => s
  | some m => s.applyThis m

/-- Apply every message that may be applied. -/
def State.applyMsgs (s : State) : Nat → State
  | 0 => s
  | n + 1 => s.applyMsg.applyMsgs n

/-- The die has applied every release causally before the logical core's next acquire (R204). -/
def State.caughtUp (s : State) : Bool :=
  (List.range 10).all (fun f => decide (s.cur.know.getD f 0 ≤ s.applied.getD f 0))

/-- An `oacq` of an object need not wait: the die of its home has applied what the core knows. How far another die has come is not held:
what this core knows it has applied (DESIGN CHOICE: only the length of the wait depends on it). -/
def State.mayAcquire (s : State) (p : W64) : Bool := s.caughtUp || (s.homeOf p).die != s.die

/-- Messages of other dies arrive, as many as a free value says: a merge that is not causally before an acquire may appear or not (R205). -/
def State.messagesCome (s : State) : State :=
  if s.msgs == [] then s else { s with free := s.free + 1 }.applyMsgs (min s.msgs.length (Config.arrivals s.free))

/-- Messages are applied one by one until an acquire of the object need not wait (R204). -/
def State.applyNeeded (p : W64) (s : State) : Nat → State
  | 0 => s
  | n + 1 => if s.mayAcquire p then s else s.applyMsg.applyNeeded p n

/-- What an `oacq` of the object finds applied (R204, R205). -/
def State.forAcquire (s : State) (p : W64) : State := s.messagesCome.applyNeeded p s.messagesCome.msgs.length

/-- A release waits for the acknowledgement of its own merge: a peer fault that it brings is raised here (R192, R217). -/
def ackedNow (before : Nat) : Ex Unit := do
  match (← get).cur.acks.drop before with
  | e :: _ => throw e
  | [] => pure ()

/-- `orel` on the object a pointer names (R192). -/
def release (p w0 : W64) : Ex Unit := do
  if hdrC w0 && decide (ptrLvl p ≤ 2) then
    let s ← get
    let id := s.cur.padId (ptrLvl p)
    let pd := s.pad id
    let canon := pd.word (ptrAddr p + 8)
    dirtyReadable id (ptrAddr p) p
    mergeBytes canon (pd.dirtyBytes (ptrAddr p))
    raiseVer canon
    ackedNow s.cur.acks.length
    modify (fun s => s.setPad ((s.pad id).clean (ptrAddr p)))
    stampRelease canon
  else
    let n := (← get).cur.acks.length
    raiseVer p
    ackedNow n
    stampRelease p

/-- `oacq` on the object a pointer names, once the die has caught up (R192, R204). -/
def acquire (p w0 : W64) : Ex Unit := do
  if hdrC w0 && decide (ptrLvl p ≤ 2) then
    let s ← get
    let id := s.cur.padId (ptrLvl p)
    let canon := (s.pad id).word (ptrAddr p + 8)
    let n := (hdrLen w0).toNat
    let snap ← snapshot canon 16 n accLoad
    padReadable id (ptrAddr p + 16) n p
    modify (fun s =>
      let pd := s.pad id
      let off := ptrAddr p
      let dirty := pd.dirtyOf off
      let own := (Mem.range pd.mem (off + 16) n).filter (fun c => dirty.contains c.1)
      let fresh := snap.filter (fun c => !dirty.contains c.1)
      let all := (own ++ fresh).foldl (fun m c => Mem.write m c.1 c.2) []
      s.setPad { pd with mem := Mem.fill pd.mem (off + 16) n all })
    observe canon
  else
    let _ ← readHdr1 p
    observe p

end Sys2Proof.Machine
end

