-- ==== Sys2Proof/Machine/Tiles.lean ====
section
/-! DEFINITION. Tensor identifier entries (R145, R146), tile shapes (R148), the tile loader (R150, R151), and waiting
for the coprocessor to become quiet (R328, R333). -/

namespace Sys2Proof.Machine

/-! ### Entries (R145) -/

abbrev Entry := BitVec 512

def Entry.data (e : Entry) : W64 := e.extractLsb' 0 64
def Entry.scale (e : Entry) : W64 := e.extractLsb' 64 64
def Entry.sos (e : Entry) : W64 := e.extractLsb' 128 64
def Entry.dimRaw (e : Entry) (k : Nat) : Nat := (e.extractLsb' (192 + 32 * k) 32).toNat
def Entry.str (e : Entry) (k : Nat) : Nat := (e.extractLsb' (320 + 48 * (k - 1)) 48).toNat
def Entry.fmt (e : Entry) : Nat := (e.extractLsb' 464 4).toNat
def Entry.valid (e : Entry) : Bool := e.getLsbD 472
def Entry.bs (e : Entry) : Bool := e.getLsbD 473
def Entry.wr (e : Entry) : Bool := e.getLsbD 474
def Entry.ndim (e : Entry) : Nat := (e.extractLsb' 480 8).toNat
def Entry.trows (e : Entry) : Nat := (e.extractLsb' 488 8).toNat
def Entry.tc (e : Entry) : Nat := (e.extractLsb' 496 8).toNat + 1

/-- The extent of a dimension; one at or above NDIM counts as 1 (R146). -/
def Entry.dim (e : Entry) (k : Nat) : Nat := if k < e.ndim then e.dimRaw k else 1
/-- NR (R146). -/
def Entry.rows (e : Entry) : Nat := e.dim 1 * e.dim 2 * e.dim 3
/-- The byte offset of element i0 of row r (R146). -/
def Entry.off (e : Entry) (i0 r : Nat) : Nat :=
  i0 * Fp.width e.fmt / 8 + r % e.dim 1 * e.str 1 + r / e.dim 1 % e.dim 2 * e.str 2 +
    r / (e.dim 1 * e.dim 2) * e.str 3
/-- Elements of a block: 32 for MX, 64 for Q4 (R146). -/
def Entry.bsz (e : Entry) : Nat := if e.fmt = 15 then 64 else 32
def Entry.bpr (e : Entry) : Nat := (e.dim 0 + e.bsz - 1) / e.bsz

/-- E of R148: elements of a slot row. -/
def rowElems (t : Nat) : Nat := 1024 / Fp.width t
/-- Bytes of side area per row (R148). -/
def sideBytes (t : Nat) : Nat :=
  if t = 0 ∨ t = 12 ∨ t = 13 then 4 else if t = 14 then 8 else if t = 15 then 16 else 0
/-- Bytes of side area per block. -/
def blockSide (t : Nat) : Nat := if t = 15 then 4 else 1

/-- The checks of R147 on an entry that `accept` says the instruction takes, by increasing reason: 1, 2, 4 to 8. -/
def entryReason (feat : BitVec 512) (accept : Entry → Bool) (e : Entry) : Option Nat :=
  let t := e.fmt
  if !e.valid then some 1
  else if !accept e then some 2
  else if e.ndim = 0 ∨ 4 < e.ndim ∨ (List.range e.ndim).any (fun k => e.dimRaw k == 0) then some 4
  else if e.trows = 0 ∨ 32 < e.trows ∨ rowElems t < e.tc ∨ (14 ≤ t ∧ e.tc % 2 = 1) then some 5
  else if (e.bs = true ∧ ¬ (t = 0 ∨ 12 ≤ t)) ∨ (t = 15 ∧ e.bs = false) ∨ (e.bs = true ∧ e.tc % e.bsz ≠ 0) then some 6
  else if e.data = 0 ∨ ptrMalformed e.data ∨ (e.bs = true ∧ e.scale = 0) ∨ (t = 15 ∧ e.sos = 0) then some 7
  else if 14 ≤ t ∧ feat.getLsbD 6 = false then some 8
  else none

/-- The checks of R147, as a fault of the word. -/
def needEntry (i : Instr) (accept : Entry → Bool) (e : Entry) : Ex Unit := do
  match entryReason (← get).feat accept e with
  | some r => rangeTrap i r
  | none => pure ()

/-! ### Slot contents -/

/-- n bits of a wide vector replaced. -/
def spliceBits {w : Nat} (x : BitVec w) (lo n v : Nat) : BitVec w :=
  (x &&& ~~~(BitVec.ofNat w ((2 ^ n - 1) * 2 ^ lo))) ||| BitVec.ofNat w (v % 2 ^ n * 2 ^ lo)

def Slot.rowOf (s : Slot) (j : Nat) : Nat := s.data.toNat / 2 ^ (1024 * j) % 2 ^ 1024
def Slot.setRow (s : Slot) (j v : Nat) : Slot := { s with data := spliceBits s.data (1024 * j) 1024 v }
/-- The side area of row j; the bytes that R148 does not list for the type are zero. -/
def Slot.setSide (s : Slot) (t j v : Nat) : Slot :=
  let listed := BitVec.ofNat 4096 (s.side.toNat % 2 ^ (256 * sideBytes t))
  { s with side := spliceBits listed (8 * sideBytes t * j) (8 * sideBytes t) v }
/-- Element c of row j read as type t. -/
def Slot.elem (s : Slot) (t j c : Nat) : Nat :=
  s.data.toNat / 2 ^ (1024 * j + Fp.width t * c) % 2 ^ Fp.width t
/-- Bytes k of the side area. -/
def Slot.sideAt (s : Slot) (k n : Nat) : Nat := s.side.toNat / 2 ^ (8 * k) % 2 ^ (8 * n)

/-! ### Reading tensors in place (R150, R151) -/

/-- The header of an object that an engine of the core reads in place: the pointer checks, then a well-formed header
(R24, R155). It is read as part of the access, which alone counts (R220). -/
def placeHdr (p : W64) : Ex W64 := do
  checkPtr p
  let w := BitVec.ofNat 64 (← readObjC (fun _ _ => 0) p 0 8 accLoad)
  if 4 ≤ hdrKind w then trapWith cOBJ_MALFORMED p 0
  return w

/-- A store of the vt path through a window: the peer fault of its acknowledgement is the late fault of its instruction (R142, R299). -/
def ackedLate (m : Ex Unit) : Ex Unit := do
  let n := (← get).cur.acks.length
  m
  match (← get).cur.acks.drop n with
  | [] => pure ()
  | e :: _ =>
    modCur (fun c => { c with acks := c.acks.take n })
    throw e

/-- The first element among `cnt` of `w` bits from byte `lo` that passes LEN: its byte offset (R151). -/
def firstBeyond (lo w cnt len : Nat) : Nat :=
  ((List.range cnt).find? (fun c => decide (len < lo + (c * w + w + 7) / 8))).elim lo (fun c => lo + c * w / 8)

/-- `cnt` elements of row r from element i0, as one number with element 0 lowest. -/
def readSeg (e : Entry) (i0 r cnt acc : Nat) : Ex Nat := do
  let w := Fp.width e.fmt
  let h ← placeHdr e.data
  let lo := e.off i0 r
  let n := (cnt * w + 7) / 8
  let len := (hdrLen h).toNat
  if len < lo + n then
    trapWith cOBJ_BOUND (BitVec.ofNat 64 (firstBeyond lo w cnt len)) (BitVec.ofNat 64 len)
  let v ← readPay e.data lo n acc
  return v % 2 ^ (cnt * w)

/-- One byte or more of a scale object, bound-checked. -/
def readSide (p : W64) (o n acc : Nat) : Ex Nat := do
  let h ← placeHdr p
  let len := (hdrLen h).toNat
  if len < o + n then trapWith cOBJ_BOUND (BitVec.ofNat 64 o) (BitVec.ofNat 64 len)
  readPay p o n acc

/-- The side value of block k (along dimension 0) of row r, with the flag of a signalling NaN (R81): the E8M0 scale, or for Q4 the combined
scale (R146, R150). -/
def readScaleF (e : Entry) (r k acc : Nat) : Ex (Nat × Fp.Flags) := do
  let b ← readSide e.scale (r * e.bpr + k) 1 acc
  if e.fmt = 15 then
    let s ← readSide e.sos (4 * ((r * e.bpr + k) / 256)) 4 acc
    return (Fp.q4Scale b s, Fp.sigFlag [Fp.decode 9 s])
  else return (b, 0)
/-- The side value alone. -/
def readScale (e : Entry) (r k acc : Nat) : Ex Nat := do return (← readScaleF e r k acc).1

/-- The side area of a row, block by block from `b`, for `cnt` elements taken from the tensor (R150). A combined scale that RNE(b × S) forms from
a signalling NaN raises no flag here (DESIGN CHOICE, log entry 152: R150 names none), and the blocks of an i8 tensor without BS get 0 (DESIGN
CHOICE, log entry 153: R150 gives them nothing). -/
def rowSide (e : Entry) (i0 r cnt : Nat) : Nat → Nat → Ex Nat
  | 0, _ => pure 0
  | n + 1, b => do
    let here ← (if cnt ≤ e.bsz * b then pure 0
      else if e.bs then readScale e r (i0 / e.bsz + b) accTile
      else pure (if e.fmt = 12 ∨ e.fmt = 13 ∨ e.fmt = 14 then 0x7F else 0))
    let rest ← rowSide e i0 r cnt n (b + 1)
    return here + rest * 2 ^ (8 * blockSide e.fmt)

/-- Elements of row j of tile (ROW, COL) that lie inside the tensor (R150): the flat row, the first element, how many. -/
def tileSpan (e : Entry) (rc : W64) (j : Nat) : Nat × Nat × Nat :=
  let r := bits rc.toNat 31 0 * e.trows + j
  let i0 := bits rc.toNat 63 32 * e.tc
  let cnt := if j < e.trows ∧ r < e.rows then min e.tc (e.dim 0 - i0) else 0
  (r, i0, cnt)

/-- Row j of a tile: its data and side area (R150). -/
def loadRow (e : Entry) (rc : W64) (j : Nat) : Ex (Nat × Nat) := do
  let (r, i0, cnt) := tileSpan e rc j
  let v ← (if cnt = 0 then pure 0 else readSeg e i0 r cnt accTile)
  let side ← rowSide e i0 r cnt (sideBytes e.fmt / blockSide e.fmt) 0
  return (v, side)

/-- What the loader does for row `prog` of the load that a ring entry holds: the checks of its entry, then the row (R150, R151). -/
def loadStep (r : RingEntry) : Ex (Nat × Nat) := do
  needEntry r.instr (fun _ => true) r.entry
  loadRow r.entry r.xa r.prog

/-! ### The ring -/

def LCore.entryOf (c : LCore) (q : BitVec 16) : Option RingEntry := c.ring.find? (fun r => r.seq == q)
def LCore.setEntry (c : LCore) (r : RingEntry) : LCore :=
  { c with ring := c.ring.map (fun x => if x.seq == r.seq then r else x) }

/-- Of two ring entries, the first in program order is the one that stands first in the ring. -/
def LCore.before (c : LCore) (a b : BitVec 16) : Bool :=
  match c.ring.find? (fun x => x.seq == a || x.seq == b) with
  | some x => x.seq == a
  | none => false

/-- The late fault that waits, with one more: the lowest sequence number is taken (R330). A faulted entry that is put off faults again
when it resumes; the fault of an instruction that is complete is kept. -/
def LCore.lateWith (c : LCore) (q : BitVec 16) (e : Exn) : LCore :=
  match c.late with
  | none => { c with late := some ⟨q, e⟩ }
  | some l =>
    if c.before q l.seq then
      let done := (c.entryOf l.seq).elim true (fun r => r.state == .complete)
      { c with late := some ⟨q, e⟩, posts := if done then l :: c.posts else c.posts }
    else c

/-- A ring entry faults: it is marked, and the late fault waits to be taken (R66). -/
def LCore.faultEntry (c : LCore) (q : BitVec 16) (e : Exn) : LCore :=
  LCore.lateWith { c with ring := c.ring.map (fun x => if x.seq == q then { x with state := .faulted } else x) } q e

/-! ### The tile loader -/

/-- One row of the oldest load lands; the last makes the slot ready; a fault stops the load with its rows kept
(R150, R151). -/
def State.landRow (s : State) : State :=
  match s.cur.loads with
  | [] => s
  | (q, t) :: rest =>
    match s.cur.entryOf q with
    | none => s.modCur (fun c => { c with loads := rest })
    | some r =>
      match loadStep r s with
      | .error e s' => s'.modCur (fun c => { c.faultEntry q e with loads := rest })
      | .ok (v, side) s' =>
        s'.modCur fun c =>
          let sl := ((c.getT t).setRow r.prog v).setSide (Entry.fmt r.entry) r.prog side
          if r.prog = 31 then
            { (c.setT t { sl with state := .ready, prog := 0,
                                  row := r.xa.extractLsb' 0 32, col := r.xa.extractLsb' 32 32 }).setEntry
                { r with state := .complete, prog := 0 } with loads := rest }
          else (c.setT t { sl with prog := BitVec.ofNat 6 (r.prog + 1) }).setEntry { r with prog := r.prog + 1 }

/-- Rows land until no load is left; each load has at most 32 rows. -/
def State.landRows (s : State) : Nat → State
  | 0 => s
  | n + 1 => if s.cur.loads == [] then s else s.landRow.landRows n

def State.finishLoads (s : State) : State := s.landRows (33 * s.cur.loads.length)

/-! ### Landing writes (R63) -/

def PendDest.apply (d : PendDest) (c : LCore) : LCore :=
  match d with
  | .v r mask val => c.setV r ((c.getV r &&& ~~~mask) ||| (val &&& mask))
  | .m r mask val => c.setM r ((c.getM r &&& ~~~mask) ||| (val &&& mask))

/-- Insert a write by the cycle it lands in, after those of the same cycle: the later instruction wins (R63). -/
def insertWrite (w : PendWrite) : List PendWrite → List PendWrite
  | [] => [w]
  | x :: l => if w.due < x.due then w :: x :: l else x :: insertWrite w l

/-- Land every write due before cycle t; the list is kept by the cycle of landing. -/
def landList (c : LCore) (t : Nat) : List PendWrite → LCore
  | [] => { c with pend := [] }
  | w :: l => if w.due < t then landList (w.dest.apply c) t l else { c with pend := w :: l }

def LCore.land (c : LCore) (t : Nat) : LCore := landList c t c.pend

/-- The first cycle in which every instruction that has issued has written. -/
def LCore.quietAt (c : LCore) : Nat :=
  c.pend.foldl (fun t w => max t (w.due + 1)) ((c.ring.filter (fun r => r.state != .notIssued)).foldl (fun t r => max t (r.time + 1))
    (max c.ccy (max c.copNext (max c.vecFree c.matFree))))

/-- Outside a late-fault handler a fault that was put off waits again, once every instruction before it is complete (R330). -/
def LCore.nextPost (c : LCore) : LCore :=
  match c.posts with
  | [] => c
  | p :: l =>
    if c.handler = 0 ∧ c.late = none ∧ (c.ring.takeWhile (fun r => r.seq != p.seq)).all (fun r => r.state == .complete) = true then
      { c with late := some p, posts := l }
    else c

/-- Wait until every dispatched coprocessor instruction is complete, faulted or stopped as not issued (R328). -/
def State.quiesce (s : State) : State :=
  let s1 := (if s.cur.loads == [] then s else s.finishLoads).modCur LCore.nextPost
  let t := s1.cur.quietAt
  { s1 with clk := s1.clk + (t - s1.cur.ccy), cur := { s1.cur.land t with ccy := t } }

/-- A trap at this point, once the coprocessor is quiet; a late fault that waits is taken instead, and the trap arises
again after return (R328, R331). -/
def State.takeTrap (s : State) (e : Exn) (int : Bool := false) : State :=
  let s1 := s.quiesce
  match s1.cur.late with
  | some l => s1.enterTrap l.exn (some l.seq) false
  | none => s1.enterTrap e none int

/-- The late fault that waits, if any, is taken (R330). -/
def State.takeLate (s : State) : State :=
  match s.quiesce.cur.late with
  | some l => s.quiesce.enterTrap l.exn (some l.seq) false
  | none => s

/-- In the handler of a late fault the ring still holds the faulted entry: a word that waits as `cdrain` does takes the fault again
(R333). -/
def LCore.retakes (c : LCore) : Option Late :=
  if c.handler ≠ 0 ∧ c.ring.any (fun r => r.state == .faulted) = true then c.taken else none

/-- A coprocessor instruction has not issued. -/
def LCore.notIssued (c : LCore) : Bool := c.ring.any (fun r => r.state == .notIssued)

/-- The word stays at the pc and runs again. -/
def State.stall (s : State) : State := s.finish (.block .stall) Timing.one

/-- A word that waits as `cdrain` does: in such a handler it takes the fault again; in the handler of the fault of a completed instruction it
waits for the entries behind it, which have not issued (R118, R333); else it runs. -/
def draining (f : State → Host.Outcome State Fault Refusal) (s : State) : Host.Outcome State Fault Refusal :=
  match s.cur.retakes with
  | some l => .next ((s.modCur (fun c => { c with late := some l })).takeLate)
  | none => if s.cur.handler ≠ 0 ∧ s.cur.notIssued = true then .next s.stall else f s

/-! ### Words -/

/-- The entries of the ring that are neither complete nor in the tile loader. -/
def LCore.unfinished (c : LCore) : List RingEntry :=
  c.ring.filter (fun r => r.state != .complete && !c.loads.any (fun x => x.1 == r.seq))

/-- Outside a late-fault handler an entry is not complete: it waits in the queue, or has stopped. -/
def LCore.outstanding (c : LCore) : Bool := c.handler == 0 && !c.unfinished.isEmpty

/-- An entry has stopped on its way, and no fault of it waits: `cxload` has restored it, and the next return issues it again (R356). -/
def LCore.halted (c : LCore) : Bool := c.unfinished.any (fun r => r.state != .notIssued)

/-- A coprocessor instruction waits in the queue: it has not issued, and neither a fault, nor an entry that has stopped, nor the fault of a
completed instruction stands before it (R62, R64, R329). -/
def LCore.queued (c : LCore) : Bool :=
  c.late.isNone && c.handler == 0 && !c.halted &&
    match c.ring.find? (fun r => r.state == .notIssued), c.posts with
    | none, _ => false
    | some _, [] => true
    | some r, p :: _ => c.before r.seq p.seq

/-- The x register a coprocessor instruction writes (R65). -/
def copDest : Instr → Option (BitVec 5)
  | .vext d _ _ _ => some d
  | .vpopc d _ _ _ => some d
  | .vfirst d _ _ _ => some d
  | _ => none

/-- An instruction will write one of these x registers in a cycle that is not known yet: it has not issued, or it has not written while the
coprocessor is frozen (R64, R65). -/
def LCore.owes (c : LCore) (uses : List (BitVec 5)) : Bool :=
  c.ring.any (fun r => (r.state == .notIssued || c.frozenAt.any (fun t => decide (t ≤ r.time))) &&
    uses.any (fun x => copDest r.instr == some x))

/-- The registers whose reads and writes wait for the coprocessor (R42). -/
def waitsForCop (n : Nat) : Bool := n == 0x000 || n == 0x051 || n == 0x052 || n == 0x053 || n == 0x060

/-- The words that wait until every earlier coprocessor instruction is complete (R42, R118, R208, R243, R249, R262, R333,
R356). -/
def wordDrains : Instr → Bool
  | .cdrain | .retire | .sstep | .cxsave _ | .cxload _ | .wfi | .eret | .xprefTq _ _ => true
  | .xfence c _ _ _ => c == 1
  | .rds _ n => waitsForCop n.toNat
  | .wrs _ n => waitsForCop n.toNat
  | _ => false

/-- Words that stand behind those of an earlier `sendv` in program order (R250, R218). -/
def afterSends : Instr → Bool
  | .send _ _ _ => true
  | .xfence c _ _ _ => c == 4
  | _ => false

/-- A `sendv` waits in the queue: its words have not entered the port. -/
def LCore.sendQueued (c : LCore) : Bool := c.ring.any (fun r => r.state == .notIssued && (match r.instr with
  | .sendv _ _ _ => true
  | _ => false))

/-- The word cannot complete yet: an instruction of the coprocessor has not written what it needs (R65), or waits in the queue, and the word
waits for all of them (R64), or for the words of a `sendv` (R250). -/
def LCore.stalled (c : LCore) (i : Instr) (uses : List (BitVec 5)) : Bool :=
  c.outstanding && (c.owes uses || (c.queued && (wordDrains i || (afterSends i && c.sendQueued))))

/-- The copies of a core whose faults have been taken (R230). -/
def LCore.takenCopies (c : LCore) : Nat :=
  (c.tags.toList.filter (fun t => match t with
    | .running k => (match k.phase with
      | .taken _ => true
      | _ => false)
    | _ => false)).length

/-- A fault of a copy, or of an acknowledgement, has been taken between two states (R230, R217). -/
def LCore.tookFault (c d : LCore) : Bool := decide (c.takenCopies < d.takenCopies) || decide (d.acks.length < c.acks.length)

/-- Registers that a touch has rewritten to the copy it made name the canonical object again (R184, R189). -/
def LCore.untouched (c0 : LCore) (c : LCore) : LCore :=
  { c with p := Vector.ofFn (fun i =>
      match c.cidx.find? (fun e => e.2 == (c.p.get i).ptr && e.2 != (c0.p.get i).ptr) with
      | some e => { c0.p.get i with ptr := e.1 }
      | none => { c.p.get i with cur := (c0.p.get i).cur }) }

/-- The state in which a trap `e` of an instruction is taken: `s` before it, `t` where it stopped. The instruction at EPC has changed nothing
(R328), but for a fault that it takes (R230, R217); the collections of a `Place` that traps stand, made from the state before the instruction as
nothing else of it stays, and so do the write-backs that a `retire` has finished, and every advance of HNEXT (R184, R196, R118: the space is not
used again, also where a later step of the instruction traps, DEDUCED). That a write-back has failed, that a request has timed out, and where an access has failed is not forgotten
(R367, R284, R370). EPC is where the instruction has put it (R51). -/
def State.undone (s t : State) : State :=
  if s.cur.tookFault t.cur then t
  else if t.stands && !s.stands then { t with stands := false }.modCur (LCore.untouched s.cur)
  else
    let v := s.recollect (t.collected.drop s.collected.length)
    let u := { v with
      wbFailed := t.wbFailed
      silent := t.silent
      expired := t.expired
      failAt := t.failAt
      cur := { v.cur with unit := t.cur.unit, pfx := t.cur.pfx } }
    let hnext := s.mg.ctxbase.toNat + 128 * s.cur.ctx.toNat + 80
    if s.ctxValid s.cur.ctx && t.physWord hnext != u.physWord hnext then u.setCtxWord s.cur.ctx 10 (t.physWord hnext) else u

/-- A trap of an instruction that began in `s` and stopped in `t`; while an instruction waits in the queue of the coprocessor the entry
waits, and the word runs again (R64, R328). -/
def State.trapFrom (s t : State) (e : Exn) : State := if s.cur.queued then s.stall else (s.undone t).takeTrap e

/-- A word of the running logical core: the checks of R60, then its body; a trap leaves nothing of what the body did (R328).
While an instruction waits in the queue of the coprocessor, the words that need it wait, and so does the entry of a trap (R64, R65,
R328); a late fault that stands before it is taken at once (R66). -/
def runWord (i : Instr) (t : Timing) (body : Ex Flow) (s : State) : Host.Outcome State Fault Refusal :=
  if s.cur.stalled i t.uses then .next (if s.cur.late.isSome then s.takeLate else s.stall)
  else
    let s1 := s.awaited t.uses
    match (do checkWord i; body : Ex Flow) s1 with
    | .ok fl s' => .next (s'.finish fl t)
    | .error e s' => .next (s1.trapFrom s' e)

/-- A step of the part that is not a word: it ends in a state, changed or not. -/
def runStep (f : State → State) (s : State) : Host.Outcome State Fault Refusal := .next (f s)

end Sys2Proof.Machine
end

