-- ==== Sys2Proof/Machine/Flags.lean ====
section
/-! DEFINITION. The flags and modes an instruction reads and writes: FSTAT (R38, R88), FMODE (R37), ASTAT (R40). -/

namespace Sys2Proof.Machine

/-- FMODE.RM and SEED with LCID and SSC: what a rounding under FMODE needs (R37, R87). -/
def modeOf (fmode : W64) (lcid : BitVec 16) (ssc : W64) : Fp.Mode :=
  ⟨fmode.toNat % 8, fmode.toNat / 2 ^ 32, lcid.toNat, ssc.toNat⟩

def LCore.mode (c : LCore) : Fp.Mode := modeOf c.fmode c.lcid c.ssc

/-- The sticky flags gain those raised (R38). -/
def LCore.raise (c : LCore) (f : Fp.Flags) : LCore :=
  { c with fstat := c.fstat ||| f.setWidth 64, work := c.work.map (fun w => { w with fstat := w.fstat ||| f.setWidth 64 }) }
def raiseFlags (f : Fp.Flags) : Ex Unit := modCur (fun c => c.raise f)

/-- FMODE.NANT and GUFT (R37). -/
def LCore.nant (c : LCore) : Bool := c.fmode.getLsbD 4
def LCore.guft (c : LCore) : Bool := c.fmode.getLsbD 5

/-- ASTAT fields of accumulator n (R40). -/
def LCore.aff (c : LCore) (n : BitVec 2) : Bool := c.astat.getLsbD n.toNat
def LCore.guf (c : LCore) (n : BitVec 2) : Bool := c.astat.getLsbD (4 + n.toNat)
def LCore.nanf (c : LCore) (n : BitVec 2) : Bool := c.astat.getLsbD (8 + n.toNat)
def LCore.sem (c : LCore) (n : BitVec 2) : Nat := bits c.astat.toNat (17 + 2 * n.toNat) (16 + 2 * n.toNat)

/-- One bit of a word set to b. -/
def setBit (w : W64) (k : Nat) (b : Bool) : W64 :=
  if b then w ||| BitVec.ofNat 64 (2 ^ k) else w &&& ~~~(BitVec.ofNat 64 (2 ^ k))

def LCore.setAstatBit (c : LCore) (k : Nat) (b : Bool) : LCore := { c with astat := setBit c.astat k b }
def LCore.setSem (c : LCore) (n : BitVec 2) (v : Nat) : LCore :=
  { c with astat := setBits c.astat (17 + 2 * n.toNat) (16 + 2 * n.toNat) v }

/-- KV of ASTAT as the carries stand (R40). -/
def LCore.kv (c : LCore) : W64 :=
  (List.range 4).foldl (fun w k => if (c.getK (BitVec.ofNat 2 k)).valid then w + BitVec.ofNat 64 (2 ^ (12 + k)) else w) 0

/-- ASTAT as `rds` reads it: STG reads 0, and KV shows which carries hold a value (R40). -/
def LCore.astatRead (c : LCore) : W64 := (c.astat &&& ~~~(0x7000F000 : W64)) ||| c.kv

end Sys2Proof.Machine
end

