-- ==== Sys2Proof/Machine/Cop.lean ====
section
/-! DEFINITION. The coprocessor: dispatch into the sequence ring (R62, R121), issue in order with exposed latency (R63),
late faults (R66, R329), and issuing again after one (R304). -/

namespace Sys2Proof.Machine

/-- What an issued instruction does beyond the state it has changed itself: the writes that land at its latency, a
scalar result, its issue and latency figures, a fault that its completed work raises, and whether work goes on beside
the unit. -/
structure Issued where
  writes : List PendDest := []
  xw : Option (BitVec 5 × W64) := none
  busy : Nat := 1
  lat : Nat := 1
  post : Option Exn := none
  goesOn : Bool := false
  deriving DecidableEq, Repr

/-- How an instruction meets the coprocessor: which unit it issues to; the tile slots it names (R149); whether it is of the vt path, which
takes effect in order (R153); whether it takes a place in the tile loader (R150); and whether it freezes the coprocessor until others have
acted (R64). -/
structure CopUnit where
  mat : Bool := false
  slots : List (BitVec 4) := []
  vt : Bool := false
  loader : Bool := false
  frozen : State → RingEntry → Bool := fun _ _ => false

/-- The vector unit; a vector instruction of the vt path (R143). -/
def vecUnit : CopUnit := {}
def vecMem : CopUnit := { vt := true }
/-- The matrix unit, for a word that names the slots listed (R149); a word of the vt path there (R153). -/
def matUnit (slots : List (BitVec 4)) : CopUnit := { mat := true, slots := slots }
def matMem : CopUnit := { mat := true, vt := true }

/-- Cycles from the issue of a `tload` to its slot being ready, from the core pad (R150); the model gives the loads from other levels the same
(DESIGN CHOICE, log entry 161: the spec gives them no figure). -/
def loadTime : Nat := 36

def isTload : Instr → Option (BitVec 4)
  | .tload t _ => some t
  | _ => none

/-- What the issue in cycle `ci` of the ring entry `q` leaves once its work has been done (R63): the writes to land, the unit
busy, a scalar result, the entry complete where nothing goes on beside the unit, and the fault its completed work raises. -/
def LCore.complete (u : CopUnit) (ci : Nat) (q : BitVec 16) (w : Issued) (c : LCore) : LCore :=
  let c1 := { c with
    pend := w.writes.foldl (fun l d => insertWrite ⟨ci + w.lat, d⟩ l) c.pend,
    vecFree := if u.mat then c.vecFree else ci + w.busy,
    matFree := if u.mat then ci + w.busy else c.matFree }
  let c2 := match w.xw with
    | some (d, v) => { c1.setX d v with xrdy := c1.xrdy.set d.toNat (ci + w.lat + 1) d.isLt }
    | none => c1
  let c3 := { c2 with ring := c2.ring.map (fun x => if x.seq == q then
      { x with state := if w.goesOn then x.state else .complete, time := ci + (if w.goesOn then loadTime else max w.lat w.busy) } else x) }
  match w.post with
  | some e => c3.lateWith q e
  | none => c3

/-- The cycle in which a word issues on its unit (R63): once it is dispatched, after the word before it, and with the unit free. -/
def LCore.copCycle (u : CopUnit) (r : RingEntry) (c : LCore) : Nat :=
  max r.time (max c.copNext (if u.mat then c.matFree else c.vecFree))

/-- The cycles in which the loads that have issued make their slots ready, of the slots that `p` picks, in issue order. -/
def LCore.loadTimes (c : LCore) (p : BitVec 4 → Bool) : List Nat :=
  (c.ring.filter (fun r => r.state != .notIssued && (isTload r.instr).any p)).map (·.time)

/-- The cycle up to which a word that would issue in cycle `t` freezes the coprocessor for the tile loader: until the slots it names are
ready (R149), and for a `tload` until fewer than four loads are on their way (R150). -/
def LCore.loaderReady (u : CopUnit) (c : LCore) (t : Nat) : Nat :=
  let slots := (c.loadTimes (fun s => u.slots.contains s)).foldl max 0
  let busy := (c.loadTimes (fun _ => true)).filter (fun x => decide (t < x))
  max slots (if u.loader ∧ 4 ≤ busy.length then busy.getD (busy.length - 4) 0 else 0)

/-- The logical core as the work of the entry `r` starts in cycle `ci`: every earlier write that is due has landed. -/
def LCore.started (ci : Nat) (r : RingEntry) (c : LCore) : LCore := { (c.land ci).setEntry r with copNext := ci + 1 }

/-- The coprocessor stands from cycle `t` for `d` cycles: no write lands and no latency advances in them (R64); the tile loader goes on. -/
def LCore.standing (t d : Nat) (c : LCore) : LCore :=
  let later := fun (n : Nat) => if t < n then n + d else n
  { c with
    vecFree := later c.vecFree, matFree := later c.matFree
    xrdy := Vector.ofFn (fun k => if c.ring.any (fun r => r.state != .notIssued && decide (t ≤ r.time) && c.xrdy.get k == r.time + 1 &&
      (copDest r.instr).any (fun d => d.toFin == k)) then c.xrdy.get k + d else c.xrdy.get k)
    pend := c.pend.map (fun w => if t ≤ w.due then { w with due := w.due + d } else w)
    ring := c.ring.map (fun r => if r.state != .notIssued && (isTload r.instr).isNone && decide (t ≤ r.time) then
      { r with time := r.time + d } else r)
    work := c.work.map (fun w => if t < w.start + w.cycles then { w with start := w.start + d } else w) }

/-- The freeze for the tile loader of a word that would issue in cycle `t`: its end is known (R64). -/
def LCore.holdFor (u : CopUnit) (t : Nat) (c : LCore) : LCore :=
  let r := c.loaderReady u t
  if t < r then { c.standing t (r - t) with copNext := r } else c

/-- The coprocessor freezes in the cycle `t` in which an instruction would have issued (R64). -/
def LCore.freezeCop (t : Nat) (c : LCore) : LCore := { c with frozenAt := c.frozenAt.or (some t) }

/-- It goes on in the present cycle (R64). -/
def LCore.thawCop (c : LCore) : LCore :=
  match c.frozenAt with
  | none => c
  | some t => { c.standing t (c.ccy - t) with frozenAt := none, copNext := max c.copNext c.ccy }

/-- Before the word works the rows of the loads land that come before it: those of the slots it names (R149), those of the loader's
places it needs (R150), and of the vt path all (R153). A slot left loading, whose load software has given up, freezes nothing: no load is under
way that could bring it to state 3 (DESIGN CHOICE, R149). -/
def CopUnit.afterLoads (u : CopUnit) (c : LCore) : Bool :=
  (u.vt && !c.loads.isEmpty) || u.slots.any (fun t => c.loads.any (fun l => l.2 == t)) || (u.loader && decide (4 ≤ c.loads.length))

/-- The work of the ring entry `r` in cycle `ci`; a fault marks the entry (R66). -/
def issueWork (u : CopUnit) (act : RingEntry → Ex Issued) (r : RingEntry) (ci : Nat) : Ex Unit := fun s =>
  let r' := { r with state := .issued }
  match act r' (s.modCur (LCore.started ci r')) with
  | .error e s' => .ok () (s'.modCur (fun c => c.faultEntry r.seq e))
  | .ok w s' => .ok () (s'.modCur (LCore.complete u ci r.seq w))

/-- The ring entry `r`, whose cycle has come: it works, unless a load before it has met a fault (R329) or it freezes the coprocessor (R64). -/
def issueNow (u : CopUnit) (act : RingEntry → Ex Issued) (r : RingEntry) : Ex Unit := fun s0 =>
  let s := if u.afterLoads s0.cur then s0.finishLoads else s0
  if s.cur.late.isSome then .ok () s
  else if u.frozen s r then .ok () (s.modCur (LCore.freezeCop (s.cur.copCycle u r)))
  else
    let s1 := s.modCur LCore.thawCop
    issueWork u act r (s1.cur.copCycle u r) s1

/-- Issue the ring entry `q`: in the first cycle its unit is free, with every earlier write that is due landed (R63), once that cycle has
come. Nothing issues behind a fault (R329), nor while the instruction freezes the coprocessor (R64). Its work is done at once, so that an
access of one path sees every earlier write of another that has issued, and none that follows: R201 and R219 allow old or new data where no
`xfence` stands between them (DESIGN CHOICE: the new). -/
def issue (u : CopUnit) (act : RingEntry → Ex Issued) (q : BitVec 16) : Ex Unit := fun s0 =>
  match s0.cur.late, s0.cur.entryOf q with
  | none, some r =>
    if s0.cur.ccy < s0.cur.copCycle u r then .ok () s0
    else
      let s := s0.modCur (fun c => c.holdFor u (c.copCycle u r))
      if s.cur.ccy < s.cur.copCycle u r then .ok () s else issueNow u act r s
  | _, _ => .ok () s0

/-- What dispatch captures beside VL (R121); `src` holds the words of a `recv.v`, which it reads at dispatch (R254). -/
structure Capture where
  xa : W64 := 0
  xb : W64 := 0
  ptr : PtrReg := PtrReg.null
  entry : BitVec 512 := 0
  src : VWord := 0
  deriving DecidableEq, Repr

/-- The ring entry that the dispatch of the word `i` at the pc makes (R62, R66, R121). -/
def LCore.entry (i : Instr) (k : Capture) (c : LCore) : RingEntry :=
  { seq := c.nextSeq, addr := c.pc, instr := i, state := .notIssued, prog := 0, xa := k.xa, xb := k.xb, vl := c.vl,
    ptr := k.ptr, entry := k.entry, held := false, src1 := k.src, src2 := 0, mask := 0, time := c.ccy }

/-- Nothing can be dispatched: the queue holds 32 entries, or the ring entry that the next sequence number would reuse is not
complete (R62). -/
def LCore.ringFull (c : LCore) : Bool :=
  decide (32 ≤ (c.ring.filter (fun r => r.state == .notIssued)).length) ||
    (decide (64 ≤ c.ring.length) && c.ring.head?.any (fun r => r.state != .complete || decide (c.ccy ≤ r.time)))

/-- Nothing stands before a word that is dispatched now (R63, R329). -/
def LCore.flowing (c : LCore) : Bool := c.posts.isEmpty && c.unfinished.isEmpty

/-- The logical core with the word `i` just dispatched; the ring keeps 64 entries (R62). -/
def LCore.dispatched (i : Instr) (k : Capture) (c : LCore) : LCore :=
  { c with ring := (c.ring ++ [c.entry i k]).drop (c.ring.length + 1 - 64), nextSeq := c.nextSeq + 1 }

/-- A new ring entry for the word at the pc (R62, R66). -/
def dispatch (i : Instr) (k : Capture) : Ex (BitVec 16) := do
  let c ← cur
  modCur (LCore.dispatched i k)
  return c.nextSeq

/-- A word that must wait has changed nothing, and runs again; the tile loader goes on meanwhile. -/
def orStall (m : Ex Bool) : Ex Flow := fun s =>
  match m s with
  | .ok true t => .ok .seq t
  | .ok false _ => .ok (.block .stall) s.finishLoads
  | .error e t => .error e t

/-- Dispatch, then issue: at once where its cycle has come, but behind the instructions that wait in the queue (R62, R64). The scalar pipeline
stalls where there is no room in the queue, or for the pins of the word (R195). -/
def enqueue (i : Instr) (u : CopUnit) (prep : Ex Capture) (act : RingEntry → Ex Issued) : Ex Flow := do
  orStall do
    let c ← cur
    if c.ringFull then return false
    let k ← prep
    if !(← get).pinRoom (capturedPins k.ptr.ptr k.entry) then return false
    let q ← dispatch i k
    if c.flowing then issue u act q
    return true

/-- A coprocessor word: the scalar checks, what dispatch does and captures, then its issue. A handler of a late fault
may dispatch none (R329, reason 25). -/
def runCop (i : Instr) (uses : List (BitVec 5)) (u : CopUnit) (prep : Ex Capture) (act : RingEntry → Ex Issued)
    (s : State) : Host.Outcome State Fault Refusal :=
  runWord i ⟨uses, 0, 1, 1⟩ (do
    if (← cur).handler ≠ 0 then rangeTrap i 25
    enqueue i u prep act) s

/-- Nothing captured. -/
def noCapture : Ex Capture := return {}

/-- The x registers an instruction reads are captured at dispatch. -/
def captureX (a b : BitVec 5) : Ex Capture := do
  let c ← cur
  return { xa := c.getX a, xb := c.getX b }

/-- Keep the sources a vector memory instruction has read, for its resumption (R66, R355). -/
def holdSources (r : RingEntry) (s1 s2 : VWord) (m : W64) : Ex RingEntry := do
  if r.held then return r
  let r' := { r with held := true, src1 := s1, src2 := s2, mask := m }
  modCur (fun c => c.setEntry r')
  return r'

/-- Record the progress of a ring entry (R66). -/
def setProgress (q : BitVec 16) (n : Nat) : Ex Unit := modCur (fun c =>
  { c with ring := c.ring.map (fun x => if x.seq == q then { x with prog := n } else x) })

/-- Wait until every earlier coprocessor instruction has written its destinations: `cdrain`, and the reads and writes
of VL, FSTAT, FMODE, ASTAT and REPC (R42, R333). Where one has faulted the late fault is taken at this word, which
runs again after the return. -/
def drain : Ex Unit := do
  modify State.quiesce
  match (← get).cur.late with
  | some l => throw l.exn
  | none => pure ()

end Sys2Proof.Machine
end

