-- ==== Sys2Proof/Machine/Vector.lean ====
section
/-! DEFINITION. The vector instructions (R122 to R139), but for memory and streams. -/

namespace Sys2Proof.Machine

/-! ### Elements and masks (R119, R120) -/

/-- Bytes of an element of a type of one byte or more. -/
def elemBytes (t : Nat) : Nat := Fp.width t / 8
/-- Active elements of single width (R120). Where VL is no multiple of the width the quotient is rounded down, as R128 writes it for the
mixed widths; R120 gives no rounding (DEDUCED). -/
def activeElems (vl : BitVec 7) (t : Nat) : Nat := vl.toNat / elemBytes t
/-- Element i of a register read in elements of `w` bits. -/
def elemAt (v : VWord) (w i : Nat) : Nat := v.toNat / 2 ^ (w * i) % 2 ^ w

/-- Lane `k` is selected by a mask value and NEG (R120). -/
def laneSel (m : W64) (n : BitVec 1) (k : Nat) : Bool := m.getLsbD k != (n == 1)

/-- A write of listed elements of `w` bits: (index, value). -/
def elemWrite (d : BitVec 5) (w : Nat) (l : List (Nat × Nat)) : PendDest :=
  .v d (BitVec.ofNat 512 (l.foldl (fun s e => s ||| (2 ^ w - 1) * 2 ^ (w * e.1)) 0))
    (BitVec.ofNat 512 (l.foldl (fun s e => s ||| e.2 % 2 ^ w * 2 ^ (w * e.1)) 0))

/-- The selected active elements of an instruction of single width. -/
def selected (e : RingEntry) (t : Nat) (m : W64) (n : BitVec 1) : List Nat :=
  (List.range (activeElems e.vl t)).filter (fun i => laneSel m n (elemBytes t * i))

/-- An element-wise instruction: each selected active element of vd is a function of its index, with flags raised per
selected lane (R88). -/
def elementWise (d : BitVec 5) (t : Nat) (m : BitVec 3) (n : BitVec 1) (busy lat : Nat)
    (f : LCore → Nat → Nat × Fp.Flags) (e : RingEntry) : Ex Issued := do
  let c ← cur
  let r := (selected e t (c.getM m) n).map (fun i => (i, f c i))
  raiseFlags (r.foldl (fun fl x => fl ||| x.2.2) 0)
  return { writes := [elemWrite d (Fp.width t) (r.map (fun x => (x.1, x.2.1)))], busy := busy, lat := lat }

/-- Element i of two sources and of the old destination. -/
def ternary (d a b : BitVec 5) (t : BitVec 4) (f : Fp.Mode → Nat → Nat → Nat → Nat → Nat × Fp.Flags)
    (c : LCore) (i : Nat) : Nat × Fp.Flags :=
  let w := Fp.width t.toNat
  f c.mode i (elemAt (c.getV a) w i) (elemAt (c.getV b) w i) (elemAt (c.getV d) w i)

/-! ### Element operations -/

/-- Integer result of an operation on exact values, wrapped (R124). -/
def intOp (t : Nat) (f : Int → Int → Int) (a b : Nat) : Nat :=
  Fp.intBits t (f (Fp.intVal t a) (Fp.intVal t b))

/-- Floating result of an exact operation rounded once (R125). -/
def floatOp (t : Nat) (md : Fp.Mode) (i : Nat) (x : Fp.Num × Fp.Flags) : Nat × Fp.Flags :=
  let (r, g) := Fp.round x.1 t md i
  (r, x.2 ||| g)

/-- `vfmin` and `vfmax` (R125): −0 below +0, a number in place of one NaN, nothing rounded. -/
def floatMinMax (big : Bool) (t a b : Nat) : Nat × Fp.Flags :=
  let x := Fp.decode t a
  let y := Fp.decode t b
  let fl := Fp.sigFlag [x, y]
  if Fp.isNaN x && Fp.isNaN y then (Fp.canonNaN t, fl)
  else if Fp.isNaN x then (b, fl)
  else if Fp.isNaN y then (a, fl)
  else
    let k := Fp.cmp x y
    let aLess := if Fp.isZero x && Fp.isZero y then Fp.negOf x else k ≤ 0
    (if aLess != big then a else b, fl)

/-- Lesser or greater of two integer elements (R124). -/
def intMinMax (big : Bool) (t a b : Nat) : Nat :=
  if (decide (Fp.intVal t a ≤ Fp.intVal t b)) != big then a else b

/-- Unsigned type of the width of t. -/
def unsignedOf (t : Nat) : Nat := if Fp.width t = 8 then 4 else if Fp.width t = 16 then 5 else if Fp.width t = 32 then 6 else 7
def signedOf (t : Nat) : Nat := if Fp.width t = 8 then 0 else if Fp.width t = 16 then 1 else if Fp.width t = 32 then 2 else 3

/-- Addition, subtraction, multiplication of one element of any type 0 to 11 (R124, R125). -/
def arith (t : BitVec 4) (fi : Int → Int → Int) (ff : Fp.Num → Fp.Num → Nat → Fp.Num × Fp.Flags) (md : Fp.Mode)
    (i a b : Nat) : Nat × Fp.Flags :=
  if Fp.isFloat t.toNat then
    floatOp t.toNat md i (ff (Fp.decode t.toNat a) (Fp.decode t.toNat b) md.rm)
  else (intOp t.toNat fi a b, 0)

/-- Fused multiply-add with signs (R125). -/
def fused (t : BitVec 4) (negP negD : Bool) (md : Fp.Mode) (i a b d : Nat) : Nat × Fp.Flags :=
  let x := Fp.decode t.toNat a
  let y := Fp.decode t.toNat d
  floatOp t.toNat md i
    (Fp.fmaExact (if negP then Fp.neg x else x) (Fp.decode t.toNat b) (if negD then Fp.neg y else y) md.rm)

/-- Shift of an integer element by its low bits (R124). -/
def shiftOp (t : BitVec 4) (kind : Nat) (a b : Nat) : Nat :=
  let w := Fp.width t.toNat
  let sh := b % w
  if kind = 0 then a * 2 ^ sh % 2 ^ w
  else if kind = 1 then a / 2 ^ sh
  else Fp.intBits t.toNat (sextNat a w / 2 ^ sh)

/-- Figures of the arithmetic instructions (R123). -/
def figAdd (t : BitVec 4) : Nat × Nat := if t = 8 then (2, 6) else if 8 ≤ t.toNat then (1, 4) else (1, 2)
def figMul (t : BitVec 4) : Nat × Nat := if t = 8 then (2, 6) else (1, 4)
def figDiv (t : BitVec 4) : Nat × Nat := if t = 8 then (16, 24) else if t = 9 then (8, 14) else (4, 10)
def figRed (t : BitVec 4) : Nat := if 8 ≤ t.toNat then 12 else 6

/-- A compare: all the mask bits of the lanes of each selected element (R126). -/
def compare (d : BitVec 3) (a b : BitVec 5) (m : BitVec 3) (n : BitVec 1) (t : BitVec 4)
    (f : Nat → Nat → Bool × Fp.Flags) (e : RingEntry) : Ex Issued := do
  let c ← cur
  let w := Fp.width t.toNat
  let k := elemBytes t.toNat
  let r := (selected e t.toNat (c.getM m) n).map (fun i => (i, f (elemAt (c.getV a) w i) (elemAt (c.getV b) w i)))
  raiseFlags (r.foldl (fun fl x => fl ||| x.2.2) 0)
  let ones := 2 ^ k - 1
  let mask := r.foldl (fun s x => s + ones * 2 ^ (k * x.1)) 0
  let val := r.foldl (fun s x => s + (if x.2.1 then ones * 2 ^ (k * x.1) else 0)) 0
  return { writes := [.m d (BitVec.ofNat 64 mask) (BitVec.ofNat 64 val)], lat := 2 }

/-- An ordered compare of floats (R126): NV on any NaN where `quiet` is false, else on a signalling one. -/
def floatCompare (t : BitVec 4) (quiet : Bool) (un : Bool) (f : Int → Bool) (a b : Nat) : Bool × Fp.Flags :=
  let x := Fp.decode t.toNat a
  let y := Fp.decode t.toNat b
  let anyNaN := Fp.isNaN x || Fp.isNaN y
  let fl := if quiet then Fp.sigFlag [x, y] else if anyNaN then Fp.fNV else 0
  if anyNaN then (un, fl) else (if un then false else f (Fp.cmp x y), fl)

/-! ### Reductions and scans (R130, R131) -/

/-- A value present or ABSENT. -/
abbrev Node := Option Nat

/-- Comb of R130 at a stochastic index. -/
def comb (op : Nat) (t : BitVec 4) (md : Fp.Mode) (i : Nat) (x y : Nat) : Nat × Fp.Flags :=
  if op = 0 then arith t (· + ·) Fp.add md i x y
  else if op = 3 then (x ||| y, 0)
  else if Fp.isFloat t.toNat then floatMinMax (op == 2) t.toNat x y
  else (intMinMax (op == 2) t.toNat x y, 0)

/-- The identity of an operation (R130). -/
def identity (op : Nat) (t : BitVec 4) : Nat :=
  if op = 1 then (if Fp.isFloat t.toNat then Fp.infBits t.toNat else Fp.intBits t.toNat (Fp.intHi t.toNat))
  else if op = 2 then
    (if Fp.isFloat t.toNat then Fp.withSign t.toNat true (Fp.infBits t.toNat) else Fp.intBits t.toNat (Fp.intLo t.toNat))
  else 0

/-- A node of the tree or of the network, at stochastic index i: ABSENT leaves the other as it is (R130). -/
def combNode (op : Nat) (t : BitVec 4) (md : Fp.Mode) (i : Nat) (x y : Node) : Node × Fp.Flags :=
  match x, y with
  | none, _ => (y, 0)
  | _, none => (x, 0)
  | some a, some b =>
    let (r, f) := comb op t md i a b
    (some r, f)

/-- One level of the tree, neighbours in pairs: element `i` is the lowest beneath the first node, and each node of the level
stands for `w` elements (R130). -/
def redLevel (op : Nat) (t : BitVec 4) (md : Fp.Mode) (w : Nat) : Nat → List Node → List Node × Fp.Flags
  | i, x :: y :: l =>
    let (r, f) := combNode op t md i x y
    let (l', g) := redLevel op t md w (i + 2 * w) l
    (r :: l', f ||| g)
  | _, l => (l, 0)

/-- Levels until one node is left, from nodes of `w` elements; `fuel` bounds them. -/
def redTree (op : Nat) (t : BitVec 4) (md : Fp.Mode) : Nat → Nat → List Node → Node × Fp.Flags
  | 0, _, l => (l.headD none, 0)
  | fuel + 1, w, l =>
    if l.length ≤ 1 then (l.headD none, 0)
    else
      let (l', f) := redLevel op t md w 0 l
      let (r, g) := redTree op t md fuel (2 * w) l'
      (r, f ||| g)

/-- The nodes of the selected active elements; unselected ones are ABSENT. -/
def nodesOf (v : VWord) (t : BitVec 4) (e : RingEntry) (m : W64) (n : BitVec 1) : List Node :=
  (List.range (activeElems e.vl t.toNat)).map (fun i =>
    if laneSel m n (elemBytes t.toNat * i) then some (elemAt v (Fp.width t.toNat) i) else none)

/-- `vred` (R130). -/
def reduce (op : Nat) (d a : BitVec 5) (m : BitVec 3) (n : BitVec 1) (t : BitVec 4) (e : RingEntry) : Ex Issued := do
  let c ← cur
  let (r, f) := redTree op t c.mode 8 1 (nodesOf (c.getV a) t e (c.getM m) n)
  raiseFlags f
  return { writes := [elemWrite d (Fp.width t.toNat) [(0, r.getD (identity op t))]], lat := figRed t }

/-- One step of the scan network at distance k: node i takes Comb(y(i − k), y(i)) at index i. A node that stands at an unselected
lane (`sel` false) raises nothing (R88). -/
def scanStep (op : Nat) (t : BitVec 4) (md : Fp.Mode) (sel : Nat → Bool) (k : Nat) (y : List Node) : List Node × Fp.Flags :=
  let r := (y.zipIdx).map (fun p =>
    if p.2 < k then (p.1, (0 : Fp.Flags)) else combNode op t md p.2 (y.getD (p.2 - k) none) p.1)
  (r.map Prod.fst, (r.zipIdx).foldl (fun f q => if sel q.2 then f ||| q.1.2 else f) 0)

/-- The network of R131: distances 1, 2, 4 and so on below n. The lanes selected are those of the nodes present at first. -/
def scanNet (op : Nat) (t : BitVec 4) (md : Fp.Mode) (y0 : List Node) : List Node × Fp.Flags :=
  [1, 2, 4, 8, 16, 32].foldl (fun s k =>
    if k < y0.length then
      let (l, g) := scanStep op t md (fun i => (y0.getD i none).isSome) k s.1
      (l, s.2 ||| g)
    else s) (y0, (0 : Fp.Flags))

/-- `vscan` (R131). -/
def scan (op : Nat) (d a : BitVec 5) (m : BitVec 3) (n : BitVec 1) (t : BitVec 4) (e : RingEntry) : Ex Issued := do
  let c ← cur
  let (y, f) := scanNet op t c.mode (nodesOf (c.getV a) t e (c.getM m) n)
  raiseFlags f
  let sel := selected e t.toNat (c.getM m) n
  return { writes := [elemWrite d (Fp.width t.toNat) (sel.map (fun i => (i, (y.getD i none).getD 0)))],
           lat := figRed t }

/-! ### Conversion and quantisation -/

/-- `vcvt` and `vcvt.sat` (R128); bit counts stand for the widths, half a byte for e2m1. -/
def convertVec (ov : Fp.Over) (d a : BitVec 5) (s : BitVec 4) (m : BitVec 3) (n : BitVec 1) (t : BitVec 4)
    (e : RingEntry) : Ex Issued := do
  let c ← cur
  let wt := Fp.width t.toNat
  let ws := Fp.width s.toNat
  let wm := max wt ws
  let cnt := e.vl.toNat * 8 / wm
  let sel := (List.range cnt).filter (fun i => laneSel (c.getM m) n (i * wm / 8))
  let r := sel.map (fun i => (i, Fp.cvt s.toNat t.toNat (elemAt (c.getV a) ws i) c.mode i ov))
  raiseFlags (r.foldl (fun fl x => fl ||| x.2.2) 0)
  return { writes := [elemWrite d wt (r.map (fun x => (x.1, x.2.1)))], lat := 4 }

/-- Elements of n registers from `a` on, read as FP32 patterns. -/
def fp32s (c : LCore) (a : BitVec 5) (n : Nat) : List Nat :=
  (List.range (16 * n)).map (fun i => elemAt (c.getV (a + BitVec.ofNat 5 (i / 16))) 32 (i % 16))

/-- Elements of w bits packed from bit 0. -/
def packElems (w : Nat) (l : List Nat) : Nat := l.foldr (fun x s => x % 2 ^ w + 2 ^ w * s) 0

/-- The MX block of R129: elements, then the scale byte. -/
def quantMx (t : Nat) (xs : List Nat) (md : Fp.Mode) : Nat × Fp.Flags :=
  let (x, el, f) := Fp.quantBlock t (xs.map (Fp.decode 9)) md
  (packElems (Fp.width t) el + x * 2 ^ (if t = 14 then 128 else 256), f)

/-- The nearest integer of a value that is not negative, ties to even. -/
def nearestInt (x : Fp.Num) : Nat :=
  match x with
  | .fin _ m e => (Fp.roundAt Fp.Mode.rne false m e 0 0).1
  | _ => 0

/-- Whether a decoded value is another than the input (R129); a NaN is the same as a NaN. -/
def differs (x y : Fp.Num) : Bool :=
  if Fp.isNaN x || Fp.isNaN y then Fp.isNaN x != Fp.isNaN y else Fp.cmp x y != 0

/-- The distance of two values, for the choice of a code. -/
def gap (x y : Fp.Num) : Fp.Num :=
  match (Fp.add x (Fp.neg y) 0).1 with
  | .fin _ m e => .fin false m e
  | .inf _ => .inf false
  | z => z

/-- The Q4 block of R129. A code whose decoded value is a NaN, where RNE(b · S) is infinite, is nearest to nothing. -/
def quantQ4 (xs : List Nat) (sos : Nat) : Nat × Fp.Flags :=
  let vals := xs.map (Fp.decode 9)
  let sv := Fp.decode 9 sos
  let inexact := fun (codes : List Nat) (sc : Nat) =>
    if (codes.zip vals).any (fun p => differs (Fp.decode 9 (Fp.q4Value p.1 sc)) p.2) then Fp.fNX else 0
  let sevens := xs.map (fun _ => 7)
  let okS := match sv with
    | .fin false m _ => m != 0
    | _ => false
  match okS, Fp.blockMax vals with
  | true, some amax =>
    let b := min 255 (nearestInt (Fp.div amax sv).1)
    let sc := Fp.q4Scale b sos
    let codes := if b = 0 then sevens else
      vals.map (fun x => (List.range 16).foldl (fun best k =>
        let dist := fun (j : Nat) => gap x (Fp.decode 9 (Fp.q4Value j sc))
        if !Fp.isNaN (dist k) && Fp.cmp (dist k) (dist best) < 0 then k else best) 0)
    (packElems 4 codes + b * 2 ^ 256, inexact codes sc)
  | _, _ => (packElems 4 sevens, Fp.fNV ||| inexact sevens (Fp.q4Scale 0 sos))

/-- `vquant` (R129). -/
def quantVec (d a b : BitVec 5) (t : BitVec 4) (_e : RingEntry) : Ex Issued := do
  let c ← cur
  let (v, f) := if t = 15 then quantQ4 (fp32s c a 4) (elemAt (c.getV b) 32 0)
    else quantMx t.toNat (fp32s c a 2) c.mode
  raiseFlags f
  return { writes := [.v d (BitVec.allOnes 512) (BitVec.ofNat 512 v)], busy := 2, lat := 8 }

/-! ### Moving elements -/

/-- Elements given by index, or left as they are. -/
def moveWrite (d : BitVec 5) (t : Nat) (l : List (Nat × Option Nat)) (busy lat : Nat) : Issued :=
  { writes := [elemWrite d (Fp.width t) (l.filterMap (fun x => x.2.map (fun v => (x.1, v))))], busy := busy, lat := lat }

/-- Selected active elements below each index (R134). -/
def countBelow (sel : List Nat) (i : Nat) : Nat := (sel.filter (fun k => decide (k < i))).length

/-- Whether element a comes before b among the largest (R137): greater value, NaN after every number, lower number
first. -/
def topBefore (t : BitVec 4) (v : VWord) (i j : Nat) : Bool :=
  let a := elemAt v (Fp.width t.toNat) i
  let b := elemAt v (Fp.width t.toNat) j
  let x := Fp.value t.toNat a
  let y := Fp.value t.toNat b
  if Fp.isNaN x && Fp.isNaN y then decide (i < j)
  else if Fp.isNaN x then false
  else if Fp.isNaN y then true
  else if Fp.cmp x y > 0 then true
  else if Fp.cmp x y < 0 then false
  else decide (i < j)

/-- Insert an element number in the order of R137. -/
def topInsert (t : BitVec 4) (v : VWord) (i : Nat) : List Nat → List Nat
  | [] => [i]
  | j :: l => if topBefore t v i j then i :: j :: l else j :: topInsert t v i l

/-! ### Exact accumulation (R138, R139) -/

def poison : Int := -(2 ^ 127 : Int)

/-- An anchor: one far outside the range of every format acts as the last one in this range does. -/
def nearAnchor (a : W64) : Int := max (-8192) (min 8192 a.toInt)

/-- One element into one lane (R138). -/
def xaccStep (anchor : Int) (x : Fp.Num) (l : Int) : Int × Fp.Flags :=
  if l = poison then (l, 0)
  else
    match x with
    | .fin s m e =>
      if Fp.cmp (.fin false m e) (.fin false 1 (anchor + 31)) ≥ 0 then (poison, Fp.fOF)
      else
        let u : Int := ((Fp.split m e (anchor - 96)).1 : Nat)
        let r := l + (if s then -u else u)
        if r < -(2 ^ 127 - 1 : Int) ∨ (2 ^ 127 - 1 : Int) < r then (poison, Fp.fOF) else (r, 0)
    | _ => (poison, Fp.fNV)

/-- Lane l of a register as a signed number. -/
def laneVal (v : VWord) (l : Nat) : Int := sextNat (elemAt v 128 l) 128

/-- `vxacc` over the selected elements, in increasing number (R138). -/
def xaccAll (anchor : Int) (t : BitVec 4) (v : VWord) : List Nat → (List Int × Fp.Flags) → List Int × Fp.Flags
  | [], s => s
  | j :: l, s =>
    let (r, f) := xaccStep anchor (Fp.decode t.toNat (elemAt v (Fp.width t.toNat) j)) (s.1.getD (j % 4) 0)
    xaccAll anchor t v l (s.1.set (j % 4) r, s.2 ||| f)

/-- `vadd` (R124, R125). -/
def actVadd (d : BitVec 5) (a : BitVec 5) (b : BitVec 5) (m : BitVec 3) (n : BitVec 1) (t : BitVec 4) : RingEntry → Ex Issued :=
  elementWise d t.toNat m n (figAdd t).1 (figAdd t).2 (ternary d a b t (fun md i x y z => arith t (· + ·) Fp.add md i x y))

/-- `vadd` (R124, R125). -/
def execVadd (d : BitVec 5) (a : BitVec 5) (b : BitVec 5) (m : BitVec 3) (n : BitVec 1) (t : BitVec 4) (s : State) : Host.Outcome State Fault Refusal :=
  runCop (.vadd d a b m n t) [] vecUnit (noCapture) (actVadd d a b m n t) s

/-- `vsub` (R124, R125). -/
def actVsub (d : BitVec 5) (a : BitVec 5) (b : BitVec 5) (m : BitVec 3) (n : BitVec 1) (t : BitVec 4) : RingEntry → Ex Issued :=
  elementWise d t.toNat m n (figAdd t).1 (figAdd t).2 (ternary d a b t (fun md i x y z => arith t (· - ·) (fun p q rm => Fp.add p (Fp.neg q) rm) md i x y))

/-- `vsub` (R124, R125). -/
def execVsub (d : BitVec 5) (a : BitVec 5) (b : BitVec 5) (m : BitVec 3) (n : BitVec 1) (t : BitVec 4) (s : State) : Host.Outcome State Fault Refusal :=
  runCop (.vsub d a b m n t) [] vecUnit (noCapture) (actVsub d a b m n t) s

/-- `vmul` (R124, R125). -/
def actVmul (d : BitVec 5) (a : BitVec 5) (b : BitVec 5) (m : BitVec 3) (n : BitVec 1) (t : BitVec 4) : RingEntry → Ex Issued :=
  elementWise d t.toNat m n (figMul t).1 (figMul t).2 (ternary d a b t (fun md i x y z => arith t (· * ·) (fun p q _ => Fp.mul p q) md i x y))

/-- `vmul` (R124, R125). -/
def execVmul (d : BitVec 5) (a : BitVec 5) (b : BitVec 5) (m : BitVec 3) (n : BitVec 1) (t : BitVec 4) (s : State) : Host.Outcome State Fault Refusal :=
  runCop (.vmul d a b m n t) [] vecUnit (noCapture) (actVmul d a b m n t) s

/-- `vmulh`: the high half of the signed product (R124). -/
def actVmulh (d : BitVec 5) (a : BitVec 5) (b : BitVec 5) (m : BitVec 3) (n : BitVec 1) (t : BitVec 4) : RingEntry → Ex Issued :=
  elementWise d t.toNat m n ((1, 4)).1 ((1, 4)).2 (ternary d a b t (fun md i x y z => (intOp t.toNat (fun p q => p * q / 2 ^ Fp.width t.toNat) x y, 0)))

/-- `vmulh`: the high half of the signed product (R124). -/
def execVmulh (d : BitVec 5) (a : BitVec 5) (b : BitVec 5) (m : BitVec 3) (n : BitVec 1) (t : BitVec 4) (s : State) : Host.Outcome State Fault Refusal :=
  runCop (.vmulh d a b m n t) [] vecUnit (noCapture) (actVmulh d a b m n t) s

/-- `vmulhz`: the high half of the unsigned product (R124). -/
def actVmulhz (d : BitVec 5) (a : BitVec 5) (b : BitVec 5) (m : BitVec 3) (n : BitVec 1) (t : BitVec 4) : RingEntry → Ex Issued :=
  elementWise d t.toNat m n ((1, 4)).1 ((1, 4)).2 (ternary d a b t (fun md i x y z => (intOp t.toNat (fun p q => p * q / 2 ^ Fp.width t.toNat) x y, 0)))

/-- `vmulhz`: the high half of the unsigned product (R124). -/
def execVmulhz (d : BitVec 5) (a : BitVec 5) (b : BitVec 5) (m : BitVec 3) (n : BitVec 1) (t : BitVec 4) (s : State) : Host.Outcome State Fault Refusal :=
  runCop (.vmulhz d a b m n t) [] vecUnit (noCapture) (actVmulhz d a b m n t) s

/-- `vfma` (R125). -/
def actVfma (d : BitVec 5) (a : BitVec 5) (b : BitVec 5) (m : BitVec 3) (n : BitVec 1) (t : BitVec 4) : RingEntry → Ex Issued :=
  elementWise d t.toNat m n (figMul t).1 (figMul t).2 (ternary d a b t (fun md i x y z => fused t false false md i x y z))

/-- `vfma` (R125). -/
def execVfma (d : BitVec 5) (a : BitVec 5) (b : BitVec 5) (m : BitVec 3) (n : BitVec 1) (t : BitVec 4) (s : State) : Host.Outcome State Fault Refusal :=
  runCop (.vfma d a b m n t) [] vecUnit (noCapture) (actVfma d a b m n t) s

/-- `vfms` (R125). -/
def actVfms (d : BitVec 5) (a : BitVec 5) (b : BitVec 5) (m : BitVec 3) (n : BitVec 1) (t : BitVec 4) : RingEntry → Ex Issued :=
  elementWise d t.toNat m n (figMul t).1 (figMul t).2 (ternary d a b t (fun md i x y z => fused t false true md i x y z))

/-- `vfms` (R125). -/
def execVfms (d : BitVec 5) (a : BitVec 5) (b : BitVec 5) (m : BitVec 3) (n : BitVec 1) (t : BitVec 4) (s : State) : Host.Outcome State Fault Refusal :=
  runCop (.vfms d a b m n t) [] vecUnit (noCapture) (actVfms d a b m n t) s

/-- `vfnma` (R125). -/
def actVfnma (d : BitVec 5) (a : BitVec 5) (b : BitVec 5) (m : BitVec 3) (n : BitVec 1) (t : BitVec 4) : RingEntry → Ex Issued :=
  elementWise d t.toNat m n (figMul t).1 (figMul t).2 (ternary d a b t (fun md i x y z => fused t true false md i x y z))

/-- `vfnma` (R125). -/
def execVfnma (d : BitVec 5) (a : BitVec 5) (b : BitVec 5) (m : BitVec 3) (n : BitVec 1) (t : BitVec 4) (s : State) : Host.Outcome State Fault Refusal :=
  runCop (.vfnma d a b m n t) [] vecUnit (noCapture) (actVfnma d a b m n t) s

/-- `vfnms` (R125). -/
def actVfnms (d : BitVec 5) (a : BitVec 5) (b : BitVec 5) (m : BitVec 3) (n : BitVec 1) (t : BitVec 4) : RingEntry → Ex Issued :=
  elementWise d t.toNat m n (figMul t).1 (figMul t).2 (ternary d a b t (fun md i x y z => fused t true true md i x y z))

/-- `vfnms` (R125). -/
def execVfnms (d : BitVec 5) (a : BitVec 5) (b : BitVec 5) (m : BitVec 3) (n : BitVec 1) (t : BitVec 4) (s : State) : Host.Outcome State Fault Refusal :=
  runCop (.vfnms d a b m n t) [] vecUnit (noCapture) (actVfnms d a b m n t) s

/-- `vfdiv` (R125). -/
def actVfdiv (d : BitVec 5) (a : BitVec 5) (b : BitVec 5) (m : BitVec 3) (n : BitVec 1) (t : BitVec 4) : RingEntry → Ex Issued :=
  elementWise d t.toNat m n (figDiv t).1 (figDiv t).2 (ternary d a b t (fun md i x y z => floatOp t.toNat md i (Fp.div (Fp.decode t.toNat x) (Fp.decode t.toNat y))))

/-- `vfdiv` (R125). -/
def execVfdiv (d : BitVec 5) (a : BitVec 5) (b : BitVec 5) (m : BitVec 3) (n : BitVec 1) (t : BitVec 4) (s : State) : Host.Outcome State Fault Refusal :=
  runCop (.vfdiv d a b m n t) [] vecUnit (noCapture) (actVfdiv d a b m n t) s

/-- `vmin` (R124). -/
def actVmin (d : BitVec 5) (a : BitVec 5) (b : BitVec 5) (m : BitVec 3) (n : BitVec 1) (t : BitVec 4) : RingEntry → Ex Issued :=
  elementWise d t.toNat m n ((1, 2)).1 ((1, 2)).2 (ternary d a b t (fun md i x y z => (intMinMax false t.toNat x y, 0)))

/-- `vmin` (R124). -/
def execVmin (d : BitVec 5) (a : BitVec 5) (b : BitVec 5) (m : BitVec 3) (n : BitVec 1) (t : BitVec 4) (s : State) : Host.Outcome State Fault Refusal :=
  runCop (.vmin d a b m n t) [] vecUnit (noCapture) (actVmin d a b m n t) s

/-- `vmax` (R124). -/
def actVmax (d : BitVec 5) (a : BitVec 5) (b : BitVec 5) (m : BitVec 3) (n : BitVec 1) (t : BitVec 4) : RingEntry → Ex Issued :=
  elementWise d t.toNat m n ((1, 2)).1 ((1, 2)).2 (ternary d a b t (fun md i x y z => (intMinMax true t.toNat x y, 0)))

/-- `vmax` (R124). -/
def execVmax (d : BitVec 5) (a : BitVec 5) (b : BitVec 5) (m : BitVec 3) (n : BitVec 1) (t : BitVec 4) (s : State) : Host.Outcome State Fault Refusal :=
  runCop (.vmax d a b m n t) [] vecUnit (noCapture) (actVmax d a b m n t) s

/-- `vminz` (R124). -/
def actVminz (d : BitVec 5) (a : BitVec 5) (b : BitVec 5) (m : BitVec 3) (n : BitVec 1) (t : BitVec 4) : RingEntry → Ex Issued :=
  elementWise d t.toNat m n ((1, 2)).1 ((1, 2)).2 (ternary d a b t (fun md i x y z => (intMinMax false t.toNat x y, 0)))

/-- `vminz` (R124). -/
def execVminz (d : BitVec 5) (a : BitVec 5) (b : BitVec 5) (m : BitVec 3) (n : BitVec 1) (t : BitVec 4) (s : State) : Host.Outcome State Fault Refusal :=
  runCop (.vminz d a b m n t) [] vecUnit (noCapture) (actVminz d a b m n t) s

/-- `vmaxz` (R124). -/
def actVmaxz (d : BitVec 5) (a : BitVec 5) (b : BitVec 5) (m : BitVec 3) (n : BitVec 1) (t : BitVec 4) : RingEntry → Ex Issued :=
  elementWise d t.toNat m n ((1, 2)).1 ((1, 2)).2 (ternary d a b t (fun md i x y z => (intMinMax true t.toNat x y, 0)))

/-- `vmaxz` (R124). -/
def execVmaxz (d : BitVec 5) (a : BitVec 5) (b : BitVec 5) (m : BitVec 3) (n : BitVec 1) (t : BitVec 4) (s : State) : Host.Outcome State Fault Refusal :=
  runCop (.vmaxz d a b m n t) [] vecUnit (noCapture) (actVmaxz d a b m n t) s

/-- `vfmin` (R125). -/
def actVfmin (d : BitVec 5) (a : BitVec 5) (b : BitVec 5) (m : BitVec 3) (n : BitVec 1) (t : BitVec 4) : RingEntry → Ex Issued :=
  elementWise d t.toNat m n ((1, 2)).1 ((1, 2)).2 (ternary d a b t (fun md i x y z => floatMinMax false t.toNat x y))

/-- `vfmin` (R125). -/
def execVfmin (d : BitVec 5) (a : BitVec 5) (b : BitVec 5) (m : BitVec 3) (n : BitVec 1) (t : BitVec 4) (s : State) : Host.Outcome State Fault Refusal :=
  runCop (.vfmin d a b m n t) [] vecUnit (noCapture) (actVfmin d a b m n t) s

/-- `vfmax` (R125). -/
def actVfmax (d : BitVec 5) (a : BitVec 5) (b : BitVec 5) (m : BitVec 3) (n : BitVec 1) (t : BitVec 4) : RingEntry → Ex Issued :=
  elementWise d t.toNat m n ((1, 2)).1 ((1, 2)).2 (ternary d a b t (fun md i x y z => floatMinMax true t.toNat x y))

/-- `vfmax` (R125). -/
def execVfmax (d : BitVec 5) (a : BitVec 5) (b : BitVec 5) (m : BitVec 3) (n : BitVec 1) (t : BitVec 4) (s : State) : Host.Outcome State Fault Refusal :=
  runCop (.vfmax d a b m n t) [] vecUnit (noCapture) (actVfmax d a b m n t) s

/-- `vand` (R124). -/
def actVand (d : BitVec 5) (a : BitVec 5) (b : BitVec 5) (m : BitVec 3) (n : BitVec 1) (t : BitVec 4) : RingEntry → Ex Issued :=
  elementWise d t.toNat m n ((1, 2)).1 ((1, 2)).2 (ternary d a b t (fun md i x y z => (x &&& y, 0)))

/-- `vand` (R124). -/
def execVand (d : BitVec 5) (a : BitVec 5) (b : BitVec 5) (m : BitVec 3) (n : BitVec 1) (t : BitVec 4) (s : State) : Host.Outcome State Fault Refusal :=
  runCop (.vand d a b m n t) [] vecUnit (noCapture) (actVand d a b m n t) s

/-- `vor` (R124). -/
def actVor (d : BitVec 5) (a : BitVec 5) (b : BitVec 5) (m : BitVec 3) (n : BitVec 1) (t : BitVec 4) : RingEntry → Ex Issued :=
  elementWise d t.toNat m n ((1, 2)).1 ((1, 2)).2 (ternary d a b t (fun md i x y z => (x ||| y, 0)))

/-- `vor` (R124). -/
def execVor (d : BitVec 5) (a : BitVec 5) (b : BitVec 5) (m : BitVec 3) (n : BitVec 1) (t : BitVec 4) (s : State) : Host.Outcome State Fault Refusal :=
  runCop (.vor d a b m n t) [] vecUnit (noCapture) (actVor d a b m n t) s

/-- `vxor` (R124). -/
def actVxor (d : BitVec 5) (a : BitVec 5) (b : BitVec 5) (m : BitVec 3) (n : BitVec 1) (t : BitVec 4) : RingEntry → Ex Issued :=
  elementWise d t.toNat m n ((1, 2)).1 ((1, 2)).2 (ternary d a b t (fun md i x y z => (x ^^^ y, 0)))

/-- `vxor` (R124). -/
def execVxor (d : BitVec 5) (a : BitVec 5) (b : BitVec 5) (m : BitVec 3) (n : BitVec 1) (t : BitVec 4) (s : State) : Host.Outcome State Fault Refusal :=
  runCop (.vxor d a b m n t) [] vecUnit (noCapture) (actVxor d a b m n t) s

/-- `vandn` (R124). -/
def actVandn (d : BitVec 5) (a : BitVec 5) (b : BitVec 5) (m : BitVec 3) (n : BitVec 1) (t : BitVec 4) : RingEntry → Ex Issued :=
  elementWise d t.toNat m n ((1, 2)).1 ((1, 2)).2 (ternary d a b t (fun md i x y z => (x - (x &&& y), 0)))

/-- `vandn` (R124). -/
def execVandn (d : BitVec 5) (a : BitVec 5) (b : BitVec 5) (m : BitVec 3) (n : BitVec 1) (t : BitVec 4) (s : State) : Host.Outcome State Fault Refusal :=
  runCop (.vandn d a b m n t) [] vecUnit (noCapture) (actVandn d a b m n t) s

/-- `vshl` (R124). -/
def actVshl (d : BitVec 5) (a : BitVec 5) (b : BitVec 5) (m : BitVec 3) (n : BitVec 1) (t : BitVec 4) : RingEntry → Ex Issued :=
  elementWise d t.toNat m n ((1, 2)).1 ((1, 2)).2 (ternary d a b t (fun md i x y z => (shiftOp t 0 x y, 0)))

/-- `vshl` (R124). -/
def execVshl (d : BitVec 5) (a : BitVec 5) (b : BitVec 5) (m : BitVec 3) (n : BitVec 1) (t : BitVec 4) (s : State) : Host.Outcome State Fault Refusal :=
  runCop (.vshl d a b m n t) [] vecUnit (noCapture) (actVshl d a b m n t) s

/-- `vshr` (R124). -/
def actVshr (d : BitVec 5) (a : BitVec 5) (b : BitVec 5) (m : BitVec 3) (n : BitVec 1) (t : BitVec 4) : RingEntry → Ex Issued :=
  elementWise d t.toNat m n ((1, 2)).1 ((1, 2)).2 (ternary d a b t (fun md i x y z => (shiftOp t 1 x y, 0)))

/-- `vshr` (R124). -/
def execVshr (d : BitVec 5) (a : BitVec 5) (b : BitVec 5) (m : BitVec 3) (n : BitVec 1) (t : BitVec 4) (s : State) : Host.Outcome State Fault Refusal :=
  runCop (.vshr d a b m n t) [] vecUnit (noCapture) (actVshr d a b m n t) s

/-- `vsar` (R124). -/
def actVsar (d : BitVec 5) (a : BitVec 5) (b : BitVec 5) (m : BitVec 3) (n : BitVec 1) (t : BitVec 4) : RingEntry → Ex Issued :=
  elementWise d t.toNat m n ((1, 2)).1 ((1, 2)).2 (ternary d a b t (fun md i x y z => (shiftOp t 2 x y, 0)))

/-- `vsar` (R124). -/
def execVsar (d : BitVec 5) (a : BitVec 5) (b : BitVec 5) (m : BitVec 3) (n : BitVec 1) (t : BitVec 4) (s : State) : Host.Outcome State Fault Refusal :=
  runCop (.vsar d a b m n t) [] vecUnit (noCapture) (actVsar d a b m n t) s

/-- `vfsqrt` (R125). -/
def actVfsqrt (d : BitVec 5) (a : BitVec 5) (m : BitVec 3) (n : BitVec 1) (t : BitVec 4) : RingEntry → Ex Issued :=
  elementWise d t.toNat m n (figDiv t).1 (figDiv t).2
    (ternary d a a t (fun md i x _ _ => floatOp t.toNat md i (Fp.sqrt (Fp.decode t.toNat x))))

/-- `vfsqrt` (R125). -/
def execVfsqrt (d : BitVec 5) (a : BitVec 5) (m : BitVec 3) (n : BitVec 1) (t : BitVec 4) (s : State) : Host.Outcome State Fault Refusal :=
  runCop (.vfsqrt d a m n t) [] vecUnit (noCapture) (actVfsqrt d a m n t) s

/-- `vcmp.eq` (R126). -/
def actVcmpEq (d : BitVec 3) (a : BitVec 5) (b : BitVec 5) (m : BitVec 3) (n : BitVec 1) (t : BitVec 4) : RingEntry → Ex Issued :=
  compare d a b m n t (fun x y => (Fp.intVal t.toNat x == Fp.intVal t.toNat y, 0))

/-- `vcmp.eq` (R126). -/
def execVcmpEq (d : BitVec 3) (a : BitVec 5) (b : BitVec 5) (m : BitVec 3) (n : BitVec 1) (t : BitVec 4) (s : State) : Host.Outcome State Fault Refusal :=
  runCop (.vcmpEq d a b m n t) [] vecUnit (noCapture) (actVcmpEq d a b m n t) s

/-- `vcmp.ne` (R126). -/
def actVcmpNe (d : BitVec 3) (a : BitVec 5) (b : BitVec 5) (m : BitVec 3) (n : BitVec 1) (t : BitVec 4) : RingEntry → Ex Issued :=
  compare d a b m n t (fun x y => (Fp.intVal t.toNat x != Fp.intVal t.toNat y, 0))

/-- `vcmp.ne` (R126). -/
def execVcmpNe (d : BitVec 3) (a : BitVec 5) (b : BitVec 5) (m : BitVec 3) (n : BitVec 1) (t : BitVec 4) (s : State) : Host.Outcome State Fault Refusal :=
  runCop (.vcmpNe d a b m n t) [] vecUnit (noCapture) (actVcmpNe d a b m n t) s

/-- `vcmp.lt` (R126). -/
def actVcmpLt (d : BitVec 3) (a : BitVec 5) (b : BitVec 5) (m : BitVec 3) (n : BitVec 1) (t : BitVec 4) : RingEntry → Ex Issued :=
  compare d a b m n t (fun x y => (decide (Fp.intVal t.toNat x < Fp.intVal t.toNat y), 0))

/-- `vcmp.lt` (R126). -/
def execVcmpLt (d : BitVec 3) (a : BitVec 5) (b : BitVec 5) (m : BitVec 3) (n : BitVec 1) (t : BitVec 4) (s : State) : Host.Outcome State Fault Refusal :=
  runCop (.vcmpLt d a b m n t) [] vecUnit (noCapture) (actVcmpLt d a b m n t) s

/-- `vcmp.le` (R126). -/
def actVcmpLe (d : BitVec 3) (a : BitVec 5) (b : BitVec 5) (m : BitVec 3) (n : BitVec 1) (t : BitVec 4) : RingEntry → Ex Issued :=
  compare d a b m n t (fun x y => (decide (Fp.intVal t.toNat x ≤ Fp.intVal t.toNat y), 0))

/-- `vcmp.le` (R126). -/
def execVcmpLe (d : BitVec 3) (a : BitVec 5) (b : BitVec 5) (m : BitVec 3) (n : BitVec 1) (t : BitVec 4) (s : State) : Host.Outcome State Fault Refusal :=
  runCop (.vcmpLe d a b m n t) [] vecUnit (noCapture) (actVcmpLe d a b m n t) s

/-- `vfcmp.eq` (R126). -/
def actVfcmpEq (d : BitVec 3) (a : BitVec 5) (b : BitVec 5) (m : BitVec 3) (n : BitVec 1) (t : BitVec 4) : RingEntry → Ex Issued :=
  compare d a b m n t (fun x y => floatCompare t true false (fun k => k == 0) x y)

/-- `vfcmp.eq` (R126). -/
def execVfcmpEq (d : BitVec 3) (a : BitVec 5) (b : BitVec 5) (m : BitVec 3) (n : BitVec 1) (t : BitVec 4) (s : State) : Host.Outcome State Fault Refusal :=
  runCop (.vfcmpEq d a b m n t) [] vecUnit (noCapture) (actVfcmpEq d a b m n t) s

/-- `vfcmp.lt` (R126). -/
def actVfcmpLt (d : BitVec 3) (a : BitVec 5) (b : BitVec 5) (m : BitVec 3) (n : BitVec 1) (t : BitVec 4) : RingEntry → Ex Issued :=
  compare d a b m n t (fun x y => floatCompare t false false (fun k => decide (k < 0)) x y)

/-- `vfcmp.lt` (R126). -/
def execVfcmpLt (d : BitVec 3) (a : BitVec 5) (b : BitVec 5) (m : BitVec 3) (n : BitVec 1) (t : BitVec 4) (s : State) : Host.Outcome State Fault Refusal :=
  runCop (.vfcmpLt d a b m n t) [] vecUnit (noCapture) (actVfcmpLt d a b m n t) s

/-- `vfcmp.le` (R126). -/
def actVfcmpLe (d : BitVec 3) (a : BitVec 5) (b : BitVec 5) (m : BitVec 3) (n : BitVec 1) (t : BitVec 4) : RingEntry → Ex Issued :=
  compare d a b m n t (fun x y => floatCompare t false false (fun k => decide (k ≤ 0)) x y)

/-- `vfcmp.le` (R126). -/
def execVfcmpLe (d : BitVec 3) (a : BitVec 5) (b : BitVec 5) (m : BitVec 3) (n : BitVec 1) (t : BitVec 4) (s : State) : Host.Outcome State Fault Refusal :=
  runCop (.vfcmpLe d a b m n t) [] vecUnit (noCapture) (actVfcmpLe d a b m n t) s

/-- `vfcmp.un` (R126). -/
def actVfcmpUn (d : BitVec 3) (a : BitVec 5) (b : BitVec 5) (m : BitVec 3) (n : BitVec 1) (t : BitVec 4) : RingEntry → Ex Issued :=
  compare d a b m n t (fun x y => floatCompare t true true (fun _ => false) x y)

/-- `vfcmp.un` (R126). -/
def execVfcmpUn (d : BitVec 3) (a : BitVec 5) (b : BitVec 5) (m : BitVec 3) (n : BitVec 1) (t : BitVec 4) (s : State) : Host.Outcome State Fault Refusal :=
  runCop (.vfcmpUn d a b m n t) [] vecUnit (noCapture) (actVfcmpUn d a b m n t) s

/-- `vsel`: every active element, from va or vb as the selector says (R127). -/
def actVsel (d : BitVec 5) (a : BitVec 5) (b : BitVec 5) (m : BitVec 3) (n : BitVec 1) (t : BitVec 4) : RingEntry → Ex Issued :=
  fun e => do
    let c ← cur
    let w := Fp.width t.toNat
    let l := (List.range (activeElems e.vl t.toNat)).map (fun i =>
      (i, elemAt (if laneSel (c.getM m) n (elemBytes t.toNat * i) then c.getV a else c.getV b) w i))
    return { writes := [elemWrite d w l], lat := 2 }

/-- `vsel`: every active element, from va or vb as the selector says (R127). -/
def execVsel (d : BitVec 5) (a : BitVec 5) (b : BitVec 5) (m : BitVec 3) (n : BitVec 1) (t : BitVec 4) (s : State) : Host.Outcome State Fault Refusal :=
  runCop (.vsel d a b m n t) [] vecUnit (noCapture) (actVsel d a b m n t) s

/-- `vcvt` (R128). -/
def actVcvt (d : BitVec 5) (a : BitVec 5) (sty : BitVec 4) (m : BitVec 3) (n : BitVec 1) (t : BitVec 4) : RingEntry → Ex Issued :=
  convertVec .plain d a sty m n t

/-- `vcvt` (R128). -/
def execVcvt (d : BitVec 5) (a : BitVec 5) (sty : BitVec 4) (m : BitVec 3) (n : BitVec 1) (t : BitVec 4) (s : State) : Host.Outcome State Fault Refusal :=
  runCop (.vcvt d a sty m n t) [] vecUnit (noCapture) (actVcvt d a sty m n t) s

/-- `vcvt.sat` (R128). -/
def actVcvtSat (d : BitVec 5) (a : BitVec 5) (sty : BitVec 4) (m : BitVec 3) (n : BitVec 1) (t : BitVec 4) : RingEntry → Ex Issued :=
  convertVec .sat d a sty m n t

/-- `vcvt.sat` (R128). -/
def execVcvtSat (d : BitVec 5) (a : BitVec 5) (sty : BitVec 4) (m : BitVec 3) (n : BitVec 1) (t : BitVec 4) (s : State) : Host.Outcome State Fault Refusal :=
  runCop (.vcvtSat d a sty m n t) [] vecUnit (noCapture) (actVcvtSat d a sty m n t) s

/-- `vquant` (R129). -/
def actVquant (d : BitVec 5) (a : BitVec 5) (b : BitVec 5) (t : BitVec 4) : RingEntry → Ex Issued :=
  quantVec d a b t

/-- `vquant` (R129). -/
def execVquant (d : BitVec 5) (a : BitVec 5) (b : BitVec 5) (t : BitVec 4) (s : State) : Host.Outcome State Fault Refusal :=
  runCop (.vquant d a b t) [] vecUnit (noCapture) (actVquant d a b t) s

/-- `vred.add` (R130). -/
def actVredAdd (d : BitVec 5) (a : BitVec 5) (m : BitVec 3) (n : BitVec 1) (t : BitVec 4) : RingEntry → Ex Issued :=
  reduce 0 d a m n t

/-- `vred.add` (R130). -/
def execVredAdd (d : BitVec 5) (a : BitVec 5) (m : BitVec 3) (n : BitVec 1) (t : BitVec 4) (s : State) : Host.Outcome State Fault Refusal :=
  runCop (.vredAdd d a m n t) [] vecUnit (noCapture) (actVredAdd d a m n t) s

/-- `vred.min` (R130). -/
def actVredMin (d : BitVec 5) (a : BitVec 5) (m : BitVec 3) (n : BitVec 1) (t : BitVec 4) : RingEntry → Ex Issued :=
  reduce 1 d a m n t

/-- `vred.min` (R130). -/
def execVredMin (d : BitVec 5) (a : BitVec 5) (m : BitVec 3) (n : BitVec 1) (t : BitVec 4) (s : State) : Host.Outcome State Fault Refusal :=
  runCop (.vredMin d a m n t) [] vecUnit (noCapture) (actVredMin d a m n t) s

/-- `vred.max` (R130). -/
def actVredMax (d : BitVec 5) (a : BitVec 5) (m : BitVec 3) (n : BitVec 1) (t : BitVec 4) : RingEntry → Ex Issued :=
  reduce 2 d a m n t

/-- `vred.max` (R130). -/
def execVredMax (d : BitVec 5) (a : BitVec 5) (m : BitVec 3) (n : BitVec 1) (t : BitVec 4) (s : State) : Host.Outcome State Fault Refusal :=
  runCop (.vredMax d a m n t) [] vecUnit (noCapture) (actVredMax d a m n t) s

/-- `vred.or` (R130). -/
def actVredOr (d : BitVec 5) (a : BitVec 5) (m : BitVec 3) (n : BitVec 1) (t : BitVec 4) : RingEntry → Ex Issued :=
  reduce 3 d a m n t

/-- `vred.or` (R130). -/
def execVredOr (d : BitVec 5) (a : BitVec 5) (m : BitVec 3) (n : BitVec 1) (t : BitVec 4) (s : State) : Host.Outcome State Fault Refusal :=
  runCop (.vredOr d a m n t) [] vecUnit (noCapture) (actVredOr d a m n t) s

/-- `vscan.add` (R131). -/
def actVscanAdd (d : BitVec 5) (a : BitVec 5) (m : BitVec 3) (n : BitVec 1) (t : BitVec 4) : RingEntry → Ex Issued :=
  scan 0 d a m n t

/-- `vscan.add` (R131). -/
def execVscanAdd (d : BitVec 5) (a : BitVec 5) (m : BitVec 3) (n : BitVec 1) (t : BitVec 4) (s : State) : Host.Outcome State Fault Refusal :=
  runCop (.vscanAdd d a m n t) [] vecUnit (noCapture) (actVscanAdd d a m n t) s

/-- `vscan.min` (R131). -/
def actVscanMin (d : BitVec 5) (a : BitVec 5) (m : BitVec 3) (n : BitVec 1) (t : BitVec 4) : RingEntry → Ex Issued :=
  scan 1 d a m n t

/-- `vscan.min` (R131). -/
def execVscanMin (d : BitVec 5) (a : BitVec 5) (m : BitVec 3) (n : BitVec 1) (t : BitVec 4) (s : State) : Host.Outcome State Fault Refusal :=
  runCop (.vscanMin d a m n t) [] vecUnit (noCapture) (actVscanMin d a m n t) s

/-- `vscan.max` (R131). -/
def actVscanMax (d : BitVec 5) (a : BitVec 5) (m : BitVec 3) (n : BitVec 1) (t : BitVec 4) : RingEntry → Ex Issued :=
  scan 2 d a m n t

/-- `vscan.max` (R131). -/
def execVscanMax (d : BitVec 5) (a : BitVec 5) (m : BitVec 3) (n : BitVec 1) (t : BitVec 4) (s : State) : Host.Outcome State Fault Refusal :=
  runCop (.vscanMax d a m n t) [] vecUnit (noCapture) (actVscanMax d a m n t) s

/-- `vscan.or` (R131). -/
def actVscanOr (d : BitVec 5) (a : BitVec 5) (m : BitVec 3) (n : BitVec 1) (t : BitVec 4) : RingEntry → Ex Issued :=
  scan 3 d a m n t

/-- `vscan.or` (R131). -/
def execVscanOr (d : BitVec 5) (a : BitVec 5) (m : BitVec 3) (n : BitVec 1) (t : BitVec 4) (s : State) : Host.Outcome State Fault Refusal :=
  runCop (.vscanOr d a m n t) [] vecUnit (noCapture) (actVscanOr d a m n t) s

/-- `vperm` (R132). -/
def actVperm (d : BitVec 5) (a : BitVec 5) (b : BitVec 5) (m : BitVec 3) (n : BitVec 1) (t : BitVec 4) : RingEntry → Ex Issued :=
  fun e => do
    let c ← cur
    let w := Fp.width t.toNat
    let cnt := activeElems e.vl t.toNat
    let l := (selected e t.toNat (c.getM m) n).map (fun i =>
      let k := elemAt (c.getV b) w i
      (i, some (if k < cnt then elemAt (c.getV a) w k else 0)))
    return moveWrite d t.toNat l 1 3

/-- `vperm` (R132). -/
def execVperm (d : BitVec 5) (a : BitVec 5) (b : BitVec 5) (m : BitVec 3) (n : BitVec 1) (t : BitVec 4) (s : State) : Host.Outcome State Fault Refusal :=
  runCop (.vperm d a b m n t) [] vecUnit (noCapture) (actVperm d a b m n t) s

/-- `vslide.up` (R132). -/
def actVslideUp (d : BitVec 5) (a : BitVec 5) (b : BitVec 5) (m : BitVec 3) (n : BitVec 1) (t : BitVec 4) : RingEntry → Ex Issued :=
  fun e => do
    let c ← cur
    let w := Fp.width t.toNat
    let l := (selected e t.toNat (c.getM m) n).map (fun i =>
      (i, if e.xb.toNat ≤ i then some (elemAt (c.getV a) w (i - e.xb.toNat)) else none))
    return moveWrite d t.toNat l 1 3

/-- `vslide.up` (R132). -/
def execVslideUp (d : BitVec 5) (a : BitVec 5) (b : BitVec 5) (m : BitVec 3) (n : BitVec 1) (t : BitVec 4) (s : State) : Host.Outcome State Fault Refusal :=
  runCop (.vslideUp d a b m n t) [b] vecUnit (captureX 0 b) (actVslideUp d a b m n t) s

/-- `vslide.dn` (R132). -/
def actVslideDn (d : BitVec 5) (a : BitVec 5) (b : BitVec 5) (m : BitVec 3) (n : BitVec 1) (t : BitVec 4) : RingEntry → Ex Issued :=
  fun e => do
    let c ← cur
    let w := Fp.width t.toNat
    let cnt := activeElems e.vl t.toNat
    let l := (selected e t.toNat (c.getM m) n).map (fun i =>
      (i, some (if i + e.xb.toNat < cnt then elemAt (c.getV a) w (i + e.xb.toNat) else 0)))
    return moveWrite d t.toNat l 1 3

/-- `vslide.dn` (R132). -/
def execVslideDn (d : BitVec 5) (a : BitVec 5) (b : BitVec 5) (m : BitVec 3) (n : BitVec 1) (t : BitVec 4) (s : State) : Host.Outcome State Fault Refusal :=
  runCop (.vslideDn d a b m n t) [b] vecUnit (captureX 0 b) (actVslideDn d a b m n t) s

/-- `vbcast` (R133). -/
def actVbcast (d : BitVec 5) (a : BitVec 5) (m : BitVec 3) (n : BitVec 1) (t : BitVec 4) : RingEntry → Ex Issued :=
  fun e => do
    let c ← cur
    let l := (selected e t.toNat (c.getM m) n).map (fun i => (i, some (e.xa.toNat % 2 ^ Fp.width t.toNat)))
    return moveWrite d t.toNat l 1 2

/-- `vbcast` (R133). -/
def execVbcast (d : BitVec 5) (a : BitVec 5) (m : BitVec 3) (n : BitVec 1) (t : BitVec 4) (s : State) : Host.Outcome State Fault Refusal :=
  runCop (.vbcast d a m n t) [a] vecUnit (captureX a 0) (actVbcast d a m n t) s

/-- `vext`: VL is ignored (R133). -/
def actVext (d : BitVec 5) (a : BitVec 5) (b : BitVec 5) (t : BitVec 4) : RingEntry → Ex Issued :=
  fun e => do
    let c ← cur
    let w := Fp.width t.toNat
    let k := e.xb.toNat
    let v := if 512 / w ≤ k then 0 else
      let x := elemAt (c.getV a) w k
      if Fp.isSigned t.toNat then BitVec.ofInt 64 (sextNat x w) else BitVec.ofNat 64 x
    return { xw := some (d, v), lat := 3 }

/-- `vext`: VL is ignored (R133). -/
def execVext (d : BitVec 5) (a : BitVec 5) (b : BitVec 5) (t : BitVec 4) (s : State) : Host.Outcome State Fault Refusal :=
  runCop (.vext d a b t) [b, d] vecUnit (captureX 0 b) (actVext d a b t) s

/-- `vins`: VL is ignored (R133). -/
def actVins (d : BitVec 5) (a : BitVec 5) (b : BitVec 5) (t : BitVec 4) : RingEntry → Ex Issued :=
  fun e => do
    let w := Fp.width t.toNat
    let k := e.xb.toNat
    return { writes := [elemWrite d w (if k < 512 / w then [(k, e.xa.toNat % 2 ^ w)] else [])], lat := 2 }

/-- `vins`: VL is ignored (R133). -/
def execVins (d : BitVec 5) (a : BitVec 5) (b : BitVec 5) (t : BitVec 4) (s : State) : Host.Outcome State Fault Refusal :=
  runCop (.vins d a b t) [a, b] vecUnit (captureX a b) (actVins d a b t) s

/-- `viota` (R134). -/
def actViota (d : BitVec 5) (m : BitVec 3) (n : BitVec 1) (t : BitVec 4) : RingEntry → Ex Issued :=
  fun e => do
    let c ← cur
    let sel := selected e t.toNat (c.getM m) n
    return moveWrite d t.toNat (sel.map (fun i => (i, some (countBelow sel i)))) 1 3

/-- `viota` (R134). -/
def execViota (d : BitVec 5) (m : BitVec 3) (n : BitVec 1) (t : BitVec 4) (s : State) : Host.Outcome State Fault Refusal :=
  runCop (.viota d m n t) [] vecUnit (noCapture) (actViota d m n t) s

/-- `vcompress` (R134). -/
def actVcompress (d : BitVec 5) (a : BitVec 5) (m : BitVec 3) (n : BitVec 1) (t : BitVec 4) : RingEntry → Ex Issued :=
  fun e => do
    let c ← cur
    let sel := selected e t.toNat (c.getM m) n
    let l := sel.map (fun i => (countBelow sel i, some (elemAt (c.getV a) (Fp.width t.toNat) i)))
    return moveWrite d t.toNat l 1 3

/-- `vcompress` (R134). -/
def execVcompress (d : BitVec 5) (a : BitVec 5) (m : BitVec 3) (n : BitVec 1) (t : BitVec 4) (s : State) : Host.Outcome State Fault Refusal :=
  runCop (.vcompress d a m n t) [] vecUnit (noCapture) (actVcompress d a m n t) s

/-- `vexpand` (R134). -/
def actVexpand (d : BitVec 5) (a : BitVec 5) (m : BitVec 3) (n : BitVec 1) (t : BitVec 4) : RingEntry → Ex Issued :=
  fun e => do
    let c ← cur
    let sel := selected e t.toNat (c.getM m) n
    let l := sel.map (fun i => (i, some (elemAt (c.getV a) (Fp.width t.toNat) (countBelow sel i))))
    return moveWrite d t.toNat l 1 3

/-- `vexpand` (R134). -/
def execVexpand (d : BitVec 5) (a : BitVec 5) (m : BitVec 3) (n : BitVec 1) (t : BitVec 4) (s : State) : Host.Outcome State Fault Refusal :=
  runCop (.vexpand d a m n t) [] vecUnit (noCapture) (actVexpand d a m n t) s

/-- `vpopc` (R135). -/
def actVpopc (d : BitVec 5) (m : BitVec 3) (n : BitVec 1) (t : BitVec 4) : RingEntry → Ex Issued :=
  fun e => do
    let c ← cur
    return { xw := some (d, BitVec.ofNat 64 (selected e t.toNat (c.getM m) n).length), lat := 3 }

/-- `vpopc` (R135). -/
def execVpopc (d : BitVec 5) (m : BitVec 3) (n : BitVec 1) (t : BitVec 4) (s : State) : Host.Outcome State Fault Refusal :=
  runCop (.vpopc d m n t) [d] vecUnit (noCapture) (actVpopc d m n t) s

/-- `vfirst` (R135). -/
def actVfirst (d : BitVec 5) (m : BitVec 3) (n : BitVec 1) (t : BitVec 4) : RingEntry → Ex Issued :=
  fun e => do
    let c ← cur
    let v := match (selected e t.toNat (c.getM m) n).head? with
      | some i => BitVec.ofNat 64 i
      | none => BitVec.allOnes 64
    return { xw := some (d, v), lat := 3 }

/-- `vfirst` (R135). -/
def execVfirst (d : BitVec 5) (m : BitVec 3) (n : BitVec 1) (t : BitVec 4) (s : State) : Host.Outcome State Fault Refusal :=
  runCop (.vfirst d m n t) [d] vecUnit (noCapture) (actVfirst d m n t) s

/-- `vtopk` (R137). A signalling NaN among the elements it orders raises NV (R81). -/
def actVtopk (d : BitVec 5) (a : BitVec 5) (b : BitVec 5) (m : BitVec 3) (n : BitVec 1) (t : BitVec 4) : RingEntry → Ex Issued :=
  fun e => do
    let c ← cur
    let w := Fp.width t.toNat
    let sel := selected e t.toNat (c.getM m) n
    let order := sel.foldl (fun l i => topInsert t (c.getV a) i l) []
    raiseFlags (Fp.sigFlag (sel.map (fun i => Fp.value t.toNat (elemAt (c.getV a) w i))))
    let k := min e.xb.toNat (activeElems e.vl t.toNat)
    let l := (List.range k).map (fun r => (r, some (order.getD r (2 ^ w - 1))))
    return moveWrite d t.toNat l 2 12

/-- `vtopk` (R137). -/
def execVtopk (d : BitVec 5) (a : BitVec 5) (b : BitVec 5) (m : BitVec 3) (n : BitVec 1) (t : BitVec 4) (s : State) : Host.Outcome State Fault Refusal :=
  runCop (.vtopk d a b m n t) [b] vecUnit (captureX 0 b) (actVtopk d a b m n t) s

/-- `vxacc` (R138): a lane that no selected element goes to is not written. -/
def actVxacc (d : BitVec 5) (a : BitVec 5) (b : BitVec 5) (m : BitVec 3) (n : BitVec 1) (t : BitVec 4) : RingEntry → Ex Issued :=
  fun e => do
    let c ← cur
    let old := (List.range 4).map (laneVal (c.getV d))
    let sel := selected e t.toNat (c.getM m) n
    let (l, f) := xaccAll (nearAnchor e.xb) t (c.getV a) sel (old, 0)
    raiseFlags f
    let used := (l.zipIdx).filter (fun p => sel.any (fun j => j % 4 == p.2))
    return { writes := [elemWrite d 128 (used.map (fun p => (p.2, (BitVec.ofInt 128 p.1).toNat)))], lat := 4 }

/-- `vxacc` (R138). -/
def execVxacc (d : BitVec 5) (a : BitVec 5) (b : BitVec 5) (m : BitVec 3) (n : BitVec 1) (t : BitVec 4) (s : State) : Host.Outcome State Fault Refusal :=
  runCop (.vxacc d a b m n t) [b] vecUnit (captureX 0 b) (actVxacc d a b m n t) s

/-- `vxrnd`: VL is ignored (R139). A sum of exactly 0 is rounded as +0 in every mode: R81 speaks of additions and R139 does not say
whether its sum of lanes is one (DESIGN CHOICE). -/
def actVxrnd (d : BitVec 5) (a : BitVec 5) (b : BitVec 5) (t : BitVec 4) : RingEntry → Ex Issued :=
  fun e => do
    let c ← cur
    let l := (List.range 4).map (laneVal (c.getV a))
    let sum := l.foldl (· + ·) 0
    let (r, f) := if l.any (fun x => x == poison) then (Fp.canonNaN t.toNat, Fp.fNV)
      else Fp.round (.fin (sum < 0) sum.natAbs (nearAnchor e.xb - 96)) t.toNat c.mode 0
    raiseFlags f
    return { writes := [elemWrite d (Fp.width t.toNat) [(0, r)]], lat := 6 }

/-- `vxrnd`: VL is ignored (R139). -/
def execVxrnd (d : BitVec 5) (a : BitVec 5) (b : BitVec 5) (t : BitVec 4) (s : State) : Host.Outcome State Fault Refusal :=
  runCop (.vxrnd d a b t) [b] vecUnit (captureX 0 b) (actVxrnd d a b t) s

/-- `vmv` of a register (R127). -/
def actVmv (d : BitVec 5) (a : BitVec 5) (m : BitVec 3) (n : BitVec 1) (t : BitVec 4) : RingEntry → Ex Issued :=
  fun e => do
    let c ← cur
    let l := (selected e t.toNat (c.getM m) n).map (fun i => (i, some (elemAt (c.getV a) (Fp.width t.toNat) i)))
    return moveWrite d t.toNat l 1 1

/-- `vmv` of a register (R127). -/
def execVmv (d : BitVec 5) (a : BitVec 5) (m : BitVec 3) (n : BitVec 1) (t : BitVec 4) (s : State) : Host.Outcome State Fault Refusal :=
  runCop (.vmv d a m n t) [] vecUnit (noCapture) (actVmv d a m n t) s

/-- `mlog.and`: VL is ignored (R136). -/
def actMlogAnd (d : BitVec 3) (a : BitVec 3) (b : BitVec 3) : RingEntry → Ex Issued :=
  fun _ => do
    let c ← cur
    let x := c.getM a
    let y := c.getM b
    return { writes := [.m d (BitVec.allOnes 64) (x &&& y)] }

/-- `mlog.and`: VL is ignored (R136). -/
def execMlogAnd (d : BitVec 3) (a : BitVec 3) (b : BitVec 3) (s : State) : Host.Outcome State Fault Refusal :=
  runCop (.mlogAnd d a b) [] vecUnit (noCapture) (actMlogAnd d a b) s

/-- `mlog.or`: VL is ignored (R136). -/
def actMlogOr (d : BitVec 3) (a : BitVec 3) (b : BitVec 3) : RingEntry → Ex Issued :=
  fun _ => do
    let c ← cur
    let x := c.getM a
    let y := c.getM b
    return { writes := [.m d (BitVec.allOnes 64) (x ||| y)] }

/-- `mlog.or`: VL is ignored (R136). -/
def execMlogOr (d : BitVec 3) (a : BitVec 3) (b : BitVec 3) (s : State) : Host.Outcome State Fault Refusal :=
  runCop (.mlogOr d a b) [] vecUnit (noCapture) (actMlogOr d a b) s

/-- `mlog.xor`: VL is ignored (R136). -/
def actMlogXor (d : BitVec 3) (a : BitVec 3) (b : BitVec 3) : RingEntry → Ex Issued :=
  fun _ => do
    let c ← cur
    let x := c.getM a
    let y := c.getM b
    return { writes := [.m d (BitVec.allOnes 64) (x ^^^ y)] }

/-- `mlog.xor`: VL is ignored (R136). -/
def execMlogXor (d : BitVec 3) (a : BitVec 3) (b : BitVec 3) (s : State) : Host.Outcome State Fault Refusal :=
  runCop (.mlogXor d a b) [] vecUnit (noCapture) (actMlogXor d a b) s

/-- `mlog.andn`: VL is ignored (R136). -/
def actMlogAndn (d : BitVec 3) (a : BitVec 3) (b : BitVec 3) : RingEntry → Ex Issued :=
  fun _ => do
    let c ← cur
    let x := c.getM a
    let y := c.getM b
    return { writes := [.m d (BitVec.allOnes 64) (x &&& ~~~y)] }

/-- `mlog.andn`: VL is ignored (R136). -/
def execMlogAndn (d : BitVec 3) (a : BitVec 3) (b : BitVec 3) (s : State) : Host.Outcome State Fault Refusal :=
  runCop (.mlogAndn d a b) [] vecUnit (noCapture) (actMlogAndn d a b) s

/-- `setvl`: a scalar instruction, with no ring entry (R122). -/
def execSetvl (d a : BitVec 5) (t : BitVec 4) (s : State) : Host.Outcome State Fault Refusal :=
  runWord (.setvl d a t) ⟨[a, d], d, 1, 1⟩ (do
    let w := elemBytes t.toNat
    let g := min (← rdX a).toNat (64 / w)
    modCur (fun c => { c with vl := BitVec.ofNat 7 (g * w) })
    wrX d (BitVec.ofNat 64 g)
    return .seq) s

end Sys2Proof.Machine
end

