-- ==== Sys2Proof/Machine/Copies.lean ====
section
/-! DEFINITION. The copy engines: checks of tensor entries (R147, R225), moving elements (R226, R228, R229), copies
that stop on a fault and resume (R230), queue-pair descriptors (R232, R376). -/

namespace Sys2Proof.Machine

/-! ### Entries -/

/-- The entry of a TID of the running context (R144); one that cannot be read fails the word that needs it, with the place of the entry (R367,
R373). -/
def curEntry (tid : BitVec 8) : Ex Entry := do
  let s ← get
  let a := tidAddr s s.cur.ctx tid
  if s.tidOk s.cur.ctx tid then return s.tidEntry s.cur.ctx tid else failMem (BitVec.ofNat 64 a) a

/-! ### Elements in place -/

/-- The header of the object an element lies in, and the access by queue pair of a descriptor (R232). -/
def elemHdr (e : Entry) : Ex W64 := placeHdr (Entry.data e)

/-- Bytes of one element, and its bit offset within the byte. -/
def elemSpan (e : Entry) (i0 : Nat) : Nat × Nat :=
  let w := Fp.width (Entry.fmt e)
  ((w + 7) / 8, if w = 4 then 4 * (i0 % 2) else 0)

/-- A byte a remote peer returns (R232): fresh. -/
def remoteByte : Ex Nat := do
  let s ← get
  set { s with free := s.free + 1 }
  return (Config.roceByte s.free).toNat

def remoteBytes : Nat → Ex Nat
  | 0 => pure 0
  | n + 1 => do
    let b ← remoteByte
    let r ← remoteBytes n
    return b + 256 * r

/-- The Ethernet port is up (R376): LINKSTAT entries 18 to 25. -/
def State.etherUp (s : State) (port : BitVec 3) : Bool :=
  (s.mg.linkstat.toList.getD (18 + port.toNat) 0).getLsbD 0

/-- The queue pair a descriptor names, as a write through it to byte `off`: port, number, remote address, key and MTU (R376). Over a port
that is down no answer comes: PEER_TIMEOUT, with the limit for other packages as the ticks counted (R284, DEDUCED). -/
def descriptor (p : W64) (off : Nat) : Ex RoceWrite := do
  let w ← readPay p 0 8 accCopyRd
  let a ← readPay p 8 8 accCopyRd
  let k ← readPay p 16 8 accCopyRd
  let port := BitVec.ofNat 3 w
  let s ← get
  if !s.etherUp port then trapWith cPEER_TIMEOUT (BitVec.ofNat 64 a) s.mg.tmox
  return ⟨port, BitVec.ofNat 24 (w / 256), BitVec.ofNat 64 (a + off), BitVec.ofNat 32 k, BitVec.ofNat 32 (k / 2 ^ 32), 0⟩

def remoteRead (p : W64) (n : Nat) : Ex Nat := do
  let _ ← descriptor p 0
  remoteBytes n

/-- The low n bytes of v leave the part, from the remote address of `w`. -/
def remoteWrite (w : RoceWrite) (n v : Nat) : Ex Unit :=
  modify (fun s => { s with roce := s.roce ++ (List.range n).map (fun i =>
    { w with raddr := w.raddr + BitVec.ofNat 64 i, byte := BitVec.ofNat 8 (v / 256 ^ i) }) })

/-- What a part of a copy-engine burst adds to a page's counter: the 64-byte units that begin in it, and where the burst begins with it the
unit that it begins in, so that a burst counts each unit once; the second half of a byte adds nothing more (R220). Every other access adds one. -/
def burstCount (first : Bool) (acc sh a n : Nat) : Nat :=
  if acc = accCopyRd ∨ acc = accCopyWr then
    (if sh = 0 ∨ first = true then (a + n + 63) / 64 - (a + 63) / 64 + (if first && a % 64 != 0 then 1 else 0) else 0)
  else oneAccess acc a n

/-- n bytes at offset `off` of a tensor's data, as an engine reads them: bound-checked, in place (R230, R232). -/
def engineRead (first : Bool) (p : W64) (off n sh acc : Nat) : Ex Nat := do
  let h ← placeHdr p
  if hdrKind h = 3 ∧ acc = accCopyRd then remoteRead p n
  else
    let len := (hdrLen h).toNat
    if len < off + n then trapWith cOBJ_BOUND (BitVec.ofNat 64 off) (BitVec.ofNat 64 len)
    readObjC (burstCount first acc sh) p (16 + off) n acc

/-- Bytes of a destination, read as part of the write that follows, which counts (R220). -/
def engineOld (p : W64) (off n acc : Nat) : Ex Nat := do
  let h ← placeHdr p
  if hdrKind h = 3 ∧ acc = accCopyRd then remoteRead p n
  else
    let len := (hdrLen h).toNat
    if len < off + n then trapWith cOBJ_BOUND (BitVec.ofNat 64 off) (BitVec.ofNat 64 len)
    readObjC (fun _ _ => 0) p (16 + off) n acc

/-- The checks of a byte range an engine writes: its kind and its bound, but for what a copy engine sends by a queue pair
(R152, R164, R230, R232). -/
def engineWritable (p : W64) (off n acc : Nat) : Ex W64 := do
  let h ← placeHdr p
  if hdrKind h = 1 ∨ hdrKind h = 2 then trapWith cOBJ_KIND p (BitVec.ofNat 64 (hdrKind h))
  let len := (hdrLen h).toNat
  if ¬(hdrKind h = 3 ∧ acc = accCopyWr) ∧ len < off + n then trapWith cOBJ_BOUND (BitVec.ofNat 64 off) (BitVec.ofNat 64 len)
  return h

def engineWrite (first : Bool) (p : W64) (off n v sh acc : Nat) : Ex Unit := do
  let h ← engineWritable p off n acc
  if hdrKind h = 3 ∧ acc = accCopyWr then
    remoteWrite (← descriptor p off) n v
  else writePayC (burstCount first acc sh) p off n v acc

/-- Element i0 of row r of a tensor; `first` says that a burst of a copy engine begins with it. -/
def readElem (first : Bool) (e : Entry) (i0 r acc : Nat) : Ex Nat := do
  let (n, sh) := elemSpan e i0
  let v ← engineRead first (Entry.data e) (Entry.off e i0 r) n sh acc
  return v / 2 ^ sh % 2 ^ Fp.width (Entry.fmt e)

/-- The same of a destination. -/
def oldElem (e : Entry) (i0 r acc : Nat) : Ex Nat := do
  let (n, sh) := elemSpan e i0
  let v ← engineOld (Entry.data e) (Entry.off e i0 r) n acc
  return v / 2 ^ sh % 2 ^ Fp.width (Entry.fmt e)

/-- The byte that the other half of a 4-bit element shares, read as part of the write. -/
def oldByte (p : W64) (off acc : Nat) : Ex Nat := do
  let h ← engineWritable p off 1 acc
  if hdrKind h = 3 ∧ acc = accCopyWr then remoteRead p 1 else readObjC (fun _ _ => 0) p (16 + off) 1 acc

/-- Write element i0 of row r; of a 4-bit element the other half of its byte stays. -/
def writeElem (first : Bool) (e : Entry) (i0 r v acc : Nat) : Ex Unit := do
  let (n, sh) := elemSpan e i0
  let off := Entry.off e i0 r
  if Fp.width (Entry.fmt e) = 4 then
    let old ← oldByte (Entry.data e) off acc
    engineWrite first (Entry.data e) off n (old - old / 2 ^ sh % 16 * 2 ^ sh + v % 16 * 2 ^ sh) sh acc
  else engineWrite first (Entry.data e) off n v 0 acc

/-! ### The address and shape words (R224) -/

def adTid (w : W64) : BitVec 8 := w.extractLsb' 0 8
def adRow (w : W64) : Nat := bits w.toNat 39 8
def adCol (w : W64) : Nat := bits w.toNat 63 40
def shRed (w : W64) : Nat := bits w.toNat 63 60
def shAnc (w : W64) : Int := sextNat (bits w.toNat 59 48) 12
def shRows (w : W64) : Nat := bits w.toNat 47 32
def shNel (w : W64) : Nat := bits w.toNat 31 0
def shItid (w : W64) : BitVec 8 := w.extractLsb' 40 8

/-- The types a landing operation takes (R226), for source and destination types s and t. -/
def redTypes (red s t : Nat) : Bool :=
  if red = 0 then decide (s ≤ 14) && decide (t ≤ 14)
  else if red = 1 ∨ red = 4 ∨ red = 5 then decide (s ≤ 11) && decide (t ≤ 11)
  else if red = 6 then decide (s ≤ 7) && decide (t ≤ 7)
  else if red = 2 then decide (8 ≤ s) && decide (s ≤ 11) && (t == 3 || t == 7)
  else if red = 3 then (s == 3 || s == 7) && (t == 3 || t == 7)
  else false

/-- Entries that take part: not Q4, and block-scaled only between two of one shape under RED 0 (R225, R226). -/
def copyAccept (red : Nat) (other : Entry) (e : Entry) : Bool :=
  Entry.fmt e != 15 && (!Entry.bs e || (red == 0 && Entry.bs other && Entry.fmt other == Entry.fmt e))

/-- A pair column or a block-scaled span is misaligned (reason 14). -/
def misaligned (red : Nat) (blocks : Bool) (scol dcol nel : Nat) : Bool :=
  (red == 2 && dcol % 2 == 1) || (red == 3 && (scol % 2 == 1 || dcol % 2 == 1 || nel % 2 == 1)) ||
    (blocks && (scol % 32 != 0 || dcol % 32 != 0 || nel % 32 != 0))

/-! ### Landing one element (R226) -/

/-- min or max on exact values: the destination stays unless the source wins (R226). -/
def landMinMax (big : Bool) (ts td d s : Nat) (md : Fp.Mode) (j : Nat) : Nat × Fp.Flags :=
  let x := Fp.value td d
  let y := Fp.value ts s
  let fl := Fp.sigFlag [x, y]
  if Fp.isNaN y then (if Fp.isNaN x then (Fp.canonNaN td, fl) else (d, fl))
  else
    let k := Fp.cmp x y
    let zeros := Fp.isZero x && Fp.isZero y
    let win := Fp.isNaN x ||
      (if zeros then (if big then Fp.negOf x && !Fp.negOf y else Fp.negOf y && !Fp.negOf x)
       else if big then decide (k < 0) else decide (0 < k))
    if win then
      let (r, g) := Fp.cvt ts td s md j .plain
      (r, fl ||| g)
    else (d, fl)

/-- One element landed by RED 0, 1, 4, 5 or 6. -/
def landValue (red ts td d s : Nat) (md : Fp.Mode) (j : Nat) : Nat × Fp.Flags :=
  if red = 0 then (if ts = td then (s, 0) else Fp.cvt ts td s md j .plain)
  else if red = 1 then
    if !Fp.isFloat ts && !Fp.isFloat td then (Fp.intBits td (Fp.intVal td d + Fp.intVal ts s), 0)
    else
      let (x, f) := Fp.add (Fp.value td d) (Fp.value ts s) md.rm
      let (r, g) := Fp.convert x td md j .plain
      (r, f ||| g)
  else if red = 6 then
    let (r, g) := if ts = td then (s, 0) else Fp.cvt ts td s md j .plain
    (d ||| r, g)
  else landMinMax (red == 5) ts td d s md j

/-- A lane of 128 bits as a signed number. -/
def lane128 (v : Nat) : Int := sextNat v 128
def lane128Bits (z : Int) : Nat := (BitVec.ofInt 128 z).toNat

/-- LaneAdd (R226). -/
def laneAdd (d s : Int) : Int × Fp.Flags :=
  if d = poison then (poison, 0)
  else if s = poison then (poison, 0)
  else
    let r := d + s
    if r < -(2 ^ 127 - 1 : Int) ∨ (2 ^ 127 - 1 : Int) < r then (poison, Fp.fOF) else (r, 0)

/-- Two adjoining 64-bit elements of a row, as one lane; the same of a destination. -/
def readLane (first : Bool) (e : Entry) (i0 r acc : Nat) : Ex Nat := engineRead first (Entry.data e) (Entry.off e i0 r) 16 0 acc
def oldLane (e : Entry) (i0 r acc : Nat) : Ex Nat := engineOld (Entry.data e) (Entry.off e i0 r) 16 acc

/-- The place and the bytes that landing step j of row i writes. -/
def Copy.dstSpan (c : Copy) (i j : Nat) : Nat × Nat :=
  if shRed c.shape = 2 ∨ shRed c.shape = 3 then (Entry.off c.dstE (adCol c.dst + 2 * j) (adRow c.dst + i), 16)
  else (Entry.off c.dstE (adCol c.dst + j) (adRow c.dst + i), (elemSpan c.dstE 0).1)

/-- The bytes of row i that a burst from step j0 writes when it ends before step j, the first of them only in part where it begins with the
upper half of a byte, the last where it ends with a lower half. -/
def Copy.burstSpan (c : Copy) (i j0 j : Nat) : Nat × Nat :=
  let (b, n) := c.dstSpan i (j - 1)
  ((c.dstSpan i j0).1, b + n)

/-- The bytes among them that it writes whole. -/
def Copy.wholeSpan (c : Copy) (i j0 j : Nat) : Nat × Nat :=
  let (a, b) := c.burstSpan i j0 j
  let half := Fp.width (Entry.fmt c.dstE) = 4
  (if half ∧ (adCol c.dst + j0) % 2 = 1 then a + 1 else a, if half ∧ (adCol c.dst + j - 1) % 2 = 0 then b - 1 else b)

/-- The burst that writes a row has come to a sector or a line of the destination that it will cover whole: it gets new contents, where it
had failed (R367, R369). The burst covers the bytes up to `hi`. -/
def openLine (p : W64) (off hi : Nat) : Ex Unit := do
  match ← locateN p (16 + off) 1 accCopyWr 0 with
  | .phys false cmp pa =>
    if pa % 128 = 0 ∧ off + 128 ≤ hi then modify (fun s => s.healLines cmp pa 128)
    else if pa % 32 = 0 ∧ off + 32 ≤ hi then modify (fun s => s.healLines cmp pa 32)
  | .pad id a => if a % 32 = 0 ∧ off + 32 ≤ hi then modify (fun s => s.healPad id a 32)
  | _ => pure ()

/-- A burst writes each line once: the tag of a line that it has met follows the bytes that the burst leaves. `old` is the tag from before
the burst (R241). -/
def State.burstTag (s : State) (old : BitVec 4) (whole : Bool) (line : Nat) : State :=
  s.setTag line (if whole || old != 0x0 then encodeLine s.mem line else 0x0)

/-- The tag of a line before a burst that began in the state `t0`, as the burst has met it: a frame of another context was zeroed first (R300). -/
def State.metTag (t0 s : State) (line : Nat) : BitVec 4 :=
  if t0.frameOwner.any (fun x => x.1 == line / 512 && !s.frameOwner.contains x) then 0x1 else t0.tagOf line

/-- The lines of the bytes from `off` to `last` of a tensor's data that a burst has written, those of `whole` whole; `t0` is the state from
before it (R241). -/
def burstTags (t0 : State) (p : W64) (whole : Nat × Nat) (last : Nat) : Nat → Nat → Ex Unit
  | 0, _ => pure ()
  | fuel + 1, off =>
    if last ≤ off then pure ()
    else do
      match ← locateN p (16 + off) 1 accCopyWr 0 with
      | .phys false true pa =>
        modify (fun s => s.burstTag (t0.metTag s (pa / 128)) (decide (whole.1 ≤ off) && pa % 128 == 0 && decide (off + 128 ≤ whole.2))
          (pa / 128))
        burstTags t0 p whole last fuel (off + (128 - pa % 128))
      | .phys _ _ pa => burstTags t0 p whole last fuel (off + (128 - pa % 128))
      | _ => pure ()

/-- A copy whose tensor names a queue-pair descriptor fails with reason 7 while feature bit 13 is clear (R319). Whether it names one. -/
def pairOfTensor (c : Copy) (e : Entry) : Ex Bool := do
  let pair := hdrKind (← placeHdr (Entry.data e)) == 3
  if pair && !(← get).feat.getLsbD 13 then trapWith cOPERAND_RANGE (c.word.setWidth 64) 7
  return pair

/-- At issue a tensor names a queue-pair descriptor that feature bit 13 shuts out (R319, R225). A header that cannot be read then is met by
the copy itself. -/
def State.shutPair (s : State) (e : Entry) : Bool :=
  !s.feat.getLsbD 13 &&
    match placeHdr (Entry.data e) s with
    | .ok h _ => hdrKind h == 3
    | .error _ _ => false

/-- Element or lane j of row i, from source row `sr`, and the flags it raises; `first` says that the bursts of the row begin with it. -/
def landOne (c : Copy) (first : Bool) (i sr j : Nat) : Ex Fp.Flags := do
  let red := shRed c.shape
  let md := modeOf c.fmode (← cur).lcid c.ssc
  let dr := adRow c.dst + i
  let scol := adCol c.src
  let dcol := adCol c.dst
  let ts := Entry.fmt c.srcE
  let td := Entry.fmt c.dstE
  if red = 2 then
    let s ← readElem first c.srcE (scol + j) sr accCopyRd
    let d ← oldLane c.dstE (dcol + 2 * j) dr accCopyRd
    let (r, f) := xaccStep (shAnc c.shape) (Fp.decode ts s) (lane128 d)
    engineWrite first (Entry.data c.dstE) (Entry.off c.dstE (dcol + 2 * j) dr) 16 (lane128Bits r) 0 accCopyWr
    return f
  else if red = 3 then
    let s ← readLane first c.srcE (scol + 2 * j) sr accCopyRd
    let d ← oldLane c.dstE (dcol + 2 * j) dr accCopyRd
    let (r, f) := laneAdd (lane128 d) (lane128 s)
    engineWrite first (Entry.data c.dstE) (Entry.off c.dstE (dcol + 2 * j) dr) 16 (lane128Bits r) 0 accCopyWr
    return f
  else
    let s ← readElem first c.srcE (scol + j) sr accCopyRd
    let d ← (if red = 0 then pure 0 else oldElem c.dstE (dcol + j) dr accCopyRd)
    let (r, f) := landValue red ts td d s md j
    if Entry.bs c.dstE && j % 32 == 0 then
      let b ← engineRead first (Entry.scale c.srcE) (sr * Entry.bpr c.srcE + (scol + j) / 32) 1 0 accCopyRd
      engineWrite first (Entry.scale c.dstE) (dr * Entry.bpr c.dstE + (dcol + j) / 32) 1 b 0 accCopyWr
    writeElem first c.dstE (dcol + j) dr r accCopyWr
    return f

/-- Elements of a row that a copy moves (R226, R228). -/
def Copy.nel (c : Copy) : Nat :=
  if c.kind = .xgath then
    min (Entry.dim c.srcE 0 - adCol c.src) (Entry.dim c.dstE 0 - adCol c.dst)
  else shNel c.shape
/-- Rows a copy moves. -/
def Copy.rows (c : Copy) : Nat := if c.kind = .xgath then shNel c.shape else shRows c.shape
/-- Landing steps of a row. -/
def Copy.steps (c : Copy) : Nat := if shRed c.shape = 3 then c.nel / 2 else c.nel

/-- Change the running copy on a tag. -/
def LCore.modCopy (c : LCore) (t : BitVec 6) (f : Copy → Copy) : LCore :=
  match c.getTag t with
  | .running k => c.setTag t (.running (f k))
  | _ => c

/-- Landing step j of a row as part of the burst that began at step j0: the units it counts, and the sectors and lines it covers (R220, R367).
`lines` says that the destination is not a queue pair. -/
def landStep (c : Copy) (lines : Bool) (i sr j0 j : Nat) : Ex Fp.Flags := do
  let p := Entry.data c.dstE
  let d := (c.dstSpan i j).1
  let (lo, hi) := c.wholeSpan i j0 c.steps
  if lines && shRed c.shape == 0 && decide (lo ≤ d) then openLine p d hi
  landOne c (j == j0) i sr j

/-- The rest of a row, recording progress and flags as each element lands. -/
def copyRow (t : BitVec 6) (c : Copy) (lines : Bool) (i sr j0 : Nat) : Nat → Nat → Ex Unit
  | 0, _ => pure ()
  | n + 1, j => do
    modCur (fun l => l.modCopy t (fun k => { k with row := i, col := j }))
    let f ← landStep c lines i sr j0 j
    modCur (fun l => l.modCopy t (fun k => { k with flags := k.flags ||| f }))
    copyRow t c lines i sr j0 n (j + 1)

/-- The landing step that the copy on a tag has come to. -/
def LCore.colOf (c : LCore) (t : BitVec 6) : Nat :=
  match c.getTag t with
  | .running k => k.col
  | _ => 0

/-- The burst that writes a row from step j0, and the tags of the lines it has met, to its end or to the fault it meets (R241). -/
def burstRow (t : BitVec 6) (c : Copy) (lines : Bool) (i sr j0 : Nat) : Ex Unit := fun s0 =>
  let close (s : State) (done : Nat) : State :=
    let (off, last) := c.burstSpan i j0 done
    if lines && decide (j0 < done) then
      s.attempt (burstTags s0 (Entry.data c.dstE) (c.wholeSpan i j0 done) last ((last - off) / 128 + 2) off)
    else s
  match copyRow t c lines i sr j0 (c.steps - j0) j0 s0 with
  | .ok _ s1 => .ok () (close s1 c.steps)
  | .error e s1 => .error e (close s1 (s1.cur.colOf t))

/-- The source row of row i: the index of a gather, which a burst of its own reads, checked (R220, R228). -/
def sourceRow (c : Copy) (i : Nat) : Ex Nat := do
  if c.kind = .xgath then
    let _ ← pairOfTensor c c.idxE
    let x ← readElem true c.idxE i 0 accCopyRd
    if Entry.rows c.srcE ≤ adRow c.src + x then trapWith cOPERAND_RANGE (c.word.setWidth 64) 16
    return adRow c.src + x
  else return adRow c.src + i

/-- The rows of a copy, each from its first element to its last, so that the elements of RED 1 to 6 that share a destination element land in
row-major order (DESIGN CHOICE, log entry 151: R226 leaves the order among elements open). -/
def copyRows (t : BitVec 6) (c : Copy) : Nat → Nat → Nat → Ex Unit
  | 0, _, _ => pure ()
  | n + 1, i, j => do
    modCur (fun l => l.modCopy t (fun k => { k with row := i, col := j }))
    let sr ← sourceRow c i
    let _ ← pairOfTensor c c.srcE
    burstRow t c (!(← pairOfTensor c c.dstE)) i sr j
    copyRows t c n (i + 1) 0

/-- The context and the address that a level-4 address names where this die exports it; none where an entry does not allow it, or cannot be
read (R298, R299). -/
def State.exported (s : State) (addr : Nat) : Option (BitVec 16 × Nat) :=
  let c := s.cur.ctx
  let slot := addr / 2 ^ 40 % 4096
  let w9 := s.ctxWord c 9
  let base := bits w9.toNat 63 12 * 4096 + 32 * slot
  let i0 := s.physWord base
  let eb := s.mg.expbase.toNat + 32 * bits i0.toNat 11 0
  let e0 := s.physWord eb
  if s.ctxValid c && decide (slot ≤ w9.toNat % 4096) && s.physOk base 32 && i0.getLsbD 63 && bits i0.toNat 43 36 == s.pkg.toNat &&
      bits i0.toNat 35 32 == s.die.toNat && bits i0.toNat 31 12 == 0 && s.physOk eb 32 && e0.getLsbD 63 &&
      bits (s.physWord (eb + 8)).toNat 47 0 == bits (s.physWord (base + 8)).toNat 47 0 && bits e0.toNat 27 20 == s.pkg.toNat &&
      bits e0.toNat 19 16 == s.die.toNat && bits e0.toNat 15 0 == c.toNat then
    some (BitVec.ofNat 16 (bits e0.toNat 47 32), (s.physWord (eb + 16)).toNat + addr % 2 ^ 40)
  else none

/-- The pages that the elements of a prefetch's region meet, row by row: of the running context, or of the context that exports them here
(R229). -/
def State.prefPages (s : State) (c : Copy) : List (BitVec 16 × Nat) :=
  let e := c.srcE
  let p := Entry.data e
  if !Entry.valid e || decide (ptrLvl p < 3) || ptrMalformed p then []
  else
    let cols := min (shNel c.shape) (Entry.dim e 0 - adCol c.src)
    let rows := min (shRows c.shape) (Entry.rows e - adRow c.src)
    if cols = 0 then []
    else
      ((List.range rows).flatMap (fun i =>
        let lo := 16 + Entry.off e (adCol c.src) (adRow c.src + i)
        let hi := 16 + Entry.off e (adCol c.src + cols - 1) (adRow c.src + i) + ((Fp.width (Entry.fmt e) + 7) / 8 - 1)
        match if ptrLvl p = 3 then some (s.cur.ctx, ptrAddr p) else s.exported (ptrAddr p) with
        | none => []
        | some (ctx, a) => (List.range ((a + hi) / 65536 + 1 - (a + lo) / 65536)).map (fun k => (ctx, (a + lo) / 65536 + k)))).dedup

/-- The walks of a prefetch: a frame that another context owned is zeroed and taken (R300); with `mg` the counter of each far-tier page
goes to 255. A page that is not mapped, or whose leaf names memory that the die does not reach so (R11), is skipped (R229). -/
def State.markPages (s : State) (mg : Bool) : List (BitVec 16 × Nat) → State
  | [] => s
  | (ctx, v) :: l =>
    if 2 ^ 36 ≤ v then s.markPages mg l else
    match s.walk s.mg.ctxbase (s.ctxNamed ctx) ctx (v * 65536) with
    | .leaf _ pte tbl pa =>
      if foreignFrame s.die.toNat pte pa then s.markPages mg l
      else
        let s1 := (s.walked s.mg.ctxbase (s.ctxNamed ctx) ctx (v * 65536)).takeFrame pa ctx pte tbl
        (if mg && isFar pa && !pte.getLsbD 15 then s1.countPage ctx (v * 65536) pa 0 true else s1).markPages mg l
    | .stop _ _ => s.markPages mg l
    | .lost _ => s.markPages mg l

/-- Move a queued copy to its end, or to the fault it meets (R222, R226, R230). -/
def State.runCopy (s : State) (t : BitVec 6) : State :=
  match s.cur.getTag t with
  | .running c =>
    if c.phase = .queued then
      let s0 := s.modCur (fun l => { l with startQ := l.startQ.filter (fun u => u != t) })
      match c.kind with
      | .prefTr => (s0.markPages false (s0.prefPages c)).modCur (fun l => l.modCopy t (fun k => { k with phase := .moved }))
      | .prefMg => (s0.markPages true (s0.prefPages c)).modCur (fun l => l.modCopy t (fun k => { k with phase := .moved }))
      | _ =>
        match copyRows t c (c.rows - c.row) c.row c.col s0 with
        | .ok _ s1 => s1.modCur (fun l => l.modCopy t (fun k => { k with phase := .moved }))
        | .error e s1 => s1.modCur (fun l => l.modCopy t (fun k => { k with phase := .met e }))
    else s
  | _ => s

/-- A copy moved to its end completes: ready, its flags in FSTAT; one that met a fault stops on it (R223, R230). -/
def State.endCopy (s : State) (t : BitVec 6) : State :=
  match s.cur.getTag t with
  | .running c =>
    match c.phase with
    | .moved => s.modCur (fun l => (l.raise c.flags).setTag t .ready)
    | .met e => s.modCur (fun l => l.modCopy t (fun k => { k with phase := .stopped e }))
    | _ => s
  | _ => s

/-- Let the running copies on the tags of a list go on until each has completed or stopped. -/
def State.finishTags (s : State) : List (BitVec 6) → State
  | [] => s
  | t :: l => ((s.runCopy t).endCopy t).finishTags l

/-- The tags of a mask, lowest first. -/
def tagsOf (m : W64) : List (BitVec 6) := ((List.range 64).filter (fun k => m.getLsbD k)).map (BitVec.ofNat 6)

/-- XRDY (R31). -/
def LCore.xrdyBits (c : LCore) : W64 :=
  (c.tags.toList.zipIdx).foldl (fun w x => if x.1 == .ready then w ||| BitVec.ofNat 64 (2 ^ x.2) else w) 0

/-- The fault a copy has stopped on and that has not been taken. -/
def Tag.stoppedOn : Tag → Option Exn
  | .running c => match c.phase with
    | .stopped e => some e
    | _ => none
  | _ => none

/-- Take the fault of the lowest stopped copy among the tags: precisely, with CSEQ.SEQ holding the tag (R230). A late
fault comes first (R330). The register's other bits, LAST among them, become 0 (DESIGN CHOICE: R230 gives SEQ alone). -/
def takeStopped (l : List (BitVec 6)) : Ex Unit := do
  let c ← cur
  match l.find? (fun t => (c.getTag t).stoppedOn.isSome) with
  | none => pure ()
  | some t =>
    match (c.getTag t).stoppedOn with
    | none => pure ()
    | some e =>
      modify State.quiesce
      let s ← get
      match s.cur.late with
      | some x => throw x.exn
      | none =>
        let mach := s.trapTarget e.code false == 3
        modCur (fun c =>
          let c1 := c.modCopy t (fun k => { k with phase := .taken mach })
          if mach then { c1 with mbank := { c1.mbank with cseq := t.setWidth 64 } }
          else { c1 with sbank := { c1.sbank with cseq := t.setWidth 64 } })
        throw e

/-- Wait until no tag of the list is running, taking the fault of any that has stopped (R230). -/
def waitTags (l : List (BitVec 6)) : Ex Unit := do
  modify (fun s => s.finishTags l)
  takeStopped l

/-- A return from the bank that took them lets the copies go on (R230). -/
def LCore.resumeCopies (c : LCore) (machine : Bool) : LCore :=
  (tagsOf (BitVec.allOnes 64)).foldl (fun c t =>
    match c.getTag t with
    | .running k =>
      if k.phase = .taken machine then
        { c.setTag t (.running { k with phase := .queued }) with startQ := c.startQ ++ [t] } else c
    | _ => c) c

/-- Place a copy on a tag: stalls while the tag runs and while the start queue is full (R222, R223). -/
def startCopy (t : BitVec 6) (c : Copy) : Ex Unit := do
  let q := (← cur).startQ
  if 8 ≤ q.length then modify (fun s => s.finishTags (q.take 1))
  if c.rows = 0 ∨ c.nel = 0 ∨ ((c.kind = .xfer ∨ c.kind = .xgath) ∧ c.steps = 0) then modCur (fun l => l.setTag t .ready)
  else modCur (fun l => { l.setTag t (.running c) with startQ := l.startQ ++ [t] })

/-- A tag of the list runs. -/
def LCore.anyRunning (c : LCore) (l : List (BitVec 6)) : Bool :=
  l.any (fun t => match c.getTag t with
    | .running _ => true
    | _ => false)

/-- Any tag runs. -/
def LCore.anyTag (c : LCore) : Bool := c.anyRunning (tagsOf (BitVec.allOnes 64))

/-- The word stays at the pc and runs again: a wait that nothing of this core ends. -/
def again : Ex Flow := return .block .stall

end Sys2Proof.Machine
end

