-- ==== Sys2Proof/Machine/Operands.lean ====
section
/-! DEFINITION. Operand forms: the four addressing modes of the memory form with their checks (R48, R23). -/

namespace Sys2Proof.Machine

/-- The width in bytes of a size code (R48). -/
def sizeBytes (z : BitVec 3) : Nat := 2 ^ (z.toNat % 4)

/-- The byte offset of the memory form (R48). -/
def memOffset (c : LCore) (p : BitVec 4) (m : BitVec 2) (off : BitVec 11) (sz : Nat) : Int :=
  if m = 0 then joinedNat c off * sz
  else if m = 1 then (c.getP p).cur.toNat
  else if m = 2 then (c.getX (off.extractLsb' 0 5)).toNat * sz
  else (c.getP p).cur.toNat + joined c off * sz

/-- The x register a memory operand reads (R48). -/
def memUses (m : BitVec 2) (off : BitVec 11) : List (BitVec 5) := if m = 2 then [off.extractLsb' 0 5] else []

/-- The memory operand: the pointer checks, the bound check, then the rest of the touch (R48). A post-increment whose
sum passes 32 bits traps before the access (R23). Returns the offset and header word 0 after the touch. -/
def memOperand (p : BitVec 4) (m : BitVec 2) (off : BitVec 11) (sz : Nat) : Ex (Nat × W64) := do
  let c ← cur
  let pr := c.getP p
  checkPtr pr.ptr
  let o := memOffset c p m off sz
  if o < 0 ∨ (pr.len.toNat : Int) < o + sz then trapWith cOBJ_BOUND (BitVec.ofInt 64 o) (pr.len.setWidth 64)
  if m = 1 ∧ 2 ^ 32 ≤ pr.cur.toNat + sz then
    trapWith cOBJ_BOUND (BitVec.ofInt 64 o) (pr.len.setWidth 64)
  let w0 ← touch p
  return (o.toNat, w0)

/-- After a successful access in mode 0b01 the cursor advances (R23, R48). -/
def postIncrement (p : BitVec 4) (m : BitVec 2) (sz : Nat) : Ex Unit :=
  if m = 1 then
    modCur (fun c => c.setP p { c.getP p with cur := (c.getP p).cur + BitVec.ofNat 32 sz })
  else pure ()

/-- A loaded value, extended as its size code says (R48). -/
def extendLoad (z : BitVec 3) (v : Nat) : W64 :=
  if z.toNat < 4 then BitVec.ofNat 64 v else BitVec.ofInt 64 (sextNat v (8 * sizeBytes z))

/-- The latency of a load by the level of the object, where R187 gives one. -/
def loadLat (lvl : Nat) : Nat := if lvl = 0 then 3 else if lvl = 1 then 10 else 24

end Sys2Proof.Machine
end

