-- ==== Sys2Proof/Machine/VectorMem.lean ====
section
/-! DEFINITION. Vector memory instructions (R140 to R143). -/

namespace Sys2Proof.Machine

/-- Dispatch of a vector memory instruction: the touch, the captured pointer register, header word 0 and X[b], and
the advance of the cursor by VL (R140). Where CUR + VL reaches 2^32 the trap reports the old CUR (DESIGN CHOICE: R140 and R23 name no
TVAL). -/
def vecPrep (p : BitVec 4) (adv : BitVec 1) (b : BitVec 5) : Ex Capture := do
  let w0 ← touch p
  let c ← cur
  let pr := c.getP p
  if adv = 1 then
    if 2 ^ 32 ≤ pr.cur.toNat + c.vl.toNat then trapWith cOBJ_BOUND (pr.cur.setWidth 64) (pr.len.setWidth 64)
    wrP p { pr with cur := pr.cur + BitVec.ofNat 32 c.vl.toNat }
  return { xa := w0, xb := c.getX b, ptr := pr }

/-- The first selected element, in index order, that leaves the object faults (R141). -/
def checkSpan (len w : Nat) : List (Nat × Int) → Ex Unit
  | [] => pure ()
  | (_, o) :: l =>
    if o < 0 ∨ (len : Int) < o + w then trapWith cOBJ_BOUND (BitVec.ofInt 64 o) (BitVec.ofNat 64 len)
    else checkSpan len w l

/-- Load elements (index, offset) in index order; the elements loaded before a fault stay in the ring entry, whose
progress names the element to resume at (R142). Returns the vector of the loaded elements. -/
def loadElems (q : BitVec 16) (p : W64) (w : Nat) : List (Nat × Int) → Nat → Ex Nat
  | [], got => pure got
  | (i, o) :: l, got => do
    modCur (fun c => { c with ring := c.ring.map (fun x =>
      if x.seq == q then { x with prog := i, src1 := BitVec.ofNat 512 got } else x) })
    let v ← readPay p o.toNat w accLoad
    loadElems q p w l (got + v * 2 ^ (8 * w * i))

/-- Check that an operation would succeed, leaving the state as it was; that a request has timed out is not forgotten (R284). -/
def probe {α : Type} (m : Ex α) : Ex Unit := fun s =>
  match allOrNothing m s with
  | .ok _ _ => .ok () s
  | .error e s' => .error e s'

/-- Every element of a store is checked before any byte is written (R142). -/
def probeElems (q : BitVec 16) (p : W64) (w : Nat) : List (Nat × Int) → Ex Unit
  | [] => pure ()
  | (i, o) :: l => do
    setProgress q i
    probe (ackedLate (writePay p o.toNat w 0 accStore))
    probeElems q p w l

/-- Store elements in index order, so that the higher number wins (R141). -/
def storeElems (p : W64) (w : Nat) (v : VWord) : List (Nat × Int) → Ex Unit
  | [] => pure ()
  | (i, o) :: l => do
    ackedLate (writePay p o.toNat w (elemAt v (8 * w) i) accStore)
    storeElems p w v l

/-- A vector load: `offs` gives element offsets from the held index vector (R141, R142). -/
def vecLoad (d idx : BitVec 5) (m : BitVec 3) (n : BitVec 1) (t : BitVec 4) (busy lat : Nat)
    (offs : RingEntry → VWord → Nat → Int) (e : RingEntry) : Ex Issued := do
  let c ← cur
  let w := elemBytes t.toNat
  let r ← holdSources e 0 (c.getV idx) (c.getM m)
  let l := (selected r t.toNat r.mask n).map (fun i => (i, offs r r.src2 i))
  checkSpan r.ptr.len.toNat w l
  let got ← loadElems r.seq r.ptr.ptr w (l.filter (fun x => decide (r.prog ≤ x.1))) r.src1.toNat
  return { writes := [elemWrite d (8 * w) (l.map (fun x => (x.1, elemAt (BitVec.ofNat 512 got) (8 * w) x.1)))],
           busy := busy, lat := lat }

/-- A vector store (R141, R142). -/
def vecStoreTo (d idx : BitVec 5) (m : BitVec 3) (n : BitVec 1) (t : BitVec 4) (busy : Nat)
    (offs : RingEntry → VWord → Nat → Int) (e : RingEntry) : Ex Issued := do
  let c ← cur
  let w := elemBytes t.toNat
  let r ← holdSources e (c.getV d) (c.getV idx) (c.getM m)
  let l := (selected r t.toNat r.mask n).map (fun i => (i, offs r r.src2 i))
  checkSpan r.ptr.len.toNat w l
  if hdrKind r.xa = 1 ∨ hdrKind r.xa = 2 then trapWith cOBJ_KIND r.ptr.ptr (BitVec.ofNat 64 (hdrKind r.xa))
  probeElems r.seq r.ptr.ptr w (l.filter (fun x => decide (r.prog ≤ x.1)))
  storeElems r.ptr.ptr w r.src1 l
  return { busy := busy }

/-- Offsets of consecutive elements: C + X[b] + i·w (R140). -/
def offSeq (t : BitVec 4) (e : RingEntry) (_ : VWord) (i : Nat) : Int :=
  e.ptr.cur.toNat + e.xb.toInt + (i * elemBytes t.toNat : Nat)
/-- Strided offsets: C + i · X[b] (R140). -/
def offStride (e : RingEntry) (_ : VWord) (i : Nat) : Int := e.ptr.cur.toNat + i * e.xb.toInt
/-- Indexed offsets: C + element i of the index vector, unsigned, times w (R140). -/
def offIndex (t : BitVec 4) (e : RingEntry) (v : VWord) (i : Nat) : Int :=
  (e.ptr.cur.toNat + elemAt v (8 * elemBytes t.toNat) i * elemBytes t.toNat : Nat)

/-- `vld` (R140, R141). -/
def actVld (d : BitVec 5) (_p : BitVec 4) (_v : BitVec 1) (_b : BitVec 5) (m : BitVec 3) (n : BitVec 1) (t : BitVec 4) :
    RingEntry → Ex Issued := vecLoad d 0 m n t 1 8 (offSeq t)
/-- `vld` (R140, R141). -/
def execVld (d : BitVec 5) (p : BitVec 4) (v : BitVec 1) (b : BitVec 5) (m : BitVec 3) (n : BitVec 1) (t : BitVec 4)
    (s : State) : Host.Outcome State Fault Refusal :=
  runCop (.vld d p v b m n t) [b] vecMem (vecPrep p v b) (actVld d p v b m n t) s

/-- `vlds` (R140, R141). -/
def actVlds (d : BitVec 5) (_p : BitVec 4) (_v : BitVec 1) (_b : BitVec 5) (m : BitVec 3) (n : BitVec 1) (t : BitVec 4) :
    RingEntry → Ex Issued := vecLoad d 0 m n t 2 8 offStride
/-- `vlds` (R140, R141). -/
def execVlds (d : BitVec 5) (p : BitVec 4) (v : BitVec 1) (b : BitVec 5) (m : BitVec 3) (n : BitVec 1) (t : BitVec 4)
    (s : State) : Host.Outcome State Fault Refusal :=
  runCop (.vlds d p v b m n t) [b] vecMem (vecPrep p v b) (actVlds d p v b m n t) s

/-- `vst` (R140, R141). -/
def actVst (d : BitVec 5) (_p : BitVec 4) (_v : BitVec 1) (_b : BitVec 5) (m : BitVec 3) (n : BitVec 1) (t : BitVec 4) :
    RingEntry → Ex Issued := vecStoreTo d 0 m n t 1 (offSeq t)
/-- `vst` (R140, R141). -/
def execVst (d : BitVec 5) (p : BitVec 4) (v : BitVec 1) (b : BitVec 5) (m : BitVec 3) (n : BitVec 1) (t : BitVec 4)
    (s : State) : Host.Outcome State Fault Refusal :=
  runCop (.vst d p v b m n t) [b] vecMem (vecPrep p v b) (actVst d p v b m n t) s

/-- `vgath` (R140, R141). -/
def actVgath (d : BitVec 5) (_p : BitVec 4) (_v : BitVec 1) (b : BitVec 5) (m : BitVec 3) (n : BitVec 1) (t : BitVec 4) :
    RingEntry → Ex Issued := vecLoad d b m n t 4 10 (offIndex t)
/-- `vgath` (R140, R141). -/
def execVgath (d : BitVec 5) (p : BitVec 4) (v : BitVec 1) (b : BitVec 5) (m : BitVec 3) (n : BitVec 1) (t : BitVec 4)
    (s : State) : Host.Outcome State Fault Refusal :=
  runCop (.vgath d p v b m n t) [] vecMem (vecPrep p v 0) (actVgath d p v b m n t) s

/-- `vscat` (R140, R141). -/
def actVscat (d : BitVec 5) (_p : BitVec 4) (_v : BitVec 1) (b : BitVec 5) (m : BitVec 3) (n : BitVec 1) (t : BitVec 4) :
    RingEntry → Ex Issued := vecStoreTo d b m n t 4 (offIndex t)
/-- `vscat` (R140, R141). -/
def execVscat (d : BitVec 5) (p : BitVec 4) (v : BitVec 1) (b : BitVec 5) (m : BitVec 3) (n : BitVec 1) (t : BitVec 4)
    (s : State) : Host.Outcome State Fault Refusal :=
  runCop (.vscat d p v b m n t) [] vecMem (vecPrep p v 0) (actVscat d p v b m n t) s

end Sys2Proof.Machine
end

