-- ==== Sys2Proof/Machine/Matrix.lean ====
section
/-! DEFINITION. The matrix unit: tile slots (R149 to R154), the tensor table (R155), `mma` (R156 to R160), the drain
(R161), accumulators (R162 to R165). -/

namespace Sys2Proof.Machine

/-- ILLEGAL of R149: a late fault at a free slot. -/
def needSlot (i : Instr) (t : BitVec 4) : Ex Slot := do
  let sl := (← cur).getT t
  if sl.state = .free then illegal i
  return sl

def setSlot (t : BitVec 4) (f : Slot → Slot) : Ex Unit := modCur (fun c => c.setT t (f (c.getT t)))

/-- The entry an instruction works with: captured when it first issues (R150). -/
def holdEntry (r : RingEntry) (tid : BitVec 8) : Ex RingEntry := do
  if r.held then return r
  let r' := { r with held := true, entry := (← curEntry tid) }
  modCur (fun c => c.setEntry r')
  return r'

/-! ### Tiles -/

/-- `tclaim` (R149, R154). -/
def actTclaim (t : BitVec 4) (tid : BitVec 8) : RingEntry → Ex Issued := fun _ => do
  if !Entry.valid (← curEntry tid) then rangeTrap (.tclaim t tid) 1
  setSlot t (fun s => { s with state := .claimed, tid := tid, prog := 0 })
  return {}
/-- `tclaim` (R154). -/
def execTclaim (t : BitVec 4) (tid : BitVec 8) (s : State) : Host.Outcome State Fault Refusal :=
  runCop (.tclaim t tid) [] (matUnit [t]) noCapture (actTclaim t tid) s

/-- `tfree` (R149, R154). -/
def actTfree (t : BitVec 4) : RingEntry → Ex Issued := fun _ => do
  setSlot t (fun s => { s with state := .free })
  return {}
/-- `tfree` (R154). -/
def execTfree (t : BitVec 4) (s : State) : Host.Outcome State Fault Refusal :=
  runCop (.tfree t) [] (matUnit [t]) noCapture (actTfree t) s

/-- The objects that the entry of a TID names find room among the pins (R195). -/
def State.entryRoom (s : State) (tid : BitVec 8) : Bool := s.pinRoom (entPtrs (s.tidEntry s.cur.ctx tid))

/-- A load waits for its slot, for a place among the loader's four (R149, R150), and for room among the pins (R195). -/
def loadUnit (t : BitVec 4) : CopUnit :=
  { mat := true, slots := [t], loader := true, frozen := fun s _ => !s.entryRoom (s.cur.getT t).tid }

/-- A store of a tile waits for its slot and for the loads before it, and for room among the pins (R149, R153, R195). -/
def tileStore (t : BitVec 4) : CopUnit := { matMem with slots := [t], frozen := fun s _ => !s.entryRoom (s.cur.getT t).tid }

/-- A load or store of an accumulator waits for the loads before it, and for room among the pins (R153, R164, R195). -/
def blockUnit (tid : BitVec 8) : CopUnit := { matMem with frozen := fun s _ => !s.entryRoom tid }

/-- `tload`: the loader takes it up, with the entry captured; its rows land beside the unit (R150). A faulted load goes on at its
row, and the slot stays in the loading state (R151). -/
def actTload (t : BitVec 4) (r : BitVec 5) : RingEntry → Ex Issued := fun e => do
  if e.held then
    modCur (fun c => { c with loads := c.loads ++ [(e.seq, t)] })
  else
    let sl ← needSlot (.tload t r) t
    let ent ← curEntry sl.tid
    modCur (fun c => { (c.setEntry { e with held := true, entry := ent }).setT t { sl with state := .loading, prog := 0 }
      with loads := c.loads ++ [(e.seq, t)] })
  return { goesOn := true }
/-- A load that faulted keeps its slot in the loading state and does not wait for itself (R151). -/
def execTload (t : BitVec 4) (r : BitVec 5) (s : State) : Host.Outcome State Fault Refusal :=
  runCop (.tload t r) [r] (loadUnit t) (captureX r 0) (actTload t r) s

/-- The elements of row j of a slot that lie inside the tensor: stored one after another. -/
def storeRow (e : Entry) (sl : Slot) (r i0 j : Nat) : Nat → Ex Unit
  | 0 => pure ()
  | n + 1 => do
    storeRow e sl r i0 j n
    writeElem false e (i0 + n) r (sl.elem (Entry.fmt e) j n) accStore

/-- The scales of the blocks of row j that are written (R152). -/
def storeScales (e : Entry) (sl : Slot) (r i0 j cnt : Nat) : Nat → Ex Unit
  | 0 => pure ()
  | n + 1 => do
    storeScales e sl r i0 j cnt n
    if Entry.bs e && decide (32 * n < cnt) then
      engineWrite false (Entry.scale e) (r * Entry.bpr e + i0 / 32 + n) 1
        (sl.sideAt (sideBytes (Entry.fmt e) * j + n) 1) 0 accStore

def storeTileRow (e : Entry) (sl : Slot) (rc : W64) (j : Nat) : Ex Unit := do
  let (r, i0, cnt) := tileSpan e rc j
  storeRow e sl r i0 j cnt
  storeScales e sl r i0 j cnt (sideBytes (Entry.fmt e))

/-- Rows j, j + 1, … of a store: each checked before any is written (R152). -/
def probeRows (q : BitVec 16) (f : Nat → Ex Unit) : Nat → Nat → Ex Unit
  | 0, _ => pure ()
  | n + 1, j => do
    setProgress q j
    probe (ackedLate (f j))
    probeRows q f n (j + 1)

def eachRow (f : Nat → Ex Unit) : Nat → Nat → Ex Unit
  | 0, _ => pure ()
  | n + 1, j => do
    ackedLate (f j)
    eachRow f n (j + 1)

/-- `tstore` (R152). -/
def actTstore (t : BitVec 4) (r : BitVec 5) : RingEntry → Ex Issued := fun e => do
  let i : Instr := .tstore t r
  let sl ← needSlot i t
  let e ← holdEntry e sl.tid
  needEntry i (fun x => Entry.fmt x != 15) e.entry
  if !Entry.wr e.entry then rangeTrap i 9
  probeRows e.seq (storeTileRow e.entry sl e.xa) (32 - e.prog) e.prog
  eachRow (storeTileRow e.entry sl e.xa) 32 0
  return { busy := 32, lat := 32 }
/-- `tstore` (R152). -/
def execTstore (t : BitVec 4) (r : BitVec 5) (s : State) : Host.Outcome State Fault Refusal :=
  runCop (.tstore t r) [r] (tileStore t) (captureX r 0) (actTstore t r) s

/-- `tzero` (R154). -/
def actTzero (t : BitVec 4) : RingEntry → Ex Issued := fun _ => do
  let _ ← needSlot (.tzero t) t
  setSlot t (fun s => { s with state := .ready, data := 0, side := 0 })
  return {}
/-- `tzero` (R154). -/
def execTzero (t : BitVec 4) (s : State) : Host.Outcome State Fault Refusal :=
  runCop (.tzero t) [] (matUnit [t]) noCapture (actTzero t) s

/-! ### The tensor table -/

/-- The bits of an entry that R145 names. -/
def entryMask : BitVec 512 := ~~~(BitVec.ofNat 512 (0xFF * 2 ^ 504 + 0x1F * 2 ^ 475 + 0xF * 2 ^ 468))

/-- `tidld` and `tidst` capture the touched pointer register and header word 0 (R155). -/
def tidPrep (p : BitVec 4) : Ex Capture := do
  let w0 ← touch p
  return { xa := w0, ptr := (← rdP p) }

def tidRoom (e : RingEntry) : Ex Unit := do
  if e.ptr.len.toNat < 64 then trapWith cOBJ_BOUND 0 (e.ptr.len.setWidth 64)

/-- `tidld` (R155). -/
def actTidld (_p : BitVec 4) (tid : BitVec 8) : RingEntry → Ex Issued := fun e => do
  tidRoom e
  if hdrKind e.xa = 1 ∨ hdrKind e.xa = 2 then trapWith cOBJ_KIND e.ptr.ptr (BitVec.ofNat 64 (hdrKind e.xa))
  let v ← curEntry tid
  allOrNothing (ackedLate (writePay e.ptr.ptr 0 64 (v &&& entryMask).toNat accStore))
  return { busy := 4, lat := 4 }
/-- `tidld` (R155). -/
def execTidld (p : BitVec 4) (tid : BitVec 8) (s : State) : Host.Outcome State Fault Refusal :=
  runCop (.tidld p tid) [] matMem (tidPrep p) (actTidld p tid) s

/-- A pointer to a copy as the pointer to its canonical object: a pointer to a copy never lies in a tensor identifier entry (R180), and the
model lets `tidst` put CANON there, as `stp` does (DEDUCED). -/
def State.uncopy (s : State) (p : W64) : W64 :=
  match (s.allCores.filter (fun c => c.padId (ptrLvl p) == s.cur.padId (ptrLvl p))).findSome?
      (fun c => (c.cidx.find? (fun e => e.2 == p)).map Prod.fst) with
  | some q => q
  | none => p

/-- An entry with its pointers so. -/
def State.uncopyEntry (s : State) (e : Entry) : Entry :=
  (e.extractLsb' 192 320) ++ (s.uncopy (Entry.sos e)) ++ (s.uncopy (Entry.scale e)) ++ (s.uncopy (Entry.data e))

/-- `tidst`: an entry with V = 0 is written as zeros, one with V = 1 is checked (R155, R147). An entry that cannot be written fails it (R367,
R373); one in a sealed frame with PAGE_FAULT (R294), whose TVAL2 is that of a store that meets a seal (DEDUCED, log entry 162). -/
def actTidst (p : BitVec 4) (tid : BitVec 8) : RingEntry → Ex Issued := fun e => do
  tidRoom e
  let v := BitVec.ofNat 512 (← readPay e.ptr.ptr 0 64 accLoad)
  if Entry.valid v then needEntry (.tidst p tid) (fun _ => true) v
  let s ← get
  let a := tidAddr s s.cur.ctx tid
  if (s.healLines false a 64).physOk a 64 = false then failMem (BitVec.ofNat 64 a) a
  if s.sealedAt a then throw (pageFault (BitVec.ofNat 64 a) accStore 0 6)
  set (s.setTidEntry s.cur.ctx tid (if Entry.valid v then s.uncopyEntry v &&& entryMask else 0))
  return { busy := 4, lat := 4 }
/-- `tidst` (R155). -/
def execTidst (p : BitVec 4) (tid : BitVec 8) (s : State) : Host.Outcome State Fault Refusal :=
  runCop (.tidst p tid) [] matMem (tidPrep p) (actTidst p tid) s

/-! ### `mma` -/

/-- Group size, groups and cycles for an A type (R148). -/
def groupSize (t : Nat) : Nat := if t = 8 ∨ t = 9 then 1 else if t = 10 ∨ t = 11 then 2 else if 14 ≤ t then 8 else 4

/-- Element k of row i of a slot, decoded (R157). `mx` makes an i8 operand MXINT8. -/
def decodeTile (sl : Slot) (t : Nat) (mx : Bool) (i k : Nat) : Fp.Num :=
  let v := sl.elem t i k
  if t = 15 then Fp.decode 9 (Fp.q4Value v (sl.sideAt (16 * i + 4 * (k / 64)) 4))
  else if t = 12 ∨ t = 13 ∨ t = 14 ∨ (t = 0 ∧ mx = true) then
    Fp.mxValue t v (sl.sideAt (sideBytes t * i + k / 32) 1)
  else Fp.value t v

def isSpecial : Fp.Num → Bool
  | .fin _ _ _ => false
  | _ => true

/-- A special counts as 0 in the arithmetic (R157). -/
def plainNum (x : Fp.Num) : Fp.Num := if isSpecial x then .fin false 0 0 else x

/-- A row of a slot from group `q0` on, as groups of `g` elements. -/
def tileRow (sl : Slot) (t : Nat) (mx : Bool) (g q0 n i : Nat) : List (List Fp.Num) :=
  (List.range n).map (fun q => (List.range g).map (fun k => decodeTile sl t mx i (g * (q0 + q) + k)))

/-- The exact sum of the products of a group (R157). -/
def groupSum : List Fp.Num → List Fp.Num → Fp.Num
  | x :: l, y :: m =>
    let p := (Fp.mul (plainNum x) (plainNum y)).1
    if l == [] then p else (Fp.add p (groupSum l m) 0).1
  | _, _ => .fin false 0 0

/-- The greatest or least sum of a group (R157); of two zeros max is +0 and min −0 (R96). -/
def groupExt (big : Bool) : List Fp.Num → List Fp.Num → Fp.Num
  | x :: l, y :: m =>
    let p := (Fp.add (plainNum x) (plainNum y) 0).1
    if l == [] then p
    else
      let r := groupExt big l m
      if Fp.isZero p && Fp.isZero r then .fin (!big) 0 0
      else if (decide (Fp.cmp p r ≤ 0)) != big then p else r
  | _, _ => .fin false 0 0

/-- One cell over the groups of its row and column (R157). `f64` takes the whole cell, `aff` keeps the gain. -/
def mmaCell (op t : Nat) (aff : Bool) (cell : W64) : List (List Fp.Num) → List (List Fp.Num) → W64 × Fp.Flags
  | a :: l, b :: m =>
    let s := if op = 0 then groupSum a b else groupExt (op == 1) a b
    let (c1, f1) :=
      if t = 8 then
        let (x, f) := Fp.add (Fp.decode 8 cell.toNat) s 0
        let (r, g) := Fp.round x 8 Fp.Mode.rne 0
        (BitVec.ofNat 64 r, f ||| g)
      else
        let old := cell.toNat % 2 ^ 32
        let (r, f) := if op = 0 then
            let (x, f) := Fp.add (Fp.decode 9 old) s 0
            let (r, g) := Fp.round x 9 Fp.Mode.rne 0
            (r, f ||| g)
          else
            let (r, g) := Fp.round s 9 Fp.Mode.rne 0
            (if op = 1 then Fp.maxF old r else Fp.minF old r, g ||| Fp.sigFlag [Fp.decode 9 old])
        (BitVec.ofNat 64 ((if aff then cell.toNat / 2 ^ 32 * 2 ^ 32 else 0) + r), f)
    let (c2, f2) := mmaCell op t aff c1 l m
    (c2, f1 ||| f2)
  | _, _ => (cell, 0)

/-- The mask of the rows that hold a special. -/
def specialMask (rows : List (List (List Fp.Num))) : BitVec 32 :=
  (rows.zipIdx).foldl (fun m r => if r.1.any (fun g => g.any isSpecial) then m ||| BitVec.ofNat 32 (2 ^ r.2) else m) 0

/-- The first special of group q of an operand: its row and its place in the group (R160). -/
def firstSpecial (rows : List (List (List Fp.Num))) (q : Nat) : Option (Nat × Nat) :=
  (rows.zipIdx).findSome? (fun r => ((r.1.getD q []).findIdx? isSpecial).map (fun k => (r.2, k)))

/-- The first special in the order of R160: group, A before B, row, element. -/
def firstReport (a b : List (List (List Fp.Num))) : Nat → Nat → Option (Nat × Bool × Nat × Nat)
  | 0, _ => none
  | n + 1, q =>
    match firstSpecial a q, firstSpecial b q with
    | some (i, k), _ => some (q, false, i, k)
    | none, some (j, k) => some (q, true, j, k)
    | none, none => firstReport a b n (q + 1)

/-- The work of an `mma` on groups q0 to q0 + cnt − 1: the cells, the detector and the flags (R157, R160). -/
def LCore.mmaGroups (c : LCore) (seq : BitVec 16) (n : BitVec 2) (ta tb : BitVec 4) (op : BitVec 2) (t u : BitVec 4) (bsA bsB : Bool)
    (q0 cnt : Nat) : LCore :=
  let g := groupSize t.toNat
  let ra := (List.range 32).map (tileRow (c.getT ta) t.toNat bsA g q0 cnt)
  let rb := (List.range 32).map (tileRow (c.getT tb) u.toNat bsB g q0 cnt)
  let acc := c.getA n
  let res := Vector.ofFn (fun (k : Fin 1024) =>
    mmaCell op.toNat t.toNat (c.aff n) (acc.cells.get k) (ra.getD (k.val / 32) []) (rb.getD (k.val % 32) []))
  let fresh := acc.rf == 0 && acc.cf == 0
  let rep := if fresh then firstReport ra rb cnt 0 else none
  let acc1 : Acc := { acc with cells := res.map Prod.fst, rf := acc.rf ||| specialMask ra, cf := acc.cf ||| specialMask rb }
  let acc2 : Acc := match rep with
    | some (q, opb, row, k) =>
      { acc1 with
        frT := BitVec.ofNat 64 ((if opb then tb else ta).toNat * 2 ^ 14 + (if opb then 2 ^ 13 else 0) +
          (g * (q0 + q) + k) % 256 * 32 + row),
        frT2 := BitVec.ofNat 64 (seq.toNat * 2 ^ 16 + n.toNat * 256 + u.toNat * 16 + t.toNat) }
    | none => acc1
  (c.setA n acc2).raise ((res.toList.map Prod.snd).foldl (· ||| ·) 0)

/-- The core `t` that a work has made of the core `c`, with what stopping it on its way needs (R354). -/
def LCore.startWork (c : LCore) (seq : BitVec 16) (cycles : Nat) (t : LCore) : LCore :=
  { t with work := some ⟨seq, c.copNext - 1, cycles, c.acc, c.k, c.astat, c.fstat⟩ }

/-- BS of the entry that a slot is bound to. -/
def slotBs (sl : Slot) : Ex Bool := do return Entry.bs (← curEntry sl.tid)

/-- `mma` (R156 to R160): the entries are consulted only for i8 operands. Where such operands differ in BS and the semiring differs too, reason 3
is reported (DESIGN CHOICE, log entry 155: R147 and R156 give the two no order). -/
def actMma (n : BitVec 2) (ta tb : BitVec 4) (op : BitVec 2) (t u : BitVec 4) : RingEntry → Ex Issued := fun e => do
  let i : Instr := .mma n ta tb op t u
  let sa ← needSlot i ta
  let sb ← needSlot i tb
  let c ← cur
  if c.sem n ≠ op.toNat ∨ (t = 8 ∧ c.aff n = true) then rangeTrap i 3
  let bsA ← (if t = 0 then slotBs sa else pure false)
  let bsB ← (if t = 0 then slotBs sb else pure false)
  if bsA ≠ bsB then rangeTrap i 2
  let cyc := if t = 8 then 256 else 32
  modCur (fun c => c.startWork e.seq cyc
    (c.mmaGroups e.seq n ta tb op t u bsA bsB e.prog (rowElems t.toNat / groupSize t.toNat - e.prog)))
  return { busy := cyc, lat := cyc }
/-- `mma` (R156). -/
def execMma (n : BitVec 2) (ta tb : BitVec 4) (op : BitVec 2) (t u : BitVec 4) (s : State) :
    Host.Outcome State Fault Refusal :=
  runCop (.mma n ta tb op t u) [] (matUnit [ta, tb]) noCapture (actMma n ta tb op t u) s

/-! ### Accumulators -/

/-- Cell k of an accumulator with a new offset b; in plain mode bits [63:32] become zero (R162). -/
def withB (aff : Bool) (cell : W64) (b : Nat) : W64 :=
  BitVec.ofNat 64 ((if aff then cell.toNat / 2 ^ 32 * 2 ^ 32 else 0) + b % 2 ^ 32)

def cellB (cell : W64) : Nat := cell.toNat % 2 ^ 32
def cellG (cell : W64) : Nat := cell.toNat / 2 ^ 32

/-- RF, CF and FR cleared (R160). -/
def Acc.clearDet (a : Acc) : Acc := { a with rf := 0, cf := 0, frT := 0, frT2 := 0 }

/-- Every offset of an accumulator set to one value, with the detector cleared (R163). -/
def fillB (n : BitVec 2) (b : Nat) : Ex Unit := modCur (fun c =>
  let a := c.getA n
  c.setA n { a.clearDet with cells := a.cells.map (fun x => withB (c.aff n) x b) })

/-- `azero` (R163). -/
def actAzero (n : BitVec 2) : RingEntry → Ex Issued := fun _ => do
  fillB n 0
  return { busy := 2, lat := 2 }
/-- `azero` (R163). -/
def execAzero (n : BitVec 2) (s : State) : Host.Outcome State Fault Refusal :=
  runCop (.azero n) [] (matUnit []) noCapture (actAzero n) s

/-- `amode` (R163): the neutral offsets are +0.0, −∞ and +∞. -/
def actAmode (n op : BitVec 2) : RingEntry → Ex Issued := fun _ => do
  modCur (fun c => c.setSem n op.toNat)
  fillB n (if op = 1 then 0xFF800000 else if op = 2 then 0x7F800000 else 0)
  return { busy := 2, lat := 2 }
/-- `amode` (R163). -/
def execAmode (n op : BitVec 2) (s : State) : Host.Outcome State Fault Refusal :=
  runCop (.amode n op) [] (matUnit []) noCapture (actAmode n op) s

/-- The drain of R161, with the trap it raises: cells that a mask names take the canonical NaN. -/
def drainAcc (n : BitVec 2) (f64 : Bool) : Ex (Option Exn) := do
  let c ← cur
  let a := c.getA n
  if a.rf = 0 ∧ a.cf = 0 then return none
  let nan : W64 := if c.aff n then 0x7FC000007FC00000 else if f64 then 0x7FF8000000000000 else 0x7FC00000
  let cells := Vector.ofFn (fun (k : Fin 1024) =>
    if a.rf.getLsbD (k.val / 32) || a.cf.getLsbD (k.val % 32) then nan else a.cells.get k)
  modCur (fun c => (c.setA n { a with cells := cells, rf := 0, cf := 0 }).setAstatBit (8 + n.toNat) true)
  return (if !c.nanf n && c.nant then some ⟨cNAN_PRODUCED, a.frT, a.frT2⟩ else none)

/-- The block of R164: row, column of cell (i, j), and whether it lies inside the tensor. -/
def blockAt (e : Entry) (rc : W64) (i j : Nat) : Nat × Nat × Bool :=
  let r := bits rc.toNat 31 0 * 32 + i
  let c := bits rc.toNat 63 32 * 32 + j
  (r, c, decide (r < Entry.rows e) && decide (c < Entry.dim e 0))

def blockFmt (e : Entry) : Bool := !Entry.bs e && decide (8 ≤ Entry.fmt e) && decide (Entry.fmt e ≤ 13)

/-- The cells of row i loaded: +0 outside the tensor (R164). -/
def loadCells (e : Entry) (rc : W64) (aff : Bool) (old : Nat → W64) (i : Nat) : Nat → Ex (List W64 × Fp.Flags)
  | 0 => pure ([], 0)
  | n + 1 => do
    let (l, f) ← loadCells e rc aff old i n
    let (r, c, inside) := blockAt e rc i n
    let v ← (if inside then readElem false e c r accTile else pure 0)
    if Entry.fmt e = 8 then
      let (b, g) := Fp.cvt 8 8 v Fp.Mode.rne 0 .plain
      return (l ++ [BitVec.ofNat 64 b], f ||| g)
    else
      let (b, g) := Fp.cvt (Entry.fmt e) 9 v Fp.Mode.rne 0 .plain
      return (l ++ [withB aff (old n) b], f ||| g)

/-- Rows of an accumulator load; each is kept as it lands (R164, R151). -/
def loadAcc (q : BitVec 16) (n : BitVec 2) (e : Entry) (rc : W64) : Nat → Nat → Ex Unit
  | 0, _ => pure ()
  | k + 1, i => do
    setProgress q i
    let c ← cur
    let a := c.getA n
    let (l, f) ← loadCells e rc (c.aff n) (fun j => a.cells.getD (32 * i + j) 0) i 32
    let cells := (l.zipIdx).foldl (fun v x => v.setIfInBounds (32 * i + x.2) x.1) a.cells
    modCur (fun c => (c.setA n { a with cells := cells }).raise f)
    loadAcc q n e rc k (i + 1)

/-- `aload` (R164). -/
def actAload (n : BitVec 2) (tid : BitVec 8) (r : BitVec 5) : RingEntry → Ex Issued := fun e => do
  let i : Instr := .aload n tid r
  let e ← holdEntry e tid
  needEntry i blockFmt e.entry
  loadAcc e.seq n e.entry e.xa (32 - e.prog) e.prog
  modCur (fun c => c.setA n (c.getA n).clearDet)
  return { busy := 32, lat := 32 }
/-- `aload` (R164). -/
def execAload (n : BitVec 2) (tid : BitVec 8) (r : BitVec 5) (s : State) : Host.Outcome State Fault Refusal :=
  runCop (.aload n tid r) [r] (blockUnit tid) (captureX r 0) (actAload n tid r) s

/-- The cells of row i stored, with the flags of their rounding (R164). To FP64 the cell goes bit for bit, with no flag, also where an affine
cell reads as a NaN that is not canonical (DESIGN CHOICE, log entry 154: R164 has the whole cell written, R81 every NaN canonical). -/
def storeCells (e : Entry) (rc : W64) (a : Acc) (md : Fp.Mode) (i : Nat) : Nat → Ex Unit
  | 0 => pure ()
  | n + 1 => do
    storeCells e rc a md i n
    let (r, c, inside) := blockAt e rc i n
    if inside then
      let cell := a.cells.getD (32 * i + n) 0
      let (v, f) := if Entry.fmt e = 8 then (cell.toNat, 0)
        else Fp.round (Fp.decode 9 (cellB cell)) (Entry.fmt e) md (32 * i + n)
      writeElem false e c r v accStore
      raiseFlags f

/-- `astore`: every check, then the drain, then the cells (R164). -/
def actAstore (n : BitVec 2) (tid : BitVec 8) (r : BitVec 5) : RingEntry → Ex Issued := fun e => do
  let i : Instr := .astore n tid r
  let e ← holdEntry e tid
  needEntry i blockFmt e.entry
  if !Entry.wr e.entry then rangeTrap i 9
  let c ← cur
  probeRows e.seq (fun j => storeCells e.entry e.xa (c.getA n) c.mode j 32) (32 - e.prog) e.prog
  let post ← drainAcc n (Entry.fmt e.entry == 8)
  let a := (← cur).getA n
  eachRow (fun j => storeCells e.entry e.xa a c.mode j 32) 32 0
  return { busy := 32, lat := 32, post := post }
/-- `astore` (R164). -/
def execAstore (n : BitVec 2) (tid : BitVec 8) (r : BitVec 5) (s : State) : Host.Outcome State Fault Refusal :=
  runCop (.astore n tid r) [r] (blockUnit tid) (captureX r 0) (actAstore n tid r) s

/-- Row i of an accumulator rounded to T: the row's bits and the flags (R165). -/
def drainRow (a : Acc) (t : Nat) (md : Fp.Mode) (i : Nat) : Nat → Nat × Fp.Flags
  | 0 => (0, 0)
  | n + 1 =>
    let (v, f) := drainRow a t md i n
    let (x, g) := Fp.round (Fp.decode 9 (cellB (a.cells.getD (32 * i + n) 0))) t md (32 * i + n)
    (v + x * 2 ^ (Fp.width t * n), f ||| g)

/-- `adrain` (R165). -/
def actAdrain (n : BitVec 2) (t : BitVec 4) (ty : BitVec 4) : RingEntry → Ex Issued := fun _ => do
  let _ ← needSlot (.adrain n t ty) t
  let post ← drainAcc n false
  let c ← cur
  let rows := (List.range 32).map (fun i => drainRow (c.getA n) ty.toNat c.mode i 32)
  let data := (rows.zipIdx).foldl (fun d r => d ||| r.1.1 * 2 ^ (1024 * r.2)) 0
  let side := if ty = 12 ∨ ty = 13 then (List.range 128).foldl (fun d k => d ||| 0x7F * 2 ^ (8 * k)) 0 else 0
  setSlot t (fun s => { s with state := .ready, data := BitVec.ofNat 32768 data, side := BitVec.ofNat 4096 side })
  raiseFlags (rows.foldl (fun f r => f ||| r.2) 0)
  return { busy := 32, lat := 32, post := post }
/-- `adrain` (R165). -/
def execAdrain (n : BitVec 2) (t : BitVec 4) (ty : BitVec 4) (s : State) : Host.Outcome State Fault Refusal :=
  runCop (.adrain n t ty) [] (matUnit [t]) noCapture (actAdrain n t ty) s

/-- The value `afill` takes from a slot element before it is rounded (R165). -/
def fillNum (sl : Slot) (ty i j : Nat) : Fp.Num :=
  let v := sl.elem ty i j
  if ty = 12 ∨ ty = 13 then Fp.mxValue ty v (sl.sideAt (4 * i) 1) else Fp.decode ty v
/-- The FP32 value `afill` takes from a slot element (R165). -/
def fillValue (sl : Slot) (ty i j : Nat) : Nat := Fp.rne (fillNum sl ty i j)
/-- NV where one of the 1024 elements is a signalling NaN (R81). -/
def fillFlags (sl : Slot) (ty : Nat) : Fp.Flags :=
  Fp.sigFlag ((List.range 1024).map (fun k => fillNum sl ty (k / 32) (k % 32)))

/-- `afill` (R165). -/
def actAfill (n : BitVec 2) (t : BitVec 4) (ty : BitVec 4) : RingEntry → Ex Issued := fun _ => do
  let sl ← needSlot (.afill n t ty) t
  modCur (fun c =>
    let a := c.getA n
    (c.setA n { a.clearDet with cells := Vector.ofFn (fun (k : Fin 1024) =>
      withB (c.aff n) (a.cells.get k) (fillValue sl ty.toNat (k.val / 32) (k.val % 32))) }).raise (fillFlags sl ty.toNat))
  return { busy := 32, lat := 32 }
/-- `afill` (R165). -/
def execAfill (n : BitVec 2) (t : BitVec 4) (ty : BitVec 4) (s : State) : Host.Outcome State Fault Refusal :=
  runCop (.afill n t ty) [] (matUnit [t]) noCapture (actAfill n t ty) s

end Sys2Proof.Machine
end

