-- ==== Sys2Proof/Machine/Affine.lean ====
section
/-! DEFINITION. Affine accumulation and the scan network (R166 to R178). -/

namespace Sys2Proof.Machine

/-- A cell as the pair (g, b). -/
def pairOf (w : W64) : Nat × Nat := (cellG w, cellB w)
def ofPair (p : Nat × Nat) : W64 := BitVec.ofNat 64 (p.1 % 2 ^ 32 * 2 ^ 32 + p.2 % 2 ^ 32)

/-- `again`: the offsets of aS become the gains of aD (R169). -/
def actAgain (d a : BitVec 2) : RingEntry → Ex Issued := fun _ => do
  modCur (fun c =>
    let x := c.getA d
    let y := c.getA a
    let clear := x.rf == 0 && x.cf == 0
    (c.setA d { x with
      cells := Vector.ofFn (fun (k : Fin 1024) => ofPair (cellB (y.cells.get k), cellB (x.cells.get k))),
      rf := x.rf ||| y.rf, cf := x.cf ||| y.cf,
      frT := if clear then y.frT else x.frT, frT2 := if clear then y.frT2 else x.frT2 }).setAstatBit d.toNat true)
  return { busy := 8, lat := 8 }
/-- `again` (R169). -/
def execAgain (d a : BitVec 2) (s : State) : Host.Outcome State Fault Refusal :=
  runCop (.again d a) [] (matUnit []) noCapture (actAgain d a) s

/-- `again.plain` (R169). -/
def actAgainPlain (d : BitVec 2) : RingEntry → Ex Issued := fun _ => do
  modCur (fun c =>
    let x := c.getA d
    (c.setA d { x with cells := x.cells.map (fun w => ofPair (0, cellB w)) }).setAstatBit d.toNat false)
  return { busy := 2, lat := 2 }
/-- `again.plain` (R169). -/
def execAgainPlain (d : BitVec 2) (s : State) : Host.Outcome State Fault Refusal :=
  runCop (.againPlain d) [] (matUnit []) noCapture (actAgainPlain d) s

/-- One stage or step on the cells: each cell with what its composition gives, or as it stands (R170). -/
def scanStage (cells : Vector W64 1024) (f : Nat → W64 → Option ((Nat × Nat) × Bool × Fp.Flags)) :
    Vector W64 1024 × Option Nat × Fp.Flags :=
  let r := Vector.ofFn (fun (k : Fin 1024) => f k.val (cells.get k))
  let new := Vector.ofFn (fun (k : Fin 1024) => match r.get k with
    | some x => ofPair x.1
    | none => cells.get k)
  let under := r.toList.findIdx? (fun x => match x with
    | some y => y.2.1
    | none => false)
  let flags := r.toList.foldl (fun (fl : Fp.Flags) x => match x with
    | some y => fl ||| y.2.2
    | none => fl) 0
  (new, under, flags)

/-- Composition with a carry pair; an empty carry is the identity, in that the other pair is returned bit for bit (R166). R28 gives
(0.0, −∞) as the identity of (min,+) where R166 gives (0.0, +∞); the model follows R166 (DEDUCED). -/
def withCarry (sr : Nat) (k : Carry) (p : Nat × Nat) (j : Nat) : Option ((Nat × Nat) × Bool × Fp.Flags) :=
  if k.valid then some (Fp.compose sr p (pairOf (k.pairs.getD j 0))) else none

/-- The stages from `s` on: rows d = 2^(s−1) to n − 1 compose with the rows d before them (R170). Returns the first
underflow as (stage, cell). -/
def scanStages (sr n : Nat) : Nat → Nat → Vector W64 1024 → Option (Nat × Nat) → Fp.Flags →
    Vector W64 1024 × Option (Nat × Nat) × Fp.Flags
  | 0, _, cells, u, f => (cells, u, f)
  | m + 1, s, cells, u, f =>
    let d := 2 ^ (s - 1)
    let (c', u', f') := scanStage cells (fun k w =>
      if d ≤ k / 32 ∧ k / 32 < n then some (Fp.compose sr (pairOf w) (pairOf (cells.getD (k - 32 * d) 0))) else none)
    scanStages sr n m (s + 1) c' (u.or (u'.map (fun k => (s, k)))) (f ||| f')

/-- A gain underflow is recorded in GUF and GR, and traps where GUFT asks for it (R173): `u` is the stage, row and
column of the first. `again` says that the instruction itself had set GUF before it was stopped. -/
def noteUnderflow (n : BitVec 2) (seq : BitVec 16) (resumed : Bool) (u : Option (Nat × Nat × Nat)) :
    Ex (Option Exn) := do
  let c ← cur
  let a := c.getA n
  match u with
  | some (st, row, col) =>
    if c.guf n then
      return (if resumed && c.guft && a.grT2.extractLsb' 16 16 == seq then some ⟨cGAIN_UNDERFLOW, a.grT, a.grT2⟩ else none)
    else
      let t1 := BitVec.ofNat 64 (st * 1024 + row * 32 + col)
      let t2 := BitVec.ofNat 64 (seq.toNat * 65536 + n.toNat)
      modCur (fun c => (c.setA n { a with grT := t1, grT2 := t2 }).setAstatBit (4 + n.toNat) true)
      return (if c.guft then some ⟨cGAIN_UNDERFLOW, t1, t2⟩ else none)
  | none =>
    return (if resumed && c.guf n && c.guft && a.grT2.extractLsb' 16 16 == seq then
      some ⟨cGAIN_UNDERFLOW, a.grT, a.grT2⟩ else none)

/-- A scan from the progress that ASTAT holds to stage `stop`: 1 to 5 a stage of the network, 6 the carry composed, 7 the end (R170, R171).
`gain` loads the gains before stage 1, `skip` skips the network. With the first underflow, as (stage, cell). -/
def LCore.scanTo (c : LCore) (n k : BitVec 2) (len : Nat) (gain : Option (BitVec 4 × BitVec 4)) (skip : Bool) (stop : Nat) :
    LCore × Option (Nat × Nat) :=
  let stg := bits c.astat.toNat 30 28
  let a0 := c.getA n
  let cells0 := match gain with
    | some (t, ty) =>
      if stg = 0 then Vector.ofFn (fun (x : Fin 1024) =>
        ofPair (fillValue (c.getT t) ty.toNat (x.val / 32) (x.val % 32), cellB (a0.cells.get x))) else a0.cells
    | none => a0.cells
  let f0 : Fp.Flags := match gain with
    | some (t, ty) => if stg = 0 then fillFlags (c.getT t) ty.toNat else 0
    | none => 0
  let from_ := if stg = 0 then (if skip then 5 else 0) else stg
  let sr := c.sem n
  let (cells1, u1, f1) := scanStages sr len (min stop 5 - from_) (from_ + 1) cells0 none 0
  let kc := c.getK k
  let (cells2, u2, f2) := if from_ ≤ 5 ∧ 6 ≤ stop then
      scanStage cells1 (fun x w => if x / 32 < len then withCarry sr kc (pairOf w) (x % 32) else none)
    else (cells1, none, 0)
  let c1 := (c.setA n { a0 with cells := cells2 }).raise (f0 ||| f1 ||| f2)
  let aff := setBit c.astat n.toNat (c.aff n || gain.isSome)
  let u := u1.or (u2.map (fun x => (6, x)))
  if stop < 7 then ({ c1 with astat := setBits (setBits aff 30 28 stop) 27 26 n.toNat }, u)
  else
    ({ c1.setK k ⟨true, Vector.ofFn (fun (j : Fin 32) => cells2.getD (32 * (len - 1) + j.val) 0)⟩ with
        astat := setBits aff 30 26 0 }, u)

/-- `ascan`, `ascan.k` and `ascan.g` (R170, R171): to the end. -/
def affineScan (i : Instr) (n k : BitVec 2) (len : Nat) (gain : Option (BitVec 4 × BitVec 4)) (skip : Bool) (cyc : Nat)
    (e : RingEntry) : Ex Issued := do
  match gain with
  | some (t, _) => let _ ← needSlot i t
  | none => pure ()
  let c ← cur
  if gain.isNone ∧ c.aff n = false then rangeTrap i 10
  let (c1, u) := c.scanTo n k len gain skip 7
  modCur (fun _ => c.startWork e.seq cyc c1)
  let post ← noteUnderflow n e.seq (bits c.astat.toNat 30 28 != 0) (u.map (fun x => (x.1, x.2 / 32, x.2 % 32)))
  return { busy := cyc, lat := cyc, post := post }

/-- `ascan` (R170): `len` holds n − 1. -/
def actAscan (n k : BitVec 2) (len : BitVec 5) : RingEntry → Ex Issued :=
  affineScan (.ascan n k len) n k (len.toNat + 1) none false 12
/-- `ascan` (R170). -/
def execAscan (n k : BitVec 2) (len : BitVec 5) (s : State) : Host.Outcome State Fault Refusal :=
  runCop (.ascan n k len) [] (matUnit []) noCapture (actAscan n k len) s

/-- `ascan.k` (R170). -/
def actAscanK (n k : BitVec 2) (len : BitVec 5) : RingEntry → Ex Issued :=
  affineScan (.ascanK n k len) n k (len.toNat + 1) none true 4
/-- `ascan.k` (R170). -/
def execAscanK (n k : BitVec 2) (len : BitVec 5) (s : State) : Host.Outcome State Fault Refusal :=
  runCop (.ascanK n k len) [] (matUnit []) noCapture (actAscanK n k len) s

/-- `ascan.g` (R170). -/
def actAscanG (n : BitVec 2) (t : BitVec 4) (k : BitVec 2) (ty : BitVec 4) (len : BitVec 5) : RingEntry → Ex Issued :=
  affineScan (.ascanG n t k ty len) n k (len.toNat + 1) (some (t, ty)) false 16
/-- `ascan.g` (R170). -/
def execAscanG (n : BitVec 2) (t : BitVec 4) (k : BitVec 2) (ty : BitVec 4) (len : BitVec 5) (s : State) :
    Host.Outcome State Fault Refusal :=
  runCop (.ascanG n t k ty len) [] (matUnit [t]) noCapture (actAscanG n t k ty len) s

/-- The offset `aapply` gives a cell (R174). -/
def applyMap (sr g b s : Nat) : Nat × Fp.Flags :=
  if sr = 1 then Fp.later false g s b else if sr = 2 then Fp.later true g s b else Fp.fma32 g s b

/-- `aapply` (R174). -/
def actAapply (n k : BitVec 2) : RingEntry → Ex Issued := fun _ => do
  let c ← cur
  if c.aff n = false then rangeTrap (.aapply n k) 10
  let a := c.getA n
  let kc := c.getK k
  let st := fun (j : Nat) => if kc.valid then cellB (kc.pairs.getD j 0) else 0
  let r := Vector.ofFn (fun (x : Fin 1024) =>
    let w := a.cells.get x
    let (b, f) := applyMap (c.sem n) (cellG w) (cellB w) (st (x.val % 32))
    (ofPair (cellG w, b), f))
  modCur (fun c => (c.setA n { a with cells := r.map Prod.fst }).raise (r.toList.foldl (fun fl x => fl ||| x.2) 0))
  return { busy := 4, lat := 4 }
/-- `aapply` (R174). -/
def execAapply (n k : BitVec 2) (s : State) : Host.Outcome State Fault Refusal :=
  runCop (.aapply n k) [] (matUnit []) noCapture (actAapply n k) s

/-- `kload`: the four registers as they stand in the issue cycle (R175). -/
def actKload (k : BitVec 2) (a : BitVec 5) : RingEntry → Ex Issued := fun _ => do
  modCur (fun c => c.setK k ⟨true, Vector.ofFn (fun (j : Fin 32) =>
    BitVec.ofNat 64 (elemAt (c.getV (a + BitVec.ofNat 5 (j.val / 8))) 64 (j.val % 8)))⟩)
  return { busy := 2, lat := 2 }
/-- `kload` (R175). -/
def execKload (k : BitVec 2) (a : BitVec 5) (s : State) : Host.Outcome State Fault Refusal :=
  runCop (.kload k a) [] (matUnit []) noCapture (actKload k a) s

/-- `kstore`: an empty carry writes zeros (R175). -/
def actKstore (k : BitVec 2) (d : BitVec 5) : RingEntry → Ex Issued := fun _ => do
  let kc := (← cur).getK k
  let w := fun (q : Nat) => elemWrite (d + BitVec.ofNat 5 q) 64 ((List.range 8).map (fun j =>
    (j, if kc.valid then (kc.pairs.getD (8 * q + j) 0).toNat else 0)))
  return { writes := (List.range 4).map w, busy := 2, lat := 2 }
/-- `kstore` (R175). -/
def execKstore (k : BitVec 2) (d : BitVec 5) (s : State) : Host.Outcome State Fault Refusal :=
  runCop (.kstore k d) [] (matUnit []) noCapture (actKstore k d) s

/-- `kcomb` (R176, R173). -/
def actKcomb (d a n : BitVec 2) : RingEntry → Ex Issued := fun e => do
  let c ← cur
  let x := c.getK d
  let y := c.getK a
  if x.valid = false ∧ y.valid = false then return { busy := 2, lat := 2 }
  let r := (List.range 32).map (fun j =>
    if x.valid = false then (y.pairs.getD j 0, false, (0 : Fp.Flags))
    else if y.valid = false then (x.pairs.getD j 0, false, 0)
    else
      let p := Fp.compose (c.sem n) (pairOf (x.pairs.getD j 0)) (pairOf (y.pairs.getD j 0))
      (ofPair p.1, p.2.1, p.2.2))
  modCur (fun c => (c.setK d ⟨true, Vector.ofFn (fun (j : Fin 32) => (r.map Prod.fst).getD j.val 0)⟩).raise
    (r.foldl (fun f q => f ||| q.2.2) 0))
  let post ← noteUnderflow n e.seq false ((r.findIdx? (fun q => q.2.1)).map (fun j => (7, 0, j)))
  return { busy := 2, lat := 2, post := post }
/-- `kcomb` (R176). -/
def execKcomb (d a n : BitVec 2) (s : State) : Host.Outcome State Fault Refusal :=
  runCop (.kcomb d a n) [] (matUnit []) noCapture (actKcomb d a n) s

/-- `kzero` (R176). -/
def actKzero (k : BitVec 2) : RingEntry → Ex Issued := fun _ => do
  modCur (fun c => c.setK k Carry.empty)
  return {}
/-- `kzero` (R176). -/
def execKzero (k : BitVec 2) (s : State) : Host.Outcome State Fault Refusal :=
  runCop (.kzero k) [] (matUnit []) noCapture (actKzero k) s

end Sys2Proof.Machine
end

