-- ==== Sys2Proof/Machine/MemoryOps.lean ====
section
/-! DEFINITION. Scalar loads and stores (R188), pointer loads and stores (R189), pointer instructions (R191) and
object instructions (R182, R183, R192). -/

namespace Sys2Proof.Machine

/-- `ld` (R188). -/
def execLd (d : BitVec 5) (p : BitVec 4) (m : BitVec 2) (z : BitVec 3) (o : BitVec 11) (s : State) :
    Host.Outcome State Fault Refusal :=
  runWord (.ld d p m z o) ⟨d :: memUses m o, 0, 1, 1⟩ (do
    let n := sizeBytes z
    let (off, _) ← memOperand p m o n
    let ptr := (← rdP p).ptr
    let v ← readPay ptr off n accLoad
    wrX d (extendLoad z v)
    postIncrement p m n
    modCur (fun c => if d = 0 then c else
      { c with xrdy := c.xrdy.set d.toNat (c.ccy + loadLat (ptrLvl ptr)) d.isLt })
    return .seq) s

/-- `st`: an object of KIND 1 or 2 is not stored to (R188, R180). -/
def execSt (d : BitVec 5) (p : BitVec 4) (m : BitVec 2) (z : BitVec 3) (o : BitVec 11) (s : State) :
    Host.Outcome State Fault Refusal :=
  runWord (.st d p m z o) ⟨d :: memUses m o, 0, 1, 1⟩ (do
    let n := sizeBytes z
    let before ← rdP p
    let (off, w0) ← memOperand p m o n
    if hdrKind w0 = 1 ∨ hdrKind w0 = 2 then trapWith cOBJ_KIND before.ptr (BitVec.ofNat 64 (hdrKind w0))
    let ptr := (← rdP p).ptr
    writePay ptr off n ((← rdX d).toNat % 2 ^ (8 * n)) accStore
    postIncrement p m n
    return .seq) s

/-- The reference object of `ldp` and `stp`: KIND 1, a slot that is a multiple of 8 (R189). -/
def slotOperand (p : BitVec 4) (m : BitVec 2) (o : BitVec 11) : Ex (Nat × W64) := do
  let before ← rdP p
  let (off, w0) ← memOperand p m o 8
  if hdrKind w0 ≠ 1 then trapWith cOBJ_KIND before.ptr (BitVec.ofNat 64 (hdrKind w0))
  if off % 8 ≠ 0 then trapWith cOBJ_MALFORMED before.ptr (BitVec.ofNat 64 off)
  return (off, w0)

/-- `ldp` (R189). -/
def execLdp (q p : BitVec 4) (m : BitVec 2) (o : BitVec 11) (s : State) : Host.Outcome State Fault Refusal :=
  runWord (.ldp q p m o) ⟨memUses m o, 0, 1, 1⟩ (do
    let (off, _) ← slotOperand p m o
    let ptr := (← rdP p).ptr
    let v ← readPay ptr off 8 accLoad
    let len ← lenOf (BitVec.ofNat 64 v)
    postIncrement p m 8
    wrP q { ptr := BitVec.ofNat 64 v, cur := 0, len := len }
    return .seq) s

/-- A pointer to a copy as its CANON; every other value as it is (R189, R261). -/
def uncopied (v : W64) : Ex W64 := do
  if v ≠ 0 ∧ ptrLvl v ≤ 2 ∧ ptrMalformed v = false then
    let w ← readHdr v
    canonOf v w
  else return v

/-- A pointer that is to lie in an object of home level `h`: one of a nearer level is promoted (R189, R190); `none` while the promotion
must wait (R190 step 3). A promotion uses the pointer, so that a malformed one traps (R24). -/
def escaping (v : W64) (h : Nat) : Ex (Option W64) := do
  if v = 0 ∨ h ≤ ptrLvl v then return some v
  if ptrMalformed v then trapWith cOBJ_MALFORMED v 0
  promote v h

/-- A word that must wait for a promotion has changed nothing and runs again; the engines go on meanwhile, and a fault that stops one is
taken here (R190 step 3, R230). -/
def orWait (m : Ex Bool) : Ex Flow := fun s =>
  match m s with
  | .ok true s' => .ok .seq s'
  | .ok false _ => (do
      modify State.finishLoads
      waitTags (tagsOf (BitVec.allOnes 64))
      again : Ex Flow) s
  | .error e s' => .error e s'

/-- The pointer, promoted to a level, where a collection that the promotion has made moves the addressed object farther: it is promoted again
(R180, R189). `home` gives the home level of the addressed object as it now stands. -/
def escapingTo (home : Ex Nat) : Nat → W64 → Ex (Option W64)
  | 0, v => return some v
  | n + 1, v => do
    let h ← home
    match ← escaping v h with
    | none => return none
    | some u => if u = v then return some v else escapingTo home n u

/-- The pointer that `stp` stores: a copy is stored as its CANON, and a pointer that would escape is promoted first (R189, R190). -/
def stpValue (q p : BitVec 4) : Ex (Option W64) := do
  let v ← uncopied (← rdP q).ptr
  let home : Ex Nat := do
    let a := (← rdP p).ptr
    homeLevel a (← readHdr a)
  let h ← home
  if h = 4 ∧ v ≠ 0 ∧ ptrLvl v ≠ 4 then trapWith cOBJ_ESCAPE v 4
  escapingTo home 4 v

/-- `stp` (R189). -/
def execStp (q p : BitVec 4) (m : BitVec 2) (o : BitVec 11) (s : State) : Host.Outcome State Fault Refusal :=
  runWord (.stp q p m o) ⟨memUses m o, 0, 1, 1⟩ (orWait do
    let (off, _) ← slotOperand p m o
    match ← stpValue q p with
    | none => return false
    | some v =>
      let ptr := (← rdP p).ptr
      writePay ptr off 8 v.toNat accStore
      postIncrement p m 8
      return true) s

/-- `pmov` (R191). -/
def execPmov (d a : BitVec 4) (s : State) : Host.Outcome State Fault Refusal :=
  runWord (.pmov d a) Timing.one (do wrP d (← rdP a); return .seq) s

/-- `padj` (R191). -/
def execPadj (d a : BitVec 4) (b : BitVec 5) (s : State) : Host.Outcome State Fault Refusal :=
  runWord (.padj d a b) ⟨[b], 0, 1, 1⟩ (do
    let pr ← rdP a
    let c : Int := pr.cur.toNat + (← rdX b).toInt
    if c < 0 ∨ (pr.len.toNat : Int) < c ∨ 2 ^ 32 ≤ c then
      trapWith cOBJ_BOUND (BitVec.ofInt 64 c) (pr.len.setWidth 64)
    wrP d { pr with cur := BitVec.ofInt 32 c }
    return .seq) s

/-- `plen` (R191). -/
def execPlen (d : BitVec 5) (a : BitVec 4) (s : State) : Host.Outcome State Fault Refusal :=
  runWord (.plen d a) ⟨[d], d, 1, 1⟩ (do wrX d ((← rdP a).len.setWidth 64); return .seq) s

/-- The pointers in n bytes from byte c of the object that `a` names are promoted to a level; false while one must wait (R180, R190). -/
def promoteSlots (a : BitVec 4) (c h : Nat) : List Nat → Ex Bool
  | [] => return true
  | k :: l => do
    let q ← readPay (← rdP a).ptr (c + 8 * k) 8 accLoad
    match ← escaping (BitVec.ofNat 64 q) h with
    | none => return false
    | some _ => promoteSlots a c h l

/-- `pslice` once its checks have passed: the allocation, and the payload. The pointers of a reference object that its new object may not
hold, since `Place` has gone to a farther level than theirs, are promoted first (R180, DEDUCED). -/
def sliceInto (d a : BitVec 4) (kind c n : Nat) : Ex Bool := do
  let o ← allocObj 0 kind n
  modCur (fun l => { l with cxpins := o :: l.cxpins })
  let bytes ← snapshot (← rdP a).ptr (16 + c) n accLoad
  let ready ← (if kind = 1 then promoteSlots a c (ptrLvl o) (bytes.map (fun x => x.1 / 8)).dedup else pure true)
  modCur (fun l => { l with cxpins := l.cxpins.erase o })
  if ready = false then return false
  let src := (← rdP a).ptr
  let bytes ← (if kind = 1 then snapshot src (16 + c) n accLoad else pure bytes)
  fillObj o 16 n bytes accStore
  wrP d { ptr := o, cur := 0, len := BitVec.ofNat 40 n }
  return true

/-- `pslice` (R191). -/
def execPslice (d a : BitVec 4) (b : BitVec 5) (s : State) : Host.Outcome State Fault Refusal :=
  runWord (.pslice d a b) ⟨[b], 0, 1, 1⟩ (orWait do
    let before ← rdP a
    let n := (← rdX b).toNat
    let w0 ← touch a
    let pr ← rdP a
    let c := pr.cur.toNat
    if pr.len.toNat < c + n then trapWith cOBJ_BOUND (BitVec.ofNat 64 (c + n)) (pr.len.setWidth 64)
    let kind := hdrKind w0
    if kind ≠ 0 ∧ kind ≠ 1 then trapWith cOBJ_KIND before.ptr (BitVec.ofNat 64 kind)
    if kind = 1 ∧ (c % 8 ≠ 0 ∨ n % 8 ≠ 0) then
      trapWith cOBJ_MALFORMED before.ptr (BitVec.ofNat 64 (if c % 8 ≠ 0 then c else c + n))
    sliceInto d a kind c n) s

/-- `pfrom`: privileged; LEN is read from the header as for `ldp` (R191). -/
def execPfrom (d : BitVec 4) (a : BitVec 5) (s : State) : Host.Outcome State Fault Refusal :=
  runWord (.pfrom d a) ⟨[a], 0, 1, 1⟩ (do
    let v ← rdX a
    let len ← lenOf v
    wrP d { ptr := v, cur := 0, len := len }
    return .seq) s

/-- `ptox` (R191). -/
def execPtox (d : BitVec 5) (a : BitVec 4) (s : State) : Host.Outcome State Fault Refusal :=
  runWord (.ptox d a) ⟨[d], d, 1, 1⟩ (do wrX d (← rdP a).ptr; return .seq) s

/-- `alloc` and `allocr` (R183): `orNull` writes the null pointer where `Place` finds no room, leaving everything
else as it was. -/
def allocInstr (i : Instr) (orNull : Bool) (d : BitVec 4) (a : BitVec 5) (l : BitVec 2) (k : BitVec 4) (s : State) :
    Host.Outcome State Fault Refusal :=
  runWord i ⟨[a], 0, 2, 2⟩ (do
    let len := (← rdX a).toNat
    if 2 ^ 40 ≤ len then trapWith cOPERAND_RANGE ((wordOf i).setWidth 64) (BitVec.ofNat 64 len)
    let got ← (if orNull then roomOrNull (allocObj l.toNat k.toNat len) else do
      return some (← allocObj l.toNat k.toNat len))
    match got with
    | some o => wrP d { ptr := o, cur := 0, len := BitVec.ofNat 40 len }
    | none => wrP d PtrReg.null
    return .seq) s
where
  /-- No room: the state as it was. -/
  roomOrNull (m : Ex W64) : Ex (Option W64) := fun s =>
    match m s with
    | .ok a s' => .ok (some a) s'
    | .error e s' => if e.code = cPAD_EXHAUSTED ∨ e.code = cHEAP_EXHAUSTED then .ok none s else .error e s'

/-- `alloc` (R183). -/
def execAlloc (d : BitVec 4) (a : BitVec 5) (l : BitVec 2) (k : BitVec 4) (s : State) :
    Host.Outcome State Fault Refusal := allocInstr (.alloc d a l k) false d a l k s

/-- `allocr` (R183). -/
def execAllocr (d : BitVec 4) (a : BitVec 5) (l : BitVec 2) (k : BitVec 4) (s : State) :
    Host.Outcome State Fault Refusal := allocInstr (.allocr d a l k) true d a l k s

/-- `otouch` (R188). -/
def execOtouch (d : BitVec 4) (s : State) : Host.Outcome State Fault Refusal :=
  runWord (.otouch d) Timing.one (do let _ ← touch d; return .seq) s

/-- A peer fault that an acknowledgement has brought is raised by a `fence` or `orel` of agent scope `dom` or `sys` that orders the access: the
stores that wait for one went through windows, so it must name `peer` (R217, R199): the oldest, and the next when the word runs again. -/
def raiseAck (g : BitVec 3) (st : BitVec 4) : Ex Unit := do
  if 4 ≤ g.toNat ∧ st.getLsbD 2 = true then
    match (← cur).acks with
    | [] => pure ()
    | e :: l =>
      modCur (fun c => { c with acks := l })
      throw e

/-- `oacq`: it waits until the home has applied every release causally before it (R192, R204). -/
def execOacq (d : BitVec 4) (g : BitVec 3) (st : BitVec 4) (s : State) : Host.Outcome State Fault Refusal :=
  runWord (.oacq d g st) Timing.one (do
    let w0 ← touch d
    let p := (← rdP d).ptr
    let k ← canonOf p w0
    modify (fun s => s.forAcquire k)
    if !(← get).mayAcquire k then return .block .causal
    acquire p w0
    return .seq) s

/-- `orel`: earlier stores and object instructions have completed when it issues (R192, R202). -/
def execOrel (d : BitVec 4) (g : BitVec 3) (st : BitVec 4) (s : State) : Host.Outcome State Fault Refusal :=
  runWord (.orel d g st) Timing.one (do
    raiseAck g st
    let w0 ← touch d
    release (← rdP d).ptr w0
    return .seq) s

end Sys2Proof.Machine
end

