-- ==== Sys2Proof/Machine/Atomics.lean ====
section
/-! DEFINITION. Atomics (R211 to R215) and `fence` (R216). -/

namespace Sys2Proof.Machine

/-- Op(old, v) of R214 on s bytes. -/
def atomicOp (op s old v : Nat) : Nat :=
  let so := sextNat old (8 * s)
  let sv := sextNat v (8 * s)
  if op = 0 then (old + v) % 2 ^ (8 * s)
  else if op = 1 then old &&& v
  else if op = 2 then old ||| v
  else if op = 3 then old ^^^ v
  else if op = 4 then (if so ≤ sv then old else v)
  else if op = 5 then (if sv ≤ so then old else v)
  else if op = 6 then min old v
  else if op = 7 then max old v
  else v

/-- The object's level and storage: 0 pad, 1 mem, 2 peer, 3 host (R55, R211). -/
def storageOf (lvl : Nat) (l : Loc) : Nat :=
  if lvl ≤ 2 then 0 else if lvl = 4 then 2 else match l with
    | .phys true _ _ => 3
    | _ => 1

/-- The narrowest agent scope a place takes (R211). -/
def leastScope (lvl stor : Nat) : Nat :=
  if stor = 3 then 5 else if lvl ≤ 2 then lvl else if lvl = 3 then 2 else 3

/-- Reason 13, then 12, of R211; none where the place exists. -/
def placeReason (lvl stor agent : Nat) (swapAdd : Bool) : Option Nat :=
  if stor = 3 ∧ swapAdd = false then some 13
  else if agent < leastScope lvl stor then some 12
  else none

/-- Cycles an uncontended atomic takes where R213 gives a figure. -/
def atomicTime (lvl : Nat) : Nat := if lvl = 0 then 4 else if lvl = 1 then 14 else if lvl = 2 then 30 else 140

/-- The canonical object a pointer names, without a touch (R211, R214). Only a pad holds copies: no header at level 3 or 4 is read. -/
def canonical (p : W64) : Ex W64 := do
  checkPtr p
  if ptrLvl p ≤ 2 then
    let w ← readHdr p
    canonOf p w
  else return p

/-- OBJ_KIND for an object of KIND 1 or 2 (R214, R215). -/
def atomicKind (p obj : W64) : Ex Unit := do
  let h ← readHdr obj
  if hdrKind h = 1 ∨ hdrKind h = 2 then trapWith cOBJ_KIND p (BitVec.ofNat 64 (hdrKind h))

/-- The storage that holds byte `off` of an object, by the page that maps it, whatever the page permits: it is known before the access is
made (R211, R214). Of an object whose pages differ in HOST it is that of the page with this byte (DESIGN CHOICE). -/
def storageAt (obj : W64) (off : Nat) : Ex Nat := do
  if ptrLvl obj ≠ 3 then return storageOf (ptrLvl obj) .away
  let s ← get
  let va := ptrAddr obj + off
  let w := s.walkFor s.mg.ctxbase (s.ctxNamed s.cur.ctx) s.cur.ctx va accLoad false
  set w.2
  match w.1 with
  | .leaf _ pte _ _ => return if pte.getLsbD 15 then 3 else 1
  | .stop tbl r => throw (pageFault (BitVec.ofNat 64 va) accAtomic tbl r)
  | .lost pa => failMem (BitVec.ofNat 64 va) pa

/-- The place of an atomic exists: reasons 13, then 12 (R211). -/
def needPlace (i : Instr) (lvl stor agent : Nat) (swapAdd : Bool) : Ex Unit :=
  match placeReason lvl stor agent swapAdd with
  | some r => rangeTrap i r
  | none => pure ()

/-- `amo` and `cas`: every check, then one read and one write at the place (R214). No write of another agent falls between the two, at this place
or at another; R212 leaves those at other places and plain stores open (DESIGN CHOICE). -/
def atomic (i : Instr) (d : BitVec 5) (p : BitVec 4) (b : BitVec 5) (g : BitVec 3) (st : BitVec 2) (w : BitVec 1)
    (swapAdd : Bool) (f : W64 → Nat → Nat → Nat) (s : State) : Host.Outcome State Fault Refusal :=
  runWord i ⟨[b, d], d, 0, 0⟩ (do
    let c ← cur
    let n := if w = 0 then 4 else 8
    let pr := c.getP p
    checkPtr pr.ptr
    let o := pr.cur.toNat
    if pr.len.toNat < o + n then trapWith cOBJ_BOUND (BitVec.ofNat 64 o) (pr.len.setWidth 64)
    if o % n ≠ 0 then trapWith cOBJ_MALFORMED pr.ptr (BitVec.ofNat 64 o)
    let obj ← canonical pr.ptr
    atomicKind pr.ptr obj
    let lvl := ptrLvl obj
    let stor ← storageAt obj (16 + o)
    if st.toNat ≠ stor then rangeTrap i 11
    needPlace i lvl stor g.toNat swapAdd
    let l ← locate obj (16 + o) n accAtomic
    let old ← locRead l n (repAddr obj (16 + o))
    locWrite l n (f (c.getX d) old ((c.getX b).toNat % 2 ^ (8 * n))) (repAddr obj (16 + o))
    wrX d (BitVec.ofNat 64 old)
    modify (fun s => { s with clk := s.clk + atomicTime lvl, cur := { s.cur with ccy := s.cur.ccy + atomicTime lvl } })
    return .seq) s

/-- `amo` (R214). -/
def execAmo (d : BitVec 5) (p : BitVec 4) (b : BitVec 5) (o : BitVec 4) (g : BitVec 3) (st : BitVec 2) (w : BitVec 1)
    (s : State) : Host.Outcome State Fault Refusal :=
  atomic (.amo d p b o g st w) d p b g st w (o == 0 || o == 8)
    (fun _ old v => atomicOp o.toNat (if w = 0 then 4 else 8) old v) s

/-- `cas` (R214). -/
def execCas (d : BitVec 5) (p : BitVec 4) (b : BitVec 5) (g : BitVec 3) (st : BitVec 2) (w : BitVec 1) (s : State) :
    Host.Outcome State Fault Refusal :=
  atomic (.cas d p b g st w) d p b g st w true
    (fun x old v => if old = x.toNat % 2 ^ (8 * (if w = 0 then 4 else 8)) then v else old) s

/-- The checks of one element of a `vamo` (R215). -/
def vamoElem (i : Instr) (pr : PtrReg) (obj : W64) (g w o : Nat) : Ex Unit := do
  if pr.len.toNat < o + w then trapWith cOBJ_BOUND (BitVec.ofNat 64 o) (pr.len.setWidth 64)
  atomicKind pr.ptr obj
  let lvl := ptrLvl obj
  needPlace i lvl (← storageAt obj (16 + o)) g false
  writeObj obj (16 + o) w 0 accAtomic

/-- The elements of a `vamo` are checked in increasing number, with nothing changed, before any is performed; a fault records the element
(R215). -/
def vamoCheck (q : BitVec 16) (i : Instr) (pr : PtrReg) (obj : W64) (g w : Nat) : List (Nat × Nat) → Ex Unit
  | [] => pure ()
  | (k, o) :: l => do
    setProgress q k
    probe (vamoElem i pr obj g w o)
    vamoCheck q i pr obj g w l

/-- The elements one after another, each a read and a write of one access, which counts once (R212, R220). -/
def vamoApply (obj : W64) (op w : Nat) (v : VWord) : List (Nat × Nat) → Ex Unit
  | [] => pure ()
  | (k, o) :: l => do
    let old ← readObjC (fun _ _ => 0) obj (16 + o) w accAtomic
    writeObj obj (16 + o) w (atomicOp op w old (elemAt v (8 * w) k)) accAtomic
    vamoApply obj op w v l

/-- `vamo` at issue (R215): the pointer is that captured, the object the canonical one. -/
def actVamo (d : BitVec 5) (p : BitVec 4) (wd : BitVec 1) (b : BitVec 5) (m : BitVec 3) (n : BitVec 1) (o : BitVec 4)
    (g : BitVec 2) : RingEntry → Ex Issued := fun e => do
  let c ← cur
  let w := if wd = 0 then 4 else 8
  let r ← holdSources e (c.getV d) (c.getV b) (c.getM m)
  let l := ((List.range (r.vl.toNat / w)).filter (fun k => laneSel r.mask n (w * k))).map
    (fun k => (k, r.ptr.cur.toNat + elemAt r.src1 (8 * w) k * w))
  let obj := Entry.data r.entry
  vamoCheck r.seq (.vamo d p wd b m n o g) r.ptr obj g.toNat w
    (l.filter (fun x => decide (r.prog ≤ x.1)))
  vamoApply obj o.toNat w r.src2 l
  return { busy := 4 }

/-- `vamo` (R215): the checks of R24 at dispatch, without a touch; the canonical object is pinned by the entry. -/
def execVamo (d : BitVec 5) (p : BitVec 4) (wd : BitVec 1) (b : BitVec 5) (m : BitVec 3) (n : BitVec 1) (o : BitVec 4)
    (g : BitVec 2) (s : State) : Host.Outcome State Fault Refusal :=
  runCop (.vamo d p wd b m n o g) [] vecMem (do
    let c ← cur
    let pr := c.getP p
    return { ptr := pr, entry := (← canonical pr.ptr).setWidth 512 }) (actVamo d p wd b m n o g) s

/-- `fence`: every earlier access of the ls path has been performed (R216). -/
def execFence (g : BitVec 3) (st : BitVec 4) (s : State) : Host.Outcome State Fault Refusal :=
  runWord (.fence g st) Timing.one (do raiseAck g st; return .seq) s

end Sys2Proof.Machine
end

