-- ==== Sys2Proof/Machine/Control.lean ====
section
/-! DEFINITION. Prefixes (R49 to R51), branches, jumps and calls (R112 to R114) and the repetition (R115, R116). -/

namespace Sys2Proof.Machine

/-- Cycles an instruction takes beyond its first (R98). -/
def spendMore (n : Nat) : Ex Unit := modify (fun s =>
  { s with clk := s.clk + n, cur := { s.cur with ccy := s.cur.ccy + n } })

/-- Branch of R112: the target lies in the function that holds the branch. -/
def branchTo (off : BitVec 12) : Ex Flow := do
  let s ← get
  let tgt := s.cur.pc + BitVec.ofInt 64 (joined s.cur off * 4)
  match s.funcAt s.cur.pc with
  | none => trapWith cCODE_TARGET tgt 3
  | some f =>
    if f.start.toNat ≤ tgt.toNat ∧ tgt.toNat < f.start.toNat + f.len then
      spendMore 1
      return .jump tgt
    else trapWith cCODE_TARGET tgt 3

/-- A conditional branch (R112). -/
def branchIf (i : Instr) (cond : W64 → W64 → Bool) (a b : BitVec 5) (off : BitVec 12) (s : State) :
    Host.Outcome State Fault Refusal :=
  runWord i ⟨[a, b], 0, 1, 1⟩ (do
    let c ← cur
    if cond (c.getX a) (c.getX b) then branchTo off else return .seq) s

/-- `b.eq` (R112). -/
def execBEq (a b : BitVec 5) (o : BitVec 12) (s : State) : Host.Outcome State Fault Refusal :=
  branchIf (.bEq a b o) (fun x y => x == y) a b o s
/-- `b.ne` (R112). -/
def execBNe (a b : BitVec 5) (o : BitVec 12) (s : State) : Host.Outcome State Fault Refusal :=
  branchIf (.bNe a b o) (fun x y => x != y) a b o s
/-- `b.lt` (R112). -/
def execBLt (a b : BitVec 5) (o : BitVec 12) (s : State) : Host.Outcome State Fault Refusal :=
  branchIf (.bLt a b o) (fun x y => x.slt y) a b o s
/-- `b.ge` (R112). -/
def execBGe (a b : BitVec 5) (o : BitVec 12) (s : State) : Host.Outcome State Fault Refusal :=
  branchIf (.bGe a b o) (fun x y => !x.slt y) a b o s
/-- `b.ltz` (R112). -/
def execBLtz (a b : BitVec 5) (o : BitVec 12) (s : State) : Host.Outcome State Fault Refusal :=
  branchIf (.bLtz a b o) (fun x y => x.ult y) a b o s
/-- `b.gez` (R112). -/
def execBGez (a b : BitVec 5) (o : BitVec 12) (s : State) : Host.Outcome State Fault Refusal :=
  branchIf (.bGez a b o) (fun x y => !x.ult y) a b o s

/-- The target of a jump (R113). -/
def jumpTarget (c : LCore) (off : BitVec 20) : W64 := c.pc + BitVec.ofInt 64 (joined c off * 4)

/-- `j` (R113). -/
def execJ (o : BitVec 20) (s : State) : Host.Outcome State Fault Refusal :=
  runWord (.j o) Timing.one (do
    let tgt := jumpTarget (← cur) o
    enterCode tgt
    spendMore 1
    return .jump tgt) s

/-- `call`: the link is the address after the call word, written once the target has resolved (R113). -/
def execCall (d : BitVec 5) (o : BitVec 20) (s : State) : Host.Outcome State Fault Refusal :=
  runWord (.call d o) ⟨[d], d, 1, 1⟩ (do
    let c ← cur
    enterCode (jumpTarget c o)
    wrX d (c.pc + 4)
    spendMore 1
    return .jump (jumpTarget c o)) s

/-- `jr` (R114). -/
def execJr (a : BitVec 5) (s : State) : Host.Outcome State Fault Refusal :=
  runWord (.jr a) ⟨[a], 0, 1, 1⟩ (do
    let tgt ← rdX a
    enterCode tgt
    spendMore 2
    return .jump tgt) s

/-- `callr`: the pointer names a function's header at level 3 (R114). -/
def execCallr (d : BitVec 5) (p : BitVec 4) (s : State) : Host.Outcome State Fault Refusal :=
  runWord (.callr d p) ⟨[d], d, 1, 1⟩ (do
    let s ← get
    let ptr := (s.cur.getP p).ptr
    checkPtr ptr
    let tgt := BitVec.ofNat 64 (ptrAddr ptr + 16)
    if ptrLvl ptr = 3 && (s.funcFrom tgt).isSome then
      enterCode tgt
      wrX d (s.cur.pc + 4)
      spendMore 3
      return .jump tgt
    else trapWith cCODE_TARGET ptr 4) s

/-- A body word that `rep` refuses: transfers, `rep`, `retire`, superstep, barrier, task and system words (R115). -/
def notInBody (w : W32) : Bool :=
  let op := w.toNat / 2 ^ 25
  (decide (0x10 ≤ op) && decide (op ≤ 0x15)) || (decide (0x52 ≤ op) && decide (op ≤ 0x54)) ||
    (decide (0x59 ≤ op) && decide (op ≤ 0x5C))

/-- A prefix word (R49, R50). -/
def isPrefix (w : W32) : Bool := w.toNat / 2 ^ 25 == 0x7E

/-- The body of `n` words from `a` suits a repetition (R115). -/
def State.bodyFits (s : State) (a : W64) : Nat → Bool
  | 0 => true
  | n + 1 =>
    match s.wordAt a with
    | none => false
    | some w => !notInBody w && !(n == 0 && isPrefix w) && s.bodyFits (a + 4) n

/-- `rep` (R115, R116). -/
def execRep (st a : BitVec 5) (n : BitVec 8) (l : BitVec 4) (s : State) : Host.Outcome State Fault Refusal :=
  let i : Instr := .rep st a n l
  runWord i ⟨[a], 0, 1, 1⟩ (do
    let s ← get
    let len := l.toNat
    let f := s.funcAt s.cur.pc
    if !s.bodyFits (s.cur.pc + 4) (len + 1) || f != s.funcAt (s.cur.pc + BitVec.ofNat 64 (4 * (len + 1))) then illegal i
    let cnt := if a = 0 then n.toNat else (s.cur.getX a).toNat
    if 65535 < cnt then trapWith cOPERAND_RANGE ((wordOf i).setWidth 64) (BitVec.ofNat 64 cnt)
    if cnt = 0 then return .jump (s.cur.pc + BitVec.ofNat 64 (4 * (len + 2)))
    else
      modCur (fun c => { c with repc := mkRepc cnt len 0 st true })
      return .jump (s.cur.pc + 4)) s

/-- `immx`: its payload joins the next word's immediate; an instruction that cannot take it, or the end of the function, traps here with EPC
at the `immx` (R49, R51). A next word that is no instruction, or an ill-formed one with an immediate field, traps itself. -/
def execImmx (p : BitVec 22) (s : State) : Host.Outcome State Fault Refusal :=
  runWord (.immx p) Timing.one (do
    let s ← get
    let bad : W64 → Ex Unit := fun w => do
      modCur (fun c => { c with unit := none, pfx := none })
      trapWith cILLEGAL w 0
    match s.wordAt (s.cur.pc + 4) with
    | none => bad ((wordOf (.immx p)).setWidth 64)
    | some w =>
      match decode w with
      | some i => if !i.takesImmx then bad (w.setWidth 64)
      | none => pure ()
    modCur (fun c => { c with pfx := some p })
    return .prefix_) s

/-- `hint`: kind 0 is kept for the die scheduler, kind 2 starts a prefetch copy-in; no hint traps (R50, R110). -/
def execHint (h : BitVec 22) (s : State) : Host.Outcome State Fault Refusal :=
  runWord (.hint h) Timing.one (do
    let s ← get
    let kind := h.toNat / 2 ^ 19
    if kind = 0 then modCur (fun c => { c with hint := h.extractLsb' 0 19 })
    else if kind = 2 then
      let here := ((s.funcAt s.cur.pc).map (·.start)).getD 0
      match s.funcRecAt here with
      | none => pure ()
      | some (r, _) =>
        match r.funcs[h.toNat % 2 ^ 19]? with
        | none => pure ()
        | some g =>
          match s.funcFrom (r.base + BitVec.ofNat 64 (g.hdr + 16)) with
          | some e => prefetchIn e
          | none => pure ()
    return .prefix_) s

end Sys2Proof.Machine
end

