-- ==== Sys2Proof/Machine/Engines.lean ====
section
/-! DEFINITION. The engine-start instructions and the waits for copy tags (R222 to R231, R243). -/

namespace Sys2Proof.Machine

/-- The first failed check of a start, as its reason (R225). -/
def firstReason : List (Option Nat) → Option Nat
  | [] => none
  | some r :: _ => some r
  | none :: l => firstReason l

/-- The lowest reason that refuses an entry of a copy, reason 7 for a queue pair that is shut out among them (R147, R225, R319). -/
def State.tensorReason (s : State) (accept : Entry → Bool) (e : Entry) : Option Nat :=
  match entryReason s.feat accept e with
  | none => if s.shutPair e then some 7 else none
  | some r => if r = 8 ∧ s.shutPair e = true then some 7 else some r

/-- Reason 14 of an `xfer` (R225): the regions lie in the tensors and pairs and blocks are aligned. -/
def xferSpan (c : Copy) : Option Nat :=
  let red := shRed c.shape
  let nel := shNel c.shape
  let rows := shRows c.shape
  let dcols := if red = 2 then 2 * nel else nel
  if Entry.rows c.srcE < adRow c.src + rows ∨ Entry.dim c.srcE 0 < adCol c.src + nel ∨
      Entry.rows c.dstE < adRow c.dst + rows ∨ Entry.dim c.dstE 0 < adCol c.dst + dcols ∨
      misaligned red (Entry.bs c.srcE) (adCol c.src) (adCol c.dst) nel then some 14
  else none

/-- Reason 14 of an `xgath` (R228, R224). -/
def xgathSpan (c : Copy) : Option Nat :=
  let red := shRed c.shape
  let k := shNel c.shape
  if bits c.shape.toNat 39 32 ≠ 0 ∨ Entry.dim c.idxE 0 < k ∨ Entry.rows c.dstE < adRow c.dst + k ∨
      Entry.dim c.srcE 0 ≤ adCol c.src ∨ Entry.dim c.dstE 0 ≤ adCol c.dst ∨ Entry.rows c.srcE ≤ adRow c.src ∨
      (red = 2 ∧ Entry.dim c.dstE 0 < adCol c.dst + 2 * c.nel) ∨
      misaligned red (Entry.bs c.srcE) (adCol c.src) (adCol c.dst) c.nel then some 14
  else none

/-- The entry that a prefetch works with: one that cannot be read is as one that is not valid, since a prefetch never faults (R229). -/
def prefEntry (tid : BitVec 8) : Ex Entry := do
  let s ← get
  return if s.tidOk s.cur.ctx tid then s.tidEntry s.cur.ctx tid else 0

/-- The copy a start describes, with what it captures (R225). -/
def newCopy (i : Instr) (kind : CopyKind) (dst src shape : W64) : Ex Copy := do
  let c ← cur
  let dstE ← (if kind = .xfer ∨ kind = .xgath then curEntry (adTid dst) else pure 0)
  let srcE ← (if kind = .xfer ∨ kind = .xgath then curEntry (adTid src) else prefEntry (adTid src))
  let idxE ← (if kind = .xgath then curEntry (shItid shape) else pure 0)
  return { kind := kind, word := wordOf i, dst := dst, src := src, shape := shape, fmode := c.fmode, ssc := c.ssc,
           dstE := dstE, srcE := srcE, idxE := idxE, phase := .queued, row := 0, col := 0, flags := 0 }

/-- A start waits for its tag to leave running, then is queued (R223). -/
def startOn (t : BitVec 6) (c : Copy) : Ex Flow := do
  waitTags [t]
  match (← cur).getTag t with
  | .running _ => again
  | _ =>
    if !(← get).pinRoom (Tag.running c).pins then again
    else
      startCopy t c
      return .seq

/-- `xfer` and `xgath` (R225, R226, R228). -/
def transfer (i : Instr) (kind : CopyKind) (d a b : BitVec 5) (t : BitVec 6) (s : State) :
    Host.Outcome State Fault Refusal :=
  runWord i ⟨[d, a, b], 0, 2, 2⟩ (do
    let s ← get
    let c ← newCopy i kind (s.cur.getX d) (s.cur.getX a) (s.cur.getX b)
    let red := shRed c.shape
    if (red = 2 ∨ red = 3) ∧ s.feat.getLsbD 2 = false then trapWith cFEATURE_ABSENT ((wordOf i).setWidth 64) 2
    let idx := if kind = .xgath then s.tensorReason (fun e => Entry.fmt e == 6) c.idxE else none
    let ro := if Entry.wr c.dstE then none else some 9
    match firstReason [s.tensorReason (copyAccept red c.dstE) c.srcE,
        s.tensorReason (copyAccept red c.srcE) c.dstE, ro, idx,
        if redTypes red (Entry.fmt c.srcE) (Entry.fmt c.dstE) then none else some 15,
        if kind = .xgath then xgathSpan c else xferSpan c] with
    | some r => rangeTrap i r
    | none => startOn t c) s

/-- `xfer` (R225). -/
def execXfer (d a b : BitVec 5) (t : BitVec 6) (s : State) : Host.Outcome State Fault Refusal :=
  transfer (.xfer d a b t) .xfer d a b t s
/-- `xgath` (R228). -/
def execXgath (d a b : BitVec 5) (t : BitVec 6) (s : State) : Host.Outcome State Fault Refusal :=
  transfer (.xgath d a b t) .xgath d a b t s

/-- `xpref.tr`: no architectural state but the tag (R229). -/
def execXprefTr (a b : BitVec 5) (t : BitVec 6) (s : State) : Host.Outcome State Fault Refusal :=
  runWord (.xprefTr a b t) ⟨[a, b], 0, 2, 2⟩ (do
    startOn t (← newCopy (.xprefTr a b t) .prefTr 0 (← rdX a) (← rdX b))) s
/-- `xpref.mg` (R229). -/
def execXprefMg (a b : BitVec 5) (t : BitVec 6) (s : State) : Host.Outcome State Fault Refusal :=
  runWord (.xprefMg a b t) ⟨[a, b], 0, 2, 2⟩ (do
    startOn t (← newCopy (.xprefMg a b t) .prefMg 0 (← rdX a) (← rdX b))) s

/-- The tag of a line at a pointer level: 0xF without the attribute (R243), and in memory of another package (DESIGN CHOICE). -/
def lineTag (lvl va : Nat) : Ex Nat := do
  if lvl ≤ 2 then return 15
  let l ← (if lvl = 3 then translate va accLoad else peerAccess va 0 1 accLoad 1)
  let s ← get
  match l with
  | .phys false true pa => return (s.tagOf (pa / 128)).toNat
  | _ => return 15

def lineTags (lvl line : Nat) : Nat → Ex Nat
  | 0 => pure 0
  | n + 1 => do
    let t ← lineTag lvl (line * 128)
    let r ← lineTags lvl (line + 1) n
    return t + 16 * r

/-- `xpref.tq`: once every earlier write of the logical core has landed (R243). -/
def execXprefTq (d a : BitVec 5) (s : State) : Host.Outcome State Fault Refusal :=
  let i : Instr := .xprefTq d a
  runWord i ⟨[a, d], d, 1, 1⟩ (do
    let w ← rdX a
    let e ← curEntry (adTid w)
    match entryReason (← get).feat (fun _ => true) e with
    | some r => rangeTrap i r
    | none => pure ()
    if Entry.rows e ≤ adRow w ∨ Entry.dim e 0 ≤ adCol w then rangeTrap i 14
    modify State.quiesce
    modify (fun s => s.finishTags (tagsOf (BitVec.allOnes 64)))
    let p := Entry.data e
    let v ← lineTags (ptrLvl p) ((ptrAddr p + 16 + Entry.off e (adCol w) (adRow w)) / 128) 16
    wrX d (BitVec.ofNat 64 v)
    return .seq) s

/-- `xwait.all` (R231). -/
def execXwaitAll (d a : BitVec 5) (s : State) : Host.Outcome State Fault Refusal :=
  runWord (.xwaitAll d a) ⟨[a, d], d, 1, 1⟩ (do
    let m ← rdX a
    waitTags (tagsOf m)
    let c ← cur
    if c.anyRunning (tagsOf m) then again
    else
      wrX d (c.xrdyBits &&& m)
      return .seq) s

/-- Copies go on until one of the tags is ready. -/
def State.finishAny (s : State) (m : W64) : List (BitVec 6) → State
  | [] => s
  | t :: l => if s.cur.xrdyBits &&& m != 0 then s else ((s.runCopy t).endCopy t).finishAny m l

/-- `xwait.any` (R231). -/
def execXwaitAny (d a : BitVec 5) (s : State) : Host.Outcome State Fault Refusal :=
  runWord (.xwaitAny d a) ⟨[a, d], d, 1, 1⟩ (do
    let m ← rdX a
    modify (fun s => s.finishAny m (tagsOf m))
    takeStopped (tagsOf m)
    let c ← cur
    if c.xrdyBits &&& m = 0 ∧ c.anyRunning (tagsOf m) = true then again
    else
      wrX d (c.xrdyBits &&& m)
      return .seq) s

/-- `xfind` (R231). -/
def execXfind (d a : BitVec 5) (s : State) : Host.Outcome State Fault Refusal :=
  runWord (.xfind d a) ⟨[a, d], d, 1, 2⟩ (do
    let m ← rdX a
    takeStopped (tagsOf m)
    let c ← cur
    match (tagsOf (c.xrdyBits &&& m)).head? with
    | none => wrX d 64
    | some t =>
      modCur (fun c => c.setTag t .idle)
      wrX d (t.setWidth 64)
    return .seq) s

end Sys2Proof.Machine
end

