-- ==== Sys2Proof/Machine/Gangs.lean ====
section
/-! DEFINITION. Gangs: launch headers (R245), members, barriers (R256, R258, R259), the task pool (R260), inboxes and
deposits (R250). -/

namespace Sys2Proof.Machine

/-! ### Launch headers (R245) -/

def hKobj (h : BitVec 512) : W64 := h.extractLsb' 448 64
def hArg (h : BitVec 512) : W64 := h.extractLsb' 384 64
def hPool (h : BitVec 512) : W64 := h.extractLsb' 320 64
def hRcr (h : BitVec 512) : W64 := h.extractLsb' 256 64
/-- WFW and WFE; their reserved bits read as zero (R34, R5). -/
def hWfw (h : BitVec 512) : W64 := h.extractLsb' 192 64 &&& 0xFFFFFFFFF
def hWfe (h : BitVec 512) : W64 := h.extractLsb' 128 64 &&& 0xFFFFFFFFFFFFFFF
def hSstl (h : BitVec 512) : Nat := (h.extractLsb' 96 32).toNat
def hPmin (h : BitVec 512) : Nat := max 1 (h.extractLsb' 80 16).toNat
def hPmaxRaw (h : BitVec 512) : Nat := (h.extractLsb' 64 16).toNat
def hKidx (h : BitVec 512) : Nat := (h.extractLsb' 48 16).toNat
def hNlb (h : BitVec 512) : Nat := (h.extractLsb' 40 2).toNat

/-! ### Gangs and members -/

/-- A gang that nothing has launched: one without pool, barriers and records. -/
def Gang.none (id : BitVec 32) : Gang where
  id := id
  tag := 0
  queue := 0
  ctx := 0
  hdr := 0
  ca := 0
  l := 1
  pcids := []
  phase := Vector.replicate 4 0
  count := Vector.replicate 4 []
  join := Vector.replicate 4 (Vector.replicate 10 0)
  doneJoin := Vector.replicate 4 (Vector.replicate 10 0)
  doneVote := Vector.replicate 4 false
  arriveAt := []
  boundary := false
  depth := 0
  abandoned := .none
  shrinks := []
  cut := .none

def State.gang (s : State) (id : BitVec 32) : Gang := (s.gangs.find? (fun g => g.id == id)).getD (Gang.none id)

/-- Change a gang in its place; one not yet listed is put at the end. -/
def State.setGang (s : State) (g : Gang) : State :=
  if s.gangs.any (fun x => x.id == g.id) then
    { s with gangs := s.gangs.map (fun x => if x.id == g.id then g else x) }
  else { s with gangs := s.gangs ++ [g] }

def State.modGang (s : State) (id : BitVec 32) (f : Gang → Gang) : State := s.setGang (f (s.gang id))

/-- The logical cores of a gang on this die. -/
def State.members (s : State) (id : BitVec 32) : List LCore := (s.cur :: s.others).filter (fun c => c.gang == id)

/-- Change the logical cores that a test picks, wherever they stand. -/
def State.modWhere (s : State) (p : LCore → Bool) (f : LCore → LCore) : State :=
  let g := fun c => if p c then f c else c
  { s with cur := g s.cur, others := s.others.map g }

/-- Make the first logical core that a test picks the one that moves. -/
def State.bring (s : State) (p : LCore → Bool) : State :=
  if p s.cur then s
  else
    match s.others.find? p with
    | some c => { s with cur := c, others := s.cur :: s.others.erase c }
    | Option.none => s

/-- Do something as the first logical core that a test picks; the one that moved before moves on afterwards. -/
def State.onCore (s : State) (p : LCore → Bool) (f : State → State) : State :=
  if p s.cur then f s
  else
    match s.others.find? p with
    | some c =>
      let pre := s.others.takeWhile (fun x => x != c)
      let post := s.others.drop (pre.length + 1)
      let t := f { s with cur := c, others := s.cur :: pre ++ post }
      match t.others with
      | me :: rest => { t with cur := me, others := rest.take pre.length ++ t.cur :: rest.drop pre.length }
      | [] => t
    | Option.none => s

def LCore.is (c : LCore) (gang : BitVec 32) (lcid : BitVec 16) : Bool := c.gang == gang && c.lcid == lcid

/-! ### Barriers (R256, R258) -/

def noVec : Vector Nat 10 := Vector.replicate 10 0

/-- Barrier n of a gang completes its phase when every member that has not retired has arrived; an abandoned gang never
does (R256, R259). The gang barrier leaves the superstep boundary to be taken (R263). -/
def State.completeBarrier (s : State) (id : BitVec 32) (n : Fin 4) : State :=
  let g := s.gang id
  let live := (s.members id).filter (fun c => c.run != .retired)
  let inn := g.count.get n
  if g.abandoned.isSome || inn == [] || live == [] || !live.all (fun c => inn.contains c.lcid) then s
  else
    s.setGang { g with
      phase := g.phase.set n (g.phase.get n + 1), count := g.count.set n [],
      doneJoin := g.doneJoin.set n (g.join.get n), join := g.join.set n noVec,
      doneVote := g.doneVote.set n (live.any (fun c => (c.bars.get n).vote && inn.contains c.lcid)),
      boundary := g.boundary || n == 0 }

/-- The arrival of the running logical core counts in the current phase (R258); `rel` joins its knowledge (R209). -/
def State.arriveOn (s : State) (n : Fin 4) (vote byVote rel : Bool) : State :=
  let c := s.cur
  let g := s.gang c.gang
  let g1 := { g with
    count := g.count.set n (c.lcid :: g.count.get n),
    join := if rel then g.join.set n (joinVec (g.join.get n) c.know) else g.join,
    arriveAt := if n = 0 then (c.lcid, s.gtc) :: g.arriveAt else g.arriveAt }
  let s1 := (s.setGang g1).modCur (fun c => { c with bars := c.bars.set n ⟨some (g.phase.get n), false, vote, byVote⟩ })
  s1.completeBarrier c.gang n

/-- The core has an arrival on barrier n that it has not waited for, in phase p. -/
def LCore.unwaited (c : LCore) (n : Fin 4) : Option Nat :=
  if (c.bars.get n).waited then Option.none else (c.bars.get n).phase

/-- The wait for the last arrival is over; `acq` joins the phase's vector into K (R209). -/
def State.endWait (s : State) (n : Fin 4) (acq : Bool) : State :=
  let v := (s.gang s.cur.gang).doneJoin.get n
  s.modCur (fun c => { c with
    bars := c.bars.set n { c.bars.get n with waited := true },
    know := if acq then joinVec c.know v else c.know })

/-- What completing `sstep` does to a logical core: the gang barrier's acquire, the task save, SSC, the compute phase
(R262). -/
def LCore.endStep (c : LCore) (v : Vector Nat 10) : LCore :=
  { ((c.setX 1 c.saveX1).setP 13 c.saveP13).setP 15 c.saveP15 with
    bars := c.bars.set 0 { c.bars.get 0 with waited := true }, know := joinVec c.know v,
    ssc := c.ssc + 1, exch := false, hint := noHint, overrun := false }

/-! ### The task pool (R260) -/

/-- Record k of the pool, in the gang's context: FN, FRAME, JOIN. -/
def poolRecord (pool : W64) (k : Nat) : Ex (W64 × W64 × W64) := do
  let v ← readPay pool (32 * k) 32 accAtomic
  return (BitVec.ofNat 64 v, BitVec.ofNat 64 (v / 2 ^ 64), BitVec.ofNat 64 (v / 2 ^ 128))

/-- Pop a record, if there is one. -/
def popTask (g : Gang) : Ex (Option (W64 × W64 × W64)) := do
  if hPool g.hdr = 0 ∨ g.depth = 0 then return Option.none
  let r ← poolRecord (hPool g.hdr) (g.depth - 1)
  modify (fun s => s.modGang g.id (fun g => { g with depth := g.depth - 1 }))
  return some r

/-- A member waits at `sstep` for the phase to complete (R262). -/
def waitsAtSstep (g : Gang) (c : LCore) : Bool :=
  match c.blk with
  | some (.sstep _) => (g.count.get 0).contains c.lcid && c.handed.isNone
  | _ => false

/-- Push a record: handed to the lowest member that waits at `sstep`, whose arrival is withdrawn, else stored; false
where the pool is full (R261, R262). -/
def pushTask (g : Gang) (fn frame jn : W64) : Ex Bool := do
  let s ← get
  let idle : List Nat := ((s.members g.id).filter (waitsAtSstep g)).map (fun c => c.lcid.toNat)
  match idle.min? with
  | some l =>
    let lc := BitVec.ofNat 16 l
    modify (fun s => (s.modWhere (fun c => c.is g.id lc) (fun c =>
        { c with handed := some (fn, frame, jn), bars := c.bars.set 0 BarRec.none })).modGang g.id
      (fun g => { g with count := g.count.set 0 ((g.count.get 0).filter (fun x => x != lc)),
                         arriveAt := g.arriveAt.filter (fun x => x.1 != lc) }))
    return true
  | Option.none =>
    let h ← readHdr (hPool g.hdr)
    let cap := (hdrLen h).toNat / 32
    if cap ≤ g.depth then return false
    writePay (hPool g.hdr) (32 * g.depth) 32 (fn.toNat + frame.toNat * 2 ^ 64 + jn.toNat * 2 ^ 128) accAtomic
    modify (fun s => s.modGang g.id (fun g => { g with depth := g.depth + 1 }))
    return true

/-! ### Deposits (R250) -/

/-- Cores between two physical cores (R18). -/
def travel (a b : BitVec 9) : Nat :=
  let d := fun (x y : Nat) => if x ≤ y then y - x else x - y
  3 + d (a.toNat / 16) (b.toNat / 16) + d (a.toNat % 16) (b.toNat % 16)

/-- The logical core a word is meant for. -/
def State.target (s : State) (gang : BitVec 32) (lcid : BitVec 16) : Option LCore :=
  (s.members gang).find? (fun c => c.lcid == lcid)

/-- Words that have arrived, with their gangs (R250). -/
def State.arrived (s : State) : List (BitVec 32 × PortWord) :=
  (s.cur :: s.others).flatMap (fun c => (c.port.filter (fun w => w.left && decide (w.due < s.clk))).map (fun w => (c.gang, w)))

def earlier (a b : BitVec 32 × PortWord) : Bool :=
  decide (a.2.due < b.2.due) || (a.2.due == b.2.due && decide (a.2.src.toNat ≤ b.2.src.toNat))

/-- The words of a port that wait leave it, one a cycle from cycle t on, once none of its words is held (R250). -/
def leaveFrom (t : Nat) : List PortWord → List PortWord
  | [] => []
  | w :: l =>
    if w.left then w :: leaveFrom t l
    else { w with left := true, due := max w.due (t + w.hop) } :: leaveFrom (t + 1) l

def leavePort (t : Nat) (l : List PortWord) : List PortWord := if l.any (·.held) then l else leaveFrom t l

/-- While a word is held no later word leaves the port: those that would leave after the cycle t stay (R250). -/
def stayAfter (t : Nat) (w : PortWord) : PortWord := if !w.held && decide (t + w.hop < w.due) then { w with left := false } else w

/-- Take a word from the port that it occupies; the words that waited behind it may leave. -/
def State.dropWord (s : State) (gang : BitVec 32) (w : PortWord) : State :=
  s.modWhere (fun c => c.gang == gang && c.port.contains w) (fun c => { c with port := leavePort s.clk (c.port.erase w) })

/-- A word has found its register full: it is held. -/
def State.holdAt (s : State) (gang : BitVec 32) (w : PortWord) : State :=
  let hold := fun (x : PortWord) => stayAfter w.due (if x == w then { x with held := true } else x)
  s.modWhere (fun c => c.gang == gang && c.port.contains w) (fun c => { c with port := c.port.map hold })

/-- The logical core has left its gang (R118, R338). -/
def LCore.gone (c : LCore) : Bool := c.run == .retired || c.run == .ended

/-- A word can land or be discarded. -/
def State.canLand (s : State) (x : BitVec 32 × PortWord) : Bool :=
  match s.target x.1 x.2.tgt with
  | some c => c.gone || !(c.getQ x.2.qn).full
  | Option.none => true

/-- The arrived words something happens to now: those that can land, and those that are not held yet. -/
def State.ripeWords (s : State) : List (BitVec 32 × PortWord) := s.arrived.filter (fun x => s.canLand x || !x.2.held)

/-- The first of these, the earliest and of one cycle that of the lowest source, lands, is discarded or is held (R250). -/
def State.landOne (s : State) : State :=
  match s.ripeWords with
  | [] => s
  | x :: rest =>
    let y := rest.foldl (fun b a => if earlier b a then b else a) x
    if s.canLand y then
      (s.dropWord y.1 y.2).modWhere (fun c => c.is y.1 y.2.tgt && !c.gone) (fun c => c.setQ y.2.qn ⟨y.2.word, true⟩)
    else s.holdAt y.1 y.2

def State.landWords (s : State) : Nat → State
  | 0 => s
  | n + 1 => if s.ripeWords == [] then s else s.landOne.landWords n

def State.portWords (s : State) : Nat := ((s.cur :: s.others).map (fun c => c.port.length)).sum

/-- Deposits that have arrived land, are held or are discarded (R250): each word is held at most once and lands at most once. -/
def State.deposits (s : State) : State := if s.portWords = 0 then s else s.landWords (2 * s.portWords)

end Sys2Proof.Machine
end

