-- ==== Sys2Proof/Machine/Exchange.lean ====
section
/-! DEFINITION. Exchange (R253 to R255), `xfence` (R218), barriers (R257 to R259), the task pool (R261) and `sstep`
(R262). -/

namespace Sys2Proof.Machine

/-! ### Sending -/

/-- The checks of `send` and `sendv` (R254). -/
def sendChecks (i : Instr) (tgt : W64) : Ex Unit := do
  let c ← cur
  if !c.exch then rangeTrap i 20
  if c.lcn.toNat ≤ tgt.toNat then rangeTrap i 21

/-- The first cycle from t on in which a word may enter the port: after every word before it, since words enter and leave in program order,
one a cycle (R250). -/
def LCore.portFree (c : LCore) (t : Nat) : Nat := c.port.foldl (fun e w => max e (w.due - w.hop + 1)) t

/-- A word enters the port in cycle `t`, or behind those before it, and leaves it at once unless a word is held or waits there; one for a
logical core that has left is discarded at arrival (R18, R250). -/
def enterPort (tgt : BitVec 16) (q : BitVec 4) (w : W64) (t : Nat) : Ex Unit := modify (fun s =>
  let dst := ((s.target s.cur.gang tgt).map (·.pcid)).getD s.cur.pcid
  let hop := travel s.cur.pcid dst
  s.modCur (fun c => { c with port := c.port ++
    [⟨c.lcid, tgt, q, w, hop, c.portFree t + hop, c.port.all (fun x => x.left && !x.held), false⟩] }))

/-- `send`: it stalls while the port is full (R254, R250). -/
def execSend (t v : BitVec 5) (q : BitVec 4) (s : State) : Host.Outcome State Fault Refusal :=
  runWord (.send t v q) ⟨[t, v], 0, 1, 1⟩ (do
    let tgt ← rdX t
    sendChecks (.send t v q) tgt
    if 16 ≤ (← cur).port.length then again
    else
      enterPort (tgt.setWidth 16) q (← rdX v) (← get).clk
      return .seq) s

/-- The cycle of the part in which the coprocessor instruction that works now has issued. -/
def State.issueClk (s : State) : Nat := s.clk + s.cur.copNext - 1 - s.cur.ccy

/-- `sendv` at issue: eight words, one a cycle (R18, R254). -/
def actSendv (_t v : BitVec 5) (q : BitVec 4) : RingEntry → Ex Issued := fun e => do
  let s ← get
  let w := s.cur.getV v
  for k in List.range 8 do
    enterPort (e.xa.setWidth 16) (q + BitVec.ofNat 4 k) (BitVec.ofNat 64 (elemAt w 64 k)) (s.issueClk + k)
  return { busy := 8 }

/-- `sendv` freezes the coprocessor until its port has room for eight words (R254, R64). -/
def sendUnit : CopUnit := { frozen := fun s _ => decide (16 < s.cur.port.length + 8) }

/-- `sendv`: the checks are made at dispatch, where the target is captured (R254). -/
def execSendv (t v : BitVec 5) (q : BitVec 4) (s : State) : Host.Outcome State Fault Refusal :=
  let i : Instr := .sendv t v q
  runCop i [t] sendUnit (do
    let tgt ← rdX t
    sendChecks i tgt
    return { xa := tgt }) (actSendv t v q) s

/-! ### Receiving -/

/-- Reason 19: inside a task (R254, R255, R258). -/
def noTask (i : Instr) : Ex Unit := do
  if (← cur).tip then rangeTrap i 19

/-- `recv`: a blocking point while its register is empty (R254). -/
def execRecv (d : BitVec 5) (q : BitVec 4) (s : State) : Host.Outcome State Fault Refusal :=
  runWord (.recv d q) ⟨[d], d, 1, 1⟩ (do
    noTask (.recv d q)
    let r := (← cur).getQ q
    if r.full then
      wrX d r.word
      modCur (fun c => c.setQ q { r with full := false })
      return .seq
    else return .block (.inbox q 1)) s

/-- The eight registers from q. -/
def eight (q : BitVec 4) : List (BitVec 4) := (List.range 8).map (fun k => q + BitVec.ofNat 4 k)

/-- `recv.v` at issue: the captured words (R254). -/
def actRecvV (d : BitVec 5) (_q : BitVec 4) : RingEntry → Ex Issued := fun e =>
  return { writes := [.v d (BitVec.allOnes 512) e.src1] }

/-- `recv.v`: it waits for eight full registers, empties them, then is dispatched (R254). -/
def execRecvV (d : BitVec 5) (q : BitVec 4) (s : State) : Host.Outcome State Fault Refusal :=
  let i : Instr := .recvV d q
  runWord i Timing.one (do
    if (← cur).handler ≠ 0 then rangeTrap i 25
    noTask i
    let c ← cur
    if (eight q).all (fun r => (c.getQ r).full) then
      let w := packElems 64 ((eight q).map (fun r => (c.getQ r).word.toNat))
      enqueue i vecUnit (do
        modCur (fun c => (eight q).foldl (fun c r => c.setQ r { c.getQ r with full := false }) c)
        return { src := BitVec.ofNat 512 w }) (actRecvV d q)
    else return .block (.inbox q 8)) s

/-- A word that lands in this cycle in register r: one held for it, or one that arrives now (R251). -/
def State.landsNow (s : State) (r : BitVec 4) : Bool :=
  (s.cur :: s.others).any (fun c => c.gang == s.cur.gang &&
    c.port.any (fun w => w.left && w.tgt == s.cur.lcid && w.qn == r && decide (w.due ≤ s.clk)))

/-- `qclr`: a deposit of the same cycle wins, and QCOL records it (R251, R29). -/
def execQclr (a : BitVec 5) (s : State) : Host.Outcome State Fault Refusal :=
  runWord (.qclr a) ⟨[a], 0, 1, 1⟩ (do
    let m ← rdX a
    let s ← get
    for k in List.range 16 do
      if m.getLsbD k then
        let r := BitVec.ofNat 4 k
        modCur (fun c =>
          let c1 := c.setQ r { c.getQ r with full := false }
          if s.landsNow r then { c1 with status := setBit c1.status (32 + k) true } else c1)
    return .seq) s

/-- `xphase` (R255). -/
def execXphase (s : State) : Host.Outcome State Fault Refusal :=
  runWord .xphase Timing.one (do
    noTask .xphase
    modCur (fun c => { c with exch := true })
    return .seq) s

/-! ### Fences between paths -/

/-- `xfence`: its cA half is satisfied before it completes; every later access follows it in this order of steps.
With cA = vt it waits and takes a pending fault as `cdrain` does (R208, R218, R333). -/
def execXfence (c e : BitVec 3) (g : BitVec 3) (st : BitVec 4) (s : State) : Host.Outcome State Fault Refusal :=
  let word := .xfence c e g st
  (if c = 1 ∧ word.wf = true ∧ s.missing word = none then draining else id) (runWord word Timing.one (do
    if c = 1 then drain
    if c = 2 then takeStopped (tagsOf (BitVec.allOnes 64))
    let s ← get
    if c = 4 ∧ s.cur.port ≠ [] then again
    else if c = 5 ∧ s.moves.any (fun m => s.cur.is m.gang m.lcid) = true then again
    else return .seq)) s

/-! ### Barriers -/

/-- The checks common to `arrive`, `wait` and `bvote` (R258). -/
def barrierChecks (i : Instr) (n : BitVec 2) : Ex Gang := do
  noTask i
  let s ← get
  let g := s.gang s.cur.gang
  if hNlb g.hdr < n.toNat then rangeTrap i 22
  return g

/-- BARRIER_ABANDONED (R259). -/
def abandonedTrap (g : Gang) (n : BitVec 2) : Ex Unit := do
  match g.abandoned with
  | some l => trapWith cBARRIER_ABANDONED (n.setWidth 64) (l.setWidth 64)
  | none => pure ()

/-- `arrive` (R258): it waits while its arrival in the current phase is already counted. -/
def arriveInstr (i : Instr) (n : BitVec 2) (rel : Bool) (s : State) : Host.Outcome State Fault Refusal :=
  runWord i Timing.one (do
    let g ← barrierChecks i n
    let c ← cur
    if (g.count.get n.toFin).contains c.lcid then return .block (.arrival n (g.phase.get n.toFin))
    else
      modify (fun s => s.arriveOn n.toFin false false rel)
      return .seq) s
/-- `arrive` (R258). -/
def execArrive (n : BitVec 2) (s : State) : Host.Outcome State Fault Refusal := arriveInstr (.arrive n) n false s
/-- `arrive.rel` (R258, R209). -/
def execArriveRel (n : BitVec 2) (s : State) : Host.Outcome State Fault Refusal := arriveInstr (.arriveRel n) n true s

/-- `wait` (R258). -/
def waitInstr (i : Instr) (n : BitVec 2) (acq : Bool) (s : State) : Host.Outcome State Fault Refusal :=
  runWord i Timing.one (do
    let g ← barrierChecks i n
    match (← cur).unwaited n.toFin with
    | none => rangeTrap i 23
    | some p =>
      abandonedTrap g n
      if p < g.phase.get n.toFin then
        modify (fun s => s.endWait n.toFin acq)
        return .seq
      else return .block (.phase n p)) s
/-- `wait` (R258). -/
def execWait (n : BitVec 2) (s : State) : Host.Outcome State Fault Refusal := waitInstr (.wait n) n false s
/-- `wait.acq` (R258, R209). -/
def execWaitAcq (n : BitVec 2) (s : State) : Host.Outcome State Fault Refusal := waitInstr (.waitAcq n) n true s

/-- The phase of a `bvote` of this core that has not ended (R258). -/
def LCore.voting (c : LCore) (n : Fin 4) : Option Nat := if (c.bars.get n).byVote then c.unwaited n else none

/-- The second half of `bvote`: it waits for phase p and reads the vote (R258). -/
def endVote (d : BitVec 5) (n : BitVec 2) (p : Nat) : Ex Flow := do
  let s ← get
  let g := s.gang s.cur.gang
  if p < g.phase.get n.toFin then
    wrX d (if g.doneVote.get n.toFin then 1 else 0)
    modify (fun s => s.endWait n.toFin false)
    return .seq
  else return .block (.phase n p)

/-- `bvote` (R258): an arrival already counted is not counted again. -/
def execBvote (d a : BitVec 5) (n : BitVec 2) (s : State) : Host.Outcome State Fault Refusal :=
  let i : Instr := .bvote d a n
  runWord i ⟨[a, d], d, 1, 1⟩ (do
    let g ← barrierChecks i n
    let c ← cur
    match c.voting n.toFin with
    | some p =>
      if g.phase.get n.toFin ≤ p then abandonedTrap g n
      endVote d n p
    | none =>
      abandonedTrap g n
      if (g.count.get n.toFin).contains c.lcid then return .block (.phase n (g.phase.get n.toFin))
      else
        modify (fun s => s.arriveOn n.toFin ((c.getX a).getLsbD 0) true false)
        endVote d n (g.phase.get n.toFin)) s

/-! ### The task pool -/

/-- A pool operation takes the time of the home slice (R261, R213). -/
def poolTime : Nat := 140

/-- Reason 18 (R261). -/
def needPool (i : Instr) : Ex Gang := do
  let s ← get
  let g := s.gang s.cur.gang
  if hPool g.hdr = 0 then rangeTrap i 18
  return g

/-- The pointer names a function of the code map (R261, R106). -/
def namesFunction (p : W64) : Ex Unit := do
  let s ← get
  let tgt := BitVec.ofNat 64 (ptrAddr p + 16)
  if !(ptrLvl p == 3 && (s.funcFrom tgt).isSome) then
    trapWith cCODE_TARGET p 4

/-- A pointer as a pool record holds it: canonical, and at level 3 or beyond (R261); `none` while its promotion must wait (R190). -/
def poolPointer (v : W64) : Ex (Option W64) := do escaping (← uncopied v) 3

/-- The push of `spawn` and `join` (R261); false while a promotion must wait. FRAME and JOIN are read in turn: the promotion of one may have
moved the object of the other, and forwarded what names it (R190). -/
def pushRecord (i : Instr) (fn : W64) (frame jn : Ex W64) : Ex Bool := do
  namesFunction fn
  match ← poolPointer (← frame) with
  | none => return false
  | some f =>
    match ← poolPointer (← jn) with
    | none => return false
    | some j =>
      let s ← get
      if !(← pushTask (s.gang s.cur.gang) fn f j) then rangeTrap i 17
      return true

/-- `spawn` (R261). -/
def execSpawn (c f j : BitVec 4) (s : State) : Host.Outcome State Fault Refusal :=
  runWord (.spawn c f j) ⟨[], 0, poolTime, poolTime⟩ (orWait do
    let _ ← needPool (.spawn c f j)
    let ptr := fun (r : BitVec 4) => (do return (← rdP r).ptr : Ex W64)
    pushRecord (.spawn c f j) (← ptr c) (ptr f) (ptr j)) s

/-- A pointer register loaded as `ldp` loads (R189). -/
def loadPtr (r : BitVec 4) (v : W64) : Ex Unit := do
  wrP r ⟨v, 0, ← lenOf v⟩

/-- `take` (R261): null pointers where the pool is empty. -/
def execTake (c f j : BitVec 4) (s : State) : Host.Outcome State Fault Refusal :=
  runWord (.take c f j) ⟨[], 0, poolTime, poolTime⟩ (do
    let g ← needPool (.take c f j)
    let r := (← popTask g).getD (0, 0, 0)
    loadPtr c r.1
    loadPtr f r.2.1
    loadPtr j r.2.2
    return .seq) s

/-- Every trap of a push is reason 17 of `join` (R261). -/
def joinPush (i : Instr) (m : Ex Bool) : Ex Bool := fun s =>
  match m s with
  | .ok a t => .ok a t
  | .error _ t => rangeTrap i 17 t

/-- `join`: the counter goes down at its place; the last one pushes the continuation (R261). -/
def execJoin (j : BitVec 4) (s : State) : Host.Outcome State Fault Refusal :=
  let i : Instr := .join j
  runWord i ⟨[], 0, poolTime, poolTime⟩ (orWait do
    let _ ← needPool i
    let ptr := (← rdP j).ptr
    if ptr = 0 then trapWith cOBJ_KIND 0 0
    checkPtr ptr
    let obj ← canonical ptr
    let h ← readHdr obj
    if hdrKind h ≠ 1 then trapWith cOBJ_KIND ptr (BitVec.ofNat 64 (hdrKind h))
    if (hdrLen h).toNat < 32 then trapWith cOBJ_BOUND 32 ((hdrLen h).setWidth 64)
    let v ← readPay obj 0 32 accLoad
    let cnt := BitVec.ofNat 64 (v / 2 ^ 192)
    let slot := fun (k : Nat) => (do
      let o ← canonical (← rdP j).ptr
      return BitVec.ofNat 64 (← readPay o (8 * k) 8 accLoad) : Ex W64)
    let ctr ← canonical cnt
    if ptrLvl ctr = 4 then rangeTrap i 12
    let l ← locate ctr 16 8 accAtomic
    let host := match l with
      | .phys true _ _ => true
      | _ => false
    if host = true then rangeTrap i 12
    let old ← locRead l 8 (repAddr ctr 16)
    locWrite l 8 (old + 2 ^ 64 - 1) (repAddr ctr 16)
    if old = 1 then joinPush i (pushRecord i (BitVec.ofNat 64 v) (slot 1) (slot 2))
    else return true) s

/-! ### `sstep` -/

/-- The target of a transfer through a code pointer, made resident (R106, R108, R114). -/
def codeTarget (p : W64) : Ex W64 := do
  namesFunction p
  let tgt := BitVec.ofNat 64 (ptrAddr p + 16)
  enterCode tgt
  return tgt

/-- Run a task: its link is the `sstep` word (R262). -/
def runTask (r : W64 × W64 × W64) : Ex Flow := do
  let pc := (← cur).pc
  loadPtr 15 r.2.1
  loadPtr 13 r.2.2
  wrX 1 pc
  let tgt ← codeTarget r.1
  modCur (fun c => { c with tip := true, handed := none })
  return .jump tgt

/-- The end of `sstep` (R262): messages sent before an arrival are applied first. -/
def endSstep : Ex Flow := do
  modify (fun s =>
    let s1 := s.applyMsgs s.msgs.length
    s1.modCur (fun c => c.endStep ((s1.gang c.gang).doneJoin.get 0)))
  return .seq

/-- `sstep` (R262): a phase that is over ends it; a record handed over is run; else it waits for the core's own work,
then runs a task or arrives. -/
def execSstep (s : State) : Host.Outcome State Fault Refusal :=
  draining (runWord .sstep Timing.one (do
    let s ← get
    let c := s.cur
    let g := s.gang c.gang
    match c.handed with
    | some r => runTask r
    | none =>
      match c.unwaited 0 with
      | some p =>
        if g.phase.get 0 ≤ p then abandonedTrap g 0
        if p < g.phase.get 0 ∧ g.boundary = false then endSstep else return .block (.sstep p)
      | none =>
        abandonedTrap g 0
        drain
        waitTags (tagsOf (BitVec.allOnes 64))
        let c ← cur
        if c.anyTag then again
        else if c.port != [] then return .block .port
        else do
          if !c.tip then
            modCur (fun c => { c with saveX1 := c.getX 1, saveP13 := c.getP 13, saveP15 := c.getP 15 })
          modCur (fun c => { c with tip := false })
          match ← popTask g with
          | some r => runTask r
          | none =>
            modify (fun s => s.arriveOn 0 false false true)
            return .block (.sstep (g.phase.get 0)))) s

end Sys2Proof.Machine
end

