-- ==== Sys2Proof/Machine/Streams.lean ====
section
/-! DEFINITION. Streams: job cards (R234, R235), reading (R236 to R238), `sbind`, `sclose` (R233) and the `vmv` that pops
(R127). -/

namespace Sys2Proof.Machine

/-! ### Job cards -/

/-- Stage k of a card (R234). -/
def stageOf (card : W64) (k : Nat) : Nat := bits card.toNat (8 * k + 7) (8 * k)

/-- The running type after a stage that is allowed at type `ty`; none where it is not (R234). `block` says the source is
block-scaled, `k` is the stage's index. A `vquant` stage gives type 16, which no stage takes. -/
def stageType (block : Bool) (ty k code : Nat) : Option Nat :=
  if ty = 16 then none
  else if k = 0 ∧ block = true then (if code = 0x01 then some 9 else none)
  else if 0x20 ≤ code ∧ code ≤ 0x2E then some (code - 0x20)
  else if 0x30 ≤ code ∧ code ≤ 0x3E then some (code - 0x30)
  else if code = 0x40 then (if ty < 4 ∨ (8 ≤ ty ∧ ty ≤ 11) then some ty else none)
  else if code = 0x41 ∨ code = 0x42 then (if 8 ≤ ty ∧ ty ≤ 11 then some ty else none)
  else if code = 0x50 ∨ code = 0x5C ∨ code = 0x5D ∨ code = 0x5E then (if ty = 9 then some 16 else none)
  else none

/-- A stage has input or output of type 14 or 15 (R235 rule 6). -/
def touches6 (src code ty : Nat) (k : Nat) : Bool :=
  (decide (14 ≤ ty) && decide (ty ≤ 15)) || (k == 0 && code == 1 && decide (14 ≤ src)) ||
    code == 0x2E || code == 0x3E || code == 0x5E

/-- The index of the first illegal stage of a card, 6 for non-zero bits [63:48], none for a legal card (R233, R235). Of a non-zero stage after
QNT, the later stage is the illegal one (DESIGN CHOICE, log entry 158: condition 5 of R235 speaks of QNT, condition 4 of the stage after it). -/
def cardFault (feat6 : Bool) (src : Nat) (block : Bool) (card : W64) : Option Nat :=
  go 6 0 src false
where
  /-- Stages k, k + 1, … at a running type; `ended` after an end stage. -/
  go : Nat → Nat → Nat → Bool → Option Nat
  | 0, _, _, _ => if bits card.toNat 63 48 ≠ 0 then some 6 else none
  | n + 1, k, ty, ended =>
    let code := stageOf card k
    if code = 0 then (if k = 0 ∧ block = true then some 0 else go n (k + 1) ty true)
    else if ended then some k
    else if !feat6 && touches6 src code ty k then some k
    else match stageType block ty k code with
      | some t => go n (k + 1) t false
      | none => some k

/-- One element through one stage: the new type, value and flags (R234); an operand that is a signalling NaN raises NV (R81). -/
def runStage (md : Fp.Mode) (i ty v code : Nat) : Nat × Nat × Fp.Flags :=
  if 0x20 ≤ code ∧ code ≤ 0x2E then
    let (r, f) := Fp.cvt ty (code - 0x20) v md i .plain
    (code - 0x20, r, f)
  else if 0x30 ≤ code ∧ code ≤ 0x3E then
    let (r, f) := Fp.cvt ty (code - 0x30) v md i .sat
    (code - 0x30, r, f)
  else if code = 0x40 then
    if Fp.isFloat ty then
      match Fp.decode ty v with
      | .nan q => (ty, Fp.canonNaN ty, Fp.sigFlag [.nan q])
      | x => (ty, if Fp.negOf x then 0 else v, 0)
    else (ty, if Fp.intVal ty v < 0 then 0 else v, 0)
  else if code = 0x41 ∨ code = 0x42 then
    match Fp.decode ty v with
    | .nan q => (ty, Fp.canonNaN ty, Fp.sigFlag [.nan q])
    | _ =>
      let mag := v % Fp.signBit ty
      (ty, if code = 0x41 then mag else if v / Fp.signBit ty % 2 = 1 then mag else mag + Fp.signBit ty, 0)
  else (ty, v, 0)

/-- An element through the stages of a card after DEC, up to QNT. -/
def runStages (md : Fp.Mode) (card : W64) (i : Nat) : Nat → Nat → Nat → Nat → Fp.Flags → Nat × Nat × Fp.Flags
  | 0, _, ty, v, f => (ty, v, f)
  | n + 1, k, ty, v, f =>
    let (t, r, g) := runStage md i ty v (stageOf card k)
    runStages md card i n (k + 1) t r (f ||| g)

/-- The code of the quantisation stage that ends a card (R234). -/
def quantStage (card : W64) : Option Nat :=
  (List.range 6).findSome? (fun k =>
    let c := stageOf card k
    if 0x50 ≤ c then some (c - 0x50) else none)

/-- The final element type before any quantisation. -/
def finalType (src : Nat) (card : W64) : Nat :=
  (List.range 6).foldl (fun ty k =>
    let c := stageOf card k
    if c = 1 then 9 else if 0x20 ≤ c ∧ c ≤ 0x2E then c - 0x20 else if 0x30 ≤ c ∧ c ≤ 0x3E then c - 0x30 else ty) src

/-! ### Reading -/

/-- The width of the elements of a popped vector, and how many source elements one pop consumes (R236). -/
def Stream.width (st : Stream) : Nat :=
  match quantStage st.card with
  | some t => Fp.width t
  | none => Fp.width (finalType (Entry.fmt st.entry) st.card)
def Stream.per (st : Stream) : Nat := if (quantStage st.card).isSome then 32 else 512 / st.width

/-- Source element number k of a stream, with the flags of its decoding: +0 past the last (R236, R81). -/
def sourceElem (st : Stream) (k : Nat) : Ex (Nat × Fp.Flags) := do
  let e := st.entry
  let cols := Entry.dim e 0 - adCol st.addr
  let r := adRow st.addr + k / cols
  let i0 := adCol st.addr + k % cols
  let past := cols == 0 || decide (Entry.rows e ≤ r)
  if stageOf st.card 0 = 1 then
    if past then return (0, 0)
    let v ← readElem false e i0 r accTile
    let (sc, f) ← readScaleF e r (i0 / Entry.bsz e) accTile
    return (if Entry.fmt e = 15 then (Fp.q4Value v sc, f)
      else
        let x := Fp.mxValue (Entry.fmt e) v sc
        (Fp.rne x, Fp.sigFlag [x]))
  else if past then return (0, 0)
  else return (← readElem false e i0 r accTile, 0)

def setStream (s : BitVec 3) (f : Stream → Stream) : Ex Unit := modCur (fun c => c.setS s (f (c.getS s)))

/-- n more elements of popped vector number `pop` after those of `got`, each through the stages; those read before a fault stay in the
stream, which reads again from the faulting element (R238). -/
def streamElems (s : BitVec 3) (st : Stream) (md : Fp.Mode) (pop : Nat) : Nat → List (Nat × BitVec 6) → Ex (List (Nat × BitVec 6))
  | 0, got => pure got
  | n + 1, got => do
    setStream s (fun x => { x with part := got })
    let j := got.length
    let (v, f) ← sourceElem st (pop * st.per + j)
    let ty := if stageOf st.card 0 = 1 then 9 else Entry.fmt st.entry
    let (_, r, g) := runStages md st.card j 6 0 ty v f
    streamElems s st md pop n (got ++ [(r, g)])

/-- The vector that pop number `pop` of a stream delivers, with the flags of each element (R236); those of the quantisation of a block go
with every element of it (DESIGN CHOICE). -/
def streamVec (s : BitVec 3) (st : Stream) (pop : Nat) : Ex StreamVec := do
  let md := modeOf st.fmode (← cur).lcid st.ssc
  let l ← streamElems s st md pop (st.per - st.part.length) st.part
  setStream s (fun x => { x with part := [] })
  match quantStage st.card with
  | some t =>
    let (v, g) := quantMx t (l.map Prod.fst) md
    return ⟨BitVec.ofNat 512 v, l.map (fun x => x.2 ||| g)⟩
  | none => return ⟨BitVec.ofNat 512 (packElems st.width (l.map Prod.fst)), l.map Prod.snd⟩

/-- Read one vector ahead into a stream that has room; a fault is held (R237, R238). -/
def State.readAhead (s : State) (r : BitVec 3) : State :=
  let st := s.cur.getS r
  if st.bound && decide (st.buf.length < 4) && st.fault.isNone then
    match streamVec r st (st.pops.toNat + st.buf.length) s with
    | .ok v s' => s'.modCur (fun c => c.setS r { c.getS r with buf := st.buf ++ [v] })
    | .error e s' => (s'.modCur (fun c => c.setS r { c.getS r with fault := some e })).memError 3 s'.cur.ctx s'.cur.lcid
        s'.cur.pcid.toNat e
  else s

/-- Pop the next vector: one read ahead, or read now; a held fault is taken by the pop that needs the data (R238). -/
def popStream (i : Instr) (r : BitVec 3) : Ex StreamVec := do
  let st := (← cur).getS r
  if !st.bound then trapWith cSTREAM_UNBOUND ((wordOf i).setWidth 64) (r.setWidth 64)
  match st.buf, st.fault with
  | v :: l, _ =>
    setStream r (fun x => { x with buf := l, pops := x.pops + 1 })
    return v
  | [], some e =>
    setStream r (fun x => { x with fault := none })
    throw e
  | [], none =>
    let v ← streamVec r st st.pops.toNat
    setStream r (fun x => { x with pops := x.pops + 1 })
    return v

/-! ### The instructions -/

/-- `sbind` (R233). Reason 14, which R225 gives for the regions of copies, is here a first element that lies outside the tensor (DESIGN CHOICE). -/
def actSbind (r : BitVec 3) (a b : BitVec 5) : RingEntry → Ex Issued := fun e => do
  let i : Instr := .sbind r a b
  setStream r (fun _ => Stream.unbound)
  let c ← cur
  let ent ← curEntry (adTid e.xa)
  needEntry i (fun _ => true) ent
  if Entry.rows ent ≤ adRow e.xa ∨ Entry.dim ent 0 ≤ adCol e.xa then rangeTrap i 14
  match cardFault ((← get).feat.getLsbD 6) (Entry.fmt ent) (Entry.bs ent || Entry.fmt ent == 15) e.xb with
  | some k => trapWith cCARD_ILLEGAL e.xb (BitVec.ofNat 64 k)
  | none => pure ()
  setStream r (fun _ => { Stream.unbound with bound := true, addr := e.xa, card := e.xb, fmode := c.fmode, ssc := c.ssc, entry := ent })
  return {}
/-- `sbind` waits for room among the pins (R195): for the objects of the entry that its address word names, with those of the binding that
it closes first released (R233). -/
def bindUnit (r : BitVec 3) : CopUnit :=
  { frozen := fun s x => !(s.modCur (fun c => c.setS r Stream.unbound)).entryRoom (adTid x.xa) }

/-- `sbind` (R233). -/
def execSbind (r : BitVec 3) (a b : BitVec 5) (s : State) : Host.Outcome State Fault Refusal :=
  runCop (.sbind r a b) [a, b] (bindUnit r) (captureX a b) (actSbind r a b) s

/-- `sclose` (R233). -/
def actSclose (r : BitVec 3) : RingEntry → Ex Issued := fun _ => do
  setStream r (fun _ => Stream.unbound)
  return {}
/-- `sclose` (R233). -/
def execSclose (r : BitVec 3) (s : State) : Host.Outcome State Fault Refusal :=
  runCop (.sclose r) [] vecUnit noCapture (actSclose r) s

/-- The flags of the elements of a popped vector, of `we` bits each, that the selected lanes of w bits take: an unselected lane raises nothing
(R88, R236). -/
def takenFlags (v : StreamVec) (we w : Nat) (sel : List Nat) : Fp.Flags :=
  (v.flags.zipIdx).foldl (fun f x =>
    if sel.any (fun i => decide (i * w < (x.2 + 1) * we) && decide (x.2 * we < (i + 1) * w)) then f ||| x.1 else f) 0

/-- `vmv` of a stream: the pop happens whatever is selected (R127, R236). -/
def actVmvStream (d : BitVec 5) (r : BitVec 3) (m : BitVec 3) (n : BitVec 1) (t : BitVec 4) : RingEntry → Ex Issued :=
  fun e => do
    let c ← cur
    let e ← holdSources e 0 0 (c.getM m)
    let we := (c.getS r).width
    let v ← popStream (.vmvStream d r m n t) r
    let sel := selected e t.toNat e.mask n
    raiseFlags (takenFlags v we (Fp.width t.toNat) sel)
    let l := sel.map (fun i => (i, some (elemAt v.vec (Fp.width t.toNat) i)))
    return moveWrite d t.toNat l 1 1
/-- `vmv` of a stream (R127). -/
def execVmvStream (d : BitVec 5) (r : BitVec 3) (m : BitVec 3) (n : BitVec 1) (t : BitVec 4) (s : State) :
    Host.Outcome State Fault Refusal :=
  runCop (.vmvStream d r m n t) [] vecUnit noCapture (actVmvStream d r m n t) s

end Sys2Proof.Machine
end

