-- ==== Sys2Proof/Machine/Reissue.lean ====
section
/-! DEFINITION. What each coprocessor instruction does at issue, for the entries of the ring that issue again (R66), and
the return from a trap (R304). -/

namespace Sys2Proof.Machine

/-- The unit and the work of a ring entry; none for a word that is no coprocessor instruction. -/
def copAct : Instr → Option (CopUnit × (RingEntry → Ex Issued))
  | .vamo d p wd b m n o g => some (vecMem, actVamo d p wd b m n o g)
  | .vadd d a b m n t => some (vecUnit, actVadd d a b m n t)
  | .vsub d a b m n t => some (vecUnit, actVsub d a b m n t)
  | .vmul d a b m n t => some (vecUnit, actVmul d a b m n t)
  | .vmulh d a b m n t => some (vecUnit, actVmulh d a b m n t)
  | .vmulhz d a b m n t => some (vecUnit, actVmulhz d a b m n t)
  | .vfma d a b m n t => some (vecUnit, actVfma d a b m n t)
  | .vfms d a b m n t => some (vecUnit, actVfms d a b m n t)
  | .vfnma d a b m n t => some (vecUnit, actVfnma d a b m n t)
  | .vfnms d a b m n t => some (vecUnit, actVfnms d a b m n t)
  | .vfdiv d a b m n t => some (vecUnit, actVfdiv d a b m n t)
  | .vfsqrt d a m n t => some (vecUnit, actVfsqrt d a m n t)
  | .vmin d a b m n t => some (vecUnit, actVmin d a b m n t)
  | .vmax d a b m n t => some (vecUnit, actVmax d a b m n t)
  | .vminz d a b m n t => some (vecUnit, actVminz d a b m n t)
  | .vmaxz d a b m n t => some (vecUnit, actVmaxz d a b m n t)
  | .vfmin d a b m n t => some (vecUnit, actVfmin d a b m n t)
  | .vfmax d a b m n t => some (vecUnit, actVfmax d a b m n t)
  | .vand d a b m n t => some (vecUnit, actVand d a b m n t)
  | .vor d a b m n t => some (vecUnit, actVor d a b m n t)
  | .vxor d a b m n t => some (vecUnit, actVxor d a b m n t)
  | .vandn d a b m n t => some (vecUnit, actVandn d a b m n t)
  | .vshl d a b m n t => some (vecUnit, actVshl d a b m n t)
  | .vshr d a b m n t => some (vecUnit, actVshr d a b m n t)
  | .vsar d a b m n t => some (vecUnit, actVsar d a b m n t)
  | .vcmpEq d a b m n t => some (vecUnit, actVcmpEq d a b m n t)
  | .vcmpNe d a b m n t => some (vecUnit, actVcmpNe d a b m n t)
  | .vcmpLt d a b m n t => some (vecUnit, actVcmpLt d a b m n t)
  | .vcmpLe d a b m n t => some (vecUnit, actVcmpLe d a b m n t)
  | .vfcmpEq d a b m n t => some (vecUnit, actVfcmpEq d a b m n t)
  | .vfcmpLt d a b m n t => some (vecUnit, actVfcmpLt d a b m n t)
  | .vfcmpLe d a b m n t => some (vecUnit, actVfcmpLe d a b m n t)
  | .vfcmpUn d a b m n t => some (vecUnit, actVfcmpUn d a b m n t)
  | .vsel d a b m n t => some (vecUnit, actVsel d a b m n t)
  | .vcvt d a sty m n t => some (vecUnit, actVcvt d a sty m n t)
  | .vcvtSat d a sty m n t => some (vecUnit, actVcvtSat d a sty m n t)
  | .vquant d a b t => some (vecUnit, actVquant d a b t)
  | .vredAdd d a m n t => some (vecUnit, actVredAdd d a m n t)
  | .vredMin d a m n t => some (vecUnit, actVredMin d a m n t)
  | .vredMax d a m n t => some (vecUnit, actVredMax d a m n t)
  | .vredOr d a m n t => some (vecUnit, actVredOr d a m n t)
  | .vscanAdd d a m n t => some (vecUnit, actVscanAdd d a m n t)
  | .vscanMin d a m n t => some (vecUnit, actVscanMin d a m n t)
  | .vscanMax d a m n t => some (vecUnit, actVscanMax d a m n t)
  | .vscanOr d a m n t => some (vecUnit, actVscanOr d a m n t)
  | .vperm d a b m n t => some (vecUnit, actVperm d a b m n t)
  | .vslideUp d a b m n t => some (vecUnit, actVslideUp d a b m n t)
  | .vslideDn d a b m n t => some (vecUnit, actVslideDn d a b m n t)
  | .vbcast d a m n t => some (vecUnit, actVbcast d a m n t)
  | .vext d a b t => some (vecUnit, actVext d a b t)
  | .vins d a b t => some (vecUnit, actVins d a b t)
  | .viota d m n t => some (vecUnit, actViota d m n t)
  | .vcompress d a m n t => some (vecUnit, actVcompress d a m n t)
  | .vexpand d a m n t => some (vecUnit, actVexpand d a m n t)
  | .vpopc d m n t => some (vecUnit, actVpopc d m n t)
  | .vfirst d m n t => some (vecUnit, actVfirst d m n t)
  | .vtopk d a b m n t => some (vecUnit, actVtopk d a b m n t)
  | .vxacc d a b m n t => some (vecUnit, actVxacc d a b m n t)
  | .vxrnd d a b t => some (vecUnit, actVxrnd d a b t)
  | .vld d p v b m n t => some (vecMem, actVld d p v b m n t)
  | .vlds d p v b m n t => some (vecMem, actVlds d p v b m n t)
  | .vst d p v b m n t => some (vecMem, actVst d p v b m n t)
  | .vgath d p v b m n t => some (vecMem, actVgath d p v b m n t)
  | .vscat d p v b m n t => some (vecMem, actVscat d p v b m n t)
  | .vmv d a m n t => some (vecUnit, actVmv d a m n t)
  | .vmvStream d r m n t => some (vecUnit, actVmvStream d r m n t)
  | .mlogAnd d a b => some (vecUnit, actMlogAnd d a b)
  | .mlogOr d a b => some (vecUnit, actMlogOr d a b)
  | .mlogXor d a b => some (vecUnit, actMlogXor d a b)
  | .mlogAndn d a b => some (vecUnit, actMlogAndn d a b)
  | .mma n ta tb op t u => some ((matUnit [ta, tb]), actMma n ta tb op t u)
  | .tclaim t tid => some ((matUnit [t]), actTclaim t tid)
  | .tfree t => some ((matUnit [t]), actTfree t)
  | .tload t r => some ((loadUnit t), actTload t r)
  | .tstore t r => some (tileStore t, actTstore t r)
  | .tzero t => some ((matUnit [t]), actTzero t)
  | .tidld p tid => some (matMem, actTidld p tid)
  | .tidst p tid => some (matMem, actTidst p tid)
  | .azero n => some ((matUnit []), actAzero n)
  | .aload n tid r => some (blockUnit tid, actAload n tid r)
  | .astore n tid r => some (blockUnit tid, actAstore n tid r)
  | .adrain n t ty => some ((matUnit [t]), actAdrain n t ty)
  | .afill n t ty => some ((matUnit [t]), actAfill n t ty)
  | .amode n op => some ((matUnit []), actAmode n op)
  | .again d a => some ((matUnit []), actAgain d a)
  | .againPlain d => some ((matUnit []), actAgainPlain d)
  | .ascan n k len => some ((matUnit []), actAscan n k len)
  | .ascanK n k len => some ((matUnit []), actAscanK n k len)
  | .ascanG n t k ty len => some ((matUnit [t]), actAscanG n t k ty len)
  | .aapply n k => some ((matUnit []), actAapply n k)
  | .kload k a => some ((matUnit []), actKload k a)
  | .kstore k d => some ((matUnit []), actKstore k d)
  | .kcomb d a n => some ((matUnit []), actKcomb d a n)
  | .kzero k => some ((matUnit []), actKzero k)
  | .sbind r a b => some (bindUnit r, actSbind r a b)
  | .sclose r => some (vecUnit, actSclose r)
  | .sendv t v q => some (sendUnit, actSendv t v q)
  | .recvV d q => some (vecUnit, actRecvV d q)
  | .add .. | .sub .. | .mul .. | .mulh .. | .mulhz .. | .div .. | .divz .. | .rem .. | .remz .. | .and ..
  | .or .. | .xor .. | .andn .. | .shl .. | .shr .. | .sar .. | .rol .. | .ror .. | .slt .. | .sltz ..
  | .min .. | .max .. | .minz .. | .maxz .. | .cmov .. | .clz .. | .ctz .. | .popc .. | .brev .. | .bswap ..
  | .addi .. | .andi .. | .ori .. | .xori .. | .slti .. | .sltzi .. | .shli .. | .shri .. | .sari .. | .ext ..
  | .ins .. | .lup .. | .aupc .. | .bEq .. | .bNe .. | .bLt .. | .bGe .. | .bLtz .. | .bGez .. | .j ..
  | .call .. | .jr .. | .callr .. | .rep .. | .retire | .ld .. | .st .. | .ldp .. | .stp .. | .pmov ..
  | .padj .. | .plen .. | .pslice .. | .pfrom .. | .ptox .. | .alloc .. | .allocr .. | .otouch .. | .oacq ..
  | .orel .. | .amo .. | .cas .. | .fence .. | .xfence .. | .setvl .. | .xfer .. | .xgath .. | .xprefTr ..
  | .xprefMg .. | .xprefTq .. | .xwaitAll .. | .xwaitAny .. | .xfind .. | .send .. | .recv .. | .qclr ..
  | .xphase | .sstep | .arrive .. | .arriveRel .. | .wait .. | .waitAcq .. | .bvote .. | .spawn .. | .take ..
  | .join .. | .qpost .. | .rds .. | .wrs .. | .trap .. | .eret | .wfi | .brk .. | .sfence .. | .cdrain
  | .cxsave .. | .cxload .. | .immx .. | .hint .. | .coprocessorIssue | .destinationWrite | .takeTrap ..
  | .install .. | .logicalCoreSwitch | .depositArrive | .superstepBoundary | .superstepOverrun | .tileRowLand
  | .engineTakeCopy | .copyComplete | .copyFaultStop | .streamReadAhead | .touchComplete .. | .demandCopyIn
  | .prefetchCopyIn .. | .collect .. | .mergeApply | .releaseNotice | .pageWalk .. | .migrationComplete
  | .counterHalve | .crossDieTimeout | .lateResponse | .linkMessage .. | .permitReturn .. | .linkDown ..
  | .clockStretch .. | .softError .. | .lineRetirement .. | .nop .. | .launch .. | .signal .. | .shrink ..
  | .packetComplete .. | .dependenceRecheck | .priorityAging | .launchSeniority | .doorbell .. | .queueSkip ..
  | .queueReset .. | .queueEnable .. | .queueDisable .. | .managementRegisterWrite .. | .tabort ..
  | .endTask .. | .satchelFreeze .. | .satchelCheckpoint .. | .urgentPreemption .. | .satchelRestore ..
  | .releaseInPlaceImage .. | .debugOff .. | .debugAtSsm .. | .debugEveryBoundary .. | .debugNextBoundary ..
  | .bkrel .. | .traceEnable .. | .traceDisable .. | .traceHoldExpiry | .freeze .. | .freezeInput
  | .testAccessReadout | .reset | .fwgo .. | .recoveryImageVerified | .load | .unload | .keyenr ..
  | .getVersion | .getCapabilities | .negotiateAlgorithms | .getDigests | .getCertificate | .challenge
  | .getMeasurements .. | .pageMoveStart .. | .firmwareUpdate .. | .scrubbing .. => none

/-- The entries of the ring from SEQ to LAST that are not complete (R66). -/
def LCore.pendingEntries (c : LCore) (first last : BitVec 16) : List RingEntry :=
  c.ring.filter (fun r => decide ((r.seq - first).toNat ≤ (last - first).toNat) && r.state != .complete)

/-- Issue ring entries, in sequence order, up to one whose cycle has not come or that freezes the coprocessor (R63, R64, R66). -/
def reissue : List RingEntry → Ex Unit
  | [] => pure ()
  | r :: l => do
    match copAct r.instr with
    | some (u, act) => issue u act r.seq
    | none => pure ()
    if ((← cur).entryOf r.seq).any (fun x => x.state == .notIssued) then pure () else reissue l

/-- The entries that issue come before the instruction whose fault waits, if one does: behind a fault nothing issues (R329, R330). -/
def LCore.beforePost (c : LCore) (l : List RingEntry) : List RingEntry :=
  match c.posts with
  | [] => l
  | p :: _ => l.filter (fun r => c.before r.seq p.seq)

/-- The instructions in the queue whose cycles have come issue (R62, R63). -/
def State.issueDue (s : State) : State :=
  match reissue (s.cur.beforePost (s.cur.ring.filter (fun r => r.state == .notIssued))) s with
  | .ok _ t => t
  | .error _ t => t

/-- The cycle in which the head of the queue can issue (R63, R149). -/
def LCore.headCycle (c : LCore) : Nat :=
  ((c.ring.find? (fun r => r.state == .notIssued)).bind (fun r => (copAct r.instr).map (fun x =>
    max (c.copCycle x.1 r) (c.loaderReady x.1 (c.copCycle x.1 r))))).getD 0

/-- The core waits until cycle `t`. -/
def State.waitFor (s : State) (t : Nat) : State :=
  { s with clk := s.clk + (t - s.cur.ccy), cur := { s.cur with ccy := max s.cur.ccy t } }

/-- Time passes until the head of the queue can issue, and what is due then issues. -/
def State.passTo (s : State) : State := (s.waitFor s.cur.headCycle).issueDue

/-- The queue of the coprocessor moves by itself as time passes: nothing freezes its head (R64). -/
def State.canPass (s : State) : Bool := s.cur.queued && s.passTo.cur.ring != s.cur.ring

/-- The rows of the loads whose slots are due by now land, at most `n` of them (R150). -/
def State.landDue (s : State) : Nat → State
  | 0 => s
  | n + 1 =>
    match s.cur.loads with
    | [] => s
    | (q, _) :: _ => if (s.cur.entryOf q).all (fun r => decide (r.time ≤ s.cur.ccy)) then s.landRow.landDue n else s

/-- What the coprocessor does at a point (R62 to R64, R150): loads that are due land, and what is due issues; while the logical core waits, all its
loads land and time passes for the head of the queue. Then a fault that was put off may wait to be taken (R330). -/
def State.pump (s : State) : State :=
  let s1 := if s.cur.loads.isEmpty then s else if s.cur.blk.isSome then s.finishLoads else s.landDue (33 * s.cur.loads.length)
  (if s1.cur.queued then (if s1.cur.blk.isSome then s1.passTo else s1.issueDue) else s1).modCur LCore.nextPost

/-- One trap level less (R329). A return that ends a late-fault handler without CAUSE.LATE, which software has cleared, gives up the
ring entries that are not complete: nothing issues them again (DEDUCED). -/
def LCore.leaveHandler (c : LCore) (late : Bool) : LCore :=
  let ended := late || c.handler == 1
  { c with
    ring := if ended && !late then c.ring.filter (fun r => r.state == .complete) else c.ring
    handler := if late then 0 else c.handler - 1
    taken := if ended then none else c.taken }

/-- Entries of a ring that `cxload` has restored and that an urgent pre-emption had stopped: outside a late-fault handler no other entry stands
issued or faulted behind a return (R356). -/
def LCore.stoppedEntries (c : LCore) : List RingEntry := if c.handler = 0 ∧ c.halted = true then c.unfinished else []

/-- The entries of a list wait in the queue again, from the present cycle on, with their progress and their sources (R66). -/
def LCore.requeue (l : List RingEntry) (c : LCore) : LCore :=
  { c with ring := c.ring.map (fun r => if l.any (fun x => x.seq == r.seq) then { r with state := .notIssued, time := c.ccy } else r) }

/-- Return from the bank of the current level (R304): the ring entries of a late fault wait to issue again, as does a ring that `cxload` has
restored (R356), and the copies whose faults the bank received go on. -/
def eretBody : Ex Flow := do
  let c ← cur
  let bank ← eretCore .eret
  let late := bank.cause.getLsbD 62
  modCur (fun c => c.leaveHandler late)
  modCur (LCore.requeue (if late then c.pendingEntries (bank.cseq.extractLsb' 0 16) (bank.cseq.extractLsb' 16 16) else c.stoppedEntries))
  modCur (fun l => l.resumeCopies (c.pl == 3))
  return .placed

/-- `eret` (R304, R301). -/
def execEret (s : State) : Host.Outcome State Fault Refusal := runWord .eret ⟨[], 0, 4, 4⟩ eretBody s

end Sys2Proof.Machine
end

