-- ==== Sys2Proof/Machine/System.lean ====
section
/-! DEFINITION. The system instructions: special registers (R31 to R33, R36 to R42, R302), traps raised by software
(R303), `wfi` (R305), `sfence` (R306), `cdrain` (R333) and `retire` (R118). The return from a trap stands in
Reissue.lean. -/

namespace Sys2Proof.Machine

/-! ### Reading -/

/-- STATUS as it reads: MUX is 1 while this physical core hosts more than one logical core of the gang (R36). -/
def State.statusRead (s : State) : W64 :=
  setBit s.cur.status 48 (s.others.any (fun c => c.gang == s.cur.gang && c.pcid == s.cur.pcid))

/-- TDIM (R35). -/
def tdim : W64 := 0x04102020
/-- The bank that the current level reaches (R31). -/
def LCore.bank (c : LCore) : Bank := if c.pl = 3 then c.mbank else c.sbank
def LCore.setBank (c : LCore) (b : Bank) : LCore := if c.pl = 3 then { c with mbank := b } else { c with sbank := b }

/-- The value of the special register of a number; none where the table has no such number (R31, R32). -/
def State.special (s : State) (n : Nat) : Option W64 :=
  let c := s.cur
  if n = 0x000 then some (c.vl.setWidth 64)
  else if n = 0x001 then some 512
  else if n = 0x002 then some tdim
  else if n = 0x010 then some (c.lcid.setWidth 64)
  else if n = 0x011 then some (c.lcn.setWidth 64)
  else if n = 0x012 then some c.wid
  else if n = 0x013 then some c.wfw
  else if n = 0x014 then some c.wfe
  else if n = 0x015 then some (c.pcid.setWidth 64)
  else if n = 0x016 then some ((s.pkg ++ s.die).setWidth 64)
  else if n = 0x017 then some c.ssc
  else if n = 0x020 then some (BitVec.ofNat 64 s.gtc)
  else if n = 0x021 then some c.xrdyBits
  else if 0x030 ≤ n ∧ n ≤ 0x037 then some (s.feat.extractLsb' (64 * (n - 0x030)) 64)
  else if n = 0x040 then some c.bank.cause
  else if n = 0x041 then some c.bank.epc
  else if n = 0x042 then some c.bank.tval
  else if n = 0x043 then some c.bank.tval2
  else if n = 0x044 then some c.bank.cseq
  else if n = 0x050 then some s.statusRead
  else if n = 0x051 then some c.fstat
  else if n = 0x052 then some c.fmode
  else if n = 0x053 then some c.astatRead
  else if n = 0x060 then some c.unitRepc
  else if n = 0x061 then some c.root
  else none

/-- CAUSE, EPC, TVAL, TVAL2 and CSEQ need supervisor privilege (R31). -/
def bankRegister (n : Nat) : Bool := decide (0x040 ≤ n) && decide (n ≤ 0x044)

/-- `rds` (R302): the checks of R32, the waits of R42. -/
def execRds (d : BitVec 5) (n : BitVec 12) (s : State) : Host.Outcome State Fault Refusal :=
  let i : Instr := .rds d n
  runWord i ⟨[d], d, 1, 1⟩ (do
    if ((← get).special n.toNat).isNone then illegal i
    if bankRegister n.toNat && (← cur).pl == 0 then trapWith cPRIVILEGE ((wordOf i).setWidth 64) 0
    if waitsForCop n.toNat then drain
    let s ← get
    wrX d ((s.special n.toNat).getD 0)
    return .seq) s

/-! ### Writing -/

/-- The registers that `wrs` writes (R31). -/
def writable (n : Nat) : Bool :=
  n == 0x021 || bankRegister n || n == 0x050 || n == 0x051 || n == 0x052 || n == 0x053 || n == 0x061

/-- Those that need supervisor privilege; STATUS has its own rule (R31, R36). -/
def writeNeedsS (n : Nat) (v : W64) : Bool :=
  bankRegister n || n == 0x061 || (n == 0x050 && (v &&& ~~~(0x0000FFFF00000000 : W64)) != 0)

/-- A reserved value in a field with coded values (R32). -/
def reservedValue (feat10 : Bool) (n : Nat) (v : W64) : Bool :=
  (n == 0x052 && decide ((if feat10 then 5 else 4) ≤ bits v.toNat 2 0)) ||
  (n == 0x053 && [0, 1, 2, 3].any (fun k => bits v.toNat (17 + 2 * k) (16 + 2 * k) == 3)) ||
  (n == 0x050 && bits v.toNat 5 4 == 2)

/-- The bits of `m` taken from `v`, the others kept. -/
def merge (old v m : W64) : W64 := (old &&& ~~~m) ||| (v &&& m)

/-- STATUS written: QCOL bits written 1 are cleared; IE, PPL and PIE at supervisor or machine (R36). -/
def statusWrite (pl : BitVec 2) (old v : W64) : W64 :=
  let s1 := old &&& ~~~(v &&& 0x0000FFFF00000000)
  if pl = 0 then s1 else merge s1 v 0xB4

/-- Clear the ready tags of a mask (R31). -/
def LCore.clearTags (c : LCore) (m : W64) : LCore :=
  (tagsOf m).foldl (fun c t => if c.getTag t = .ready then c.setTag t .idle else c) c

/-- ROOT (R33): never a copy. -/
def rootValue (v : W64) : Ex W64 := do
  if v = 0 then return 0
  if ptrMalformed v then trapWith cOBJ_MALFORMED v 0
  if ptrLvl v ≤ 2 then
    let w ← readHdr v
    canonOf v w
  else return v

/-- The write of a special register, each to its writable fields (R302, R36 to R40). -/
def writeSpecial (n : Nat) (v : W64) : Ex Unit := do
  if n = 0x021 then modCur (fun c => c.clearTags v)
  else if n = 0x040 then modCur (fun c => c.setBank { c.bank with cause := v &&& 0xC00000000000003F })
  else if n = 0x041 then modCur (fun c => c.setBank { c.bank with epc := v })
  else if n = 0x042 then modCur (fun c => c.setBank { c.bank with tval := v })
  else if n = 0x043 then modCur (fun c => c.setBank { c.bank with tval2 := v })
  else if n = 0x044 then modCur (fun c => c.setBank { c.bank with cseq := v &&& 0xFFFFFFFF })
  else if n = 0x050 then modCur (fun c => { c with status := statusWrite c.pl c.status v })
  else if n = 0x051 then modCur (fun c => { c with fstat := v &&& 0x3F })
  else if n = 0x052 then modCur (fun c => { c with fmode := v &&& 0xFFFFFFFF00000037 })
  else if n = 0x053 then modCur (fun c => { c with astat := merge c.astat v 0xFF0FF0 })
  else if n = 0x061 then
    let r ← rootValue v
    modCur (fun c => { c with root := r })
  else pure ()

/-- `wrs` (R302): the checks of R32, the waits of R42. -/
def execWrs (a : BitVec 5) (n : BitVec 12) (s : State) : Host.Outcome State Fault Refusal :=
  let i : Instr := .wrs a n
  runWord i ⟨[a], 0, 1, 1⟩ (do
    let v ← rdX a
    if !writable n.toNat then illegal i
    if writeNeedsS n.toNat v && (← cur).pl == 0 then trapWith cPRIVILEGE ((wordOf i).setWidth 64) 0
    if reservedValue ((← get).feat.getLsbD 10) n.toNat v then illegal i
    if waitsForCop n.toNat then drain
    writeSpecial n.toNat v
    return .seq) s

/-! ### Traps raised by software -/

/-- `trap` (R303). -/
def execTrap (c : BitVec 12) (s : State) : Host.Outcome State Fault Refusal :=
  runWord (.trap c) Timing.one (trapWith cSOFTWARE_TRAP (c.setWidth 64) 0) s

/-- `brk` (R303). -/
def execBrk (c : BitVec 12) (s : State) : Host.Outcome State Fault Refusal :=
  runWord (.brk c) Timing.one (trapWith cBREAKPOINT (c.setWidth 64) 0) s

/-! ### Waiting and fences -/

/-- The core that INTRT names for an interrupt code (R377). -/
def Mgmt.route (g : Mgmt) (code : BitVec 6) : BitVec 9 := g.intrt.extractLsb' (9 * (code.toNat - 1)) 9

/-- The interrupts pending for the running core (R305, R332). -/
def State.irqsHere (s : State) : List Irq := s.irqs.filter (fun q => s.mg.route q.code == s.cur.pcid)

/-- `wfi` completes when any interrupt is pending for the core; else it is a blocking point (R305). -/
def execWfi (s : State) : Host.Outcome State Fault Refusal :=
  runWord .wfi Timing.one (do
    if (← get).irqsHere == [] then return .block .irq else return .seq) s

/-- `sfence` drops what the die holds of the table words it names: those that translate an address, or all of them, and with either the cached
context and export entries; of a context, or of every one (R289, R296, R306). It changes no program-visible register. A context whose entry is
then not valid has come to its end (R144). -/
def State.dropHeld (s : State) (addr : Option W64) (ctx : Option (BitVec 16)) : State :=
  let named := fun (c : BitVec 16) => ctx.all (fun x => x == c)
  let t := { s with held := s.held.filter (fun h =>
    !((h.size == 0 || addr.all (fun (a : W64) => decide (h.base ≤ a.toNat) && decide (a.toNat < h.base + h.size))) && named h.ctx)) }
  { t with created := t.created.filter (fun c => !named c || t.ctxValid c) }

/-- `sfence` (R306). -/
def execSfence (a b : BitVec 5) (s : State) : Host.Outcome State Fault Refusal :=
  runWord (.sfence a b) ⟨[a, b], 0, 1, 1⟩ (do
    let va ← rdX a
    let ctx ← rdX b
    modify (fun s => s.dropHeld (if a = 0 then none else some va) (if b = 0 then none else some (ctx.setWidth 16)))
    return .seq) s

/-- `cdrain` (R333). -/
def execCdrain (s : State) : Host.Outcome State Fault Refusal :=
  draining (runWord .cdrain Timing.one (do
    drain
    return .seq)) s

/-! ### `retire` -/

/-- Step 3: the dirty bytes of every copy the core holds go home, one copy after another; a failure leaves those
already written back as they are (R118). -/
def writeBackCopies : List (W64 × W64) → Ex Unit
  | [] => pure ()
  | e :: l => do
    writeBack ((← cur).padId (ptrLvl e.2)) (ptrAddr e.2)
    writeBackCopies l

/-- Steps 4 and 5: streams unbound, slots freed, and nothing of the core reaches an object any more (R118). -/
def LCore.leave (c : LCore) : LCore :=
  { c with
    st := Vector.replicate 8 Stream.unbound,
    t := c.t.map (fun s => { s with state := .free }),
    tags := Vector.replicate 64 Tag.idle,
    p := Vector.replicate 16 PtrReg.null,
    saveP13 := PtrReg.null, saveP15 := PtrReg.null, root := 0,
    cidx := [], ring := [], run := .retired, blk := none, debug := none }

/-- A retired core counts as arrived at every barrier of its gang (R118). -/
def State.completeAll (s : State) (id : BitVec 32) : State :=
  (((s.completeBarrier id 0).completeBarrier id 1).completeBarrier id 2).completeBarrier id 3

/-- `retire` (R118). -/
def execRetire (s : State) : Host.Outcome State Fault Refusal :=
  draining (runWord .retire Timing.one (do
    drain
    waitTags (tagsOf (BitVec.allOnes 64))
    if (← cur).anyTag then again
    else
      writeBackCopies (← cur).cidx
      modCur LCore.leave
      modify (fun s => s.completeAll s.cur.gang)
      return .placed)) s

end Sys2Proof.Machine
end

