-- ==== Sys2Proof/Machine/Image.lean ====
section
/-! DEFINITION. Core records (R347, R355), and the instructions that write and read them in place: `cxsave` and `cxload`
(R356, R357). -/

namespace Sys2Proof.Machine

open Host (Cell)

/-! ### Laying out bytes -/

/-- The bytes of v that are not zero, n bytes from `off`, little-endian. -/
def putAt : Nat → Nat → Nat → List Cell
  | _, 0, _ => []
  | off, n + 1, v =>
    if v = 0 then []
    else if v % 256 = 0 then putAt (off + 1) n (v / 256)
    else (off, BitVec.ofNat 8 v) :: putAt (off + 1) n (v / 256)

/-- An array of n-byte values, `stride` bytes apart. -/
def putArray (off stride n : Nat) : List Nat → List Cell
  | [] => []
  | v :: l => putAt off n v ++ putArray (off + stride) stride n l

/-- A structure of n-byte values laid one after another. -/
def putSeq (off : Nat) : List (Nat × Nat) → List Cell
  | [] => []
  | (n, v) :: l => putAt off n v ++ putSeq (off + n) l

/-- An array of structures. -/
def putRows (off stride : Nat) : List (List (Nat × Nat)) → List Cell
  | [] => []
  | r :: l => putSeq off r ++ putRows (off + stride) stride l

/-- n bytes from `off` of listed bytes. -/
def getAt (m : List Cell) (off n : Nat) : Nat :=
  (Mem.range m off n).foldl (fun a c => a + c.2.toNat * 256 ^ c.1) 0

def getW (m : List Cell) (off : Nat) : W64 := BitVec.ofNat 64 (getAt m off 8)

/-! ### The part of a record common to both kinds (R347) -/

/-- A barrier's word in BAR: the phase of the last arrival, and whether it has been waited for. -/
def BarRec.word (b : BarRec) : Nat := 2 * b.phase.getD 0 + (if b.waited then 1 else 0)
def SlotState.code : SlotState → Nat
  | .free => 0
  | .claimed => 1
  | .loading => 2
  | .ready => 3
def SlotState.ofCode (n : Nat) : SlotState :=
  if n = 0 then .free else if n = 1 then .claimed else if n = 2 then .loading else .ready

/-- FLAGS (R347). -/
def recFlags (die : BitVec 4) (pkg : BitVec 8) (retired inPlace : Bool) : Nat :=
  die.toNat + pkg.toNat * 16 + (if retired then 0x1000 else 0) + (if inPlace then 0x2000 else 0)

/-- Pointers inside a tensor identifier entry, rewritten. -/
def mapEntry (f : W64 → W64) (e : BitVec 512) : BitVec 512 :=
  e.extractLsb' 192 320 ++ f (e.extractLsb' 128 64) ++ f (e.extractLsb' 64 64) ++ f (e.extractLsb' 0 64)

/-- A core record's first 0x1B8C0 bytes: pointers as `f` writes them (R347, R348). -/
def LCore.record (c : LCore) (die : BitVec 4) (pkg : BitVec 8) (inPlace : Bool) (f : W64 → W64) (pc status : W64) :
    List Cell :=
  let head := putSeq 0 [(4, c.lcid.toNat), (4, recFlags die pkg (c.run == .retired) inPlace), (2, c.ctx.toNat)]
  if c.run == .retired then head
  else
    head ++ putAt 0xA 2 c.pcid.toNat ++ putAt 0x10 8 pc.toNat ++
    putArray 0x18 8 8 ((c.x.toList.drop 1).map (·.toNat)) ++
    putRows 0x110 16 (c.p.toList.map (fun p => [(8, (f p.ptr).toNat), (4, p.cur.toNat)])) ++
    putArray 0x210 64 64 (c.v.toList.map (·.toNat)) ++
    putArray 0xA10 8 8 ((c.m.toList.drop 1).map (·.toNat)) ++
    putSeq 0xA48 [(8, c.vl.toNat), (8, c.fstat.toNat), (8, c.fmode.toNat), (8, ((c.astat &&& ~~~(0xF000 : W64)) ||| c.kv).toNat),
      (8, (f c.root).toNat), (8, c.xrdyBits.toNat), (8, bits status.toNat 47 32), (8, c.hint.toNat)] ++
    putArray 0xA88 8 8 c.know.toList ++
    putArray 0xAD8 8 8 ((c.bars.toList.drop 1).map BarRec.word) ++
    putArray 0xB00 8 8 (c.q.toList.map (·.word.toNat)) ++
    putAt 0xB80 8 ((c.q.toList.zipIdx).foldl (fun a x => if x.1.full then a + 2 ^ x.2 else a) 0) ++
    putRows 0xBC0 128 (c.st.toList.map (fun s =>
      [(8, s.addr.toNat), (8, s.card.toNat), (8, s.fmode.toNat), (8, s.ssc.toNat), (4, s.pops.toNat),
       (4, if s.bound then 1 else 0), (24, 0), (64, (mapEntry f s.entry).toNat)])) ++
    putRows 0xFC0 256 (c.k.toList.map (fun k =>
      if k.valid then k.pairs.toList.map (fun w => (8, w.toNat)) else [])) ++
    putRows 0x13C0 8256 (c.acc.toList.map (fun a =>
      a.cells.toList.map (fun w => (8, w.toNat)) ++
      [(4, a.rf.toNat), (4, a.cf.toNat), (8, 0), (8, a.frT.toNat), (8, a.frT2.toNat), (8, a.grT.toNat),
       (8, a.grT2.toNat)])) ++
    putRows 0x94C0 4672 (c.t.toList.map (fun t =>
      [(1, t.state.code), (1, t.tid.toNat), (6, 0), (4, t.row.toNat), (4, t.col.toNat), (48, 0),
       (4096, t.data.toNat), (512, t.side.toNat)]))

/-- Size of the common part; of an in-place record; of its extension (R347, R355). -/
def recSize : Nat := 0x1B8C0
def inPlaceSize : Nat := 0x27280

/-- A barrier's word of BAR loaded over what the core holds of the barrier: an arrival of the same phase keeps its vote, and whether a `bvote`
made it, which the word has no bits for (R258, R347; DEDUCED). -/
def BarRec.load (b : BarRec) (w : Nat) : BarRec :=
  let same := b.phase == some (w / 2) && w % 2 == 0 && !b.waited
  ⟨some (w / 2), w % 2 == 1, same && b.vote, same && b.byVote⟩

/-- The registers a record holds, loaded into a core. The gang barrier has no word: its arrival stands as it is. LEN of the pointer registers is left to the caller, who reads the
headers. STG and SACC come with ASTAT (R40). -/
def LCore.loadRecord (c : LCore) (m : List Cell) : LCore :=
  let astat := getW m 0xA60
  { c with
    pc := getW m 0x10,
    x := Vector.ofFn (fun (i : Fin 32) => if i.val = 0 then 0 else getW m (0x10 + 8 * i.val)),
    p := Vector.ofFn (fun (i : Fin 16) =>
      ⟨getW m (0x110 + 16 * i.val), BitVec.ofNat 32 (getAt m (0x118 + 16 * i.val) 4), 0⟩),
    v := Vector.ofFn (fun (i : Fin 32) => BitVec.ofNat 512 (getAt m (0x210 + 64 * i.val) 64)),
    m := Vector.ofFn (fun (i : Fin 8) => if i.val = 0 then BitVec.allOnes 64 else getW m (0xA08 + 8 * i.val)),
    vl := BitVec.ofNat 7 (getAt m 0xA48 8), fstat := getW m 0xA50, fmode := getW m 0xA58,
    astat := astat &&& ~~~(0xF000 : W64), root := getW m 0xA68,
    status := (c.status &&& ~~~(0x0000FFFF00000000 : W64)) ||| (getW m 0xA78 <<< 32),
    hint := BitVec.ofNat 19 (getAt m 0xA80 8),
    know := Vector.ofFn (fun (i : Fin 10) => getAt m (0xA88 + 8 * i.val) 8),
    bars := Vector.ofFn (fun (i : Fin 4) =>
      let b := c.bars.get i
      if i.val = 0 then b else b.load (getAt m (0xAD0 + 8 * i.val) 8)),
    q := Vector.ofFn (fun (i : Fin 16) => ⟨getW m (0xB00 + 8 * i.val), (getW m 0xB80).getLsbD i.val⟩),
    st := Vector.ofFn (fun (i : Fin 8) =>
      let o := 0xBC0 + 128 * i.val
      { bound := getAt m (o + 36) 4 == 1, addr := getW m o, card := getW m (o + 8), fmode := getW m (o + 16),
        ssc := getW m (o + 24), pops := BitVec.ofNat 32 (getAt m (o + 32) 4),
        entry := BitVec.ofNat 512 (getAt m (o + 64) 64), buf := [], part := [], fault := none }),
    k := Vector.ofFn (fun (i : Fin 4) =>
      ⟨astat.getLsbD (12 + i.val), Vector.ofFn (fun (j : Fin 32) => getW m (0xFC0 + 256 * i.val + 8 * j.val))⟩),
    acc := Vector.ofFn (fun (i : Fin 4) =>
      let o := 0x13C0 + 8256 * i.val
      { cells := Vector.ofFn (fun (j : Fin 1024) => getW m (o + 8 * j.val)),
        rf := BitVec.ofNat 32 (getAt m (o + 8192) 4), cf := BitVec.ofNat 32 (getAt m (o + 8196) 4),
        frT := getW m (o + 8208), frT2 := getW m (o + 8216), grT := getW m (o + 8224), grT2 := getW m (o + 8232) }),
    t := Vector.ofFn (fun (i : Fin 16) =>
      let o := 0x94C0 + 4672 * i.val
      { state := SlotState.ofCode (getAt m o 1), tid := BitVec.ofNat 8 (getAt m (o + 1) 1),
        row := BitVec.ofNat 32 (getAt m (o + 8) 4), col := BitVec.ofNat 32 (getAt m (o + 12) 4), prog := 0,
        data := BitVec.ofNat 32768 (getAt m (o + 64) 4096), side := BitVec.ofNat 4096 (getAt m (o + 4160) 512) }) }

/-! ### The extension of an in-place record (R355) -/

def RingState.code : RingState → Nat
  | .notIssued => 1
  | .issued => 2
  | .complete => 3
  | .faulted => 4
def RingState.ofCode (n : Nat) : RingState :=
  if n = 1 then .notIssued else if n = 2 then .issued else if n = 4 then .faulted else .complete

def Tag.code : Tag → Nat
  | .idle => 0
  | .running c => match c.phase with
    | .stopped _ => 2
    | .taken _ => 2
    | _ => 1
  | .ready => 3

/-- The entry that stands at place n of the ring (R66: SEQ modulo 64). -/
def LCore.ringAt (c : LCore) (n : Nat) : Option RingEntry := c.ring.find? (fun r => r.seq.toNat % 64 == n)

def putPtr (p : PtrReg) : List (Nat × Nat) := [(8, p.ptr.toNat), (4, p.cur.toNat), (4, 0)]
def putBank (b : Bank) : List (Nat × Nat) :=
  [(8, b.cause.toNat), (8, b.epc.toNat), (8, b.tval.toNat), (8, b.tval2.toNat), (8, b.cseq.toNat)]

/-- What CAPT keeps of an instruction's captured entry: the canonical object of a `vamo` follows from its pointer. -/
def RingEntry.capt (r : RingEntry) : BitVec 512 :=
  match r.instr with
  | .vamo .. => 0
  | _ => r.entry

/-- The state of an entry in a record: one that waits to go on from its progress, or with sources it has read, has stopped as an issued one
(R355). -/
def RingEntry.code (r : RingEntry) : Nat := if r.state = .notIssued ∧ (r.prog ≠ 0 ∨ r.held = true) then RingState.issued.code else r.state.code

def ringRow (r : Option RingEntry) : List (Nat × Nat) :=
  match r with
  | none => []
  | some r => [(8, r.addr.toNat), (4, (wordOf r.instr).toNat), (1, r.code), (3, 0), (8, r.prog), (8, r.xa.toNat),
      (8, r.xb.toNat), (8, 0), (8, r.vl.toNat)]
def captRow (r : Option RingEntry) : List (Nat × Nat) :=
  match r with
  | none => []
  | some r => [(8, r.ptr.ptr.toNat), (8, r.ptr.len.toNat), (8, r.ptr.cur.toNat), (8, 0), (64, r.capt.toNat)]
/-- The sources that an entry has read, zero where it has read none; the words of a `recv.v` stand first (R254, R355; DEDUCED). -/
def srcRow (r : Option RingEntry) : List (Nat × Nat) :=
  match r with
  | none => []
  | some r => [(64, r.src1.toNat), (64, r.src2.toNat), (8, r.mask.toNat)]
def tagRow (t : Tag) : List (Nat × Nat) :=
  match t with
  | .running c =>
    [(1, t.code), (3, 0), (4, c.word.toNat), (8, c.dst.toNat), (8, c.src.toNat), (8, c.shape.toNat), (8, c.fmode.toNat),
     (8, c.ssc.toNat), (8, c.row * 2 ^ 32 + c.col), (8, 0), (64, c.dstE.toNat), (64, c.srcE.toNat), (64, c.idxE.toNat)]
  | _ => [(1, t.code)]

/-- The extension: rows of rings, banks, port and tags. -/
def LCore.extension (c : LCore) (machine : Bool) : List Cell :=
  let rows := (List.range 64).map c.ringAt
  let o := recSize
  let mb := if machine then c.mbank else Bank.zero
  putRows o 64 (rows.map ringRow) ++
  putSeq (o + 0x1000) ([(2, c.nextSeq.toNat), (2, (c.nextSeq - 1).toNat), (4, 0), (8, c.repc.toNat),
    (8, c.sbank.srepc.toNat)] ++ putBank c.sbank ++
    [(8, (if c.tip then 1 else 0) + (if c.exch then 2 else 0)), (8, c.saveX1.toNat)] ++
    putPtr c.saveP13 ++ putPtr c.saveP15) ++
  putRows (o + 0x1070) 16 ((c.port.take 16).map (fun w => [(4, w.tgt.toNat), (1, w.qn.toNat), (3, 0), (8, w.word.toNat)])) ++
  putAt (o + 0x1170) 8 (c.port.take 16).length ++
  putRows (o + 0x1180) 256 (c.tags.toList.map tagRow) ++
  putRows (o + 0x5180) 16 ((c.cidx.take 512).map (fun e => [(8, e.1.toNat), (8, e.2.toNat)])) ++
  putRows (o + 0x7180) 96 (rows.map captRow) ++
  putSeq (o + 0x8980) ([(8, c.status.toNat % 256)] ++ putBank mb ++ [(8, mb.srepc.toNat), (8, 0)]) ++
  putRows (o + 0x89C0) 192 (rows.map srcRow)

/-- An in-place record with the PC it resumes at. -/
def LCore.inPlaceRecord (c : LCore) (die : BitVec 4) (pkg : BitVec 8) (pc status : W64) (machine : Bool) : List Cell :=
  let r := c.record die pkg true id pc status
  if c.run == .retired then r else r ++ c.extension machine

/-- Source values are held by a memory instruction that has issued; a tensor entry once it is captured (R355). An entry of zeros in the record of a
faulted instruction reads as none, which is captured anew: R355 writes zeros also where none is captured (DESIGN CHOICE). -/
def heldOf (i : Instr) (st : RingState) (entry : BitVec 512) : Bool :=
  (st == .issued || st == .faulted) &&
    (match i with
      | .vld .. | .vlds .. | .vst .. | .vgath .. | .vscat .. | .vamo .. => true
      | .tload .. | .tstore .. | .aload .. | .astore .. => entry != 0
      | _ => false)

/-- The ring entry of place n of a record, with the sequence number that stands there. -/
def ringOf (m : List Cell) (last : BitVec 16) (n : Nat) : Option RingEntry :=
  let o := recSize + 64 * n
  let st := getAt m (o + 12) 1
  if st = 0 then none
  else
    match decodeWf (BitVec.ofNat 32 (getAt m (o + 8) 4)) with
    | none => none
    | some i =>
      let k := recSize + 0x7180 + 96 * n
      let q := recSize + 0x89C0 + 192 * n
      let entry := BitVec.ofNat 512 (getAt m (k + 32) 64)
      some { seq := last - BitVec.ofNat 16 ((last.toNat + 64 - n) % 64), addr := getW m o, instr := i,
             state := RingState.ofCode st, prog := getAt m (o + 16) 8, xa := getW m (o + 24), xb := getW m (o + 32),
             vl := BitVec.ofNat 7 (getAt m (o + 48) 8),
             ptr := ⟨getW m k, BitVec.ofNat 32 (getAt m (k + 16) 8), BitVec.ofNat 40 (getAt m (k + 8) 8)⟩,
             entry := entry, held := heldOf i (RingState.ofCode st) entry,
             src1 := BitVec.ofNat 512 (getAt m q 64), src2 := BitVec.ofNat 512 (getAt m (q + 64) 64),
             mask := getW m (q + 128), time := 0 }

def bankOf (m : List Cell) (o : Nat) (srepc : W64) : Bank :=
  ⟨getW m o, getW m (o + 8), getW m (o + 16), getW m (o + 24), getW m (o + 32), srepc⟩
def ptrAt (m : List Cell) (o : Nat) : PtrReg := ⟨getW m o, BitVec.ofNat 32 (getAt m (o + 8) 4), 0⟩

/-- What a copy's start word says it is (R222, R225). -/
def copyKindOf (w : W32) : CopyKind :=
  match decodeWf w with
  | some (.xgath ..) => .xgath
  | some (.xprefTr ..) => .prefTr
  | some (.xprefTq ..) => .prefTr
  | some (.xprefMg ..) => .prefMg
  | _ => .xfer

/-- A copy tag of a record; a stopped copy resumes at the restore (R355). -/
def tagOf (m : List Cell) (o : Nat) : Tag :=
  let st := getAt m o 1
  if st = 3 then .ready
  else if st = 0 then .idle
  else
    let w := BitVec.ofNat 32 (getAt m (o + 4) 4)
    .running { kind := copyKindOf w, word := w, dst := getW m (o + 8), src := getW m (o + 16), shape := getW m (o + 24),
               fmode := getW m (o + 32), ssc := getW m (o + 40),
               dstE := BitVec.ofNat 512 (getAt m (o + 64) 64), srcE := BitVec.ofNat 512 (getAt m (o + 128) 64),
               idxE := BitVec.ofNat 512 (getAt m (o + 192) 64), phase := .queued,
               row := getAt m (o + 52) 4, col := getAt m (o + 48) 4, flags := 0 }

/-- The tag slots that hold a copy, for the start queue. -/
def runningTags (tags : Vector Tag 64) : List (BitVec 6) :=
  (tagsOf (BitVec.allOnes 64)).filter (fun t => match tags.get t.toFin with
    | .running _ => true
    | _ => false)

/-- Slots whose load the ring still holds show its row count (R27, R337). -/
def LCore.slotProgress (c : LCore) : LCore :=
  c.ring.foldl (fun c r => match r.instr with
    | .tload t _ => if r.held && r.state != .complete then c.setT t { c.getT t with prog := BitVec.ofNat 6 r.prog } else c
    | _ => c) c

/-- The port words of a record: target, inbox, value. -/
def recPort (m : List Cell) : List (BitVec 16 × BitVec 4 × W64) :=
  (List.range (min 16 (getAt m (recSize + 0x1170) 8))).map (fun k =>
    let o := recSize + 0x1070 + 16 * k
    (BitVec.ofNat 16 (getAt m o 4), BitVec.ofNat 4 (getAt m (o + 4) 1), getW m (o + 8)))

/-- Everything the extension holds but the port, loaded into a core. `machine` says whether MBANK is loaded. -/
def LCore.loadExtension (c : LCore) (m : List Cell) (machine : Bool) : LCore :=
  let o := recSize
  let next := BitVec.ofNat 16 (getAt m (o + 0x1000) 2)
  let last := BitVec.ofNat 16 (getAt m (o + 0x1002) 2)
  let ring := (List.range 64).filterMap (fun k => ringOf m last ((last.toNat + 1 + k) % 64))
  let tags := Vector.ofFn (fun (i : Fin 64) => tagOf m (o + 0x1180 + 256 * i.val))
  let fl := getAt m (o + 0x1040) 8
  { c with
    ring := ring, nextSeq := next, repc := getW m (o + 0x1008),
    sbank := bankOf m (o + 0x1018) (getW m (o + 0x1010)),
    mbank := if machine then bankOf m (o + 0x8988) (getW m (o + 0x89B0)) else c.mbank,
    tip := fl % 2 == 1, exch := fl / 2 % 2 == 1, saveX1 := getW m (o + 0x1048),
    saveP13 := ptrAt m (o + 0x1050), saveP15 := ptrAt m (o + 0x1060),
    tags := tags, startQ := runningTags tags,
    cidx := ((List.range 512).map (fun k => (getW m (o + 0x5180 + 16 * k), getW m (o + 0x5188 + 16 * k)))).filter
      (fun e => e.1 != 0),
    status := (c.status &&& ~~~(0xFF : W64)) ||| (getW m (o + 0x8980) &&& 0xFF),
    late := none, pend := [], loads := [] }.slotProgress

/-! ### The checks of R357 -/

/-- Byte ranges that are reserved in every core record. -/
def reservedBytes : List (Nat × Nat) :=
  [(0xC, 4), (0xAF0, 16), (0xB82, 0x3E)] ++ (List.range 16).map (fun k => (0x11C + 16 * k, 4)) ++
  (List.range 8).map (fun k => (0xBE8 + 128 * k, 24)) ++
  (List.range 4).flatMap (fun k => [(0x13C0 + 8256 * k + 8200, 8), (0x13C0 + 8256 * k + 8240, 16)]) ++
  (List.range 16).flatMap (fun k => [(0x94C0 + 4672 * k + 2, 6), (0x94C0 + 4672 * k + 16, 48)])

/-- Byte ranges that are reserved in the extension. -/
def reservedExtension : List (Nat × Nat) :=
  (List.range 64).flatMap (fun n =>
    [(64 * n + 13, 3), (64 * n + 56, 8), (0x1180 + 256 * n + 1, 3), (0x1180 + 256 * n + 56, 8),
     (0x7180 + 96 * n + 24, 8), (0x89C0 + 192 * n + 136, 56)]) ++
  (List.range 16).map (fun k => (0x1070 + 16 * k + 5, 3)) ++
  [(0x1004, 4), (0x105C, 4), (0x106C, 4), (0x1178, 8), (0x8981, 7), (0x89B8, 8)]

/-- Reserved bits of FMODE (R37), and of a first report (R161). -/
def fmodeReserved : W64 := 0xFFFFFFC8
def frReserved : W64 := 0xFFFFFFFFFFFC0000
def fr2Reserved : W64 := 0xFFFFFFFF0000FC00

/-- An entry of a record has no reserved bit (R144, R145). -/
def entryClean (m : List Cell) (o : Nat) : Bool := BitVec.ofNat 512 (getAt m o 64) &&& ~~~entryMask == 0

/-- Words with reserved bits: offset, and the bits that must be zero. -/
def reservedBits : List (Nat × W64) :=
  [(0xA48, ~~~0x7F), (0xA50, ~~~0x3F), (0xA58, fmodeReserved), (0xA60, 0xFFFFFFFF83000000),
   (0xA78, ~~~0xFFFF), (0xA80, ~~~0x7FFFF)] ++
  (List.range 8).map (fun k => (0xBD0 + 128 * k, fmodeReserved)) ++
  (List.range 4).flatMap (fun k =>
    let o := 0x13C0 + 8256 * k
    [(o + 8208, frReserved), (o + 8216, fr2Reserved), (o + 8224, ~~~0x1FFF), (o + 8232, 0xFFFFFFFF0000FFFC)])

def reservedExtBits : List (Nat × W64) :=
  [(0x1008, 0xFFFFFFFFC0000000), (0x1010, 0xFFFFFFFFC0000000), (0x1018, 0x3FFFFFFFFFFFFFC0),
   (0x1038, 0xFFFFFFFF00000000), (0x1040, ~~~(3 : W64)), (0x8980, 0x48), (0x8988, 0x3FFFFFFFFFFFFFC0),
   (0x89A8, 0xFFFFFFFF00000000), (0x89B0, 0xFFFFFFFFC0000000)] ++
  (List.range 64).flatMap (fun n =>
    [(64 * n + 48, ~~~(0x7F : W64)), (0x11A0 + 256 * n, fmodeReserved), (0x7188 + 96 * n, 0xFFFFFF0000000000),
     (0x7190 + 96 * n, 0xFFFFFFFF00000000)])

/-- A reserved field that is not zero in the common part. -/
def dirtyRecord (m : List Cell) : Bool :=
  reservedBytes.any (fun r => getAt m r.1 r.2 != 0) ||
  reservedBits.any (fun r => getW m r.1 &&& r.2 != 0) ||
  decide (0x4000 ≤ getAt m 4 4) ||
  (List.range 8).any (fun k => !entryClean m (0xC00 + 128 * k))

/-- A reserved field that is not zero, or a coded field with a reserved value, in the common part. -/
def badRecord (m : List Cell) (feat10 : Bool) : Bool :=
  dirtyRecord m || decide (64 < getAt m 0xA48 8) ||
  reservedValue feat10 0x052 (getW m 0xA58) || reservedValue feat10 0x053 (getW m 0xA60) ||
  bits (getAt m 0xA60 8) 30 28 == 7 ||
  (List.range 8).any (fun k => reservedValue feat10 0x052 (getW m (0xBD0 + 128 * k))) ||
  (List.range 8).any (fun k => decide (1 < getAt m (0xBE4 + 128 * k) 4)) ||
  (List.range 16).any (fun k => decide (3 < getAt m (0x94C0 + 4672 * k) 1))

/-- A reserved field that is not zero in the extension. -/
def dirtyExtension (m : List Cell) : Bool :=
  let o := recSize
  reservedExtension.any (fun r => getAt m (o + r.1) r.2 != 0) ||
  reservedExtBits.any (fun r => getW m (o + r.1) &&& r.2 != 0) ||
  (List.range 64).any (fun n => !(entryClean m (o + 0x11C0 + 256 * n) && entryClean m (o + 0x1200 + 256 * n) &&
    entryClean m (o + 0x1240 + 256 * n) && entryClean m (o + 0x71A0 + 96 * n)))

/-- The same as badRecord in the extension. -/
def badExtension (m : List Cell) : Bool :=
  let o := recSize
  dirtyExtension m ||
  (List.range 64).any (fun n =>
    let st := getAt m (o + 64 * n + 12) 1
    decide (4 < st) || (st != 0 && (decodeWf (BitVec.ofNat 32 (getAt m (o + 64 * n + 8) 4))).isNone) ||
      decide (3 < getAt m (o + 0x1180 + 256 * n) 1) ||
      (copyKindOf (BitVec.ofNat 32 (getAt m (o + 0x1184 + 256 * n) 4)) == .xgath && getAt m (o + 0x119C + 256 * n) 1 != 0)) ||
  decide (16 < getAt m (o + 0x1170) 8) || bits (getAt m (o + 0x8980) 8) 5 4 == 2 || bits (getAt m (o + 0x8980) 8) 1 0 == 2 ||
  (List.range 16).any (fun k => decide (15 < getAt m (o + 0x1074 + 16 * k) 1))

/-- The lowest reason that stops `cxload` (R357). -/
def State.loadReason (s : State) (m : List Cell) : Option Nat :=
  let c := s.cur
  let fl := getAt m 4 4
  let stat := getAt m (recSize + 0x8980) 8
  let inPlace := bits fl 13 13 == 1
  if badRecord m (s.feat.getLsbD 10) || (inPlace && badExtension m) then some 1
  else if getAt m 8 2 ≠ c.ctx.toNat then some 2
  else if bits fl 3 0 ≠ s.die.toNat ∨ bits fl 11 4 ≠ s.pkg.toNat ∨ getAt m 0xA 2 ≠ c.pcid.toNat then some 3
  else if getAt m 0 4 ≠ c.lcid.toNat then some 4
  else if inPlace = false then some 5
  else if bits stat 1 0 ≠ c.pl.toNat ∨ (c.pl = 1 ∧ (bits stat 5 4 = 3 ∨ getAt m (recSize + 0x8988) 48 ≠ 0)) then some 6
  else none

/-! ### `cxsave` and `cxload` (R356) -/

/-- The record's place: the payload of pD's object from CUR, with the checks of R24, R290 and R356. -/
def recordPlace (p : BitVec 4) : Ex PtrReg := do
  let pr ← rdP p
  checkPtr pr.ptr
  let w0 ← readHdr pr.ptr
  if 4 ≤ hdrKind w0 then trapWith cOBJ_MALFORMED pr.ptr 0
  ctxCheck pr.ptr w0
  let stop := pr.cur.toNat + inPlaceSize
  if pr.len.toNat < stop then trapWith cOBJ_BOUND (BitVec.ofNat 64 stop) (pr.len.setWidth 64)
  if hdrKind w0 = 1 ∨ hdrKind w0 = 2 then trapWith cOBJ_KIND pr.ptr (BitVec.ofNat 64 (hdrKind w0))
  return pr

/-- The flags of the elements that running copies have landed stand in FSTAT before a record is made, since a tag of a record holds none
(R226, R355). -/
def LCore.foldFlags (c : LCore) : LCore :=
  (runningTags c.tags).foldl (fun c t =>
    match c.getTag t with
    | .running k => (c.raise k.flags).setTag t (.running { k with flags := 0 })
    | _ => c) c

/-- Copies that have been moved to their end complete before a record is made, and those that met a fault stop. -/
def State.settleCopies (s : State) : State :=
  ((runningTags s.cur.tags).foldl (fun s t => s.endCopy t) s).modCur LCore.foldFlags

/-- The pad objects that a record of a core names (R356). -/
def LCore.named (c : LCore) : List W64 :=
  ((c.root :: c.saveP13.ptr :: c.saveP15.ptr :: c.p.toList.map (·.ptr)) ++
    c.cidx.flatMap (fun e => [e.1, e.2]) ++ c.ring.flatMap (fun r => r.ptr.ptr :: entPtrs r.capt)).filter
      (fun q => q != 0 && decide (ptrLvl q ≤ 2) && !ptrMalformed q)

/-- The level of a pad in which more than 128 objects would be pinned, the nearest first (R195). -/
def State.overPinned (s : State) : Option Nat :=
  [0, 1, 2].find? (fun l => decide (128 < (s.pinned (s.cur.padId l)).dedup.length))

/-- `cxsave` (R356). -/
def execCxsave (p : BitVec 4) (s : State) : Host.Outcome State Fault Refusal :=
  runWord (.cxsave p) Timing.one (do
    let pr ← recordPlace p
    drain
    if (← cur).port ≠ [] then again
    else
      modify State.settleCopies
      let s ← get
      let c := s.cur
      let mach := c.pl == 3
      let rec_ := c.inPlaceRecord s.die s.pkg c.bank.epc s.statusRead mach
      match (s.modCur (fun c => { c with cxpins := c.named })).overPinned with
      | some l => trapWith cPAD_EXHAUSTED 0 (BitVec.ofNat 64 l)
      | none => modCur (fun c => { c with cxpins := c.named })
      fillObj pr.ptr (16 + pr.cur.toNat) inPlaceSize rec_ accStore
      markDirty pr.ptr pr.cur.toNat inPlaceSize
      modCur (fun c => { c.setBank { c.bank with cause := c.bank.cause &&& ~~~(0x4000000000000000 : W64) } with
        ring := [], handler := 0, taken := none })
      return .seq) s

/-- The same for a restore, which no trap ends: a header that cannot be read gives LEN 0 (R351; DESIGN CHOICE). -/
def LCore.withLens (c : LCore) (s : State) : LCore :=
  let len := fun (p : PtrReg) => match lenOf p.ptr s with
    | .ok n _ => { p with len := n }
    | .error _ _ => { p with len := 0 }
  { c with p := c.p.map len, saveP13 := len c.saveP13, saveP15 := len c.saveP15 }

/-- LEN of every pointer register that a record has loaded, as `ldp` reads it (R23, R189). -/
def fillLens : Ex Unit := do
  for k in List.range 16 do
    let r := BitVec.ofNat 4 k
    let pr ← rdP r
    let n ← lenOf pr.ptr
    wrP r { pr with len := n }
  let c ← cur
  let a ← lenOf c.saveP13.ptr
  let b ← lenOf c.saveP15.ptr
  modCur (fun c => { c with saveP13 := { c.saveP13 with len := a }, saveP15 := { c.saveP15 with len := b } })

/-- Words enter the port in their order, in consecutive cycles from cycle k of the part on. -/
def enterFrom (k : Nat) : List (BitVec 16 × BitVec 4 × W64) → Ex Unit
  | [] => pure ()
  | w :: l => do
    enterPort w.1 w.2.1 w.2.2 k
    enterFrom (k + 1) l

/-- The recorded port words enter the port in their order (R356). -/
def enterWords (l : List (BitVec 16 × BitVec 4 × W64)) : Ex Unit := do enterFrom (← get).clk l

/-- The record of a core was made in the handler of a late fault: CAUSE.LATE stands, the ring holds the entry that CSEQ names, and no word
has been dispatched since (R329). Otherwise CAUSE.LATE is left from a handler that has returned (DEDUCED). -/
def LCore.lateHandler (c : LCore) : Bool :=
  c.bank.cause.getLsbD 62 && (c.entryOf (c.bank.cseq.extractLsb' 0 16)).isSome && c.bank.cseq.extractLsb' 16 16 == c.nextSeq - 1

/-- `cxload` (R356, R357). -/
def execCxload (p : BitVec 4) (s : State) : Host.Outcome State Fault Refusal :=
  runWord (.cxload p) Timing.one (do
    let pr ← recordPlace p
    let m ← snapshot pr.ptr (16 + pr.cur.toNat) inPlaceSize accLoad
    match (← get).loadReason m with
    | some r => trapWith cIMAGE_INVALID (repAddr pr.ptr (16 + pr.cur.toNat)) (BitVec.ofNat 64 r)
    | none => pure ()
    drain
    if (← cur).port ≠ [] then again
    else
      let pc := (← cur).pc
      let mach := (← cur).pl == 3
      enterWords (recPort m)
      modCur (fun c => (c.loadRecord m).loadExtension m mach)
      modCur (fun c =>
        let c1 := c.setBank { c.bank with epc := getW m 0x10 }
        let late := c1.lateHandler
        { c1 with
          pc := pc, cxpins := [], handler := if late then 1 else 0,
          taken := if late then some ⟨c1.bank.cseq.extractLsb' 0 16, ⟨c1.bank.cause.extractLsb' 0 6, c1.bank.tval, c1.bank.tval2⟩⟩
            else none })
      fillLens
      return .seq) s

end Sys2Proof.Machine
end

