-- ==== Sys2Proof/Machine/Queues.lean ====
section
/-! DEFINITION. Queues and the command processor: registers and counts (R269 to R272), command packets (R273 to R278),
launches (R245 to R248, R16, R43), prefetch lists (R279), shrink requests (R280), completion (R275), and `qpost`
(R266). -/

namespace Sys2Proof.Machine

/-! ### Queues (R269) -/

def State.queue (s : State) (q : BitVec 8) : Queue := s.queues.get q.toFin
def State.setQueue (s : State) (q : BitVec 8) (k : Queue) : State := { s with queues := s.queues.set q.toNat k q.isLt }

def Queue.ctx (k : Queue) : BitVec 16 := k.qcfg.extractLsb' 48 16
def Queue.sup (k : Queue) : Bool := k.qcfg.getLsbD 39
def Queue.host (k : Queue) : Bool := k.qcfg.getLsbD 38
def Queue.isOpen (k : Queue) : Bool := k.qcfg.getLsbD 37
def Queue.pri (k : Queue) : Nat := bits k.qcfg.toNat 34 32
def Queue.size (k : Queue) : Nat := 2 ^ bits k.qcfg.toNat 4 0
def Queue.state (k : Queue) : Nat := bits k.qstat.toNat 1 0
def Queue.withStat (k : Queue) (sts state : Nat) : Queue := { k with qstat := BitVec.ofNat 64 (sts % 256 * 256 + state % 4) }
def Queue.sts (k : Queue) : Nat := bits k.qstat.toNat 15 8
/-- The head does not wait (R277). -/
def Queue.unaged (k : Queue) : Queue := { k with since := none, aged := 0, senior := false }
/-- The head is no longer the one that waited (R277). -/
def Queue.fresh (k : Queue) : Queue := { k with since := none, aged := 0, senior := false, released := false }

/-- The address of the slot of a count (R270). -/
def Queue.slot (k : Queue) (c : Nat) : Nat := k.qbase.toNat / 64 * 64 + 64 * (c % k.size)

def State.setBk (s : State) (q : BitVec 8) (b : Bool) : State :=
  let m : BitVec 256 := (1 : BitVec 256) <<< q.toNat
  { s with mg := { s.mg with bkstat := if b then s.mg.bkstat ||| m else s.mg.bkstat &&& ~~~m } }

/-! ### Packets (R273) -/

abbrev Packet := BitVec 512

def Packet.word (p : Packet) (k : Nat) : W64 := p.extractLsb' (64 * k) 64
def Packet.tag (p : Packet) : BitVec 32 := p.extractLsb' 32 32
def Packet.ndep (p : Packet) : Nat := min 2 (bits (Packet.word p 0).toNat 17 16)
def Packet.ser (p : Packet) : Bool := p.getLsbD 9
def Packet.brk (p : Packet) : Bool := p.getLsbD 8
def Packet.type (p : Packet) : Nat := bits (Packet.word p 0).toNat 7 0
def Packet.ca (p : Packet) : W64 := Packet.word p 5
def Packet.arg0 (p : Packet) : W64 := Packet.word p 6
def Packet.arg1 (p : Packet) : W64 := Packet.word p 7

/-- k words of a context's memory, each read as the part reads them; none where one cannot be read. -/
def State.tryWords (s : State) (ctx : BitVec 16) (va : Nat) : Nat → Option (List W64) × State
  | 0 => (some [], s)
  | k + 1 =>
    match s.tryLoad ctx va 8 with
    | (none, t) => (none, t)
    | (some v, t) =>
      let r := t.tryWords ctx (va + 8) k
      (r.1.map (fun l => BitVec.ofNat 64 v :: l), r.2)

/-- Words, lowest first, as one number. -/
def joinWords (l : List W64) : Nat := l.foldr (fun w a => w.toNat + 2 ^ 64 * a) 0

/-- Whether an event counter has reached its value; none where it cannot be read (R273, R278). -/
def State.depMet (s : State) (ctx : BitVec 16) (a v : W64) : Option Bool × State :=
  if a.toNat % 8 ≠ 0 then (none, s)
  else
    let r := s.tryLoad ctx a.toNat 8
    (r.1.map (fun x => decide (v.toNat ≤ x)), r.2)

def State.depsMet (s : State) (ctx : BitVec 16) : List (W64 × W64) → Option Bool × State
  | [] => (some true, s)
  | d :: l =>
    match s.depMet ctx d.1 d.2 with
    | (none, t) => (none, t)
    | (some b, t) =>
      let r := t.depsMet ctx l
      (r.1.map (fun c => b && c), r.2)

def Packet.deps (p : Packet) : List (W64 × W64) :=
  [(Packet.word p 1, Packet.word p 2), (Packet.word p 3, Packet.word p 4)].take p.ndep

/-- The head of a queue: nothing pending or not active, a packet that fails, one that does not wait yet, one stopped
by its breakpoint, or one that waits (R276, R278). -/
inductive Head where
  | none | fails (sts : Nat) (tag : BitVec 32) | early | stopped (p : Packet) | waiting (p : Packet)
  deriving DecidableEq, Repr

/-- An earlier packet of the queue has not completed (R276); a gang pre-empted in place has not ended (R354). A LAUNCH whose gang a freeze or an
abandoned image has ended holds nothing back (DESIGN CHOICE: R274 speaks of gangs whose logical cores have retired). -/
def State.busyQueue (s : State) (q : BitVec 8) : Bool :=
  (s.gangs ++ s.images.map (·.gang)).any (fun g => g.queue == q || g.shrinks.any (fun x => x.queue == q))

/-- The head of a queue. While a breakpoint holds it, it is looked at no more (R364). Where the slot cannot be read, or the context has no valid
entry, no TAG is known, and the queue's interrupt carries 0 (DESIGN CHOICE: R278 gives none). -/
def State.head (s : State) (q : BitVec 8) : State × Head :=
  let k := s.queue q
  if k.state ≠ 0 ∨ k.qwr.toNat ≤ k.qrd.toNat ∨ s.mg.bkstat.getLsbD q.toNat = true then (s, .none)
  else if s.ctxValid k.ctx = false then (s, .fails 3 0)
  else
    match s.tryWords k.ctx (k.slot k.qrd.toNat) 8 with
    | (Option.none, s1) => (s1, .fails 3 0)
    | (some l, s1) =>
      let p : Packet := BitVec.ofNat 512 (joinWords l)
      match s1.depsMet k.ctx p.deps with
      | (Option.none, s2) => (s2, .fails 3 p.tag)
      | (some false, s2) => (s2, .early)
      | (some true, s2) =>
        if p.ser && s2.busyQueue q then (s2, .early)
        else if p.brk && !k.released then (s2, .stopped p)
        else (s2, .waiting p)

/-! ### Launch headers (R246) -/

/-- Header word 0 of a level-3 object of a context: 2 where the pointer names none, 3 where it is misaligned, cannot be read or lies
outside the context (R246, R278). -/
def State.objHead (s : State) (ctx : BitVec 16) (p : W64) : Except Nat W64 × State :=
  if p = 0 || ptrLvl p != 3 then (.error 2, s)
  else if ptrMalformed p then (.error 3, s)
  else
    match s.tryLoad ctx (ptrAddr p) 8 with
    | (Option.none, t) => (.error 3, t)
    | (some v, t) =>
      let w := BitVec.ofNat 64 v
      (if hdrCtx w ≠ ctx ∧ hdrS w = false then .error 3 else .ok w, t)

def width (wfw : W64) (i : Nat) : Nat := bits wfw.toNat (6 * i + 5) (6 * i)
def extentOf (wfe : W64) (i : Nat) : Nat := bits wfe.toNat (10 * i + 9) (10 * i) + 1
/-- L (R246). -/
def gangSize (wfe : W64) : Nat := ((List.range 6).map (extentOf wfe)).prod

/-- Check 1 of R246. -/
def fieldsOk (wfw wfe : W64) : Bool :=
  (List.range 6).all (fun i =>
    if width wfw i = 0 then extentOf wfe i == 1 else decide (extentOf wfe i ≤ 2 ^ width wfw i)) &&
  decide (((List.range 6).map (width wfw)).sum ≤ 64)

/-- WID (R247). -/
def widOf (wfw wfe : W64) : Nat → Nat → Nat → Nat → Nat
  | 0, _, _, _ => 0
  | n + 1, i, off, q =>
    q % extentOf wfe i * 2 ^ off + widOf wfw wfe n (i + 1) (off + width wfw i) (q / extentOf wfe i)

/-- PMAX after its default (R245). -/
def hPmax (h : BitVec 512) : Nat := if hPmaxRaw h = 0 then min (gangSize (hWfe h)) 288 else hPmaxRaw h

/-- POOL and RCR: null, or an object of a kind whose LEN is a non-zero multiple of 32 (checks 5 and 6). -/
def State.ringOk (s : State) (ctx : BitVec 16) (p : W64) (kind : Nat) : Bool × State :=
  if p = 0 then (true, s)
  else
    match s.objHead ctx p with
    | (.ok w, t) => (hdrKind w == kind && (hdrLen w).toNat % 32 == 0 && (hdrLen w).toNat != 0, t)
    | (.error _, t) => (false, t)

/-- The load record and kernel that a launch header names (check 4, R323). -/
def State.kernelOf (s : State) (ctx : BitVec 16) (h : BitVec 512) : Option (LoadRec × KernRec) :=
  (s.loads.find? (fun r => r.ctx == ctx && r.base == hKobj h)).bind fun r =>
    (r.kerns[hKidx h]?).bind fun k => if k.l = gangSize (hWfe h) then some (r, k) else Option.none

/-- Checks 1, 2, 3, 5 and 6 of R246. -/
def State.headerOk (s : State) (ctx : BitVec 16) (h : BitVec 512) : Bool × State :=
  let l := gangSize (hWfe h)
  if fieldsOk (hWfw h) (hWfe h) && decide (1 ≤ l) && decide (l ≤ 32768) && decide (hPmin h ≤ hPmax h) && decide (hPmax h ≤ min l 288) then
    match s.ringOk ctx (hPool h) 1 with
    | (true, t) => t.ringOk ctx (hRcr h) 0
    | (false, t) => (false, t)
  else (false, s)

/-- The launch header of a packet, its record and kernel, or the status it fails with (R246, R278, R279). -/
def State.launchIn (s : State) (ctx : BitVec 16) (p : Packet) : Except Nat (BitVec 512 × LoadRec × KernRec) × State :=
  match s.objHead ctx p.arg0 with
  | (.error e, t) => (.error e, t)
  | (.ok w, t) =>
    if hdrKind w ≠ 3 ∨ (hdrLen w).toNat < 64 then (.error 2, t)
    else
      match t.tryWords ctx (ptrAddr p.arg0 + 16) 8 with
      | (Option.none, t) => (.error 3, t)
      | (some l, t) =>
        let h := BitVec.ofNat 512 (joinWords l)
        match t.headerOk ctx h, t.kernelOf ctx h with
        | (true, t), some (r, k) =>
          if p.arg1 = 0 then (.ok (h, r, k), t)
          else
            match t.objHead ctx p.arg1 with
            | (.ok w, t) => (if hdrKind w ≠ 0 ∨ (hdrLen w).toNat % 16 ≠ 0 then .error 3 else .ok (h, r, k), t)
            | (.error _, t) => (.error 3, t)
        | (_, t), _ => (.error 2, t)
/-- The same alone. -/
def State.launchOf (s : State) (ctx : BitVec 16) (p : Packet) : Except Nat (BitVec 512 × LoadRec × KernRec) := (s.launchIn ctx p).1

/-! ### Granting and placing cores (R14, R248) -/

/-- The enabled core is free for a context: no gang holds it, and its cluster pad may pass to the context or is its own
(R12, R14, R354). -/
def State.coreFree (s : State) (ctx : BitVec 16) (c : Nat) : Bool :=
  let inCluster := fun (l : List (BitVec 9)) => l.any (fun p => p.toNat / 16 == c / 16)
  s.mg.enset.getLsbD c && !s.gangs.any (fun g => g.pcids.any (fun p => p.toNat == c)) &&
  !(s.images.any (fun i => i.ctx != ctx && inCluster i.gang.pcids) && s.heldIn (.cluster (c / 16)) != []) &&
  (match (s.pad (.cluster (c / 16))).owner with
    | Option.none => true
    | some o => o == ctx || !s.gangs.any (fun g => g.ctx == o && inCluster g.pcids))

/-- The in-place image that a context names by its address (R353). -/
def State.imageAt (s : State) (ctx : BitVec 16) (img : W64) : Option HeldImage :=
  s.images.find? (fun i => i.img == img && i.ctx == ctx)

/-- The cores that a restore in place waits for: it holds them for itself as they become free (R353). -/
def State.restoreHolds (s : State) : List (BitVec 9) :=
  let w := s.mg.satctl
  if bits w.toNat 1 0 = 1 ∧ bits w.toNat 19 16 = 4 then
    ((s.imageAt (s.queue (BitVec.ofNat 8 (bits w.toNat 31 24))).ctx s.mg.satimg).map (fun i => i.gang.pcids)).getD []
  else []

def State.freeCores (s : State) (ctx : BitVec 16) : List Nat :=
  (List.range 320).filter (fun c => s.coreFree ctx c && !s.restoreHolds.any (fun p => p.toNat == c))

/-- Barrier groups in use: one for supersteps and one for each logical barrier; a die has 64 (R16, R10). -/
def State.groupsUsed (s : State) : Nat := (s.gangs.map (fun g => 1 + hNlb g.hdr)).sum

/-- The cores granted: as many as the header and the die allow; where every logical core gets one, those the timetable
names come first (R248). -/
def State.grant (s : State) (ctx : BitVec 16) (h : BitVec 512) (nom : List Nat) : Option (List Nat) :=
  let free := s.freeCores ctx
  let n := min (hPmax h) free.length
  if free.length < hPmin h ∨ 64 < s.groupsUsed + 1 + hNlb h then Option.none
  else
    let named := if n = gangSize (hWfe h) then (nom.filter (fun c => free.contains c)).dedup else []
    let got := (named ++ free.filter (fun c => !named.contains c)).take n
    some (free.filter (fun c => got.contains c))

/-- The first pass of R248 for P = L: cores that the timetable names and that are not yet taken. -/
def nominal (cores : List Nat) : List Nat → List Nat → List (Option Nat)
  | [], _ => []
  | c :: l, taken =>
    if cores.contains c && !taken.contains c then some c :: nominal cores l (c :: taken)
    else Option.none :: nominal cores l taken

/-- The rest take the remaining cores in increasing PCID. -/
def fillIn : List (Option Nat) → List Nat → List Nat
  | [], _ => []
  | some c :: l, r => c :: fillIn l r
  | Option.none :: l, r => r.headD 0 :: fillIn l (r.drop 1)

/-- The physical core of each logical core (R248). -/
def placement (l : Nat) (cores nom : List Nat) : List Nat :=
  if cores.length = l then
    let a := nominal cores ((List.range l).map (fun i => nom.getD i 0xFFFF)) []
    let taken := a.filterMap id
    fillIn a (cores.filter (fun c => !taken.contains c))
  else (List.range l).map (fun i => cores.getD (i * cores.length / l) 0)

/-! ### Installing (R43, R401) -/

/-- A pad is made zero, which gives its failed sectors new contents (R43, R367). -/
def State.clearPad (s : State) (id : PadId) : State := (s.healPad id 0 (padSize id.lvl)).setPad (Pad.fresh id)

/-- A pad passes to a context: its own contents stay its own, another's are made zero (R14, R401). -/
def State.givePad (s : State) (ctx : BitVec 16) (id : PadId) : State :=
  let p := s.pad id
  let t := if p.last.isNone || p.last == some ctx then s else s.clearPad id
  t.setPad { t.pad id with owner := some ctx, last := some ctx }

/-- Pads pass to a context as its cores are granted: the core pads are zeroed; a cluster pad that changes owner is
zeroed; the die pad takes an owner where it has none (R43, R14, R401). -/
def State.takePads (s : State) (ctx : BitVec 16) (cores : List Nat) : State :=
  let s1 := cores.foldl (fun s c => s.clearPad (.core c)) s
  let s2 := (cores.map (· / 16)).dedup.foldl (fun s n =>
    if (s.pad (.cluster n)).owner == some ctx then s else s.givePad ctx (.cluster n)) s1
  let s3 := if (s2.pad .die).owner.isSome then s2 else s2.givePad ctx .die
  { s3 with ipad := s3.ipad.filter (fun r => !cores.contains r.pcid.toNat) }

/-- The die pad loses its owner when that context holds no core and no image on the die (R401). -/
def State.dropPads (s : State) : State :=
  let d := s.pad .die
  match d.owner with
  | Option.none => s
  | some o =>
    if s.gangs.any (fun g => g.ctx == o) || s.images.any (fun i => i.ctx == o) then s
    else s.setPad { d with owner := Option.none }

/-- The entry of a logical core's role image (R312, R248). -/
def entryOf (r : LoadRec) (k : KernRec) (l : Nat) : W64 :=
  let f := ((k.places.find? (fun p => decide (p.1 ≤ l) && decide (l ≤ p.2.1))).map (·.2.2)).getD 0
  r.base + BitVec.ofNat 64 (((r.funcs[f]?).map (·.hdr)).getD 0 + 16)

/-- A logical core as the install sequence leaves it (R43). -/
def State.installed (s : State) (gang : BitVec 32) (ctx : BitVec 16) (h : BitVec 512) (l pcid : Nat) (pc : W64) :
    LCore :=
  { LCore.cleared with
    gang := gang, run := .running, lcid := BitVec.ofNat 16 l, lcn := BitVec.ofNat 16 (gangSize (hWfe h)),
    wid := BitVec.ofNat 64 (widOf (hWfw h) (hWfe h) 6 0 0 l), wfw := hWfw h, wfe := hWfe h,
    pcid := BitVec.ofNat 9 pcid, pc := pc, status := ctx.setWidth 64 <<< 16, root := hArg h, timer := s.gtc }

/-- Logical cores join those of the die; a core that waits for a launch gives way. -/
def State.addCores (s : State) (l : List LCore) : State :=
  match s.cur.run, l with
  | .idle, c :: rest => { s with cur := c, others := s.others ++ rest }
  | _, _ => { s with others := s.others ++ l }

/-- A TENS entry with its image offsets made pointers (R314). -/
def tensEntry (base : W64) (e : BitVec 512) : BitVec 512 :=
  let one := fun k => let f := e.extractLsb' (64 * k) 64
    if f = 0 then (0 : W64) else 0x6000000000000000 + base + f
  e.extractLsb' 192 320 ++ one 2 ++ one 1 ++ one 0

/-- The entries of a kernel's TENS records enter the context's table at its launch (R314). -/
def State.writeTens (s : State) (ctx : BitVec 16) (kidx : Nat) (r : LoadRec) : State :=
  (r.tens.filter (fun t => t.1 == kidx)).foldl (fun s t =>
    s.setTidEntry ctx (BitVec.ofNat 8 t.2.1) (tensEntry r.base t.2.2)) s

/-- Start a gang (R16 steps 3 to 6). -/
def State.startGang (s : State) (q : BitVec 8) (tag : BitVec 32) (ctx : BitVec 16) (ca : W64) (h : BitVec 512)
    (r : LoadRec) (k : KernRec) (cores : List Nat) : State :=
  let id := s.nextGang
  let l := gangSize (hWfe h)
  let place := placement l cores k.nom
  let s1 := ((s.createCtx ctx).takePads ctx cores).writeTens ctx (hKidx h) r
  let g : Gang := { Gang.none id with
    tag := tag, queue := q, ctx := ctx, hdr := h, ca := ca, l := l, pcids := cores.map (BitVec.ofNat 9) }
  { s1 with gangs := s1.gangs ++ [g], nextGang := id + 1 }.addCores
    (place.zipIdx.map (fun (x : Nat × Nat) => s1.installed id ctx h x.2 x.1 (entryOf r k x.2)))

/-- The prefetch list is walked: each page as `xpref.mg` or `xpref.tr` walks it, unmapped pages are skipped (R279, R229). -/
def State.walkList (s : State) (ctx : BitVec 16) (p : W64) : State :=
  if p = 0 then s
  else
    match s.objHead ctx p with
    | (.error _, s1) => s1
    | (.ok w, s1) =>
      let st := s1.cur.status
      let s2 := s1.modCur (fun c => { c with status := ctx.setWidth 64 <<< 16 ||| 1 })
      let s3 := (List.range ((hdrLen w).toNat / 16)).foldl (fun s i =>
        match s.tryWords ctx (ptrAddr p + 16 + 16 * i) 2 with
        | (some [a, b], s') =>
          s'.markPages (b.getLsbD 32) ((List.range (bits b.toNat 31 0)).map (fun j => (ctx, a.toNat / 65536 + j)))
        | (_, s') => s') s2
      s3.modCur (fun c => { c with status := st })

/-! ### Completion (R275) -/

/-- The addition at a completion counter; one that cannot be made is recorded (R275, R340). -/
def State.addCounter (s : State) (ctx : BitVec 16) (a amount : W64) (what : Nat) (q : BitVec 8) (tag : BitVec 32) :
    State :=
  if a = 0 then s
  else
    let done : Bool × State :=
      if a.toNat % 8 ≠ 0 then (false, s)
      else
        match s.tryLoad ctx a.toNat 8 with
        | (some v, t) => t.tryStore ctx a.toNat 8 ((v + amount.toNat) % 2 ^ 64)
        | (Option.none, t) => (false, t)
    if done.1 then done.2 else done.2.ownWriteFailed what q.toNat tag ctx a

def packetId (tag : BitVec 32) (q : BitVec 8) : W64 := BitVec.ofNat 64 (tag.toNat * 256 + q.toNat)

/-- A packet completes (R275). -/
def State.completePacket (s : State) (q : BitVec 8) (tag : BitVec 32) (ctx : BitVec 16) (ca amount : W64) : State :=
  (s.addCounter ctx ca amount 1 q tag).trace 4 ctx 0xFFFF 0x150 (packetId tag q) ca

/-- A satchel request ends: STATE, STS, the counter, the trace record (R340, R341, R361). -/
def State.endRequest (s : State) (sts : Nat) : State :=
  let w := s.mg.satctl
  let q := BitVec.ofNat 8 (bits w.toNat 31 24)
  let tag := BitVec.ofNat 32 (bits w.toNat 63 32)
  let ctx := (s.queue q).ctx
  let w1 := setBits (setBits w 15 8 sts) 1 0 (if sts = 0 then 2 else 3)
  let s1 := { s with mg := { s.mg with satctl := w1 } }
  (s1.addCounter ctx s1.mg.satcnt 1 2 q tag).trace 0xB ctx 0xFFFF 0x150
    (BitVec.ofNat 64 (sts * 256 + bits w1.toNat 1 0)) s1.mg.satimg

/-- Every member of a gang has retired or been ended (R16, R338). -/
def State.gangOver (s : State) (g : Gang) : Bool :=
  (s.members g.id).all (fun c => c.run == .retired || c.run == .ended)

/-- Take a gang's logical cores off the die (R43). -/
def State.removeMembers (s : State) (id : BitVec 32) : State :=
  match (s.cur :: s.others).filter (fun c => c.gang != id) with
  | [] => { s with cur := { LCore.cleared with pcid := s.cur.pcid }, others := [] }
  | c :: l => { s with cur := c, others := l }

def State.removeGang (s : State) (id : BitVec 32) : State :=
  ({ s.removeMembers id with gangs := s.gangs.filter (fun g => g.id != id) }).dropPads

/-- A gang ends: its cores return to the scheduler; its counter is written, or where a member was ended the interrupt
is raised; what waited for its boundary ends (R16, R338, R280, R341). -/
def State.finishGang (s : State) (g : Gang) : State :=
  let ended := (s.members g.id).any (fun c => c.run == .ended)
  let s1 := s.removeGang g.id
  let s2 :=
    if ended then s1.raiseIrq 1 (g.queue.setWidth 64) (g.tag.setWidth 64)
    else s1.completePacket g.queue g.tag g.ctx g.ca 1
  let s3 := g.shrinks.foldl (fun s x => s.completePacket x.queue x.tag x.ctx x.ca 1) s2
  if g.cut.isSome then s3.endRequest 1 else s3

/-- Gangs that are over end (R16). -/
def State.finishGangs (s : State) : State := (s.gangs.filter s.gangOver).foldl (fun s g => s.finishGang g) s

/-! ### Selection (R276, R277) -/

/-- When a head began to wait, and its age (R277). -/
def State.ageQueue (s : State) (q : BitVec 8) : State :=
  let k := s.queue q
  match (s.head q).2 with
  | .waiting p =>
    let t := k.since.getD s.gtc
    s.setQueue q { k with since := some t, aged := (s.gtc - t) / 2 ^ 20,
                          senior := p.type == 1 && decide (2 ^ 23 ≤ s.gtc - t) }
  | _ => if k.since.isNone then s else s.setQueue q k.unaged

def allQueues : List (BitVec 8) := (List.range 256).map (BitVec.ofNat 8)

def State.ageQueues (s : State) : State := allQueues.foldl (fun s q => s.ageQueue q) s

/-- The effective priority of a queue (R277). -/
def Queue.effPri (k : Queue) : Nat := min 7 (k.pri + k.aged)

/-- The oldest senior launch (R277). -/
def State.oldestSenior (s : State) : Option (BitVec 8) :=
  (allQueues.filter (fun q => (s.queue q).senior)).foldl (fun b q =>
    match b with
    | Option.none => some q
    | some r => if ((s.queue q).since.getD 0) < ((s.queue r).since.getD 0) then some q else some r) Option.none

/-- The status a waiting packet fails with, and what its checks leave (R278). -/
def State.packetCheck (s : State) (q : BitVec 8) (p : Packet) : Option Nat × State :=
  let k := s.queue q
  if 4 ≤ p.type then (some 1, s)
  else if p.type = 1 then
    match s.launchIn k.ctx p with
    | (.error e, t) => (some e, t)
    | (.ok _, t) => (Option.none, t)
  else if p.type = 3 then
    if k.sup = false then (some 4, s)
    else if bits p.arg0.toNat 31 16 = 0 then (some 5, s)
    else (Option.none, s)
  else (Option.none, s)
/-- The status alone. -/
def State.packetFault (s : State) (q : BitVec 8) (p : Packet) : Option Nat := (s.packetCheck q p).1

/-- The cores and groups that a LAUNCH needs are free (R276). -/
def State.launchFits (s : State) (q : BitVec 8) (p : Packet) : Bool :=
  match s.launchOf (s.queue q).ctx p with
  | .ok (h, _, k) => (s.grant (s.queue q).ctx h k.nom).isSome
  | .error _ => false

/-- What is free is held for the oldest senior launch, until that launch is ready (R277). -/
def State.heldForSenior (s : State) : Option (BitVec 8) :=
  s.oldestSenior.filter (fun r => match (s.head r).2 with
    | .waiting p => !s.launchFits r p
    | _ => false)

/-- A waiting packet is ready; a LAUNCH once its cores and groups are free and not held for another (R276, R277). -/
def State.readyPacket (s : State) (q : BitVec 8) (p : Packet) : Bool :=
  (s.packetFault q p).isNone &&
  (p.type != 1 || (s.launchFits q p && s.heldForSenior.all (· == q)))

def State.ready (s : State) (q : BitVec 8) : Bool :=
  match (s.head q).2 with
  | .waiting p => s.readyPacket q p
  | _ => false

/-- The place of a queue in the turn at its priority: those after the last one dispatched come first (R277). -/
def State.turnOf (s : State) (q : BitVec 8) : Nat :=
  match s.lastQ.get ⟨(s.queue q).effPri % 8, Nat.mod_lt _ (by decide)⟩ with
  | Option.none => q.toNat
  | some r => (q.toNat + 255 - r.toNat) % 256

/-- The queue is the one the command processor selects (R277). -/
def State.selected (s : State) (q : BitVec 8) : Bool :=
  allQueues.all (fun r => r == q || !s.ready r ||
    decide ((s.queue r).effPri < (s.queue q).effPri) ||
    ((s.queue r).effPri == (s.queue q).effPri && decide (s.turnOf q < s.turnOf r)))

/-- A packet fails: it stays at the head, which waits no more, and the queue is in error (R277, R278). -/
def State.failQueue (s : State) (q : BitVec 8) (sts : Nat) (tag : BitVec 32) : State :=
  let k := s.queue q
  let s1 := s.setQueue q (k.withStat sts 2).unaged
  if k.host then { s1 with hostIrqs := s1.hostIrqs ++ [q] }
  else s1.raiseIrq 1 (q.setWidth 64) (tag.setWidth 64)

/-- The head packet is dispatched: RD rises, the trace record is written (R270, R276, R361). -/
def State.dispatchHead (s : State) (q : BitVec 8) (p : Packet) : State :=
  let k := s.queue q
  let s1 := s.setQueue q { k.fresh with qrd := k.qrd + 1 }
  let s2 := { s1 with lastQ := s1.lastQ.set (k.effPri % 8) (some q) (Nat.mod_lt _ (by decide)) }
  s2.trace 3 k.ctx 0xFFFF 0x150 (packetId p.tag q) k.qrd

/-- The oldest running gang that a LAUNCH of this queue and TAG started (R280). -/
def State.oldestGang (s : State) (q : BitVec 8) (tag : BitVec 32) : Option Gang :=
  s.gangs.find? (fun g => g.queue == q && g.tag == tag)

/-- What a dispatched packet does (R274). A SHRINK whose target a pre-emption holds in place, neither running nor ended, completes at once with
nothing done (DESIGN CHOICE, log entry 159: R280 names a running gang as its target, and gives no other case but one that has ended). -/
def State.runPacket (s : State) (q : BitVec 8) (p : Packet) : State :=
  let ctx := (s.queue q).ctx
  if p.type = 1 then
    match s.launchIn ctx p with
    | (.error _, s) => s
    | (.ok (h, r, k), s) =>
      match s.grant ctx h k.nom with
      | Option.none => s
      | some cores => ((s.dispatchHead q p).startGang q p.tag ctx p.ca h r k cores).walkList ctx p.arg1
  else
    let s1 := s.dispatchHead q p
    if p.type = 2 then s1.completePacket q p.tag ctx p.ca p.arg0
    else if p.type = 3 then
      match s1.oldestGang (BitVec.ofNat 8 (bits p.arg0.toNat 7 0)) (BitVec.ofNat 32 (bits p.arg0.toNat 63 32)) with
      | Option.none => s1.completePacket q p.tag ctx p.ca 1
      | some g => s1.setGang { g with shrinks := g.shrinks ++
          [⟨q, p.tag, ctx, p.ca, BitVec.ofNat 16 (bits p.arg0.toNat 31 16)⟩] }
    else s1.completePacket q p.tag ctx p.ca 1

/-- The command processor looks at a queue for a packet of a type: a head that fails puts the queue into error, a head
with BRK stops it, and one that is ready and selected is dispatched (R276 to R278, R364). -/
def State.command (s : State) (ty : Nat) (q : BitVec 8) : State :=
  let s0 := s.ageQueues
  match s0.head q with
  | (s1, .fails sts tag) => s1.failQueue q sts tag
  | (s1, .stopped p) => (s1.setBk q true).trace 7 (s1.queue q).ctx 0xFFFF 0x150 (packetId p.tag q) (s1.queue q).qrd
  | (s1, .waiting p) =>
    match s1.packetFault q p with
    | some sts => if p.type = ty ∨ 4 ≤ p.type then (s1.packetCheck q p).2.failQueue q sts p.tag else s1
    | Option.none =>
      if p.type = ty ∧ s1.readyPacket q p = true ∧ s1.selected q = true then (s1.runPacket q p).ageQueue q else s1
  | (s1, _) => s1

/-- A queue is active with a packet pending. -/
def State.anyPending (s : State) : Bool :=
  s.queues.toList.any (fun k => k.state == 0 && decide (k.qrd.toNat < k.qwr.toNat))

/-- The type by which the command processor takes up the head of a queue, where it has something to do: a head that fails, one that its
breakpoint stops now, or one that is ready and selected. -/
def State.commandFor (s : State) (q : BitVec 8) : Option Nat :=
  match s.head q with
  | (_, .fails _ _) => some 0
  | (_, .stopped _) => some 0
  | (s1, .waiting p) =>
    if (s1.packetFault q p).isSome || (s1.readyPacket q p && s1.selected q) then some p.type else Option.none
  | _ => Option.none

/-- What the command processor does next by itself, if anything (R277, R285). -/
def State.commandNext (s : State) : Option State :=
  if s.anyPending then
    let t := s.ageQueues
    allQueues.findSome? (fun q => (t.commandFor q).map (fun ty => t.command ty q))
  else Option.none

/-- Heads that wait begin their age in the step in which they begin to wait (R277). -/
def State.ageHeads (s : State) : State := if s.anyPending then s.ageQueues else s

/-- A NOP packet (R274). -/
def execNop (q : BitVec 8) (s : State) : Host.Outcome State Fault Refusal := runStep (fun s => s.command 0 q) s
/-- A LAUNCH packet (R274, R16). -/
def execLaunch (q : BitVec 8) (s : State) : Host.Outcome State Fault Refusal := runStep (fun s => s.command 1 q) s
/-- A SIGNAL packet (R274). -/
def execSignal (q : BitVec 8) (s : State) : Host.Outcome State Fault Refusal := runStep (fun s => s.command 2 q) s
/-- A SHRINK packet (R280). -/
def execShrink (q : BitVec 8) (s : State) : Host.Outcome State Fault Refusal := runStep (fun s => s.command 3 q) s

/-- A launch's work is performed: the gang of a queue and TAG that is over ends (R275). -/
def execPacketComplete (q : BitVec 8) (tag : BitVec 32) (s : State) : Host.Outcome State Fault Refusal :=
  runStep (fun s => match s.gangs.find? (fun g => g.queue == q && g.tag == tag && s.gangOver g) with
    | some g => s.finishGang g
    | Option.none => s) s

/-- The command processor checks waiting dependences again (R275): heads that now wait begin their age. -/
def execDependenceRecheck (s : State) : Host.Outcome State Fault Refusal := runStep (fun s => s.ageQueues) s

/-- Waiting heads gain priority with age (R277). -/
def execPriorityAging (s : State) : Host.Outcome State Fault Refusal :=
  runStep (fun s => allQueues.foldl (fun s q =>
    let k := s.queue q
    match k.since with
    | some t => s.setQueue q { k with aged := (s.gtc - t) / 2 ^ 20 }
    | Option.none => s) s) s

/-- A head LAUNCH that has waited 2²³ ticks becomes senior (R277). -/
def execLaunchSeniority (s : State) : Host.Outcome State Fault Refusal :=
  runStep (fun s => allQueues.foldl (fun s q =>
    let k := s.queue q
    match k.since, (s.head q).2 with
    | some t, .waiting p => s.setQueue q { k with senior := p.type == 1 && decide (2 ^ 23 ≤ s.gtc - t) }
    | _, _ => s) s) s

/-! ### Queue registers -/

/-- The doorbell: the host writes a count to QWR (R271). -/
def State.ring (s : State) (q : BitVec 8) (w : W64) : State :=
  let k := s.queue q
  if k.host = false then s
  else if k.qwr.toNat ≤ w.toNat ∧ w.toNat ≤ k.qrd.toNat + k.size then (s.setQueue q { k with qwr := w }).ageQueue q
  else
    let s1 := s.setQueue q (k.withStat k.sts 1).unaged
    { s1 with hostIrqs := s1.hostIrqs ++ [q] }
/-- The doorbell (R271). -/
def execDoorbell (q : BitVec 8) (w : W64) (s : State) : Host.Outcome State Fault Refusal := runStep (fun s => s.ring q w) s

/-- SKIP: only in the error state (R269). -/
def State.skipQueue (s : State) (q : BitVec 8) : State :=
  let k := s.queue q
  if k.state = 2 then (s.setQueue q { (k.withStat 0 0).fresh with qrd := k.qrd + 1 }).ageQueue q else s
/-- QSTAT.SKIP (R269). -/
def execQueueSkip (q : BitVec 8) (s : State) : Host.Outcome State Fault Refusal := runStep (fun s => s.skipQueue q) s

/-- RESET: every pending packet is discarded (R269, R364). -/
def State.resetQueue (s : State) (q : BitVec 8) : State :=
  let k := s.queue q
  (s.setQueue q { (k.withStat 0 0).fresh with qwr := k.qrd }).setBk q false
/-- QSTAT.RESET (R269). -/
def execQueueReset (q : BitVec 8) (s : State) : Host.Outcome State Fault Refusal := runStep (fun s => s.resetQueue q) s

/-- STATE := 0b00 (R269, R278). -/
def State.enableQueue (s : State) (q : BitVec 8) : State :=
  let k := s.queue q
  (s.setQueue q (k.withStat k.sts 0)).ageQueue q
/-- STATE := 0b00 (R269). -/
def execQueueEnable (q : BitVec 8) (s : State) : Host.Outcome State Fault Refusal := runStep (fun s => s.enableQueue q) s

/-- STATE := 0b11 (R269, R364). -/
def State.disableQueue (s : State) (q : BitVec 8) : State :=
  let k := s.queue q
  (s.setQueue q (k.withStat k.sts 3).fresh).setBk q false
/-- STATE := 0b11 (R269). -/
def execQueueDisable (q : BitVec 8) (s : State) : Host.Outcome State Fault Refusal := runStep (fun s => s.disableQueue q) s

/-- A write of QSTAT (R269). -/
def State.writeQstat (s : State) (q : BitVec 8) (v : W64) : State :=
  if v.getLsbD 2 then s.resetQueue q
  else if v.getLsbD 3 then s.skipQueue q
  else if bits v.toNat 1 0 = 0 then s.enableQueue q
  else if bits v.toNat 1 0 = 3 then s.disableQueue q
  else s

/-- Writable bits of QCFG (R269). -/
def qcfgMask : W64 := 0xFFFF00E70000001F

/-- A write of a queue register by supervisor or machine software, or the host (R269, R271). -/
def State.writeQueue (s : State) (host : Bool) (q : BitVec 8) (reg : Nat) (v : W64) : State :=
  let k := s.queue q
  if reg = 0x00 then
    (if k.state = 3 then s.setQueue q { k with qbase := v &&& ~~~(0x3F : W64) } else s)
  else if reg = 0x08 then
    (if k.state = 3 ∧ 4 ≤ bits v.toNat 4 0 ∧ bits v.toNat 4 0 ≤ 16 then s.setQueue q { k with qcfg := v &&& qcfgMask } else s)
  else if reg = 0x10 then (if host then s.ring q v else s)
  else if reg = 0x20 then s.writeQstat q v
  else s

/-! ### `qpost` (R266, R272) -/

/-- The queue is open to the context (R272). -/
def Queue.opens (k : Queue) (ctx : BitVec 16) : Bool := !k.host && k.isOpen && k.ctx == ctx && k.state != 3

/-- Store words in a context, one after another; beyond the 52 bits of its space nothing is mapped (R272, R291). -/
def storeWords (va : Nat) : List W64 → Ex Unit
  | [] => pure ()
  | w :: l => do
    if 2 ^ 52 < va + 8 then throw (pageFault (BitVec.ofNat 64 va) accStore 1 1)
    let a ← translate va accStore
    locWrite a 8 w.toNat (BitVec.ofNat 64 va)
    storeWords (va + 8) l

/-- `qpost` (R266). -/
def execQpost (d a : BitVec 5) (p : BitVec 4) (s : State) : Host.Outcome State Fault Refusal :=
  let i : Instr := .qpost d a p
  runWord i ⟨[a, d], d, poolTime, poolTime⟩ (do
    let _ ← touch p
    let pr ← rdP p
    if pr.len.toNat < 64 then trapWith cOBJ_BOUND 64 (pr.len.setWidth 64)
    let n ← rdX a
    let s ← get
    let q := n.setWidth 8
    let k := s.queue q
    if 256 ≤ n.toNat || !k.opens s.cur.ctx then rangeTrap i 24
    if k.qwr.toNat - k.qrd.toNat < k.size then
      let v ← readPay pr.ptr 0 64 accLoad
      asCtx s.cur.ctx (storeWords (k.slot k.qwr.toNat) ((List.range 8).map (fun j => BitVec.ofNat 64 (v / 2 ^ (64 * j)))))
      modify (fun s => (s.setQueue q { k with qwr := k.qwr + 1 }).ageQueue q)
      wrX d 0
    else wrX d 1
    return .seq) s

end Sys2Proof.Machine
end

