-- ==== Sys2Proof/Machine/Moving.lean ====
section
/-! DEFINITION. What happens to a gang between the completion of a superstep and its next instruction (R263): the roll-call
record (R264), debug stops (R363), spatial shrinks (R280, R342, R343); and ending a member's task (R338). Cuts stand in
Satchels.lean. -/

namespace Sys2Proof.Machine

/-! ### The objects a gang's roots reach (R342, R348) -/

/-- An object of a pad: the pad and the offset of its header. -/
abbrev ObjId := PadId × Nat

/-- A physical core from which the pointers inside a pad are read. -/
def PadId.pcid : PadId → BitVec 9
  | .core n => BitVec.ofNat 9 n
  | .cluster n => BitVec.ofNat 9 (16 * n)
  | .die => 0

def padOf (pcid : BitVec 9) (lvl : Nat) : PadId :=
  if lvl = 0 then .core pcid.toNat else if lvl = 1 then .cluster (pcid.toNat / 16) else .die

/-- The object a pointer names, seen from a physical core. -/
def State.objOf (s : State) (pcid : BitVec 9) (p : W64) : Option ObjId :=
  if p == 0 || decide (2 < ptrLvl p) || ptrMalformed p then none
  else
    let id := padOf pcid (ptrLvl p)
    if (s.pad id).objects.contains (ptrAddr p) then some (id, ptrAddr p) else none

/-- The pointers an object holds: CANON of a copy, then its slots in increasing offset. -/
def State.kids (s : State) (o : ObjId) : List (BitVec 9 × W64) :=
  let p := s.pad o.1
  let w0 := p.word o.2
  ((if hdrC w0 then [p.word (o.2 + 8)] else []) ++ (p.slots o.2).map Prod.snd).map (fun q => (o.1.pcid, q))

/-- A depth-first trace: objects in the order in which it first meets them (R348). -/
def State.visit (s : State) : Nat → List (BitVec 9 × W64) → List ObjId → List ObjId
  | 0, _, seen => seen
  | _ + 1, [], seen => seen
  | n + 1, x :: l, seen =>
    match s.objOf x.1 x.2 with
    | none => s.visit n l seen
    | some o => if seen.contains o then s.visit n l seen else s.visit n (s.kids o ++ l) (seen ++ [o])

/-- A bound on the steps of a trace from a list of roots. -/
def State.visitFuel (s : State) (roots : Nat) : Nat :=
  roots + 1 + (s.pads.flatMap (fun p => p.objects.map (fun o => (p.slots o).length + 2))).sum

def State.visitFrom (s : State) (roots : List (BitVec 9 × W64)) : List ObjId := s.visit (s.visitFuel roots.length) roots []

/-- Insertion sort by a key. -/
def insertKey {α : Type} (key : α → Nat) (x : α) : List α → List α
  | [] => [x]
  | y :: l => if key x < key y then x :: y :: l else y :: insertKey key x l
def sortKey {α : Type} (key : α → Nat) (l : List α) : List α := l.foldl (fun a x => insertKey key x a) []

/-- The members of a gang in increasing LCID. -/
def State.memberList (s : State) (id : BitVec 32) : List LCore := sortKey (fun c => c.lcid.toNat) (s.members id)

/-- The dirty copies a core's index holds, in increasing canonical pointer (R348). -/
def State.dirtyCopies (s : State) (c : LCore) : List W64 :=
  ((sortKey (fun e => e.1.toNat) c.cidx).filter (fun e =>
    hdrD ((s.pad (padOf c.pcid (ptrLvl e.2))).word (ptrAddr e.2)))).map Prod.snd

/-- The roots of one logical core, in serial order: its pointer registers, ROOT, the pointer registers that `sstep` has saved, and its dirty
copies (R348, R195). -/
def State.coreRoots (s : State) (c : LCore) : List (BitVec 9 × W64) :=
  if c.run == .retired then []
  else (c.p.toList.map (·.ptr) ++ [c.root, c.saveP13.ptr, c.saveP15.ptr] ++ s.dirtyCopies c).map (fun p => (c.pcid, p))

def State.tensorPtrs (s : State) (ctx : BitVec 16) : List W64 :=
  (List.range 256).flatMap (fun t => entPtrs (s.tidEntry ctx (BitVec.ofNat 8 t)))

/-- The objects of a gang in serial order (R348). -/
def State.serial (s : State) (g : Gang) : List ObjId :=
  let ms := s.memberList g.id
  let base := (ms.head?.map (·.pcid)).getD 0
  s.visitFrom (ms.flatMap s.coreRoots ++ (s.tensorPtrs g.ctx).map (fun p => (base, p)))

/-- What each member's roots reach, and what the tensor entries reach (R342). -/
structure Reach where
  cores : List (LCore × List ObjId)
  tensors : List ObjId

def State.reach (s : State) (g : Gang) : Reach :=
  let ms := s.memberList g.id
  let base := (ms.head?.map (·.pcid)).getD 0
  { cores := ms.map (fun c => (c, s.visitFrom (s.coreRoots c))),
    tensors := s.visitFrom ((s.tensorPtrs g.ctx).map (fun p => (base, p))) }

/-- The logical core whose index holds a copy. -/
def State.copyOwner (s : State) (g : Gang) (o : ObjId) : Option LCore :=
  (s.memberList g.id).find? (fun c => c.cidx.any (fun e =>
    e.2 == mkPtr o.1.lvl o.2 && padOf c.pcid o.1.lvl == o.1))

/-- The reaching set of an object (R342). -/
def State.reachers (s : State) (g : Gang) (r : Reach) (o : ObjId) : List LCore :=
  if hdrC ((s.pad o.1).word o.2) then (s.copyOwner g o).toList
  else if r.tensors.contains o then r.cores.map Prod.fst
  else (r.cores.filter (fun x => x.2.contains o)).map Prod.fst

/-- The nearest level, from `old` outward, whose pad every core of a list reaches (R342). -/
def sharedLevel (old : Nat) (l : List (BitVec 9)) : Nat :=
  match l with
  | [] => old
  | p :: _ =>
    if old = 0 ∧ l.all (· == p) = true then 0
    else if old ≤ 1 ∧ l.all (fun q => q.toNat / 16 == p.toNat / 16) = true then 1
    else 2

/-! ### The roll-call record (R264) -/

/-- A write of n bytes at an object's payload in a context, kept only if it can be performed; else what is known of it stays. -/
def State.tryWrite (s : State) (ctx : BitVec 16) (p : W64) (off n v : Nat) : Bool × State :=
  match asCtx ctx (writeObj p (16 + off) n v accStore) s with
  | .ok _ t => (true, t)
  | .error _ t => (false, s.knowing t)

/-- The arrival times of the members counted: those that have not retired. -/
def State.arrivals (s : State) (g : Gang) : List (Nat × Nat) :=
  let live := ((s.members g.id).filter (fun c => c.run != .retired)).map (·.lcid)
  (g.arriveAt.filter (fun a => live.contains a.1)).map (fun a => (a.1.toNat, a.2))

structure RollCall where
  early : Nat
  sumoff : Nat
  span : Nat
  last : Nat
  count : Nat

def rollCall (l : List (Nat × Nat)) : RollCall :=
  let early := ((l.map Prod.snd).min?).getD 0
  let late := ((l.map Prod.snd).max?).getD 0
  { early := early, sumoff := min (2 ^ 48 - 1) ((l.map (fun a => a.2 - early)).sum), span := min (2 ^ 32 - 1) (late - early),
    last := (((l.filter (fun a => a.2 == late)).map Prod.fst).min?).getD 0, count := l.length }

/-- The record of R264 as a number. -/
def RollCall.word (r : RollCall) (ssn : W64) : Nat :=
  r.count % 2 ^ 16 * 2 ^ 16 + r.last % 2 ^ 16 * 2 ^ 32 + r.span * 2 ^ 48 + r.sumoff * 2 ^ 80 + r.early % 2 ^ 64 * 2 ^ 128 +
    ssn.toNat * 2 ^ 192

/-- SSC of a gang's members before the increment. -/
def State.gangSsc (s : State) (g : Gang) : W64 :=
  (((s.members g.id).find? (fun c => c.run != .retired)).map (·.ssc)).getD 0

/-- The roll-call record is written, and the superstep's trace record (R264, R361). A write that fails is recorded with its address (R370);
where LEN cannot be read, with that of the payload (DESIGN CHOICE). -/
def State.writeRollCall (s : State) (g : Gang) : State :=
  let ssn := s.gangSsc g
  let r := rollCall (s.arrivals g)
  let p := hRcr g.hdr
  let s1 :=
    if p = 0 then s
    else
      let failed := fun (s : State) (off : Nat) => s.ownWriteFailed 3 g.queue.toNat g.tag g.ctx (BitVec.ofNat 64 (ptrAddr p + 16 + off))
      match s.objHead g.ctx p with
        | (.error _, s') => failed s' 0
        | (.ok w, s') =>
          let n := (hdrLen w).toNat / 32
          let off := 32 * (ssn.toNat % n)
          if n = 0 then failed s' 0
          else
            match s'.tryWrite g.ctx p off 32 (r.word ssn) with
            | (true, t) => t
            | (false, t) => failed t off
  s1.trace 1 g.ctx 0xFFFF 0x150 ssn (BitVec.ofNat 64 (r.last * 2 ^ 32 + r.span))

/-! ### Debug stops (R363) -/

/-- The mode that applies to a gang at this boundary; 0 for none. -/
def State.debugMode (s : State) (g : Gang) : Nat :=
  let w := s.mg.dbgctl
  let q := BitVec.ofNat 8 (bits w.toNat 31 24)
  let tag := BitVec.ofNat 32 (bits w.toNat 63 32)
  let mode := bits w.toNat 19 16
  match s.oldestGang q tag with
  | none => 0
  | some t =>
    if t.id ≠ g.id then 0
    else if mode = 1 then (if s.gangSsc g + 1 = s.mg.dbgss then 1 else 0)
    else if mode = 2 ∨ mode = 3 then mode
    else 0

/-- A member takes DEBUG_STOP at the word after its `sstep`. -/
def State.debugStop (s : State) (g : Gang) (mode : Nat) : State :=
  let c := s.cur.endStep (g.doneJoin.get 0)
  let s1 := { s with cur := { c.advance with blk := none } }
  s1.enterTrap ⟨cDEBUG_STOP, s1.cur.ssc, BitVec.ofNat 64 mode⟩ none false

/-- The logical core stands at its `sstep`. -/
def LCore.atSstep (c : LCore) : Bool :=
  match c.blk with
  | some (.sstep _) => true
  | _ => false

/-- Every member takes the stop; one that a handler has called away from its `sstep` takes it when it has come back and its `sstep` ends
(R363). -/
def State.debugStops (s : State) (id : BitVec 32) : State :=
  let g := s.gang id
  let mode := s.debugMode g
  if mode = 0 then s
  else
    let s0 := (s.applyMsgs s.msgs.length).modWhere (fun c => c.gang == id && c.run == .running && !c.atSstep)
      (fun c => { c with debug := some (BitVec.ofNat 64 mode) })
    let ls := ((s0.memberList id).filter (fun c => c.run == .running && c.atSstep)).map (·.lcid)
    let s1 := ls.foldl (fun s l => s.onCore (fun c => c.is id l) (fun s => s.debugStop g mode)) s0
    let s2 := s1.trace 8 g.ctx 0xFFFF 0x150 (s.gangSsc g + 1) (BitVec.ofNat 64 mode)
    if mode = 3 then { s2 with mg := { s2.mg with dbgctl := setBits s2.mg.dbgctl 19 16 0 } } else s2

/-! ### Shrinks (R280, R342, R343) -/

/-- A move of an object: its old and new places, and the level that R342 names for it. -/
structure Move1 where
  old : ObjId
  new : ObjId ⊕ W64
  want : Nat

/-- The object has found room at that level. -/
def Move1.exact (m : Move1) : Bool :=
  match m.new with
  | .inl o => o.1.lvl == m.want
  | .inr _ => false

/-- The pointer a move's new place is named by. -/
def Move1.ptr (m : Move1) : W64 :=
  match m.new with
  | .inl o => mkPtr o.1.lvl o.2
  | .inr p => p

/-- A dropped copy is named by its canonical object, at the place that this object moves to (R342). -/
def Move1.resolve (ms : List Move1) (m : Move1) : Move1 :=
  match m.new with
  | .inl _ => m
  | .inr q =>
    match ms.find? (fun x => decide (ptrLvl q ≤ 2) && x.old == (padOf m.old.1.pcid (ptrLvl q), ptrAddr q)) with
    | some x => { m with new := .inr x.ptr }
    | none => m

/-- Run in another context and as a physical core: pad pointers name what that core reaches. -/
def asPlaced {α : Type} (ctx : BitVec 16) (pcid : BitVec 9) (m : Ex α) : Ex α := do
  let here := (← get).cur.pcid
  modCur (fun c => { c with pcid := pcid })
  let a ← asCtx ctx m
  modCur (fun c => { c with pcid := here })
  return a

/-- Room in the pad of the least level from `lvl` to 2 that has it, seen from a physical core; for a context that does not own the die pad
level 2 is absent (R401). -/
def State.roomFrom (s : State) (ctx : BitVec 16) (pcid : BitVec 9) (size : Nat) : Nat → Nat → Option (ObjId × State)
  | 0, _ => none
  | n + 1, lvl =>
    if 2 < lvl ∨ (lvl = 2 ∧ (s.pad .die).owner ≠ some ctx) then none
    else
      match s.bumpPad (padOf pcid lvl) size with
      | some (b, s') => some ((padOf pcid lvl, b), s')
      | none => s.roomFrom ctx pcid size n (lvl + 1)

/-- The janitor collects a pad that a physical core reaches, for a context (R196); an error abandons the collection. -/
def State.collectAt (s : State) (ctx : BitVec 16) (pcid : BitVec 9) (lvl : Nat) : State :=
  if lvl = 2 ∧ (s.pad .die).owner ≠ some ctx then s
  else
    let t := { s with cur := { LCore.cleared with pcid := pcid, status := ctx.setWidth 64 <<< 16 ||| 1 },
                      others := s.cur :: s.others }.collectBack lvl
    match t.others with
    | c :: l => { t with cur := c, others := l }
    | [] => s

/-- The pads of the levels from `from_` on that a list of physical cores reaches are collected. -/
def State.collectPads (s : State) (ctx : BitVec 16) (from_ : Nat) (cores : List (BitVec 9)) : State :=
  ([0, 1, 2].filter (fun l => decide (from_ ≤ l))).foldl (fun s l =>
    ((cores.map (fun p => padOf p l)).dedup).foldl (fun s id => s.collectAt ctx id.pcid l) s) s

/-- Reserve the new places of a list of objects under a new placement; an object that is no copy may go to the heap,
and a copy without room is dropped after its write-back (R342). None where the heap is exhausted too. A copy never makes a shrink fail:
where its write-back meets a fault it is dropped all the same, and a memory error is recorded (DESIGN CHOICE: the spec gives no outcome). -/
def State.reserveMoves (s : State) (g : Gang) (r : Reach) (newPcid : BitVec 16 → BitVec 9) :
    List ObjId → Option (State × List Move1)
  | [] => some (s, [])
  | o :: l =>
    let ps := (s.reachers g r o).map (fun c => newPcid c.lcid)
    let lvl := sharedLevel o.1.lvl ps
    let home := ps.headD o.1.pcid
    let w0 := (s.pad o.1).word o.2
    let next := fun (s1 : State) (m : Move1) => (s1.reserveMoves g r newPcid l).map (fun x => (x.1, m :: x.2))
    if padOf home lvl = o.1 then s.reserveMoves g r newPcid l
    else
      match s.roomFrom g.ctx home (extent w0) 3 lvl with
      | some (n, s1) => next s1 ⟨o, .inl n, lvl⟩
      | none =>
        if hdrC w0 then
          match asPlaced g.ctx o.1.pcid (mergeBytes ((s.pad o.1).word (o.2 + 8)) ((s.pad o.1).dirtyBytes o.2)) s with
          | .ok _ s1 => next s1 ⟨o, .inr ((s.pad o.1).word (o.2 + 8)), lvl⟩
          | .error e t => next ((s.knowing t).memError 6 g.ctx 0xFFFF 0x152 e) ⟨o, .inr ((s.pad o.1).word (o.2 + 8)), lvl⟩
        else
          match asCtx g.ctx (heapPlace (extent w0)) s with
          | .ok p s1 => next s1 ⟨o, .inr p, lvl⟩
          | .error _ _ => none

/-- Forward every pointer to an old place, the farther pads first, so that no pointer is rewritten twice. -/
def State.forwardMoves (s : State) (ctx : BitVec 16) (ms : List Move1) : State :=
  let ids := (sortKey (fun (i : PadId) => 2 - i.lvl) (ms.map (fun m => m.old.1)).dedup)
  ids.foldl (fun s id =>
    s.forwardAll id ctx ((ms.filter (fun m => m.old.1 == id)).map (fun m => (mkPtr id.lvl m.old.2, m.ptr)))) s

/-- Move an object's header, payload and dirty mask (R342); its bytes in the heap are written as a promotion writes
them (R190). -/
def State.moveBytes (s : State) (ctx : BitVec 16) (m : Move1) : State :=
  let p := s.pad m.old.1
  let w0 := p.word m.old.2
  let n := 16 + (hdrLen w0).toNat
  match m.new with
  | .inl o =>
    let d := s.pad o.1
    let dirty := (p.dirtyOf m.old.2).foldl (fun l k => insertOff (o.2 + 16 + k) l) d.dirty
    s.setPad { d with mem := Mem.fill d.mem o.2 n (Mem.range p.mem m.old.2 n), dirty := dirty }
  | .inr q =>
    if hdrC w0 then s
    else
      match asCtx ctx (do
          fillObj q 0 n (Mem.range p.mem m.old.2 n) accStore
          writeObj q 0 8 (w0 &&& ~~~(0x100000000000 : W64)).toNat accStore) s with
      | .ok _ t => t
      | .error _ t => s.knowing t

/-- The copy index of a core after a move: its copies stand at their new places; those that have not moved and that it
no longer reaches are left behind (R342). -/
def LCore.reindex (c : LCore) (newPcid : BitVec 9) (ms : List Move1) : LCore :=
  { c with cidx := c.cidx.filterMap (fun e =>
      match ms.find? (fun m => m.old == (padOf c.pcid (ptrLvl e.2), ptrAddr e.2)) with
      | some m => (match m.new with
        | .inl _ => some (e.1, m.ptr)
        | .inr _ => none)
      | none =>
        if padOf c.pcid (ptrLvl e.2) = padOf newPcid (ptrLvl e.2) then some e else none) }

/-- The moves of a shrink. Where an object finds no room at the level it should have, the pads are collected first, as `Place` collects
(R342, R184). -/
def State.planMoves (s : State) (g : Gang) (cores : List Nat) (newPcid : BitVec 16 → BitVec 9) : Option (State × List Move1) :=
  let try_ := fun (s : State) => s.reserveMoves g (s.reach g) newPcid (s.serial g)
  match try_ s with
  | some (s1, ms) => if ms.all Move1.exact then some (s1, ms) else try_ (s.collectPads g.ctx 0 (cores.map (BitVec.ofNat 9)))
  | none => try_ (s.collectPads g.ctx 0 (cores.map (BitVec.ofNat 9)))

/-- A shrink of a gang to the cores of a list (R343); none where an object finds no room (STS 0x06). -/
def State.moveGang (s : State) (g : Gang) (cores : List Nat) : Option State :=
  let place := placement g.l cores []
  let newPcid := fun (l : BitVec 16) => BitVec.ofNat 9 (place.getD l.toNat 0)
  (s.planMoves g cores newPcid).map fun (s1, plan) =>
    let ms := plan.map (Move1.resolve plan)
    let s2 := s1.modWhere (fun c => c.gang == g.id) (fun c => c.reindex (newPcid c.lcid) ms)
    let s3 := ms.foldl (fun s m => s.moveBytes g.ctx m) (s2.forwardMoves g.ctx ms)
    let s4 := s3.modWhere (fun c => c.gang == g.id) (fun c => { c with pcid := newPcid c.lcid })
    let gone := g.pcids.filter (fun p => !cores.contains p.toNat)
    let s5 := gone.foldl (fun s p => s.clearPad (.core p.toNat)) s4
    { s5 with ipad := s5.ipad.filter (fun r => !gone.contains r.pcid) }.modGang g.id
      (fun g => { g with pcids := cores.map (BitVec.ofNat 9) })

/-- One shrink request takes effect (R280). One that fails here has come to its end: it holds back no later packet of its queue (DESIGN
CHOICE: R274 names the completion of a SHRINK alone). The queue's interrupt carries the TAG of the SHRINK (DESIGN CHOICE). -/
def State.doShrink (s : State) (id : BitVec 32) (x : Shrink) : State :=
  let g := s.gang id
  let n := g.pcids.length
  if n ≤ x.nvac.toNat then s.failQueue x.queue 5 x.tag
  else
    let cores := ((sortKey (fun (p : BitVec 9) => p.toNat) g.pcids).map (·.toNat)).take (n - x.nvac.toNat)
    match s.moveGang g cores with
    | none => s.failQueue x.queue 6 x.tag
    | some s1 => s1.completePacket x.queue x.tag x.ctx x.ca 1

/-- The requests that reach a boundary, in dispatch order (R280). -/
def State.doShrinks (s : State) (id : BitVec 32) : State :=
  let l := (s.gang id).shrinks
  l.foldl (fun s x => s.doShrink id x) (s.modGang id (fun g => { g with shrinks := [] }))

/-! ### Ending a task (R338) -/

/-- The dirty bytes of a core's copies are discarded. -/
def State.discardCopies (s : State) : State :=
  s.cur.cidx.foldl (fun s e =>
    let id := s.cur.padId (ptrLvl e.2)
    s.setPad ((s.pad id).clean (ptrAddr e.2))) s

/-- End the logical core that moves (R338). -/
def State.endHere (s : State) : State :=
  let s1 := s.discardCopies
  let id := s1.cur.gang
  let lc := s1.cur.lcid
  (s1.modCur (fun c => { c.leave with
      run := .ended, late := none, pend := [], loads := [], startQ := [], cxpins := [], acks := [], lost := [], debug := none, posts := [], taken := none, work := none })).modGang
    id (fun g => { g with abandoned := some (g.abandoned.getD lc) })

/-- A member's task is ended at its boundary; a pending cut of the gang fails (R338, R358). -/
def State.endMember (s : State) (id : BitVec 32) (lcid : BitVec 16) : State :=
  if (s.members id).any (fun c => c.lcid == lcid && c.run == .running) then
    let s1 := s.onCore (fun c => c.is id lcid) State.endHere
    if (s1.gang id).cut.isSome then (s1.modGang id (fun g => { g with cut := none })).endRequest 1 else s1
  else s

/-- END_TASK (R338). -/
def execEndTask (gang : BitVec 32) (lcid : BitVec 16) (s : State) : Host.Outcome State Fault Refusal :=
  runStep (fun s => s.endMember gang lcid) s

/-- Who wrote a register: the context and the level; the host's management path counts as level 2, a code no core
has. -/
def whoCtx (who : BitVec 18) : BitVec 16 := who.extractLsb' 2 16
def whoPl (who : BitVec 18) : Nat := bits who.toNat 1 0

/-- Machine software, or supervisor software of the context that owns a queue (R338, R340, R363). -/
def State.mayControl (s : State) (who : BitVec 18) (q : BitVec 8) : Bool :=
  whoPl who == 3 || (whoPl who == 1 && whoCtx who == (s.queue q).ctx)

/-- A write of TABORT (R338): the member ends at its boundary. -/
def State.abortTask (s : State) (who : BitVec 18) (v : W64) : State :=
  let q := BitVec.ofNat 8 (bits v.toNat 23 16)
  let lc := BitVec.ofNat 16 (bits v.toNat 15 0)
  match s.oldestGang q (BitVec.ofNat 32 (bits v.toNat 63 32)) with
  | none => s
  | some g => if s.mayControl who q then s.endMember g.id lc else s

/-- TABORT (R338). -/
def execTabort (who : BitVec 18) (v : W64) (s : State) : Host.Outcome State Fault Refusal :=
  runStep (fun s => s.abortTask who v) s

end Sys2Proof.Machine
end

