-- ==== Sys2Proof/Machine/Satchels.lean ====
section
/-! DEFINITION. Satchels: requests (R340, R341), portable cuts (R344 to R350), urgent pre-emption (R354, R355), restores
(R351 to R353), and the superstep boundary at which cuts, stops and shrinks take effect (R263, R358). -/

namespace Sys2Proof.Machine

open Host (Cell)

/-! ### Sections and headers (R345, R346) -/

/-- A section on its way into an image: type, count, bytes, length. -/
structure Section where
  type : Nat
  count : Nat
  cells : List Cell
  len : Nat

def shiftCells (n : Nat) (l : List Cell) : List Cell := l.map (fun c => (c.1 + n, c.2))

/-- Each section at a multiple of 64, after the table. -/
def layOut : Nat → List Section → List (Section × Nat)
  | _, [] => []
  | off, x :: l => (x, roundUp 64 off) :: layOut (roundUp 64 off + x.len) l

def imageEnd (l : List (Section × Nat)) : Nat := l.foldl (fun _ x => x.2 + x.1.len) 0x100

/-- The fields of an image's header that do not follow from its sections. -/
structure ImageHead where
  kind : Nat
  feat : BitVec 512
  lhdr : BitVec 512
  ssc : W64
  cut : Nat
  prev : W64
  ca : W64
  tag : BitVec 32
  queue : BitVec 8
  die : BitVec 4
  pkg : BitVec 8
  phase : List Nat
  ctx : BitVec 16
  hnext : W64

/-- An image: header, section table, sections. -/
def imageCells (h : ImageHead) (secs : List Section) : List Cell × Nat :=
  let l := layOut (0x100 + 24 * secs.length) secs
  let n := imageEnd l
  (putSeq 0 ([(4, 0x31544153), (2, 1), (1, h.kind), (1, if h.prev = 0 then 0 else 1), (64, h.feat.toNat),
      (64, h.lhdr.toNat), (8, h.ssc.toNat), (8, h.cut), (8, h.prev.toNat), (8, h.ca.toNat), (4, h.tag.toNat),
      (1, h.queue.toNat), (1, h.die.toNat), (1, h.pkg.toNat), (1, secs.length)] ++
      h.phase.map (fun p => (8, p)) ++ [(8, n), (2, h.ctx.toNat), (6, 0), (8, h.hnext.toNat)]) ++
    putRows 0x100 24 (l.map (fun x => [(4, x.1.type), (4, x.1.count), (8, x.2), (8, x.1.len)])) ++
    l.flatMap (fun x => shiftCells x.2 x.1.cells), n)

/-- Records of one size, one after another. -/
def stack (size : Nat) : Nat → List (List Cell) → List Cell
  | _, [] => []
  | off, r :: l => shiftCells off r ++ stack size (off + size) l

/-! ### Portable records (R347, R348) -/

def serialPtr (i : Nat) : W64 := BitVec.ofNat 64 (5 * 2 ^ 61 + 16 * i)

/-- A pointer as a portable image writes it, seen from a physical core. -/
def State.toSerial (s : State) (order : List ObjId) (pcid : BitVec 9) (p : W64) : W64 :=
  match s.objOf pcid p with
  | none => p
  | some o => match order.findIdx? (fun x => x == o) with
    | some i => serialPtr i
    | none => p

/-- The payload of an object with its pointers serialised. -/
def State.serialPayload (s : State) (order : List ObjId) (o : ObjId) : List Cell :=
  let p := s.pad o.1
  let n := (hdrLen (p.word o.2)).toNat
  (p.slots o.2).foldl (fun m x => Mem.writeN m (x.1 - (o.2 + 16)) 8 (s.toSerial order o.1.pcid x.2).toNat)
    (Mem.range p.mem (o.2 + 16) n)

/-- One OBJ record and its length (R348). -/
def State.objRecord (s : State) (g : Gang) (r : Reach) (order : List ObjId) (i : Nat) (o : ObjId) : List Cell × Nat :=
  let p := s.pad o.1
  let w0 := p.word o.2
  let w1 := p.word (o.2 + 8)
  let n := (hdrLen w0).toNat
  let lcs := (s.reachers g r o).map (fun c => c.lcid.toNat)
  let owner := if hdrC w0 || o.1.lvl == 0 then lcs.min?.getD 0xFFFF else 0xFFFF
  let masked := hdrC w0 && hdrD w0
  let mask := (p.dirtyOf o.2).foldl (fun a k => a + 2 ^ k) 0
  let m := (n + 7) / 8
  (putSeq 0 [(4, i), (1, o.1.lvl), (1, 0), (2, owner), (8, w0.toNat),
      (8, (if hdrC w0 then s.toSerial order o.1.pcid w1 else w1).toNat)] ++
    shiftCells 0x20 (s.serialPayload order o) ++ (if masked then putAt (0x20 + roundUp 16 n) m mask else []),
   0x20 + roundUp 16 n + (if masked then roundUp 16 m else 0))

/-- Records of various lengths, one after another, with their total length. -/
def chain : Nat → List (List Cell × Nat) → List Cell × Nat
  | off, [] => ([], off)
  | off, r :: l => let x := chain (off + r.2) l; (shiftCells off r.1 ++ x.1, x.2)

/-- One MSG record (R349). -/
def msgRecord (stamp : Vector Nat 10) (m : Merge) : List Cell × Nat :=
  let mask := m.bytes.foldl (fun a b => a + 2 ^ b.1) 0
  let data := (m.bytes.foldl (fun l b => Mem.write l b.1 b.2) [])
  let k := (m.len + 7) / 8
  (putSeq 0 ([(8, m.addr.toNat), (4, m.len), (1, if m.bytes == [] then 2 else 1), (3, 0)] ++
      stamp.toList.map (fun v => (8, v))) ++
    shiftCells 96 data ++ putAt (96 + roundUp 16 m.len) k mask, 96 + roundUp 16 m.len + roundUp 16 k)

/-- The merges held for the heap of a context (R344 item 4). -/
def State.heldMerges (s : State) (ctx : BitVec 16) : List (DieMsg × Merge) :=
  let lo := (s.ctxWord ctx 1).toNat
  let hi := (s.ctxWord ctx 2).toNat
  s.msgs.filterMap (fun m => m.merge.bind (fun x =>
    if x.ctx = ctx ∧ lo ≤ x.addr.toNat ∧ x.addr.toNat < hi then some (m, x) else none))

/-- A member as it resumes after its `sstep` (R347: PC is the word after it). -/
def LCore.resumed (c : LCore) (g : Gang) : LCore :=
  if c.run == .retired then c else { (c.endStep (g.doneJoin.get 0)).advance with blk := none }

/-! ### The image object -/

/-- Fill n payload bytes of an object in a context, kept only if every page can be written; else what is known of it stays. -/
def State.tryFill (s : State) (ctx : BitVec 16) (p : W64) (off n : Nat) (cs : List Cell) : Bool × State :=
  match asCtx ctx (fillObj p (16 + off) n cs accStore) s with
  | .ok _ t => (true, t)
  | .error _ t => (false, s.knowing t)

def State.trySnap (s : State) (ctx : BitVec 16) (p : W64) (n : Nat) : Option (List Cell) × State :=
  match asCtx ctx (snapshot p 16 n accLoad) s with
  | .ok m t => (some m, t)
  | .error _ t => (none, s.knowing t)

/-- LEN of the image object: a KIND 0 object at level 3 of the context (R340, R341 STS 0x02). -/
def State.imgLen (s : State) (ctx : BitVec 16) (p : W64) : Option Nat × State :=
  match s.objHead ctx p with
  | (.ok w, t) => (if hdrKind w = 0 then some (hdrLen w).toNat else none, t)
  | (.error _, t) => (none, t)

/-- Every page of an object of a context lets the part make an access of a kind (R341 STS 0x02). -/
def State.objOpen (s : State) (ctx : BitVec 16) (p : W64) (len acc : Nat) : Bool :=
  (pieces (ptrAddr p) (len / 65536 + 2) 0 (16 + len)).all (fun x =>
    match asCtx ctx (translate (ptrAddr p + x.1) acc) s with
    | .ok _ _ => true
    | .error _ _ => false)

/-- Zero bytes in a context's pages without a mark in the dirty-page bitmap (R297). -/
def State.quietZero (s : State) (ctx : BitVec 16) (va n : Nat) : State :=
  (pieces va (n / 65536 + 2) 0 n).foldl (fun s x =>
    let rep : W64 := BitVec.ofNat 64 (va + x.1)
    s.attempt (do
      let (pte, pa) ← useLeaf s.die.toNat s.mg.ctxbase (s.ctxValid ctx) ctx (va + x.1) accStore false false rep (pageFault rep accStore)
      locFill (leafLoc s pte pa) x.2 [] rep)) s

/-- The bitmap object of a context: its pointer and LEN; LEN 0 for none (R297). -/
def State.bitmap (s : State) (ctx : BitVec 16) : W64 × Nat :=
  let d := s.ctxWord ctx 3
  if d = 0 then (0, 0)
  else
    let p := mkPtr 3 d.toNat
    match s.objHead ctx p with
    | (.ok w, _) => (p, (hdrLen w).toNat)
    | (.error _, _) => (p, 0)

/-! ### A portable cut (R344) -/

/-- The members of a gang as they resume: the roots and the records of a cut are theirs (R344, R347). -/
def State.resumedGang (s : State) (g : Gang) : State := s.modWhere (fun c => c.gang == g.id) (fun c => c.resumed g)

/-- The pad objects and the tensor entries that an image takes can be read (R367). -/
def State.cutReadable (s : State) (g : Gang) : Bool :=
  s.tidsOk g.ctx && !(s.serial g).any (fun o => s.padBad o.1 o.2 (16 + (hdrLen ((s.pad o.1).word o.2)).toNat))

/-- The sections of a portable image of a gang whose members stand as they resume. -/
def State.portable (s : State) (g : Gang) (dirtyLen : Nat) (dirty : List Cell) : List Section :=
  let order := s.serial g
  let r := s.reach g
  let ms := s.memberList g.id
  let cores := ms.map (fun c => c.record s.die s.pkg false (s.toSerial order c.pcid) c.pc c.status)
  let base := (ms.head?.map (·.pcid)).getD 0
  let objs := chain 0 ((order.zipIdx).map (fun (x : ObjId × Nat) => s.objRecord g r order x.2 x.1))
  let held := s.heldMerges g.ctx
  let msgs := chain 0 (held.map (fun x => msgRecord x.1.stamp x.2))
  [⟨1, ms.length, stack recSize 0 cores, ms.length * recSize⟩,
   ⟨2, order.length, objs.1, objs.2⟩,
   ⟨3, held.length, msgs.1, msgs.2⟩,
   ⟨4, dirtyLen, dirty, dirtyLen⟩,
   ⟨5, 256, stack 64 0 ((List.range 256).map (fun t =>
      putAt 0 64 (mapEntry (s.toSerial order base) (s.tidEntry g.ctx (BitVec.ofNat 8 t))).toNat)), 16384⟩]

/-- FEAT of the kernel's object (R345). -/
def State.gangFeat (s : State) (g : Gang) : BitVec 512 :=
  ((s.loads.find? (fun r => r.ctx == g.ctx && r.base == hKobj g.hdr)).map (·.feat)).getD 0

def State.lastCut (s : State) (ctx : BitVec 16) : W64 :=
  ((s.lastCuts.find? (fun x => x.1 == ctx)).map Prod.snd).getD 0

def State.imageHead (s : State) (g : Gang) (kind : Nat) (ssc prev : W64) : ImageHead where
  kind := kind
  feat := s.gangFeat g
  lhdr := g.hdr
  ssc := ssc
  cut := s.gtc
  prev := prev
  ca := g.ca
  tag := g.tag
  queue := g.queue
  die := s.die
  pkg := s.pkg
  phase := g.phase.toList
  ctx := g.ctx
  hnext := s.ctxWord g.ctx 10

/-- Write a portable image and clear the bitmap; false where the image object does not hold it (R344, R350), or where what it takes cannot be
read (R367; DESIGN CHOICE, log entry 163: R341 has no code of its own for that). The whole of the image is written before the bitmap is copied, so that its own
pages are in this image's DIRTY. -/
def State.writePortable (s : State) (g : Gang) : Bool × State :=
  let img := s.mg.satimg
  let (dp, dn) := s.bitmap g.ctx
  let h := s.imageHead g 0 (s.gangSsc g + 1) (s.lastCut g.ctx)
  let (cells, n) := imageCells h ((s.resumedGang g).portable g dn [])
  match s.imgLen g.ctx img with
  | (none, t) => (false, t)
  | (some len, t) =>
    if len < n ∨ t.objOpen g.ctx img len accStore = false ∨ t.cutReadable g = false then (false, t)
    else
      match t.tryFill g.ctx img 0 n cells with
      | (false, t) => (false, t)
      | (true, t) =>
        if dn = 0 then (true, t)
        else
          match t.trySnap g.ctx dp dn with
          | (none, t) => (false, t)
          | (some dirty, t) =>
            match t.tryFill g.ctx img 0 n (imageCells h ((s.resumedGang g).portable g dn dirty)).1 with
            | (false, t) => (false, t)
            | (true, t) =>
              let u := t.quietZero g.ctx (ptrAddr dp + 16) dn
              (true, { u with lastCuts := (g.ctx, BitVec.ofNat 64 s.gtc) :: u.lastCuts.filter (fun x => x.1 != g.ctx) })

/-- Merges moved into an image are no longer applied at their home (R344 item 4). -/
def State.dropMerges (s : State) (ctx : BitVec 16) : State :=
  let held := (s.heldMerges ctx).map Prod.fst
  { s with msgs := s.msgs.map (fun m => if held.contains m then { m with merge := none } else m) }

/-- A pending cut takes effect at the boundary (R344, R358). -/
def State.takeCut (s : State) (id : BitVec 32) : State :=
  let s0 := s.applyMsgs s.msgs.length
  let g := s0.gang id
  match g.cut with
  | none => s
  | some op =>
    let s1 := s0.setGang { g with cut := none }
    if g.abandoned.isSome then s1.endRequest 1
    else
      match s1.writePortable { g with cut := none } with
      | (false, t) => t.endRequest 2
      | (true, s2) =>
        if op = 1 then
          let s3 := (s2.dropMerges g.ctx).removeGang id
          (g.shrinks.foldl (fun s x => s.completePacket x.queue x.tag x.ctx x.ca 1) s3).endRequest 0
        else s2.endRequest 0

/-! ### The superstep boundary (R263) -/

/-- Roll-call, then cuts, debug stops and shrinks, then the timers (R263, R358). -/
def State.boundary (s : State) (id : BitVec 32) : State :=
  let s1 := s.writeRollCall (s.gang id)
  let s2 := s1.takeCut id
  if s2.gangs.any (fun g => g.id == id) then
    let s3 := (s2.debugStops id).doShrinks id
    let s4 := s3.modWhere (fun c => c.gang == id) (fun c => { c with timer := s3.gtc, overrun := false })
    s4.modGang id (fun g => { g with boundary := false, arriveAt := [] })
  else s2

/-- A gang stands at a superstep boundary. With a cut to be taken, every member that runs stands at its `sstep` there, where no task runs and
the record's PC is the word after it: one that a handler has called away comes back first (R344, R347; DEDUCED, log entry 164). -/
def State.atBoundary (s : State) (g : Gang) : Bool :=
  g.boundary && (g.cut.isNone || g.abandoned.isSome || (s.members g.id).all (fun c => c.run != .running || c.atSstep))

/-- SUPERSTEP_BOUNDARY: the first gang that stands at one (R263). -/
def execSuperstepBoundary (s : State) : Host.Outcome State Fault Refusal :=
  runStep (fun s => match s.gangs.find? s.atBoundary with
    | some g => s.boundary g.id
    | none => s) s

/-! ### Urgent pre-emption (R354) -/

/-- How many of `n` steps of a work have ended, with the one under way: each takes an equal part of its cycles (R354; DESIGN CHOICE: the
spec gives no time to a group or a stage). -/
def Work.reached (w : Work) (now n : Nat) : Nat := (now - w.start) * n / max w.cycles 1 + 1

/-- What the work of an entry has changed is as before it, and the entry is under way again. -/
def LCore.unwork (c : LCore) (w : Work) (r : RingEntry) : LCore :=
  { c.setEntry { r with state := .issued } with
    acc := w.acc, k := w.k, astat := w.astat, fstat := w.fstat, work := none, late := c.late.filter (fun l => l.seq != w.seq) }

/-- The cycle that the coprocessor has come to: a freeze holds it (R64). -/
def LCore.copNow (c : LCore) : Nat := c.frozenAt.getD c.ccy

/-- An `ascan` stops after its current stage, which its entry and ASTAT show; a gain underflow up to there is noted (R171, R173). -/
def State.stopScan (s : State) (w : Work) (r : RingEntry) (n k : BitVec 2) (len : BitVec 5) (gain : Option (BitVec 4 × BitVec 4))
    (skip : Bool) : State :=
  let stg := bits w.astat.toNat 30 28
  let begun := if stg = 0 then (if skip then 5 else 0) else stg
  let j := w.reached s.cur.copNow (7 - begun)
  if 7 - begun ≤ j then s
  else
    let (c, u) := (s.cur.unwork w { r with prog := begun + j }).scanTo n k (len.toNat + 1) gain skip (begun + j)
    { s with cur := c }.attempt (noteUnderflow n r.seq (stg != 0) (u.map (fun (x : Nat × Nat) => (x.1, x.2 / 32, x.2 % 32))))

/-- An `mma` stops after its current group (R159). -/
def State.stopMma (s : State) (w : Work) (r : RingEntry) (n : BitVec 2) (ta tb : BitVec 4) (op : BitVec 2) (t u : BitVec 4) : State :=
  let left := rowElems t.toNat / groupSize t.toNat - r.prog
  let bs := fun (x : BitVec 4) => t == 0 && Entry.bs (s.tidEntry s.cur.ctx (s.cur.getT x).tid)
  let j := w.reached s.cur.copNow left
  if left ≤ j then s
  else { s with cur := (s.cur.unwork w { r with prog := r.prog + j }).mmaGroups r.seq n ta tb op t u (bs ta) (bs tb) r.prog j }

/-- An `mma` or `ascan` that has not ended stops at its next progress point; no word of the matrix unit has issued behind it, and the vector words
that have stand (R354). -/
def State.stopWork (s : State) : State :=
  match s.cur.work with
  | none => s
  | some w =>
    match s.cur.entryOf w.seq with
    | none => s
    | some r =>
      if w.start + w.cycles ≤ s.cur.copNow then s
      else
        match r.instr with
        | .mma n ta tb op t u => s.stopMma w r n ta tb op t u
        | .ascan n k len => s.stopScan w r n k len none false
        | .ascanK n k len => s.stopScan w r n k len none true
        | .ascanG n t k ty len => s.stopScan w r n k len (some (t, ty)) false
        | _ => s

/-- A tile load stops after its current row (R354). -/
def State.stopLoads (s : State) : State := s.landRow.modCur (fun c => { c with loads := [] })

/-- What has issued writes its destinations, the copies stop, the streams drop what they read ahead; a unit that has begun with its prefix
begins again (R51, R117). -/
def LCore.stopped (c : LCore) : LCore :=
  let c1 := (c.land c.quietAt).rewind
  { c1 with
    st := c1.st.map (fun s => { s with buf := [], part := [], fault := none }),
    tags := c1.tags.map (fun t => match t with
      | .running k => (match k.phase with
        | .queued => .running { k with phase := .taken false }
        | _ => t)
      | t => t) }

/-- The RAWPAD record of a core pad (R355). -/
def rawPadSize : Nat := 16 + 0x40000 + 0x8000 + 1024 + 1024
def State.rawPad (s : State) (pcid : BitVec 9) : List Cell :=
  let p := s.pad (.core pcid.toNat)
  let pins := ((s.cur :: s.others).filter (fun c => c.pcid == pcid)).flatMap (fun c =>
    ((c.cxpins.filter (fun q => ptrLvl q == 0)).dedup).map (fun q => (ptrAddr q, c.lcid.toNat)))
  putSeq 0 [(2, pcid.toNat), (6, 0), (8, p.bump)] ++
    shiftCells 16 (Mem.range p.mem 0 0x40000) ++
    putAt (16 + 0x40000) 0x8000 (p.dirty.foldl (fun a k => a + 2 ^ k) 0) ++
    putRows (16 + 0x48000) 8 ((p.gaps.take 128).map (fun x => [(4, x.1), (4, x.1 + x.2)])) ++
    putRows (16 + 0x48400) 8 ((pins.take 128).map (fun x => [(4, x.1), (2, x.2), (1, 1)]))

/-- The members whose order of settlement a pre-emption fixes: each stops, with its moved copies complete. -/
def State.stopMembers (s : State) (id : BitVec 32) : State :=
  (s.memberList id).foldl (fun s c => s.onCore (fun x => x.is id c.lcid) (fun s =>
    s.settleCopies.stopWork.stopLoads.modCur LCore.stopped)) s

/-- Words that have left a port of a gang land or are held; those that they let leave follow (R354, R250). -/
def State.settleWords (s : State) (id : BitVec 32) : Nat → State
  | 0 => s
  | n + 1 =>
    let l := (s.members id).flatMap (fun c => (c.port.filter (fun w => w.left && !w.held)).map (·.due))
    match l.max? with
    | none => s
    | some t => ({ s with clk := max s.clk (t + 1) }.deposits).settleWords id n

/-- The in-place image of a stopped gang. -/
def State.inPlaceImage (s : State) (g : Gang) : List Cell × Nat :=
  let ms := s.memberList g.id
  let pads := (sortKey (fun (p : BitVec 9) => p.toNat) g.pcids)
  let recs := ms.map (fun c => c.inPlaceRecord s.die s.pkg c.pc c.status true)
  imageCells (s.imageHead g 1 (s.gangSsc g) 0)
    [⟨1, ms.length, stack inPlaceSize 0 recs, ms.length * inPlaceSize⟩,
     ⟨6, pads.length, stack rawPadSize 0 (pads.map s.rawPad), pads.length * rawPadSize⟩]

/-- Members whose superstep has ended stand behind their `sstep`, so that all members read one SSC (R345, R354). -/
def State.endSteps (s : State) (id : BitVec 32) : State :=
  let g := s.gang id
  s.modWhere (fun c => c.gang == id && c.handed.isNone && (match c.blk with
    | some (.sstep p) => decide (p < g.phase.get 0)
    | _ => false)) (fun c => c.resumed g)

/-- OP 3 (R354): the image is written and the pads held, and the cores return to the scheduler. A word that is held still occupies its
place in its port (R250), so it is recorded with those that have not left (DEDUCED). A core pad with a sector that cannot be read is not
recorded: the request fails with STS 0x02 (R367; DESIGN CHOICE, log entry 163, R341 has no code of its own for that). Requests that wait for the gang's boundary wait on:
the gang has not ended (R280). -/
def State.preempt (s' : State) (id : BitVec 32) : State :=
  let s := (if (s'.gang id).boundary then s'.boundary id else s').endSteps id
  let s0 := (s.settleWords id (s.portWords + 1)).stopMembers id
  let g := s0.gang id
  let img := s0.mg.satimg
  let (cells, n) := s0.inPlaceImage g
  match s0.imgLen g.ctx img with
  | (none, t) => (s.knowing t).endRequest 2
  | (some len, t) =>
    if len < n ∨ t.objOpen g.ctx img len accStore = false ∨ g.pcids.any (fun p => t.padBad (.core p.toNat) 0 0x40000) = true then
      (s.knowing t).endRequest 2
    else
      match t.tryFill g.ctx img 0 n cells with
      | (false, t) => (s.knowing t).endRequest 2
      | (true, s1) =>
        let held : HeldImage := { img := img, ctx := g.ctx, gang := g, cores := s1.memberList id,
                                  pads := g.pcids.map (fun p => s1.pad (.core p.toNat)) }
        ({ s1 with images := s1.images ++ [held] }.removeGang id).endRequest 0

/-! ### Reading an image -/

/-- The section of a type: count, offset, length. -/
def sectionOf (m : List Cell) (ty : Nat) : Option (Nat × Nat × Nat) :=
  ((List.range (getAt m 0xAF 1)).find? (fun i => getAt m (0x100 + 24 * i) 4 == ty)).map
    (fun i => (getAt m (0x104 + 24 * i) 4, getAt m (0x108 + 24 * i) 8, getAt m (0x110 + 24 * i) 8))

/-- The table of R346: known types, each once, in bounds, at multiples of 64, without overlap, and those the kind needs. -/
def tableOk (m : List Cell) : Bool :=
  let n := getAt m 0xAF 1
  let kind := getAt m 6 1
  let rows := (List.range n).map (fun i =>
    (getAt m (0x100 + 24 * i) 4, getAt m (0x104 + 24 * i) 4, getAt m (0x108 + 24 * i) 8, getAt m (0x110 + 24 * i) 8))
  let types : List Nat := rows.map (fun r => r.1)
  let need := if kind = 0 then [1, 2, 3, 4, 5] else [1, 6]
  let size := if kind = 0 then recSize else inPlaceSize
  decide (1 ≤ n) && decide (n ≤ 6) && types.all (fun t => need.contains t) && need.all (fun t => types.contains t) &&
    types.dedup == types &&
    rows.all (fun r => r.2.2.1 % 64 == 0 && decide (r.2.2.1 + r.2.2.2 ≤ getAt m 0xD0 8) &&
      decide (0x100 + 24 * n ≤ r.2.2.1)) &&
    rows.all (fun r => rows.all (fun q => q.1 == r.1 || decide (r.2.2.1 + r.2.2.2 ≤ q.2.2.1) ||
      decide (q.2.2.1 + q.2.2.2 ≤ r.2.2.1))) &&
    rows.all (fun r => (r.1 != 1 || r.2.2.2 == r.2.1 * size) && (r.1 != 5 || (r.2.1 == 256 && r.2.2.2 == 16384)) &&
      (r.1 != 4 || r.2.2.2 == r.2.1) && (r.1 != 6 || r.2.2.2 == r.2.1 * rawPadSize))

def imgLhdr (m : List Cell) : BitVec 512 := BitVec.ofNat 512 (getAt m 0x48 64)

/-- One record of CORE, by index. -/
def coreRecord (m : List Cell) (i : Nat) : List Cell :=
  let size := if getAt m 6 1 = 0 then recSize else inPlaceSize
  Mem.range m (((sectionOf m 1).map (fun x => x.2.1)).getD 0 + i * size) size

/-- Reserved and coded fields of the records (R341 STS 0x03). -/
def recordsOk (m : List Cell) (feat10 : Bool) : Bool :=
  (List.range (((sectionOf m 1).map (fun x => x.1)).getD 0)).all (fun i =>
    let r := coreRecord m i
    getAt r 0 4 == i && bits (getAt r 4 4) 13 13 == getAt m 6 1 &&
      (if bits (getAt r 4 4) 12 12 = 1 then !dirtyRecord r && (getAt m 6 1 == 0 || !dirtyExtension r)
       else !badRecord r feat10 && (getAt m 6 1 == 0 || !badExtension r)))

/-- Where an OBJ record ends (R348). -/
def objEnd (m : List Cell) (off : Nat) : Nat :=
  let w0 := getW m (off + 8)
  let k := (hdrLen w0).toNat
  off + 0x20 + roundUp 16 k + (if hdrC w0 && hdrD w0 then roundUp 16 ((k + 7) / 8) else 0)

/-- Where a MSG record ends (R349). -/
def msgEnd (m : List Cell) (off : Nat) : Nat :=
  let n := getAt m (off + 8) 4
  off + 96 + roundUp 16 n + roundUp 16 ((n + 7) / 8)

/-- Records of various lengths lie in their section, and each passes a check. -/
def chainOk (stop : Nat) (next : Nat → Nat) (ok : Nat → Bool) : Nat → Nat → Bool
  | 0, _ => true
  | n + 1, off => decide (next off ≤ stop) && ok off && chainOk stop next ok n (next off)

/-- A core pad from its RAWPAD record; the extents that a collection kept above the bump pointer, which the record does
not hold, come with the held pads (R355). -/
def padOfRecord (r : List Cell) (held : List Pad) : Pad :=
  let id := PadId.core (getAt r 0 2)
  let mask := getAt r (16 + 0x40000) 0x8000
  let gaps := ((List.range 128).map (fun k => (getAt r (16 + 0x48000 + 8 * k) 4, getAt r (20 + 0x48000 + 8 * k) 4))).filter
    (fun x => x.2 != 0)
  let kept := ((held.find? (fun p => p.id == id)).map (·.kept)).getD []
  { Pad.fresh id with
    mem := Mem.canon (Mem.range r 16 0x40000), bump := getAt r 8 8, dirty := (List.range 0x40000).filter (fun k => mask.testBit k),
    gaps := gaps.map (fun x => (x.1, x.2 - x.1)), kept := kept }

/-- OBJ, MSG, TENS and RAWPAD records lie in their sections, with reserved fields zero (R341 STS 0x03). -/
def chainsOk (m : List Cell) : Bool :=
  let (no, oo, ol) := (sectionOf m 2).getD (0, 0, 0)
  let (nm, mo, ml) := (sectionOf m 3).getD (0, 0, 0)
  let (nt, te, _) := (sectionOf m 5).getD (0, 0, 0)
  let (np, po, _) := (sectionOf m 6).getD (0, 0, 0)
  chainOk (oo + ol) (objEnd m) (fun o => getAt m (o + 5) 1 == 0 && getAt m (o + 0x18) 8 == 0 &&
      (hdrC (getW m (o + 8)) || bits (getAt m (o + 16) 8) 63 52 == 0)) no oo &&
    chainOk (mo + ml) (msgEnd m) (fun o => getAt m (o + 13) 3 == 0) nm mo &&
    (List.range nt).all (fun k => entryClean m (te + 64 * k)) &&
    (List.range np).all (fun k => getAt m (po + k * rawPadSize + 2) 6 == 0 &&
      (List.range 128).all (fun j => bits (getAt m (po + k * rawPadSize + 16 + 0x48400 + 8 * j) 8) 63 49 == 0) &&
      let p := padOfRecord (Mem.range m (po + k * rawPadSize) rawPadSize) []
      p.objects.all (fun o => hdrC (p.word o) || bits (p.word (o + 8)).toNat 63 52 == 0))

/-- The part never holds an entry with V = 1 that breaks the checks of R147: an image with such an entry in TENS is refused (R147; DESIGN CHOICE, log entry 92, of
the code, which R341 does not give). A serial pointer stands for a well-formed one. -/
def State.tensOk (s : State) (m : List Cell) : Bool :=
  let (nt, te, _) := (sectionOf m 5).getD (0, 0, 0)
  (List.range nt).all (fun k =>
    let e := mapEntry (fun p => if ptrLvl p = 5 then 0x10 else p) (BitVec.ofNat 512 (getAt m (te + 64 * k) 64))
    !Entry.valid e || (entryReason s.feat (fun _ => true) e).isNone)

/-- The physical cores an in-place image names, by LCID. -/
def imagePlaces (m : List Cell) (held : HeldImage) : List Nat :=
  (List.range (((sectionOf m 1).map (fun x => x.1)).getD 0)).map (fun i =>
    let r := coreRecord m i
    if bits (getAt r 4 4) 12 12 = 1 then
      ((held.cores.find? (fun c => c.lcid.toNat == i)).map (fun c => c.pcid.toNat)).getD 0
    else getAt r 0xA 2)

/-- The physical cores and core pads of an in-place image are those that hold it (R353: it restores only on the PCIDs recorded in it). -/
def placesMatch (m : List Cell) (held : HeldImage) : Bool :=
  let (np, po, _) := (sectionOf m 6).getD (0, 0, 0)
  let want := (List.range held.gang.l).map (fun i =>
    ((held.cores.find? (fun c => c.lcid.toNat == i)).map (fun c => c.pcid.toNat)).getD 0)
  imagePlaces m held == want &&
    (List.range np).map (fun k => getAt m (po + k * rawPadSize) 2) ==
      (sortKey (fun (p : BitVec 9) => p.toNat) held.gang.pcids).map (·.toNat)

/-- The lowest failure of a restore that does not depend on room (R341). -/
def State.restoreFault (s : State) (ctx : BitVec 16) (m : List Cell) : Option Nat :=
  let h := imgLhdr m
  let kind := getAt m 6 1
  let feat := BitVec.ofNat 512 (getAt m 8 64)
  let rec_ := s.loads.find? (fun r => r.ctx == ctx && r.base == hKobj h)
  if getAt m 0 4 ≠ 0x31544153 ∨ getAt m 4 2 ≠ 1 ∨ 1 < kind ∨ getAt m 0xD8 2 ≠ ctx.toNat ∨ 1 < getAt m 7 1 ∨
      getAt m 0xDA 6 ≠ 0 ∨ getAt m 0xE8 24 ≠ 0 ∨ tableOk m = false ∨ (s.headerOk ctx h).1 = false ∨
      ((sectionOf m 1).map (fun x => x.1)) ≠ some (gangSize (hWfe h)) ∨ recordsOk m (s.feat.getLsbD 10) = false ∨ chainsOk m = false ∨
      s.tensOk m = false then some 3
  else if (List.range 512).any (fun b => feat.getLsbD b && !s.feat.getLsbD b &&
      !((rec_.map (fun r => r.emul.any (fun e => e.1 == b))).getD false)) then some 4
  else if kind = 1 ∧ (getAt m 0xAD 1 ≠ s.die.toNat ∨ getAt m 0xAE 1 ≠ s.pkg.toNat ∨
      (s.imageAt ctx s.mg.satimg).any (fun held => placesMatch m held) = false) then some 5
  else if (s.kernelOf ctx h).isNone then some 6
  else if s.ctxValid ctx = false ∨ (s.ctxWord ctx 10).toNat < getAt m 0xE0 8 then some 7
  else none

/-! ### Restoring (R351) -/

/-- Serial objects of an image: offset of each OBJ record. -/
def objOffsets (m : List Cell) : Nat → Nat → List Nat
  | 0, _ => []
  | n + 1, off =>
    off :: objOffsets m n (objEnd m off)

/-- The serial number a pointer holds (R348). -/
def serialOf (p : W64) : Option Nat := if ptrLvl p = 5 then some (ptrAddr p / 16) else none

/-- The serial pointers of an OBJ record: CANON of a copy, and the slots of a reference object. -/
def objKids (m : List Cell) (off : Nat) : List Nat :=
  let w0 := getW m (off + 8)
  let slots := if hdrKind w0 = 1 then
    (List.range ((hdrLen w0).toNat / 8)).map (fun k => getW m (off + 0x20 + 8 * k)) else []
  ((if hdrC w0 then [getW m (off + 16)] else []) ++ slots).filterMap serialOf

/-- The serial numbers reached from a list of them. -/
def reachSerial (m : List Cell) (offs : List Nat) : Nat → List Nat → List Nat
  | 0, seen => seen
  | n + 1, seen =>
    let new := ((seen.flatMap (fun i => objKids m (offs.getD i 0))).filter (fun i => !seen.contains i)).dedup
    if new == [] then seen else reachSerial m offs n (seen ++ new)

/-- What each logical core of an image reaches, and what its tensor entries reach (R342). -/
def imageReach (m : List Cell) (offs : List Nat) (l : Nat) : List (List Nat) × List Nat :=
  let roots := fun (i : Nat) =>
    let r := coreRecord m i
    ((List.range 16).map (fun k => getW r (0x110 + 16 * k)) ++ [getW r 0xA68]).filterMap serialOf ++
      ((List.range offs.length).filter (fun j =>
        hdrC (getW m (offs.getD j 0 + 8)) && hdrD (getW m (offs.getD j 0 + 8)) && getAt m (offs.getD j 0 + 6) 2 == i))
  let t := ((sectionOf m 5).map (fun x => x.2.1)).getD 0
  let tens := ((List.range 256).flatMap (fun k => entPtrs (BitVec.ofNat 512 (getAt m (t + 64 * k) 64)))).filterMap serialOf
  ((List.range l).map (fun i => reachSerial m offs offs.length (roots i).dedup), reachSerial m offs offs.length tens.dedup)

/-- The logical cores that reach object j (R342). -/
def imageReachers (m : List Cell) (offs : List Nat) (r : List (List Nat) × List Nat) (l j : Nat) : List Nat :=
  let off := offs.getD j 0
  if hdrC (getW m (off + 8)) then [getAt m (off + 6) 2]
  else if r.2.contains j then List.range l
  else (List.range l).filter (fun i => (r.1.getD i []).contains j)

/-- Where object j of an image is placed: a physical core, and the level from which it looks for room (R342). -/
def imageHome (m : List Cell) (offs : List Nat) (r : List (List Nat) × List Nat) (place : List Nat) (j : Nat) : BitVec 9 × Nat :=
  let ps := (imageReachers m offs r place.length j).map (fun i => BitVec.ofNat 9 (place.getD i 0))
  (ps.headD 0, sharedLevel (getAt m (offs.getD j 0 + 4) 1) ps)

/-- Reserve the places of an image's objects (R342, R351): none where an object that is no copy finds no room up to level 2. A copy without
room is named by its canonical object. -/
def State.placeObjects (s : State) (ctx : BitVec 16) (m : List Cell) (offs : List Nat)
    (r : List (List Nat) × List Nat) (place : List Nat) : List Nat → Option (State × List (Nat × Option ObjId))
  | [] => some (s, [])
  | j :: l =>
    let w0 := getW m (offs.getD j 0 + 8)
    let (home, lvl) := imageHome m offs r place j
    match s.roomFrom ctx home (extent w0) 3 lvl with
    | some (o, s1) => (s1.placeObjects ctx m offs r place l).map (fun x => (x.1, (j, some o) :: x.2))
    | none => if hdrC w0 then (s.placeObjects ctx m offs r place l).map (fun x => (x.1, (j, none) :: x.2)) else none

/-- The places of an image's objects. Where one finds no room at the level it should have, the cluster and die pads are collected first, as
`Place` collects; the core pads are fresh (R342, R184). -/
def State.planObjects (s : State) (ctx : BitVec 16) (m : List Cell) (offs : List Nat) (r : List (List Nat) × List Nat)
    (place : List Nat) : Option (State × List (Nat × Option ObjId)) :=
  let try_ := fun (s : State) => s.placeObjects ctx m offs r place (List.range offs.length)
  let exact := fun (x : Nat × Option ObjId) =>
    let (home, lvl) := imageHome m offs r place x.1
    x.2.any (fun o => o.1 == padOf home lvl)
  match try_ s with
  | some (s1, pl) => if pl.all exact then some (s1, pl) else try_ (s.collectPads ctx 1 (place.map (BitVec.ofNat 9)))
  | none => try_ (s.collectPads ctx 1 (place.map (BitVec.ofNat 9)))

/-- A serial pointer's new value. -/
def newPtr (m : List Cell) (offs : List Nat) (pl : List (Nat × Option ObjId)) : Nat → W64 → W64
  | 0, p => p
  | fuel + 1, p =>
    match serialOf p with
    | none => p
    | some i => match pl.find? (fun x => x.1 == i) with
      | some (_, some o) => mkPtr o.1.lvl o.2
      | some (_, none) => newPtr m offs pl fuel (getW m (offs.getD i 0 + 16))
      | none => 0

/-- Write an object into its place, or the dirty bytes of a copy without room into its canonical object, which `home`, the core that the copy
belongs to, reaches (R342, R351). -/
def State.putObject (s : State) (ctx : BitVec 16) (m : List Cell) (off : Nat) (f : W64 → W64) (home : BitVec 9) (o : Option ObjId) : State :=
  let w0 := getW m (off + 8)
  let w1 := if hdrC w0 then f (getW m (off + 16)) else getW m (off + 16)
  let n := (hdrLen w0).toNat
  let raw := Mem.range m (off + 0x20) n
  let pay := if hdrKind w0 = 1 then
      (List.range (n / 8)).foldl (fun l k =>
        let p := getW m (off + 0x20 + 8 * k)
        if f p = p then l else Mem.writeN l (8 * k) 8 (f p).toNat) raw
    else raw
  let mask := getAt m (off + 0x20 + roundUp 16 n) ((n + 7) / 8)
  let dirty := if hdrC w0 && hdrD w0 then (List.range n).filter (fun k => mask.testBit k) else []
  match o with
  | some o =>
    let p := s.pad o.1
    s.setPad { p with
      mem := Mem.fill p.mem o.2 (16 + n) (putSeq 0 [(8, w0.toNat), (8, w1.toNat)] ++ shiftCells 16 pay),
      dirty := dirty.foldl (fun l k => insertOff (o.2 + 16 + k) l) p.dirty }
  | none =>
    match asPlaced ctx home (mergeBytes w1 (dirty.map (fun k => (k, Mem.read pay k)))) s with
    | .ok _ t => t
    | .error e t => (s.knowing t).memError 6 ctx 0xFFFF 0x152 e

/-- The merge of a MSG record at an offset, with the offset after it (R349). -/
def mergeAt (ctx : BitVec 16) (m : List Cell) (off : Nat) : Merge × Nat :=
  let n := getAt m (off + 8) 4
  let k := (n + 7) / 8
  let mask := getAt m (off + 96 + roundUp 16 n) k
  ({ ctx := ctx, addr := getW m off, len := n,
     bytes := ((List.range n).filter (fun i => mask.testBit i)).map (fun i => (i, Mem.read m (off + 96 + i))) },
   msgEnd m off)

def State.applyRecords (s : State) (ctx : BitVec 16) (m : List Cell) : Nat → Nat → State
  | 0, _ => s
  | n + 1, off =>
    let x := mergeAt ctx m off
    (s.applyMerge x.1).applyRecords ctx m n x.2

/-- A logical core from its record: the launch values, the registers, its pointers as `f` gives them; `bars` is what is known of its arrivals
beside the record. -/
def State.restoredCore (s : State) (id : BitVec 32) (ctx : BitVec 16) (h : BitVec 512) (ssc : W64) (l pcid : Nat)
    (r : List Cell) (f : W64 → W64) (bars : Vector BarRec 4) : LCore :=
  let base := { s.installed id ctx h l pcid 0 with root := 0, bars := bars }
  if bits (getAt r 4 4) 12 12 = 1 then { base.leave with run := .retired }
  else
    let c := base.loadRecord r
    { c with
      ssc := ssc, p := c.p.map (fun p => { p with ptr := f p.ptr }), root := f c.root,
      st := c.st.map (fun s => { s with entry := mapEntry f s.entry }),
      tags := Vector.ofFn (fun (i : Fin 64) => if (getW r 0xA70).getLsbD i.val then Tag.ready else Tag.idle) }

/-- Arrivals of a restored gang: those not waited for, in the barrier's present phase (R351 step 7). -/
def arrivedIn (g : Gang) (cores : List LCore) (n : Fin 4) : List (BitVec 16) :=
  (cores.filter (fun c => c.run != .retired && c.unwaited n == some (g.phase.get n))).map (·.lcid)

def Gang.withArrivals (g : Gang) (cores : List LCore) : Gang :=
  { g with count := Vector.ofFn (fun (n : Fin 4) => arrivedIn g cores n) }

/-- The gang a header restores: the queue and TAG of the request, the counter of the image (R351). -/
def State.restoredGang (s : State) (ctx : BitVec 16) (m : List Cell) (cores : List Nat) : Gang :=
  let w := s.mg.satctl
  let h := imgLhdr m
  { Gang.none s.nextGang with
    tag := BitVec.ofNat 32 (bits w.toNat 63 32), queue := BitVec.ofNat 8 (bits w.toNat 31 24), ctx := ctx, hdr := h,
    ca := getW m 0xA0, l := gangSize (hWfe h), pcids := cores.map (BitVec.ofNat 9),
    phase := Vector.ofFn (fun (i : Fin 4) => getAt m (0xB0 + 8 * i.val) 8) }

/-- LEN of the pointer registers of a gang's members, read from the headers. -/
def State.fillMembers (s : State) (id : BitVec 32) : State :=
  (s.memberList id).foldl (fun s c => s.onCore (fun x => x.is id c.lcid) (fun s => s.modCur (fun c => c.withLens s))) s

/-- The headers of pads in which P stands are marked: a restore has brought some of them (R25, R195). -/
def State.remark (s : State) : State :=
  { s with marked := (s.marked ++ s.pads.flatMap (fun p =>
      (p.objects.filter (fun o => (p.word o).getLsbD 46)).map (fun o => (⟨.pad p.id o, 0, 0, 0⟩ : PinSpot)))).dedup }

/-- A portable restore onto granted cores (R351); none where its objects find no room. The copies without room are merged once every object
stands in its place (R342). -/
def State.restorePortable (s : State) (ctx : BitVec 16) (m : List Cell) (cores nom : List Nat) : Option State :=
  let h := imgLhdr m
  let l := gangSize (hWfe h)
  let place := placement l cores nom
  let g := s.restoredGang ctx m cores
  let s1 := { (s.createCtx ctx).takePads ctx cores with nextGang := s.nextGang + 1 }
  let (no, oo, _) := (sectionOf m 2).getD (0, 0, 0)
  let offs := objOffsets m no oo
  let reach := imageReach m offs l
  (s1.planObjects ctx m offs reach place).map fun (s2, pl) =>
    let f := newPtr m offs pl (no + 1)
    let t := ((sectionOf m 5).map (fun x => x.2.1)).getD 0
    let s3 := (List.range 256).foldl (fun s k => s.setTidEntry ctx (BitVec.ofNat 8 k)
      (mapEntry f (BitVec.ofNat 512 (getAt m (t + 64 * k) 64)))) s2
    let put := fun (s : State) (x : Nat × Option ObjId) =>
      s.putObject ctx m (offs.getD x.1 0) f (imageHome m offs reach place x.1).1 x.2
    let s4 := (pl.filter (fun x => x.2.isNone)).foldl put ((pl.filter (fun x => x.2.isSome)).foldl put s3)
    let (nm, mo, _) := (sectionOf m 3).getD (0, 0, 0)
    let s5 := s4.applyRecords ctx m nm mo
    let idx := fun (i : Nat) => pl.filterMap (fun x =>
      let off := offs.getD x.1 0
      match x.2 with
      | some o => if hdrC (getW m (off + 8)) ∧ getAt m (off + 6) 2 = i then
          some (f (getW m (off + 16)), mkPtr o.1.lvl o.2) else none
      | none => none)
    let lcs := (List.range l).map (fun i =>
      let c := s5.restoredCore g.id ctx h (getW m 0x88) i (place.getD i 0) (coreRecord m i) f LCore.cleared.bars
      if c.run == .retired then c else { c with know := s5.applied, cidx := idx i })
    (({ s5 with gangs := s5.gangs ++ [g.withArrivals lcs] }.addCores lcs).fillMembers g.id).remark

/-- The header offsets of a core pad that the `cxsave` records of a logical core pin, from CXPIN (R355). -/
def cxpinsOf (m : List Cell) (pcid lcid : Nat) : List W64 :=
  let (np, po, _) := (sectionOf m 6).getD (0, 0, 0)
  ((List.range np).filter (fun k => getAt m (po + k * rawPadSize) 2 == pcid)).flatMap (fun k =>
    (List.range 128).filterMap (fun j =>
      let w := getAt m (po + k * rawPadSize + 16 + 0x48400 + 8 * j) 8
      if bits w 48 48 = 1 ∧ bits w 47 32 = lcid then some (mkPtr 0 (bits w 31 0)) else none))

/-- What an in-place record has no field for, as the pre-emption has kept it (R354): a task handed over, pins in the cluster and die pads, the
superstep timer, which stands while the core is off the die (R265), a wait at `sstep`, the handler of a late fault and faults put off, first of
them the fault of a complete entry that waited to be taken: the entries before it go on first (R330). A late fault whose entry is not complete
arises again when the entry issues. -/
def LCore.withHeld (c x : LCore) (gtc cut : Nat) : LCore :=
  { c with
    handed := x.handed, cxpins := c.cxpins ++ x.cxpins.filter (fun p => ptrLvl p != 0), debug := x.debug, timer := gtc - (cut - x.timer), overrun := x.overrun,
    blk := match x.blk with
      | some (.sstep p) => some (.sstep p)
      | _ => none
    handler := x.handler, taken := x.taken, acks := x.acks, lost := x.lost, late := none,
    posts := (x.late.filter (fun l => (c.entryOf l.seq).any (fun e => e.state == .complete))).toList ++ x.posts }

/-- A core restored in place: its in-place record, and what the pre-emption kept beside it (R354, R355); the words of its port enter it
again afterwards. -/
def State.inPlaceCore (s : State) (id : BitVec 32) (ctx : BitVec 16) (h : BitVec 512) (ssc : W64) (l pcid : Nat)
    (cut : Nat) (m r : List Cell) (held : Option LCore) : LCore :=
  let c0 := s.restoredCore id ctx h ssc l pcid r (fun p => p) (held.elim LCore.cleared.bars (·.bars))
  if c0.run == .retired then c0
  else
    let c := { c0.loadExtension r true with pc := getW r 0x10, cxpins := cxpinsOf m pcid l }
    match held with
    | some x => c.withHeld x s.gtc cut
    | none => c

/-- Words that were held at their targets are held there again, and those that waited behind them wait (R250, R354). -/
def holdAgain (was now : List PortWord) : List PortWord :=
  if was.any (·.held) then
    now.zipIdx.map (fun (w, k) =>
      match (was.drop k).head? with
      | some x => { w with left := x.left, held := x.held, due := x.due }
      | none => { w with left := false })
  else now

/-- The recorded words of a member enter its port again (R355, R356). -/
def State.reenter (s : State) (id : BitVec 32) (lcid : BitVec 16) (r : List Cell) (held : Option LCore) : State :=
  s.onCore (fun c => c.is id lcid && c.run == .running) (fun s =>
    (s.attempt (enterWords (recPort r))).modCur (fun c => { c with port := holdAgain (held.elim [] (·.port)) c.port }))

/-- The entries of a restored core's ring that are not complete issue again (R354, R355). -/
def State.reissueHere (s : State) : State :=
  if s.cur.handler ≠ 0 then s else (s.modCur (fun c => c.requeue (c.ring.filter (fun r => r.state != .complete)))).pump

/-- The restore of an in-place image on its own cores (R353, R354). A member whose finished `sstep` a handler had called it away from was one
superstep behind the SSC of the others, and is so again (R345). -/
def State.restoreInPlace (s : State) (ctx : BitVec 16) (m : List Cell) (held : HeldImage) : State :=
  let place := imagePlaces m held
  let cores := held.gang.pcids.map (·.toNat)
  let o := held.gang
  let g := { s.restoredGang ctx m cores with
    depth := o.depth, join := o.join, doneJoin := o.doneJoin, doneVote := o.doneVote, arriveAt := o.arriveAt,
    shrinks := o.shrinks }
  let (np, po, _) := (sectionOf m 6).getD (0, 0, 0)
  let base := ((held.cores.find? (fun c => c.run != .retired)).map (·.ssc)).getD 0
  let s1 := { (s.createCtx ctx).takePads ctx cores with nextGang := s.nextGang + 1, images := s.images.filter (fun i => i != held) }
  let s2 := (List.range np).foldl (fun s k =>
    s.setPad (padOfRecord (Mem.range m (po + k * rawPadSize) rawPadSize) held.pads)) s1
  let lcs := (List.range g.l).map (fun i =>
    let x := held.cores.find? (fun c => c.lcid.toNat == i)
    s2.inPlaceCore g.id ctx g.hdr (getW m 0x88 + x.elim 0 (fun c => c.ssc - base)) i (place.getD i 0) (getAt m 0x90 8) m (coreRecord m i) x)
  let s2' := (({ s2 with gangs := s2.gangs ++ [(g.withArrivals lcs)] }.addCores lcs).fillMembers g.id).remark
  let s3 := (List.range g.l).foldl (fun s i => s.reenter g.id (BitVec.ofNat 16 i) (coreRecord m i)
    (held.cores.find? (fun c => c.lcid.toNat == i))) s2'
  (s3.memberList g.id).foldl (fun s c =>
    if c.run == .running then s.onCore (fun x => x.is g.id c.lcid) State.reissueHere else s) s3

/-- OP 4: the checks, then the restore; it stays pending until its cores and barrier groups are free (R351, R353, R10). -/
def State.restoreNow (s : State) : State :=
  let w := s.mg.satctl
  let q := BitVec.ofNat 8 (bits w.toNat 31 24)
  let ctx := (s.queue q).ctx
  let img := s.mg.satimg
  match s.imgLen ctx img with
  | (none, t) => t.endRequest 2
  | (some len, t) =>
    match t.trySnap ctx img len with
    | (none, t) => t.endRequest 2
    | (some m, s1) =>
      if len < getAt m 0xD0 8 ∨ len < 0x100 then s1.endRequest 2
      else
        match s1.restoreFault ctx m with
        | some sts => s1.endRequest sts
        | none =>
          if getAt m 6 1 = 1 then
            match s1.imageAt ctx img with
            | none => s1.endRequest 5
            | some held =>
              let cores := held.gang.pcids.map (·.toNat)
              if cores.all (fun c => s1.coreFree ctx c) && decide (s1.groupsUsed + 1 + hNlb (imgLhdr m) ≤ 64) then
                (s1.restoreInPlace ctx m held).endRequest 0
              else s
          else
            match s1.kernelOf ctx (imgLhdr m) with
            | none => s1.endRequest 6
            | some (_, k) =>
              match (if s1.heldForSenior.isSome then none else s1.grant ctx (imgLhdr m) k.nom) with
              | none => s
              | some cores =>
                match s1.restorePortable ctx m cores k.nom with
                | none => s1.endRequest 7
                | some s2 => s2.endRequest 0

/-- A restore that waits for its cores is tried again. -/
def State.retryRestore (s : State) : State :=
  if bits s.mg.satctl.toNat 1 0 = 1 ∧ bits s.mg.satctl.toNat 19 16 = 4 then s.restoreNow else s

/-- OP 5: the pads of an in-place image are released (R354). Its gang has come to its end, so shrinks that waited for it complete with nothing
done (R280). -/
def State.releaseImage (s : State) : State :=
  let q := BitVec.ofNat 8 (bits s.mg.satctl.toNat 31 24)
  let ctx := (s.queue q).ctx
  if (s.imgLen ctx s.mg.satimg).1.isNone then (s.imgLen ctx s.mg.satimg).2.endRequest 2 else
  match s.imageAt ctx s.mg.satimg with
  | none => s.endRequest 5
  | some held =>
    let s1 := { s with images := s.images.filter (fun i => i != held) }.dropPads
    (held.gang.shrinks.foldl (fun s x => s.completePacket x.queue x.tag x.ctx x.ca 1) s1).endRequest 0

/-! ### Requests (R340) -/

/-- A request that names a gang: it must run, with no ended member (R341 STS 0x01). -/
def State.gangRequest (s : State) (q : BitVec 8) (tag : BitVec 32) (f : Gang → State → State) : State :=
  match s.oldestGang q tag with
  | none => s.endRequest 1
  | some g => if g.abandoned.isSome then s.endRequest 1 else f g s

/-- A write of SATCTL with an operation (R340). -/
def State.satRequest (s : State) (who : BitVec 18) (q : BitVec 8) (tag : BitVec 32) (op : Nat) : State :=
  if bits s.mg.satctl.toNat 1 0 = 1 ∨ s.mayControl who q = false then s
  else
    let w := BitVec.ofNat 64 (tag.toNat * 2 ^ 32 + q.toNat * 2 ^ 24 + op % 16 * 2 ^ 16 +
      (if op = 0 then s.mg.satctl.toNat % 2 ^ 16 else 1))
    let s1 := { s with mg := { s.mg with satctl := w } }
    if op = 0 then s1
    else if op = 1 ∨ op = 2 then
      s1.gangRequest q tag (fun g s => s.setGang { g with cut := some (BitVec.ofNat 4 op) })
    else if op = 3 then s1.gangRequest q tag (fun g s => s.preempt g.id)
    else if op = 4 then s1.restoreNow
    else if op = 5 then s1.releaseImage
    else s1.endRequest 1

/-- SATCTL OP 1 (R340). -/
def execSatchelFreeze (who : BitVec 18) (q : BitVec 8) (tag : BitVec 32) (s : State) : Host.Outcome State Fault Refusal :=
  runStep (fun s => s.satRequest who q tag 1) s
/-- SATCTL OP 2 (R340). -/
def execSatchelCheckpoint (who : BitVec 18) (q : BitVec 8) (tag : BitVec 32) (s : State) :
    Host.Outcome State Fault Refusal := runStep (fun s => s.satRequest who q tag 2) s
/-- SATCTL OP 3 (R354). -/
def execUrgentPreemption (who : BitVec 18) (q : BitVec 8) (tag : BitVec 32) (s : State) :
    Host.Outcome State Fault Refusal := runStep (fun s => s.satRequest who q tag 3) s
/-- SATCTL OP 4 (R351). -/
def execSatchelRestore (who : BitVec 18) (q : BitVec 8) (tag : BitVec 32) (s : State) :
    Host.Outcome State Fault Refusal := runStep (fun s => s.satRequest who q tag 4) s
/-- SATCTL OP 5 (R354). -/
def execReleaseInPlaceImage (who : BitVec 18) (q : BitVec 8) (tag : BitVec 32) (s : State) :
    Host.Outcome State Fault Refusal := runStep (fun s => s.satRequest who q tag 5) s

end Sys2Proof.Machine
end

