-- ==== Sys2Proof/Machine/Links.lean ====
section
/-! DEFINITION. The links of the package: messages and permits (R281, R282), cross-die timeouts (R284), ports that go down
(R376), power (R372), and the migration of pages (R220, R221). -/

namespace Sys2Proof.Machine

/-! ### Permits (R281, R282) -/

/-- Classes: 0 control, 1 request, 2 response, 3 bulk. -/
def Link.reserve (l : Link) (cls : BitVec 2) : Nat :=
  if cls = 0 then l.control else if cls = 1 then l.request else if cls = 2 then l.response else l.bulk

def Link.addReserve (l : Link) (cls : BitVec 2) (n : Int) : Link :=
  let f := fun (k : Nat) => (k + n).toNat
  if cls = 0 then { l with control := f l.control }
  else if cls = 1 then { l with request := f l.request }
  else if cls = 2 then { l with response := f l.response }
  else { l with bulk := f l.bulk }

/-- The shared permits that a context holds on a direction. -/
def Link.heldBy (l : Link) (ctx : BitVec 16) : Nat := ((l.out.filter (fun m => m.ctx == ctx)).map (·.shared)).sum

/-- What crosses a bridge or a scale-up port (R281). -/
inductive MsgKind where
  | atomic | atomicResponse | acquire | snapshot | merge | notice | stamp | fenceAck | marker | barrier | deposit | permits
  | read | touch | translation | readData | copyData | streamData | writeBack | move
  deriving DecidableEq, Repr

/-- The class of a message of a kind and size (R281): snapshots and merges are control up to 64 bytes. A snapshot is so whether an acquire or a
touch asks for it, and a write-back is bulk whatever its size (DESIGN CHOICE, log entry 156: the table lists touch snapshots and write-backs
above 64 bytes only). -/
def MsgKind.cls (k : MsgKind) (size : Nat) : BitVec 2 :=
  match k with
  | .atomic | .atomicResponse | .acquire | .notice | .stamp | .fenceAck | .marker | .barrier | .deposit | .permits => 0
  | .read | .touch | .translation => 1
  | .snapshot => if size ≤ 64 then 0 else 2
  | .readData => 2
  | .merge => if size ≤ 64 then 0 else 3
  | .copyData | .streamData | .writeBack | .move => 3

/-- The kinds that an input names a message by, in their order; a higher number names none. -/
def MsgKind.all : List MsgKind :=
  [.atomic, .atomicResponse, .acquire, .snapshot, .merge, .notice, .stamp, .fenceAck, .marker, .barrier, .deposit, .permits,
   .read, .touch, .translation, .readData, .copyData, .streamData, .writeBack, .move]

/-- The permits of a message of n bytes. -/
def permits (n : Nat) : Nat := (n + 63) / 64

/-- A message of the class exists: at most 512 bytes, a control message at most 64 (R281). -/
def messageOk (cls : BitVec 2) (size : Nat) : Bool :=
  decide (1 ≤ size) && decide (size ≤ 512) && (cls != 0 || decide (size ≤ 64))

/-- A message takes its permits, from its class's reserve first; it leaves only with all of them (R282). -/
def Link.send (l : Link) (cls : BitVec 2) (ctx : BitVec 16) (size : Nat) : Link :=
  let n := permits size
  let own := min n (l.reserve cls)
  let sh := n - own
  if messageOk cls size = false ∨ l.shared < sh ∨ (sh ≠ 0 ∧ 256 ≤ l.heldBy ctx) then l
  else { l.addReserve cls (-own) with shared := l.shared - sh, out := l.out ++ [⟨cls, ctx, own, sh⟩] }

/-- The permits of the oldest message of that class, context and size come back (R282). -/
def Link.giveBack (l : Link) (cls : BitVec 2) (ctx : BitVec 16) (size : Nat) : Link :=
  match l.out.find? (fun m => m.cls == cls && m.ctx == ctx && m.own + m.shared == permits size) with
  | none => l
  | some m => { l.addReserve cls m.own with shared := l.shared + m.shared, out := l.out.erase m }

def State.onLink (s : State) (link : BitVec 6) (f : Link → Link) : State :=
  if h : link.toNat < 52 then { s with links := s.links.set link.toNat (f s.links[link.toNat]) h } else s

/-- LINK_MESSAGE: a message of a kind is sent in the class of its kind and size; a return of permits needs none (R281, R282). -/
def execLinkMessage (link : BitVec 6) (kind : BitVec 5) (ctx : BitVec 16) (size : BitVec 10) (s : State) :
    Host.Outcome State Fault Refusal :=
  runStep (fun s => match MsgKind.all[kind.toNat]? with
    | some k => if k = .permits then s else s.onLink link (fun l => l.send (k.cls size.toNat) ctx size.toNat)
    | none => s) s

/-- PERMIT_RETURN (R282). -/
def execPermitReturn (link : BitVec 6) (cls : BitVec 2) (ctx : BitVec 16) (size : BitVec 10) (s : State) :
    Host.Outcome State Fault Refusal := runStep (fun s => s.onLink link (fun l => l.giveBack cls ctx size.toNat)) s

/-! ### Timeouts (R284) -/

/-- CROSS_DIE_TIMEOUT (R284): the next request that crosses to another die of the package gets no response within its limit;
its access fails with PEER_TIMEOUT. -/
def execCrossDieTimeout (s : State) : Host.Outcome State Fault Refusal := runStep (fun s => { s with silent := true }) s

/-- LATE_RESPONSE (R284): discarded and counted. -/
def State.lateResponse (s : State) : State :=
  if s.expired = 0 then s
  else { s with expired := s.expired - 1, mg := { s.mg with latecnt := s.mg.latecnt + 1 } }

/-- LATE_RESPONSE (R284). -/
def execLateResponse (s : State) : Host.Outcome State Fault Refusal := runStep State.lateResponse s

/-! ### Ports (R376) -/

/-- A port that is up exhausts its retries, whose number no rule gives: RETRY counts them, UP clears, as every die's LINKSTAT shows, and a type 7
error record of the far-tier die 8, which has the ports, holds the port and the count (R376, R370, R359). -/
def State.portDown (s : State) (port : BitVec 5) : State :=
  match s.mg.linkstat[port.toNat]? with
  | some w =>
    if w.getLsbD 0 then
      let t := (s.useLink port.toNat).setLink port.toNat (fun w => w &&& ~~~(1 : W64))
      t.errorRecordAt 7 0 0xFFFF (srcOf 8 0x1A0) (port.setWidth 64)
        (BitVec.ofNat 64 (bits (t.mg.linkstat.toList.getD port.toNat 0).toNat 31 8))
    else s
  | none => s

/-- LINK_DOWN (R376). -/
def execLinkDown (port : BitVec 5) (s : State) : Host.Outcome State Fault Refusal := runStep (fun s => s.portDown port) s

/-! ### Power (R372) -/

/-- CLOCK_STRETCH (R372): only PWRSTAT tells; no result changes. -/
def execClockStretch (ratio : BitVec 16) (s : State) : Host.Outcome State Fault Refusal :=
  runStep (fun s => { s with mg := { s.mg with pwrstat := ratio.setWidth 64 } }) s

/-! ### Page moves (R220, R221) -/

/-- A page that is mapped in table 4 and not pinned may be moved to another frame (R220, R292): one of the far tier or of the die's own stack, since
the memory of another die is reached only through an imported handle (R11). The engine reads the tables as they stand in memory (R296). -/
def State.movable (s' : State) (ctx : BitVec 16) (va : Nat) : Option (Nat × W64 × Nat) :=
  let s := { s' with held := [] }
  match s.walk s.mg.ctxbase (s.ctxNamed ctx) ctx (va / 65536 * 65536) with
  | .leaf ea pte 4 pa =>
    if pte.getLsbD 12 || pte.getLsbD 15 || !s.isDram pa || foreignFrame s.die.toNat pte pa then none else some (ea, pte, pa)
  | _ => none

/-- A frame that a page may move to: of the far tier or of the die's own stack (R11), present (R319), not retired (R369), and not sealed, since a
sealed frame is never written (R294). -/
def State.mayFill (s : State) (f : Nat) : Bool :=
  s.isDram (f * 65536) && !foreignFrame s.die.toNat 0 (f * 65536) && (s.feat.getLsbD 14 || !isFar (f * 65536)) && !s.seals.contains f && !s.retiredFrames.contains f

/-- PAGE_MOVE_START (R220): the core that moves starts it. -/
def State.startMove (s : State) (ctx : BitVec 16) (va frame : W64) : State :=
  if (s.movable ctx va.toNat).isSome ∧ s.mayFill frame.toNat = true ∧
      s.moves.any (fun m => m.ctx == ctx && m.va.toNat / 65536 == va.toNat / 65536) = false then
    { s with moves := s.moves ++ [⟨s.cur.gang, s.cur.lcid, ctx, va, frame⟩] }
  else s

/-- PAGE_MOVE_START (R220). -/
def execPageMoveStart (ctx : BitVec 16) (va frame : W64) (s : State) : Host.Outcome State Fault Refusal :=
  runStep (fun s => s.startMove ctx va frame) s

/-- The lines of a frame, with their tags, at another frame: compressed lines move in their compressed form (R221). -/
def State.moveFrame (s : State) (old new : Nat) : State :=
  let moved := (s.lineTags.filter (fun t => t.1 / 512 == old)).map (fun t => (t.1 % 512 + new * 512, t.2))
  { s.healLines false (new * 65536) 65536 with
           mem := Mem.fill s.mem (new * 65536) 65536 (Mem.range s.mem (old * 65536) 65536),
           lineTags := moved ++ s.lineTags.filter (fun t => t.1 / 512 != new) }

/-- The far-tier die whose migration engine moves a page: that of the far-tier port concerned (R373, R204). -/
def moverOf (old new : Nat) : Nat :=
  let far := if isFar (new * 65536) then new * 65536 else old * 65536
  if (far - 0x10000000000) / 0x4000000000 < 8 then 8 else 9

/-- The oldest page move under way completes; one that meets an uncorrectable error ends without moving the page, with a
type 3 record (R367), and one whose destination has been sealed ends so too (R294). A frame that another context owned is zeroed first (R300,
R242). The move is one step: the bytes, the entry's FRAME, the owner, a release of the
far-tier die, its interrupt and its trace record (R221, R204, R332, R361). -/
def State.finishMove (s : State) : State :=
  match s.moves with
  | [] => s
  | m :: rest =>
    let s0 := { s with moves := rest }
    let va := m.va.toNat / 65536 * 65536
    match s.movable m.ctx va with
    | none => s0.flushTrace
    | some (ea, pte, pa) =>
      let old := pa / 65536
      let new := m.frame.toNat
      let d := moverOf old new
      if !s.mayFill new then s0.flushTrace
      else if s.badAt (old * 65536) 65536 then
        (({ s0 with free := s0.free + 1 }.errorRecordAt 3 m.ctx 0xFFFF (srcOf d 0x190) (BitVec.ofNat 64 (old * 65536))
          (Config.freeWord s0.free))).flushTrace
      else
        let s1 := (s0.takeFrame pa m.ctx pte 4).moveFrame old new
        let s2 := { s1.ownTableWrite ea (setBits pte 55 16 new) with
          frameOwner := (new, m.ctx) :: s1.frameOwner.filter (fun x => x.1 != new),
          applied := s1.applied.setIfInBounds d (s1.applied.getD d 0 + 1) }
        let s3 := (s2.raiseIrq 3 (BitVec.ofNat 64 va) 0).traceAt 6 m.ctx 0xFFFF (srcOf d 0x190) (BitVec.ofNat 64 va)
          (if isFar (new * 65536) then 1 else 0)
        s3.flushTrace

/-- MIGRATION_COMPLETE (R221). -/
def execMigrationComplete (s : State) : Host.Outcome State Fault Refusal := runStep State.finishMove s

/-- COUNTER_HALVE (R220): every field of every counter halves; a one-bit field becomes 0. -/
def execCounterHalve (s : State) : Host.Outcome State Fault Refusal :=
  runStep (fun s => { s with pageCtrs := s.pageCtrs.map (fun c => { c with cnt := c.cnt / 2, rep := false }) }) s

end Sys2Proof.Machine
end

