-- ==== Sys2Proof/Machine/Observe.lean ====
section
/-! DEFINITION. Observation and errors: trace control (R360, R362), debug control (R363), packet breakpoints (R364), freezing and
the read-out (R366), soft errors (R368), line retirement and scrubbing (R367, R369). -/

namespace Sys2Proof.Machine

/-! ### Trace control (R360) -/

/-- Machine software, or supervisor software of a context. -/
def mayTrace (who : BitVec 18) (ctx : BitVec 16) : Bool :=
  whoPl who == 3 || (whoPl who == 1 && whoCtx who == ctx)

/-- Writable fields of TRCTL. -/
def trctlMask : W64 := 0xFFFF0000FFFF0003

/-- A write of TRCTL: CTX stands while EN is 1; a rise of EN zeroes WR, RD and DROP; before EN falls the records of the present tick are
written (R360, R362). A write that names another
context than the one held belongs to the context it names (R360, "the context named in CTX"). -/
def State.writeTrctl (s : State) (who : BitVec 18) (v : W64) : State :=
  let g := s.mg
  let on := g.trEn
  let ctx := if on then g.trCtx else v.extractLsb' 48 16
  if mayTrace who ctx then
    let w := merge (v &&& trctlMask) (ctx.setWidth 64 <<< 48) 0xFFFF000000000000
    if !on && w.getLsbD 0 then
      { s with mg := { g with trctl := w, trwr := 0, trrd := 0, trdrop := 0 }, trGap := 0, trHeld := [],
               trHoldSince := none, trPend := [] }
    else
      let t := if on && !w.getLsbD 0 then { s with trPend := [] }.writeTraceRecs s.trPend else s
      { t with mg := { t.mg with trctl := w } }
  else s

/-- TRACE_ENABLE (R360): a write of TRCTL with EN = 1. -/
def execTraceEnable (who : BitVec 18) (v : W64) (s : State) : Host.Outcome State Fault Refusal :=
  runStep (fun s => s.writeTrctl who (v ||| 1)) s

/-- TRACE_DISABLE (R360): a write of TRCTL with EN = 0. -/
def execTraceDisable (who : BitVec 18) (v : W64) (s : State) : Host.Outcome State Fault Refusal :=
  runStep (fun s => s.writeTrctl who (v &&& ~~~(1 : W64))) s

/-- A write of TRBASE or TRLEN: ignored while EN is 1 (R360). -/
def State.writeTrace (s : State) (who : BitVec 18) (f : Mgmt → Mgmt) : State :=
  if mayTrace who s.mg.trCtx && !s.mg.trEn then { s with mg := f s.mg } else s

/-- A write of TRRD: where it frees a slot of a full buffer, the gap record takes it (R362). -/
def State.writeTrrd (s' : State) (who : BitVec 18) (v : W64) : State :=
  let s := s'.flushTick
  if mayTrace who s.mg.trCtx then
    let t := { s with mg := { s.mg with trrd := v } }
    if s.mg.trEn && s.mg.trFull && !s.trBusy then t.putGap t.gtc (t.src 0) else t
  else s

/-- TRACE_HOLD_EXPIRY (R362): a writer held for more than 10,000 ticks drops and counts its records; the gap record opens the
next page. -/
def execTraceHoldExpiry (s : State) : Host.Outcome State Fault Refusal := runStep State.expireHold s

/-! ### Debug control (R363) -/

/-- A write of DBGCTL: a reserved MODE is not written (R363, R340). -/
def State.writeDbgctl (s : State) (who : BitVec 18) (q : BitVec 8) (tag : BitVec 32) (mode : Nat) : State :=
  if s.mayControl who q && decide (mode ≤ 3) then
    { s with mg := { s.mg with dbgctl := BitVec.ofNat 64 (tag.toNat * 2 ^ 32 + q.toNat * 2 ^ 24 + mode * 2 ^ 16) } }
  else s

/-- DEBUG_OFF (R363). -/
def execDebugOff (who : BitVec 18) (q : BitVec 8) (tag : BitVec 32) (s : State) : Host.Outcome State Fault Refusal :=
  runStep (fun s => s.writeDbgctl who q tag 0) s
/-- DEBUG_AT_SSM (R363). -/
def execDebugAtSsm (who : BitVec 18) (q : BitVec 8) (tag : BitVec 32) (s : State) : Host.Outcome State Fault Refusal :=
  runStep (fun s => s.writeDbgctl who q tag 1) s
/-- DEBUG_EVERY_BOUNDARY (R363). -/
def execDebugEveryBoundary (who : BitVec 18) (q : BitVec 8) (tag : BitVec 32) (s : State) :
    Host.Outcome State Fault Refusal := runStep (fun s => s.writeDbgctl who q tag 2) s
/-- DEBUG_NEXT_BOUNDARY (R363). -/
def execDebugNextBoundary (who : BitVec 18) (q : BitVec 8) (tag : BitVec 32) (s : State) :
    Host.Outcome State Fault Refusal := runStep (fun s => s.writeDbgctl who q tag 3) s

/-! ### Packet breakpoints (R364) -/

/-- A write of BKREL: the bit clears and BRK counts as clear for this dispatch (R364). -/
def State.releaseBreak (s : State) (who : BitVec 18) (v : W64) : State :=
  let q := v.setWidth 8
  if 256 ≤ v.toNat ∨ s.mayControl who q = false ∨ s.mg.bkstat.getLsbD q.toNat = false then s
  else ((s.setBk q false).setQueue q { s.queue q with released := true }).ageQueue q

/-- BKREL (R364). -/
def execBkrel (who : BitVec 18) (v : W64) (s : State) : Host.Outcome State Fault Refusal :=
  runStep (fun s => s.releaseBreak who v) s

/-! ### Freezing (R366) -/

/-- FREEZE by machine software (R366): every clock stops. -/
def execFreeze (who : BitVec 18) (s : State) : Host.Outcome State Fault Refusal :=
  runStep (fun s => if whoPl who = 3 then { s with frozen := true } else s) s

/-- The freeze input (R366). -/
def execFreezeInput (s : State) : Host.Outcome State Fault Refusal := runStep (fun s => { s with frozen := true }) s

/-- The in-place record of a physical core's logical core, with both banks, then its RAWPAD (R366, R347, R355). -/
def State.readCore (s : State) (c : LCore) : BitVec 9 × List Host.Cell :=
  (c.pcid, c.inPlaceRecord s.die s.pkg c.pc c.status true ++ shiftCells inPlaceSize (s.rawPad c.pcid))

/-- Each physical core that runs a logical core: the one that moves, and the first held of each other. -/
def firstOfEach : List LCore → List (BitVec 9) → List LCore
  | [], _ => []
  | c :: l, seen =>
    if c.run != .running || seen.contains c.pcid then firstOfEach l seen
    else c :: firstOfEach l (c.pcid :: seen)

/-- TEST_ACCESS_READOUT (R366): only of a frozen part; it changes nothing else. -/
def State.testReadout (s : State) : State :=
  if s.frozen then { s with readout := (firstOfEach s.allCores []).map s.readCore } else s

/-- TEST_ACCESS_READOUT (R366). -/
def execTestAccessReadout (s : State) : Host.Outcome State Fault Refusal := runStep State.testReadout s

/-! ### Errors -/

/-- A fresh vector value the spec leaves open. -/
def State.freeVec (s : State) : VWord := Config.freeVec s.free

/-- The value that a unit of R368 holds is lost: a free value stands in its place, with reserved fields zero (R5). -/
def LCore.lose (c : LCore) (unit n row : Nat) (w : W64) (v : VWord) : LCore :=
  let r5 := BitVec.ofNat 5 n
  if unit = 1 then c.setX r5 w
  else if unit = 2 then c.setP (BitVec.ofNat 4 n) ⟨w, w.setWidth 32, 0⟩
  else if unit = 3 then (if n < 32 then c.setV r5 v else c.setM (BitVec.ofNat 3 n) w)
  else if unit = 4 then
    let t := BitVec.ofNat 4 n
    c.setT t ((c.getT t).setRow (row % 32) ((v ++ v).toNat))
  else if unit = 5 then
    (if n < 4 then
      let a := BitVec.ofNat 2 n
      c.setA a { c.getA a with cells := Vector.ofFn (fun i => if i.val / 32 = row % 32 then w else (c.getA a).cells.get i) }
    else
      let k := BitVec.ofNat 2 n
      c.setK k { c.getK k with pairs := (c.getK k).pairs.set (row % 32) w (Nat.mod_lt _ (by decide)) })
  else if unit = 6 then
    let q := BitVec.ofNat 4 n
    c.setQ q { c.getQ q with word := w }
  else if unit = 7 then
    { c with ring := c.ring.map (fun r => if r.seq.toNat % 64 = n % 64 then { r with xa := w, xb := w } else r) }
  else if unit = 8 then
    let t := BitVec.ofNat 6 n
    match c.getTag t with
    | .running k =>
      let e := v &&& entryMask
      c.setTag t (.running { k with
        dst := w, src := w, shape := if k.kind = .xgath then w &&& ~~~0xFF00000000 else w
        fmode := w &&& ~~~fmodeReserved, ssc := w, dstE := e, srcE := e, idxE := e })
    | _ => c
  else c

/-- SOFT_ERROR (R368): the value is lost, a type 5 record is written, and MACHINE_CHECK waits for the running core's next point. -/
def State.softError (s : State) (unit : BitVec 4) (synd : W64) : State :=
  if unit.toNat = 0 ∨ 8 < unit.toNat ∨ s.cur.run ≠ .running then s
  else
    let v := synd &&& 0xFFFFFF
    let s1 := s.modCur (fun c => c.lose unit.toNat (bits v.toNat 7 0) (bits v.toNat 15 8) (Config.freeWord s.free) s.freeVec)
    let s2 := { s1 with free := s1.free + 1 }
    (s2.errorRecord 5 s.cur.ctx s.cur.lcid s.cur.pcid.toNat 0 v).modCur
      (fun c => { c with lost := c.lost ++ [⟨cMACHINE_CHECK, unit.setWidth 64, v⟩] })

/-- SOFT_ERROR (R368). -/
def execSoftError (unit : BitVec 4) (synd : W64) (s : State) : Host.Outcome State Fault Refusal :=
  runStep (fun s => s.softError unit synd) s

/-- Spare lines of the pseudo-channel of a line that are in use (R369). -/
def State.spares (s : State) (line : Nat) : Nat :=
  (s.spared.filter (fun l => Config.pseudoChannel l == Config.pseudoChannel line)).length

/-- A line of memory holds a sector that has failed (R367). -/
def State.failedLine (s : State) (line : Nat) : Bool := s.badSectors.any (fun k => k / 4 == line)

/-- LINE_RETIREMENT (R369): a failed line goes to a spare, or its frame is retired. -/
def State.retireLine (s : State) (pa : W64) : State :=
  let line := pa.toNat / 128
  if s.failedLine line = false ∨ s.isDram pa.toNat = false then s
  else
    let bad := s.badSectors.filter (fun k => k / 4 != line)
    let a := BitVec.ofNat 64 (line * 128)
    if s.spares line < 32 then
      { s with badSectors := bad, retiredLines := line :: s.retiredLines,
               spared := line :: s.spared }.errorRecordAt 4 0 0xFFFF (memSrc pa.toNat) a 0
    else
      { s with badSectors := bad, retiredFrames := (line / 512) :: s.retiredFrames }.errorRecordAt 4 0 0xFFFF (memSrc pa.toNat) a 1

/-- LINE_RETIREMENT (R369). -/
def execLineRetirement (pa : W64) (s : State) : Host.Outcome State Fault Refusal := runStep (fun s => s.retireLine pa) s

/-- A pad sector as an input names it, and as a record of its error does: the level in [63:61], the number of the core or cluster in [57:32],
the offset in [31:0] (DESIGN CHOICE: R370 speaks of physical addresses, which pads have none of). -/
def padOfKey (a : W64) : PadId × Nat :=
  let n := bits a.toNat 57 32
  (if ptrLvl a = 0 then .core n else if ptrLvl a = 1 then .cluster n else .die, bits a.toNat 31 0)

/-- The unit of the janitor of a pad (R359). -/
def PadId.unit : PadId → Nat
  | .core n => n
  | .cluster n => 0x160 + n
  | .die => 0x152

/-- The part has such a pad, and the offset lies in it (R1). -/
def PadId.holds : PadId → Nat → Bool
  | .core n, off => decide (n < 320) && decide (off < padSize 0)
  | .cluster n, off => decide (n < 20) && decide (off < padSize 1)
  | .die, off => decide (off < padSize 2)

/-- An error is found without a consumer: a type 3 record with a free syndrome (R367, R370). -/
def State.foundBad (s : State) (src : BitVec 16) (a : W64) : State :=
  { s with free := s.free + 1 }.errorRecordAt 3 0 0xFFFF src a (Config.freeWord s.free)

/-- An uncorrectable error in a sector of memory. -/
def State.badMemory (s : State) (pa : Nat) : State :=
  if s.isDram pa then
    { s with badSectors := pa / 32 :: s.badSectors.filter (· != pa / 32) }.foundBad (memSrc pa) (BitVec.ofNat 64 (pa / 32 * 32))
  else s

/-- An uncorrectable error in a sector of a pad. -/
def State.badPad (s : State) (a : W64) : State :=
  let (id, off) := padOfKey a
  if id.holds off then { s with badPads := (id, off / 32) :: s.badPads.filter (· != (id, off / 32)) }.foundBad (s.src id.unit) a
  else s

/-- A parity error in a function of the running core's instruction pad: it is discarded and refilled without a trap; where the refill
fails, the next entry copies it in (R367, R108). -/
def State.refill (s : State) (start : W64) : State :=
  match s.residentAt start with
  | none => s
  | some r =>
    match fetchWords start.toNat (r.len / 4) s with
    | .ok ws t => { t with ipad := t.ipad.map (fun q => if q == r then { q with words := ws } else q) }
    | .error _ t => { s.knowing t with ipad := s.ipad.filter (fun q => q != r) }

/-- SCRUBBING: an error that nobody consumes, by its kind in bits [60:58]: 0 uncorrectable and 1 corrected in memory, 2 and 3 the same in a pad, 4 a parity
error in an instruction pad, 5 one in a translation buffer, 6 corrected in the operand store of the running core (R367). -/
def State.scrub (s : State) (key : W64) : State :=
  let kind := bits key.toNat 60 58
  let pa := bits key.toNat 57 0
  let a : W64 := key &&& 0xE3FFFFFFFFFFFFFF
  if kind = 0 then s.badMemory pa
  else if kind = 1 then (if s.isDram pa then s.corrected (memSrc pa) (BitVec.ofNat 64 (pa / 32 * 32)) else s)
  else if kind = 2 then s.badPad a
  else if kind = 3 then
    (if (padOfKey a).1.holds (padOfKey a).2 then s.corrected (s.src (padOfKey a).1.unit) a else s)
  else if kind = 4 then s.refill (BitVec.ofNat 64 pa)
  else if kind = 5 then { s with held := s.held.filter (fun h => h.pa != pa) }
  else if kind = 6 then s.corrected (s.src s.cur.pcid.toNat) a
  else s

/-- SCRUBBING (R367). -/
def execScrubbing (key : W64) (s : State) : Host.Outcome State Fault Refusal := runStep (fun s => s.scrub key) s

end Sys2Proof.Machine
end

