-- ==== Sys2Proof/Machine/Sha.lean ====
section
/-! DEFINITION. SHA-256, which the spec names for signatures and measurements (R322, R379) and does not write out: it is PRESUMED to be
that of FIPS 180-4 (log entry 15). Its constants are computed from the primes, and a round is written on two registers of four words. -/

namespace Sys2Proof.Machine

/-- From r upwards, the root of degree k of x, rounded down, found bit by bit from bit n - 1. -/
def rootBits (k x : Nat) : Nat → Nat → Nat
  | 0, r => r
  | n + 1, r => rootBits k x n (if (r + 2 ^ n) ^ k ≤ x then r + 2 ^ n else r)

/-- The first 64 primes. -/
def shaPrimes : List Nat := (List.range 312).filter (fun p => decide (2 ≤ p) && (List.range p).all (fun d => decide (d < 2) || p % d != 0))

/-- 32 bits of the fraction of a root of each prime. -/
def shaFractions (k : Nat) (primes : List Nat) : List Nat := primes.map (fun p => rootBits k (p * 2 ^ (32 * k)) 36 0 % 2 ^ 32)

/-- The bits of a word turned right by each distance of a list, added without carries. -/
def turned (turns : List Nat) (x : BitVec 32) : BitVec 32 := turns.foldl (fun y n => y ^^^ x.rotateRight n) 0

/-- The register that a hash goes through: four words that the sums enter, and the four that these leave into, newest first. -/
structure ShaReg where
  hi : List (BitVec 32)
  lo : List (BitVec 32)
  deriving DecidableEq, Repr

/-- The register of eight numbers. -/
def ShaReg.ofNats (l : List Nat) : ShaReg := ⟨(l.take 4).map (BitVec.ofNat 32), (l.drop 4).map (BitVec.ofNat 32)⟩

/-- A word of one of the two halves. -/
def ShaReg.word (l : List (BitVec 32)) (k : Nat) : BitVec 32 := l.getD k 0

/-- One round with the sum of a constant and a message word: each half takes a new word and drops its oldest, that of `hi` going on into
`lo`. The choice between two words by a third, and the majority of three, stand bit by bit. -/
def ShaReg.round (r : ShaReg) (kw : BitVec 32) : ShaReg :=
  let sel := ShaReg.word r.lo 0
  let chosen := ShaReg.word r.lo 2 ^^^ (sel &&& (ShaReg.word r.lo 1 ^^^ ShaReg.word r.lo 2))
  let most := (ShaReg.word r.hi 0 &&& (ShaReg.word r.hi 1 ||| ShaReg.word r.hi 2)) ||| (ShaReg.word r.hi 1 &&& ShaReg.word r.hi 2)
  let sum := kw + chosen + ShaReg.word r.lo 3 + turned [25, 11, 6] sel
  ⟨(sum + most + turned [22, 13, 2] (ShaReg.word r.hi 0)) :: r.hi.take 3, (ShaReg.word r.hi 3 + sum) :: r.lo.take 3⟩

/-- n message words behind those of a block, which stand newest first: each a sum of four earlier ones, two of them turned. -/
def shaWindow : Nat → List (BitVec 32) → List (BitVec 32)
  | 0, w => w
  | n + 1, w =>
    let old := ShaReg.word w 14
    let new := ShaReg.word w 1
    let next := ShaReg.word w 6 + ShaReg.word w 15 + (turned [18, 7] old ^^^ (old >>> 3)) + (turned [19, 17] new ^^^ (new >>> 10))
    shaWindow n (next :: w)

/-- A block of sixteen words, through 64 rounds. -/
def ShaReg.block (r : ShaReg) (w : List (BitVec 32)) : ShaReg :=
  let kw := ((shaWindow 48 w.reverse).reverse).zipWith (fun x k => x + BitVec.ofNat 32 k) (shaFractions 3 shaPrimes)
  let s := kw.foldl ShaReg.round r
  ⟨s.hi.zipWith (· + ·) r.hi, s.lo.zipWith (· + ·) r.lo⟩

/-- The message as one number, its first octet highest, closed by a one bit, zeros to a multiple of 512 bits, and its length in bits in
the last 64. -/
def shaNumber (m : List Byte) : Nat × Nat :=
  let blocks := (m.length + 8) / 64 + 1
  let pad := 64 * blocks - m.length
  (blocks, (m.foldl (fun n b => n * 256 + b.toNat) 0 * 2 + 1) * 2 ^ (8 * pad - 1) + 8 * m.length)

/-- SHA-256 of a list of octets, as a number by its first octet highest (R322, R379). -/
def sha256 (m : List Byte) : BitVec 256 :=
  let (blocks, v) := shaNumber m
  let word := fun (i : Nat) => BitVec.ofNat 32 (v / 2 ^ (32 * (16 * blocks - 1 - i)))
  let r := (List.range blocks).foldl (fun (r : ShaReg) b => r.block ((List.range 16).map (fun i => word (16 * b + i))))
    (ShaReg.ofNats (shaFractions 2 (shaPrimes.take 8)))
  BitVec.ofNat 256 ((r.hi ++ r.lo).foldl (fun n x => n * 2 ^ 32 + x.toNat) 0)

end Sys2Proof.Machine
end

