-- ==== Sys2Proof/Machine/Loader.lean ====
section
/-! DEFINITION. Code objects: the file (R307 to R317), features and signature (R320, R322), loading and unloading by the
root-of-trust core (R318, R323 to R326). -/

namespace Sys2Proof.Machine

open Host (Cell)

/-! ### The file (R307, R308) -/

/-- A check of a load: its failure is a STATUS and a DETAIL (R324). -/
abbrev Check := Except (Nat × Nat) Unit

def need (b : Bool) (status detail : Nat) : Check := if b then .ok () else .error (status, detail)

/-- A structure error in a section; 0 is the header (R324). -/
def needS (b : Bool) (ty : Nat) : Check := need b 5 ty

/-- A staged file: its bytes that are not zero, by offset. -/
abbrev File := List Cell

def File.u (m : File) (off n : Nat) : Nat := getAt m off n
def File.len (m : File) : Nat := File.u m 0x08 8
def File.imgLen (m : File) : Nat := File.u m 0x18 8
def File.codeLen (m : File) : Nat := File.u m 0x20 4
def File.nsect (m : File) : Nat := File.u m 0x24 4
def File.sectOff (m : File) : Nat := File.u m 0x28 8
def File.feat (m : File) : BitVec 512 := BitVec.ofNat 512 (File.u m 0x30 64)
def File.sigOff (m : File) : Nat := File.u m 0x70 8

/-- An entry of the section table. -/
structure Sect where
  ty : Nat
  count : Nat
  off : Nat
  len : Nat
  deriving DecidableEq, Repr

def File.sects (m : File) : List Sect :=
  (List.range (File.nsect m)).map (fun i =>
    let o := File.sectOff m + 24 * i
    ⟨File.u m o 4, File.u m (o + 4) 4, File.u m (o + 8) 8, File.u m (o + 16) 8⟩)

/-- Record sizes by type (R308). -/
def recSizes : List Nat := [0, 1, 32, 32, 8, 16, 2, 16, 16, 72, 16, 16, 8]

def File.sect (m : File) (ty : Nat) : Sect := ((File.sects m).find? (fun x => x.ty == ty)).getD ⟨ty, 0, 0, 0⟩
def File.count (m : File) (ty : Nat) : Nat := (File.sect m ty).count
/-- n bytes at byte `f` of record i of a section. -/
def File.at (m : File) (ty i f n : Nat) : Nat := File.u m ((File.sect m ty).off + i * recSizes.getD ty 0 + f) n

/-- [a, a + n) and [b, b + k) share no byte. -/
def apart (a n b k : Nat) : Bool := n == 0 || k == 0 || decide (a + n ≤ b) || decide (b + k ≤ a)

/-- No two of a list of ranges overlap. -/
def allApart : List (Nat × Nat) → Bool
  | [] => true
  | x :: l => l.all (fun y => apart x.1 x.2 y.1 y.2) && allApart l

/-- The header (R307). -/
def headerCheck (m : File) : Check :=
  needS (File.u m 0x06 2 == 0 && File.u m 0x78 8 == 0 && File.u m 0x10 8 % 65536 == 0 && File.imgLen m != 0 &&
    File.imgLen m % 65536 == 0 && File.codeLen m % 65536 == 0 && decide (File.codeLen m ≤ File.imgLen m) &&
    decide (1 ≤ File.nsect m) && decide (File.nsect m ≤ 12) && File.sectOff m % 8 == 0 &&
    decide (128 ≤ File.sectOff m) && decide (File.sectOff m + 24 * File.nsect m ≤ File.sigOff m) &&
    (File.feat m).getLsbD 0) 0

/-- The section table (R308), in its own order. -/
def tableCheck (m : File) : Check := do
  let l := File.sects m
  for x in l do
    needS (decide (1 ≤ x.ty) && decide (x.ty ≤ 12) && (l.filter (fun y => y.ty == x.ty)).length == 1 &&
      x.len == x.count * recSizes.getD x.ty 0 && decide (x.off + x.len ≤ File.sigOff m) &&
      apart x.off x.len 0 128 && apart x.off x.len (File.sectOff m) (24 * File.nsect m)) x.ty
  needS (l.any (fun x => x.ty == 1)) 1
  needS (allApart (l.map (fun x => (x.off, x.len)))) 0

/-! ### The boot tree and the image (R309, R310) -/

structure BootEnt where
  hdr : Nat
  parent : Nat
  kind : Nat
  len : Nat
  deriving DecidableEq, Repr

/-- n bytes of the image at an image offset. -/
def File.img (m : File) (off n : Nat) : Nat := File.u m ((File.sect m 1).off + off) n

def File.boot (m : File) : List BootEnt :=
  (List.range (File.count m 8)).map (fun i =>
    let h := File.at m 8 i 0 4
    ⟨h, File.at m 8 i 4 4, File.at m 8 i 8 1, File.img m h 5⟩)

def File.object (m : File) (hdr : Nat) : Option BootEnt := (File.boot m).find? (fun b => b.hdr == hdr)
/-- The object whose payload holds [p, p + n). -/
def File.holder (m : File) (p n : Nat) : Option BootEnt :=
  (File.boot m).find? (fun b => decide (b.hdr + 16 ≤ p) && decide (p + n ≤ b.hdr + 16 + b.len))

def BootEnt.fin (b : BootEnt) : Nat := b.hdr + roundUp 16 (16 + b.len)

/-- An object of the image: its header, its region, its kind (R309). -/
def objectCheck (m : File) (b : BootEnt) : Bool :=
  b.hdr % 16 == 0 && decide (b.fin ≤ File.imgLen m) &&
  File.img m b.hdr 8 == b.kind * 2 ^ 40 + b.len && File.img m (b.hdr + 8) 8 == 0 &&
  (if b.kind = 2 then decide (b.fin ≤ File.codeLen m) && b.len % 4 == 0 && decide (b.len ≤ 16384)
   else decide (b.kind ≤ 3) && decide (File.codeLen m ≤ b.hdr))

/-- Objects rise and do not overlap; bytes outside them are zero (R309, R310). -/
def imageCheck (m : File) : Check := do
  let bs := File.boot m
  needS (File.count m 1 == File.imgLen m) 1
  needS (bs.all (objectCheck m)) 1
  needS ((bs.zip (bs.drop 1)).all (fun x => decide (x.1.fin ≤ x.2.hdr))) 8
  let s := File.sect m 1
  needS ((Mem.range m s.off s.len).all (fun c => bs.any (fun b =>
    decide (b.hdr ≤ c.1) && decide (c.1 < b.hdr + 16 + b.len)))) 1

/-! ### Relocation records (R316, R317) -/

structure Reloc where
  place : Nat
  ty : Nat
  link : Nat
  target : Nat
  addend : Int
  deriving DecidableEq, Repr

def File.reloc (m : File) (i : Nat) : Reloc :=
  ⟨File.at m 11 i 0 4, File.at m 11 i 5 1, File.at m 11 i 6 2, File.at m 11 i 8 4, sextNat (File.at m 11 i 12 4) 32⟩

def File.relocs (m : File) : List Reloc := (List.range (File.count m 11)).map (File.reloc m)

/-- The first ABS64 record that names an object lies in this reference object (R310). -/
def File.firstNamer (m : File) (hdr : Nat) : Option BootEnt :=
  ((File.relocs m).find? (fun r => r.ty == 1 && r.target == hdr)).bind (fun r => File.holder m r.place 8)

/-- The objects met from one on by a link, at most n of them. -/
def chainOf (next : BootEnt → Option BootEnt) : Nat → BootEnt → List BootEnt
  | 0, _ => []
  | n + 1, b =>
    match next b with
    | some p => p :: chainOf next n p
    | none => []

/-- The entry that PARENT names. -/
def File.parent (m : File) (b : BootEnt) : Option BootEnt := if b.parent = 0xFFFFFFFF then none else (File.boot m)[b.parent]?

/-- A root: the global table, an object that no ABS64 record names, or one that its own first namers reach only through itself, where every
tree leaves one link out (R310, DEDUCED). -/
def rootOk (m : File) (b : BootEnt) : Bool :=
  (decide (File.count m 10 ≠ 0) && b.hdr == File.at m 10 0 0 4) || (File.firstNamer m b.hdr).isNone ||
    (chainOf (fun x => File.firstNamer m x.hdr) (File.count m 8) b).contains b

/-- PARENT names the first namer, and the links end at a root (R310). -/
def parentOk (m : File) (b : BootEnt) : Bool :=
  (if b.parent = 0xFFFFFFFF then rootOk m b
   else match (File.boot m)[b.parent]? with
      | some p => p.kind == 1 && File.firstNamer m b.hdr == some p
      | none => false) &&
  decide ((chainOf (File.parent m) (File.count m 8) b).length < File.count m 8)

/-- Every pointer the image will hold names a header of the image: a slot that no ABS64 record fills is null (R310). -/
def slotsOk (m : File) (b : BootEnt) : Bool :=
  b.kind != 1 || (List.range (b.len / 8)).all (fun k =>
    File.img m (b.hdr + 16 + 8 * k) 8 == 0 ||
      (File.relocs m).any (fun r => r.ty == 1 && r.place == b.hdr + 16 + 8 * k))

def bootCheck (m : File) : Check :=
  needS ((List.range (File.count m 8)).all (fun i => File.at m 8 i 9 7 == 0) &&
    (File.boot m).all (fun b => parentOk m b && slotsOk m b)) 8

/-- The shape of the word a type names (R317). -/
def relocWord (ty w : Nat) : Bool :=
  let op := w / 2 ^ 25
  let mode := bits w 15 14
  let size := bits w 13 11
  if ty = 2 then op == 5
  else if ty = 3 ∨ ty = 5 then op == 3
  else if ty = 4 then op == 6
  else if ty = 6 then
    (mode == 0 || mode == 3) && ((op == 0x18 && size != 7) || (op == 0x19 && decide (size ≤ 3)) || (op == 0x1A && size == 3))
  else op == 0x1A && mode == 0 && size == 3

/-- The word at an image offset is an `immx`. -/
def isImmx (w : Nat) : Bool :=
  match decodeWf (BitVec.ofNat 32 w) with
  | some (.immx _) => true
  | _ => false

/-- The structure of a relocation record (R317). -/
def relocOk (m : File) (i : Nat) : Bool :=
  let r := File.reloc m i
  File.at m 11 i 4 1 == 0 &&
  (if r.ty = 1 then
    r.place % 8 == 0 && (match File.holder m r.place 8 with
      | some b => b.kind == 1
      | none => false) && r.link == 0xFFFF
  else if 2 ≤ r.ty ∧ r.ty ≤ 7 then
    r.place % 4 == 0 && relocWord r.ty (File.img m r.place 4) &&
    (match File.holder m r.place 4 with
      | some b => b.kind == 2 && (r.place == b.hdr + 16 || !isImmx (File.img m (r.place - 4) 4))
      | none => false) && (r.ty == 5 || r.link == 0xFFFF)
  else false)

/-! ### The other sections (R311 to R315, R320) -/

def funcOk (m : File) (i : Nat) : Bool :=
  let n := File.count m 2
  let k := File.at m 2 i 8 1
  (match File.object m (File.at m 2 i 0 4) with
    | some b => b.kind == 2 && b.len == File.at m 2 i 4 4
    | none => false) &&
  decide (k ≤ 8) && File.at m 2 i 9 7 == 0 &&
  (List.range 8).all (fun j =>
    let f := File.at m 2 i (0x10 + 2 * j) 2
    if j < k then decide (f < n) else f == 0xFFFF)

/-- FUNC (R311): one entry for each object of KIND 2. -/
def funcCheck (m : File) : Check := do
  let n := File.count m 2
  needS (decide (n ≤ 65535) && (List.range n).all (funcOk m) &&
    ((List.range n).map (fun i => File.at m 2 i 0 4)).dedup.length == n &&
    ((File.boot m).filter (fun b => b.kind == 2)).length == n) 2

/-- A kernel's PLACE ranges cover 0 to L − 1 in increasing order (R312). -/
def placesCover (l : Nat) : List (Nat × Nat × Nat) → Nat → Bool
  | [], next => next == l
  | p :: rest, next => p.1 == next && decide (p.1 ≤ p.2.1) && placesCover l rest (p.2.1 + 1)

def File.places (m : File) (k : Nat) : List (Nat × Nat × Nat) :=
  let p0 := File.at m 3 k 4 4
  (List.range (File.at m 3 k 8 4)).map (fun j =>
    (File.at m 5 (p0 + j) 0 4, File.at m 5 (p0 + j) 4 4, File.at m 5 (p0 + j) 8 4))

def kernOk (m : File) (k : Nat) : Bool :=
  let role0 := File.at m 3 k 0 2
  let nrole := File.at m 3 k 2 2
  let nplace := File.at m 3 k 8 4
  let l := File.at m 3 k 0xC 4
  let ntt := File.at m 3 k 0x18 4
  File.at m 3 k 0x1C 4 == 0 && decide (1 ≤ nrole) && decide (role0 + nrole ≤ File.count m 4) &&
  decide (1 ≤ nplace) && decide (File.at m 3 k 4 4 + nplace ≤ File.count m 5) &&
  decide (1 ≤ l) && decide (l ≤ 32768) &&
  (ntt == 0 || decide (File.at m 3 k 0x10 4 + l ≤ File.count m 6)) &&
  decide (File.at m 3 k 0x14 4 + ntt ≤ File.count m 7) &&
  placesCover l (File.places m k) 0 && (File.places m k).all (fun p => decide (p.2.2 < nrole))

/-- The counts and reserved fields of ROLE, PLACE, NOM and TTAB (R312, R313). -/
def tablesCheck (m : File) : Check := do
  needS ((List.range (File.count m 3)).all (kernOk m)) 3
  needS ((List.range (File.count m 4)).all (fun i => decide (File.at m 4 i 0 4 < File.count m 2) && File.at m 4 i 4 4 == 0)) 4
  needS ((List.range (File.count m 5)).all (fun i => File.at m 5 i 12 4 == 0)) 5
  needS ((List.range (File.count m 6)).all (fun i => decide (File.at m 6 i 0 2 < 320) || File.at m 6 i 0 2 == 0xFFFF)) 6
  needS ((List.range (File.count m 7)).all (fun i => decide (File.at m 7 i 8 1 < 16) && File.at m 7 i 9 3 == 0)) 7

/-- A TENS record (R314). -/
def tensOk (feat : BitVec 512) (m : File) (i : Nat) : Bool :=
  let e : BitVec 512 := BitVec.ofNat 512 (File.at m 9 i 8 64)
  File.at m 9 i 3 5 == 0 && File.at m 9 i (8 + 63) 1 == 0 && bits e.toNat 479 475 == 0 && bits e.toNat 471 468 == 0 &&
  (entPtrs e).all (fun f => f == 0 || (match File.object m f.toNat with
    | some b => b.kind != 2
    | none => false)) &&
  (!Entry.valid e || (entryReason feat (fun _ => true) (tensEntry 0 e)).isNone)

/-- GLOB (R315): a root of KIND 1. -/
def globOk (m : File) : Bool :=
  File.count m 10 == 0 ||
    (File.at m 10 0 8 8 == 0 && (match File.object m (File.at m 10 0 0 4) with
      | some b => b.kind == 1 && b.parent == 0xFFFFFFFF && b.len == 8 * File.at m 10 0 4 4
      | none => false))

/-- EMUL (R320). -/
def emulOk (m : File) : Bool :=
  let n := File.count m 12
  (List.range n).all (fun i =>
    let b := File.at m 12 i 0 2
    decide (1 ≤ b) && decide (b ≤ 9) && File.at m 12 i 2 2 == 0 && decide (File.at m 12 i 4 4 < File.count m 2)) &&
  ((List.range n).map (fun i => File.at m 12 i 0 2)).dedup.length == n

/-- The structure of a file (R307 to R317, R320): the header, the table, then the sections in order of type. -/
def structureCheck (feat : BitVec 512) (m : File) : Check := do
  headerCheck m
  tableCheck m
  imageCheck m
  funcCheck m
  tablesCheck m
  bootCheck m
  needS ((List.range (File.count m 9)).all (tensOk feat m)) 9
  needS (decide (File.count m 10 ≤ 1) && globOk m) 10
  needS ((List.range (File.count m 11)).all (relocOk m)) 11
  needS (emulOk m) 12

/-! ### Signature and features (R320, R322) -/

def File.bytes (m : File) (off n : Nat) : List Byte := (List.range n).map (fun i => Mem.read m (off + i))
def File.slot (m : File) : Nat := File.u m (File.sigOff m + 4) 4

/-- s^65537 modulo n (R322). -/
def rsaPower (n s : Nat) : Nat := (List.range 16).foldl (fun x _ => x * x % n) s * s % n

/-- The 384 octets of EMSA-PKCS1-v1_5 for a SHA-256 digest, as an integer: 00 01, 330 octets FF, 00, the DigestInfo prefix of SHA-256, the
digest (R322; the prefix is that of PKCS #1, PRESUMED). -/
def emsaNum (digest : BitVec 256) : Nat :=
  2 ^ 3056 + (2 ^ 2640 - 1) * 2 ^ 416 + 0x3031300d060960864801650304020105000420 * 2 ^ 256 + digest.toNat

/-- RSASSA-PKCS1-v1_5 with SHA-256: SIG is a little-endian integer below the modulus (R322). -/
def sigOk (key covered sig : List Byte) : Bool :=
  let n := Config.keyModulus key
  let s := sig.foldr (fun b a => b.toNat + 256 * a) 0
  decide (s < n) && rsaPower n s == emsaNum (sha256 covered)

/-- Step 1 (R323). -/
def State.fileCheck (s : State) (m : File) (flen : Nat) : Check := do
  need (File.u m 0 4 == 0x314D4854 && File.u m 4 2 == 1 && File.len m == flen && flen == File.sigOff m + 392) 1 0
  need (File.u m (File.sigOff m) 4 == 1) 2 0
  let k := s.rot.keys.toList.getD (File.slot m) ⟨false, false, []⟩
  need k.used 3 (File.slot m)
  need (sigOk k.key (File.bytes m 0 (File.sigOff m)) (File.bytes m (File.sigOff m + 8) 384)) 2 0

/-- The lowest feature bit the file needs that the part lacks and EMUL does not bind (R320). -/
def State.absentBit (s : State) (m : File) : Option Nat :=
  let bound := (List.range (File.count m 12)).map (fun i => File.at m 12 i 0 2)
  (List.range 512).find? (fun b => (File.feat m).getLsbD b && !s.feat.getLsbD b && !bound.contains b)

/-- Step 2 (R323). -/
def State.objectCheck (s : State) (m : File) : Check := do
  structureCheck s.feat m
  match s.absentBit m with
  | some b => .error (4, b)
  | none => pure ()
  let k := s.rot.keys.toList.getD (File.slot m) ⟨false, false, []⟩
  need (k.super || !(File.sects m).any (fun x => x.ty == 12)) 8 (File.slot m)
  need (decide (s.loads.length < 64)) 11 0

/-! ### Pages (R323 step 3) -/

/-- Translate one page of the image for the root-of-trust core: the walk's side effects as for any access. A table that cannot be read gives no
translation, nor does a frame of another die's stack or one that is absent (R11, R373). The part writes the page: D is set with A, for which W
need not stand in a page of code (R292). -/
def State.imagePage (s : State) (ctx : BitVec 16) (va : Nat) (code : Bool) : Option (State × ImagePage) :=
  let acc := if code then accOwn else accStore
  match s.walkFor s.mg.ctxbase (s.ctxNamed ctx) ctx va acc false with
  | (.leaf ea pte tbl pa, s1) =>
    let ok := pte.getLsbD 6 && !pte.getLsbD 15 && s.isDram pa && !foreignFrame s.die.toNat pte pa &&
      (if code then pte.getLsbD 8 && !pte.getLsbD 7 && pte.getLsbD 12 else pte.getLsbD 7 && !pte.getLsbD 8)
    if ok then some ((s1.takeFrame pa ctx pte tbl).setAD ea pte acc, ⟨pa / 65536, pte.getLsbD 14 && s.feat.getLsbD 11, va⟩) else none
  | _ => none

/-- The pages from page k on; the state keeps the walks made before a failure. A code frame that is sealed already is status 9; a data page
on a sealed frame cannot be written (R294) and has the wrong attributes, status 7 (DEDUCED). -/
def State.imagePages (s : State) (ctx : BitVec 16) (base codePages : Nat) : Nat → Nat →
    State × Except (Nat × Nat) (List ImagePage)
  | _, 0 => (s, .ok [])
  | k, n + 1 =>
    match s.imagePage ctx (base + 65536 * k) (decide (k < codePages)) with
    | none => (s, .error (7, k))
    | some (s1, p) =>
      if s.seals.contains p.frame then (s1, .error (if k < codePages then 9 else 7, k))
      else
        let r := s1.imagePages ctx base codePages (k + 1) n
        (r.1, r.2.map (fun l => p :: l))

/-! ### Relocation values (R317, R318) -/

/-- Bits [hi:lo] of an integer. -/
def intBits (z : Int) (hi lo : Nat) : Nat := (z / 2 ^ lo % 2 ^ (hi + 1 - lo)).toNat

def fits32 (z : Int) : Bool := decide (-(2 ^ 31 : Int) ≤ z) && decide (z < 2 ^ 31)

/-- The width and the value that a record writes at its place, in the bits it replaces: (bytes, low bit count, value);
none where its overflow check fails (R317). -/
def relocValue (m : File) (base : Nat) (r : Reloc) : Option (Nat × Nat × Nat) :=
  let s : Int := (base + r.target : Nat)
  let p : Int := (base + r.place : Nat)
  let a := r.addend
  if r.ty = 1 then
    (if a = 0 ∧ (File.object m r.target).isSome = true ∧ base + r.target < 2 ^ 52 then
      some (8, 64, 0x6000000000000000 + base + r.target) else none)
  else if r.ty = 2 then
    (if fits32 (s + a + 0x800) then some (4, 20, intBits (s + a + 0x800) 31 12) else none)
  else if r.ty = 3 then some (4, 12, intBits (s + a) 11 0)
  else if r.ty = 4 then
    (if fits32 (s + a - p + 0x800) then some (4, 20, intBits (s + a - p + 0x800) 31 12) else none)
  else if r.ty = 5 then
    (if r.link < File.count m 11 ∧ (File.reloc m r.link).ty = 4 then
      let h := File.reloc m r.link
      some (4, 12, intBits (((base + h.target : Nat) : Int) + h.addend - ((base + h.place : Nat) : Int)) 11 0)
    else none)
  else if r.ty = 6 then
    let w := File.img m r.place 4
    let sz : Int := 2 ^ (bits w 12 11)
    let lo := s + a - sextNat (intBits (s + a + 0x800) 31 12) 20 * 4096
    let q := lo / sz
    let inRange := if bits w 15 14 = 0 then decide (0 ≤ q) && decide (q ≤ 2047) else decide (-1024 ≤ q) && decide (q ≤ 1023)
    (if lo % sz = 0 ∧ inRange = true then some (4, 11, intBits q 10 0) else none)
  else
    let n := if File.count m 10 = 0 then 0 else File.at m 10 0 4 4
    (if a % 8 = 0 ∧ 0 ≤ a ∧ a / 8 < n ∧ n ≤ 2048 then some (4, 11, intBits (a / 8) 10 0) else none)

/-- A place of the image with its field replaced. -/
def relocBytes (m : File) (r : Reloc) (v : Nat × Nat × Nat) : Nat × Nat × Nat :=
  let old := File.img m r.place v.1
  (r.place, v.1, old - old % 2 ^ v.2.1 + v.2.2 % 2 ^ v.2.1)

/-- Step 4: every record is computed before any byte is written; the first that fails gives its index (R318). -/
def relocAll (m : File) (base : Nat) : Nat → List Reloc → Except (Nat × Nat) (List (Nat × Nat × Nat))
  | _, [] => .ok []
  | i, r :: l =>
    match relocValue m base r with
    | none => .error (6, i)
    | some v => (relocAll m base (i + 1) l).map (fun rest => relocBytes m r v :: rest)

/-! ### Writing (R323 steps 5 and 6) -/

/-- The image as it lies at level 3: headers of the context and this die, and the relocated places. -/
def imageBytes (m : File) (ctx : BitVec 16) (die : BitVec 4) (vals : List (Nat × Nat × Nat)) : List Cell :=
  let s := File.sect m 1
  let raw := Mem.range m s.off s.len
  let hdrs := (File.boot m).foldl (fun c b =>
    Mem.writeN c b.hdr 16 ((mkHdr ctx b.kind b.len).toNat + die.toNat * 2 ^ 112)) raw
  vals.foldl (fun c v => Mem.writeN c v.1 v.2.1 v.2.2) hdrs

/-- A frame filled with a page. -/
def State.fillFrame (s : State) (f : Nat) (cmp : Bool) (bytes : List Cell) : State :=
  let s1 := s.healLines false (f * 65536) 65536
  let s2 := { s1 with mem := Mem.fill s1.mem (f * 65536) 65536 bytes }
  if cmp then s2.retag (f * 65536) 65536 else s2

/-- The pages of an image are written in order. A heap page marks the bitmap of its context first, and one whose bitmap cannot be marked is not
written (R297); STATUS has no value for that (R324). The second value lists the frames that are written. -/
def State.fillPages (s : State) (ctx : BitVec 16) (img : List Cell) : Nat → List ImagePage → State × List Nat
  | _, [] => (s, [])
  | k, p :: l =>
    match s.dirtied s.die.toNat ctx p.va (p.frame * 65536 + p.va % 65536) with
    | some t =>
      let r := (t.fillFrame p.frame p.cmp (Mem.range img (k * 65536) 65536)).fillPages ctx img (k + 1) l
      (r.1, p.frame :: r.2)
    | none => s.fillPages ctx img (k + 1) l

/-- The load record of a file (R311 to R315, R320). -/
def loadRecord (m : File) (ctx : BitVec 16) (base : W64) (frames : List Nat) : LoadRec where
  ctx := ctx
  base := base
  imgLen := File.imgLen m
  codeLen := File.codeLen m
  feat := File.feat m
  funcs := (List.range (File.count m 2)).map (fun i =>
    ⟨File.at m 2 i 0 4, File.at m 2 i 4 4,
      (List.range (File.at m 2 i 8 1)).map (fun j => File.at m 2 i (0x10 + 2 * j) 2)⟩)
  kerns := (List.range (File.count m 3)).map (fun k =>
    ⟨File.at m 3 k 0xC 4,
      (File.places m k).map (fun p => (p.1, p.2.1, File.at m 4 (File.at m 3 k 0 2 + p.2.2) 0 4)),
      if File.at m 3 k 0x18 4 = 0 then [] else
        (List.range (File.at m 3 k 0xC 4)).map (fun l => File.at m 6 (File.at m 3 k 0x10 4 + l) 0 2),
      (List.range (File.at m 3 k 0x18 4)).map (fun j =>
        let t := File.at m 3 k 0x14 4 + j
        ⟨File.at m 7 t 0 4, File.at m 7 t 4 2, File.at m 7 t 6 2, File.at m 7 t 8 1, File.at m 7 t 0xC 4⟩)⟩)
  tens := (List.range (File.count m 9)).map (fun i =>
    (File.at m 9 i 0 2, File.at m 9 i 2 1, BitVec.ofNat 512 (File.at m 9 i 8 64)))
  emul := (List.range (File.count m 12)).map (fun i => (File.at m 12 i 0 2, File.at m 12 i 4 4))
  frames := frames

/-- GTAB (R315, R323). -/
def gtab (m : File) (base : Nat) : Nat :=
  if File.count m 10 = 0 then 0 else 0x6000000000000000 + base + File.at m 10 0 0 4

/-! ### Requests (R323, R324) -/

/-- The mailbox of the request that is served: the oldest submitted, at the address that LDMBOX held when it was (R325). -/
def State.request (s : State) : W64 := s.ldq.headD s.mg.ldmbox
/-- The request can be read (R367, R373). -/
def State.mailOk (s : State) : Bool := s.physOk s.request.toNat 64
/-- A field of the request. -/
def State.mailbox (s : State) (off n : Nat) : Nat := Mem.readN s.mem (s.request.toNat + off) n
def State.mailCtx (s : State) : BitVec 16 := BitVec.ofNat 16 (s.mailbox 0x20 2)
def State.mailCtxOk (s : State) : Bool := s.mailOk && s.mailCtx != 0 && s.mailCtx != 0xFFFF

/-- The request that is served next, an input of its own: the unload of OP 2, else the load, which answers for a bad OP (R325), as for a request
that cannot be read (DESIGN CHOICE, log entry 165: R324 gives that no STATUS). -/
def State.callRequest (s : State) : State :=
  match s.ldq with
  | [] => s
  | a :: _ => { s with inputs := s.inputs ++ [if s.physOk a.toNat 64 = true ∧ Mem.readN s.mem a.toNat 1 = 2 then .unload else .load] }

/-- The end of a request: STATUS and DETAIL, and the interrupt; the next one is served (R323, R325, R332). -/
def State.answer (s : State) (status detail : Nat) : State :=
  let a := s.request
  let t := (s.physStore (a.toNat + 0x28) 1 status).physStore (a.toNat + 0x2C) 4 detail
  { t with ldq := s.ldq.drop 1, loading := none }.callRequest.raiseIrq 2 a (BitVec.ofNat 64 status)

/-- The staged file can be read: one that cannot answers as one of a bad length does (R367; DESIGN CHOICE, log entry 165: R324 gives that no STATUS). -/
def State.stagedOk (s : State) : Bool := s.physOk (s.mailbox 0x08 8) (s.mailbox 0x10 8)
/-- The staged file (R323 step 1). -/
def State.staged (s : State) : File := Mem.range s.mem (s.mailbox 0x08 8) (s.mailbox 0x10 8)

/-- Steps 1 to 3 of a LOAD up to the page walks (R323). -/
def State.loadChecks (s : State) : Check := do
  need (s.mailCtxOk && s.mailbox 0 1 == 1 && s.stagedOk) 1 0
  s.fileCheck s.staged (s.mailbox 0x10 8)
  s.objectCheck s.staged
  need (s.ctxValid s.mailCtx) 7 0xFFFFFFFF
  need (s.mailbox 0x18 8 % 65536 == 0 && decide (s.mailbox 0x18 8 + File.imgLen s.staged ≤ 2 ^ 52)) 7 0

/-- Steps 5 and 6 (R323): the frames of the code region that have been written are sealed (R294). -/
def State.finishLoad (s : State) (j : LoadJob) : State :=
  let m := j.file
  let (s2, written) := (s.createCtx j.ctx).fillPages j.ctx (imageBytes m j.ctx s.die j.vals) 0 j.pages
  let code := ((j.pages.take (File.codeLen m / 65536)).map ImagePage.frame).filter (fun f => written.contains f)
  let s3 := { s2 with seals := code ++ s2.seals,
                      loads := s2.loads ++ [loadRecord m j.ctx (BitVec.ofNat 64 j.base) code] }
  (s3.physStore (s.request.toNat + 0x30) 8 (gtab m j.base)).answer 0 0

/-- The LOAD under way goes on once its checks are done (R325). -/
def State.goOnLoading (s : State) : State :=
  match s.loading with
  | some j => if j.due ≤ s.clk then s.finishLoad j else s
  | none => s

/-- LOAD (R323), steps 1 to 4: the first failure ends it with its STATUS and DETAIL; steps 5 and 6 follow in a later step of the machine, so that
other activity meets a LOAD between them (R325). A request that finds one under way waits. -/
def State.load (s : State) : State :=
  if s.loading.isSome then s else
  let m := s.staged
  let base := s.mailbox 0x18 8
  let ctx := s.mailCtx
  match s.loadChecks with
  | .error e => s.answer e.1 e.2
  | .ok () =>
    match s.imagePages ctx base (File.codeLen m / 65536) 0 (File.imgLen m / 65536) with
    | (s1, .error e) => s1.answer e.1 e.2
    | (s1, .ok pages) =>
      match relocAll m base 0 (File.relocs m) with
      | .error e => s1.answer e.1 e.2
      | .ok vals => { s1 with free := s1.free + 1,
                              loading := some ⟨m, ctx, base, pages, vals, s1.clk + Config.loadTime s1.free⟩ }

/-- LOAD (R323). -/
def execLoad (s : State) : Host.Outcome State Fault Refusal := runStep State.load s

/-- UNLOAD (R326). -/
def State.unload (s : State) : State :=
  let ctx := s.mailCtx
  let base := BitVec.ofNat 64 (s.mailbox 0x18 8)
  if s.loading.isSome then s
  else if s.mailCtxOk = false ∨ s.mailbox 0 1 ≠ 2 then s.answer 1 0
  else if s.gangs.any (fun g => g.ctx == ctx && hKobj g.hdr == base) then s.answer 10 0
  else
    match s.loads.find? (fun r => r.ctx == ctx && r.base == base) with
    | none => s.answer 10 0
    | some r =>
      let starts := r.funcs.map (fun f => base + BitVec.ofNat 64 (f.hdr + 16))
      let s1 := { s with
        loads := s.loads.erase r,
        ipad := s.ipad.filter (fun x => !(x.ctx == ctx && starts.contains x.start)) }
      let s2 := r.frames.foldl (fun s f => s.fillFrame f true []) s1
      { s2 with seals := s2.seals.filter (fun f => !r.frames.contains f) }.answer 0 0

/-- UNLOAD (R326). -/
def execUnload (s : State) : Host.Outcome State Fault Refusal := runStep State.unload s

/-- A request is submitted; it is served when those before it have been answered (R323, R325). -/
def State.submit (s : State) : State :=
  let t := { s with ldq := s.ldq ++ [s.mg.ldmbox] }
  if s.ldq == [] then t.callRequest else t

end Sys2Proof.Machine
end

