-- ==== Sys2Proof/Machine/Manage.lean ====
section
/-! DEFINITION. The root-of-trust core and the management block: key enrolment (R322), firmware (R371), reset, training and recovery (R375,
R376, R378), attestation (R379), and writes of management registers (R374, R377). -/

namespace Sys2Proof.Machine

/-! ### Keys and firmware (R322, R371) -/

/-- Supervisor or machine software. -/
def mayS (who : BitVec 18) : Bool := whoPl who == 1 || whoPl who == 3
def mayM (who : BitVec 18) : Bool := whoPl who == 3
/-- The host. -/
def fromHost (who : BitVec 18) : Bool := whoPl who == 2

/-- A change of the management block of a near-tier die. -/
def State.setMgmt (s : State) (d : Nat) (f : Mgmt → Mgmt) : State :=
  if d = s.die.toNat then { s with mg := f s.mg } else { s with peers := s.peers.setIfInBounds d (f (s.peers.getD d Mgmt.reset)) }

/-- Key enrolment of slots 1 to 7 by machine firmware: a write of KEYENR, which die 0 has (R322, R377). -/
def State.enrolKey (s : State) (who : BitVec 18) (a : W64) : State :=
  if mayM who = false then s
  else
    let s1 := s.setMgmt 0 (fun g => { g with keyenr := a })
    match Config.keyRequest s.mem a with
    | none => s1
    | some (n, sup, key) =>
      if 1 ≤ n ∧ n ≤ 7 then
        { s1 with rot := { s1.rot with keys := s1.rot.keys.setIfInBounds n ⟨true, sup, key⟩ } }
      else s1

/-- KEYENR (R322). -/
def execKeyenr (who : BitVec 18) (a : W64) (s : State) : Host.Outcome State Fault Refusal := runStep (fun s => s.enrolKey who a) s

/-- A firmware image verifies with key slot 0 and carries at least the fused minimum version (R371). -/
def State.imageOk (s : State) (img : List Byte) : Bool :=
  Config.firmwareOk (s.rot.keys.get 0).key img && decide (Config.fusedMinVersion ≤ Config.imageVersion img)

/-- The bytes of memory that machine software has staged. -/
def State.stagedImage (s : State) (a len : W64) : List Byte :=
  (List.range len.toNat).map (fun i => Mem.read s.mem (a.toNat + i))

/-- An update by machine software: verified in full, and only then written over the old image, which takes some time. While one is being
written no other begins (R371). -/
def State.updateFirmware (s : State) (who : BitVec 18) (a len : W64) : State :=
  let img := s.stagedImage a len
  if mayM who && s.rot.writing.isNone && s.physOk a.toNat len.toNat && s.imageOk img then
    { s with free := s.free + 1, rot := { s.rot with writing := some (img, s.clk + Config.updateTime s.free) } }
  else s

/-- FIRMWARE_UPDATE (R371). -/
def execFirmwareUpdate (who : BitVec 18) (a len : W64) (s : State) : Host.Outcome State Fault Refusal :=
  runStep (fun s => s.updateFirmware who a len) s

/-- The update that is being written ends: the new image runs from the next reset (R371). -/
def State.goOnWriting (s : State) : State :=
  match s.rot.writing with
  | some (img, due) => if due ≤ s.clk then { s with rot := { s.rot with flash := img, writing := none } } else s
  | none => s

/-! ### Recovery and reset (R378) -/

/-- FWSTAT of every near-tier die (R377). -/
def State.setFwstat (s : State) (v : W64) : State :=
  { s with mg := { s.mg with fwstat := v }, peers := s.peers.map (fun g => { g with fwstat := v }) }

/-- FWGO: a host write in recovery starts the verification; at any other time it is ignored (R377, R378). -/
def State.fwgo (s : State) (len : W64) : State :=
  if s.rot.recovery = true ∧ s.rot.verifying = none then
    { s with rot := { s.rot with verifying := some len.toNat } }.setFwstat 2
  else s

/-- FWGO (R377). -/
def execFwgo (len : W64) (s : State) : Host.Outcome State Fault Refusal := runStep (fun s => s.fwgo len) s

/-- The bytes of the recovery window that the host has written, with 8 bytes more (R378). -/
def putWindow (w : List Byte) (i : Nat) (v : W64) : List Byte :=
  let w' := w ++ List.replicate (i + 8 - w.length) 0
  w'.take i ++ (List.range 8).map (fun k => BitVec.ofNat 8 (v.toNat / 2 ^ (8 * k))) ++ w'.drop (i + 8)

/-- The first n bytes of the recovery window; bytes that nothing has written are 0. -/
def Rot.image (r : Rot) (n : Nat) : List Byte := r.window.take n ++ List.replicate (n - r.window.length) 0

/-- The LINKSTAT entry of a scale-up or an Ethernet port once it has been trained: a scale-up port whose peer has the number of this package
stays down and shows that number (R376, R378). -/
def trainPort (pkg : BitVec 8) (free port : Nat) : W64 :=
  let (up, peer, delay) := Config.portTrains free port
  if port < 18 ∧ peer = pkg.setWidth 16 then (peer ++ (0 : BitVec 48))
  else if up = false then 0
  else (if port < 18 then peer else 0) ++ delay ++ (1 : BitVec 32)

/-- Bring-up after a firmware image that runs (R378, step 2): the package number, the ports, the far-tier modules; the failures of those are
recorded (R375). -/
def State.bringUp (s : State) : State :=
  let ports := Vector.ofFn (fun p : Fin 26 => trainPort s.straps s.free p.val)
  let far := Config.farTrains s.free
  let record := fun (g : Mgmt) => { g with linkstat := ports, farFailed := ~~~far }
  { s with pkg := s.straps, free := s.free + 1, farPorts := far, mg := record s.mg, peers := s.peers.map record }

/-- A verification ends: the image runs and is written to flash, and bring-up goes on; or FWSTAT shows 3, and the next step
makes it 1 again (R378). An image is at most 1 MiB. -/
def State.endVerify (s : State) : State :=
  match s.rot.verifying with
  | none => s
  | some n =>
    if n ≤ 0x100000 ∧ s.imageOk (s.rot.image n) = true then
      ({ s with rot := { s.rot with flash := s.rot.image n, recovery := false, verifying := none, writing := none } }.setFwstat 0).bringUp
    else { s with rot := { s.rot with verifying := none } }.setFwstat 3

/-- RECOVERY_IMAGE_VERIFIED (R378). -/
def execRecoveryImageVerified (s : State) : Host.Outcome State Fault Refusal := runStep State.endVerify s

/-- A rejected image leaves the part waiting for another (R378). -/
def State.waitAgain (s : State) : State := if s.mg.fwstat = 3 then s.setFwstat 1 else s

/-- The seals of frames go, each once its frame is zeroed (R294). -/
def State.unsealAll (s : State) : State :=
  { s.seals.foldl (fun t f => t.fillFrame f false []) s with seals := [] }

/-- The frames that the owner table names are zeroed before the table is emptied, so that nothing that a context leaves behind is seen by the next
owner (R286, R300; DESIGN CHOICE of the moment, log entry 9). -/
def State.disown (s : State) : State := { (s.frameOwner.map Prod.fst).foldl State.zeroFrame s with frameOwner := [] }

/-- Reset discards pending load requests (R378). What reset does not change: the contents of memory but for sealed frames and those that a context
owns, the tags of its lines, and host memory; failed and retired lines, keys and flash, the fused registers, the straps, and what stands outside
the die. -/
def State.afterReset (s : State) : State :=
  let t := s.unsealAll.disown
  { State.reset with
    inputs := s.inputs.filter (fun i => i != .load && i != .unload), turns := s.turns, mem := t.mem, hostMem := s.hostMem, codeMap := s.codeMap,
    mg := { Mgmt.reset with enset := s.mg.enset }, peers := s.peers.map (fun g => { Mgmt.reset with enset := g.enset }),
    feat := s.feat, die := s.die, pkg := s.pkg, straps := s.straps, farPorts := s.farPorts, lineTags := t.lineTags,
    badSectors := t.badSectors, retiredLines := t.retiredLines, spared := s.spared, retiredFrames := s.retiredFrames,
    rot := { s.rot with recovery := false, verifying := none },
    spdm := s.spdm, roce := s.roce, readout := s.readout, free := s.free }

/-- Reset and bring-up: firmware that verifies runs; else, and after an update that the reset has interrupted, the part is in recovery (R371,
R378). -/
def State.doReset (s : State) : State :=
  let t := s.afterReset
  if s.rot.writing.isNone && s.imageOk s.rot.flash then t.bringUp
  else { t with rot := { t.rot with recovery := true } }.setFwstat 1

/-- RESET (R378). -/
def execReset (s : State) : Host.Outcome State Fault Refusal := runStep State.doReset s

/-! ### Attestation (R379) -/

def State.reply (s : State) (r : SpdmReply) : State := { s with spdm := s.spdm ++ [r] }

/-- The digest of the key slots with their SUPER attributes (R379). -/
def Rot.keyDigest (r : Rot) : BitVec 256 := sha256 (r.keys.toList.flatMap (fun k => Config.slotBytes k.used k.super k.key))

/-- A measurement by its index (R379). -/
def State.measure (s : State) (i : Byte) : Option (BitVec 2560) :=
  if i = 1 then some ((sha256 s.rot.flash).setWidth 2560)
  else if i = 2 then some (BitVec.ofNat 2560 (Config.imageVersion s.rot.flash))
  else if i = 3 then some (s.rot.keyDigest.setWidth 2560)
  else if i = 4 then
    some (BitVec.ofNat 2560 (((List.range 8).map (fun d => (s.dieTables d).enset.toNat * 2 ^ (320 * d))).sum))
  else none

/-- The requests that are answered; sessions are not supported (R379). -/
def spdmCaps : SpdmCaps := ⟨true, true, true, true, false⟩

/-- The digest of all measurements, each of 320 octets by the lowest first, that an answer to a challenge carries (R379; DESIGN CHOICE). -/
def State.measured (s : State) : BitVec 256 :=
  sha256 (([1, 2, 3, 4].filterMap s.measure).flatMap (fun v => (List.range 320).map (fun i => BitVec.ofNat 8 (v.toNat / 2 ^ (8 * i)))))

/-- The answer to a challenge: the digest of the certificate chain, that of the measurements, and the signature over both (R379). -/
def State.challenged (s : State) : SpdmReply :=
  let chain := sha256 Config.certChain
  .challenge chain s.measured (Config.deviceSign chain s.measured)

/-- GET_VERSION: SPDM 1.2 (R379). -/
def execGetVersion (s : State) : Host.Outcome State Fault Refusal := runStep (fun s => s.reply (.version 1 2)) s
/-- GET_CAPABILITIES (R379). -/
def execGetCapabilities (s : State) : Host.Outcome State Fault Refusal := runStep (fun s => s.reply (.capabilities spdmCaps)) s
/-- NEGOTIATE_ALGORITHMS (R379). -/
def execNegotiateAlgorithms (s : State) : Host.Outcome State Fault Refusal :=
  runStep (fun s => s.reply (.algorithms [.rsassa3072] [.sha256])) s
/-- GET_DIGESTS (R379). -/
def execGetDigests (s : State) : Host.Outcome State Fault Refusal :=
  runStep (fun s => s.reply (.digests (sha256 Config.certChain))) s
/-- GET_CERTIFICATE (R379). -/
def execGetCertificate (s : State) : Host.Outcome State Fault Refusal :=
  runStep (fun s => s.reply (.certificate Config.certChain)) s
/-- CHALLENGE (R379). -/
def execChallenge (s : State) : Host.Outcome State Fault Refusal := runStep (fun s => s.reply s.challenged) s
/-- GET_MEASUREMENTS (R379): an index that names no measurement gets none. -/
def execGetMeasurements (i : Byte) (s : State) : Host.Outcome State Fault Refusal :=
  runStep (fun s => match s.measure i with
    | some v => s.reply (.measurement i v)
    | none => s) s

/-! ### The management block (R377) -/

def State.setMg (s : State) (ok : Bool) (f : Mgmt → Mgmt) : State := if ok then { s with mg := f s.mg } else s

/-- A register of a management block that only holds what machine or supervisor software writes (R377, R370). -/
def Mgmt.put (g : Mgmt) (who : BitVec 18) (off : Nat) (v : W64) : Mgmt :=
  let m := mayM who
  let sup := mayS who
  if off = 0x40 ∧ m then { g with ctxbase := v }
  else if off = 0x48 ∧ m then { g with ctxn := v }
  else if off = 0x50 ∧ m then { g with expbase := v }
  else if off = 0x60 ∧ sup then { g with ldmbox := v }
  else if off = 0x70 ∧ sup then { g with candbase := v }
  else if off = 0x78 ∧ sup then { g with candlen := v }
  else if off = 0x80 ∧ sup then { g with candthr := v &&& 0xFF }
  else if off = 0xA0 ∧ m then { g with tmod := v }
  else if off = 0xA8 ∧ m then { g with tmox := v }
  else if off = 0xB8 ∧ sup then { g with intrt := v &&& 0x1FFFFFFFFFFF }
  else if off = 0x1C0 ∧ m then { g with erbase := v &&& ~~~(0xFFFF : W64) }
  else if off = 0x1C8 ∧ m then { g with erlen := v &&& 0xFFFFFFFF }
  else if off = 0x1D8 ∧ m then { g with errd := v }
  else if off = 0x200 ∧ m then { g with pwrlim := v }
  else g

/-- A write of a register of this die's management block by its offset (R377): a register with behaviour of its own does what its
rule says; another holds what who may write it writes; the rest ignore writes. -/
def State.writeMgmt (s : State) (who : BitVec 18) (off : Nat) (v : W64) : State :=
  let q := BitVec.ofNat 8 (bits v.toNat 31 24)
  let tag := BitVec.ofNat 32 (bits v.toNat 63 32)
  let satq := BitVec.ofNat 8 (bits s.mg.satctl.toNat 31 24)
  let dbgq := BitVec.ofNat 8 (bits s.mg.dbgctl.toNat 31 24)
  if off = 0x68 then (if mayS who && v.getLsbD 0 then s.submit else s)
  else if off = 0x100 then s.abortTask who v
  else if off = 0x108 then s.satRequest who q tag (bits v.toNat 19 16)
  else if off = 0x110 then s.setMg (s.mayControl who satq) (fun g => { g with satimg := v })
  else if off = 0x118 then s.setMg (s.mayControl who satq) (fun g => { g with satcnt := v })
  else if off = 0x120 then s.writeDbgctl who q tag (bits v.toNat 19 16)
  else if off = 0x128 then s.setMg (s.mayControl who dbgq) (fun g => { g with dbgss := v })
  else if off = 0x150 then s.releaseBreak who v
  else if off = 0x180 then s.writeTrace who (fun g => { g with trbase := v &&& ~~~(0xFFFF : W64) })
  else if off = 0x188 then s.writeTrace who (fun g => { g with trlen := v &&& 0xFFFFFFFF })
  else if off = 0x190 then s.writeTrctl who v
  else if off = 0x1A0 then s.writeTrrd who v
  else s.setMg true (fun g => g.put who off v)

/-- A write of a register of another die's management block: it holds what may be written there. Of the registers whose owner another die's queues
and contexts name, machine software writes those that only hold a value; those that act on that die's own units have no effect here: those
units are outside the model (R377). -/
def Mgmt.putAway (g : Mgmt) (who : BitVec 18) (off : Nat) (v : W64) : Mgmt :=
  let tr := mayTrace who g.trCtx
  if off = 0x110 ∧ mayM who = true then { g with satimg := v }
  else if off = 0x118 ∧ mayM who = true then { g with satcnt := v }
  else if off = 0x128 ∧ mayM who = true then { g with dbgss := v }
  else if off = 0x180 ∧ tr = true ∧ g.trEn = false then { g with trbase := v &&& ~~~(0xFFFF : W64) }
  else if off = 0x188 ∧ tr = true ∧ g.trEn = false then { g with trlen := v &&& 0xFFFFFFFF }
  else if off = 0x1A0 ∧ tr = true then { g with trrd := v }
  else g.put who off v

/-- A write of a register of a near-tier die's management block. KEYENR and FWGO are of die 0, and FREEZE freezes the package whichever die has
it (R366, R377). -/
def State.writeBar0 (s : State) (who : BitVec 18) (d off : Nat) (v : W64) : State :=
  if off = 0x240 then (if mayM who && v.getLsbD 0 then { s with frozen := true } else s)
  else if off = 0x400 then (if d = 0 then s.enrolKey who v else s)
  else if off = 0x418 then (if d = 0 ∧ fromHost who = true then s.fwgo v else s)
  else if d = s.die.toNat then s.writeMgmt who off v
  else s.setMgmt d (fun g => g.putAway who off v)

/-- A write of a register of the queue block (R269). -/
def State.writeQblk (s : State) (who : BitVec 18) (off : Nat) (v : W64) : State :=
  if whoPl who = 0 then s else s.writeQueue (fromHost who) (BitVec.ofNat 8 (off / 64)) (off % 64) v

/-- A host write while the part is in recovery, where it sees FWSTAT, FWGO and the image window of die 0 alone (R378). -/
def State.writeRecovery (s : State) (who : BitVec 18) (d off : Nat) (v : W64) : State :=
  if d ≠ 0 ∨ fromHost who = false then s
  else if off = 0x418 then s.fwgo v
  else if 0x800000 ≤ off ∧ off + 8 ≤ 0x900000 then { s with rot := { s.rot with window := putWindow s.rot.window (off - 0x800000) v } }
  else s

/-- A write of the register that a number names, in BAR0 or BAR2; a die's queue block is a part of its management block too (R374, R377). -/
def State.writeBar (s : State) (who : BitVec 18) (reg : Nat) (v : W64) : State :=
  let (queue, d, off) := registerOf reg
  if s.rot.recovery then (if queue then s else s.writeRecovery who d off v)
  else if queue then (if d = s.die.toNat then s.writeQblk who off v else s)
  else if d < 8 then s.writeBar0 who d off v
  else s

/-- MANAGEMENT_REGISTER_WRITE (R374, R377). -/
def execManagementRegisterWrite (who : BitVec 18) (reg : BitVec 32) (v : W64) (s : State) :
    Host.Outcome State Fault Refusal := runStep (fun s => s.writeBar who reg.toNat v) s

end Sys2Proof.Machine
end

