-- ==== Sys2Proof/Machine/Schedule.lean ====
section
/-! DEFINITION. Which logical core moves next, and what its next point brings: blocking points and switches (R17, R249), the traps
ready at a point (R330, R332, R265), and the fetch of a word (R105 to R108, R116). -/

namespace Sys2Proof.Machine

/-! ### Blocking points (R17, R249) -/

/-- The condition that a blocked logical core waits for holds. A stall is retried. -/
def State.unblocked (s : State) (c : LCore) : Bool :=
  let g := s.gang c.gang
  match c.blk with
  | none => true
  | some (.inbox q n) => (List.range n).all (fun k => (c.getQ (q + BitVec.ofNat 4 k)).full)
  | some (.phase n p) => decide (p < g.phase.get n.toFin) || g.abandoned.isSome
  | some (.arrival n p) => decide (p < g.phase.get n.toFin)
  | some .port => g.abandoned.isSome || (s.cur :: s.others).all (fun x => x.pcid != c.pcid || x.port == [])
  | some (.sstep p) => (decide (p < g.phase.get 0) && !g.boundary) || c.handed.isSome || g.abandoned.isSome
  | some .irq => s.irqs.any (fun q => s.mg.route q.code == c.pcid)
  | some .causal => (List.range 10).all (fun f => decide (c.know.getD f 0 ≤ s.applied.getD f 0))
  | some .stall => true

/-- A blocking point of R17: a switch may happen there (R249, R268). -/
def Block.point : Block → Bool
  | .causal | .stall => false
  | _ => true

/-- A logical core that can go on. -/
def State.canRun (s : State) (c : LCore) : Bool := c.run == .running && s.unblocked c

/-- The order of a switch: the smallest hint, then the next LCID after the present one, cyclically (R249). -/
def LCore.switchKey (c x : LCore) : Nat := x.hint.toNat * 65536 + (x.lcid.toNat + 65535 - c.lcid.toNat) % 65536

/-- The least of a list by a key. -/
def leastBy {α : Type} (key : α → Nat) : List α → Option α
  | [] => none
  | x :: l =>
    match leastBy key l with
    | none => some x
    | some y => if key y < key x then some y else some x

/-- The hosted logical core that the present physical core switches to (R249). -/
def State.nextHosted (s : State) : Option LCore :=
  leastBy s.cur.switchKey (s.others.filter (fun c => c.pcid == s.cur.pcid && s.canRun c))

/-- Switch to a hosted logical core: the outgoing one is drained, and a late fault that this wait finds is taken instead, as `cdrain` takes it
(R249, R333); the core's exchange port goes on (R250, R45). -/
def State.switchTo (s : State) (c : LCore) : State :=
  let s1 := s.quiesce
  if s1.cur.run = .running ∧ s1.cur.handler = 0 ∧ s1.cur.late.isSome = true then s1.takeLate else
  let port := s1.cur.port
  let s2 := (s1.modCur (fun l => { l with port := [] })).bring (fun x => x.is c.gang c.lcid)
  s2.modCur (fun l => { l with port := port ++ l.port })

/-- The present logical core has nothing to do at its blocking point, or has left its gang; a switch waits for its coprocessor (R249). -/
def State.mustSwitch (s : State) : Bool :=
  !s.canRun s.cur && !s.cur.queued && s.cur.blk.all (fun b => s.cur.run != .running || b.point)

/-- LOGICAL_CORE_SWITCH (R249). -/
def State.switchCore (s : State) : State :=
  if s.mustSwitch then
    match s.nextHosted with
    | some c => s.switchTo c
    | none => s
  else s

/-! ### What is ready at a point (R330) -/

/-- The superstep timer has passed its limit before the core has arrived on the gang barrier (R265). -/
def State.overrunDue (s : State) : Bool :=
  let c := s.cur
  let g := s.gang c.gang
  let lim := hSstl g.hdr
  c.run == .running && lim != 0 && !c.overrun && (c.unwaited 0).isNone && decide (lim * 1024 < s.gtc - c.timer)

/-- SUPERSTEP_OVERRUN (R265): once in a superstep. -/
def State.takeOverrun (s : State) : State :=
  let lim := hSstl (s.gang s.cur.gang).hdr
  let e : Exn := ⟨cSUPERSTEP_OVERRUN, s.cur.ssc, BitVec.ofNat 64 lim⟩
  match s.quiesce.cur.late with
  | some _ => s.takeLate
  | none => (s.modCur (fun c => { c with overrun := true })).takeTrap e

/-- The target level of an interrupt is above PL, or equals it with IE set (R332). -/
def State.allowsIrq (s : State) (code : BitVec 6) : Bool :=
  let t := s.trapTarget code true
  decide (s.cur.pl.toNat < t.toNat) || (t == s.cur.pl && s.cur.ie)

/-- The interrupt that may be taken here: of those whose level allows it the one with the lowest code (R330, R332). -/
def State.irqReady (s : State) : Option Irq :=
  leastBy (fun q => q.code.toNat) (s.irqsHere.filter (fun q => s.allowsIrq q.code))

/-- Take an interrupt (R331, R332); a late fault that appears while the coprocessor drains comes first (R330). -/
def State.takeIrq (s : State) (q : Irq) : State :=
  match s.quiesce.cur.late with
  | some _ => s.takeLate
  | none => { s with irqs := s.irqs.erase q }.takeTrap ⟨q.code, q.tval, q.tval2⟩ true

/-- MACHINE_CHECK of a soft error (R368). -/
def State.takeLost (s : State) : Option State :=
  s.cur.lost.head?.map (fun e =>
    match s.quiesce.cur.late with
    | some _ => s.takeLate
    | none => (s.modCur (fun c => { c with lost := c.lost.drop 1 })).takeTrap e)

/-- A debug stop that waits for the end of the core's `sstep` is due (R363). -/
def State.debugDue (s : State) : Bool := Option.isSome s.cur.debug && (s.cur.unwaited 0).isNone && !s.cur.exch && s.cur.blk.isNone

/-- It is taken at the word after the `sstep` (R363). -/
def State.takeDebug (s : State) : State :=
  match s.quiesce.cur.late with
  | some _ => s.takeLate
  | none => (s.modCur (fun c => { c with debug := none })).takeTrap ⟨cDEBUG_STOP, s.cur.ssc, Option.getD s.cur.debug 0⟩

/-- The trap or interrupt taken at this point before the instruction, a machine check the last of them (DEDUCED: R330 does not name it, and
it is precise as the traps of the instruction are): none within a unit (R51), no interrupt at a `wfi` that
completes (R305). Where one is ready while instructions wait in the queue of the coprocessor, time passes for them first (R328); no interrupt
comes through while one freezes it, but the overrun does where a `sendv` waits for its port (R268). -/
def State.pointTrap (s : State) : Option State :=
  if s.cur.run ≠ .running ∨ s.cur.unit.isSome then none
  else if s.cur.late.isSome then some s.takeLate
  else if (s.debugDue || s.overrunDue || s.irqReady.isSome || !s.cur.lost.isEmpty) && s.canPass then some s.passTo
  else if s.debugDue then some s.takeDebug
  else if s.overrunDue then some s.takeOverrun
  else if s.cur.queued then none
  else if s.cur.blk = some .irq then s.takeLost
  else (s.irqReady.map s.takeIrq).or s.takeLost

/-! ### Physical cores -/

/-- A physical core, made present, has something to do: its logical core, or a switch. -/
def State.busyOn (s : State) (pcid : BitVec 9) : Bool :=
  let t := s.bring (fun c => c.pcid == pcid)
  t.pointTrap.isSome || t.canRun t.cur || t.canPass || (t.mustSwitch && t.nextHosted.isSome)

/-- Another physical core that has something to do. -/
def State.otherCore (s : State) : Option (BitVec 9) :=
  ((s.others.map (·.pcid)).filter (fun p => p != s.cur.pcid)).find? s.busyOn

/-- While a word stalls, the copies of its core go on (R222). -/
def State.engines (s : State) : State :=
  if s.cur.blk = some .stall then s.finishTags (tagsOf (BitVec.allOnes 64)) else s

/-- A physical core moves next; a stall of its logical core is over. -/
def State.goOn (s : State) (pcid : BitVec 9) : State :=
  (s.bring (fun c => c.pcid == pcid)).engines.modCur (fun c => if c.blk = some .stall then { c with blk := none } else c)

/-! ### Fetch (R105 to R108, R116) -/

/-- Make the function at the pc resident. A pc just past a function is a sequential fetch past its end (R106); the model takes it so
however the pc came there, also by a return or a trap entry to that address (DEDUCED). -/
def fetchIn : Ex Unit := do
  let s ← get
  let pc := s.cur.pc
  if (s.funcAt pc).isNone && (s.funcAt (pc - 4)).isSome then trapWith cCODE_TARGET pc 5
  enterCode pc

/-- The word at the pc, with the v registers of the pass under way (R116); none where no instruction has the word. -/
def LCore.passInstr (c : LCore) (w : W32) : Option Instr :=
  (decode w).map (fun i =>
    if repcAct c.repc then i.shiftV (BitVec.ofNat 5 ((repcCnt c.repc - 1) * (repcStrd c.repc).toNat)) else i)

/-- A trap of a fetch that began in `s` and stopped in `t`; past the last word of a function the unit under way has ended, and EPC is the
address past the end (R106). -/
def State.fetchTrap (s t : State) (e : Exn) : State :=
  let u := s.undone t
  if s.cur.queued then s.stall
  else (if e.code = cCODE_TARGET ∧ e.tval2 = 5 then u.modCur (fun c => { c with unit := none, pfx := none }) else u).takeTrap e

/-- What the present logical core finds at its pc: the state after the fetch, with the instruction; or the state after the
trap of a fetch or of a word that no instruction has (R60). -/
def State.fetch (s : State) : State × Option Instr :=
  match fetchIn s with
  | .error e s1 => (s.fetchTrap s1 e, none)
  | .ok _ s1 =>
    let w := (s1.wordAt s1.cur.pc).getD 0
    match s1.cur.passInstr w with
    | some i => (s1, some i)
    | none => (s1.trapFrom s1 ⟨cILLEGAL, w.setWidth 64, 0⟩, none)

end Sys2Proof.Machine
end

