-- ==== Sys2Proof/Machine/Micro.lean ====
section
/-! DEFINITION. The steps of the part that belong to no word: the coprocessor (R63), trap entry (R331), the install sequence (R43),
switches, deposits and timers (R249, R250, R265), loaders, engines and streams (R150, R222, R223, R230, R237), touches, copy-ins,
collections, causal messages and page walks (R187, R108, R110, R196, R204, R293). -/

namespace Sys2Proof.Machine

/-- An operation of the running logical core outside a word; a trap it meets is taken at this point. -/
def State.perform {α : Type} (s : State) (m : Ex α) : State :=
  match m s with
  | .ok _ s' => s'
  | .error e s' => s.trapFrom s' e

/-! ### Coprocessor and traps -/

/-- The head of the coprocessor queue issues, in the cycle in which it can, unless a fault stands before it (R63, R329). -/
def State.issueNext (s : State) : State :=
  if s.cur.queued then
    match s.cur.ring.find? (fun r => r.state == .notIssued) with
    | none => s
    | some r => (s.waitFor s.cur.headCycle).attempt (reissue [r])
  else s

/-- COPROCESSOR_ISSUE (R63). -/
def execCoprocessorIssue (s : State) : Host.Outcome State Fault Refusal := runStep State.issueNext s

/-- DESTINATION_WRITE (R63): the writes that are due by now land; of a frozen coprocessor, by the cycle it froze in (R64). -/
def execDestinationWrite (s : State) : Host.Outcome State Fault Refusal :=
  runStep (fun s => s.modCur (fun c => c.land c.copNow)) s

/-- TAKE_TRAP (R331): a late one names the oldest faulted entry of the ring; an interrupt that its level does not allow here stays pending, and
so does one in whose place a late fault is taken (R328); a reserved code is never raised (R332, R334). -/
def execTakeTrap (code : BitVec 6) (late int : Bool) (t1 t2 : W64) (s : State) : Host.Outcome State Fault Refusal :=
  runStep (fun s =>
    if code.toNat = 0 ∨ 0x1F ≤ code.toNat then s
    else if late then
      match s.quiesce.cur.ring.find? (fun r => r.state == .faulted) with
      | some r => s.quiesce.enterTrap ⟨code, t1, t2⟩ (some r.seq) false
      | none => s
    else if int then
      (if 5 < code.toNat then s
       else if s.allowsIrq code && s.quiesce.cur.late.isNone then s.takeTrap ⟨code, t1, t2⟩ true
       else
         let t := s.raiseIrq code t1 t2
         if s.allowsIrq code then t.takeLate else t)
    else s.takeTrap ⟨code, t1, t2⟩) s

/-! ### Install, switches, deposits, timers -/

/-- The install sequence for a logical core of the running gang, on the physical core that hosts it (R43). -/
def State.installMember (s : State) (lcid : BitVec 16) : State :=
  let g := s.gang s.cur.gang
  match (s.members g.id).find? (fun c => c.lcid == lcid), s.kernelOf g.ctx g.hdr with
  | some c, some (r, k) =>
    let s1 := s.takePads g.ctx [c.pcid.toNat]
    s1.modWhere (fun x => x.is g.id lcid)
      (fun _ => s1.installed g.id g.ctx g.hdr lcid.toNat c.pcid.toNat (entryOf r k lcid.toNat))
  | _, _ => s

/-- INSTALL (R43). -/
def execInstall (lcid : BitVec 16) (s : State) : Host.Outcome State Fault Refusal := runStep (fun s => s.installMember lcid) s

/-- LOGICAL_CORE_SWITCH (R249). -/
def execLogicalCoreSwitch (s : State) : Host.Outcome State Fault Refusal := runStep State.switchCore s

/-- DEPOSIT_ARRIVE (R250): the first word that has arrived lands, is discarded or is held. -/
def execDepositArrive (s : State) : Host.Outcome State Fault Refusal := runStep State.landOne s

/-- SUPERSTEP_OVERRUN (R265). -/
def execSuperstepOverrun (s : State) : Host.Outcome State Fault Refusal :=
  runStep (fun s => if s.overrunDue then s.takeOverrun else s) s

/-! ### Loader, engines, streams -/

/-- TILE_ROW_LAND (R150). -/
def execTileRowLand (s : State) : Host.Outcome State Fault Refusal := runStep State.landRow s

/-- A copy of any logical core in a state that a test picks, on the lowest such tag; the running logical core first. -/
def State.onCopy (s : State) (p : Copy → Bool) (f : State → BitVec 6 → State) : State :=
  let tag := fun (c : LCore) => (tagsOf (BitVec.allOnes 64)).find? (fun t => match c.getTag t with
    | .running k => p k
    | _ => false)
  s.onCore (fun c => (tag c).isSome) (fun s => match tag s.cur with
    | some t => f s t
    | none => s)

/-- The start queue a copy engine turns to: the running core's first, then the others' in order (R222). -/
def State.takeCopy (s : State) : State :=
  s.onCore (fun c => c.startQ != []) (fun s => match s.cur.startQ with
    | t :: _ => s.runCopy t
    | [] => s)

/-- ENGINE_TAKE_COPY (R222). -/
def execEngineTakeCopy (s : State) : Host.Outcome State Fault Refusal := runStep State.takeCopy s

/-- COPY_COMPLETE (R223). -/
def execCopyComplete (s : State) : Host.Outcome State Fault Refusal :=
  runStep (fun s => s.onCopy (fun k => k.phase == .moved) State.endCopy) s

/-- COPY_FAULT_STOP (R230). -/
def execCopyFaultStop (s : State) : Host.Outcome State Fault Refusal :=
  runStep (fun s => s.onCopy (fun k => match k.phase with
    | .met _ => true
    | _ => false) State.endCopy) s

/-- STREAM_READ_AHEAD (R237): the first bound stream that has room. -/
def execStreamReadAhead (s : State) : Host.Outcome State Fault Refusal :=
  runStep (fun s =>
    match ((List.range 8).map (BitVec.ofNat 3)).find? (fun r =>
        let st := s.cur.getS r
        st.bound && decide (st.buf.length < 4) && st.fault.isNone) with
    | some r => s.readAhead r
    | none => s) s

/-! ### Objects, code, order, translation -/

/-- TOUCH_COMPLETE (R187). -/
def execTouchComplete (p : BitVec 4) (s : State) : Host.Outcome State Fault Refusal := runStep (fun s => s.perform (touch p)) s

/-- DEMAND_COPY_IN (R108). -/
def execDemandCopyIn (s : State) : Host.Outcome State Fault Refusal := runStep (fun s => s.perform fetchIn) s

/-- PREFETCH_COPY_IN (R110). -/
def execPrefetchCopyIn (a : W64) (s : State) : Host.Outcome State Fault Refusal :=
  runStep (fun s => match s.funcFrom a with
    | some f => s.attempt (prefetchIn f)
    | none => s) s

/-- COLLECT (R196): the janitor collects a pad that the running logical core reaches; an error abandons the collection. -/
def execCollect (lvl : BitVec 2) (s : State) : Host.Outcome State Fault Refusal :=
  runStep (fun s => if lvl = 3 ∨ s.owned lvl.toNat = false then s else s.collectBack lvl.toNat) s

/-- The oldest message of its source that may be applied, of those a test picks (R204). -/
def State.ripeWhere (s : State) (p : DieMsg → Bool) : Option DieMsg :=
  s.msgs.find? (fun m => p m && s.ripeMsg (s.msgs.filter (fun x => x.src == m.src)) [] == some m)

/-- MERGE_APPLY (R204). -/
def execMergeApply (s : State) : Host.Outcome State Fault Refusal :=
  runStep (fun s => match s.ripeWhere (fun m => m.merge.isSome) with
    | some m => s.applyThis m
    | none => s) s

/-- RELEASE_NOTICE (R204). -/
def execReleaseNotice (s : State) : Host.Outcome State Fault Refusal :=
  runStep (fun s => match s.ripeWhere (fun m => m.merge.isNone) with
    | some m => s.applyThis m
    | none => s) s

/-- PAGE_WALK (R293): A and D are set, or the access faults. -/
def execPageWalk (va : W64) (acc : BitVec 3) (s : State) : Host.Outcome State Fault Refusal :=
  runStep (fun s => s.perform (translate va.toNat acc.toNat)) s

end Sys2Proof.Machine
end

