-- ==== Sys2Proof/Machine/Scalar.lean ====
section
/-! DEFINITION. The scalar register, immediate and upper-immediate operations (R98 to R104). -/

namespace Sys2Proof.Machine

/-- A shift amount: the low six bits (R99). -/
def shAmt (b : W64) : Nat := b.toNat % 64

/-- Signed comparison and the results of R99 that are 1 or 0. -/
def boolW (b : Bool) : W64 := if b then 1 else 0

/-- Number of 1 bits among the low `n` bits of a number. -/
def popNat (w : Nat) : Nat → Nat
  | 0 => 0
  | n + 1 => w % 2 + popNat (w / 2) n

/-- Number of zero bits below the lowest 1 among `n` bits (R99). -/
def ctzNat (w : Nat) : Nat → Nat
  | 0 => 0
  | n + 1 => if w % 2 = 1 then 0 else 1 + ctzNat (w / 2) n

/-- The low `n` bits in reverse order (R99). -/
def revNat (w : Nat) : Nat → Nat
  | 0 => 0
  | n + 1 => w % 2 * 2 ^ n + revNat (w / 2) n

/-- The `n` low bytes in reverse order (R99). -/
def bswapNat (w : Nat) : Nat → Nat
  | 0 => 0
  | n + 1 => w % 256 * 256 ^ n + bswapNat (w / 256) n

/-- Division of R100: a zero divisor gives all ones; the overflow gives the dividend. -/
def divS (a b : W64) : W64 :=
  if b = 0 then BitVec.allOnes 64 else BitVec.ofInt 64 (Int.tdiv a.toInt b.toInt)
def divU (a b : W64) : W64 := if b = 0 then BitVec.allOnes 64 else BitVec.ofNat 64 (a.toNat / b.toNat)
def remS (a b : W64) : W64 := if b = 0 then a else BitVec.ofInt 64 (Int.tmod a.toInt b.toInt)
def remU (a b : W64) : W64 := if b = 0 then a else BitVec.ofNat 64 (a.toNat % b.toNat)

/-- Rotation left (R99). -/
def rolW (a : W64) (n : Nat) : W64 := (a <<< n) ||| (a >>> ((64 - n) % 64))

/-- A result written to a scalar register, in sequence. -/
def putX (d : BitVec 5) (f : LCore → W64) : Ex Flow := do
  let c ← cur
  wrX d (f c)
  return .seq

/-- A register operation of two sources (R99). -/
def aluRR (i : Instr) (lat : Nat) (f : W64 → W64 → W64) (d a b : BitVec 5) (s : State) :
    Host.Outcome State Fault Refusal :=
  runWord i ⟨[a, b, d], d, 1, lat⟩ (putX d (fun c => f (c.getX a) (c.getX b))) s

/-- A register operation of one source (R99). -/
def aluR (i : Instr) (f : W64 → W64) (d a : BitVec 5) (s : State) : Host.Outcome State Fault Refusal :=
  runWord i ⟨[a, d], d, 1, 1⟩ (putX d (fun c => f (c.getX a))) s

/-- The divider takes one division at a time, 34 cycles each (R98). -/
def divider : Ex Unit := modCur (fun c =>
  { c with ccy := max c.ccy c.divFree, divFree := max c.ccy c.divFree + 34 })

/-- A division (R100). -/
def divRR (i : Instr) (f : W64 → W64 → W64) (d a b : BitVec 5) (s : State) : Host.Outcome State Fault Refusal :=
  runWord i ⟨[a, b, d], d, 1, 34⟩ (do divider; putX d (fun c => f (c.getX a) (c.getX b))) s

/-- An immediate operation: I is the joined, sign-extended immediate (R101, R49). -/
def aluI (i : Instr) (f : W64 → Int → W64) (d a : BitVec 5) (imm : BitVec 12) (s : State) :
    Host.Outcome State Fault Refusal :=
  runWord i ⟨[a, d], d, 1, 1⟩ (putX d (fun c => f (c.getX a) (joined c imm))) s

/-- An operation of op 0x04, which reads the old destination for `ins` (R102). -/
def aluS (i : Instr) (f : W64 → W64 → W64) (d a : BitVec 5) (s : State) : Host.Outcome State Fault Refusal :=
  runWord i ⟨[a, d], d, 1, 1⟩ (putX d (fun c => f (c.getX a) (c.getX d))) s

/-- `add`: A + B (R99). -/
def execAdd (d a b : BitVec 5) (s : State) : Host.Outcome State Fault Refusal :=
  aluRR (.add d a b) 1 (fun x y => x + y) d a b s

/-- `sub`: A − B (R99). -/
def execSub (d a b : BitVec 5) (s : State) : Host.Outcome State Fault Refusal :=
  aluRR (.sub d a b) 1 (fun x y => x - y) d a b s

/-- `mul`: low half of the product (R99). -/
def execMul (d a b : BitVec 5) (s : State) : Host.Outcome State Fault Refusal :=
  aluRR (.mul d a b) 3 (fun x y => x * y) d a b s

/-- `mulh`: high half of the signed product (R99). -/
def execMulh (d a b : BitVec 5) (s : State) : Host.Outcome State Fault Refusal :=
  aluRR (.mulh d a b) 4 (fun x y => BitVec.ofInt 64 (x.toInt * y.toInt / 2 ^ 64)) d a b s

/-- `mulhz`: high half of the unsigned product (R99). -/
def execMulhz (d a b : BitVec 5) (s : State) : Host.Outcome State Fault Refusal :=
  aluRR (.mulhz d a b) 4 (fun x y => BitVec.ofNat 64 (x.toNat * y.toNat / 2 ^ 64)) d a b s

/-- `div`: signed quotient (R100). -/
def execDiv (d a b : BitVec 5) (s : State) : Host.Outcome State Fault Refusal :=
  divRR (.div d a b) divS d a b s

/-- `divz`: unsigned quotient (R100). -/
def execDivz (d a b : BitVec 5) (s : State) : Host.Outcome State Fault Refusal :=
  divRR (.divz d a b) divU d a b s

/-- `rem`: signed remainder (R100). -/
def execRem (d a b : BitVec 5) (s : State) : Host.Outcome State Fault Refusal :=
  divRR (.rem d a b) remS d a b s

/-- `remz`: unsigned remainder (R100). -/
def execRemz (d a b : BitVec 5) (s : State) : Host.Outcome State Fault Refusal :=
  divRR (.remz d a b) remU d a b s

/-- `and`: A and B (R99). -/
def execAnd (d a b : BitVec 5) (s : State) : Host.Outcome State Fault Refusal :=
  aluRR (.and d a b) 1 (fun x y => x &&& y) d a b s

/-- `or`: A or B (R99). -/
def execOr (d a b : BitVec 5) (s : State) : Host.Outcome State Fault Refusal :=
  aluRR (.or d a b) 1 (fun x y => x ||| y) d a b s

/-- `xor`: A xor B (R99). -/
def execXor (d a b : BitVec 5) (s : State) : Host.Outcome State Fault Refusal :=
  aluRR (.xor d a b) 1 (fun x y => x ^^^ y) d a b s

/-- `andn`: A and not B (R99). -/
def execAndn (d a b : BitVec 5) (s : State) : Host.Outcome State Fault Refusal :=
  aluRR (.andn d a b) 1 (fun x y => x &&& ~~~y) d a b s

/-- `shl`: A shifted left (R99). -/
def execShl (d a b : BitVec 5) (s : State) : Host.Outcome State Fault Refusal :=
  aluRR (.shl d a b) 1 (fun x y => x <<< shAmt y) d a b s

/-- `shr`: A shifted right, zero-filled (R99). -/
def execShr (d a b : BitVec 5) (s : State) : Host.Outcome State Fault Refusal :=
  aluRR (.shr d a b) 1 (fun x y => x >>> shAmt y) d a b s

/-- `sar`: A shifted right, sign-filled (R99). -/
def execSar (d a b : BitVec 5) (s : State) : Host.Outcome State Fault Refusal :=
  aluRR (.sar d a b) 1 (fun x y => x.sshiftRight (shAmt y)) d a b s

/-- `rol`: A rotated left (R99). -/
def execRol (d a b : BitVec 5) (s : State) : Host.Outcome State Fault Refusal :=
  aluRR (.rol d a b) 1 (fun x y => rolW x (shAmt y)) d a b s

/-- `ror`: A rotated right (R99). -/
def execRor (d a b : BitVec 5) (s : State) : Host.Outcome State Fault Refusal :=
  aluRR (.ror d a b) 1 (fun x y => rolW x ((64 - shAmt y) % 64)) d a b s

/-- `slt`: signed less (R99). -/
def execSlt (d a b : BitVec 5) (s : State) : Host.Outcome State Fault Refusal :=
  aluRR (.slt d a b) 1 (fun x y => boolW (x.slt y)) d a b s

/-- `sltz`: unsigned less (R99). -/
def execSltz (d a b : BitVec 5) (s : State) : Host.Outcome State Fault Refusal :=
  aluRR (.sltz d a b) 1 (fun x y => boolW (x.ult y)) d a b s

/-- `min`: the lesser, signed (R99). -/
def execMin (d a b : BitVec 5) (s : State) : Host.Outcome State Fault Refusal :=
  aluRR (.min d a b) 1 (fun x y => if x.slt y then x else y) d a b s

/-- `max`: the greater, signed (R99). -/
def execMax (d a b : BitVec 5) (s : State) : Host.Outcome State Fault Refusal :=
  aluRR (.max d a b) 1 (fun x y => if x.slt y then y else x) d a b s

/-- `minz`: the lesser, unsigned (R99). -/
def execMinz (d a b : BitVec 5) (s : State) : Host.Outcome State Fault Refusal :=
  aluRR (.minz d a b) 1 (fun x y => if x.ult y then x else y) d a b s

/-- `maxz`: the greater, unsigned (R99). -/
def execMaxz (d a b : BitVec 5) (s : State) : Host.Outcome State Fault Refusal :=
  aluRR (.maxz d a b) 1 (fun x y => if x.ult y then y else x) d a b s

/-- `cmov`: A when B is not zero, else the old destination, which it reads as a third source (R99). -/
def execCmov (d a b : BitVec 5) (s : State) : Host.Outcome State Fault Refusal :=
  runWord (.cmov d a b) ⟨[a, b, d], d, 1, 1⟩
    (putX d (fun c => if c.getX b ≠ 0 then c.getX a else c.getX d)) s

/-- `clz`: leading zero bits (R99). -/
def execClz (d a : BitVec 5) (s : State) : Host.Outcome State Fault Refusal :=
  aluR (.clz d a) (fun x => BitVec.ofNat 64 (ctzNat (revNat x.toNat 64) 64)) d a s

/-- `ctz`: trailing zero bits (R99). -/
def execCtz (d a : BitVec 5) (s : State) : Host.Outcome State Fault Refusal :=
  aluR (.ctz d a) (fun x => BitVec.ofNat 64 (ctzNat x.toNat 64)) d a s

/-- `popc`: number of 1 bits (R99). -/
def execPopc (d a : BitVec 5) (s : State) : Host.Outcome State Fault Refusal :=
  aluR (.popc d a) (fun x => BitVec.ofNat 64 (popNat x.toNat 64)) d a s

/-- `brev`: bits in reverse order (R99). -/
def execBrev (d a : BitVec 5) (s : State) : Host.Outcome State Fault Refusal :=
  aluR (.brev d a) (fun x => BitVec.ofNat 64 (revNat x.toNat 64)) d a s

/-- `bswap`: bytes in reverse order (R99). -/
def execBswap (d a : BitVec 5) (s : State) : Host.Outcome State Fault Refusal :=
  aluR (.bswap d a) (fun x => BitVec.ofNat 64 (bswapNat x.toNat 8)) d a s

/-- `addi`: A + I (R101). -/
def execAddi (d a : BitVec 5) (i : BitVec 12) (s : State) : Host.Outcome State Fault Refusal :=
  aluI (.addi d a i) (fun x i => x + BitVec.ofInt 64 i) d a i s

/-- `andi`: A and I (R101). -/
def execAndi (d a : BitVec 5) (i : BitVec 12) (s : State) : Host.Outcome State Fault Refusal :=
  aluI (.andi d a i) (fun x i => x &&& BitVec.ofInt 64 i) d a i s

/-- `ori`: A or I (R101). -/
def execOri (d a : BitVec 5) (i : BitVec 12) (s : State) : Host.Outcome State Fault Refusal :=
  aluI (.ori d a i) (fun x i => x ||| BitVec.ofInt 64 i) d a i s

/-- `xori`: A xor I (R101). -/
def execXori (d a : BitVec 5) (i : BitVec 12) (s : State) : Host.Outcome State Fault Refusal :=
  aluI (.xori d a i) (fun x i => x ^^^ BitVec.ofInt 64 i) d a i s

/-- `slti`: A less than I, signed (R101). -/
def execSlti (d a : BitVec 5) (i : BitVec 12) (s : State) : Host.Outcome State Fault Refusal :=
  aluI (.slti d a i) (fun x i => boolW (decide (x.toInt < i))) d a i s

/-- `sltzi`: A less than I, extended first and compared unsigned (R101). -/
def execSltzi (d a : BitVec 5) (i : BitVec 12) (s : State) : Host.Outcome State Fault Refusal :=
  aluI (.sltzi d a i) (fun x i => boolW (x.ult (BitVec.ofInt 64 i))) d a i s

/-- `shli`: shift left by a constant (R102). -/
def execShli (d a : BitVec 5) (n : BitVec 6) (s : State) : Host.Outcome State Fault Refusal :=
  aluS (.shli d a n) (fun x _ => x <<< n.toNat) d a s

/-- `shri`: shift right, zero-filled by a constant (R102). -/
def execShri (d a : BitVec 5) (n : BitVec 6) (s : State) : Host.Outcome State Fault Refusal :=
  aluS (.shri d a n) (fun x _ => x >>> n.toNat) d a s

/-- `sari`: shift right, sign-filled by a constant (R102). -/
def execSari (d a : BitVec 5) (n : BitVec 6) (s : State) : Host.Outcome State Fault Refusal :=
  aluS (.sari d a n) (fun x _ => x.sshiftRight n.toNat) d a s

/-- `ext`: bits [pos + wd − 1 : pos] of A, zero-extended; `w` holds wd − 1 (R102). -/
def execExt (d a : BitVec 5) (w p : BitVec 6) (s : State) : Host.Outcome State Fault Refusal :=
  aluS (.ext d a w p) (fun x _ => BitVec.ofNat 64 (x.toNat / 2 ^ p.toNat % 2 ^ (w.toNat + 1))) d a s

/-- `ins`: the low wd bits of A replace bits [pos + wd − 1 : pos] of the destination (R102). -/
def execIns (d a : BitVec 5) (w p : BitVec 6) (s : State) : Host.Outcome State Fault Refusal :=
  aluS (.ins d a w p) (fun x y =>
    BitVec.ofNat 64 (y.toNat - y.toNat / 2 ^ p.toNat % 2 ^ (w.toNat + 1) * 2 ^ p.toNat +
      x.toNat % 2 ^ (w.toNat + 1) * 2 ^ p.toNat)) d a s

/-- `lup`: I × 4,096 (R104). -/
def execLup (d : BitVec 5) (i : BitVec 20) (s : State) : Host.Outcome State Fault Refusal :=
  runWord (.lup d i) ⟨[d], d, 1, 1⟩ (putX d (fun c => BitVec.ofInt 64 (joined c i * 4096))) s

/-- `aupc`: PC + I × 4,096, with PC the address of the `aupc` word (R104). -/
def execAupc (d : BitVec 5) (i : BitVec 20) (s : State) : Host.Outcome State Fault Refusal :=
  runWord (.aupc d i) ⟨[d], d, 1, 1⟩ (putX d (fun c => c.pc + BitVec.ofInt 64 (joined c i * 4096))) s

end Sys2Proof.Machine
end

