-- ==== Sys2Proof/Machine/Dispatch.lean ====
section
/-! DEFINITION. One arm for each row of the opcode table: the meaning it has. -/

namespace Sys2Proof.Machine

/-- The meaning of an instruction or event. -/
def exec (i : Instr) (s : State) : Host.Outcome State Fault Refusal :=
  match i with
  | .add d a b => Sys2Proof.Machine.execAdd d a b s
  | .sub d a b => Sys2Proof.Machine.execSub d a b s
  | .mul d a b => Sys2Proof.Machine.execMul d a b s
  | .mulh d a b => Sys2Proof.Machine.execMulh d a b s
  | .mulhz d a b => Sys2Proof.Machine.execMulhz d a b s
  | .div d a b => Sys2Proof.Machine.execDiv d a b s
  | .divz d a b => Sys2Proof.Machine.execDivz d a b s
  | .rem d a b => Sys2Proof.Machine.execRem d a b s
  | .remz d a b => Sys2Proof.Machine.execRemz d a b s
  | .and d a b => Sys2Proof.Machine.execAnd d a b s
  | .or d a b => Sys2Proof.Machine.execOr d a b s
  | .xor d a b => Sys2Proof.Machine.execXor d a b s
  | .andn d a b => Sys2Proof.Machine.execAndn d a b s
  | .shl d a b => Sys2Proof.Machine.execShl d a b s
  | .shr d a b => Sys2Proof.Machine.execShr d a b s
  | .sar d a b => Sys2Proof.Machine.execSar d a b s
  | .rol d a b => Sys2Proof.Machine.execRol d a b s
  | .ror d a b => Sys2Proof.Machine.execRor d a b s
  | .slt d a b => Sys2Proof.Machine.execSlt d a b s
  | .sltz d a b => Sys2Proof.Machine.execSltz d a b s
  | .min d a b => Sys2Proof.Machine.execMin d a b s
  | .max d a b => Sys2Proof.Machine.execMax d a b s
  | .minz d a b => Sys2Proof.Machine.execMinz d a b s
  | .maxz d a b => Sys2Proof.Machine.execMaxz d a b s
  | .cmov d a b => Sys2Proof.Machine.execCmov d a b s
  | .clz d a => Sys2Proof.Machine.execClz d a s
  | .ctz d a => Sys2Proof.Machine.execCtz d a s
  | .popc d a => Sys2Proof.Machine.execPopc d a s
  | .brev d a => Sys2Proof.Machine.execBrev d a s
  | .bswap d a => Sys2Proof.Machine.execBswap d a s
  | .addi d a imm => Sys2Proof.Machine.execAddi d a imm s
  | .andi d a imm => Sys2Proof.Machine.execAndi d a imm s
  | .ori d a imm => Sys2Proof.Machine.execOri d a imm s
  | .xori d a imm => Sys2Proof.Machine.execXori d a imm s
  | .slti d a imm => Sys2Proof.Machine.execSlti d a imm s
  | .sltzi d a imm => Sys2Proof.Machine.execSltzi d a imm s
  | .shli d a st => Sys2Proof.Machine.execShli d a st s
  | .shri d a st => Sys2Proof.Machine.execShri d a st s
  | .sari d a st => Sys2Proof.Machine.execSari d a st s
  | .ext d a w p => Sys2Proof.Machine.execExt d a w p s
  | .ins d a w p => Sys2Proof.Machine.execIns d a w p s
  | .lup d imm => Sys2Proof.Machine.execLup d imm s
  | .aupc d imm => Sys2Proof.Machine.execAupc d imm s
  | .bEq a b o => Sys2Proof.Machine.execBEq a b o s
  | .bNe a b o => Sys2Proof.Machine.execBNe a b o s
  | .bLt a b o => Sys2Proof.Machine.execBLt a b o s
  | .bGe a b o => Sys2Proof.Machine.execBGe a b o s
  | .bLtz a b o => Sys2Proof.Machine.execBLtz a b o s
  | .bGez a b o => Sys2Proof.Machine.execBGez a b o s
  | .j o => Sys2Proof.Machine.execJ o s
  | .call d o => Sys2Proof.Machine.execCall d o s
  | .jr a => Sys2Proof.Machine.execJr a s
  | .callr d p => Sys2Proof.Machine.execCallr d p s
  | .rep st a n l => Sys2Proof.Machine.execRep st a n l s
  | .retire => Sys2Proof.Machine.execRetire s
  | .ld d p m z o => Sys2Proof.Machine.execLd d p m z o s
  | .st d p m z o => Sys2Proof.Machine.execSt d p m z o s
  | .ldp q p m o => Sys2Proof.Machine.execLdp q p m o s
  | .stp q p m o => Sys2Proof.Machine.execStp q p m o s
  | .pmov d a => Sys2Proof.Machine.execPmov d a s
  | .padj d a b => Sys2Proof.Machine.execPadj d a b s
  | .plen d a => Sys2Proof.Machine.execPlen d a s
  | .pslice d a b => Sys2Proof.Machine.execPslice d a b s
  | .pfrom d a => Sys2Proof.Machine.execPfrom d a s
  | .ptox d a => Sys2Proof.Machine.execPtox d a s
  | .alloc d a l k => Sys2Proof.Machine.execAlloc d a l k s
  | .allocr d a l k => Sys2Proof.Machine.execAllocr d a l k s
  | .otouch d => Sys2Proof.Machine.execOtouch d s
  | .oacq d g st => Sys2Proof.Machine.execOacq d g st s
  | .orel d g st => Sys2Proof.Machine.execOrel d g st s
  | .amo d p b o g st w => Sys2Proof.Machine.execAmo d p b o g st w s
  | .cas d p b g st w => Sys2Proof.Machine.execCas d p b g st w s
  | .vamo d p w b m n o g => Sys2Proof.Machine.execVamo d p w b m n o g s
  | .fence g st => Sys2Proof.Machine.execFence g st s
  | .xfence c e g st => Sys2Proof.Machine.execXfence c e g st s
  | .setvl d a t => Sys2Proof.Machine.execSetvl d a t s
  | .vadd d a b m n t => Sys2Proof.Machine.execVadd d a b m n t s
  | .vsub d a b m n t => Sys2Proof.Machine.execVsub d a b m n t s
  | .vmul d a b m n t => Sys2Proof.Machine.execVmul d a b m n t s
  | .vmulh d a b m n t => Sys2Proof.Machine.execVmulh d a b m n t s
  | .vmulhz d a b m n t => Sys2Proof.Machine.execVmulhz d a b m n t s
  | .vfma d a b m n t => Sys2Proof.Machine.execVfma d a b m n t s
  | .vfms d a b m n t => Sys2Proof.Machine.execVfms d a b m n t s
  | .vfnma d a b m n t => Sys2Proof.Machine.execVfnma d a b m n t s
  | .vfnms d a b m n t => Sys2Proof.Machine.execVfnms d a b m n t s
  | .vfdiv d a b m n t => Sys2Proof.Machine.execVfdiv d a b m n t s
  | .vfsqrt d a m n t => Sys2Proof.Machine.execVfsqrt d a m n t s
  | .vmin d a b m n t => Sys2Proof.Machine.execVmin d a b m n t s
  | .vmax d a b m n t => Sys2Proof.Machine.execVmax d a b m n t s
  | .vminz d a b m n t => Sys2Proof.Machine.execVminz d a b m n t s
  | .vmaxz d a b m n t => Sys2Proof.Machine.execVmaxz d a b m n t s
  | .vfmin d a b m n t => Sys2Proof.Machine.execVfmin d a b m n t s
  | .vfmax d a b m n t => Sys2Proof.Machine.execVfmax d a b m n t s
  | .vand d a b m n t => Sys2Proof.Machine.execVand d a b m n t s
  | .vor d a b m n t => Sys2Proof.Machine.execVor d a b m n t s
  | .vxor d a b m n t => Sys2Proof.Machine.execVxor d a b m n t s
  | .vandn d a b m n t => Sys2Proof.Machine.execVandn d a b m n t s
  | .vshl d a b m n t => Sys2Proof.Machine.execVshl d a b m n t s
  | .vshr d a b m n t => Sys2Proof.Machine.execVshr d a b m n t s
  | .vsar d a b m n t => Sys2Proof.Machine.execVsar d a b m n t s
  | .vcmpEq d a b m n t => Sys2Proof.Machine.execVcmpEq d a b m n t s
  | .vcmpNe d a b m n t => Sys2Proof.Machine.execVcmpNe d a b m n t s
  | .vcmpLt d a b m n t => Sys2Proof.Machine.execVcmpLt d a b m n t s
  | .vcmpLe d a b m n t => Sys2Proof.Machine.execVcmpLe d a b m n t s
  | .vfcmpEq d a b m n t => Sys2Proof.Machine.execVfcmpEq d a b m n t s
  | .vfcmpLt d a b m n t => Sys2Proof.Machine.execVfcmpLt d a b m n t s
  | .vfcmpLe d a b m n t => Sys2Proof.Machine.execVfcmpLe d a b m n t s
  | .vfcmpUn d a b m n t => Sys2Proof.Machine.execVfcmpUn d a b m n t s
  | .vsel d a b m n t => Sys2Proof.Machine.execVsel d a b m n t s
  | .vcvt d a st m n t => Sys2Proof.Machine.execVcvt d a st m n t s
  | .vcvtSat d a st m n t => Sys2Proof.Machine.execVcvtSat d a st m n t s
  | .vquant d a b t => Sys2Proof.Machine.execVquant d a b t s
  | .vredAdd d a m n t => Sys2Proof.Machine.execVredAdd d a m n t s
  | .vredMin d a m n t => Sys2Proof.Machine.execVredMin d a m n t s
  | .vredMax d a m n t => Sys2Proof.Machine.execVredMax d a m n t s
  | .vredOr d a m n t => Sys2Proof.Machine.execVredOr d a m n t s
  | .vscanAdd d a m n t => Sys2Proof.Machine.execVscanAdd d a m n t s
  | .vscanMin d a m n t => Sys2Proof.Machine.execVscanMin d a m n t s
  | .vscanMax d a m n t => Sys2Proof.Machine.execVscanMax d a m n t s
  | .vscanOr d a m n t => Sys2Proof.Machine.execVscanOr d a m n t s
  | .vperm d a b m n t => Sys2Proof.Machine.execVperm d a b m n t s
  | .vslideUp d a b m n t => Sys2Proof.Machine.execVslideUp d a b m n t s
  | .vslideDn d a b m n t => Sys2Proof.Machine.execVslideDn d a b m n t s
  | .vbcast d a m n t => Sys2Proof.Machine.execVbcast d a m n t s
  | .vext d a b t => Sys2Proof.Machine.execVext d a b t s
  | .vins d a b t => Sys2Proof.Machine.execVins d a b t s
  | .viota d m n t => Sys2Proof.Machine.execViota d m n t s
  | .vcompress d a m n t => Sys2Proof.Machine.execVcompress d a m n t s
  | .vexpand d a m n t => Sys2Proof.Machine.execVexpand d a m n t s
  | .vpopc d m n t => Sys2Proof.Machine.execVpopc d m n t s
  | .vfirst d m n t => Sys2Proof.Machine.execVfirst d m n t s
  | .vtopk d a b m n t => Sys2Proof.Machine.execVtopk d a b m n t s
  | .vxacc d a b m n t => Sys2Proof.Machine.execVxacc d a b m n t s
  | .vxrnd d a b t => Sys2Proof.Machine.execVxrnd d a b t s
  | .vld d p v b m n t => Sys2Proof.Machine.execVld d p v b m n t s
  | .vlds d p v b m n t => Sys2Proof.Machine.execVlds d p v b m n t s
  | .vst d p v b m n t => Sys2Proof.Machine.execVst d p v b m n t s
  | .vgath d p v b m n t => Sys2Proof.Machine.execVgath d p v b m n t s
  | .vscat d p v b m n t => Sys2Proof.Machine.execVscat d p v b m n t s
  | .vmv d a m n t => Sys2Proof.Machine.execVmv d a m n t s
  | .vmvStream d st m n t => Sys2Proof.Machine.execVmvStream d st m n t s
  | .mlogAnd d a b => Sys2Proof.Machine.execMlogAnd d a b s
  | .mlogOr d a b => Sys2Proof.Machine.execMlogOr d a b s
  | .mlogXor d a b => Sys2Proof.Machine.execMlogXor d a b s
  | .mlogAndn d a b => Sys2Proof.Machine.execMlogAndn d a b s
  | .mma c a b st t u => Sys2Proof.Machine.execMma c a b st t u s
  | .tclaim st imm => Sys2Proof.Machine.execTclaim st imm s
  | .tfree st => Sys2Proof.Machine.execTfree st s
  | .tload st r => Sys2Proof.Machine.execTload st r s
  | .tstore st r => Sys2Proof.Machine.execTstore st r s
  | .tzero st => Sys2Proof.Machine.execTzero st s
  | .tidld p imm => Sys2Proof.Machine.execTidld p imm s
  | .tidst p imm => Sys2Proof.Machine.execTidst p imm s
  | .azero d => Sys2Proof.Machine.execAzero d s
  | .aload d imm r => Sys2Proof.Machine.execAload d imm r s
  | .astore d imm r => Sys2Proof.Machine.execAstore d imm r s
  | .adrain d st t => Sys2Proof.Machine.execAdrain d st t s
  | .afill d st t => Sys2Proof.Machine.execAfill d st t s
  | .amode d e => Sys2Proof.Machine.execAmode d e s
  | .again d st => Sys2Proof.Machine.execAgain d st s
  | .againPlain d => Sys2Proof.Machine.execAgainPlain d s
  | .ascan d c n => Sys2Proof.Machine.execAscan d c n s
  | .ascanK d c n => Sys2Proof.Machine.execAscanK d c n s
  | .ascanG d st c t n => Sys2Proof.Machine.execAscanG d st c t n s
  | .aapply d c => Sys2Proof.Machine.execAapply d c s
  | .kload c a => Sys2Proof.Machine.execKload c a s
  | .kstore c v => Sys2Proof.Machine.execKstore c v s
  | .kcomb d st q => Sys2Proof.Machine.execKcomb d st q s
  | .kzero c => Sys2Proof.Machine.execKzero c s
  | .xfer d a b t => Sys2Proof.Machine.execXfer d a b t s
  | .xgath d a b t => Sys2Proof.Machine.execXgath d a b t s
  | .xprefTr a b t => Sys2Proof.Machine.execXprefTr a b t s
  | .xprefMg a b t => Sys2Proof.Machine.execXprefMg a b t s
  | .xprefTq d a => Sys2Proof.Machine.execXprefTq d a s
  | .xwaitAll d a => Sys2Proof.Machine.execXwaitAll d a s
  | .xwaitAny d a => Sys2Proof.Machine.execXwaitAny d a s
  | .xfind d a => Sys2Proof.Machine.execXfind d a s
  | .sbind st a c => Sys2Proof.Machine.execSbind st a c s
  | .sclose st => Sys2Proof.Machine.execSclose st s
  | .send t v q => Sys2Proof.Machine.execSend t v q s
  | .sendv t v q => Sys2Proof.Machine.execSendv t v q s
  | .recv d q => Sys2Proof.Machine.execRecv d q s
  | .recvV d q => Sys2Proof.Machine.execRecvV d q s
  | .qclr a => Sys2Proof.Machine.execQclr a s
  | .xphase => Sys2Proof.Machine.execXphase s
  | .sstep => Sys2Proof.Machine.execSstep s
  | .arrive n => Sys2Proof.Machine.execArrive n s
  | .arriveRel n => Sys2Proof.Machine.execArriveRel n s
  | .wait n => Sys2Proof.Machine.execWait n s
  | .waitAcq n => Sys2Proof.Machine.execWaitAcq n s
  | .bvote d a n => Sys2Proof.Machine.execBvote d a n s
  | .spawn c f j => Sys2Proof.Machine.execSpawn c f j s
  | .take c f j => Sys2Proof.Machine.execTake c f j s
  | .join j => Sys2Proof.Machine.execJoin j s
  | .qpost d a p => Sys2Proof.Machine.execQpost d a p s
  | .rds d imm => Sys2Proof.Machine.execRds d imm s
  | .wrs a imm => Sys2Proof.Machine.execWrs a imm s
  | .trap c => Sys2Proof.Machine.execTrap c s
  | .eret => Sys2Proof.Machine.execEret s
  | .wfi => Sys2Proof.Machine.execWfi s
  | .brk c => Sys2Proof.Machine.execBrk c s
  | .sfence a b => Sys2Proof.Machine.execSfence a b s
  | .cdrain => Sys2Proof.Machine.execCdrain s
  | .cxsave p => Sys2Proof.Machine.execCxsave p s
  | .cxload p => Sys2Proof.Machine.execCxload p s
  | .immx p => Sys2Proof.Machine.execImmx p s
  | .hint h => Sys2Proof.Machine.execHint h s
  | .coprocessorIssue => Sys2Proof.Machine.execCoprocessorIssue s
  | .destinationWrite => Sys2Proof.Machine.execDestinationWrite s
  | .takeTrap code late int tval tval2 => Sys2Proof.Machine.execTakeTrap code late int tval tval2 s
  | .install lcid => Sys2Proof.Machine.execInstall lcid s
  | .logicalCoreSwitch => Sys2Proof.Machine.execLogicalCoreSwitch s
  | .depositArrive => Sys2Proof.Machine.execDepositArrive s
  | .superstepBoundary => Sys2Proof.Machine.execSuperstepBoundary s
  | .superstepOverrun => Sys2Proof.Machine.execSuperstepOverrun s
  | .tileRowLand => Sys2Proof.Machine.execTileRowLand s
  | .engineTakeCopy => Sys2Proof.Machine.execEngineTakeCopy s
  | .copyComplete => Sys2Proof.Machine.execCopyComplete s
  | .copyFaultStop => Sys2Proof.Machine.execCopyFaultStop s
  | .streamReadAhead => Sys2Proof.Machine.execStreamReadAhead s
  | .touchComplete p => Sys2Proof.Machine.execTouchComplete p s
  | .demandCopyIn => Sys2Proof.Machine.execDemandCopyIn s
  | .prefetchCopyIn addr => Sys2Proof.Machine.execPrefetchCopyIn addr s
  | .collect lvl => Sys2Proof.Machine.execCollect lvl s
  | .mergeApply => Sys2Proof.Machine.execMergeApply s
  | .releaseNotice => Sys2Proof.Machine.execReleaseNotice s
  | .pageWalk va acc => Sys2Proof.Machine.execPageWalk va acc s
  | .migrationComplete => Sys2Proof.Machine.execMigrationComplete s
  | .counterHalve => Sys2Proof.Machine.execCounterHalve s
  | .crossDieTimeout => Sys2Proof.Machine.execCrossDieTimeout s
  | .lateResponse => Sys2Proof.Machine.execLateResponse s
  | .linkMessage link kind ctx size => Sys2Proof.Machine.execLinkMessage link kind ctx size s
  | .permitReturn link cls ctx size => Sys2Proof.Machine.execPermitReturn link cls ctx size s
  | .linkDown port => Sys2Proof.Machine.execLinkDown port s
  | .clockStretch ratio => Sys2Proof.Machine.execClockStretch ratio s
  | .softError unit synd => Sys2Proof.Machine.execSoftError unit synd s
  | .lineRetirement addr => Sys2Proof.Machine.execLineRetirement addr s
  | .nop q => Sys2Proof.Machine.execNop q s
  | .launch q => Sys2Proof.Machine.execLaunch q s
  | .signal q => Sys2Proof.Machine.execSignal q s
  | .shrink q => Sys2Proof.Machine.execShrink q s
  | .packetComplete q tag => Sys2Proof.Machine.execPacketComplete q tag s
  | .dependenceRecheck => Sys2Proof.Machine.execDependenceRecheck s
  | .priorityAging => Sys2Proof.Machine.execPriorityAging s
  | .launchSeniority => Sys2Proof.Machine.execLaunchSeniority s
  | .doorbell q w => Sys2Proof.Machine.execDoorbell q w s
  | .queueSkip q => Sys2Proof.Machine.execQueueSkip q s
  | .queueReset q => Sys2Proof.Machine.execQueueReset q s
  | .queueEnable q => Sys2Proof.Machine.execQueueEnable q s
  | .queueDisable q => Sys2Proof.Machine.execQueueDisable q s
  | .managementRegisterWrite who reg val => Sys2Proof.Machine.execManagementRegisterWrite who reg val s
  | .tabort who val => Sys2Proof.Machine.execTabort who val s
  | .endTask gang lcid => Sys2Proof.Machine.execEndTask gang lcid s
  | .satchelFreeze who q tag => Sys2Proof.Machine.execSatchelFreeze who q tag s
  | .satchelCheckpoint who q tag => Sys2Proof.Machine.execSatchelCheckpoint who q tag s
  | .urgentPreemption who q tag => Sys2Proof.Machine.execUrgentPreemption who q tag s
  | .satchelRestore who q tag => Sys2Proof.Machine.execSatchelRestore who q tag s
  | .releaseInPlaceImage who q tag => Sys2Proof.Machine.execReleaseInPlaceImage who q tag s
  | .debugOff who q tag => Sys2Proof.Machine.execDebugOff who q tag s
  | .debugAtSsm who q tag => Sys2Proof.Machine.execDebugAtSsm who q tag s
  | .debugEveryBoundary who q tag => Sys2Proof.Machine.execDebugEveryBoundary who q tag s
  | .debugNextBoundary who q tag => Sys2Proof.Machine.execDebugNextBoundary who q tag s
  | .bkrel who val => Sys2Proof.Machine.execBkrel who val s
  | .traceEnable who val => Sys2Proof.Machine.execTraceEnable who val s
  | .traceDisable who val => Sys2Proof.Machine.execTraceDisable who val s
  | .traceHoldExpiry => Sys2Proof.Machine.execTraceHoldExpiry s
  | .freeze who => Sys2Proof.Machine.execFreeze who s
  | .freezeInput => Sys2Proof.Machine.execFreezeInput s
  | .testAccessReadout => Sys2Proof.Machine.execTestAccessReadout s
  | .reset => Sys2Proof.Machine.execReset s
  | .fwgo len => Sys2Proof.Machine.execFwgo len s
  | .recoveryImageVerified => Sys2Proof.Machine.execRecoveryImageVerified s
  | .load => Sys2Proof.Machine.execLoad s
  | .unload => Sys2Proof.Machine.execUnload s
  | .keyenr who addr => Sys2Proof.Machine.execKeyenr who addr s
  | .getVersion => Sys2Proof.Machine.execGetVersion s
  | .getCapabilities => Sys2Proof.Machine.execGetCapabilities s
  | .negotiateAlgorithms => Sys2Proof.Machine.execNegotiateAlgorithms s
  | .getDigests => Sys2Proof.Machine.execGetDigests s
  | .getCertificate => Sys2Proof.Machine.execGetCertificate s
  | .challenge => Sys2Proof.Machine.execChallenge s
  | .getMeasurements index => Sys2Proof.Machine.execGetMeasurements index s
  | .pageMoveStart ctx va frame => Sys2Proof.Machine.execPageMoveStart ctx va frame s
  | .firmwareUpdate who addr len => Sys2Proof.Machine.execFirmwareUpdate who addr len s
  | .scrubbing addr => Sys2Proof.Machine.execScrubbing addr s

end Sys2Proof.Machine
end

