-- ==== Sys2Proof/Machine/Step.lean ====
section
/-! DEFINITION. One step: an input or an event of the part that comes next; else what the part does by itself, and then the point
of the logical core that moves: a trap that is ready, the word at its pc, or a switch (R16, R249, R263, R330). -/

namespace Sys2Proof.Machine

/-- The word at the pc of the present logical core (R62). -/
def State.runHere (s : State) : Host.Outcome State Fault Refusal :=
  match (s.modCur (fun c => { c with blk := none })).fetch with
  | (t, some i) => exec i t
  | (t, none) => .next t

/-- Nothing to do on this physical core: another one moves, or a cycle of idling. -/
def State.idle (s : State) : State :=
  match s.otherCore with
  | some p => s.goOn p
  | none => { s with clk := s.clk + 1 }

/-- Nothing to do here: a switch to a hosted logical core, another physical core, or a cycle of idling (R249). -/
def State.elsewhere (s : State) : State :=
  match s.nextHosted with
  | some c => s.switchTo c
  | none => s.idle

/-- The point of the present logical core, once its coprocessor has issued what waits (R64, R330, R249). A stalled one gives way to
another physical core. -/
def State.pointHere (s : State) : Host.Outcome State Fault Refusal :=
  match s.pointTrap with
  | some t => .next t
  | none =>
    if s.mustSwitch then .next s.elsewhere
    else if s.canRun s.cur = false then .next s.idle
    else if s.cur.blk = some .stall then
      match s.otherCore with
      | some p => .next (s.goOn p)
      | none => s.runHere
    else s.runHere

def State.point (s : State) : Host.Outcome State Fault Refusal := s.engines.pump.pointHere

/-- The physical core that moves next, then its point. -/
def State.turn (s : State) : Host.Outcome State Fault Refusal :=
  match s.turns with
  | p :: l => ({ s with turns := l }.goOn p).point
  | [] => s.point

/-- What the part does by itself before any instruction: a superstep boundary (R263), gangs that are over (R16), a restore that
waits for its cores (R351), deposits that arrive (R250), packets that the command processor takes up (R285). -/
def State.auto (s : State) : Host.Outcome State Fault Refusal :=
  match s.gangs.find? s.atBoundary with
  | some g => .next (s.boundary g.id)
  | none =>
    if s.gangs.any s.gangOver then .next s.finishGangs
    else
      match s.commandNext with
      | some t => .next t
      | none => s.retryRestore.deposits.turn

/-- The inputs that a part in recovery answers: of register writes those that the host link shows then (R378, R379). -/
def recoveryInput : Instr → Bool
  | .managementRegisterWrite .. | .fwgo _ | .recoveryImageVerified | .reset | .freezeInput | .getVersion | .getCapabilities | .negotiateAlgorithms
  | .getDigests | .getCertificate | .challenge | .getMeasurements _ => true
  | _ => false

/-- The inputs that a frozen part answers (R366). -/
def frozenInput : Instr → Bool
  | .reset | .testAccessReadout => true
  | _ => false

/-- What holds once a step has ended: what the root-of-trust core has brought to its end (R325, R371), P of the pinned objects (R195), the age of
the heads that wait (R277), and the trace records of the ticks that have passed (R362). -/
def State.settled (s : State) : State := s.goOnLoading.goOnWriting.syncPins.ageHeads.flushTick

/-- An outcome with its next state settled. -/
def settle : Host.Outcome State Fault Refusal → Host.Outcome State Fault Refusal
  | .next s => .next s.settled
  | .fault f => .fault f
  | .refused r => .refused r

/-- One step of the machine. -/
def step (s : State) : Host.Outcome State Fault Refusal :=
  if s.frozen then
    match s.inputs with
    | [] => .fault .clocksStopped
    | i :: l => if frozenInput i then exec i { s with inputs := l } else .next { s with inputs := l }
  else if s.rot.recovery then
    if s.mg.fwstat = 3 then .next s.waitAgain
    else
      match s.inputs with
      | [] => .next { s with clk := s.clk + 1 }
      | i :: l => if recoveryInput i then exec i { s with inputs := l } else .next { s with inputs := l }
  else
    match s.inputs with
    | [] => settle s.auto
    | i :: l => settle (exec i { s with inputs := l })

/-- The word that `withFetchWord` puts after the instruction: `addi x0, x0, 0`. -/
def fillWord : W32 := 0x06000000

/-- The instruction stored as the first word of a resident function at the pc of a running logical core, with 16 words after it that
do nothing (a body that `rep` may name); no input and no turn stands before it. -/
def State.withFetchWord (s : State) (nbits w : Nat) : State :=
  let ctx := s.fetchCtx
  let words := BitVec.ofNat 32 (w % 2 ^ nbits) :: List.replicate 16 fillWord
  { s with
    inputs := [], turns := [],
    codeMap := ⟨ctx, 0x10, 68⟩ :: s.codeMap,
    ipad := ⟨s.cur.pcid, ctx, 0x10, 68, words, false, true⟩ :: s.ipad,
    cur := { s.cur with pc := 0x10, run := .running, blk := none, unit := none, pfx := none } }

end Sys2Proof.Machine
end

