-- ==== Sys2Proof/Safety.lean ====
section
/-! DEFINITION. What the claims are stated in: memories in canonical form, a word that passes the checks of R60, what a word of
one register result leaves changed, a coprocessor word that meets nothing in its way, and the part of a state that a step keeps. -/

namespace Sys2Proof.Machine

/-- Every byte list that the machine can read or write is in its canonical form: the memory of the part and of the host, the pads, and those
that the in-place images hold. -/
def State.memOk (s : State) : Bool :=
  Memory.wf s.mem && Memory.wf s.hostMem && s.pads.all (fun p => Memory.wf p.mem) &&
    s.images.all (fun i => i.pads.all (fun p => Memory.wf p.mem))

/-- No ring of a logical core, of one that an in-place image holds neither, has more than 64 entries (R62). -/
def State.ringsOk (s : State) : Bool :=
  (s.cur :: s.others ++ s.images.flatMap (fun i => i.cores)).all (fun c => decide (c.ring.length ≤ 64))

/-- A coprocessor instruction has yet to write an x register, in a cycle that is not known (R65). -/
def LCore.owing (c : LCore) : Bool :=
  c.outstanding && c.ring.any (fun r => (r.state == .notIssued || c.frozenAt.any (fun t => decide (t ≤ r.time))) && (copDest r.instr).isSome)

/-- The word passes the checks of R60: well formed, its features present, its privilege held; no coprocessor instruction waits in the
queue (R64), and none has yet to write an x register (R65). -/
def State.passes (s : State) (i : Instr) : Bool :=
  i.wf && s.missing i == none && decide (i.priv ≤ s.cur.pl.toNat) && !s.cur.queued && !s.cur.owing

/-- The logical core as a word in sequence leaves it, but for what the word writes: at the next word (R51, R116), outside any unit. -/
def LCore.passed (c : LCore) : LCore := { c.advance with unit := none, pfx := none }

/-- `t` is `s` after a word in sequence that wrote the value `v` to the register x`d` (x0 discards it, R22) and took its time:
nothing else has changed. -/
def Wrote (s : State) (d : BitVec 5) (v : W64) (t : State) : Prop :=
  (∀ r : BitVec 5, t.cur.getX r = if r = d ∧ d ≠ 0 then v else s.cur.getX r) ∧
    t = { s with
      clk := t.clk
      cur := { s.cur.passed with
        x := t.cur.x, ccy := t.cur.ccy, xrdy := t.cur.xrdy, divFree := t.cur.divFree } }

/-- The word `i` completes and writes `v` to x`d`. -/
def Writes (s : State) (i : Instr) (d : BitVec 5) (v : W64) : Prop := ∃ t, exec i s = .next t ∧ Wrote s d v t

/-- In every state that passes the checks of R60 the word of two sources writes `f A B`. -/
def Computes2 (mk : BitVec 5 → BitVec 5 → BitVec 5 → Instr) (f : W64 → W64 → W64) : Prop :=
  ∀ (s : State) (d a b : BitVec 5), s.passes (mk d a b) = true → Writes s (mk d a b) d (f (s.cur.getX a) (s.cur.getX b))

/-- In every state that passes the checks of R60 the word of one source writes a value that stands in the relation `p` to A. -/
def Relates1 (mk : BitVec 5 → BitVec 5 → Instr) (p : W64 → W64 → Prop) : Prop :=
  ∀ (s : State) (d a : BitVec 5), s.passes (mk d a) = true → ∃ v, Writes s (mk d a) d v ∧ p (s.cur.getX a) v

/-- In every state that passes the checks of R60 the word writes a function of A and of the immediate I, the joined field
sign-extended (R49, R101). -/
def ComputesI (mk : BitVec 5 → BitVec 5 → BitVec 12 → Instr) (f : W64 → Int → W64) : Prop :=
  ∀ (s : State) (d a : BitVec 5) (n : BitVec 12), s.passes (mk d a n) = true →
    Writes s (mk d a n) d (f (s.cur.getX a) (match s.cur.pfx with | none => n.toInt | some p => (p ++ n).toInt))

/-- `t` is `s` after a word that only moved the pc and took its time, changing nothing else. -/
def Moved (s : State) (pc : W64) (t : State) : Prop :=
  t = { s with
    clk := t.clk
    cur := { s.cur with pc := pc, unit := none, pfx := none, ccy := t.cur.ccy } }

/-- `t` is `s` after a word in sequence that writes nothing: at the next word, with its time taken. -/
def Advanced (s t : State) : Prop := t = { s with clk := t.clk, cur := { s.cur.passed with ccy := t.cur.ccy } }

/-- `t` is `u` with the logical core at `pc`, the link in x`d`, and its time taken: what a transfer leaves of the state `u` in which
its target has been resolved (R106, R113, R114). -/
def Linked (u : State) (d : BitVec 5) (link pc : W64) (t : State) : Prop :=
  (∀ r : BitVec 5, t.cur.getX r = if r = d ∧ d ≠ 0 then link else u.cur.getX r) ∧
    t = { u with
      clk := t.clk
      cur := { u.cur with pc := pc, unit := none, pfx := none, x := t.cur.x, ccy := t.cur.ccy, xrdy := t.cur.xrdy } }

/-- The joined offset of a transfer, in words (R49). -/
def LCore.offsetOf (c : LCore) {n : Nat} (o : BitVec n) : Int := match c.pfx with | none => o.toInt | some p => (p ++ o).toInt

/-- The address `a` is that of a word of a function that is resident and has been entered (R105 to R107). -/
def State.entered (s : State) (a : W64) : Bool :=
  a.toNat % 4 == 0 && match s.funcAt a with
    | none => false
    | some f => (s.residentAt f.start).isSome && s.ipad.all (fun r => r.pcid != s.cur.pcid || r.start != f.start || r.entered)

/-- Nothing comes before the word at the pc: no input, no boundary, no gang that is over, no packet to take up, no restore that waits, no
deposit on its way, no other core's turn, no coprocessor instruction that waits or load that is due, no trap or interrupt; and the logical
core may run (R16, R64, R150, R249, R263, R285, R330, R351). -/
def State.mayStep (s : State) : Prop :=
  s.frozen = false ∧ s.rot.recovery = false ∧ s.inputs = [] ∧ s.turns = [] ∧ (∀ g ∈ s.gangs, g.boundary = false) ∧
    s.gangs.any s.gangOver = false ∧ s.commandNext = none ∧ s.retryRestore = s ∧ s.portWords = 0 ∧ s.cur.queued = false ∧ s.pump = s ∧
    s.pointTrap = none ∧ s.canRun s.cur = true ∧ s.cur.blk ≠ some .stall

/-- A branch that is not taken goes on to the next word; one that is taken goes to PC + 4 × offset in the function that holds it, and
to the trap CODE_TARGET, reason 3, where the target lies elsewhere (R112, R106). -/
def Branches (mk : BitVec 5 → BitVec 5 → BitVec 12 → Instr) (cond : W64 → W64 → Bool) : Prop :=
  ∀ (s : State) (a b : BitVec 5) (o : BitVec 12), s.passes (mk a b o) = true →
    let tgt := s.cur.pc + BitVec.ofInt 64 (s.cur.offsetOf o * 4)
    (cond (s.cur.getX a) (s.cur.getX b) = false → ∃ t, exec (mk a b o) s = .next t ∧ Advanced s t) ∧
    (cond (s.cur.getX a) (s.cur.getX b) = true →
      (∀ f, s.funcAt s.cur.pc = some f → f.start.toNat ≤ tgt.toNat → tgt.toNat < f.start.toNat + f.len →
        ∃ t, exec (mk a b o) s = .next t ∧ Moved s tgt t) ∧
      ((∀ f, s.funcAt s.cur.pc = some f → ¬(f.start.toNat ≤ tgt.toNat ∧ tgt.toNat < f.start.toNat + f.len)) →
        exec (mk a b o) s = .next ((s.awaited [a, b]).takeTrap ⟨cCODE_TARGET, tgt, 3⟩)))

/-- `t` is `u` after the word at its pc has ended in sequence, with its time taken: what a scalar word leaves of the state `u` that its
body has made. -/
def Ended (u t : State) : Prop :=
  t = { u with
    clk := t.clk
    cur := { u.cur.passed with ccy := t.cur.ccy, xrdy := t.cur.xrdy } }

/-- The logical core with the cursor of p`p` advanced by `n` bytes where the mode `m` is the post-increment (R23, R48). -/
def LCore.stepped (p : BitVec 4) (m : BitVec 2) (n : Nat) (c : LCore) : LCore :=
  if m = 1 then c.setP p { c.getP p with cur := (c.getP p).cur + BitVec.ofNat 32 n } else c

/-- The object of p`p` lies in a pad that the running context may use, and no sector of a pad has failed. -/
def State.padded (s : State) (p : BitVec 4) : Prop :=
  s.badPads = [] ∧ ptrLvl (s.cur.getP p).ptr ≤ 2 ∧ (ptrLvl (s.cur.getP p).ptr = 2 → s.ownsDie = true)

/-- The pad that the object of p`p` lies in, and the offset of its header there. -/
def State.padOf (s : State) (p : BitVec 4) : PadId := s.cur.padId (ptrLvl (s.cur.getP p).ptr)
def State.offOf (s : State) (p : BitVec 4) : Nat := ptrAddr (s.cur.getP p).ptr

/-- Header word 0 of the object of p`p` in its pad. -/
def State.hdrOf (s : State) (p : BitVec 4) : W64 := (s.pad (s.padOf p)).word (s.offOf p)

/-- Header word 0 of the object that the pointer `p` names in a pad that the running logical core reaches. -/
def State.hdrAt (s : State) (p : W64) : W64 := (s.pad (s.cur.padId (ptrLvl p))).word (ptrAddr p)

/-- `p` names an object in a pad that the running context may use, and no sector of a pad has failed (R24, R180, R401, R367). -/
def State.inPad (s : State) (p : W64) : Prop :=
  s.badPads = [] ∧ p ≠ 0 ∧ ptrMalformed p = false ∧ ptrLvl p ≤ 2 ∧ (ptrLvl p = 2 → s.ownsDie = true) ∧ hdrKind (s.hdrAt p) < 4

/-- The object of p`p` lies in a pad and a touch leaves it where it is: it is a copy or a scope, or no nearer pad would hold a copy of it
(R67, R185). -/
def State.inPlace (s : State) (p : BitVec 4) : Prop :=
  s.inPad (s.cur.getP p).ptr ∧ (hdrC (s.hdrOf p) = true ∨ hdrKind (s.hdrOf p) = 2 ∨
    ∀ l, s.copyLevel (s.cur.getP p).len.toNat = some l → ptrLvl (s.cur.getP p).ptr ≤ l)

/-- The logical core after a touch of the pad object with header word 0 `w0` that `p` names: a copy is the one touched last (R185). -/
def LCore.touched (w0 p : W64) (c : LCore) : LCore :=
  if hdrC w0 then { c with cidx := c.cidx.filter (fun e => e.2 == p) ++ c.cidx.filter (fun e => e.2 != p) } else c

/-- What a word stores in an object of a pad: elements of some width, each with its byte in the pad, its bit in that byte (of a 4-bit
element) and its value, in the order in which they are stored. -/
structure Stores where
  obj : W64
  width : Nat
  elems : List (Nat × Nat × Nat)
  deriving DecidableEq, Repr

/-- Bytes of one element. -/
def Stores.bytes (x : Stores) : Nat := (x.width + 7) / 8

/-- A memory with one element stored; of a 4-bit element the other half of its byte stays (R152). -/
def putElem (w : Nat) (m : List Host.Cell) (x : Nat × Nat × Nat) : List Host.Cell :=
  if w = 4 then
    let old := Mem.readN m x.1 1
    Mem.writeN m x.1 1 (old - old / 2 ^ x.2.1 % 16 * 2 ^ x.2.1 + x.2.2 % 16 * 2 ^ x.2.1)
  else Mem.writeN m x.1 ((w + 7) / 8) x.2.2

/-- The memory of the pad `id` with those of the stores that lie in it. -/
def Stores.apply (s : State) (id : PadId) (m : List Host.Cell) (x : Stores) : List Host.Cell :=
  if s.cur.padId (ptrLvl x.obj) = id then x.elems.foldl (putElem x.width) m else m

/-- The pads of `t` are those of `s` after the stores of a list: a copy that is stored to gets D and the bytes in its dirty mask, and every
other byte of every pad is as before (R185, R188); where a pad places its next object, its gaps, its kept extents and its owner stay. -/
def Stored (s t : State) (l : List Stores) : Prop :=
  (∀ id, t.pad id = { s.pad id with mem := (t.pad id).mem, dirty := (t.pad id).dirty }) ∧
  (∀ id k, (∀ x ∈ l, ¬(s.cur.padId (ptrLvl x.obj) = id ∧ hdrC (s.hdrAt x.obj) = true ∧ ptrAddr x.obj ≤ k ∧ k < ptrAddr x.obj + 8)) →
    Mem.read (t.pad id).mem k = Mem.read (l.foldl (Stores.apply s id) (s.pad id).mem) k) ∧
  (∀ x ∈ l, hdrC (s.hdrAt x.obj) = true →
    (t.pad (s.cur.padId (ptrLvl x.obj))).word (ptrAddr x.obj) =
      if x.elems = [] then s.hdrAt x.obj else s.hdrAt x.obj ||| 0x100000000000) ∧
  (∀ id k, k ∈ (t.pad id).dirty ↔ k ∈ (s.pad id).dirty ∨
    ∃ x ∈ l, s.cur.padId (ptrLvl x.obj) = id ∧ hdrC (s.hdrAt x.obj) = true ∧ ∃ y ∈ x.elems, y.1 ≤ k ∧ k < y.1 + x.bytes)

/-- The extents of two objects of pads do not meet. -/
def State.apart (s : State) (p q : W64) : Prop :=
  s.cur.padId (ptrLvl p) ≠ s.cur.padId (ptrLvl q) ∨ ptrAddr p + 16 + (hdrLen (s.hdrAt p)).toNat ≤ ptrAddr q ∨
    ptrAddr q + 16 + (hdrLen (s.hdrAt q)).toNat ≤ ptrAddr p

/-- An object of a pad that may be stored to with elements that all lie inside it (R152, R164). -/
def State.storable (s : State) (x : Stores) : Prop :=
  s.inPad x.obj ∧ hdrKind (s.hdrAt x.obj) ≠ 1 ∧ hdrKind (s.hdrAt x.obj) ≠ 2 ∧
    ∀ y ∈ x.elems, y.1 + x.bytes ≤ ptrAddr x.obj + 16 + (hdrLen (s.hdrAt x.obj)).toNat

/-- The elements of the tile that a slot holds, row by row, as `tstore` stores them with the entry `e` and the tile's row and column in
`rc` (R152). -/
def tileElems (e : Entry) (sl : Slot) (rc : W64) : Stores :=
  ⟨Entry.data e, Fp.width (Entry.fmt e), (List.range 32).flatMap (fun j =>
    let (r, i0, cnt) := tileSpan e rc j
    (List.range cnt).map (fun n => (ptrAddr (Entry.data e) + 16 + Entry.off e (i0 + n) r,
      if Fp.width (Entry.fmt e) = 4 then 4 * ((i0 + n) % 2) else 0, sl.elem (Entry.fmt e) j n)))⟩

/-- The scales of the blocks that are stored (R152). -/
def tileScales (e : Entry) (sl : Slot) (rc : W64) : Stores :=
  ⟨Entry.scale e, 8, (List.range 32).flatMap (fun j =>
    let (r, i0, cnt) := tileSpan e rc j
    ((List.range (sideBytes (Entry.fmt e))).filter (fun n => decide (32 * n < cnt))).map (fun n =>
      (ptrAddr (Entry.scale e) + 16 + (r * Entry.bpr e + i0 / 32 + n), 0, sl.sideAt (sideBytes (Entry.fmt e) * j + n) 1)))⟩

/-- The value that `astore` stores for cell `k`, with the flags of its rounding (R164). -/
def storeValue (e : Entry) (a : Acc) (md : Fp.Mode) (k : Nat) : Nat × Fp.Flags :=
  if Entry.fmt e = 8 then ((a.cells.getD k 0).toNat, 0)
  else Fp.round (Fp.decode 9 (cellB (a.cells.getD k 0))) (Entry.fmt e) md k

/-- The cells of the block at `rc` that lie inside the tensor, in the order of their rows. -/
def blockCells (e : Entry) (rc : W64) : List Nat := (List.range 1024).filter (fun k => (blockAt e rc (k / 32) (k % 32)).2.2)

/-- The place of cell `k` of the block at `rc`: its byte in the pad (R164). -/
def cellAt (e : Entry) (rc : W64) (k : Nat) : Nat :=
  let (r, c, _) := blockAt e rc (k / 32) (k % 32)
  ptrAddr (Entry.data e) + 16 + Entry.off e c r

/-- The block that `astore` stores. -/
def blockElems (e : Entry) (rc : W64) (a : Acc) (md : Fp.Mode) : Stores :=
  ⟨Entry.data e, Fp.width (Entry.fmt e), (blockCells e rc).map (fun k => (cellAt e rc k, 0, (storeValue e a md k).1))⟩

/-- The logical core once the cells that a mark of accumulator `n` names have become NaNs, and NANF is set (R161). -/
def LCore.drained (n : BitVec 2) (f64 : Bool) (c : LCore) : LCore :=
  let a := c.getA n
  let nan : W64 := if c.aff n then 0x7FC000007FC00000 else if f64 then 0x7FF8000000000000 else 0x7FC00000
  if a.rf = 0 ∧ a.cf = 0 then c
  else (c.setA n { a with
    cells := Vector.ofFn (fun k => if a.rf.getLsbD (k.val / 32) || a.cf.getLsbD (k.val % 32) then nan else a.cells.get k)
    rf := 0, cf := 0 }).setAstatBit (8 + n.toNat) true

/-- Nothing of the coprocessor is outstanding or in the way of a coprocessor word: no write waits to land, no tile row loads, no late
fault waits or has been put off, no handler of one runs, no instruction freezes it, its units are free, the ring has room, and every ring entry
is complete and has written, under another number than the one that comes next. -/
def LCore.clear (c : LCore) : Bool :=
  c.pend == [] && c.loads == [] && c.late == none && c.posts == [] && c.handler == 0 && c.frozenAt == none && !c.ringFull &&
    decide (max c.copNext (max c.vecFree c.matFree) ≤ c.ccy) &&
    c.ring.all (fun r => r.state == .complete && decide (r.time < c.ccy) && r.seq != c.nextSeq)

/-- A coprocessor word may dispatch and issue at once. -/
def State.copReady (s : State) (i : Instr) : Bool := s.passes i && s.cur.clear

/-- The ring entry that the dispatch of `i` makes, as it stands when it issues (R62, R66). -/
def RingEntry.issuing (c : LCore) (i : Instr) (k : Capture) : RingEntry :=
  { c.entry i k with state := .issued }

/-- The logical core in which a word that has just been dispatched does its work on an idle unit: in the cycle of its dispatch (R63). -/
def LCore.issuing (i : Instr) (k : Capture) (c : LCore) : LCore :=
  { c with
    ring := (c.ring ++ [RingEntry.issuing c i k]).drop (c.ring.length + 1 - 64)
    nextSeq := c.nextSeq + 1
    copNext := c.ccy + 1 }

/-- What every coprocessor word that completes leaves: the pc past the word, the sequence number one on, no late fault, and its ring
entry complete (R62, R66). -/
def CopDone (s : State) (i : Instr) (t : State) : Prop :=
  t.cur.pc = s.cur.passed.pc ∧ t.cur.nextSeq = s.cur.nextSeq + 1 ∧ t.cur.late = none ∧
    ∃ r, t.cur.entryOf s.cur.nextSeq = some r ∧ r.state = .complete ∧ r.instr = i ∧ r.addr = s.cur.pc

/-- The logical core once every write that waits has landed (R63). -/
def LCore.settled (c : LCore) : LCore := c.land c.quietAt

/-- `t` is `s` after the coprocessor word `i` that issued at once (R62, R63): the pc is past it and its ring entry complete; beside the
trace of time only writes that wait to land, the x registers, the sticky flags and what is kept of work that can be stopped on its way (R354)
may differ. -/
def CopChange (s : State) (i : Instr) (t : State) : Prop :=
  CopDone s i t ∧
    t = { s with
      clk := t.clk
      cur := { s.cur.passed with
        ring := t.cur.ring, nextSeq := t.cur.nextSeq, copNext := t.cur.copNext, vecFree := t.cur.vecFree,
        matFree := t.cur.matFree, pend := t.cur.pend, ccy := t.cur.ccy, xrdy := t.cur.xrdy, fstat := t.cur.fstat,
        work := t.cur.work, x := t.cur.x } }

/-- The same, where the sticky flags of work that can be stopped on its way gain what the sticky flags gain. -/
def CopFrame (s : State) (i : Instr) (t : State) : Prop :=
  CopChange s i t ∧
    ∃ fl, t.cur.fstat = s.cur.fstat ||| fl ∧ t.cur.work = s.cur.work.map (fun w => { w with fstat := w.fstat ||| fl })

/-- Once all writes have landed the vector register v`d`, in elements of `w` bits, holds the low `w` bits of `g j` in each element `j`
that `g` gives and its old value in every other (R119, R120); no other v, m or x register has changed, and the sticky flags have gained
`fl` (R38). -/
def VecResult (s t : State) (d : BitVec 5) (w : Nat) (fl : Fp.Flags) (g : Nat → Option Nat) : Prop :=
  (∀ j, j < 512 / w → elemAt (t.cur.settled.getV d) w j = ((g j).map (· % 2 ^ w)).getD (elemAt (s.cur.getV d) w j)) ∧
    (∀ r, r ≠ d → t.cur.settled.getV r = s.cur.getV r) ∧ t.cur.settled.m = s.cur.m ∧ t.cur.x = s.cur.x ∧
    t.cur.fstat = s.cur.fstat ||| fl.setWidth 64

/-- The word `i` completes with the elements `g` in v`d` and the flags `fl`. -/
def GivesElems (s : State) (i : Instr) (d : BitVec 5) (w : Nat) (fl : Fp.Flags) (g : Nat → Option Nat) : Prop :=
  ∃ t, exec i s = .next t ∧ CopFrame s i t ∧ VecResult s t d w fl g

/-- Element `j` of type `t` is active under VL and selected by the mask register m`m` and NEG (R119, R120). -/
def LCore.takes (c : LCore) (t : BitVec 4) (m : BitVec 3) (n : BitVec 1) (j : Nat) : Bool :=
  decide (j < activeElems c.vl t.toNat) && laneSel (c.getM m) n (elemBytes t.toNat * j)

/-- The flags of all the elements that are taken. -/
def LCore.flagsOf (c : LCore) (t : BitVec 4) (m : BitVec 3) (n : BitVec 1) (f : Nat → Fp.Flags) : Fp.Flags :=
  ((List.range (activeElems c.vl t.toNat)).filter (fun j => laneSel (c.getM m) n (elemBytes t.toNat * j))).foldl
    (fun fl j => fl ||| f j) 0

/-- Each element of v`d` that is taken becomes a function of its index and of the elements of v`a`, v`b` and the old v`d` there, under
the modes of FMODE, and raises the flags that the function names. -/
def Elementwise (mk : BitVec 5 → BitVec 5 → BitVec 5 → BitVec 3 → BitVec 1 → BitVec 4 → Instr)
    (f : Nat → Fp.Mode → Nat → Nat → Nat → Nat → Nat × Fp.Flags) : Prop :=
  ∀ (s : State) (d a b : BitVec 5) (m : BitVec 3) (n : BitVec 1) (t : BitVec 4), s.copReady (mk d a b m n t) = true →
    let w := Fp.width t.toNat
    let r := fun j => f t.toNat s.cur.mode j (elemAt (s.cur.getV a) w j) (elemAt (s.cur.getV b) w j) (elemAt (s.cur.getV d) w j)
    GivesElems s (mk d a b m n t) d w (s.cur.flagsOf t m n (fun j => (r j).2))
      (fun j => if s.cur.takes t m n j then some (r j).1 else none)

/-- The elements of type `t` that are active under VL and selected, in increasing number (R119, R120). -/
def LCore.picks (c : LCore) (t : BitVec 4) (m : BitVec 3) (n : BitVec 1) : List Nat :=
  (List.range (activeElems c.vl t.toNat)).filter (fun j => laneSel (c.getM m) n (elemBytes t.toNat * j))

/-- The nodes of a reduction or scan over v`a`: the selected active elements, and absent ones between them (R130, R131). -/
def LCore.nodes (c : LCore) (a : BitVec 5) (t : BitVec 4) (m : BitVec 3) (n : BitVec 1) : List Node :=
  (List.range (activeElems c.vl t.toNat)).map (fun j =>
    if laneSel (c.getM m) n (elemBytes t.toNat * j) then some (elemAt (c.getV a) (Fp.width t.toNat) j) else none)

/-- The word `i` completes with the value `v` in x`d`, and changes no v or m register and no flag. -/
def GivesX (s : State) (i : Instr) (d : BitVec 5) (v : W64) : Prop :=
  ∃ t, exec i s = .next t ∧ CopFrame s i t ∧ (∀ r, t.cur.getX r = if r = d ∧ d ≠ 0 then v else s.cur.getX r) ∧
    t.cur.settled.v = s.cur.v ∧ t.cur.settled.m = s.cur.m ∧ t.cur.fstat = s.cur.fstat

/-- The word `i` completes; once all writes have landed the bits that `g` gives stand in m`d` and its other bits are as before; a write
naming m0 is discarded (R22); no other m, v or x register has changed, and the sticky flags have gained `fl`. -/
def GivesMask (s : State) (i : Instr) (d : BitVec 3) (fl : Fp.Flags) (g : Nat → Option Bool) : Prop :=
  ∃ t, exec i s = .next t ∧ CopFrame s i t ∧
    (d ≠ 0 → ∀ k, k < 64 → (t.cur.settled.getM d).getLsbD k = (g k).getD ((s.cur.getM d).getLsbD k)) ∧
    (∀ r, r ≠ d ∨ d = 0 → t.cur.settled.getM r = s.cur.getM r) ∧ t.cur.settled.v = s.cur.v ∧ t.cur.x = s.cur.x ∧
    t.cur.fstat = s.cur.fstat ||| fl.setWidth 64

/-- A compare sets all the mask bits of the lanes of each element it takes to the value of `f` there (R126). -/
def Compares (mk : BitVec 3 → BitVec 5 → BitVec 5 → BitVec 3 → BitVec 1 → BitVec 4 → Instr) (f : Nat → Nat → Nat → Bool × Fp.Flags) :
    Prop :=
  ∀ (s : State) (d : BitVec 3) (a b : BitVec 5) (m : BitVec 3) (n : BitVec 1) (t : BitVec 4), s.copReady (mk d a b m n t) = true →
    let w := Fp.width t.toNat
    let r := fun j => f t.toNat (elemAt (s.cur.getV a) w j) (elemAt (s.cur.getV b) w j)
    GivesMask s (mk d a b m n t) d (s.cur.flagsOf t m n (fun j => (r j).2))
      (fun k => if s.cur.takes t m n (k / elemBytes t.toNat) then some (r (k / elemBytes t.toNat)).1 else none)

/-- `t` is `s` after the coprocessor word `i` that did `f` to the logical core: the frame is that of `f`, and no v, m or x register is
written. -/
def EffectOf (s : State) (i : Instr) (f : LCore → LCore) (t : State) : Prop :=
  CopFrame (s.modCur f) i t ∧ t.cur.settled.v = s.cur.v ∧ t.cur.settled.m = s.cur.m ∧ t.cur.x = s.cur.x ∧
    t.cur.fstat = (f s.cur).fstat

/-- The coprocessor word `i` completes and does `f` to the logical core. -/
def CopEffect (s : State) (i : Instr) (f : LCore → LCore) : Prop := ∃ t, exec i s = .next t ∧ EffectOf s i f t

/-- `t` is `s` after the coprocessor word `i` that did `f` to the logical core and stored what the list names in pads; no v, m or x register
is written. What is kept of work that can be stopped on its way (R354) is left open. -/
def StoresOf (s : State) (i : Instr) (f : LCore → LCore) (l : List Stores) (t : State) : Prop :=
  CopChange { s.modCur f with pads := t.pads } i t ∧ Stored s t l ∧ t.cur.settled.v = s.cur.v ∧ t.cur.settled.m = s.cur.m ∧
    t.cur.x = s.cur.x ∧ t.cur.fstat = (f s.cur).fstat

/-- The coprocessor word `i` completes, does `f` to the logical core and stores what the list names in pads. -/
def CopStores (s : State) (i : Instr) (f : LCore → LCore) (l : List Stores) : Prop := ∃ t, exec i s = .next t ∧ StoresOf s i f l t

/-- The state in which the late fault that a completed instruction has raised does not wait (R66). -/
def State.noLate (t : State) : State := t.modCur (fun c => { c with late := none })

/-- The coprocessor word `i` completes, its late fault `e` waits (R66), and beside that fault it leaves a state in the relation `p`. -/
def CopPosts (s : State) (i : Instr) (e : Exn) (p : State → Prop) : Prop :=
  ∃ t, exec i s = .next t ∧ t.cur.late = some ⟨s.cur.nextSeq, e⟩ ∧ p t.noLate

/-- The coprocessor word `i`, of the unit `u` and with the x registers `uses`, completes wherever what it captures, `k` in the state `v`,
and its work `act` at issue can be performed: it leaves the state of that work, its writes waiting to land in the cycle of its latency, in order
behind those of the same cycle, its unit busy, and its ring entry complete (R62, R63). Where its unit is busy, or another instruction has issued in this cycle, it waits in
the queue with what it has captured, and nothing else has changed (R62, R63). -/
def CopRuns (s : State) (i : Instr) (uses : List (BitVec 5)) (u : CopUnit) (prep : Ex Capture) (act : RingEntry → Ex Issued) : Prop :=
  ∀ (k : Capture) (v v' : State) (w : Issued), s.passes i = true → s.cur.handler = 0 → (s.awaited uses).cur.ringFull = false →
    prep (s.awaited uses) = .ok k v → v.pinRoom (capturedPins k.ptr.ptr k.entry) = true →
    (s.cur.flowing = true → v.cur.clear = true → u.frozen (v.modCur (LCore.dispatched i k)) (v.cur.entry i k) = false →
      act (RingEntry.issuing v.cur i k) (v.modCur (LCore.issuing i k)) = .ok w v' → w.xw = none → w.post = none → w.goesOn = false →
      exec i s = .next { v' with
        clk := v'.clk + 1
        cur := { v'.cur.passed with
          ring := v'.cur.ring.map (fun x =>
            if x.seq == v.cur.nextSeq then { x with state := .complete, time := v.cur.ccy + max w.lat w.busy } else x)
          pend := w.writes.foldl (fun l d => insertWrite ⟨v.cur.ccy + w.lat, d⟩ l) v'.cur.pend
          vecFree := if u.mat then v'.cur.vecFree else v.cur.ccy + w.busy
          matFree := if u.mat then v.cur.ccy + w.busy else v'.cur.matFree
          ccy := v'.cur.ccy + 1 } }) ∧
    (v.cur.ccy < max v.cur.copNext (if u.mat then v.cur.matFree else v.cur.vecFree) →
      exec i s = .next { v with
        clk := v.clk + 1
        cur := { v.cur.passed with
          ring := (v.cur.ring ++ [v.cur.entry i k]).drop (v.cur.ring.length + 1 - 64)
          nextSeq := v.cur.nextSeq + 1
          ccy := v.cur.ccy + 1 } })

/-- No write of the coprocessor waits to land, no tile row loads, and no late fault waits or would come to wait: a drain has nothing to wait
for (R330, R333). -/
def LCore.calm (c : LCore) : Bool := c.pend == [] && c.loads == [] && c.late == none && (c.posts == [] || c.handler != 0)

/-- In the handler of a late fault no faulted entry stands in the ring and none that has not issued, so that a word that waits as `cdrain`
does may run (R118, R333). -/
def LCore.mayDrain (c : LCore) : Prop := c.retakes = none ∧ (c.handler = 0 ∨ c.notIssued = false)

/-- The word waits at its point: the pc is at the first word of its unit, and the logical core is blocked for `b` (R17, R249). -/
def Waits (s : State) (i : Instr) (b : Block) : Prop :=
  ∃ t, exec i s = .next t ∧ t.cur.blk = some b ∧ t.cur.pc = s.cur.unitStart ∧
    t = { s with clk := t.clk, cur := { s.cur.rewind with blk := some b, ccy := t.cur.ccy } }

/-- Two states agree on everything but the logical core that moves, its trace of time, and the values taken from the outside. -/
def SameOutside (s t : State) : Prop := t = { s with cur := t.cur, clk := t.clk }

/-- A byte of the memory of the part, of host memory, or of a pad; the part holds no byte of another package. -/
def State.byteAt (s : State) : Loc → Byte
  | .pad id off => Mem.read (s.pad id).mem off
  | .phys true _ pa => Mem.read s.hostMem pa
  | .phys false _ pa => Mem.read s.mem pa
  | .away => 0

/-- Every byte of every memory is as before. -/
def SameBytes (s t : State) : Prop := ∀ l, t.byteAt l = s.byteAt l

/-- The bank that the level `l` uses: machine for 3, supervisor for the others (R31, R288). -/
def LCore.bankOf (l : BitVec 2) (c : LCore) : Bank := if l = 3 then c.mbank else c.sbank

/-- `t` is `s` after the entry of a trap or interrupt of code `code` at the level `tgt` and the address `entry` (R331): the bank of that
level holds the cause, the point, the two values and the repetition state, the last sequence number and that of the faulted entry for a late
fault; STATUS holds the old level and enable and the new level; no other register of the logical core, no other logical core and no pad has
changed. -/
def Entered (s : State) (int : Bool) (late : Option (BitVec 16)) (e : Exn) (tgt : BitVec 2) (entry : W64) (t : State) : Prop :=
  t.cur.bankOf tgt = {
    cause := (if int then 0x8000000000000000 else 0) ||| (if late.isSome then 0x4000000000000000 else 0) ||| e.code.setWidth 64
    epc := s.cur.unitStart
    tval := e.tval
    tval2 := e.tval2
    cseq := match late with
      | some q => (s.cur.nextSeq - 1).setWidth 64 <<< 16 ||| q.setWidth 64
      | none => (s.cur.bankOf tgt).cseq
    srepc := s.cur.unitRepc } ∧
  t.cur.pl = tgt ∧ t.cur.ie = false ∧ t.cur.ppl = s.cur.pl ∧ t.cur.pie = s.cur.ie ∧
  t.cur.status &&& ~~~(0xB7 : W64) = s.cur.status &&& ~~~(0xB7 : W64) ∧
  t.cur = { s.cur with
    mbank := if tgt = 3 then t.cur.mbank else s.cur.mbank
    sbank := if tgt = 3 then s.cur.sbank else t.cur.sbank
    repc := s.cur.unitRepc &&& ~~~(0x20000000 : W64)
    status := t.cur.status
    pc := entry
    unit := none, pfx := none, blk := none, ccy := t.cur.ccy
    late := if late.isSome then none else s.cur.late
    handler := if late.isSome then 1 else if s.cur.handler = 0 then 0 else s.cur.handler + 1
    taken := (late.map (fun q => ⟨q, e⟩)).or s.cur.taken } ∧
  t.others = s.others ∧ t.pads = s.pads

/-- Trap entry at the level R288 names: for a supervisor trap at SVEC of the context, for a machine trap at the machine entry (R331). -/
def TrapTaken (s : State) (int : Bool) (late : Option (BitVec 16)) (e : Exn) (t : State) : Prop :=
  let tgt := s.trapTarget e.code int
  Entered s int late e tgt (if tgt = 3 then Config.machineEntry else s.ctxWord s.cur.ctx 6) t

end Sys2Proof.Machine
end

