-- ==== Sys2Proof/Certificates/Slice0/Obligations.lean ====
section
/-! DEFINITION. The claims about the model: encodings, the step, what each instruction and each event does and leaves alone, traps,
and the checks of decode. -/

section

open Sys2Proof Sys2Proof.Machine

/-! ### Encoding (R46 to R60) -/

/-- Words written out in the spec decode to the instructions they stand for (R48, R49, R113, R116, R117, R253, R301). -/
def Obligations.DecodeWords : Prop :=
  decode 0x30533004 = some (.ld 5 3 0 6 4) ∧ decode 0xFC000012 = some (.immx 0x12) ∧ decode 0x06738345 = some (.addi 7 7 0x345) ∧
  decode 0x241FFF7C = some (.call 1 0xFFF7C) ∧ decode 0x20601FFC = some (.bNe 6 0 0xFFC) ∧ decode 0x02738032 = some (.popc 7 7) ∧
  decode 0x28200040 = some (.rep 2 0 4 0) ∧ decode 0x42E35808 = some (.vadd 14 6 22 0 0 2) ∧
  decode 0xA0048C88 = some (.sendv 9 3 8) ∧ decode 0xB0031052 = some (.wrs 6 0x52) ∧ decode 0xB2001000 = some .eret ∧
  decode 0xB4052C00 = some (.sfence 10 11)

/-- Decoding the word of a well-formed instruction gives the instruction back, with every operand at every value; and a word that decodes
is the word of what it decodes to, so that no bit of a word is dropped and no two words decode alike (R46 to R60). -/
def Obligations.DecodeAndEncodeAgree : Prop :=
  (∀ i : Instr, i.wf = true → ∀ w : W32, encode i = some w → decode w = some i) ∧
  (∀ (w : W32) (i : Instr), decode w = some i → encode i = some w)


/-! ### The machine as a whole (R366, R378) -/

/-- After reset and bring-up every queue is disabled, the frame owner table is empty, every byte of every pad is zero, no gang
exists, no load request and no satchel request waits or is under way and no image is held, no message of another die waits, the clocks run,
every byte list is in its canonical form, and every sequence ring is empty (R378; that the x registers hold zero is the model's choice, log entry 1). -/
def Obligations.ResetFacts : Prop :=
  (∀ k : Fin 256, (Machine.State.reset.queues.get k).state = 3) ∧ Machine.State.reset.frameOwner = [] ∧
  (∀ id a, Mem.read (Machine.State.reset.pad id).mem a = 0) ∧ Machine.State.reset.gangs = [] ∧ Machine.State.reset.images = [] ∧
  Machine.State.reset.ldq = [] ∧ Machine.State.reset.loading = none ∧ Machine.State.reset.mg.satctl = 0 ∧
  Machine.State.reset.inputs = [] ∧ Machine.State.reset.msgs = [] ∧ Machine.State.reset.frozen = false ∧ (∀ r, Machine.State.reset.cur.getX r = 0) ∧ Machine.State.reset.memOk = true ∧
  Machine.State.reset.cur.ring = [] ∧ Machine.State.reset.ringsOk = true

/-- A part whose clocks are stopped stays as it is, but for the inputs it takes and what the test access port has read out: only a reset starts
it again (R366). -/
def Obligations.FrozenKept : Prop :=
  ∀ s t : Machine.State, s.frozen = true → step s = .next t →
    t = { s with inputs := t.inputs, readout := t.readout } ∨ (∃ l, s.inputs = .reset :: l)

/-- Every step keeps the memory of the part and of the host, the pads, and those that in-place images hold, in their canonical form: of every
state, whatever the word or the event, so that equal memories are equal data. That form is the model's, not the spec's. -/
def Obligations.StepKeepsMemories : Prop :=
  ∀ s t : Machine.State, s.memOk = true → step s = .next t → t.memOk = true

/-- Every step keeps the sequence ring of every logical core, of those that in-place images hold too, within 64 entries (R62). -/
def Obligations.StepKeepsRings : Prop :=
  ∀ s t : Machine.State, s.ringsOk = true → step s = .next t → t.ringsOk = true

/-! ### Scalar words (R99 to R104) -/

/-- `add` to `mulhz` and the logical operations write the results of the table of R99; nothing else changes but the pc and time. Shifts and
rotations take the low six bits of B as their distance; comparisons give 1 or 0; `min` to `maxz` the lesser or the greater; `cmov` keeps the
old register where B is zero (R99). `div`, `rem`, `divz` and `remz`, with their results for a zero divisor and for the quotient that does not
fit (R100). -/
def Obligations.ScalarArithmetic : Prop :=
  (Computes2 .add (fun a b => BitVec.ofNat 64 (a.toNat + b.toNat)) ∧
    Computes2 .sub (fun a b => BitVec.ofInt 64 (a.toInt - b.toInt)) ∧
    Computes2 .mul (fun a b => BitVec.ofInt 64 (a.toInt * b.toInt)) ∧
    Computes2 .mulh (fun a b => BitVec.ofInt 64 (a.toInt * b.toInt / 2 ^ 64)) ∧
    Computes2 .mulhz (fun a b => BitVec.ofNat 64 (a.toNat * b.toNat / 2 ^ 64)) ∧
    Computes2 .and (fun a b => a &&& b) ∧ Computes2 .or (fun a b => a ||| b) ∧ Computes2 .xor (fun a b => a ^^^ b) ∧
    Computes2 .andn (fun a b => a &&& ~~~b) ∧
    Computes2 .shl (fun a b => BitVec.ofNat 64 (a.toNat * 2 ^ (b.toNat % 64))) ∧
    Computes2 .shr (fun a b => BitVec.ofNat 64 (a.toNat / 2 ^ (b.toNat % 64))) ∧
    Computes2 .sar (fun a b => BitVec.ofInt 64 (a.toInt / 2 ^ (b.toNat % 64))) ∧
    Computes2 .rol (fun a b => a.rotateLeft (b.toNat % 64)) ∧ Computes2 .ror (fun a b => a.rotateRight (b.toNat % 64)) ∧
    Computes2 .slt (fun a b => if a.toInt < b.toInt then 1 else 0) ∧
    Computes2 .sltz (fun a b => if a.toNat < b.toNat then 1 else 0) ∧
    Computes2 .min (fun a b => if a.toInt ≤ b.toInt then a else b) ∧
    Computes2 .max (fun a b => if a.toInt ≤ b.toInt then b else a) ∧
    Computes2 .minz (fun a b => if a.toNat ≤ b.toNat then a else b) ∧
    Computes2 .maxz (fun a b => if a.toNat ≤ b.toNat then b else a) ∧
    ∀ (s : State) (d a b : BitVec 5), s.passes (.cmov d a b) = true →
      Writes s (.cmov d a b) d (if s.cur.getX b = 0 then s.cur.getX d else s.cur.getX a)) ∧
  (∀ (s : State) (d a b : BitVec 5),
      let x := s.cur.getX a
      let y := s.cur.getX b
      (s.passes (.div d a b) = true → Writes s (.div d a b) d
        (if y = 0 then 0xFFFFFFFFFFFFFFFF
         else if x.toInt = -2 ^ 63 ∧ y.toInt = -1 then 0x8000000000000000 else BitVec.ofInt 64 (x.toInt.tdiv y.toInt))) ∧
      (s.passes (.rem d a b) = true → Writes s (.rem d a b) d
        (if y = 0 then x else if x.toInt = -2 ^ 63 ∧ y.toInt = -1 then 0 else BitVec.ofInt 64 (x.toInt.tmod y.toInt))) ∧
      (s.passes (.divz d a b) = true → Writes s (.divz d a b) d
        (if y = 0 then 0xFFFFFFFFFFFFFFFF else BitVec.ofNat 64 (x.toNat / y.toNat))) ∧
      (s.passes (.remz d a b) = true → Writes s (.remz d a b) d
        (if y = 0 then x else BitVec.ofNat 64 (x.toNat % y.toNat))))

/-- The immediate operations, with the immediate joined from a prefix where there is one; and the upper immediates: I times 4,096, and the
address of the `aupc` word plus it (R101, R104, R49). -/
def Obligations.ImmediateOperations : Prop :=
  (ComputesI .addi (fun a n => BitVec.ofInt 64 (a.toInt + n)) ∧ ComputesI .andi (fun a n => a &&& BitVec.ofInt 64 n) ∧
    ComputesI .ori (fun a n => a ||| BitVec.ofInt 64 n) ∧ ComputesI .xori (fun a n => a ^^^ BitVec.ofInt 64 n) ∧
    ComputesI .slti (fun a n => if a.toInt < n then 1 else 0) ∧
    ComputesI .sltzi (fun a n => if a.toNat < (BitVec.ofInt 64 n).toNat then 1 else 0)) ∧
  (∀ (s : State) (d : BitVec 5) (n : BitVec 20),
      let i : Int := match s.cur.pfx with | none => n.toInt | some p => (p ++ n).toInt
      (s.passes (.lup d n) = true → Writes s (.lup d n) d (BitVec.ofInt 64 (i * 4096))) ∧
      (s.passes (.aupc d n) = true → Writes s (.aupc d n) d (BitVec.ofInt 64 (s.cur.pc.toInt + i * 4096))))

/-- The bit operations of one source, by what each bit of the result is; shifts by a constant, and the bit fields that `ext` takes out and
`ins` puts in, bit by bit (R99, R102). -/
def Obligations.BitOperations : Prop :=
  (Relates1 .clz (fun a v => v.toNat ≤ 64 ∧ (∀ k, k < v.toNat → a.getLsbD (63 - k) = false) ∧
      (v.toNat < 64 → a.getLsbD (63 - v.toNat) = true)) ∧
    Relates1 .ctz (fun a v => v.toNat ≤ 64 ∧ (∀ k, k < v.toNat → a.getLsbD k = false) ∧
      (v.toNat < 64 → a.getLsbD v.toNat = true)) ∧
    Relates1 .popc (fun a v => v.toNat = ((List.range 64).filter a.getLsbD).length) ∧
    Relates1 .brev (fun a v => ∀ k, k < 64 → v.getLsbD k = a.getLsbD (63 - k)) ∧
    Relates1 .bswap (fun a v => ∀ k, k < 8 → v.extractLsb' (8 * k) 8 = a.extractLsb' (8 * (7 - k)) 8)) ∧
  (∀ (s : State) (d a : BitVec 5) (n w p : BitVec 6),
      let x := s.cur.getX a
      let y := s.cur.getX d
      (s.passes (.shli d a n) = true → Writes s (.shli d a n) d (BitVec.ofNat 64 (x.toNat * 2 ^ n.toNat))) ∧
      (s.passes (.shri d a n) = true → Writes s (.shri d a n) d (BitVec.ofNat 64 (x.toNat / 2 ^ n.toNat))) ∧
      (s.passes (.sari d a n) = true → Writes s (.sari d a n) d (BitVec.ofInt 64 (x.toInt / 2 ^ n.toNat))) ∧
      (s.passes (.ext d a w p) = true → ∃ v, Writes s (.ext d a w p) d v ∧
        ∀ k, k < 64 → v.getLsbD k = (decide (k ≤ w.toNat) && x.getLsbD (k + p.toNat))) ∧
      (s.passes (.ins d a w p) = true → ∃ v, Writes s (.ins d a w p) d v ∧
        ∀ k, k < 64 → v.getLsbD k =
          if p.toNat ≤ k ∧ k ≤ p.toNat + w.toNat then x.getLsbD (k - p.toNat) else y.getLsbD k))

/-! ### The step, and control (R49 to R51, R105 to R117) -/

/-- Where nothing comes first and the word at the pc lies in an entered function, a step executes the instruction the word decodes to;
inside a repetition, with its v fields lowered for the passes that follow (R116). A point that the core waited at is left, and P of the
objects that are then pinned is set (R195). -/
def Obligations.StepRunsDecoded : Prop :=
  ∀ (s : State) (w : W32) (i : Instr), s.mayStep → s.entered s.cur.pc = true → s.wordAt s.cur.pc = some w → decode w = some i →
    step s = settle (exec (if repcAct s.cur.repc then i.shiftV (BitVec.ofNat 5 ((repcCnt s.cur.repc - 1) * (repcStrd s.cur.repc).toNat)) else i)
      (s.modCur (fun c => { c with blk := none })))

/-- The six branches, each on its condition (R112). Jumps and calls go to their target once it has been resolved and made resident; a call links
the address after its word (R113, R114, R106). -/
def Obligations.ControlTransfers : Prop :=
  (Branches .bEq (fun a b => a == b) ∧ Branches .bNe (fun a b => a != b) ∧
    Branches .bLt (fun a b => decide (a.toInt < b.toInt)) ∧ Branches .bGe (fun a b => decide (b.toInt ≤ a.toInt)) ∧
    Branches .bLtz (fun a b => decide (a.toNat < b.toNat)) ∧ Branches .bGez (fun a b => decide (b.toNat ≤ a.toNat))) ∧
  (∀ (s u : State) (d a : BitVec 5) (p : BitVec 4) (o : BitVec 20),
      let tgt := s.cur.pc + BitVec.ofInt 64 (s.cur.offsetOf o * 4)
      let ptr := (s.cur.getP p).ptr
      (s.passes (.j o) = true → enterCode tgt (s.awaited []) = .ok () u → ∃ t, exec (.j o) s = .next t ∧ Linked u 0 0 tgt t) ∧
      (s.passes (.call d o) = true → enterCode tgt (s.awaited [d]) = .ok () u →
        ∃ t, exec (.call d o) s = .next t ∧ Linked u d (s.cur.pc + 4) tgt t) ∧
      (s.passes (.jr a) = true → enterCode (s.cur.getX a) (s.awaited [a]) = .ok () u →
        ∃ t, exec (.jr a) s = .next t ∧ Linked u 0 0 (s.cur.getX a) t) ∧
      (s.passes (.callr d p) = true → ptr ≠ 0 → ptrMalformed ptr = false → ptrLvl ptr = 3 →
        (s.funcFrom (BitVec.ofNat 64 (ptrAddr ptr + 16))).isSome = true →
        enterCode (BitVec.ofNat 64 (ptrAddr ptr + 16)) (s.awaited [d]) = .ok () u →
        ∃ t, exec (.callr d p) s = .next t ∧ Linked u d (s.cur.pc + 4) (BitVec.ofNat 64 (ptrAddr ptr + 16)) t))

/-- Entering code: a target that is not a multiple of 4, or in no function of the code map, traps CODE_TARGET, reason 1 or 2; one in the
function that holds the pc, entered before, changes nothing; and entering never changes the logical core (R106, R107, R110). -/
def Obligations.CodeResolution : Prop :=
  ∀ (s : State) (tgt : W64),
    (tgt.toNat % 4 ≠ 0 → enterCode tgt s = .error ⟨cCODE_TARGET, tgt, 1⟩ s) ∧
    (tgt.toNat % 4 = 0 → s.funcAt tgt = none → enterCode tgt s = .error ⟨cCODE_TARGET, tgt, 2⟩ s) ∧
    (s.entered tgt = true → s.funcAt s.cur.pc = s.funcAt tgt → enterCode tgt s = .ok () s) ∧
    (∀ u, enterCode tgt s = .ok () u → u.cur = s.cur ∧ tgt.toNat % 4 = 0 ∧ (s.funcAt tgt).isSome)

/-- `rep`: a count of 0 skips the body; another starts the repetition with CNT, BLEN, POS 0, STRD and ACT as R116 says; a count above
65,535 traps OPERAND_RANGE with the count. A body that reaches past the function, that ends in a prefix, or that holds a transfer, `rep`,
`retire`, a superstep, barrier or task word or a system word but `rds` and `wrs`, traps ILLEGAL with the `rep` word. The pc and REPC after a word in sequence: out of a repetition the next word; inside, POS
counts the words of a pass, and at its end CNT the passes left, the body starting again until none is (R51, R115, R116).
The prefixes: `immx` keeps its payload for the next word, which must be able to take it; where it has no immediate field, is a prefix or a memory
word in mode 1 or 2, or where the function ends, `immx` traps ILLEGAL at itself, with that word, or its own, in TVAL. `hint` changes nothing but the number
of a scheduling hint, and for a successor hint what a prefetch changes outside the core; both keep the first word of the unit (R49 to
R51, R110). -/
def Obligations.RepetitionAndPrefixes : Prop :=
  ((∀ (s : State) (d a : BitVec 5) (n : BitVec 8) (l : BitVec 4), s.passes (.rep d a n l) = true →
        s.bodyFits (s.cur.pc + 4) (l.toNat + 1) = true →
        s.funcAt s.cur.pc = s.funcAt (s.cur.pc + BitVec.ofNat 64 (4 * (l.toNat + 1))) →
        let cnt := if a = 0 then n.toNat else (s.cur.getX a).toNat
        (cnt = 0 → ∃ t, exec (.rep d a n l) s = .next t ∧ Moved s (s.cur.pc + BitVec.ofNat 64 (4 * (l.toNat + 2))) t) ∧
        (0 < cnt → cnt ≤ 65535 → ∃ t, exec (.rep d a n l) s = .next t ∧
          Moved (s.modCur (fun c => { c with repc := t.cur.repc })) (s.cur.pc + 4) t ∧
          repcCnt t.cur.repc = cnt ∧ repcLen t.cur.repc = l.toNat ∧ repcPos t.cur.repc = 0 ∧ repcStrd t.cur.repc = d ∧
          repcAct t.cur.repc = true) ∧
        (65535 < cnt → exec (.rep d a n l) s = .next ((s.awaited [a]).takeTrap
          ⟨cOPERAND_RANGE, (wordOf (.rep d a n l)).setWidth 64, BitVec.ofNat 64 cnt⟩))) ∧
    (∀ (s : State) (d a : BitVec 5) (n : BitVec 8) (l : BitVec 4), s.passes (.rep d a n l) = true →
        s.bodyFits (s.cur.pc + 4) (l.toNat + 1) = false ∨ s.funcAt s.cur.pc ≠ s.funcAt (s.cur.pc + BitVec.ofNat 64 (4 * (l.toNat + 1))) →
        exec (.rep d a n l) s = .next ((s.awaited [a]).takeTrap ⟨cILLEGAL, (wordOf (.rep d a n l)).setWidth 64, 0⟩)) ∧
    (∀ (s : State) (a : W64) (n : Nat), s.bodyFits a n = true ↔ ∀ k, k < n → ∃ w, s.wordAt (a + BitVec.ofNat 64 (4 * k)) = some w ∧
        let op := w.toNat / 2 ^ 25
        ¬(0x10 ≤ op ∧ op ≤ 0x15) ∧ ¬(0x52 ≤ op ∧ op ≤ 0x54) ∧ ¬(0x59 ≤ op ∧ op ≤ 0x5C) ∧ (k + 1 = n → op ≠ 0x7E)) ∧
    (∀ (c : LCore),
        (repcAct c.repc = false → c.passed.pc = c.pc + 4 ∧ c.passed.repc = c.repc) ∧
        (repcAct c.repc = true →
          repcStrd c.passed.repc = repcStrd c.repc ∧ repcLen c.passed.repc = repcLen c.repc ∧
          (repcPos c.repc ≠ repcLen c.repc → repcPos c.repc < 15 → c.passed.pc = c.pc + 4 ∧ repcPos c.passed.repc = repcPos c.repc + 1 ∧
            repcCnt c.passed.repc = repcCnt c.repc ∧ repcAct c.passed.repc = true) ∧
          (repcPos c.repc = repcLen c.repc → 1 < repcCnt c.repc →
            c.passed.pc = c.pc - BitVec.ofNat 64 (4 * repcLen c.repc) ∧ repcPos c.passed.repc = 0 ∧
            repcCnt c.passed.repc = repcCnt c.repc - 1 ∧ repcAct c.passed.repc = true) ∧
          (repcPos c.repc = repcLen c.repc → repcCnt c.repc = 1 →
            c.passed.pc = c.pc + 4 ∧ repcCnt c.passed.repc = 0 ∧ repcAct c.passed.repc = false)))) ∧
  (∀ (s : State) (p : BitVec 22),
      (s.passes (.immx p) = true → (∃ w, s.wordAt (s.cur.pc + 4) = some w ∧ ∀ j, decode w = some j → j.takesImmx = true) →
        ∃ t, exec (.immx p) s = .next t ∧ t = { s with
          clk := t.clk
          cur := { s.cur.advance with unit := some s.cur.unitStart, pfx := some p, ccy := t.cur.ccy } }) ∧
      (s.passes (.immx p) = true →
        let trap := fun (w : W32) => exec (.immx p) s =
          .next (((s.awaited []).modCur (fun c => { c with unit := none, pfx := none })).takeTrap ⟨cILLEGAL, w.setWidth 64, 0⟩)
        (s.wordAt (s.cur.pc + 4) = none → trap (wordOf (.immx p))) ∧
        (∀ w j, s.wordAt (s.cur.pc + 4) = some w → decode w = some j → j.takesImmx = false → trap w)) ∧
      (Instr.immx p).takesImmx = false ∧ (Instr.hint p).takesImmx = false ∧
      (∀ d a b, (Instr.add d a b).takesImmx = false) ∧ (∀ d a n, (Instr.addi d a n).takesImmx = true) ∧
      (∀ d q m z o, (Instr.ld d q m z o).takesImmx = (m != 1 && m != 2) ∧ (Instr.st d q m z o).takesImmx = (m != 1 && m != 2)) ∧
      (∀ d q m o, (Instr.ldp d q m o).takesImmx = (m != 1 && m != 2) ∧ (Instr.stp d q m o).takesImmx = (m != 1 && m != 2)) ∧
      (s.passes (.hint p) = true → ∃ t, exec (.hint p) s = .next t ∧
        t.cur = { s.cur.advance with
          unit := some s.cur.unitStart
          hint := if p.toNat / 2 ^ 19 = 0 then p.extractLsb' 0 19 else s.cur.hint
          ccy := t.cur.ccy } ∧
        (p.toNat / 2 ^ 19 ≠ 2 → t = { s with clk := t.clk, cur := t.cur })))

/-! ### Memory words (R23, R24, R48, R67, R188, R189) -/

/-- The offset of the memory form in its four modes, the traps of its checks in their order, and an object of a pad whose operand is in
place: the header is as it stands, and of a copy it becomes the one touched last (R23, R24, R48, R67, R185). -/
def Obligations.OperandForms : Prop :=
  ∀ (s : State) (p : BitVec 4) (m : BitVec 2) (o : BitVec 11) (n : Nat),
    let pr := s.cur.getP p
    let off : Int := if m = 0 then joinedNat s.cur o * n else if m = 1 then pr.cur.toNat
      else if m = 2 then (s.cur.getX (o.extractLsb' 0 5)).toNat * n else pr.cur.toNat + s.cur.offsetOf o * n
    (pr.ptr = 0 → memOperand p m o n s = .error ⟨cOBJ_NULL, 0, 0⟩ s) ∧
    (pr.ptr ≠ 0 → ptrMalformed pr.ptr = true → memOperand p m o n s = .error ⟨cOBJ_MALFORMED, pr.ptr, 0⟩ s) ∧
    (pr.ptr ≠ 0 → ptrMalformed pr.ptr = false → off < 0 ∨ pr.len.toNat < off + n →
      memOperand p m o n s = .error ⟨cOBJ_BOUND, BitVec.ofInt 64 off, pr.len.setWidth 64⟩ s) ∧
    (s.padded p → pr.ptr ≠ 0 → ptrMalformed pr.ptr = false → 0 ≤ off → off + n ≤ pr.len.toNat → (m = 1 → pr.cur.toNat + n < 2 ^ 32) →
      4 ≤ hdrKind (s.hdrOf p) → memOperand p m o n s = .error ⟨cOBJ_MALFORMED, pr.ptr, 0⟩ s) ∧
    (s.inPlace p → 0 ≤ off → off + n ≤ pr.len.toNat → (m = 1 → pr.cur.toNat + n < 2 ^ 32) →
      memOperand p m o n s = .ok (off.toNat, s.hdrOf p) (s.modCur (LCore.touched (s.hdrOf p) pr.ptr)))

/-- `ld` of an operand that lies in a pad and is in place: the register takes the bytes there, little-endian and extended; the cursor
advances in the post-increment mode; nothing else changes, in memory or elsewhere (R48, R188, R4). -/
def Obligations.LoadsInPlace : Prop :=
  ∀ (s : State) (d : BitVec 5) (p : BitVec 4) (m : BitVec 2) (z : BitVec 3) (o : BitVec 11) (off : Nat),
    s.passes (.ld d p m z o) = true → s.inPlace p → memOffset s.cur p m o (sizeBytes z) = off →
    off + sizeBytes z ≤ (s.cur.getP p).len.toNat → (m = 1 → (s.cur.getP p).cur.toNat + sizeBytes z < 2 ^ 32) →
    let c := s.cur.touched (s.hdrOf p) (s.cur.getP p).ptr
    ∃ t, exec (.ld d p m z o) s = .next t ∧
      (∀ r, t.cur.getX r = if r = d ∧ d ≠ 0
        then extendLoad z (Mem.readN (s.pad (s.padOf p)).mem (s.offOf p + 16 + off) (sizeBytes z)) else s.cur.getX r) ∧
      (∀ r, t.cur.getP r = (s.cur.stepped p m (sizeBytes z)).getP r) ∧
      t = { s with
        clk := t.clk
        cur := { c.passed with x := t.cur.x, p := t.cur.p, ccy := t.cur.ccy, xrdy := t.cur.xrdy } }

/-- `st` to an operand that lies in a pad and is in place: the bytes from the header's offset plus 16 plus the operand's offset become
those of the register, lowest first; a copy gets D and these bytes in its dirty mask; every other byte of every memory, and all else but
the cursor of the post-increment mode, is as before (R48, R188, R185). -/
def Obligations.StoresInPlace : Prop :=
  ∀ (s : State) (d : BitVec 5) (p : BitVec 4) (m : BitVec 2) (z : BitVec 3) (o : BitVec 11) (off : Nat),
    s.passes (.st d p m z o) = true → s.inPlace p →
    let id := s.padOf p
    let h := s.offOf p
    let a := h + 16 + off
    let n := sizeBytes z
    let c := s.cur.touched (s.hdrOf p) (s.cur.getP p).ptr
    memOffset s.cur p m o n = off → off + n ≤ (s.cur.getP p).len.toNat → (m = 1 → (s.cur.getP p).cur.toNat + n < 2 ^ 32) →
    hdrKind (s.hdrOf p) ≠ 1 → hdrKind (s.hdrOf p) ≠ 2 →
    ∃ t, exec (.st d p m z o) s = .next t ∧
      (∀ k, k < n → Mem.read (t.pad id).mem (a + k) = (s.cur.getX d).extractLsb' (8 * k) 8) ∧
      (hdrC (s.hdrOf p) = true → (t.pad id).word h = s.hdrOf p ||| 0x100000000000) ∧
      (∀ k, ¬(a ≤ k ∧ k < a + n) → ¬(hdrC (s.hdrOf p) = true ∧ h ≤ k ∧ k < h + 8) →
        Mem.read (t.pad id).mem k = Mem.read (s.pad id).mem k) ∧
      (∀ k, k ∈ (t.pad id).dirty ↔ k ∈ (s.pad id).dirty ∨ (hdrC (s.hdrOf p) = true ∧ a ≤ k ∧ k < a + n)) ∧
      t.pad id = { s.pad id with mem := (t.pad id).mem, dirty := (t.pad id).dirty } ∧ (∀ j, j ≠ id → t.pad j = s.pad j) ∧
      (∀ r, t.cur.getP r = (s.cur.stepped p m n).getP r) ∧
      t = { s with
        clk := t.clk
        pads := t.pads
        cur := { c.passed with p := t.cur.p, ccy := t.cur.ccy, xrdy := t.cur.xrdy } }

/-- The memory words at any level: where the operand resolves (after its touch, which may make a copy), and the access can be performed,
the word leaves the state of that access with its register results and the cursor of the post-increment mode (R48, R67, R188, R189). -/
def Obligations.MemoryWordsAtAnyLevel : Prop :=
  ∀ (s u u1 u2 : State) (d : BitVec 5) (q p : BitVec 4) (m : BitVec 2) (z : BitVec 3) (o : BitVec 11) (off v : Nat) (w0 r : W64)
    (len : BitVec 40),
    let n := sizeBytes z
    (s.passes (.ld d p m z o) = true → memOperand p m o n (s.awaited (d :: memUses m o)) = .ok (off, w0) u →
      readPay (u.cur.getP p).ptr off n accLoad u = .ok v u1 →
      ∃ t, exec (.ld d p m z o) s = .next t ∧ Ended (u1.modCur (fun c => (c.setX d (extendLoad z v)).stepped p m n)) t) ∧
    (s.passes (.st d p m z o) = true → memOperand p m o n (s.awaited (d :: memUses m o)) = .ok (off, w0) u →
      hdrKind w0 ≠ 1 → hdrKind w0 ≠ 2 →
      writePay (u.cur.getP p).ptr off n ((u.cur.getX d).toNat % 2 ^ (8 * n)) accStore u = .ok () u1 →
      ∃ t, exec (.st d p m z o) s = .next t ∧ Ended (u1.modCur (fun c => c.stepped p m n)) t) ∧
    (s.passes (.ldp q p m o) = true → memOperand p m o 8 (s.awaited (memUses m o)) = .ok (off, w0) u → hdrKind w0 = 1 →
      off % 8 = 0 → readPay (u.cur.getP p).ptr off 8 accLoad u = .ok v u1 → lenOf (BitVec.ofNat 64 v) u1 = .ok len u2 →
      ∃ t, exec (.ldp q p m o) s = .next t ∧
        Ended (u2.modCur (fun c => (c.stepped p m 8).setP q ⟨BitVec.ofNat 64 v, 0, len⟩)) t) ∧
    (s.passes (.stp q p m o) = true → memOperand p m o 8 (s.awaited (memUses m o)) = .ok (off, w0) u → hdrKind w0 = 1 →
      off % 8 = 0 → stpValue q p u = .ok (some r) u1 → writePay (u1.cur.getP p).ptr off 8 r.toNat accStore u1 = .ok () u2 →
      ∃ t, exec (.stp q p m o) s = .next t ∧ Ended (u2.modCur (fun c => c.stepped p m 8)) t)

/-- `st` to an object of KIND 1 or 2 traps OBJ_KIND, and `ldp` and `stp` trap OBJ_KIND at an object that is not of KIND 1 and OBJ_MALFORMED
at a slot that is no multiple of 8 (R180, R188, R189). What a trap leaves of what the word has done, where no fault of a copy or of an
acknowledgement has been taken, no `Place` of the word has collected a pad, and no write-back of it has failed: nothing but the advance of HNEXT,
the word of the context table at 80, with the tags of the lines that hold it, and what is known of failed write-backs, of silent peers and of
where an access has failed (R328, R184; that HNEXT stays advanced and what else stays known is the model's reading, log entries 24 and 80). What `stp` stores where the object that will hold it is no
copy: null and a pointer of level 3 or 4 whose level is not below that of the object, as they are;
into a level 4 home a pointer of another level traps OBJ_ESCAPE (R189, R190). -/
def Obligations.MemoryTrapsAndStoredPointers : Prop :=
  (∀ (s u : State) (d : BitVec 5) (q p : BitVec 4) (m : BitVec 2) (z : BitVec 3) (o : BitVec 11) (off : Nat) (w0 : W64),
      let w := s.awaited (memUses m o)
      let v := s.awaited (d :: memUses m o)
      let kind : Exn := ⟨cOBJ_KIND, (s.cur.getP p).ptr, BitVec.ofNat 64 (hdrKind w0)⟩
      let slot : Exn := ⟨cOBJ_MALFORMED, (s.cur.getP p).ptr, BitVec.ofNat 64 off⟩
      (s.passes (.st d p m z o) = true → memOperand p m o (sizeBytes z) v = .ok (off, w0) u → hdrKind w0 = 1 ∨ hdrKind w0 = 2 →
        exec (.st d p m z o) s = .next ((v.undone u).takeTrap kind)) ∧
      (memOperand p m o 8 w = .ok (off, w0) u → hdrKind w0 ≠ 1 →
        (s.passes (.ldp q p m o) = true → exec (.ldp q p m o) s = .next ((w.undone u).takeTrap kind)) ∧
        (s.passes (.stp q p m o) = true → exec (.stp q p m o) s = .next ((w.undone u).takeTrap kind))) ∧
      (memOperand p m o 8 w = .ok (off, w0) u → hdrKind w0 = 1 → off % 8 ≠ 0 →
        (s.passes (.ldp q p m o) = true → exec (.ldp q p m o) s = .next ((w.undone u).takeTrap slot)) ∧
        (s.passes (.stp q p m o) = true → exec (.stp q p m o) s = .next ((w.undone u).takeTrap slot)))) ∧
  (∀ (s t : State), s.cur.tookFault t.cur = false → (t.stands = true → s.stands = true) → t.collected = s.collected →
      let u := s.undone t
      let hnext := s.mg.ctxbase.toNat + 128 * s.cur.ctx.toNat + 80
      u = { s with
        wbFailed := t.wbFailed, silent := t.silent, expired := t.expired, failAt := t.failAt
        mem := u.mem, lineTags := u.lineTags, held := u.held
        cur := { s.cur with unit := t.cur.unit, pfx := t.cur.pfx } } ∧
      (∀ a, ¬(hnext ≤ a ∧ a < hnext + 8) → Mem.read u.mem a = Mem.read s.mem a) ∧
      (∀ x, x.1 ≠ hnext / 128 → x.1 ≠ (hnext + 7) / 128 → (x ∈ u.lineTags ↔ x ∈ s.lineTags)) ∧
      (∀ h, h.pa ≠ hnext → (h ∈ u.held ↔ h ∈ s.held)) ∧
      (s.ctxValid s.cur.ctx = true → s.physOk hnext 8 = true → s.sealedAt hnext = false → u.physWord hnext = t.physWord hnext)) ∧
  (∀ (s u u1 : State) (q p : BitVec 4) (w0 w1 : W64),
      let v := (s.cur.getP q).ptr
      let a := (s.cur.getP p).ptr
      readHdr a s = .ok w0 u → hdrC w0 = false → u.cur.getP p = s.cur.getP p → v = 0 ∨ 3 ≤ ptrLvl v →
      (v ≠ 0 → ptrLvl a = 4 → ptrLvl v ≠ 4 → stpValue q p s = .error ⟨cOBJ_ESCAPE, v, 4⟩ u) ∧
      (v = 0 ∨ ptrLvl a ≤ ptrLvl v → ¬(v ≠ 0 ∧ ptrLvl a = 4 ∧ ptrLvl v ≠ 4) → readHdr a u = .ok w1 u1 → hdrC w1 = false →
        stpValue q p s = .ok (some v) u1))


/-! ### Pointers and objects (R182, R183, R191, R192, R204) -/

/-- The pointer words write what R191 says and change nothing else; `padj` traps OBJ_BOUND where the cursor would leave the object or its
32 bits. `pslice` leaves the state of its slice once its checks hold: of data a new object with the bytes from the cursor on, where its room is
found and they can be read and written (R191); and `otouch` leaves the state of its touch (R188). -/
def Obligations.PointerAndObjectWords : Prop :=
  (∀ (s u : State) (d a : BitVec 4) (x b : BitVec 5) (len : BitVec 40),
      let pa := s.cur.getP a
      let c : Int := pa.cur.toNat + (s.cur.getX b).toInt
      (s.passes (.pmov d a) = true → ∃ t, exec (.pmov d a) s = .next t ∧ Ended (s.modCur (fun c => c.setP d pa)) t) ∧
      (s.passes (.padj d a b) = true → 0 ≤ c → c ≤ pa.len.toNat → c < 2 ^ 32 →
        ∃ t, exec (.padj d a b) s = .next t ∧ Ended (s.modCur (fun k => k.setP d { pa with cur := BitVec.ofInt 32 c })) t) ∧
      (s.passes (.padj d a b) = true → ¬(0 ≤ c ∧ c ≤ pa.len.toNat ∧ c < 2 ^ 32) →
        exec (.padj d a b) s = .next ((s.awaited [b]).takeTrap ⟨cOBJ_BOUND, BitVec.ofInt 64 c, pa.len.setWidth 64⟩)) ∧
      (s.passes (.plen x a) = true → Writes s (.plen x a) x (pa.len.setWidth 64)) ∧
      (s.passes (.ptox x a) = true → Writes s (.ptox x a) x pa.ptr) ∧
      (s.passes (.pfrom d b) = true → lenOf (s.cur.getX b) (s.awaited [b]) = .ok len u →
        ∃ t, exec (.pfrom d b) s = .next t ∧ Ended (u.modCur (fun k => k.setP d ⟨s.cur.getX b, 0, len⟩)) t)) ∧
  (∀ (s u u1 : State) (d a : BitVec 4) (b : BitVec 5) (w0 : W64),
      let n := (s.cur.getX b).toNat
      let c := (u.cur.getP a).cur.toNat
      (s.passes (.pslice d a b) = true → touch a (s.awaited [b]) = .ok w0 u → c + n ≤ (u.cur.getP a).len.toNat →
        hdrKind w0 = 0 ∨ (hdrKind w0 = 1 ∧ c % 8 = 0 ∧ n % 8 = 0) → sliceInto d a (hdrKind w0) c n u = .ok true u1 →
        ∃ t, exec (.pslice d a b) s = .next t ∧ Ended u1 t) ∧
      (s.passes (.otouch d) = true → touch d (s.awaited []) = .ok w0 u → ∃ t, exec (.otouch d) s = .next t ∧ Ended u t)) ∧
  (∀ (u u1 u2 u3 : State) (d a : BitVec 4) (c n : Nat) (o : W64) (bytes : List Host.Cell),
      let pinned := u1.modCur (fun l => { l with cxpins := o :: l.cxpins })
      allocObj 0 0 n u = .ok o u1 → snapshot (u1.cur.getP a).ptr (16 + c) n accLoad pinned = .ok bytes u2 →
      fillObj o 16 n bytes accStore (u2.modCur (fun l => { l with cxpins := l.cxpins.erase o })) = .ok () u3 →
      sliceInto d a 0 c n u = .ok true (u3.modCur (fun k => k.setP d ⟨o, 0, BitVec.ofNat 40 n⟩)))

/-- `alloc` and `allocr` set their register to the new object; a length of 2^40 or more traps OPERAND_RANGE with the length; where no level
has room `allocr` writes the null pointer and leaves everything else as it was, and `alloc` takes the trap (R183).
A new object of the core pad, where the pad has room and no sector of a pad has failed: the header's two words, a payload of zeros, every byte outside the extent and
everything beside the pad as before (R25, R183, R184). -/
def Obligations.Allocations : Prop :=
  (∀ (s u : State) (d : BitVec 4) (a : BitVec 5) (l : BitVec 2) (k : BitVec 4) (o : W64) (e : Exn),
      let n := (s.cur.getX a).toNat
      let w := s.awaited [a]
      (n < 2 ^ 40 → allocObj l.toNat k.toNat n w = .ok o u →
        (s.passes (.alloc d a l k) = true → ∃ t, exec (.alloc d a l k) s = .next t ∧
          Ended (u.modCur (fun c => c.setP d ⟨o, 0, BitVec.ofNat 40 n⟩)) t) ∧
        (s.passes (.allocr d a l k) = true → ∃ t, exec (.allocr d a l k) s = .next t ∧
          Ended (u.modCur (fun c => c.setP d ⟨o, 0, BitVec.ofNat 40 n⟩)) t)) ∧
      (n < 2 ^ 40 → allocObj l.toNat k.toNat n w = .error e u → e.code = cPAD_EXHAUSTED ∨ e.code = cHEAP_EXHAUSTED →
        (s.passes (.alloc d a l k) = true → exec (.alloc d a l k) s = .next ((w.undone u).takeTrap e)) ∧
        (s.passes (.allocr d a l k) = true → ∃ t, exec (.allocr d a l k) s = .next t ∧
          Ended (s.modCur (fun c => c.setP d PtrReg.null)) t)) ∧
      (2 ^ 40 ≤ n → ∀ i, i = .alloc d a l k ∨ i = .allocr d a l k → s.passes i = true → exec i s =
        .next (w.takeTrap ⟨cOPERAND_RANGE, (wordOf i).setWidth 64, BitVec.ofNat 64 n⟩))) ∧
  (∀ (s s1 : State) (k len b : Nat),
      let id := s.cur.padId 0
      let sz := roundUp 16 (16 + len)
      len ≤ 0x10000 → s.badPads = [] → s.bumpPad id (16 + len) = some (b, s1) →
      ∃ u, allocObj 0 k len s = .ok (mkPtr 0 b) u ∧ (u.pad id).word b = mkHdr s.cur.ctx k len ∧
        (u.pad id).word (b + 8) = BitVec.ofNat 64 (s.die.toNat * 2 ^ 48) ∧
        (∀ a, b + 16 ≤ a → a < b + sz → Mem.read (u.pad id).mem a = 0) ∧
        (∀ a, a < b ∨ b + sz ≤ a → Mem.read (u.pad id).mem a = Mem.read (s.pad id).mem a) ∧
        (∀ j, j ≠ id → u.pad j = s.pad j) ∧ u = { s with pads := u.pads })



/-- `oacq` waits at its point until the home of its object has applied every release causally before it, and then acquires; `orel` releases
what its touch answers. At an object of a pad that a touch leaves in place both complete: `oacq`, where the die has applied what the core
knows, joins the stamp of the object's releases into what the core knows; `orel`, where no fault of an acknowledgement waits for it, leaves
the state of its release. A release of a pad object that is no copy raises VER of header word 1 by 1 modulo 2^48, leaves the rest of the
header and every other byte, and takes the die's next number, which the core then knows (R192, R204, R217). -/
def Obligations.AcquireAndRelease : Prop :=
  (∀ (s u u1 v' : State) (d : BitVec 4) (g : BitVec 3) (st : BitVec 4) (w0 k : W64),
      (s.passes (.oacq d g st) = true → touch d (s.awaited []) = .ok w0 u →
        let p := (u.cur.getP d).ptr
        canonOf p w0 u = .ok k v' →
        let v := v'.forAcquire k
        (v.mayAcquire k = true → acquire p w0 v = .ok () u1 → ∃ t, exec (.oacq d g st) s = .next t ∧ Ended u1 t) ∧
        (v.mayAcquire k = false → ∃ t, exec (.oacq d g st) s = .next t ∧ t.cur.blk = some .causal ∧ t.cur.pc = v.cur.unitStart)) ∧
      (s.passes (.orel d g st) = true → s.cur.acks = [] ∨ g.toNat < 4 ∨ st.getLsbD 2 = false → touch d (s.awaited []) = .ok w0 u →
        release (u.cur.getP d).ptr w0 u = .ok () u1 → ∃ t, exec (.orel d g st) s = .next t ∧ Ended u1 t)) ∧
  (∀ (s : State) (d : BitVec 4) (g : BitVec 3) (st : BitVec 4), s.inPlace d → hdrC (s.hdrOf d) = false →
      (s.passes (.oacq d g st) = true → s.msgs = [] → s.caughtUp = true →
        ∃ t, exec (.oacq d g st) s = .next t ∧ Ended (s.modCur (fun c => { c with know := t.cur.know })) t ∧
          ∀ i : Fin 10, t.cur.know.get i = match s.stamps.find? (fun e => e.1 == s.homeOf (s.cur.getP d).ptr) with
            | some e => max (s.cur.know.get i) (e.2.get i)
            | none => s.cur.know.get i) ∧
      (s.passes (.orel d g st) = true → s.cur.acks = [] ∨ g.toNat < 4 ∨ st.getLsbD 2 = false →
        ∃ u t, release (s.cur.getP d).ptr (s.hdrOf d) (s.awaited []) = .ok () u ∧ exec (.orel d g st) s = .next t ∧ Ended u t)) ∧
  (∀ (s u : State) (d : BitVec 4) (w0 : W64), s.padded d → hdrC w0 = false →
      release (s.cur.getP d).ptr w0 s = .ok () u →
      let a := s.offOf d
      Mem.readN (u.pad (s.padOf d)).mem (a + 8) 6 = (Mem.readN (s.pad (s.padOf d)).mem (a + 8) 6 + 1) % 2 ^ 48 ∧
      (∀ k, ¬(a + 8 ≤ k ∧ k < a + 14) → Mem.read (u.pad (s.padOf d)).mem k = Mem.read (s.pad (s.padOf d)).mem k) ∧
      u.pad (s.padOf d) = { s.pad (s.padOf d) with mem := (u.pad (s.padOf d)).mem } ∧ (∀ j, j ≠ s.padOf d → u.pad j = s.pad j) ∧
      u.hostMem = s.hostMem ∧
      u.relNo = s.relNo + 1 ∧ (s.die.toNat < 10 → u.cur.know.get ⟨s.die.toNat % 10, Nat.mod_lt _ (by decide)⟩ = s.relNo + 1) ∧
      u.mem = s.mem ∧ u.cur.x = s.cur.x ∧ u.cur.p = s.cur.p ∧ u.cur.pc = s.cur.pc)

/-! ### Atomics and fences (R211 to R216) -/

/-- `amo` and `cas` at an object that lies in a pad and is no copy, with its storage and scope as they are there: the register takes the old
value, the place the result of the operation, or for `cas` B where it held the destination register's old value; no other byte, and
nothing else, changes (R211, R214). -/
def Obligations.AtomicsInPads : Prop :=
  (∀ (s : State) (d b : BitVec 5) (p o : BitVec 4) (g : BitVec 3) (w : BitVec 1),
      let i := Instr.amo d p b o g 0 w
      let pr := s.cur.getP p
      let n := if w = 0 then 4 else 8
      let id := s.padOf p
      let a := s.offOf p + 16 + pr.cur.toNat
      let old := Mem.readN (s.pad id).mem a n
      let v := (s.cur.getX b).toNat % 2 ^ (8 * n)
      let so := sextNat old (8 * n)
      let sv := sextNat v (8 * n)
      let new := match o.toNat with
        | 0 => (old + v) % 2 ^ (8 * n) | 1 => old &&& v | 2 => old ||| v | 3 => old ^^^ v
        | 4 => if so ≤ sv then old else v | 5 => if sv ≤ so then old else v | 6 => min old v | 7 => max old v | _ => v
      s.passes i = true → s.padded p → pr.ptr ≠ 0 → ptrMalformed pr.ptr = false → hdrC (s.hdrOf p) = false →
      hdrKind (s.hdrOf p) ≠ 1 → hdrKind (s.hdrOf p) ≠ 2 → pr.cur.toNat + n ≤ pr.len.toNat → pr.cur.toNat % n = 0 →
      ptrLvl pr.ptr ≤ g.toNat →
      ∃ t, exec i s = .next t ∧
        (∀ r, t.cur.getX r = if r = d ∧ d ≠ 0 then BitVec.ofNat 64 old else s.cur.getX r) ∧
        Mem.readN (t.pad id).mem a n = new ∧
        (∀ k, ¬(a ≤ k ∧ k < a + n) → Mem.read (t.pad id).mem k = Mem.read (s.pad id).mem k) ∧
        t.pad id = { s.pad id with mem := (t.pad id).mem } ∧ (∀ j, j ≠ id → t.pad j = s.pad j) ∧
        t = { s with
          clk := t.clk
          pads := t.pads
          cur := { s.cur.passed with x := t.cur.x, ccy := t.cur.ccy, xrdy := t.cur.xrdy } }) ∧
  (∀ (s : State) (d b : BitVec 5) (p : BitVec 4) (g : BitVec 3) (w : BitVec 1),
      let i := Instr.cas d p b g 0 w
      let pr := s.cur.getP p
      let n := if w = 0 then 4 else 8
      let id := s.padOf p
      let a := s.offOf p + 16 + pr.cur.toNat
      let old := Mem.readN (s.pad id).mem a n
      s.passes i = true → s.padded p → pr.ptr ≠ 0 → ptrMalformed pr.ptr = false → hdrC (s.hdrOf p) = false →
      hdrKind (s.hdrOf p) ≠ 1 → hdrKind (s.hdrOf p) ≠ 2 → pr.cur.toNat + n ≤ pr.len.toNat → pr.cur.toNat % n = 0 →
      ptrLvl pr.ptr ≤ g.toNat →
      ∃ t, exec i s = .next t ∧
        (∀ r, t.cur.getX r = if r = d ∧ d ≠ 0 then BitVec.ofNat 64 old else s.cur.getX r) ∧
        Mem.readN (t.pad id).mem a n =
          (if old = (s.cur.getX d).toNat % 2 ^ (8 * n) then (s.cur.getX b).toNat % 2 ^ (8 * n) else old) ∧
        (∀ k, ¬(a ≤ k ∧ k < a + n) → Mem.read (t.pad id).mem k = Mem.read (s.pad id).mem k) ∧
        t.pad id = { s.pad id with mem := (t.pad id).mem } ∧ (∀ j, j ≠ id → t.pad j = s.pad j) ∧
        t = { s with
          clk := t.clk
          pads := t.pads
          cur := { s.cur.passed with x := t.cur.x, ccy := t.cur.ccy, xrdy := t.cur.xrdy } })


/-- `amo` and `cas` at any place: where the canonical object is found, the operand lies inside it and is aligned, the storage and the scope
are those of the place, and the place can be read and written, the word leaves the state of that write with the old value in its register.
For objects that lie in a pad and are no copies, where `amo` and `cas` trap: past the object's end OBJ_BOUND, at an offset that is no multiple
of the width OBJ_MALFORMED, at KIND 1 or 2 OBJ_KIND, with a wrong storage OPERAND_RANGE 11, at a narrower scope than the place takes
OPERAND_RANGE 12 (R211, R212, R214).
`vamo` on an object that lies in a pad and is no copy, with every selected element inside it and room for its pin: the elements' operations happen in
increasing number, each on what the one before has left; nothing else changes but the coprocessor's trace of time (R215). -/
def Obligations.AtomicsAnywhere : Prop :=
  ((∀ (s u u1 v1 u2 u3 u4 : State) (d b : BitVec 5) (p o : BitVec 4) (g : BitVec 3) (st : BitVec 2) (w : BitVec 1) (obj h : W64) (l : Loc)
        (old stor : Nat),
        let pr := s.cur.getP p
        let n := if w = 0 then 4 else 8
        let va := repAddr obj (16 + pr.cur.toNat)
        let v := (s.cur.getX b).toNat % 2 ^ (8 * n)
        let place := fun (swapAdd : Bool) => placeReason (ptrLvl obj) stor g.toNat swapAdd
        canonical pr.ptr (s.awaited [b, d]) = .ok obj u → pr.cur.toNat + n ≤ pr.len.toNat → pr.cur.toNat % n = 0 →
        readHdr obj u = .ok h u1 → hdrKind h ≠ 1 → hdrKind h ≠ 2 → storageAt obj (16 + pr.cur.toNat) u1 = .ok stor v1 →
        st.toNat = stor → locate obj (16 + pr.cur.toNat) n accAtomic v1 = .ok l u2 → locRead l n va u2 = .ok old u3 →
        (s.passes (.amo d p b o g st w) = true → place (o == 0 || o == 8) = none →
          locWrite l n (atomicOp o.toNat n old v) va u3 = .ok () u4 →
          ∃ t, exec (.amo d p b o g st w) s = .next t ∧ Ended (u4.modCur (fun c => c.setX d (BitVec.ofNat 64 old))) t) ∧
        (s.passes (.cas d p b g st w) = true → place true = none →
          locWrite l n (if old = (s.cur.getX d).toNat % 2 ^ (8 * n) then v else old) va u3 = .ok () u4 →
          ∃ t, exec (.cas d p b g st w) s = .next t ∧ Ended (u4.modCur (fun c => c.setX d (BitVec.ofNat 64 old))) t)) ∧
    (∀ (s : State) (d b : BitVec 5) (p o : BitVec 4) (g : BitVec 3) (st : BitVec 2) (w : BitVec 1),
        let pr := s.cur.getP p
        let c := pr.cur.toNat
        let n := if w = 0 then 4 else 8
        let k := hdrKind (s.hdrOf p)
        let u := s.awaited [b, d]
        ∀ i, i = Instr.amo d p b o g st w ∨ i = Instr.cas d p b g st w →
        let word : W64 := (wordOf i).setWidth 64
        s.passes i = true → s.padded p → pr.ptr ≠ 0 → ptrMalformed pr.ptr = false → hdrC (s.hdrOf p) = false →
        (pr.len.toNat < c + n → exec i s = .next (u.takeTrap ⟨cOBJ_BOUND, BitVec.ofNat 64 c, pr.len.setWidth 64⟩)) ∧
        (c + n ≤ pr.len.toNat → c % n ≠ 0 → exec i s = .next (u.takeTrap ⟨cOBJ_MALFORMED, pr.ptr, BitVec.ofNat 64 c⟩)) ∧
        (c + n ≤ pr.len.toNat → c % n = 0 → k = 1 ∨ k = 2 → exec i s = .next (u.takeTrap ⟨cOBJ_KIND, pr.ptr, BitVec.ofNat 64 k⟩)) ∧
        (c + n ≤ pr.len.toNat → c % n = 0 → k ≠ 1 → k ≠ 2 →
          (st ≠ 0 → exec i s = .next (u.takeTrap ⟨cOPERAND_RANGE, word, 11⟩)) ∧
          (st = 0 → g.toNat < ptrLvl pr.ptr → exec i s = .next (u.takeTrap ⟨cOPERAND_RANGE, word, 12⟩))))) ∧
  (∀ (s : State) (d b : BitVec 5) (p o : BitVec 4) (wd n : BitVec 1) (m : BitVec 3) (g : BitVec 2),
      let i := Instr.vamo d p wd b m n o g
      let pr := s.cur.getP p
      let w := if wd = 0 then 4 else 8
      let id := s.padOf p
      let off := fun k => pr.cur.toNat + elemAt (s.cur.getV d) (8 * w) k * w
      let l := (List.range (s.cur.vl.toNat / w)).filter (fun k => laneSel (s.cur.getM m) n (w * k))
      let at_ := fun k => s.offOf p + 16 + off k
      s.copReady i = true → s.padded p → pr.ptr ≠ 0 → ptrMalformed pr.ptr = false → hdrC (s.hdrOf p) = false →
      hdrKind (s.hdrOf p) ≠ 1 → hdrKind (s.hdrOf p) ≠ 2 → (∀ k ∈ l, off k + w ≤ pr.len.toNat) → ptrLvl pr.ptr ≤ g.toNat →
      s.pinRoom (pr.ptr :: entPtrs (pr.ptr.setWidth 512)) = true →
      ∃ t, exec i s = .next t ∧ CopDone s i t ∧
        (∀ k, Mem.read (t.pad id).mem k = Mem.read (l.foldl (fun mm e => Mem.writeN mm (at_ e) w
          (atomicOp o.toNat w (Mem.readN mm (at_ e) w) (elemAt (s.cur.getV b) (8 * w) e))) (s.pad id).mem) k) ∧
        t.pad id = { s.pad id with mem := (t.pad id).mem } ∧ (∀ j, j ≠ id → t.pad j = s.pad j) ∧
        CopFrame { s with pads := t.pads } i t ∧ t.cur.x = s.cur.x ∧
        t.cur.settled.v = s.cur.v ∧ t.cur.settled.m = s.cur.m ∧ t.cur.fstat = s.cur.fstat)

/-! ### Vector words (R119 to R139) -/

/-- `setvl` grants the lesser of A and the elements of a register, VL counting their bytes (R122). The words that answer in an x register:
the element `vext` names, extended by its type, or 0 past the register; how many elements are selected; and the first one, or all ones
where none is (R133, R135). -/
def Obligations.VectorLengthAndScalars : Prop :=
  (∀ (s : State) (d a : BitVec 5) (t : BitVec 4), s.passes (.setvl d a t) = true →
      let w := Fp.width t.toNat / 8
      let g := min (s.cur.getX a).toNat (64 / w)
      ∃ u, exec (.setvl d a t) s = .next u ∧
        Wrote (s.modCur (fun c => { c with vl := BitVec.ofNat 7 (g * w) })) d (BitVec.ofNat 64 g) u) ∧
  (∀ (s : State) (d a b : BitVec 5) (m : BitVec 3) (n : BitVec 1) (t : BitVec 4),
      let w := Fp.width t.toNat
      let xb := (s.cur.getX b).toNat
      let e := elemAt (s.cur.getV a) w xb
      (s.copReady (.vext d a b t) = true → GivesX s (.vext d a b t) d
        (if 512 / w ≤ xb then 0 else if Fp.isSigned t.toNat then BitVec.ofInt 64 (sextNat e w) else BitVec.ofNat 64 e)) ∧
      (s.copReady (.vpopc d m n t) = true → GivesX s (.vpopc d m n t) d (BitVec.ofNat 64 (s.cur.picks t m n).length)) ∧
      (s.copReady (.vfirst d m n t) = true → GivesX s (.vfirst d m n t) d
        (match (s.cur.picks t m n).head? with | some j => BitVec.ofNat 64 j | none => BitVec.allOnes 64)))

/-- `vadd`, `vsub` and `vmul`, on integers modulo the width and on floats rounded once with their flags (R124, R125). -/
def Obligations.VectorSumsAndProducts : Prop :=
  Elementwise .vadd (fun t md j x y _ => if Fp.isFloat t then floatOp t md j (Fp.add (Fp.decode t x) (Fp.decode t y) md.rm)
    else (Fp.intBits t (Fp.intVal t x + Fp.intVal t y), 0)) ∧
  Elementwise .vsub (fun t md j x y _ =>
    if Fp.isFloat t then floatOp t md j (Fp.add (Fp.decode t x) (Fp.neg (Fp.decode t y)) md.rm)
    else (Fp.intBits t (Fp.intVal t x - Fp.intVal t y), 0)) ∧
  Elementwise .vmul (fun t md j x y _ => if Fp.isFloat t then floatOp t md j (Fp.mul (Fp.decode t x) (Fp.decode t y))
    else (Fp.intBits t (Fp.intVal t x * Fp.intVal t y), 0))

/-- The integer element operations: high products, lesser and greater, logical operations, and shifts by the low bits of the second element
(R124). -/
def Obligations.VectorIntegerOperations : Prop :=
  let high := fun (t : Nat) (_ : Fp.Mode) (_ x y _ : Nat) =>
    (Fp.intBits t (Fp.intVal t x * Fp.intVal t y / 2 ^ Fp.width t), (0 : Fp.Flags))
  let least := fun (t : Nat) (_ : Fp.Mode) (_ x y _ : Nat) => (if Fp.intVal t x ≤ Fp.intVal t y then x else y, (0 : Fp.Flags))
  let most := fun (t : Nat) (_ : Fp.Mode) (_ x y _ : Nat) => (if Fp.intVal t x ≤ Fp.intVal t y then y else x, (0 : Fp.Flags))
  Elementwise .vmulh high ∧ Elementwise .vmulhz high ∧ Elementwise .vmin least ∧ Elementwise .vmax most ∧
  Elementwise .vminz least ∧ Elementwise .vmaxz most ∧
  Elementwise .vand (fun _ _ _ x y _ => (x &&& y, 0)) ∧ Elementwise .vor (fun _ _ _ x y _ => (x ||| y, 0)) ∧
  Elementwise .vxor (fun _ _ _ x y _ => (x ^^^ y, 0)) ∧ Elementwise .vandn (fun _ _ _ x y _ => (x - (x &&& y), 0)) ∧
  Elementwise .vshl (fun t _ _ x y _ => (x * 2 ^ (y % Fp.width t), 0)) ∧
  Elementwise .vshr (fun t _ _ x y _ => (x / 2 ^ (y % Fp.width t), 0)) ∧
  Elementwise .vsar (fun t _ _ x y _ => (Fp.intBits t (sextNat x (Fp.width t) / 2 ^ (y % Fp.width t)), 0))

/-- The floating element operations, each rounded once under FMODE: fused multiply-add with its signs, division, square root, and the
lesser and greater of two values (R125). -/
def Obligations.VectorFloatOperations : Prop :=
  let fma := fun (p q : Fp.Num → Fp.Num) (t : Nat) (md : Fp.Mode) (j x y z : Nat) =>
    floatOp t md j (Fp.fmaExact (p (Fp.decode t x)) (Fp.decode t y) (q (Fp.decode t z)) md.rm)
  Elementwise .vfma (fma id id) ∧ Elementwise .vfms (fma id Fp.neg) ∧ Elementwise .vfnma (fma Fp.neg id) ∧
  Elementwise .vfnms (fma Fp.neg Fp.neg) ∧
  Elementwise .vfdiv (fun t md j x y _ => floatOp t md j (Fp.div (Fp.decode t x) (Fp.decode t y))) ∧
  Elementwise .vfmin (fun t _ _ x y _ => floatMinMax false t x y) ∧ Elementwise .vfmax (fun t _ _ x y _ => floatMinMax true t x y) ∧
  ∀ (s : State) (d a : BitVec 5) (m : BitVec 3) (n : BitVec 1) (t : BitVec 4), s.copReady (.vfsqrt d a m n t) = true →
    let w := Fp.width t.toNat
    let r := fun j => floatOp t.toNat s.cur.mode j (Fp.sqrt (Fp.decode t.toNat (elemAt (s.cur.getV a) w j)))
    GivesElems s (.vfsqrt d a m n t) d w (s.cur.flagsOf t m n (fun j => (r j).2))
      (fun j => if s.cur.takes t m n j then some (r j).1 else none)

/-- The compares: integers by value; floats equal, less, or at most, false where one is a NaN, which raises NV unless the compare is quiet
and the NaN too; and unordered where one is a NaN (R126). The mask operations on all 64 bits, whatever VL (R136). -/
def Obligations.VectorComparesAndMasks : Prop :=
  (let quiet := fun (p q : Fp.Num) => Fp.sigFlag [p, q]
    let loud := fun (p q : Fp.Num) => if Fp.isNaN p || Fp.isNaN q then Fp.fNV else 0
    let float := fun (flag : Fp.Num → Fp.Num → Fp.Flags) (rel : Int → Bool) (t x y : Nat) =>
      let p := Fp.decode t x
      let q := Fp.decode t y
      (!(Fp.isNaN p || Fp.isNaN q) && rel (Fp.cmp p q), flag p q)
    Compares .vcmpEq (fun t x y => (decide (Fp.intVal t x = Fp.intVal t y), 0)) ∧
    Compares .vcmpNe (fun t x y => (decide (Fp.intVal t x ≠ Fp.intVal t y), 0)) ∧
    Compares .vcmpLt (fun t x y => (decide (Fp.intVal t x < Fp.intVal t y), 0)) ∧
    Compares .vcmpLe (fun t x y => (decide (Fp.intVal t x ≤ Fp.intVal t y), 0)) ∧
    Compares .vfcmpEq (float quiet (fun k => decide (k = 0))) ∧ Compares .vfcmpLt (float loud (fun k => decide (k < 0))) ∧
    Compares .vfcmpLe (float loud (fun k => decide (k ≤ 0))) ∧
    Compares .vfcmpUn (fun t x y => (Fp.isNaN (Fp.decode t x) || Fp.isNaN (Fp.decode t y), quiet (Fp.decode t x) (Fp.decode t y)))) ∧
  (∀ (s : State) (d a b : BitVec 3),
      let g := fun (f : Bool → Bool → Bool) (k : Nat) => some (f ((s.cur.getM a).getLsbD k) ((s.cur.getM b).getLsbD k))
      (s.copReady (.mlogAnd d a b) = true → GivesMask s (.mlogAnd d a b) d 0 (g (fun x y => x && y))) ∧
      (s.copReady (.mlogOr d a b) = true → GivesMask s (.mlogOr d a b) d 0 (g (fun x y => x || y))) ∧
      (s.copReady (.mlogXor d a b) = true → GivesMask s (.mlogXor d a b) d 0 (g (fun x y => x != y))) ∧
      (s.copReady (.mlogAndn d a b) = true → GivesMask s (.mlogAndn d a b) d 0 (g (fun x y => x && !y))))


/-- The words that move elements: from where each element comes, and which stay as they are (R127, R132, R133, R134). -/
def Obligations.VectorMoves : Prop :=
  ∀ (s : State) (d a b : BitVec 5) (m : BitVec 3) (n : BitVec 1) (t : BitVec 4),
    let w := Fp.width t.toNat
    let va := fun j => elemAt (s.cur.getV a) w j
    let vb := fun j => elemAt (s.cur.getV b) w j
    let cnt := activeElems s.cur.vl t.toNat
    let xb := (s.cur.getX b).toNat
    let sel := s.cur.picks t m n
    let taken := fun (f : Nat → Option Nat) (j : Nat) => if s.cur.takes t m n j then f j else none
    (s.copReady (.vsel d a b m n t) = true → GivesElems s (.vsel d a b m n t) d w 0 (fun j =>
      if j < cnt then some (if laneSel (s.cur.getM m) n (elemBytes t.toNat * j) then va j else vb j) else none)) ∧
    (s.copReady (.vperm d a b m n t) = true → GivesElems s (.vperm d a b m n t) d w 0
      (taken (fun j => some (if vb j < cnt then va (vb j) else 0)))) ∧
    (s.copReady (.vslideUp d a b m n t) = true → GivesElems s (.vslideUp d a b m n t) d w 0
      (taken (fun j => if xb ≤ j then some (va (j - xb)) else none))) ∧
    (s.copReady (.vslideDn d a b m n t) = true → GivesElems s (.vslideDn d a b m n t) d w 0
      (taken (fun j => some (if j + xb < cnt then va (j + xb) else 0)))) ∧
    (s.copReady (.vbcast d a m n t) = true → GivesElems s (.vbcast d a m n t) d w 0
      (taken (fun _ => some (s.cur.getX a).toNat))) ∧
    (s.copReady (.viota d m n t) = true → GivesElems s (.viota d m n t) d w 0
      (taken (fun j => some (sel.filter (fun k => decide (k < j))).length))) ∧
    (s.copReady (.vcompress d a m n t) = true → GivesElems s (.vcompress d a m n t) d w 0 (fun j => (sel[j]?).map va)) ∧
    (s.copReady (.vexpand d a m n t) = true → GivesElems s (.vexpand d a m n t) d w 0
      (taken (fun j => some (va (sel.filter (fun k => decide (k < j))).length)))) ∧
    (s.copReady (.vmv d a m n t) = true → GivesElems s (.vmv d a m n t) d w 0 (taken (fun j => some (va j)))) ∧
    (s.copReady (.vins d a b t) = true → GivesElems s (.vins d a b t) d w 0
      (fun j => if j = xb then some (s.cur.getX a).toNat else none))


/-- Conversions of each selected element, counted by the wider type, with their flags; the saturating one differs only in what it makes of a
value out of range (R128). Quantisation writes the whole register: a Q4 block of 64 values with its scale against the second-level scale,
or an MX block of 32 (R129). -/
def Obligations.VectorConversions : Prop :=
  (∀ (s : State) (d a : BitVec 5) (ty t : BitVec 4) (m : BitVec 3) (n : BitVec 1),
      let wt := Fp.width t.toNat
      let ws := Fp.width ty.toNat
      let wm := max wt ws
      let sel := fun j => decide (j < s.cur.vl.toNat * 8 / wm) && laneSel (s.cur.getM m) n (j * wm / 8)
      let r := fun ov j => Fp.cvt ty.toNat t.toNat (elemAt (s.cur.getV a) ws j) s.cur.mode j ov
      let fl := fun ov => ((List.range (s.cur.vl.toNat * 8 / wm)).filter sel).foldl (fun fl j => fl ||| (r ov j).2) (0 : Fp.Flags)
      (s.copReady (.vcvt d a ty m n t) = true → GivesElems s (.vcvt d a ty m n t) d wt (fl .plain)
        (fun j => if sel j then some (r .plain j).1 else none)) ∧
      (s.copReady (.vcvtSat d a ty m n t) = true → GivesElems s (.vcvtSat d a ty m n t) d wt (fl .sat)
        (fun j => if sel j then some (r .sat j).1 else none))) ∧
  (∀ (s : State) (d a b : BitVec 5) (t : BitVec 4), s.copReady (.vquant d a b t) = true →
      let xs := fun (k : Nat) => (List.range (16 * k)).map (fun j => elemAt (s.cur.getV (a + BitVec.ofNat 5 (j / 16))) 32 (j % 16))
      let r := if t = 15 then quantQ4 (xs 4) (elemAt (s.cur.getV b) 32 0) else quantMx t.toNat (xs 2) s.cur.mode
      GivesElems s (.vquant d a b t) d 512 r.2 (fun _ => some r.1))


/-- Reductions write element 0 with the value of the tree of R130 over the selected active elements, or the operation's identity where none
is selected, and raise the tree's flags; a stochastic rounding takes the lowest number beneath its node; on integers the sum is that of the
selected active elements modulo the width, and the `or` their union, whatever the shape of the tree (R130). Scans write each selected active
element with what the network of R131 leaves there, an unselected lane raising nothing (R88). -/
def Obligations.ReductionsAndScans : Prop :=
  ((∀ (s : State) (d a : BitVec 5) (m : BitVec 3) (n : BitVec 1) (t : BitVec 4),
        let r := fun op => redTree op t s.cur.mode 8 1 (s.cur.nodes a t m n)
        let out := fun op j => if j = 0 then some ((r op).1.getD (identity op t)) else none
        (s.copReady (.vredAdd d a m n t) = true → GivesElems s (.vredAdd d a m n t) d (Fp.width t.toNat) (r 0).2 (out 0)) ∧
        (s.copReady (.vredMin d a m n t) = true → GivesElems s (.vredMin d a m n t) d (Fp.width t.toNat) (r 1).2 (out 1)) ∧
        (s.copReady (.vredMax d a m n t) = true → GivesElems s (.vredMax d a m n t) d (Fp.width t.toNat) (r 2).2 (out 2)) ∧
        (s.copReady (.vredOr d a m n t) = true → GivesElems s (.vredOr d a m n t) d (Fp.width t.toNat) (r 3).2 (out 3))) ∧
    (∀ (s : State) (d a : BitVec 5) (m : BitVec 3) (n : BitVec 1) (t : BitVec 4), Fp.isFloat t.toNat = false →
        let w := Fp.width t.toNat
        let e := (s.cur.picks t m n).map (elemAt (s.cur.getV a) w)
        (s.copReady (.vredAdd d a m n t) = true → GivesElems s (.vredAdd d a m n t) d w 0
          (fun j => if j = 0 then some e.sum else none)) ∧
        (s.copReady (.vredOr d a m n t) = true → GivesElems s (.vredOr d a m n t) d w 0
          (fun j => if j = 0 then some (e.foldl (· ||| ·) 0) else none)))) ∧
  (∀ (s : State) (d a : BitVec 5) (m : BitVec 3) (n : BitVec 1) (t : BitVec 4),
      let r := fun op => scanNet op t s.cur.mode (s.cur.nodes a t m n)
      let out := fun op j => if s.cur.takes t m n j then some (((r op).1.getD j none).getD 0) else none
      (s.copReady (.vscanAdd d a m n t) = true → GivesElems s (.vscanAdd d a m n t) d (Fp.width t.toNat) (r 0).2 (out 0)) ∧
      (s.copReady (.vscanMin d a m n t) = true → GivesElems s (.vscanMin d a m n t) d (Fp.width t.toNat) (r 1).2 (out 1)) ∧
      (s.copReady (.vscanMax d a m n t) = true → GivesElems s (.vscanMax d a m n t) d (Fp.width t.toNat) (r 2).2 (out 2)) ∧
      (s.copReady (.vscanOr d a m n t) = true → GivesElems s (.vscanOr d a m n t) d (Fp.width t.toNat) (r 3).2 (out 3)))


/-- `vtopk` writes the numbers of the largest selected elements, largest first, as R137 orders them, and all ones where fewer are selected, a
signalling NaN among them raising NV; `vxacc` adds elements exactly into four lanes by number, writing only the lanes that an element goes
to, and `vxrnd` rounds the sum of the lanes once, a poisoned lane giving a NaN (R137 to R139; that a sum of exactly 0 gives +0 in every mode
is the model's choice, log entry 82). -/
def Obligations.TopElementsAndExactSums : Prop :=
  ∀ (s : State) (d a b : BitVec 5) (m : BitVec 3) (n : BitVec 1) (t : BitVec 4),
    let w := Fp.width t.toNat
    let sel := s.cur.picks t m n
    let order := sel.foldl (fun l j => topInsert t (s.cur.getV a) j l) []
    let anchor := nearAnchor (s.cur.getX b)
    let acc := xaccAll anchor t (s.cur.getV a) sel ((List.range 4).map (laneVal (s.cur.getV d)), 0)
    let lanes := (List.range 4).map (laneVal (s.cur.getV a))
    let sum := lanes.foldl (· + ·) 0
    let rnd := if lanes.any (fun x => x == poison) then (Fp.canonNaN t.toNat, Fp.fNV)
      else Fp.round (.fin (sum < 0) sum.natAbs (anchor - 96)) t.toNat s.cur.mode 0
    (s.copReady (.vtopk d a b m n t) = true → GivesElems s (.vtopk d a b m n t) d w
      (Fp.sigFlag (sel.map (fun j => Fp.value t.toNat (elemAt (s.cur.getV a) w j))))
      (fun j => if j < min (s.cur.getX b).toNat (activeElems s.cur.vl t.toNat) then some (order.getD j (2 ^ w - 1)) else none)) ∧
    (s.copReady (.vxacc d a b m n t) = true → GivesElems s (.vxacc d a b m n t) d 128 acc.2
      (fun j => if sel.any (fun k => k % 4 == j) then (acc.1[j]?).map (fun x => (BitVec.ofInt 128 x).toNat) else none)) ∧
    (s.copReady (.vxrnd d a b t) = true → GivesElems s (.vxrnd d a b t) d w rnd.2 (fun j => if j = 0 then some rnd.1 else none))

/-! ### Vector memory words (R140 to R142) -/

/-- `vld`, `vlds` and `vgath` of an object that lies in a pad and is in place, every selected element inside it: each selected element takes
the bytes at its offset, little-endian, all others stay; the cursor advances by VL where the word says so (R140, R141).
`vst` and `vscat` to such an object, not of KIND 1 or 2: the selected elements are stored in increasing number, so that of two at one
place the higher stays; a copy gets D and the bytes in its dirty mask; every other byte is as before (R140, R141, R185). -/
def Obligations.VectorMemoryInPads : Prop :=
  ∀ (s : State) (d b : BitVec 5) (p : BitVec 4) (v n : BitVec 1) (m : BitVec 3) (t : BitVec 4),
    let w := elemBytes t.toNat
    let pr := s.cur.getP p
    let h := s.offOf p
    let xb := (s.cur.getX b).toInt
    let l := s.cur.picks t m n
    let seq := fun (j : Nat) => pr.cur.toNat + xb + (j * w : Nat)
    let stride := fun (j : Nat) => pr.cur.toNat + j * xb
    let index := fun (j : Nat) => ((pr.cur.toNat + elemAt (s.cur.getV b) (8 * w) j * w : Nat) : Int)
    let f := fun (c : LCore) =>
      let c1 := c.touched (s.hdrOf p) pr.ptr
      if v = 1 then c1.setP p { pr with cur := pr.cur + BitVec.ofNat 32 c.vl.toNat } else c1
    let loads := fun (i : Instr) (off : Nat → Int) =>
      s.copReady i = true → (∀ j ∈ l, 0 ≤ off j ∧ off j + w ≤ pr.len.toNat) →
      ∃ u, exec i s = .next u ∧ CopFrame (s.modCur f) i u ∧ VecResult s u d (8 * w) 0 (fun j => if s.cur.takes t m n j
        then some (Mem.readN (s.pad (s.padOf p)).mem (h + 16 + (off j).toNat) w) else none)
    let stores := fun (i : Instr) (off : Nat → Int) =>
      s.copReady i = true → hdrKind (s.hdrOf p) ≠ 1 → hdrKind (s.hdrOf p) ≠ 2 → (∀ j ∈ l, 0 ≤ off j ∧ off j + w ≤ pr.len.toNat) →
      CopStores s i f [⟨pr.ptr, 8 * w, l.map (fun j => (h + 16 + (off j).toNat, 0, elemAt (s.cur.getV d) (8 * w) j))⟩]
    s.inPlace p → s.pinRoom [pr.ptr] = true → (v = 1 → pr.cur.toNat + s.cur.vl.toNat < 2 ^ 32) →
    loads (.vld d p v b m n t) seq ∧ loads (.vlds d p v b m n t) stride ∧ loads (.vgath d p v b m n t) index ∧
      stores (.vst d p v b m n t) seq ∧ stores (.vscat d p v b m n t) index

/-- The words that work on memory in the coprocessor, at any place: where the touch at dispatch and the work at issue can be performed, the
word completes with what they leave, `vamo` among them (R140, R142, R152, R155, R164, R215). -/
def Obligations.CoprocessorMemoryWords : Prop :=
  ∀ (s : State) (d b : BitVec 5) (p : BitVec 4) (v n : BitVec 1) (m : BitVec 3) (t sl o : BitVec 4) (a : BitVec 2) (tid : BitVec 8),
    let vamoPrep : Ex Capture := (do
      let c ← cur
      return { ptr := c.getP p, entry := (← canonical (c.getP p).ptr).setWidth 512 })
    CopRuns s (.vld d p v b m n t) [b] vecMem (vecPrep p v b) (actVld d p v b m n t) ∧
    CopRuns s (.vlds d p v b m n t) [b] vecMem (vecPrep p v b) (actVlds d p v b m n t) ∧
    CopRuns s (.vgath d p v b m n t) [] vecMem (vecPrep p v 0) (actVgath d p v b m n t) ∧
    CopRuns s (.vst d p v b m n t) [b] vecMem (vecPrep p v b) (actVst d p v b m n t) ∧
    CopRuns s (.vscat d p v b m n t) [] vecMem (vecPrep p v 0) (actVscat d p v b m n t) ∧
    CopRuns s (.vamo d p n b m v o a) [] vecMem vamoPrep (actVamo d p n b m v o a) ∧
    CopRuns s (.tstore sl b) [b] (tileStore sl) (captureX b 0) (actTstore sl b) ∧
    CopRuns s (.tidld p tid) [] matMem (tidPrep p) (actTidld p tid) ∧
    CopRuns s (.tidst p tid) [] matMem (tidPrep p) (actTidst p tid) ∧
    CopRuns s (.aload a tid b) [b] (blockUnit tid) (captureX b 0) (actAload a tid b) ∧
    CopRuns s (.astore a tid b) [b] (blockUnit tid) (captureX b 0) (actAstore a tid b)

/-! ### The matrix unit (R144 to R165) -/

/-- `tclaim` claims a slot for a tensor whose entry is valid, `tfree` frees it, `tzero` fills one that is not free with zeros, and `tload`
puts a load with the slot's entry into the loader, the slot loading until its rows have landed; nothing else changes (R149, R150, R154).
`tidst` from an object that lies in a pad and is in place writes the tensor table entry with the 64 bytes of its payload, the bits R145
does not name zero, once the entry passes the checks of R147; one that is not valid is written as zeros; a pointer to a copy goes there as
its canonical object (R145, R147, R155, R180; the last is the model's reading, log entry 83); the words that read or write an entry are
stated where its place in memory has not failed (R367), `tidst` where its frame is not sealed (R294). `tidld` to such an object, not of KIND 1 or 2,
stores the 64 bytes of the entry, and changes nothing else (R145, R155). -/
def Obligations.TileWords : Prop :=
  (∀ (s : State) (t : BitVec 4) (tid : BitVec 8) (r : BitVec 5),
      let sl := s.cur.getT t
      let ent := s.tidEntry s.cur.ctx sl.tid
      (s.copReady (.tclaim t tid) = true → s.tidOk s.cur.ctx tid = true → Entry.valid (s.tidEntry s.cur.ctx tid) = true →
        CopEffect s (.tclaim t tid) (fun c => c.setT t { sl with state := .claimed, tid := tid, prog := 0 })) ∧
      (s.copReady (.tfree t) = true → CopEffect s (.tfree t) (fun c => c.setT t { sl with state := .free })) ∧
      (s.copReady (.tzero t) = true → sl.state ≠ .free →
        CopEffect s (.tzero t) (fun c => c.setT t { sl with state := .ready, data := 0, side := 0 })) ∧
      (s.copReady (.tload t r) = true → s.tidOk s.cur.ctx sl.tid = true → sl.state ≠ .free → s.entryRoom sl.tid = true →
        ∃ u, exec (.tload t r) s = .next u ∧ u.cur.loads = [(s.cur.nextSeq, t)] ∧
          (∀ k, u.cur.getT k = if k = t then { sl with state := .loading, prog := 0 } else s.cur.getT k) ∧
          (∃ e, u.cur.entryOf s.cur.nextSeq = some e ∧ e.state = .issued ∧ e.instr = .tload t r ∧ e.entry = ent ∧
            e.xa = s.cur.getX r ∧ e.prog = 0) ∧
          u = { s with
            clk := u.clk
            cur := { s.cur.passed with
              t := u.cur.t, loads := u.cur.loads, ring := u.cur.ring, nextSeq := s.cur.nextSeq + 1, copNext := u.cur.copNext
              vecFree := u.cur.vecFree, matFree := u.cur.matFree, pend := u.cur.pend, ccy := u.cur.ccy, xrdy := u.cur.xrdy } })) ∧
  (∀ (s : State) (p : BitVec 4) (tid : BitVec 8), s.inPlace p → 64 ≤ (s.cur.getP p).len.toNat → s.pinRoom [(s.cur.getP p).ptr] = true →
      let f := LCore.touched (s.hdrOf p) (s.cur.getP p).ptr
      let u := s.modCur f
      let v := BitVec.ofNat 512 (Mem.readN (s.pad (s.padOf p)).mem (s.offOf p + 16) 64)
      let place := tidAddr s s.cur.ctx tid
      (s.copReady (.tidst p tid) = true → s.canStore place 64 = true → (Entry.valid v = true → entryReason s.feat (fun _ => true) v = none) →
        ∃ t, exec (.tidst p tid) s = .next t ∧
          CopFrame (u.setTidEntry s.cur.ctx tid (if Entry.valid v then u.uncopyEntry v &&& entryMask else 0)) (.tidst p tid) t ∧
          t.cur.settled.v = s.cur.v ∧ t.cur.settled.m = s.cur.m ∧ t.cur.x = s.cur.x ∧ t.cur.fstat = s.cur.fstat) ∧
      (s.copReady (.tidld p tid) = true → s.tidOk s.cur.ctx tid = true → hdrKind (s.hdrOf p) ≠ 1 → hdrKind (s.hdrOf p) ≠ 2 →
        CopStores s (.tidld p tid) f
          [⟨(s.cur.getP p).ptr, 512, [(s.offOf p + 16, 0, (s.tidEntry s.cur.ctx tid &&& entryMask).toNat)]⟩]))

/-- `tstore`, with an entry that may be written and that passes the checks of R147, from a slot that is not free, its tensor's object and, of
a block-scaled one, its scale object in pads and not of KIND 1 or 2, apart, and every element and scale that it stores inside them: it stores
the elements of the tile that lie inside the tensor, row by row, and the scales of their blocks, and changes no other byte (R152).
`astore` with an entry of a floating type without scales: it stores the cells of the block that lie inside the tensor, each rounded under
FMODE with its flags, marked cells first becoming NaNs with NANF set; and with NANT set and NANF clear before, it completes and its late
fault NAN_PRODUCED waits (R161, R164). `aload` reads them: each cell of an FP64 tensor takes its 64-bit element, with another format each
offset takes its element as FP32, and +0 outside the tensor, with the detector cleared (R164); that it quiets a signalling NaN and raises NV
in every format, FP64 too, and that `astore` writes the bits of an FP64 cell as they are, is the model's, log entries 29 and 154. -/
def Obligations.TensorStoresAndLoads : Prop :=
  ∀ (s : State) (t : BitVec 4) (n : BitVec 2) (tid : BitVec 8) (r : BitVec 5),
    let rc := s.cur.getX r
    (let sl := s.cur.getT t
      let e := s.tidEntry s.cur.ctx sl.tid
      let scales := if Entry.bs e then [tileScales e sl rc] else []
      s.copReady (.tstore t r) = true → s.tidOk s.cur.ctx sl.tid = true → sl.state ≠ .free → s.entryRoom sl.tid = true →
      entryReason s.feat (fun x => Entry.fmt x != 15) e = none → Entry.wr e = true →
      (∀ x ∈ tileElems e sl rc :: scales, x.elems ≠ [] → s.storable x) →
      (Entry.bs e = true → s.apart (Entry.data e) (Entry.scale e)) →
      CopStores s (.tstore t r) id (tileElems e sl rc :: scales)) ∧
    (let e := s.tidEntry s.cur.ctx tid
      let f64 := Entry.fmt e == 8
      let c1 := s.cur.drained n f64
      let a := c1.getA n
      let marked := (s.cur.getA n).rf ≠ 0 ∨ (s.cur.getA n).cf ≠ 0
      let fl := (blockCells e rc).foldl (fun fl k => fl ||| (storeValue e a s.cur.mode k).2) (0 : Fp.Flags)
      let block := blockElems e rc a s.cur.mode
      let f := fun (c : LCore) => (c.drained n f64).raise fl
      s.copReady (.astore n tid r) = true → s.tidOk s.cur.ctx tid = true → entryReason s.feat blockFmt e = none → Entry.wr e = true →
      (block.elems ≠ [] → s.storable block) → s.entryRoom tid = true →
      ((marked → s.cur.nanf n = true ∨ s.cur.nant = false) → CopStores s (.astore n tid r) f [block]) ∧
      (marked → s.cur.nanf n = false → s.cur.nant = true →
        CopPosts s (.astore n tid r) ⟨cNAN_PRODUCED, (s.cur.getA n).frT, (s.cur.getA n).frT2⟩
          (StoresOf s (.astore n tid r) f [block]))) ∧
    (let e := s.tidEntry s.cur.ctx tid
      let p := Entry.data e
      let bytes := (Fp.width (Entry.fmt e) + 7) / 8
      let old := s.cur.getA n
      let value := fun (k : Nat) => if (blockAt e rc (k / 32) (k % 32)).2.2
        then Mem.readN (s.pad (s.cur.padId (ptrLvl p))).mem (cellAt e rc k) bytes else 0
      let cell := fun (k : Nat) => if Entry.fmt e = 8 then Fp.cvt 8 8 (value k) Fp.Mode.rne 0 .plain
        else Fp.cvt (Entry.fmt e) 9 (value k) Fp.Mode.rne 0 .plain
      let new : Acc := { old.clearDet with cells := Vector.ofFn (fun (k : Fin 1024) => if Entry.fmt e = 8 then BitVec.ofNat 64 (cell k.val).1
        else withB (s.cur.aff n) (old.cells.get k) (cell k.val).1) }
      s.copReady (.aload n tid r) = true → s.tidOk s.cur.ctx tid = true → entryReason s.feat blockFmt e = none →
      s.entryRoom tid = true → (blockCells e rc ≠ [] → s.inPad p) →
      (∀ k ∈ blockCells e rc, cellAt e rc k + bytes ≤ ptrAddr p + 16 + (hdrLen (s.hdrAt p)).toNat) →
      CopEffect s (.aload n tid r) (fun c => (c.setA n new).raise ((List.range 1024).foldl (fun fl k => fl ||| (cell k).2) 0)))


/-- `mma`: each cell of the accumulator takes the products of its row of A and its column of B, group by group, by the operation and the type;
the rows and columns that hold a special are marked, the first of them reported while no mark stood before; the flags are raised; no other
accumulator and nothing else changes (R156 to R160). The entries of the two tensors are consulted only for i8 operands (R156). -/
def Obligations.MatrixProducts : Prop :=
  ∀ (s : State) (n op : BitVec 2) (ta tb t u : BitVec 4),
    let i := Instr.mma n ta tb op t u
    let sa := s.cur.getT ta
    let sb := s.cur.getT tb
    let ba := t == 0 && Entry.bs (s.tidEntry s.cur.ctx sa.tid)
    let bb := t == 0 && Entry.bs (s.tidEntry s.cur.ctx sb.tid)
    let g := groupSize t.toNat
    let q := rowElems t.toNat / g
    let ra := fun k => tileRow sa t.toNat ba g 0 q k
    let rb := fun k => tileRow sb u.toNat bb g 0 q k
    let old := s.cur.getA n
    let cell := fun k => mmaCell op.toNat t.toNat (s.cur.aff n) (old.cells.get k) (ra (k.val / 32)) (rb (k.val % 32))
    let rows := fun f => (List.range 32).map f
    s.copReady i = true → (t = 0 → s.tidOk s.cur.ctx sa.tid = true ∧ s.tidOk s.cur.ctx sb.tid = true) →
    sa.state ≠ .free → sb.state ≠ .free → s.cur.sem n = op.toNat → (t = 8 → s.cur.aff n = false) →
    ba = bb →
    ∃ v, exec i s = .next v ∧ CopChange { s with cur := { s.cur with acc := v.cur.acc } } i v ∧
      (∀ k, (v.cur.getA n).cells.get k = (cell k).1) ∧ (v.cur.getA n).rf = old.rf ||| specialMask (rows ra) ∧
      (v.cur.getA n).cf = old.cf ||| specialMask (rows rb) ∧ (∀ r, r ≠ n → v.cur.getA r = s.cur.getA r) ∧
      ((old.rf ≠ 0 ∨ old.cf ≠ 0 ∨ firstReport (rows ra) (rows rb) q 0 = none) →
        (v.cur.getA n).frT = old.frT ∧ (v.cur.getA n).frT2 = old.frT2) ∧
      (∀ x, old.rf = 0 → old.cf = 0 → firstReport (rows ra) (rows rb) q 0 = some x →
        (v.cur.getA n).frT = BitVec.ofNat 64 ((if x.2.1 then tb else ta).toNat * 2 ^ 14 + (if x.2.1 then 2 ^ 13 else 0) +
          (g * x.1 + x.2.2.2) % 256 * 32 + x.2.2.1) ∧
        (v.cur.getA n).frT2 = BitVec.ofNat 64 (s.cur.nextSeq.toNat * 2 ^ 16 + n.toNat * 256 + u.toNat * 16 + t.toNat)) ∧
      v.cur.fstat = s.cur.fstat ||| BitVec.setWidth 64 (((List.finRange 1024).map (fun k => (cell k).2)).foldl (· ||| ·) 0) ∧
      v.cur.settled.v = s.cur.v ∧ v.cur.settled.m = s.cur.m ∧ v.cur.x = s.cur.x

/-- `azero`, `amode` and `afill` set the offsets of an accumulator, with its detector cleared (R163, R165); `adrain` writes its values, rounded,
into a slot, cells that a mark names as the canonical NaN, with NANF set; a signalling NaN that `afill` takes raises NV; where NANT asks for it and NANF was clear, the word's completed work
raises the late fault NAN_PRODUCED with the report, and nothing else differs (R161, R165). -/
def Obligations.AccumulatorWords : Prop :=
  ∀ (s : State) (n op : BitVec 2) (t ty : BitVec 4),
    let a := s.cur.getA n
    let fill := fun (b : Fin 1024 → Nat) => { a.clearDet with cells := Vector.ofFn (fun k => withB (s.cur.aff n) (a.cells.get k) (b k)) }
    let marked := a.rf ≠ 0 ∨ a.cf ≠ 0
    let a1 := (s.cur.drained n false).getA n
    let rows := (List.range 32).map (fun r => drainRow a1 ty.toNat s.cur.mode r 32)
    let data := (rows.zipIdx).foldl (fun d r => d ||| r.1.1 * 2 ^ (1024 * r.2)) 0
    let side := if ty = 12 ∨ ty = 13 then (List.range 128).foldl (fun d k => d ||| 0x7F * 2 ^ (8 * k)) 0 else 0
    let drained := fun (c : LCore) =>
      let c1 := c.drained n false
      (c1.setT t { c1.getT t with state := .ready, data := BitVec.ofNat 32768 data, side := BitVec.ofNat 4096 side }).raise
        (rows.foldl (fun f r => f ||| r.2) 0)
    (s.copReady (.azero n) = true → CopEffect s (.azero n) (fun c => c.setA n (fill (fun _ => 0)))) ∧
    (s.copReady (.amode n op) = true → CopEffect s (.amode n op) (fun c => (c.setSem n op.toNat).setA n
      (fill (fun _ => if op = 1 then 0xFF800000 else if op = 2 then 0x7F800000 else 0)))) ∧
    (s.copReady (.afill n t ty) = true → (s.cur.getT t).state ≠ .free → CopEffect s (.afill n t ty) (fun c => (c.setA n
      (fill (fun k => fillValue (s.cur.getT t) ty.toNat (k.val / 32) (k.val % 32)))).raise (fillFlags (s.cur.getT t) ty.toNat))) ∧
    (s.copReady (.adrain n t ty) = true → (s.cur.getT t).state ≠ .free → (marked → s.cur.nanf n = true ∨ s.cur.nant = false) →
      CopEffect s (.adrain n t ty) drained) ∧
    (s.copReady (.adrain n t ty) = true → (s.cur.getT t).state ≠ .free → marked → s.cur.nanf n = false → s.cur.nant = true →
      CopPosts s (.adrain n t ty) ⟨cNAN_PRODUCED, a.frT, a.frT2⟩ (EffectOf s (.adrain n t ty) drained))

/-! ### Affine accumulation (R166 to R177) -/

/-- `again` makes the offsets of one accumulator the gains of another, `again.plain` drops them, and `aapply` gives each cell what its map
makes of the state in a carry (R169, R174); `kload` and `kstore` move a carry from and to four registers, an empty one as zeros, `kcomb`
composes two, an empty one being the identity, and `kzero` empties one (R175, R176). For `kcomb` where no gain underflows.
`ascan`, `ascan.k` and `ascan.g` from the start (no stage done before): the stages of the network over the rows that take part, then the
carry that stands before the first row; the last row becomes the carry that goes out; `ascan.k` leaves the stages out and `ascan.g` takes the
gains from a slot, raising NV for a signalling NaN there. Without a gain underflow no report is made; STG and SACC are 0 (R170 to R173, R177). -/
def Obligations.AffineWords : Prop :=
  (∀ (s : State) (d a k n : BitVec 2) (v : BitVec 5),
      let x := s.cur.getA d
      let y := s.cur.getA a
      let fresh := x.rf == 0 && x.cf == 0
      let gained := { x with
        cells := Vector.ofFn (fun j => ofPair (cellB (y.cells.get j), cellB (x.cells.get j)))
        rf := x.rf ||| y.rf, cf := x.cf ||| y.cf
        frT := if fresh then y.frT else x.frT, frT2 := if fresh then y.frT2 else x.frT2 }
      let state := fun (j : Nat) => if (s.cur.getK k).valid then cellB ((s.cur.getK k).pairs.getD j 0) else 0
      let applied := fun (j : Fin 1024) =>
        applyMap (s.cur.sem d) (cellG (x.cells.get j)) (cellB (x.cells.get j)) (state (j.val % 32))
      let kd := s.cur.getK d
      let ka := s.cur.getK a
      let both := fun (j : Nat) => Fp.compose (s.cur.sem n) (pairOf (kd.pairs.getD j 0)) (pairOf (ka.pairs.getD j 0))
      (s.copReady (.again d a) = true → CopEffect s (.again d a) (fun c => (c.setA d gained).setAstatBit d.toNat true)) ∧
      (s.copReady (.againPlain d) = true → CopEffect s (.againPlain d) (fun c =>
        (c.setA d { x with cells := x.cells.map (fun w => ofPair (0, cellB w)) }).setAstatBit d.toNat false)) ∧
      (s.copReady (.aapply d k) = true → s.cur.aff d = true → CopEffect s (.aapply d k) (fun c =>
        (c.setA d { x with cells := Vector.ofFn (fun j => ofPair (cellG (x.cells.get j), (applied j).1)) }).raise
          (((List.finRange 1024).map (fun j => (applied j).2)).foldl (· ||| ·) 0))) ∧
      (s.copReady (.kload k v) = true → CopEffect s (.kload k v) (fun c => c.setK k ⟨true, Vector.ofFn (fun j =>
        BitVec.ofNat 64 (elemAt (s.cur.getV (v + BitVec.ofNat 5 (j.val / 8))) 64 (j.val % 8)))⟩)) ∧
      (s.copReady (.kstore k v) = true → ∃ t, exec (.kstore k v) s = .next t ∧ CopFrame s (.kstore k v) t ∧
        (∀ q < 4, ∀ j < 8, elemAt (t.cur.settled.getV (v + BitVec.ofNat 5 q)) 64 j =
          if (s.cur.getK k).valid then ((s.cur.getK k).pairs.getD (8 * q + j) 0).toNat else 0) ∧
        (∀ r, (∀ q < 4, r ≠ v + BitVec.ofNat 5 q) → t.cur.settled.getV r = s.cur.getV r) ∧ t.cur.settled.m = s.cur.m ∧
        t.cur.x = s.cur.x ∧ t.cur.fstat = s.cur.fstat) ∧
      (s.copReady (.kzero k) = true → CopEffect s (.kzero k) (fun c => c.setK k Carry.empty)) ∧
      (s.copReady (.kcomb d a n) = true →
        (kd.valid = false → ka.valid = false → CopEffect s (.kcomb d a n) id) ∧
        (kd.valid = false → ka.valid = true → CopEffect s (.kcomb d a n) (fun c => c.setK d ⟨true, ka.pairs⟩)) ∧
        (kd.valid = true → ka.valid = false → CopEffect s (.kcomb d a n) (fun c => c.setK d ⟨true, kd.pairs⟩)) ∧
        (kd.valid = true → ka.valid = true → (∀ j < 32, (both j).2.1 = false) → CopEffect s (.kcomb d a n) (fun c =>
          (c.setK d ⟨true, Vector.ofFn (fun j => ofPair (both j.val).1)⟩).raise
            (((List.range 32).map (fun j => (both j).2.2)).foldl (· ||| ·) 0))))) ∧
  (∀ (s : State) (n k : BitVec 2) (t ty : BitVec 4) (len : BitVec 5),
      let a := s.cur.getA n
      let rows := len.toNat + 1
      let sr := s.cur.sem n
      let kc := s.cur.getK k
      let gains := Vector.ofFn (fun (x : Fin 1024) =>
        ofPair (fillValue (s.cur.getT t) ty.toNat (x.val / 32) (x.val % 32), cellB (a.cells.get x)))
      let carried := fun (cells : Vector W64 1024) =>
        scanStage cells (fun x w => if x / 32 < rows then withCarry sr kc (pairOf w) (x % 32) else none)
      let last := fun (cells : Vector W64 1024) =>
        (⟨true, Vector.ofFn (fun (j : Fin 32) => cells.getD (32 * (rows - 1) + j.val) 0)⟩ : Carry)
      let scans := fun (i : Instr) (cells : Vector W64 1024) (f0 : Fp.Flags) (stages : Nat) (from_ : Nat) =>
        let r1 := scanStages sr rows stages (from_ + 1) cells none 0
        let r2 := carried r1.1
        r1.2.1 = none → r2.2.1 = none → CopStores s i (fun c =>
          { (((c.setA n { a with cells := r2.1 }).setK k (last r2.1)).raise (f0 ||| r1.2.2 ||| r2.2.2)) with
            astat := setBits (setBit c.astat n.toNat true) 30 26 0 }) []
      bits s.cur.astat.toNat 30 28 = 0 →
      (s.copReady (.ascan n k len) = true → s.cur.aff n = true → scans (.ascan n k len) a.cells 0 5 0) ∧
      (s.copReady (.ascanK n k len) = true → s.cur.aff n = true → scans (.ascanK n k len) a.cells 0 0 5) ∧
      (s.copReady (.ascanG n t k ty len) = true → (s.cur.getT t).state ≠ .free →
        scans (.ascanG n t k ty len) gains (fillFlags (s.cur.getT t) ty.toNat) 5 0))

/-! ### Copy engines and streams (R222 to R238, R243) -/

/-- `xfer`, `xgath`, `xpref.tr` and `xpref.mg` whose checks hold and for whose pins there is room, on a tag that does not run: the copy, with all it captures, runs on the tag and
stands at the end of the start queue, which lets its first copy go on while it is full; a copy of nothing is ready at once (R222, R223, R225,
R228, R229). A prefetch never faults: an entry that cannot be read counts as an empty one (R229). `xwait.all` and `xwait.any` answer the ready tags of their mask once all, or one, of its copies are over, and stall where that
cannot come; `xfind` takes the lowest ready tag of its mask and makes it idle, or answers 64; `xpref.tq` answers the line tags it reads (R231,
R243). -/
def Obligations.CopyWords : Prop :=
  (∀ (s : State) (d a b : BitVec 5) (t : BitVec 6),
      let dst := s.cur.getX d
      let src := s.cur.getX a
      let shape := s.cur.getX b
      let ent := fun w => s.tidEntry s.cur.ctx (adTid w)
      let copy := fun (i : Instr) (kind : CopyKind) (dst src shape : W64) (e x : Entry) =>
        (⟨kind, wordOf i, dst, src, shape, s.cur.fmode, s.cur.ssc, e, ent src, x, .queued, 0, 0, 0⟩ : Copy)
      let started := fun (c : Copy) (uses : List (BitVec 5)) =>
        let w := s.awaited uses
        (if 8 ≤ s.cur.startQ.length then w.finishTags (s.cur.startQ.take 1) else w).modCur (fun l =>
          if c.rows = 0 ∨ c.nel = 0 ∨ ((c.kind = .xfer ∨ c.kind = .xgath) ∧ c.steps = 0) then l.setTag t .ready
          else { l.setTag t (.running c) with startQ := l.startQ ++ [t] })
      let red := shRed shape
      let w := s.awaited [d, a, b]
      let readable := fun (x : W64) => s.tidOk s.cur.ctx (adTid x) = true
      let known := fun (c : Copy) => if s.tidOk s.cur.ctx (adTid src) then c else { c with srcE := 0 }
      let allowed := fun (c : Copy) (idx span : Option Nat) =>
        readable dst ∧ readable src ∧ (red = 2 ∨ red = 3 → s.feat.getLsbD 2 = true) ∧
          w.tensorReason (copyAccept red c.dstE) c.srcE = none ∧ w.tensorReason (copyAccept red c.srcE) c.dstE = none ∧ Entry.wr c.dstE = true ∧ idx = none ∧
          redTypes red (Entry.fmt c.srcE) (Entry.fmt c.dstE) = true ∧ span = none ∧
          s.pinRoom (Tag.running c).pins = true
      let cx := copy (.xfer d a b t) .xfer dst src shape (ent dst) 0
      let cg := copy (.xgath d a b t) .xgath dst src shape (ent dst) (s.tidEntry s.cur.ctx (shItid shape))
      s.cur.anyRunning [t] = false →
      (s.passes (.xfer d a b t) = true → allowed cx none (xferSpan cx) →
        ∃ u, exec (.xfer d a b t) s = .next u ∧ Ended (started cx [d, a, b]) u) ∧
      (s.passes (.xgath d a b t) = true → s.tidOk s.cur.ctx (shItid shape) = true →
        allowed cg (w.tensorReason (fun e => Entry.fmt e == 6) cg.idxE) (xgathSpan cg) →
        ∃ u, exec (.xgath d a b t) s = .next u ∧ Ended (started cg [d, a, b]) u) ∧
      (s.passes (.xprefTr a b t) = true → ∃ u, exec (.xprefTr a b t) s = .next u ∧
        Ended (started (known (copy (.xprefTr a b t) .prefTr 0 src shape 0 0)) [a, b]) u) ∧
      (s.passes (.xprefMg a b t) = true → ∃ u, exec (.xprefMg a b t) s = .next u ∧
        Ended (started (known (copy (.xprefMg a b t) .prefMg 0 src shape 0 0)) [a, b]) u)) ∧
  (∀ (s u : State) (d a : BitVec 5) (v : Nat),
      let m := s.cur.getX a
      let w := s.awaited [a, d]
      let none_ := ∀ t ∈ tagsOf m, (s.cur.getTag t).stoppedOn = none
      (s.passes (.xwaitAll d a) = true → s.cur.anyRunning (tagsOf m) = false → Writes s (.xwaitAll d a) d (s.cur.xrdyBits &&& m)) ∧
      (s.passes (.xwaitAll d a) = true → waitTags (tagsOf m) w = .ok () u → u.cur.anyRunning (tagsOf m) = false →
        ∃ t, exec (.xwaitAll d a) s = .next t ∧ Ended (u.modCur (fun c => c.setX d (u.cur.xrdyBits &&& m))) t) ∧
      (s.passes (.xwaitAll d a) = true → waitTags (tagsOf m) w = .ok () u → u.cur.anyRunning (tagsOf m) = true →
        ∃ t, exec (.xwaitAll d a) s = .next t ∧ t.cur.blk = some .stall ∧ t.cur.pc = u.cur.unitStart) ∧
      (s.passes (.xwaitAny d a) = true → takeStopped (tagsOf m) (w.finishAny m (tagsOf m)) = .ok () u →
        (u.cur.xrdyBits &&& m ≠ 0 ∨ u.cur.anyRunning (tagsOf m) = false →
          ∃ t, exec (.xwaitAny d a) s = .next t ∧ Ended (u.modCur (fun c => c.setX d (u.cur.xrdyBits &&& m))) t) ∧
        (u.cur.xrdyBits &&& m = 0 → u.cur.anyRunning (tagsOf m) = true →
          ∃ t, exec (.xwaitAny d a) s = .next t ∧ t.cur.blk = some .stall ∧ t.cur.pc = u.cur.unitStart)) ∧
      (s.passes (.xfind d a) = true → none_ → ∃ t, exec (.xfind d a) s = .next t ∧
        match (tagsOf (s.cur.xrdyBits &&& m)).head? with
        | none => Wrote s d 64 t
        | some g => Wrote (s.modCur (fun c => c.setTag g .idle)) d (g.setWidth 64) t) ∧
      (let e := s.tidEntry s.cur.ctx (adTid m)
       let p := Entry.data e
       let line := (ptrAddr p + 16 + Entry.off e (adCol m) (adRow m)) / 128
       s.passes (.xprefTq d a) = true → s.tidOk s.cur.ctx (adTid m) = true → entryReason s.feat (fun _ => true) e = none → adRow m < Entry.rows e → adCol m < Entry.dim e 0 →
        lineTags (ptrLvl p) line 16 (w.quiesce.finishTags (tagsOf (BitVec.allOnes 64))) = .ok v u →
        ∃ t, exec (.xprefTq d a) s = .next t ∧ Ended (u.modCur (fun c => c.setX d (BitVec.ofNat 64 v))) t))


/-- `sbind` binds a stream to an address word and a legal job card, with the modes of the moment, where there is room for its pins, and `sclose` unbinds it; an illegal card
leaves the stream unbound and faults CARD_ILLEGAL at the stage. `vmv` of a stream with vectors read ahead takes the first and counts the pop,
whatever is selected, and raises the flags of the elements that its selected lanes take (R88, R127, R233 to R238; that lanes it does not select
raise none is the model's reading, log entry 88). -/
def Obligations.StreamWords : Prop :=
  ∀ (s : State) (r : BitVec 3) (a b d : BitVec 5) (m : BitVec 3) (n : BitVec 1) (t : BitVec 4),
    let addr := s.cur.getX a
    let card := s.cur.getX b
    let ent := s.tidEntry s.cur.ctx (adTid addr)
    let st := s.cur.getS r
    let fault := cardFault (s.feat.getLsbD 6) (Entry.fmt ent) (Entry.bs ent || Entry.fmt ent == 15) card
    (s.copReady (.sbind r a b) = true → s.tidOk s.cur.ctx (adTid addr) = true → entryReason s.feat (fun _ => true) ent = none → adRow addr < Entry.rows ent →
      adCol addr < Entry.dim ent 0 → s.entryRoom (adTid addr) = true →
      (fault = none → CopEffect s (.sbind r a b) (fun c => c.setS r { Stream.unbound with
        bound := true, addr := addr, card := card, fmode := s.cur.fmode, ssc := s.cur.ssc, entry := ent })) ∧
      (∀ k, fault = some k → ∃ u, exec (.sbind r a b) s = .next u ∧ u.cur.getS r = Stream.unbound ∧
        u.cur.late = some ⟨s.cur.nextSeq, ⟨cCARD_ILLEGAL, card, BitVec.ofNat 64 k⟩⟩)) ∧
    (s.copReady (.sclose r) = true → CopEffect s (.sclose r) (fun c => c.setS r Stream.unbound)) ∧
    (s.copReady (.vmvStream d r m n t) = true → st.bound = true → ∀ v l, st.buf = v :: l →
      let s1 := s.modCur (fun c => c.setS r { st with buf := l, pops := st.pops + 1 })
      ∃ u, exec (.vmvStream d r m n t) s = .next u ∧ CopFrame s1 (.vmvStream d r m n t) u ∧
        VecResult s1 u d (Fp.width t.toNat) (takenFlags v st.width (Fp.width t.toNat) (s.cur.picks t m n))
          (fun j => if s.cur.takes t m n j then some (elemAt v.vec (Fp.width t.toNat) j) else none)) ∧
    (s.copReady (.vmvStream d r m n t) = true → st.bound = false → ∃ u, exec (.vmvStream d r m n t) s = .next u ∧
      u.cur.late = some ⟨s.cur.nextSeq, ⟨cSTREAM_UNBOUND, (wordOf (.vmvStream d r m n t)).setWidth 64, r.setWidth 64⟩⟩)

/-! ### Exchange and fences (R216, R218, R249 to R255) -/

/-- `send` puts a word into the port for a logical core and a register, with the cycle it arrives in, where the exchange phase is on and the
target exists, behind the words before it, leaving it at once unless a word is held or waits there (when the words behind one that waits leave
is the model's choice, log entry 79); it stalls while the port holds 16 words. `recv` takes the word of a full register and empties it, and waits at an empty one.
`qclr` empties the registers of its mask, a deposit of the same cycle being recorded in QCOL. `xphase` turns the exchange phase on. `fence`
and, without a condition to wait for, `xfence` change nothing, but that a `fence` of scope `dom` or `sys` that names `peer` raises the oldest
fault that an acknowledgement has brought (R217); that one which names only `mem` or `host` raises none is the model's reading, log entry 14. `sendv` puts the eight words of a vector register into the port, one a
cycle; while the port has no room for eight it is dispatched and waits in the queue, the core going on at the next word (R64, R254).
`recv.v` takes the words of eight full registers at once into a vector register and empties them, and waits where one is empty (R216 to R218,
R250, R251, R254, R255). -/
def Obligations.ExchangeWords : Prop :=
  (∀ (s : State) (x v d : BitVec 5) (q : BitVec 4) (c e g : BitVec 3),
      let tgt := s.cur.getX x
      let dst := ((s.target s.cur.gang (tgt.setWidth 16)).map (·.pcid)).getD s.cur.pcid
      let hop := travel s.cur.pcid dst
      let r := s.cur.getQ q
      let mask := s.cur.getX v
      let calm := s.cur.calm = true ∧ s.cur.mayDrain ∧ (∀ t, (s.cur.getTag t).stoppedOn = none) ∧ s.cur.port = [] ∧
        s.moves.any (fun m => s.cur.is m.gang m.lcid) = false
      (s.passes (.send x v q) = true → s.cur.exch = true → tgt.toNat < s.cur.lcn.toNat → s.cur.port.length < 16 →
        ∃ t, exec (.send x v q) s = .next t ∧ Ended (s.modCur (fun c => { c with port := c.port ++
          [⟨c.lcid, tgt.setWidth 16, q, s.cur.getX v, hop, s.cur.portFree (s.awaited [x, v]).clk + hop, s.cur.port.all (fun w => w.left && !w.held), false⟩] })) t) ∧
      (s.passes (.send x v q) = true → s.cur.exch = true → tgt.toNat < s.cur.lcn.toNat → 16 ≤ s.cur.port.length →
        Waits s (.send x v q) .stall) ∧
      (s.passes (.recv d q) = true → s.cur.tip = false → r.full = true → ∃ t, exec (.recv d q) s = .next t ∧
        Wrote (s.modCur (fun c => c.setQ q { r with full := false })) d r.word t) ∧
      (s.passes (.recv d q) = true → s.cur.tip = false → r.full = false → Waits s (.recv d q) (.inbox q 1)) ∧
      (s.passes (.qclr v) = true → ∃ t, exec (.qclr v) s = .next t ∧
        (∀ k : BitVec 4, t.cur.getQ k = if mask.getLsbD k.toNat then { s.cur.getQ k with full := false } else s.cur.getQ k) ∧
        (∀ k, k < 64 → t.cur.status.getLsbD k = (s.cur.status.getLsbD k ||
          (decide (32 ≤ k ∧ k < 48) && mask.getLsbD (k - 32) && (s.awaited [v]).landsNow (BitVec.ofNat 4 (k - 32))))) ∧
        t = { s with
          clk := t.clk
          cur := { s.cur.passed with q := t.cur.q, status := t.cur.status, ccy := t.cur.ccy, xrdy := t.cur.xrdy } }) ∧
      (s.passes .xphase = true → s.cur.tip = false → ∃ t, exec .xphase s = .next t ∧ Ended (s.modCur (fun c => { c with exch := true })) t) ∧
      (s.passes (.fence g q) = true → s.cur.acks = [] ∨ g.toNat < 4 ∨ q.getLsbD 2 = false →
        ∃ t, exec (.fence g q) s = .next t ∧ Advanced s t) ∧
      (s.passes (.fence g q) = true → 4 ≤ g.toNat → q.getLsbD 2 = true → ∀ x l, s.cur.acks = x :: l →
        exec (.fence g q) s = .next (((s.awaited []).modCur (fun c => { c with acks := l })).takeTrap x)) ∧
      (s.passes (.xfence c e g q) = true → calm → ∃ t, exec (.xfence c e g q) s = .next t ∧ Advanced s t) ∧
      (s.passes (.xfence 4 e g q) = true → s.cur.port ≠ [] → Waits s (.xfence 4 e g q) .stall)) ∧
  (∀ (s : State) (x v d : BitVec 5) (q : BitVec 4),
      let tgt := s.cur.getX x
      let dst := ((s.target s.cur.gang (tgt.setWidth 16)).map (·.pcid)).getD s.cur.pcid
      let hop := travel s.cur.pcid dst
      let word := fun k => (⟨s.cur.lcid, tgt.setWidth 16, q + BitVec.ofNat 4 k, BitVec.ofNat 64 (elemAt (s.cur.getV v) 64 k),
        hop, s.cur.portFree (s.awaited [x]).clk + k + hop, s.cur.port.all (fun x => x.left && !x.held), false⟩ : PortWord)
      let full := ∀ k < 8, (s.cur.getQ (q + BitVec.ofNat 4 k)).full = true
      (s.copReady (.sendv x v q) = true → s.cur.exch = true → tgt.toNat < s.cur.lcn.toNat → s.cur.port.length + 8 ≤ 16 →
        CopEffect s (.sendv x v q) (fun c => { c with port := c.port ++ (List.range 8).map word })) ∧
      (s.copReady (.sendv x v q) = true → s.cur.exch = true → tgt.toNat < s.cur.lcn.toNat → 16 < s.cur.port.length + 8 →
        ∃ u, exec (.sendv x v q) s = .next u ∧ u.cur.queued = true ∧
          (∃ r, u.cur.entryOf s.cur.nextSeq = some r ∧ r.state = .notIssued ∧ r.instr = .sendv x v q ∧ r.xa = tgt) ∧
          u = { s with
            clk := u.clk
            cur := { s.cur.passed with
              ring := u.cur.ring, nextSeq := s.cur.nextSeq + 1, frozenAt := u.cur.frozenAt, ccy := u.cur.ccy, xrdy := u.cur.xrdy } }) ∧
      (s.copReady (.recvV d q) = true → s.cur.tip = false → full →
        ∃ t, exec (.recvV d q) s = .next t ∧
          CopFrame { s with cur := { s.cur with q := t.cur.q } } (.recvV d q) t ∧
          (∀ r : BitVec 4, t.cur.getQ r = if (r - q).toNat < 8 then { s.cur.getQ r with full := false } else s.cur.getQ r) ∧
          VecResult s t d 64 0 (fun j => some (s.cur.getQ (q + BitVec.ofNat 4 j)).word.toNat)) ∧
      (s.copReady (.recvV d q) = true → s.cur.tip = false → ¬full → Waits s (.recvV d q) (.inbox q 8)))


/-! ### Barriers, steps and the task pool (R118, R256 to R266) -/

/-- `arrive` and `wait` with their ordered forms, and `bvote`: an arrival is counted once in a phase, a wait ends where its phase is over and
waits at its point where it is not, a vote answers what the phase of the vote decided; a wait without an arrival traps OPERAND_RANGE 23
(R258, R259; that a wait or a vote whose phase is over ends, and one without an arrival traps, also where the barrier has been abandoned, is
the model's reading, log entry 48). An arrival that is not the last counts in its phase and leaves it open; the last one completes the phase: its number goes up
by one, its count is empty, and the gang barrier leaves the superstep boundary to be taken (R256, R263). -/
def Obligations.BarrierWords : Prop :=
  (∀ (s : State) (n : BitVec 2) (d a : BitVec 5) (p : Nat),
      let g := s.gang s.cur.gang
      let f := n.toFin
      let phase := g.phase.get f
      let here := (g.count.get f).contains s.cur.lcid = true
      let trap := fun (i : Instr) (k : W64) => exec i s = .next ((s.awaited []).takeTrap ⟨cOPERAND_RANGE, (wordOf i).setWidth 64, k⟩)
      let done := fun (i : Instr) (u : State) => ∃ t, exec i s = .next t ∧ Ended u t
      s.cur.tip = false → n.toNat ≤ hNlb g.hdr →
      (s.passes (.arrive n) = true → ¬here → done (.arrive n) (s.arriveOn f false false false)) ∧
      (s.passes (.arriveRel n) = true → ¬here → done (.arriveRel n) (s.arriveOn f false false true)) ∧
      (s.passes (.arrive n) = true → here → Waits s (.arrive n) (.arrival n phase)) ∧
      (s.passes (.arriveRel n) = true → here → Waits s (.arriveRel n) (.arrival n phase)) ∧
      (s.cur.unwaited f = some p → g.abandoned = none →
        (p < phase → (s.passes (.wait n) = true → done (.wait n) (s.endWait f false)) ∧
          (s.passes (.waitAcq n) = true → done (.waitAcq n) (s.endWait f true))) ∧
        (phase ≤ p → (s.passes (.wait n) = true → Waits s (.wait n) (.phase n p)) ∧
          (s.passes (.waitAcq n) = true → Waits s (.waitAcq n) (.phase n p)))) ∧
      (s.cur.unwaited f = none → (s.passes (.wait n) = true → trap (.wait n) 23) ∧ (s.passes (.waitAcq n) = true → trap (.waitAcq n) 23)) ∧
      (s.passes (.bvote d a n) = true → s.cur.voting f = some p → p < phase → ∃ t, exec (.bvote d a n) s = .next t ∧
        Ended ((s.modCur (fun c => c.setX d (if g.doneVote.get f then 1 else 0))).endWait f false) t) ∧
      (s.passes (.bvote d a n) = true → s.cur.voting f = none → g.abandoned = none → ¬here →
        let u := s.arriveOn f ((s.cur.getX a).getLsbD 0) true false
        let g1 := u.gang u.cur.gang
        (phase < g1.phase.get f → ∃ t, exec (.bvote d a n) s = .next t ∧
          Ended ((u.modCur (fun c => c.setX d (if g1.doneVote.get f then 1 else 0))).endWait f false) t) ∧
        (¬phase < g1.phase.get f → ∃ t, exec (.bvote d a n) s = .next t ∧ t.cur.blk = some (.phase n phase) ∧ t.cur.pc = s.cur.unitStart))) ∧
  (∀ (s : State) (n : Fin 4) (vote byVote rel : Bool),
      let g := s.gang s.cur.gang
      let u := s.arriveOn n vote byVote rel
      let h := u.gang s.cur.gang
      let live := (s.members s.cur.gang).filter (fun c => c.run != .retired)
      let last := live.all (fun c => c.lcid == s.cur.lcid || (g.count.get n).contains c.lcid)
      g.id = s.cur.gang → g.abandoned = none → s.cur.run = .running →
      u.cur.bars.get n = ⟨some (g.phase.get n), false, vote, byVote⟩ ∧
      (last = false → h.phase = g.phase ∧ h.count.get n = s.cur.lcid :: g.count.get n ∧ h.boundary = g.boundary) ∧
      (last = true → h.phase.get n = g.phase.get n + 1 ∧ h.count.get n = [] ∧ h.boundary = (g.boundary || n == 0)) ∧
      (∀ k, k ≠ n → h.phase.get k = g.phase.get k ∧ h.count.get k = g.count.get k) ∧ u.mem = s.mem ∧ u.pads = s.pads ∧
      u.cur.x = s.cur.x ∧ u.cur.pc = s.cur.pc)


/-- `sstep`: a phase that is over, its boundary taken, ends it, also where the barrier has been abandoned since (the model's reading, log
entry 48); at a barrier that it has arrived on it waits; with words left in its port it
waits at its point, so that another logical core of the physical core may move (R249); a record handed to it runs, with x1 the address of
the `sstep`; with no record handed and nothing of its own left to wait for it keeps x1, p13 and p15, and with no task left in the pool
arrives with a release and waits (R262). -/
def Obligations.SuperstepWords : Prop :=
  ∀ (s u1 u2 u3 : State) (p : Nat) (r : W64 × W64 × W64) (tgt : W64),
    let g := s.gang s.cur.gang
    let v := s.applyMsgs s.msgs.length
    let w := s.quiesce.modCur (fun c => { (if c.tip then c else { c with saveX1 := c.getX 1, saveP13 := c.getP 13, saveP15 := c.getP 15 }) with
      tip := false })
    let u := w.arriveOn 0 false false true
    s.passes .sstep = true → s.cur.mayDrain →
    (s.cur.handed = none → s.cur.unwaited 0 = some p → p < g.phase.get 0 → g.boundary = false →
      ∃ t, exec .sstep s = .next t ∧ Ended (v.modCur (fun c => c.endStep ((v.gang c.gang).doneJoin.get 0))) t) ∧
    (s.cur.handed = none → s.cur.unwaited 0 = some p → g.abandoned = none → g.phase.get 0 ≤ p → Waits s .sstep (.sstep p)) ∧
    (s.cur.handed = none → s.cur.unwaited 0 = some p → p < g.phase.get 0 → g.boundary = true → Waits s .sstep (.sstep p)) ∧
    (s.cur.handed = none → s.cur.unwaited 0 = none → g.abandoned = none → s.cur.calm = true → s.cur.anyTag = false → s.cur.port ≠ [] →
      ∃ t, exec .sstep s = .next t ∧ t.cur.blk = some .port ∧ t.cur.pc = s.cur.unitStart ∧ t.cur.port = s.cur.port) ∧
    (s.cur.handed = some r → loadPtr 15 r.2.1 s = .ok () u1 → loadPtr 13 r.2.2 u1 = .ok () u2 →
      codeTarget r.1 (u2.modCur (fun c => c.setX 1 s.cur.pc)) = .ok tgt u3 →
      ∃ t, exec .sstep s = .next t ∧ Moved (u3.modCur (fun c => { c with tip := true, handed := none })) tgt t) ∧
    (s.cur.handed = none → s.cur.unwaited 0 = none → g.abandoned = none → s.cur.calm = true → s.cur.anyTag = false → s.cur.port = [] →
      hPool g.hdr = 0 ∨ g.depth = 0 → ∃ t, exec .sstep s = .next t ∧
        t = { u with clk := t.clk, cur := { u.cur.rewind with blk := some (.sstep (g.phase.get 0)), ccy := t.cur.ccy } })

/-- The pool words, where their records can be pushed or popped: `spawn` pushes the three pointers, `take` loads those of the last record or
nulls; `qpost` copies 64 bytes of an object into a queue that is open to the context and has room and answers 0, or answers 1 where it is
full (R260, R261, R266, R272); that the packet is written with the rights of the supervisor is the model's reading, log entry 54. `join` whose
object and counter lie in pads and are no copies: the counter goes down by one, and while it was not 1 nothing else changes (R261). -/
def Obligations.PoolAndQueueWords : Prop :=
  (∀ (s u u1 u2 u3 u4 : State) (c f j p : BitVec 4) (d a : BitVec 5) (r : Option (W64 × W64 × W64)) (w0 : W64) (v : Nat),
      let g := s.gang s.cur.gang
      let w := s.awaited []
      let ptr := fun (r : BitVec 4) => (do return (← rdP r).ptr : Ex W64)
      let rec_ := r.getD (0, 0, 0)
      let n := s.cur.getX a
      let k := u.queue (n.setWidth 8)
      (s.passes (.spawn c f j) = true → hPool g.hdr ≠ 0 →
        pushRecord (.spawn c f j) (s.cur.getP c).ptr (ptr f) (ptr j) w = .ok true u →
        ∃ t, exec (.spawn c f j) s = .next t ∧ Ended u t) ∧
      (s.passes (.take c f j) = true → hPool g.hdr ≠ 0 → popTask g w = .ok r u → loadPtr c rec_.1 u = .ok () u1 →
        loadPtr f rec_.2.1 u1 = .ok () u2 → loadPtr j rec_.2.2 u2 = .ok () u3 →
        ∃ t, exec (.take c f j) s = .next t ∧ Ended u3 t) ∧
      (s.passes (.take c f j) = true → hPool g.hdr ≠ 0 → g.depth = 0 → ∃ t, exec (.take c f j) s = .next t ∧
        Ended (s.modCur (fun l => ((l.setP c PtrReg.null).setP f PtrReg.null).setP j PtrReg.null)) t) ∧
      (s.passes (.qpost d a p) = true → touch p (s.awaited [a, d]) = .ok w0 u → 64 ≤ (u.cur.getP p).len.toNat → n.toNat < 256 →
        u.cur.getX a = n → k.opens u.cur.ctx = true →
        (k.size ≤ k.qwr.toNat - k.qrd.toNat → ∃ t, exec (.qpost d a p) s = .next t ∧ Ended (u.modCur (fun l => l.setX d 1)) t) ∧
        (k.qwr.toNat - k.qrd.toNat < k.size → readPay (u.cur.getP p).ptr 0 64 accLoad u = .ok v u1 →
          asCtx u.cur.ctx (storeWords (k.slot k.qwr.toNat) ((List.range 8).map (fun j => BitVec.ofNat 64 (v / 2 ^ (64 * j))))) u1 =
            .ok () u4 →
          ∃ t, exec (.qpost d a p) s = .next t ∧
            Ended (((u4.setQueue (n.setWidth 8) { k with qwr := k.qwr + 1 }).ageQueue (n.setWidth 8)).modCur (fun l => l.setX d 0)) t))) ∧
  (∀ (s : State) (j : BitVec 4) (v : Nat),
      let o := (s.cur.getP j).ptr
      let id := s.padOf j
      let cnt : W64 := BitVec.ofNat 64 (v / 2 ^ 192)
      let cid := s.cur.padId (ptrLvl cnt)
      let place := ptrAddr cnt + 16
      let old := Mem.readN (s.pad cid).mem place 8
      s.passes (.join j) = true → hPool (s.gang s.cur.gang).hdr ≠ 0 → s.padded j → o ≠ 0 → ptrMalformed o = false →
      hdrC (s.hdrOf j) = false → hdrKind (s.hdrOf j) = 1 → 32 ≤ (hdrLen (s.hdrOf j)).toNat →
      v = Mem.readN (s.pad id).mem (s.offOf j + 16) 32 → cnt ≠ 0 → ptrMalformed cnt = false → ptrLvl cnt ≤ 2 → (ptrLvl cnt = 2 → s.ownsDie = true) →
      hdrC ((s.pad cid).word (ptrAddr cnt)) = false → old ≠ 1 →
      ∃ t, exec (.join j) s = .next t ∧ Mem.readN (t.pad cid).mem place 8 = (old + 2 ^ 64 - 1) % 2 ^ 64 ∧
        (∀ k, ¬(place ≤ k ∧ k < place + 8) → Mem.read (t.pad cid).mem k = Mem.read (s.pad cid).mem k) ∧
        t.pad cid = { s.pad cid with mem := (t.pad cid).mem } ∧ (∀ i, i ≠ cid → t.pad i = s.pad i) ∧ Ended { s with pads := t.pads } t)

/-! ### Special registers, traps and system words (R31 to R42, R60, R118, R288, R302 to R306, R331, R333) -/

/-- What `rds` reads under each number, each by the level that may read it; it waits for the coprocessor where R42 says so. A number that the
table lacks traps ILLEGAL, a bank register at user level PRIVILEGE. What `wrs` writes under each number: the writable fields of the
register, and nothing else; a number that is not writable traps ILLEGAL, as does a reserved value of PPL, RM or SEM, and a register of the
supervisor at user level PRIVILEGE. A malformed ROOT traps OBJ_MALFORMED; of one that names a pad the canonical object is written (R31 to R33,
R36 to R42, R302). -/
def Obligations.SpecialRegisters : Prop :=
  (∀ (s : State) (d : BitVec 5) (n : BitVec 12) (v : W64),
      let c := s.cur
      let b := c.bankOf c.pl
      let trap := fun (code : BitVec 6) => exec (.rds d n) s = .next ((s.awaited [d]).takeTrap ⟨code, (wordOf (.rds d n)).setWidth 64, 0⟩)
      let reads := fun (l : List (BitVec 12 × W64)) => (n, v) ∈ l → Writes s (.rds d n) d v
      s.passes (.rds d n) = true →
      reads [(0x001, 512), (0x002, 0x04102020), (0x010, c.lcid.setWidth 64), (0x011, c.lcn.setWidth 64), (0x012, c.wid), (0x013, c.wfw),
        (0x014, c.wfe), (0x015, c.pcid.setWidth 64), (0x016, (s.pkg ++ s.die).setWidth 64), (0x017, c.ssc), (0x020, BitVec.ofNat 64 (s.awaited [d]).gtc),
        (0x021, c.xrdyBits), (0x050, s.statusRead), (0x061, c.root)] ∧
      (∀ k < 8, n = BitVec.ofNat 12 (0x030 + k) → v = s.feat.extractLsb' (64 * k) 64 → Writes s (.rds d n) d v) ∧
      (c.pl ≠ 0 → reads [(0x040, b.cause), (0x041, b.epc), (0x042, b.tval), (0x043, b.tval2), (0x044, b.cseq)]) ∧
      (c.calm = true → reads [(0x000, c.vl.setWidth 64), (0x051, c.fstat), (0x052, c.fmode), (0x053, c.astatRead), (0x060, c.unitRepc)]) ∧
      (c.pl = 0 → 0x040 ≤ n.toNat → n.toNat ≤ 0x044 → trap cPRIVILEGE) ∧
      (n ∉ ([0x000, 0x001, 0x002, 0x010, 0x011, 0x012, 0x013, 0x014, 0x015, 0x016, 0x017, 0x020, 0x021, 0x030, 0x031, 0x032, 0x033, 0x034,
        0x035, 0x036, 0x037, 0x040, 0x041, 0x042, 0x043, 0x044, 0x050, 0x051, 0x052, 0x053, 0x060, 0x061] : List (BitVec 12)) → trap cILLEGAL)) ∧
  (∀ (s : State) (a : BitVec 5) (n : BitVec 12),
      let c := s.cur
      let v := c.getX a
      let i := Instr.wrs a n
      let sets := fun (k : BitVec 12) (f : LCore → LCore) => n = k → ∃ t, exec i s = .next t ∧ Ended (s.modCur f) t
      let bank := fun (k : BitVec 12) (f : Bank → Bank) =>
        sets k (fun c => if c.pl = 3 then { c with mbank := f c.mbank } else { c with sbank := f c.sbank })
      let trap := fun (code : BitVec 6) => exec i s = .next ((s.awaited [a]).takeTrap ⟨code, (wordOf i).setWidth 64, 0⟩)
      s.passes i = true →
      (n = 0x021 → ∃ t, exec i s = .next t ∧ Ended { s with cur := { c with tags := t.cur.tags } } t ∧
        ∀ k, t.cur.getTag k = if v.getLsbD k.toNat ∧ c.getTag k = .ready then .idle else c.getTag k) ∧
      (c.pl ≠ 0 → bank 0x040 (fun b => { b with cause := v &&& 0xC00000000000003F }) ∧ bank 0x041 (fun b => { b with epc := v }) ∧
        bank 0x042 (fun b => { b with tval := v }) ∧ bank 0x043 (fun b => { b with tval2 := v }) ∧
        bank 0x044 (fun b => { b with cseq := v &&& 0xFFFFFFFF })) ∧
      (n = 0x050 → bits v.toNat 5 4 ≠ 2 → (c.pl = 0 → v &&& 0xFFFF0000FFFFFFFF = 0) →
        ∃ t, exec i s = .next t ∧ Ended { s with cur := { c with status := t.cur.status } } t ∧
          ∀ k, k < 64 → t.cur.status.getLsbD k =
            if 32 ≤ k ∧ k < 48 then (c.status.getLsbD k && !v.getLsbD k)
            else if c.pl ≠ 0 ∧ (k = 2 ∨ k = 4 ∨ k = 5 ∨ k = 7) then v.getLsbD k else c.status.getLsbD k) ∧
      (c.calm = true → sets 0x051 (fun c => { c with fstat := v &&& 0x3F })) ∧
      (c.calm = true → bits v.toNat 2 0 < (if s.feat.getLsbD 10 then 5 else 4) →
        sets 0x052 (fun c => { c with fmode := v &&& 0xFFFFFFFF00000037 })) ∧
      (c.calm = true → (∀ k < 4, bits v.toNat (17 + 2 * k) (16 + 2 * k) ≠ 3) →
        sets 0x053 (fun c => { c with astat := (c.astat &&& ~~~(0xFF0FF0 : W64)) ||| (v &&& 0xFF0FF0) })) ∧
      (c.pl ≠ 0 → v = 0 ∨ (ptrMalformed v = false ∧ 3 ≤ ptrLvl v) → sets 0x061 (fun c => { c with root := v })) ∧
      (c.pl ≠ 0 → s.inPad v → ptrLvl v ≤ 1 → sets 0x061 (fun c => { c with
        root := if hdrC (s.hdrAt v) then (s.pad (s.cur.padId (ptrLvl v))).word (ptrAddr v + 8) else v })) ∧
      (c.pl ≠ 0 → n = 0x061 → v ≠ 0 → ptrMalformed v = true → exec i s = .next ((s.awaited [a]).takeTrap ⟨cOBJ_MALFORMED, v, 0⟩)) ∧
      ((n = 0x050 ∧ c.pl ≠ 0 ∧ bits v.toNat 5 4 = 2) ∨ (n = 0x052 ∧ (if s.feat.getLsbD 10 then 5 else 4) ≤ bits v.toNat 2 0) ∨
        (n = 0x053 ∧ ∃ k < 4, bits v.toNat (17 + 2 * k) (16 + 2 * k) = 3) → trap cILLEGAL) ∧
      (c.pl = 0 → (0x040 ≤ n.toNat ∧ n.toNat ≤ 0x044) ∨ n = 0x061 ∨ (n = 0x050 ∧ v &&& 0xFFFF0000FFFFFFFF ≠ 0) → trap cPRIVILEGE) ∧
      (n ∉ ([0x021, 0x040, 0x041, 0x042, 0x043, 0x044, 0x050, 0x051, 0x052, 0x053, 0x061] : List (BitVec 12)) → trap cILLEGAL))


/-- `wfi` ends where an interrupt is pending for the core, and else waits; `sfence` drops the held translations it names, by an address within
their page and by their context, and no others, and with either the cached context and export entries of the contexts it names (R289, R306); of a
named context whose entry is then not valid it forgets that it has been created (the model's reading, log entry 91); `cdrain`, with nothing of the coprocessor outstanding, changes nothing; `retire` of a logical core whose work is over and whose copies have gone home leaves its gang: streams unbound, slots
free, pointers null and ROOT 0 (both the model's reading, log entry 49), its arrivals counted at every barrier (R118, R305, R306, R333). -/
def Obligations.WaitsAndRetirement : Prop :=
  ∀ (s u : State) (a b : BitVec 5),
    (s.passes .wfi = true → (s.irqs.any (fun q => s.mg.route q.code == s.cur.pcid) = true → ∃ t, exec .wfi s = .next t ∧ Advanced s t) ∧
      (s.irqs.any (fun q => s.mg.route q.code == s.cur.pcid) = false → Waits s .wfi .irq)) ∧
    (s.passes (.sfence a b) = true → ∃ t, exec (.sfence a b) s = .next t ∧ Ended { s with held := t.held, created := t.created } t ∧
      (∀ h, h ∈ t.held ↔ h ∈ s.held ∧
        ¬((a = 0 ∨ h.size = 0 ∨ (h.base ≤ (s.cur.getX a).toNat ∧ (s.cur.getX a).toNat < h.base + h.size)) ∧
          (b = 0 ∨ h.ctx = (s.cur.getX b).setWidth 16))) ∧
      (∀ c, c ∈ t.created ↔ c ∈ s.created ∧
        ¬((b = 0 ∨ c = (s.cur.getX b).setWidth 16) ∧ { s with held := t.held }.ctxValid c = false))) ∧
    (s.passes .cdrain = true → s.cur.mayDrain → s.cur.calm = true → ∃ t, exec .cdrain s = .next t ∧ Advanced s t) ∧
    (s.passes .retire = true → s.cur.mayDrain → s.cur.calm = true → s.cur.anyTag = false → writeBackCopies s.cur.cidx s.quiesce = .ok () u →
      ∃ t, exec .retire s = .next t ∧ t.cur.run = .retired ∧ t.cur.root = 0 ∧ (∀ r, t.cur.getS r = Stream.unbound) ∧
        (∀ r, (t.cur.getT r).state = .free) ∧ (∀ r, t.cur.getP r = PtrReg.null) ∧ t.cur.ring = [] ∧ t.cur.blk = none ∧
        t.cur.x = u.cur.x ∧ t.cur.v = u.cur.v ∧ t.mem = u.mem ∧ t.pads = u.pads ∧
        t.gangs = ((u.modCur LCore.leave).completeAll u.cur.gang).gangs)

/-- `trap code` and `brk code`, with nothing of the coprocessor outstanding: the entry of SOFTWARE_TRAP and of BREAKPOINT with the code in TVAL
and 0 in TVAL2, EPC holding the instruction; a return from that bank with EPC raised by 4 goes on past it (R303). -/
def Obligations.SoftwareTraps : Prop :=
  ∀ (s : State) (c : BitVec 12),
    s.cur.calm = true → s.cur.unit = none →
    let taken := fun (i : Instr) (code : BitVec 6) => ∃ t, exec i s = .next t ∧ TrapTaken s false none ⟨code, c.setWidth 64, 0⟩ t ∧
      (t.cur.bankOf t.cur.pl).epc = s.cur.pc ∧
      ∀ (h : State), h.passes .eret = true → h.cur.ppl.toNat ≤ h.cur.pl.toNat → (h.cur.bankOf h.cur.pl).cause.getLsbD 62 = false →
        (h.cur.bankOf h.cur.pl).epc = s.cur.pc + 4 → ∃ r, exec .eret h = .next r ∧ r.cur.pc = s.cur.pc + 4
    (s.passes (.trap c) = true → taken (.trap c) cSOFTWARE_TRAP) ∧ (s.passes (.brk c) = true → taken (.brk c) cBREAKPOINT)

/-- `eret`: PRIVILEGE where PPL is above PL; else PL and IE take PPL and PIE, which become 0; the repetition state and the pc come from the
bank of the level that returns; the entries of the ring from the faulted one to the last that are not complete wait in the queue to issue again, with
their progress and their sources (R66, R304, R329, R330); the copies whose faults the bank received go on (R230); nothing else changes. That a
return with LATE clear from the handler of a late fault gives up the entries that are not complete, and else lets those issue again that a
restored ring holds stopped, is the model's reading, log entry 35. -/
def Obligations.TrapReturn : Prop :=
  ∀ (s : State),
    let c := s.cur
    let bank := c.bankOf c.pl
    let late := bank.cause.getLsbD 62
    let put := LCore.leaveHandler { c with
      status := (c.status &&& ~~~(0xB7 : W64)) ||| c.ppl.setWidth 64 ||| (if c.pie then 4 else 0)
      repc := bank.srepc
      pc := bank.epc } late
    let stopped := if late then c.pendingEntries (bank.cseq.extractLsb' 0 16) (bank.cseq.extractLsb' 16 16) else c.stoppedEntries
    s.passes .eret = true →
    (c.pl.toNat < c.ppl.toNat → exec .eret s = .next ((s.awaited []).takeTrap ⟨cPRIVILEGE, (wordOf .eret).setWidth 64, 0⟩)) ∧
    (c.ppl.toNat ≤ c.pl.toNat → ∃ t, exec .eret s = .next t ∧ t = { s with
      clk := t.clk
      cur := { (put.requeue stopped).resumeCopies (c.pl == 3) with unit := none, pfx := none, ccy := t.cur.ccy } })

/-- Trap entry. A trap or interrupt taken with nothing outstanding enters as R331 says at the level R288 names, and that of an absent feature
with a bound routine at the routine, in supervisor; a late fault that waits is taken instead. Without a trace and but for a memory error
nothing else of the part changes. The event TAKE_TRAP is that entry, for the causes 0x01 to 0x1E; of an interrupt, only with one of the five
sources and where the level and IE allow it; where they do not the interrupt pends, and so it does while a late fault is taken instead (R288,
R321, R328, R331, R332, R334). -/
def Obligations.TrapEntry : Prop :=
  ∀ (s : State) (e : Exn) (int : Bool) (l : Late),
    let c := s.cur.rewind
    let absent := fun (e : Exn) (int : Bool) => e.code = cFEATURE_ABSENT ∧ int = false
    s.cur.pend = [] → s.cur.loads = [] → s.cur.nextPost = s.cur →
    (s.cur.late = none → (absent e int → s.emulEntry c.pc e.tval2.toNat = none) →
      TrapTaken s int none e (s.takeTrap e int)) ∧
    (∀ a, s.cur.late = none → absent e int → s.emulEntry c.pc e.tval2.toNat = some a → Entered s int none e 1 a (s.takeTrap e int)) ∧
    (s.cur.late = some l → l.exn.code ≠ cFEATURE_ABSENT → TrapTaken s false (some l.seq) l.exn (s.takeTrap e int)) ∧
    (s.cur.late = none → s.mg.trEn = false → e.code ≠ cMEM_UNCORRECTABLE →
      let t := s.takeTrap e int
      t = { s with clk := t.clk, cur := t.cur, wbFailed := false }) ∧
    (let event := exec (.takeTrap e.code false int e.tval e.tval2) s
     let source := 1 ≤ e.code.toNat ∧ e.code.toNat ≤ 5
     let pending := s.raiseIrq e.code e.tval e.tval2
     (int = false → 1 ≤ e.code.toNat → e.code.toNat ≤ 0x1E → event = .next (s.takeTrap e false)) ∧
      (e.code.toNat = 0 ∨ 0x1F ≤ e.code.toNat → event = .next s) ∧
      (int = true → 5 < e.code.toNat → event = .next s) ∧
      (int = true → source → s.allowsIrq e.code = true → s.cur.late = none → event = .next (s.takeTrap e true)) ∧
      (int = true → source → s.allowsIrq e.code = true → s.cur.late = some l → event = .next pending.takeLate) ∧
      (int = true → source → s.allowsIrq e.code = false → event = .next pending))

/-- Decode checks every word before it does anything: ILLEGAL for a word that is not well formed, FEATURE_ABSENT with the lowest clear feature
bit it needs, PRIVILEGE below its lowest level; TVAL holds the word. A word that no instruction has traps ILLEGAL in the step that meets it, with
the word in TVAL (R60). -/
def Obligations.DecodeChecks : Prop :=
  (∀ (s : State) (i : Instr), (encode i).isSome = true → s.cur.queued = false → s.cur.owing = false → s.cur.mayDrain →
    ∃ l, let traps := fun (code : BitVec 6) (t2 : W64) => exec i s = .next ((s.awaited l).takeTrap ⟨code, (wordOf i).setWidth 64, t2⟩)
      (i.wf = false → traps cILLEGAL 0) ∧
      (∀ b, i.wf = true → s.missing i = some b → traps cFEATURE_ABSENT (BitVec.ofNat 64 b)) ∧
      (i.wf = true → s.missing i = none → s.cur.pl.toNat < i.priv → traps cPRIVILEGE 0)) ∧
  (∀ (s : State) (w : W32), s.mayStep → s.entered s.cur.pc = true → s.wordAt s.cur.pc = some w → decode w = none →
    step s = settle (.next ((s.modCur (fun c => { c with blk := none })).takeTrap ⟨cILLEGAL, w.setWidth 64, 0⟩)))

/-- `cxsave` and `cxload`, where the record's place can be used, nothing of the coprocessor is outstanding, no word waits in the port and no
pad pins too many objects: the record of the logical core, with the return address of the bank, stands in the object, and the ring is empty; the
logical core is that of the record, the pc of the word apart, with EPC that of the record; a late-fault handler that the record was made in goes
on (R347, R355 to R357). What tells such a record, the lengths read again, and that a barrier whose arrival the record names keeps the vote of
this core are the model's reading, log entries 100, 61 and 138. -/
def Obligations.ContextRecords : Prop :=
  ∀ (s u u1 u2 u3 : State) (p : BitVec 4) (pr : PtrReg) (m : List Host.Cell),
    (let w := u.quiesce.settleCopies
     let rec_ := w.cur.inPlaceRecord w.die w.pkg w.cur.bank.epc w.statusRead (w.cur.pl == 3)
     let w1 := w.modCur (fun c => { c with cxpins := c.named })
     s.passes (.cxsave p) = true → recordPlace p s = .ok pr u → u.cur.calm = true → u.cur.port = [] → w1.overPinned = none →
      fillObj pr.ptr (16 + pr.cur.toNat) inPlaceSize rec_ accStore w1 = .ok () u1 →
      markDirty pr.ptr pr.cur.toNat inPlaceSize u1 = .ok () u2 →
      ∃ t, exec (.cxsave p) s = .next t ∧ Ended (u2.modCur (fun c =>
        { c.setBank { c.bank with cause := c.bank.cause &&& ~~~(0x4000000000000000 : W64) } with ring := [], handler := 0, taken := none })) t) ∧
    (s.passes (.cxload p) = true → recordPlace p s = .ok pr u → snapshot pr.ptr (16 + pr.cur.toNat) inPlaceSize accLoad u = .ok m u1 →
      u1.loadReason m = none → u1.cur.calm = true → u1.cur.port = [] → enterWords (recPort m) u1.quiesce = .ok () u2 →
      fillLens (u2.modCur (fun l =>
        let c1 := (l.loadRecord m).loadExtension m (u1.cur.pl == 3)
        let c2 := c1.setBank { c1.bank with epc := getW m 0x10 }
        { c2 with
          pc := u1.cur.pc
          cxpins := []
          handler := if c2.lateHandler then 1 else 0
          taken := if c2.lateHandler then
              some ⟨c2.bank.cseq.extractLsb' 0 16, ⟨c2.bank.cause.extractLsb' 0 6, c2.bank.tval, c2.bank.tval2⟩⟩ else none })) = .ok () u3 →
      ∃ t, exec (.cxload p) s = .next t ∧ Ended u3 t)

/-! ### The steps of the part that belong to no word -/

/-- The steps of the coprocessor, of the copy engines and of the streams. The oldest entry that has not issued issues in the cycle in which it can, with
the writes that are due landed, and freezes the coprocessor where its unit says so; behind a fault none issues; writes that are due land; a loader lands the next row, the last one making the slot ready; the first copy of the start queue moves to its
end or to the fault it meets; one that has moved completes with its flags, one that met a fault stops on it; the first stream with room reads one
vector ahead (R63, R150, R222, R223, R226, R230, R237, R329; the order of reduced elements and the pages that a prefetch
walks are the model's, log entries 151 and 168). -/
def Obligations.EngineEvents : Prop :=
  ∀ (s w : State) (r : RingEntry) (u : CopUnit) (act : RingEntry → Ex Issued) (i : Issued) (l m : List PendWrite) (q : BitVec 16)
    (sl : BitVec 4) (rest : List (BitVec 16 × BitVec 4)) (v side : Nat) (tag : BitVec 6) (k : Copy) (e : Exn) (st : BitVec 3) (vec : StreamVec),
    (s.cur.queued = false → exec .coprocessorIssue s = .next s) ∧
    (let due := (s.waitFor s.cur.headCycle).modCur (fun c => c.holdFor u (c.copCycle u r))
     let s1 := due.modCur LCore.thawCop
     let ci := s1.cur.copCycle u r
     s.cur.queued = true → s.cur.loads = [] → s.cur.ring.find? (fun x => x.state == .notIssued) = some r → s.cur.entryOf r.seq = some r →
      copAct r.instr = some (u, act) →
      (u.frozen due r = true → exec .coprocessorIssue s = .next (due.modCur (LCore.freezeCop (due.cur.copCycle u r)))) ∧
      (u.frozen due r = false → act { r with state := .issued } (s1.modCur (LCore.started ci { r with state := .issued })) = .ok i w →
        exec .coprocessorIssue s = .next (w.modCur (LCore.complete u ci r.seq i))) ∧
      (u.frozen due r = false → act { r with state := .issued } (s1.modCur (LCore.started ci { r with state := .issued })) = .error e w →
        exec .coprocessorIssue s = .next (w.modCur (fun c => c.faultEntry r.seq e)))) ∧
    (s.cur.pend = l ++ m → (∀ p ∈ l, p.due < s.cur.copNow) → (∀ p ∈ m.head?, s.cur.copNow ≤ p.due) →
      exec .destinationWrite s = .next (s.modCur (fun c => { l.foldl (fun c p => p.dest.apply c) c with pend := m }))) ∧
    (s.cur.loads = (q, sl) :: rest → s.cur.entryOf q = some r → loadStep r s = .ok (v, side) w →
      let row := ((w.cur.getT sl).setRow r.prog v).setSide (Entry.fmt r.entry) r.prog side
      exec .tileRowLand s = .next (w.modCur (fun c =>
        if r.prog = 31 then
          { (c.setT sl { row with state := .ready, prog := 0, row := r.xa.extractLsb' 0 32, col := r.xa.extractLsb' 32 32 }).setEntry
            { r with state := .complete, prog := 0 } with loads := rest }
        else (c.setT sl { row with prog := BitVec.ofNat 6 (r.prog + 1) }).setEntry { r with prog := r.prog + 1 }))) ∧
    (s.cur.startQ.head? = some tag → s.cur.getTag tag = .running k → k.phase = .queued →
      let s0 := s.modCur (fun c => { c with startQ := c.startQ.filter (fun x => x != tag) })
      let at_ := fun (p : CopyPhase) (c : LCore) => c.modCopy tag (fun k => { k with phase := p })
      (k.kind = .prefTr → exec .engineTakeCopy s = .next ((s0.markPages false (s0.prefPages k)).modCur (fun c => at_ .moved c))) ∧
      (k.kind = .prefMg → exec .engineTakeCopy s = .next ((s0.markPages true (s0.prefPages k)).modCur (fun c => at_ .moved c))) ∧
      (k.kind = .xfer ∨ k.kind = .xgath → copyRows tag k (k.rows - k.row) k.row k.col s0 = .ok () w →
        exec .engineTakeCopy s = .next (w.modCur (fun c => at_ .moved c))) ∧
      (k.kind = .xfer ∨ k.kind = .xgath → copyRows tag k (k.rows - k.row) k.row k.col s0 = .error e w →
        exec .engineTakeCopy s = .next (w.modCur (fun c => at_ (.met e) c)))) ∧
    (s.cur.getTag tag = .running k →
      (k.phase = .moved → (∀ x c, x.toNat < tag.toNat → s.cur.getTag x = .running c → c.phase ≠ .moved) →
        exec .copyComplete s = .next (s.modCur (fun c => (c.raise k.flags).setTag tag .ready))) ∧
      (k.phase = .met e → (∀ x c f, x.toNat < tag.toNat → s.cur.getTag x = .running c → c.phase ≠ .met f) →
        exec .copyFaultStop s = .next (s.modCur (fun c => c.setTag tag (.running { k with phase := .stopped e }))))) ∧
    (let room := fun (x : Stream) => x.bound = true ∧ x.buf.length < 4 ∧ x.fault = none
     let x := s.cur.getS st
     room x → (∀ y, y.toNat < st.toNat → ¬room (s.cur.getS y)) → streamVec st x (x.pops.toNat + x.buf.length) s = .ok vec w →
      exec .streamReadAhead s = .next (w.modCur (fun c => c.setS st { c.getS st with buf := x.buf ++ [vec] })))

/-- A logical core gives up its physical core only at the points R17 lists, when it cannot run on, and then to the one R249 names. The install sequence clears a member's
registers and core pad and gives it its numbers, its argument and its entry. A word that has arrived lands in its register, whose port lets the
words behind it leave, or is held at a full one, and the words of its port that have not left stay; when those leave is the model's choice, log entry
79. A superstep that has passed its limit traps once; the boundary of a gang with nothing to record, to cut, to stop or to shrink starts its
timers again (R17, R43, R249, R250, R263, R265). That an input which finds nothing to do changes nothing is the model's choice, log entry 8. -/
def Obligations.SchedulingEvents : Prop :=
  ∀ (s : State) (c : LCore) (r : LoadRec) (k : KernRec) (w : PortWord) (l : List PortWord),
    let g := s.gang s.cur.gang
    (s.mustSwitch = false → exec .logicalCoreSwitch s = .next s) ∧
    (s.mustSwitch = true ↔ s.canRun s.cur = false ∧ s.cur.queued = false ∧ ∀ b ∈ s.cur.blk, s.cur.run = .running →
      b ≠ .causal ∧ b ≠ .stall) ∧
    (s.mustSwitch = true → s.nextHosted = some c → s.cur.pend = [] → s.cur.loads = [] → s.cur.late = none → s.cur.nextPost = s.cur →
      s.cur.is c.gang c.lcid = false →
      s.others.find? (fun x => x.is c.gang c.lcid) = some c →
      ∃ t, exec .logicalCoreSwitch s = .next t ∧ t.cur = { c with port := s.cur.port ++ c.port } ∧
        ∃ n, t.others = { s.cur with port := [], ccy := n } :: s.others.erase c) ∧
    (g.id = s.cur.gang → s.kernelOf g.ctx g.hdr = some (r, k) → ∃ t, exec (.install s.cur.lcid) s = .next t ∧
      t.cur.pc = entryOf r k s.cur.lcid.toNat ∧ t.cur.lcid = s.cur.lcid ∧ t.cur.pcid = s.cur.pcid ∧ t.cur.gang = s.cur.gang ∧
      t.cur.run = .running ∧ t.cur.root = hArg g.hdr ∧ t.cur.wfw = hWfw g.hdr ∧ t.cur.wfe = hWfe g.hdr ∧ t.cur.pl = 0 ∧
      t.cur.ie = false ∧ t.cur.ctx = g.ctx ∧ (∀ n, t.cur.getX n = 0) ∧ (∀ n, t.cur.getP n = PtrReg.null) ∧ (∀ n, t.cur.getV n = 0) ∧
      (∀ a, Mem.read (t.pad (.core s.cur.pcid.toNat)).mem a = 0) ∧ t.mem = s.mem ∧ t.gangs = s.gangs) ∧
    (s.others = [] → s.cur.port = w :: l → w.left = true → w.due < s.clk → (∀ x ∈ l, x.left = true → s.clk ≤ x.due) →
      w.tgt = s.cur.lcid → s.cur.gone = false →
      let q := s.cur.getQ w.qn
      (q.full = false → exec .depositArrive s = .next (s.modCur (fun c =>
        { c.setQ w.qn ⟨w.word, true⟩ with port := leavePort s.clk l }))) ∧
      (q.full = true → w.held = false → exec .depositArrive s = .next (s.modCur (fun c =>
        { c with port := { w with held := true } :: l.map (stayAfter w.due) }))) ∧
      (q.full = true → w.held = true → exec .depositArrive s = .next s)) ∧
    (s.gangs.find? s.atBoundary = none → exec .superstepBoundary s = .next s) ∧
    (∀ x, s.gangs = [x] → x.boundary = true → hRcr x.hdr = 0 → x.cut = none → x.shrinks = [] → bits s.mg.dbgctl.toNat 19 16 = 0 →
      s.msgs = [] → s.mg.trEn = false → ∃ t, exec .superstepBoundary s = .next t ∧ t.gangs = [{ x with boundary := false, arriveAt := [] }] ∧
        (∀ y ∈ t.cur :: t.others, y.gang = x.id → y.timer = s.gtc ∧ y.overrun = false) ∧ t.mem = s.mem ∧ t.pads = s.pads ∧
        t.cur.x = s.cur.x ∧ t.cur.pc = s.cur.pc) ∧
    (s.overrunDue = false → exec .superstepOverrun s = .next s) ∧
    (s.mustSwitch = true → s.nextHosted = some c → s.quiesce.cur.run = .running → s.quiesce.cur.handler = 0 → s.quiesce.cur.late.isSome = true →
      exec .logicalCoreSwitch s = .next s.quiesce.takeLate) ∧
    (s.overrunDue = true → s.cur.pend = [] → s.cur.loads = [] → s.cur.late = none → s.cur.nextPost = s.cur →
      ∃ t, exec .superstepOverrun s = .next t ∧ TrapTaken (s.modCur (fun c => { c with overrun := true })) false none
        ⟨cSUPERSTEP_OVERRUN, s.cur.ssc, BitVec.ofNat 64 (hSstl g.hdr)⟩ t)

/-- Touches, copy-ins, collections, messages between dies and page walks: each leaves the state of its operation where it can be performed, and
its trap where it cannot; a prefetch and a collection never trap, and one that meets a memory error leaves its record of type 3 or 6 (R367, R370; that
of a prefetch is the model's reading, log entry 77); a message of another die shows that its object is shared (R108, R110, R187, R196, R204,
R293). -/
def Obligations.ObjectAndCodeEvents : Prop :=
  ∀ (s w : State) (p : BitVec 4) (h : W64) (e : Exn) (f : FuncEntry) (l : BitVec 2) (m : DieMsg) (va : W64) (acc : BitVec 3) (loc : Loc)
    (tbl reason : Nat),
    (touch p s = .ok h w → exec (.touchComplete p) s = .next w) ∧
    (touch p s = .error e w → exec (.touchComplete p) s = .next (s.trapFrom w e)) ∧
    (fetchIn s = .ok () w → exec .demandCopyIn s = .next w) ∧ (fetchIn s = .error e w → exec .demandCopyIn s = .next (s.trapFrom w e)) ∧
    (s.funcFrom va = none → exec (.prefetchCopyIn va) s = .next s) ∧
    (s.funcFrom va = some f →
      ((s.residentAt f.start).isSome = true → exec (.prefetchCopyIn va) s = .next s) ∧
      (s.residentAt f.start = none → copyIn f true s = .ok () w → exec (.prefetchCopyIn va) s = .next w) ∧
      (s.residentAt f.start = none → copyIn f true s = .error e w →
        exec (.prefetchCopyIn va) s = .next ((s.knowing w).memError 3 s.cur.ctx s.cur.lcid s.cur.pcid.toNat e))) ∧
    (l = 3 → exec (.collect l) s = .next s) ∧
    (l ≠ 3 → s.owned l.toNat = true → (collect l.toNat s = .ok () w → exec (.collect l) s = .next { w with collected := s.collected }) ∧
      (collect l.toNat s = .error e w → exec (.collect l) s = .next
        ({ w with wbFailed := false, stands := false, collected := s.collected }.memError 6 s.cur.ctx 0xFFFF (janitorOf s.cur.pcid l.toNat) e))) ∧
    (s.ripeWhere (fun x => x.merge.isSome) = some m → exec .mergeApply s = .next (s.applyThis m)) ∧
    (s.ripeWhere (fun x => x.merge.isNone) = some m → m.merge = none →
      let t := { s.addStamp m.obj m.stamp with
        msgs := s.msgs.erase m, applied := s.applied.setIfInBounds m.src.toNat (s.applied.getD m.src.toNat 0 + 1) }
      exec .releaseNotice s = .next (if m.src = s.die then t else t.shareHome m.obj)) ∧
    (translate va.toNat acc.toNat s = .ok loc w → exec (.pageWalk va acc) s = .next w) ∧
    (translate va.toNat acc.toNat s = .error e w → exec (.pageWalk va acc) s = .next (s.trapFrom w e)) ∧
    (let named := s.ctxNamed s.cur.ctx
     let s1 := s.walked s.mg.ctxbase named s.cur.ctx va.toNat
     s.silent = false → s1.walk s.mg.ctxbase named s.cur.ctx va.toNat = .stop tbl reason →
      translate va.toNat acc.toNat s = .error ⟨cPAGE_FAULT, va, BitVec.ofNat 64 (tbl * 65536 + acc.toNat * 256 + reason)⟩ s1)

/-- A message of a kind goes in the class of its kind and size; it takes its permits, from the reserve of its class first, and does not leave without
all of them; they come back with the permit return, which needs none itself (that an event names the kind of its message by its place in a list, and
shows no more of it than its permits, is the model's choice, log entry 70, as are the directions of links and the class of a small write-back, log entries 157 and 156). A cross-die timeout, a late response, a stretched clock; a port that goes down, as every die's block shows (that its record is of unit 0x1A0 with the port in A is
the model's reading, log entry 66, and the number of its retries a free value); the halving of the page counters, the start of a page
move, and its completion: the bytes stand in the new frame, the entry names it, its owner is the context, and the interrupt is raised (R220,
R221, R281 to R284, R372, R376; which pages move, to which frames, and the order of the moves, are the model's choice, log entry 72). -/
def Obligations.LinkAndPageEvents : Prop :=
  ∀ (s : State) (link : BitVec 6) (hl : link.toNat < 52) (cls : BitVec 2) (kind : BitVec 5) (mk : MsgKind) (ctx : BitVec 16) (size : BitVec 10) (port : BitVec 5)
    (hp : port.toNat < 26) (ratio : BitVec 16) (va frame : W64) (m : Move) (ms : List Move) (ea pa : Nat) (pte : W64) (x : LinkMsg),
    let lk := s.links[link.toNat]
    let n := permits size.toNat
    let own := min n (lk.reserve cls)
    let sh := n - own
    let goes := messageOk cls size.toNat = true ∧ sh ≤ lk.shared ∧ (sh = 0 ∨ lk.heldBy ctx < 256)
    let on := fun (t : State) (f : Link → Prop) => t = { s with links := t.links } ∧ f (t.links[link.toNat]) ∧
      ∀ k : Nat, (hk : k < 52) → k ≠ link.toNat → t.links[k] = s.links[k]
    let sends := MsgKind.all[kind.toNat]? = some mk ∧ mk ≠ .permits ∧ mk.cls size.toNat = cls
    (sends → goes → ∃ t, exec (.linkMessage link kind ctx size) s = .next t ∧ on t (fun y => y.shared = lk.shared - sh ∧
      y.reserve cls = lk.reserve cls - own ∧ (∀ d, d ≠ cls → y.reserve d = lk.reserve d) ∧ y.out = lk.out ++ [⟨cls, ctx, own, sh⟩])) ∧
    (sends → ¬goes → ∃ t, exec (.linkMessage link kind ctx size) s = .next t ∧ on t (fun y => y = lk)) ∧
    (MsgKind.all[kind.toNat]? = none ∨ MsgKind.all[kind.toNat]? = some .permits → exec (.linkMessage link kind ctx size) s = .next s) ∧
    (lk.out.find? (fun y => y.cls == cls && y.ctx == ctx && y.own + y.shared == n) = some x →
      ∃ t, exec (.permitReturn link cls ctx size) s = .next t ∧ on t (fun y => y.shared = lk.shared + x.shared ∧
        y.reserve cls = lk.reserve cls + x.own ∧ (∀ d, d ≠ cls → y.reserve d = lk.reserve d) ∧ y.out = lk.out.erase x)) ∧
    (let w := s.mg.linkstat[port.toNat]
     let tries := fun (y : W64) => min 0xFFFFFF (bits y.toNat 31 8 + Config.linkRetries s.free)
     let down := fun (g : Mgmt) => { g with linkstat := g.linkstat.mapIdx (fun j y =>
       if j = port.toNat then setBits y 31 8 (tries y) &&& ~~~(1 : W64) else y) }
     (w.getLsbD 0 = true → exec (.linkDown port) s = .next ({ s with
       free := s.free + 1, mg := down s.mg, peers := s.peers.map down }.errorRecordAt 7 0 0xFFFF
         (srcOf 8 0x1A0) (port.setWidth 64) (BitVec.ofNat 64 (tries w)))) ∧
     (w.getLsbD 0 = false → exec (.linkDown port) s = .next s)) ∧
    exec .crossDieTimeout s = .next { s with silent := true } ∧
    (s.expired = 0 → exec .lateResponse s = .next s) ∧
    (s.expired ≠ 0 → exec .lateResponse s = .next { s with expired := s.expired - 1, mg := { s.mg with latecnt := s.mg.latecnt + 1 } }) ∧
    exec (.clockStretch ratio) s = .next { s with mg := { s.mg with pwrstat := ratio.setWidth 64 } } ∧
    exec .counterHalve s = .next { s with pageCtrs := s.pageCtrs.map (fun c => { c with cnt := c.cnt / 2, rep := false }) } ∧
    ((s.movable ctx va.toNat).isSome = true → s.mayFill frame.toNat = true →
      (∀ y ∈ s.moves, y.ctx = ctx → y.va.toNat / 65536 ≠ va.toNat / 65536) →
      exec (.pageMoveStart ctx va frame) s = .next { s with moves := s.moves ++ [⟨s.cur.gang, s.cur.lcid, ctx, va, frame⟩] }) ∧
    (s.movable ctx va.toNat = none ∨ s.mayFill frame.toNat = false → exec (.pageMoveStart ctx va frame) s = .next s) ∧
    (s.moves = m :: ms → s.movable m.ctx (m.va.toNat / 65536 * 65536) = some (ea, pte, pa) → s.mayFill m.frame.toNat = true →
      s.sealedAt ea = false → (∀ y ∈ s.frameOwner, y.1 = pa / 65536 → y.2 = m.ctx) → s.badAt (pa / 65536 * 65536) 65536 = false →
      s.mg.trEn = false → s.trHeld = [] → s.trHoldSince = none →
      ∃ t, exec .migrationComplete s = .next t ∧ t.moves = ms ∧ t.frameOwner.head? = some (m.frame.toNat, m.ctx) ∧
        Mem.readN t.mem ea 8 = (setBits pte 55 16 m.frame.toNat).toNat ∧
        (∀ k, k < 65536 → ¬(ea ≤ m.frame.toNat * 65536 + k ∧ m.frame.toNat * 65536 + k < ea + 8) →
          Mem.read t.mem (m.frame.toNat * 65536 + k) = Mem.read s.mem (pa / 65536 * 65536 + k)) ∧
        (∀ a, ¬(ea ≤ a ∧ a < ea + 8) → ¬(m.frame.toNat * 65536 ≤ a ∧ a < m.frame.toNat * 65536 + 65536) →
          Mem.read t.mem a = Mem.read s.mem a) ∧
        t.irqs = s.irqs ++ [⟨3, BitVec.ofNat 64 (m.va.toNat / 65536 * 65536), 0⟩] ∧ t.cur = s.cur ∧ t.pads = s.pads)

/-- The command processor. A head packet that waits, can be performed, is of the type, ready and selected is dispatched and performed; one that
fails stays at the head and puts its queue into error. A launch whose gang is over ends it. Ages and seniority; the doorbell with a count in
range, or out of range; and the writes of QSTAT (R269 to R278). -/
def Obligations.QueueEvents : Prop :=
  ∀ (s s1 : State) (q : BitVec 8) (p : Packet) (tag : BitVec 32) (sts : Nat) (g : Gang) (w : W64),
    let k := s.queue q
    let packets : List (Instr × Nat) := [(.nop q, 0), (.launch q, 1), (.signal q, 2), (.shrink q, 3)]
    let sets := fun (i : Instr) (f : State → Queue → Prop) => ∃ t, exec i s = .next t ∧
      f t (t.queue q) ∧ ∀ r, r ≠ q → t.queue r = s.queue r
    (∀ i ∈ packets, s.ageQueues.head q = (s1, .waiting p) → s1.packetFault q p = none → p.type = i.2 → s1.readyPacket q p = true →
      s1.selected q = true → exec i.1 s = .next ((s1.runPacket q p).ageQueue q)) ∧
    (∀ i ∈ packets, s.ageQueues.head q = (s1, .waiting p) → s1.packetFault q p = some sts → p.type = i.2 →
      exec i.1 s = .next ((s1.packetCheck q p).2.failQueue q sts p.tag)) ∧
    (∀ i ∈ packets, s.ageQueues.head q = (s1, .fails sts tag) → exec i.1 s = .next (s1.failQueue q sts tag)) ∧
    (((s.failQueue q sts tag).queue q).state = 2 ∧ ((s.failQueue q sts tag).queue q).sts = sts % 256 ∧
      ((s.failQueue q sts tag).queue q).qrd = k.qrd ∧
      (k.host = false → (s.failQueue q sts tag).irqs = s.irqs ++ [⟨1, q.setWidth 64, tag.setWidth 64⟩])) ∧
    (s.gangs.find? (fun x => x.queue == q && x.tag == tag && s.gangOver x) = some g →
      exec (.packetComplete q tag) s = .next (s.finishGang g)) ∧
    exec .dependenceRecheck s = .next s.ageQueues ∧
    (s.ageQueue q = { s with queues := (s.ageQueue q).queues } ∧ ∀ r, (s.ageQueue q).queue r =
      if r ≠ q then s.queue r
      else match (s.head q).2 with
        | .waiting x =>
          let b := k.since.getD s.gtc
          { k with since := some b, aged := (s.gtc - b) / 2 ^ 20, senior := x.type == 1 && decide (2 ^ 23 ≤ s.gtc - b) }
        | _ => if k.since.isNone then k else { k with since := none, aged := 0, senior := false }) ∧
    (∃ t, exec .priorityAging s = .next t ∧ t = { s with queues := t.queues } ∧ ∀ r, t.queue r =
      match (s.queue r).since with
      | some b => { s.queue r with aged := (s.gtc - b) / 2 ^ 20 }
      | none => s.queue r) ∧
    (∀ b, k.since = some b → (∀ r, r ≠ q → (s.queue r).since = none) → (s.head q).2 = .waiting p →
      exec .launchSeniority s = .next (s.setQueue q { k with senior := p.type == 1 && decide (2 ^ 23 ≤ s.gtc - b) })) ∧
    (k.host = false → exec (.doorbell q w) s = .next s) ∧
    (k.host = true → k.qwr.toNat ≤ w.toNat → w.toNat ≤ k.qrd.toNat + k.size →
      sets (.doorbell q w) (fun _ x => x.qwr = w ∧ x.qrd = k.qrd ∧ x.qstat = k.qstat)) ∧
    (k.host = true → ¬(k.qwr.toNat ≤ w.toNat ∧ w.toNat ≤ k.qrd.toNat + k.size) →
      sets (.doorbell q w) (fun t x => x.state = 1 ∧ x.qwr = k.qwr ∧ t.hostIrqs = s.hostIrqs ++ [q])) ∧
    (k.state = 2 → sets (.queueSkip q) (fun _ x => x.state = 0 ∧ x.sts = 0 ∧ x.qrd = k.qrd + 1 ∧ x.qwr = k.qwr)) ∧
    (k.state ≠ 2 → exec (.queueSkip q) s = .next s) ∧
    sets (.queueReset q) (fun t x => x.state = 0 ∧ x.sts = 0 ∧ x.qwr = k.qrd ∧ x.qrd = k.qrd ∧ t.mg.bkstat.getLsbD q.toNat = false) ∧
    sets (.queueEnable q) (fun _ x => x.state = 0 ∧ x.sts = k.sts ∧ x.qwr = k.qwr ∧ x.qrd = k.qrd) ∧
    sets (.queueDisable q) (fun t x => x.state = 3 ∧ x.sts = k.sts ∧ x.qwr = k.qwr ∧ x.qrd = k.qrd ∧ t.mg.bkstat.getLsbD q.toNat = false)

/-- Writes of the management block of this die and of another near-tier die by those who may make them (TMOD and TMOX by machine software alone:
the model's reading, log entry 65; that the block of another die is mere storage is its choice, log entry 11); requests for LOAD and UNLOAD, served in
order, at the address that LDMBOX held when each was made (the model's choice, log entry 101); the end of a task (which leaves null pointers and ROOT 0, the
model's reading, log entry 49); the satchel requests: one under way or one of another context is not heard, one that names no gang fails
with 1, a cut of a running gang waits for its boundary, a release names an image object, or fails with 2, and a held image, or fails with 5 (R269,
R325, R338, R340, R341, R354, R374, R377). -/
def Obligations.ManagementEvents : Prop :=
  ∀ (s : State) (who : BitVec 18) (v : W64) (gid : BitVec 32) (lcid : BitVec 16) (q : BitVec 8) (tag : BitVec 32) (g : Gang) (held : HeldImage),
    let number := fun (d off : Nat) => BitVec.ofNat 32 (barNumber false d off)
    let sets := fun (ok : Bool) (off : Nat) (f : Mgmt → Mgmt) =>
      exec (.managementRegisterWrite who (number s.die.toNat off) v) s = .next (if ok then { s with mg := f s.mg } else s)
    let m := decide (whoPl who = 3)
    let sup := decide (whoPl who = 1 ∨ whoPl who = 3)
    let requests : List (Instr × Nat) := [(.satchelFreeze who q tag, 1), (.satchelCheckpoint who q tag, 2), (.urgentPreemption who q tag, 3),
      (.satchelRestore who q tag, 4), (.releaseInPlaceImage who q tag, 5)]
    let heard := fun (op : Nat) => { s with mg := { s.mg with
      satctl := BitVec.ofNat 64 (tag.toNat * 2 ^ 32 + q.toNat * 2 ^ 24 + op % 16 * 2 ^ 16 + 1) } }
    let free := bits s.mg.satctl.toNat 1 0 ≠ 1 ∧ s.mayControl who q = true
    let named := s.oldestGang q tag
    (s.rot.recovery = false → s.die.toNat < 8 → sets m 0x40 (fun g => { g with ctxbase := v }) ∧ sets m 0x48 (fun g => { g with ctxn := v }) ∧
      sets m 0x50 (fun g => { g with expbase := v }) ∧ sets sup 0x60 (fun g => { g with ldmbox := v }) ∧
      sets sup 0x70 (fun g => { g with candbase := v }) ∧ sets sup 0x78 (fun g => { g with candlen := v }) ∧
      sets sup 0x80 (fun g => { g with candthr := v &&& 0xFF }) ∧ sets m 0xA0 (fun g => { g with tmod := v }) ∧
      sets m 0xA8 (fun g => { g with tmox := v }) ∧ sets sup 0xB8 (fun g => { g with intrt := v &&& 0x1FFFFFFFFFFF }) ∧
      sets m 0x1C0 (fun g => { g with erbase := v &&& ~~~(0xFFFF : W64) }) ∧ sets m 0x1C8 (fun g => { g with erlen := v &&& 0xFFFFFFFF }) ∧
      sets m 0x1D8 (fun g => { g with errd := v }) ∧ sets m 0x200 (fun g => { g with pwrlim := v })) ∧
    (∀ d, d < 8 → d ≠ s.die.toNat → s.rot.recovery = false →
      exec (.managementRegisterWrite who (number d 0x200) v) s = .next (if m then { s with
        peers := s.peers.setIfInBounds d { s.peers.getD d Mgmt.reset with pwrlim := v } } else s) ∧
      exec (.managementRegisterWrite who (number d 0x110) v) s = .next (if m then { s with
        peers := s.peers.setIfInBounds d { s.peers.getD d Mgmt.reset with satimg := v } } else s) ∧
      exec (.managementRegisterWrite who (number d 0x128) v) s = .next (if m then { s with
        peers := s.peers.setIfInBounds d { s.peers.getD d Mgmt.reset with dbgss := v } } else s)) ∧
    (s.rot.recovery = false → s.die.toNat < 8 → sup = true → v.getLsbD 0 = true →
      let submits := fun (l : List Instr) => exec (.managementRegisterWrite who (number s.die.toNat 0x68) v) s = .next { s with
        ldq := s.ldq ++ [s.mg.ldmbox], inputs := s.inputs ++ l }
      (s.ldq ≠ [] → submits []) ∧
      let unloads := s.physOk s.mg.ldmbox.toNat 64 = true ∧ Mem.readN s.mem s.mg.ldmbox.toNat 1 = 2
      (s.ldq = [] → unloads → submits [.unload]) ∧ (s.ldq = [] → ¬unloads → submits [.load])) ∧
    (s.cur.run = .running → (s.gang s.cur.gang).cut = none → ∃ t, exec (.endTask s.cur.gang s.cur.lcid) s = .next t ∧ t.cur.run = .ended ∧
      t.cur.root = 0 ∧ (∀ r, t.cur.getP r = PtrReg.null) ∧ (t.gang s.cur.gang).abandoned ≠ none ∧ t.mem = s.mem ∧ t.cur.x = s.cur.x) ∧
    ((s.members gid).any (fun c => c.lcid == lcid && c.run == .running) = false → exec (.endTask gid lcid) s = .next s) ∧
    (let target := s.oldestGang (BitVec.ofNat 8 (bits v.toNat 23 16)) (BitVec.ofNat 32 (bits v.toNat 63 32))
     (target = none → exec (.tabort who v) s = .next s) ∧
     (target = some g → s.mayControl who (BitVec.ofNat 8 (bits v.toNat 23 16)) = true →
       exec (.tabort who v) s = exec (.endTask g.id (v.setWidth 16)) s) ∧
     (target = some g → s.mayControl who (BitVec.ofNat 8 (bits v.toNat 23 16)) = false → exec (.tabort who v) s = .next s)) ∧
    (¬free → ∀ i ∈ requests, exec i.1 s = .next s) ∧
    (free → named = none → ∀ i ∈ requests, i.2 ≤ 3 → exec i.1 s = .next ((heard i.2).endRequest 1)) ∧
    (free → named = some g → g.abandoned = none →
      exec (.satchelFreeze who q tag) s = .next ((heard 1).setGang { g with cut := some 1 }) ∧
      exec (.satchelCheckpoint who q tag) s = .next ((heard 2).setGang { g with cut := some 2 }) ∧
      exec (.urgentPreemption who q tag) s = .next ((heard 3).preempt g.id)) ∧
    (free → exec (.satchelRestore who q tag) s = .next (heard 4).restoreNow) ∧
    (free → let found := s.images.find? (fun i => i.img == s.mg.satimg && i.ctx == (s.queue q).ctx)
      let open_ := (heard 5).imgLen (s.queue q).ctx s.mg.satimg
      (open_.1 = none → exec (.releaseInPlaceImage who q tag) s = .next (open_.2.endRequest 2)) ∧
      (open_.1.isSome = true → found = none → exec (.releaseInPlaceImage who q tag) s = .next ((heard 5).endRequest 5)) ∧
      (open_.1.isSome = true → found = some held → exec (.releaseInPlaceImage who q tag) s =
        .next ((held.gang.shrinks.foldl (fun (t : State) (y : Shrink) => t.completePacket y.queue y.tag y.ctx y.ca 1)
          { heard 5 with images := s.images.filter (fun i => i != held) }.dropPads).endRequest 0)))

/-- Debug control, breakpoint releases, trace control and the end of a trace hold; freezing, and the read-out of a frozen part, which gives each
running physical core's record and pad and changes nothing else; lost values, failed lines, and the errors of memory that scrubbing finds, the
corrected ones recorded once in 2^20 ticks (R360 to R370). The operand bits of SCRUBBING that choose the storage and whether the error can be corrected,
and the syndrome, a free value, are the model's choice (log entry 134). The owner of the trace, the spare lines, the moment of a machine check, the value that
is lost and what B of a type 1 record counts are the model's choice (log entries 64, 68, 97, 67 and 115, and 133). -/
def Obligations.ObservationEvents : Prop :=
  ∀ (s : State) (who : BitVec 18) (v pa : W64) (q : BitVec 8) (tag : BitVec 32) (unit : BitVec 4),
    let debugs : List (Instr × Nat) := [(.debugOff who q tag, 0), (.debugAtSsm who q tag, 1), (.debugEveryBoundary who q tag, 2),
      (.debugNextBoundary who q tag, 3)]
    let q0 : BitVec 8 := v.setWidth 8
    let brk := v.toNat < 256 ∧ s.mayControl who q0 = true ∧ s.mg.bkstat.getLsbD q0.toNat = true
    let held := if s.mg.trEn then s.mg.trCtx else v.extractLsb' 48 16
    let traceOn := (v &&& 0x0000000000000000FFFF0002) ||| 1
    let line := pa.toNat / 128
    let synd := v &&& 0xFFFFFF
    (s.mayControl who q = true → ∀ i ∈ debugs, exec i.1 s = .next { s with mg := { s.mg with
      dbgctl := BitVec.ofNat 64 (tag.toNat * 2 ^ 32 + q.toNat * 2 ^ 24 + i.2 * 2 ^ 16) } }) ∧
    (s.mayControl who q = false → ∀ i ∈ debugs, exec i.1 s = .next s) ∧
    (brk → exec (.bkrel who v) s = .next (((s.setBk q0 false).setQueue q0 { s.queue q0 with released := true }).ageQueue q0)) ∧
    (¬brk → exec (.bkrel who v) s = .next s) ∧
    (whoPl who = 3 ∨ (whoPl who = 1 ∧ whoCtx who = held) →
      (∃ t, exec (.traceEnable who v) s = .next t ∧ t.mg.trEn = true ∧ t.mg.trCtx = held ∧
        (∀ k < 32, 1 ≤ k → t.mg.trctl.getLsbD k = (traceOn.getLsbD k)) ∧
        (s.mg.trEn = false → t.mg.trwr = 0 ∧ t.mg.trrd = 0 ∧ t.mg.trdrop = 0 ∧ t.trGap = 0 ∧ t.trHeld = []) ∧
        t = { s with mg := t.mg, trGap := t.trGap, trHeld := t.trHeld, trHoldSince := t.trHoldSince, trPend := t.trPend }) ∧
      (let w := if s.mg.trEn then { s with trPend := [] }.writeTraceRecs s.trPend else s
       ∃ t, exec (.traceDisable who v) s = .next t ∧ t.mg.trEn = false ∧ t.mg.trCtx = held ∧
        t = { w with mg := { w.mg with trctl := t.mg.trctl } })) ∧
    (s.trHoldSince = none → exec .traceHoldExpiry s = .next s) ∧
    (∀ b, s.trHoldSince = some b → b + 10000 < s.gtc → s.trHeld ≠ [] → (∀ r ∈ s.trHeld, r.extractLsb' 104 8 ≠ (10 : Byte)) →
      ∃ t, exec .traceHoldExpiry s = .next t ∧ t.trHeld = [] ∧ t.trGap = s.trGap + s.trHeld.length ∧ t.mg.trwr = s.mg.trwr ∧
        t.mg.trdrop = s.mg.trdrop + BitVec.ofNat 64 s.trHeld.length ∧ t.trHoldSince = some b ∧ t.mem = s.mem ∧ t.cur = s.cur) ∧
    (whoPl who = 3 → exec (.freeze who) s = .next { s with frozen := true }) ∧ (whoPl who ≠ 3 → exec (.freeze who) s = .next s) ∧
    exec .freezeInput s = .next { s with frozen := true } ∧
    (s.frozen = false → exec .testAccessReadout s = .next s) ∧
    (s.frozen = true → exec .testAccessReadout s = .next { s with readout := (firstOfEach s.allCores []).map s.readCore }) ∧
    (unit.toNat = 0 ∨ 8 < unit.toNat ∨ s.cur.run ≠ .running → exec (.softError unit v) s = .next s) ∧
    (1 ≤ unit.toNat → unit.toNat ≤ 8 → s.cur.run = .running → exec (.softError unit v) s =
      .next (({ s.modCur (fun c => c.lose unit.toNat (bits synd.toNat 7 0) (bits synd.toNat 15 8) (Config.freeWord s.free)
          (Config.freeVec s.free)) with free := s.free + 1 }.errorRecord 5 s.cur.ctx s.cur.lcid s.cur.pcid.toNat 0 synd).modCur
        (fun c => { c with lost := c.lost ++ [(⟨cMACHINE_CHECK, unit.setWidth 64, synd⟩ : Exn)] }))) ∧
    (∀ (m : Exn) (l : List Exn), s.cur.lost = m :: l → m.code = cMACHINE_CHECK → s.cur.pend = [] → s.cur.loads = [] → s.cur.late = none →
      s.cur.nextPost = s.cur →
      ∃ t, s.takeLost = some t ∧ TrapTaken (s.modCur (fun c => { c with lost := l })) false none m t) ∧
    (s.failedLine line = true → s.isDram pa.toNat = true →
      let bad := s.badSectors.filter (fun k => k / 4 != line)
      let at_ : W64 := BitVec.ofNat 64 (line * 128)
      (s.spares line < 32 → exec (.lineRetirement pa) s = .next ({ s with
        badSectors := bad, retiredLines := line :: s.retiredLines, spared := line :: s.spared }.errorRecordAt 4 0 0xFFFF (memSrc pa.toNat) at_ 0)) ∧
      (32 ≤ s.spares line → exec (.lineRetirement pa) s = .next ({ s with
        badSectors := bad, retiredFrames := (line / 512) :: s.retiredFrames }.errorRecordAt 4 0 0xFFFF (memSrc pa.toNat) at_ 1))) ∧
    (s.failedLine line = false → exec (.lineRetirement pa) s = .next s) ∧
    (let kind := bits pa.toNat 60 58
     let place := bits pa.toNat 57 0
     let sector := place / 32
     let src := memSrc place
     let rest := s.corr.filter (fun x => x.1 != src)
     let counts := fun (gtc n : Nat) => { s with corr := (src, gtc, n) :: rest }
     let found := s.corr.find? (fun x => x.1 == src)
     let writes := fun (b : Nat) => (counts s.gtc 0).errorRecordAt 1 0 0xFFFF src (BitVec.ofNat 64 (sector * 32)) (BitVec.ofNat 64 b)
     (s.isDram place = true →
       (kind = 0 → exec (.scrubbing pa) s = .next ({ s with
         badSectors := sector :: s.badSectors.filter (· != sector), free := s.free + 1 }.errorRecordAt 3 0 0xFFFF src
           (BitVec.ofNat 64 (sector * 32)) (Config.freeWord s.free))) ∧
       (kind = 1 → (found = none → exec (.scrubbing pa) s = .next (writes 0)) ∧
         (∀ gtc n x, found = some (x, gtc, n) → s.gtc < gtc + 2 ^ 20 → exec (.scrubbing pa) s = .next (counts gtc (n + 1))) ∧
         (∀ gtc n x, found = some (x, gtc, n) → gtc + 2 ^ 20 ≤ s.gtc → exec (.scrubbing pa) s = .next (writes n)))) ∧
     (s.isDram place = false → kind ≤ 1 → exec (.scrubbing pa) s = .next s) ∧
     (kind = 4 → s.residentAt (BitVec.ofNat 64 place) = none → exec (.scrubbing pa) s = .next s) ∧
     (kind = 5 → exec (.scrubbing pa) s = .next { s with held := s.held.filter (fun h => h.pa != place) }))

/-- Loading and unloading answer at the mailbox: the first check that fails gives its status and detail, and nothing but the answer is left of
the request; a LOAD whose checks hold ends in a later step, with the frames of its code that have been written sealed and its record kept. Reset keeps
memory but for sealed frames and those that a context owns, which are zeroed, flash, keys and the fused registers; everything else is as after reset, and the links are trained, or the part waits in recovery
for an image, which it verifies before it runs; key enrolment by machine software; firmware is written only where it verifies; and the
attestation requests, each answered (R322 to R326, R371, R378, R379). What reset keeps of memory, the recovery window, the order of the checks, the
times of a LOAD and of an update, the indices of measurements, that the mailbox lies at a physical address, and what an answer to CHALLENGE holds are
the model's choice or reading (log entries 9, 10, 73, 101, 75, 74 and 144). -/
def Obligations.RootOfTrustEvents : Prop :=
  ∀ (s : State) (who : BitVec 18) (a len : W64) (sup : Bool) (idx : Byte) (key : List Byte) (e : Nat × Nat) (x : BitVec 2560),
    let img := s.stagedImage a len
    let fresh := s.afterReset
    let reply := fun (i : Instr) (r : SpdmReply) => exec i s = .next { s with spdm := s.spdm ++ [r] }
    let place := s.request.toNat
    (s.ldq.drop 1 = [] → s.canStore (place + 0x28) 1 = true → s.canStore (place + 0x2C) 4 = true →
      let t := s.answer e.1 e.2
      Mem.readN t.mem (place + 0x28) 1 = e.1 % 256 ∧ Mem.readN t.mem (place + 0x2C) 4 = e.2 % 2 ^ 32 ∧
        (∀ k, k ≠ place + 0x28 → ¬(place + 0x2C ≤ k ∧ k < place + 0x30) → Mem.read t.mem k = Mem.read s.mem k) ∧
        t = { s with
          mem := t.mem, lineTags := t.lineTags, badSectors := t.badSectors, retiredLines := t.retiredLines
          ldq := [], loading := none, irqs := s.irqs ++ [⟨2, s.request, BitVec.ofNat 64 e.1⟩] }) ∧
    (s.loading = none → s.loadChecks = .error e → exec .load s = .next (s.answer e.1 e.2)) ∧
    (∀ pages vals s1, s.loading = none → s.loadChecks = .ok () → s.imagePages s.mailCtx (s.mailbox 0x18 8) (File.codeLen s.staged / 65536) 0
        (File.imgLen s.staged / 65536) = (s1, .ok pages) →
      relocAll s.staged (s.mailbox 0x18 8) 0 (File.relocs s.staged) = .ok vals →
      exec .load s = .next { s1 with
        free := s1.free + 1
        loading := some ⟨s.staged, s.mailCtx, s.mailbox 0x18 8, pages, vals, s1.clk + Config.loadTime s1.free⟩ }) ∧
    (∀ j, s.loading = some j → exec .load s = .next s ∧ exec .unload s = .next s ∧ (s.clk < j.due → s.goOnLoading = s) ∧
      (j.due ≤ s.clk → let t := s.goOnLoading
        let filled := ((s.createCtx j.ctx).fillPages j.ctx (imageBytes j.file j.ctx s.die j.vals) 0 j.pages).2
        let code := ((j.pages.take (File.codeLen j.file / 65536)).map ImagePage.frame).filter (fun f => filled.contains f)
        t.loading = none ∧ t.seals = code ++ s.seals ∧
          t.loads = s.loads ++ [loadRecord j.file j.ctx (BitVec.ofNat 64 j.base) code] ∧ t.ldq = s.ldq.drop 1 ∧
          t.irqs = s.irqs ++ [⟨2, s.request, 0⟩])) ∧
    (s.loading = none → s.mailbox 0 1 ≠ 2 → exec .unload s = .next (s.answer 1 0)) ∧
    (s.loading = none → s.mailbox 0 1 = 2 → s.mailCtxOk = true →
      let base := BitVec.ofNat 64 (s.mailbox 0x18 8)
      let used := s.gangs.any (fun g => g.ctx == s.mailCtx && hKobj g.hdr == base)
      let rec_ := s.loads.find? (fun r => r.ctx == s.mailCtx && r.base == base)
      (used = true ∨ rec_ = none → exec .unload s = .next (s.answer 10 0)) ∧
      (∀ r, used = false → rec_ = some r → ∃ t, exec .unload s = .next t ∧ t.loads = s.loads.erase r ∧
        t.seals = s.seals.filter (fun f => !r.frames.contains f) ∧ t.ldq = s.ldq.drop 1 ∧ t.irqs = s.irqs ++ [⟨2, s.request, 0⟩])) ∧
    ((∀ k, Mem.read fresh.mem k = if s.seals.contains (k / 65536) || s.frameOwner.any (fun o => o.1 == k / 65536) then 0 else Mem.read s.mem k) ∧
      fresh.seals = [] ∧ fresh.frameOwner = [] ∧ fresh.created = [] ∧
      fresh.rot.flash = s.rot.flash ∧ fresh.rot.keys = s.rot.keys ∧ fresh.feat = s.feat ∧ fresh.die = s.die ∧ fresh.mg.enset = s.mg.enset ∧
      fresh.pkg = s.pkg ∧ fresh.cur = State.reset.cur ∧ fresh.others = [] ∧ fresh.gangs = [] ∧ fresh.pads = State.reset.pads ∧
      fresh.queues = State.reset.queues ∧ fresh.frozen = false ∧ fresh.ldq = [] ∧ fresh.loading = none) ∧
    (s.rot.writing = none → s.imageOk s.rot.flash = true → exec .reset s = .next fresh.bringUp ∧ fresh.bringUp.pkg = s.straps ∧
      (∀ p : Fin 26, fresh.bringUp.mg.linkstat.get p = trainPort s.straps s.free p.val) ∧
      fresh.bringUp.farPorts = Config.farTrains s.free ∧ fresh.bringUp.mg.farFailed = ~~~(Config.farTrains s.free)) ∧
    (s.rot.writing ≠ none ∨ s.imageOk s.rot.flash = false → exec .reset s = .next ({ fresh with
      rot := { fresh.rot with recovery := true } }.setFwstat 1)) ∧
    (s.rot.recovery = true → s.rot.verifying = none → exec (.fwgo len) s = .next ({ s with
      rot := { s.rot with verifying := some len.toNat } }.setFwstat 2)) ∧
    (s.rot.recovery = false ∨ s.rot.verifying ≠ none → exec (.fwgo len) s = .next s) ∧
    (∀ k, s.rot.verifying = some k →
      let runs := k ≤ 0x100000 ∧ s.imageOk (s.rot.image k) = true
      (runs → exec .recoveryImageVerified s = .next (({ s with
        rot := { s.rot with flash := s.rot.image k, recovery := false, verifying := none, writing := none } }.setFwstat 0).bringUp)) ∧
      (¬runs → exec .recoveryImageVerified s = .next ({ s with rot := { s.rot with verifying := none } }.setFwstat 3))) ∧
    (let kept := s.setMgmt 0 (fun g => { g with keyenr := a })
     (whoPl who ≠ 3 → exec (.keyenr who a) s = .next s) ∧
     (whoPl who = 3 → Config.keyRequest s.mem a = none → exec (.keyenr who a) s = .next kept) ∧
     (∀ j, whoPl who = 3 → Config.keyRequest s.mem a = some (j, sup, key) → 1 ≤ j → j ≤ 7 →
       exec (.keyenr who a) s = .next { kept with rot := { s.rot with keys := s.rot.keys.setIfInBounds j ⟨true, sup, key⟩ } })) ∧
    (let may := whoPl who = 3 ∧ s.rot.writing = none ∧ s.physOk a.toNat len.toNat = true ∧ s.imageOk img = true
     (may → exec (.firmwareUpdate who a len) s = .next { s with
       free := s.free + 1, rot := { s.rot with writing := some (img, s.clk + Config.updateTime s.free) } }) ∧
     (¬may → exec (.firmwareUpdate who a len) s = .next s)) ∧
    (∀ l due, s.rot.writing = some (l, due) → (s.clk < due → s.goOnWriting = s) ∧
      (due ≤ s.clk → s.goOnWriting = { s with rot := { s.rot with flash := l, writing := none } })) ∧
    reply .getVersion (.version 1 2) ∧ reply .getCapabilities (.capabilities ⟨true, true, true, true, false⟩) ∧
    reply .negotiateAlgorithms (.algorithms [.rsassa3072] [.sha256]) ∧
    reply .getDigests (.digests (sha256 Config.certChain)) ∧ reply .getCertificate (.certificate Config.certChain) ∧
    reply .challenge (.challenge (sha256 Config.certChain) s.measured (Config.deviceSign (sha256 Config.certChain) s.measured)) ∧
    (s.measure idx = some x → reply (.getMeasurements idx) (.measurement idx x)) ∧
    (s.measure idx = none → exec (.getMeasurements idx) s = .next s)

end
end

