-- ==== Sys2Proof/Laws/State.lean ====
section
/-! SUPPORT. What each update of the state leaves in each field: one lemma per field per update, true by definition, so that no
proof unfolds a record update. -/

set_option Elab.async false

namespace Sys2Proof.Machine

/-! ### `setP` -/

@[simp] theorem LCore.setP_gang (c : LCore) (r : BitVec 4) (v : PtrReg) : (c.setP r v).gang = c.gang := rfl
@[simp] theorem LCore.setP_run (c : LCore) (r : BitVec 4) (v : PtrReg) : (c.setP r v).run = c.run := rfl
@[simp] theorem LCore.setP_blk (c : LCore) (r : BitVec 4) (v : PtrReg) : (c.setP r v).blk = c.blk := rfl
@[simp] theorem LCore.setP_lcid (c : LCore) (r : BitVec 4) (v : PtrReg) : (c.setP r v).lcid = c.lcid := rfl
@[simp] theorem LCore.setP_lcn (c : LCore) (r : BitVec 4) (v : PtrReg) : (c.setP r v).lcn = c.lcn := rfl
@[simp] theorem LCore.setP_wid (c : LCore) (r : BitVec 4) (v : PtrReg) : (c.setP r v).wid = c.wid := rfl
@[simp] theorem LCore.setP_wfw (c : LCore) (r : BitVec 4) (v : PtrReg) : (c.setP r v).wfw = c.wfw := rfl
@[simp] theorem LCore.setP_wfe (c : LCore) (r : BitVec 4) (v : PtrReg) : (c.setP r v).wfe = c.wfe := rfl
@[simp] theorem LCore.setP_pcid (c : LCore) (r : BitVec 4) (v : PtrReg) : (c.setP r v).pcid = c.pcid := rfl
@[simp] theorem LCore.setP_pc (c : LCore) (r : BitVec 4) (v : PtrReg) : (c.setP r v).pc = c.pc := rfl
@[simp] theorem LCore.setP_unit (c : LCore) (r : BitVec 4) (v : PtrReg) : (c.setP r v).unit = c.unit := rfl
@[simp] theorem LCore.setP_pfx (c : LCore) (r : BitVec 4) (v : PtrReg) : (c.setP r v).pfx = c.pfx := rfl
@[simp] theorem LCore.setP_x (c : LCore) (r : BitVec 4) (v : PtrReg) : (c.setP r v).x = c.x := rfl
@[simp] theorem LCore.setP_p (c : LCore) (r : BitVec 4) (v : PtrReg) : (c.setP r v).p = c.p.set r.toNat v r.isLt := rfl
@[simp] theorem LCore.setP_v (c : LCore) (r : BitVec 4) (v : PtrReg) : (c.setP r v).v = c.v := rfl
@[simp] theorem LCore.setP_m (c : LCore) (r : BitVec 4) (v : PtrReg) : (c.setP r v).m = c.m := rfl
@[simp] theorem LCore.setP_t (c : LCore) (r : BitVec 4) (v : PtrReg) : (c.setP r v).t = c.t := rfl
@[simp] theorem LCore.setP_acc (c : LCore) (r : BitVec 4) (v : PtrReg) : (c.setP r v).acc = c.acc := rfl
@[simp] theorem LCore.setP_k (c : LCore) (r : BitVec 4) (v : PtrReg) : (c.setP r v).k = c.k := rfl
@[simp] theorem LCore.setP_q (c : LCore) (r : BitVec 4) (v : PtrReg) : (c.setP r v).q = c.q := rfl
@[simp] theorem LCore.setP_st (c : LCore) (r : BitVec 4) (v : PtrReg) : (c.setP r v).st = c.st := rfl
@[simp] theorem LCore.setP_tags (c : LCore) (r : BitVec 4) (v : PtrReg) : (c.setP r v).tags = c.tags := rfl
@[simp] theorem LCore.setP_startQ (c : LCore) (r : BitVec 4) (v : PtrReg) : (c.setP r v).startQ = c.startQ := rfl
@[simp] theorem LCore.setP_vl (c : LCore) (r : BitVec 4) (v : PtrReg) : (c.setP r v).vl = c.vl := rfl
@[simp] theorem LCore.setP_ssc (c : LCore) (r : BitVec 4) (v : PtrReg) : (c.setP r v).ssc = c.ssc := rfl
@[simp] theorem LCore.setP_status (c : LCore) (r : BitVec 4) (v : PtrReg) : (c.setP r v).status = c.status := rfl
@[simp] theorem LCore.setP_fstat (c : LCore) (r : BitVec 4) (v : PtrReg) : (c.setP r v).fstat = c.fstat := rfl
@[simp] theorem LCore.setP_fmode (c : LCore) (r : BitVec 4) (v : PtrReg) : (c.setP r v).fmode = c.fmode := rfl
@[simp] theorem LCore.setP_astat (c : LCore) (r : BitVec 4) (v : PtrReg) : (c.setP r v).astat = c.astat := rfl
@[simp] theorem LCore.setP_repc (c : LCore) (r : BitVec 4) (v : PtrReg) : (c.setP r v).repc = c.repc := rfl
@[simp] theorem LCore.setP_root (c : LCore) (r : BitVec 4) (v : PtrReg) : (c.setP r v).root = c.root := rfl
@[simp] theorem LCore.setP_sbank (c : LCore) (r : BitVec 4) (v : PtrReg) : (c.setP r v).sbank = c.sbank := rfl
@[simp] theorem LCore.setP_mbank (c : LCore) (r : BitVec 4) (v : PtrReg) : (c.setP r v).mbank = c.mbank := rfl
@[simp] theorem LCore.setP_exch (c : LCore) (r : BitVec 4) (v : PtrReg) : (c.setP r v).exch = c.exch := rfl
@[simp] theorem LCore.setP_tip (c : LCore) (r : BitVec 4) (v : PtrReg) : (c.setP r v).tip = c.tip := rfl
@[simp] theorem LCore.setP_saveX1 (c : LCore) (r : BitVec 4) (v : PtrReg) : (c.setP r v).saveX1 = c.saveX1 := rfl
@[simp] theorem LCore.setP_saveP13 (c : LCore) (r : BitVec 4) (v : PtrReg) : (c.setP r v).saveP13 = c.saveP13 := rfl
@[simp] theorem LCore.setP_saveP15 (c : LCore) (r : BitVec 4) (v : PtrReg) : (c.setP r v).saveP15 = c.saveP15 := rfl
@[simp] theorem LCore.setP_bars (c : LCore) (r : BitVec 4) (v : PtrReg) : (c.setP r v).bars = c.bars := rfl
@[simp] theorem LCore.setP_know (c : LCore) (r : BitVec 4) (v : PtrReg) : (c.setP r v).know = c.know := rfl
@[simp] theorem LCore.setP_cidx (c : LCore) (r : BitVec 4) (v : PtrReg) : (c.setP r v).cidx = c.cidx := rfl
@[simp] theorem LCore.setP_cxpins (c : LCore) (r : BitVec 4) (v : PtrReg) : (c.setP r v).cxpins = c.cxpins := rfl
@[simp] theorem LCore.setP_ring (c : LCore) (r : BitVec 4) (v : PtrReg) : (c.setP r v).ring = c.ring := rfl
@[simp] theorem LCore.setP_nextSeq (c : LCore) (r : BitVec 4) (v : PtrReg) : (c.setP r v).nextSeq = c.nextSeq := rfl
@[simp] theorem LCore.setP_late (c : LCore) (r : BitVec 4) (v : PtrReg) : (c.setP r v).late = c.late := rfl
@[simp] theorem LCore.setP_pend (c : LCore) (r : BitVec 4) (v : PtrReg) : (c.setP r v).pend = c.pend := rfl
@[simp] theorem LCore.setP_loads (c : LCore) (r : BitVec 4) (v : PtrReg) : (c.setP r v).loads = c.loads := rfl
@[simp] theorem LCore.setP_ccy (c : LCore) (r : BitVec 4) (v : PtrReg) : (c.setP r v).ccy = c.ccy := rfl
@[simp] theorem LCore.setP_xrdy (c : LCore) (r : BitVec 4) (v : PtrReg) : (c.setP r v).xrdy = c.xrdy := rfl
@[simp] theorem LCore.setP_divFree (c : LCore) (r : BitVec 4) (v : PtrReg) : (c.setP r v).divFree = c.divFree := rfl
@[simp] theorem LCore.setP_frozenAt (c : LCore) (r : BitVec 4) (v : PtrReg) : (c.setP r v).frozenAt = c.frozenAt := rfl
@[simp] theorem LCore.setP_copNext (c : LCore) (r : BitVec 4) (v : PtrReg) : (c.setP r v).copNext = c.copNext := rfl
@[simp] theorem LCore.setP_vecFree (c : LCore) (r : BitVec 4) (v : PtrReg) : (c.setP r v).vecFree = c.vecFree := rfl
@[simp] theorem LCore.setP_matFree (c : LCore) (r : BitVec 4) (v : PtrReg) : (c.setP r v).matFree = c.matFree := rfl
@[simp] theorem LCore.setP_port (c : LCore) (r : BitVec 4) (v : PtrReg) : (c.setP r v).port = c.port := rfl
@[simp] theorem LCore.setP_hint (c : LCore) (r : BitVec 4) (v : PtrReg) : (c.setP r v).hint = c.hint := rfl
@[simp] theorem LCore.setP_timer (c : LCore) (r : BitVec 4) (v : PtrReg) : (c.setP r v).timer = c.timer := rfl
@[simp] theorem LCore.setP_overrun (c : LCore) (r : BitVec 4) (v : PtrReg) : (c.setP r v).overrun = c.overrun := rfl
@[simp] theorem LCore.setP_handed (c : LCore) (r : BitVec 4) (v : PtrReg) : (c.setP r v).handed = c.handed := rfl
@[simp] theorem LCore.setP_handler (c : LCore) (r : BitVec 4) (v : PtrReg) : (c.setP r v).handler = c.handler := rfl
@[simp] theorem LCore.setP_taken (c : LCore) (r : BitVec 4) (v : PtrReg) : (c.setP r v).taken = c.taken := rfl
@[simp] theorem LCore.setP_posts (c : LCore) (r : BitVec 4) (v : PtrReg) : (c.setP r v).posts = c.posts := rfl
@[simp] theorem LCore.setP_work (c : LCore) (r : BitVec 4) (v : PtrReg) : (c.setP r v).work = c.work := rfl
@[simp] theorem LCore.setP_acks (c : LCore) (r : BitVec 4) (v : PtrReg) : (c.setP r v).acks = c.acks := rfl
@[simp] theorem LCore.setP_lost (c : LCore) (r : BitVec 4) (v : PtrReg) : (c.setP r v).lost = c.lost := rfl
@[simp] theorem LCore.setP_debug (c : LCore) (r : BitVec 4) (v : PtrReg) : (c.setP r v).debug = c.debug := rfl

/-! ### `setV` -/

@[simp] theorem LCore.setV_gang (c : LCore) (r : BitVec 5) (v : VWord) : (c.setV r v).gang = c.gang := rfl
@[simp] theorem LCore.setV_run (c : LCore) (r : BitVec 5) (v : VWord) : (c.setV r v).run = c.run := rfl
@[simp] theorem LCore.setV_blk (c : LCore) (r : BitVec 5) (v : VWord) : (c.setV r v).blk = c.blk := rfl
@[simp] theorem LCore.setV_lcid (c : LCore) (r : BitVec 5) (v : VWord) : (c.setV r v).lcid = c.lcid := rfl
@[simp] theorem LCore.setV_lcn (c : LCore) (r : BitVec 5) (v : VWord) : (c.setV r v).lcn = c.lcn := rfl
@[simp] theorem LCore.setV_wid (c : LCore) (r : BitVec 5) (v : VWord) : (c.setV r v).wid = c.wid := rfl
@[simp] theorem LCore.setV_wfw (c : LCore) (r : BitVec 5) (v : VWord) : (c.setV r v).wfw = c.wfw := rfl
@[simp] theorem LCore.setV_wfe (c : LCore) (r : BitVec 5) (v : VWord) : (c.setV r v).wfe = c.wfe := rfl
@[simp] theorem LCore.setV_pcid (c : LCore) (r : BitVec 5) (v : VWord) : (c.setV r v).pcid = c.pcid := rfl
@[simp] theorem LCore.setV_pc (c : LCore) (r : BitVec 5) (v : VWord) : (c.setV r v).pc = c.pc := rfl
@[simp] theorem LCore.setV_unit (c : LCore) (r : BitVec 5) (v : VWord) : (c.setV r v).unit = c.unit := rfl
@[simp] theorem LCore.setV_pfx (c : LCore) (r : BitVec 5) (v : VWord) : (c.setV r v).pfx = c.pfx := rfl
@[simp] theorem LCore.setV_x (c : LCore) (r : BitVec 5) (v : VWord) : (c.setV r v).x = c.x := rfl
@[simp] theorem LCore.setV_p (c : LCore) (r : BitVec 5) (v : VWord) : (c.setV r v).p = c.p := rfl
@[simp] theorem LCore.setV_v (c : LCore) (r : BitVec 5) (v : VWord) : (c.setV r v).v = c.v.set r.toNat v r.isLt := rfl
@[simp] theorem LCore.setV_m (c : LCore) (r : BitVec 5) (v : VWord) : (c.setV r v).m = c.m := rfl
@[simp] theorem LCore.setV_t (c : LCore) (r : BitVec 5) (v : VWord) : (c.setV r v).t = c.t := rfl
@[simp] theorem LCore.setV_acc (c : LCore) (r : BitVec 5) (v : VWord) : (c.setV r v).acc = c.acc := rfl
@[simp] theorem LCore.setV_k (c : LCore) (r : BitVec 5) (v : VWord) : (c.setV r v).k = c.k := rfl
@[simp] theorem LCore.setV_q (c : LCore) (r : BitVec 5) (v : VWord) : (c.setV r v).q = c.q := rfl
@[simp] theorem LCore.setV_st (c : LCore) (r : BitVec 5) (v : VWord) : (c.setV r v).st = c.st := rfl
@[simp] theorem LCore.setV_tags (c : LCore) (r : BitVec 5) (v : VWord) : (c.setV r v).tags = c.tags := rfl
@[simp] theorem LCore.setV_startQ (c : LCore) (r : BitVec 5) (v : VWord) : (c.setV r v).startQ = c.startQ := rfl
@[simp] theorem LCore.setV_vl (c : LCore) (r : BitVec 5) (v : VWord) : (c.setV r v).vl = c.vl := rfl
@[simp] theorem LCore.setV_ssc (c : LCore) (r : BitVec 5) (v : VWord) : (c.setV r v).ssc = c.ssc := rfl
@[simp] theorem LCore.setV_status (c : LCore) (r : BitVec 5) (v : VWord) : (c.setV r v).status = c.status := rfl
@[simp] theorem LCore.setV_fstat (c : LCore) (r : BitVec 5) (v : VWord) : (c.setV r v).fstat = c.fstat := rfl
@[simp] theorem LCore.setV_fmode (c : LCore) (r : BitVec 5) (v : VWord) : (c.setV r v).fmode = c.fmode := rfl
@[simp] theorem LCore.setV_astat (c : LCore) (r : BitVec 5) (v : VWord) : (c.setV r v).astat = c.astat := rfl
@[simp] theorem LCore.setV_repc (c : LCore) (r : BitVec 5) (v : VWord) : (c.setV r v).repc = c.repc := rfl
@[simp] theorem LCore.setV_root (c : LCore) (r : BitVec 5) (v : VWord) : (c.setV r v).root = c.root := rfl
@[simp] theorem LCore.setV_sbank (c : LCore) (r : BitVec 5) (v : VWord) : (c.setV r v).sbank = c.sbank := rfl
@[simp] theorem LCore.setV_mbank (c : LCore) (r : BitVec 5) (v : VWord) : (c.setV r v).mbank = c.mbank := rfl
@[simp] theorem LCore.setV_exch (c : LCore) (r : BitVec 5) (v : VWord) : (c.setV r v).exch = c.exch := rfl
@[simp] theorem LCore.setV_tip (c : LCore) (r : BitVec 5) (v : VWord) : (c.setV r v).tip = c.tip := rfl
@[simp] theorem LCore.setV_saveX1 (c : LCore) (r : BitVec 5) (v : VWord) : (c.setV r v).saveX1 = c.saveX1 := rfl
@[simp] theorem LCore.setV_saveP13 (c : LCore) (r : BitVec 5) (v : VWord) : (c.setV r v).saveP13 = c.saveP13 := rfl
@[simp] theorem LCore.setV_saveP15 (c : LCore) (r : BitVec 5) (v : VWord) : (c.setV r v).saveP15 = c.saveP15 := rfl
@[simp] theorem LCore.setV_bars (c : LCore) (r : BitVec 5) (v : VWord) : (c.setV r v).bars = c.bars := rfl
@[simp] theorem LCore.setV_know (c : LCore) (r : BitVec 5) (v : VWord) : (c.setV r v).know = c.know := rfl
@[simp] theorem LCore.setV_cidx (c : LCore) (r : BitVec 5) (v : VWord) : (c.setV r v).cidx = c.cidx := rfl
@[simp] theorem LCore.setV_cxpins (c : LCore) (r : BitVec 5) (v : VWord) : (c.setV r v).cxpins = c.cxpins := rfl
@[simp] theorem LCore.setV_ring (c : LCore) (r : BitVec 5) (v : VWord) : (c.setV r v).ring = c.ring := rfl
@[simp] theorem LCore.setV_nextSeq (c : LCore) (r : BitVec 5) (v : VWord) : (c.setV r v).nextSeq = c.nextSeq := rfl
@[simp] theorem LCore.setV_late (c : LCore) (r : BitVec 5) (v : VWord) : (c.setV r v).late = c.late := rfl
@[simp] theorem LCore.setV_pend (c : LCore) (r : BitVec 5) (v : VWord) : (c.setV r v).pend = c.pend := rfl
@[simp] theorem LCore.setV_loads (c : LCore) (r : BitVec 5) (v : VWord) : (c.setV r v).loads = c.loads := rfl
@[simp] theorem LCore.setV_ccy (c : LCore) (r : BitVec 5) (v : VWord) : (c.setV r v).ccy = c.ccy := rfl
@[simp] theorem LCore.setV_xrdy (c : LCore) (r : BitVec 5) (v : VWord) : (c.setV r v).xrdy = c.xrdy := rfl
@[simp] theorem LCore.setV_divFree (c : LCore) (r : BitVec 5) (v : VWord) : (c.setV r v).divFree = c.divFree := rfl
@[simp] theorem LCore.setV_frozenAt (c : LCore) (r : BitVec 5) (v : VWord) : (c.setV r v).frozenAt = c.frozenAt := rfl
@[simp] theorem LCore.setV_copNext (c : LCore) (r : BitVec 5) (v : VWord) : (c.setV r v).copNext = c.copNext := rfl
@[simp] theorem LCore.setV_vecFree (c : LCore) (r : BitVec 5) (v : VWord) : (c.setV r v).vecFree = c.vecFree := rfl
@[simp] theorem LCore.setV_matFree (c : LCore) (r : BitVec 5) (v : VWord) : (c.setV r v).matFree = c.matFree := rfl
@[simp] theorem LCore.setV_port (c : LCore) (r : BitVec 5) (v : VWord) : (c.setV r v).port = c.port := rfl
@[simp] theorem LCore.setV_hint (c : LCore) (r : BitVec 5) (v : VWord) : (c.setV r v).hint = c.hint := rfl
@[simp] theorem LCore.setV_timer (c : LCore) (r : BitVec 5) (v : VWord) : (c.setV r v).timer = c.timer := rfl
@[simp] theorem LCore.setV_overrun (c : LCore) (r : BitVec 5) (v : VWord) : (c.setV r v).overrun = c.overrun := rfl
@[simp] theorem LCore.setV_handed (c : LCore) (r : BitVec 5) (v : VWord) : (c.setV r v).handed = c.handed := rfl
@[simp] theorem LCore.setV_handler (c : LCore) (r : BitVec 5) (v : VWord) : (c.setV r v).handler = c.handler := rfl
@[simp] theorem LCore.setV_taken (c : LCore) (r : BitVec 5) (v : VWord) : (c.setV r v).taken = c.taken := rfl
@[simp] theorem LCore.setV_posts (c : LCore) (r : BitVec 5) (v : VWord) : (c.setV r v).posts = c.posts := rfl
@[simp] theorem LCore.setV_work (c : LCore) (r : BitVec 5) (v : VWord) : (c.setV r v).work = c.work := rfl
@[simp] theorem LCore.setV_acks (c : LCore) (r : BitVec 5) (v : VWord) : (c.setV r v).acks = c.acks := rfl
@[simp] theorem LCore.setV_lost (c : LCore) (r : BitVec 5) (v : VWord) : (c.setV r v).lost = c.lost := rfl
@[simp] theorem LCore.setV_debug (c : LCore) (r : BitVec 5) (v : VWord) : (c.setV r v).debug = c.debug := rfl

/-! ### `setT` -/

@[simp] theorem LCore.setT_gang (c : LCore) (r : BitVec 4) (v : Slot) : (c.setT r v).gang = c.gang := rfl
@[simp] theorem LCore.setT_run (c : LCore) (r : BitVec 4) (v : Slot) : (c.setT r v).run = c.run := rfl
@[simp] theorem LCore.setT_blk (c : LCore) (r : BitVec 4) (v : Slot) : (c.setT r v).blk = c.blk := rfl
@[simp] theorem LCore.setT_lcid (c : LCore) (r : BitVec 4) (v : Slot) : (c.setT r v).lcid = c.lcid := rfl
@[simp] theorem LCore.setT_lcn (c : LCore) (r : BitVec 4) (v : Slot) : (c.setT r v).lcn = c.lcn := rfl
@[simp] theorem LCore.setT_wid (c : LCore) (r : BitVec 4) (v : Slot) : (c.setT r v).wid = c.wid := rfl
@[simp] theorem LCore.setT_wfw (c : LCore) (r : BitVec 4) (v : Slot) : (c.setT r v).wfw = c.wfw := rfl
@[simp] theorem LCore.setT_wfe (c : LCore) (r : BitVec 4) (v : Slot) : (c.setT r v).wfe = c.wfe := rfl
@[simp] theorem LCore.setT_pcid (c : LCore) (r : BitVec 4) (v : Slot) : (c.setT r v).pcid = c.pcid := rfl
@[simp] theorem LCore.setT_pc (c : LCore) (r : BitVec 4) (v : Slot) : (c.setT r v).pc = c.pc := rfl
@[simp] theorem LCore.setT_unit (c : LCore) (r : BitVec 4) (v : Slot) : (c.setT r v).unit = c.unit := rfl
@[simp] theorem LCore.setT_pfx (c : LCore) (r : BitVec 4) (v : Slot) : (c.setT r v).pfx = c.pfx := rfl
@[simp] theorem LCore.setT_x (c : LCore) (r : BitVec 4) (v : Slot) : (c.setT r v).x = c.x := rfl
@[simp] theorem LCore.setT_p (c : LCore) (r : BitVec 4) (v : Slot) : (c.setT r v).p = c.p := rfl
@[simp] theorem LCore.setT_v (c : LCore) (r : BitVec 4) (v : Slot) : (c.setT r v).v = c.v := rfl
@[simp] theorem LCore.setT_m (c : LCore) (r : BitVec 4) (v : Slot) : (c.setT r v).m = c.m := rfl
@[simp] theorem LCore.setT_t (c : LCore) (r : BitVec 4) (v : Slot) : (c.setT r v).t = c.t.set r.toNat v r.isLt := rfl
@[simp] theorem LCore.setT_acc (c : LCore) (r : BitVec 4) (v : Slot) : (c.setT r v).acc = c.acc := rfl
@[simp] theorem LCore.setT_k (c : LCore) (r : BitVec 4) (v : Slot) : (c.setT r v).k = c.k := rfl
@[simp] theorem LCore.setT_q (c : LCore) (r : BitVec 4) (v : Slot) : (c.setT r v).q = c.q := rfl
@[simp] theorem LCore.setT_st (c : LCore) (r : BitVec 4) (v : Slot) : (c.setT r v).st = c.st := rfl
@[simp] theorem LCore.setT_tags (c : LCore) (r : BitVec 4) (v : Slot) : (c.setT r v).tags = c.tags := rfl
@[simp] theorem LCore.setT_startQ (c : LCore) (r : BitVec 4) (v : Slot) : (c.setT r v).startQ = c.startQ := rfl
@[simp] theorem LCore.setT_vl (c : LCore) (r : BitVec 4) (v : Slot) : (c.setT r v).vl = c.vl := rfl
@[simp] theorem LCore.setT_ssc (c : LCore) (r : BitVec 4) (v : Slot) : (c.setT r v).ssc = c.ssc := rfl
@[simp] theorem LCore.setT_status (c : LCore) (r : BitVec 4) (v : Slot) : (c.setT r v).status = c.status := rfl
@[simp] theorem LCore.setT_fstat (c : LCore) (r : BitVec 4) (v : Slot) : (c.setT r v).fstat = c.fstat := rfl
@[simp] theorem LCore.setT_fmode (c : LCore) (r : BitVec 4) (v : Slot) : (c.setT r v).fmode = c.fmode := rfl
@[simp] theorem LCore.setT_astat (c : LCore) (r : BitVec 4) (v : Slot) : (c.setT r v).astat = c.astat := rfl
@[simp] theorem LCore.setT_repc (c : LCore) (r : BitVec 4) (v : Slot) : (c.setT r v).repc = c.repc := rfl
@[simp] theorem LCore.setT_root (c : LCore) (r : BitVec 4) (v : Slot) : (c.setT r v).root = c.root := rfl
@[simp] theorem LCore.setT_sbank (c : LCore) (r : BitVec 4) (v : Slot) : (c.setT r v).sbank = c.sbank := rfl
@[simp] theorem LCore.setT_mbank (c : LCore) (r : BitVec 4) (v : Slot) : (c.setT r v).mbank = c.mbank := rfl
@[simp] theorem LCore.setT_exch (c : LCore) (r : BitVec 4) (v : Slot) : (c.setT r v).exch = c.exch := rfl
@[simp] theorem LCore.setT_tip (c : LCore) (r : BitVec 4) (v : Slot) : (c.setT r v).tip = c.tip := rfl
@[simp] theorem LCore.setT_saveX1 (c : LCore) (r : BitVec 4) (v : Slot) : (c.setT r v).saveX1 = c.saveX1 := rfl
@[simp] theorem LCore.setT_saveP13 (c : LCore) (r : BitVec 4) (v : Slot) : (c.setT r v).saveP13 = c.saveP13 := rfl
@[simp] theorem LCore.setT_saveP15 (c : LCore) (r : BitVec 4) (v : Slot) : (c.setT r v).saveP15 = c.saveP15 := rfl
@[simp] theorem LCore.setT_bars (c : LCore) (r : BitVec 4) (v : Slot) : (c.setT r v).bars = c.bars := rfl
@[simp] theorem LCore.setT_know (c : LCore) (r : BitVec 4) (v : Slot) : (c.setT r v).know = c.know := rfl
@[simp] theorem LCore.setT_cidx (c : LCore) (r : BitVec 4) (v : Slot) : (c.setT r v).cidx = c.cidx := rfl
@[simp] theorem LCore.setT_cxpins (c : LCore) (r : BitVec 4) (v : Slot) : (c.setT r v).cxpins = c.cxpins := rfl
@[simp] theorem LCore.setT_ring (c : LCore) (r : BitVec 4) (v : Slot) : (c.setT r v).ring = c.ring := rfl
@[simp] theorem LCore.setT_nextSeq (c : LCore) (r : BitVec 4) (v : Slot) : (c.setT r v).nextSeq = c.nextSeq := rfl
@[simp] theorem LCore.setT_late (c : LCore) (r : BitVec 4) (v : Slot) : (c.setT r v).late = c.late := rfl
@[simp] theorem LCore.setT_pend (c : LCore) (r : BitVec 4) (v : Slot) : (c.setT r v).pend = c.pend := rfl
@[simp] theorem LCore.setT_loads (c : LCore) (r : BitVec 4) (v : Slot) : (c.setT r v).loads = c.loads := rfl
@[simp] theorem LCore.setT_ccy (c : LCore) (r : BitVec 4) (v : Slot) : (c.setT r v).ccy = c.ccy := rfl
@[simp] theorem LCore.setT_xrdy (c : LCore) (r : BitVec 4) (v : Slot) : (c.setT r v).xrdy = c.xrdy := rfl
@[simp] theorem LCore.setT_divFree (c : LCore) (r : BitVec 4) (v : Slot) : (c.setT r v).divFree = c.divFree := rfl
@[simp] theorem LCore.setT_frozenAt (c : LCore) (r : BitVec 4) (v : Slot) : (c.setT r v).frozenAt = c.frozenAt := rfl
@[simp] theorem LCore.setT_copNext (c : LCore) (r : BitVec 4) (v : Slot) : (c.setT r v).copNext = c.copNext := rfl
@[simp] theorem LCore.setT_vecFree (c : LCore) (r : BitVec 4) (v : Slot) : (c.setT r v).vecFree = c.vecFree := rfl
@[simp] theorem LCore.setT_matFree (c : LCore) (r : BitVec 4) (v : Slot) : (c.setT r v).matFree = c.matFree := rfl
@[simp] theorem LCore.setT_port (c : LCore) (r : BitVec 4) (v : Slot) : (c.setT r v).port = c.port := rfl
@[simp] theorem LCore.setT_hint (c : LCore) (r : BitVec 4) (v : Slot) : (c.setT r v).hint = c.hint := rfl
@[simp] theorem LCore.setT_timer (c : LCore) (r : BitVec 4) (v : Slot) : (c.setT r v).timer = c.timer := rfl
@[simp] theorem LCore.setT_overrun (c : LCore) (r : BitVec 4) (v : Slot) : (c.setT r v).overrun = c.overrun := rfl
@[simp] theorem LCore.setT_handed (c : LCore) (r : BitVec 4) (v : Slot) : (c.setT r v).handed = c.handed := rfl
@[simp] theorem LCore.setT_handler (c : LCore) (r : BitVec 4) (v : Slot) : (c.setT r v).handler = c.handler := rfl
@[simp] theorem LCore.setT_taken (c : LCore) (r : BitVec 4) (v : Slot) : (c.setT r v).taken = c.taken := rfl
@[simp] theorem LCore.setT_posts (c : LCore) (r : BitVec 4) (v : Slot) : (c.setT r v).posts = c.posts := rfl
@[simp] theorem LCore.setT_work (c : LCore) (r : BitVec 4) (v : Slot) : (c.setT r v).work = c.work := rfl
@[simp] theorem LCore.setT_acks (c : LCore) (r : BitVec 4) (v : Slot) : (c.setT r v).acks = c.acks := rfl
@[simp] theorem LCore.setT_lost (c : LCore) (r : BitVec 4) (v : Slot) : (c.setT r v).lost = c.lost := rfl
@[simp] theorem LCore.setT_debug (c : LCore) (r : BitVec 4) (v : Slot) : (c.setT r v).debug = c.debug := rfl

/-! ### `setA` -/

@[simp] theorem LCore.setA_gang (c : LCore) (r : BitVec 2) (v : Acc) : (c.setA r v).gang = c.gang := rfl
@[simp] theorem LCore.setA_run (c : LCore) (r : BitVec 2) (v : Acc) : (c.setA r v).run = c.run := rfl
@[simp] theorem LCore.setA_blk (c : LCore) (r : BitVec 2) (v : Acc) : (c.setA r v).blk = c.blk := rfl
@[simp] theorem LCore.setA_lcid (c : LCore) (r : BitVec 2) (v : Acc) : (c.setA r v).lcid = c.lcid := rfl
@[simp] theorem LCore.setA_lcn (c : LCore) (r : BitVec 2) (v : Acc) : (c.setA r v).lcn = c.lcn := rfl
@[simp] theorem LCore.setA_wid (c : LCore) (r : BitVec 2) (v : Acc) : (c.setA r v).wid = c.wid := rfl
@[simp] theorem LCore.setA_wfw (c : LCore) (r : BitVec 2) (v : Acc) : (c.setA r v).wfw = c.wfw := rfl
@[simp] theorem LCore.setA_wfe (c : LCore) (r : BitVec 2) (v : Acc) : (c.setA r v).wfe = c.wfe := rfl
@[simp] theorem LCore.setA_pcid (c : LCore) (r : BitVec 2) (v : Acc) : (c.setA r v).pcid = c.pcid := rfl
@[simp] theorem LCore.setA_pc (c : LCore) (r : BitVec 2) (v : Acc) : (c.setA r v).pc = c.pc := rfl
@[simp] theorem LCore.setA_unit (c : LCore) (r : BitVec 2) (v : Acc) : (c.setA r v).unit = c.unit := rfl
@[simp] theorem LCore.setA_pfx (c : LCore) (r : BitVec 2) (v : Acc) : (c.setA r v).pfx = c.pfx := rfl
@[simp] theorem LCore.setA_x (c : LCore) (r : BitVec 2) (v : Acc) : (c.setA r v).x = c.x := rfl
@[simp] theorem LCore.setA_p (c : LCore) (r : BitVec 2) (v : Acc) : (c.setA r v).p = c.p := rfl
@[simp] theorem LCore.setA_v (c : LCore) (r : BitVec 2) (v : Acc) : (c.setA r v).v = c.v := rfl
@[simp] theorem LCore.setA_m (c : LCore) (r : BitVec 2) (v : Acc) : (c.setA r v).m = c.m := rfl
@[simp] theorem LCore.setA_t (c : LCore) (r : BitVec 2) (v : Acc) : (c.setA r v).t = c.t := rfl
@[simp] theorem LCore.setA_acc (c : LCore) (r : BitVec 2) (v : Acc) : (c.setA r v).acc = c.acc.set r.toNat v r.isLt := rfl
@[simp] theorem LCore.setA_k (c : LCore) (r : BitVec 2) (v : Acc) : (c.setA r v).k = c.k := rfl
@[simp] theorem LCore.setA_q (c : LCore) (r : BitVec 2) (v : Acc) : (c.setA r v).q = c.q := rfl
@[simp] theorem LCore.setA_st (c : LCore) (r : BitVec 2) (v : Acc) : (c.setA r v).st = c.st := rfl
@[simp] theorem LCore.setA_tags (c : LCore) (r : BitVec 2) (v : Acc) : (c.setA r v).tags = c.tags := rfl
@[simp] theorem LCore.setA_startQ (c : LCore) (r : BitVec 2) (v : Acc) : (c.setA r v).startQ = c.startQ := rfl
@[simp] theorem LCore.setA_vl (c : LCore) (r : BitVec 2) (v : Acc) : (c.setA r v).vl = c.vl := rfl
@[simp] theorem LCore.setA_ssc (c : LCore) (r : BitVec 2) (v : Acc) : (c.setA r v).ssc = c.ssc := rfl
@[simp] theorem LCore.setA_status (c : LCore) (r : BitVec 2) (v : Acc) : (c.setA r v).status = c.status := rfl
@[simp] theorem LCore.setA_fstat (c : LCore) (r : BitVec 2) (v : Acc) : (c.setA r v).fstat = c.fstat := rfl
@[simp] theorem LCore.setA_fmode (c : LCore) (r : BitVec 2) (v : Acc) : (c.setA r v).fmode = c.fmode := rfl
@[simp] theorem LCore.setA_astat (c : LCore) (r : BitVec 2) (v : Acc) : (c.setA r v).astat = c.astat := rfl
@[simp] theorem LCore.setA_repc (c : LCore) (r : BitVec 2) (v : Acc) : (c.setA r v).repc = c.repc := rfl
@[simp] theorem LCore.setA_root (c : LCore) (r : BitVec 2) (v : Acc) : (c.setA r v).root = c.root := rfl
@[simp] theorem LCore.setA_sbank (c : LCore) (r : BitVec 2) (v : Acc) : (c.setA r v).sbank = c.sbank := rfl
@[simp] theorem LCore.setA_mbank (c : LCore) (r : BitVec 2) (v : Acc) : (c.setA r v).mbank = c.mbank := rfl
@[simp] theorem LCore.setA_exch (c : LCore) (r : BitVec 2) (v : Acc) : (c.setA r v).exch = c.exch := rfl
@[simp] theorem LCore.setA_tip (c : LCore) (r : BitVec 2) (v : Acc) : (c.setA r v).tip = c.tip := rfl
@[simp] theorem LCore.setA_saveX1 (c : LCore) (r : BitVec 2) (v : Acc) : (c.setA r v).saveX1 = c.saveX1 := rfl
@[simp] theorem LCore.setA_saveP13 (c : LCore) (r : BitVec 2) (v : Acc) : (c.setA r v).saveP13 = c.saveP13 := rfl
@[simp] theorem LCore.setA_saveP15 (c : LCore) (r : BitVec 2) (v : Acc) : (c.setA r v).saveP15 = c.saveP15 := rfl
@[simp] theorem LCore.setA_bars (c : LCore) (r : BitVec 2) (v : Acc) : (c.setA r v).bars = c.bars := rfl
@[simp] theorem LCore.setA_know (c : LCore) (r : BitVec 2) (v : Acc) : (c.setA r v).know = c.know := rfl
@[simp] theorem LCore.setA_cidx (c : LCore) (r : BitVec 2) (v : Acc) : (c.setA r v).cidx = c.cidx := rfl
@[simp] theorem LCore.setA_cxpins (c : LCore) (r : BitVec 2) (v : Acc) : (c.setA r v).cxpins = c.cxpins := rfl
@[simp] theorem LCore.setA_ring (c : LCore) (r : BitVec 2) (v : Acc) : (c.setA r v).ring = c.ring := rfl
@[simp] theorem LCore.setA_nextSeq (c : LCore) (r : BitVec 2) (v : Acc) : (c.setA r v).nextSeq = c.nextSeq := rfl
@[simp] theorem LCore.setA_late (c : LCore) (r : BitVec 2) (v : Acc) : (c.setA r v).late = c.late := rfl
@[simp] theorem LCore.setA_pend (c : LCore) (r : BitVec 2) (v : Acc) : (c.setA r v).pend = c.pend := rfl
@[simp] theorem LCore.setA_loads (c : LCore) (r : BitVec 2) (v : Acc) : (c.setA r v).loads = c.loads := rfl
@[simp] theorem LCore.setA_ccy (c : LCore) (r : BitVec 2) (v : Acc) : (c.setA r v).ccy = c.ccy := rfl
@[simp] theorem LCore.setA_xrdy (c : LCore) (r : BitVec 2) (v : Acc) : (c.setA r v).xrdy = c.xrdy := rfl
@[simp] theorem LCore.setA_divFree (c : LCore) (r : BitVec 2) (v : Acc) : (c.setA r v).divFree = c.divFree := rfl
@[simp] theorem LCore.setA_frozenAt (c : LCore) (r : BitVec 2) (v : Acc) : (c.setA r v).frozenAt = c.frozenAt := rfl
@[simp] theorem LCore.setA_copNext (c : LCore) (r : BitVec 2) (v : Acc) : (c.setA r v).copNext = c.copNext := rfl
@[simp] theorem LCore.setA_vecFree (c : LCore) (r : BitVec 2) (v : Acc) : (c.setA r v).vecFree = c.vecFree := rfl
@[simp] theorem LCore.setA_matFree (c : LCore) (r : BitVec 2) (v : Acc) : (c.setA r v).matFree = c.matFree := rfl
@[simp] theorem LCore.setA_port (c : LCore) (r : BitVec 2) (v : Acc) : (c.setA r v).port = c.port := rfl
@[simp] theorem LCore.setA_hint (c : LCore) (r : BitVec 2) (v : Acc) : (c.setA r v).hint = c.hint := rfl
@[simp] theorem LCore.setA_timer (c : LCore) (r : BitVec 2) (v : Acc) : (c.setA r v).timer = c.timer := rfl
@[simp] theorem LCore.setA_overrun (c : LCore) (r : BitVec 2) (v : Acc) : (c.setA r v).overrun = c.overrun := rfl
@[simp] theorem LCore.setA_handed (c : LCore) (r : BitVec 2) (v : Acc) : (c.setA r v).handed = c.handed := rfl
@[simp] theorem LCore.setA_handler (c : LCore) (r : BitVec 2) (v : Acc) : (c.setA r v).handler = c.handler := rfl
@[simp] theorem LCore.setA_taken (c : LCore) (r : BitVec 2) (v : Acc) : (c.setA r v).taken = c.taken := rfl
@[simp] theorem LCore.setA_posts (c : LCore) (r : BitVec 2) (v : Acc) : (c.setA r v).posts = c.posts := rfl
@[simp] theorem LCore.setA_work (c : LCore) (r : BitVec 2) (v : Acc) : (c.setA r v).work = c.work := rfl
@[simp] theorem LCore.setA_acks (c : LCore) (r : BitVec 2) (v : Acc) : (c.setA r v).acks = c.acks := rfl
@[simp] theorem LCore.setA_lost (c : LCore) (r : BitVec 2) (v : Acc) : (c.setA r v).lost = c.lost := rfl
@[simp] theorem LCore.setA_debug (c : LCore) (r : BitVec 2) (v : Acc) : (c.setA r v).debug = c.debug := rfl

/-! ### `setK` -/

@[simp] theorem LCore.setK_gang (c : LCore) (r : BitVec 2) (v : Carry) : (c.setK r v).gang = c.gang := rfl
@[simp] theorem LCore.setK_run (c : LCore) (r : BitVec 2) (v : Carry) : (c.setK r v).run = c.run := rfl
@[simp] theorem LCore.setK_blk (c : LCore) (r : BitVec 2) (v : Carry) : (c.setK r v).blk = c.blk := rfl
@[simp] theorem LCore.setK_lcid (c : LCore) (r : BitVec 2) (v : Carry) : (c.setK r v).lcid = c.lcid := rfl
@[simp] theorem LCore.setK_lcn (c : LCore) (r : BitVec 2) (v : Carry) : (c.setK r v).lcn = c.lcn := rfl
@[simp] theorem LCore.setK_wid (c : LCore) (r : BitVec 2) (v : Carry) : (c.setK r v).wid = c.wid := rfl
@[simp] theorem LCore.setK_wfw (c : LCore) (r : BitVec 2) (v : Carry) : (c.setK r v).wfw = c.wfw := rfl
@[simp] theorem LCore.setK_wfe (c : LCore) (r : BitVec 2) (v : Carry) : (c.setK r v).wfe = c.wfe := rfl
@[simp] theorem LCore.setK_pcid (c : LCore) (r : BitVec 2) (v : Carry) : (c.setK r v).pcid = c.pcid := rfl
@[simp] theorem LCore.setK_pc (c : LCore) (r : BitVec 2) (v : Carry) : (c.setK r v).pc = c.pc := rfl
@[simp] theorem LCore.setK_unit (c : LCore) (r : BitVec 2) (v : Carry) : (c.setK r v).unit = c.unit := rfl
@[simp] theorem LCore.setK_pfx (c : LCore) (r : BitVec 2) (v : Carry) : (c.setK r v).pfx = c.pfx := rfl
@[simp] theorem LCore.setK_x (c : LCore) (r : BitVec 2) (v : Carry) : (c.setK r v).x = c.x := rfl
@[simp] theorem LCore.setK_p (c : LCore) (r : BitVec 2) (v : Carry) : (c.setK r v).p = c.p := rfl
@[simp] theorem LCore.setK_v (c : LCore) (r : BitVec 2) (v : Carry) : (c.setK r v).v = c.v := rfl
@[simp] theorem LCore.setK_m (c : LCore) (r : BitVec 2) (v : Carry) : (c.setK r v).m = c.m := rfl
@[simp] theorem LCore.setK_t (c : LCore) (r : BitVec 2) (v : Carry) : (c.setK r v).t = c.t := rfl
@[simp] theorem LCore.setK_acc (c : LCore) (r : BitVec 2) (v : Carry) : (c.setK r v).acc = c.acc := rfl
@[simp] theorem LCore.setK_k (c : LCore) (r : BitVec 2) (v : Carry) : (c.setK r v).k = c.k.set r.toNat v r.isLt := rfl
@[simp] theorem LCore.setK_q (c : LCore) (r : BitVec 2) (v : Carry) : (c.setK r v).q = c.q := rfl
@[simp] theorem LCore.setK_st (c : LCore) (r : BitVec 2) (v : Carry) : (c.setK r v).st = c.st := rfl
@[simp] theorem LCore.setK_tags (c : LCore) (r : BitVec 2) (v : Carry) : (c.setK r v).tags = c.tags := rfl
@[simp] theorem LCore.setK_startQ (c : LCore) (r : BitVec 2) (v : Carry) : (c.setK r v).startQ = c.startQ := rfl
@[simp] theorem LCore.setK_vl (c : LCore) (r : BitVec 2) (v : Carry) : (c.setK r v).vl = c.vl := rfl
@[simp] theorem LCore.setK_ssc (c : LCore) (r : BitVec 2) (v : Carry) : (c.setK r v).ssc = c.ssc := rfl
@[simp] theorem LCore.setK_status (c : LCore) (r : BitVec 2) (v : Carry) : (c.setK r v).status = c.status := rfl
@[simp] theorem LCore.setK_fstat (c : LCore) (r : BitVec 2) (v : Carry) : (c.setK r v).fstat = c.fstat := rfl
@[simp] theorem LCore.setK_fmode (c : LCore) (r : BitVec 2) (v : Carry) : (c.setK r v).fmode = c.fmode := rfl
@[simp] theorem LCore.setK_astat (c : LCore) (r : BitVec 2) (v : Carry) : (c.setK r v).astat = c.astat := rfl
@[simp] theorem LCore.setK_repc (c : LCore) (r : BitVec 2) (v : Carry) : (c.setK r v).repc = c.repc := rfl
@[simp] theorem LCore.setK_root (c : LCore) (r : BitVec 2) (v : Carry) : (c.setK r v).root = c.root := rfl
@[simp] theorem LCore.setK_sbank (c : LCore) (r : BitVec 2) (v : Carry) : (c.setK r v).sbank = c.sbank := rfl
@[simp] theorem LCore.setK_mbank (c : LCore) (r : BitVec 2) (v : Carry) : (c.setK r v).mbank = c.mbank := rfl
@[simp] theorem LCore.setK_exch (c : LCore) (r : BitVec 2) (v : Carry) : (c.setK r v).exch = c.exch := rfl
@[simp] theorem LCore.setK_tip (c : LCore) (r : BitVec 2) (v : Carry) : (c.setK r v).tip = c.tip := rfl
@[simp] theorem LCore.setK_saveX1 (c : LCore) (r : BitVec 2) (v : Carry) : (c.setK r v).saveX1 = c.saveX1 := rfl
@[simp] theorem LCore.setK_saveP13 (c : LCore) (r : BitVec 2) (v : Carry) : (c.setK r v).saveP13 = c.saveP13 := rfl
@[simp] theorem LCore.setK_saveP15 (c : LCore) (r : BitVec 2) (v : Carry) : (c.setK r v).saveP15 = c.saveP15 := rfl
@[simp] theorem LCore.setK_bars (c : LCore) (r : BitVec 2) (v : Carry) : (c.setK r v).bars = c.bars := rfl
@[simp] theorem LCore.setK_know (c : LCore) (r : BitVec 2) (v : Carry) : (c.setK r v).know = c.know := rfl
@[simp] theorem LCore.setK_cidx (c : LCore) (r : BitVec 2) (v : Carry) : (c.setK r v).cidx = c.cidx := rfl
@[simp] theorem LCore.setK_cxpins (c : LCore) (r : BitVec 2) (v : Carry) : (c.setK r v).cxpins = c.cxpins := rfl
@[simp] theorem LCore.setK_ring (c : LCore) (r : BitVec 2) (v : Carry) : (c.setK r v).ring = c.ring := rfl
@[simp] theorem LCore.setK_nextSeq (c : LCore) (r : BitVec 2) (v : Carry) : (c.setK r v).nextSeq = c.nextSeq := rfl
@[simp] theorem LCore.setK_late (c : LCore) (r : BitVec 2) (v : Carry) : (c.setK r v).late = c.late := rfl
@[simp] theorem LCore.setK_pend (c : LCore) (r : BitVec 2) (v : Carry) : (c.setK r v).pend = c.pend := rfl
@[simp] theorem LCore.setK_loads (c : LCore) (r : BitVec 2) (v : Carry) : (c.setK r v).loads = c.loads := rfl
@[simp] theorem LCore.setK_ccy (c : LCore) (r : BitVec 2) (v : Carry) : (c.setK r v).ccy = c.ccy := rfl
@[simp] theorem LCore.setK_xrdy (c : LCore) (r : BitVec 2) (v : Carry) : (c.setK r v).xrdy = c.xrdy := rfl
@[simp] theorem LCore.setK_divFree (c : LCore) (r : BitVec 2) (v : Carry) : (c.setK r v).divFree = c.divFree := rfl
@[simp] theorem LCore.setK_frozenAt (c : LCore) (r : BitVec 2) (v : Carry) : (c.setK r v).frozenAt = c.frozenAt := rfl
@[simp] theorem LCore.setK_copNext (c : LCore) (r : BitVec 2) (v : Carry) : (c.setK r v).copNext = c.copNext := rfl
@[simp] theorem LCore.setK_vecFree (c : LCore) (r : BitVec 2) (v : Carry) : (c.setK r v).vecFree = c.vecFree := rfl
@[simp] theorem LCore.setK_matFree (c : LCore) (r : BitVec 2) (v : Carry) : (c.setK r v).matFree = c.matFree := rfl
@[simp] theorem LCore.setK_port (c : LCore) (r : BitVec 2) (v : Carry) : (c.setK r v).port = c.port := rfl
@[simp] theorem LCore.setK_hint (c : LCore) (r : BitVec 2) (v : Carry) : (c.setK r v).hint = c.hint := rfl
@[simp] theorem LCore.setK_timer (c : LCore) (r : BitVec 2) (v : Carry) : (c.setK r v).timer = c.timer := rfl
@[simp] theorem LCore.setK_overrun (c : LCore) (r : BitVec 2) (v : Carry) : (c.setK r v).overrun = c.overrun := rfl
@[simp] theorem LCore.setK_handed (c : LCore) (r : BitVec 2) (v : Carry) : (c.setK r v).handed = c.handed := rfl
@[simp] theorem LCore.setK_handler (c : LCore) (r : BitVec 2) (v : Carry) : (c.setK r v).handler = c.handler := rfl
@[simp] theorem LCore.setK_taken (c : LCore) (r : BitVec 2) (v : Carry) : (c.setK r v).taken = c.taken := rfl
@[simp] theorem LCore.setK_posts (c : LCore) (r : BitVec 2) (v : Carry) : (c.setK r v).posts = c.posts := rfl
@[simp] theorem LCore.setK_work (c : LCore) (r : BitVec 2) (v : Carry) : (c.setK r v).work = c.work := rfl
@[simp] theorem LCore.setK_acks (c : LCore) (r : BitVec 2) (v : Carry) : (c.setK r v).acks = c.acks := rfl
@[simp] theorem LCore.setK_lost (c : LCore) (r : BitVec 2) (v : Carry) : (c.setK r v).lost = c.lost := rfl
@[simp] theorem LCore.setK_debug (c : LCore) (r : BitVec 2) (v : Carry) : (c.setK r v).debug = c.debug := rfl

/-! ### `setQ` -/

@[simp] theorem LCore.setQ_gang (c : LCore) (r : BitVec 4) (v : Inbox) : (c.setQ r v).gang = c.gang := rfl
@[simp] theorem LCore.setQ_run (c : LCore) (r : BitVec 4) (v : Inbox) : (c.setQ r v).run = c.run := rfl
@[simp] theorem LCore.setQ_blk (c : LCore) (r : BitVec 4) (v : Inbox) : (c.setQ r v).blk = c.blk := rfl
@[simp] theorem LCore.setQ_lcid (c : LCore) (r : BitVec 4) (v : Inbox) : (c.setQ r v).lcid = c.lcid := rfl
@[simp] theorem LCore.setQ_lcn (c : LCore) (r : BitVec 4) (v : Inbox) : (c.setQ r v).lcn = c.lcn := rfl
@[simp] theorem LCore.setQ_wid (c : LCore) (r : BitVec 4) (v : Inbox) : (c.setQ r v).wid = c.wid := rfl
@[simp] theorem LCore.setQ_wfw (c : LCore) (r : BitVec 4) (v : Inbox) : (c.setQ r v).wfw = c.wfw := rfl
@[simp] theorem LCore.setQ_wfe (c : LCore) (r : BitVec 4) (v : Inbox) : (c.setQ r v).wfe = c.wfe := rfl
@[simp] theorem LCore.setQ_pcid (c : LCore) (r : BitVec 4) (v : Inbox) : (c.setQ r v).pcid = c.pcid := rfl
@[simp] theorem LCore.setQ_pc (c : LCore) (r : BitVec 4) (v : Inbox) : (c.setQ r v).pc = c.pc := rfl
@[simp] theorem LCore.setQ_unit (c : LCore) (r : BitVec 4) (v : Inbox) : (c.setQ r v).unit = c.unit := rfl
@[simp] theorem LCore.setQ_pfx (c : LCore) (r : BitVec 4) (v : Inbox) : (c.setQ r v).pfx = c.pfx := rfl
@[simp] theorem LCore.setQ_x (c : LCore) (r : BitVec 4) (v : Inbox) : (c.setQ r v).x = c.x := rfl
@[simp] theorem LCore.setQ_p (c : LCore) (r : BitVec 4) (v : Inbox) : (c.setQ r v).p = c.p := rfl
@[simp] theorem LCore.setQ_v (c : LCore) (r : BitVec 4) (v : Inbox) : (c.setQ r v).v = c.v := rfl
@[simp] theorem LCore.setQ_m (c : LCore) (r : BitVec 4) (v : Inbox) : (c.setQ r v).m = c.m := rfl
@[simp] theorem LCore.setQ_t (c : LCore) (r : BitVec 4) (v : Inbox) : (c.setQ r v).t = c.t := rfl
@[simp] theorem LCore.setQ_acc (c : LCore) (r : BitVec 4) (v : Inbox) : (c.setQ r v).acc = c.acc := rfl
@[simp] theorem LCore.setQ_k (c : LCore) (r : BitVec 4) (v : Inbox) : (c.setQ r v).k = c.k := rfl
@[simp] theorem LCore.setQ_q (c : LCore) (r : BitVec 4) (v : Inbox) : (c.setQ r v).q = c.q.set r.toNat v r.isLt := rfl
@[simp] theorem LCore.setQ_st (c : LCore) (r : BitVec 4) (v : Inbox) : (c.setQ r v).st = c.st := rfl
@[simp] theorem LCore.setQ_tags (c : LCore) (r : BitVec 4) (v : Inbox) : (c.setQ r v).tags = c.tags := rfl
@[simp] theorem LCore.setQ_startQ (c : LCore) (r : BitVec 4) (v : Inbox) : (c.setQ r v).startQ = c.startQ := rfl
@[simp] theorem LCore.setQ_vl (c : LCore) (r : BitVec 4) (v : Inbox) : (c.setQ r v).vl = c.vl := rfl
@[simp] theorem LCore.setQ_ssc (c : LCore) (r : BitVec 4) (v : Inbox) : (c.setQ r v).ssc = c.ssc := rfl
@[simp] theorem LCore.setQ_status (c : LCore) (r : BitVec 4) (v : Inbox) : (c.setQ r v).status = c.status := rfl
@[simp] theorem LCore.setQ_fstat (c : LCore) (r : BitVec 4) (v : Inbox) : (c.setQ r v).fstat = c.fstat := rfl
@[simp] theorem LCore.setQ_fmode (c : LCore) (r : BitVec 4) (v : Inbox) : (c.setQ r v).fmode = c.fmode := rfl
@[simp] theorem LCore.setQ_astat (c : LCore) (r : BitVec 4) (v : Inbox) : (c.setQ r v).astat = c.astat := rfl
@[simp] theorem LCore.setQ_repc (c : LCore) (r : BitVec 4) (v : Inbox) : (c.setQ r v).repc = c.repc := rfl
@[simp] theorem LCore.setQ_root (c : LCore) (r : BitVec 4) (v : Inbox) : (c.setQ r v).root = c.root := rfl
@[simp] theorem LCore.setQ_sbank (c : LCore) (r : BitVec 4) (v : Inbox) : (c.setQ r v).sbank = c.sbank := rfl
@[simp] theorem LCore.setQ_mbank (c : LCore) (r : BitVec 4) (v : Inbox) : (c.setQ r v).mbank = c.mbank := rfl
@[simp] theorem LCore.setQ_exch (c : LCore) (r : BitVec 4) (v : Inbox) : (c.setQ r v).exch = c.exch := rfl
@[simp] theorem LCore.setQ_tip (c : LCore) (r : BitVec 4) (v : Inbox) : (c.setQ r v).tip = c.tip := rfl
@[simp] theorem LCore.setQ_saveX1 (c : LCore) (r : BitVec 4) (v : Inbox) : (c.setQ r v).saveX1 = c.saveX1 := rfl
@[simp] theorem LCore.setQ_saveP13 (c : LCore) (r : BitVec 4) (v : Inbox) : (c.setQ r v).saveP13 = c.saveP13 := rfl
@[simp] theorem LCore.setQ_saveP15 (c : LCore) (r : BitVec 4) (v : Inbox) : (c.setQ r v).saveP15 = c.saveP15 := rfl
@[simp] theorem LCore.setQ_bars (c : LCore) (r : BitVec 4) (v : Inbox) : (c.setQ r v).bars = c.bars := rfl
@[simp] theorem LCore.setQ_know (c : LCore) (r : BitVec 4) (v : Inbox) : (c.setQ r v).know = c.know := rfl
@[simp] theorem LCore.setQ_cidx (c : LCore) (r : BitVec 4) (v : Inbox) : (c.setQ r v).cidx = c.cidx := rfl
@[simp] theorem LCore.setQ_cxpins (c : LCore) (r : BitVec 4) (v : Inbox) : (c.setQ r v).cxpins = c.cxpins := rfl
@[simp] theorem LCore.setQ_ring (c : LCore) (r : BitVec 4) (v : Inbox) : (c.setQ r v).ring = c.ring := rfl
@[simp] theorem LCore.setQ_nextSeq (c : LCore) (r : BitVec 4) (v : Inbox) : (c.setQ r v).nextSeq = c.nextSeq := rfl
@[simp] theorem LCore.setQ_late (c : LCore) (r : BitVec 4) (v : Inbox) : (c.setQ r v).late = c.late := rfl
@[simp] theorem LCore.setQ_pend (c : LCore) (r : BitVec 4) (v : Inbox) : (c.setQ r v).pend = c.pend := rfl
@[simp] theorem LCore.setQ_loads (c : LCore) (r : BitVec 4) (v : Inbox) : (c.setQ r v).loads = c.loads := rfl
@[simp] theorem LCore.setQ_ccy (c : LCore) (r : BitVec 4) (v : Inbox) : (c.setQ r v).ccy = c.ccy := rfl
@[simp] theorem LCore.setQ_xrdy (c : LCore) (r : BitVec 4) (v : Inbox) : (c.setQ r v).xrdy = c.xrdy := rfl
@[simp] theorem LCore.setQ_divFree (c : LCore) (r : BitVec 4) (v : Inbox) : (c.setQ r v).divFree = c.divFree := rfl
@[simp] theorem LCore.setQ_frozenAt (c : LCore) (r : BitVec 4) (v : Inbox) : (c.setQ r v).frozenAt = c.frozenAt := rfl
@[simp] theorem LCore.setQ_copNext (c : LCore) (r : BitVec 4) (v : Inbox) : (c.setQ r v).copNext = c.copNext := rfl
@[simp] theorem LCore.setQ_vecFree (c : LCore) (r : BitVec 4) (v : Inbox) : (c.setQ r v).vecFree = c.vecFree := rfl
@[simp] theorem LCore.setQ_matFree (c : LCore) (r : BitVec 4) (v : Inbox) : (c.setQ r v).matFree = c.matFree := rfl
@[simp] theorem LCore.setQ_port (c : LCore) (r : BitVec 4) (v : Inbox) : (c.setQ r v).port = c.port := rfl
@[simp] theorem LCore.setQ_hint (c : LCore) (r : BitVec 4) (v : Inbox) : (c.setQ r v).hint = c.hint := rfl
@[simp] theorem LCore.setQ_timer (c : LCore) (r : BitVec 4) (v : Inbox) : (c.setQ r v).timer = c.timer := rfl
@[simp] theorem LCore.setQ_overrun (c : LCore) (r : BitVec 4) (v : Inbox) : (c.setQ r v).overrun = c.overrun := rfl
@[simp] theorem LCore.setQ_handed (c : LCore) (r : BitVec 4) (v : Inbox) : (c.setQ r v).handed = c.handed := rfl
@[simp] theorem LCore.setQ_handler (c : LCore) (r : BitVec 4) (v : Inbox) : (c.setQ r v).handler = c.handler := rfl
@[simp] theorem LCore.setQ_taken (c : LCore) (r : BitVec 4) (v : Inbox) : (c.setQ r v).taken = c.taken := rfl
@[simp] theorem LCore.setQ_posts (c : LCore) (r : BitVec 4) (v : Inbox) : (c.setQ r v).posts = c.posts := rfl
@[simp] theorem LCore.setQ_work (c : LCore) (r : BitVec 4) (v : Inbox) : (c.setQ r v).work = c.work := rfl
@[simp] theorem LCore.setQ_acks (c : LCore) (r : BitVec 4) (v : Inbox) : (c.setQ r v).acks = c.acks := rfl
@[simp] theorem LCore.setQ_lost (c : LCore) (r : BitVec 4) (v : Inbox) : (c.setQ r v).lost = c.lost := rfl
@[simp] theorem LCore.setQ_debug (c : LCore) (r : BitVec 4) (v : Inbox) : (c.setQ r v).debug = c.debug := rfl

/-! ### `setS` -/

@[simp] theorem LCore.setS_gang (c : LCore) (r : BitVec 3) (v : Stream) : (c.setS r v).gang = c.gang := rfl
@[simp] theorem LCore.setS_run (c : LCore) (r : BitVec 3) (v : Stream) : (c.setS r v).run = c.run := rfl
@[simp] theorem LCore.setS_blk (c : LCore) (r : BitVec 3) (v : Stream) : (c.setS r v).blk = c.blk := rfl
@[simp] theorem LCore.setS_lcid (c : LCore) (r : BitVec 3) (v : Stream) : (c.setS r v).lcid = c.lcid := rfl
@[simp] theorem LCore.setS_lcn (c : LCore) (r : BitVec 3) (v : Stream) : (c.setS r v).lcn = c.lcn := rfl
@[simp] theorem LCore.setS_wid (c : LCore) (r : BitVec 3) (v : Stream) : (c.setS r v).wid = c.wid := rfl
@[simp] theorem LCore.setS_wfw (c : LCore) (r : BitVec 3) (v : Stream) : (c.setS r v).wfw = c.wfw := rfl
@[simp] theorem LCore.setS_wfe (c : LCore) (r : BitVec 3) (v : Stream) : (c.setS r v).wfe = c.wfe := rfl
@[simp] theorem LCore.setS_pcid (c : LCore) (r : BitVec 3) (v : Stream) : (c.setS r v).pcid = c.pcid := rfl
@[simp] theorem LCore.setS_pc (c : LCore) (r : BitVec 3) (v : Stream) : (c.setS r v).pc = c.pc := rfl
@[simp] theorem LCore.setS_unit (c : LCore) (r : BitVec 3) (v : Stream) : (c.setS r v).unit = c.unit := rfl
@[simp] theorem LCore.setS_pfx (c : LCore) (r : BitVec 3) (v : Stream) : (c.setS r v).pfx = c.pfx := rfl
@[simp] theorem LCore.setS_x (c : LCore) (r : BitVec 3) (v : Stream) : (c.setS r v).x = c.x := rfl
@[simp] theorem LCore.setS_p (c : LCore) (r : BitVec 3) (v : Stream) : (c.setS r v).p = c.p := rfl
@[simp] theorem LCore.setS_v (c : LCore) (r : BitVec 3) (v : Stream) : (c.setS r v).v = c.v := rfl
@[simp] theorem LCore.setS_m (c : LCore) (r : BitVec 3) (v : Stream) : (c.setS r v).m = c.m := rfl
@[simp] theorem LCore.setS_t (c : LCore) (r : BitVec 3) (v : Stream) : (c.setS r v).t = c.t := rfl
@[simp] theorem LCore.setS_acc (c : LCore) (r : BitVec 3) (v : Stream) : (c.setS r v).acc = c.acc := rfl
@[simp] theorem LCore.setS_k (c : LCore) (r : BitVec 3) (v : Stream) : (c.setS r v).k = c.k := rfl
@[simp] theorem LCore.setS_q (c : LCore) (r : BitVec 3) (v : Stream) : (c.setS r v).q = c.q := rfl
@[simp] theorem LCore.setS_st (c : LCore) (r : BitVec 3) (v : Stream) : (c.setS r v).st = c.st.set r.toNat v r.isLt := rfl
@[simp] theorem LCore.setS_tags (c : LCore) (r : BitVec 3) (v : Stream) : (c.setS r v).tags = c.tags := rfl
@[simp] theorem LCore.setS_startQ (c : LCore) (r : BitVec 3) (v : Stream) : (c.setS r v).startQ = c.startQ := rfl
@[simp] theorem LCore.setS_vl (c : LCore) (r : BitVec 3) (v : Stream) : (c.setS r v).vl = c.vl := rfl
@[simp] theorem LCore.setS_ssc (c : LCore) (r : BitVec 3) (v : Stream) : (c.setS r v).ssc = c.ssc := rfl
@[simp] theorem LCore.setS_status (c : LCore) (r : BitVec 3) (v : Stream) : (c.setS r v).status = c.status := rfl
@[simp] theorem LCore.setS_fstat (c : LCore) (r : BitVec 3) (v : Stream) : (c.setS r v).fstat = c.fstat := rfl
@[simp] theorem LCore.setS_fmode (c : LCore) (r : BitVec 3) (v : Stream) : (c.setS r v).fmode = c.fmode := rfl
@[simp] theorem LCore.setS_astat (c : LCore) (r : BitVec 3) (v : Stream) : (c.setS r v).astat = c.astat := rfl
@[simp] theorem LCore.setS_repc (c : LCore) (r : BitVec 3) (v : Stream) : (c.setS r v).repc = c.repc := rfl
@[simp] theorem LCore.setS_root (c : LCore) (r : BitVec 3) (v : Stream) : (c.setS r v).root = c.root := rfl
@[simp] theorem LCore.setS_sbank (c : LCore) (r : BitVec 3) (v : Stream) : (c.setS r v).sbank = c.sbank := rfl
@[simp] theorem LCore.setS_mbank (c : LCore) (r : BitVec 3) (v : Stream) : (c.setS r v).mbank = c.mbank := rfl
@[simp] theorem LCore.setS_exch (c : LCore) (r : BitVec 3) (v : Stream) : (c.setS r v).exch = c.exch := rfl
@[simp] theorem LCore.setS_tip (c : LCore) (r : BitVec 3) (v : Stream) : (c.setS r v).tip = c.tip := rfl
@[simp] theorem LCore.setS_saveX1 (c : LCore) (r : BitVec 3) (v : Stream) : (c.setS r v).saveX1 = c.saveX1 := rfl
@[simp] theorem LCore.setS_saveP13 (c : LCore) (r : BitVec 3) (v : Stream) : (c.setS r v).saveP13 = c.saveP13 := rfl
@[simp] theorem LCore.setS_saveP15 (c : LCore) (r : BitVec 3) (v : Stream) : (c.setS r v).saveP15 = c.saveP15 := rfl
@[simp] theorem LCore.setS_bars (c : LCore) (r : BitVec 3) (v : Stream) : (c.setS r v).bars = c.bars := rfl
@[simp] theorem LCore.setS_know (c : LCore) (r : BitVec 3) (v : Stream) : (c.setS r v).know = c.know := rfl
@[simp] theorem LCore.setS_cidx (c : LCore) (r : BitVec 3) (v : Stream) : (c.setS r v).cidx = c.cidx := rfl
@[simp] theorem LCore.setS_cxpins (c : LCore) (r : BitVec 3) (v : Stream) : (c.setS r v).cxpins = c.cxpins := rfl
@[simp] theorem LCore.setS_ring (c : LCore) (r : BitVec 3) (v : Stream) : (c.setS r v).ring = c.ring := rfl
@[simp] theorem LCore.setS_nextSeq (c : LCore) (r : BitVec 3) (v : Stream) : (c.setS r v).nextSeq = c.nextSeq := rfl
@[simp] theorem LCore.setS_late (c : LCore) (r : BitVec 3) (v : Stream) : (c.setS r v).late = c.late := rfl
@[simp] theorem LCore.setS_pend (c : LCore) (r : BitVec 3) (v : Stream) : (c.setS r v).pend = c.pend := rfl
@[simp] theorem LCore.setS_loads (c : LCore) (r : BitVec 3) (v : Stream) : (c.setS r v).loads = c.loads := rfl
@[simp] theorem LCore.setS_ccy (c : LCore) (r : BitVec 3) (v : Stream) : (c.setS r v).ccy = c.ccy := rfl
@[simp] theorem LCore.setS_xrdy (c : LCore) (r : BitVec 3) (v : Stream) : (c.setS r v).xrdy = c.xrdy := rfl
@[simp] theorem LCore.setS_divFree (c : LCore) (r : BitVec 3) (v : Stream) : (c.setS r v).divFree = c.divFree := rfl
@[simp] theorem LCore.setS_frozenAt (c : LCore) (r : BitVec 3) (v : Stream) : (c.setS r v).frozenAt = c.frozenAt := rfl
@[simp] theorem LCore.setS_copNext (c : LCore) (r : BitVec 3) (v : Stream) : (c.setS r v).copNext = c.copNext := rfl
@[simp] theorem LCore.setS_vecFree (c : LCore) (r : BitVec 3) (v : Stream) : (c.setS r v).vecFree = c.vecFree := rfl
@[simp] theorem LCore.setS_matFree (c : LCore) (r : BitVec 3) (v : Stream) : (c.setS r v).matFree = c.matFree := rfl
@[simp] theorem LCore.setS_port (c : LCore) (r : BitVec 3) (v : Stream) : (c.setS r v).port = c.port := rfl
@[simp] theorem LCore.setS_hint (c : LCore) (r : BitVec 3) (v : Stream) : (c.setS r v).hint = c.hint := rfl
@[simp] theorem LCore.setS_timer (c : LCore) (r : BitVec 3) (v : Stream) : (c.setS r v).timer = c.timer := rfl
@[simp] theorem LCore.setS_overrun (c : LCore) (r : BitVec 3) (v : Stream) : (c.setS r v).overrun = c.overrun := rfl
@[simp] theorem LCore.setS_handed (c : LCore) (r : BitVec 3) (v : Stream) : (c.setS r v).handed = c.handed := rfl
@[simp] theorem LCore.setS_handler (c : LCore) (r : BitVec 3) (v : Stream) : (c.setS r v).handler = c.handler := rfl
@[simp] theorem LCore.setS_taken (c : LCore) (r : BitVec 3) (v : Stream) : (c.setS r v).taken = c.taken := rfl
@[simp] theorem LCore.setS_posts (c : LCore) (r : BitVec 3) (v : Stream) : (c.setS r v).posts = c.posts := rfl
@[simp] theorem LCore.setS_work (c : LCore) (r : BitVec 3) (v : Stream) : (c.setS r v).work = c.work := rfl
@[simp] theorem LCore.setS_acks (c : LCore) (r : BitVec 3) (v : Stream) : (c.setS r v).acks = c.acks := rfl
@[simp] theorem LCore.setS_lost (c : LCore) (r : BitVec 3) (v : Stream) : (c.setS r v).lost = c.lost := rfl
@[simp] theorem LCore.setS_debug (c : LCore) (r : BitVec 3) (v : Stream) : (c.setS r v).debug = c.debug := rfl

/-! ### `setTag` -/

@[simp] theorem LCore.setTag_gang (c : LCore) (r : BitVec 6) (v : Tag) : (c.setTag r v).gang = c.gang := rfl
@[simp] theorem LCore.setTag_run (c : LCore) (r : BitVec 6) (v : Tag) : (c.setTag r v).run = c.run := rfl
@[simp] theorem LCore.setTag_blk (c : LCore) (r : BitVec 6) (v : Tag) : (c.setTag r v).blk = c.blk := rfl
@[simp] theorem LCore.setTag_lcid (c : LCore) (r : BitVec 6) (v : Tag) : (c.setTag r v).lcid = c.lcid := rfl
@[simp] theorem LCore.setTag_lcn (c : LCore) (r : BitVec 6) (v : Tag) : (c.setTag r v).lcn = c.lcn := rfl
@[simp] theorem LCore.setTag_wid (c : LCore) (r : BitVec 6) (v : Tag) : (c.setTag r v).wid = c.wid := rfl
@[simp] theorem LCore.setTag_wfw (c : LCore) (r : BitVec 6) (v : Tag) : (c.setTag r v).wfw = c.wfw := rfl
@[simp] theorem LCore.setTag_wfe (c : LCore) (r : BitVec 6) (v : Tag) : (c.setTag r v).wfe = c.wfe := rfl
@[simp] theorem LCore.setTag_pcid (c : LCore) (r : BitVec 6) (v : Tag) : (c.setTag r v).pcid = c.pcid := rfl
@[simp] theorem LCore.setTag_pc (c : LCore) (r : BitVec 6) (v : Tag) : (c.setTag r v).pc = c.pc := rfl
@[simp] theorem LCore.setTag_unit (c : LCore) (r : BitVec 6) (v : Tag) : (c.setTag r v).unit = c.unit := rfl
@[simp] theorem LCore.setTag_pfx (c : LCore) (r : BitVec 6) (v : Tag) : (c.setTag r v).pfx = c.pfx := rfl
@[simp] theorem LCore.setTag_x (c : LCore) (r : BitVec 6) (v : Tag) : (c.setTag r v).x = c.x := rfl
@[simp] theorem LCore.setTag_p (c : LCore) (r : BitVec 6) (v : Tag) : (c.setTag r v).p = c.p := rfl
@[simp] theorem LCore.setTag_v (c : LCore) (r : BitVec 6) (v : Tag) : (c.setTag r v).v = c.v := rfl
@[simp] theorem LCore.setTag_m (c : LCore) (r : BitVec 6) (v : Tag) : (c.setTag r v).m = c.m := rfl
@[simp] theorem LCore.setTag_t (c : LCore) (r : BitVec 6) (v : Tag) : (c.setTag r v).t = c.t := rfl
@[simp] theorem LCore.setTag_acc (c : LCore) (r : BitVec 6) (v : Tag) : (c.setTag r v).acc = c.acc := rfl
@[simp] theorem LCore.setTag_k (c : LCore) (r : BitVec 6) (v : Tag) : (c.setTag r v).k = c.k := rfl
@[simp] theorem LCore.setTag_q (c : LCore) (r : BitVec 6) (v : Tag) : (c.setTag r v).q = c.q := rfl
@[simp] theorem LCore.setTag_st (c : LCore) (r : BitVec 6) (v : Tag) : (c.setTag r v).st = c.st := rfl
@[simp] theorem LCore.setTag_tags (c : LCore) (r : BitVec 6) (v : Tag) : (c.setTag r v).tags = c.tags.set r.toNat v r.isLt := rfl
@[simp] theorem LCore.setTag_startQ (c : LCore) (r : BitVec 6) (v : Tag) : (c.setTag r v).startQ = c.startQ := rfl
@[simp] theorem LCore.setTag_vl (c : LCore) (r : BitVec 6) (v : Tag) : (c.setTag r v).vl = c.vl := rfl
@[simp] theorem LCore.setTag_ssc (c : LCore) (r : BitVec 6) (v : Tag) : (c.setTag r v).ssc = c.ssc := rfl
@[simp] theorem LCore.setTag_status (c : LCore) (r : BitVec 6) (v : Tag) : (c.setTag r v).status = c.status := rfl
@[simp] theorem LCore.setTag_fstat (c : LCore) (r : BitVec 6) (v : Tag) : (c.setTag r v).fstat = c.fstat := rfl
@[simp] theorem LCore.setTag_fmode (c : LCore) (r : BitVec 6) (v : Tag) : (c.setTag r v).fmode = c.fmode := rfl
@[simp] theorem LCore.setTag_astat (c : LCore) (r : BitVec 6) (v : Tag) : (c.setTag r v).astat = c.astat := rfl
@[simp] theorem LCore.setTag_repc (c : LCore) (r : BitVec 6) (v : Tag) : (c.setTag r v).repc = c.repc := rfl
@[simp] theorem LCore.setTag_root (c : LCore) (r : BitVec 6) (v : Tag) : (c.setTag r v).root = c.root := rfl
@[simp] theorem LCore.setTag_sbank (c : LCore) (r : BitVec 6) (v : Tag) : (c.setTag r v).sbank = c.sbank := rfl
@[simp] theorem LCore.setTag_mbank (c : LCore) (r : BitVec 6) (v : Tag) : (c.setTag r v).mbank = c.mbank := rfl
@[simp] theorem LCore.setTag_exch (c : LCore) (r : BitVec 6) (v : Tag) : (c.setTag r v).exch = c.exch := rfl
@[simp] theorem LCore.setTag_tip (c : LCore) (r : BitVec 6) (v : Tag) : (c.setTag r v).tip = c.tip := rfl
@[simp] theorem LCore.setTag_saveX1 (c : LCore) (r : BitVec 6) (v : Tag) : (c.setTag r v).saveX1 = c.saveX1 := rfl
@[simp] theorem LCore.setTag_saveP13 (c : LCore) (r : BitVec 6) (v : Tag) : (c.setTag r v).saveP13 = c.saveP13 := rfl
@[simp] theorem LCore.setTag_saveP15 (c : LCore) (r : BitVec 6) (v : Tag) : (c.setTag r v).saveP15 = c.saveP15 := rfl
@[simp] theorem LCore.setTag_bars (c : LCore) (r : BitVec 6) (v : Tag) : (c.setTag r v).bars = c.bars := rfl
@[simp] theorem LCore.setTag_know (c : LCore) (r : BitVec 6) (v : Tag) : (c.setTag r v).know = c.know := rfl
@[simp] theorem LCore.setTag_cidx (c : LCore) (r : BitVec 6) (v : Tag) : (c.setTag r v).cidx = c.cidx := rfl
@[simp] theorem LCore.setTag_cxpins (c : LCore) (r : BitVec 6) (v : Tag) : (c.setTag r v).cxpins = c.cxpins := rfl
@[simp] theorem LCore.setTag_ring (c : LCore) (r : BitVec 6) (v : Tag) : (c.setTag r v).ring = c.ring := rfl
@[simp] theorem LCore.setTag_nextSeq (c : LCore) (r : BitVec 6) (v : Tag) : (c.setTag r v).nextSeq = c.nextSeq := rfl
@[simp] theorem LCore.setTag_late (c : LCore) (r : BitVec 6) (v : Tag) : (c.setTag r v).late = c.late := rfl
@[simp] theorem LCore.setTag_pend (c : LCore) (r : BitVec 6) (v : Tag) : (c.setTag r v).pend = c.pend := rfl
@[simp] theorem LCore.setTag_loads (c : LCore) (r : BitVec 6) (v : Tag) : (c.setTag r v).loads = c.loads := rfl
@[simp] theorem LCore.setTag_ccy (c : LCore) (r : BitVec 6) (v : Tag) : (c.setTag r v).ccy = c.ccy := rfl
@[simp] theorem LCore.setTag_xrdy (c : LCore) (r : BitVec 6) (v : Tag) : (c.setTag r v).xrdy = c.xrdy := rfl
@[simp] theorem LCore.setTag_divFree (c : LCore) (r : BitVec 6) (v : Tag) : (c.setTag r v).divFree = c.divFree := rfl
@[simp] theorem LCore.setTag_frozenAt (c : LCore) (r : BitVec 6) (v : Tag) : (c.setTag r v).frozenAt = c.frozenAt := rfl
@[simp] theorem LCore.setTag_copNext (c : LCore) (r : BitVec 6) (v : Tag) : (c.setTag r v).copNext = c.copNext := rfl
@[simp] theorem LCore.setTag_vecFree (c : LCore) (r : BitVec 6) (v : Tag) : (c.setTag r v).vecFree = c.vecFree := rfl
@[simp] theorem LCore.setTag_matFree (c : LCore) (r : BitVec 6) (v : Tag) : (c.setTag r v).matFree = c.matFree := rfl
@[simp] theorem LCore.setTag_port (c : LCore) (r : BitVec 6) (v : Tag) : (c.setTag r v).port = c.port := rfl
@[simp] theorem LCore.setTag_hint (c : LCore) (r : BitVec 6) (v : Tag) : (c.setTag r v).hint = c.hint := rfl
@[simp] theorem LCore.setTag_timer (c : LCore) (r : BitVec 6) (v : Tag) : (c.setTag r v).timer = c.timer := rfl
@[simp] theorem LCore.setTag_overrun (c : LCore) (r : BitVec 6) (v : Tag) : (c.setTag r v).overrun = c.overrun := rfl
@[simp] theorem LCore.setTag_handed (c : LCore) (r : BitVec 6) (v : Tag) : (c.setTag r v).handed = c.handed := rfl
@[simp] theorem LCore.setTag_handler (c : LCore) (r : BitVec 6) (v : Tag) : (c.setTag r v).handler = c.handler := rfl
@[simp] theorem LCore.setTag_taken (c : LCore) (r : BitVec 6) (v : Tag) : (c.setTag r v).taken = c.taken := rfl
@[simp] theorem LCore.setTag_posts (c : LCore) (r : BitVec 6) (v : Tag) : (c.setTag r v).posts = c.posts := rfl
@[simp] theorem LCore.setTag_work (c : LCore) (r : BitVec 6) (v : Tag) : (c.setTag r v).work = c.work := rfl
@[simp] theorem LCore.setTag_acks (c : LCore) (r : BitVec 6) (v : Tag) : (c.setTag r v).acks = c.acks := rfl
@[simp] theorem LCore.setTag_lost (c : LCore) (r : BitVec 6) (v : Tag) : (c.setTag r v).lost = c.lost := rfl
@[simp] theorem LCore.setTag_debug (c : LCore) (r : BitVec 6) (v : Tag) : (c.setTag r v).debug = c.debug := rfl

/-! ### `setX` -/

@[simp] theorem LCore.setX_gang (c : LCore) (r : BitVec 5) (v : W64) : (c.setX r v).gang = c.gang := rfl
@[simp] theorem LCore.setX_run (c : LCore) (r : BitVec 5) (v : W64) : (c.setX r v).run = c.run := rfl
@[simp] theorem LCore.setX_blk (c : LCore) (r : BitVec 5) (v : W64) : (c.setX r v).blk = c.blk := rfl
@[simp] theorem LCore.setX_lcid (c : LCore) (r : BitVec 5) (v : W64) : (c.setX r v).lcid = c.lcid := rfl
@[simp] theorem LCore.setX_lcn (c : LCore) (r : BitVec 5) (v : W64) : (c.setX r v).lcn = c.lcn := rfl
@[simp] theorem LCore.setX_wid (c : LCore) (r : BitVec 5) (v : W64) : (c.setX r v).wid = c.wid := rfl
@[simp] theorem LCore.setX_wfw (c : LCore) (r : BitVec 5) (v : W64) : (c.setX r v).wfw = c.wfw := rfl
@[simp] theorem LCore.setX_wfe (c : LCore) (r : BitVec 5) (v : W64) : (c.setX r v).wfe = c.wfe := rfl
@[simp] theorem LCore.setX_pcid (c : LCore) (r : BitVec 5) (v : W64) : (c.setX r v).pcid = c.pcid := rfl
@[simp] theorem LCore.setX_pc (c : LCore) (r : BitVec 5) (v : W64) : (c.setX r v).pc = c.pc := rfl
@[simp] theorem LCore.setX_unit (c : LCore) (r : BitVec 5) (v : W64) : (c.setX r v).unit = c.unit := rfl
@[simp] theorem LCore.setX_pfx (c : LCore) (r : BitVec 5) (v : W64) : (c.setX r v).pfx = c.pfx := rfl
@[simp] theorem LCore.setX_x (c : LCore) (r : BitVec 5) (v : W64) : (c.setX r v).x = if r = 0 then c.x else c.x.set r.toNat v r.isLt := rfl
@[simp] theorem LCore.setX_p (c : LCore) (r : BitVec 5) (v : W64) : (c.setX r v).p = c.p := rfl
@[simp] theorem LCore.setX_v (c : LCore) (r : BitVec 5) (v : W64) : (c.setX r v).v = c.v := rfl
@[simp] theorem LCore.setX_m (c : LCore) (r : BitVec 5) (v : W64) : (c.setX r v).m = c.m := rfl
@[simp] theorem LCore.setX_t (c : LCore) (r : BitVec 5) (v : W64) : (c.setX r v).t = c.t := rfl
@[simp] theorem LCore.setX_acc (c : LCore) (r : BitVec 5) (v : W64) : (c.setX r v).acc = c.acc := rfl
@[simp] theorem LCore.setX_k (c : LCore) (r : BitVec 5) (v : W64) : (c.setX r v).k = c.k := rfl
@[simp] theorem LCore.setX_q (c : LCore) (r : BitVec 5) (v : W64) : (c.setX r v).q = c.q := rfl
@[simp] theorem LCore.setX_st (c : LCore) (r : BitVec 5) (v : W64) : (c.setX r v).st = c.st := rfl
@[simp] theorem LCore.setX_tags (c : LCore) (r : BitVec 5) (v : W64) : (c.setX r v).tags = c.tags := rfl
@[simp] theorem LCore.setX_startQ (c : LCore) (r : BitVec 5) (v : W64) : (c.setX r v).startQ = c.startQ := rfl
@[simp] theorem LCore.setX_vl (c : LCore) (r : BitVec 5) (v : W64) : (c.setX r v).vl = c.vl := rfl
@[simp] theorem LCore.setX_ssc (c : LCore) (r : BitVec 5) (v : W64) : (c.setX r v).ssc = c.ssc := rfl
@[simp] theorem LCore.setX_status (c : LCore) (r : BitVec 5) (v : W64) : (c.setX r v).status = c.status := rfl
@[simp] theorem LCore.setX_fstat (c : LCore) (r : BitVec 5) (v : W64) : (c.setX r v).fstat = c.fstat := rfl
@[simp] theorem LCore.setX_fmode (c : LCore) (r : BitVec 5) (v : W64) : (c.setX r v).fmode = c.fmode := rfl
@[simp] theorem LCore.setX_astat (c : LCore) (r : BitVec 5) (v : W64) : (c.setX r v).astat = c.astat := rfl
@[simp] theorem LCore.setX_repc (c : LCore) (r : BitVec 5) (v : W64) : (c.setX r v).repc = c.repc := rfl
@[simp] theorem LCore.setX_root (c : LCore) (r : BitVec 5) (v : W64) : (c.setX r v).root = c.root := rfl
@[simp] theorem LCore.setX_sbank (c : LCore) (r : BitVec 5) (v : W64) : (c.setX r v).sbank = c.sbank := rfl
@[simp] theorem LCore.setX_mbank (c : LCore) (r : BitVec 5) (v : W64) : (c.setX r v).mbank = c.mbank := rfl
@[simp] theorem LCore.setX_exch (c : LCore) (r : BitVec 5) (v : W64) : (c.setX r v).exch = c.exch := rfl
@[simp] theorem LCore.setX_tip (c : LCore) (r : BitVec 5) (v : W64) : (c.setX r v).tip = c.tip := rfl
@[simp] theorem LCore.setX_saveX1 (c : LCore) (r : BitVec 5) (v : W64) : (c.setX r v).saveX1 = c.saveX1 := rfl
@[simp] theorem LCore.setX_saveP13 (c : LCore) (r : BitVec 5) (v : W64) : (c.setX r v).saveP13 = c.saveP13 := rfl
@[simp] theorem LCore.setX_saveP15 (c : LCore) (r : BitVec 5) (v : W64) : (c.setX r v).saveP15 = c.saveP15 := rfl
@[simp] theorem LCore.setX_bars (c : LCore) (r : BitVec 5) (v : W64) : (c.setX r v).bars = c.bars := rfl
@[simp] theorem LCore.setX_know (c : LCore) (r : BitVec 5) (v : W64) : (c.setX r v).know = c.know := rfl
@[simp] theorem LCore.setX_cidx (c : LCore) (r : BitVec 5) (v : W64) : (c.setX r v).cidx = c.cidx := rfl
@[simp] theorem LCore.setX_cxpins (c : LCore) (r : BitVec 5) (v : W64) : (c.setX r v).cxpins = c.cxpins := rfl
@[simp] theorem LCore.setX_ring (c : LCore) (r : BitVec 5) (v : W64) : (c.setX r v).ring = c.ring := rfl
@[simp] theorem LCore.setX_nextSeq (c : LCore) (r : BitVec 5) (v : W64) : (c.setX r v).nextSeq = c.nextSeq := rfl
@[simp] theorem LCore.setX_late (c : LCore) (r : BitVec 5) (v : W64) : (c.setX r v).late = c.late := rfl
@[simp] theorem LCore.setX_pend (c : LCore) (r : BitVec 5) (v : W64) : (c.setX r v).pend = c.pend := rfl
@[simp] theorem LCore.setX_loads (c : LCore) (r : BitVec 5) (v : W64) : (c.setX r v).loads = c.loads := rfl
@[simp] theorem LCore.setX_ccy (c : LCore) (r : BitVec 5) (v : W64) : (c.setX r v).ccy = c.ccy := rfl
@[simp] theorem LCore.setX_xrdy (c : LCore) (r : BitVec 5) (v : W64) : (c.setX r v).xrdy = c.xrdy := rfl
@[simp] theorem LCore.setX_divFree (c : LCore) (r : BitVec 5) (v : W64) : (c.setX r v).divFree = c.divFree := rfl
@[simp] theorem LCore.setX_frozenAt (c : LCore) (r : BitVec 5) (v : W64) : (c.setX r v).frozenAt = c.frozenAt := rfl
@[simp] theorem LCore.setX_copNext (c : LCore) (r : BitVec 5) (v : W64) : (c.setX r v).copNext = c.copNext := rfl
@[simp] theorem LCore.setX_vecFree (c : LCore) (r : BitVec 5) (v : W64) : (c.setX r v).vecFree = c.vecFree := rfl
@[simp] theorem LCore.setX_matFree (c : LCore) (r : BitVec 5) (v : W64) : (c.setX r v).matFree = c.matFree := rfl
@[simp] theorem LCore.setX_port (c : LCore) (r : BitVec 5) (v : W64) : (c.setX r v).port = c.port := rfl
@[simp] theorem LCore.setX_hint (c : LCore) (r : BitVec 5) (v : W64) : (c.setX r v).hint = c.hint := rfl
@[simp] theorem LCore.setX_timer (c : LCore) (r : BitVec 5) (v : W64) : (c.setX r v).timer = c.timer := rfl
@[simp] theorem LCore.setX_overrun (c : LCore) (r : BitVec 5) (v : W64) : (c.setX r v).overrun = c.overrun := rfl
@[simp] theorem LCore.setX_handed (c : LCore) (r : BitVec 5) (v : W64) : (c.setX r v).handed = c.handed := rfl
@[simp] theorem LCore.setX_handler (c : LCore) (r : BitVec 5) (v : W64) : (c.setX r v).handler = c.handler := rfl
@[simp] theorem LCore.setX_taken (c : LCore) (r : BitVec 5) (v : W64) : (c.setX r v).taken = c.taken := rfl
@[simp] theorem LCore.setX_posts (c : LCore) (r : BitVec 5) (v : W64) : (c.setX r v).posts = c.posts := rfl
@[simp] theorem LCore.setX_work (c : LCore) (r : BitVec 5) (v : W64) : (c.setX r v).work = c.work := rfl
@[simp] theorem LCore.setX_acks (c : LCore) (r : BitVec 5) (v : W64) : (c.setX r v).acks = c.acks := rfl
@[simp] theorem LCore.setX_lost (c : LCore) (r : BitVec 5) (v : W64) : (c.setX r v).lost = c.lost := rfl
@[simp] theorem LCore.setX_debug (c : LCore) (r : BitVec 5) (v : W64) : (c.setX r v).debug = c.debug := rfl

/-! ### `setM` -/

@[simp] theorem LCore.setM_gang (c : LCore) (r : BitVec 3) (v : W64) : (c.setM r v).gang = c.gang := rfl
@[simp] theorem LCore.setM_run (c : LCore) (r : BitVec 3) (v : W64) : (c.setM r v).run = c.run := rfl
@[simp] theorem LCore.setM_blk (c : LCore) (r : BitVec 3) (v : W64) : (c.setM r v).blk = c.blk := rfl
@[simp] theorem LCore.setM_lcid (c : LCore) (r : BitVec 3) (v : W64) : (c.setM r v).lcid = c.lcid := rfl
@[simp] theorem LCore.setM_lcn (c : LCore) (r : BitVec 3) (v : W64) : (c.setM r v).lcn = c.lcn := rfl
@[simp] theorem LCore.setM_wid (c : LCore) (r : BitVec 3) (v : W64) : (c.setM r v).wid = c.wid := rfl
@[simp] theorem LCore.setM_wfw (c : LCore) (r : BitVec 3) (v : W64) : (c.setM r v).wfw = c.wfw := rfl
@[simp] theorem LCore.setM_wfe (c : LCore) (r : BitVec 3) (v : W64) : (c.setM r v).wfe = c.wfe := rfl
@[simp] theorem LCore.setM_pcid (c : LCore) (r : BitVec 3) (v : W64) : (c.setM r v).pcid = c.pcid := rfl
@[simp] theorem LCore.setM_pc (c : LCore) (r : BitVec 3) (v : W64) : (c.setM r v).pc = c.pc := rfl
@[simp] theorem LCore.setM_unit (c : LCore) (r : BitVec 3) (v : W64) : (c.setM r v).unit = c.unit := rfl
@[simp] theorem LCore.setM_pfx (c : LCore) (r : BitVec 3) (v : W64) : (c.setM r v).pfx = c.pfx := rfl
@[simp] theorem LCore.setM_x (c : LCore) (r : BitVec 3) (v : W64) : (c.setM r v).x = c.x := rfl
@[simp] theorem LCore.setM_p (c : LCore) (r : BitVec 3) (v : W64) : (c.setM r v).p = c.p := rfl
@[simp] theorem LCore.setM_v (c : LCore) (r : BitVec 3) (v : W64) : (c.setM r v).v = c.v := rfl
@[simp] theorem LCore.setM_m (c : LCore) (r : BitVec 3) (v : W64) : (c.setM r v).m = if r = 0 then c.m else c.m.set r.toNat v r.isLt := rfl
@[simp] theorem LCore.setM_t (c : LCore) (r : BitVec 3) (v : W64) : (c.setM r v).t = c.t := rfl
@[simp] theorem LCore.setM_acc (c : LCore) (r : BitVec 3) (v : W64) : (c.setM r v).acc = c.acc := rfl
@[simp] theorem LCore.setM_k (c : LCore) (r : BitVec 3) (v : W64) : (c.setM r v).k = c.k := rfl
@[simp] theorem LCore.setM_q (c : LCore) (r : BitVec 3) (v : W64) : (c.setM r v).q = c.q := rfl
@[simp] theorem LCore.setM_st (c : LCore) (r : BitVec 3) (v : W64) : (c.setM r v).st = c.st := rfl
@[simp] theorem LCore.setM_tags (c : LCore) (r : BitVec 3) (v : W64) : (c.setM r v).tags = c.tags := rfl
@[simp] theorem LCore.setM_startQ (c : LCore) (r : BitVec 3) (v : W64) : (c.setM r v).startQ = c.startQ := rfl
@[simp] theorem LCore.setM_vl (c : LCore) (r : BitVec 3) (v : W64) : (c.setM r v).vl = c.vl := rfl
@[simp] theorem LCore.setM_ssc (c : LCore) (r : BitVec 3) (v : W64) : (c.setM r v).ssc = c.ssc := rfl
@[simp] theorem LCore.setM_status (c : LCore) (r : BitVec 3) (v : W64) : (c.setM r v).status = c.status := rfl
@[simp] theorem LCore.setM_fstat (c : LCore) (r : BitVec 3) (v : W64) : (c.setM r v).fstat = c.fstat := rfl
@[simp] theorem LCore.setM_fmode (c : LCore) (r : BitVec 3) (v : W64) : (c.setM r v).fmode = c.fmode := rfl
@[simp] theorem LCore.setM_astat (c : LCore) (r : BitVec 3) (v : W64) : (c.setM r v).astat = c.astat := rfl
@[simp] theorem LCore.setM_repc (c : LCore) (r : BitVec 3) (v : W64) : (c.setM r v).repc = c.repc := rfl
@[simp] theorem LCore.setM_root (c : LCore) (r : BitVec 3) (v : W64) : (c.setM r v).root = c.root := rfl
@[simp] theorem LCore.setM_sbank (c : LCore) (r : BitVec 3) (v : W64) : (c.setM r v).sbank = c.sbank := rfl
@[simp] theorem LCore.setM_mbank (c : LCore) (r : BitVec 3) (v : W64) : (c.setM r v).mbank = c.mbank := rfl
@[simp] theorem LCore.setM_exch (c : LCore) (r : BitVec 3) (v : W64) : (c.setM r v).exch = c.exch := rfl
@[simp] theorem LCore.setM_tip (c : LCore) (r : BitVec 3) (v : W64) : (c.setM r v).tip = c.tip := rfl
@[simp] theorem LCore.setM_saveX1 (c : LCore) (r : BitVec 3) (v : W64) : (c.setM r v).saveX1 = c.saveX1 := rfl
@[simp] theorem LCore.setM_saveP13 (c : LCore) (r : BitVec 3) (v : W64) : (c.setM r v).saveP13 = c.saveP13 := rfl
@[simp] theorem LCore.setM_saveP15 (c : LCore) (r : BitVec 3) (v : W64) : (c.setM r v).saveP15 = c.saveP15 := rfl
@[simp] theorem LCore.setM_bars (c : LCore) (r : BitVec 3) (v : W64) : (c.setM r v).bars = c.bars := rfl
@[simp] theorem LCore.setM_know (c : LCore) (r : BitVec 3) (v : W64) : (c.setM r v).know = c.know := rfl
@[simp] theorem LCore.setM_cidx (c : LCore) (r : BitVec 3) (v : W64) : (c.setM r v).cidx = c.cidx := rfl
@[simp] theorem LCore.setM_cxpins (c : LCore) (r : BitVec 3) (v : W64) : (c.setM r v).cxpins = c.cxpins := rfl
@[simp] theorem LCore.setM_ring (c : LCore) (r : BitVec 3) (v : W64) : (c.setM r v).ring = c.ring := rfl
@[simp] theorem LCore.setM_nextSeq (c : LCore) (r : BitVec 3) (v : W64) : (c.setM r v).nextSeq = c.nextSeq := rfl
@[simp] theorem LCore.setM_late (c : LCore) (r : BitVec 3) (v : W64) : (c.setM r v).late = c.late := rfl
@[simp] theorem LCore.setM_pend (c : LCore) (r : BitVec 3) (v : W64) : (c.setM r v).pend = c.pend := rfl
@[simp] theorem LCore.setM_loads (c : LCore) (r : BitVec 3) (v : W64) : (c.setM r v).loads = c.loads := rfl
@[simp] theorem LCore.setM_ccy (c : LCore) (r : BitVec 3) (v : W64) : (c.setM r v).ccy = c.ccy := rfl
@[simp] theorem LCore.setM_xrdy (c : LCore) (r : BitVec 3) (v : W64) : (c.setM r v).xrdy = c.xrdy := rfl
@[simp] theorem LCore.setM_divFree (c : LCore) (r : BitVec 3) (v : W64) : (c.setM r v).divFree = c.divFree := rfl
@[simp] theorem LCore.setM_frozenAt (c : LCore) (r : BitVec 3) (v : W64) : (c.setM r v).frozenAt = c.frozenAt := rfl
@[simp] theorem LCore.setM_copNext (c : LCore) (r : BitVec 3) (v : W64) : (c.setM r v).copNext = c.copNext := rfl
@[simp] theorem LCore.setM_vecFree (c : LCore) (r : BitVec 3) (v : W64) : (c.setM r v).vecFree = c.vecFree := rfl
@[simp] theorem LCore.setM_matFree (c : LCore) (r : BitVec 3) (v : W64) : (c.setM r v).matFree = c.matFree := rfl
@[simp] theorem LCore.setM_port (c : LCore) (r : BitVec 3) (v : W64) : (c.setM r v).port = c.port := rfl
@[simp] theorem LCore.setM_hint (c : LCore) (r : BitVec 3) (v : W64) : (c.setM r v).hint = c.hint := rfl
@[simp] theorem LCore.setM_timer (c : LCore) (r : BitVec 3) (v : W64) : (c.setM r v).timer = c.timer := rfl
@[simp] theorem LCore.setM_overrun (c : LCore) (r : BitVec 3) (v : W64) : (c.setM r v).overrun = c.overrun := rfl
@[simp] theorem LCore.setM_handed (c : LCore) (r : BitVec 3) (v : W64) : (c.setM r v).handed = c.handed := rfl
@[simp] theorem LCore.setM_handler (c : LCore) (r : BitVec 3) (v : W64) : (c.setM r v).handler = c.handler := rfl
@[simp] theorem LCore.setM_taken (c : LCore) (r : BitVec 3) (v : W64) : (c.setM r v).taken = c.taken := rfl
@[simp] theorem LCore.setM_posts (c : LCore) (r : BitVec 3) (v : W64) : (c.setM r v).posts = c.posts := rfl
@[simp] theorem LCore.setM_work (c : LCore) (r : BitVec 3) (v : W64) : (c.setM r v).work = c.work := rfl
@[simp] theorem LCore.setM_acks (c : LCore) (r : BitVec 3) (v : W64) : (c.setM r v).acks = c.acks := rfl
@[simp] theorem LCore.setM_lost (c : LCore) (r : BitVec 3) (v : W64) : (c.setM r v).lost = c.lost := rfl
@[simp] theorem LCore.setM_debug (c : LCore) (r : BitVec 3) (v : W64) : (c.setM r v).debug = c.debug := rfl

/-! ### `await` -/

@[simp] theorem LCore.await_gang (c : LCore) (l : List (BitVec 5)) : (c.await l).gang = c.gang := rfl
@[simp] theorem LCore.await_run (c : LCore) (l : List (BitVec 5)) : (c.await l).run = c.run := rfl
@[simp] theorem LCore.await_blk (c : LCore) (l : List (BitVec 5)) : (c.await l).blk = c.blk := rfl
@[simp] theorem LCore.await_lcid (c : LCore) (l : List (BitVec 5)) : (c.await l).lcid = c.lcid := rfl
@[simp] theorem LCore.await_lcn (c : LCore) (l : List (BitVec 5)) : (c.await l).lcn = c.lcn := rfl
@[simp] theorem LCore.await_wid (c : LCore) (l : List (BitVec 5)) : (c.await l).wid = c.wid := rfl
@[simp] theorem LCore.await_wfw (c : LCore) (l : List (BitVec 5)) : (c.await l).wfw = c.wfw := rfl
@[simp] theorem LCore.await_wfe (c : LCore) (l : List (BitVec 5)) : (c.await l).wfe = c.wfe := rfl
@[simp] theorem LCore.await_pcid (c : LCore) (l : List (BitVec 5)) : (c.await l).pcid = c.pcid := rfl
@[simp] theorem LCore.await_pc (c : LCore) (l : List (BitVec 5)) : (c.await l).pc = c.pc := rfl
@[simp] theorem LCore.await_unit (c : LCore) (l : List (BitVec 5)) : (c.await l).unit = c.unit := rfl
@[simp] theorem LCore.await_pfx (c : LCore) (l : List (BitVec 5)) : (c.await l).pfx = c.pfx := rfl
@[simp] theorem LCore.await_x (c : LCore) (l : List (BitVec 5)) : (c.await l).x = c.x := rfl
@[simp] theorem LCore.await_p (c : LCore) (l : List (BitVec 5)) : (c.await l).p = c.p := rfl
@[simp] theorem LCore.await_v (c : LCore) (l : List (BitVec 5)) : (c.await l).v = c.v := rfl
@[simp] theorem LCore.await_m (c : LCore) (l : List (BitVec 5)) : (c.await l).m = c.m := rfl
@[simp] theorem LCore.await_t (c : LCore) (l : List (BitVec 5)) : (c.await l).t = c.t := rfl
@[simp] theorem LCore.await_acc (c : LCore) (l : List (BitVec 5)) : (c.await l).acc = c.acc := rfl
@[simp] theorem LCore.await_k (c : LCore) (l : List (BitVec 5)) : (c.await l).k = c.k := rfl
@[simp] theorem LCore.await_q (c : LCore) (l : List (BitVec 5)) : (c.await l).q = c.q := rfl
@[simp] theorem LCore.await_st (c : LCore) (l : List (BitVec 5)) : (c.await l).st = c.st := rfl
@[simp] theorem LCore.await_tags (c : LCore) (l : List (BitVec 5)) : (c.await l).tags = c.tags := rfl
@[simp] theorem LCore.await_startQ (c : LCore) (l : List (BitVec 5)) : (c.await l).startQ = c.startQ := rfl
@[simp] theorem LCore.await_vl (c : LCore) (l : List (BitVec 5)) : (c.await l).vl = c.vl := rfl
@[simp] theorem LCore.await_ssc (c : LCore) (l : List (BitVec 5)) : (c.await l).ssc = c.ssc := rfl
@[simp] theorem LCore.await_status (c : LCore) (l : List (BitVec 5)) : (c.await l).status = c.status := rfl
@[simp] theorem LCore.await_fstat (c : LCore) (l : List (BitVec 5)) : (c.await l).fstat = c.fstat := rfl
@[simp] theorem LCore.await_fmode (c : LCore) (l : List (BitVec 5)) : (c.await l).fmode = c.fmode := rfl
@[simp] theorem LCore.await_astat (c : LCore) (l : List (BitVec 5)) : (c.await l).astat = c.astat := rfl
@[simp] theorem LCore.await_repc (c : LCore) (l : List (BitVec 5)) : (c.await l).repc = c.repc := rfl
@[simp] theorem LCore.await_root (c : LCore) (l : List (BitVec 5)) : (c.await l).root = c.root := rfl
@[simp] theorem LCore.await_sbank (c : LCore) (l : List (BitVec 5)) : (c.await l).sbank = c.sbank := rfl
@[simp] theorem LCore.await_mbank (c : LCore) (l : List (BitVec 5)) : (c.await l).mbank = c.mbank := rfl
@[simp] theorem LCore.await_exch (c : LCore) (l : List (BitVec 5)) : (c.await l).exch = c.exch := rfl
@[simp] theorem LCore.await_tip (c : LCore) (l : List (BitVec 5)) : (c.await l).tip = c.tip := rfl
@[simp] theorem LCore.await_saveX1 (c : LCore) (l : List (BitVec 5)) : (c.await l).saveX1 = c.saveX1 := rfl
@[simp] theorem LCore.await_saveP13 (c : LCore) (l : List (BitVec 5)) : (c.await l).saveP13 = c.saveP13 := rfl
@[simp] theorem LCore.await_saveP15 (c : LCore) (l : List (BitVec 5)) : (c.await l).saveP15 = c.saveP15 := rfl
@[simp] theorem LCore.await_bars (c : LCore) (l : List (BitVec 5)) : (c.await l).bars = c.bars := rfl
@[simp] theorem LCore.await_know (c : LCore) (l : List (BitVec 5)) : (c.await l).know = c.know := rfl
@[simp] theorem LCore.await_cidx (c : LCore) (l : List (BitVec 5)) : (c.await l).cidx = c.cidx := rfl
@[simp] theorem LCore.await_cxpins (c : LCore) (l : List (BitVec 5)) : (c.await l).cxpins = c.cxpins := rfl
@[simp] theorem LCore.await_ring (c : LCore) (l : List (BitVec 5)) : (c.await l).ring = c.ring := rfl
@[simp] theorem LCore.await_nextSeq (c : LCore) (l : List (BitVec 5)) : (c.await l).nextSeq = c.nextSeq := rfl
@[simp] theorem LCore.await_late (c : LCore) (l : List (BitVec 5)) : (c.await l).late = c.late := rfl
@[simp] theorem LCore.await_pend (c : LCore) (l : List (BitVec 5)) : (c.await l).pend = c.pend := rfl
@[simp] theorem LCore.await_loads (c : LCore) (l : List (BitVec 5)) : (c.await l).loads = c.loads := rfl
@[simp] theorem LCore.await_ccy (c : LCore) (l : List (BitVec 5)) : (c.await l).ccy = c.issueAt l := rfl
@[simp] theorem LCore.await_xrdy (c : LCore) (l : List (BitVec 5)) : (c.await l).xrdy = c.xrdy := rfl
@[simp] theorem LCore.await_divFree (c : LCore) (l : List (BitVec 5)) : (c.await l).divFree = c.divFree := rfl
@[simp] theorem LCore.await_frozenAt (c : LCore) (l : List (BitVec 5)) : (c.await l).frozenAt = c.frozenAt := rfl
@[simp] theorem LCore.await_copNext (c : LCore) (l : List (BitVec 5)) : (c.await l).copNext = c.copNext := rfl
@[simp] theorem LCore.await_vecFree (c : LCore) (l : List (BitVec 5)) : (c.await l).vecFree = c.vecFree := rfl
@[simp] theorem LCore.await_matFree (c : LCore) (l : List (BitVec 5)) : (c.await l).matFree = c.matFree := rfl
@[simp] theorem LCore.await_port (c : LCore) (l : List (BitVec 5)) : (c.await l).port = c.port := rfl
@[simp] theorem LCore.await_hint (c : LCore) (l : List (BitVec 5)) : (c.await l).hint = c.hint := rfl
@[simp] theorem LCore.await_timer (c : LCore) (l : List (BitVec 5)) : (c.await l).timer = c.timer := rfl
@[simp] theorem LCore.await_overrun (c : LCore) (l : List (BitVec 5)) : (c.await l).overrun = c.overrun := rfl
@[simp] theorem LCore.await_handed (c : LCore) (l : List (BitVec 5)) : (c.await l).handed = c.handed := rfl
@[simp] theorem LCore.await_handler (c : LCore) (l : List (BitVec 5)) : (c.await l).handler = c.handler := rfl
@[simp] theorem LCore.await_taken (c : LCore) (l : List (BitVec 5)) : (c.await l).taken = c.taken := rfl
@[simp] theorem LCore.await_posts (c : LCore) (l : List (BitVec 5)) : (c.await l).posts = c.posts := rfl
@[simp] theorem LCore.await_work (c : LCore) (l : List (BitVec 5)) : (c.await l).work = c.work := rfl
@[simp] theorem LCore.await_acks (c : LCore) (l : List (BitVec 5)) : (c.await l).acks = c.acks := rfl
@[simp] theorem LCore.await_lost (c : LCore) (l : List (BitVec 5)) : (c.await l).lost = c.lost := rfl
@[simp] theorem LCore.await_debug (c : LCore) (l : List (BitVec 5)) : (c.await l).debug = c.debug := rfl

/-! ### `spend` -/

@[simp] theorem LCore.spend_gang (c : LCore) (t : Timing) : (c.spend t).gang = c.gang := rfl
@[simp] theorem LCore.spend_run (c : LCore) (t : Timing) : (c.spend t).run = c.run := rfl
@[simp] theorem LCore.spend_blk (c : LCore) (t : Timing) : (c.spend t).blk = c.blk := rfl
@[simp] theorem LCore.spend_lcid (c : LCore) (t : Timing) : (c.spend t).lcid = c.lcid := rfl
@[simp] theorem LCore.spend_lcn (c : LCore) (t : Timing) : (c.spend t).lcn = c.lcn := rfl
@[simp] theorem LCore.spend_wid (c : LCore) (t : Timing) : (c.spend t).wid = c.wid := rfl
@[simp] theorem LCore.spend_wfw (c : LCore) (t : Timing) : (c.spend t).wfw = c.wfw := rfl
@[simp] theorem LCore.spend_wfe (c : LCore) (t : Timing) : (c.spend t).wfe = c.wfe := rfl
@[simp] theorem LCore.spend_pcid (c : LCore) (t : Timing) : (c.spend t).pcid = c.pcid := rfl
@[simp] theorem LCore.spend_pc (c : LCore) (t : Timing) : (c.spend t).pc = c.pc := rfl
@[simp] theorem LCore.spend_unit (c : LCore) (t : Timing) : (c.spend t).unit = c.unit := rfl
@[simp] theorem LCore.spend_pfx (c : LCore) (t : Timing) : (c.spend t).pfx = c.pfx := rfl
@[simp] theorem LCore.spend_x (c : LCore) (t : Timing) : (c.spend t).x = c.x := rfl
@[simp] theorem LCore.spend_p (c : LCore) (t : Timing) : (c.spend t).p = c.p := rfl
@[simp] theorem LCore.spend_v (c : LCore) (t : Timing) : (c.spend t).v = c.v := rfl
@[simp] theorem LCore.spend_m (c : LCore) (t : Timing) : (c.spend t).m = c.m := rfl
@[simp] theorem LCore.spend_t (c : LCore) (t : Timing) : (c.spend t).t = c.t := rfl
@[simp] theorem LCore.spend_acc (c : LCore) (t : Timing) : (c.spend t).acc = c.acc := rfl
@[simp] theorem LCore.spend_k (c : LCore) (t : Timing) : (c.spend t).k = c.k := rfl
@[simp] theorem LCore.spend_q (c : LCore) (t : Timing) : (c.spend t).q = c.q := rfl
@[simp] theorem LCore.spend_st (c : LCore) (t : Timing) : (c.spend t).st = c.st := rfl
@[simp] theorem LCore.spend_tags (c : LCore) (t : Timing) : (c.spend t).tags = c.tags := rfl
@[simp] theorem LCore.spend_startQ (c : LCore) (t : Timing) : (c.spend t).startQ = c.startQ := rfl
@[simp] theorem LCore.spend_vl (c : LCore) (t : Timing) : (c.spend t).vl = c.vl := rfl
@[simp] theorem LCore.spend_ssc (c : LCore) (t : Timing) : (c.spend t).ssc = c.ssc := rfl
@[simp] theorem LCore.spend_status (c : LCore) (t : Timing) : (c.spend t).status = c.status := rfl
@[simp] theorem LCore.spend_fstat (c : LCore) (t : Timing) : (c.spend t).fstat = c.fstat := rfl
@[simp] theorem LCore.spend_fmode (c : LCore) (t : Timing) : (c.spend t).fmode = c.fmode := rfl
@[simp] theorem LCore.spend_astat (c : LCore) (t : Timing) : (c.spend t).astat = c.astat := rfl
@[simp] theorem LCore.spend_repc (c : LCore) (t : Timing) : (c.spend t).repc = c.repc := rfl
@[simp] theorem LCore.spend_root (c : LCore) (t : Timing) : (c.spend t).root = c.root := rfl
@[simp] theorem LCore.spend_sbank (c : LCore) (t : Timing) : (c.spend t).sbank = c.sbank := rfl
@[simp] theorem LCore.spend_mbank (c : LCore) (t : Timing) : (c.spend t).mbank = c.mbank := rfl
@[simp] theorem LCore.spend_exch (c : LCore) (t : Timing) : (c.spend t).exch = c.exch := rfl
@[simp] theorem LCore.spend_tip (c : LCore) (t : Timing) : (c.spend t).tip = c.tip := rfl
@[simp] theorem LCore.spend_saveX1 (c : LCore) (t : Timing) : (c.spend t).saveX1 = c.saveX1 := rfl
@[simp] theorem LCore.spend_saveP13 (c : LCore) (t : Timing) : (c.spend t).saveP13 = c.saveP13 := rfl
@[simp] theorem LCore.spend_saveP15 (c : LCore) (t : Timing) : (c.spend t).saveP15 = c.saveP15 := rfl
@[simp] theorem LCore.spend_bars (c : LCore) (t : Timing) : (c.spend t).bars = c.bars := rfl
@[simp] theorem LCore.spend_know (c : LCore) (t : Timing) : (c.spend t).know = c.know := rfl
@[simp] theorem LCore.spend_cidx (c : LCore) (t : Timing) : (c.spend t).cidx = c.cidx := rfl
@[simp] theorem LCore.spend_cxpins (c : LCore) (t : Timing) : (c.spend t).cxpins = c.cxpins := rfl
@[simp] theorem LCore.spend_ring (c : LCore) (t : Timing) : (c.spend t).ring = c.ring := rfl
@[simp] theorem LCore.spend_nextSeq (c : LCore) (t : Timing) : (c.spend t).nextSeq = c.nextSeq := rfl
@[simp] theorem LCore.spend_late (c : LCore) (t : Timing) : (c.spend t).late = c.late := rfl
@[simp] theorem LCore.spend_pend (c : LCore) (t : Timing) : (c.spend t).pend = c.pend := rfl
@[simp] theorem LCore.spend_loads (c : LCore) (t : Timing) : (c.spend t).loads = c.loads := rfl
@[simp] theorem LCore.spend_ccy (c : LCore) (t : Timing) : (c.spend t).ccy = c.ccy + t.issue := rfl
@[simp] theorem LCore.spend_xrdy (c : LCore) (t : Timing) : (c.spend t).xrdy = if t.dest = 0 ∨ t.lat ≤ t.issue then c.xrdy else c.xrdy.set t.dest.toNat (c.ccy + t.lat) t.dest.isLt := rfl
@[simp] theorem LCore.spend_divFree (c : LCore) (t : Timing) : (c.spend t).divFree = c.divFree := rfl
@[simp] theorem LCore.spend_frozenAt (c : LCore) (t : Timing) : (c.spend t).frozenAt = c.frozenAt := rfl
@[simp] theorem LCore.spend_copNext (c : LCore) (t : Timing) : (c.spend t).copNext = c.copNext := rfl
@[simp] theorem LCore.spend_vecFree (c : LCore) (t : Timing) : (c.spend t).vecFree = c.vecFree := rfl
@[simp] theorem LCore.spend_matFree (c : LCore) (t : Timing) : (c.spend t).matFree = c.matFree := rfl
@[simp] theorem LCore.spend_port (c : LCore) (t : Timing) : (c.spend t).port = c.port := rfl
@[simp] theorem LCore.spend_hint (c : LCore) (t : Timing) : (c.spend t).hint = c.hint := rfl
@[simp] theorem LCore.spend_timer (c : LCore) (t : Timing) : (c.spend t).timer = c.timer := rfl
@[simp] theorem LCore.spend_overrun (c : LCore) (t : Timing) : (c.spend t).overrun = c.overrun := rfl
@[simp] theorem LCore.spend_handed (c : LCore) (t : Timing) : (c.spend t).handed = c.handed := rfl
@[simp] theorem LCore.spend_handler (c : LCore) (t : Timing) : (c.spend t).handler = c.handler := rfl
@[simp] theorem LCore.spend_taken (c : LCore) (t : Timing) : (c.spend t).taken = c.taken := rfl
@[simp] theorem LCore.spend_posts (c : LCore) (t : Timing) : (c.spend t).posts = c.posts := rfl
@[simp] theorem LCore.spend_work (c : LCore) (t : Timing) : (c.spend t).work = c.work := rfl
@[simp] theorem LCore.spend_acks (c : LCore) (t : Timing) : (c.spend t).acks = c.acks := rfl
@[simp] theorem LCore.spend_lost (c : LCore) (t : Timing) : (c.spend t).lost = c.lost := rfl
@[simp] theorem LCore.spend_debug (c : LCore) (t : Timing) : (c.spend t).debug = c.debug := rfl

/-! ### `advance` -/

@[simp] theorem LCore.advance_gang (c : LCore) : (c.advance).gang = c.gang := rfl
@[simp] theorem LCore.advance_run (c : LCore) : (c.advance).run = c.run := rfl
@[simp] theorem LCore.advance_blk (c : LCore) : (c.advance).blk = c.blk := rfl
@[simp] theorem LCore.advance_lcid (c : LCore) : (c.advance).lcid = c.lcid := rfl
@[simp] theorem LCore.advance_lcn (c : LCore) : (c.advance).lcn = c.lcn := rfl
@[simp] theorem LCore.advance_wid (c : LCore) : (c.advance).wid = c.wid := rfl
@[simp] theorem LCore.advance_wfw (c : LCore) : (c.advance).wfw = c.wfw := rfl
@[simp] theorem LCore.advance_wfe (c : LCore) : (c.advance).wfe = c.wfe := rfl
@[simp] theorem LCore.advance_pcid (c : LCore) : (c.advance).pcid = c.pcid := rfl
@[simp] theorem LCore.advance_pc (c : LCore) : (c.advance).pc = nextPc c.repc c.pc := rfl
@[simp] theorem LCore.advance_unit (c : LCore) : (c.advance).unit = c.unit := rfl
@[simp] theorem LCore.advance_pfx (c : LCore) : (c.advance).pfx = c.pfx := rfl
@[simp] theorem LCore.advance_x (c : LCore) : (c.advance).x = c.x := rfl
@[simp] theorem LCore.advance_p (c : LCore) : (c.advance).p = c.p := rfl
@[simp] theorem LCore.advance_v (c : LCore) : (c.advance).v = c.v := rfl
@[simp] theorem LCore.advance_m (c : LCore) : (c.advance).m = c.m := rfl
@[simp] theorem LCore.advance_t (c : LCore) : (c.advance).t = c.t := rfl
@[simp] theorem LCore.advance_acc (c : LCore) : (c.advance).acc = c.acc := rfl
@[simp] theorem LCore.advance_k (c : LCore) : (c.advance).k = c.k := rfl
@[simp] theorem LCore.advance_q (c : LCore) : (c.advance).q = c.q := rfl
@[simp] theorem LCore.advance_st (c : LCore) : (c.advance).st = c.st := rfl
@[simp] theorem LCore.advance_tags (c : LCore) : (c.advance).tags = c.tags := rfl
@[simp] theorem LCore.advance_startQ (c : LCore) : (c.advance).startQ = c.startQ := rfl
@[simp] theorem LCore.advance_vl (c : LCore) : (c.advance).vl = c.vl := rfl
@[simp] theorem LCore.advance_ssc (c : LCore) : (c.advance).ssc = c.ssc := rfl
@[simp] theorem LCore.advance_status (c : LCore) : (c.advance).status = c.status := rfl
@[simp] theorem LCore.advance_fstat (c : LCore) : (c.advance).fstat = c.fstat := rfl
@[simp] theorem LCore.advance_fmode (c : LCore) : (c.advance).fmode = c.fmode := rfl
@[simp] theorem LCore.advance_astat (c : LCore) : (c.advance).astat = c.astat := rfl
@[simp] theorem LCore.advance_repc (c : LCore) : (c.advance).repc = nextRepc c.repc := rfl
@[simp] theorem LCore.advance_root (c : LCore) : (c.advance).root = c.root := rfl
@[simp] theorem LCore.advance_sbank (c : LCore) : (c.advance).sbank = c.sbank := rfl
@[simp] theorem LCore.advance_mbank (c : LCore) : (c.advance).mbank = c.mbank := rfl
@[simp] theorem LCore.advance_exch (c : LCore) : (c.advance).exch = c.exch := rfl
@[simp] theorem LCore.advance_tip (c : LCore) : (c.advance).tip = c.tip := rfl
@[simp] theorem LCore.advance_saveX1 (c : LCore) : (c.advance).saveX1 = c.saveX1 := rfl
@[simp] theorem LCore.advance_saveP13 (c : LCore) : (c.advance).saveP13 = c.saveP13 := rfl
@[simp] theorem LCore.advance_saveP15 (c : LCore) : (c.advance).saveP15 = c.saveP15 := rfl
@[simp] theorem LCore.advance_bars (c : LCore) : (c.advance).bars = c.bars := rfl
@[simp] theorem LCore.advance_know (c : LCore) : (c.advance).know = c.know := rfl
@[simp] theorem LCore.advance_cidx (c : LCore) : (c.advance).cidx = c.cidx := rfl
@[simp] theorem LCore.advance_cxpins (c : LCore) : (c.advance).cxpins = c.cxpins := rfl
@[simp] theorem LCore.advance_ring (c : LCore) : (c.advance).ring = c.ring := rfl
@[simp] theorem LCore.advance_nextSeq (c : LCore) : (c.advance).nextSeq = c.nextSeq := rfl
@[simp] theorem LCore.advance_late (c : LCore) : (c.advance).late = c.late := rfl
@[simp] theorem LCore.advance_pend (c : LCore) : (c.advance).pend = c.pend := rfl
@[simp] theorem LCore.advance_loads (c : LCore) : (c.advance).loads = c.loads := rfl
@[simp] theorem LCore.advance_ccy (c : LCore) : (c.advance).ccy = c.ccy := rfl
@[simp] theorem LCore.advance_xrdy (c : LCore) : (c.advance).xrdy = c.xrdy := rfl
@[simp] theorem LCore.advance_divFree (c : LCore) : (c.advance).divFree = c.divFree := rfl
@[simp] theorem LCore.advance_frozenAt (c : LCore) : (c.advance).frozenAt = c.frozenAt := rfl
@[simp] theorem LCore.advance_copNext (c : LCore) : (c.advance).copNext = c.copNext := rfl
@[simp] theorem LCore.advance_vecFree (c : LCore) : (c.advance).vecFree = c.vecFree := rfl
@[simp] theorem LCore.advance_matFree (c : LCore) : (c.advance).matFree = c.matFree := rfl
@[simp] theorem LCore.advance_port (c : LCore) : (c.advance).port = c.port := rfl
@[simp] theorem LCore.advance_hint (c : LCore) : (c.advance).hint = c.hint := rfl
@[simp] theorem LCore.advance_timer (c : LCore) : (c.advance).timer = c.timer := rfl
@[simp] theorem LCore.advance_overrun (c : LCore) : (c.advance).overrun = c.overrun := rfl
@[simp] theorem LCore.advance_handed (c : LCore) : (c.advance).handed = c.handed := rfl
@[simp] theorem LCore.advance_handler (c : LCore) : (c.advance).handler = c.handler := rfl
@[simp] theorem LCore.advance_taken (c : LCore) : (c.advance).taken = c.taken := rfl
@[simp] theorem LCore.advance_posts (c : LCore) : (c.advance).posts = c.posts := rfl
@[simp] theorem LCore.advance_work (c : LCore) : (c.advance).work = c.work := rfl
@[simp] theorem LCore.advance_acks (c : LCore) : (c.advance).acks = c.acks := rfl
@[simp] theorem LCore.advance_lost (c : LCore) : (c.advance).lost = c.lost := rfl
@[simp] theorem LCore.advance_debug (c : LCore) : (c.advance).debug = c.debug := rfl

/-! ### `raise` -/

@[simp] theorem LCore.raise_gang (c : LCore) (f : Fp.Flags) : (c.raise f).gang = c.gang := rfl
@[simp] theorem LCore.raise_run (c : LCore) (f : Fp.Flags) : (c.raise f).run = c.run := rfl
@[simp] theorem LCore.raise_blk (c : LCore) (f : Fp.Flags) : (c.raise f).blk = c.blk := rfl
@[simp] theorem LCore.raise_lcid (c : LCore) (f : Fp.Flags) : (c.raise f).lcid = c.lcid := rfl
@[simp] theorem LCore.raise_lcn (c : LCore) (f : Fp.Flags) : (c.raise f).lcn = c.lcn := rfl
@[simp] theorem LCore.raise_wid (c : LCore) (f : Fp.Flags) : (c.raise f).wid = c.wid := rfl
@[simp] theorem LCore.raise_wfw (c : LCore) (f : Fp.Flags) : (c.raise f).wfw = c.wfw := rfl
@[simp] theorem LCore.raise_wfe (c : LCore) (f : Fp.Flags) : (c.raise f).wfe = c.wfe := rfl
@[simp] theorem LCore.raise_pcid (c : LCore) (f : Fp.Flags) : (c.raise f).pcid = c.pcid := rfl
@[simp] theorem LCore.raise_pc (c : LCore) (f : Fp.Flags) : (c.raise f).pc = c.pc := rfl
@[simp] theorem LCore.raise_unit (c : LCore) (f : Fp.Flags) : (c.raise f).unit = c.unit := rfl
@[simp] theorem LCore.raise_pfx (c : LCore) (f : Fp.Flags) : (c.raise f).pfx = c.pfx := rfl
@[simp] theorem LCore.raise_x (c : LCore) (f : Fp.Flags) : (c.raise f).x = c.x := rfl
@[simp] theorem LCore.raise_p (c : LCore) (f : Fp.Flags) : (c.raise f).p = c.p := rfl
@[simp] theorem LCore.raise_v (c : LCore) (f : Fp.Flags) : (c.raise f).v = c.v := rfl
@[simp] theorem LCore.raise_m (c : LCore) (f : Fp.Flags) : (c.raise f).m = c.m := rfl
@[simp] theorem LCore.raise_t (c : LCore) (f : Fp.Flags) : (c.raise f).t = c.t := rfl
@[simp] theorem LCore.raise_acc (c : LCore) (f : Fp.Flags) : (c.raise f).acc = c.acc := rfl
@[simp] theorem LCore.raise_k (c : LCore) (f : Fp.Flags) : (c.raise f).k = c.k := rfl
@[simp] theorem LCore.raise_q (c : LCore) (f : Fp.Flags) : (c.raise f).q = c.q := rfl
@[simp] theorem LCore.raise_st (c : LCore) (f : Fp.Flags) : (c.raise f).st = c.st := rfl
@[simp] theorem LCore.raise_tags (c : LCore) (f : Fp.Flags) : (c.raise f).tags = c.tags := rfl
@[simp] theorem LCore.raise_startQ (c : LCore) (f : Fp.Flags) : (c.raise f).startQ = c.startQ := rfl
@[simp] theorem LCore.raise_vl (c : LCore) (f : Fp.Flags) : (c.raise f).vl = c.vl := rfl
@[simp] theorem LCore.raise_ssc (c : LCore) (f : Fp.Flags) : (c.raise f).ssc = c.ssc := rfl
@[simp] theorem LCore.raise_status (c : LCore) (f : Fp.Flags) : (c.raise f).status = c.status := rfl
@[simp] theorem LCore.raise_fstat (c : LCore) (f : Fp.Flags) : (c.raise f).fstat = c.fstat ||| f.setWidth 64 := rfl
@[simp] theorem LCore.raise_fmode (c : LCore) (f : Fp.Flags) : (c.raise f).fmode = c.fmode := rfl
@[simp] theorem LCore.raise_astat (c : LCore) (f : Fp.Flags) : (c.raise f).astat = c.astat := rfl
@[simp] theorem LCore.raise_repc (c : LCore) (f : Fp.Flags) : (c.raise f).repc = c.repc := rfl
@[simp] theorem LCore.raise_root (c : LCore) (f : Fp.Flags) : (c.raise f).root = c.root := rfl
@[simp] theorem LCore.raise_sbank (c : LCore) (f : Fp.Flags) : (c.raise f).sbank = c.sbank := rfl
@[simp] theorem LCore.raise_mbank (c : LCore) (f : Fp.Flags) : (c.raise f).mbank = c.mbank := rfl
@[simp] theorem LCore.raise_exch (c : LCore) (f : Fp.Flags) : (c.raise f).exch = c.exch := rfl
@[simp] theorem LCore.raise_tip (c : LCore) (f : Fp.Flags) : (c.raise f).tip = c.tip := rfl
@[simp] theorem LCore.raise_saveX1 (c : LCore) (f : Fp.Flags) : (c.raise f).saveX1 = c.saveX1 := rfl
@[simp] theorem LCore.raise_saveP13 (c : LCore) (f : Fp.Flags) : (c.raise f).saveP13 = c.saveP13 := rfl
@[simp] theorem LCore.raise_saveP15 (c : LCore) (f : Fp.Flags) : (c.raise f).saveP15 = c.saveP15 := rfl
@[simp] theorem LCore.raise_bars (c : LCore) (f : Fp.Flags) : (c.raise f).bars = c.bars := rfl
@[simp] theorem LCore.raise_know (c : LCore) (f : Fp.Flags) : (c.raise f).know = c.know := rfl
@[simp] theorem LCore.raise_cidx (c : LCore) (f : Fp.Flags) : (c.raise f).cidx = c.cidx := rfl
@[simp] theorem LCore.raise_cxpins (c : LCore) (f : Fp.Flags) : (c.raise f).cxpins = c.cxpins := rfl
@[simp] theorem LCore.raise_ring (c : LCore) (f : Fp.Flags) : (c.raise f).ring = c.ring := rfl
@[simp] theorem LCore.raise_nextSeq (c : LCore) (f : Fp.Flags) : (c.raise f).nextSeq = c.nextSeq := rfl
@[simp] theorem LCore.raise_late (c : LCore) (f : Fp.Flags) : (c.raise f).late = c.late := rfl
@[simp] theorem LCore.raise_pend (c : LCore) (f : Fp.Flags) : (c.raise f).pend = c.pend := rfl
@[simp] theorem LCore.raise_loads (c : LCore) (f : Fp.Flags) : (c.raise f).loads = c.loads := rfl
@[simp] theorem LCore.raise_ccy (c : LCore) (f : Fp.Flags) : (c.raise f).ccy = c.ccy := rfl
@[simp] theorem LCore.raise_xrdy (c : LCore) (f : Fp.Flags) : (c.raise f).xrdy = c.xrdy := rfl
@[simp] theorem LCore.raise_divFree (c : LCore) (f : Fp.Flags) : (c.raise f).divFree = c.divFree := rfl
@[simp] theorem LCore.raise_frozenAt (c : LCore) (f : Fp.Flags) : (c.raise f).frozenAt = c.frozenAt := rfl
@[simp] theorem LCore.raise_copNext (c : LCore) (f : Fp.Flags) : (c.raise f).copNext = c.copNext := rfl
@[simp] theorem LCore.raise_vecFree (c : LCore) (f : Fp.Flags) : (c.raise f).vecFree = c.vecFree := rfl
@[simp] theorem LCore.raise_matFree (c : LCore) (f : Fp.Flags) : (c.raise f).matFree = c.matFree := rfl
@[simp] theorem LCore.raise_port (c : LCore) (f : Fp.Flags) : (c.raise f).port = c.port := rfl
@[simp] theorem LCore.raise_hint (c : LCore) (f : Fp.Flags) : (c.raise f).hint = c.hint := rfl
@[simp] theorem LCore.raise_timer (c : LCore) (f : Fp.Flags) : (c.raise f).timer = c.timer := rfl
@[simp] theorem LCore.raise_overrun (c : LCore) (f : Fp.Flags) : (c.raise f).overrun = c.overrun := rfl
@[simp] theorem LCore.raise_handed (c : LCore) (f : Fp.Flags) : (c.raise f).handed = c.handed := rfl
@[simp] theorem LCore.raise_handler (c : LCore) (f : Fp.Flags) : (c.raise f).handler = c.handler := rfl
@[simp] theorem LCore.raise_taken (c : LCore) (f : Fp.Flags) : (c.raise f).taken = c.taken := rfl
@[simp] theorem LCore.raise_posts (c : LCore) (f : Fp.Flags) : (c.raise f).posts = c.posts := rfl
@[simp] theorem LCore.raise_work (c : LCore) (f : Fp.Flags) : (c.raise f).work = c.work.map (fun w => { w with fstat := w.fstat ||| f.setWidth 64 }) := rfl
@[simp] theorem LCore.raise_acks (c : LCore) (f : Fp.Flags) : (c.raise f).acks = c.acks := rfl
@[simp] theorem LCore.raise_lost (c : LCore) (f : Fp.Flags) : (c.raise f).lost = c.lost := rfl
@[simp] theorem LCore.raise_debug (c : LCore) (f : Fp.Flags) : (c.raise f).debug = c.debug := rfl

/-! ### `passed` -/

@[simp] theorem LCore.passed_gang (c : LCore) : (c.passed).gang = c.gang := rfl
@[simp] theorem LCore.passed_run (c : LCore) : (c.passed).run = c.run := rfl
@[simp] theorem LCore.passed_blk (c : LCore) : (c.passed).blk = c.blk := rfl
@[simp] theorem LCore.passed_lcid (c : LCore) : (c.passed).lcid = c.lcid := rfl
@[simp] theorem LCore.passed_lcn (c : LCore) : (c.passed).lcn = c.lcn := rfl
@[simp] theorem LCore.passed_wid (c : LCore) : (c.passed).wid = c.wid := rfl
@[simp] theorem LCore.passed_wfw (c : LCore) : (c.passed).wfw = c.wfw := rfl
@[simp] theorem LCore.passed_wfe (c : LCore) : (c.passed).wfe = c.wfe := rfl
@[simp] theorem LCore.passed_pcid (c : LCore) : (c.passed).pcid = c.pcid := rfl
@[simp] theorem LCore.passed_pc (c : LCore) : (c.passed).pc = nextPc c.repc c.pc := rfl
@[simp] theorem LCore.passed_unit (c : LCore) : (c.passed).unit = none := rfl
@[simp] theorem LCore.passed_pfx (c : LCore) : (c.passed).pfx = none := rfl
@[simp] theorem LCore.passed_x (c : LCore) : (c.passed).x = c.x := rfl
@[simp] theorem LCore.passed_p (c : LCore) : (c.passed).p = c.p := rfl
@[simp] theorem LCore.passed_v (c : LCore) : (c.passed).v = c.v := rfl
@[simp] theorem LCore.passed_m (c : LCore) : (c.passed).m = c.m := rfl
@[simp] theorem LCore.passed_t (c : LCore) : (c.passed).t = c.t := rfl
@[simp] theorem LCore.passed_acc (c : LCore) : (c.passed).acc = c.acc := rfl
@[simp] theorem LCore.passed_k (c : LCore) : (c.passed).k = c.k := rfl
@[simp] theorem LCore.passed_q (c : LCore) : (c.passed).q = c.q := rfl
@[simp] theorem LCore.passed_st (c : LCore) : (c.passed).st = c.st := rfl
@[simp] theorem LCore.passed_tags (c : LCore) : (c.passed).tags = c.tags := rfl
@[simp] theorem LCore.passed_startQ (c : LCore) : (c.passed).startQ = c.startQ := rfl
@[simp] theorem LCore.passed_vl (c : LCore) : (c.passed).vl = c.vl := rfl
@[simp] theorem LCore.passed_ssc (c : LCore) : (c.passed).ssc = c.ssc := rfl
@[simp] theorem LCore.passed_status (c : LCore) : (c.passed).status = c.status := rfl
@[simp] theorem LCore.passed_fstat (c : LCore) : (c.passed).fstat = c.fstat := rfl
@[simp] theorem LCore.passed_fmode (c : LCore) : (c.passed).fmode = c.fmode := rfl
@[simp] theorem LCore.passed_astat (c : LCore) : (c.passed).astat = c.astat := rfl
@[simp] theorem LCore.passed_repc (c : LCore) : (c.passed).repc = nextRepc c.repc := rfl
@[simp] theorem LCore.passed_root (c : LCore) : (c.passed).root = c.root := rfl
@[simp] theorem LCore.passed_sbank (c : LCore) : (c.passed).sbank = c.sbank := rfl
@[simp] theorem LCore.passed_mbank (c : LCore) : (c.passed).mbank = c.mbank := rfl
@[simp] theorem LCore.passed_exch (c : LCore) : (c.passed).exch = c.exch := rfl
@[simp] theorem LCore.passed_tip (c : LCore) : (c.passed).tip = c.tip := rfl
@[simp] theorem LCore.passed_saveX1 (c : LCore) : (c.passed).saveX1 = c.saveX1 := rfl
@[simp] theorem LCore.passed_saveP13 (c : LCore) : (c.passed).saveP13 = c.saveP13 := rfl
@[simp] theorem LCore.passed_saveP15 (c : LCore) : (c.passed).saveP15 = c.saveP15 := rfl
@[simp] theorem LCore.passed_bars (c : LCore) : (c.passed).bars = c.bars := rfl
@[simp] theorem LCore.passed_know (c : LCore) : (c.passed).know = c.know := rfl
@[simp] theorem LCore.passed_cidx (c : LCore) : (c.passed).cidx = c.cidx := rfl
@[simp] theorem LCore.passed_cxpins (c : LCore) : (c.passed).cxpins = c.cxpins := rfl
@[simp] theorem LCore.passed_ring (c : LCore) : (c.passed).ring = c.ring := rfl
@[simp] theorem LCore.passed_nextSeq (c : LCore) : (c.passed).nextSeq = c.nextSeq := rfl
@[simp] theorem LCore.passed_late (c : LCore) : (c.passed).late = c.late := rfl
@[simp] theorem LCore.passed_pend (c : LCore) : (c.passed).pend = c.pend := rfl
@[simp] theorem LCore.passed_loads (c : LCore) : (c.passed).loads = c.loads := rfl
@[simp] theorem LCore.passed_ccy (c : LCore) : (c.passed).ccy = c.ccy := rfl
@[simp] theorem LCore.passed_xrdy (c : LCore) : (c.passed).xrdy = c.xrdy := rfl
@[simp] theorem LCore.passed_divFree (c : LCore) : (c.passed).divFree = c.divFree := rfl
@[simp] theorem LCore.passed_frozenAt (c : LCore) : (c.passed).frozenAt = c.frozenAt := rfl
@[simp] theorem LCore.passed_copNext (c : LCore) : (c.passed).copNext = c.copNext := rfl
@[simp] theorem LCore.passed_vecFree (c : LCore) : (c.passed).vecFree = c.vecFree := rfl
@[simp] theorem LCore.passed_matFree (c : LCore) : (c.passed).matFree = c.matFree := rfl
@[simp] theorem LCore.passed_port (c : LCore) : (c.passed).port = c.port := rfl
@[simp] theorem LCore.passed_hint (c : LCore) : (c.passed).hint = c.hint := rfl
@[simp] theorem LCore.passed_timer (c : LCore) : (c.passed).timer = c.timer := rfl
@[simp] theorem LCore.passed_overrun (c : LCore) : (c.passed).overrun = c.overrun := rfl
@[simp] theorem LCore.passed_handed (c : LCore) : (c.passed).handed = c.handed := rfl
@[simp] theorem LCore.passed_handler (c : LCore) : (c.passed).handler = c.handler := rfl
@[simp] theorem LCore.passed_taken (c : LCore) : (c.passed).taken = c.taken := rfl
@[simp] theorem LCore.passed_posts (c : LCore) : (c.passed).posts = c.posts := rfl
@[simp] theorem LCore.passed_work (c : LCore) : (c.passed).work = c.work := rfl
@[simp] theorem LCore.passed_acks (c : LCore) : (c.passed).acks = c.acks := rfl
@[simp] theorem LCore.passed_lost (c : LCore) : (c.passed).lost = c.lost := rfl
@[simp] theorem LCore.passed_debug (c : LCore) : (c.passed).debug = c.debug := rfl

/-! ### A word in sequence, and one that jumps -/

@[simp] theorem LCore.finish_seq_gang (c : LCore) : (c.finish .seq).gang = c.passed.gang := rfl
@[simp] theorem LCore.finish_seq_run (c : LCore) : (c.finish .seq).run = c.passed.run := rfl
@[simp] theorem LCore.finish_seq_blk (c : LCore) : (c.finish .seq).blk = c.passed.blk := rfl
@[simp] theorem LCore.finish_seq_lcid (c : LCore) : (c.finish .seq).lcid = c.passed.lcid := rfl
@[simp] theorem LCore.finish_seq_lcn (c : LCore) : (c.finish .seq).lcn = c.passed.lcn := rfl
@[simp] theorem LCore.finish_seq_wid (c : LCore) : (c.finish .seq).wid = c.passed.wid := rfl
@[simp] theorem LCore.finish_seq_wfw (c : LCore) : (c.finish .seq).wfw = c.passed.wfw := rfl
@[simp] theorem LCore.finish_seq_wfe (c : LCore) : (c.finish .seq).wfe = c.passed.wfe := rfl
@[simp] theorem LCore.finish_seq_pcid (c : LCore) : (c.finish .seq).pcid = c.passed.pcid := rfl
@[simp] theorem LCore.finish_seq_pc (c : LCore) : (c.finish .seq).pc = c.passed.pc := rfl
@[simp] theorem LCore.finish_seq_unit (c : LCore) : (c.finish .seq).unit = c.passed.unit := rfl
@[simp] theorem LCore.finish_seq_pfx (c : LCore) : (c.finish .seq).pfx = c.passed.pfx := rfl
@[simp] theorem LCore.finish_seq_x (c : LCore) : (c.finish .seq).x = c.passed.x := rfl
@[simp] theorem LCore.finish_seq_p (c : LCore) : (c.finish .seq).p = c.passed.p := rfl
@[simp] theorem LCore.finish_seq_v (c : LCore) : (c.finish .seq).v = c.passed.v := rfl
@[simp] theorem LCore.finish_seq_m (c : LCore) : (c.finish .seq).m = c.passed.m := rfl
@[simp] theorem LCore.finish_seq_t (c : LCore) : (c.finish .seq).t = c.passed.t := rfl
@[simp] theorem LCore.finish_seq_acc (c : LCore) : (c.finish .seq).acc = c.passed.acc := rfl
@[simp] theorem LCore.finish_seq_k (c : LCore) : (c.finish .seq).k = c.passed.k := rfl
@[simp] theorem LCore.finish_seq_q (c : LCore) : (c.finish .seq).q = c.passed.q := rfl
@[simp] theorem LCore.finish_seq_st (c : LCore) : (c.finish .seq).st = c.passed.st := rfl
@[simp] theorem LCore.finish_seq_tags (c : LCore) : (c.finish .seq).tags = c.passed.tags := rfl
@[simp] theorem LCore.finish_seq_startQ (c : LCore) : (c.finish .seq).startQ = c.passed.startQ := rfl
@[simp] theorem LCore.finish_seq_vl (c : LCore) : (c.finish .seq).vl = c.passed.vl := rfl
@[simp] theorem LCore.finish_seq_ssc (c : LCore) : (c.finish .seq).ssc = c.passed.ssc := rfl
@[simp] theorem LCore.finish_seq_status (c : LCore) : (c.finish .seq).status = c.passed.status := rfl
@[simp] theorem LCore.finish_seq_fstat (c : LCore) : (c.finish .seq).fstat = c.passed.fstat := rfl
@[simp] theorem LCore.finish_seq_fmode (c : LCore) : (c.finish .seq).fmode = c.passed.fmode := rfl
@[simp] theorem LCore.finish_seq_astat (c : LCore) : (c.finish .seq).astat = c.passed.astat := rfl
@[simp] theorem LCore.finish_seq_repc (c : LCore) : (c.finish .seq).repc = c.passed.repc := rfl
@[simp] theorem LCore.finish_seq_root (c : LCore) : (c.finish .seq).root = c.passed.root := rfl
@[simp] theorem LCore.finish_seq_sbank (c : LCore) : (c.finish .seq).sbank = c.passed.sbank := rfl
@[simp] theorem LCore.finish_seq_mbank (c : LCore) : (c.finish .seq).mbank = c.passed.mbank := rfl
@[simp] theorem LCore.finish_seq_exch (c : LCore) : (c.finish .seq).exch = c.passed.exch := rfl
@[simp] theorem LCore.finish_seq_tip (c : LCore) : (c.finish .seq).tip = c.passed.tip := rfl
@[simp] theorem LCore.finish_seq_saveX1 (c : LCore) : (c.finish .seq).saveX1 = c.passed.saveX1 := rfl
@[simp] theorem LCore.finish_seq_saveP13 (c : LCore) : (c.finish .seq).saveP13 = c.passed.saveP13 := rfl
@[simp] theorem LCore.finish_seq_saveP15 (c : LCore) : (c.finish .seq).saveP15 = c.passed.saveP15 := rfl
@[simp] theorem LCore.finish_seq_bars (c : LCore) : (c.finish .seq).bars = c.passed.bars := rfl
@[simp] theorem LCore.finish_seq_know (c : LCore) : (c.finish .seq).know = c.passed.know := rfl
@[simp] theorem LCore.finish_seq_cidx (c : LCore) : (c.finish .seq).cidx = c.passed.cidx := rfl
@[simp] theorem LCore.finish_seq_cxpins (c : LCore) : (c.finish .seq).cxpins = c.passed.cxpins := rfl
@[simp] theorem LCore.finish_seq_ring (c : LCore) : (c.finish .seq).ring = c.passed.ring := rfl
@[simp] theorem LCore.finish_seq_nextSeq (c : LCore) : (c.finish .seq).nextSeq = c.passed.nextSeq := rfl
@[simp] theorem LCore.finish_seq_late (c : LCore) : (c.finish .seq).late = c.passed.late := rfl
@[simp] theorem LCore.finish_seq_pend (c : LCore) : (c.finish .seq).pend = c.passed.pend := rfl
@[simp] theorem LCore.finish_seq_loads (c : LCore) : (c.finish .seq).loads = c.passed.loads := rfl
@[simp] theorem LCore.finish_seq_ccy (c : LCore) : (c.finish .seq).ccy = c.passed.ccy := rfl
@[simp] theorem LCore.finish_seq_xrdy (c : LCore) : (c.finish .seq).xrdy = c.passed.xrdy := rfl
@[simp] theorem LCore.finish_seq_divFree (c : LCore) : (c.finish .seq).divFree = c.passed.divFree := rfl
@[simp] theorem LCore.finish_seq_frozenAt (c : LCore) : (c.finish .seq).frozenAt = c.passed.frozenAt := rfl
@[simp] theorem LCore.finish_seq_copNext (c : LCore) : (c.finish .seq).copNext = c.passed.copNext := rfl
@[simp] theorem LCore.finish_seq_vecFree (c : LCore) : (c.finish .seq).vecFree = c.passed.vecFree := rfl
@[simp] theorem LCore.finish_seq_matFree (c : LCore) : (c.finish .seq).matFree = c.passed.matFree := rfl
@[simp] theorem LCore.finish_seq_port (c : LCore) : (c.finish .seq).port = c.passed.port := rfl
@[simp] theorem LCore.finish_seq_hint (c : LCore) : (c.finish .seq).hint = c.passed.hint := rfl
@[simp] theorem LCore.finish_seq_timer (c : LCore) : (c.finish .seq).timer = c.passed.timer := rfl
@[simp] theorem LCore.finish_seq_overrun (c : LCore) : (c.finish .seq).overrun = c.passed.overrun := rfl
@[simp] theorem LCore.finish_seq_handed (c : LCore) : (c.finish .seq).handed = c.passed.handed := rfl
@[simp] theorem LCore.finish_seq_handler (c : LCore) : (c.finish .seq).handler = c.passed.handler := rfl
@[simp] theorem LCore.finish_seq_taken (c : LCore) : (c.finish .seq).taken = c.passed.taken := rfl
@[simp] theorem LCore.finish_seq_posts (c : LCore) : (c.finish .seq).posts = c.passed.posts := rfl
@[simp] theorem LCore.finish_seq_work (c : LCore) : (c.finish .seq).work = c.passed.work := rfl
@[simp] theorem LCore.finish_seq_acks (c : LCore) : (c.finish .seq).acks = c.passed.acks := rfl
@[simp] theorem LCore.finish_seq_lost (c : LCore) : (c.finish .seq).lost = c.passed.lost := rfl
@[simp] theorem LCore.finish_seq_debug (c : LCore) : (c.finish .seq).debug = c.passed.debug := rfl
@[simp] theorem LCore.finish_jump_gang (c : LCore) (a : W64) : (c.finish (.jump a)).gang = c.gang := rfl
@[simp] theorem LCore.finish_jump_run (c : LCore) (a : W64) : (c.finish (.jump a)).run = c.run := rfl
@[simp] theorem LCore.finish_jump_blk (c : LCore) (a : W64) : (c.finish (.jump a)).blk = c.blk := rfl
@[simp] theorem LCore.finish_jump_lcid (c : LCore) (a : W64) : (c.finish (.jump a)).lcid = c.lcid := rfl
@[simp] theorem LCore.finish_jump_lcn (c : LCore) (a : W64) : (c.finish (.jump a)).lcn = c.lcn := rfl
@[simp] theorem LCore.finish_jump_wid (c : LCore) (a : W64) : (c.finish (.jump a)).wid = c.wid := rfl
@[simp] theorem LCore.finish_jump_wfw (c : LCore) (a : W64) : (c.finish (.jump a)).wfw = c.wfw := rfl
@[simp] theorem LCore.finish_jump_wfe (c : LCore) (a : W64) : (c.finish (.jump a)).wfe = c.wfe := rfl
@[simp] theorem LCore.finish_jump_pcid (c : LCore) (a : W64) : (c.finish (.jump a)).pcid = c.pcid := rfl
@[simp] theorem LCore.finish_jump_pc (c : LCore) (a : W64) : (c.finish (.jump a)).pc = a := rfl
@[simp] theorem LCore.finish_jump_unit (c : LCore) (a : W64) : (c.finish (.jump a)).unit = none := rfl
@[simp] theorem LCore.finish_jump_pfx (c : LCore) (a : W64) : (c.finish (.jump a)).pfx = none := rfl
@[simp] theorem LCore.finish_jump_x (c : LCore) (a : W64) : (c.finish (.jump a)).x = c.x := rfl
@[simp] theorem LCore.finish_jump_p (c : LCore) (a : W64) : (c.finish (.jump a)).p = c.p := rfl
@[simp] theorem LCore.finish_jump_v (c : LCore) (a : W64) : (c.finish (.jump a)).v = c.v := rfl
@[simp] theorem LCore.finish_jump_m (c : LCore) (a : W64) : (c.finish (.jump a)).m = c.m := rfl
@[simp] theorem LCore.finish_jump_t (c : LCore) (a : W64) : (c.finish (.jump a)).t = c.t := rfl
@[simp] theorem LCore.finish_jump_acc (c : LCore) (a : W64) : (c.finish (.jump a)).acc = c.acc := rfl
@[simp] theorem LCore.finish_jump_k (c : LCore) (a : W64) : (c.finish (.jump a)).k = c.k := rfl
@[simp] theorem LCore.finish_jump_q (c : LCore) (a : W64) : (c.finish (.jump a)).q = c.q := rfl
@[simp] theorem LCore.finish_jump_st (c : LCore) (a : W64) : (c.finish (.jump a)).st = c.st := rfl
@[simp] theorem LCore.finish_jump_tags (c : LCore) (a : W64) : (c.finish (.jump a)).tags = c.tags := rfl
@[simp] theorem LCore.finish_jump_startQ (c : LCore) (a : W64) : (c.finish (.jump a)).startQ = c.startQ := rfl
@[simp] theorem LCore.finish_jump_vl (c : LCore) (a : W64) : (c.finish (.jump a)).vl = c.vl := rfl
@[simp] theorem LCore.finish_jump_ssc (c : LCore) (a : W64) : (c.finish (.jump a)).ssc = c.ssc := rfl
@[simp] theorem LCore.finish_jump_status (c : LCore) (a : W64) : (c.finish (.jump a)).status = c.status := rfl
@[simp] theorem LCore.finish_jump_fstat (c : LCore) (a : W64) : (c.finish (.jump a)).fstat = c.fstat := rfl
@[simp] theorem LCore.finish_jump_fmode (c : LCore) (a : W64) : (c.finish (.jump a)).fmode = c.fmode := rfl
@[simp] theorem LCore.finish_jump_astat (c : LCore) (a : W64) : (c.finish (.jump a)).astat = c.astat := rfl
@[simp] theorem LCore.finish_jump_repc (c : LCore) (a : W64) : (c.finish (.jump a)).repc = c.repc := rfl
@[simp] theorem LCore.finish_jump_root (c : LCore) (a : W64) : (c.finish (.jump a)).root = c.root := rfl
@[simp] theorem LCore.finish_jump_sbank (c : LCore) (a : W64) : (c.finish (.jump a)).sbank = c.sbank := rfl
@[simp] theorem LCore.finish_jump_mbank (c : LCore) (a : W64) : (c.finish (.jump a)).mbank = c.mbank := rfl
@[simp] theorem LCore.finish_jump_exch (c : LCore) (a : W64) : (c.finish (.jump a)).exch = c.exch := rfl
@[simp] theorem LCore.finish_jump_tip (c : LCore) (a : W64) : (c.finish (.jump a)).tip = c.tip := rfl
@[simp] theorem LCore.finish_jump_saveX1 (c : LCore) (a : W64) : (c.finish (.jump a)).saveX1 = c.saveX1 := rfl
@[simp] theorem LCore.finish_jump_saveP13 (c : LCore) (a : W64) : (c.finish (.jump a)).saveP13 = c.saveP13 := rfl
@[simp] theorem LCore.finish_jump_saveP15 (c : LCore) (a : W64) : (c.finish (.jump a)).saveP15 = c.saveP15 := rfl
@[simp] theorem LCore.finish_jump_bars (c : LCore) (a : W64) : (c.finish (.jump a)).bars = c.bars := rfl
@[simp] theorem LCore.finish_jump_know (c : LCore) (a : W64) : (c.finish (.jump a)).know = c.know := rfl
@[simp] theorem LCore.finish_jump_cidx (c : LCore) (a : W64) : (c.finish (.jump a)).cidx = c.cidx := rfl
@[simp] theorem LCore.finish_jump_cxpins (c : LCore) (a : W64) : (c.finish (.jump a)).cxpins = c.cxpins := rfl
@[simp] theorem LCore.finish_jump_ring (c : LCore) (a : W64) : (c.finish (.jump a)).ring = c.ring := rfl
@[simp] theorem LCore.finish_jump_nextSeq (c : LCore) (a : W64) : (c.finish (.jump a)).nextSeq = c.nextSeq := rfl
@[simp] theorem LCore.finish_jump_late (c : LCore) (a : W64) : (c.finish (.jump a)).late = c.late := rfl
@[simp] theorem LCore.finish_jump_pend (c : LCore) (a : W64) : (c.finish (.jump a)).pend = c.pend := rfl
@[simp] theorem LCore.finish_jump_loads (c : LCore) (a : W64) : (c.finish (.jump a)).loads = c.loads := rfl
@[simp] theorem LCore.finish_jump_ccy (c : LCore) (a : W64) : (c.finish (.jump a)).ccy = c.ccy := rfl
@[simp] theorem LCore.finish_jump_xrdy (c : LCore) (a : W64) : (c.finish (.jump a)).xrdy = c.xrdy := rfl
@[simp] theorem LCore.finish_jump_divFree (c : LCore) (a : W64) : (c.finish (.jump a)).divFree = c.divFree := rfl
@[simp] theorem LCore.finish_jump_frozenAt (c : LCore) (a : W64) : (c.finish (.jump a)).frozenAt = c.frozenAt := rfl
@[simp] theorem LCore.finish_jump_copNext (c : LCore) (a : W64) : (c.finish (.jump a)).copNext = c.copNext := rfl
@[simp] theorem LCore.finish_jump_vecFree (c : LCore) (a : W64) : (c.finish (.jump a)).vecFree = c.vecFree := rfl
@[simp] theorem LCore.finish_jump_matFree (c : LCore) (a : W64) : (c.finish (.jump a)).matFree = c.matFree := rfl
@[simp] theorem LCore.finish_jump_port (c : LCore) (a : W64) : (c.finish (.jump a)).port = c.port := rfl
@[simp] theorem LCore.finish_jump_hint (c : LCore) (a : W64) : (c.finish (.jump a)).hint = c.hint := rfl
@[simp] theorem LCore.finish_jump_timer (c : LCore) (a : W64) : (c.finish (.jump a)).timer = c.timer := rfl
@[simp] theorem LCore.finish_jump_overrun (c : LCore) (a : W64) : (c.finish (.jump a)).overrun = c.overrun := rfl
@[simp] theorem LCore.finish_jump_handed (c : LCore) (a : W64) : (c.finish (.jump a)).handed = c.handed := rfl
@[simp] theorem LCore.finish_jump_handler (c : LCore) (a : W64) : (c.finish (.jump a)).handler = c.handler := rfl
@[simp] theorem LCore.finish_jump_taken (c : LCore) (a : W64) : (c.finish (.jump a)).taken = c.taken := rfl
@[simp] theorem LCore.finish_jump_posts (c : LCore) (a : W64) : (c.finish (.jump a)).posts = c.posts := rfl
@[simp] theorem LCore.finish_jump_work (c : LCore) (a : W64) : (c.finish (.jump a)).work = c.work := rfl
@[simp] theorem LCore.finish_jump_acks (c : LCore) (a : W64) : (c.finish (.jump a)).acks = c.acks := rfl
@[simp] theorem LCore.finish_jump_lost (c : LCore) (a : W64) : (c.finish (.jump a)).lost = c.lost := rfl
@[simp] theorem LCore.finish_jump_debug (c : LCore) (a : W64) : (c.finish (.jump a)).debug = c.debug := rfl

/-! ### `modCur` of the state -/

@[simp] theorem State.modCur_cur (s : State) (g : LCore → LCore) : (s.modCur g).cur = g s.cur := rfl
@[simp] theorem State.modCur_others (s : State) (g : LCore → LCore) : (s.modCur g).others = s.others := rfl
@[simp] theorem State.modCur_turns (s : State) (g : LCore → LCore) : (s.modCur g).turns = s.turns := rfl
@[simp] theorem State.modCur_inputs (s : State) (g : LCore → LCore) : (s.modCur g).inputs = s.inputs := rfl
@[simp] theorem State.modCur_mem (s : State) (g : LCore → LCore) : (s.modCur g).mem = s.mem := rfl
@[simp] theorem State.modCur_hostMem (s : State) (g : LCore → LCore) : (s.modCur g).hostMem = s.hostMem := rfl
@[simp] theorem State.modCur_pads (s : State) (g : LCore → LCore) : (s.modCur g).pads = s.pads := rfl
@[simp] theorem State.modCur_codeMap (s : State) (g : LCore → LCore) : (s.modCur g).codeMap = s.codeMap := rfl
@[simp] theorem State.modCur_ipad (s : State) (g : LCore → LCore) : (s.modCur g).ipad = s.ipad := rfl
@[simp] theorem State.modCur_loads (s : State) (g : LCore → LCore) : (s.modCur g).loads = s.loads := rfl
@[simp] theorem State.modCur_ldq (s : State) (g : LCore → LCore) : (s.modCur g).ldq = s.ldq := rfl
@[simp] theorem State.modCur_loading (s : State) (g : LCore → LCore) : (s.modCur g).loading = s.loading := rfl
@[simp] theorem State.modCur_gangs (s : State) (g : LCore → LCore) : (s.modCur g).gangs = s.gangs := rfl
@[simp] theorem State.modCur_nextGang (s : State) (g : LCore → LCore) : (s.modCur g).nextGang = s.nextGang := rfl
@[simp] theorem State.modCur_queues (s : State) (g : LCore → LCore) : (s.modCur g).queues = s.queues := rfl
@[simp] theorem State.modCur_lastQ (s : State) (g : LCore → LCore) : (s.modCur g).lastQ = s.lastQ := rfl
@[simp] theorem State.modCur_irqs (s : State) (g : LCore → LCore) : (s.modCur g).irqs = s.irqs := rfl
@[simp] theorem State.modCur_hostIrqs (s : State) (g : LCore → LCore) : (s.modCur g).hostIrqs = s.hostIrqs := rfl
@[simp] theorem State.modCur_lastCuts (s : State) (g : LCore → LCore) : (s.modCur g).lastCuts = s.lastCuts := rfl
@[simp] theorem State.modCur_mg (s : State) (g : LCore → LCore) : (s.modCur g).mg = s.mg := rfl
@[simp] theorem State.modCur_feat (s : State) (g : LCore → LCore) : (s.modCur g).feat = s.feat := rfl
@[simp] theorem State.modCur_die (s : State) (g : LCore → LCore) : (s.modCur g).die = s.die := rfl
@[simp] theorem State.modCur_pkg (s : State) (g : LCore → LCore) : (s.modCur g).pkg = s.pkg := rfl
@[simp] theorem State.modCur_straps (s : State) (g : LCore → LCore) : (s.modCur g).straps = s.straps := rfl
@[simp] theorem State.modCur_peers (s : State) (g : LCore → LCore) : (s.modCur g).peers = s.peers := rfl
@[simp] theorem State.modCur_farPorts (s : State) (g : LCore → LCore) : (s.modCur g).farPorts = s.farPorts := rfl
@[simp] theorem State.modCur_frameOwner (s : State) (g : LCore → LCore) : (s.modCur g).frameOwner = s.frameOwner := rfl
@[simp] theorem State.modCur_seals (s : State) (g : LCore → LCore) : (s.modCur g).seals = s.seals := rfl
@[simp] theorem State.modCur_lineTags (s : State) (g : LCore → LCore) : (s.modCur g).lineTags = s.lineTags := rfl
@[simp] theorem State.modCur_badSectors (s : State) (g : LCore → LCore) : (s.modCur g).badSectors = s.badSectors := rfl
@[simp] theorem State.modCur_badPads (s : State) (g : LCore → LCore) : (s.modCur g).badPads = s.badPads := rfl
@[simp] theorem State.modCur_corr (s : State) (g : LCore → LCore) : (s.modCur g).corr = s.corr := rfl
@[simp] theorem State.modCur_failAt (s : State) (g : LCore → LCore) : (s.modCur g).failAt = s.failAt := rfl
@[simp] theorem State.modCur_retiredLines (s : State) (g : LCore → LCore) : (s.modCur g).retiredLines = s.retiredLines := rfl
@[simp] theorem State.modCur_spared (s : State) (g : LCore → LCore) : (s.modCur g).spared = s.spared := rfl
@[simp] theorem State.modCur_retiredFrames (s : State) (g : LCore → LCore) : (s.modCur g).retiredFrames = s.retiredFrames := rfl
@[simp] theorem State.modCur_pageCtrs (s : State) (g : LCore → LCore) : (s.modCur g).pageCtrs = s.pageCtrs := rfl
@[simp] theorem State.modCur_moves (s : State) (g : LCore → LCore) : (s.modCur g).moves = s.moves := rfl
@[simp] theorem State.modCur_relNo (s : State) (g : LCore → LCore) : (s.modCur g).relNo = s.relNo := rfl
@[simp] theorem State.modCur_applied (s : State) (g : LCore → LCore) : (s.modCur g).applied = s.applied := rfl
@[simp] theorem State.modCur_msgs (s : State) (g : LCore → LCore) : (s.modCur g).msgs = s.msgs := rfl
@[simp] theorem State.modCur_stamps (s : State) (g : LCore → LCore) : (s.modCur g).stamps = s.stamps := rfl
@[simp] theorem State.modCur_marked (s : State) (g : LCore → LCore) : (s.modCur g).marked = s.marked := rfl
@[simp] theorem State.modCur_held (s : State) (g : LCore → LCore) : (s.modCur g).held = s.held := rfl
@[simp] theorem State.modCur_silent (s : State) (g : LCore → LCore) : (s.modCur g).silent = s.silent := rfl
@[simp] theorem State.modCur_expired (s : State) (g : LCore → LCore) : (s.modCur g).expired = s.expired := rfl
@[simp] theorem State.modCur_links (s : State) (g : LCore → LCore) : (s.modCur g).links = s.links := rfl
@[simp] theorem State.modCur_images (s : State) (g : LCore → LCore) : (s.modCur g).images = s.images := rfl
@[simp] theorem State.modCur_trPend (s : State) (g : LCore → LCore) : (s.modCur g).trPend = s.trPend := rfl
@[simp] theorem State.modCur_trHeld (s : State) (g : LCore → LCore) : (s.modCur g).trHeld = s.trHeld := rfl
@[simp] theorem State.modCur_trHoldSince (s : State) (g : LCore → LCore) : (s.modCur g).trHoldSince = s.trHoldSince := rfl
@[simp] theorem State.modCur_trGap (s : State) (g : LCore → LCore) : (s.modCur g).trGap = s.trGap := rfl
@[simp] theorem State.modCur_trGapAt (s : State) (g : LCore → LCore) : (s.modCur g).trGapAt = s.trGapAt := rfl
@[simp] theorem State.modCur_wbFailed (s : State) (g : LCore → LCore) : (s.modCur g).wbFailed = s.wbFailed := rfl
@[simp] theorem State.modCur_stands (s : State) (g : LCore → LCore) : (s.modCur g).stands = s.stands := rfl
@[simp] theorem State.modCur_collected (s : State) (g : LCore → LCore) : (s.modCur g).collected = s.collected := rfl
@[simp] theorem State.modCur_created (s : State) (g : LCore → LCore) : (s.modCur g).created = s.created := rfl
@[simp] theorem State.modCur_rot (s : State) (g : LCore → LCore) : (s.modCur g).rot = s.rot := rfl
@[simp] theorem State.modCur_spdm (s : State) (g : LCore → LCore) : (s.modCur g).spdm = s.spdm := rfl
@[simp] theorem State.modCur_roce (s : State) (g : LCore → LCore) : (s.modCur g).roce = s.roce := rfl
@[simp] theorem State.modCur_readout (s : State) (g : LCore → LCore) : (s.modCur g).readout = s.readout := rfl
@[simp] theorem State.modCur_frozen (s : State) (g : LCore → LCore) : (s.modCur g).frozen = s.frozen := rfl
@[simp] theorem State.modCur_clk (s : State) (g : LCore → LCore) : (s.modCur g).clk = s.clk := rfl
@[simp] theorem State.modCur_free (s : State) (g : LCore → LCore) : (s.modCur g).free = s.free := rfl

/-! ### `setPad` of the state -/

@[simp] theorem State.setPad_cur (s : State) (p : Pad) : (s.setPad p).cur = s.cur := rfl
@[simp] theorem State.setPad_others (s : State) (p : Pad) : (s.setPad p).others = s.others := rfl
@[simp] theorem State.setPad_turns (s : State) (p : Pad) : (s.setPad p).turns = s.turns := rfl
@[simp] theorem State.setPad_inputs (s : State) (p : Pad) : (s.setPad p).inputs = s.inputs := rfl
@[simp] theorem State.setPad_mem (s : State) (p : Pad) : (s.setPad p).mem = s.mem := rfl
@[simp] theorem State.setPad_hostMem (s : State) (p : Pad) : (s.setPad p).hostMem = s.hostMem := rfl
@[simp] theorem State.setPad_pads (s : State) (p : Pad) : (s.setPad p).pads = p :: s.pads.filter (fun q => q.id != p.id) := rfl
@[simp] theorem State.setPad_codeMap (s : State) (p : Pad) : (s.setPad p).codeMap = s.codeMap := rfl
@[simp] theorem State.setPad_ipad (s : State) (p : Pad) : (s.setPad p).ipad = s.ipad := rfl
@[simp] theorem State.setPad_loads (s : State) (p : Pad) : (s.setPad p).loads = s.loads := rfl
@[simp] theorem State.setPad_ldq (s : State) (p : Pad) : (s.setPad p).ldq = s.ldq := rfl
@[simp] theorem State.setPad_loading (s : State) (p : Pad) : (s.setPad p).loading = s.loading := rfl
@[simp] theorem State.setPad_gangs (s : State) (p : Pad) : (s.setPad p).gangs = s.gangs := rfl
@[simp] theorem State.setPad_nextGang (s : State) (p : Pad) : (s.setPad p).nextGang = s.nextGang := rfl
@[simp] theorem State.setPad_queues (s : State) (p : Pad) : (s.setPad p).queues = s.queues := rfl
@[simp] theorem State.setPad_lastQ (s : State) (p : Pad) : (s.setPad p).lastQ = s.lastQ := rfl
@[simp] theorem State.setPad_irqs (s : State) (p : Pad) : (s.setPad p).irqs = s.irqs := rfl
@[simp] theorem State.setPad_hostIrqs (s : State) (p : Pad) : (s.setPad p).hostIrqs = s.hostIrqs := rfl
@[simp] theorem State.setPad_lastCuts (s : State) (p : Pad) : (s.setPad p).lastCuts = s.lastCuts := rfl
@[simp] theorem State.setPad_mg (s : State) (p : Pad) : (s.setPad p).mg = s.mg := rfl
@[simp] theorem State.setPad_feat (s : State) (p : Pad) : (s.setPad p).feat = s.feat := rfl
@[simp] theorem State.setPad_die (s : State) (p : Pad) : (s.setPad p).die = s.die := rfl
@[simp] theorem State.setPad_pkg (s : State) (p : Pad) : (s.setPad p).pkg = s.pkg := rfl
@[simp] theorem State.setPad_straps (s : State) (p : Pad) : (s.setPad p).straps = s.straps := rfl
@[simp] theorem State.setPad_peers (s : State) (p : Pad) : (s.setPad p).peers = s.peers := rfl
@[simp] theorem State.setPad_farPorts (s : State) (p : Pad) : (s.setPad p).farPorts = s.farPorts := rfl
@[simp] theorem State.setPad_frameOwner (s : State) (p : Pad) : (s.setPad p).frameOwner = s.frameOwner := rfl
@[simp] theorem State.setPad_seals (s : State) (p : Pad) : (s.setPad p).seals = s.seals := rfl
@[simp] theorem State.setPad_lineTags (s : State) (p : Pad) : (s.setPad p).lineTags = s.lineTags := rfl
@[simp] theorem State.setPad_badSectors (s : State) (p : Pad) : (s.setPad p).badSectors = s.badSectors := rfl
@[simp] theorem State.setPad_badPads (s : State) (p : Pad) : (s.setPad p).badPads = s.badPads := rfl
@[simp] theorem State.setPad_corr (s : State) (p : Pad) : (s.setPad p).corr = s.corr := rfl
@[simp] theorem State.setPad_failAt (s : State) (p : Pad) : (s.setPad p).failAt = s.failAt := rfl
@[simp] theorem State.setPad_retiredLines (s : State) (p : Pad) : (s.setPad p).retiredLines = s.retiredLines := rfl
@[simp] theorem State.setPad_spared (s : State) (p : Pad) : (s.setPad p).spared = s.spared := rfl
@[simp] theorem State.setPad_retiredFrames (s : State) (p : Pad) : (s.setPad p).retiredFrames = s.retiredFrames := rfl
@[simp] theorem State.setPad_pageCtrs (s : State) (p : Pad) : (s.setPad p).pageCtrs = s.pageCtrs := rfl
@[simp] theorem State.setPad_moves (s : State) (p : Pad) : (s.setPad p).moves = s.moves := rfl
@[simp] theorem State.setPad_relNo (s : State) (p : Pad) : (s.setPad p).relNo = s.relNo := rfl
@[simp] theorem State.setPad_applied (s : State) (p : Pad) : (s.setPad p).applied = s.applied := rfl
@[simp] theorem State.setPad_msgs (s : State) (p : Pad) : (s.setPad p).msgs = s.msgs := rfl
@[simp] theorem State.setPad_stamps (s : State) (p : Pad) : (s.setPad p).stamps = s.stamps := rfl
@[simp] theorem State.setPad_marked (s : State) (p : Pad) : (s.setPad p).marked = s.marked := rfl
@[simp] theorem State.setPad_held (s : State) (p : Pad) : (s.setPad p).held = s.held := rfl
@[simp] theorem State.setPad_silent (s : State) (p : Pad) : (s.setPad p).silent = s.silent := rfl
@[simp] theorem State.setPad_expired (s : State) (p : Pad) : (s.setPad p).expired = s.expired := rfl
@[simp] theorem State.setPad_links (s : State) (p : Pad) : (s.setPad p).links = s.links := rfl
@[simp] theorem State.setPad_images (s : State) (p : Pad) : (s.setPad p).images = s.images := rfl
@[simp] theorem State.setPad_trPend (s : State) (p : Pad) : (s.setPad p).trPend = s.trPend := rfl
@[simp] theorem State.setPad_trHeld (s : State) (p : Pad) : (s.setPad p).trHeld = s.trHeld := rfl
@[simp] theorem State.setPad_trHoldSince (s : State) (p : Pad) : (s.setPad p).trHoldSince = s.trHoldSince := rfl
@[simp] theorem State.setPad_trGap (s : State) (p : Pad) : (s.setPad p).trGap = s.trGap := rfl
@[simp] theorem State.setPad_trGapAt (s : State) (p : Pad) : (s.setPad p).trGapAt = s.trGapAt := rfl
@[simp] theorem State.setPad_wbFailed (s : State) (p : Pad) : (s.setPad p).wbFailed = s.wbFailed := rfl
@[simp] theorem State.setPad_stands (s : State) (p : Pad) : (s.setPad p).stands = s.stands := rfl
@[simp] theorem State.setPad_collected (s : State) (p : Pad) : (s.setPad p).collected = s.collected := rfl
@[simp] theorem State.setPad_created (s : State) (p : Pad) : (s.setPad p).created = s.created := rfl
@[simp] theorem State.setPad_rot (s : State) (p : Pad) : (s.setPad p).rot = s.rot := rfl
@[simp] theorem State.setPad_spdm (s : State) (p : Pad) : (s.setPad p).spdm = s.spdm := rfl
@[simp] theorem State.setPad_roce (s : State) (p : Pad) : (s.setPad p).roce = s.roce := rfl
@[simp] theorem State.setPad_readout (s : State) (p : Pad) : (s.setPad p).readout = s.readout := rfl
@[simp] theorem State.setPad_frozen (s : State) (p : Pad) : (s.setPad p).frozen = s.frozen := rfl
@[simp] theorem State.setPad_clk (s : State) (p : Pad) : (s.setPad p).clk = s.clk := rfl
@[simp] theorem State.setPad_free (s : State) (p : Pad) : (s.setPad p).free = s.free := rfl

/-! ### `setQueue` of the state -/

@[simp] theorem State.setQueue_cur (s : State) (q : BitVec 8) (k : Queue) : (s.setQueue q k).cur = s.cur := rfl
@[simp] theorem State.setQueue_others (s : State) (q : BitVec 8) (k : Queue) : (s.setQueue q k).others = s.others := rfl
@[simp] theorem State.setQueue_turns (s : State) (q : BitVec 8) (k : Queue) : (s.setQueue q k).turns = s.turns := rfl
@[simp] theorem State.setQueue_inputs (s : State) (q : BitVec 8) (k : Queue) : (s.setQueue q k).inputs = s.inputs := rfl
@[simp] theorem State.setQueue_mem (s : State) (q : BitVec 8) (k : Queue) : (s.setQueue q k).mem = s.mem := rfl
@[simp] theorem State.setQueue_hostMem (s : State) (q : BitVec 8) (k : Queue) : (s.setQueue q k).hostMem = s.hostMem := rfl
@[simp] theorem State.setQueue_pads (s : State) (q : BitVec 8) (k : Queue) : (s.setQueue q k).pads = s.pads := rfl
@[simp] theorem State.setQueue_codeMap (s : State) (q : BitVec 8) (k : Queue) : (s.setQueue q k).codeMap = s.codeMap := rfl
@[simp] theorem State.setQueue_ipad (s : State) (q : BitVec 8) (k : Queue) : (s.setQueue q k).ipad = s.ipad := rfl
@[simp] theorem State.setQueue_loads (s : State) (q : BitVec 8) (k : Queue) : (s.setQueue q k).loads = s.loads := rfl
@[simp] theorem State.setQueue_ldq (s : State) (q : BitVec 8) (k : Queue) : (s.setQueue q k).ldq = s.ldq := rfl
@[simp] theorem State.setQueue_loading (s : State) (q : BitVec 8) (k : Queue) : (s.setQueue q k).loading = s.loading := rfl
@[simp] theorem State.setQueue_gangs (s : State) (q : BitVec 8) (k : Queue) : (s.setQueue q k).gangs = s.gangs := rfl
@[simp] theorem State.setQueue_nextGang (s : State) (q : BitVec 8) (k : Queue) : (s.setQueue q k).nextGang = s.nextGang := rfl
@[simp] theorem State.setQueue_queues (s : State) (q : BitVec 8) (k : Queue) : (s.setQueue q k).queues = s.queues.set q.toNat k q.isLt := rfl
@[simp] theorem State.setQueue_lastQ (s : State) (q : BitVec 8) (k : Queue) : (s.setQueue q k).lastQ = s.lastQ := rfl
@[simp] theorem State.setQueue_irqs (s : State) (q : BitVec 8) (k : Queue) : (s.setQueue q k).irqs = s.irqs := rfl
@[simp] theorem State.setQueue_hostIrqs (s : State) (q : BitVec 8) (k : Queue) : (s.setQueue q k).hostIrqs = s.hostIrqs := rfl
@[simp] theorem State.setQueue_lastCuts (s : State) (q : BitVec 8) (k : Queue) : (s.setQueue q k).lastCuts = s.lastCuts := rfl
@[simp] theorem State.setQueue_mg (s : State) (q : BitVec 8) (k : Queue) : (s.setQueue q k).mg = s.mg := rfl
@[simp] theorem State.setQueue_feat (s : State) (q : BitVec 8) (k : Queue) : (s.setQueue q k).feat = s.feat := rfl
@[simp] theorem State.setQueue_die (s : State) (q : BitVec 8) (k : Queue) : (s.setQueue q k).die = s.die := rfl
@[simp] theorem State.setQueue_pkg (s : State) (q : BitVec 8) (k : Queue) : (s.setQueue q k).pkg = s.pkg := rfl
@[simp] theorem State.setQueue_straps (s : State) (q : BitVec 8) (k : Queue) : (s.setQueue q k).straps = s.straps := rfl
@[simp] theorem State.setQueue_peers (s : State) (q : BitVec 8) (k : Queue) : (s.setQueue q k).peers = s.peers := rfl
@[simp] theorem State.setQueue_farPorts (s : State) (q : BitVec 8) (k : Queue) : (s.setQueue q k).farPorts = s.farPorts := rfl
@[simp] theorem State.setQueue_frameOwner (s : State) (q : BitVec 8) (k : Queue) : (s.setQueue q k).frameOwner = s.frameOwner := rfl
@[simp] theorem State.setQueue_seals (s : State) (q : BitVec 8) (k : Queue) : (s.setQueue q k).seals = s.seals := rfl
@[simp] theorem State.setQueue_lineTags (s : State) (q : BitVec 8) (k : Queue) : (s.setQueue q k).lineTags = s.lineTags := rfl
@[simp] theorem State.setQueue_badSectors (s : State) (q : BitVec 8) (k : Queue) : (s.setQueue q k).badSectors = s.badSectors := rfl
@[simp] theorem State.setQueue_badPads (s : State) (q : BitVec 8) (k : Queue) : (s.setQueue q k).badPads = s.badPads := rfl
@[simp] theorem State.setQueue_corr (s : State) (q : BitVec 8) (k : Queue) : (s.setQueue q k).corr = s.corr := rfl
@[simp] theorem State.setQueue_failAt (s : State) (q : BitVec 8) (k : Queue) : (s.setQueue q k).failAt = s.failAt := rfl
@[simp] theorem State.setQueue_retiredLines (s : State) (q : BitVec 8) (k : Queue) : (s.setQueue q k).retiredLines = s.retiredLines := rfl
@[simp] theorem State.setQueue_spared (s : State) (q : BitVec 8) (k : Queue) : (s.setQueue q k).spared = s.spared := rfl
@[simp] theorem State.setQueue_retiredFrames (s : State) (q : BitVec 8) (k : Queue) : (s.setQueue q k).retiredFrames = s.retiredFrames := rfl
@[simp] theorem State.setQueue_pageCtrs (s : State) (q : BitVec 8) (k : Queue) : (s.setQueue q k).pageCtrs = s.pageCtrs := rfl
@[simp] theorem State.setQueue_moves (s : State) (q : BitVec 8) (k : Queue) : (s.setQueue q k).moves = s.moves := rfl
@[simp] theorem State.setQueue_relNo (s : State) (q : BitVec 8) (k : Queue) : (s.setQueue q k).relNo = s.relNo := rfl
@[simp] theorem State.setQueue_applied (s : State) (q : BitVec 8) (k : Queue) : (s.setQueue q k).applied = s.applied := rfl
@[simp] theorem State.setQueue_msgs (s : State) (q : BitVec 8) (k : Queue) : (s.setQueue q k).msgs = s.msgs := rfl
@[simp] theorem State.setQueue_stamps (s : State) (q : BitVec 8) (k : Queue) : (s.setQueue q k).stamps = s.stamps := rfl
@[simp] theorem State.setQueue_marked (s : State) (q : BitVec 8) (k : Queue) : (s.setQueue q k).marked = s.marked := rfl
@[simp] theorem State.setQueue_held (s : State) (q : BitVec 8) (k : Queue) : (s.setQueue q k).held = s.held := rfl
@[simp] theorem State.setQueue_silent (s : State) (q : BitVec 8) (k : Queue) : (s.setQueue q k).silent = s.silent := rfl
@[simp] theorem State.setQueue_expired (s : State) (q : BitVec 8) (k : Queue) : (s.setQueue q k).expired = s.expired := rfl
@[simp] theorem State.setQueue_links (s : State) (q : BitVec 8) (k : Queue) : (s.setQueue q k).links = s.links := rfl
@[simp] theorem State.setQueue_images (s : State) (q : BitVec 8) (k : Queue) : (s.setQueue q k).images = s.images := rfl
@[simp] theorem State.setQueue_trPend (s : State) (q : BitVec 8) (k : Queue) : (s.setQueue q k).trPend = s.trPend := rfl
@[simp] theorem State.setQueue_trHeld (s : State) (q : BitVec 8) (k : Queue) : (s.setQueue q k).trHeld = s.trHeld := rfl
@[simp] theorem State.setQueue_trHoldSince (s : State) (q : BitVec 8) (k : Queue) : (s.setQueue q k).trHoldSince = s.trHoldSince := rfl
@[simp] theorem State.setQueue_trGap (s : State) (q : BitVec 8) (k : Queue) : (s.setQueue q k).trGap = s.trGap := rfl
@[simp] theorem State.setQueue_trGapAt (s : State) (q : BitVec 8) (k : Queue) : (s.setQueue q k).trGapAt = s.trGapAt := rfl
@[simp] theorem State.setQueue_wbFailed (s : State) (q : BitVec 8) (k : Queue) : (s.setQueue q k).wbFailed = s.wbFailed := rfl
@[simp] theorem State.setQueue_stands (s : State) (q : BitVec 8) (k : Queue) : (s.setQueue q k).stands = s.stands := rfl
@[simp] theorem State.setQueue_collected (s : State) (q : BitVec 8) (k : Queue) : (s.setQueue q k).collected = s.collected := rfl
@[simp] theorem State.setQueue_created (s : State) (q : BitVec 8) (k : Queue) : (s.setQueue q k).created = s.created := rfl
@[simp] theorem State.setQueue_rot (s : State) (q : BitVec 8) (k : Queue) : (s.setQueue q k).rot = s.rot := rfl
@[simp] theorem State.setQueue_spdm (s : State) (q : BitVec 8) (k : Queue) : (s.setQueue q k).spdm = s.spdm := rfl
@[simp] theorem State.setQueue_roce (s : State) (q : BitVec 8) (k : Queue) : (s.setQueue q k).roce = s.roce := rfl
@[simp] theorem State.setQueue_readout (s : State) (q : BitVec 8) (k : Queue) : (s.setQueue q k).readout = s.readout := rfl
@[simp] theorem State.setQueue_frozen (s : State) (q : BitVec 8) (k : Queue) : (s.setQueue q k).frozen = s.frozen := rfl
@[simp] theorem State.setQueue_clk (s : State) (q : BitVec 8) (k : Queue) : (s.setQueue q k).clk = s.clk := rfl
@[simp] theorem State.setQueue_free (s : State) (q : BitVec 8) (k : Queue) : (s.setQueue q k).free = s.free := rfl

/-! ### `awaited` of the state -/

@[simp] theorem State.awaited_cur (s : State) (l : List (BitVec 5)) : (s.awaited l).cur = s.cur.await l := rfl
@[simp] theorem State.awaited_others (s : State) (l : List (BitVec 5)) : (s.awaited l).others = s.others := rfl
@[simp] theorem State.awaited_turns (s : State) (l : List (BitVec 5)) : (s.awaited l).turns = s.turns := rfl
@[simp] theorem State.awaited_inputs (s : State) (l : List (BitVec 5)) : (s.awaited l).inputs = s.inputs := rfl
@[simp] theorem State.awaited_mem (s : State) (l : List (BitVec 5)) : (s.awaited l).mem = s.mem := rfl
@[simp] theorem State.awaited_hostMem (s : State) (l : List (BitVec 5)) : (s.awaited l).hostMem = s.hostMem := rfl
@[simp] theorem State.awaited_pads (s : State) (l : List (BitVec 5)) : (s.awaited l).pads = s.pads := rfl
@[simp] theorem State.awaited_codeMap (s : State) (l : List (BitVec 5)) : (s.awaited l).codeMap = s.codeMap := rfl
@[simp] theorem State.awaited_ipad (s : State) (l : List (BitVec 5)) : (s.awaited l).ipad = s.ipad := rfl
@[simp] theorem State.awaited_loads (s : State) (l : List (BitVec 5)) : (s.awaited l).loads = s.loads := rfl
@[simp] theorem State.awaited_ldq (s : State) (l : List (BitVec 5)) : (s.awaited l).ldq = s.ldq := rfl
@[simp] theorem State.awaited_loading (s : State) (l : List (BitVec 5)) : (s.awaited l).loading = s.loading := rfl
@[simp] theorem State.awaited_gangs (s : State) (l : List (BitVec 5)) : (s.awaited l).gangs = s.gangs := rfl
@[simp] theorem State.awaited_nextGang (s : State) (l : List (BitVec 5)) : (s.awaited l).nextGang = s.nextGang := rfl
@[simp] theorem State.awaited_queues (s : State) (l : List (BitVec 5)) : (s.awaited l).queues = s.queues := rfl
@[simp] theorem State.awaited_lastQ (s : State) (l : List (BitVec 5)) : (s.awaited l).lastQ = s.lastQ := rfl
@[simp] theorem State.awaited_irqs (s : State) (l : List (BitVec 5)) : (s.awaited l).irqs = s.irqs := rfl
@[simp] theorem State.awaited_hostIrqs (s : State) (l : List (BitVec 5)) : (s.awaited l).hostIrqs = s.hostIrqs := rfl
@[simp] theorem State.awaited_lastCuts (s : State) (l : List (BitVec 5)) : (s.awaited l).lastCuts = s.lastCuts := rfl
@[simp] theorem State.awaited_mg (s : State) (l : List (BitVec 5)) : (s.awaited l).mg = s.mg := rfl
@[simp] theorem State.awaited_feat (s : State) (l : List (BitVec 5)) : (s.awaited l).feat = s.feat := rfl
@[simp] theorem State.awaited_die (s : State) (l : List (BitVec 5)) : (s.awaited l).die = s.die := rfl
@[simp] theorem State.awaited_pkg (s : State) (l : List (BitVec 5)) : (s.awaited l).pkg = s.pkg := rfl
@[simp] theorem State.awaited_straps (s : State) (l : List (BitVec 5)) : (s.awaited l).straps = s.straps := rfl
@[simp] theorem State.awaited_peers (s : State) (l : List (BitVec 5)) : (s.awaited l).peers = s.peers := rfl
@[simp] theorem State.awaited_farPorts (s : State) (l : List (BitVec 5)) : (s.awaited l).farPorts = s.farPorts := rfl
@[simp] theorem State.awaited_frameOwner (s : State) (l : List (BitVec 5)) : (s.awaited l).frameOwner = s.frameOwner := rfl
@[simp] theorem State.awaited_seals (s : State) (l : List (BitVec 5)) : (s.awaited l).seals = s.seals := rfl
@[simp] theorem State.awaited_lineTags (s : State) (l : List (BitVec 5)) : (s.awaited l).lineTags = s.lineTags := rfl
@[simp] theorem State.awaited_badSectors (s : State) (l : List (BitVec 5)) : (s.awaited l).badSectors = s.badSectors := rfl
@[simp] theorem State.awaited_badPads (s : State) (l : List (BitVec 5)) : (s.awaited l).badPads = s.badPads := rfl
@[simp] theorem State.awaited_corr (s : State) (l : List (BitVec 5)) : (s.awaited l).corr = s.corr := rfl
@[simp] theorem State.awaited_failAt (s : State) (l : List (BitVec 5)) : (s.awaited l).failAt = s.failAt := rfl
@[simp] theorem State.awaited_retiredLines (s : State) (l : List (BitVec 5)) : (s.awaited l).retiredLines = s.retiredLines := rfl
@[simp] theorem State.awaited_spared (s : State) (l : List (BitVec 5)) : (s.awaited l).spared = s.spared := rfl
@[simp] theorem State.awaited_retiredFrames (s : State) (l : List (BitVec 5)) : (s.awaited l).retiredFrames = s.retiredFrames := rfl
@[simp] theorem State.awaited_pageCtrs (s : State) (l : List (BitVec 5)) : (s.awaited l).pageCtrs = s.pageCtrs := rfl
@[simp] theorem State.awaited_moves (s : State) (l : List (BitVec 5)) : (s.awaited l).moves = s.moves := rfl
@[simp] theorem State.awaited_relNo (s : State) (l : List (BitVec 5)) : (s.awaited l).relNo = s.relNo := rfl
@[simp] theorem State.awaited_applied (s : State) (l : List (BitVec 5)) : (s.awaited l).applied = s.applied := rfl
@[simp] theorem State.awaited_msgs (s : State) (l : List (BitVec 5)) : (s.awaited l).msgs = s.msgs := rfl
@[simp] theorem State.awaited_stamps (s : State) (l : List (BitVec 5)) : (s.awaited l).stamps = s.stamps := rfl
@[simp] theorem State.awaited_marked (s : State) (l : List (BitVec 5)) : (s.awaited l).marked = s.marked := rfl
@[simp] theorem State.awaited_held (s : State) (l : List (BitVec 5)) : (s.awaited l).held = s.held := rfl
@[simp] theorem State.awaited_silent (s : State) (l : List (BitVec 5)) : (s.awaited l).silent = s.silent := rfl
@[simp] theorem State.awaited_expired (s : State) (l : List (BitVec 5)) : (s.awaited l).expired = s.expired := rfl
@[simp] theorem State.awaited_links (s : State) (l : List (BitVec 5)) : (s.awaited l).links = s.links := rfl
@[simp] theorem State.awaited_images (s : State) (l : List (BitVec 5)) : (s.awaited l).images = s.images := rfl
@[simp] theorem State.awaited_trPend (s : State) (l : List (BitVec 5)) : (s.awaited l).trPend = s.trPend := rfl
@[simp] theorem State.awaited_trHeld (s : State) (l : List (BitVec 5)) : (s.awaited l).trHeld = s.trHeld := rfl
@[simp] theorem State.awaited_trHoldSince (s : State) (l : List (BitVec 5)) : (s.awaited l).trHoldSince = s.trHoldSince := rfl
@[simp] theorem State.awaited_trGap (s : State) (l : List (BitVec 5)) : (s.awaited l).trGap = s.trGap := rfl
@[simp] theorem State.awaited_trGapAt (s : State) (l : List (BitVec 5)) : (s.awaited l).trGapAt = s.trGapAt := rfl
@[simp] theorem State.awaited_wbFailed (s : State) (l : List (BitVec 5)) : (s.awaited l).wbFailed = s.wbFailed := rfl
@[simp] theorem State.awaited_stands (s : State) (l : List (BitVec 5)) : (s.awaited l).stands = s.stands := rfl
@[simp] theorem State.awaited_collected (s : State) (l : List (BitVec 5)) : (s.awaited l).collected = s.collected := rfl
@[simp] theorem State.awaited_created (s : State) (l : List (BitVec 5)) : (s.awaited l).created = s.created := rfl
@[simp] theorem State.awaited_rot (s : State) (l : List (BitVec 5)) : (s.awaited l).rot = s.rot := rfl
@[simp] theorem State.awaited_spdm (s : State) (l : List (BitVec 5)) : (s.awaited l).spdm = s.spdm := rfl
@[simp] theorem State.awaited_roce (s : State) (l : List (BitVec 5)) : (s.awaited l).roce = s.roce := rfl
@[simp] theorem State.awaited_readout (s : State) (l : List (BitVec 5)) : (s.awaited l).readout = s.readout := rfl
@[simp] theorem State.awaited_frozen (s : State) (l : List (BitVec 5)) : (s.awaited l).frozen = s.frozen := rfl
@[simp] theorem State.awaited_clk (s : State) (l : List (BitVec 5)) : (s.awaited l).clk = s.clk + (s.cur.issueAt l - s.cur.ccy) := rfl
@[simp] theorem State.awaited_free (s : State) (l : List (BitVec 5)) : (s.awaited l).free = s.free := rfl

/-! ### `finish` of the state -/

@[simp] theorem State.finish_cur (s : State) (fl : Flow) (t : Timing) : (s.finish fl t).cur = (s.cur.spend t).finish fl := rfl
@[simp] theorem State.finish_others (s : State) (fl : Flow) (t : Timing) : (s.finish fl t).others = s.others := rfl
@[simp] theorem State.finish_turns (s : State) (fl : Flow) (t : Timing) : (s.finish fl t).turns = s.turns := rfl
@[simp] theorem State.finish_inputs (s : State) (fl : Flow) (t : Timing) : (s.finish fl t).inputs = s.inputs := rfl
@[simp] theorem State.finish_mem (s : State) (fl : Flow) (t : Timing) : (s.finish fl t).mem = s.mem := rfl
@[simp] theorem State.finish_hostMem (s : State) (fl : Flow) (t : Timing) : (s.finish fl t).hostMem = s.hostMem := rfl
@[simp] theorem State.finish_pads (s : State) (fl : Flow) (t : Timing) : (s.finish fl t).pads = s.pads := rfl
@[simp] theorem State.finish_codeMap (s : State) (fl : Flow) (t : Timing) : (s.finish fl t).codeMap = s.codeMap := rfl
@[simp] theorem State.finish_ipad (s : State) (fl : Flow) (t : Timing) : (s.finish fl t).ipad = s.ipad := rfl
@[simp] theorem State.finish_loads (s : State) (fl : Flow) (t : Timing) : (s.finish fl t).loads = s.loads := rfl
@[simp] theorem State.finish_ldq (s : State) (fl : Flow) (t : Timing) : (s.finish fl t).ldq = s.ldq := rfl
@[simp] theorem State.finish_loading (s : State) (fl : Flow) (t : Timing) : (s.finish fl t).loading = s.loading := rfl
@[simp] theorem State.finish_gangs (s : State) (fl : Flow) (t : Timing) : (s.finish fl t).gangs = s.gangs := rfl
@[simp] theorem State.finish_nextGang (s : State) (fl : Flow) (t : Timing) : (s.finish fl t).nextGang = s.nextGang := rfl
@[simp] theorem State.finish_queues (s : State) (fl : Flow) (t : Timing) : (s.finish fl t).queues = s.queues := rfl
@[simp] theorem State.finish_lastQ (s : State) (fl : Flow) (t : Timing) : (s.finish fl t).lastQ = s.lastQ := rfl
@[simp] theorem State.finish_irqs (s : State) (fl : Flow) (t : Timing) : (s.finish fl t).irqs = s.irqs := rfl
@[simp] theorem State.finish_hostIrqs (s : State) (fl : Flow) (t : Timing) : (s.finish fl t).hostIrqs = s.hostIrqs := rfl
@[simp] theorem State.finish_lastCuts (s : State) (fl : Flow) (t : Timing) : (s.finish fl t).lastCuts = s.lastCuts := rfl
@[simp] theorem State.finish_mg (s : State) (fl : Flow) (t : Timing) : (s.finish fl t).mg = s.mg := rfl
@[simp] theorem State.finish_feat (s : State) (fl : Flow) (t : Timing) : (s.finish fl t).feat = s.feat := rfl
@[simp] theorem State.finish_die (s : State) (fl : Flow) (t : Timing) : (s.finish fl t).die = s.die := rfl
@[simp] theorem State.finish_pkg (s : State) (fl : Flow) (t : Timing) : (s.finish fl t).pkg = s.pkg := rfl
@[simp] theorem State.finish_straps (s : State) (fl : Flow) (t : Timing) : (s.finish fl t).straps = s.straps := rfl
@[simp] theorem State.finish_peers (s : State) (fl : Flow) (t : Timing) : (s.finish fl t).peers = s.peers := rfl
@[simp] theorem State.finish_farPorts (s : State) (fl : Flow) (t : Timing) : (s.finish fl t).farPorts = s.farPorts := rfl
@[simp] theorem State.finish_frameOwner (s : State) (fl : Flow) (t : Timing) : (s.finish fl t).frameOwner = s.frameOwner := rfl
@[simp] theorem State.finish_seals (s : State) (fl : Flow) (t : Timing) : (s.finish fl t).seals = s.seals := rfl
@[simp] theorem State.finish_lineTags (s : State) (fl : Flow) (t : Timing) : (s.finish fl t).lineTags = s.lineTags := rfl
@[simp] theorem State.finish_badSectors (s : State) (fl : Flow) (t : Timing) : (s.finish fl t).badSectors = s.badSectors := rfl
@[simp] theorem State.finish_badPads (s : State) (fl : Flow) (t : Timing) : (s.finish fl t).badPads = s.badPads := rfl
@[simp] theorem State.finish_corr (s : State) (fl : Flow) (t : Timing) : (s.finish fl t).corr = s.corr := rfl
@[simp] theorem State.finish_failAt (s : State) (fl : Flow) (t : Timing) : (s.finish fl t).failAt = s.failAt := rfl
@[simp] theorem State.finish_retiredLines (s : State) (fl : Flow) (t : Timing) : (s.finish fl t).retiredLines = s.retiredLines := rfl
@[simp] theorem State.finish_spared (s : State) (fl : Flow) (t : Timing) : (s.finish fl t).spared = s.spared := rfl
@[simp] theorem State.finish_retiredFrames (s : State) (fl : Flow) (t : Timing) : (s.finish fl t).retiredFrames = s.retiredFrames := rfl
@[simp] theorem State.finish_pageCtrs (s : State) (fl : Flow) (t : Timing) : (s.finish fl t).pageCtrs = s.pageCtrs := rfl
@[simp] theorem State.finish_moves (s : State) (fl : Flow) (t : Timing) : (s.finish fl t).moves = s.moves := rfl
@[simp] theorem State.finish_relNo (s : State) (fl : Flow) (t : Timing) : (s.finish fl t).relNo = s.relNo := rfl
@[simp] theorem State.finish_applied (s : State) (fl : Flow) (t : Timing) : (s.finish fl t).applied = s.applied := rfl
@[simp] theorem State.finish_msgs (s : State) (fl : Flow) (t : Timing) : (s.finish fl t).msgs = s.msgs := rfl
@[simp] theorem State.finish_stamps (s : State) (fl : Flow) (t : Timing) : (s.finish fl t).stamps = s.stamps := rfl
@[simp] theorem State.finish_marked (s : State) (fl : Flow) (t : Timing) : (s.finish fl t).marked = s.marked := rfl
@[simp] theorem State.finish_held (s : State) (fl : Flow) (t : Timing) : (s.finish fl t).held = s.held := rfl
@[simp] theorem State.finish_silent (s : State) (fl : Flow) (t : Timing) : (s.finish fl t).silent = s.silent := rfl
@[simp] theorem State.finish_expired (s : State) (fl : Flow) (t : Timing) : (s.finish fl t).expired = s.expired := rfl
@[simp] theorem State.finish_links (s : State) (fl : Flow) (t : Timing) : (s.finish fl t).links = s.links := rfl
@[simp] theorem State.finish_images (s : State) (fl : Flow) (t : Timing) : (s.finish fl t).images = s.images := rfl
@[simp] theorem State.finish_trPend (s : State) (fl : Flow) (t : Timing) : (s.finish fl t).trPend = s.trPend := rfl
@[simp] theorem State.finish_trHeld (s : State) (fl : Flow) (t : Timing) : (s.finish fl t).trHeld = s.trHeld := rfl
@[simp] theorem State.finish_trHoldSince (s : State) (fl : Flow) (t : Timing) : (s.finish fl t).trHoldSince = s.trHoldSince := rfl
@[simp] theorem State.finish_trGap (s : State) (fl : Flow) (t : Timing) : (s.finish fl t).trGap = s.trGap := rfl
@[simp] theorem State.finish_trGapAt (s : State) (fl : Flow) (t : Timing) : (s.finish fl t).trGapAt = s.trGapAt := rfl
@[simp] theorem State.finish_wbFailed (s : State) (fl : Flow) (t : Timing) : (s.finish fl t).wbFailed = s.wbFailed := rfl
@[simp] theorem State.finish_stands (s : State) (fl : Flow) (t : Timing) : (s.finish fl t).stands = s.stands := rfl
@[simp] theorem State.finish_collected (s : State) (fl : Flow) (t : Timing) : (s.finish fl t).collected = s.collected := rfl
@[simp] theorem State.finish_created (s : State) (fl : Flow) (t : Timing) : (s.finish fl t).created = s.created := rfl
@[simp] theorem State.finish_rot (s : State) (fl : Flow) (t : Timing) : (s.finish fl t).rot = s.rot := rfl
@[simp] theorem State.finish_spdm (s : State) (fl : Flow) (t : Timing) : (s.finish fl t).spdm = s.spdm := rfl
@[simp] theorem State.finish_roce (s : State) (fl : Flow) (t : Timing) : (s.finish fl t).roce = s.roce := rfl
@[simp] theorem State.finish_readout (s : State) (fl : Flow) (t : Timing) : (s.finish fl t).readout = s.readout := rfl
@[simp] theorem State.finish_frozen (s : State) (fl : Flow) (t : Timing) : (s.finish fl t).frozen = s.frozen := rfl
@[simp] theorem State.finish_clk (s : State) (fl : Flow) (t : Timing) : (s.finish fl t).clk = s.clk + t.issue := rfl
@[simp] theorem State.finish_free (s : State) (fl : Flow) (t : Timing) : (s.finish fl t).free = s.free := rfl

end Sys2Proof.Machine
end

