-- ==== Sys2Proof/Laws/Ops.lean ====
section
/-! SUPPORT. What the shared operations do, said once: the checks of R60, an instruction word that ends and one that traps, the
registers that discard writes, and what a word of one register result leaves. -/

set_option Elab.async false

namespace Sys2Proof.Machine

/-! ### Registers (R22) -/

theorem getX_setX (c : LCore) (d r : BitVec 5) (v : W64) :
    (c.setX d v).getX r = if r = d ∧ d ≠ 0 then v else c.getX r := by
  by_cases hr : r = 0
  · rw [if_neg (fun h : r = d ∧ d ≠ 0 => h.2 (h.1 ▸ hr))]; simp only [LCore.getX, hr, if_true]
  · simp only [LCore.setX, LCore.getX, if_neg hr]
    by_cases hd : d = 0
    · simp only [hd, if_true, ne_eq, not_true_eq_false, and_false, if_false]
    · simp only [if_neg hd]
      show (c.x.set d.toNat v d.isLt)[r.toNat]'r.isLt = if r = d ∧ d ≠ 0 then v else c.x[r.toNat]'r.isLt
      rw [Vector.getElem_set]
      by_cases e : r = d
      · rw [if_pos (e ▸ rfl), if_pos ⟨e, hd⟩]
      · rw [if_neg (fun h => e (BitVec.eq_of_toNat_eq h.symm)), if_neg (fun h : r = d ∧ d ≠ 0 => e h.1)]

theorem getX_congr {c c' : LCore} (h : c.x = c'.x) (r : BitVec 5) : c.getX r = c'.getX r := by
  simp only [LCore.getX, h]

theorem getX_zero (c : LCore) : c.getX 0 = 0 := rfl
theorem setX_zero (c : LCore) (v : W64) : c.setX 0 v = c := rfl
theorem getM_zero (c : LCore) : c.getM 0 = BitVec.allOnes 64 := rfl
theorem setM_zero (c : LCore) (v : W64) : c.setM 0 v = c := rfl

/-- Reading after writing one of the registers that a vector holds. -/
theorem get_set_eq {α : Type} {n : Nat} (l : Vector α n) (i j : Nat) (hi : i < n) (hj : j < n) (v : α) :
    (l.set i v hi)[j]'hj = if i = j then v else l[j]'hj := Vector.getElem_set ..

theorem getP_setP (c : LCore) (d r : BitVec 4) (v : PtrReg) : (c.setP d v).getP r = if r = d then v else c.getP r := by
  show (c.p.set d.toNat v d.isLt)[r.toNat]'r.isLt = if r = d then v else c.p[r.toNat]'r.isLt
  rw [get_set_eq]
  by_cases e : r = d
  · rw [if_pos (e ▸ rfl), if_pos e]
  · rw [if_neg (fun h => e (BitVec.eq_of_toNat_eq h.symm)), if_neg e]

theorem getV_setV (c : LCore) (d r : BitVec 5) (v : VWord) : (c.setV d v).getV r = if r = d then v else c.getV r := by
  show (c.v.set d.toNat v d.isLt)[r.toNat]'r.isLt = if r = d then v else c.v[r.toNat]'r.isLt
  rw [get_set_eq]
  by_cases e : r = d
  · rw [if_pos (e ▸ rfl), if_pos e]
  · rw [if_neg (fun h => e (BitVec.eq_of_toNat_eq h.symm)), if_neg e]

theorem getK_setK (c : LCore) (d r : BitVec 2) (v : Carry) : (c.setK d v).getK r = if r = d then v else c.getK r := by
  show (c.k.set d.toNat v d.isLt)[r.toNat]'r.isLt = if r = d then v else c.k[r.toNat]'r.isLt
  rw [get_set_eq]
  by_cases e : r = d
  · rw [if_pos (e ▸ rfl), if_pos e]
  · rw [if_neg (fun h => e (BitVec.eq_of_toNat_eq h.symm)), if_neg e]

theorem getA_setA (c : LCore) (d r : BitVec 2) (v : Acc) : (c.setA d v).getA r = if r = d then v else c.getA r := by
  show (c.acc.set d.toNat v d.isLt)[r.toNat]'r.isLt = if r = d then v else c.acc[r.toNat]'r.isLt
  rw [get_set_eq]
  by_cases e : r = d
  · rw [if_pos (e ▸ rfl), if_pos e]
  · rw [if_neg (fun h => e (BitVec.eq_of_toNat_eq h.symm)), if_neg e]

theorem getT_setT (c : LCore) (d r : BitVec 4) (v : Slot) : (c.setT d v).getT r = if r = d then v else c.getT r := by
  show (c.t.set d.toNat v d.isLt)[r.toNat]'r.isLt = if r = d then v else c.t[r.toNat]'r.isLt
  rw [get_set_eq]
  by_cases e : r = d
  · rw [if_pos (e ▸ rfl), if_pos e]
  · rw [if_neg (fun h => e (BitVec.eq_of_toNat_eq h.symm)), if_neg e]

/-! ### The checks of R60 and how a word ends -/

theorem await_passes (s : State) (l : List (BitVec 5)) (i : Instr) : (s.awaited l).passes i = s.passes i := rfl

theorem checkWord_ok {i : Instr} {s : State} (h : s.passes i = true) : checkWord i s = .ok () s := by
  simp only [State.passes, Bool.and_eq_true, beq_iff_eq, decide_eq_true_eq] at h
  obtain ⟨⟨⟨⟨h1, h2⟩, h3⟩, -⟩, -⟩ := h
  simp [checkWord, h1, h2, bind, EStateM.bind, get, getThe, MonadStateOf.get, EStateM.get, pure, EStateM.pure, Nat.not_lt.mpr h3]

theorem passes_queued {s : State} {i : Instr} (h : s.passes i = true) : s.cur.queued = false := by
  simp only [State.passes, Bool.and_eq_true, Bool.not_eq_true'] at h
  exact h.1.2

theorem passes_owing {s : State} {i : Instr} (h : s.passes i = true) : s.cur.owing = false := by
  simp only [State.passes, Bool.and_eq_true, Bool.not_eq_true'] at h
  exact h.2

/-- With nothing in the queue and no x register owed no word waits (R64, R65). -/
theorem stalled_of {c : LCore} (hq : c.queued = false) (ho : c.owing = false) (i : Instr) (l : List (BitVec 5)) :
    c.stalled i l = false := by
  rw [LCore.stalled, hq, Bool.false_and, Bool.or_false]
  by_contra h
  simp only [Bool.not_eq_false, Bool.and_eq_true, LCore.owes, List.any_eq_true, beq_iff_eq] at h
  obtain ⟨h1, r, hr, h2, x, -, hx⟩ := h
  apply Bool.eq_false_iff.mp ho
  simp only [LCore.owing, Bool.and_eq_true, List.any_eq_true]
  exact ⟨h1, r, hr, h2, by rw [hx]; rfl⟩

theorem passes_stalled {s : State} {i : Instr} (h : s.passes i = true) (j : Instr) (l : List (BitVec 5)) : s.cur.stalled j l = false :=
  stalled_of (passes_queued h) (passes_owing h) j l

/-- A word that passes and whose body ends. -/
theorem runWord_ok {i : Instr} {t : Timing} {body : Ex Flow} {s s' : State} {fl : Flow} (h : s.passes i = true)
    (hb : body (s.awaited t.uses) = .ok fl s') : runWord i t body s = .next (s'.finish fl t) := by
  rw [runWord, passes_stalled h, if_neg Bool.false_ne_true]
  simp only [bind, EStateM.bind, checkWord_ok (i := i) (s := s.awaited t.uses) (by rw [await_passes]; exact h)]
  rw [hb]

/-- A word that passes and whose body traps: what the body did is undone (R328). -/
theorem runWord_trap {i : Instr} {t : Timing} {body : Ex Flow} {s s' : State} {e : Exn} (h : s.passes i = true)
    (hb : body (s.awaited t.uses) = .error e s') : runWord i t body s = .next (((s.awaited t.uses).undone s').takeTrap e) := by
  have hq : (s.awaited t.uses).cur.queued = false := passes_queued h
  rw [runWord, passes_stalled h, if_neg Bool.false_ne_true]
  simp only [bind, EStateM.bind, checkWord_ok (i := i) (s := s.awaited t.uses) (by rw [await_passes]; exact h)]
  rw [hb]
  show Host.Outcome.next (State.trapFrom _ _ _) = _
  rw [State.trapFrom, hq, if_neg Bool.false_ne_true]

/-- Where the body has changed nothing there is nothing to undo. -/
theorem undone_self (s : State) : s.undone s = s := by
  rw [State.undone]
  split
  · rfl
  · rw [if_neg (by cases s.stands <;> exact Bool.false_ne_true), List.drop_length]
    dsimp only [State.recollect, List.foldl_nil]
    rw [if_neg]
    simp only [bne_self_eq_false, Bool.and_false, Bool.false_eq_true, not_false_eq_true]

/-- A word that passes and whose body traps before it has done anything. -/
theorem runWord_traps {i : Instr} {t : Timing} {body : Ex Flow} {s : State} {e : Exn} (h : s.passes i = true)
    (hb : body (s.awaited t.uses) = .error e (s.awaited t.uses)) : runWord i t body s = .next ((s.awaited t.uses).takeTrap e) := by
  rw [runWord_trap h hb, undone_self]

/-- A word always ends in a next state. -/
theorem runWord_next (i : Instr) (t : Timing) (body : Ex Flow) (s : State) : ∃ s', runWord i t body s = .next s' := by
  unfold runWord
  split
  · exact ⟨_, rfl⟩
  · dsimp only
    split
    · exact ⟨_, rfl⟩
    · exact ⟨_, rfl⟩

/-- While a coprocessor instruction waits in the queue, a word that neither waits for it nor reads what it writes runs on (R64). -/
theorem runWord_behind {i : Instr} {t : Timing} {body : Ex Flow} {s s' : State} {fl : Flow} (h : s.cur.stalled i t.uses = false)
    (hc : checkWord i (s.awaited t.uses) = .ok () (s.awaited t.uses)) (hb : body (s.awaited t.uses) = .ok fl s') :
    runWord i t body s = .next (s'.finish fl t) := by
  rw [runWord, h, if_neg Bool.false_ne_true]
  simp only [bind, EStateM.bind]
  rw [hc]
  simp only []
  rw [hb]

/-! ### One register result -/

/-- The registers after a word of one result. -/
theorem wrote_x (s : State) (l : List (BitVec 5)) (d : BitVec 5) (v : W64) (t : Timing) (r : BitVec 5) :
    (((s.awaited l).modCur (fun c => c.setX d v)).finish .seq t).cur.getX r = if r = d ∧ d ≠ 0 then v else s.cur.getX r := by
  rw [← getX_setX]
  apply getX_congr
  simp

theorem wrote_rest (s : State) (l : List (BitVec 5)) (d : BitVec 5) (v : W64) (t : Timing) (t' : State)
    (h : t' = ((s.awaited l).modCur (fun c => c.setX d v)).finish .seq t) :
    t' = { s with
      clk := t'.clk
      cur := { s.cur.passed with
        x := t'.cur.x, ccy := t'.cur.ccy, xrdy := t'.cur.xrdy, divFree := t'.cur.divFree } } := by
  subst h
  rfl

/-- A word that waits for its registers, writes one and goes on. -/
theorem wrote (s : State) (l : List (BitVec 5)) (d : BitVec 5) (v : W64) (t : Timing) :
    Wrote s d v (((s.awaited l).modCur (fun c => c.setX d v)).finish .seq t) :=
  ⟨fun r => wrote_x s l d v t r, wrote_rest s l d v t _ rfl⟩

/-! ### Words that write no register -/

/-- The state with other times. -/
def State.later (s : State) (clk ccy : Nat) : State := { s with clk := clk, cur := { s.cur with ccy := ccy } }

theorem awaited_later (s : State) (l : List (BitVec 5)) :
    s.awaited l = s.later (s.clk + (s.cur.issueAt l - s.cur.ccy)) (s.cur.issueAt l) := (rfl)

/-- A word without a result spends its issue cycles and nothing else. -/
theorem spend_none (c : LCore) {t : Timing} (h : t.dest = 0 ∨ t.lat ≤ t.issue) : c.spend t = { c with ccy := c.ccy + t.issue } := by
  rw [LCore.spend, if_pos h]

/-- A word in sequence without a result. -/
theorem advanced (s : State) (clk ccy : Nat) {t : Timing} (h : t.dest = 0 ∨ t.lat ≤ t.issue) :
    Advanced s ((s.later clk ccy).finish .seq t) := by
  rw [State.finish, spend_none _ h]
  exact (rfl)

/-- A word that ends at a target. -/
theorem moved (s : State) (clk ccy : Nat) (a : W64) {t : Timing} (h : t.dest = 0 ∨ t.lat ≤ t.issue) :
    Moved s a ((s.later clk ccy).finish (.jump a) t) := by
  rw [State.finish, spend_none _ h]
  exact (rfl)

/-- A word that writes a link and ends at a target. -/
theorem linked (u : State) (clk ccy : Nat) (d : BitVec 5) (v a : W64) (t : Timing) :
    Linked u d v a (((u.modCur (fun c => c.setX d v)).later clk ccy).finish (.jump a) t) := by
  refine ⟨fun r => ?_, (rfl)⟩
  rw [← getX_setX]
  exact getX_congr (rfl) r

end Sys2Proof.Machine
end

