-- ==== Sys2Proof/Laws/Run.lean ====
section
/-! SUPPORT. How the body of a meaning runs: one equation per primitive of the monad, to be used with `simp only`. -/

set_option Elab.async false

namespace Sys2Proof.Machine

variable {α β : Type}

theorem run_bind (m : Ex α) (f : α → Ex β) (s : State) :
    (m >>= f) s = match m s with | .ok a t => f a t | .error e t => .error e t := by
  show EStateM.bind m f s = _
  unfold EStateM.bind
  cases m s <;> rfl

/-- The first part of a sequence ends. -/
theorem run_bind_ok {m : Ex α} {f : α → Ex β} {s t : State} {a : α} (h : m s = .ok a t) : (m >>= f) s = f a t := by
  rw [run_bind, h]

/-- The first part of a sequence traps. -/
theorem run_bind_error {m : Ex α} {f : α → Ex β} {s t : State} {e : Exn} (h : m s = .error e t) : (m >>= f) s = .error e t := by
  rw [run_bind, h]

theorem run_pure (a : α) (s : State) : (pure a : Ex α) s = .ok a s := (rfl)
theorem run_get (s : State) : (get : Ex State) s = .ok s s := (rfl)
theorem run_set (t s : State) : (set t : Ex PUnit) s = .ok ⟨⟩ t := (rfl)
theorem run_modify (f : State → State) (s : State) : (modify f : Ex PUnit) s = .ok ⟨⟩ (f s) := (rfl)
theorem run_throw (e : Exn) (s : State) : (throw e : Ex α) s = .error e s := (rfl)
theorem run_cur (s : State) : cur s = .ok s.cur s := (rfl)
theorem run_modCur (f : LCore → LCore) (s : State) : modCur f s = .ok () (s.modCur f) := (rfl)
theorem run_rdX (r : BitVec 5) (s : State) : rdX r s = .ok (s.cur.getX r) s := (rfl)
theorem run_wrX (r : BitVec 5) (v : W64) (s : State) : wrX r v s = .ok () (s.modCur (fun c => c.setX r v)) := (rfl)
theorem run_rdP (r : BitVec 4) (s : State) : rdP r s = .ok (s.cur.getP r) s := (rfl)
theorem run_wrP (r : BitVec 4) (v : PtrReg) (s : State) : wrP r v s = .ok () (s.modCur (fun c => c.setP r v)) := (rfl)
theorem run_trapWith (c : BitVec 6) (a b : W64) (s : State) : (trapWith c a b : Ex α) s = .error ⟨c, a, b⟩ s := (rfl)
theorem run_spendMore (n : Nat) (s : State) : spendMore n s = .ok () (s.later (s.clk + n) (s.cur.ccy + n)) := (rfl)
theorem run_ite {b : Prop} {_ : Decidable b} (m n : Ex α) (s : State) : (if b then m else n : Ex α) s = if b then m s else n s := by
  split <;> rfl
theorem run_putX (d : BitVec 5) (f : LCore → W64) (s : State) :
    putX d f s = .ok .seq (s.modCur (fun c => c.setX d (f s.cur))) := (rfl)

/-- A choice whose condition holds, whatever instance decides it. -/
theorem run_if_pos {b : Prop} {_ : Decidable b} (h : b) (m n : Ex α) (s : State) : (if b then m else n : Ex α) s = m s := by rw [if_pos h]
theorem run_if_neg {b : Prop} {_ : Decidable b} (h : ¬b) (m n : Ex α) (s : State) : (if b then m else n : Ex α) s = n s := by rw [if_neg h]

/-- A pointer that is neither null nor malformed (R24). -/
theorem run_checkPtr {p : W64} {s : State} (h : p ≠ 0) (hm : ptrMalformed p = false) : checkPtr p s = .ok () s := by
  simp only [checkPtr, if_neg h, hm, Bool.false_eq_true, if_false]
  rfl

end Sys2Proof.Machine
end

