-- ==== Sys2Proof/Laws/Cop.lean ====
section
/-! SUPPORT. The coprocessor wrapper, said once: a word that meets nothing in its way is dispatched, does its work and completes;
and what its writes leave when they land. -/

set_option Elab.async false

namespace Sys2Proof.Machine

theorem LCore.clear_iff {c : LCore} : c.clear = true ↔
    c.pend = [] ∧ c.loads = [] ∧ c.late = none ∧ c.posts = [] ∧ c.handler = 0 ∧ c.frozenAt = none ∧ c.ringFull = false ∧
      max c.copNext (max c.vecFree c.matFree) ≤ c.ccy ∧
      ∀ r ∈ c.ring, r.state = .complete ∧ r.time < c.ccy ∧ r.seq ≠ c.nextSeq := by
  simp only [LCore.clear, Bool.and_eq_true, beq_iff_eq, Bool.not_eq_true', decide_eq_true_eq, List.all_eq_true, bne_iff_ne, ne_eq, and_assoc]

theorem issueAt_le (c : LCore) (l : List (BitVec 5)) : c.ccy ≤ c.issueAt l := by
  unfold LCore.issueAt
  generalize c.ccy = a
  induction l generalizing a with
  | nil => exact le_refl _
  | cons x l ih => exact le_trans (le_max_left _ _) (ih _)

theorem ringFull_await {c : LCore} (l : List (BitVec 5)) (h : c.ringFull = false) : (c.await l).ringFull = false := by
  have := issueAt_le c l
  simp only [LCore.ringFull, Bool.or_eq_false_iff, Bool.and_eq_false_iff, LCore.await_ring, LCore.await_ccy] at *
  refine ⟨h.1, h.2.imp_right (fun h2 => ?_)⟩
  cases hh : c.ring.head? with
  | none => rfl
  | some r =>
    rw [hh] at h2
    rw [Option.any_some, Bool.or_eq_false_iff] at h2 ⊢
    exact ⟨h2.1, decide_eq_false (fun h => of_decide_eq_false h2.2 (le_trans this h))⟩

/-- Waiting for registers puts nothing in the way. -/
theorem clear_await {c : LCore} (l : List (BitVec 5)) (h : c.clear = true) : (c.await l).clear = true := by
  have := issueAt_le c l
  obtain ⟨h1, h2, h3, h4, h5, h6, h7, h8, h9⟩ := LCore.clear_iff.mp h
  refine LCore.clear_iff.mpr ⟨h1, h2, h3, h4, h5, h6, ringFull_await l h7, le_trans h8 this, fun r hr => ?_⟩
  obtain ⟨g1, g2, g3⟩ := h9 r hr
  exact ⟨g1, lt_of_lt_of_le g2 this, g3⟩

/-- Nothing stands before a word on a coprocessor with nothing outstanding. -/
theorem flowing_clear {c : LCore} (h : c.clear = true) : c.flowing = true := by
  obtain ⟨-, -, -, h4, -, -, -, -, h9⟩ := LCore.clear_iff.mp h
  simp only [LCore.flowing, LCore.unfinished, h4, List.isEmpty_nil, Bool.true_and, List.isEmpty_iff, List.filter_eq_nil_iff, Bool.and_eq_true,
    bne_iff_ne, ne_eq, not_and]
  intro r hr hn
  exact absurd (h9 r hr).1 hn

theorem land_nil {c : LCore} (h : c.pend = []) (t : Nat) : c.land t = c := by
  cases c
  simp only [LCore.land] at *
  subst h
  rfl

/-- The entry just dispatched is the one its number finds. -/
theorem find_dispatched (l : List RingEntry) (r : RingEntry) (n : Nat) (hn : n ≤ l.length) (h : ∀ x ∈ l, x.seq ≠ r.seq) :
    ((l ++ [r]).drop n).find? (fun x => x.seq == r.seq) = some r := by
  rw [List.drop_append_of_le_length hn, List.find?_append]
  have : (l.drop n).find? (fun x => x.seq == r.seq) = none := by
    rw [List.find?_eq_none]
    intro x hx
    simpa using h x (List.mem_of_mem_drop hx)
  simp [this]

/-- Changing the entry of a number that only the last has. -/
theorem map_dispatched (l : List RingEntry) (r : RingEntry) (g : RingEntry → RingEntry) (n : Nat) (hn : n ≤ l.length) (h : ∀ x ∈ l, x.seq ≠ r.seq) :
    ((l ++ [r]).drop n).map (fun x => if x.seq == r.seq then g x else x) = (l ++ [g r]).drop n := by
  rw [List.drop_append_of_le_length hn, List.drop_append_of_le_length hn, List.map_append]
  congr 1
  · have hm : ∀ x ∈ l.drop n, (fun x : RingEntry => if x.seq == r.seq then g x else x) x = id x := by
      intro x hx
      have := h x (List.mem_of_mem_drop hx)
      simp [this]
    rw [List.map_congr_left hm, List.map_id]
  · simp

theorem dispatch_ok (i : Instr) (k : Capture) (s : State) :
    dispatch i k s = .ok s.cur.nextSeq (s.modCur (LCore.dispatched i k)) := rfl

/-- On a coprocessor with nothing outstanding no write lands as the entry starts. -/
theorem started_idle {c : LCore} (ci : Nat) (r : RingEntry) (h : c.pend = []) :
    c.started ci r = { c.setEntry r with copNext := ci + 1 } := by
  rw [LCore.started, land_nil h]

/-- A coprocessor that nothing freezes has nothing to make up for. -/
theorem thaw_none {c : LCore} (h : c.frozenAt = none) : c.thawCop = c := by
  rw [LCore.thawCop, h]

/-- A word that is dispatched now issues now where the units are free (R63). -/
theorem cycle_idle {c : LCore} {r : RingEntry} (u : CopUnit) (h : max c.copNext (max c.vecFree c.matFree) ≤ c.ccy) (hr : r.time = c.ccy) :
    c.copCycle u r = c.ccy := by
  rw [LCore.copCycle, hr]
  split <;> omega

theorem foldl_max_le {l : List Nat} {a t : Nat} (ha : a ≤ t) (h : ∀ x ∈ l, x ≤ t) : l.foldl max a ≤ t := by
  induction l generalizing a with
  | nil => exact ha
  | cons x l ih => exact ih (max_le ha (h x List.mem_cons_self)) (fun y hy => h y (List.mem_cons_of_mem _ hy))

/-- Where every load has made its slot ready the tile loader holds nothing up (R149, R150). -/
theorem hold_idle {c : LCore} {t : Nat} (u : CopUnit) (h : ∀ r ∈ c.ring, r.state ≠ .notIssued → r.time < t) : c.holdFor u t = c := by
  have hl : ∀ p, ∀ x ∈ c.loadTimes p, x < t := by
    intro p x hx
    simp only [LCore.loadTimes, List.mem_map, List.mem_filter, Bool.and_eq_true, bne_iff_ne, ne_eq] at hx
    obtain ⟨r, ⟨hr, hs, -⟩, rfl⟩ := hx
    exact h r hr hs
  have hb : (c.loadTimes (fun _ => true)).filter (fun x => decide (t < x)) = [] := by
    rw [List.filter_eq_nil_iff]
    intro x hx
    have := hl _ x hx
    simp only [decide_eq_true_eq]
    omega
  rw [LCore.holdFor]
  simp only [LCore.loaderReady, hb, List.length_nil, show ¬(4 ≤ 0) by decide, and_false, if_false]
  rw [if_neg]
  have := foldl_max_le (l := c.loadTimes (fun s => u.slots.contains s)) (Nat.zero_le t) (fun x hx => Nat.le_of_lt (hl _ x hx))
  omega

theorem afterLoads_nil {c : LCore} (u : CopUnit) (h : c.loads = []) : u.afterLoads c = false := by
  simp [CopUnit.afterLoads, h]

/-- The issue of an entry on a coprocessor with nothing outstanding. -/
theorem issue_entry {u : CopUnit} {act : RingEntry → Ex Issued} {r : RingEntry} {t t' : State} {w : Issued}
    (hl : t.cur.loads = []) (ht : t.cur.late = none) (hz : t.cur.frozenAt = none) (hr : t.cur.entryOf r.seq = some r)
    (hc : t.cur.copCycle u r = t.cur.ccy) (hi : ∀ x ∈ t.cur.ring, x.state ≠ .notIssued → x.time < t.cur.ccy) (hf : u.frozen t r = false)
    (ha : act { r with state := .issued } (t.modCur (LCore.started t.cur.ccy { r with state := .issued })) = .ok w t') :
    issue u act r.seq t = .ok () (t'.modCur (LCore.complete u t.cur.ccy r.seq w)) := by
  have hh : t.modCur (fun c => c.holdFor u (c.copCycle u r)) = t :=
    congrArg (fun c => { t with cur := c }) (show t.cur.holdFor u (t.cur.copCycle u r) = t.cur by rw [hc, hold_idle u hi])
  have hth : t.modCur LCore.thawCop = t := congrArg (fun c => { t with cur := c }) (thaw_none hz)
  unfold issue
  simp only [ht, hr, hh, hc, lt_irrefl, if_false]
  unfold issueNow
  simp only [afterLoads_nil u hl, ht, hf, hth, hc, Option.isSome_none, Bool.false_eq_true, if_false]
  unfold issueWork
  simp only [ha]

/-- An entry whose unit is busy does not issue (R63). -/
theorem issue_waits {u : CopUnit} {act : RingEntry → Ex Issued} {q : BitVec 16} {t : State}
    (h : t.cur.ccy < max t.cur.copNext (if u.mat then t.cur.matFree else t.cur.vecFree)) : issue u act q t = .ok () t := by
  unfold issue
  split
  · rw [if_pos]
    exact lt_of_lt_of_le h (le_max_right _ _)
  · rfl

/-- A word just dispatched, started on an idle unit. -/
theorem started_dispatched {c : LCore} (i : Instr) (k : Capture) (hp : c.pend = []) (h : ∀ r ∈ c.ring, r.seq ≠ c.nextSeq) :
    LCore.started c.ccy (RingEntry.issuing c i k) (c.dispatched i k) = c.issuing i k := by
  rw [started_idle (c := c.dispatched i k) _ _ hp]
  have hm := map_dispatched c.ring (c.entry i k) (fun _ => RingEntry.issuing c i k) (c.ring.length + 1 - 64) (by omega) h
  unfold LCore.setEntry LCore.issuing
  rw [← hm]
  rfl

/-- The entries of the ring after a dispatch on a coprocessor with nothing outstanding. -/
theorem dispatched_times {c : LCore} {i : Instr} {k : Capture} (h : ∀ r ∈ c.ring, r.state = .complete ∧ r.time < c.ccy ∧ r.seq ≠ c.nextSeq) :
    ∀ x ∈ (c.dispatched i k).ring, x.state ≠ .notIssued → x.time < c.ccy := by
  intro x hx hn
  rcases List.mem_append.mp (List.mem_of_mem_drop hx) with hm | hm
  · exact (h x hm).2.1
  · rw [List.mem_singleton.mp hm] at hn
    exact absurd rfl hn

/-- A coprocessor word whose dispatch captures `k` and for whose pins there is room ends with what its issue leaves. -/
theorem runCop_of {i : Instr} {uses : List (BitVec 5)} {u : CopUnit} {prep : Ex Capture} {act : RingEntry → Ex Issued} {s s1 s2 : State} {k : Capture}
    (hs : s.passes i = true) (hh : s.cur.handler = 0) (hf : (s.awaited uses).cur.ringFull = false) (hp : prep (s.awaited uses) = .ok k s1)
    (hr : s1.pinRoom (capturedPins k.ptr.ptr k.entry) = true)
    (hi : (if s.cur.flowing then issue u act s1.cur.nextSeq (s1.modCur (LCore.dispatched i k)) else .ok () (s1.modCur (LCore.dispatched i k))) = .ok () s2) :
    runCop i uses u prep act s = .next (s2.finish .seq ⟨uses, 0, 1, 1⟩) := by
  have hd := dispatch_ok i k s1
  have e1 : (s.awaited uses).cur.handler = 0 := hh
  refine runWord_ok (s' := s2) hs ?_
  simp only [bind, EStateM.bind, cur, get, getThe, MonadStateOf.get, EStateM.get, pure, EStateM.pure, enqueue, orStall,
    e1, hf, hp, hr, hd, ne_eq, not_true_eq_false, Bool.false_eq_true, Bool.not_true, if_true, if_false]
  rw [show (s.awaited uses).cur.flowing = s.cur.flowing from rfl]
  cases hg : s.cur.flowing with
  | true =>
    rw [hg, if_pos rfl] at hi
    simp only [if_true, EStateM.bind, hi]
    rfl
  | false =>
    rw [hg, if_neg Bool.false_ne_true] at hi
    injection hi with _ hi
    rw [← hi]
    rfl

/-- A coprocessor word that meets nothing in its way, whose dispatch captures `k`, for whose pins there is room, that does not freeze, and
whose work ends. -/
theorem runCop_ok {i : Instr} {uses : List (BitVec 5)} {u : CopUnit} {prep : Ex Capture} {act : RingEntry → Ex Issued}
    {s s1 s2 : State} {k : Capture} {w : Issued} (hs : s.passes i = true) (hh : s.cur.handler = 0) (hg : (s.awaited uses).cur.ringFull = false)
    (hfl : s.cur.flowing = true)
    (hp : prep (s.awaited uses) = .ok k s1) (hc : s1.cur.clear = true) (hr : s1.pinRoom (capturedPins k.ptr.ptr k.entry) = true)
    (hf : u.frozen (s1.modCur (LCore.dispatched i k)) (s1.cur.entry i k) = false)
    (ha : act (RingEntry.issuing s1.cur i k) (s1.modCur (LCore.issuing i k)) = .ok w s2) :
    runCop i uses u prep act s =
      .next ((s2.modCur (LCore.complete u s1.cur.ccy s1.cur.nextSeq w)).finish .seq ⟨uses, 0, 1, 1⟩) := by
  obtain ⟨h1, h2, h3, -, -, h4, -, h5, h6⟩ := LCore.clear_iff.mp hc
  have h7 : ∀ r ∈ s1.cur.ring, r.seq ≠ s1.cur.nextSeq := fun r hr => (h6 r hr).2.2
  have hi := issue_entry (u := u) (act := act) (r := s1.cur.entry i k) (w := w) (t' := s2)
    (t := s1.modCur (LCore.dispatched i k)) h2 h3 h4
    (find_dispatched s1.cur.ring (s1.cur.entry i k) (s1.cur.ring.length + 1 - 64) (by omega) h7)
    (cycle_idle (c := s1.cur.dispatched i k) u h5 rfl) (dispatched_times h6) hf
    (by rw [← ha]
        show act _ (State.modCur _ _) = _
        congr 1
        exact congrArg (fun c => { s1 with cur := c }) (started_dispatched i k h1 h7))
  exact runCop_of hs hh hg hp hr (by rw [if_pos hfl]; exact hi)

/-- A coprocessor word whose unit is busy waits in the queue (R62, R63). -/
theorem runCop_waits {i : Instr} {uses : List (BitVec 5)} {u : CopUnit} {prep : Ex Capture} {act : RingEntry → Ex Issued}
    {s s1 : State} {k : Capture} (hs : s.passes i = true) (hh : s.cur.handler = 0) (hg : (s.awaited uses).cur.ringFull = false)
    (hp : prep (s.awaited uses) = .ok k s1) (hr : s1.pinRoom (capturedPins k.ptr.ptr k.entry) = true)
    (hw : s1.cur.ccy < max s1.cur.copNext (if u.mat then s1.cur.matFree else s1.cur.vecFree)) :
    runCop i uses u prep act s = .next ((s1.modCur (LCore.dispatched i k)).finish .seq ⟨uses, 0, 1, 1⟩) := by
  refine runCop_of hs hh hg hp hr ?_
  split
  · exact issue_waits (t := s1.modCur (LCore.dispatched i k)) hw
  · rfl

/-- A coprocessor word on a coprocessor with nothing outstanding. -/
theorem runCop_ready {i : Instr} {uses : List (BitVec 5)} {u : CopUnit} {prep : Ex Capture} {act : RingEntry → Ex Issued}
    {s s1 s2 : State} {k : Capture} {w : Issued} (h : s.copReady i = true)
    (hp : prep (s.awaited uses) = .ok k s1) (hc : s1.cur.clear = true) (hr : s1.pinRoom (capturedPins k.ptr.ptr k.entry) = true)
    (hf : u.frozen (s1.modCur (LCore.dispatched i k)) (s1.cur.entry i k) = false)
    (ha : act (RingEntry.issuing s1.cur i k) (s1.modCur (LCore.issuing i k)) = .ok w s2) :
    runCop i uses u prep act s =
      .next ((s2.modCur (LCore.complete u s1.cur.ccy s1.cur.nextSeq w)).finish .seq ⟨uses, 0, 1, 1⟩) := by
  simp only [State.copReady, Bool.and_eq_true] at h
  obtain ⟨-, -, -, -, h5, -, h7, -, -⟩ := LCore.clear_iff.mp h.2
  exact runCop_ok h.1 h5 (ringFull_await uses h7) (flowing_clear h.2) hp hc hr hf ha

/-- Null pointers need no room. -/
theorem pinRoom_null (s : State) {l : List W64} (h : ∀ p ∈ l, p = 0) : s.pinRoom l = true := by
  have h : ∀ lvl, offsetsAt lvl l = [] := fun lvl => by
    rw [offsetsAt, List.map_eq_nil_iff, List.filter_eq_nil_iff]
    intro p hp
    simp [h p hp]
  simp only [State.pinRoom, h, List.all_eq_true, beq_self_eq_true, Bool.true_or, implies_true]

theorem entPtrs_zero : entPtrs (0#512) = [0, 0, 0] := by
  have h : ∀ i, (0#512).extractLsb' i 64 = 0 := fun i => by
    ext j hj
    simp only [BitVec.getElem_extractLsb', BitVec.getLsbD_zero, BitVec.ofNat_eq_ofNat, BitVec.getElem_zero]
  simp only [entPtrs, h]

/-- A capture without a pointer needs no room. -/
theorem pinRoom_x (s : State) : s.pinRoom (capturedPins PtrReg.null.ptr 0) = true := by
  apply pinRoom_null
  intro p hp
  rw [capturedPins, show (0 : BitVec 512) = 0#512 from rfl, entPtrs_zero] at hp
  simp only [List.mem_cons, List.not_mem_nil, or_false] at hp
  rcases hp with rfl | rfl | rfl | rfl <;> rfl

end Sys2Proof.Machine
end

