-- ==== Sys2Proof/Laws/CopDone.lean ====
section
/-! SUPPORT. A coprocessor word that meets nothing in its way, from its work to the state it leaves once its writes have landed
(R62, R63). -/

set_option Elab.async false

namespace Sys2Proof.Machine

/-- No put-off fault waits. -/
theorem nextPost_idle {c : LCore} (h : c.posts = []) : c.nextPost = c := by
  rw [LCore.nextPost, h]

/-- With no tile load, no waiting word and no put-off fault the coprocessor has nothing to do between two words. -/
theorem pump_idle {s : State} (hl : s.cur.loads = []) (hq : s.cur.queued = false) (hp : s.cur.posts = []) : s.pump = s := by
  simp only [State.pump, hl, List.isEmpty_nil, if_true, hq, Bool.false_eq_true, if_false, State.modCur, nextPost_idle hp]

/-- Landing reads and writes only v and m. -/
theorem apply_congr (d : PendDest) {c c' : LCore} (hv : c.v = c'.v) (hm : c.m = c'.m) :
    (d.apply c).v = (d.apply c').v ∧ (d.apply c).m = (d.apply c').m := by
  cases d <;> simp [PendDest.apply, LCore.setV, LCore.setM, LCore.getV, LCore.getM, hv, hm]

theorem applyAll_congr (l : List PendDest) {c c' : LCore} (hv : c.v = c'.v) (hm : c.m = c'.m) :
    (l.foldl (fun c d => d.apply c) c).v = (l.foldl (fun c d => d.apply c) c').v ∧
      (l.foldl (fun c d => d.apply c) c).m = (l.foldl (fun c d => d.apply c) c').m := by
  induction l generalizing c c' with
  | nil => exact ⟨hv, hm⟩
  | cons d l ih => exact ih (apply_congr d hv hm).1 (apply_congr d hv hm).2

theorem landList_all (c : LCore) {t n : Nat} (h : n < t) (l : List PendDest) :
    landList c t (l.map (fun d => ⟨n, d⟩)) = { l.foldl (fun c d => d.apply c) c with pend := [] } := by
  induction l generalizing c with
  | nil => rfl
  | cons d l ih => rw [List.map_cons, landList, if_pos h, ih]; rfl

theorem insertWrite_same (n : Nat) (d : PendDest) (l : List PendDest) :
    insertWrite ⟨n, d⟩ (l.map (fun d => ⟨n, d⟩)) = (l ++ [d]).map (fun d => ⟨n, d⟩) := by
  induction l with
  | nil => rfl
  | cons x l ih => simp [insertWrite, ih]

theorem insertWrites (n : Nat) (l m : List PendDest) :
    l.foldl (fun p d => insertWrite ⟨n, d⟩ p) (m.map (fun d => ⟨n, d⟩)) = (m ++ l).map (fun d => ⟨n, d⟩) := by
  induction l generalizing m with
  | nil => simp
  | cons d l ih => rw [List.foldl_cons, insertWrite_same, ih, List.append_assoc]; rfl

theorem le_foldl_max (l : List PendWrite) (a : Nat) : a ≤ l.foldl (fun t w => max t (w.due + 1)) a := by
  induction l generalizing a with
  | nil => exact le_refl _
  | cons w l ih => exact le_trans (le_max_left _ _) (ih _)

theorem due_lt_quietAt {c : LCore} {w : PendWrite} (h : w ∈ c.pend) : w.due < c.quietAt := by
  rw [LCore.quietAt]
  generalize List.foldl _ (max c.ccy _) _ = a
  generalize c.pend = l at h
  induction l generalizing a with
  | nil => cases h
  | cons x l ih =>
    rw [List.foldl_cons]
    rcases List.mem_cons.mp h with rfl | h
    · exact lt_of_lt_of_le (by omega) (le_foldl_max l _)
    · exact ih _ h

theorem settled_vm {c : LCore} {n : Nat} {l : List PendDest} (h : c.pend = l.map (fun d => ⟨n, d⟩)) :
    c.settled.v = (l.foldl (fun c d => d.apply c) c).v ∧ c.settled.m = (l.foldl (fun c d => d.apply c) c).m := by
  cases l with
  | nil =>
    rw [LCore.settled, land_nil h]
    exact ⟨rfl, rfl⟩
  | cons d l =>
    have hn : n < c.quietAt := due_lt_quietAt (w := ⟨n, d⟩) (by rw [h]; exact List.mem_cons_self)
    rw [LCore.settled, LCore.land, h, landList_all c hn]
    exact ⟨rfl, rfl⟩

/-- The ring with the entry `q` complete, having written in its last cycle (R62). -/
def doneRing (q : BitVec 16) (time : Nat) (l : List RingEntry) : List RingEntry :=
  l.map (fun x => if x.seq == q then { x with state := .complete, time := time } else x)

/-- What a completion without a fault leaves, said as one update. -/
theorem complete_eq (u : CopUnit) (ci : Nat) (q : BitVec 16) (w : Issued) (c : LCore) (hg : w.goesOn = false) (hw : w.post = none) :
    LCore.complete u ci q w c = { c with
      pend := w.writes.foldl (fun l d => insertWrite ⟨ci + w.lat, d⟩ l) c.pend
      vecFree := if u.mat then c.vecFree else ci + w.busy
      matFree := if u.mat then ci + w.busy else c.matFree
      x := match w.xw with | some (d, v) => (if d = 0 then c.x else c.x.set d.toNat v d.isLt) | none => c.x
      xrdy := (LCore.complete u ci q w c).xrdy
      ring := doneRing q (ci + max w.lat w.busy) c.ring } := by
  obtain ⟨ws, xw, busy, lat, post, goesOn⟩ := w
  subst hg hw
  cases xw <;> rfl

/-- The state that a coprocessor word leaves beside its time, its ring entries, its pending writes, its flags and its x register. -/
def copLeft (s : State) (clk : Nat) (ring : List RingEntry) (copNext vecFree matFree : Nat) (pend : List PendWrite) (ccy : Nat)
    (xrdy : Vector Nat 32) (fl : W64) (x : Vector W64 32) : State :=
  { s with
    clk := clk
    cur := { s.cur.passed with
      ring := ring, nextSeq := s.cur.nextSeq + 1, copNext := copNext, vecFree := vecFree,
      matFree := matFree, pend := pend, ccy := ccy, xrdy := xrdy, fstat := s.cur.fstat ||| fl,
      work := s.cur.work.map (fun w => { w with fstat := w.fstat ||| fl }), x := x } }

theorem copLeft_frame {s : State} {i : Instr} {clk : Nat} {ring : List RingEntry} {copNext vecFree matFree : Nat} {pend : List PendWrite} {ccy : Nat}
    {xrdy : Vector Nat 32} {fl : W64} {x : Vector W64 32} (h3 : s.cur.late = none) {r : RingEntry}
    (hr : ring.find? (fun r => r.seq == s.cur.nextSeq) = some r) (h : r.state = .complete ∧ r.instr = i ∧ r.addr = s.cur.pc) :
    CopFrame s i (copLeft s clk ring copNext vecFree matFree pend ccy xrdy fl x) :=
  ⟨⟨⟨rfl, rfl, h3, r, hr, h⟩, rfl⟩, fl, rfl, rfl⟩

theorem modCur_modCur (s : State) (f g : LCore → LCore) : (s.modCur f).modCur g = s.modCur (fun c => g (f c)) := (rfl)

theorem passed_complete (u : CopUnit) (ci : Nat) (q : BitVec 16) (w : Issued) (c : LCore) (hg : w.goesOn = false) (hw : w.post = none) :
    ∃ vecFree matFree xrdy, (LCore.complete u ci q w c).passed = { c.passed with
      pend := w.writes.foldl (fun l d => insertWrite ⟨ci + w.lat, d⟩ l) c.pend
      vecFree := vecFree
      matFree := matFree
      x := match w.xw with | some (d, v) => (if d = 0 then c.x else c.x.set d.toNat v d.isLt) | none => c.x
      xrdy := xrdy
      ring := doneRing q (ci + max w.lat w.busy) c.ring } := by
  rw [complete_eq u ci q w c hg hw]
  exact ⟨_, _, _, rfl⟩

/-- A state with the logical core `L` and its time. -/
def timed (s : State) (clk ccy : Nat) (xrdy : Vector Nat 32) (L : LCore) : State :=
  { s with clk := clk, cur := { L with ccy := ccy, xrdy := xrdy } }

theorem finish_modCur (s : State) (f : LCore → LCore) (tm : Timing) : (s.modCur f).finish .seq tm =
    timed s (s.clk + tm.issue) ((f s.cur).ccy + tm.issue) ((f s.cur).spend tm).xrdy (f s.cur).passed := (rfl)

theorem timed_awaited (s : State) (l : List (BitVec 5)) (clk ccy : Nat) (xrdy : Vector Nat 32) (L : LCore) :
    timed (s.awaited l) clk ccy xrdy L = timed s clk ccy xrdy L := (rfl)

theorem passed_issuing (c : LCore) (uses : List (BitVec 5)) (i : Instr) (k : Capture) (fl : Fp.Flags) :
    (LCore.raise (LCore.issuing i k (c.await uses)) fl).passed = { c.passed with
      ring := (c.ring ++ [RingEntry.issuing (c.await uses) i k]).drop (c.ring.length + 1 - 64)
      nextSeq := c.nextSeq + 1
      copNext := c.issueAt uses + 1
      ccy := c.issueAt uses
      fstat := c.fstat ||| fl.setWidth 64
      work := c.work.map (fun w => { w with fstat := w.fstat ||| fl.setWidth 64 }) } := (rfl)

/-- What an issue on an idle coprocessor leaves, with flags raised, and the entry complete. -/
theorem finish_complete {s : State} {i : Instr} {k : Capture} {u : CopUnit} {uses : List (BitVec 5)} {w : Issued} {fl : Fp.Flags} {ci : Nat} {q : BitVec 16}
    (hg : w.goesOn = false) (hw : w.post = none) (c1 : s.cur.pend = []) :
    ∃ clk copNext vecFree matFree ccy xrdy,
      ((((s.awaited uses).modCur (LCore.issuing i k)).modCur (fun c => c.raise fl)).modCur (LCore.complete u ci q w)).finish .seq ⟨uses, 0, 1, 1⟩ =
      copLeft s clk (doneRing q (ci + max w.lat w.busy) ((s.cur.ring ++ [RingEntry.issuing (s.cur.await uses) i k]).drop (s.cur.ring.length + 1 - 64)))
        copNext vecFree matFree (w.writes.map (fun d => ⟨ci + w.lat, d⟩)) ccy xrdy (fl.setWidth 64)
        (match w.xw with | some (d, v) => (if d = 0 then s.cur.x else s.cur.x.set d.toNat v d.isLt) | none => s.cur.x) := by
  have h0 := insertWrites (ci + w.lat) w.writes []
  rw [List.nil_append, List.map_nil, ← c1] at h0
  rw [← h0, modCur_modCur, modCur_modCur, finish_modCur, timed_awaited]
  obtain ⟨a1, a2, a3, a4⟩ := passed_complete u ci q w (LCore.raise (LCore.issuing i k (s.cur.await uses)) fl) hg hw
  rw [passed_issuing] at a4
  rw [show (s.awaited uses).cur = s.cur.await uses from rfl, a4]
  generalize (LCore.complete u ci q w ((LCore.issuing i k (s.cur.await uses)).raise fl)).ccy + 1 = ccy
  generalize ((LCore.complete u ci q w ((LCore.issuing i k (s.cur.await uses)).raise fl)).spend _).xrdy = xrdy
  have h1 : ∀ clk r n l cc f wk (x : Vector W64 32) p r', timed s clk ccy xrdy
      { { s.cur.passed with ring := r, nextSeq := n, copNext := l, ccy := cc, fstat := f, work := wk } with pend := p, vecFree := a1, matFree := a2, x := x, xrdy := a3, ring := r' } =
      timed s clk ccy xrdy
      { s.cur.passed with ring := r', nextSeq := n, copNext := l, vecFree := a1, matFree := a2, pend := p, fstat := f, work := wk, x := x } := fun _ _ _ _ _ _ _ _ _ _ => (rfl)
  exact ⟨_, _, _, _, _, _, h1 ..⟩

/-- A coprocessor word that meets nothing in its way, captures `k` without changing anything, and whose work changes nothing itself
but the sticky flags. -/
theorem cop_ok {i : Instr} {uses : List (BitVec 5)} {u : CopUnit} {prep : Ex Capture} {act : RingEntry → Ex Issued}
    {s : State} {k : Capture} {w : Issued} {fl : Fp.Flags} (h : s.copReady i = true)
    (hp : prep (s.awaited uses) = .ok k (s.awaited uses))
    (ha : act (RingEntry.issuing (s.cur.await uses) i k) ((s.awaited uses).modCur (LCore.issuing i k)) =
      .ok w (((s.awaited uses).modCur (LCore.issuing i k)).modCur (fun c => c.raise fl)))
    (hg : w.goesOn = false) (hw : w.post = none)
    (hr : (s.awaited uses).pinRoom (capturedPins k.ptr.ptr k.entry) = true)
    (hz : u.frozen ((s.awaited uses).modCur (LCore.dispatched i k)) ((s.cur.await uses).entry i k) = false) :
    ∃ t, runCop i uses u prep act s = .next t ∧ CopFrame s i t ∧
      t.cur.settled.v = (w.writes.foldl (fun c d => d.apply c) s.cur).v ∧
      t.cur.settled.m = (w.writes.foldl (fun c d => d.apply c) s.cur).m ∧
      t.cur.x = (match w.xw with | some (d, v) => (s.cur.setX d v).x | none => s.cur.x) ∧
      t.cur.fstat = s.cur.fstat ||| fl.setWidth 64 := by
  have h0 := h
  simp only [State.copReady, Bool.and_eq_true] at h
  obtain ⟨h1, h2⟩ := h
  obtain ⟨c1, -, c3, -, -, -, -, -, c5⟩ := LCore.clear_iff.mp h2
  have c6 : ∀ r ∈ s.cur.ring, r.seq ≠ s.cur.nextSeq := fun r hr => (c5 r hr).2.2
  have hr := runCop_ready (k := k) h0 hp (clear_await uses h2) hr hz ha
  obtain ⟨clk, copNext, vecFree, matFree, ccy, xrdy, he⟩ := finish_complete (s := s) (i := i) (k := k) (u := u) (uses := uses)
    (fl := fl) (ci := (s.awaited uses).cur.ccy) (q := s.cur.nextSeq) hg hw c1
  have hf := find_dispatched s.cur.ring { RingEntry.issuing (s.cur.await uses) i k with
    state := .complete, time := (s.awaited uses).cur.ccy + max w.lat w.busy } (s.cur.ring.length + 1 - 64) (by omega) c6
  refine ⟨_, hr.trans (congrArg _ he), copLeft_frame c3 (r := { RingEntry.issuing (s.cur.await uses) i k with
    state := .complete, time := (s.awaited uses).cur.ccy + max w.lat w.busy }) ?_ ⟨rfl, rfl, rfl⟩, ?_, ?_, ?_, rfl⟩
  · rw [← hf]
    congr 1
    exact map_dispatched s.cur.ring (RingEntry.issuing (s.cur.await uses) i k)
      (fun x => { x with state := .complete, time := (s.awaited uses).cur.ccy + max w.lat w.busy }) (s.cur.ring.length + 1 - 64) (by omega) c6
  · refine (settled_vm (l := w.writes) rfl).1.trans (applyAll_congr w.writes ?_ ?_).1
    · rfl
    · rfl
  · refine (settled_vm (l := w.writes) rfl).2.trans (applyAll_congr w.writes ?_ ?_).2
    · rfl
    · rfl
  · show (match w.xw with | some (d, v) => (if d = 0 then s.cur.x else s.cur.x.set d.toNat v d.isLt) | none => s.cur.x) = _
    cases w.xw <;> rfl

end Sys2Proof.Machine
end

