-- ==== Sys2Proof/Laws/Elem.lean ====
section
/-! SUPPORT. What a write of listed elements leaves in a vector register once it has landed (R63, R119). -/

set_option Elab.async false

namespace Sys2Proof.Machine

/-- Bit `k` lies in element `i` of `w` bits. -/
theorem in_elem {w i k : Nat} (hw : 0 < w) : (w * i ≤ k ∧ k - w * i < w) ↔ i = k / w := by
  constructor
  · rintro ⟨h1, h2⟩
    symm
    apply Nat.div_eq_of_lt_le
    · rwa [Nat.mul_comm]
    · rw [Nat.mul_comm, Nat.mul_succ]; omega
  · intro h
    rw [h]
    have := Nat.div_add_mod k w
    have := Nat.mod_lt k hw
    omega

/-- Bit `k` of an element's field. -/
theorem testBit_field {w i k x : Nat} (hw : 0 < w) :
    (x % 2 ^ w * 2 ^ (w * i)).testBit k = (decide (i = k / w) && x.testBit (k % w)) := by
  rw [Nat.testBit_mul_two_pow, Nat.testBit_mod_two_pow]
  by_cases h : i = k / w
  · obtain ⟨h1, h2⟩ := (in_elem hw).mpr h
    have h4 : k - w * i = k % w := by
      have := Nat.div_add_mod k w
      rw [h]; omega
    rw [h4, decide_eq_true h1, decide_eq_true h, decide_eq_true (h4 ▸ h2)]
    simp only [Bool.true_and]
  · have h' := mt (in_elem hw).mp h
    simp only [h, decide_false, Bool.false_and]
    by_cases h1 : w * i ≤ k
    · simp [h1, show ¬(k - w * i < w) from fun h2 => h' ⟨h1, h2⟩]
    · simp [h1]

/-- A bit of the mask of listed elements. -/
theorem testBit_maskFold {w : Nat} (hw : 0 < w) (l : List (Nat × Nat)) (s k : Nat) :
    (l.foldl (fun s e => s ||| (2 ^ w - 1) * 2 ^ (w * e.1)) s).testBit k = (s.testBit k || l.any (fun e => decide (e.1 = k / w))) := by
  induction l generalizing s with
  | nil => simp
  | cons e l ih =>
    have h : ((2 ^ w - 1) * 2 ^ (w * e.1)).testBit k = decide (e.1 = k / w) := by
      have h0 : (2 ^ w - 1) % 2 ^ w = 2 ^ w - 1 := Nat.mod_eq_of_lt (Nat.sub_lt (Nat.two_pow_pos w) Nat.one_pos)
      rw [← h0, testBit_field hw, Nat.testBit_two_pow_sub_one]
      simp [Nat.mod_lt k hw]
    rw [List.foldl_cons, ih, Nat.testBit_or, h, List.any_cons, Bool.or_assoc]

/-- A bit of the values of listed elements. -/
theorem testBit_valFold {w : Nat} (hw : 0 < w) (l : List (Nat × Nat)) (s k : Nat) :
    (l.foldl (fun s e => s ||| e.2 % 2 ^ w * 2 ^ (w * e.1)) s).testBit k =
      (s.testBit k || l.any (fun e => decide (e.1 = k / w) && e.2.testBit (k % w))) := by
  induction l generalizing s with
  | nil => simp
  | cons e l ih => rw [List.foldl_cons, ih, Nat.testBit_or, testBit_field hw, List.any_cons, Bool.or_assoc]

/-- A bit of an element. -/
theorem testBit_elemAt (v : VWord) (w j b : Nat) : (elemAt v w j).testBit b = (decide (b < w) && v.getLsbD (w * j + b)) := by
  simp [elemAt, Nat.testBit_mod_two_pow, Nat.testBit_div_two_pow, BitVec.getLsbD, Nat.add_comm]

/-- The value a list gives the element `j`: that of its only entry, cut to `w` bits; or the old one. -/
def elemOr (l : List (Nat × Nat)) (w j old : Nat) : Nat :=
  ((l.find? (fun e => e.1 == j)).map (fun e => e.2 % 2 ^ w)).getD old

theorem any_of_nodup {l : List (Nat × Nat)} (h : (l.map Prod.fst).Nodup) (j : Nat) (p : Nat → Bool) :
    l.any (fun e => decide (e.1 = j) && p e.2) = ((l.find? (fun e => e.1 == j)).map (fun e => p e.2)).getD false := by
  induction l with
  | nil => rfl
  | cons e l ih =>
    rw [List.map_cons, List.nodup_cons] at h
    by_cases he : e.1 = j
    · have : l.any (fun e => decide (e.1 = j) && p e.2) = false := by
        rw [List.any_eq_false]
        intro x hx
        have : x.1 ≠ j := fun hj => h.1 (he ▸ hj ▸ List.mem_map_of_mem hx)
        simp [this]
      simp [List.any_cons, he, this]
    · simp [List.any_cons, he, ih h.2]

/-- What a write of listed elements leaves in each element of the register: the listed ones take their values, every other keeps
its own. -/
theorem elemAt_elemWrite {w : Nat} (hw : 0 < w) {l : List (Nat × Nat)} (hn : (l.map Prod.fst).Nodup) (old : VWord) {j : Nat}
    (hj : w * j + w ≤ 512) :
    elemAt ((old &&& ~~~(BitVec.ofNat 512 (l.foldl (fun s e => s ||| (2 ^ w - 1) * 2 ^ (w * e.1)) 0))) |||
      (BitVec.ofNat 512 (l.foldl (fun s e => s ||| e.2 % 2 ^ w * 2 ^ (w * e.1)) 0) &&&
        BitVec.ofNat 512 (l.foldl (fun s e => s ||| (2 ^ w - 1) * 2 ^ (w * e.1)) 0))) w j =
      elemOr l w j (elemAt old w j) := by
  apply Nat.eq_of_testBit_eq
  intro b
  rw [testBit_elemAt]
  by_cases hb : b < w
  · have hk : w * j + b < 512 := by omega
    have hd : (w * j + b) / w = j := by
      rw [Nat.mul_add_div hw, Nat.div_eq_of_lt hb, Nat.add_zero]
    have hm : (w * j + b) % w = b := by rw [Nat.mul_add_mod, Nat.mod_eq_of_lt hb]
    simp only [BitVec.getLsbD_or, BitVec.getLsbD_and, BitVec.getLsbD_not, BitVec.getLsbD_ofNat, testBit_maskFold hw,
      testBit_valFold hw, hd, hm, hk, hb, decide_true, Bool.true_and, Nat.zero_testBit, Bool.false_or]
    have h1 := any_of_nodup hn j (fun _ => true)
    simp only [Bool.and_true] at h1
    rw [h1, any_of_nodup hn j (fun x => x.testBit b), elemOr]
    cases l.find? (fun e => e.1 == j) with
    | none => simp [testBit_elemAt, hb]
    | some e => simp [Nat.testBit_mod_two_pow, hb]
  · have : (elemOr l w j (elemAt old w j)).testBit b = false := by
      rw [elemOr]
      cases l.find? (fun e => e.1 == j) with
      | none => simp [testBit_elemAt, hb]
      | some e => simp [Nat.testBit_mod_two_pow, hb]
    simp [hb, this]

/-- A listed write, applied: the other registers are as before. -/
theorem getV_elemWrite (c : LCore) (d : BitVec 5) (w : Nat) (l : List (Nat × Nat)) (r : BitVec 5) (h : r ≠ d) :
    ((elemWrite d w l).apply c).getV r = c.getV r := by
  rw [elemWrite, PendDest.apply, getV_setV, if_neg h]

/-- A listed write, applied: the elements of the register. -/
theorem elem_elemWrite {w : Nat} (hw : 0 < w) {l : List (Nat × Nat)} (hn : (l.map Prod.fst).Nodup) (c : LCore) (d : BitVec 5)
    {j : Nat} (hj : w * j + w ≤ 512) :
    elemAt (((elemWrite d w l).apply c).getV d) w j = elemOr l w j (elemAt (c.getV d) w j) := by
  rw [elemWrite, PendDest.apply, getV_setV, if_pos rfl]
  exact elemAt_elemWrite hw hn _ hj

end Sys2Proof.Machine
end

