-- ==== Sys2Proof/Laws/Memory.lean ====
section
/-! SUPPORT. The byte lists: reading after writing, and the canonical form that every operation on them keeps. -/

set_option Elab.async false

namespace Sys2Proof.Machine

open Host (Cell)

/-! ### The canonical form -/

theorem Mem.wfFrom_cons {lo k : Nat} {b : Byte} {m : List Cell} :
    Mem.wfFrom lo ((k, b) :: m) = true ↔ lo ≤ k ∧ b ≠ 0 ∧ Mem.wfFrom (k + 1) m = true := by
  simp [Mem.wfFrom, and_assoc]

theorem Mem.wfFrom_mono {lo lo' : Nat} {m : List Cell} (h : Mem.wfFrom lo m = true) (hl : lo' ≤ lo) : Mem.wfFrom lo' m = true := by
  cases m with
  | nil => rfl
  | cons c m =>
    obtain ⟨h1, h2, h3⟩ := Mem.wfFrom_cons.mp h
    exact Mem.wfFrom_cons.mpr ⟨le_trans hl h1, h2, h3⟩

theorem Mem.read_cons (a : Nat) (b : Byte) (m : List Cell) (k : Nat) :
    Mem.read ((a, b) :: m) k = if a = k then b else Mem.read m k := rfl

/-- An address that no entry lists reads 0. -/
theorem Mem.read_absent {m : List Cell} {a : Nat} (h : ∀ c ∈ m, c.1 ≠ a) : Mem.read m a = 0 := by
  induction m with
  | nil => rfl
  | cons c m ih =>
    rw [Mem.read_cons, if_neg (h c List.mem_cons_self), ih (fun x hx => h x (List.mem_cons_of_mem _ hx))]

/-- Taking out the entries of other addresses changes nothing. -/
theorem Mem.read_filter (m : List Cell) (p : Cell → Bool) (k : Nat) (h : ∀ c ∈ m, c.1 = k → p c = true) :
    Mem.read (m.filter p) k = Mem.read m k := by
  induction m with
  | nil => rfl
  | cons c m ih =>
    have ih := ih (fun x hx => h x (List.mem_cons_of_mem _ hx))
    rw [List.filter_cons]
    by_cases hk : c.1 = k
    · rw [if_pos (h c List.mem_cons_self hk), Mem.read_cons, Mem.read_cons, if_pos hk, if_pos hk]
    · split_ifs
      · rw [Mem.read_cons, Mem.read_cons, if_neg hk, if_neg hk, ih]
      · rw [Mem.read_cons, if_neg hk, ih]

theorem Mem.read_insert (a : Nat) (b : Byte) (m : List Cell) (k : Nat) (h : ∀ c ∈ m, c.1 ≠ a) :
    Mem.read (Mem.insert a b m) k = if k = a then b else Mem.read m k := by
  induction m with
  | nil =>
    show (if a = k then b else 0) = _
    simp only [eq_comm, Mem.read]
  | cons c m ih =>
    obtain ⟨j, x⟩ := c
    have hj : j ≠ a := h (j, x) List.mem_cons_self
    have ih := ih (fun c hc => h c (List.mem_cons_of_mem _ hc))
    rw [Mem.insert]
    by_cases h1 : a < j
    · rw [if_pos h1, Mem.read_cons]
      simp only [eq_comm]
    · rw [if_neg h1, Mem.read_cons, Mem.read_cons, ih]
      split_ifs <;> first | rfl | omega

/-- A byte written reads back; every other byte is as before. -/
theorem Mem.read_write (m : List Cell) (a : Nat) (b : Byte) (k : Nat) :
    Mem.read (Mem.write m a b) k = if k = a then b else Mem.read m k := by
  have ha : ∀ c ∈ m.filter (fun c => c.1 != a), c.1 ≠ a := fun c hc => by simpa using (List.mem_filter.mp hc).2
  have hr : k ≠ a → Mem.read (m.filter (fun c => c.1 != a)) k = Mem.read m k :=
    fun hk => Mem.read_filter m _ k (fun c _ e => by simpa [e] using hk)
  rw [Mem.write]
  by_cases hb : b = 0
  · rw [if_pos hb]
    by_cases hk : k = a
    · rw [if_pos hk, hk, hb, Mem.read_absent ha]
    · rw [if_neg hk, hr hk]
  · rw [if_neg hb, Mem.read_insert a b _ k ha]
    by_cases hk : k = a
    · rw [if_pos hk, if_pos hk]
    · rw [if_neg hk, if_neg hk, hr hk]

/-- Taking entries out keeps the canonical form. -/
theorem Mem.wf_filter {lo : Nat} {m : List Cell} (h : Mem.wfFrom lo m = true) (p : Cell → Bool) :
    Mem.wfFrom lo (m.filter p) = true := by
  induction m generalizing lo with
  | nil => rfl
  | cons c m ih =>
    obtain ⟨h1, h2, h3⟩ := Mem.wfFrom_cons.mp h
    rw [List.filter_cons]
    split_ifs
    · exact Mem.wfFrom_cons.mpr ⟨h1, h2, ih h3⟩
    · exact Mem.wfFrom_mono (ih h3) (by omega)

theorem Mem.wf_insert {lo : Nat} {m : List Cell} (h : Mem.wfFrom lo m = true) {a : Nat} (ha : lo ≤ a) {b : Byte} (hb : b ≠ 0)
    (hn : ∀ c ∈ m, c.1 ≠ a) : Mem.wfFrom lo (Mem.insert a b m) = true := by
  induction m generalizing lo with
  | nil => exact Mem.wfFrom_cons.mpr ⟨ha, hb, rfl⟩
  | cons c m ih =>
    obtain ⟨j, x⟩ := c
    obtain ⟨h1, h2, h3⟩ := Mem.wfFrom_cons.mp h
    have hj : j ≠ a := hn (j, x) List.mem_cons_self
    rw [Mem.insert]
    split_ifs with h4
    · exact Mem.wfFrom_cons.mpr ⟨ha, hb, Mem.wfFrom_cons.mpr ⟨h4, h2, h3⟩⟩
    · exact Mem.wfFrom_cons.mpr ⟨h1, h2, ih h3 (by omega) (fun c hc => hn c (List.mem_cons_of_mem _ hc))⟩

/-- A write keeps the canonical form. -/
theorem Mem.wf_write {lo : Nat} {m : List Cell} (h : Mem.wfFrom lo m = true) {a : Nat} (ha : lo ≤ a) (b : Byte) :
    Mem.wfFrom lo (Mem.write m a b) = true := by
  rw [Mem.write]
  by_cases hb : b = 0
  · rw [if_pos hb]; exact Mem.wf_filter h _
  · rw [if_neg hb]
    exact Mem.wf_insert (Mem.wf_filter h _) ha hb (fun c hc => by simpa using (List.mem_filter.mp hc).2)

theorem Memory.wf_write {m : List Cell} (h : Memory.wf m = true) (a : Nat) (b : Byte) : Memory.wf (Mem.write m a b) = true :=
  Mem.wf_write h (Nat.zero_le a) b

/-- A store of n bytes keeps the canonical form. -/
theorem Memory.wf_writeN {m : List Cell} (h : Memory.wf m = true) (a n v : Nat) : Memory.wf (Mem.writeN m a n v) = true := by
  induction n generalizing m a v with
  | zero => exact h
  | succ n ih => exact ih (Memory.wf_write h a _) _ _

/-- A byte after a store of n bytes: little-endian inside, as before outside (R4). -/
theorem Mem.read_writeN (m : List Cell) (a n v k : Nat) :
    Mem.read (Mem.writeN m a n v) k =
      if a ≤ k ∧ k < a + n then BitVec.ofNat 8 (v / 256 ^ (k - a)) else Mem.read m k := by
  induction n generalizing m a v with
  | zero => simp [Mem.writeN, show ¬ (a ≤ k ∧ k < a) by omega]
  | succ n ih =>
    rw [Mem.writeN, ih, Mem.read_write]
    by_cases h1 : k = a
    · subst h1
      simp [show ¬ (k + 1 ≤ k ∧ k < k + 1 + n) by omega]
    · by_cases h2 : a + 1 ≤ k ∧ k < a + 1 + n
      · have e : k - a = (k - (a + 1)) + 1 := by omega
        rw [if_pos h2, if_pos (by omega), e, Nat.pow_succ', Nat.div_div_eq_div_mul]
      · rw [if_neg h2, if_neg h1, if_neg (by omega)]

/-- n bytes read as one number depend only on those bytes. -/
theorem Mem.readN_congr {m m' : List Cell} (a n : Nat) (h : ∀ k, a ≤ k → k < a + n → Mem.read m k = Mem.read m' k) :
    Mem.readN m a n = Mem.readN m' a n := by
  induction n generalizing a with
  | zero => rfl
  | succ n ih =>
    rw [Mem.readN, Mem.readN, h a (le_refl _) (by omega), ih (a + 1) (fun k h1 h2 => h k (by omega) (by omega))]

/-- What has been stored reads back (R4). -/
theorem Mem.readN_writeN (m : List Cell) (a n v : Nat) :
    Mem.readN (Mem.writeN m a n v) a n = v % 256 ^ n := by
  induction n generalizing m a v with
  | zero => simp [Mem.readN, Nat.mod_one]
  | succ n ih =>
    rw [Mem.readN, Mem.writeN, ih, Mem.read_writeN, if_neg (by omega), Mem.read_write, if_pos rfl, BitVec.toNat_ofNat]
    exact (show v % 256 ^ (n + 1) = v % 256 + 256 * (v / 256 % 256 ^ n) by rw [Nat.pow_succ', Nat.mod_mul]).symm

/-- A store leaves every range beside it as it was. -/
theorem Mem.readN_writeN_other (m : List Cell) (a n v b k : Nat) (hd : b + k ≤ a ∨ a + n ≤ b) :
    Mem.readN (Mem.writeN m a n v) b k = Mem.readN m b k := by
  apply Mem.readN_congr
  intro j h1 h2
  rw [Mem.read_writeN, if_neg (by omega)]

/-! ### Whole ranges -/

/-- Two lists in canonical form, one below the other. -/
theorem Mem.wf_append {lo mid : Nat} {m m' : List Cell} (h : Mem.wfFrom lo m = true) (h' : Mem.wfFrom mid m' = true)
    (hm : ∀ c ∈ m, c.1 < mid) (hl : lo ≤ mid) : Mem.wfFrom lo (m ++ m') = true := by
  induction m generalizing lo with
  | nil => exact Mem.wfFrom_mono h' hl
  | cons c m ih =>
    obtain ⟨h1, h2, h3⟩ := Mem.wfFrom_cons.mp h
    exact Mem.wfFrom_cons.mpr ⟨h1, h2, ih h3 (fun x hx => hm x (List.mem_cons_of_mem _ hx)) (hm c List.mem_cons_self)⟩

/-- Moving every entry up by the same distance. -/
theorem Mem.wf_shift {lo : Nat} {m : List Cell} (h : Mem.wfFrom lo m = true) (a : Nat) :
    Mem.wfFrom (lo + a) (m.map (fun c => (c.1 + a, c.2))) = true := by
  induction m generalizing lo with
  | nil => rfl
  | cons c m ih =>
    obtain ⟨h1, h2, h3⟩ := Mem.wfFrom_cons.mp h
    refine Mem.wfFrom_cons.mpr ⟨by omega, h2, ?_⟩
    have := ih h3
    rwa [show c.1 + 1 + a = c.1 + a + 1 by omega] at this

/-- Moving every entry down by the same distance. -/
theorem Mem.wf_unshift {lo : Nat} {m : List Cell} (h : Mem.wfFrom lo m = true) {a : Nat} (ha : a ≤ lo) :
    Mem.wfFrom (lo - a) (m.map (fun c => (c.1 - a, c.2))) = true := by
  induction m generalizing lo with
  | nil => rfl
  | cons c m ih =>
    obtain ⟨h1, h2, h3⟩ := Mem.wfFrom_cons.mp h
    refine Mem.wfFrom_cons.mpr ⟨by omega, h2, ?_⟩
    have := ih h3 (by omega)
    rwa [show c.1 + 1 - a = c.1 - a + 1 by omega] at this

/-- The entries from a bound on form a canonical list from that bound. -/
theorem Mem.wf_above {lo a : Nat} {m : List Cell} (h : Mem.wfFrom lo m = true) (p : Cell → Bool) (hp : ∀ c, p c = true → a ≤ c.1) :
    Mem.wfFrom a (m.filter p) = true := by
  induction m generalizing lo with
  | nil => rfl
  | cons c m ih =>
    obtain ⟨h1, h2, h3⟩ := Mem.wfFrom_cons.mp h
    rw [List.filter_cons]
    split_ifs with hc
    · exact Mem.wfFrom_cons.mpr ⟨hp c hc, h2, Mem.wf_filter h3 p⟩
    · exact ih h3

/-- A range taken out of a canonical list is canonical. -/
theorem Memory.wf_range {m : List Cell} (h : Memory.wf m = true) (a n : Nat) : Memory.wf (Mem.range m a n) = true := by
  have h1 : Mem.wfFrom a (m.filter (fun c => decide (a ≤ c.1) && decide (c.1 < a + n))) = true :=
    Mem.wf_above h _ (fun c hc => by simp at hc; exact hc.1)
  have := Mem.wf_unshift h1 (le_refl a)
  rwa [Nat.sub_self] at this

/-- Listed bytes are put in the canonical form. -/
theorem Memory.wf_canon (cs : List Cell) : Memory.wf (Mem.canon cs) = true := by
  unfold Mem.canon
  split
  · assumption
  · suffices h : ∀ m, Memory.wf m = true → Memory.wf (cs.foldl (fun m c => Mem.write m c.1 c.2) m) = true from h [] rfl
    clear * -
    induction cs with
    | nil => exact fun _ h => h
    | cons c l ih => exact fun m h => ih _ (Memory.wf_write h c.1 c.2)

/-- Filling a range of a canonical list keeps the form. -/
theorem Memory.wf_fill {m : List Cell} (h : Memory.wf m = true) (cs : List Cell) (a n : Nat) :
    Memory.wf (Mem.fill m a n cs) = true := by
  have hc := Memory.wf_canon cs
  rw [Mem.fill]
  generalize Mem.canon cs = cs at hc
  have h3 : Mem.wfFrom (a + n) (m.filter (fun c => decide (a + n ≤ c.1))) = true :=
    Mem.wf_above h _ (fun c hc => by simpa using hc)
  have h2 : Mem.wfFrom a ((cs.filter (fun c => decide (c.1 < n))).map (fun c => (c.1 + a, c.2))) = true := by
    have := Mem.wf_shift (Mem.wf_filter hc (fun c => decide (c.1 < n))) a
    rwa [Nat.zero_add] at this
  have h1 : Mem.wfFrom 0 (m.filter (fun c => decide (c.1 < a))) = true := Mem.wf_filter h _
  rw [List.append_assoc]
  refine Mem.wf_append (mid := a) h1 (Mem.wf_append (mid := a + n) h2 h3 ?_ (by omega)) ?_ (Nat.zero_le a)
  · intro c hx
    obtain ⟨x, hx', rfl⟩ := List.mem_map.mp hx
    have := (List.mem_filter.mp hx').2
    simp at this
    simpa [Nat.add_comm] using this
  · intro c hx
    simpa using (List.mem_filter.mp hx).2

/-- Every pad of a state whose memories are canonical is canonical, used or not. -/
theorem pad_wf {s : State} (h : s.memOk = true) (id : PadId) : Memory.wf (s.pad id).mem = true := by
  simp only [State.memOk, Bool.and_eq_true, List.all_eq_true] at h
  rw [State.pad]
  cases hf : s.pads.find? (fun p => p.id == id) with
  | none => rfl
  | some p => exact h.1.2 p (List.mem_of_find?_eq_some hf)

/-- Replacing a pad by a canonical one keeps the memories canonical. -/
theorem memOk_setPad {s : State} (h : s.memOk = true) {p : Pad} (hp : Memory.wf p.mem = true) : (s.setPad p).memOk = true := by
  simp only [State.memOk, Bool.and_eq_true, List.all_eq_true] at h ⊢
  refine ⟨⟨h.1.1, fun q hq => ?_⟩, h.2⟩
  rcases List.mem_cons.mp hq with rfl | hq
  · exact hp
  · exact h.1.2 q (List.mem_of_mem_filter hq)

/-- A pad just replaced. -/
theorem pad_setPad (s : State) (p : Pad) (id : PadId) : (s.setPad p).pad id = if id = p.id then p else s.pad id := by
  rw [State.pad, State.setPad, List.find?_cons]
  by_cases h : id = p.id
  · subst h; simp
  · have h' : (p.id == id) = false := beq_false_of_ne (Ne.symm h)
    rw [h', if_neg h, State.pad, List.find?_filter]
    congr 1
    apply congrArg (fun f => List.find? f s.pads)
    funext q
    by_cases hq : q.id = id
    · simp [hq, h]
    · simp [hq]

/-! ### Failed storage, held table words and the numbers of registers -/

/-- Where no sector, line or frame has failed, no access meets a failed one (R367, R369). -/
theorem badAt_none {s : State} (hs : s.badSectors = []) (hl : s.retiredLines = []) (hf : s.retiredFrames = []) (pa n : Nat) :
    s.badAt pa n = false := by
  simp [State.badAt, hs, hl, hf]

theorem badIn_none {s : State} (hs : s.badSectors = []) (hl : s.retiredLines = []) (hf : s.retiredFrames = []) (cmp : Bool) (pa n : Nat) :
    s.badIn cmp pa n = false := by
  simp [State.badIn, badAt_none hs hl hf]

theorem padBad_none {s : State} (h : s.badPads = []) (id : PadId) (off n : Nat) : s.padBad id off n = false := by
  simp [State.padBad, h]

/-- A table word that the die does not hold reads as it stands (R296). -/
theorem tableWord_fresh {s : State} (h : s.held = []) (ctx : BitVec 16) (va pa : Nat) : s.tableWord ctx va pa = s.physWord pa := by
  simp [State.tableWord, State.eitherWord, h]

theorem exportWord_fresh {s : State} (h : s.held = []) (pa : Nat) : s.exportWord pa = s.physWord pa := by
  simp [State.exportWord, State.eitherWord, h]

/-- A held word is one of two: what was read before or what stands now (R296). -/
theorem eitherWord_cases (s : State) (pa : Nat) (h : HeldWord) :
    s.eitherWord pa (some h) = h.val ∨ s.eitherWord pa (some h) = s.physWord pa := by
  unfold State.eitherWord
  dsimp only
  split <;> simp

/-- The number of a register names that register (R374). -/
theorem barTarget_barNumber (b : Bool) {d off : Nat} (hd : d < 8) (ho : off < if b then 0x4000 else 0x1000000) :
    barTarget (barNumber b d off) = (b, d, off) := by
  cases b <;> simp only [barTarget, barNumber, Bool.false_eq_true, if_false, if_true] at ho ⊢ <;>
    (split <;> simp <;> omega)

end Sys2Proof.Machine
end

