-- ==== Sys2Proof/Laws/PerInstr.lean ====
section
/-! SUPPORT. For each row of the opcode table: decoding the word that encodes a well-formed instruction gives the instruction back, with
every operand at every value (R46 to R60). A step that has no word has nothing to decode. -/

namespace Sys2Proof.Laws.Encoding

set_option Elab.async false
set_option linter.unusedSimpArgs false

/-- Decoding what the encoder writes gives the instruction back. -/
def Statement (i : Instr) : Prop := i.wf = true → ∀ w : W32, encode i = some w → decode w = some i

/-- The number whose bits are the given (width, value) pieces, the lowest first. -/
def sumUp : List (Nat × Nat) → Nat
  | [] => 0
  | (k, x) :: r => x + 2 ^ k * sumUp r

/-- The same number, kept folded. -/
@[irreducible] def pack (fs : List (Nat × Nat)) : Nat := sumUp fs

theorem pack_eq (fs : List (Nat × Nat)) : pack fs = sumUp fs := by rw [pack]


/-- Every piece is within its width. -/
def Fits : List (Nat × Nat) → Prop
  | [] => True
  | (k, x) :: r => x < 2 ^ k ∧ Fits r

/-- The lowest bit of piece i. -/
def low : List (Nat × Nat) → Nat → Nat
  | (k, _) :: r, i + 1 => k + low r i
  | _, _ => 0

/-- A slice of the number that is one of its pieces is that piece. -/
theorem pack_slice {fs : List (Nat × Nat)} (h : Fits fs) (i : Nat) {lo k x : Nat} (hl : low fs i = lo) (hx : fs[i]? = some (k, x)) :
    pack fs / 2 ^ lo % 2 ^ k = x := by
  subst hl
  rw [pack_eq]
  induction fs generalizing i with
  | nil => cases hx
  | cons p r ih =>
    obtain ⟨j, y⟩ := p
    cases i with
    | zero => cases hx; simp [low, sumUp, Nat.add_mul_mod_self_left, Nat.mod_eq_of_lt h.1]
    | succ i =>
      rw [low, sumUp, Nat.pow_add, ← Nat.div_div_eq_div_mul, Nat.add_mul_div_left _ _ (Nat.two_pow_pos j), Nat.div_eq_of_lt h.1, Nat.zero_add]
      exact ih h.2 i hx

/-- The lowest piece. -/
theorem pack_low {fs : List (Nat × Nat)} (h : Fits fs) {k x : Nat} (hx : fs[0]? = some (k, x)) : pack fs % 2 ^ k = x := by
  simpa using pack_slice h 0 (lo := 0) (by cases fs <;> rfl) hx

/-- A field of a word that is one of its pieces. -/
theorem pack_field {fs : List (Nat × Nat)} (h : Fits fs) (i : Nat) {lo k : Nat} {x : BitVec k} (hl : low fs i = lo) (hx : fs[i]? = some (k, x.toNat)) :
    field (pack fs) lo k = x :=
  BitVec.eq_of_toNat_eq (by simpa [field] using pack_slice h i hl hx)

/-- The number fits the widths of its pieces. -/
theorem pack_lt {fs : List (Nat × Nat)} (h : Fits fs) : pack fs < 2 ^ low fs fs.length := by
  rw [pack_eq]
  induction fs with
  | nil => exact Nat.one_pos
  | cons p r ih =>
    have := ih h.2; have := h.1
    simp only [List.length_cons, low, Nat.pow_add, sumUp]
    nlinarith [Nat.two_pow_pos p.1]

/-- An instruction whose word has these pieces decodes to itself when the row of that word is its own. -/
theorem roundTrip {i : Instr} {fs : List (Nat × Nat)} (he : encodeNat i = some (pack fs)) (h : Fits fs) (k : Nat) (hk : fs.length = k) (hn : low fs k = 32)
    (hr : decodeRow (pack fs) = some i) {w : W32} (enc : encode i = some w) : decode w = some i := by
  have := hn ▸ hk ▸ pack_lt h
  rw [encode, he] at enc
  obtain rfl := Option.some.inj enc
  rw [decode, BitVec.toNat_ofNat, Nat.mod_eq_of_lt this, hr]

/-- Words of major opcode 0x01 (R52). -/
theorem row01 (n : Nat) (h : n / 33554432 % 128 = 0x01) : decodeRow n = decodeOp01 n := by
  simp only [decodeRow, h]

/-- Words of major opcode 0x03 (R52). -/
theorem row03 (n : Nat) (h : n / 33554432 % 128 = 0x03) : decodeRow n = decodeOp03 n := by
  simp only [decodeRow, h]

/-- Words of major opcode 0x04 (R52). -/
theorem row04 (n : Nat) (h : n / 33554432 % 128 = 0x04) : decodeRow n = decodeOp04 n := by
  simp only [decodeRow, h]

/-- Words of major opcode 0x05 (R52). -/
theorem row05 (n : Nat) (h : n / 33554432 % 128 = 0x05) : decodeRow n = decodeOp05 n := by
  simp only [decodeRow, h]

/-- Words of major opcode 0x06 (R52). -/
theorem row06 (n : Nat) (h : n / 33554432 % 128 = 0x06) : decodeRow n = decodeOp06 n := by
  simp only [decodeRow, h]

/-- Words of major opcode 0x10 (R52). -/
theorem row10 (n : Nat) (h : n / 33554432 % 128 = 0x10) : decodeRow n = decodeOp10 n := by
  simp only [decodeRow, h]

/-- Words of major opcode 0x11 (R52). -/
theorem row11 (n : Nat) (h : n / 33554432 % 128 = 0x11) : decodeRow n = decodeOp11 n := by
  simp only [decodeRow, h]

/-- Words of major opcode 0x12 (R52). -/
theorem row12 (n : Nat) (h : n / 33554432 % 128 = 0x12) : decodeRow n = decodeOp12 n := by
  simp only [decodeRow, h]

/-- Words of major opcode 0x13 (R52). -/
theorem row13 (n : Nat) (h : n / 33554432 % 128 = 0x13) : decodeRow n = decodeOp13 n := by
  simp only [decodeRow, h]

/-- Words of major opcode 0x14 (R52). -/
theorem row14 (n : Nat) (h : n / 33554432 % 128 = 0x14) : decodeRow n = decodeOp14 n := by
  simp only [decodeRow, h]

/-- Words of major opcode 0x15 (R52). -/
theorem row15 (n : Nat) (h : n / 33554432 % 128 = 0x15) : decodeRow n = decodeOp15 n := by
  simp only [decodeRow, h]

/-- Words of major opcode 0x18 (R52). -/
theorem row18 (n : Nat) (h : n / 33554432 % 128 = 0x18) : decodeRow n = decodeOp18 n := by
  simp only [decodeRow, h]

/-- Words of major opcode 0x19 (R52). -/
theorem row19 (n : Nat) (h : n / 33554432 % 128 = 0x19) : decodeRow n = decodeOp19 n := by
  simp only [decodeRow, h]

/-- Words of major opcode 0x1A (R52). -/
theorem row1A (n : Nat) (h : n / 33554432 % 128 = 0x1A) : decodeRow n = decodeOp1A n := by
  simp only [decodeRow, h]

/-- Words of major opcode 0x1B (R52). -/
theorem row1B (n : Nat) (h : n / 33554432 % 128 = 0x1B) : decodeRow n = decodeOp1B n := by
  simp only [decodeRow, h]

/-- Words of major opcode 0x1C (R52). -/
theorem row1C (n : Nat) (h : n / 33554432 % 128 = 0x1C) : decodeRow n = decodeOp1C n := by
  simp only [decodeRow, h]

/-- Words of major opcode 0x1D (R52). -/
theorem row1D (n : Nat) (h : n / 33554432 % 128 = 0x1D) : decodeRow n = decodeOp1D n := by
  simp only [decodeRow, h]

/-- Words of major opcode 0x1E (R52). -/
theorem row1E (n : Nat) (h : n / 33554432 % 128 = 0x1E) : decodeRow n = decodeOp1E n := by
  simp only [decodeRow, h]

/-- Words of major opcode 0x1F (R52). -/
theorem row1F (n : Nat) (h : n / 33554432 % 128 = 0x1F) : decodeRow n = decodeOp1F n := by
  simp only [decodeRow, h]

/-- Words of major opcode 0x20 (R52). -/
theorem row20 (n : Nat) (h : n / 33554432 % 128 = 0x20) : decodeRow n = decodeOp20 n := by
  simp only [decodeRow, h]

/-- Words of major opcode 0x21 (R52). -/
theorem row21 (n : Nat) (h : n / 33554432 % 128 = 0x21) : decodeRow n = decodeOp21 n := by
  simp only [decodeRow, h]

/-- Words of major opcode 0x22 (R52). -/
theorem row22 (n : Nat) (h : n / 33554432 % 128 = 0x22) : decodeRow n = decodeOp22 n := by
  simp only [decodeRow, h]

/-- Words of major opcode 0x23 (R52). -/
theorem row23 (n : Nat) (h : n / 33554432 % 128 = 0x23) : decodeRow n = decodeOp23 n := by
  simp only [decodeRow, h]

/-- Words of major opcode 0x24 (R52). -/
theorem row24 (n : Nat) (h : n / 33554432 % 128 = 0x24) : decodeRow n = decodeOp24 n := by
  simp only [decodeRow, h]

/-- Words of major opcode 0x25 (R52). -/
theorem row25 (n : Nat) (h : n / 33554432 % 128 = 0x25) : decodeRow n = decodeOp25 n := by
  simp only [decodeRow, h]

/-- Words of major opcode 0x26 (R52). -/
theorem row26 (n : Nat) (h : n / 33554432 % 128 = 0x26) : decodeRow n = decodeOp26 n := by
  simp only [decodeRow, h]

/-- Words of major opcode 0x27 (R52). -/
theorem row27 (n : Nat) (h : n / 33554432 % 128 = 0x27) : decodeRow n = decodeOp27 n := by
  simp only [decodeRow, h]

/-- Words of major opcode 0x28 (R52). -/
theorem row28 (n : Nat) (h : n / 33554432 % 128 = 0x28) : decodeRow n = decodeOp28 n := by
  simp only [decodeRow, h]

/-- Words of major opcode 0x29 (R52). -/
theorem row29 (n : Nat) (h : n / 33554432 % 128 = 0x29) : decodeRow n = decodeOp29 n := by
  simp only [decodeRow, h]

/-- Words of major opcode 0x2A (R52). -/
theorem row2A (n : Nat) (h : n / 33554432 % 128 = 0x2A) : decodeRow n = decodeOp2A n := by
  simp only [decodeRow, h]

/-- Words of major opcode 0x2B (R52). -/
theorem row2B (n : Nat) (h : n / 33554432 % 128 = 0x2B) : decodeRow n = decodeOp2B n := by
  simp only [decodeRow, h]

/-- Words of major opcode 0x2C (R52). -/
theorem row2C (n : Nat) (h : n / 33554432 % 128 = 0x2C) : decodeRow n = decodeOp2C n := by
  simp only [decodeRow, h]

/-- Words of major opcode 0x2D (R52). -/
theorem row2D (n : Nat) (h : n / 33554432 % 128 = 0x2D) : decodeRow n = decodeOp2D n := by
  simp only [decodeRow, h]

/-- Words of major opcode 0x2E (R52). -/
theorem row2E (n : Nat) (h : n / 33554432 % 128 = 0x2E) : decodeRow n = decodeOp2E n := by
  simp only [decodeRow, h]

/-- Words of major opcode 0x2F (R52). -/
theorem row2F (n : Nat) (h : n / 33554432 % 128 = 0x2F) : decodeRow n = decodeOp2F n := by
  simp only [decodeRow, h]

/-- Words of major opcode 0x30 (R52). -/
theorem row30 (n : Nat) (h : n / 33554432 % 128 = 0x30) : decodeRow n = decodeOp30 n := by
  simp only [decodeRow, h]

/-- Words of major opcode 0x31 (R52). -/
theorem row31 (n : Nat) (h : n / 33554432 % 128 = 0x31) : decodeRow n = decodeOp31 n := by
  simp only [decodeRow, h]

/-- Words of major opcode 0x32 (R52). -/
theorem row32 (n : Nat) (h : n / 33554432 % 128 = 0x32) : decodeRow n = decodeOp32 n := by
  simp only [decodeRow, h]

/-- Words of major opcode 0x33 (R52). -/
theorem row33 (n : Nat) (h : n / 33554432 % 128 = 0x33) : decodeRow n = decodeOp33 n := by
  simp only [decodeRow, h]

/-- Words of major opcode 0x34 (R52). -/
theorem row34 (n : Nat) (h : n / 33554432 % 128 = 0x34) : decodeRow n = decodeOp34 n := by
  simp only [decodeRow, h]

/-- Words of major opcode 0x35 (R52). -/
theorem row35 (n : Nat) (h : n / 33554432 % 128 = 0x35) : decodeRow n = decodeOp35 n := by
  simp only [decodeRow, h]

/-- Words of major opcode 0x36 (R52). -/
theorem row36 (n : Nat) (h : n / 33554432 % 128 = 0x36) : decodeRow n = decodeOp36 n := by
  simp only [decodeRow, h]

/-- Words of major opcode 0x37 (R52). -/
theorem row37 (n : Nat) (h : n / 33554432 % 128 = 0x37) : decodeRow n = decodeOp37 n := by
  simp only [decodeRow, h]

/-- Words of major opcode 0x38 (R52). -/
theorem row38 (n : Nat) (h : n / 33554432 % 128 = 0x38) : decodeRow n = decodeOp38 n := by
  simp only [decodeRow, h]

/-- Words of major opcode 0x39 (R52). -/
theorem row39 (n : Nat) (h : n / 33554432 % 128 = 0x39) : decodeRow n = decodeOp39 n := by
  simp only [decodeRow, h]

/-- Words of major opcode 0x40 (R52). -/
theorem row40 (n : Nat) (h : n / 33554432 % 128 = 0x40) : decodeRow n = decodeOp40 n := by
  simp only [decodeRow, h]

/-- Words of major opcode 0x41 (R52). -/
theorem row41 (n : Nat) (h : n / 33554432 % 128 = 0x41) : decodeRow n = decodeOp41 n := by
  simp only [decodeRow, h]

/-- Words of major opcode 0x42 (R52). -/
theorem row42 (n : Nat) (h : n / 33554432 % 128 = 0x42) : decodeRow n = decodeOp42 n := by
  simp only [decodeRow, h]

/-- Words of major opcode 0x43 (R52). -/
theorem row43 (n : Nat) (h : n / 33554432 % 128 = 0x43) : decodeRow n = decodeOp43 n := by
  simp only [decodeRow, h]

/-- Words of major opcode 0x44 (R52). -/
theorem row44 (n : Nat) (h : n / 33554432 % 128 = 0x44) : decodeRow n = decodeOp44 n := by
  simp only [decodeRow, h]

/-- Words of major opcode 0x45 (R52). -/
theorem row45 (n : Nat) (h : n / 33554432 % 128 = 0x45) : decodeRow n = decodeOp45 n := by
  simp only [decodeRow, h]

/-- Words of major opcode 0x4C (R52). -/
theorem row4C (n : Nat) (h : n / 33554432 % 128 = 0x4C) : decodeRow n = decodeOp4C n := by
  simp only [decodeRow, h]

/-- Words of major opcode 0x4D (R52). -/
theorem row4D (n : Nat) (h : n / 33554432 % 128 = 0x4D) : decodeRow n = decodeOp4D n := by
  simp only [decodeRow, h]

/-- Words of major opcode 0x4E (R52). -/
theorem row4E (n : Nat) (h : n / 33554432 % 128 = 0x4E) : decodeRow n = decodeOp4E n := by
  simp only [decodeRow, h]

/-- Words of major opcode 0x50 (R52). -/
theorem row50 (n : Nat) (h : n / 33554432 % 128 = 0x50) : decodeRow n = decodeOp50 n := by
  simp only [decodeRow, h]

/-- Words of major opcode 0x51 (R52). -/
theorem row51 (n : Nat) (h : n / 33554432 % 128 = 0x51) : decodeRow n = decodeOp51 n := by
  simp only [decodeRow, h]

/-- Words of major opcode 0x52 (R52). -/
theorem row52 (n : Nat) (h : n / 33554432 % 128 = 0x52) : decodeRow n = decodeOp52 n := by
  simp only [decodeRow, h]

/-- Words of major opcode 0x53 (R52). -/
theorem row53 (n : Nat) (h : n / 33554432 % 128 = 0x53) : decodeRow n = decodeOp53 n := by
  simp only [decodeRow, h]

/-- Words of major opcode 0x54 (R52). -/
theorem row54 (n : Nat) (h : n / 33554432 % 128 = 0x54) : decodeRow n = decodeOp54 n := by
  simp only [decodeRow, h]

/-- Words of major opcode 0x55 (R52). -/
theorem row55 (n : Nat) (h : n / 33554432 % 128 = 0x55) : decodeRow n = decodeOp55 n := by
  simp only [decodeRow, h]

/-- Words of major opcode 0x58 (R52). -/
theorem row58 (n : Nat) (h : n / 33554432 % 128 = 0x58) : decodeRow n = decodeOp58 n := by
  simp only [decodeRow, h]

/-- Words of major opcode 0x59 (R52). -/
theorem row59 (n : Nat) (h : n / 33554432 % 128 = 0x59) : decodeRow n = decodeOp59 n := by
  simp only [decodeRow, h]

/-- Words of major opcode 0x5A (R52). -/
theorem row5A (n : Nat) (h : n / 33554432 % 128 = 0x5A) : decodeRow n = decodeOp5A n := by
  simp only [decodeRow, h]

/-- Words of major opcode 0x5B (R52). -/
theorem row5B (n : Nat) (h : n / 33554432 % 128 = 0x5B) : decodeRow n = decodeOp5B n := by
  simp only [decodeRow, h]

/-- Words of major opcode 0x5C (R52). -/
theorem row5C (n : Nat) (h : n / 33554432 % 128 = 0x5C) : decodeRow n = decodeOp5C n := by
  simp only [decodeRow, h]

/-- Words of major opcode 0x7E (R52). -/
theorem row7E (n : Nat) (h : n / 33554432 % 128 = 0x7E) : decodeRow n = decodeOp7E n := by
  simp only [decodeRow, h]

theorem add (d : BitVec 5) (a : BitVec 5) (b : BitVec 5) : Statement (.add d a b) := by
  intro hw word enc
  have hfit : Fits [(10, 0), (5, b.toNat), (5, a.toNat), (5, d.toNat), (7, 1)] := ⟨by decide, b.isLt, a.isLt, d.isLt, by decide, trivial⟩
  have hp : 0x02000000 + d.toNat * 1048576 + a.toNat * 32768 + b.toNat * 1024 = pack [(10, 0), (5, b.toNat), (5, a.toNat), (5, d.toNat), (7, 1)] := by
    rw [pack_eq]
    change _ = 0 + 1024 * (b.toNat + 32 * (a.toNat + 32 * (d.toNat + 32 * (1))))
    omega
  refine roundTrip ?_ hfit 5 rfl rfl ?_ enc
  · exact congrArg some hp
  · rw [row01 _ (pack_slice hfit 4 rfl rfl)]
    have e0 : _ % 1024 = 0 := pack_low hfit rfl
    simp only [decodeOp01, e0, pack_field hfit 3 (lo := 20) rfl rfl, pack_field hfit 2 (lo := 15) rfl rfl, pack_field hfit 1 (lo := 10) rfl rfl, Nat.reduceEqDiff, reduceIte]

theorem sub (d : BitVec 5) (a : BitVec 5) (b : BitVec 5) : Statement (.sub d a b) := by
  intro hw word enc
  have hfit : Fits [(10, 1), (5, b.toNat), (5, a.toNat), (5, d.toNat), (7, 1)] := ⟨by decide, b.isLt, a.isLt, d.isLt, by decide, trivial⟩
  have hp : 0x02000001 + d.toNat * 1048576 + a.toNat * 32768 + b.toNat * 1024 = pack [(10, 1), (5, b.toNat), (5, a.toNat), (5, d.toNat), (7, 1)] := by
    rw [pack_eq]
    change _ = 1 + 1024 * (b.toNat + 32 * (a.toNat + 32 * (d.toNat + 32 * (1))))
    omega
  refine roundTrip ?_ hfit 5 rfl rfl ?_ enc
  · exact congrArg some hp
  · rw [row01 _ (pack_slice hfit 4 rfl rfl)]
    have e0 : _ % 1024 = 1 := pack_low hfit rfl
    simp only [decodeOp01, e0, pack_field hfit 3 (lo := 20) rfl rfl, pack_field hfit 2 (lo := 15) rfl rfl, pack_field hfit 1 (lo := 10) rfl rfl, Nat.reduceEqDiff, reduceIte]

theorem mul (d : BitVec 5) (a : BitVec 5) (b : BitVec 5) : Statement (.mul d a b) := by
  intro hw word enc
  have hfit : Fits [(10, 2), (5, b.toNat), (5, a.toNat), (5, d.toNat), (7, 1)] := ⟨by decide, b.isLt, a.isLt, d.isLt, by decide, trivial⟩
  have hp : 0x02000002 + d.toNat * 1048576 + a.toNat * 32768 + b.toNat * 1024 = pack [(10, 2), (5, b.toNat), (5, a.toNat), (5, d.toNat), (7, 1)] := by
    rw [pack_eq]
    change _ = 2 + 1024 * (b.toNat + 32 * (a.toNat + 32 * (d.toNat + 32 * (1))))
    omega
  refine roundTrip ?_ hfit 5 rfl rfl ?_ enc
  · exact congrArg some hp
  · rw [row01 _ (pack_slice hfit 4 rfl rfl)]
    have e0 : _ % 1024 = 2 := pack_low hfit rfl
    simp only [decodeOp01, e0, pack_field hfit 3 (lo := 20) rfl rfl, pack_field hfit 2 (lo := 15) rfl rfl, pack_field hfit 1 (lo := 10) rfl rfl, Nat.reduceEqDiff, reduceIte]

theorem mulh (d : BitVec 5) (a : BitVec 5) (b : BitVec 5) : Statement (.mulh d a b) := by
  intro hw word enc
  have hfit : Fits [(10, 3), (5, b.toNat), (5, a.toNat), (5, d.toNat), (7, 1)] := ⟨by decide, b.isLt, a.isLt, d.isLt, by decide, trivial⟩
  have hp : 0x02000003 + d.toNat * 1048576 + a.toNat * 32768 + b.toNat * 1024 = pack [(10, 3), (5, b.toNat), (5, a.toNat), (5, d.toNat), (7, 1)] := by
    rw [pack_eq]
    change _ = 3 + 1024 * (b.toNat + 32 * (a.toNat + 32 * (d.toNat + 32 * (1))))
    omega
  refine roundTrip ?_ hfit 5 rfl rfl ?_ enc
  · exact congrArg some hp
  · rw [row01 _ (pack_slice hfit 4 rfl rfl)]
    have e0 : _ % 1024 = 3 := pack_low hfit rfl
    simp only [decodeOp01, e0, pack_field hfit 3 (lo := 20) rfl rfl, pack_field hfit 2 (lo := 15) rfl rfl, pack_field hfit 1 (lo := 10) rfl rfl, Nat.reduceEqDiff, reduceIte]

theorem mulhz (d : BitVec 5) (a : BitVec 5) (b : BitVec 5) : Statement (.mulhz d a b) := by
  intro hw word enc
  have hfit : Fits [(10, 4), (5, b.toNat), (5, a.toNat), (5, d.toNat), (7, 1)] := ⟨by decide, b.isLt, a.isLt, d.isLt, by decide, trivial⟩
  have hp : 0x02000004 + d.toNat * 1048576 + a.toNat * 32768 + b.toNat * 1024 = pack [(10, 4), (5, b.toNat), (5, a.toNat), (5, d.toNat), (7, 1)] := by
    rw [pack_eq]
    change _ = 4 + 1024 * (b.toNat + 32 * (a.toNat + 32 * (d.toNat + 32 * (1))))
    omega
  refine roundTrip ?_ hfit 5 rfl rfl ?_ enc
  · exact congrArg some hp
  · rw [row01 _ (pack_slice hfit 4 rfl rfl)]
    have e0 : _ % 1024 = 4 := pack_low hfit rfl
    simp only [decodeOp01, e0, pack_field hfit 3 (lo := 20) rfl rfl, pack_field hfit 2 (lo := 15) rfl rfl, pack_field hfit 1 (lo := 10) rfl rfl, Nat.reduceEqDiff, reduceIte]

theorem div (d : BitVec 5) (a : BitVec 5) (b : BitVec 5) : Statement (.div d a b) := by
  intro hw word enc
  have hfit : Fits [(10, 5), (5, b.toNat), (5, a.toNat), (5, d.toNat), (7, 1)] := ⟨by decide, b.isLt, a.isLt, d.isLt, by decide, trivial⟩
  have hp : 0x02000005 + d.toNat * 1048576 + a.toNat * 32768 + b.toNat * 1024 = pack [(10, 5), (5, b.toNat), (5, a.toNat), (5, d.toNat), (7, 1)] := by
    rw [pack_eq]
    change _ = 5 + 1024 * (b.toNat + 32 * (a.toNat + 32 * (d.toNat + 32 * (1))))
    omega
  refine roundTrip ?_ hfit 5 rfl rfl ?_ enc
  · exact congrArg some hp
  · rw [row01 _ (pack_slice hfit 4 rfl rfl)]
    have e0 : _ % 1024 = 5 := pack_low hfit rfl
    simp only [decodeOp01, e0, pack_field hfit 3 (lo := 20) rfl rfl, pack_field hfit 2 (lo := 15) rfl rfl, pack_field hfit 1 (lo := 10) rfl rfl, Nat.reduceEqDiff, reduceIte]

theorem divz (d : BitVec 5) (a : BitVec 5) (b : BitVec 5) : Statement (.divz d a b) := by
  intro hw word enc
  have hfit : Fits [(10, 6), (5, b.toNat), (5, a.toNat), (5, d.toNat), (7, 1)] := ⟨by decide, b.isLt, a.isLt, d.isLt, by decide, trivial⟩
  have hp : 0x02000006 + d.toNat * 1048576 + a.toNat * 32768 + b.toNat * 1024 = pack [(10, 6), (5, b.toNat), (5, a.toNat), (5, d.toNat), (7, 1)] := by
    rw [pack_eq]
    change _ = 6 + 1024 * (b.toNat + 32 * (a.toNat + 32 * (d.toNat + 32 * (1))))
    omega
  refine roundTrip ?_ hfit 5 rfl rfl ?_ enc
  · exact congrArg some hp
  · rw [row01 _ (pack_slice hfit 4 rfl rfl)]
    have e0 : _ % 1024 = 6 := pack_low hfit rfl
    simp only [decodeOp01, e0, pack_field hfit 3 (lo := 20) rfl rfl, pack_field hfit 2 (lo := 15) rfl rfl, pack_field hfit 1 (lo := 10) rfl rfl, Nat.reduceEqDiff, reduceIte]

theorem rem (d : BitVec 5) (a : BitVec 5) (b : BitVec 5) : Statement (.rem d a b) := by
  intro hw word enc
  have hfit : Fits [(10, 7), (5, b.toNat), (5, a.toNat), (5, d.toNat), (7, 1)] := ⟨by decide, b.isLt, a.isLt, d.isLt, by decide, trivial⟩
  have hp : 0x02000007 + d.toNat * 1048576 + a.toNat * 32768 + b.toNat * 1024 = pack [(10, 7), (5, b.toNat), (5, a.toNat), (5, d.toNat), (7, 1)] := by
    rw [pack_eq]
    change _ = 7 + 1024 * (b.toNat + 32 * (a.toNat + 32 * (d.toNat + 32 * (1))))
    omega
  refine roundTrip ?_ hfit 5 rfl rfl ?_ enc
  · exact congrArg some hp
  · rw [row01 _ (pack_slice hfit 4 rfl rfl)]
    have e0 : _ % 1024 = 7 := pack_low hfit rfl
    simp only [decodeOp01, e0, pack_field hfit 3 (lo := 20) rfl rfl, pack_field hfit 2 (lo := 15) rfl rfl, pack_field hfit 1 (lo := 10) rfl rfl, Nat.reduceEqDiff, reduceIte]

theorem remz (d : BitVec 5) (a : BitVec 5) (b : BitVec 5) : Statement (.remz d a b) := by
  intro hw word enc
  have hfit : Fits [(10, 8), (5, b.toNat), (5, a.toNat), (5, d.toNat), (7, 1)] := ⟨by decide, b.isLt, a.isLt, d.isLt, by decide, trivial⟩
  have hp : 0x02000008 + d.toNat * 1048576 + a.toNat * 32768 + b.toNat * 1024 = pack [(10, 8), (5, b.toNat), (5, a.toNat), (5, d.toNat), (7, 1)] := by
    rw [pack_eq]
    change _ = 8 + 1024 * (b.toNat + 32 * (a.toNat + 32 * (d.toNat + 32 * (1))))
    omega
  refine roundTrip ?_ hfit 5 rfl rfl ?_ enc
  · exact congrArg some hp
  · rw [row01 _ (pack_slice hfit 4 rfl rfl)]
    have e0 : _ % 1024 = 8 := pack_low hfit rfl
    simp only [decodeOp01, e0, pack_field hfit 3 (lo := 20) rfl rfl, pack_field hfit 2 (lo := 15) rfl rfl, pack_field hfit 1 (lo := 10) rfl rfl, Nat.reduceEqDiff, reduceIte]

theorem and (d : BitVec 5) (a : BitVec 5) (b : BitVec 5) : Statement (.and d a b) := by
  intro hw word enc
  have hfit : Fits [(10, 16), (5, b.toNat), (5, a.toNat), (5, d.toNat), (7, 1)] := ⟨by decide, b.isLt, a.isLt, d.isLt, by decide, trivial⟩
  have hp : 0x02000010 + d.toNat * 1048576 + a.toNat * 32768 + b.toNat * 1024 = pack [(10, 16), (5, b.toNat), (5, a.toNat), (5, d.toNat), (7, 1)] := by
    rw [pack_eq]
    change _ = 16 + 1024 * (b.toNat + 32 * (a.toNat + 32 * (d.toNat + 32 * (1))))
    omega
  refine roundTrip ?_ hfit 5 rfl rfl ?_ enc
  · exact congrArg some hp
  · rw [row01 _ (pack_slice hfit 4 rfl rfl)]
    have e0 : _ % 1024 = 16 := pack_low hfit rfl
    simp only [decodeOp01, e0, pack_field hfit 3 (lo := 20) rfl rfl, pack_field hfit 2 (lo := 15) rfl rfl, pack_field hfit 1 (lo := 10) rfl rfl, Nat.reduceEqDiff, reduceIte]

theorem or (d : BitVec 5) (a : BitVec 5) (b : BitVec 5) : Statement (.or d a b) := by
  intro hw word enc
  have hfit : Fits [(10, 17), (5, b.toNat), (5, a.toNat), (5, d.toNat), (7, 1)] := ⟨by decide, b.isLt, a.isLt, d.isLt, by decide, trivial⟩
  have hp : 0x02000011 + d.toNat * 1048576 + a.toNat * 32768 + b.toNat * 1024 = pack [(10, 17), (5, b.toNat), (5, a.toNat), (5, d.toNat), (7, 1)] := by
    rw [pack_eq]
    change _ = 17 + 1024 * (b.toNat + 32 * (a.toNat + 32 * (d.toNat + 32 * (1))))
    omega
  refine roundTrip ?_ hfit 5 rfl rfl ?_ enc
  · exact congrArg some hp
  · rw [row01 _ (pack_slice hfit 4 rfl rfl)]
    have e0 : _ % 1024 = 17 := pack_low hfit rfl
    simp only [decodeOp01, e0, pack_field hfit 3 (lo := 20) rfl rfl, pack_field hfit 2 (lo := 15) rfl rfl, pack_field hfit 1 (lo := 10) rfl rfl, Nat.reduceEqDiff, reduceIte]

theorem xor (d : BitVec 5) (a : BitVec 5) (b : BitVec 5) : Statement (.xor d a b) := by
  intro hw word enc
  have hfit : Fits [(10, 18), (5, b.toNat), (5, a.toNat), (5, d.toNat), (7, 1)] := ⟨by decide, b.isLt, a.isLt, d.isLt, by decide, trivial⟩
  have hp : 0x02000012 + d.toNat * 1048576 + a.toNat * 32768 + b.toNat * 1024 = pack [(10, 18), (5, b.toNat), (5, a.toNat), (5, d.toNat), (7, 1)] := by
    rw [pack_eq]
    change _ = 18 + 1024 * (b.toNat + 32 * (a.toNat + 32 * (d.toNat + 32 * (1))))
    omega
  refine roundTrip ?_ hfit 5 rfl rfl ?_ enc
  · exact congrArg some hp
  · rw [row01 _ (pack_slice hfit 4 rfl rfl)]
    have e0 : _ % 1024 = 18 := pack_low hfit rfl
    simp only [decodeOp01, e0, pack_field hfit 3 (lo := 20) rfl rfl, pack_field hfit 2 (lo := 15) rfl rfl, pack_field hfit 1 (lo := 10) rfl rfl, Nat.reduceEqDiff, reduceIte]

theorem andn (d : BitVec 5) (a : BitVec 5) (b : BitVec 5) : Statement (.andn d a b) := by
  intro hw word enc
  have hfit : Fits [(10, 19), (5, b.toNat), (5, a.toNat), (5, d.toNat), (7, 1)] := ⟨by decide, b.isLt, a.isLt, d.isLt, by decide, trivial⟩
  have hp : 0x02000013 + d.toNat * 1048576 + a.toNat * 32768 + b.toNat * 1024 = pack [(10, 19), (5, b.toNat), (5, a.toNat), (5, d.toNat), (7, 1)] := by
    rw [pack_eq]
    change _ = 19 + 1024 * (b.toNat + 32 * (a.toNat + 32 * (d.toNat + 32 * (1))))
    omega
  refine roundTrip ?_ hfit 5 rfl rfl ?_ enc
  · exact congrArg some hp
  · rw [row01 _ (pack_slice hfit 4 rfl rfl)]
    have e0 : _ % 1024 = 19 := pack_low hfit rfl
    simp only [decodeOp01, e0, pack_field hfit 3 (lo := 20) rfl rfl, pack_field hfit 2 (lo := 15) rfl rfl, pack_field hfit 1 (lo := 10) rfl rfl, Nat.reduceEqDiff, reduceIte]

theorem shl (d : BitVec 5) (a : BitVec 5) (b : BitVec 5) : Statement (.shl d a b) := by
  intro hw word enc
  have hfit : Fits [(10, 24), (5, b.toNat), (5, a.toNat), (5, d.toNat), (7, 1)] := ⟨by decide, b.isLt, a.isLt, d.isLt, by decide, trivial⟩
  have hp : 0x02000018 + d.toNat * 1048576 + a.toNat * 32768 + b.toNat * 1024 = pack [(10, 24), (5, b.toNat), (5, a.toNat), (5, d.toNat), (7, 1)] := by
    rw [pack_eq]
    change _ = 24 + 1024 * (b.toNat + 32 * (a.toNat + 32 * (d.toNat + 32 * (1))))
    omega
  refine roundTrip ?_ hfit 5 rfl rfl ?_ enc
  · exact congrArg some hp
  · rw [row01 _ (pack_slice hfit 4 rfl rfl)]
    have e0 : _ % 1024 = 24 := pack_low hfit rfl
    simp only [decodeOp01, e0, pack_field hfit 3 (lo := 20) rfl rfl, pack_field hfit 2 (lo := 15) rfl rfl, pack_field hfit 1 (lo := 10) rfl rfl, Nat.reduceEqDiff, reduceIte]

theorem shr (d : BitVec 5) (a : BitVec 5) (b : BitVec 5) : Statement (.shr d a b) := by
  intro hw word enc
  have hfit : Fits [(10, 25), (5, b.toNat), (5, a.toNat), (5, d.toNat), (7, 1)] := ⟨by decide, b.isLt, a.isLt, d.isLt, by decide, trivial⟩
  have hp : 0x02000019 + d.toNat * 1048576 + a.toNat * 32768 + b.toNat * 1024 = pack [(10, 25), (5, b.toNat), (5, a.toNat), (5, d.toNat), (7, 1)] := by
    rw [pack_eq]
    change _ = 25 + 1024 * (b.toNat + 32 * (a.toNat + 32 * (d.toNat + 32 * (1))))
    omega
  refine roundTrip ?_ hfit 5 rfl rfl ?_ enc
  · exact congrArg some hp
  · rw [row01 _ (pack_slice hfit 4 rfl rfl)]
    have e0 : _ % 1024 = 25 := pack_low hfit rfl
    simp only [decodeOp01, e0, pack_field hfit 3 (lo := 20) rfl rfl, pack_field hfit 2 (lo := 15) rfl rfl, pack_field hfit 1 (lo := 10) rfl rfl, Nat.reduceEqDiff, reduceIte]

theorem sar (d : BitVec 5) (a : BitVec 5) (b : BitVec 5) : Statement (.sar d a b) := by
  intro hw word enc
  have hfit : Fits [(10, 26), (5, b.toNat), (5, a.toNat), (5, d.toNat), (7, 1)] := ⟨by decide, b.isLt, a.isLt, d.isLt, by decide, trivial⟩
  have hp : 0x0200001A + d.toNat * 1048576 + a.toNat * 32768 + b.toNat * 1024 = pack [(10, 26), (5, b.toNat), (5, a.toNat), (5, d.toNat), (7, 1)] := by
    rw [pack_eq]
    change _ = 26 + 1024 * (b.toNat + 32 * (a.toNat + 32 * (d.toNat + 32 * (1))))
    omega
  refine roundTrip ?_ hfit 5 rfl rfl ?_ enc
  · exact congrArg some hp
  · rw [row01 _ (pack_slice hfit 4 rfl rfl)]
    have e0 : _ % 1024 = 26 := pack_low hfit rfl
    simp only [decodeOp01, e0, pack_field hfit 3 (lo := 20) rfl rfl, pack_field hfit 2 (lo := 15) rfl rfl, pack_field hfit 1 (lo := 10) rfl rfl, Nat.reduceEqDiff, reduceIte]

theorem rol (d : BitVec 5) (a : BitVec 5) (b : BitVec 5) : Statement (.rol d a b) := by
  intro hw word enc
  have hfit : Fits [(10, 27), (5, b.toNat), (5, a.toNat), (5, d.toNat), (7, 1)] := ⟨by decide, b.isLt, a.isLt, d.isLt, by decide, trivial⟩
  have hp : 0x0200001B + d.toNat * 1048576 + a.toNat * 32768 + b.toNat * 1024 = pack [(10, 27), (5, b.toNat), (5, a.toNat), (5, d.toNat), (7, 1)] := by
    rw [pack_eq]
    change _ = 27 + 1024 * (b.toNat + 32 * (a.toNat + 32 * (d.toNat + 32 * (1))))
    omega
  refine roundTrip ?_ hfit 5 rfl rfl ?_ enc
  · exact congrArg some hp
  · rw [row01 _ (pack_slice hfit 4 rfl rfl)]
    have e0 : _ % 1024 = 27 := pack_low hfit rfl
    simp only [decodeOp01, e0, pack_field hfit 3 (lo := 20) rfl rfl, pack_field hfit 2 (lo := 15) rfl rfl, pack_field hfit 1 (lo := 10) rfl rfl, Nat.reduceEqDiff, reduceIte]

theorem ror (d : BitVec 5) (a : BitVec 5) (b : BitVec 5) : Statement (.ror d a b) := by
  intro hw word enc
  have hfit : Fits [(10, 28), (5, b.toNat), (5, a.toNat), (5, d.toNat), (7, 1)] := ⟨by decide, b.isLt, a.isLt, d.isLt, by decide, trivial⟩
  have hp : 0x0200001C + d.toNat * 1048576 + a.toNat * 32768 + b.toNat * 1024 = pack [(10, 28), (5, b.toNat), (5, a.toNat), (5, d.toNat), (7, 1)] := by
    rw [pack_eq]
    change _ = 28 + 1024 * (b.toNat + 32 * (a.toNat + 32 * (d.toNat + 32 * (1))))
    omega
  refine roundTrip ?_ hfit 5 rfl rfl ?_ enc
  · exact congrArg some hp
  · rw [row01 _ (pack_slice hfit 4 rfl rfl)]
    have e0 : _ % 1024 = 28 := pack_low hfit rfl
    simp only [decodeOp01, e0, pack_field hfit 3 (lo := 20) rfl rfl, pack_field hfit 2 (lo := 15) rfl rfl, pack_field hfit 1 (lo := 10) rfl rfl, Nat.reduceEqDiff, reduceIte]

theorem slt (d : BitVec 5) (a : BitVec 5) (b : BitVec 5) : Statement (.slt d a b) := by
  intro hw word enc
  have hfit : Fits [(10, 32), (5, b.toNat), (5, a.toNat), (5, d.toNat), (7, 1)] := ⟨by decide, b.isLt, a.isLt, d.isLt, by decide, trivial⟩
  have hp : 0x02000020 + d.toNat * 1048576 + a.toNat * 32768 + b.toNat * 1024 = pack [(10, 32), (5, b.toNat), (5, a.toNat), (5, d.toNat), (7, 1)] := by
    rw [pack_eq]
    change _ = 32 + 1024 * (b.toNat + 32 * (a.toNat + 32 * (d.toNat + 32 * (1))))
    omega
  refine roundTrip ?_ hfit 5 rfl rfl ?_ enc
  · exact congrArg some hp
  · rw [row01 _ (pack_slice hfit 4 rfl rfl)]
    have e0 : _ % 1024 = 32 := pack_low hfit rfl
    simp only [decodeOp01, e0, pack_field hfit 3 (lo := 20) rfl rfl, pack_field hfit 2 (lo := 15) rfl rfl, pack_field hfit 1 (lo := 10) rfl rfl, Nat.reduceEqDiff, reduceIte]

theorem sltz (d : BitVec 5) (a : BitVec 5) (b : BitVec 5) : Statement (.sltz d a b) := by
  intro hw word enc
  have hfit : Fits [(10, 33), (5, b.toNat), (5, a.toNat), (5, d.toNat), (7, 1)] := ⟨by decide, b.isLt, a.isLt, d.isLt, by decide, trivial⟩
  have hp : 0x02000021 + d.toNat * 1048576 + a.toNat * 32768 + b.toNat * 1024 = pack [(10, 33), (5, b.toNat), (5, a.toNat), (5, d.toNat), (7, 1)] := by
    rw [pack_eq]
    change _ = 33 + 1024 * (b.toNat + 32 * (a.toNat + 32 * (d.toNat + 32 * (1))))
    omega
  refine roundTrip ?_ hfit 5 rfl rfl ?_ enc
  · exact congrArg some hp
  · rw [row01 _ (pack_slice hfit 4 rfl rfl)]
    have e0 : _ % 1024 = 33 := pack_low hfit rfl
    simp only [decodeOp01, e0, pack_field hfit 3 (lo := 20) rfl rfl, pack_field hfit 2 (lo := 15) rfl rfl, pack_field hfit 1 (lo := 10) rfl rfl, Nat.reduceEqDiff, reduceIte]

theorem min (d : BitVec 5) (a : BitVec 5) (b : BitVec 5) : Statement (.min d a b) := by
  intro hw word enc
  have hfit : Fits [(10, 34), (5, b.toNat), (5, a.toNat), (5, d.toNat), (7, 1)] := ⟨by decide, b.isLt, a.isLt, d.isLt, by decide, trivial⟩
  have hp : 0x02000022 + d.toNat * 1048576 + a.toNat * 32768 + b.toNat * 1024 = pack [(10, 34), (5, b.toNat), (5, a.toNat), (5, d.toNat), (7, 1)] := by
    rw [pack_eq]
    change _ = 34 + 1024 * (b.toNat + 32 * (a.toNat + 32 * (d.toNat + 32 * (1))))
    omega
  refine roundTrip ?_ hfit 5 rfl rfl ?_ enc
  · exact congrArg some hp
  · rw [row01 _ (pack_slice hfit 4 rfl rfl)]
    have e0 : _ % 1024 = 34 := pack_low hfit rfl
    simp only [decodeOp01, e0, pack_field hfit 3 (lo := 20) rfl rfl, pack_field hfit 2 (lo := 15) rfl rfl, pack_field hfit 1 (lo := 10) rfl rfl, Nat.reduceEqDiff, reduceIte]

theorem max (d : BitVec 5) (a : BitVec 5) (b : BitVec 5) : Statement (.max d a b) := by
  intro hw word enc
  have hfit : Fits [(10, 35), (5, b.toNat), (5, a.toNat), (5, d.toNat), (7, 1)] := ⟨by decide, b.isLt, a.isLt, d.isLt, by decide, trivial⟩
  have hp : 0x02000023 + d.toNat * 1048576 + a.toNat * 32768 + b.toNat * 1024 = pack [(10, 35), (5, b.toNat), (5, a.toNat), (5, d.toNat), (7, 1)] := by
    rw [pack_eq]
    change _ = 35 + 1024 * (b.toNat + 32 * (a.toNat + 32 * (d.toNat + 32 * (1))))
    omega
  refine roundTrip ?_ hfit 5 rfl rfl ?_ enc
  · exact congrArg some hp
  · rw [row01 _ (pack_slice hfit 4 rfl rfl)]
    have e0 : _ % 1024 = 35 := pack_low hfit rfl
    simp only [decodeOp01, e0, pack_field hfit 3 (lo := 20) rfl rfl, pack_field hfit 2 (lo := 15) rfl rfl, pack_field hfit 1 (lo := 10) rfl rfl, Nat.reduceEqDiff, reduceIte]

theorem minz (d : BitVec 5) (a : BitVec 5) (b : BitVec 5) : Statement (.minz d a b) := by
  intro hw word enc
  have hfit : Fits [(10, 36), (5, b.toNat), (5, a.toNat), (5, d.toNat), (7, 1)] := ⟨by decide, b.isLt, a.isLt, d.isLt, by decide, trivial⟩
  have hp : 0x02000024 + d.toNat * 1048576 + a.toNat * 32768 + b.toNat * 1024 = pack [(10, 36), (5, b.toNat), (5, a.toNat), (5, d.toNat), (7, 1)] := by
    rw [pack_eq]
    change _ = 36 + 1024 * (b.toNat + 32 * (a.toNat + 32 * (d.toNat + 32 * (1))))
    omega
  refine roundTrip ?_ hfit 5 rfl rfl ?_ enc
  · exact congrArg some hp
  · rw [row01 _ (pack_slice hfit 4 rfl rfl)]
    have e0 : _ % 1024 = 36 := pack_low hfit rfl
    simp only [decodeOp01, e0, pack_field hfit 3 (lo := 20) rfl rfl, pack_field hfit 2 (lo := 15) rfl rfl, pack_field hfit 1 (lo := 10) rfl rfl, Nat.reduceEqDiff, reduceIte]

theorem maxz (d : BitVec 5) (a : BitVec 5) (b : BitVec 5) : Statement (.maxz d a b) := by
  intro hw word enc
  have hfit : Fits [(10, 37), (5, b.toNat), (5, a.toNat), (5, d.toNat), (7, 1)] := ⟨by decide, b.isLt, a.isLt, d.isLt, by decide, trivial⟩
  have hp : 0x02000025 + d.toNat * 1048576 + a.toNat * 32768 + b.toNat * 1024 = pack [(10, 37), (5, b.toNat), (5, a.toNat), (5, d.toNat), (7, 1)] := by
    rw [pack_eq]
    change _ = 37 + 1024 * (b.toNat + 32 * (a.toNat + 32 * (d.toNat + 32 * (1))))
    omega
  refine roundTrip ?_ hfit 5 rfl rfl ?_ enc
  · exact congrArg some hp
  · rw [row01 _ (pack_slice hfit 4 rfl rfl)]
    have e0 : _ % 1024 = 37 := pack_low hfit rfl
    simp only [decodeOp01, e0, pack_field hfit 3 (lo := 20) rfl rfl, pack_field hfit 2 (lo := 15) rfl rfl, pack_field hfit 1 (lo := 10) rfl rfl, Nat.reduceEqDiff, reduceIte]

theorem cmov (d : BitVec 5) (a : BitVec 5) (b : BitVec 5) : Statement (.cmov d a b) := by
  intro hw word enc
  have hfit : Fits [(10, 38), (5, b.toNat), (5, a.toNat), (5, d.toNat), (7, 1)] := ⟨by decide, b.isLt, a.isLt, d.isLt, by decide, trivial⟩
  have hp : 0x02000026 + d.toNat * 1048576 + a.toNat * 32768 + b.toNat * 1024 = pack [(10, 38), (5, b.toNat), (5, a.toNat), (5, d.toNat), (7, 1)] := by
    rw [pack_eq]
    change _ = 38 + 1024 * (b.toNat + 32 * (a.toNat + 32 * (d.toNat + 32 * (1))))
    omega
  refine roundTrip ?_ hfit 5 rfl rfl ?_ enc
  · exact congrArg some hp
  · rw [row01 _ (pack_slice hfit 4 rfl rfl)]
    have e0 : _ % 1024 = 38 := pack_low hfit rfl
    simp only [decodeOp01, e0, pack_field hfit 3 (lo := 20) rfl rfl, pack_field hfit 2 (lo := 15) rfl rfl, pack_field hfit 1 (lo := 10) rfl rfl, Nat.reduceEqDiff, reduceIte]

theorem clz (d : BitVec 5) (a : BitVec 5) : Statement (.clz d a) := by
  intro hw word enc
  have hfit : Fits [(10, 48), (5, 0), (5, a.toNat), (5, d.toNat), (7, 1)] := ⟨by decide, by decide, a.isLt, d.isLt, by decide, trivial⟩
  have hd := d.isLt; have ha := a.isLt
  have hp : 0x02000030 + d.toNat * 1048576 + a.toNat * 32768 = pack [(10, 48), (5, 0), (5, a.toNat), (5, d.toNat), (7, 1)] := by
    rw [pack_eq]
    change _ = 48 + 1024 * (0 + 32 * (a.toNat + 32 * (d.toNat + 32 * (1))))
    omega
  refine roundTrip ?_ hfit 5 rfl rfl ?_ enc
  · exact congrArg some hp
  · rw [row01 _ (pack_slice hfit 4 rfl rfl)]
    have e0 : _ % 1024 = 48 := pack_low hfit rfl
    have e1 : pack [(10, 48), (5, 0), (5, a.toNat), (5, d.toNat), (7, 1)] % 32768 = 48 := by rw [← hp]; omega
    simp only [decodeOp01, e0, e1, pack_field hfit 3 (lo := 20) rfl rfl, pack_field hfit 2 (lo := 15) rfl rfl, Nat.reduceEqDiff, reduceIte]

theorem ctz (d : BitVec 5) (a : BitVec 5) : Statement (.ctz d a) := by
  intro hw word enc
  have hfit : Fits [(10, 49), (5, 0), (5, a.toNat), (5, d.toNat), (7, 1)] := ⟨by decide, by decide, a.isLt, d.isLt, by decide, trivial⟩
  have hd := d.isLt; have ha := a.isLt
  have hp : 0x02000031 + d.toNat * 1048576 + a.toNat * 32768 = pack [(10, 49), (5, 0), (5, a.toNat), (5, d.toNat), (7, 1)] := by
    rw [pack_eq]
    change _ = 49 + 1024 * (0 + 32 * (a.toNat + 32 * (d.toNat + 32 * (1))))
    omega
  refine roundTrip ?_ hfit 5 rfl rfl ?_ enc
  · exact congrArg some hp
  · rw [row01 _ (pack_slice hfit 4 rfl rfl)]
    have e0 : _ % 1024 = 49 := pack_low hfit rfl
    have e1 : pack [(10, 49), (5, 0), (5, a.toNat), (5, d.toNat), (7, 1)] % 32768 = 49 := by rw [← hp]; omega
    simp only [decodeOp01, e0, e1, pack_field hfit 3 (lo := 20) rfl rfl, pack_field hfit 2 (lo := 15) rfl rfl, Nat.reduceEqDiff, reduceIte]

theorem popc (d : BitVec 5) (a : BitVec 5) : Statement (.popc d a) := by
  intro hw word enc
  have hfit : Fits [(10, 50), (5, 0), (5, a.toNat), (5, d.toNat), (7, 1)] := ⟨by decide, by decide, a.isLt, d.isLt, by decide, trivial⟩
  have hd := d.isLt; have ha := a.isLt
  have hp : 0x02000032 + d.toNat * 1048576 + a.toNat * 32768 = pack [(10, 50), (5, 0), (5, a.toNat), (5, d.toNat), (7, 1)] := by
    rw [pack_eq]
    change _ = 50 + 1024 * (0 + 32 * (a.toNat + 32 * (d.toNat + 32 * (1))))
    omega
  refine roundTrip ?_ hfit 5 rfl rfl ?_ enc
  · exact congrArg some hp
  · rw [row01 _ (pack_slice hfit 4 rfl rfl)]
    have e0 : _ % 1024 = 50 := pack_low hfit rfl
    have e1 : pack [(10, 50), (5, 0), (5, a.toNat), (5, d.toNat), (7, 1)] % 32768 = 50 := by rw [← hp]; omega
    simp only [decodeOp01, e0, e1, pack_field hfit 3 (lo := 20) rfl rfl, pack_field hfit 2 (lo := 15) rfl rfl, Nat.reduceEqDiff, reduceIte]

theorem brev (d : BitVec 5) (a : BitVec 5) : Statement (.brev d a) := by
  intro hw word enc
  have hfit : Fits [(10, 51), (5, 0), (5, a.toNat), (5, d.toNat), (7, 1)] := ⟨by decide, by decide, a.isLt, d.isLt, by decide, trivial⟩
  have hd := d.isLt; have ha := a.isLt
  have hp : 0x02000033 + d.toNat * 1048576 + a.toNat * 32768 = pack [(10, 51), (5, 0), (5, a.toNat), (5, d.toNat), (7, 1)] := by
    rw [pack_eq]
    change _ = 51 + 1024 * (0 + 32 * (a.toNat + 32 * (d.toNat + 32 * (1))))
    omega
  refine roundTrip ?_ hfit 5 rfl rfl ?_ enc
  · exact congrArg some hp
  · rw [row01 _ (pack_slice hfit 4 rfl rfl)]
    have e0 : _ % 1024 = 51 := pack_low hfit rfl
    have e1 : pack [(10, 51), (5, 0), (5, a.toNat), (5, d.toNat), (7, 1)] % 32768 = 51 := by rw [← hp]; omega
    simp only [decodeOp01, e0, e1, pack_field hfit 3 (lo := 20) rfl rfl, pack_field hfit 2 (lo := 15) rfl rfl, Nat.reduceEqDiff, reduceIte]

theorem bswap (d : BitVec 5) (a : BitVec 5) : Statement (.bswap d a) := by
  intro hw word enc
  have hfit : Fits [(10, 52), (5, 0), (5, a.toNat), (5, d.toNat), (7, 1)] := ⟨by decide, by decide, a.isLt, d.isLt, by decide, trivial⟩
  have hd := d.isLt; have ha := a.isLt
  have hp : 0x02000034 + d.toNat * 1048576 + a.toNat * 32768 = pack [(10, 52), (5, 0), (5, a.toNat), (5, d.toNat), (7, 1)] := by
    rw [pack_eq]
    change _ = 52 + 1024 * (0 + 32 * (a.toNat + 32 * (d.toNat + 32 * (1))))
    omega
  refine roundTrip ?_ hfit 5 rfl rfl ?_ enc
  · exact congrArg some hp
  · rw [row01 _ (pack_slice hfit 4 rfl rfl)]
    have e0 : _ % 1024 = 52 := pack_low hfit rfl
    have e1 : pack [(10, 52), (5, 0), (5, a.toNat), (5, d.toNat), (7, 1)] % 32768 = 52 := by rw [← hp]; omega
    simp only [decodeOp01, e0, e1, pack_field hfit 3 (lo := 20) rfl rfl, pack_field hfit 2 (lo := 15) rfl rfl, Nat.reduceEqDiff, reduceIte]

theorem addi (d : BitVec 5) (a : BitVec 5) (i : BitVec 12) : Statement (.addi d a i) := by
  intro hw word enc
  have hfit : Fits [(12, i.toNat), (3, 0), (5, a.toNat), (5, d.toNat), (7, 3)] := ⟨i.isLt, by decide, a.isLt, d.isLt, by decide, trivial⟩
  have hp : 0x06000000 + d.toNat * 1048576 + a.toNat * 32768 + i.toNat = pack [(12, i.toNat), (3, 0), (5, a.toNat), (5, d.toNat), (7, 3)] := by
    rw [pack_eq]
    change _ = i.toNat + 4096 * (0 + 8 * (a.toNat + 32 * (d.toNat + 32 * (3))))
    omega
  refine roundTrip ?_ hfit 5 rfl rfl ?_ enc
  · exact congrArg some hp
  · rw [row03 _ (pack_slice hfit 4 rfl rfl)]
    have e0 : _ / 4096 % 8 = 0 := pack_slice hfit 1 rfl rfl
    simp only [decodeOp03, e0, pack_field hfit 3 (lo := 20) rfl rfl, pack_field hfit 2 (lo := 15) rfl rfl, pack_field hfit 0 (lo := 0) rfl rfl, Nat.reduceEqDiff, reduceIte]

theorem andi (d : BitVec 5) (a : BitVec 5) (i : BitVec 12) : Statement (.andi d a i) := by
  intro hw word enc
  have hfit : Fits [(12, i.toNat), (3, 1), (5, a.toNat), (5, d.toNat), (7, 3)] := ⟨i.isLt, by decide, a.isLt, d.isLt, by decide, trivial⟩
  have hp : 0x06001000 + d.toNat * 1048576 + a.toNat * 32768 + i.toNat = pack [(12, i.toNat), (3, 1), (5, a.toNat), (5, d.toNat), (7, 3)] := by
    rw [pack_eq]
    change _ = i.toNat + 4096 * (1 + 8 * (a.toNat + 32 * (d.toNat + 32 * (3))))
    omega
  refine roundTrip ?_ hfit 5 rfl rfl ?_ enc
  · exact congrArg some hp
  · rw [row03 _ (pack_slice hfit 4 rfl rfl)]
    have e0 : _ / 4096 % 8 = 1 := pack_slice hfit 1 rfl rfl
    simp only [decodeOp03, e0, pack_field hfit 3 (lo := 20) rfl rfl, pack_field hfit 2 (lo := 15) rfl rfl, pack_field hfit 0 (lo := 0) rfl rfl, Nat.reduceEqDiff, reduceIte]

theorem ori (d : BitVec 5) (a : BitVec 5) (i : BitVec 12) : Statement (.ori d a i) := by
  intro hw word enc
  have hfit : Fits [(12, i.toNat), (3, 2), (5, a.toNat), (5, d.toNat), (7, 3)] := ⟨i.isLt, by decide, a.isLt, d.isLt, by decide, trivial⟩
  have hp : 0x06002000 + d.toNat * 1048576 + a.toNat * 32768 + i.toNat = pack [(12, i.toNat), (3, 2), (5, a.toNat), (5, d.toNat), (7, 3)] := by
    rw [pack_eq]
    change _ = i.toNat + 4096 * (2 + 8 * (a.toNat + 32 * (d.toNat + 32 * (3))))
    omega
  refine roundTrip ?_ hfit 5 rfl rfl ?_ enc
  · exact congrArg some hp
  · rw [row03 _ (pack_slice hfit 4 rfl rfl)]
    have e0 : _ / 4096 % 8 = 2 := pack_slice hfit 1 rfl rfl
    simp only [decodeOp03, e0, pack_field hfit 3 (lo := 20) rfl rfl, pack_field hfit 2 (lo := 15) rfl rfl, pack_field hfit 0 (lo := 0) rfl rfl, Nat.reduceEqDiff, reduceIte]

theorem xori (d : BitVec 5) (a : BitVec 5) (i : BitVec 12) : Statement (.xori d a i) := by
  intro hw word enc
  have hfit : Fits [(12, i.toNat), (3, 3), (5, a.toNat), (5, d.toNat), (7, 3)] := ⟨i.isLt, by decide, a.isLt, d.isLt, by decide, trivial⟩
  have hp : 0x06003000 + d.toNat * 1048576 + a.toNat * 32768 + i.toNat = pack [(12, i.toNat), (3, 3), (5, a.toNat), (5, d.toNat), (7, 3)] := by
    rw [pack_eq]
    change _ = i.toNat + 4096 * (3 + 8 * (a.toNat + 32 * (d.toNat + 32 * (3))))
    omega
  refine roundTrip ?_ hfit 5 rfl rfl ?_ enc
  · exact congrArg some hp
  · rw [row03 _ (pack_slice hfit 4 rfl rfl)]
    have e0 : _ / 4096 % 8 = 3 := pack_slice hfit 1 rfl rfl
    simp only [decodeOp03, e0, pack_field hfit 3 (lo := 20) rfl rfl, pack_field hfit 2 (lo := 15) rfl rfl, pack_field hfit 0 (lo := 0) rfl rfl, Nat.reduceEqDiff, reduceIte]

theorem slti (d : BitVec 5) (a : BitVec 5) (i : BitVec 12) : Statement (.slti d a i) := by
  intro hw word enc
  have hfit : Fits [(12, i.toNat), (3, 4), (5, a.toNat), (5, d.toNat), (7, 3)] := ⟨i.isLt, by decide, a.isLt, d.isLt, by decide, trivial⟩
  have hp : 0x06004000 + d.toNat * 1048576 + a.toNat * 32768 + i.toNat = pack [(12, i.toNat), (3, 4), (5, a.toNat), (5, d.toNat), (7, 3)] := by
    rw [pack_eq]
    change _ = i.toNat + 4096 * (4 + 8 * (a.toNat + 32 * (d.toNat + 32 * (3))))
    omega
  refine roundTrip ?_ hfit 5 rfl rfl ?_ enc
  · exact congrArg some hp
  · rw [row03 _ (pack_slice hfit 4 rfl rfl)]
    have e0 : _ / 4096 % 8 = 4 := pack_slice hfit 1 rfl rfl
    simp only [decodeOp03, e0, pack_field hfit 3 (lo := 20) rfl rfl, pack_field hfit 2 (lo := 15) rfl rfl, pack_field hfit 0 (lo := 0) rfl rfl, Nat.reduceEqDiff, reduceIte]

theorem sltzi (d : BitVec 5) (a : BitVec 5) (i : BitVec 12) : Statement (.sltzi d a i) := by
  intro hw word enc
  have hfit : Fits [(12, i.toNat), (3, 5), (5, a.toNat), (5, d.toNat), (7, 3)] := ⟨i.isLt, by decide, a.isLt, d.isLt, by decide, trivial⟩
  have hp : 0x06005000 + d.toNat * 1048576 + a.toNat * 32768 + i.toNat = pack [(12, i.toNat), (3, 5), (5, a.toNat), (5, d.toNat), (7, 3)] := by
    rw [pack_eq]
    change _ = i.toNat + 4096 * (5 + 8 * (a.toNat + 32 * (d.toNat + 32 * (3))))
    omega
  refine roundTrip ?_ hfit 5 rfl rfl ?_ enc
  · exact congrArg some hp
  · rw [row03 _ (pack_slice hfit 4 rfl rfl)]
    have e0 : _ / 4096 % 8 = 5 := pack_slice hfit 1 rfl rfl
    simp only [decodeOp03, e0, pack_field hfit 3 (lo := 20) rfl rfl, pack_field hfit 2 (lo := 15) rfl rfl, pack_field hfit 0 (lo := 0) rfl rfl, Nat.reduceEqDiff, reduceIte]

theorem shli (d : BitVec 5) (a : BitVec 5) (s : BitVec 6) : Statement (.shli d a s) := by
  intro hw word enc
  have hfit : Fits [(6, s.toNat), (9, 0), (5, a.toNat), (5, d.toNat), (7, 4)] := ⟨s.isLt, by decide, a.isLt, d.isLt, by decide, trivial⟩
  have hp : 0x08000000 + d.toNat * 1048576 + a.toNat * 32768 + s.toNat = pack [(6, s.toNat), (9, 0), (5, a.toNat), (5, d.toNat), (7, 4)] := by
    rw [pack_eq]
    change _ = s.toNat + 64 * (0 + 512 * (a.toNat + 32 * (d.toNat + 32 * (4))))
    omega
  refine roundTrip ?_ hfit 5 rfl rfl ?_ enc
  · exact congrArg some hp
  · rw [row04 _ (pack_slice hfit 4 rfl rfl)]
    have e0 : _ / 64 % 512 = 0 := pack_slice hfit 1 rfl rfl
    simp only [decodeOp04, e0, pack_field hfit 3 (lo := 20) rfl rfl, pack_field hfit 2 (lo := 15) rfl rfl, pack_field hfit 0 (lo := 0) rfl rfl, Nat.reduceEqDiff, reduceIte]

theorem shri (d : BitVec 5) (a : BitVec 5) (s : BitVec 6) : Statement (.shri d a s) := by
  intro hw word enc
  have hfit : Fits [(6, s.toNat), (9, 64), (5, a.toNat), (5, d.toNat), (7, 4)] := ⟨s.isLt, by decide, a.isLt, d.isLt, by decide, trivial⟩
  have hp : 0x08001000 + d.toNat * 1048576 + a.toNat * 32768 + s.toNat = pack [(6, s.toNat), (9, 64), (5, a.toNat), (5, d.toNat), (7, 4)] := by
    rw [pack_eq]
    change _ = s.toNat + 64 * (64 + 512 * (a.toNat + 32 * (d.toNat + 32 * (4))))
    omega
  refine roundTrip ?_ hfit 5 rfl rfl ?_ enc
  · exact congrArg some hp
  · rw [row04 _ (pack_slice hfit 4 rfl rfl)]
    have e0 : _ / 64 % 512 = 64 := pack_slice hfit 1 rfl rfl
    simp only [decodeOp04, e0, pack_field hfit 3 (lo := 20) rfl rfl, pack_field hfit 2 (lo := 15) rfl rfl, pack_field hfit 0 (lo := 0) rfl rfl, Nat.reduceEqDiff, reduceIte]

theorem sari (d : BitVec 5) (a : BitVec 5) (s : BitVec 6) : Statement (.sari d a s) := by
  intro hw word enc
  have hfit : Fits [(6, s.toNat), (9, 128), (5, a.toNat), (5, d.toNat), (7, 4)] := ⟨s.isLt, by decide, a.isLt, d.isLt, by decide, trivial⟩
  have hp : 0x08002000 + d.toNat * 1048576 + a.toNat * 32768 + s.toNat = pack [(6, s.toNat), (9, 128), (5, a.toNat), (5, d.toNat), (7, 4)] := by
    rw [pack_eq]
    change _ = s.toNat + 64 * (128 + 512 * (a.toNat + 32 * (d.toNat + 32 * (4))))
    omega
  refine roundTrip ?_ hfit 5 rfl rfl ?_ enc
  · exact congrArg some hp
  · rw [row04 _ (pack_slice hfit 4 rfl rfl)]
    have e0 : _ / 64 % 512 = 128 := pack_slice hfit 1 rfl rfl
    simp only [decodeOp04, e0, pack_field hfit 3 (lo := 20) rfl rfl, pack_field hfit 2 (lo := 15) rfl rfl, pack_field hfit 0 (lo := 0) rfl rfl, Nat.reduceEqDiff, reduceIte]

theorem ext (d : BitVec 5) (a : BitVec 5) (w : BitVec 6) (p : BitVec 6) : Statement (.ext d a w p) := by
  intro hw word enc
  have hfit : Fits [(6, p.toNat), (6, w.toNat), (3, 3), (5, a.toNat), (5, d.toNat), (7, 4)] := ⟨p.isLt, w.isLt, by decide, a.isLt, d.isLt, by decide, trivial⟩
  have hd := d.isLt; have ha := a.isLt; have hw := w.isLt; have hp := p.isLt
  have hp : 0x08003000 + d.toNat * 1048576 + a.toNat * 32768 + w.toNat * 64 + p.toNat = pack [(6, p.toNat), (6, w.toNat), (3, 3), (5, a.toNat), (5, d.toNat), (7, 4)] := by
    rw [pack_eq]
    change _ = p.toNat + 64 * (w.toNat + 64 * (3 + 8 * (a.toNat + 32 * (d.toNat + 32 * (4)))))
    omega
  refine roundTrip ?_ hfit 6 rfl rfl ?_ enc
  · exact congrArg some hp
  · rw [row04 _ (pack_slice hfit 5 rfl rfl)]
    have c0 : ¬(pack [(6, p.toNat), (6, w.toNat), (3, 3), (5, a.toNat), (5, d.toNat), (7, 4)] / 64 % 512 = 0) := by rw [← hp]; omega
    have c1 : ¬(pack [(6, p.toNat), (6, w.toNat), (3, 3), (5, a.toNat), (5, d.toNat), (7, 4)] / 64 % 512 = 64) := by rw [← hp]; omega
    have c2 : ¬(pack [(6, p.toNat), (6, w.toNat), (3, 3), (5, a.toNat), (5, d.toNat), (7, 4)] / 64 % 512 = 128) := by rw [← hp]; omega
    have e0 : _ / 4096 % 8 = 3 := pack_slice hfit 2 rfl rfl
    simp only [decodeOp04, c0, c1, c2, e0, pack_field hfit 4 (lo := 20) rfl rfl, pack_field hfit 3 (lo := 15) rfl rfl, pack_field hfit 1 (lo := 6) rfl rfl, pack_field hfit 0 (lo := 0) rfl rfl, Nat.reduceEqDiff, reduceIte]

theorem ins (d : BitVec 5) (a : BitVec 5) (w : BitVec 6) (p : BitVec 6) : Statement (.ins d a w p) := by
  intro hw word enc
  have hfit : Fits [(6, p.toNat), (6, w.toNat), (3, 4), (5, a.toNat), (5, d.toNat), (7, 4)] := ⟨p.isLt, w.isLt, by decide, a.isLt, d.isLt, by decide, trivial⟩
  have hd := d.isLt; have ha := a.isLt; have hw := w.isLt; have hp := p.isLt
  have hp : 0x08004000 + d.toNat * 1048576 + a.toNat * 32768 + w.toNat * 64 + p.toNat = pack [(6, p.toNat), (6, w.toNat), (3, 4), (5, a.toNat), (5, d.toNat), (7, 4)] := by
    rw [pack_eq]
    change _ = p.toNat + 64 * (w.toNat + 64 * (4 + 8 * (a.toNat + 32 * (d.toNat + 32 * (4)))))
    omega
  refine roundTrip ?_ hfit 6 rfl rfl ?_ enc
  · exact congrArg some hp
  · rw [row04 _ (pack_slice hfit 5 rfl rfl)]
    have c0 : ¬(pack [(6, p.toNat), (6, w.toNat), (3, 4), (5, a.toNat), (5, d.toNat), (7, 4)] / 64 % 512 = 0) := by rw [← hp]; omega
    have c1 : ¬(pack [(6, p.toNat), (6, w.toNat), (3, 4), (5, a.toNat), (5, d.toNat), (7, 4)] / 64 % 512 = 64) := by rw [← hp]; omega
    have c2 : ¬(pack [(6, p.toNat), (6, w.toNat), (3, 4), (5, a.toNat), (5, d.toNat), (7, 4)] / 64 % 512 = 128) := by rw [← hp]; omega
    have e0 : _ / 4096 % 8 = 4 := pack_slice hfit 2 rfl rfl
    simp only [decodeOp04, c0, c1, c2, e0, pack_field hfit 4 (lo := 20) rfl rfl, pack_field hfit 3 (lo := 15) rfl rfl, pack_field hfit 1 (lo := 6) rfl rfl, pack_field hfit 0 (lo := 0) rfl rfl, Nat.reduceEqDiff, reduceIte]

theorem lup (d : BitVec 5) (i : BitVec 20) : Statement (.lup d i) := by
  intro hw word enc
  have hfit : Fits [(20, i.toNat), (5, d.toNat), (7, 5)] := ⟨i.isLt, d.isLt, by decide, trivial⟩
  have hp : 0x0A000000 + d.toNat * 1048576 + i.toNat = pack [(20, i.toNat), (5, d.toNat), (7, 5)] := by
    rw [pack_eq]
    change _ = i.toNat + 1048576 * (d.toNat + 32 * (5))
    omega
  refine roundTrip ?_ hfit 3 rfl rfl ?_ enc
  · exact congrArg some hp
  · rw [row05 _ (pack_slice hfit 2 rfl rfl)]
    simp only [decodeOp05, pack_field hfit 1 (lo := 20) rfl rfl, pack_field hfit 0 (lo := 0) rfl rfl]

theorem aupc (d : BitVec 5) (i : BitVec 20) : Statement (.aupc d i) := by
  intro hw word enc
  have hfit : Fits [(20, i.toNat), (5, d.toNat), (7, 6)] := ⟨i.isLt, d.isLt, by decide, trivial⟩
  have hp : 0x0C000000 + d.toNat * 1048576 + i.toNat = pack [(20, i.toNat), (5, d.toNat), (7, 6)] := by
    rw [pack_eq]
    change _ = i.toNat + 1048576 * (d.toNat + 32 * (6))
    omega
  refine roundTrip ?_ hfit 3 rfl rfl ?_ enc
  · exact congrArg some hp
  · rw [row06 _ (pack_slice hfit 2 rfl rfl)]
    simp only [decodeOp06, pack_field hfit 1 (lo := 20) rfl rfl, pack_field hfit 0 (lo := 0) rfl rfl]

theorem bEq (a : BitVec 5) (b : BitVec 5) (o : BitVec 12) : Statement (.bEq a b o) := by
  intro hw word enc
  have hfit : Fits [(12, o.toNat), (3, 0), (5, b.toNat), (5, a.toNat), (7, 16)] := ⟨o.isLt, by decide, b.isLt, a.isLt, by decide, trivial⟩
  have hp : 0x20000000 + a.toNat * 1048576 + b.toNat * 32768 + o.toNat = pack [(12, o.toNat), (3, 0), (5, b.toNat), (5, a.toNat), (7, 16)] := by
    rw [pack_eq]
    change _ = o.toNat + 4096 * (0 + 8 * (b.toNat + 32 * (a.toNat + 32 * (16))))
    omega
  refine roundTrip ?_ hfit 5 rfl rfl ?_ enc
  · exact congrArg some hp
  · rw [row10 _ (pack_slice hfit 4 rfl rfl)]
    have e0 : _ / 4096 % 8 = 0 := pack_slice hfit 1 rfl rfl
    simp only [decodeOp10, e0, pack_field hfit 3 (lo := 20) rfl rfl, pack_field hfit 2 (lo := 15) rfl rfl, pack_field hfit 0 (lo := 0) rfl rfl, Nat.reduceEqDiff, reduceIte]

theorem bNe (a : BitVec 5) (b : BitVec 5) (o : BitVec 12) : Statement (.bNe a b o) := by
  intro hw word enc
  have hfit : Fits [(12, o.toNat), (3, 1), (5, b.toNat), (5, a.toNat), (7, 16)] := ⟨o.isLt, by decide, b.isLt, a.isLt, by decide, trivial⟩
  have hp : 0x20001000 + a.toNat * 1048576 + b.toNat * 32768 + o.toNat = pack [(12, o.toNat), (3, 1), (5, b.toNat), (5, a.toNat), (7, 16)] := by
    rw [pack_eq]
    change _ = o.toNat + 4096 * (1 + 8 * (b.toNat + 32 * (a.toNat + 32 * (16))))
    omega
  refine roundTrip ?_ hfit 5 rfl rfl ?_ enc
  · exact congrArg some hp
  · rw [row10 _ (pack_slice hfit 4 rfl rfl)]
    have e0 : _ / 4096 % 8 = 1 := pack_slice hfit 1 rfl rfl
    simp only [decodeOp10, e0, pack_field hfit 3 (lo := 20) rfl rfl, pack_field hfit 2 (lo := 15) rfl rfl, pack_field hfit 0 (lo := 0) rfl rfl, Nat.reduceEqDiff, reduceIte]

theorem bLt (a : BitVec 5) (b : BitVec 5) (o : BitVec 12) : Statement (.bLt a b o) := by
  intro hw word enc
  have hfit : Fits [(12, o.toNat), (3, 2), (5, b.toNat), (5, a.toNat), (7, 16)] := ⟨o.isLt, by decide, b.isLt, a.isLt, by decide, trivial⟩
  have hp : 0x20002000 + a.toNat * 1048576 + b.toNat * 32768 + o.toNat = pack [(12, o.toNat), (3, 2), (5, b.toNat), (5, a.toNat), (7, 16)] := by
    rw [pack_eq]
    change _ = o.toNat + 4096 * (2 + 8 * (b.toNat + 32 * (a.toNat + 32 * (16))))
    omega
  refine roundTrip ?_ hfit 5 rfl rfl ?_ enc
  · exact congrArg some hp
  · rw [row10 _ (pack_slice hfit 4 rfl rfl)]
    have e0 : _ / 4096 % 8 = 2 := pack_slice hfit 1 rfl rfl
    simp only [decodeOp10, e0, pack_field hfit 3 (lo := 20) rfl rfl, pack_field hfit 2 (lo := 15) rfl rfl, pack_field hfit 0 (lo := 0) rfl rfl, Nat.reduceEqDiff, reduceIte]

theorem bGe (a : BitVec 5) (b : BitVec 5) (o : BitVec 12) : Statement (.bGe a b o) := by
  intro hw word enc
  have hfit : Fits [(12, o.toNat), (3, 3), (5, b.toNat), (5, a.toNat), (7, 16)] := ⟨o.isLt, by decide, b.isLt, a.isLt, by decide, trivial⟩
  have hp : 0x20003000 + a.toNat * 1048576 + b.toNat * 32768 + o.toNat = pack [(12, o.toNat), (3, 3), (5, b.toNat), (5, a.toNat), (7, 16)] := by
    rw [pack_eq]
    change _ = o.toNat + 4096 * (3 + 8 * (b.toNat + 32 * (a.toNat + 32 * (16))))
    omega
  refine roundTrip ?_ hfit 5 rfl rfl ?_ enc
  · exact congrArg some hp
  · rw [row10 _ (pack_slice hfit 4 rfl rfl)]
    have e0 : _ / 4096 % 8 = 3 := pack_slice hfit 1 rfl rfl
    simp only [decodeOp10, e0, pack_field hfit 3 (lo := 20) rfl rfl, pack_field hfit 2 (lo := 15) rfl rfl, pack_field hfit 0 (lo := 0) rfl rfl, Nat.reduceEqDiff, reduceIte]

theorem bLtz (a : BitVec 5) (b : BitVec 5) (o : BitVec 12) : Statement (.bLtz a b o) := by
  intro hw word enc
  have hfit : Fits [(12, o.toNat), (3, 4), (5, b.toNat), (5, a.toNat), (7, 16)] := ⟨o.isLt, by decide, b.isLt, a.isLt, by decide, trivial⟩
  have hp : 0x20004000 + a.toNat * 1048576 + b.toNat * 32768 + o.toNat = pack [(12, o.toNat), (3, 4), (5, b.toNat), (5, a.toNat), (7, 16)] := by
    rw [pack_eq]
    change _ = o.toNat + 4096 * (4 + 8 * (b.toNat + 32 * (a.toNat + 32 * (16))))
    omega
  refine roundTrip ?_ hfit 5 rfl rfl ?_ enc
  · exact congrArg some hp
  · rw [row10 _ (pack_slice hfit 4 rfl rfl)]
    have e0 : _ / 4096 % 8 = 4 := pack_slice hfit 1 rfl rfl
    simp only [decodeOp10, e0, pack_field hfit 3 (lo := 20) rfl rfl, pack_field hfit 2 (lo := 15) rfl rfl, pack_field hfit 0 (lo := 0) rfl rfl, Nat.reduceEqDiff, reduceIte]

theorem bGez (a : BitVec 5) (b : BitVec 5) (o : BitVec 12) : Statement (.bGez a b o) := by
  intro hw word enc
  have hfit : Fits [(12, o.toNat), (3, 5), (5, b.toNat), (5, a.toNat), (7, 16)] := ⟨o.isLt, by decide, b.isLt, a.isLt, by decide, trivial⟩
  have hp : 0x20005000 + a.toNat * 1048576 + b.toNat * 32768 + o.toNat = pack [(12, o.toNat), (3, 5), (5, b.toNat), (5, a.toNat), (7, 16)] := by
    rw [pack_eq]
    change _ = o.toNat + 4096 * (5 + 8 * (b.toNat + 32 * (a.toNat + 32 * (16))))
    omega
  refine roundTrip ?_ hfit 5 rfl rfl ?_ enc
  · exact congrArg some hp
  · rw [row10 _ (pack_slice hfit 4 rfl rfl)]
    have e0 : _ / 4096 % 8 = 5 := pack_slice hfit 1 rfl rfl
    simp only [decodeOp10, e0, pack_field hfit 3 (lo := 20) rfl rfl, pack_field hfit 2 (lo := 15) rfl rfl, pack_field hfit 0 (lo := 0) rfl rfl, Nat.reduceEqDiff, reduceIte]

theorem j (o : BitVec 20) : Statement (.j o) := by
  intro hw word enc
  have hfit : Fits [(20, o.toNat), (5, 0), (7, 17)] := ⟨o.isLt, by decide, by decide, trivial⟩
  have hp : 0x22000000 + o.toNat = pack [(20, o.toNat), (5, 0), (7, 17)] := by
    rw [pack_eq]
    change _ = o.toNat + 1048576 * (0 + 32 * (17))
    omega
  refine roundTrip ?_ hfit 3 rfl rfl ?_ enc
  · exact congrArg some hp
  · rw [row11 _ (pack_slice hfit 2 rfl rfl)]
    have e0 : _ / 1048576 % 32 = 0 := pack_slice hfit 1 rfl rfl
    simp only [decodeOp11, e0, pack_field hfit 0 (lo := 0) rfl rfl, Nat.reduceEqDiff, reduceIte]

theorem call (d : BitVec 5) (o : BitVec 20) : Statement (.call d o) := by
  intro hw word enc
  have hfit : Fits [(20, o.toNat), (5, d.toNat), (7, 18)] := ⟨o.isLt, d.isLt, by decide, trivial⟩
  have hp : 0x24000000 + d.toNat * 1048576 + o.toNat = pack [(20, o.toNat), (5, d.toNat), (7, 18)] := by
    rw [pack_eq]
    change _ = o.toNat + 1048576 * (d.toNat + 32 * (18))
    omega
  refine roundTrip ?_ hfit 3 rfl rfl ?_ enc
  · exact congrArg some hp
  · rw [row12 _ (pack_slice hfit 2 rfl rfl)]
    simp only [decodeOp12, pack_field hfit 1 (lo := 20) rfl rfl, pack_field hfit 0 (lo := 0) rfl rfl]

theorem jr (a : BitVec 5) : Statement (.jr a) := by
  intro hw word enc
  have hfit : Fits [(15, 0), (5, a.toNat), (5, 0), (7, 19)] := ⟨by decide, a.isLt, by decide, by decide, trivial⟩
  have hp : 0x26000000 + a.toNat * 32768 = pack [(15, 0), (5, a.toNat), (5, 0), (7, 19)] := by
    rw [pack_eq]
    change _ = 0 + 32768 * (a.toNat + 32 * (0 + 32 * (19)))
    omega
  refine roundTrip ?_ hfit 4 rfl rfl ?_ enc
  · exact congrArg some hp
  · rw [row13 _ (pack_slice hfit 3 rfl rfl)]
    have e0 : _ % 32768 = 0 := pack_low hfit rfl
    have e1 : _ / 1048576 % 32 = 0 := pack_slice hfit 2 rfl rfl
    simp only [decodeOp13, e0, e1, pack_field hfit 1 (lo := 15) rfl rfl, Nat.reduceEqDiff, reduceIte, and_self, and_false, false_and, and_true, true_and, not_false_eq_true]

theorem callr (d : BitVec 5) (p : BitVec 4) : Statement (.callr d p) := by
  intro hw word enc
  have hfit : Fits [(15, 1), (4, p.toNat), (1, 0), (5, d.toNat), (7, 19)] := ⟨by decide, p.isLt, by decide, d.isLt, by decide, trivial⟩
  have hp : 0x26000001 + d.toNat * 1048576 + p.toNat * 32768 = pack [(15, 1), (4, p.toNat), (1, 0), (5, d.toNat), (7, 19)] := by
    rw [pack_eq]
    change _ = 1 + 32768 * (p.toNat + 16 * (0 + 2 * (d.toNat + 32 * (19))))
    omega
  refine roundTrip ?_ hfit 5 rfl rfl ?_ enc
  · exact congrArg some hp
  · rw [row13 _ (pack_slice hfit 4 rfl rfl)]
    have e0 : _ % 32768 = 1 := pack_low hfit rfl
    have e1 : _ / 524288 % 2 = 0 := pack_slice hfit 2 rfl rfl
    simp only [decodeOp13, e0, e1, pack_field hfit 3 (lo := 20) rfl rfl, pack_field hfit 1 (lo := 15) rfl rfl, Nat.reduceEqDiff, reduceIte, and_self, and_false, false_and, and_true, true_and, not_false_eq_true]

theorem rep (s : BitVec 5) (a : BitVec 5) (n : BitVec 8) (l : BitVec 4) : Statement (.rep s a n l) := by
  intro hw word enc
  have hfit : Fits [(4, l.toNat), (8, n.toNat), (3, 0), (5, a.toNat), (5, s.toNat), (7, 20)] := ⟨l.isLt, n.isLt, by decide, a.isLt, s.isLt, by decide, trivial⟩
  have hp : 0x28000000 + s.toNat * 1048576 + a.toNat * 32768 + n.toNat * 16 + l.toNat = pack [(4, l.toNat), (8, n.toNat), (3, 0), (5, a.toNat), (5, s.toNat), (7, 20)] := by
    rw [pack_eq]
    change _ = l.toNat + 16 * (n.toNat + 256 * (0 + 8 * (a.toNat + 32 * (s.toNat + 32 * (20)))))
    omega
  refine roundTrip ?_ hfit 6 rfl rfl ?_ enc
  · exact congrArg some hp
  · rw [row14 _ (pack_slice hfit 5 rfl rfl)]
    have e0 : _ / 4096 % 8 = 0 := pack_slice hfit 2 rfl rfl
    simp only [decodeOp14, e0, pack_field hfit 4 (lo := 20) rfl rfl, pack_field hfit 3 (lo := 15) rfl rfl, pack_field hfit 1 (lo := 4) rfl rfl, pack_field hfit 0 (lo := 0) rfl rfl, Nat.reduceEqDiff, reduceIte]

theorem retire : Statement (.retire) := by
  intro hw word enc
  have hfit : Fits [(25, 0), (7, 21)] := ⟨by decide, by decide, trivial⟩
  have hp : 0x2A000000 = pack [(25, 0), (7, 21)] := by
    rw [pack_eq]
    change _ = 0 + 33554432 * (21)
    omega
  refine roundTrip ?_ hfit 2 rfl rfl ?_ enc
  · exact congrArg some hp
  · rw [row15 _ (pack_slice hfit 1 rfl rfl)]
    have e0 : _ % 33554432 = 0 := pack_low hfit rfl
    simp only [decodeOp15, e0, Nat.reduceEqDiff, reduceIte]

theorem ld (d : BitVec 5) (p : BitVec 4) (m : BitVec 2) (z : BitVec 3) (o : BitVec 11) : Statement (.ld d p m z o) := by
  intro hw word enc
  have hfit : Fits [(11, o.toNat), (3, z.toNat), (2, m.toNat), (4, p.toNat), (5, d.toNat), (7, 24)] := ⟨o.isLt, z.isLt, m.isLt, p.isLt, d.isLt, by decide, trivial⟩
  have hp : 0x30000000 + d.toNat * 1048576 + p.toNat * 65536 + m.toNat * 16384 + z.toNat * 2048 + o.toNat = pack [(11, o.toNat), (3, z.toNat), (2, m.toNat), (4, p.toNat), (5, d.toNat), (7, 24)] := by
    rw [pack_eq]
    change _ = o.toNat + 2048 * (z.toNat + 8 * (m.toNat + 4 * (p.toNat + 16 * (d.toNat + 32 * (24)))))
    omega
  refine roundTrip ?_ hfit 6 rfl rfl ?_ enc
  · exact congrArg some hp
  · rw [row18 _ (pack_slice hfit 5 rfl rfl)]
    simp only [decodeOp18, pack_field hfit 4 (lo := 20) rfl rfl, pack_field hfit 3 (lo := 16) rfl rfl, pack_field hfit 2 (lo := 14) rfl rfl, pack_field hfit 1 (lo := 11) rfl rfl, pack_field hfit 0 (lo := 0) rfl rfl]

theorem st (d : BitVec 5) (p : BitVec 4) (m : BitVec 2) (z : BitVec 3) (o : BitVec 11) : Statement (.st d p m z o) := by
  intro hw word enc
  have hfit : Fits [(11, o.toNat), (3, z.toNat), (2, m.toNat), (4, p.toNat), (5, d.toNat), (7, 25)] := ⟨o.isLt, z.isLt, m.isLt, p.isLt, d.isLt, by decide, trivial⟩
  have hp : 0x32000000 + d.toNat * 1048576 + p.toNat * 65536 + m.toNat * 16384 + z.toNat * 2048 + o.toNat = pack [(11, o.toNat), (3, z.toNat), (2, m.toNat), (4, p.toNat), (5, d.toNat), (7, 25)] := by
    rw [pack_eq]
    change _ = o.toNat + 2048 * (z.toNat + 8 * (m.toNat + 4 * (p.toNat + 16 * (d.toNat + 32 * (25)))))
    omega
  refine roundTrip ?_ hfit 6 rfl rfl ?_ enc
  · exact congrArg some hp
  · rw [row19 _ (pack_slice hfit 5 rfl rfl)]
    simp only [decodeOp19, pack_field hfit 4 (lo := 20) rfl rfl, pack_field hfit 3 (lo := 16) rfl rfl, pack_field hfit 2 (lo := 14) rfl rfl, pack_field hfit 1 (lo := 11) rfl rfl, pack_field hfit 0 (lo := 0) rfl rfl]

theorem ldp (q : BitVec 4) (p : BitVec 4) (m : BitVec 2) (o : BitVec 11) : Statement (.ldp q p m o) := by
  intro hw word enc
  have hfit : Fits [(11, o.toNat), (3, 3), (2, m.toNat), (4, p.toNat), (4, q.toNat), (1, 0), (7, 26)] := ⟨o.isLt, by decide, m.isLt, p.isLt, q.isLt, by decide, by decide, trivial⟩
  have hp : 0x34001800 + q.toNat * 1048576 + p.toNat * 65536 + m.toNat * 16384 + o.toNat = pack [(11, o.toNat), (3, 3), (2, m.toNat), (4, p.toNat), (4, q.toNat), (1, 0), (7, 26)] := by
    rw [pack_eq]
    change _ = o.toNat + 2048 * (3 + 8 * (m.toNat + 4 * (p.toNat + 16 * (q.toNat + 16 * (0 + 2 * (26))))))
    omega
  refine roundTrip ?_ hfit 7 rfl rfl ?_ enc
  · exact congrArg some hp
  · rw [row1A _ (pack_slice hfit 6 rfl rfl)]
    have e0 : _ / 2048 % 8 = 3 := pack_slice hfit 1 rfl rfl
    have e1 : _ / 16777216 % 2 = 0 := pack_slice hfit 5 rfl rfl
    simp only [decodeOp1A, e0, e1, pack_field hfit 4 (lo := 20) rfl rfl, pack_field hfit 3 (lo := 16) rfl rfl, pack_field hfit 2 (lo := 14) rfl rfl, pack_field hfit 0 (lo := 0) rfl rfl, Nat.reduceEqDiff, reduceIte, and_self, and_false, false_and, and_true, true_and, not_false_eq_true]

theorem stp (q : BitVec 4) (p : BitVec 4) (m : BitVec 2) (o : BitVec 11) : Statement (.stp q p m o) := by
  intro hw word enc
  have hfit : Fits [(11, o.toNat), (3, 3), (2, m.toNat), (4, p.toNat), (4, q.toNat), (1, 1), (7, 26)] := ⟨o.isLt, by decide, m.isLt, p.isLt, q.isLt, by decide, by decide, trivial⟩
  have hp : 0x35001800 + q.toNat * 1048576 + p.toNat * 65536 + m.toNat * 16384 + o.toNat = pack [(11, o.toNat), (3, 3), (2, m.toNat), (4, p.toNat), (4, q.toNat), (1, 1), (7, 26)] := by
    rw [pack_eq]
    change _ = o.toNat + 2048 * (3 + 8 * (m.toNat + 4 * (p.toNat + 16 * (q.toNat + 16 * (1 + 2 * (26))))))
    omega
  refine roundTrip ?_ hfit 7 rfl rfl ?_ enc
  · exact congrArg some hp
  · rw [row1A _ (pack_slice hfit 6 rfl rfl)]
    have e0 : _ / 16777216 % 2 = 1 := pack_slice hfit 5 rfl rfl
    have e1 : _ / 2048 % 8 = 3 := pack_slice hfit 1 rfl rfl
    simp only [decodeOp1A, e0, e1, pack_field hfit 4 (lo := 20) rfl rfl, pack_field hfit 3 (lo := 16) rfl rfl, pack_field hfit 2 (lo := 14) rfl rfl, pack_field hfit 0 (lo := 0) rfl rfl, Nat.reduceEqDiff, reduceIte, and_self, and_false, false_and, and_true, true_and, not_false_eq_true]

theorem pmov (d : BitVec 4) (a : BitVec 4) : Statement (.pmov d a) := by
  intro hw word enc
  have hfit : Fits [(15, 0), (4, a.toNat), (1, 0), (4, d.toNat), (1, 0), (7, 27)] := ⟨by decide, a.isLt, by decide, d.isLt, by decide, by decide, trivial⟩
  have hp : 0x36000000 + d.toNat * 1048576 + a.toNat * 32768 = pack [(15, 0), (4, a.toNat), (1, 0), (4, d.toNat), (1, 0), (7, 27)] := by
    rw [pack_eq]
    change _ = 0 + 32768 * (a.toNat + 16 * (0 + 2 * (d.toNat + 16 * (0 + 2 * (27)))))
    omega
  refine roundTrip ?_ hfit 6 rfl rfl ?_ enc
  · exact congrArg some hp
  · rw [row1B _ (pack_slice hfit 5 rfl rfl)]
    have e0 : _ % 32768 = 0 := pack_low hfit rfl
    have e1 : _ / 524288 % 2 = 0 := pack_slice hfit 2 rfl rfl
    have e2 : _ / 16777216 % 2 = 0 := pack_slice hfit 4 rfl rfl
    simp only [decodeOp1B, e0, e1, e2, pack_field hfit 3 (lo := 20) rfl rfl, pack_field hfit 1 (lo := 15) rfl rfl, Nat.reduceEqDiff, reduceIte, and_self, and_false, false_and, and_true, true_and, not_false_eq_true]

theorem padj (d : BitVec 4) (a : BitVec 4) (b : BitVec 5) : Statement (.padj d a b) := by
  intro hw word enc
  have hfit : Fits [(10, 1), (5, b.toNat), (4, a.toNat), (1, 0), (4, d.toNat), (1, 0), (7, 27)] := ⟨by decide, b.isLt, a.isLt, by decide, d.isLt, by decide, by decide, trivial⟩
  have hd := d.isLt; have ha := a.isLt; have hb := b.isLt
  have hp : 0x36000001 + d.toNat * 1048576 + a.toNat * 32768 + b.toNat * 1024 = pack [(10, 1), (5, b.toNat), (4, a.toNat), (1, 0), (4, d.toNat), (1, 0), (7, 27)] := by
    rw [pack_eq]
    change _ = 1 + 1024 * (b.toNat + 32 * (a.toNat + 16 * (0 + 2 * (d.toNat + 16 * (0 + 2 * (27))))))
    omega
  refine roundTrip ?_ hfit 7 rfl rfl ?_ enc
  · exact congrArg some hp
  · rw [row1B _ (pack_slice hfit 6 rfl rfl)]
    have c0 : ¬(pack [(10, 1), (5, b.toNat), (4, a.toNat), (1, 0), (4, d.toNat), (1, 0), (7, 27)] % 32768 = 0) := by rw [← hp]; omega
    have e0 : _ / 524288 % 2 = 0 := pack_slice hfit 3 rfl rfl
    have e1 : _ / 16777216 % 2 = 0 := pack_slice hfit 5 rfl rfl
    have e2 : _ % 1024 = 1 := pack_low hfit rfl
    simp only [decodeOp1B, c0, e0, e1, e2, pack_field hfit 4 (lo := 20) rfl rfl, pack_field hfit 2 (lo := 15) rfl rfl, pack_field hfit 1 (lo := 10) rfl rfl, Nat.reduceEqDiff, reduceIte, and_self, and_false, false_and, and_true, true_and, not_false_eq_true]

theorem plen (d : BitVec 5) (a : BitVec 4) : Statement (.plen d a) := by
  intro hw word enc
  have hfit : Fits [(10, 2), (5, 0), (4, a.toNat), (1, 0), (5, d.toNat), (7, 27)] := ⟨by decide, by decide, a.isLt, by decide, d.isLt, by decide, trivial⟩
  have hd := d.isLt; have ha := a.isLt
  have hp : 0x36000002 + d.toNat * 1048576 + a.toNat * 32768 = pack [(10, 2), (5, 0), (4, a.toNat), (1, 0), (5, d.toNat), (7, 27)] := by
    rw [pack_eq]
    change _ = 2 + 1024 * (0 + 32 * (a.toNat + 16 * (0 + 2 * (d.toNat + 32 * (27)))))
    omega
  refine roundTrip ?_ hfit 6 rfl rfl ?_ enc
  · exact congrArg some hp
  · rw [row1B _ (pack_slice hfit 5 rfl rfl)]
    have e0 : pack [(10, 2), (5, 0), (4, a.toNat), (1, 0), (5, d.toNat), (7, 27)] % 32768 = 2 := by rw [← hp]; omega
    have e1 : _ % 1024 = 2 := pack_low hfit rfl
    have e2 : _ / 524288 % 2 = 0 := pack_slice hfit 3 rfl rfl
    simp only [decodeOp1B, e0, e1, e2, pack_field hfit 4 (lo := 20) rfl rfl, pack_field hfit 2 (lo := 15) rfl rfl, Nat.reduceEqDiff, reduceIte, and_self, and_false, false_and, and_true, true_and, not_false_eq_true]

theorem pslice (d : BitVec 4) (a : BitVec 4) (b : BitVec 5) : Statement (.pslice d a b) := by
  intro hw word enc
  have hfit : Fits [(10, 3), (5, b.toNat), (4, a.toNat), (1, 0), (4, d.toNat), (1, 0), (7, 27)] := ⟨by decide, b.isLt, a.isLt, by decide, d.isLt, by decide, by decide, trivial⟩
  have hd := d.isLt; have ha := a.isLt; have hb := b.isLt
  have hp : 0x36000003 + d.toNat * 1048576 + a.toNat * 32768 + b.toNat * 1024 = pack [(10, 3), (5, b.toNat), (4, a.toNat), (1, 0), (4, d.toNat), (1, 0), (7, 27)] := by
    rw [pack_eq]
    change _ = 3 + 1024 * (b.toNat + 32 * (a.toNat + 16 * (0 + 2 * (d.toNat + 16 * (0 + 2 * (27))))))
    omega
  refine roundTrip ?_ hfit 7 rfl rfl ?_ enc
  · exact congrArg some hp
  · rw [row1B _ (pack_slice hfit 6 rfl rfl)]
    have c0 : ¬(pack [(10, 3), (5, b.toNat), (4, a.toNat), (1, 0), (4, d.toNat), (1, 0), (7, 27)] % 32768 = 0) := by rw [← hp]; omega
    have c2 : ¬(pack [(10, 3), (5, b.toNat), (4, a.toNat), (1, 0), (4, d.toNat), (1, 0), (7, 27)] % 32768 = 2) := by rw [← hp]; omega
    have e0 : _ / 524288 % 2 = 0 := pack_slice hfit 3 rfl rfl
    have e1 : _ / 16777216 % 2 = 0 := pack_slice hfit 5 rfl rfl
    have e2 : _ % 1024 = 3 := pack_low hfit rfl
    simp only [decodeOp1B, c0, c2, e0, e1, e2, pack_field hfit 4 (lo := 20) rfl rfl, pack_field hfit 2 (lo := 15) rfl rfl, pack_field hfit 1 (lo := 10) rfl rfl, Nat.reduceEqDiff, reduceIte, and_self, and_false, false_and, and_true, true_and, not_false_eq_true]

theorem pfrom (d : BitVec 4) (a : BitVec 5) : Statement (.pfrom d a) := by
  intro hw word enc
  have hfit : Fits [(10, 4), (5, 0), (5, a.toNat), (4, d.toNat), (1, 0), (7, 27)] := ⟨by decide, by decide, a.isLt, d.isLt, by decide, by decide, trivial⟩
  have hd := d.isLt; have ha := a.isLt
  have hp : 0x36000004 + d.toNat * 1048576 + a.toNat * 32768 = pack [(10, 4), (5, 0), (5, a.toNat), (4, d.toNat), (1, 0), (7, 27)] := by
    rw [pack_eq]
    change _ = 4 + 1024 * (0 + 32 * (a.toNat + 32 * (d.toNat + 16 * (0 + 2 * (27)))))
    omega
  refine roundTrip ?_ hfit 6 rfl rfl ?_ enc
  · exact congrArg some hp
  · rw [row1B _ (pack_slice hfit 5 rfl rfl)]
    have e0 : pack [(10, 4), (5, 0), (5, a.toNat), (4, d.toNat), (1, 0), (7, 27)] % 32768 = 4 := by rw [← hp]; omega
    have e1 : _ % 1024 = 4 := pack_low hfit rfl
    have e2 : _ / 16777216 % 2 = 0 := pack_slice hfit 4 rfl rfl
    simp only [decodeOp1B, e0, e1, e2, pack_field hfit 3 (lo := 20) rfl rfl, pack_field hfit 2 (lo := 15) rfl rfl, Nat.reduceEqDiff, reduceIte, and_self, and_false, false_and, and_true, true_and, not_false_eq_true]

theorem ptox (d : BitVec 5) (a : BitVec 4) : Statement (.ptox d a) := by
  intro hw word enc
  have hfit : Fits [(10, 5), (5, 0), (4, a.toNat), (1, 0), (5, d.toNat), (7, 27)] := ⟨by decide, by decide, a.isLt, by decide, d.isLt, by decide, trivial⟩
  have hd := d.isLt; have ha := a.isLt
  have hp : 0x36000005 + d.toNat * 1048576 + a.toNat * 32768 = pack [(10, 5), (5, 0), (4, a.toNat), (1, 0), (5, d.toNat), (7, 27)] := by
    rw [pack_eq]
    change _ = 5 + 1024 * (0 + 32 * (a.toNat + 16 * (0 + 2 * (d.toNat + 32 * (27)))))
    omega
  refine roundTrip ?_ hfit 6 rfl rfl ?_ enc
  · exact congrArg some hp
  · rw [row1B _ (pack_slice hfit 5 rfl rfl)]
    have e0 : pack [(10, 5), (5, 0), (4, a.toNat), (1, 0), (5, d.toNat), (7, 27)] % 32768 = 5 := by rw [← hp]; omega
    have e1 : _ % 1024 = 5 := pack_low hfit rfl
    have e2 : _ / 524288 % 2 = 0 := pack_slice hfit 3 rfl rfl
    simp only [decodeOp1B, e0, e1, e2, pack_field hfit 4 (lo := 20) rfl rfl, pack_field hfit 2 (lo := 15) rfl rfl, Nat.reduceEqDiff, reduceIte, and_self, and_false, false_and, and_true, true_and, not_false_eq_true]

theorem alloc (d : BitVec 4) (a : BitVec 5) (l : BitVec 2) (k : BitVec 4) : Statement (.alloc d a l k) := by
  intro hw word enc
  have hfit : Fits [(4, k.toNat), (2, l.toNat), (9, 0), (5, a.toNat), (4, d.toNat), (1, 0), (7, 28)] := ⟨k.isLt, l.isLt, by decide, a.isLt, d.isLt, by decide, by decide, trivial⟩
  have hp : 0x38000000 + d.toNat * 1048576 + a.toNat * 32768 + l.toNat * 16 + k.toNat = pack [(4, k.toNat), (2, l.toNat), (9, 0), (5, a.toNat), (4, d.toNat), (1, 0), (7, 28)] := by
    rw [pack_eq]
    change _ = k.toNat + 16 * (l.toNat + 4 * (0 + 512 * (a.toNat + 32 * (d.toNat + 16 * (0 + 2 * (28))))))
    omega
  refine roundTrip ?_ hfit 7 rfl rfl ?_ enc
  · exact congrArg some hp
  · rw [row1C _ (pack_slice hfit 6 rfl rfl)]
    have e0 : _ / 64 % 512 = 0 := pack_slice hfit 2 rfl rfl
    have e1 : _ / 16777216 % 2 = 0 := pack_slice hfit 5 rfl rfl
    simp only [decodeOp1C, e0, e1, pack_field hfit 4 (lo := 20) rfl rfl, pack_field hfit 3 (lo := 15) rfl rfl, pack_field hfit 1 (lo := 4) rfl rfl, pack_field hfit 0 (lo := 0) rfl rfl, Nat.reduceEqDiff, reduceIte, and_self, and_false, false_and, and_true, true_and, not_false_eq_true]

theorem allocr (d : BitVec 4) (a : BitVec 5) (l : BitVec 2) (k : BitVec 4) : Statement (.allocr d a l k) := by
  intro hw word enc
  have hfit : Fits [(4, k.toNat), (2, l.toNat), (9, 64), (5, a.toNat), (4, d.toNat), (1, 0), (7, 28)] := ⟨k.isLt, l.isLt, by decide, a.isLt, d.isLt, by decide, by decide, trivial⟩
  have hp : 0x38001000 + d.toNat * 1048576 + a.toNat * 32768 + l.toNat * 16 + k.toNat = pack [(4, k.toNat), (2, l.toNat), (9, 64), (5, a.toNat), (4, d.toNat), (1, 0), (7, 28)] := by
    rw [pack_eq]
    change _ = k.toNat + 16 * (l.toNat + 4 * (64 + 512 * (a.toNat + 32 * (d.toNat + 16 * (0 + 2 * (28))))))
    omega
  refine roundTrip ?_ hfit 7 rfl rfl ?_ enc
  · exact congrArg some hp
  · rw [row1C _ (pack_slice hfit 6 rfl rfl)]
    have e0 : _ / 64 % 512 = 64 := pack_slice hfit 2 rfl rfl
    have e1 : _ / 16777216 % 2 = 0 := pack_slice hfit 5 rfl rfl
    simp only [decodeOp1C, e0, e1, pack_field hfit 4 (lo := 20) rfl rfl, pack_field hfit 3 (lo := 15) rfl rfl, pack_field hfit 1 (lo := 4) rfl rfl, pack_field hfit 0 (lo := 0) rfl rfl, Nat.reduceEqDiff, reduceIte, and_self, and_false, false_and, and_true, true_and, not_false_eq_true]

theorem otouch (d : BitVec 4) : Statement (.otouch d) := by
  intro hw word enc
  have hfit : Fits [(6, 0), (9, 128), (5, 0), (4, d.toNat), (1, 0), (7, 28)] := ⟨by decide, by decide, by decide, d.isLt, by decide, by decide, trivial⟩
  have hd := d.isLt
  have hp : 0x38002000 + d.toNat * 1048576 = pack [(6, 0), (9, 128), (5, 0), (4, d.toNat), (1, 0), (7, 28)] := by
    rw [pack_eq]
    change _ = 0 + 64 * (128 + 512 * (0 + 32 * (d.toNat + 16 * (0 + 2 * (28)))))
    omega
  refine roundTrip ?_ hfit 6 rfl rfl ?_ enc
  · exact congrArg some hp
  · rw [row1C _ (pack_slice hfit 5 rfl rfl)]
    have e0 : _ / 64 % 512 = 128 := pack_slice hfit 1 rfl rfl
    have e1 : pack [(6, 0), (9, 128), (5, 0), (4, d.toNat), (1, 0), (7, 28)] % 1048576 = 8192 := by rw [← hp]; omega
    have e2 : _ / 16777216 % 2 = 0 := pack_slice hfit 4 rfl rfl
    simp only [decodeOp1C, e0, e1, e2, pack_field hfit 3 (lo := 20) rfl rfl, Nat.reduceEqDiff, reduceIte, and_self, and_false, false_and, and_true, true_and, not_false_eq_true]

theorem oacq (d : BitVec 4) (g : BitVec 3) (s : BitVec 4) : Statement (.oacq d g s) := by
  intro hw word enc
  have hfit : Fits [(1, 0), (4, s.toNat), (4, 0), (3, g.toNat), (8, 3), (4, d.toNat), (1, 0), (7, 28)] := ⟨by decide, s.isLt, by decide, g.isLt, by decide, d.isLt, by decide, by decide, trivial⟩
  have hd := d.isLt; have hg := g.isLt; have hs := s.isLt
  have hp : 0x38003000 + d.toNat * 1048576 + g.toNat * 512 + s.toNat * 2 = pack [(1, 0), (4, s.toNat), (4, 0), (3, g.toNat), (8, 3), (4, d.toNat), (1, 0), (7, 28)] := by
    rw [pack_eq]
    change _ = 0 + 2 * (s.toNat + 16 * (0 + 16 * (g.toNat + 8 * (3 + 256 * (d.toNat + 16 * (0 + 2 * (28)))))))
    omega
  refine roundTrip ?_ hfit 8 rfl rfl ?_ enc
  · exact congrArg some hp
  · rw [row1C _ (pack_slice hfit 7 rfl rfl)]
    have c0 : ¬(pack [(1, 0), (4, s.toNat), (4, 0), (3, g.toNat), (8, 3), (4, d.toNat), (1, 0), (7, 28)] / 64 % 512 = 0) := by rw [← hp]; omega
    have c1 : ¬(pack [(1, 0), (4, s.toNat), (4, 0), (3, g.toNat), (8, 3), (4, d.toNat), (1, 0), (7, 28)] / 64 % 512 = 64) := by rw [← hp]; omega
    have c2 : ¬(pack [(1, 0), (4, s.toNat), (4, 0), (3, g.toNat), (8, 3), (4, d.toNat), (1, 0), (7, 28)] % 1048576 = 8192) := by rw [← hp]; omega
    have e0 : _ / 16777216 % 2 = 0 := pack_slice hfit 6 rfl rfl
    have e1 : _ % 2 = 0 := pack_low hfit rfl
    have e2 : _ / 32 % 16 = 0 := pack_slice hfit 2 rfl rfl
    have e3 : _ / 4096 % 256 = 3 := pack_slice hfit 4 rfl rfl
    simp only [decodeOp1C, c0, c1, c2, e0, e1, e2, e3, pack_field hfit 5 (lo := 20) rfl rfl, pack_field hfit 3 (lo := 9) rfl rfl, pack_field hfit 1 (lo := 1) rfl rfl, Nat.reduceEqDiff, reduceIte, and_self, and_false, false_and, and_true, true_and, not_false_eq_true]

theorem orel (d : BitVec 4) (g : BitVec 3) (s : BitVec 4) : Statement (.orel d g s) := by
  intro hw word enc
  have hfit : Fits [(1, 0), (4, s.toNat), (4, 0), (3, g.toNat), (8, 4), (4, d.toNat), (1, 0), (7, 28)] := ⟨by decide, s.isLt, by decide, g.isLt, by decide, d.isLt, by decide, by decide, trivial⟩
  have hd := d.isLt; have hg := g.isLt; have hs := s.isLt
  have hp : 0x38004000 + d.toNat * 1048576 + g.toNat * 512 + s.toNat * 2 = pack [(1, 0), (4, s.toNat), (4, 0), (3, g.toNat), (8, 4), (4, d.toNat), (1, 0), (7, 28)] := by
    rw [pack_eq]
    change _ = 0 + 2 * (s.toNat + 16 * (0 + 16 * (g.toNat + 8 * (4 + 256 * (d.toNat + 16 * (0 + 2 * (28)))))))
    omega
  refine roundTrip ?_ hfit 8 rfl rfl ?_ enc
  · exact congrArg some hp
  · rw [row1C _ (pack_slice hfit 7 rfl rfl)]
    have c0 : ¬(pack [(1, 0), (4, s.toNat), (4, 0), (3, g.toNat), (8, 4), (4, d.toNat), (1, 0), (7, 28)] / 64 % 512 = 0) := by rw [← hp]; omega
    have c1 : ¬(pack [(1, 0), (4, s.toNat), (4, 0), (3, g.toNat), (8, 4), (4, d.toNat), (1, 0), (7, 28)] / 64 % 512 = 64) := by rw [← hp]; omega
    have c2 : ¬(pack [(1, 0), (4, s.toNat), (4, 0), (3, g.toNat), (8, 4), (4, d.toNat), (1, 0), (7, 28)] % 1048576 = 8192) := by rw [← hp]; omega
    have e0 : _ / 16777216 % 2 = 0 := pack_slice hfit 6 rfl rfl
    have e1 : _ / 4096 % 256 = 4 := pack_slice hfit 4 rfl rfl
    have e2 : _ % 2 = 0 := pack_low hfit rfl
    have e3 : _ / 32 % 16 = 0 := pack_slice hfit 2 rfl rfl
    simp only [decodeOp1C, c0, c1, c2, e0, e1, e2, e3, pack_field hfit 5 (lo := 20) rfl rfl, pack_field hfit 3 (lo := 9) rfl rfl, pack_field hfit 1 (lo := 1) rfl rfl, Nat.reduceEqDiff, reduceIte, and_self, and_false, false_and, and_true, true_and, not_false_eq_true]

theorem cas (d : BitVec 5) (p : BitVec 4) (b : BitVec 5) (g : BitVec 3) (s : BitVec 2) (w : BitVec 1) : Statement (.cas d p b g s w) := by
  intro hw word enc
  have hfit : Fits [(1, w.toNat), (2, s.toNat), (3, g.toNat), (4, 15), (5, b.toNat), (1, 0), (4, p.toNat), (5, d.toNat), (7, 29)] := ⟨w.isLt, s.isLt, g.isLt, by decide, b.isLt, by decide, p.isLt, d.isLt, by decide, trivial⟩
  have hp : 0x3A0003C0 + d.toNat * 1048576 + p.toNat * 65536 + b.toNat * 1024 + g.toNat * 8 + s.toNat * 2 + w.toNat = pack [(1, w.toNat), (2, s.toNat), (3, g.toNat), (4, 15), (5, b.toNat), (1, 0), (4, p.toNat), (5, d.toNat), (7, 29)] := by
    rw [pack_eq]
    change _ = w.toNat + 2 * (s.toNat + 4 * (g.toNat + 8 * (15 + 16 * (b.toNat + 32 * (0 + 2 * (p.toNat + 16 * (d.toNat + 32 * (29))))))))
    omega
  refine roundTrip ?_ hfit 9 rfl rfl ?_ enc
  · exact congrArg some hp
  · rw [row1D _ (pack_slice hfit 8 rfl rfl)]
    have e0 : _ / 64 % 16 = 15 := pack_slice hfit 3 rfl rfl
    have e1 : _ / 32768 % 2 = 0 := pack_slice hfit 5 rfl rfl
    simp only [decodeOp1D, e0, e1, pack_field hfit 7 (lo := 20) rfl rfl, pack_field hfit 6 (lo := 16) rfl rfl, pack_field hfit 4 (lo := 10) rfl rfl, pack_field hfit 2 (lo := 3) rfl rfl, pack_field hfit 1 (lo := 1) rfl rfl, pack_field hfit 0 (lo := 0) rfl rfl, Nat.reduceEqDiff, reduceIte, and_self, and_false, false_and, and_true, true_and, not_false_eq_true]

theorem amo (d : BitVec 5) (p : BitVec 4) (b : BitVec 5) (o : BitVec 4) (g : BitVec 3) (s : BitVec 2) (w : BitVec 1) : Statement (.amo d p b o g s w) := by
  intro hw word enc
  have ho : o.toNat ≤ 8 := of_decide_eq_true (Bool.and_eq_true_iff.mp hw).1
  have hfit : Fits [(1, w.toNat), (2, s.toNat), (3, g.toNat), (4, o.toNat), (5, b.toNat), (1, 0), (4, p.toNat), (5, d.toNat), (7, 29)] := ⟨w.isLt, s.isLt, g.isLt, o.isLt, b.isLt, by decide, p.isLt, d.isLt, by decide, trivial⟩
  have hd := d.isLt; have hp := p.isLt; have hb := b.isLt; have ho := o.isLt; have hg := g.isLt; have hs := s.isLt; have hw := w.isLt
  have hp : 0x3A000000 + d.toNat * 1048576 + p.toNat * 65536 + b.toNat * 1024 + o.toNat * 64 + g.toNat * 8 + s.toNat * 2 + w.toNat = pack [(1, w.toNat), (2, s.toNat), (3, g.toNat), (4, o.toNat), (5, b.toNat), (1, 0), (4, p.toNat), (5, d.toNat), (7, 29)] := by
    rw [pack_eq]
    change _ = w.toNat + 2 * (s.toNat + 4 * (g.toNat + 8 * (o.toNat + 16 * (b.toNat + 32 * (0 + 2 * (p.toNat + 16 * (d.toNat + 32 * (29))))))))
    omega
  refine roundTrip ?_ hfit 9 rfl rfl ?_ enc
  · exact congrArg some hp
  · rw [row1D _ (pack_slice hfit 8 rfl rfl)]
    have c0 : ¬(pack [(1, w.toNat), (2, s.toNat), (3, g.toNat), (4, o.toNat), (5, b.toNat), (1, 0), (4, p.toNat), (5, d.toNat), (7, 29)] / 64 % 16 = 15) := by rw [← hp]; omega
    have e0 : _ / 32768 % 2 = 0 := pack_slice hfit 5 rfl rfl
    simp only [decodeOp1D, c0, e0, pack_field hfit 7 (lo := 20) rfl rfl, pack_field hfit 6 (lo := 16) rfl rfl, pack_field hfit 4 (lo := 10) rfl rfl, pack_field hfit 3 (lo := 6) rfl rfl, pack_field hfit 2 (lo := 3) rfl rfl, pack_field hfit 1 (lo := 1) rfl rfl, pack_field hfit 0 (lo := 0) rfl rfl, Nat.reduceEqDiff, reduceIte, and_self, and_false, false_and, and_true, true_and, not_false_eq_true]

theorem vamo (d : BitVec 5) (p : BitVec 4) (w : BitVec 1) (b : BitVec 5) (m : BitVec 3) (n : BitVec 1) (o : BitVec 4) (g : BitVec 2) : Statement (.vamo d p w b m n o g) := by
  intro hw word enc
  have hfit : Fits [(2, g.toNat), (4, o.toNat), (1, n.toNat), (3, m.toNat), (5, b.toNat), (1, w.toNat), (4, p.toNat), (5, d.toNat), (7, 30)] := ⟨g.isLt, o.isLt, n.isLt, m.isLt, b.isLt, w.isLt, p.isLt, d.isLt, by decide, trivial⟩
  have hp : 0x3C000000 + d.toNat * 1048576 + p.toNat * 65536 + w.toNat * 32768 + b.toNat * 1024 + m.toNat * 128 + n.toNat * 64 + o.toNat * 4 + g.toNat = pack [(2, g.toNat), (4, o.toNat), (1, n.toNat), (3, m.toNat), (5, b.toNat), (1, w.toNat), (4, p.toNat), (5, d.toNat), (7, 30)] := by
    rw [pack_eq]
    change _ = g.toNat + 4 * (o.toNat + 16 * (n.toNat + 2 * (m.toNat + 8 * (b.toNat + 32 * (w.toNat + 2 * (p.toNat + 16 * (d.toNat + 32 * (30))))))))
    omega
  refine roundTrip ?_ hfit 9 rfl rfl ?_ enc
  · exact congrArg some hp
  · rw [row1E _ (pack_slice hfit 8 rfl rfl)]
    simp only [decodeOp1E, pack_field hfit 7 (lo := 20) rfl rfl, pack_field hfit 6 (lo := 16) rfl rfl, pack_field hfit 5 (lo := 15) rfl rfl, pack_field hfit 4 (lo := 10) rfl rfl, pack_field hfit 3 (lo := 7) rfl rfl, pack_field hfit 2 (lo := 6) rfl rfl, pack_field hfit 1 (lo := 2) rfl rfl, pack_field hfit 0 (lo := 0) rfl rfl]

theorem fence (g : BitVec 3) (s : BitVec 4) : Statement (.fence g s) := by
  intro hw word enc
  have hfit : Fits [(1, 0), (4, s.toNat), (3, g.toNat), (17, 0), (7, 31)] := ⟨by decide, s.isLt, g.isLt, by decide, by decide, trivial⟩
  have hp : 0x3E000000 + g.toNat * 32 + s.toNat * 2 = pack [(1, 0), (4, s.toNat), (3, g.toNat), (17, 0), (7, 31)] := by
    rw [pack_eq]
    change _ = 0 + 2 * (s.toNat + 16 * (g.toNat + 8 * (0 + 131072 * (31))))
    omega
  refine roundTrip ?_ hfit 5 rfl rfl ?_ enc
  · exact congrArg some hp
  · rw [row1F _ (pack_slice hfit 4 rfl rfl)]
    have e0 : _ % 2 = 0 := pack_low hfit rfl
    have e1 : _ / 256 % 131072 = 0 := pack_slice hfit 3 rfl rfl
    simp only [decodeOp1F, e0, e1, pack_field hfit 2 (lo := 5) rfl rfl, pack_field hfit 1 (lo := 1) rfl rfl, Nat.reduceEqDiff, reduceIte, and_self, and_false, false_and, and_true, true_and, not_false_eq_true]

theorem xfence (c : BitVec 3) (e : BitVec 3) (g : BitVec 3) (s : BitVec 4) : Statement (.xfence c e g s) := by
  intro hw word enc
  have hfit : Fits [(1, 0), (4, s.toNat), (3, g.toNat), (2, 1), (3, e.toNat), (2, 0), (3, c.toNat), (7, 0), (7, 31)] := ⟨by decide, s.isLt, g.isLt, by decide, e.isLt, by decide, c.isLt, by decide, by decide, trivial⟩
  have hc := c.isLt; have he := e.isLt; have hg := g.isLt; have hs := s.isLt
  have hp : 0x3E000100 + c.toNat * 32768 + e.toNat * 1024 + g.toNat * 32 + s.toNat * 2 = pack [(1, 0), (4, s.toNat), (3, g.toNat), (2, 1), (3, e.toNat), (2, 0), (3, c.toNat), (7, 0), (7, 31)] := by
    rw [pack_eq]
    change _ = 0 + 2 * (s.toNat + 16 * (g.toNat + 8 * (1 + 4 * (e.toNat + 8 * (0 + 4 * (c.toNat + 8 * (0 + 128 * (31))))))))
    omega
  refine roundTrip ?_ hfit 9 rfl rfl ?_ enc
  · exact congrArg some hp
  · rw [row1F _ (pack_slice hfit 8 rfl rfl)]
    have c0 : ¬(pack [(1, 0), (4, s.toNat), (3, g.toNat), (2, 1), (3, e.toNat), (2, 0), (3, c.toNat), (7, 0), (7, 31)] / 256 % 131072 = 0) := by rw [← hp]; omega
    have e0 : _ % 2 = 0 := pack_low hfit rfl
    have e1 : _ / 256 % 4 = 1 := pack_slice hfit 3 rfl rfl
    have e2 : _ / 8192 % 4 = 0 := pack_slice hfit 5 rfl rfl
    have e3 : _ / 262144 % 128 = 0 := pack_slice hfit 7 rfl rfl
    simp only [decodeOp1F, c0, e0, e1, e2, e3, pack_field hfit 6 (lo := 15) rfl rfl, pack_field hfit 4 (lo := 10) rfl rfl, pack_field hfit 2 (lo := 5) rfl rfl, pack_field hfit 1 (lo := 1) rfl rfl, Nat.reduceEqDiff, reduceIte, and_self, and_false, false_and, and_true, true_and, not_false_eq_true]

theorem setvl (d : BitVec 5) (a : BitVec 5) (t : BitVec 4) : Statement (.setvl d a t) := by
  intro hw word enc
  have hfit : Fits [(2, 0), (4, t.toNat), (9, 0), (5, a.toNat), (5, d.toNat), (7, 32)] := ⟨by decide, t.isLt, by decide, a.isLt, d.isLt, by decide, trivial⟩
  have hp : 0x40000000 + d.toNat * 1048576 + a.toNat * 32768 + t.toNat * 4 = pack [(2, 0), (4, t.toNat), (9, 0), (5, a.toNat), (5, d.toNat), (7, 32)] := by
    rw [pack_eq]
    change _ = 0 + 4 * (t.toNat + 16 * (0 + 512 * (a.toNat + 32 * (d.toNat + 32 * (32)))))
    omega
  refine roundTrip ?_ hfit 6 rfl rfl ?_ enc
  · exact congrArg some hp
  · rw [row20 _ (pack_slice hfit 5 rfl rfl)]
    have e0 : _ % 4 = 0 := pack_low hfit rfl
    have e1 : _ / 64 % 512 = 0 := pack_slice hfit 2 rfl rfl
    simp only [decodeOp20, e0, e1, pack_field hfit 4 (lo := 20) rfl rfl, pack_field hfit 3 (lo := 15) rfl rfl, pack_field hfit 1 (lo := 2) rfl rfl, Nat.reduceEqDiff, reduceIte, and_self, and_false, false_and, and_true, true_and, not_false_eq_true]

theorem vadd (d : BitVec 5) (a : BitVec 5) (b : BitVec 5) (m : BitVec 3) (n : BitVec 1) (t : BitVec 4) : Statement (.vadd d a b m n t) := by
  intro hw word enc
  have hfit : Fits [(2, 0), (4, t.toNat), (1, n.toNat), (3, m.toNat), (5, b.toNat), (5, a.toNat), (5, d.toNat), (7, 33)] := ⟨by decide, t.isLt, n.isLt, m.isLt, b.isLt, a.isLt, d.isLt, by decide, trivial⟩
  have hp : 0x42000000 + d.toNat * 1048576 + a.toNat * 32768 + b.toNat * 1024 + m.toNat * 128 + n.toNat * 64 + t.toNat * 4 = pack [(2, 0), (4, t.toNat), (1, n.toNat), (3, m.toNat), (5, b.toNat), (5, a.toNat), (5, d.toNat), (7, 33)] := by
    rw [pack_eq]
    change _ = 0 + 4 * (t.toNat + 16 * (n.toNat + 2 * (m.toNat + 8 * (b.toNat + 32 * (a.toNat + 32 * (d.toNat + 32 * (33)))))))
    omega
  refine roundTrip ?_ hfit 8 rfl rfl ?_ enc
  · exact congrArg some hp
  · rw [row21 _ (pack_slice hfit 7 rfl rfl)]
    have e0 : _ % 4 = 0 := pack_low hfit rfl
    simp only [decodeOp21, e0, pack_field hfit 6 (lo := 20) rfl rfl, pack_field hfit 5 (lo := 15) rfl rfl, pack_field hfit 4 (lo := 10) rfl rfl, pack_field hfit 3 (lo := 7) rfl rfl, pack_field hfit 2 (lo := 6) rfl rfl, pack_field hfit 1 (lo := 2) rfl rfl, Nat.reduceEqDiff, reduceIte]

theorem vsub (d : BitVec 5) (a : BitVec 5) (b : BitVec 5) (m : BitVec 3) (n : BitVec 1) (t : BitVec 4) : Statement (.vsub d a b m n t) := by
  intro hw word enc
  have hfit : Fits [(2, 1), (4, t.toNat), (1, n.toNat), (3, m.toNat), (5, b.toNat), (5, a.toNat), (5, d.toNat), (7, 33)] := ⟨by decide, t.isLt, n.isLt, m.isLt, b.isLt, a.isLt, d.isLt, by decide, trivial⟩
  have hp : 0x42000001 + d.toNat * 1048576 + a.toNat * 32768 + b.toNat * 1024 + m.toNat * 128 + n.toNat * 64 + t.toNat * 4 = pack [(2, 1), (4, t.toNat), (1, n.toNat), (3, m.toNat), (5, b.toNat), (5, a.toNat), (5, d.toNat), (7, 33)] := by
    rw [pack_eq]
    change _ = 1 + 4 * (t.toNat + 16 * (n.toNat + 2 * (m.toNat + 8 * (b.toNat + 32 * (a.toNat + 32 * (d.toNat + 32 * (33)))))))
    omega
  refine roundTrip ?_ hfit 8 rfl rfl ?_ enc
  · exact congrArg some hp
  · rw [row21 _ (pack_slice hfit 7 rfl rfl)]
    have e0 : _ % 4 = 1 := pack_low hfit rfl
    simp only [decodeOp21, e0, pack_field hfit 6 (lo := 20) rfl rfl, pack_field hfit 5 (lo := 15) rfl rfl, pack_field hfit 4 (lo := 10) rfl rfl, pack_field hfit 3 (lo := 7) rfl rfl, pack_field hfit 2 (lo := 6) rfl rfl, pack_field hfit 1 (lo := 2) rfl rfl, Nat.reduceEqDiff, reduceIte]

theorem vmul (d : BitVec 5) (a : BitVec 5) (b : BitVec 5) (m : BitVec 3) (n : BitVec 1) (t : BitVec 4) : Statement (.vmul d a b m n t) := by
  intro hw word enc
  have hfit : Fits [(2, 0), (4, t.toNat), (1, n.toNat), (3, m.toNat), (5, b.toNat), (5, a.toNat), (5, d.toNat), (7, 34)] := ⟨by decide, t.isLt, n.isLt, m.isLt, b.isLt, a.isLt, d.isLt, by decide, trivial⟩
  have hp : 0x44000000 + d.toNat * 1048576 + a.toNat * 32768 + b.toNat * 1024 + m.toNat * 128 + n.toNat * 64 + t.toNat * 4 = pack [(2, 0), (4, t.toNat), (1, n.toNat), (3, m.toNat), (5, b.toNat), (5, a.toNat), (5, d.toNat), (7, 34)] := by
    rw [pack_eq]
    change _ = 0 + 4 * (t.toNat + 16 * (n.toNat + 2 * (m.toNat + 8 * (b.toNat + 32 * (a.toNat + 32 * (d.toNat + 32 * (34)))))))
    omega
  refine roundTrip ?_ hfit 8 rfl rfl ?_ enc
  · exact congrArg some hp
  · rw [row22 _ (pack_slice hfit 7 rfl rfl)]
    have e0 : _ % 4 = 0 := pack_low hfit rfl
    simp only [decodeOp22, e0, pack_field hfit 6 (lo := 20) rfl rfl, pack_field hfit 5 (lo := 15) rfl rfl, pack_field hfit 4 (lo := 10) rfl rfl, pack_field hfit 3 (lo := 7) rfl rfl, pack_field hfit 2 (lo := 6) rfl rfl, pack_field hfit 1 (lo := 2) rfl rfl, Nat.reduceEqDiff, reduceIte]

theorem vmulh (d : BitVec 5) (a : BitVec 5) (b : BitVec 5) (m : BitVec 3) (n : BitVec 1) (t : BitVec 4) : Statement (.vmulh d a b m n t) := by
  intro hw word enc
  have hfit : Fits [(2, 1), (4, t.toNat), (1, n.toNat), (3, m.toNat), (5, b.toNat), (5, a.toNat), (5, d.toNat), (7, 34)] := ⟨by decide, t.isLt, n.isLt, m.isLt, b.isLt, a.isLt, d.isLt, by decide, trivial⟩
  have hp : 0x44000001 + d.toNat * 1048576 + a.toNat * 32768 + b.toNat * 1024 + m.toNat * 128 + n.toNat * 64 + t.toNat * 4 = pack [(2, 1), (4, t.toNat), (1, n.toNat), (3, m.toNat), (5, b.toNat), (5, a.toNat), (5, d.toNat), (7, 34)] := by
    rw [pack_eq]
    change _ = 1 + 4 * (t.toNat + 16 * (n.toNat + 2 * (m.toNat + 8 * (b.toNat + 32 * (a.toNat + 32 * (d.toNat + 32 * (34)))))))
    omega
  refine roundTrip ?_ hfit 8 rfl rfl ?_ enc
  · exact congrArg some hp
  · rw [row22 _ (pack_slice hfit 7 rfl rfl)]
    have e0 : _ % 4 = 1 := pack_low hfit rfl
    simp only [decodeOp22, e0, pack_field hfit 6 (lo := 20) rfl rfl, pack_field hfit 5 (lo := 15) rfl rfl, pack_field hfit 4 (lo := 10) rfl rfl, pack_field hfit 3 (lo := 7) rfl rfl, pack_field hfit 2 (lo := 6) rfl rfl, pack_field hfit 1 (lo := 2) rfl rfl, Nat.reduceEqDiff, reduceIte]

theorem vmulhz (d : BitVec 5) (a : BitVec 5) (b : BitVec 5) (m : BitVec 3) (n : BitVec 1) (t : BitVec 4) : Statement (.vmulhz d a b m n t) := by
  intro hw word enc
  have hfit : Fits [(2, 2), (4, t.toNat), (1, n.toNat), (3, m.toNat), (5, b.toNat), (5, a.toNat), (5, d.toNat), (7, 34)] := ⟨by decide, t.isLt, n.isLt, m.isLt, b.isLt, a.isLt, d.isLt, by decide, trivial⟩
  have hp : 0x44000002 + d.toNat * 1048576 + a.toNat * 32768 + b.toNat * 1024 + m.toNat * 128 + n.toNat * 64 + t.toNat * 4 = pack [(2, 2), (4, t.toNat), (1, n.toNat), (3, m.toNat), (5, b.toNat), (5, a.toNat), (5, d.toNat), (7, 34)] := by
    rw [pack_eq]
    change _ = 2 + 4 * (t.toNat + 16 * (n.toNat + 2 * (m.toNat + 8 * (b.toNat + 32 * (a.toNat + 32 * (d.toNat + 32 * (34)))))))
    omega
  refine roundTrip ?_ hfit 8 rfl rfl ?_ enc
  · exact congrArg some hp
  · rw [row22 _ (pack_slice hfit 7 rfl rfl)]
    have e0 : _ % 4 = 2 := pack_low hfit rfl
    simp only [decodeOp22, e0, pack_field hfit 6 (lo := 20) rfl rfl, pack_field hfit 5 (lo := 15) rfl rfl, pack_field hfit 4 (lo := 10) rfl rfl, pack_field hfit 3 (lo := 7) rfl rfl, pack_field hfit 2 (lo := 6) rfl rfl, pack_field hfit 1 (lo := 2) rfl rfl, Nat.reduceEqDiff, reduceIte]

theorem vfma (d : BitVec 5) (a : BitVec 5) (b : BitVec 5) (m : BitVec 3) (n : BitVec 1) (t : BitVec 4) : Statement (.vfma d a b m n t) := by
  intro hw word enc
  have hfit : Fits [(2, 0), (4, t.toNat), (1, n.toNat), (3, m.toNat), (5, b.toNat), (5, a.toNat), (5, d.toNat), (7, 35)] := ⟨by decide, t.isLt, n.isLt, m.isLt, b.isLt, a.isLt, d.isLt, by decide, trivial⟩
  have hp : 0x46000000 + d.toNat * 1048576 + a.toNat * 32768 + b.toNat * 1024 + m.toNat * 128 + n.toNat * 64 + t.toNat * 4 = pack [(2, 0), (4, t.toNat), (1, n.toNat), (3, m.toNat), (5, b.toNat), (5, a.toNat), (5, d.toNat), (7, 35)] := by
    rw [pack_eq]
    change _ = 0 + 4 * (t.toNat + 16 * (n.toNat + 2 * (m.toNat + 8 * (b.toNat + 32 * (a.toNat + 32 * (d.toNat + 32 * (35)))))))
    omega
  refine roundTrip ?_ hfit 8 rfl rfl ?_ enc
  · exact congrArg some hp
  · rw [row23 _ (pack_slice hfit 7 rfl rfl)]
    have e0 : _ % 4 = 0 := pack_low hfit rfl
    simp only [decodeOp23, e0, pack_field hfit 6 (lo := 20) rfl rfl, pack_field hfit 5 (lo := 15) rfl rfl, pack_field hfit 4 (lo := 10) rfl rfl, pack_field hfit 3 (lo := 7) rfl rfl, pack_field hfit 2 (lo := 6) rfl rfl, pack_field hfit 1 (lo := 2) rfl rfl, Nat.reduceEqDiff, reduceIte]

theorem vfms (d : BitVec 5) (a : BitVec 5) (b : BitVec 5) (m : BitVec 3) (n : BitVec 1) (t : BitVec 4) : Statement (.vfms d a b m n t) := by
  intro hw word enc
  have hfit : Fits [(2, 1), (4, t.toNat), (1, n.toNat), (3, m.toNat), (5, b.toNat), (5, a.toNat), (5, d.toNat), (7, 35)] := ⟨by decide, t.isLt, n.isLt, m.isLt, b.isLt, a.isLt, d.isLt, by decide, trivial⟩
  have hp : 0x46000001 + d.toNat * 1048576 + a.toNat * 32768 + b.toNat * 1024 + m.toNat * 128 + n.toNat * 64 + t.toNat * 4 = pack [(2, 1), (4, t.toNat), (1, n.toNat), (3, m.toNat), (5, b.toNat), (5, a.toNat), (5, d.toNat), (7, 35)] := by
    rw [pack_eq]
    change _ = 1 + 4 * (t.toNat + 16 * (n.toNat + 2 * (m.toNat + 8 * (b.toNat + 32 * (a.toNat + 32 * (d.toNat + 32 * (35)))))))
    omega
  refine roundTrip ?_ hfit 8 rfl rfl ?_ enc
  · exact congrArg some hp
  · rw [row23 _ (pack_slice hfit 7 rfl rfl)]
    have e0 : _ % 4 = 1 := pack_low hfit rfl
    simp only [decodeOp23, e0, pack_field hfit 6 (lo := 20) rfl rfl, pack_field hfit 5 (lo := 15) rfl rfl, pack_field hfit 4 (lo := 10) rfl rfl, pack_field hfit 3 (lo := 7) rfl rfl, pack_field hfit 2 (lo := 6) rfl rfl, pack_field hfit 1 (lo := 2) rfl rfl, Nat.reduceEqDiff, reduceIte]

theorem vfnma (d : BitVec 5) (a : BitVec 5) (b : BitVec 5) (m : BitVec 3) (n : BitVec 1) (t : BitVec 4) : Statement (.vfnma d a b m n t) := by
  intro hw word enc
  have hfit : Fits [(2, 2), (4, t.toNat), (1, n.toNat), (3, m.toNat), (5, b.toNat), (5, a.toNat), (5, d.toNat), (7, 35)] := ⟨by decide, t.isLt, n.isLt, m.isLt, b.isLt, a.isLt, d.isLt, by decide, trivial⟩
  have hp : 0x46000002 + d.toNat * 1048576 + a.toNat * 32768 + b.toNat * 1024 + m.toNat * 128 + n.toNat * 64 + t.toNat * 4 = pack [(2, 2), (4, t.toNat), (1, n.toNat), (3, m.toNat), (5, b.toNat), (5, a.toNat), (5, d.toNat), (7, 35)] := by
    rw [pack_eq]
    change _ = 2 + 4 * (t.toNat + 16 * (n.toNat + 2 * (m.toNat + 8 * (b.toNat + 32 * (a.toNat + 32 * (d.toNat + 32 * (35)))))))
    omega
  refine roundTrip ?_ hfit 8 rfl rfl ?_ enc
  · exact congrArg some hp
  · rw [row23 _ (pack_slice hfit 7 rfl rfl)]
    have e0 : _ % 4 = 2 := pack_low hfit rfl
    simp only [decodeOp23, e0, pack_field hfit 6 (lo := 20) rfl rfl, pack_field hfit 5 (lo := 15) rfl rfl, pack_field hfit 4 (lo := 10) rfl rfl, pack_field hfit 3 (lo := 7) rfl rfl, pack_field hfit 2 (lo := 6) rfl rfl, pack_field hfit 1 (lo := 2) rfl rfl, Nat.reduceEqDiff, reduceIte]

theorem vfnms (d : BitVec 5) (a : BitVec 5) (b : BitVec 5) (m : BitVec 3) (n : BitVec 1) (t : BitVec 4) : Statement (.vfnms d a b m n t) := by
  intro hw word enc
  have hfit : Fits [(2, 3), (4, t.toNat), (1, n.toNat), (3, m.toNat), (5, b.toNat), (5, a.toNat), (5, d.toNat), (7, 35)] := ⟨by decide, t.isLt, n.isLt, m.isLt, b.isLt, a.isLt, d.isLt, by decide, trivial⟩
  have hp : 0x46000003 + d.toNat * 1048576 + a.toNat * 32768 + b.toNat * 1024 + m.toNat * 128 + n.toNat * 64 + t.toNat * 4 = pack [(2, 3), (4, t.toNat), (1, n.toNat), (3, m.toNat), (5, b.toNat), (5, a.toNat), (5, d.toNat), (7, 35)] := by
    rw [pack_eq]
    change _ = 3 + 4 * (t.toNat + 16 * (n.toNat + 2 * (m.toNat + 8 * (b.toNat + 32 * (a.toNat + 32 * (d.toNat + 32 * (35)))))))
    omega
  refine roundTrip ?_ hfit 8 rfl rfl ?_ enc
  · exact congrArg some hp
  · rw [row23 _ (pack_slice hfit 7 rfl rfl)]
    have e0 : _ % 4 = 3 := pack_low hfit rfl
    simp only [decodeOp23, e0, pack_field hfit 6 (lo := 20) rfl rfl, pack_field hfit 5 (lo := 15) rfl rfl, pack_field hfit 4 (lo := 10) rfl rfl, pack_field hfit 3 (lo := 7) rfl rfl, pack_field hfit 2 (lo := 6) rfl rfl, pack_field hfit 1 (lo := 2) rfl rfl, Nat.reduceEqDiff, reduceIte]

theorem vfdiv (d : BitVec 5) (a : BitVec 5) (b : BitVec 5) (m : BitVec 3) (n : BitVec 1) (t : BitVec 4) : Statement (.vfdiv d a b m n t) := by
  intro hw word enc
  have hfit : Fits [(2, 0), (4, t.toNat), (1, n.toNat), (3, m.toNat), (5, b.toNat), (5, a.toNat), (5, d.toNat), (7, 36)] := ⟨by decide, t.isLt, n.isLt, m.isLt, b.isLt, a.isLt, d.isLt, by decide, trivial⟩
  have hp : 0x48000000 + d.toNat * 1048576 + a.toNat * 32768 + b.toNat * 1024 + m.toNat * 128 + n.toNat * 64 + t.toNat * 4 = pack [(2, 0), (4, t.toNat), (1, n.toNat), (3, m.toNat), (5, b.toNat), (5, a.toNat), (5, d.toNat), (7, 36)] := by
    rw [pack_eq]
    change _ = 0 + 4 * (t.toNat + 16 * (n.toNat + 2 * (m.toNat + 8 * (b.toNat + 32 * (a.toNat + 32 * (d.toNat + 32 * (36)))))))
    omega
  refine roundTrip ?_ hfit 8 rfl rfl ?_ enc
  · exact congrArg some hp
  · rw [row24 _ (pack_slice hfit 7 rfl rfl)]
    have e0 : _ % 4 = 0 := pack_low hfit rfl
    simp only [decodeOp24, e0, pack_field hfit 6 (lo := 20) rfl rfl, pack_field hfit 5 (lo := 15) rfl rfl, pack_field hfit 4 (lo := 10) rfl rfl, pack_field hfit 3 (lo := 7) rfl rfl, pack_field hfit 2 (lo := 6) rfl rfl, pack_field hfit 1 (lo := 2) rfl rfl, Nat.reduceEqDiff, reduceIte]

theorem vfsqrt (d : BitVec 5) (a : BitVec 5) (m : BitVec 3) (n : BitVec 1) (t : BitVec 4) : Statement (.vfsqrt d a m n t) := by
  intro hw word enc
  have hfit : Fits [(2, 1), (4, t.toNat), (1, n.toNat), (3, m.toNat), (5, 0), (5, a.toNat), (5, d.toNat), (7, 36)] := ⟨by decide, t.isLt, n.isLt, m.isLt, by decide, a.isLt, d.isLt, by decide, trivial⟩
  have hp : 0x48000001 + d.toNat * 1048576 + a.toNat * 32768 + m.toNat * 128 + n.toNat * 64 + t.toNat * 4 = pack [(2, 1), (4, t.toNat), (1, n.toNat), (3, m.toNat), (5, 0), (5, a.toNat), (5, d.toNat), (7, 36)] := by
    rw [pack_eq]
    change _ = 1 + 4 * (t.toNat + 16 * (n.toNat + 2 * (m.toNat + 8 * (0 + 32 * (a.toNat + 32 * (d.toNat + 32 * (36)))))))
    omega
  refine roundTrip ?_ hfit 8 rfl rfl ?_ enc
  · exact congrArg some hp
  · rw [row24 _ (pack_slice hfit 7 rfl rfl)]
    have e0 : _ % 4 = 1 := pack_low hfit rfl
    have e1 : _ / 1024 % 32 = 0 := pack_slice hfit 4 rfl rfl
    simp only [decodeOp24, e0, e1, pack_field hfit 6 (lo := 20) rfl rfl, pack_field hfit 5 (lo := 15) rfl rfl, pack_field hfit 3 (lo := 7) rfl rfl, pack_field hfit 2 (lo := 6) rfl rfl, pack_field hfit 1 (lo := 2) rfl rfl, Nat.reduceEqDiff, reduceIte, and_self, and_false, false_and, and_true, true_and, not_false_eq_true]

theorem vmin (d : BitVec 5) (a : BitVec 5) (b : BitVec 5) (m : BitVec 3) (n : BitVec 1) (t : BitVec 4) : Statement (.vmin d a b m n t) := by
  intro hw word enc
  have hfit : Fits [(2, 0), (4, t.toNat), (1, n.toNat), (3, m.toNat), (5, b.toNat), (5, a.toNat), (5, d.toNat), (7, 37)] := ⟨by decide, t.isLt, n.isLt, m.isLt, b.isLt, a.isLt, d.isLt, by decide, trivial⟩
  have hp : 0x4A000000 + d.toNat * 1048576 + a.toNat * 32768 + b.toNat * 1024 + m.toNat * 128 + n.toNat * 64 + t.toNat * 4 = pack [(2, 0), (4, t.toNat), (1, n.toNat), (3, m.toNat), (5, b.toNat), (5, a.toNat), (5, d.toNat), (7, 37)] := by
    rw [pack_eq]
    change _ = 0 + 4 * (t.toNat + 16 * (n.toNat + 2 * (m.toNat + 8 * (b.toNat + 32 * (a.toNat + 32 * (d.toNat + 32 * (37)))))))
    omega
  refine roundTrip ?_ hfit 8 rfl rfl ?_ enc
  · exact congrArg some hp
  · rw [row25 _ (pack_slice hfit 7 rfl rfl)]
    have e0 : _ % 4 = 0 := pack_low hfit rfl
    simp only [decodeOp25, e0, pack_field hfit 6 (lo := 20) rfl rfl, pack_field hfit 5 (lo := 15) rfl rfl, pack_field hfit 4 (lo := 10) rfl rfl, pack_field hfit 3 (lo := 7) rfl rfl, pack_field hfit 2 (lo := 6) rfl rfl, pack_field hfit 1 (lo := 2) rfl rfl, Nat.reduceEqDiff, reduceIte]

theorem vmax (d : BitVec 5) (a : BitVec 5) (b : BitVec 5) (m : BitVec 3) (n : BitVec 1) (t : BitVec 4) : Statement (.vmax d a b m n t) := by
  intro hw word enc
  have hfit : Fits [(2, 1), (4, t.toNat), (1, n.toNat), (3, m.toNat), (5, b.toNat), (5, a.toNat), (5, d.toNat), (7, 37)] := ⟨by decide, t.isLt, n.isLt, m.isLt, b.isLt, a.isLt, d.isLt, by decide, trivial⟩
  have hp : 0x4A000001 + d.toNat * 1048576 + a.toNat * 32768 + b.toNat * 1024 + m.toNat * 128 + n.toNat * 64 + t.toNat * 4 = pack [(2, 1), (4, t.toNat), (1, n.toNat), (3, m.toNat), (5, b.toNat), (5, a.toNat), (5, d.toNat), (7, 37)] := by
    rw [pack_eq]
    change _ = 1 + 4 * (t.toNat + 16 * (n.toNat + 2 * (m.toNat + 8 * (b.toNat + 32 * (a.toNat + 32 * (d.toNat + 32 * (37)))))))
    omega
  refine roundTrip ?_ hfit 8 rfl rfl ?_ enc
  · exact congrArg some hp
  · rw [row25 _ (pack_slice hfit 7 rfl rfl)]
    have e0 : _ % 4 = 1 := pack_low hfit rfl
    simp only [decodeOp25, e0, pack_field hfit 6 (lo := 20) rfl rfl, pack_field hfit 5 (lo := 15) rfl rfl, pack_field hfit 4 (lo := 10) rfl rfl, pack_field hfit 3 (lo := 7) rfl rfl, pack_field hfit 2 (lo := 6) rfl rfl, pack_field hfit 1 (lo := 2) rfl rfl, Nat.reduceEqDiff, reduceIte]

theorem vminz (d : BitVec 5) (a : BitVec 5) (b : BitVec 5) (m : BitVec 3) (n : BitVec 1) (t : BitVec 4) : Statement (.vminz d a b m n t) := by
  intro hw word enc
  have hfit : Fits [(2, 2), (4, t.toNat), (1, n.toNat), (3, m.toNat), (5, b.toNat), (5, a.toNat), (5, d.toNat), (7, 37)] := ⟨by decide, t.isLt, n.isLt, m.isLt, b.isLt, a.isLt, d.isLt, by decide, trivial⟩
  have hp : 0x4A000002 + d.toNat * 1048576 + a.toNat * 32768 + b.toNat * 1024 + m.toNat * 128 + n.toNat * 64 + t.toNat * 4 = pack [(2, 2), (4, t.toNat), (1, n.toNat), (3, m.toNat), (5, b.toNat), (5, a.toNat), (5, d.toNat), (7, 37)] := by
    rw [pack_eq]
    change _ = 2 + 4 * (t.toNat + 16 * (n.toNat + 2 * (m.toNat + 8 * (b.toNat + 32 * (a.toNat + 32 * (d.toNat + 32 * (37)))))))
    omega
  refine roundTrip ?_ hfit 8 rfl rfl ?_ enc
  · exact congrArg some hp
  · rw [row25 _ (pack_slice hfit 7 rfl rfl)]
    have e0 : _ % 4 = 2 := pack_low hfit rfl
    simp only [decodeOp25, e0, pack_field hfit 6 (lo := 20) rfl rfl, pack_field hfit 5 (lo := 15) rfl rfl, pack_field hfit 4 (lo := 10) rfl rfl, pack_field hfit 3 (lo := 7) rfl rfl, pack_field hfit 2 (lo := 6) rfl rfl, pack_field hfit 1 (lo := 2) rfl rfl, Nat.reduceEqDiff, reduceIte]

theorem vmaxz (d : BitVec 5) (a : BitVec 5) (b : BitVec 5) (m : BitVec 3) (n : BitVec 1) (t : BitVec 4) : Statement (.vmaxz d a b m n t) := by
  intro hw word enc
  have hfit : Fits [(2, 3), (4, t.toNat), (1, n.toNat), (3, m.toNat), (5, b.toNat), (5, a.toNat), (5, d.toNat), (7, 37)] := ⟨by decide, t.isLt, n.isLt, m.isLt, b.isLt, a.isLt, d.isLt, by decide, trivial⟩
  have hp : 0x4A000003 + d.toNat * 1048576 + a.toNat * 32768 + b.toNat * 1024 + m.toNat * 128 + n.toNat * 64 + t.toNat * 4 = pack [(2, 3), (4, t.toNat), (1, n.toNat), (3, m.toNat), (5, b.toNat), (5, a.toNat), (5, d.toNat), (7, 37)] := by
    rw [pack_eq]
    change _ = 3 + 4 * (t.toNat + 16 * (n.toNat + 2 * (m.toNat + 8 * (b.toNat + 32 * (a.toNat + 32 * (d.toNat + 32 * (37)))))))
    omega
  refine roundTrip ?_ hfit 8 rfl rfl ?_ enc
  · exact congrArg some hp
  · rw [row25 _ (pack_slice hfit 7 rfl rfl)]
    have e0 : _ % 4 = 3 := pack_low hfit rfl
    simp only [decodeOp25, e0, pack_field hfit 6 (lo := 20) rfl rfl, pack_field hfit 5 (lo := 15) rfl rfl, pack_field hfit 4 (lo := 10) rfl rfl, pack_field hfit 3 (lo := 7) rfl rfl, pack_field hfit 2 (lo := 6) rfl rfl, pack_field hfit 1 (lo := 2) rfl rfl, Nat.reduceEqDiff, reduceIte]

theorem vfmin (d : BitVec 5) (a : BitVec 5) (b : BitVec 5) (m : BitVec 3) (n : BitVec 1) (t : BitVec 4) : Statement (.vfmin d a b m n t) := by
  intro hw word enc
  have hfit : Fits [(2, 0), (4, t.toNat), (1, n.toNat), (3, m.toNat), (5, b.toNat), (5, a.toNat), (5, d.toNat), (7, 38)] := ⟨by decide, t.isLt, n.isLt, m.isLt, b.isLt, a.isLt, d.isLt, by decide, trivial⟩
  have hp : 0x4C000000 + d.toNat * 1048576 + a.toNat * 32768 + b.toNat * 1024 + m.toNat * 128 + n.toNat * 64 + t.toNat * 4 = pack [(2, 0), (4, t.toNat), (1, n.toNat), (3, m.toNat), (5, b.toNat), (5, a.toNat), (5, d.toNat), (7, 38)] := by
    rw [pack_eq]
    change _ = 0 + 4 * (t.toNat + 16 * (n.toNat + 2 * (m.toNat + 8 * (b.toNat + 32 * (a.toNat + 32 * (d.toNat + 32 * (38)))))))
    omega
  refine roundTrip ?_ hfit 8 rfl rfl ?_ enc
  · exact congrArg some hp
  · rw [row26 _ (pack_slice hfit 7 rfl rfl)]
    have e0 : _ % 4 = 0 := pack_low hfit rfl
    simp only [decodeOp26, e0, pack_field hfit 6 (lo := 20) rfl rfl, pack_field hfit 5 (lo := 15) rfl rfl, pack_field hfit 4 (lo := 10) rfl rfl, pack_field hfit 3 (lo := 7) rfl rfl, pack_field hfit 2 (lo := 6) rfl rfl, pack_field hfit 1 (lo := 2) rfl rfl, Nat.reduceEqDiff, reduceIte]

theorem vfmax (d : BitVec 5) (a : BitVec 5) (b : BitVec 5) (m : BitVec 3) (n : BitVec 1) (t : BitVec 4) : Statement (.vfmax d a b m n t) := by
  intro hw word enc
  have hfit : Fits [(2, 1), (4, t.toNat), (1, n.toNat), (3, m.toNat), (5, b.toNat), (5, a.toNat), (5, d.toNat), (7, 38)] := ⟨by decide, t.isLt, n.isLt, m.isLt, b.isLt, a.isLt, d.isLt, by decide, trivial⟩
  have hp : 0x4C000001 + d.toNat * 1048576 + a.toNat * 32768 + b.toNat * 1024 + m.toNat * 128 + n.toNat * 64 + t.toNat * 4 = pack [(2, 1), (4, t.toNat), (1, n.toNat), (3, m.toNat), (5, b.toNat), (5, a.toNat), (5, d.toNat), (7, 38)] := by
    rw [pack_eq]
    change _ = 1 + 4 * (t.toNat + 16 * (n.toNat + 2 * (m.toNat + 8 * (b.toNat + 32 * (a.toNat + 32 * (d.toNat + 32 * (38)))))))
    omega
  refine roundTrip ?_ hfit 8 rfl rfl ?_ enc
  · exact congrArg some hp
  · rw [row26 _ (pack_slice hfit 7 rfl rfl)]
    have e0 : _ % 4 = 1 := pack_low hfit rfl
    simp only [decodeOp26, e0, pack_field hfit 6 (lo := 20) rfl rfl, pack_field hfit 5 (lo := 15) rfl rfl, pack_field hfit 4 (lo := 10) rfl rfl, pack_field hfit 3 (lo := 7) rfl rfl, pack_field hfit 2 (lo := 6) rfl rfl, pack_field hfit 1 (lo := 2) rfl rfl, Nat.reduceEqDiff, reduceIte]

theorem vand (d : BitVec 5) (a : BitVec 5) (b : BitVec 5) (m : BitVec 3) (n : BitVec 1) (t : BitVec 4) : Statement (.vand d a b m n t) := by
  intro hw word enc
  have hfit : Fits [(2, 0), (4, t.toNat), (1, n.toNat), (3, m.toNat), (5, b.toNat), (5, a.toNat), (5, d.toNat), (7, 39)] := ⟨by decide, t.isLt, n.isLt, m.isLt, b.isLt, a.isLt, d.isLt, by decide, trivial⟩
  have hp : 0x4E000000 + d.toNat * 1048576 + a.toNat * 32768 + b.toNat * 1024 + m.toNat * 128 + n.toNat * 64 + t.toNat * 4 = pack [(2, 0), (4, t.toNat), (1, n.toNat), (3, m.toNat), (5, b.toNat), (5, a.toNat), (5, d.toNat), (7, 39)] := by
    rw [pack_eq]
    change _ = 0 + 4 * (t.toNat + 16 * (n.toNat + 2 * (m.toNat + 8 * (b.toNat + 32 * (a.toNat + 32 * (d.toNat + 32 * (39)))))))
    omega
  refine roundTrip ?_ hfit 8 rfl rfl ?_ enc
  · exact congrArg some hp
  · rw [row27 _ (pack_slice hfit 7 rfl rfl)]
    have e0 : _ % 4 = 0 := pack_low hfit rfl
    simp only [decodeOp27, e0, pack_field hfit 6 (lo := 20) rfl rfl, pack_field hfit 5 (lo := 15) rfl rfl, pack_field hfit 4 (lo := 10) rfl rfl, pack_field hfit 3 (lo := 7) rfl rfl, pack_field hfit 2 (lo := 6) rfl rfl, pack_field hfit 1 (lo := 2) rfl rfl, Nat.reduceEqDiff, reduceIte]

theorem vor (d : BitVec 5) (a : BitVec 5) (b : BitVec 5) (m : BitVec 3) (n : BitVec 1) (t : BitVec 4) : Statement (.vor d a b m n t) := by
  intro hw word enc
  have hfit : Fits [(2, 1), (4, t.toNat), (1, n.toNat), (3, m.toNat), (5, b.toNat), (5, a.toNat), (5, d.toNat), (7, 39)] := ⟨by decide, t.isLt, n.isLt, m.isLt, b.isLt, a.isLt, d.isLt, by decide, trivial⟩
  have hp : 0x4E000001 + d.toNat * 1048576 + a.toNat * 32768 + b.toNat * 1024 + m.toNat * 128 + n.toNat * 64 + t.toNat * 4 = pack [(2, 1), (4, t.toNat), (1, n.toNat), (3, m.toNat), (5, b.toNat), (5, a.toNat), (5, d.toNat), (7, 39)] := by
    rw [pack_eq]
    change _ = 1 + 4 * (t.toNat + 16 * (n.toNat + 2 * (m.toNat + 8 * (b.toNat + 32 * (a.toNat + 32 * (d.toNat + 32 * (39)))))))
    omega
  refine roundTrip ?_ hfit 8 rfl rfl ?_ enc
  · exact congrArg some hp
  · rw [row27 _ (pack_slice hfit 7 rfl rfl)]
    have e0 : _ % 4 = 1 := pack_low hfit rfl
    simp only [decodeOp27, e0, pack_field hfit 6 (lo := 20) rfl rfl, pack_field hfit 5 (lo := 15) rfl rfl, pack_field hfit 4 (lo := 10) rfl rfl, pack_field hfit 3 (lo := 7) rfl rfl, pack_field hfit 2 (lo := 6) rfl rfl, pack_field hfit 1 (lo := 2) rfl rfl, Nat.reduceEqDiff, reduceIte]

theorem vxor (d : BitVec 5) (a : BitVec 5) (b : BitVec 5) (m : BitVec 3) (n : BitVec 1) (t : BitVec 4) : Statement (.vxor d a b m n t) := by
  intro hw word enc
  have hfit : Fits [(2, 2), (4, t.toNat), (1, n.toNat), (3, m.toNat), (5, b.toNat), (5, a.toNat), (5, d.toNat), (7, 39)] := ⟨by decide, t.isLt, n.isLt, m.isLt, b.isLt, a.isLt, d.isLt, by decide, trivial⟩
  have hp : 0x4E000002 + d.toNat * 1048576 + a.toNat * 32768 + b.toNat * 1024 + m.toNat * 128 + n.toNat * 64 + t.toNat * 4 = pack [(2, 2), (4, t.toNat), (1, n.toNat), (3, m.toNat), (5, b.toNat), (5, a.toNat), (5, d.toNat), (7, 39)] := by
    rw [pack_eq]
    change _ = 2 + 4 * (t.toNat + 16 * (n.toNat + 2 * (m.toNat + 8 * (b.toNat + 32 * (a.toNat + 32 * (d.toNat + 32 * (39)))))))
    omega
  refine roundTrip ?_ hfit 8 rfl rfl ?_ enc
  · exact congrArg some hp
  · rw [row27 _ (pack_slice hfit 7 rfl rfl)]
    have e0 : _ % 4 = 2 := pack_low hfit rfl
    simp only [decodeOp27, e0, pack_field hfit 6 (lo := 20) rfl rfl, pack_field hfit 5 (lo := 15) rfl rfl, pack_field hfit 4 (lo := 10) rfl rfl, pack_field hfit 3 (lo := 7) rfl rfl, pack_field hfit 2 (lo := 6) rfl rfl, pack_field hfit 1 (lo := 2) rfl rfl, Nat.reduceEqDiff, reduceIte]

theorem vandn (d : BitVec 5) (a : BitVec 5) (b : BitVec 5) (m : BitVec 3) (n : BitVec 1) (t : BitVec 4) : Statement (.vandn d a b m n t) := by
  intro hw word enc
  have hfit : Fits [(2, 3), (4, t.toNat), (1, n.toNat), (3, m.toNat), (5, b.toNat), (5, a.toNat), (5, d.toNat), (7, 39)] := ⟨by decide, t.isLt, n.isLt, m.isLt, b.isLt, a.isLt, d.isLt, by decide, trivial⟩
  have hp : 0x4E000003 + d.toNat * 1048576 + a.toNat * 32768 + b.toNat * 1024 + m.toNat * 128 + n.toNat * 64 + t.toNat * 4 = pack [(2, 3), (4, t.toNat), (1, n.toNat), (3, m.toNat), (5, b.toNat), (5, a.toNat), (5, d.toNat), (7, 39)] := by
    rw [pack_eq]
    change _ = 3 + 4 * (t.toNat + 16 * (n.toNat + 2 * (m.toNat + 8 * (b.toNat + 32 * (a.toNat + 32 * (d.toNat + 32 * (39)))))))
    omega
  refine roundTrip ?_ hfit 8 rfl rfl ?_ enc
  · exact congrArg some hp
  · rw [row27 _ (pack_slice hfit 7 rfl rfl)]
    have e0 : _ % 4 = 3 := pack_low hfit rfl
    simp only [decodeOp27, e0, pack_field hfit 6 (lo := 20) rfl rfl, pack_field hfit 5 (lo := 15) rfl rfl, pack_field hfit 4 (lo := 10) rfl rfl, pack_field hfit 3 (lo := 7) rfl rfl, pack_field hfit 2 (lo := 6) rfl rfl, pack_field hfit 1 (lo := 2) rfl rfl, Nat.reduceEqDiff, reduceIte]

theorem vshl (d : BitVec 5) (a : BitVec 5) (b : BitVec 5) (m : BitVec 3) (n : BitVec 1) (t : BitVec 4) : Statement (.vshl d a b m n t) := by
  intro hw word enc
  have hfit : Fits [(2, 0), (4, t.toNat), (1, n.toNat), (3, m.toNat), (5, b.toNat), (5, a.toNat), (5, d.toNat), (7, 40)] := ⟨by decide, t.isLt, n.isLt, m.isLt, b.isLt, a.isLt, d.isLt, by decide, trivial⟩
  have hp : 0x50000000 + d.toNat * 1048576 + a.toNat * 32768 + b.toNat * 1024 + m.toNat * 128 + n.toNat * 64 + t.toNat * 4 = pack [(2, 0), (4, t.toNat), (1, n.toNat), (3, m.toNat), (5, b.toNat), (5, a.toNat), (5, d.toNat), (7, 40)] := by
    rw [pack_eq]
    change _ = 0 + 4 * (t.toNat + 16 * (n.toNat + 2 * (m.toNat + 8 * (b.toNat + 32 * (a.toNat + 32 * (d.toNat + 32 * (40)))))))
    omega
  refine roundTrip ?_ hfit 8 rfl rfl ?_ enc
  · exact congrArg some hp
  · rw [row28 _ (pack_slice hfit 7 rfl rfl)]
    have e0 : _ % 4 = 0 := pack_low hfit rfl
    simp only [decodeOp28, e0, pack_field hfit 6 (lo := 20) rfl rfl, pack_field hfit 5 (lo := 15) rfl rfl, pack_field hfit 4 (lo := 10) rfl rfl, pack_field hfit 3 (lo := 7) rfl rfl, pack_field hfit 2 (lo := 6) rfl rfl, pack_field hfit 1 (lo := 2) rfl rfl, Nat.reduceEqDiff, reduceIte]

theorem vshr (d : BitVec 5) (a : BitVec 5) (b : BitVec 5) (m : BitVec 3) (n : BitVec 1) (t : BitVec 4) : Statement (.vshr d a b m n t) := by
  intro hw word enc
  have hfit : Fits [(2, 1), (4, t.toNat), (1, n.toNat), (3, m.toNat), (5, b.toNat), (5, a.toNat), (5, d.toNat), (7, 40)] := ⟨by decide, t.isLt, n.isLt, m.isLt, b.isLt, a.isLt, d.isLt, by decide, trivial⟩
  have hp : 0x50000001 + d.toNat * 1048576 + a.toNat * 32768 + b.toNat * 1024 + m.toNat * 128 + n.toNat * 64 + t.toNat * 4 = pack [(2, 1), (4, t.toNat), (1, n.toNat), (3, m.toNat), (5, b.toNat), (5, a.toNat), (5, d.toNat), (7, 40)] := by
    rw [pack_eq]
    change _ = 1 + 4 * (t.toNat + 16 * (n.toNat + 2 * (m.toNat + 8 * (b.toNat + 32 * (a.toNat + 32 * (d.toNat + 32 * (40)))))))
    omega
  refine roundTrip ?_ hfit 8 rfl rfl ?_ enc
  · exact congrArg some hp
  · rw [row28 _ (pack_slice hfit 7 rfl rfl)]
    have e0 : _ % 4 = 1 := pack_low hfit rfl
    simp only [decodeOp28, e0, pack_field hfit 6 (lo := 20) rfl rfl, pack_field hfit 5 (lo := 15) rfl rfl, pack_field hfit 4 (lo := 10) rfl rfl, pack_field hfit 3 (lo := 7) rfl rfl, pack_field hfit 2 (lo := 6) rfl rfl, pack_field hfit 1 (lo := 2) rfl rfl, Nat.reduceEqDiff, reduceIte]

theorem vsar (d : BitVec 5) (a : BitVec 5) (b : BitVec 5) (m : BitVec 3) (n : BitVec 1) (t : BitVec 4) : Statement (.vsar d a b m n t) := by
  intro hw word enc
  have hfit : Fits [(2, 2), (4, t.toNat), (1, n.toNat), (3, m.toNat), (5, b.toNat), (5, a.toNat), (5, d.toNat), (7, 40)] := ⟨by decide, t.isLt, n.isLt, m.isLt, b.isLt, a.isLt, d.isLt, by decide, trivial⟩
  have hp : 0x50000002 + d.toNat * 1048576 + a.toNat * 32768 + b.toNat * 1024 + m.toNat * 128 + n.toNat * 64 + t.toNat * 4 = pack [(2, 2), (4, t.toNat), (1, n.toNat), (3, m.toNat), (5, b.toNat), (5, a.toNat), (5, d.toNat), (7, 40)] := by
    rw [pack_eq]
    change _ = 2 + 4 * (t.toNat + 16 * (n.toNat + 2 * (m.toNat + 8 * (b.toNat + 32 * (a.toNat + 32 * (d.toNat + 32 * (40)))))))
    omega
  refine roundTrip ?_ hfit 8 rfl rfl ?_ enc
  · exact congrArg some hp
  · rw [row28 _ (pack_slice hfit 7 rfl rfl)]
    have e0 : _ % 4 = 2 := pack_low hfit rfl
    simp only [decodeOp28, e0, pack_field hfit 6 (lo := 20) rfl rfl, pack_field hfit 5 (lo := 15) rfl rfl, pack_field hfit 4 (lo := 10) rfl rfl, pack_field hfit 3 (lo := 7) rfl rfl, pack_field hfit 2 (lo := 6) rfl rfl, pack_field hfit 1 (lo := 2) rfl rfl, Nat.reduceEqDiff, reduceIte]

theorem vcmpEq (d : BitVec 3) (a : BitVec 5) (b : BitVec 5) (m : BitVec 3) (n : BitVec 1) (t : BitVec 4) : Statement (.vcmpEq d a b m n t) := by
  intro hw word enc
  have hfit : Fits [(2, 0), (4, t.toNat), (1, n.toNat), (3, m.toNat), (5, b.toNat), (5, a.toNat), (3, d.toNat), (2, 0), (7, 41)] := ⟨by decide, t.isLt, n.isLt, m.isLt, b.isLt, a.isLt, d.isLt, by decide, by decide, trivial⟩
  have hp : 0x52000000 + d.toNat * 1048576 + a.toNat * 32768 + b.toNat * 1024 + m.toNat * 128 + n.toNat * 64 + t.toNat * 4 = pack [(2, 0), (4, t.toNat), (1, n.toNat), (3, m.toNat), (5, b.toNat), (5, a.toNat), (3, d.toNat), (2, 0), (7, 41)] := by
    rw [pack_eq]
    change _ = 0 + 4 * (t.toNat + 16 * (n.toNat + 2 * (m.toNat + 8 * (b.toNat + 32 * (a.toNat + 32 * (d.toNat + 8 * (0 + 4 * (41))))))))
    omega
  refine roundTrip ?_ hfit 9 rfl rfl ?_ enc
  · exact congrArg some hp
  · rw [row29 _ (pack_slice hfit 8 rfl rfl)]
    have e0 : _ % 4 = 0 := pack_low hfit rfl
    have e1 : _ / 8388608 % 4 = 0 := pack_slice hfit 7 rfl rfl
    simp only [decodeOp29, e0, e1, pack_field hfit 6 (lo := 20) rfl rfl, pack_field hfit 5 (lo := 15) rfl rfl, pack_field hfit 4 (lo := 10) rfl rfl, pack_field hfit 3 (lo := 7) rfl rfl, pack_field hfit 2 (lo := 6) rfl rfl, pack_field hfit 1 (lo := 2) rfl rfl, Nat.reduceEqDiff, reduceIte, and_self, and_false, false_and, and_true, true_and, not_false_eq_true]

theorem vcmpNe (d : BitVec 3) (a : BitVec 5) (b : BitVec 5) (m : BitVec 3) (n : BitVec 1) (t : BitVec 4) : Statement (.vcmpNe d a b m n t) := by
  intro hw word enc
  have hfit : Fits [(2, 1), (4, t.toNat), (1, n.toNat), (3, m.toNat), (5, b.toNat), (5, a.toNat), (3, d.toNat), (2, 0), (7, 41)] := ⟨by decide, t.isLt, n.isLt, m.isLt, b.isLt, a.isLt, d.isLt, by decide, by decide, trivial⟩
  have hp : 0x52000001 + d.toNat * 1048576 + a.toNat * 32768 + b.toNat * 1024 + m.toNat * 128 + n.toNat * 64 + t.toNat * 4 = pack [(2, 1), (4, t.toNat), (1, n.toNat), (3, m.toNat), (5, b.toNat), (5, a.toNat), (3, d.toNat), (2, 0), (7, 41)] := by
    rw [pack_eq]
    change _ = 1 + 4 * (t.toNat + 16 * (n.toNat + 2 * (m.toNat + 8 * (b.toNat + 32 * (a.toNat + 32 * (d.toNat + 8 * (0 + 4 * (41))))))))
    omega
  refine roundTrip ?_ hfit 9 rfl rfl ?_ enc
  · exact congrArg some hp
  · rw [row29 _ (pack_slice hfit 8 rfl rfl)]
    have e0 : _ % 4 = 1 := pack_low hfit rfl
    have e1 : _ / 8388608 % 4 = 0 := pack_slice hfit 7 rfl rfl
    simp only [decodeOp29, e0, e1, pack_field hfit 6 (lo := 20) rfl rfl, pack_field hfit 5 (lo := 15) rfl rfl, pack_field hfit 4 (lo := 10) rfl rfl, pack_field hfit 3 (lo := 7) rfl rfl, pack_field hfit 2 (lo := 6) rfl rfl, pack_field hfit 1 (lo := 2) rfl rfl, Nat.reduceEqDiff, reduceIte, and_self, and_false, false_and, and_true, true_and, not_false_eq_true]

theorem vcmpLt (d : BitVec 3) (a : BitVec 5) (b : BitVec 5) (m : BitVec 3) (n : BitVec 1) (t : BitVec 4) : Statement (.vcmpLt d a b m n t) := by
  intro hw word enc
  have hfit : Fits [(2, 2), (4, t.toNat), (1, n.toNat), (3, m.toNat), (5, b.toNat), (5, a.toNat), (3, d.toNat), (2, 0), (7, 41)] := ⟨by decide, t.isLt, n.isLt, m.isLt, b.isLt, a.isLt, d.isLt, by decide, by decide, trivial⟩
  have hp : 0x52000002 + d.toNat * 1048576 + a.toNat * 32768 + b.toNat * 1024 + m.toNat * 128 + n.toNat * 64 + t.toNat * 4 = pack [(2, 2), (4, t.toNat), (1, n.toNat), (3, m.toNat), (5, b.toNat), (5, a.toNat), (3, d.toNat), (2, 0), (7, 41)] := by
    rw [pack_eq]
    change _ = 2 + 4 * (t.toNat + 16 * (n.toNat + 2 * (m.toNat + 8 * (b.toNat + 32 * (a.toNat + 32 * (d.toNat + 8 * (0 + 4 * (41))))))))
    omega
  refine roundTrip ?_ hfit 9 rfl rfl ?_ enc
  · exact congrArg some hp
  · rw [row29 _ (pack_slice hfit 8 rfl rfl)]
    have e0 : _ % 4 = 2 := pack_low hfit rfl
    have e1 : _ / 8388608 % 4 = 0 := pack_slice hfit 7 rfl rfl
    simp only [decodeOp29, e0, e1, pack_field hfit 6 (lo := 20) rfl rfl, pack_field hfit 5 (lo := 15) rfl rfl, pack_field hfit 4 (lo := 10) rfl rfl, pack_field hfit 3 (lo := 7) rfl rfl, pack_field hfit 2 (lo := 6) rfl rfl, pack_field hfit 1 (lo := 2) rfl rfl, Nat.reduceEqDiff, reduceIte, and_self, and_false, false_and, and_true, true_and, not_false_eq_true]

theorem vcmpLe (d : BitVec 3) (a : BitVec 5) (b : BitVec 5) (m : BitVec 3) (n : BitVec 1) (t : BitVec 4) : Statement (.vcmpLe d a b m n t) := by
  intro hw word enc
  have hfit : Fits [(2, 3), (4, t.toNat), (1, n.toNat), (3, m.toNat), (5, b.toNat), (5, a.toNat), (3, d.toNat), (2, 0), (7, 41)] := ⟨by decide, t.isLt, n.isLt, m.isLt, b.isLt, a.isLt, d.isLt, by decide, by decide, trivial⟩
  have hp : 0x52000003 + d.toNat * 1048576 + a.toNat * 32768 + b.toNat * 1024 + m.toNat * 128 + n.toNat * 64 + t.toNat * 4 = pack [(2, 3), (4, t.toNat), (1, n.toNat), (3, m.toNat), (5, b.toNat), (5, a.toNat), (3, d.toNat), (2, 0), (7, 41)] := by
    rw [pack_eq]
    change _ = 3 + 4 * (t.toNat + 16 * (n.toNat + 2 * (m.toNat + 8 * (b.toNat + 32 * (a.toNat + 32 * (d.toNat + 8 * (0 + 4 * (41))))))))
    omega
  refine roundTrip ?_ hfit 9 rfl rfl ?_ enc
  · exact congrArg some hp
  · rw [row29 _ (pack_slice hfit 8 rfl rfl)]
    have e0 : _ % 4 = 3 := pack_low hfit rfl
    have e1 : _ / 8388608 % 4 = 0 := pack_slice hfit 7 rfl rfl
    simp only [decodeOp29, e0, e1, pack_field hfit 6 (lo := 20) rfl rfl, pack_field hfit 5 (lo := 15) rfl rfl, pack_field hfit 4 (lo := 10) rfl rfl, pack_field hfit 3 (lo := 7) rfl rfl, pack_field hfit 2 (lo := 6) rfl rfl, pack_field hfit 1 (lo := 2) rfl rfl, Nat.reduceEqDiff, reduceIte, and_self, and_false, false_and, and_true, true_and, not_false_eq_true]

theorem vfcmpEq (d : BitVec 3) (a : BitVec 5) (b : BitVec 5) (m : BitVec 3) (n : BitVec 1) (t : BitVec 4) : Statement (.vfcmpEq d a b m n t) := by
  intro hw word enc
  have hfit : Fits [(2, 0), (4, t.toNat), (1, n.toNat), (3, m.toNat), (5, b.toNat), (5, a.toNat), (3, d.toNat), (2, 0), (7, 42)] := ⟨by decide, t.isLt, n.isLt, m.isLt, b.isLt, a.isLt, d.isLt, by decide, by decide, trivial⟩
  have hp : 0x54000000 + d.toNat * 1048576 + a.toNat * 32768 + b.toNat * 1024 + m.toNat * 128 + n.toNat * 64 + t.toNat * 4 = pack [(2, 0), (4, t.toNat), (1, n.toNat), (3, m.toNat), (5, b.toNat), (5, a.toNat), (3, d.toNat), (2, 0), (7, 42)] := by
    rw [pack_eq]
    change _ = 0 + 4 * (t.toNat + 16 * (n.toNat + 2 * (m.toNat + 8 * (b.toNat + 32 * (a.toNat + 32 * (d.toNat + 8 * (0 + 4 * (42))))))))
    omega
  refine roundTrip ?_ hfit 9 rfl rfl ?_ enc
  · exact congrArg some hp
  · rw [row2A _ (pack_slice hfit 8 rfl rfl)]
    have e0 : _ % 4 = 0 := pack_low hfit rfl
    have e1 : _ / 8388608 % 4 = 0 := pack_slice hfit 7 rfl rfl
    simp only [decodeOp2A, e0, e1, pack_field hfit 6 (lo := 20) rfl rfl, pack_field hfit 5 (lo := 15) rfl rfl, pack_field hfit 4 (lo := 10) rfl rfl, pack_field hfit 3 (lo := 7) rfl rfl, pack_field hfit 2 (lo := 6) rfl rfl, pack_field hfit 1 (lo := 2) rfl rfl, Nat.reduceEqDiff, reduceIte, and_self, and_false, false_and, and_true, true_and, not_false_eq_true]

theorem vfcmpLt (d : BitVec 3) (a : BitVec 5) (b : BitVec 5) (m : BitVec 3) (n : BitVec 1) (t : BitVec 4) : Statement (.vfcmpLt d a b m n t) := by
  intro hw word enc
  have hfit : Fits [(2, 1), (4, t.toNat), (1, n.toNat), (3, m.toNat), (5, b.toNat), (5, a.toNat), (3, d.toNat), (2, 0), (7, 42)] := ⟨by decide, t.isLt, n.isLt, m.isLt, b.isLt, a.isLt, d.isLt, by decide, by decide, trivial⟩
  have hp : 0x54000001 + d.toNat * 1048576 + a.toNat * 32768 + b.toNat * 1024 + m.toNat * 128 + n.toNat * 64 + t.toNat * 4 = pack [(2, 1), (4, t.toNat), (1, n.toNat), (3, m.toNat), (5, b.toNat), (5, a.toNat), (3, d.toNat), (2, 0), (7, 42)] := by
    rw [pack_eq]
    change _ = 1 + 4 * (t.toNat + 16 * (n.toNat + 2 * (m.toNat + 8 * (b.toNat + 32 * (a.toNat + 32 * (d.toNat + 8 * (0 + 4 * (42))))))))
    omega
  refine roundTrip ?_ hfit 9 rfl rfl ?_ enc
  · exact congrArg some hp
  · rw [row2A _ (pack_slice hfit 8 rfl rfl)]
    have e0 : _ % 4 = 1 := pack_low hfit rfl
    have e1 : _ / 8388608 % 4 = 0 := pack_slice hfit 7 rfl rfl
    simp only [decodeOp2A, e0, e1, pack_field hfit 6 (lo := 20) rfl rfl, pack_field hfit 5 (lo := 15) rfl rfl, pack_field hfit 4 (lo := 10) rfl rfl, pack_field hfit 3 (lo := 7) rfl rfl, pack_field hfit 2 (lo := 6) rfl rfl, pack_field hfit 1 (lo := 2) rfl rfl, Nat.reduceEqDiff, reduceIte, and_self, and_false, false_and, and_true, true_and, not_false_eq_true]

theorem vfcmpLe (d : BitVec 3) (a : BitVec 5) (b : BitVec 5) (m : BitVec 3) (n : BitVec 1) (t : BitVec 4) : Statement (.vfcmpLe d a b m n t) := by
  intro hw word enc
  have hfit : Fits [(2, 2), (4, t.toNat), (1, n.toNat), (3, m.toNat), (5, b.toNat), (5, a.toNat), (3, d.toNat), (2, 0), (7, 42)] := ⟨by decide, t.isLt, n.isLt, m.isLt, b.isLt, a.isLt, d.isLt, by decide, by decide, trivial⟩
  have hp : 0x54000002 + d.toNat * 1048576 + a.toNat * 32768 + b.toNat * 1024 + m.toNat * 128 + n.toNat * 64 + t.toNat * 4 = pack [(2, 2), (4, t.toNat), (1, n.toNat), (3, m.toNat), (5, b.toNat), (5, a.toNat), (3, d.toNat), (2, 0), (7, 42)] := by
    rw [pack_eq]
    change _ = 2 + 4 * (t.toNat + 16 * (n.toNat + 2 * (m.toNat + 8 * (b.toNat + 32 * (a.toNat + 32 * (d.toNat + 8 * (0 + 4 * (42))))))))
    omega
  refine roundTrip ?_ hfit 9 rfl rfl ?_ enc
  · exact congrArg some hp
  · rw [row2A _ (pack_slice hfit 8 rfl rfl)]
    have e0 : _ % 4 = 2 := pack_low hfit rfl
    have e1 : _ / 8388608 % 4 = 0 := pack_slice hfit 7 rfl rfl
    simp only [decodeOp2A, e0, e1, pack_field hfit 6 (lo := 20) rfl rfl, pack_field hfit 5 (lo := 15) rfl rfl, pack_field hfit 4 (lo := 10) rfl rfl, pack_field hfit 3 (lo := 7) rfl rfl, pack_field hfit 2 (lo := 6) rfl rfl, pack_field hfit 1 (lo := 2) rfl rfl, Nat.reduceEqDiff, reduceIte, and_self, and_false, false_and, and_true, true_and, not_false_eq_true]

theorem vfcmpUn (d : BitVec 3) (a : BitVec 5) (b : BitVec 5) (m : BitVec 3) (n : BitVec 1) (t : BitVec 4) : Statement (.vfcmpUn d a b m n t) := by
  intro hw word enc
  have hfit : Fits [(2, 3), (4, t.toNat), (1, n.toNat), (3, m.toNat), (5, b.toNat), (5, a.toNat), (3, d.toNat), (2, 0), (7, 42)] := ⟨by decide, t.isLt, n.isLt, m.isLt, b.isLt, a.isLt, d.isLt, by decide, by decide, trivial⟩
  have hp : 0x54000003 + d.toNat * 1048576 + a.toNat * 32768 + b.toNat * 1024 + m.toNat * 128 + n.toNat * 64 + t.toNat * 4 = pack [(2, 3), (4, t.toNat), (1, n.toNat), (3, m.toNat), (5, b.toNat), (5, a.toNat), (3, d.toNat), (2, 0), (7, 42)] := by
    rw [pack_eq]
    change _ = 3 + 4 * (t.toNat + 16 * (n.toNat + 2 * (m.toNat + 8 * (b.toNat + 32 * (a.toNat + 32 * (d.toNat + 8 * (0 + 4 * (42))))))))
    omega
  refine roundTrip ?_ hfit 9 rfl rfl ?_ enc
  · exact congrArg some hp
  · rw [row2A _ (pack_slice hfit 8 rfl rfl)]
    have e0 : _ % 4 = 3 := pack_low hfit rfl
    have e1 : _ / 8388608 % 4 = 0 := pack_slice hfit 7 rfl rfl
    simp only [decodeOp2A, e0, e1, pack_field hfit 6 (lo := 20) rfl rfl, pack_field hfit 5 (lo := 15) rfl rfl, pack_field hfit 4 (lo := 10) rfl rfl, pack_field hfit 3 (lo := 7) rfl rfl, pack_field hfit 2 (lo := 6) rfl rfl, pack_field hfit 1 (lo := 2) rfl rfl, Nat.reduceEqDiff, reduceIte, and_self, and_false, false_and, and_true, true_and, not_false_eq_true]

theorem vsel (d : BitVec 5) (a : BitVec 5) (b : BitVec 5) (m : BitVec 3) (n : BitVec 1) (t : BitVec 4) : Statement (.vsel d a b m n t) := by
  intro hw word enc
  have hfit : Fits [(2, 0), (4, t.toNat), (1, n.toNat), (3, m.toNat), (5, b.toNat), (5, a.toNat), (5, d.toNat), (7, 43)] := ⟨by decide, t.isLt, n.isLt, m.isLt, b.isLt, a.isLt, d.isLt, by decide, trivial⟩
  have hp : 0x56000000 + d.toNat * 1048576 + a.toNat * 32768 + b.toNat * 1024 + m.toNat * 128 + n.toNat * 64 + t.toNat * 4 = pack [(2, 0), (4, t.toNat), (1, n.toNat), (3, m.toNat), (5, b.toNat), (5, a.toNat), (5, d.toNat), (7, 43)] := by
    rw [pack_eq]
    change _ = 0 + 4 * (t.toNat + 16 * (n.toNat + 2 * (m.toNat + 8 * (b.toNat + 32 * (a.toNat + 32 * (d.toNat + 32 * (43)))))))
    omega
  refine roundTrip ?_ hfit 8 rfl rfl ?_ enc
  · exact congrArg some hp
  · rw [row2B _ (pack_slice hfit 7 rfl rfl)]
    have e0 : _ % 4 = 0 := pack_low hfit rfl
    simp only [decodeOp2B, e0, pack_field hfit 6 (lo := 20) rfl rfl, pack_field hfit 5 (lo := 15) rfl rfl, pack_field hfit 4 (lo := 10) rfl rfl, pack_field hfit 3 (lo := 7) rfl rfl, pack_field hfit 2 (lo := 6) rfl rfl, pack_field hfit 1 (lo := 2) rfl rfl, Nat.reduceEqDiff, reduceIte]

theorem vcvt (d : BitVec 5) (a : BitVec 5) (s : BitVec 4) (m : BitVec 3) (n : BitVec 1) (t : BitVec 4) : Statement (.vcvt d a s m n t) := by
  intro hw word enc
  have hfit : Fits [(2, 0), (4, t.toNat), (1, n.toNat), (3, m.toNat), (4, s.toNat), (1, 0), (5, a.toNat), (5, d.toNat), (7, 44)] := ⟨by decide, t.isLt, n.isLt, m.isLt, s.isLt, by decide, a.isLt, d.isLt, by decide, trivial⟩
  have hp : 0x58000000 + d.toNat * 1048576 + a.toNat * 32768 + s.toNat * 1024 + m.toNat * 128 + n.toNat * 64 + t.toNat * 4 = pack [(2, 0), (4, t.toNat), (1, n.toNat), (3, m.toNat), (4, s.toNat), (1, 0), (5, a.toNat), (5, d.toNat), (7, 44)] := by
    rw [pack_eq]
    change _ = 0 + 4 * (t.toNat + 16 * (n.toNat + 2 * (m.toNat + 8 * (s.toNat + 16 * (0 + 2 * (a.toNat + 32 * (d.toNat + 32 * (44))))))))
    omega
  refine roundTrip ?_ hfit 9 rfl rfl ?_ enc
  · exact congrArg some hp
  · rw [row2C _ (pack_slice hfit 8 rfl rfl)]
    have e0 : _ % 4 = 0 := pack_low hfit rfl
    have e1 : _ / 16384 % 2 = 0 := pack_slice hfit 5 rfl rfl
    simp only [decodeOp2C, e0, e1, pack_field hfit 7 (lo := 20) rfl rfl, pack_field hfit 6 (lo := 15) rfl rfl, pack_field hfit 4 (lo := 10) rfl rfl, pack_field hfit 3 (lo := 7) rfl rfl, pack_field hfit 2 (lo := 6) rfl rfl, pack_field hfit 1 (lo := 2) rfl rfl, Nat.reduceEqDiff, reduceIte, and_self, and_false, false_and, and_true, true_and, not_false_eq_true]

theorem vcvtSat (d : BitVec 5) (a : BitVec 5) (s : BitVec 4) (m : BitVec 3) (n : BitVec 1) (t : BitVec 4) : Statement (.vcvtSat d a s m n t) := by
  intro hw word enc
  have hfit : Fits [(2, 1), (4, t.toNat), (1, n.toNat), (3, m.toNat), (4, s.toNat), (1, 0), (5, a.toNat), (5, d.toNat), (7, 44)] := ⟨by decide, t.isLt, n.isLt, m.isLt, s.isLt, by decide, a.isLt, d.isLt, by decide, trivial⟩
  have hp : 0x58000001 + d.toNat * 1048576 + a.toNat * 32768 + s.toNat * 1024 + m.toNat * 128 + n.toNat * 64 + t.toNat * 4 = pack [(2, 1), (4, t.toNat), (1, n.toNat), (3, m.toNat), (4, s.toNat), (1, 0), (5, a.toNat), (5, d.toNat), (7, 44)] := by
    rw [pack_eq]
    change _ = 1 + 4 * (t.toNat + 16 * (n.toNat + 2 * (m.toNat + 8 * (s.toNat + 16 * (0 + 2 * (a.toNat + 32 * (d.toNat + 32 * (44))))))))
    omega
  refine roundTrip ?_ hfit 9 rfl rfl ?_ enc
  · exact congrArg some hp
  · rw [row2C _ (pack_slice hfit 8 rfl rfl)]
    have e0 : _ % 4 = 1 := pack_low hfit rfl
    have e1 : _ / 16384 % 2 = 0 := pack_slice hfit 5 rfl rfl
    simp only [decodeOp2C, e0, e1, pack_field hfit 7 (lo := 20) rfl rfl, pack_field hfit 6 (lo := 15) rfl rfl, pack_field hfit 4 (lo := 10) rfl rfl, pack_field hfit 3 (lo := 7) rfl rfl, pack_field hfit 2 (lo := 6) rfl rfl, pack_field hfit 1 (lo := 2) rfl rfl, Nat.reduceEqDiff, reduceIte, and_self, and_false, false_and, and_true, true_and, not_false_eq_true]

theorem vquant (d : BitVec 5) (a : BitVec 5) (b : BitVec 5) (t : BitVec 4) : Statement (.vquant d a b t) := by
  intro hw word enc
  have hfit : Fits [(2, 0), (4, t.toNat), (4, 0), (5, b.toNat), (5, a.toNat), (5, d.toNat), (7, 45)] := ⟨by decide, t.isLt, by decide, b.isLt, a.isLt, d.isLt, by decide, trivial⟩
  have hp : 0x5A000000 + d.toNat * 1048576 + a.toNat * 32768 + b.toNat * 1024 + t.toNat * 4 = pack [(2, 0), (4, t.toNat), (4, 0), (5, b.toNat), (5, a.toNat), (5, d.toNat), (7, 45)] := by
    rw [pack_eq]
    change _ = 0 + 4 * (t.toNat + 16 * (0 + 16 * (b.toNat + 32 * (a.toNat + 32 * (d.toNat + 32 * (45))))))
    omega
  refine roundTrip ?_ hfit 7 rfl rfl ?_ enc
  · exact congrArg some hp
  · rw [row2D _ (pack_slice hfit 6 rfl rfl)]
    have e0 : _ % 4 = 0 := pack_low hfit rfl
    have e1 : _ / 64 % 16 = 0 := pack_slice hfit 2 rfl rfl
    simp only [decodeOp2D, e0, e1, pack_field hfit 5 (lo := 20) rfl rfl, pack_field hfit 4 (lo := 15) rfl rfl, pack_field hfit 3 (lo := 10) rfl rfl, pack_field hfit 1 (lo := 2) rfl rfl, Nat.reduceEqDiff, reduceIte, and_self, and_false, false_and, and_true, true_and, not_false_eq_true]

theorem vredAdd (d : BitVec 5) (a : BitVec 5) (m : BitVec 3) (n : BitVec 1) (t : BitVec 4) : Statement (.vredAdd d a m n t) := by
  intro hw word enc
  have hfit : Fits [(2, 0), (4, t.toNat), (1, n.toNat), (3, m.toNat), (5, 0), (5, a.toNat), (5, d.toNat), (7, 46)] := ⟨by decide, t.isLt, n.isLt, m.isLt, by decide, a.isLt, d.isLt, by decide, trivial⟩
  have hp : 0x5C000000 + d.toNat * 1048576 + a.toNat * 32768 + m.toNat * 128 + n.toNat * 64 + t.toNat * 4 = pack [(2, 0), (4, t.toNat), (1, n.toNat), (3, m.toNat), (5, 0), (5, a.toNat), (5, d.toNat), (7, 46)] := by
    rw [pack_eq]
    change _ = 0 + 4 * (t.toNat + 16 * (n.toNat + 2 * (m.toNat + 8 * (0 + 32 * (a.toNat + 32 * (d.toNat + 32 * (46)))))))
    omega
  refine roundTrip ?_ hfit 8 rfl rfl ?_ enc
  · exact congrArg some hp
  · rw [row2E _ (pack_slice hfit 7 rfl rfl)]
    have e0 : _ % 4 = 0 := pack_low hfit rfl
    have e1 : _ / 1024 % 32 = 0 := pack_slice hfit 4 rfl rfl
    simp only [decodeOp2E, e0, e1, pack_field hfit 6 (lo := 20) rfl rfl, pack_field hfit 5 (lo := 15) rfl rfl, pack_field hfit 3 (lo := 7) rfl rfl, pack_field hfit 2 (lo := 6) rfl rfl, pack_field hfit 1 (lo := 2) rfl rfl, Nat.reduceEqDiff, reduceIte, and_self, and_false, false_and, and_true, true_and, not_false_eq_true]

theorem vredMin (d : BitVec 5) (a : BitVec 5) (m : BitVec 3) (n : BitVec 1) (t : BitVec 4) : Statement (.vredMin d a m n t) := by
  intro hw word enc
  have hfit : Fits [(2, 1), (4, t.toNat), (1, n.toNat), (3, m.toNat), (5, 0), (5, a.toNat), (5, d.toNat), (7, 46)] := ⟨by decide, t.isLt, n.isLt, m.isLt, by decide, a.isLt, d.isLt, by decide, trivial⟩
  have hp : 0x5C000001 + d.toNat * 1048576 + a.toNat * 32768 + m.toNat * 128 + n.toNat * 64 + t.toNat * 4 = pack [(2, 1), (4, t.toNat), (1, n.toNat), (3, m.toNat), (5, 0), (5, a.toNat), (5, d.toNat), (7, 46)] := by
    rw [pack_eq]
    change _ = 1 + 4 * (t.toNat + 16 * (n.toNat + 2 * (m.toNat + 8 * (0 + 32 * (a.toNat + 32 * (d.toNat + 32 * (46)))))))
    omega
  refine roundTrip ?_ hfit 8 rfl rfl ?_ enc
  · exact congrArg some hp
  · rw [row2E _ (pack_slice hfit 7 rfl rfl)]
    have e0 : _ % 4 = 1 := pack_low hfit rfl
    have e1 : _ / 1024 % 32 = 0 := pack_slice hfit 4 rfl rfl
    simp only [decodeOp2E, e0, e1, pack_field hfit 6 (lo := 20) rfl rfl, pack_field hfit 5 (lo := 15) rfl rfl, pack_field hfit 3 (lo := 7) rfl rfl, pack_field hfit 2 (lo := 6) rfl rfl, pack_field hfit 1 (lo := 2) rfl rfl, Nat.reduceEqDiff, reduceIte, and_self, and_false, false_and, and_true, true_and, not_false_eq_true]

theorem vredMax (d : BitVec 5) (a : BitVec 5) (m : BitVec 3) (n : BitVec 1) (t : BitVec 4) : Statement (.vredMax d a m n t) := by
  intro hw word enc
  have hfit : Fits [(2, 2), (4, t.toNat), (1, n.toNat), (3, m.toNat), (5, 0), (5, a.toNat), (5, d.toNat), (7, 46)] := ⟨by decide, t.isLt, n.isLt, m.isLt, by decide, a.isLt, d.isLt, by decide, trivial⟩
  have hp : 0x5C000002 + d.toNat * 1048576 + a.toNat * 32768 + m.toNat * 128 + n.toNat * 64 + t.toNat * 4 = pack [(2, 2), (4, t.toNat), (1, n.toNat), (3, m.toNat), (5, 0), (5, a.toNat), (5, d.toNat), (7, 46)] := by
    rw [pack_eq]
    change _ = 2 + 4 * (t.toNat + 16 * (n.toNat + 2 * (m.toNat + 8 * (0 + 32 * (a.toNat + 32 * (d.toNat + 32 * (46)))))))
    omega
  refine roundTrip ?_ hfit 8 rfl rfl ?_ enc
  · exact congrArg some hp
  · rw [row2E _ (pack_slice hfit 7 rfl rfl)]
    have e0 : _ % 4 = 2 := pack_low hfit rfl
    have e1 : _ / 1024 % 32 = 0 := pack_slice hfit 4 rfl rfl
    simp only [decodeOp2E, e0, e1, pack_field hfit 6 (lo := 20) rfl rfl, pack_field hfit 5 (lo := 15) rfl rfl, pack_field hfit 3 (lo := 7) rfl rfl, pack_field hfit 2 (lo := 6) rfl rfl, pack_field hfit 1 (lo := 2) rfl rfl, Nat.reduceEqDiff, reduceIte, and_self, and_false, false_and, and_true, true_and, not_false_eq_true]

theorem vredOr (d : BitVec 5) (a : BitVec 5) (m : BitVec 3) (n : BitVec 1) (t : BitVec 4) : Statement (.vredOr d a m n t) := by
  intro hw word enc
  have hfit : Fits [(2, 3), (4, t.toNat), (1, n.toNat), (3, m.toNat), (5, 0), (5, a.toNat), (5, d.toNat), (7, 46)] := ⟨by decide, t.isLt, n.isLt, m.isLt, by decide, a.isLt, d.isLt, by decide, trivial⟩
  have hp : 0x5C000003 + d.toNat * 1048576 + a.toNat * 32768 + m.toNat * 128 + n.toNat * 64 + t.toNat * 4 = pack [(2, 3), (4, t.toNat), (1, n.toNat), (3, m.toNat), (5, 0), (5, a.toNat), (5, d.toNat), (7, 46)] := by
    rw [pack_eq]
    change _ = 3 + 4 * (t.toNat + 16 * (n.toNat + 2 * (m.toNat + 8 * (0 + 32 * (a.toNat + 32 * (d.toNat + 32 * (46)))))))
    omega
  refine roundTrip ?_ hfit 8 rfl rfl ?_ enc
  · exact congrArg some hp
  · rw [row2E _ (pack_slice hfit 7 rfl rfl)]
    have e0 : _ % 4 = 3 := pack_low hfit rfl
    have e1 : _ / 1024 % 32 = 0 := pack_slice hfit 4 rfl rfl
    simp only [decodeOp2E, e0, e1, pack_field hfit 6 (lo := 20) rfl rfl, pack_field hfit 5 (lo := 15) rfl rfl, pack_field hfit 3 (lo := 7) rfl rfl, pack_field hfit 2 (lo := 6) rfl rfl, pack_field hfit 1 (lo := 2) rfl rfl, Nat.reduceEqDiff, reduceIte, and_self, and_false, false_and, and_true, true_and, not_false_eq_true]

theorem vscanAdd (d : BitVec 5) (a : BitVec 5) (m : BitVec 3) (n : BitVec 1) (t : BitVec 4) : Statement (.vscanAdd d a m n t) := by
  intro hw word enc
  have hfit : Fits [(2, 0), (4, t.toNat), (1, n.toNat), (3, m.toNat), (5, 0), (5, a.toNat), (5, d.toNat), (7, 47)] := ⟨by decide, t.isLt, n.isLt, m.isLt, by decide, a.isLt, d.isLt, by decide, trivial⟩
  have hp : 0x5E000000 + d.toNat * 1048576 + a.toNat * 32768 + m.toNat * 128 + n.toNat * 64 + t.toNat * 4 = pack [(2, 0), (4, t.toNat), (1, n.toNat), (3, m.toNat), (5, 0), (5, a.toNat), (5, d.toNat), (7, 47)] := by
    rw [pack_eq]
    change _ = 0 + 4 * (t.toNat + 16 * (n.toNat + 2 * (m.toNat + 8 * (0 + 32 * (a.toNat + 32 * (d.toNat + 32 * (47)))))))
    omega
  refine roundTrip ?_ hfit 8 rfl rfl ?_ enc
  · exact congrArg some hp
  · rw [row2F _ (pack_slice hfit 7 rfl rfl)]
    have e0 : _ % 4 = 0 := pack_low hfit rfl
    have e1 : _ / 1024 % 32 = 0 := pack_slice hfit 4 rfl rfl
    simp only [decodeOp2F, e0, e1, pack_field hfit 6 (lo := 20) rfl rfl, pack_field hfit 5 (lo := 15) rfl rfl, pack_field hfit 3 (lo := 7) rfl rfl, pack_field hfit 2 (lo := 6) rfl rfl, pack_field hfit 1 (lo := 2) rfl rfl, Nat.reduceEqDiff, reduceIte, and_self, and_false, false_and, and_true, true_and, not_false_eq_true]

theorem vscanMin (d : BitVec 5) (a : BitVec 5) (m : BitVec 3) (n : BitVec 1) (t : BitVec 4) : Statement (.vscanMin d a m n t) := by
  intro hw word enc
  have hfit : Fits [(2, 1), (4, t.toNat), (1, n.toNat), (3, m.toNat), (5, 0), (5, a.toNat), (5, d.toNat), (7, 47)] := ⟨by decide, t.isLt, n.isLt, m.isLt, by decide, a.isLt, d.isLt, by decide, trivial⟩
  have hp : 0x5E000001 + d.toNat * 1048576 + a.toNat * 32768 + m.toNat * 128 + n.toNat * 64 + t.toNat * 4 = pack [(2, 1), (4, t.toNat), (1, n.toNat), (3, m.toNat), (5, 0), (5, a.toNat), (5, d.toNat), (7, 47)] := by
    rw [pack_eq]
    change _ = 1 + 4 * (t.toNat + 16 * (n.toNat + 2 * (m.toNat + 8 * (0 + 32 * (a.toNat + 32 * (d.toNat + 32 * (47)))))))
    omega
  refine roundTrip ?_ hfit 8 rfl rfl ?_ enc
  · exact congrArg some hp
  · rw [row2F _ (pack_slice hfit 7 rfl rfl)]
    have e0 : _ % 4 = 1 := pack_low hfit rfl
    have e1 : _ / 1024 % 32 = 0 := pack_slice hfit 4 rfl rfl
    simp only [decodeOp2F, e0, e1, pack_field hfit 6 (lo := 20) rfl rfl, pack_field hfit 5 (lo := 15) rfl rfl, pack_field hfit 3 (lo := 7) rfl rfl, pack_field hfit 2 (lo := 6) rfl rfl, pack_field hfit 1 (lo := 2) rfl rfl, Nat.reduceEqDiff, reduceIte, and_self, and_false, false_and, and_true, true_and, not_false_eq_true]

theorem vscanMax (d : BitVec 5) (a : BitVec 5) (m : BitVec 3) (n : BitVec 1) (t : BitVec 4) : Statement (.vscanMax d a m n t) := by
  intro hw word enc
  have hfit : Fits [(2, 2), (4, t.toNat), (1, n.toNat), (3, m.toNat), (5, 0), (5, a.toNat), (5, d.toNat), (7, 47)] := ⟨by decide, t.isLt, n.isLt, m.isLt, by decide, a.isLt, d.isLt, by decide, trivial⟩
  have hp : 0x5E000002 + d.toNat * 1048576 + a.toNat * 32768 + m.toNat * 128 + n.toNat * 64 + t.toNat * 4 = pack [(2, 2), (4, t.toNat), (1, n.toNat), (3, m.toNat), (5, 0), (5, a.toNat), (5, d.toNat), (7, 47)] := by
    rw [pack_eq]
    change _ = 2 + 4 * (t.toNat + 16 * (n.toNat + 2 * (m.toNat + 8 * (0 + 32 * (a.toNat + 32 * (d.toNat + 32 * (47)))))))
    omega
  refine roundTrip ?_ hfit 8 rfl rfl ?_ enc
  · exact congrArg some hp
  · rw [row2F _ (pack_slice hfit 7 rfl rfl)]
    have e0 : _ % 4 = 2 := pack_low hfit rfl
    have e1 : _ / 1024 % 32 = 0 := pack_slice hfit 4 rfl rfl
    simp only [decodeOp2F, e0, e1, pack_field hfit 6 (lo := 20) rfl rfl, pack_field hfit 5 (lo := 15) rfl rfl, pack_field hfit 3 (lo := 7) rfl rfl, pack_field hfit 2 (lo := 6) rfl rfl, pack_field hfit 1 (lo := 2) rfl rfl, Nat.reduceEqDiff, reduceIte, and_self, and_false, false_and, and_true, true_and, not_false_eq_true]

theorem vscanOr (d : BitVec 5) (a : BitVec 5) (m : BitVec 3) (n : BitVec 1) (t : BitVec 4) : Statement (.vscanOr d a m n t) := by
  intro hw word enc
  have hfit : Fits [(2, 3), (4, t.toNat), (1, n.toNat), (3, m.toNat), (5, 0), (5, a.toNat), (5, d.toNat), (7, 47)] := ⟨by decide, t.isLt, n.isLt, m.isLt, by decide, a.isLt, d.isLt, by decide, trivial⟩
  have hp : 0x5E000003 + d.toNat * 1048576 + a.toNat * 32768 + m.toNat * 128 + n.toNat * 64 + t.toNat * 4 = pack [(2, 3), (4, t.toNat), (1, n.toNat), (3, m.toNat), (5, 0), (5, a.toNat), (5, d.toNat), (7, 47)] := by
    rw [pack_eq]
    change _ = 3 + 4 * (t.toNat + 16 * (n.toNat + 2 * (m.toNat + 8 * (0 + 32 * (a.toNat + 32 * (d.toNat + 32 * (47)))))))
    omega
  refine roundTrip ?_ hfit 8 rfl rfl ?_ enc
  · exact congrArg some hp
  · rw [row2F _ (pack_slice hfit 7 rfl rfl)]
    have e0 : _ % 4 = 3 := pack_low hfit rfl
    have e1 : _ / 1024 % 32 = 0 := pack_slice hfit 4 rfl rfl
    simp only [decodeOp2F, e0, e1, pack_field hfit 6 (lo := 20) rfl rfl, pack_field hfit 5 (lo := 15) rfl rfl, pack_field hfit 3 (lo := 7) rfl rfl, pack_field hfit 2 (lo := 6) rfl rfl, pack_field hfit 1 (lo := 2) rfl rfl, Nat.reduceEqDiff, reduceIte, and_self, and_false, false_and, and_true, true_and, not_false_eq_true]

theorem vperm (d : BitVec 5) (a : BitVec 5) (b : BitVec 5) (m : BitVec 3) (n : BitVec 1) (t : BitVec 4) : Statement (.vperm d a b m n t) := by
  intro hw word enc
  have hfit : Fits [(2, 0), (4, t.toNat), (1, n.toNat), (3, m.toNat), (5, b.toNat), (5, a.toNat), (5, d.toNat), (7, 48)] := ⟨by decide, t.isLt, n.isLt, m.isLt, b.isLt, a.isLt, d.isLt, by decide, trivial⟩
  have hp : 0x60000000 + d.toNat * 1048576 + a.toNat * 32768 + b.toNat * 1024 + m.toNat * 128 + n.toNat * 64 + t.toNat * 4 = pack [(2, 0), (4, t.toNat), (1, n.toNat), (3, m.toNat), (5, b.toNat), (5, a.toNat), (5, d.toNat), (7, 48)] := by
    rw [pack_eq]
    change _ = 0 + 4 * (t.toNat + 16 * (n.toNat + 2 * (m.toNat + 8 * (b.toNat + 32 * (a.toNat + 32 * (d.toNat + 32 * (48)))))))
    omega
  refine roundTrip ?_ hfit 8 rfl rfl ?_ enc
  · exact congrArg some hp
  · rw [row30 _ (pack_slice hfit 7 rfl rfl)]
    have e0 : _ % 4 = 0 := pack_low hfit rfl
    simp only [decodeOp30, e0, pack_field hfit 6 (lo := 20) rfl rfl, pack_field hfit 5 (lo := 15) rfl rfl, pack_field hfit 4 (lo := 10) rfl rfl, pack_field hfit 3 (lo := 7) rfl rfl, pack_field hfit 2 (lo := 6) rfl rfl, pack_field hfit 1 (lo := 2) rfl rfl, Nat.reduceEqDiff, reduceIte]

theorem vslideUp (d : BitVec 5) (a : BitVec 5) (b : BitVec 5) (m : BitVec 3) (n : BitVec 1) (t : BitVec 4) : Statement (.vslideUp d a b m n t) := by
  intro hw word enc
  have hfit : Fits [(2, 1), (4, t.toNat), (1, n.toNat), (3, m.toNat), (5, b.toNat), (5, a.toNat), (5, d.toNat), (7, 48)] := ⟨by decide, t.isLt, n.isLt, m.isLt, b.isLt, a.isLt, d.isLt, by decide, trivial⟩
  have hp : 0x60000001 + d.toNat * 1048576 + a.toNat * 32768 + b.toNat * 1024 + m.toNat * 128 + n.toNat * 64 + t.toNat * 4 = pack [(2, 1), (4, t.toNat), (1, n.toNat), (3, m.toNat), (5, b.toNat), (5, a.toNat), (5, d.toNat), (7, 48)] := by
    rw [pack_eq]
    change _ = 1 + 4 * (t.toNat + 16 * (n.toNat + 2 * (m.toNat + 8 * (b.toNat + 32 * (a.toNat + 32 * (d.toNat + 32 * (48)))))))
    omega
  refine roundTrip ?_ hfit 8 rfl rfl ?_ enc
  · exact congrArg some hp
  · rw [row30 _ (pack_slice hfit 7 rfl rfl)]
    have e0 : _ % 4 = 1 := pack_low hfit rfl
    simp only [decodeOp30, e0, pack_field hfit 6 (lo := 20) rfl rfl, pack_field hfit 5 (lo := 15) rfl rfl, pack_field hfit 4 (lo := 10) rfl rfl, pack_field hfit 3 (lo := 7) rfl rfl, pack_field hfit 2 (lo := 6) rfl rfl, pack_field hfit 1 (lo := 2) rfl rfl, Nat.reduceEqDiff, reduceIte]

theorem vslideDn (d : BitVec 5) (a : BitVec 5) (b : BitVec 5) (m : BitVec 3) (n : BitVec 1) (t : BitVec 4) : Statement (.vslideDn d a b m n t) := by
  intro hw word enc
  have hfit : Fits [(2, 2), (4, t.toNat), (1, n.toNat), (3, m.toNat), (5, b.toNat), (5, a.toNat), (5, d.toNat), (7, 48)] := ⟨by decide, t.isLt, n.isLt, m.isLt, b.isLt, a.isLt, d.isLt, by decide, trivial⟩
  have hp : 0x60000002 + d.toNat * 1048576 + a.toNat * 32768 + b.toNat * 1024 + m.toNat * 128 + n.toNat * 64 + t.toNat * 4 = pack [(2, 2), (4, t.toNat), (1, n.toNat), (3, m.toNat), (5, b.toNat), (5, a.toNat), (5, d.toNat), (7, 48)] := by
    rw [pack_eq]
    change _ = 2 + 4 * (t.toNat + 16 * (n.toNat + 2 * (m.toNat + 8 * (b.toNat + 32 * (a.toNat + 32 * (d.toNat + 32 * (48)))))))
    omega
  refine roundTrip ?_ hfit 8 rfl rfl ?_ enc
  · exact congrArg some hp
  · rw [row30 _ (pack_slice hfit 7 rfl rfl)]
    have e0 : _ % 4 = 2 := pack_low hfit rfl
    simp only [decodeOp30, e0, pack_field hfit 6 (lo := 20) rfl rfl, pack_field hfit 5 (lo := 15) rfl rfl, pack_field hfit 4 (lo := 10) rfl rfl, pack_field hfit 3 (lo := 7) rfl rfl, pack_field hfit 2 (lo := 6) rfl rfl, pack_field hfit 1 (lo := 2) rfl rfl, Nat.reduceEqDiff, reduceIte]

theorem vbcast (d : BitVec 5) (a : BitVec 5) (m : BitVec 3) (n : BitVec 1) (t : BitVec 4) : Statement (.vbcast d a m n t) := by
  intro hw word enc
  have hfit : Fits [(2, 0), (4, t.toNat), (1, n.toNat), (3, m.toNat), (5, 0), (5, a.toNat), (5, d.toNat), (7, 49)] := ⟨by decide, t.isLt, n.isLt, m.isLt, by decide, a.isLt, d.isLt, by decide, trivial⟩
  have hp : 0x62000000 + d.toNat * 1048576 + a.toNat * 32768 + m.toNat * 128 + n.toNat * 64 + t.toNat * 4 = pack [(2, 0), (4, t.toNat), (1, n.toNat), (3, m.toNat), (5, 0), (5, a.toNat), (5, d.toNat), (7, 49)] := by
    rw [pack_eq]
    change _ = 0 + 4 * (t.toNat + 16 * (n.toNat + 2 * (m.toNat + 8 * (0 + 32 * (a.toNat + 32 * (d.toNat + 32 * (49)))))))
    omega
  refine roundTrip ?_ hfit 8 rfl rfl ?_ enc
  · exact congrArg some hp
  · rw [row31 _ (pack_slice hfit 7 rfl rfl)]
    have e0 : _ % 4 = 0 := pack_low hfit rfl
    have e1 : _ / 1024 % 32 = 0 := pack_slice hfit 4 rfl rfl
    simp only [decodeOp31, e0, e1, pack_field hfit 6 (lo := 20) rfl rfl, pack_field hfit 5 (lo := 15) rfl rfl, pack_field hfit 3 (lo := 7) rfl rfl, pack_field hfit 2 (lo := 6) rfl rfl, pack_field hfit 1 (lo := 2) rfl rfl, Nat.reduceEqDiff, reduceIte, and_self, and_false, false_and, and_true, true_and, not_false_eq_true]

theorem vext (d : BitVec 5) (a : BitVec 5) (b : BitVec 5) (t : BitVec 4) : Statement (.vext d a b t) := by
  intro hw word enc
  have hfit : Fits [(2, 1), (4, t.toNat), (4, 0), (5, b.toNat), (5, a.toNat), (5, d.toNat), (7, 49)] := ⟨by decide, t.isLt, by decide, b.isLt, a.isLt, d.isLt, by decide, trivial⟩
  have hp : 0x62000001 + d.toNat * 1048576 + a.toNat * 32768 + b.toNat * 1024 + t.toNat * 4 = pack [(2, 1), (4, t.toNat), (4, 0), (5, b.toNat), (5, a.toNat), (5, d.toNat), (7, 49)] := by
    rw [pack_eq]
    change _ = 1 + 4 * (t.toNat + 16 * (0 + 16 * (b.toNat + 32 * (a.toNat + 32 * (d.toNat + 32 * (49))))))
    omega
  refine roundTrip ?_ hfit 7 rfl rfl ?_ enc
  · exact congrArg some hp
  · rw [row31 _ (pack_slice hfit 6 rfl rfl)]
    have e0 : _ % 4 = 1 := pack_low hfit rfl
    have e1 : _ / 64 % 16 = 0 := pack_slice hfit 2 rfl rfl
    simp only [decodeOp31, e0, e1, pack_field hfit 5 (lo := 20) rfl rfl, pack_field hfit 4 (lo := 15) rfl rfl, pack_field hfit 3 (lo := 10) rfl rfl, pack_field hfit 1 (lo := 2) rfl rfl, Nat.reduceEqDiff, reduceIte, and_self, and_false, false_and, and_true, true_and, not_false_eq_true]

theorem vins (d : BitVec 5) (a : BitVec 5) (b : BitVec 5) (t : BitVec 4) : Statement (.vins d a b t) := by
  intro hw word enc
  have hfit : Fits [(2, 2), (4, t.toNat), (4, 0), (5, b.toNat), (5, a.toNat), (5, d.toNat), (7, 49)] := ⟨by decide, t.isLt, by decide, b.isLt, a.isLt, d.isLt, by decide, trivial⟩
  have hp : 0x62000002 + d.toNat * 1048576 + a.toNat * 32768 + b.toNat * 1024 + t.toNat * 4 = pack [(2, 2), (4, t.toNat), (4, 0), (5, b.toNat), (5, a.toNat), (5, d.toNat), (7, 49)] := by
    rw [pack_eq]
    change _ = 2 + 4 * (t.toNat + 16 * (0 + 16 * (b.toNat + 32 * (a.toNat + 32 * (d.toNat + 32 * (49))))))
    omega
  refine roundTrip ?_ hfit 7 rfl rfl ?_ enc
  · exact congrArg some hp
  · rw [row31 _ (pack_slice hfit 6 rfl rfl)]
    have e0 : _ % 4 = 2 := pack_low hfit rfl
    have e1 : _ / 64 % 16 = 0 := pack_slice hfit 2 rfl rfl
    simp only [decodeOp31, e0, e1, pack_field hfit 5 (lo := 20) rfl rfl, pack_field hfit 4 (lo := 15) rfl rfl, pack_field hfit 3 (lo := 10) rfl rfl, pack_field hfit 1 (lo := 2) rfl rfl, Nat.reduceEqDiff, reduceIte, and_self, and_false, false_and, and_true, true_and, not_false_eq_true]

theorem viota (d : BitVec 5) (m : BitVec 3) (n : BitVec 1) (t : BitVec 4) : Statement (.viota d m n t) := by
  intro hw word enc
  have hfit : Fits [(2, 0), (4, t.toNat), (1, n.toNat), (3, m.toNat), (10, 0), (5, d.toNat), (7, 50)] := ⟨by decide, t.isLt, n.isLt, m.isLt, by decide, d.isLt, by decide, trivial⟩
  have hp : 0x64000000 + d.toNat * 1048576 + m.toNat * 128 + n.toNat * 64 + t.toNat * 4 = pack [(2, 0), (4, t.toNat), (1, n.toNat), (3, m.toNat), (10, 0), (5, d.toNat), (7, 50)] := by
    rw [pack_eq]
    change _ = 0 + 4 * (t.toNat + 16 * (n.toNat + 2 * (m.toNat + 8 * (0 + 1024 * (d.toNat + 32 * (50))))))
    omega
  refine roundTrip ?_ hfit 7 rfl rfl ?_ enc
  · exact congrArg some hp
  · rw [row32 _ (pack_slice hfit 6 rfl rfl)]
    have e0 : _ % 4 = 0 := pack_low hfit rfl
    have e1 : _ / 1024 % 1024 = 0 := pack_slice hfit 4 rfl rfl
    simp only [decodeOp32, e0, e1, pack_field hfit 5 (lo := 20) rfl rfl, pack_field hfit 3 (lo := 7) rfl rfl, pack_field hfit 2 (lo := 6) rfl rfl, pack_field hfit 1 (lo := 2) rfl rfl, Nat.reduceEqDiff, reduceIte, and_self, and_false, false_and, and_true, true_and, not_false_eq_true]

theorem vcompress (d : BitVec 5) (a : BitVec 5) (m : BitVec 3) (n : BitVec 1) (t : BitVec 4) : Statement (.vcompress d a m n t) := by
  intro hw word enc
  have hfit : Fits [(2, 1), (4, t.toNat), (1, n.toNat), (3, m.toNat), (5, 0), (5, a.toNat), (5, d.toNat), (7, 50)] := ⟨by decide, t.isLt, n.isLt, m.isLt, by decide, a.isLt, d.isLt, by decide, trivial⟩
  have hp : 0x64000001 + d.toNat * 1048576 + a.toNat * 32768 + m.toNat * 128 + n.toNat * 64 + t.toNat * 4 = pack [(2, 1), (4, t.toNat), (1, n.toNat), (3, m.toNat), (5, 0), (5, a.toNat), (5, d.toNat), (7, 50)] := by
    rw [pack_eq]
    change _ = 1 + 4 * (t.toNat + 16 * (n.toNat + 2 * (m.toNat + 8 * (0 + 32 * (a.toNat + 32 * (d.toNat + 32 * (50)))))))
    omega
  refine roundTrip ?_ hfit 8 rfl rfl ?_ enc
  · exact congrArg some hp
  · rw [row32 _ (pack_slice hfit 7 rfl rfl)]
    have e0 : _ % 4 = 1 := pack_low hfit rfl
    have e1 : _ / 1024 % 32 = 0 := pack_slice hfit 4 rfl rfl
    simp only [decodeOp32, e0, e1, pack_field hfit 6 (lo := 20) rfl rfl, pack_field hfit 5 (lo := 15) rfl rfl, pack_field hfit 3 (lo := 7) rfl rfl, pack_field hfit 2 (lo := 6) rfl rfl, pack_field hfit 1 (lo := 2) rfl rfl, Nat.reduceEqDiff, reduceIte, and_self, and_false, false_and, and_true, true_and, not_false_eq_true]

theorem vexpand (d : BitVec 5) (a : BitVec 5) (m : BitVec 3) (n : BitVec 1) (t : BitVec 4) : Statement (.vexpand d a m n t) := by
  intro hw word enc
  have hfit : Fits [(2, 2), (4, t.toNat), (1, n.toNat), (3, m.toNat), (5, 0), (5, a.toNat), (5, d.toNat), (7, 50)] := ⟨by decide, t.isLt, n.isLt, m.isLt, by decide, a.isLt, d.isLt, by decide, trivial⟩
  have hp : 0x64000002 + d.toNat * 1048576 + a.toNat * 32768 + m.toNat * 128 + n.toNat * 64 + t.toNat * 4 = pack [(2, 2), (4, t.toNat), (1, n.toNat), (3, m.toNat), (5, 0), (5, a.toNat), (5, d.toNat), (7, 50)] := by
    rw [pack_eq]
    change _ = 2 + 4 * (t.toNat + 16 * (n.toNat + 2 * (m.toNat + 8 * (0 + 32 * (a.toNat + 32 * (d.toNat + 32 * (50)))))))
    omega
  refine roundTrip ?_ hfit 8 rfl rfl ?_ enc
  · exact congrArg some hp
  · rw [row32 _ (pack_slice hfit 7 rfl rfl)]
    have e0 : _ % 4 = 2 := pack_low hfit rfl
    have e1 : _ / 1024 % 32 = 0 := pack_slice hfit 4 rfl rfl
    simp only [decodeOp32, e0, e1, pack_field hfit 6 (lo := 20) rfl rfl, pack_field hfit 5 (lo := 15) rfl rfl, pack_field hfit 3 (lo := 7) rfl rfl, pack_field hfit 2 (lo := 6) rfl rfl, pack_field hfit 1 (lo := 2) rfl rfl, Nat.reduceEqDiff, reduceIte, and_self, and_false, false_and, and_true, true_and, not_false_eq_true]

theorem vpopc (d : BitVec 5) (m : BitVec 3) (n : BitVec 1) (t : BitVec 4) : Statement (.vpopc d m n t) := by
  intro hw word enc
  have hfit : Fits [(2, 0), (4, t.toNat), (1, n.toNat), (3, m.toNat), (10, 0), (5, d.toNat), (7, 51)] := ⟨by decide, t.isLt, n.isLt, m.isLt, by decide, d.isLt, by decide, trivial⟩
  have hp : 0x66000000 + d.toNat * 1048576 + m.toNat * 128 + n.toNat * 64 + t.toNat * 4 = pack [(2, 0), (4, t.toNat), (1, n.toNat), (3, m.toNat), (10, 0), (5, d.toNat), (7, 51)] := by
    rw [pack_eq]
    change _ = 0 + 4 * (t.toNat + 16 * (n.toNat + 2 * (m.toNat + 8 * (0 + 1024 * (d.toNat + 32 * (51))))))
    omega
  refine roundTrip ?_ hfit 7 rfl rfl ?_ enc
  · exact congrArg some hp
  · rw [row33 _ (pack_slice hfit 6 rfl rfl)]
    have e0 : _ % 4 = 0 := pack_low hfit rfl
    have e1 : _ / 1024 % 1024 = 0 := pack_slice hfit 4 rfl rfl
    simp only [decodeOp33, e0, e1, pack_field hfit 5 (lo := 20) rfl rfl, pack_field hfit 3 (lo := 7) rfl rfl, pack_field hfit 2 (lo := 6) rfl rfl, pack_field hfit 1 (lo := 2) rfl rfl, Nat.reduceEqDiff, reduceIte, and_self, and_false, false_and, and_true, true_and, not_false_eq_true]

theorem vfirst (d : BitVec 5) (m : BitVec 3) (n : BitVec 1) (t : BitVec 4) : Statement (.vfirst d m n t) := by
  intro hw word enc
  have hfit : Fits [(2, 1), (4, t.toNat), (1, n.toNat), (3, m.toNat), (10, 0), (5, d.toNat), (7, 51)] := ⟨by decide, t.isLt, n.isLt, m.isLt, by decide, d.isLt, by decide, trivial⟩
  have hp : 0x66000001 + d.toNat * 1048576 + m.toNat * 128 + n.toNat * 64 + t.toNat * 4 = pack [(2, 1), (4, t.toNat), (1, n.toNat), (3, m.toNat), (10, 0), (5, d.toNat), (7, 51)] := by
    rw [pack_eq]
    change _ = 1 + 4 * (t.toNat + 16 * (n.toNat + 2 * (m.toNat + 8 * (0 + 1024 * (d.toNat + 32 * (51))))))
    omega
  refine roundTrip ?_ hfit 7 rfl rfl ?_ enc
  · exact congrArg some hp
  · rw [row33 _ (pack_slice hfit 6 rfl rfl)]
    have e0 : _ % 4 = 1 := pack_low hfit rfl
    have e1 : _ / 1024 % 1024 = 0 := pack_slice hfit 4 rfl rfl
    simp only [decodeOp33, e0, e1, pack_field hfit 5 (lo := 20) rfl rfl, pack_field hfit 3 (lo := 7) rfl rfl, pack_field hfit 2 (lo := 6) rfl rfl, pack_field hfit 1 (lo := 2) rfl rfl, Nat.reduceEqDiff, reduceIte, and_self, and_false, false_and, and_true, true_and, not_false_eq_true]

theorem vtopk (d : BitVec 5) (a : BitVec 5) (b : BitVec 5) (m : BitVec 3) (n : BitVec 1) (t : BitVec 4) : Statement (.vtopk d a b m n t) := by
  intro hw word enc
  have hfit : Fits [(2, 0), (4, t.toNat), (1, n.toNat), (3, m.toNat), (5, b.toNat), (5, a.toNat), (5, d.toNat), (7, 52)] := ⟨by decide, t.isLt, n.isLt, m.isLt, b.isLt, a.isLt, d.isLt, by decide, trivial⟩
  have hp : 0x68000000 + d.toNat * 1048576 + a.toNat * 32768 + b.toNat * 1024 + m.toNat * 128 + n.toNat * 64 + t.toNat * 4 = pack [(2, 0), (4, t.toNat), (1, n.toNat), (3, m.toNat), (5, b.toNat), (5, a.toNat), (5, d.toNat), (7, 52)] := by
    rw [pack_eq]
    change _ = 0 + 4 * (t.toNat + 16 * (n.toNat + 2 * (m.toNat + 8 * (b.toNat + 32 * (a.toNat + 32 * (d.toNat + 32 * (52)))))))
    omega
  refine roundTrip ?_ hfit 8 rfl rfl ?_ enc
  · exact congrArg some hp
  · rw [row34 _ (pack_slice hfit 7 rfl rfl)]
    have e0 : _ % 4 = 0 := pack_low hfit rfl
    simp only [decodeOp34, e0, pack_field hfit 6 (lo := 20) rfl rfl, pack_field hfit 5 (lo := 15) rfl rfl, pack_field hfit 4 (lo := 10) rfl rfl, pack_field hfit 3 (lo := 7) rfl rfl, pack_field hfit 2 (lo := 6) rfl rfl, pack_field hfit 1 (lo := 2) rfl rfl, Nat.reduceEqDiff, reduceIte]

theorem vxacc (d : BitVec 5) (a : BitVec 5) (b : BitVec 5) (m : BitVec 3) (n : BitVec 1) (t : BitVec 4) : Statement (.vxacc d a b m n t) := by
  intro hw word enc
  have hfit : Fits [(2, 0), (4, t.toNat), (1, n.toNat), (3, m.toNat), (5, b.toNat), (5, a.toNat), (5, d.toNat), (7, 53)] := ⟨by decide, t.isLt, n.isLt, m.isLt, b.isLt, a.isLt, d.isLt, by decide, trivial⟩
  have hp : 0x6A000000 + d.toNat * 1048576 + a.toNat * 32768 + b.toNat * 1024 + m.toNat * 128 + n.toNat * 64 + t.toNat * 4 = pack [(2, 0), (4, t.toNat), (1, n.toNat), (3, m.toNat), (5, b.toNat), (5, a.toNat), (5, d.toNat), (7, 53)] := by
    rw [pack_eq]
    change _ = 0 + 4 * (t.toNat + 16 * (n.toNat + 2 * (m.toNat + 8 * (b.toNat + 32 * (a.toNat + 32 * (d.toNat + 32 * (53)))))))
    omega
  refine roundTrip ?_ hfit 8 rfl rfl ?_ enc
  · exact congrArg some hp
  · rw [row35 _ (pack_slice hfit 7 rfl rfl)]
    have e0 : _ % 4 = 0 := pack_low hfit rfl
    simp only [decodeOp35, e0, pack_field hfit 6 (lo := 20) rfl rfl, pack_field hfit 5 (lo := 15) rfl rfl, pack_field hfit 4 (lo := 10) rfl rfl, pack_field hfit 3 (lo := 7) rfl rfl, pack_field hfit 2 (lo := 6) rfl rfl, pack_field hfit 1 (lo := 2) rfl rfl, Nat.reduceEqDiff, reduceIte]

theorem vxrnd (d : BitVec 5) (a : BitVec 5) (b : BitVec 5) (t : BitVec 4) : Statement (.vxrnd d a b t) := by
  intro hw word enc
  have hfit : Fits [(2, 1), (4, t.toNat), (4, 0), (5, b.toNat), (5, a.toNat), (5, d.toNat), (7, 53)] := ⟨by decide, t.isLt, by decide, b.isLt, a.isLt, d.isLt, by decide, trivial⟩
  have hp : 0x6A000001 + d.toNat * 1048576 + a.toNat * 32768 + b.toNat * 1024 + t.toNat * 4 = pack [(2, 1), (4, t.toNat), (4, 0), (5, b.toNat), (5, a.toNat), (5, d.toNat), (7, 53)] := by
    rw [pack_eq]
    change _ = 1 + 4 * (t.toNat + 16 * (0 + 16 * (b.toNat + 32 * (a.toNat + 32 * (d.toNat + 32 * (53))))))
    omega
  refine roundTrip ?_ hfit 7 rfl rfl ?_ enc
  · exact congrArg some hp
  · rw [row35 _ (pack_slice hfit 6 rfl rfl)]
    have e0 : _ % 4 = 1 := pack_low hfit rfl
    have e1 : _ / 64 % 16 = 0 := pack_slice hfit 2 rfl rfl
    simp only [decodeOp35, e0, e1, pack_field hfit 5 (lo := 20) rfl rfl, pack_field hfit 4 (lo := 15) rfl rfl, pack_field hfit 3 (lo := 10) rfl rfl, pack_field hfit 1 (lo := 2) rfl rfl, Nat.reduceEqDiff, reduceIte, and_self, and_false, false_and, and_true, true_and, not_false_eq_true]

theorem vld (d : BitVec 5) (p : BitVec 4) (v : BitVec 1) (b : BitVec 5) (m : BitVec 3) (n : BitVec 1) (t : BitVec 4) : Statement (.vld d p v b m n t) := by
  intro hw word enc
  have hfit : Fits [(2, 0), (4, t.toNat), (1, n.toNat), (3, m.toNat), (5, b.toNat), (1, v.toNat), (4, p.toNat), (5, d.toNat), (7, 54)] := ⟨by decide, t.isLt, n.isLt, m.isLt, b.isLt, v.isLt, p.isLt, d.isLt, by decide, trivial⟩
  have hp : 0x6C000000 + d.toNat * 1048576 + p.toNat * 65536 + v.toNat * 32768 + b.toNat * 1024 + m.toNat * 128 + n.toNat * 64 + t.toNat * 4 = pack [(2, 0), (4, t.toNat), (1, n.toNat), (3, m.toNat), (5, b.toNat), (1, v.toNat), (4, p.toNat), (5, d.toNat), (7, 54)] := by
    rw [pack_eq]
    change _ = 0 + 4 * (t.toNat + 16 * (n.toNat + 2 * (m.toNat + 8 * (b.toNat + 32 * (v.toNat + 2 * (p.toNat + 16 * (d.toNat + 32 * (54))))))))
    omega
  refine roundTrip ?_ hfit 9 rfl rfl ?_ enc
  · exact congrArg some hp
  · rw [row36 _ (pack_slice hfit 8 rfl rfl)]
    have e0 : _ % 4 = 0 := pack_low hfit rfl
    simp only [decodeOp36, e0, pack_field hfit 7 (lo := 20) rfl rfl, pack_field hfit 6 (lo := 16) rfl rfl, pack_field hfit 5 (lo := 15) rfl rfl, pack_field hfit 4 (lo := 10) rfl rfl, pack_field hfit 3 (lo := 7) rfl rfl, pack_field hfit 2 (lo := 6) rfl rfl, pack_field hfit 1 (lo := 2) rfl rfl, Nat.reduceEqDiff, reduceIte]

theorem vlds (d : BitVec 5) (p : BitVec 4) (v : BitVec 1) (b : BitVec 5) (m : BitVec 3) (n : BitVec 1) (t : BitVec 4) : Statement (.vlds d p v b m n t) := by
  intro hw word enc
  have hfit : Fits [(2, 1), (4, t.toNat), (1, n.toNat), (3, m.toNat), (5, b.toNat), (1, v.toNat), (4, p.toNat), (5, d.toNat), (7, 54)] := ⟨by decide, t.isLt, n.isLt, m.isLt, b.isLt, v.isLt, p.isLt, d.isLt, by decide, trivial⟩
  have hp : 0x6C000001 + d.toNat * 1048576 + p.toNat * 65536 + v.toNat * 32768 + b.toNat * 1024 + m.toNat * 128 + n.toNat * 64 + t.toNat * 4 = pack [(2, 1), (4, t.toNat), (1, n.toNat), (3, m.toNat), (5, b.toNat), (1, v.toNat), (4, p.toNat), (5, d.toNat), (7, 54)] := by
    rw [pack_eq]
    change _ = 1 + 4 * (t.toNat + 16 * (n.toNat + 2 * (m.toNat + 8 * (b.toNat + 32 * (v.toNat + 2 * (p.toNat + 16 * (d.toNat + 32 * (54))))))))
    omega
  refine roundTrip ?_ hfit 9 rfl rfl ?_ enc
  · exact congrArg some hp
  · rw [row36 _ (pack_slice hfit 8 rfl rfl)]
    have e0 : _ % 4 = 1 := pack_low hfit rfl
    simp only [decodeOp36, e0, pack_field hfit 7 (lo := 20) rfl rfl, pack_field hfit 6 (lo := 16) rfl rfl, pack_field hfit 5 (lo := 15) rfl rfl, pack_field hfit 4 (lo := 10) rfl rfl, pack_field hfit 3 (lo := 7) rfl rfl, pack_field hfit 2 (lo := 6) rfl rfl, pack_field hfit 1 (lo := 2) rfl rfl, Nat.reduceEqDiff, reduceIte]

theorem vst (d : BitVec 5) (p : BitVec 4) (v : BitVec 1) (b : BitVec 5) (m : BitVec 3) (n : BitVec 1) (t : BitVec 4) : Statement (.vst d p v b m n t) := by
  intro hw word enc
  have hfit : Fits [(2, 2), (4, t.toNat), (1, n.toNat), (3, m.toNat), (5, b.toNat), (1, v.toNat), (4, p.toNat), (5, d.toNat), (7, 54)] := ⟨by decide, t.isLt, n.isLt, m.isLt, b.isLt, v.isLt, p.isLt, d.isLt, by decide, trivial⟩
  have hp : 0x6C000002 + d.toNat * 1048576 + p.toNat * 65536 + v.toNat * 32768 + b.toNat * 1024 + m.toNat * 128 + n.toNat * 64 + t.toNat * 4 = pack [(2, 2), (4, t.toNat), (1, n.toNat), (3, m.toNat), (5, b.toNat), (1, v.toNat), (4, p.toNat), (5, d.toNat), (7, 54)] := by
    rw [pack_eq]
    change _ = 2 + 4 * (t.toNat + 16 * (n.toNat + 2 * (m.toNat + 8 * (b.toNat + 32 * (v.toNat + 2 * (p.toNat + 16 * (d.toNat + 32 * (54))))))))
    omega
  refine roundTrip ?_ hfit 9 rfl rfl ?_ enc
  · exact congrArg some hp
  · rw [row36 _ (pack_slice hfit 8 rfl rfl)]
    have e0 : _ % 4 = 2 := pack_low hfit rfl
    simp only [decodeOp36, e0, pack_field hfit 7 (lo := 20) rfl rfl, pack_field hfit 6 (lo := 16) rfl rfl, pack_field hfit 5 (lo := 15) rfl rfl, pack_field hfit 4 (lo := 10) rfl rfl, pack_field hfit 3 (lo := 7) rfl rfl, pack_field hfit 2 (lo := 6) rfl rfl, pack_field hfit 1 (lo := 2) rfl rfl, Nat.reduceEqDiff, reduceIte]

theorem vgath (d : BitVec 5) (p : BitVec 4) (v : BitVec 1) (b : BitVec 5) (m : BitVec 3) (n : BitVec 1) (t : BitVec 4) : Statement (.vgath d p v b m n t) := by
  intro hw word enc
  have hfit : Fits [(2, 0), (4, t.toNat), (1, n.toNat), (3, m.toNat), (5, b.toNat), (1, v.toNat), (4, p.toNat), (5, d.toNat), (7, 55)] := ⟨by decide, t.isLt, n.isLt, m.isLt, b.isLt, v.isLt, p.isLt, d.isLt, by decide, trivial⟩
  have hp : 0x6E000000 + d.toNat * 1048576 + p.toNat * 65536 + v.toNat * 32768 + b.toNat * 1024 + m.toNat * 128 + n.toNat * 64 + t.toNat * 4 = pack [(2, 0), (4, t.toNat), (1, n.toNat), (3, m.toNat), (5, b.toNat), (1, v.toNat), (4, p.toNat), (5, d.toNat), (7, 55)] := by
    rw [pack_eq]
    change _ = 0 + 4 * (t.toNat + 16 * (n.toNat + 2 * (m.toNat + 8 * (b.toNat + 32 * (v.toNat + 2 * (p.toNat + 16 * (d.toNat + 32 * (55))))))))
    omega
  refine roundTrip ?_ hfit 9 rfl rfl ?_ enc
  · exact congrArg some hp
  · rw [row37 _ (pack_slice hfit 8 rfl rfl)]
    have e0 : _ % 4 = 0 := pack_low hfit rfl
    simp only [decodeOp37, e0, pack_field hfit 7 (lo := 20) rfl rfl, pack_field hfit 6 (lo := 16) rfl rfl, pack_field hfit 5 (lo := 15) rfl rfl, pack_field hfit 4 (lo := 10) rfl rfl, pack_field hfit 3 (lo := 7) rfl rfl, pack_field hfit 2 (lo := 6) rfl rfl, pack_field hfit 1 (lo := 2) rfl rfl, Nat.reduceEqDiff, reduceIte]

theorem vscat (d : BitVec 5) (p : BitVec 4) (v : BitVec 1) (b : BitVec 5) (m : BitVec 3) (n : BitVec 1) (t : BitVec 4) : Statement (.vscat d p v b m n t) := by
  intro hw word enc
  have hfit : Fits [(2, 1), (4, t.toNat), (1, n.toNat), (3, m.toNat), (5, b.toNat), (1, v.toNat), (4, p.toNat), (5, d.toNat), (7, 55)] := ⟨by decide, t.isLt, n.isLt, m.isLt, b.isLt, v.isLt, p.isLt, d.isLt, by decide, trivial⟩
  have hp : 0x6E000001 + d.toNat * 1048576 + p.toNat * 65536 + v.toNat * 32768 + b.toNat * 1024 + m.toNat * 128 + n.toNat * 64 + t.toNat * 4 = pack [(2, 1), (4, t.toNat), (1, n.toNat), (3, m.toNat), (5, b.toNat), (1, v.toNat), (4, p.toNat), (5, d.toNat), (7, 55)] := by
    rw [pack_eq]
    change _ = 1 + 4 * (t.toNat + 16 * (n.toNat + 2 * (m.toNat + 8 * (b.toNat + 32 * (v.toNat + 2 * (p.toNat + 16 * (d.toNat + 32 * (55))))))))
    omega
  refine roundTrip ?_ hfit 9 rfl rfl ?_ enc
  · exact congrArg some hp
  · rw [row37 _ (pack_slice hfit 8 rfl rfl)]
    have e0 : _ % 4 = 1 := pack_low hfit rfl
    simp only [decodeOp37, e0, pack_field hfit 7 (lo := 20) rfl rfl, pack_field hfit 6 (lo := 16) rfl rfl, pack_field hfit 5 (lo := 15) rfl rfl, pack_field hfit 4 (lo := 10) rfl rfl, pack_field hfit 3 (lo := 7) rfl rfl, pack_field hfit 2 (lo := 6) rfl rfl, pack_field hfit 1 (lo := 2) rfl rfl, Nat.reduceEqDiff, reduceIte]

theorem vmv (d : BitVec 5) (a : BitVec 5) (m : BitVec 3) (n : BitVec 1) (t : BitVec 4) : Statement (.vmv d a m n t) := by
  intro hw word enc
  have hfit : Fits [(2, 0), (4, t.toNat), (1, n.toNat), (3, m.toNat), (5, 0), (5, a.toNat), (5, d.toNat), (7, 56)] := ⟨by decide, t.isLt, n.isLt, m.isLt, by decide, a.isLt, d.isLt, by decide, trivial⟩
  have hp : 0x70000000 + d.toNat * 1048576 + a.toNat * 32768 + m.toNat * 128 + n.toNat * 64 + t.toNat * 4 = pack [(2, 0), (4, t.toNat), (1, n.toNat), (3, m.toNat), (5, 0), (5, a.toNat), (5, d.toNat), (7, 56)] := by
    rw [pack_eq]
    change _ = 0 + 4 * (t.toNat + 16 * (n.toNat + 2 * (m.toNat + 8 * (0 + 32 * (a.toNat + 32 * (d.toNat + 32 * (56)))))))
    omega
  refine roundTrip ?_ hfit 8 rfl rfl ?_ enc
  · exact congrArg some hp
  · rw [row38 _ (pack_slice hfit 7 rfl rfl)]
    have e0 : _ % 4 = 0 := pack_low hfit rfl
    have e1 : _ / 1024 % 32 = 0 := pack_slice hfit 4 rfl rfl
    simp only [decodeOp38, e0, e1, pack_field hfit 6 (lo := 20) rfl rfl, pack_field hfit 5 (lo := 15) rfl rfl, pack_field hfit 3 (lo := 7) rfl rfl, pack_field hfit 2 (lo := 6) rfl rfl, pack_field hfit 1 (lo := 2) rfl rfl, Nat.reduceEqDiff, reduceIte, and_self, and_false, false_and, and_true, true_and, not_false_eq_true]

theorem vmvStream (d : BitVec 5) (s : BitVec 3) (m : BitVec 3) (n : BitVec 1) (t : BitVec 4) : Statement (.vmvStream d s m n t) := by
  intro hw word enc
  have hfit : Fits [(2, 0), (4, t.toNat), (1, n.toNat), (3, m.toNat), (5, 1), (3, s.toNat), (2, 0), (5, d.toNat), (7, 56)] := ⟨by decide, t.isLt, n.isLt, m.isLt, by decide, s.isLt, by decide, d.isLt, by decide, trivial⟩
  have hp : 0x70000400 + d.toNat * 1048576 + s.toNat * 32768 + m.toNat * 128 + n.toNat * 64 + t.toNat * 4 = pack [(2, 0), (4, t.toNat), (1, n.toNat), (3, m.toNat), (5, 1), (3, s.toNat), (2, 0), (5, d.toNat), (7, 56)] := by
    rw [pack_eq]
    change _ = 0 + 4 * (t.toNat + 16 * (n.toNat + 2 * (m.toNat + 8 * (1 + 32 * (s.toNat + 8 * (0 + 4 * (d.toNat + 32 * (56))))))))
    omega
  refine roundTrip ?_ hfit 9 rfl rfl ?_ enc
  · exact congrArg some hp
  · rw [row38 _ (pack_slice hfit 8 rfl rfl)]
    have e0 : _ / 1024 % 32 = 1 := pack_slice hfit 4 rfl rfl
    have e1 : _ % 4 = 0 := pack_low hfit rfl
    have e2 : _ / 262144 % 4 = 0 := pack_slice hfit 6 rfl rfl
    simp only [decodeOp38, e0, e1, e2, pack_field hfit 7 (lo := 20) rfl rfl, pack_field hfit 5 (lo := 15) rfl rfl, pack_field hfit 3 (lo := 7) rfl rfl, pack_field hfit 2 (lo := 6) rfl rfl, pack_field hfit 1 (lo := 2) rfl rfl, Nat.reduceEqDiff, reduceIte, and_self, and_false, false_and, and_true, true_and, not_false_eq_true]

theorem mlogAnd (d : BitVec 3) (a : BitVec 3) (b : BitVec 3) : Statement (.mlogAnd d a b) := by
  intro hw word enc
  have hfit : Fits [(10, 0), (3, b.toNat), (2, 0), (3, a.toNat), (2, 0), (3, d.toNat), (2, 0), (7, 57)] := ⟨by decide, b.isLt, by decide, a.isLt, by decide, d.isLt, by decide, by decide, trivial⟩
  have hp : 0x72000000 + d.toNat * 1048576 + a.toNat * 32768 + b.toNat * 1024 = pack [(10, 0), (3, b.toNat), (2, 0), (3, a.toNat), (2, 0), (3, d.toNat), (2, 0), (7, 57)] := by
    rw [pack_eq]
    change _ = 0 + 1024 * (b.toNat + 8 * (0 + 4 * (a.toNat + 8 * (0 + 4 * (d.toNat + 8 * (0 + 4 * (57)))))))
    omega
  refine roundTrip ?_ hfit 8 rfl rfl ?_ enc
  · exact congrArg some hp
  · rw [row39 _ (pack_slice hfit 7 rfl rfl)]
    have e0 : _ % 1024 = 0 := pack_low hfit rfl
    have e1 : _ / 8192 % 4 = 0 := pack_slice hfit 2 rfl rfl
    have e2 : _ / 262144 % 4 = 0 := pack_slice hfit 4 rfl rfl
    have e3 : _ / 8388608 % 4 = 0 := pack_slice hfit 6 rfl rfl
    simp only [decodeOp39, e0, e1, e2, e3, pack_field hfit 5 (lo := 20) rfl rfl, pack_field hfit 3 (lo := 15) rfl rfl, pack_field hfit 1 (lo := 10) rfl rfl, Nat.reduceEqDiff, reduceIte, and_self, and_false, false_and, and_true, true_and, not_false_eq_true]

theorem mlogOr (d : BitVec 3) (a : BitVec 3) (b : BitVec 3) : Statement (.mlogOr d a b) := by
  intro hw word enc
  have hfit : Fits [(10, 1), (3, b.toNat), (2, 0), (3, a.toNat), (2, 0), (3, d.toNat), (2, 0), (7, 57)] := ⟨by decide, b.isLt, by decide, a.isLt, by decide, d.isLt, by decide, by decide, trivial⟩
  have hp : 0x72000001 + d.toNat * 1048576 + a.toNat * 32768 + b.toNat * 1024 = pack [(10, 1), (3, b.toNat), (2, 0), (3, a.toNat), (2, 0), (3, d.toNat), (2, 0), (7, 57)] := by
    rw [pack_eq]
    change _ = 1 + 1024 * (b.toNat + 8 * (0 + 4 * (a.toNat + 8 * (0 + 4 * (d.toNat + 8 * (0 + 4 * (57)))))))
    omega
  refine roundTrip ?_ hfit 8 rfl rfl ?_ enc
  · exact congrArg some hp
  · rw [row39 _ (pack_slice hfit 7 rfl rfl)]
    have e0 : _ % 1024 = 1 := pack_low hfit rfl
    have e1 : _ / 8192 % 4 = 0 := pack_slice hfit 2 rfl rfl
    have e2 : _ / 262144 % 4 = 0 := pack_slice hfit 4 rfl rfl
    have e3 : _ / 8388608 % 4 = 0 := pack_slice hfit 6 rfl rfl
    simp only [decodeOp39, e0, e1, e2, e3, pack_field hfit 5 (lo := 20) rfl rfl, pack_field hfit 3 (lo := 15) rfl rfl, pack_field hfit 1 (lo := 10) rfl rfl, Nat.reduceEqDiff, reduceIte, and_self, and_false, false_and, and_true, true_and, not_false_eq_true]

theorem mlogXor (d : BitVec 3) (a : BitVec 3) (b : BitVec 3) : Statement (.mlogXor d a b) := by
  intro hw word enc
  have hfit : Fits [(10, 2), (3, b.toNat), (2, 0), (3, a.toNat), (2, 0), (3, d.toNat), (2, 0), (7, 57)] := ⟨by decide, b.isLt, by decide, a.isLt, by decide, d.isLt, by decide, by decide, trivial⟩
  have hp : 0x72000002 + d.toNat * 1048576 + a.toNat * 32768 + b.toNat * 1024 = pack [(10, 2), (3, b.toNat), (2, 0), (3, a.toNat), (2, 0), (3, d.toNat), (2, 0), (7, 57)] := by
    rw [pack_eq]
    change _ = 2 + 1024 * (b.toNat + 8 * (0 + 4 * (a.toNat + 8 * (0 + 4 * (d.toNat + 8 * (0 + 4 * (57)))))))
    omega
  refine roundTrip ?_ hfit 8 rfl rfl ?_ enc
  · exact congrArg some hp
  · rw [row39 _ (pack_slice hfit 7 rfl rfl)]
    have e0 : _ % 1024 = 2 := pack_low hfit rfl
    have e1 : _ / 8192 % 4 = 0 := pack_slice hfit 2 rfl rfl
    have e2 : _ / 262144 % 4 = 0 := pack_slice hfit 4 rfl rfl
    have e3 : _ / 8388608 % 4 = 0 := pack_slice hfit 6 rfl rfl
    simp only [decodeOp39, e0, e1, e2, e3, pack_field hfit 5 (lo := 20) rfl rfl, pack_field hfit 3 (lo := 15) rfl rfl, pack_field hfit 1 (lo := 10) rfl rfl, Nat.reduceEqDiff, reduceIte, and_self, and_false, false_and, and_true, true_and, not_false_eq_true]

theorem mlogAndn (d : BitVec 3) (a : BitVec 3) (b : BitVec 3) : Statement (.mlogAndn d a b) := by
  intro hw word enc
  have hfit : Fits [(10, 3), (3, b.toNat), (2, 0), (3, a.toNat), (2, 0), (3, d.toNat), (2, 0), (7, 57)] := ⟨by decide, b.isLt, by decide, a.isLt, by decide, d.isLt, by decide, by decide, trivial⟩
  have hp : 0x72000003 + d.toNat * 1048576 + a.toNat * 32768 + b.toNat * 1024 = pack [(10, 3), (3, b.toNat), (2, 0), (3, a.toNat), (2, 0), (3, d.toNat), (2, 0), (7, 57)] := by
    rw [pack_eq]
    change _ = 3 + 1024 * (b.toNat + 8 * (0 + 4 * (a.toNat + 8 * (0 + 4 * (d.toNat + 8 * (0 + 4 * (57)))))))
    omega
  refine roundTrip ?_ hfit 8 rfl rfl ?_ enc
  · exact congrArg some hp
  · rw [row39 _ (pack_slice hfit 7 rfl rfl)]
    have e0 : _ % 1024 = 3 := pack_low hfit rfl
    have e1 : _ / 8192 % 4 = 0 := pack_slice hfit 2 rfl rfl
    have e2 : _ / 262144 % 4 = 0 := pack_slice hfit 4 rfl rfl
    have e3 : _ / 8388608 % 4 = 0 := pack_slice hfit 6 rfl rfl
    simp only [decodeOp39, e0, e1, e2, e3, pack_field hfit 5 (lo := 20) rfl rfl, pack_field hfit 3 (lo := 15) rfl rfl, pack_field hfit 1 (lo := 10) rfl rfl, Nat.reduceEqDiff, reduceIte, and_self, and_false, false_and, and_true, true_and, not_false_eq_true]

theorem mma (c : BitVec 2) (a : BitVec 4) (b : BitVec 4) (s : BitVec 2) (t : BitVec 4) (u : BitVec 4) : Statement (.mma c a b s t u) := by
  intro hw word enc
  have hfit : Fits [(3, 0), (4, u.toNat), (4, t.toNat), (2, 0), (2, s.toNat), (4, b.toNat), (4, a.toNat), (2, c.toNat), (7, 64)] := ⟨by decide, u.isLt, t.isLt, by decide, s.isLt, b.isLt, a.isLt, c.isLt, by decide, trivial⟩
  have hp : 0x80000000 + c.toNat * 8388608 + a.toNat * 524288 + b.toNat * 32768 + s.toNat * 8192 + t.toNat * 128 + u.toNat * 8 = pack [(3, 0), (4, u.toNat), (4, t.toNat), (2, 0), (2, s.toNat), (4, b.toNat), (4, a.toNat), (2, c.toNat), (7, 64)] := by
    rw [pack_eq]
    change _ = 0 + 8 * (u.toNat + 16 * (t.toNat + 16 * (0 + 4 * (s.toNat + 4 * (b.toNat + 16 * (a.toNat + 16 * (c.toNat + 4 * (64))))))))
    omega
  refine roundTrip ?_ hfit 9 rfl rfl ?_ enc
  · exact congrArg some hp
  · rw [row40 _ (pack_slice hfit 8 rfl rfl)]
    have e0 : _ % 8 = 0 := pack_low hfit rfl
    have e1 : _ / 2048 % 4 = 0 := pack_slice hfit 3 rfl rfl
    simp only [decodeOp40, e0, e1, pack_field hfit 7 (lo := 23) rfl rfl, pack_field hfit 6 (lo := 19) rfl rfl, pack_field hfit 5 (lo := 15) rfl rfl, pack_field hfit 4 (lo := 13) rfl rfl, pack_field hfit 2 (lo := 7) rfl rfl, pack_field hfit 1 (lo := 3) rfl rfl, Nat.reduceEqDiff, reduceIte, and_self, and_false, false_and, and_true, true_and, not_false_eq_true]

theorem tclaim (s : BitVec 4) (i : BitVec 8) : Statement (.tclaim s i) := by
  intro hw word enc
  have hfit : Fits [(8, i.toNat), (11, 0), (4, s.toNat), (2, 0), (7, 65)] := ⟨i.isLt, by decide, s.isLt, by decide, by decide, trivial⟩
  have hp : 0x82000000 + s.toNat * 524288 + i.toNat = pack [(8, i.toNat), (11, 0), (4, s.toNat), (2, 0), (7, 65)] := by
    rw [pack_eq]
    change _ = i.toNat + 256 * (0 + 2048 * (s.toNat + 16 * (0 + 4 * (65))))
    omega
  refine roundTrip ?_ hfit 5 rfl rfl ?_ enc
  · exact congrArg some hp
  · rw [row41 _ (pack_slice hfit 4 rfl rfl)]
    have e0 : _ / 256 % 2048 = 0 := pack_slice hfit 1 rfl rfl
    have e1 : _ / 8388608 % 4 = 0 := pack_slice hfit 3 rfl rfl
    simp only [decodeOp41, e0, e1, pack_field hfit 2 (lo := 19) rfl rfl, pack_field hfit 0 (lo := 0) rfl rfl, Nat.reduceEqDiff, reduceIte, and_self, and_false, false_and, and_true, true_and, not_false_eq_true]

theorem tfree (s : BitVec 4) : Statement (.tfree s) := by
  intro hw word enc
  have hfit : Fits [(8, 0), (11, 1), (4, s.toNat), (2, 0), (7, 65)] := ⟨by decide, by decide, s.isLt, by decide, by decide, trivial⟩
  have hs := s.isLt
  have hp : 0x82000100 + s.toNat * 524288 = pack [(8, 0), (11, 1), (4, s.toNat), (2, 0), (7, 65)] := by
    rw [pack_eq]
    change _ = 0 + 256 * (1 + 2048 * (s.toNat + 16 * (0 + 4 * (65))))
    omega
  refine roundTrip ?_ hfit 5 rfl rfl ?_ enc
  · exact congrArg some hp
  · rw [row41 _ (pack_slice hfit 4 rfl rfl)]
    have e0 : _ / 256 % 2048 = 1 := pack_slice hfit 1 rfl rfl
    have e1 : pack [(8, 0), (11, 1), (4, s.toNat), (2, 0), (7, 65)] % 524288 = 256 := by rw [← hp]; omega
    have e2 : _ / 8388608 % 4 = 0 := pack_slice hfit 3 rfl rfl
    simp only [decodeOp41, e0, e1, e2, pack_field hfit 2 (lo := 19) rfl rfl, Nat.reduceEqDiff, reduceIte, and_self, and_false, false_and, and_true, true_and, not_false_eq_true]

theorem tload (s : BitVec 4) (r : BitVec 5) : Statement (.tload s r) := by
  intro hw word enc
  have hfit : Fits [(5, r.toNat), (3, 0), (11, 2), (4, s.toNat), (2, 0), (7, 65)] := ⟨r.isLt, by decide, by decide, s.isLt, by decide, by decide, trivial⟩
  have hs := s.isLt; have hr := r.isLt
  have hp : 0x82000200 + s.toNat * 524288 + r.toNat = pack [(5, r.toNat), (3, 0), (11, 2), (4, s.toNat), (2, 0), (7, 65)] := by
    rw [pack_eq]
    change _ = r.toNat + 32 * (0 + 8 * (2 + 2048 * (s.toNat + 16 * (0 + 4 * (65)))))
    omega
  refine roundTrip ?_ hfit 6 rfl rfl ?_ enc
  · exact congrArg some hp
  · rw [row41 _ (pack_slice hfit 5 rfl rfl)]
    have c1 : ¬(pack [(5, r.toNat), (3, 0), (11, 2), (4, s.toNat), (2, 0), (7, 65)] % 524288 = 256) := by rw [← hp]; omega
    have e0 : _ / 256 % 2048 = 2 := pack_slice hfit 2 rfl rfl
    have e1 : _ / 8388608 % 4 = 0 := pack_slice hfit 4 rfl rfl
    have e2 : pack [(5, r.toNat), (3, 0), (11, 2), (4, s.toNat), (2, 0), (7, 65)] / 32 % 16384 = 16 := by rw [← hp]; omega
    simp only [decodeOp41, c1, e0, e1, e2, pack_field hfit 3 (lo := 19) rfl rfl, pack_field hfit 0 (lo := 0) rfl rfl, Nat.reduceEqDiff, reduceIte, and_self, and_false, false_and, and_true, true_and, not_false_eq_true]

theorem tstore (s : BitVec 4) (r : BitVec 5) : Statement (.tstore s r) := by
  intro hw word enc
  have hfit : Fits [(5, r.toNat), (3, 0), (11, 3), (4, s.toNat), (2, 0), (7, 65)] := ⟨r.isLt, by decide, by decide, s.isLt, by decide, by decide, trivial⟩
  have hs := s.isLt; have hr := r.isLt
  have hp : 0x82000300 + s.toNat * 524288 + r.toNat = pack [(5, r.toNat), (3, 0), (11, 3), (4, s.toNat), (2, 0), (7, 65)] := by
    rw [pack_eq]
    change _ = r.toNat + 32 * (0 + 8 * (3 + 2048 * (s.toNat + 16 * (0 + 4 * (65)))))
    omega
  refine roundTrip ?_ hfit 6 rfl rfl ?_ enc
  · exact congrArg some hp
  · rw [row41 _ (pack_slice hfit 5 rfl rfl)]
    have c1 : ¬(pack [(5, r.toNat), (3, 0), (11, 3), (4, s.toNat), (2, 0), (7, 65)] % 524288 = 256) := by rw [← hp]; omega
    have e0 : _ / 256 % 2048 = 3 := pack_slice hfit 2 rfl rfl
    have e1 : _ / 8388608 % 4 = 0 := pack_slice hfit 4 rfl rfl
    have e2 : pack [(5, r.toNat), (3, 0), (11, 3), (4, s.toNat), (2, 0), (7, 65)] / 32 % 16384 = 24 := by rw [← hp]; omega
    simp only [decodeOp41, c1, e0, e1, e2, pack_field hfit 3 (lo := 19) rfl rfl, pack_field hfit 0 (lo := 0) rfl rfl, Nat.reduceEqDiff, reduceIte, and_self, and_false, false_and, and_true, true_and, not_false_eq_true]

theorem tzero (s : BitVec 4) : Statement (.tzero s) := by
  intro hw word enc
  have hfit : Fits [(5, 0), (3, 0), (11, 4), (4, s.toNat), (2, 0), (7, 65)] := ⟨by decide, by decide, by decide, s.isLt, by decide, by decide, trivial⟩
  have hs := s.isLt
  have hp : 0x82000400 + s.toNat * 524288 = pack [(5, 0), (3, 0), (11, 4), (4, s.toNat), (2, 0), (7, 65)] := by
    rw [pack_eq]
    change _ = 0 + 32 * (0 + 8 * (4 + 2048 * (s.toNat + 16 * (0 + 4 * (65)))))
    omega
  refine roundTrip ?_ hfit 6 rfl rfl ?_ enc
  · exact congrArg some hp
  · rw [row41 _ (pack_slice hfit 5 rfl rfl)]
    have e0 : _ / 256 % 2048 = 4 := pack_slice hfit 2 rfl rfl
    have e1 : pack [(5, 0), (3, 0), (11, 4), (4, s.toNat), (2, 0), (7, 65)] % 524288 = 1024 := by rw [← hp]; omega
    have e2 : pack [(5, 0), (3, 0), (11, 4), (4, s.toNat), (2, 0), (7, 65)] / 32 % 16384 = 32 := by rw [← hp]; omega
    have e3 : _ / 8388608 % 4 = 0 := pack_slice hfit 4 rfl rfl
    simp only [decodeOp41, e0, e1, e2, e3, pack_field hfit 3 (lo := 19) rfl rfl, Nat.reduceEqDiff, reduceIte, and_self, and_false, false_and, and_true, true_and, not_false_eq_true]

theorem tidld (p : BitVec 4) (i : BitVec 8) : Statement (.tidld p i) := by
  intro hw word enc
  have hfit : Fits [(8, i.toNat), (11, 0), (4, p.toNat), (2, 0), (7, 66)] := ⟨i.isLt, by decide, p.isLt, by decide, by decide, trivial⟩
  have hp : 0x84000000 + p.toNat * 524288 + i.toNat = pack [(8, i.toNat), (11, 0), (4, p.toNat), (2, 0), (7, 66)] := by
    rw [pack_eq]
    change _ = i.toNat + 256 * (0 + 2048 * (p.toNat + 16 * (0 + 4 * (66))))
    omega
  refine roundTrip ?_ hfit 5 rfl rfl ?_ enc
  · exact congrArg some hp
  · rw [row42 _ (pack_slice hfit 4 rfl rfl)]
    have e0 : _ / 256 % 2048 = 0 := pack_slice hfit 1 rfl rfl
    have e1 : _ / 8388608 % 4 = 0 := pack_slice hfit 3 rfl rfl
    simp only [decodeOp42, e0, e1, pack_field hfit 2 (lo := 19) rfl rfl, pack_field hfit 0 (lo := 0) rfl rfl, Nat.reduceEqDiff, reduceIte, and_self, and_false, false_and, and_true, true_and, not_false_eq_true]

theorem tidst (p : BitVec 4) (i : BitVec 8) : Statement (.tidst p i) := by
  intro hw word enc
  have hfit : Fits [(8, i.toNat), (11, 1), (4, p.toNat), (2, 0), (7, 66)] := ⟨i.isLt, by decide, p.isLt, by decide, by decide, trivial⟩
  have hp : 0x84000100 + p.toNat * 524288 + i.toNat = pack [(8, i.toNat), (11, 1), (4, p.toNat), (2, 0), (7, 66)] := by
    rw [pack_eq]
    change _ = i.toNat + 256 * (1 + 2048 * (p.toNat + 16 * (0 + 4 * (66))))
    omega
  refine roundTrip ?_ hfit 5 rfl rfl ?_ enc
  · exact congrArg some hp
  · rw [row42 _ (pack_slice hfit 4 rfl rfl)]
    have e0 : _ / 256 % 2048 = 1 := pack_slice hfit 1 rfl rfl
    have e1 : _ / 8388608 % 4 = 0 := pack_slice hfit 3 rfl rfl
    simp only [decodeOp42, e0, e1, pack_field hfit 2 (lo := 19) rfl rfl, pack_field hfit 0 (lo := 0) rfl rfl, Nat.reduceEqDiff, reduceIte, and_self, and_false, false_and, and_true, true_and, not_false_eq_true]

theorem azero (d : BitVec 2) : Statement (.azero d) := by
  intro hw word enc
  have hfit : Fits [(23, 0), (2, d.toNat), (7, 67)] := ⟨by decide, d.isLt, by decide, trivial⟩
  have hp : 0x86000000 + d.toNat * 8388608 = pack [(23, 0), (2, d.toNat), (7, 67)] := by
    rw [pack_eq]
    change _ = 0 + 8388608 * (d.toNat + 4 * (67))
    omega
  refine roundTrip ?_ hfit 3 rfl rfl ?_ enc
  · exact congrArg some hp
  · rw [row43 _ (pack_slice hfit 2 rfl rfl)]
    have e0 : _ % 8388608 = 0 := pack_low hfit rfl
    simp only [decodeOp43, e0, pack_field hfit 1 (lo := 23) rfl rfl, Nat.reduceEqDiff, reduceIte]

theorem aload (d : BitVec 2) (i : BitVec 8) (r : BitVec 5) : Statement (.aload d i r) := by
  intro hw word enc
  have hfit : Fits [(5, r.toNat), (10, 8), (8, i.toNat), (2, d.toNat), (7, 67)] := ⟨r.isLt, by decide, i.isLt, d.isLt, by decide, trivial⟩
  have hd := d.isLt; have hi := i.isLt; have hr := r.isLt
  have hp : 0x86000100 + d.toNat * 8388608 + i.toNat * 32768 + r.toNat = pack [(5, r.toNat), (10, 8), (8, i.toNat), (2, d.toNat), (7, 67)] := by
    rw [pack_eq]
    change _ = r.toNat + 32 * (8 + 1024 * (i.toNat + 256 * (d.toNat + 4 * (67))))
    omega
  refine roundTrip ?_ hfit 5 rfl rfl ?_ enc
  · exact congrArg some hp
  · rw [row43 _ (pack_slice hfit 4 rfl rfl)]
    have c0 : ¬(pack [(5, r.toNat), (10, 8), (8, i.toNat), (2, d.toNat), (7, 67)] % 8388608 = 0) := by rw [← hp]; omega
    have e0 : _ / 32 % 1024 = 8 := pack_slice hfit 1 rfl rfl
    simp only [decodeOp43, c0, e0, pack_field hfit 3 (lo := 23) rfl rfl, pack_field hfit 2 (lo := 15) rfl rfl, pack_field hfit 0 (lo := 0) rfl rfl, Nat.reduceEqDiff, reduceIte]

theorem astore (d : BitVec 2) (i : BitVec 8) (r : BitVec 5) : Statement (.astore d i r) := by
  intro hw word enc
  have hfit : Fits [(5, r.toNat), (10, 16), (8, i.toNat), (2, d.toNat), (7, 67)] := ⟨r.isLt, by decide, i.isLt, d.isLt, by decide, trivial⟩
  have hd := d.isLt; have hi := i.isLt; have hr := r.isLt
  have hp : 0x86000200 + d.toNat * 8388608 + i.toNat * 32768 + r.toNat = pack [(5, r.toNat), (10, 16), (8, i.toNat), (2, d.toNat), (7, 67)] := by
    rw [pack_eq]
    change _ = r.toNat + 32 * (16 + 1024 * (i.toNat + 256 * (d.toNat + 4 * (67))))
    omega
  refine roundTrip ?_ hfit 5 rfl rfl ?_ enc
  · exact congrArg some hp
  · rw [row43 _ (pack_slice hfit 4 rfl rfl)]
    have c0 : ¬(pack [(5, r.toNat), (10, 16), (8, i.toNat), (2, d.toNat), (7, 67)] % 8388608 = 0) := by rw [← hp]; omega
    have e0 : _ / 32 % 1024 = 16 := pack_slice hfit 1 rfl rfl
    simp only [decodeOp43, c0, e0, pack_field hfit 3 (lo := 23) rfl rfl, pack_field hfit 2 (lo := 15) rfl rfl, pack_field hfit 0 (lo := 0) rfl rfl, Nat.reduceEqDiff, reduceIte]

theorem adrain (d : BitVec 2) (s : BitVec 4) (t : BitVec 4) : Statement (.adrain d s t) := by
  intro hw word enc
  have hfit : Fits [(11, 768), (4, t.toNat), (4, 0), (4, s.toNat), (2, d.toNat), (7, 67)] := ⟨by decide, t.isLt, by decide, s.isLt, d.isLt, by decide, trivial⟩
  have hd := d.isLt; have hs := s.isLt; have ht := t.isLt
  have hp : 0x86000300 + d.toNat * 8388608 + s.toNat * 524288 + t.toNat * 2048 = pack [(11, 768), (4, t.toNat), (4, 0), (4, s.toNat), (2, d.toNat), (7, 67)] := by
    rw [pack_eq]
    change _ = 768 + 2048 * (t.toNat + 16 * (0 + 16 * (s.toNat + 16 * (d.toNat + 4 * (67)))))
    omega
  refine roundTrip ?_ hfit 6 rfl rfl ?_ enc
  · exact congrArg some hp
  · rw [row43 _ (pack_slice hfit 5 rfl rfl)]
    have c0 : ¬(pack [(11, 768), (4, t.toNat), (4, 0), (4, s.toNat), (2, d.toNat), (7, 67)] % 8388608 = 0) := by rw [← hp]; omega
    have c1 : ¬(pack [(11, 768), (4, t.toNat), (4, 0), (4, s.toNat), (2, d.toNat), (7, 67)] / 32 % 1024 = 8) := by rw [← hp]; omega
    have c2 : ¬(pack [(11, 768), (4, t.toNat), (4, 0), (4, s.toNat), (2, d.toNat), (7, 67)] / 32 % 1024 = 16) := by rw [← hp]; omega
    have e0 : _ % 2048 = 768 := pack_low hfit rfl
    have e1 : _ / 32768 % 16 = 0 := pack_slice hfit 2 rfl rfl
    simp only [decodeOp43, c0, c1, c2, e0, e1, pack_field hfit 4 (lo := 23) rfl rfl, pack_field hfit 3 (lo := 19) rfl rfl, pack_field hfit 1 (lo := 11) rfl rfl, Nat.reduceEqDiff, reduceIte, and_self, and_false, false_and, and_true, true_and, not_false_eq_true]

theorem afill (d : BitVec 2) (s : BitVec 4) (t : BitVec 4) : Statement (.afill d s t) := by
  intro hw word enc
  have hfit : Fits [(11, 1024), (4, t.toNat), (4, 0), (4, s.toNat), (2, d.toNat), (7, 67)] := ⟨by decide, t.isLt, by decide, s.isLt, d.isLt, by decide, trivial⟩
  have hd := d.isLt; have hs := s.isLt; have ht := t.isLt
  have hp : 0x86000400 + d.toNat * 8388608 + s.toNat * 524288 + t.toNat * 2048 = pack [(11, 1024), (4, t.toNat), (4, 0), (4, s.toNat), (2, d.toNat), (7, 67)] := by
    rw [pack_eq]
    change _ = 1024 + 2048 * (t.toNat + 16 * (0 + 16 * (s.toNat + 16 * (d.toNat + 4 * (67)))))
    omega
  refine roundTrip ?_ hfit 6 rfl rfl ?_ enc
  · exact congrArg some hp
  · rw [row43 _ (pack_slice hfit 5 rfl rfl)]
    have c0 : ¬(pack [(11, 1024), (4, t.toNat), (4, 0), (4, s.toNat), (2, d.toNat), (7, 67)] % 8388608 = 0) := by rw [← hp]; omega
    have c1 : ¬(pack [(11, 1024), (4, t.toNat), (4, 0), (4, s.toNat), (2, d.toNat), (7, 67)] / 32 % 1024 = 8) := by rw [← hp]; omega
    have c2 : ¬(pack [(11, 1024), (4, t.toNat), (4, 0), (4, s.toNat), (2, d.toNat), (7, 67)] / 32 % 1024 = 16) := by rw [← hp]; omega
    have e0 : _ % 2048 = 1024 := pack_low hfit rfl
    have e1 : _ / 32768 % 16 = 0 := pack_slice hfit 2 rfl rfl
    simp only [decodeOp43, c0, c1, c2, e0, e1, pack_field hfit 4 (lo := 23) rfl rfl, pack_field hfit 3 (lo := 19) rfl rfl, pack_field hfit 1 (lo := 11) rfl rfl, Nat.reduceEqDiff, reduceIte, and_self, and_false, false_and, and_true, true_and, not_false_eq_true]

theorem amode (d : BitVec 2) (e : BitVec 2) : Statement (.amode d e) := by
  intro hw word enc
  have hfit : Fits [(11, 1280), (2, 0), (2, e.toNat), (8, 0), (2, d.toNat), (7, 67)] := ⟨by decide, by decide, e.isLt, by decide, d.isLt, by decide, trivial⟩
  have hd := d.isLt; have he := e.isLt
  have hp : 0x86000500 + d.toNat * 8388608 + e.toNat * 8192 = pack [(11, 1280), (2, 0), (2, e.toNat), (8, 0), (2, d.toNat), (7, 67)] := by
    rw [pack_eq]
    change _ = 1280 + 2048 * (0 + 4 * (e.toNat + 4 * (0 + 256 * (d.toNat + 4 * (67)))))
    omega
  refine roundTrip ?_ hfit 6 rfl rfl ?_ enc
  · exact congrArg some hp
  · rw [row43 _ (pack_slice hfit 5 rfl rfl)]
    have c0 : ¬(pack [(11, 1280), (2, 0), (2, e.toNat), (8, 0), (2, d.toNat), (7, 67)] % 8388608 = 0) := by rw [← hp]; omega
    have c1 : ¬(pack [(11, 1280), (2, 0), (2, e.toNat), (8, 0), (2, d.toNat), (7, 67)] / 32 % 1024 = 8) := by rw [← hp]; omega
    have c2 : ¬(pack [(11, 1280), (2, 0), (2, e.toNat), (8, 0), (2, d.toNat), (7, 67)] / 32 % 1024 = 16) := by rw [← hp]; omega
    have e0 : _ % 2048 = 1280 := pack_low hfit rfl
    have e1 : pack [(11, 1280), (2, 0), (2, e.toNat), (8, 0), (2, d.toNat), (7, 67)] % 8192 = 1280 := by rw [← hp]; omega
    have e2 : _ / 32768 % 256 = 0 := pack_slice hfit 3 rfl rfl
    simp only [decodeOp43, c0, c1, c2, e0, e1, e2, pack_field hfit 4 (lo := 23) rfl rfl, pack_field hfit 2 (lo := 13) rfl rfl, Nat.reduceEqDiff, reduceIte, and_self, and_false, false_and, and_true, true_and, not_false_eq_true]

theorem again (d : BitVec 2) (s : BitVec 2) : Statement (.again d s) := by
  intro hw word enc
  have hfit : Fits [(19, 0), (2, s.toNat), (2, 0), (2, d.toNat), (7, 68)] := ⟨by decide, s.isLt, by decide, d.isLt, by decide, trivial⟩
  have hp : 0x88000000 + d.toNat * 8388608 + s.toNat * 524288 = pack [(19, 0), (2, s.toNat), (2, 0), (2, d.toNat), (7, 68)] := by
    rw [pack_eq]
    change _ = 0 + 524288 * (s.toNat + 4 * (0 + 4 * (d.toNat + 4 * (68))))
    omega
  refine roundTrip ?_ hfit 5 rfl rfl ?_ enc
  · exact congrArg some hp
  · rw [row44 _ (pack_slice hfit 4 rfl rfl)]
    have e0 : _ % 524288 = 0 := pack_low hfit rfl
    have e1 : _ / 2097152 % 4 = 0 := pack_slice hfit 2 rfl rfl
    simp only [decodeOp44, e0, e1, pack_field hfit 3 (lo := 23) rfl rfl, pack_field hfit 1 (lo := 19) rfl rfl, Nat.reduceEqDiff, reduceIte, and_self, and_false, false_and, and_true, true_and, not_false_eq_true]

theorem againPlain (d : BitVec 2) : Statement (.againPlain d) := by
  intro hw word enc
  have hfit : Fits [(19, 1), (4, 0), (2, d.toNat), (7, 68)] := ⟨by decide, by decide, d.isLt, by decide, trivial⟩
  have hd := d.isLt
  have hp : 0x88000001 + d.toNat * 8388608 = pack [(19, 1), (4, 0), (2, d.toNat), (7, 68)] := by
    rw [pack_eq]
    change _ = 1 + 524288 * (0 + 16 * (d.toNat + 4 * (68)))
    omega
  refine roundTrip ?_ hfit 4 rfl rfl ?_ enc
  · exact congrArg some hp
  · rw [row44 _ (pack_slice hfit 3 rfl rfl)]
    have e0 : _ % 524288 = 1 := pack_low hfit rfl
    have e1 : pack [(19, 1), (4, 0), (2, d.toNat), (7, 68)] % 8388608 = 1 := by rw [← hp]; omega
    simp only [decodeOp44, e0, e1, pack_field hfit 2 (lo := 23) rfl rfl, Nat.reduceEqDiff, reduceIte, and_self, and_false, false_and, and_true, true_and, not_false_eq_true]

theorem ascan (d : BitVec 2) (c : BitVec 2) (n : BitVec 5) : Statement (.ascan d c n) := by
  intro hw word enc
  have hfit : Fits [(5, n.toNat), (10, 8), (2, c.toNat), (4, 0), (2, 0), (2, d.toNat), (7, 68)] := ⟨n.isLt, by decide, c.isLt, by decide, by decide, d.isLt, by decide, trivial⟩
  have hd := d.isLt; have hc := c.isLt; have hn := n.isLt
  have hp : 0x88000100 + d.toNat * 8388608 + c.toNat * 32768 + n.toNat = pack [(5, n.toNat), (10, 8), (2, c.toNat), (4, 0), (2, 0), (2, d.toNat), (7, 68)] := by
    rw [pack_eq]
    change _ = n.toNat + 32 * (8 + 1024 * (c.toNat + 4 * (0 + 16 * (0 + 4 * (d.toNat + 4 * (68))))))
    omega
  refine roundTrip ?_ hfit 7 rfl rfl ?_ enc
  · exact congrArg some hp
  · rw [row44 _ (pack_slice hfit 6 rfl rfl)]
    have c0 : ¬(pack [(5, n.toNat), (10, 8), (2, c.toNat), (4, 0), (2, 0), (2, d.toNat), (7, 68)] % 524288 = 0) := by rw [← hp]; omega
    have c1 : ¬(pack [(5, n.toNat), (10, 8), (2, c.toNat), (4, 0), (2, 0), (2, d.toNat), (7, 68)] % 8388608 = 1) := by rw [← hp]; omega
    have e0 : _ / 2097152 % 4 = 0 := pack_slice hfit 4 rfl rfl
    have e1 : _ / 32 % 1024 = 8 := pack_slice hfit 1 rfl rfl
    have e2 : pack [(5, n.toNat), (10, 8), (2, c.toNat), (4, 0), (2, 0), (2, d.toNat), (7, 68)] / 131072 % 64 = 0 := by rw [← hp]; omega
    simp only [decodeOp44, c0, c1, e0, e1, e2, pack_field hfit 5 (lo := 23) rfl rfl, pack_field hfit 2 (lo := 15) rfl rfl, pack_field hfit 0 (lo := 0) rfl rfl, Nat.reduceEqDiff, reduceIte, and_self, and_false, false_and, and_true, true_and, not_false_eq_true]

theorem ascanK (d : BitVec 2) (c : BitVec 2) (n : BitVec 5) : Statement (.ascanK d c n) := by
  intro hw word enc
  have hfit : Fits [(5, n.toNat), (10, 12), (2, c.toNat), (4, 0), (2, 0), (2, d.toNat), (7, 68)] := ⟨n.isLt, by decide, c.isLt, by decide, by decide, d.isLt, by decide, trivial⟩
  have hd := d.isLt; have hc := c.isLt; have hn := n.isLt
  have hp : 0x88000180 + d.toNat * 8388608 + c.toNat * 32768 + n.toNat = pack [(5, n.toNat), (10, 12), (2, c.toNat), (4, 0), (2, 0), (2, d.toNat), (7, 68)] := by
    rw [pack_eq]
    change _ = n.toNat + 32 * (12 + 1024 * (c.toNat + 4 * (0 + 16 * (0 + 4 * (d.toNat + 4 * (68))))))
    omega
  refine roundTrip ?_ hfit 7 rfl rfl ?_ enc
  · exact congrArg some hp
  · rw [row44 _ (pack_slice hfit 6 rfl rfl)]
    have c0 : ¬(pack [(5, n.toNat), (10, 12), (2, c.toNat), (4, 0), (2, 0), (2, d.toNat), (7, 68)] % 524288 = 0) := by rw [← hp]; omega
    have c1 : ¬(pack [(5, n.toNat), (10, 12), (2, c.toNat), (4, 0), (2, 0), (2, d.toNat), (7, 68)] % 8388608 = 1) := by rw [← hp]; omega
    have e0 : _ / 2097152 % 4 = 0 := pack_slice hfit 4 rfl rfl
    have e1 : _ / 32 % 1024 = 12 := pack_slice hfit 1 rfl rfl
    have e2 : pack [(5, n.toNat), (10, 12), (2, c.toNat), (4, 0), (2, 0), (2, d.toNat), (7, 68)] / 131072 % 64 = 0 := by rw [← hp]; omega
    simp only [decodeOp44, c0, c1, e0, e1, e2, pack_field hfit 5 (lo := 23) rfl rfl, pack_field hfit 2 (lo := 15) rfl rfl, pack_field hfit 0 (lo := 0) rfl rfl, Nat.reduceEqDiff, reduceIte, and_self, and_false, false_and, and_true, true_and, not_false_eq_true]

theorem ascanG (d : BitVec 2) (s : BitVec 4) (c : BitVec 2) (t : BitVec 4) (n : BitVec 5) : Statement (.ascanG d s c t n) := by
  intro hw word enc
  have hfit : Fits [(5, n.toNat), (6, 10), (4, t.toNat), (2, c.toNat), (2, 0), (4, s.toNat), (2, d.toNat), (7, 68)] := ⟨n.isLt, by decide, t.isLt, c.isLt, by decide, s.isLt, d.isLt, by decide, trivial⟩
  have hd := d.isLt; have hs := s.isLt; have hc := c.isLt; have ht := t.isLt; have hn := n.isLt
  have hp : 0x88000140 + d.toNat * 8388608 + s.toNat * 524288 + c.toNat * 32768 + t.toNat * 2048 + n.toNat = pack [(5, n.toNat), (6, 10), (4, t.toNat), (2, c.toNat), (2, 0), (4, s.toNat), (2, d.toNat), (7, 68)] := by
    rw [pack_eq]
    change _ = n.toNat + 32 * (10 + 64 * (t.toNat + 16 * (c.toNat + 4 * (0 + 4 * (s.toNat + 16 * (d.toNat + 4 * (68)))))))
    omega
  refine roundTrip ?_ hfit 8 rfl rfl ?_ enc
  · exact congrArg some hp
  · rw [row44 _ (pack_slice hfit 7 rfl rfl)]
    have c0 : ¬(pack [(5, n.toNat), (6, 10), (4, t.toNat), (2, c.toNat), (2, 0), (4, s.toNat), (2, d.toNat), (7, 68)] % 524288 = 0 ∧ pack [(5, n.toNat), (6, 10), (4, t.toNat), (2, c.toNat), (2, 0), (4, s.toNat), (2, d.toNat), (7, 68)] / 2097152 % 4 = 0) := by rw [← hp]; omega
    have c1 : ¬(pack [(5, n.toNat), (6, 10), (4, t.toNat), (2, c.toNat), (2, 0), (4, s.toNat), (2, d.toNat), (7, 68)] % 8388608 = 1) := by rw [← hp]; omega
    have c2 : ¬(pack [(5, n.toNat), (6, 10), (4, t.toNat), (2, c.toNat), (2, 0), (4, s.toNat), (2, d.toNat), (7, 68)] / 32 % 1024 = 8 ∧ pack [(5, n.toNat), (6, 10), (4, t.toNat), (2, c.toNat), (2, 0), (4, s.toNat), (2, d.toNat), (7, 68)] / 131072 % 64 = 0) := by rw [← hp]; omega
    have c3 : ¬(pack [(5, n.toNat), (6, 10), (4, t.toNat), (2, c.toNat), (2, 0), (4, s.toNat), (2, d.toNat), (7, 68)] / 32 % 1024 = 12 ∧ pack [(5, n.toNat), (6, 10), (4, t.toNat), (2, c.toNat), (2, 0), (4, s.toNat), (2, d.toNat), (7, 68)] / 131072 % 64 = 0) := by rw [← hp]; omega
    have e0 : _ / 32 % 64 = 10 := pack_slice hfit 1 rfl rfl
    have e1 : _ / 131072 % 4 = 0 := pack_slice hfit 4 rfl rfl
    simp only [decodeOp44, c0, c1, c2, c3, e0, e1, pack_field hfit 6 (lo := 23) rfl rfl, pack_field hfit 5 (lo := 19) rfl rfl, pack_field hfit 3 (lo := 15) rfl rfl, pack_field hfit 2 (lo := 11) rfl rfl, pack_field hfit 0 (lo := 0) rfl rfl, Nat.reduceEqDiff, reduceIte, and_self, and_false, false_and, and_true, true_and, not_false_eq_true]

theorem aapply (d : BitVec 2) (c : BitVec 2) : Statement (.aapply d c) := by
  intro hw word enc
  have hfit : Fits [(5, 0), (6, 16), (4, 0), (2, c.toNat), (4, 0), (2, 0), (2, d.toNat), (7, 68)] := ⟨by decide, by decide, by decide, c.isLt, by decide, by decide, d.isLt, by decide, trivial⟩
  have hd := d.isLt; have hc := c.isLt
  have hp : 0x88000200 + d.toNat * 8388608 + c.toNat * 32768 = pack [(5, 0), (6, 16), (4, 0), (2, c.toNat), (4, 0), (2, 0), (2, d.toNat), (7, 68)] := by
    rw [pack_eq]
    change _ = 0 + 32 * (16 + 64 * (0 + 16 * (c.toNat + 4 * (0 + 16 * (0 + 4 * (d.toNat + 4 * (68)))))))
    omega
  refine roundTrip ?_ hfit 8 rfl rfl ?_ enc
  · exact congrArg some hp
  · rw [row44 _ (pack_slice hfit 7 rfl rfl)]
    have c0 : ¬(pack [(5, 0), (6, 16), (4, 0), (2, c.toNat), (4, 0), (2, 0), (2, d.toNat), (7, 68)] % 524288 = 0) := by rw [← hp]; omega
    have c1 : ¬(pack [(5, 0), (6, 16), (4, 0), (2, c.toNat), (4, 0), (2, 0), (2, d.toNat), (7, 68)] % 8388608 = 1) := by rw [← hp]; omega
    have e0 : _ / 2097152 % 4 = 0 := pack_slice hfit 5 rfl rfl
    have e1 : pack [(5, 0), (6, 16), (4, 0), (2, c.toNat), (4, 0), (2, 0), (2, d.toNat), (7, 68)] / 32 % 1024 = 16 := by rw [← hp]; omega
    have e2 : _ / 32 % 64 = 16 := pack_slice hfit 1 rfl rfl
    have e3 : pack [(5, 0), (6, 16), (4, 0), (2, c.toNat), (4, 0), (2, 0), (2, d.toNat), (7, 68)] % 32768 = 512 := by rw [← hp]; omega
    have e4 : pack [(5, 0), (6, 16), (4, 0), (2, c.toNat), (4, 0), (2, 0), (2, d.toNat), (7, 68)] / 131072 % 64 = 0 := by rw [← hp]; omega
    simp only [decodeOp44, c0, c1, e0, e1, e2, e3, e4, pack_field hfit 6 (lo := 23) rfl rfl, pack_field hfit 3 (lo := 15) rfl rfl, Nat.reduceEqDiff, reduceIte, and_self, and_false, false_and, and_true, true_and, not_false_eq_true]

theorem kload (c : BitVec 2) (a : BitVec 5) : Statement (.kload c a) := by
  intro hw word enc
  have hfit : Fits [(5, a.toNat), (18, 0), (2, c.toNat), (7, 69)] := ⟨a.isLt, by decide, c.isLt, by decide, trivial⟩
  have hp : 0x8A000000 + c.toNat * 8388608 + a.toNat = pack [(5, a.toNat), (18, 0), (2, c.toNat), (7, 69)] := by
    rw [pack_eq]
    change _ = a.toNat + 32 * (0 + 262144 * (c.toNat + 4 * (69)))
    omega
  refine roundTrip ?_ hfit 4 rfl rfl ?_ enc
  · exact congrArg some hp
  · rw [row45 _ (pack_slice hfit 3 rfl rfl)]
    have e0 : _ / 32 % 262144 = 0 := pack_slice hfit 1 rfl rfl
    simp only [decodeOp45, e0, pack_field hfit 2 (lo := 23) rfl rfl, pack_field hfit 0 (lo := 0) rfl rfl, Nat.reduceEqDiff, reduceIte]

theorem kstore (c : BitVec 2) (v : BitVec 5) : Statement (.kstore c v) := by
  intro hw word enc
  have hfit : Fits [(5, v.toNat), (18, 8), (2, c.toNat), (7, 69)] := ⟨v.isLt, by decide, c.isLt, by decide, trivial⟩
  have hp : 0x8A000100 + c.toNat * 8388608 + v.toNat = pack [(5, v.toNat), (18, 8), (2, c.toNat), (7, 69)] := by
    rw [pack_eq]
    change _ = v.toNat + 32 * (8 + 262144 * (c.toNat + 4 * (69)))
    omega
  refine roundTrip ?_ hfit 4 rfl rfl ?_ enc
  · exact congrArg some hp
  · rw [row45 _ (pack_slice hfit 3 rfl rfl)]
    have e0 : _ / 32 % 262144 = 8 := pack_slice hfit 1 rfl rfl
    simp only [decodeOp45, e0, pack_field hfit 2 (lo := 23) rfl rfl, pack_field hfit 0 (lo := 0) rfl rfl, Nat.reduceEqDiff, reduceIte]

theorem kcomb (d : BitVec 2) (s : BitVec 2) (q : BitVec 2) : Statement (.kcomb d s q) := by
  intro hw word enc
  have hfit : Fits [(15, 512), (2, q.toNat), (2, 0), (2, s.toNat), (2, 0), (2, d.toNat), (7, 69)] := ⟨by decide, q.isLt, by decide, s.isLt, by decide, d.isLt, by decide, trivial⟩
  have hd := d.isLt; have hs := s.isLt; have hq := q.isLt
  have hp : 0x8A000200 + d.toNat * 8388608 + s.toNat * 524288 + q.toNat * 32768 = pack [(15, 512), (2, q.toNat), (2, 0), (2, s.toNat), (2, 0), (2, d.toNat), (7, 69)] := by
    rw [pack_eq]
    change _ = 512 + 32768 * (q.toNat + 4 * (0 + 4 * (s.toNat + 4 * (0 + 4 * (d.toNat + 4 * (69))))))
    omega
  refine roundTrip ?_ hfit 7 rfl rfl ?_ enc
  · exact congrArg some hp
  · rw [row45 _ (pack_slice hfit 6 rfl rfl)]
    have c0 : ¬(pack [(15, 512), (2, q.toNat), (2, 0), (2, s.toNat), (2, 0), (2, d.toNat), (7, 69)] / 32 % 262144 = 0) := by rw [← hp]; omega
    have c1 : ¬(pack [(15, 512), (2, q.toNat), (2, 0), (2, s.toNat), (2, 0), (2, d.toNat), (7, 69)] / 32 % 262144 = 8) := by rw [← hp]; omega
    have e0 : _ % 32768 = 512 := pack_low hfit rfl
    have e1 : _ / 131072 % 4 = 0 := pack_slice hfit 2 rfl rfl
    have e2 : _ / 2097152 % 4 = 0 := pack_slice hfit 4 rfl rfl
    simp only [decodeOp45, c0, c1, e0, e1, e2, pack_field hfit 5 (lo := 23) rfl rfl, pack_field hfit 3 (lo := 19) rfl rfl, pack_field hfit 1 (lo := 15) rfl rfl, Nat.reduceEqDiff, reduceIte, and_self, and_false, false_and, and_true, true_and, not_false_eq_true]

theorem kzero (c : BitVec 2) : Statement (.kzero c) := by
  intro hw word enc
  have hfit : Fits [(5, 0), (10, 24), (8, 0), (2, c.toNat), (7, 69)] := ⟨by decide, by decide, by decide, c.isLt, by decide, trivial⟩
  have hc := c.isLt
  have hp : 0x8A000300 + c.toNat * 8388608 = pack [(5, 0), (10, 24), (8, 0), (2, c.toNat), (7, 69)] := by
    rw [pack_eq]
    change _ = 0 + 32 * (24 + 1024 * (0 + 256 * (c.toNat + 4 * (69))))
    omega
  refine roundTrip ?_ hfit 5 rfl rfl ?_ enc
  · exact congrArg some hp
  · rw [row45 _ (pack_slice hfit 4 rfl rfl)]
    have e0 : pack [(5, 0), (10, 24), (8, 0), (2, c.toNat), (7, 69)] / 32 % 262144 = 24 := by rw [← hp]; omega
    have e1 : pack [(5, 0), (10, 24), (8, 0), (2, c.toNat), (7, 69)] % 32768 = 768 := by rw [← hp]; omega
    have e2 : pack [(5, 0), (10, 24), (8, 0), (2, c.toNat), (7, 69)] % 8388608 = 768 := by rw [← hp]; omega
    simp only [decodeOp45, e0, e1, e2, pack_field hfit 3 (lo := 23) rfl rfl, Nat.reduceEqDiff, reduceIte, and_self, and_false, false_and, and_true, true_and, not_false_eq_true]

theorem xfer (d : BitVec 5) (a : BitVec 5) (b : BitVec 5) (t : BitVec 6) : Statement (.xfer d a b t) := by
  intro hw word enc
  have hfit : Fits [(6, t.toNat), (4, 0), (5, b.toNat), (5, a.toNat), (5, d.toNat), (7, 76)] := ⟨t.isLt, by decide, b.isLt, a.isLt, d.isLt, by decide, trivial⟩
  have hp : 0x98000000 + d.toNat * 1048576 + a.toNat * 32768 + b.toNat * 1024 + t.toNat = pack [(6, t.toNat), (4, 0), (5, b.toNat), (5, a.toNat), (5, d.toNat), (7, 76)] := by
    rw [pack_eq]
    change _ = t.toNat + 64 * (0 + 16 * (b.toNat + 32 * (a.toNat + 32 * (d.toNat + 32 * (76)))))
    omega
  refine roundTrip ?_ hfit 6 rfl rfl ?_ enc
  · exact congrArg some hp
  · rw [row4C _ (pack_slice hfit 5 rfl rfl)]
    have e0 : _ / 64 % 16 = 0 := pack_slice hfit 1 rfl rfl
    simp only [decodeOp4C, e0, pack_field hfit 4 (lo := 20) rfl rfl, pack_field hfit 3 (lo := 15) rfl rfl, pack_field hfit 2 (lo := 10) rfl rfl, pack_field hfit 0 (lo := 0) rfl rfl, Nat.reduceEqDiff, reduceIte]

theorem xgath (d : BitVec 5) (a : BitVec 5) (b : BitVec 5) (t : BitVec 6) : Statement (.xgath d a b t) := by
  intro hw word enc
  have hfit : Fits [(6, t.toNat), (4, 2), (5, b.toNat), (5, a.toNat), (5, d.toNat), (7, 76)] := ⟨t.isLt, by decide, b.isLt, a.isLt, d.isLt, by decide, trivial⟩
  have hp : 0x98000080 + d.toNat * 1048576 + a.toNat * 32768 + b.toNat * 1024 + t.toNat = pack [(6, t.toNat), (4, 2), (5, b.toNat), (5, a.toNat), (5, d.toNat), (7, 76)] := by
    rw [pack_eq]
    change _ = t.toNat + 64 * (2 + 16 * (b.toNat + 32 * (a.toNat + 32 * (d.toNat + 32 * (76)))))
    omega
  refine roundTrip ?_ hfit 6 rfl rfl ?_ enc
  · exact congrArg some hp
  · rw [row4C _ (pack_slice hfit 5 rfl rfl)]
    have e0 : _ / 64 % 16 = 2 := pack_slice hfit 1 rfl rfl
    simp only [decodeOp4C, e0, pack_field hfit 4 (lo := 20) rfl rfl, pack_field hfit 3 (lo := 15) rfl rfl, pack_field hfit 2 (lo := 10) rfl rfl, pack_field hfit 0 (lo := 0) rfl rfl, Nat.reduceEqDiff, reduceIte]

theorem xprefTr (a : BitVec 5) (b : BitVec 5) (t : BitVec 6) : Statement (.xprefTr a b t) := by
  intro hw word enc
  have hfit : Fits [(6, t.toNat), (4, 4), (5, b.toNat), (5, a.toNat), (5, 0), (7, 76)] := ⟨t.isLt, by decide, b.isLt, a.isLt, by decide, by decide, trivial⟩
  have hp : 0x98000100 + a.toNat * 32768 + b.toNat * 1024 + t.toNat = pack [(6, t.toNat), (4, 4), (5, b.toNat), (5, a.toNat), (5, 0), (7, 76)] := by
    rw [pack_eq]
    change _ = t.toNat + 64 * (4 + 16 * (b.toNat + 32 * (a.toNat + 32 * (0 + 32 * (76)))))
    omega
  refine roundTrip ?_ hfit 6 rfl rfl ?_ enc
  · exact congrArg some hp
  · rw [row4C _ (pack_slice hfit 5 rfl rfl)]
    have e0 : _ / 64 % 16 = 4 := pack_slice hfit 1 rfl rfl
    have e1 : _ / 1048576 % 32 = 0 := pack_slice hfit 4 rfl rfl
    simp only [decodeOp4C, e0, e1, pack_field hfit 3 (lo := 15) rfl rfl, pack_field hfit 2 (lo := 10) rfl rfl, pack_field hfit 0 (lo := 0) rfl rfl, Nat.reduceEqDiff, reduceIte, and_self, and_false, false_and, and_true, true_and, not_false_eq_true]

theorem xprefMg (a : BitVec 5) (b : BitVec 5) (t : BitVec 6) : Statement (.xprefMg a b t) := by
  intro hw word enc
  have hfit : Fits [(6, t.toNat), (4, 5), (5, b.toNat), (5, a.toNat), (5, 0), (7, 76)] := ⟨t.isLt, by decide, b.isLt, a.isLt, by decide, by decide, trivial⟩
  have hp : 0x98000140 + a.toNat * 32768 + b.toNat * 1024 + t.toNat = pack [(6, t.toNat), (4, 5), (5, b.toNat), (5, a.toNat), (5, 0), (7, 76)] := by
    rw [pack_eq]
    change _ = t.toNat + 64 * (5 + 16 * (b.toNat + 32 * (a.toNat + 32 * (0 + 32 * (76)))))
    omega
  refine roundTrip ?_ hfit 6 rfl rfl ?_ enc
  · exact congrArg some hp
  · rw [row4C _ (pack_slice hfit 5 rfl rfl)]
    have e0 : _ / 64 % 16 = 5 := pack_slice hfit 1 rfl rfl
    have e1 : _ / 1048576 % 32 = 0 := pack_slice hfit 4 rfl rfl
    simp only [decodeOp4C, e0, e1, pack_field hfit 3 (lo := 15) rfl rfl, pack_field hfit 2 (lo := 10) rfl rfl, pack_field hfit 0 (lo := 0) rfl rfl, Nat.reduceEqDiff, reduceIte, and_self, and_false, false_and, and_true, true_and, not_false_eq_true]

theorem xprefTq (d : BitVec 5) (a : BitVec 5) : Statement (.xprefTq d a) := by
  intro hw word enc
  have hd0 : d.toNat ≠ 0 := fun h0 => bne_iff_ne.mp hw (BitVec.eq_of_toNat_eq h0)
  have hfit : Fits [(6, 0), (4, 4), (5, 0), (5, a.toNat), (5, d.toNat), (7, 76)] := ⟨by decide, by decide, by decide, a.isLt, d.isLt, by decide, trivial⟩
  have hd := d.isLt; have ha := a.isLt
  have hp : 0x98000100 + d.toNat * 1048576 + a.toNat * 32768 = pack [(6, 0), (4, 4), (5, 0), (5, a.toNat), (5, d.toNat), (7, 76)] := by
    rw [pack_eq]
    change _ = 0 + 64 * (4 + 16 * (0 + 32 * (a.toNat + 32 * (d.toNat + 32 * (76)))))
    omega
  refine roundTrip ?_ hfit 6 rfl rfl ?_ enc
  · exact congrArg some hp
  · rw [row4C _ (pack_slice hfit 5 rfl rfl)]
    have c2 : ¬(pack [(6, 0), (4, 4), (5, 0), (5, a.toNat), (5, d.toNat), (7, 76)] / 1048576 % 32 = 0) := by rw [← hp]; omega
    have e0 : _ / 64 % 16 = 4 := pack_slice hfit 1 rfl rfl
    have e1 : pack [(6, 0), (4, 4), (5, 0), (5, a.toNat), (5, d.toNat), (7, 76)] % 32768 = 256 := by rw [← hp]; omega
    simp only [decodeOp4C, c2, e0, e1, pack_field hfit 4 (lo := 20) rfl rfl, pack_field hfit 3 (lo := 15) rfl rfl, Nat.reduceEqDiff, reduceIte, and_self, and_false, false_and, and_true, true_and, not_false_eq_true]

theorem xwaitAll (d : BitVec 5) (a : BitVec 5) : Statement (.xwaitAll d a) := by
  intro hw word enc
  have hfit : Fits [(15, 0), (5, a.toNat), (5, d.toNat), (7, 77)] := ⟨by decide, a.isLt, d.isLt, by decide, trivial⟩
  have hp : 0x9A000000 + d.toNat * 1048576 + a.toNat * 32768 = pack [(15, 0), (5, a.toNat), (5, d.toNat), (7, 77)] := by
    rw [pack_eq]
    change _ = 0 + 32768 * (a.toNat + 32 * (d.toNat + 32 * (77)))
    omega
  refine roundTrip ?_ hfit 4 rfl rfl ?_ enc
  · exact congrArg some hp
  · rw [row4D _ (pack_slice hfit 3 rfl rfl)]
    have e0 : _ % 32768 = 0 := pack_low hfit rfl
    simp only [decodeOp4D, e0, pack_field hfit 2 (lo := 20) rfl rfl, pack_field hfit 1 (lo := 15) rfl rfl, Nat.reduceEqDiff, reduceIte]

theorem xwaitAny (d : BitVec 5) (a : BitVec 5) : Statement (.xwaitAny d a) := by
  intro hw word enc
  have hfit : Fits [(15, 1), (5, a.toNat), (5, d.toNat), (7, 77)] := ⟨by decide, a.isLt, d.isLt, by decide, trivial⟩
  have hp : 0x9A000001 + d.toNat * 1048576 + a.toNat * 32768 = pack [(15, 1), (5, a.toNat), (5, d.toNat), (7, 77)] := by
    rw [pack_eq]
    change _ = 1 + 32768 * (a.toNat + 32 * (d.toNat + 32 * (77)))
    omega
  refine roundTrip ?_ hfit 4 rfl rfl ?_ enc
  · exact congrArg some hp
  · rw [row4D _ (pack_slice hfit 3 rfl rfl)]
    have e0 : _ % 32768 = 1 := pack_low hfit rfl
    simp only [decodeOp4D, e0, pack_field hfit 2 (lo := 20) rfl rfl, pack_field hfit 1 (lo := 15) rfl rfl, Nat.reduceEqDiff, reduceIte]

theorem xfind (d : BitVec 5) (a : BitVec 5) : Statement (.xfind d a) := by
  intro hw word enc
  have hfit : Fits [(15, 128), (5, a.toNat), (5, d.toNat), (7, 77)] := ⟨by decide, a.isLt, d.isLt, by decide, trivial⟩
  have hp : 0x9A000080 + d.toNat * 1048576 + a.toNat * 32768 = pack [(15, 128), (5, a.toNat), (5, d.toNat), (7, 77)] := by
    rw [pack_eq]
    change _ = 128 + 32768 * (a.toNat + 32 * (d.toNat + 32 * (77)))
    omega
  refine roundTrip ?_ hfit 4 rfl rfl ?_ enc
  · exact congrArg some hp
  · rw [row4D _ (pack_slice hfit 3 rfl rfl)]
    have e0 : _ % 32768 = 128 := pack_low hfit rfl
    simp only [decodeOp4D, e0, pack_field hfit 2 (lo := 20) rfl rfl, pack_field hfit 1 (lo := 15) rfl rfl, Nat.reduceEqDiff, reduceIte]

theorem sbind (s : BitVec 3) (a : BitVec 5) (c : BitVec 5) : Statement (.sbind s a c) := by
  intro hw word enc
  have hfit : Fits [(10, 0), (5, c.toNat), (5, a.toNat), (3, s.toNat), (2, 0), (7, 78)] := ⟨by decide, c.isLt, a.isLt, s.isLt, by decide, by decide, trivial⟩
  have hp : 0x9C000000 + s.toNat * 1048576 + a.toNat * 32768 + c.toNat * 1024 = pack [(10, 0), (5, c.toNat), (5, a.toNat), (3, s.toNat), (2, 0), (7, 78)] := by
    rw [pack_eq]
    change _ = 0 + 1024 * (c.toNat + 32 * (a.toNat + 32 * (s.toNat + 8 * (0 + 4 * (78)))))
    omega
  refine roundTrip ?_ hfit 6 rfl rfl ?_ enc
  · exact congrArg some hp
  · rw [row4E _ (pack_slice hfit 5 rfl rfl)]
    have e0 : _ % 1024 = 0 := pack_low hfit rfl
    have e1 : _ / 8388608 % 4 = 0 := pack_slice hfit 4 rfl rfl
    simp only [decodeOp4E, e0, e1, pack_field hfit 3 (lo := 20) rfl rfl, pack_field hfit 2 (lo := 15) rfl rfl, pack_field hfit 1 (lo := 10) rfl rfl, Nat.reduceEqDiff, reduceIte, and_self, and_false, false_and, and_true, true_and, not_false_eq_true]

theorem sclose (s : BitVec 3) : Statement (.sclose s) := by
  intro hw word enc
  have hfit : Fits [(10, 128), (10, 0), (3, s.toNat), (2, 0), (7, 78)] := ⟨by decide, by decide, s.isLt, by decide, by decide, trivial⟩
  have hs := s.isLt
  have hp : 0x9C000080 + s.toNat * 1048576 = pack [(10, 128), (10, 0), (3, s.toNat), (2, 0), (7, 78)] := by
    rw [pack_eq]
    change _ = 128 + 1024 * (0 + 1024 * (s.toNat + 8 * (0 + 4 * (78))))
    omega
  refine roundTrip ?_ hfit 5 rfl rfl ?_ enc
  · exact congrArg some hp
  · rw [row4E _ (pack_slice hfit 4 rfl rfl)]
    have e0 : _ % 1024 = 128 := pack_low hfit rfl
    have e1 : pack [(10, 128), (10, 0), (3, s.toNat), (2, 0), (7, 78)] % 1048576 = 128 := by rw [← hp]; omega
    have e2 : _ / 8388608 % 4 = 0 := pack_slice hfit 3 rfl rfl
    simp only [decodeOp4E, e0, e1, e2, pack_field hfit 2 (lo := 20) rfl rfl, Nat.reduceEqDiff, reduceIte, and_self, and_false, false_and, and_true, true_and, not_false_eq_true]

theorem send (t : BitVec 5) (v : BitVec 5) (q : BitVec 4) : Statement (.send t v q) := by
  intro hw word enc
  have hfit : Fits [(4, q.toNat), (6, 0), (5, v.toNat), (5, t.toNat), (5, 0), (7, 80)] := ⟨q.isLt, by decide, v.isLt, t.isLt, by decide, by decide, trivial⟩
  have hp : 0xA0000000 + t.toNat * 32768 + v.toNat * 1024 + q.toNat = pack [(4, q.toNat), (6, 0), (5, v.toNat), (5, t.toNat), (5, 0), (7, 80)] := by
    rw [pack_eq]
    change _ = q.toNat + 16 * (0 + 64 * (v.toNat + 32 * (t.toNat + 32 * (0 + 32 * (80)))))
    omega
  refine roundTrip ?_ hfit 6 rfl rfl ?_ enc
  · exact congrArg some hp
  · rw [row50 _ (pack_slice hfit 5 rfl rfl)]
    have e0 : _ / 16 % 64 = 0 := pack_slice hfit 1 rfl rfl
    have e1 : _ / 1048576 % 32 = 0 := pack_slice hfit 4 rfl rfl
    simp only [decodeOp50, e0, e1, pack_field hfit 3 (lo := 15) rfl rfl, pack_field hfit 2 (lo := 10) rfl rfl, pack_field hfit 0 (lo := 0) rfl rfl, Nat.reduceEqDiff, reduceIte, and_self, and_false, false_and, and_true, true_and, not_false_eq_true]

theorem sendv (t : BitVec 5) (v : BitVec 5) (q : BitVec 4) : Statement (.sendv t v q) := by
  intro hw word enc
  have hfit : Fits [(4, q.toNat), (6, 8), (5, v.toNat), (5, t.toNat), (5, 0), (7, 80)] := ⟨q.isLt, by decide, v.isLt, t.isLt, by decide, by decide, trivial⟩
  have hp : 0xA0000080 + t.toNat * 32768 + v.toNat * 1024 + q.toNat = pack [(4, q.toNat), (6, 8), (5, v.toNat), (5, t.toNat), (5, 0), (7, 80)] := by
    rw [pack_eq]
    change _ = q.toNat + 16 * (8 + 64 * (v.toNat + 32 * (t.toNat + 32 * (0 + 32 * (80)))))
    omega
  refine roundTrip ?_ hfit 6 rfl rfl ?_ enc
  · exact congrArg some hp
  · rw [row50 _ (pack_slice hfit 5 rfl rfl)]
    have e0 : _ / 16 % 64 = 8 := pack_slice hfit 1 rfl rfl
    have e1 : _ / 1048576 % 32 = 0 := pack_slice hfit 4 rfl rfl
    simp only [decodeOp50, e0, e1, pack_field hfit 3 (lo := 15) rfl rfl, pack_field hfit 2 (lo := 10) rfl rfl, pack_field hfit 0 (lo := 0) rfl rfl, Nat.reduceEqDiff, reduceIte, and_self, and_false, false_and, and_true, true_and, not_false_eq_true]

theorem recv (d : BitVec 5) (q : BitVec 4) : Statement (.recv d q) := by
  intro hw word enc
  have hfit : Fits [(4, q.toNat), (16, 0), (5, d.toNat), (7, 81)] := ⟨q.isLt, by decide, d.isLt, by decide, trivial⟩
  have hp : 0xA2000000 + d.toNat * 1048576 + q.toNat = pack [(4, q.toNat), (16, 0), (5, d.toNat), (7, 81)] := by
    rw [pack_eq]
    change _ = q.toNat + 16 * (0 + 65536 * (d.toNat + 32 * (81)))
    omega
  refine roundTrip ?_ hfit 4 rfl rfl ?_ enc
  · exact congrArg some hp
  · rw [row51 _ (pack_slice hfit 3 rfl rfl)]
    have e0 : _ / 16 % 65536 = 0 := pack_slice hfit 1 rfl rfl
    simp only [decodeOp51, e0, pack_field hfit 2 (lo := 20) rfl rfl, pack_field hfit 0 (lo := 0) rfl rfl, Nat.reduceEqDiff, reduceIte]

theorem recvV (d : BitVec 5) (q : BitVec 4) : Statement (.recvV d q) := by
  intro hw word enc
  have hfit : Fits [(4, q.toNat), (16, 4), (5, d.toNat), (7, 81)] := ⟨q.isLt, by decide, d.isLt, by decide, trivial⟩
  have hp : 0xA2000040 + d.toNat * 1048576 + q.toNat = pack [(4, q.toNat), (16, 4), (5, d.toNat), (7, 81)] := by
    rw [pack_eq]
    change _ = q.toNat + 16 * (4 + 65536 * (d.toNat + 32 * (81)))
    omega
  refine roundTrip ?_ hfit 4 rfl rfl ?_ enc
  · exact congrArg some hp
  · rw [row51 _ (pack_slice hfit 3 rfl rfl)]
    have e0 : _ / 16 % 65536 = 4 := pack_slice hfit 1 rfl rfl
    simp only [decodeOp51, e0, pack_field hfit 2 (lo := 20) rfl rfl, pack_field hfit 0 (lo := 0) rfl rfl, Nat.reduceEqDiff, reduceIte]

theorem qclr (a : BitVec 5) : Statement (.qclr a) := by
  intro hw word enc
  have hfit : Fits [(15, 128), (5, a.toNat), (5, 0), (7, 81)] := ⟨by decide, a.isLt, by decide, by decide, trivial⟩
  have ha := a.isLt
  have hp : 0xA2000080 + a.toNat * 32768 = pack [(15, 128), (5, a.toNat), (5, 0), (7, 81)] := by
    rw [pack_eq]
    change _ = 128 + 32768 * (a.toNat + 32 * (0 + 32 * (81)))
    omega
  refine roundTrip ?_ hfit 4 rfl rfl ?_ enc
  · exact congrArg some hp
  · rw [row51 _ (pack_slice hfit 3 rfl rfl)]
    have c0 : ¬(pack [(15, 128), (5, a.toNat), (5, 0), (7, 81)] / 16 % 65536 = 0) := by rw [← hp]; omega
    have c1 : ¬(pack [(15, 128), (5, a.toNat), (5, 0), (7, 81)] / 16 % 65536 = 4) := by rw [← hp]; omega
    have e0 : _ % 32768 = 128 := pack_low hfit rfl
    have e1 : _ / 1048576 % 32 = 0 := pack_slice hfit 2 rfl rfl
    simp only [decodeOp51, c0, c1, e0, e1, pack_field hfit 1 (lo := 15) rfl rfl, Nat.reduceEqDiff, reduceIte, and_self, and_false, false_and, and_true, true_and, not_false_eq_true]

theorem xphase : Statement (.xphase) := by
  intro hw word enc
  have hfit : Fits [(25, 0), (7, 82)] := ⟨by decide, by decide, trivial⟩
  have hp : 0xA4000000 = pack [(25, 0), (7, 82)] := by
    rw [pack_eq]
    change _ = 0 + 33554432 * (82)
    omega
  refine roundTrip ?_ hfit 2 rfl rfl ?_ enc
  · exact congrArg some hp
  · rw [row52 _ (pack_slice hfit 1 rfl rfl)]
    have e0 : _ % 33554432 = 0 := pack_low hfit rfl
    simp only [decodeOp52, e0, Nat.reduceEqDiff, reduceIte]

theorem sstep : Statement (.sstep) := by
  intro hw word enc
  have hfit : Fits [(25, 128), (7, 82)] := ⟨by decide, by decide, trivial⟩
  have hp : 0xA4000080 = pack [(25, 128), (7, 82)] := by
    rw [pack_eq]
    change _ = 128 + 33554432 * (82)
    omega
  refine roundTrip ?_ hfit 2 rfl rfl ?_ enc
  · exact congrArg some hp
  · rw [row52 _ (pack_slice hfit 1 rfl rfl)]
    have e0 : _ % 33554432 = 128 := pack_low hfit rfl
    simp only [decodeOp52, e0, Nat.reduceEqDiff, reduceIte]

theorem arrive (n : BitVec 2) : Statement (.arrive n) := by
  intro hw word enc
  have hfit : Fits [(2, n.toNat), (23, 0), (7, 83)] := ⟨n.isLt, by decide, by decide, trivial⟩
  have hp : 0xA6000000 + n.toNat = pack [(2, n.toNat), (23, 0), (7, 83)] := by
    rw [pack_eq]
    change _ = n.toNat + 4 * (0 + 8388608 * (83))
    omega
  refine roundTrip ?_ hfit 3 rfl rfl ?_ enc
  · exact congrArg some hp
  · rw [row53 _ (pack_slice hfit 2 rfl rfl)]
    have e0 : _ / 4 % 8388608 = 0 := pack_slice hfit 1 rfl rfl
    simp only [decodeOp53, e0, pack_field hfit 0 (lo := 0) rfl rfl, Nat.reduceEqDiff, reduceIte]

theorem arriveRel (n : BitVec 2) : Statement (.arriveRel n) := by
  intro hw word enc
  have hfit : Fits [(2, n.toNat), (23, 16), (7, 83)] := ⟨n.isLt, by decide, by decide, trivial⟩
  have hp : 0xA6000040 + n.toNat = pack [(2, n.toNat), (23, 16), (7, 83)] := by
    rw [pack_eq]
    change _ = n.toNat + 4 * (16 + 8388608 * (83))
    omega
  refine roundTrip ?_ hfit 3 rfl rfl ?_ enc
  · exact congrArg some hp
  · rw [row53 _ (pack_slice hfit 2 rfl rfl)]
    have e0 : _ / 4 % 8388608 = 16 := pack_slice hfit 1 rfl rfl
    simp only [decodeOp53, e0, pack_field hfit 0 (lo := 0) rfl rfl, Nat.reduceEqDiff, reduceIte]

theorem wait (n : BitVec 2) : Statement (.wait n) := by
  intro hw word enc
  have hfit : Fits [(2, n.toNat), (23, 32), (7, 83)] := ⟨n.isLt, by decide, by decide, trivial⟩
  have hp : 0xA6000080 + n.toNat = pack [(2, n.toNat), (23, 32), (7, 83)] := by
    rw [pack_eq]
    change _ = n.toNat + 4 * (32 + 8388608 * (83))
    omega
  refine roundTrip ?_ hfit 3 rfl rfl ?_ enc
  · exact congrArg some hp
  · rw [row53 _ (pack_slice hfit 2 rfl rfl)]
    have e0 : _ / 4 % 8388608 = 32 := pack_slice hfit 1 rfl rfl
    simp only [decodeOp53, e0, pack_field hfit 0 (lo := 0) rfl rfl, Nat.reduceEqDiff, reduceIte]

theorem waitAcq (n : BitVec 2) : Statement (.waitAcq n) := by
  intro hw word enc
  have hfit : Fits [(2, n.toNat), (23, 48), (7, 83)] := ⟨n.isLt, by decide, by decide, trivial⟩
  have hp : 0xA60000C0 + n.toNat = pack [(2, n.toNat), (23, 48), (7, 83)] := by
    rw [pack_eq]
    change _ = n.toNat + 4 * (48 + 8388608 * (83))
    omega
  refine roundTrip ?_ hfit 3 rfl rfl ?_ enc
  · exact congrArg some hp
  · rw [row53 _ (pack_slice hfit 2 rfl rfl)]
    have e0 : _ / 4 % 8388608 = 48 := pack_slice hfit 1 rfl rfl
    simp only [decodeOp53, e0, pack_field hfit 0 (lo := 0) rfl rfl, Nat.reduceEqDiff, reduceIte]

theorem bvote (d : BitVec 5) (a : BitVec 5) (n : BitVec 2) : Statement (.bvote d a n) := by
  intro hw word enc
  have hfit : Fits [(2, n.toNat), (13, 64), (5, a.toNat), (5, d.toNat), (7, 83)] := ⟨n.isLt, by decide, a.isLt, d.isLt, by decide, trivial⟩
  have hd := d.isLt; have ha := a.isLt; have hn := n.isLt
  have hp : 0xA6000100 + d.toNat * 1048576 + a.toNat * 32768 + n.toNat = pack [(2, n.toNat), (13, 64), (5, a.toNat), (5, d.toNat), (7, 83)] := by
    rw [pack_eq]
    change _ = n.toNat + 4 * (64 + 8192 * (a.toNat + 32 * (d.toNat + 32 * (83))))
    omega
  refine roundTrip ?_ hfit 5 rfl rfl ?_ enc
  · exact congrArg some hp
  · rw [row53 _ (pack_slice hfit 4 rfl rfl)]
    have c0 : ¬(pack [(2, n.toNat), (13, 64), (5, a.toNat), (5, d.toNat), (7, 83)] / 4 % 8388608 = 0) := by rw [← hp]; omega
    have c1 : ¬(pack [(2, n.toNat), (13, 64), (5, a.toNat), (5, d.toNat), (7, 83)] / 4 % 8388608 = 16) := by rw [← hp]; omega
    have c2 : ¬(pack [(2, n.toNat), (13, 64), (5, a.toNat), (5, d.toNat), (7, 83)] / 4 % 8388608 = 32) := by rw [← hp]; omega
    have c3 : ¬(pack [(2, n.toNat), (13, 64), (5, a.toNat), (5, d.toNat), (7, 83)] / 4 % 8388608 = 48) := by rw [← hp]; omega
    have e0 : _ / 4 % 8192 = 64 := pack_slice hfit 1 rfl rfl
    simp only [decodeOp53, c0, c1, c2, c3, e0, pack_field hfit 3 (lo := 20) rfl rfl, pack_field hfit 2 (lo := 15) rfl rfl, pack_field hfit 0 (lo := 0) rfl rfl, Nat.reduceEqDiff, reduceIte]

theorem spawn (c : BitVec 4) (f : BitVec 4) (j : BitVec 4) : Statement (.spawn c f j) := by
  intro hw word enc
  have hfit : Fits [(10, 0), (4, j.toNat), (1, 0), (4, f.toNat), (1, 0), (4, c.toNat), (1, 0), (7, 84)] := ⟨by decide, j.isLt, by decide, f.isLt, by decide, c.isLt, by decide, by decide, trivial⟩
  have hp : 0xA8000000 + c.toNat * 1048576 + f.toNat * 32768 + j.toNat * 1024 = pack [(10, 0), (4, j.toNat), (1, 0), (4, f.toNat), (1, 0), (4, c.toNat), (1, 0), (7, 84)] := by
    rw [pack_eq]
    change _ = 0 + 1024 * (j.toNat + 16 * (0 + 2 * (f.toNat + 16 * (0 + 2 * (c.toNat + 16 * (0 + 2 * (84)))))))
    omega
  refine roundTrip ?_ hfit 8 rfl rfl ?_ enc
  · exact congrArg some hp
  · rw [row54 _ (pack_slice hfit 7 rfl rfl)]
    have e0 : _ % 1024 = 0 := pack_low hfit rfl
    have e1 : _ / 16384 % 2 = 0 := pack_slice hfit 2 rfl rfl
    have e2 : _ / 524288 % 2 = 0 := pack_slice hfit 4 rfl rfl
    have e3 : _ / 16777216 % 2 = 0 := pack_slice hfit 6 rfl rfl
    simp only [decodeOp54, e0, e1, e2, e3, pack_field hfit 5 (lo := 20) rfl rfl, pack_field hfit 3 (lo := 15) rfl rfl, pack_field hfit 1 (lo := 10) rfl rfl, Nat.reduceEqDiff, reduceIte, and_self, and_false, false_and, and_true, true_and, not_false_eq_true]

theorem take (c : BitVec 4) (f : BitVec 4) (j : BitVec 4) : Statement (.take c f j) := by
  intro hw word enc
  have hfit : Fits [(10, 128), (4, j.toNat), (1, 0), (4, f.toNat), (1, 0), (4, c.toNat), (1, 0), (7, 84)] := ⟨by decide, j.isLt, by decide, f.isLt, by decide, c.isLt, by decide, by decide, trivial⟩
  have hp : 0xA8000080 + c.toNat * 1048576 + f.toNat * 32768 + j.toNat * 1024 = pack [(10, 128), (4, j.toNat), (1, 0), (4, f.toNat), (1, 0), (4, c.toNat), (1, 0), (7, 84)] := by
    rw [pack_eq]
    change _ = 128 + 1024 * (j.toNat + 16 * (0 + 2 * (f.toNat + 16 * (0 + 2 * (c.toNat + 16 * (0 + 2 * (84)))))))
    omega
  refine roundTrip ?_ hfit 8 rfl rfl ?_ enc
  · exact congrArg some hp
  · rw [row54 _ (pack_slice hfit 7 rfl rfl)]
    have e0 : _ % 1024 = 128 := pack_low hfit rfl
    have e1 : _ / 16384 % 2 = 0 := pack_slice hfit 2 rfl rfl
    have e2 : _ / 524288 % 2 = 0 := pack_slice hfit 4 rfl rfl
    have e3 : _ / 16777216 % 2 = 0 := pack_slice hfit 6 rfl rfl
    simp only [decodeOp54, e0, e1, e2, e3, pack_field hfit 5 (lo := 20) rfl rfl, pack_field hfit 3 (lo := 15) rfl rfl, pack_field hfit 1 (lo := 10) rfl rfl, Nat.reduceEqDiff, reduceIte, and_self, and_false, false_and, and_true, true_and, not_false_eq_true]

theorem join (j : BitVec 4) : Statement (.join j) := by
  intro hw word enc
  have hfit : Fits [(10, 256), (5, 0), (4, j.toNat), (6, 0), (7, 84)] := ⟨by decide, by decide, j.isLt, by decide, by decide, trivial⟩
  have hj := j.isLt
  have hp : 0xA8000100 + j.toNat * 32768 = pack [(10, 256), (5, 0), (4, j.toNat), (6, 0), (7, 84)] := by
    rw [pack_eq]
    change _ = 256 + 1024 * (0 + 32 * (j.toNat + 16 * (0 + 64 * (84))))
    omega
  refine roundTrip ?_ hfit 5 rfl rfl ?_ enc
  · exact congrArg some hp
  · rw [row54 _ (pack_slice hfit 4 rfl rfl)]
    have e0 : _ % 1024 = 256 := pack_low hfit rfl
    have e1 : pack [(10, 256), (5, 0), (4, j.toNat), (6, 0), (7, 84)] % 32768 = 256 := by rw [← hp]; omega
    have e2 : _ / 524288 % 64 = 0 := pack_slice hfit 3 rfl rfl
    simp only [decodeOp54, e0, e1, e2, pack_field hfit 2 (lo := 15) rfl rfl, Nat.reduceEqDiff, reduceIte, and_self, and_false, false_and, and_true, true_and, not_false_eq_true]

theorem qpost (d : BitVec 5) (a : BitVec 5) (p : BitVec 4) : Statement (.qpost d a p) := by
  intro hw word enc
  have hfit : Fits [(10, 0), (4, p.toNat), (1, 0), (5, a.toNat), (5, d.toNat), (7, 85)] := ⟨by decide, p.isLt, by decide, a.isLt, d.isLt, by decide, trivial⟩
  have hp : 0xAA000000 + d.toNat * 1048576 + a.toNat * 32768 + p.toNat * 1024 = pack [(10, 0), (4, p.toNat), (1, 0), (5, a.toNat), (5, d.toNat), (7, 85)] := by
    rw [pack_eq]
    change _ = 0 + 1024 * (p.toNat + 16 * (0 + 2 * (a.toNat + 32 * (d.toNat + 32 * (85)))))
    omega
  refine roundTrip ?_ hfit 6 rfl rfl ?_ enc
  · exact congrArg some hp
  · rw [row55 _ (pack_slice hfit 5 rfl rfl)]
    have e0 : _ % 1024 = 0 := pack_low hfit rfl
    have e1 : _ / 16384 % 2 = 0 := pack_slice hfit 2 rfl rfl
    simp only [decodeOp55, e0, e1, pack_field hfit 4 (lo := 20) rfl rfl, pack_field hfit 3 (lo := 15) rfl rfl, pack_field hfit 1 (lo := 10) rfl rfl, Nat.reduceEqDiff, reduceIte, and_self, and_false, false_and, and_true, true_and, not_false_eq_true]

theorem rds (d : BitVec 5) (i : BitVec 12) : Statement (.rds d i) := by
  intro hw word enc
  have hfit : Fits [(12, i.toNat), (8, 0), (5, d.toNat), (7, 88)] := ⟨i.isLt, by decide, d.isLt, by decide, trivial⟩
  have hp : 0xB0000000 + d.toNat * 1048576 + i.toNat = pack [(12, i.toNat), (8, 0), (5, d.toNat), (7, 88)] := by
    rw [pack_eq]
    change _ = i.toNat + 4096 * (0 + 256 * (d.toNat + 32 * (88)))
    omega
  refine roundTrip ?_ hfit 4 rfl rfl ?_ enc
  · exact congrArg some hp
  · rw [row58 _ (pack_slice hfit 3 rfl rfl)]
    have e0 : _ / 4096 % 256 = 0 := pack_slice hfit 1 rfl rfl
    simp only [decodeOp58, e0, pack_field hfit 2 (lo := 20) rfl rfl, pack_field hfit 0 (lo := 0) rfl rfl, Nat.reduceEqDiff, reduceIte]

theorem wrs (a : BitVec 5) (i : BitVec 12) : Statement (.wrs a i) := by
  intro hw word enc
  have hfit : Fits [(12, i.toNat), (3, 1), (5, a.toNat), (5, 0), (7, 88)] := ⟨i.isLt, by decide, a.isLt, by decide, by decide, trivial⟩
  have ha := a.isLt; have hi := i.isLt
  have hp : 0xB0001000 + a.toNat * 32768 + i.toNat = pack [(12, i.toNat), (3, 1), (5, a.toNat), (5, 0), (7, 88)] := by
    rw [pack_eq]
    change _ = i.toNat + 4096 * (1 + 8 * (a.toNat + 32 * (0 + 32 * (88))))
    omega
  refine roundTrip ?_ hfit 5 rfl rfl ?_ enc
  · exact congrArg some hp
  · rw [row58 _ (pack_slice hfit 4 rfl rfl)]
    have c0 : ¬(pack [(12, i.toNat), (3, 1), (5, a.toNat), (5, 0), (7, 88)] / 4096 % 256 = 0) := by rw [← hp]; omega
    have e0 : _ / 4096 % 8 = 1 := pack_slice hfit 1 rfl rfl
    have e1 : _ / 1048576 % 32 = 0 := pack_slice hfit 3 rfl rfl
    simp only [decodeOp58, c0, e0, e1, pack_field hfit 2 (lo := 15) rfl rfl, pack_field hfit 0 (lo := 0) rfl rfl, Nat.reduceEqDiff, reduceIte, and_self, and_false, false_and, and_true, true_and, not_false_eq_true]

theorem trap (c : BitVec 12) : Statement (.trap c) := by
  intro hw word enc
  have hfit : Fits [(12, c.toNat), (13, 0), (7, 89)] := ⟨c.isLt, by decide, by decide, trivial⟩
  have hp : 0xB2000000 + c.toNat = pack [(12, c.toNat), (13, 0), (7, 89)] := by
    rw [pack_eq]
    change _ = c.toNat + 4096 * (0 + 8192 * (89))
    omega
  refine roundTrip ?_ hfit 3 rfl rfl ?_ enc
  · exact congrArg some hp
  · rw [row59 _ (pack_slice hfit 2 rfl rfl)]
    have e0 : _ / 4096 % 8192 = 0 := pack_slice hfit 1 rfl rfl
    simp only [decodeOp59, e0, pack_field hfit 0 (lo := 0) rfl rfl, Nat.reduceEqDiff, reduceIte]

theorem eret : Statement (.eret) := by
  intro hw word enc
  have hfit : Fits [(12, 0), (13, 1), (7, 89)] := ⟨by decide, by decide, by decide, trivial⟩
  have hp : 0xB2001000 = pack [(12, 0), (13, 1), (7, 89)] := by
    rw [pack_eq]
    change _ = 0 + 4096 * (1 + 8192 * (89))
    omega
  refine roundTrip ?_ hfit 3 rfl rfl ?_ enc
  · exact congrArg some hp
  · rw [row59 _ (pack_slice hfit 2 rfl rfl)]
    have e0 : _ / 4096 % 8192 = 1 := pack_slice hfit 1 rfl rfl
    have e1 : pack [(12, 0), (13, 1), (7, 89)] % 33554432 = 4096 := by rw [pack_eq]; decide
    simp only [decodeOp59, e0, e1, Nat.reduceEqDiff, reduceIte]

theorem wfi : Statement (.wfi) := by
  intro hw word enc
  have hfit : Fits [(12, 0), (13, 2), (7, 89)] := ⟨by decide, by decide, by decide, trivial⟩
  have hp : 0xB2002000 = pack [(12, 0), (13, 2), (7, 89)] := by
    rw [pack_eq]
    change _ = 0 + 4096 * (2 + 8192 * (89))
    omega
  refine roundTrip ?_ hfit 3 rfl rfl ?_ enc
  · exact congrArg some hp
  · rw [row59 _ (pack_slice hfit 2 rfl rfl)]
    have e0 : _ / 4096 % 8192 = 2 := pack_slice hfit 1 rfl rfl
    have e1 : pack [(12, 0), (13, 2), (7, 89)] % 33554432 = 8192 := by rw [pack_eq]; decide
    simp only [decodeOp59, e0, e1, Nat.reduceEqDiff, reduceIte]

theorem brk (c : BitVec 12) : Statement (.brk c) := by
  intro hw word enc
  have hfit : Fits [(12, c.toNat), (13, 3), (7, 89)] := ⟨c.isLt, by decide, by decide, trivial⟩
  have hc := c.isLt
  have hp : 0xB2003000 + c.toNat = pack [(12, c.toNat), (13, 3), (7, 89)] := by
    rw [pack_eq]
    change _ = c.toNat + 4096 * (3 + 8192 * (89))
    omega
  refine roundTrip ?_ hfit 3 rfl rfl ?_ enc
  · exact congrArg some hp
  · rw [row59 _ (pack_slice hfit 2 rfl rfl)]
    have c1 : ¬(pack [(12, c.toNat), (13, 3), (7, 89)] % 33554432 = 4096) := by rw [← hp]; omega
    have c2 : ¬(pack [(12, c.toNat), (13, 3), (7, 89)] % 33554432 = 8192) := by rw [← hp]; omega
    have e0 : _ / 4096 % 8192 = 3 := pack_slice hfit 1 rfl rfl
    simp only [decodeOp59, c1, c2, e0, pack_field hfit 0 (lo := 0) rfl rfl, Nat.reduceEqDiff, reduceIte]

theorem sfence (a : BitVec 5) (b : BitVec 5) : Statement (.sfence a b) := by
  intro hw word enc
  have hfit : Fits [(10, 0), (5, b.toNat), (5, a.toNat), (5, 0), (7, 90)] := ⟨by decide, b.isLt, a.isLt, by decide, by decide, trivial⟩
  have hp : 0xB4000000 + a.toNat * 32768 + b.toNat * 1024 = pack [(10, 0), (5, b.toNat), (5, a.toNat), (5, 0), (7, 90)] := by
    rw [pack_eq]
    change _ = 0 + 1024 * (b.toNat + 32 * (a.toNat + 32 * (0 + 32 * (90))))
    omega
  refine roundTrip ?_ hfit 5 rfl rfl ?_ enc
  · exact congrArg some hp
  · rw [row5A _ (pack_slice hfit 4 rfl rfl)]
    have e0 : _ % 1024 = 0 := pack_low hfit rfl
    have e1 : _ / 1048576 % 32 = 0 := pack_slice hfit 3 rfl rfl
    simp only [decodeOp5A, e0, e1, pack_field hfit 2 (lo := 15) rfl rfl, pack_field hfit 1 (lo := 10) rfl rfl, Nat.reduceEqDiff, reduceIte, and_self, and_false, false_and, and_true, true_and, not_false_eq_true]

theorem cdrain : Statement (.cdrain) := by
  intro hw word enc
  have hfit : Fits [(25, 0), (7, 91)] := ⟨by decide, by decide, trivial⟩
  have hp : 0xB6000000 = pack [(25, 0), (7, 91)] := by
    rw [pack_eq]
    change _ = 0 + 33554432 * (91)
    omega
  refine roundTrip ?_ hfit 2 rfl rfl ?_ enc
  · exact congrArg some hp
  · rw [row5B _ (pack_slice hfit 1 rfl rfl)]
    have e0 : _ % 33554432 = 0 := pack_low hfit rfl
    simp only [decodeOp5B, e0, Nat.reduceEqDiff, reduceIte]

theorem cxsave (p : BitVec 4) : Statement (.cxsave p) := by
  intro hw word enc
  have hfit : Fits [(20, 0), (4, p.toNat), (1, 0), (7, 92)] := ⟨by decide, p.isLt, by decide, by decide, trivial⟩
  have hp : 0xB8000000 + p.toNat * 1048576 = pack [(20, 0), (4, p.toNat), (1, 0), (7, 92)] := by
    rw [pack_eq]
    change _ = 0 + 1048576 * (p.toNat + 16 * (0 + 2 * (92)))
    omega
  refine roundTrip ?_ hfit 4 rfl rfl ?_ enc
  · exact congrArg some hp
  · rw [row5C _ (pack_slice hfit 3 rfl rfl)]
    have e0 : _ % 1048576 = 0 := pack_low hfit rfl
    have e1 : _ / 16777216 % 2 = 0 := pack_slice hfit 2 rfl rfl
    simp only [decodeOp5C, e0, e1, pack_field hfit 1 (lo := 20) rfl rfl, Nat.reduceEqDiff, reduceIte, and_self, and_false, false_and, and_true, true_and, not_false_eq_true]

theorem cxload (p : BitVec 4) : Statement (.cxload p) := by
  intro hw word enc
  have hfit : Fits [(20, 1), (4, p.toNat), (1, 0), (7, 92)] := ⟨by decide, p.isLt, by decide, by decide, trivial⟩
  have hp : 0xB8000001 + p.toNat * 1048576 = pack [(20, 1), (4, p.toNat), (1, 0), (7, 92)] := by
    rw [pack_eq]
    change _ = 1 + 1048576 * (p.toNat + 16 * (0 + 2 * (92)))
    omega
  refine roundTrip ?_ hfit 4 rfl rfl ?_ enc
  · exact congrArg some hp
  · rw [row5C _ (pack_slice hfit 3 rfl rfl)]
    have e0 : _ % 1048576 = 1 := pack_low hfit rfl
    have e1 : _ / 16777216 % 2 = 0 := pack_slice hfit 2 rfl rfl
    simp only [decodeOp5C, e0, e1, pack_field hfit 1 (lo := 20) rfl rfl, Nat.reduceEqDiff, reduceIte, and_self, and_false, false_and, and_true, true_and, not_false_eq_true]

theorem immx (p : BitVec 22) : Statement (.immx p) := by
  intro hw word enc
  have hfit : Fits [(22, p.toNat), (3, 0), (7, 126)] := ⟨p.isLt, by decide, by decide, trivial⟩
  have hp : 0xFC000000 + p.toNat = pack [(22, p.toNat), (3, 0), (7, 126)] := by
    rw [pack_eq]
    change _ = p.toNat + 4194304 * (0 + 8 * (126))
    omega
  refine roundTrip ?_ hfit 3 rfl rfl ?_ enc
  · exact congrArg some hp
  · rw [row7E _ (pack_slice hfit 2 rfl rfl)]
    have e0 : _ / 4194304 % 8 = 0 := pack_slice hfit 1 rfl rfl
    simp only [decodeOp7E, e0, pack_field hfit 0 (lo := 0) rfl rfl, Nat.reduceEqDiff, reduceIte]

theorem hint (h : BitVec 22) : Statement (.hint h) := by
  intro hw word enc
  have hfit : Fits [(22, h.toNat), (3, 1), (7, 126)] := ⟨h.isLt, by decide, by decide, trivial⟩
  have hp : 0xFC400000 + h.toNat = pack [(22, h.toNat), (3, 1), (7, 126)] := by
    rw [pack_eq]
    change _ = h.toNat + 4194304 * (1 + 8 * (126))
    omega
  refine roundTrip ?_ hfit 3 rfl rfl ?_ enc
  · exact congrArg some hp
  · rw [row7E _ (pack_slice hfit 2 rfl rfl)]
    have e0 : _ / 4194304 % 8 = 1 := pack_slice hfit 1 rfl rfl
    simp only [decodeOp7E, e0, pack_field hfit 0 (lo := 0) rfl rfl, Nat.reduceEqDiff, reduceIte]

theorem coprocessorIssue : Statement (.coprocessorIssue) := fun _ _ h => nomatch h

theorem destinationWrite : Statement (.destinationWrite) := fun _ _ h => nomatch h

theorem takeTrap (code : BitVec 6) (late : Bool) (int : Bool) (tval : W64) (tval2 : W64) : Statement (.takeTrap code late int tval tval2) := fun _ _ h => nomatch h

theorem install (lcid : BitVec 16) : Statement (.install lcid) := fun _ _ h => nomatch h

theorem logicalCoreSwitch : Statement (.logicalCoreSwitch) := fun _ _ h => nomatch h

theorem depositArrive : Statement (.depositArrive) := fun _ _ h => nomatch h

theorem superstepBoundary : Statement (.superstepBoundary) := fun _ _ h => nomatch h

theorem superstepOverrun : Statement (.superstepOverrun) := fun _ _ h => nomatch h

theorem tileRowLand : Statement (.tileRowLand) := fun _ _ h => nomatch h

theorem engineTakeCopy : Statement (.engineTakeCopy) := fun _ _ h => nomatch h

theorem copyComplete : Statement (.copyComplete) := fun _ _ h => nomatch h

theorem copyFaultStop : Statement (.copyFaultStop) := fun _ _ h => nomatch h

theorem streamReadAhead : Statement (.streamReadAhead) := fun _ _ h => nomatch h

theorem touchComplete (p : BitVec 4) : Statement (.touchComplete p) := fun _ _ h => nomatch h

theorem demandCopyIn : Statement (.demandCopyIn) := fun _ _ h => nomatch h

theorem prefetchCopyIn (addr : W64) : Statement (.prefetchCopyIn addr) := fun _ _ h => nomatch h

theorem collect (lvl : BitVec 2) : Statement (.collect lvl) := fun _ _ h => nomatch h

theorem mergeApply : Statement (.mergeApply) := fun _ _ h => nomatch h

theorem releaseNotice : Statement (.releaseNotice) := fun _ _ h => nomatch h

theorem pageWalk (va : W64) (acc : BitVec 3) : Statement (.pageWalk va acc) := fun _ _ h => nomatch h

theorem migrationComplete : Statement (.migrationComplete) := fun _ _ h => nomatch h

theorem counterHalve : Statement (.counterHalve) := fun _ _ h => nomatch h

theorem crossDieTimeout : Statement (.crossDieTimeout) := fun _ _ h => nomatch h

theorem lateResponse : Statement (.lateResponse) := fun _ _ h => nomatch h

theorem linkMessage (link : BitVec 6) (kind : BitVec 5) (ctx : BitVec 16) (size : BitVec 10) : Statement (.linkMessage link kind ctx size) := fun _ _ h => nomatch h

theorem permitReturn (link : BitVec 6) (cls : BitVec 2) (ctx : BitVec 16) (size : BitVec 10) : Statement (.permitReturn link cls ctx size) := fun _ _ h => nomatch h

theorem linkDown (port : BitVec 5) : Statement (.linkDown port) := fun _ _ h => nomatch h

theorem clockStretch (ratio : BitVec 16) : Statement (.clockStretch ratio) := fun _ _ h => nomatch h

theorem softError (unit : BitVec 4) (synd : W64) : Statement (.softError unit synd) := fun _ _ h => nomatch h

theorem lineRetirement (addr : W64) : Statement (.lineRetirement addr) := fun _ _ h => nomatch h

theorem nop (q : BitVec 8) : Statement (.nop q) := fun _ _ h => nomatch h

theorem launch (q : BitVec 8) : Statement (.launch q) := fun _ _ h => nomatch h

theorem signal (q : BitVec 8) : Statement (.signal q) := fun _ _ h => nomatch h

theorem shrink (q : BitVec 8) : Statement (.shrink q) := fun _ _ h => nomatch h

theorem packetComplete (q : BitVec 8) (tag : BitVec 32) : Statement (.packetComplete q tag) := fun _ _ h => nomatch h

theorem dependenceRecheck : Statement (.dependenceRecheck) := fun _ _ h => nomatch h

theorem priorityAging : Statement (.priorityAging) := fun _ _ h => nomatch h

theorem launchSeniority : Statement (.launchSeniority) := fun _ _ h => nomatch h

theorem doorbell (q : BitVec 8) (w : W64) : Statement (.doorbell q w) := fun _ _ h => nomatch h

theorem queueSkip (q : BitVec 8) : Statement (.queueSkip q) := fun _ _ h => nomatch h

theorem queueReset (q : BitVec 8) : Statement (.queueReset q) := fun _ _ h => nomatch h

theorem queueEnable (q : BitVec 8) : Statement (.queueEnable q) := fun _ _ h => nomatch h

theorem queueDisable (q : BitVec 8) : Statement (.queueDisable q) := fun _ _ h => nomatch h

theorem managementRegisterWrite (who : BitVec 18) (reg : BitVec 32) (val : W64) : Statement (.managementRegisterWrite who reg val) := fun _ _ h => nomatch h

theorem tabort (who : BitVec 18) (val : W64) : Statement (.tabort who val) := fun _ _ h => nomatch h

theorem endTask (gang : BitVec 32) (lcid : BitVec 16) : Statement (.endTask gang lcid) := fun _ _ h => nomatch h

theorem satchelFreeze (who : BitVec 18) (q : BitVec 8) (tag : BitVec 32) : Statement (.satchelFreeze who q tag) := fun _ _ h => nomatch h

theorem satchelCheckpoint (who : BitVec 18) (q : BitVec 8) (tag : BitVec 32) : Statement (.satchelCheckpoint who q tag) := fun _ _ h => nomatch h

theorem urgentPreemption (who : BitVec 18) (q : BitVec 8) (tag : BitVec 32) : Statement (.urgentPreemption who q tag) := fun _ _ h => nomatch h

theorem satchelRestore (who : BitVec 18) (q : BitVec 8) (tag : BitVec 32) : Statement (.satchelRestore who q tag) := fun _ _ h => nomatch h

theorem releaseInPlaceImage (who : BitVec 18) (q : BitVec 8) (tag : BitVec 32) : Statement (.releaseInPlaceImage who q tag) := fun _ _ h => nomatch h

theorem debugOff (who : BitVec 18) (q : BitVec 8) (tag : BitVec 32) : Statement (.debugOff who q tag) := fun _ _ h => nomatch h

theorem debugAtSsm (who : BitVec 18) (q : BitVec 8) (tag : BitVec 32) : Statement (.debugAtSsm who q tag) := fun _ _ h => nomatch h

theorem debugEveryBoundary (who : BitVec 18) (q : BitVec 8) (tag : BitVec 32) : Statement (.debugEveryBoundary who q tag) := fun _ _ h => nomatch h

theorem debugNextBoundary (who : BitVec 18) (q : BitVec 8) (tag : BitVec 32) : Statement (.debugNextBoundary who q tag) := fun _ _ h => nomatch h

theorem bkrel (who : BitVec 18) (val : W64) : Statement (.bkrel who val) := fun _ _ h => nomatch h

theorem traceEnable (who : BitVec 18) (val : W64) : Statement (.traceEnable who val) := fun _ _ h => nomatch h

theorem traceDisable (who : BitVec 18) (val : W64) : Statement (.traceDisable who val) := fun _ _ h => nomatch h

theorem traceHoldExpiry : Statement (.traceHoldExpiry) := fun _ _ h => nomatch h

theorem freeze (who : BitVec 18) : Statement (.freeze who) := fun _ _ h => nomatch h

theorem freezeInput : Statement (.freezeInput) := fun _ _ h => nomatch h

theorem testAccessReadout : Statement (.testAccessReadout) := fun _ _ h => nomatch h

theorem reset : Statement (.reset) := fun _ _ h => nomatch h

theorem fwgo (len : W64) : Statement (.fwgo len) := fun _ _ h => nomatch h

theorem recoveryImageVerified : Statement (.recoveryImageVerified) := fun _ _ h => nomatch h

theorem load : Statement (.load) := fun _ _ h => nomatch h

theorem unload : Statement (.unload) := fun _ _ h => nomatch h

theorem keyenr (who : BitVec 18) (addr : W64) : Statement (.keyenr who addr) := fun _ _ h => nomatch h

theorem getVersion : Statement (.getVersion) := fun _ _ h => nomatch h

theorem getCapabilities : Statement (.getCapabilities) := fun _ _ h => nomatch h

theorem negotiateAlgorithms : Statement (.negotiateAlgorithms) := fun _ _ h => nomatch h

theorem getDigests : Statement (.getDigests) := fun _ _ h => nomatch h

theorem getCertificate : Statement (.getCertificate) := fun _ _ h => nomatch h

theorem challenge : Statement (.challenge) := fun _ _ h => nomatch h

theorem getMeasurements (index : Byte) : Statement (.getMeasurements index) := fun _ _ h => nomatch h

theorem pageMoveStart (ctx : BitVec 16) (va : W64) (frame : W64) : Statement (.pageMoveStart ctx va frame) := fun _ _ h => nomatch h

theorem firmwareUpdate (who : BitVec 18) (addr : W64) (len : W64) : Statement (.firmwareUpdate who addr len) := fun _ _ h => nomatch h

theorem scrubbing (addr : W64) : Statement (.scrubbing addr) := fun _ _ h => nomatch h

end Sys2Proof.Laws.Encoding
end

