-- ==== Sys2Proof/Laws/Vector.lean ====
section
/-! SUPPORT. The shared operations of the vector instructions, said once: a word that writes listed elements, and an element-wise one
(R119, R120, R124, R125). -/

set_option Elab.async false

namespace Sys2Proof.Machine

/-- The elements that a list of indexes gives. -/
theorem elemOr_indexes (l : List Nat) (f : Nat → Nat) (w j old : Nat) :
    elemOr (l.map (fun i => (i, f i))) w j old = if j ∈ l then f j % 2 ^ w else old := by
  unfold elemOr
  induction l with
  | nil => simp
  | cons x l ih =>
    rw [List.map_cons, List.find?_cons]
    by_cases h : x = j
    · subst h; simp
    · rw [show ((x, f x).1 == j) = false from beq_false_of_ne h]
      rw [ih]
      simp [List.mem_cons, show ¬ j = x from fun e => h e.symm]

theorem width_pos (t : Nat) : 0 < Fp.width t := by
  unfold Fp.width; split_ifs <;> decide

theorem elem_fits {t j : Nat} (h : j < 512 / Fp.width t) : Fp.width t * j + Fp.width t ≤ 512 := by
  have := Nat.div_mul_le_self 512 (Fp.width t)
  have h2 : (j + 1) * Fp.width t ≤ 512 / Fp.width t * Fp.width t := Nat.mul_le_mul_right _ h
  rw [Nat.mul_comm]
  rw [Nat.add_mul] at h2
  omega

/-- A coprocessor word whose one write lists elements. -/
theorem gives_elems {i : Instr} {uses : List (BitVec 5)} {u : CopUnit} {prep : Ex Capture} {act : RingEntry → Ex Issued}
    {s : State} {k : Capture} {w : Issued} {fl : Fp.Flags} {d : BitVec 5} {t : Nat} {l : List Nat} {f : Nat → Nat} {g : Nat → Option Nat}
    (he : exec i s = runCop i uses u prep act s) (h : s.copReady i = true)
    (hp : prep (s.awaited uses) = .ok k (s.awaited uses))
    (ha : act (RingEntry.issuing (s.cur.await uses) i k) ((s.awaited uses).modCur (LCore.issuing i k)) =
      .ok w (((s.awaited uses).modCur (LCore.issuing i k)).modCur (fun c => c.raise fl)))
    (hg : w.goesOn = false) (hw : w.post = none)
    (hr : (s.awaited uses).pinRoom (capturedPins k.ptr.ptr k.entry) = true)
    (hz : u.frozen ((s.awaited uses).modCur (LCore.dispatched i k)) ((s.cur.await uses).entry i k) = false) (hx : w.xw = none)
    (hl : w.writes = [elemWrite d (Fp.width t) (l.map (fun i => (i, f i)))]) (hn : l.Nodup)
    (hv : ∀ j, j < 512 / Fp.width t → g j = if j ∈ l then some (f j) else none) : GivesElems s i d (Fp.width t) fl g := by
  obtain ⟨t', h1, h2, h3, h4, h5, h6⟩ := cop_ok h hp ha hg hw hr hz
  rw [hx] at h5
  rw [hl] at h3 h4
  simp only [List.foldl_cons, List.foldl_nil] at h3 h4
  have hvv : ∀ r, t'.cur.settled.getV r = ((elemWrite d (Fp.width t) (l.map (fun i => (i, f i)))).apply s.cur).getV r := fun r => by
    simp only [LCore.getV, h3]
  refine ⟨t', he.trans h1, h2, ?_, ?_, h4.trans rfl, h5, h6⟩
  · intro j hj
    rw [hvv, elem_elemWrite (width_pos t) (by rw [List.map_map]; simpa [Function.comp_def] using hn) _ _ (elem_fits hj), elemOr_indexes, hv j hj]
    split_ifs <;> rfl
  · intro r hr
    rw [hvv, getV_elemWrite _ _ _ _ _ hr]

/-- Every instruction that goes through `elementWise` is element-wise. -/
theorem elementwise_ok {mk : BitVec 5 → BitVec 5 → BitVec 5 → BitVec 3 → BitVec 1 → BitVec 4 → Instr}
    {f : Nat → Fp.Mode → Nat → Nat → Nat → Nat → Nat × Fp.Flags} {busy lat : BitVec 4 → Nat}
    (he : ∀ d a b m n t s, exec (mk d a b m n t) s = runCop (mk d a b m n t) [] vecUnit noCapture
      (elementWise d t.toNat m n (busy t) (lat t) (ternary d a b t (f t.toNat))) s) : Elementwise mk f := by
  intro s d a b m n t h
  have ha : elementWise d t.toNat m n (busy t) (lat t) (ternary d a b t (f t.toNat)) (RingEntry.issuing (s.cur.await []) (mk d a b m n t) {})
      ((s.awaited []).modCur (LCore.issuing (mk d a b m n t) {})) =
      .ok { writes := [elemWrite d (Fp.width t.toNat) ((List.range (activeElems s.cur.vl t.toNat)).filter
              (fun j => laneSel (s.cur.getM m) n (elemBytes t.toNat * j)) |>.map (fun j => (j, (f t.toNat s.cur.mode j (elemAt (s.cur.getV a) (Fp.width t.toNat) j)
                (elemAt (s.cur.getV b) (Fp.width t.toNat) j) (elemAt (s.cur.getV d) (Fp.width t.toNat) j)).1)))],
            busy := busy t, lat := lat t }
        (((s.awaited []).modCur (LCore.issuing (mk d a b m n t) {})).modCur (fun c => c.raise
          (s.cur.flagsOf t m n (fun j => (f t.toNat s.cur.mode j (elemAt (s.cur.getV a) (Fp.width t.toNat) j)
                (elemAt (s.cur.getV b) (Fp.width t.toNat) j) (elemAt (s.cur.getV d) (Fp.width t.toNat) j)).2)))) := by
    unfold elementWise LCore.flagsOf
    simp only [bind, EStateM.bind, cur, get, getThe, MonadStateOf.get, EStateM.get, pure, EStateM.pure, raiseFlags, modCur, modify, modifyGet,
      MonadStateOf.modifyGet, EStateM.modifyGet, List.foldl_map, List.map_map]
    rfl
  refine gives_elems (k := {}) (he ..) h rfl ha rfl rfl (pinRoom_x _) rfl rfl rfl ?_ ?_
  · exact List.Nodup.filter _ List.nodup_range
  · intro j hj
    simp [LCore.takes]
end Sys2Proof.Machine
end

