-- ==== Sys2Proof/Tests/Slice0.lean ====
section
/-! SUPPORT. Tests of the author: words of the spec, terms that the check of well-formed instructions refuses, single steps on small
states with results worked out from the spec's rules, and for each claim a state and operands that meet its hypotheses together. -/

open Sys2Proof Sys2Proof.Machine

/-- p`p` names an object of a kind and a length in the pad of a level, at offset 0x100. -/
def Sys2Proof.Machine.State.place (s : State) (p : BitVec 4) (lvl kind len : Nat) : State :=
  let id := s.cur.padId lvl
  let d := s.pad id
  (s.setPad { d with mem := Mem.writeN d.mem 0x100 8 (mkHdr 0 kind len).toNat, bump := 0x1000, owner := some 0 }).modCur
    (fun c => c.setP p ⟨mkPtr lvl 0x100, 0, BitVec.ofNat 40 len⟩)

namespace Sys2Proof.Tests

set_option Elab.async false

/-! ### Well-formed instructions (R60 step 1) -/

theorem test_wf_field_width : (Instr.ext 1 2 8 56).wf = false ∧ (Instr.ext 1 2 8 55).wf = true := by decide
theorem test_wf_link_x0 : (Instr.call 0 4).wf = false ∧ (Instr.callr 0 4).wf = false ∧ (Instr.xprefTq 0 4).wf = false := by decide
theorem test_wf_rep : (Instr.rep 1 2 3 0).wf = false ∧ (Instr.rep 1 0 3 0).wf = true := by decide
theorem test_wf_memory_form : (Instr.ld 1 8 1 0 0).wf = false ∧ (Instr.ld 1 7 1 0 1).wf = false ∧ (Instr.ld 1 7 2 0 32).wf = false ∧
    (Instr.ld 1 7 0 7 0).wf = false ∧ (Instr.st 1 7 0 4 0).wf = false ∧ (Instr.ldp 1 8 1 0).wf = false := by decide
theorem test_wf_kind : (Instr.alloc 1 2 0 2).wf = false ∧ (Instr.allocr 1 2 0 4).wf = false ∧ (Instr.alloc 1 2 0 3).wf = true := by decide
theorem test_wf_agent : (Instr.oacq 1 6 1).wf = false ∧ (Instr.fence 0 0).wf = false ∧ (Instr.cas 1 2 3 7 0 0).wf = false := by decide
theorem test_wf_atomic : (Instr.amo 1 2 3 9 0 0 0).wf = false ∧ (Instr.vamo 1 2 0 3 0 0 9 0).wf = false := by decide
theorem test_wf_xfence : (Instr.xfence 6 0 0 1).wf = false ∧ (Instr.xfence 0 6 0 1).wf = false ∧ (Instr.xfence 5 5 5 1).wf = true := by decide
theorem test_wf_type : (Instr.setvl 1 2 14).wf = false ∧ (Instr.vadd 1 2 3 0 0 12).wf = false ∧ (Instr.vmulh 1 2 3 0 0 4).wf = false ∧
    (Instr.vmulhz 1 2 3 0 0 3).wf = false ∧ (Instr.vfma 1 2 3 0 0 7).wf = false ∧ (Instr.vshl 1 2 3 0 0 8).wf = false ∧
    (Instr.vcvt 1 2 15 0 0 2).wf = false ∧ (Instr.vquant 1 2 3 13).wf = false := by decide
theorem test_wf_advance : (Instr.vld 1 8 1 0 0 0 2).wf = false ∧ (Instr.vgath 1 0 0 2 0 0 12).wf = false := by decide
theorem test_wf_matrix : (Instr.mma 0 1 2 3 9 9).wf = false ∧ (Instr.mma 0 1 2 1 8 8).wf = false ∧ (Instr.mma 0 1 2 0 9 10).wf = false ∧
    (Instr.adrain 0 1 8).wf = false ∧ (Instr.amode 0 3).wf = false ∧ (Instr.again 1 1).wf = false := by decide
theorem test_wf_exchange : (Instr.sendv 1 2 9).wf = false ∧ (Instr.recvV 1 9).wf = false ∧ (Instr.arrive 0).wf = false := by decide

/-! ### Words written out in the spec (R48, R49, R114, R117, R231, R253, R257, R301, R333) -/

theorem test_decode_immediates : decode 0x06738345 = some (.addi 7 7 0x345) ∧ decode 0x06500000 = some (.addi 5 0 0) := by decide +kernel
theorem test_decode_prefix : decode 0xFC000012 = some (.immx 0x12) := by decide +kernel
theorem test_decode_scalar : decode 0x02738032 = some (.popc 7 7) ∧ decode 0x02529C00 = some (.add 5 5 7) := by decide +kernel
theorem test_decode_branch : decode 0x20601FFC = some (.bNe 6 0 0xFFC) := by decide +kernel
theorem test_decode_call : decode 0x241FFF7C = some (.call 1 0xFFF7C) ∧ decode 0x26008000 = some (.jr 1) := by decide +kernel
theorem test_decode_rep : decode 0x28200040 = some (.rep 2 0 4 0) := by decide +kernel
theorem test_decode_memory : decode 0x30533004 = some (.ld 5 3 0 6 4) := by decide +kernel
theorem test_decode_vector : decode 0x42E35808 = some (.vadd 14 6 22 0 0 2) := by decide +kernel
theorem test_decode_exchange : decode 0xA0049404 = some (.send 9 5 4) ∧ decode 0xA0048C88 = some (.sendv 9 3 8) ∧
    decode 0xA2600004 = some (.recv 6 4) ∧ decode 0xA2900048 = some (.recvV 9 8) ∧ decode 0xA2060080 = some (.qclr 12) := by decide +kernel
theorem test_decode_barrier : decode 0xA6000041 = some (.arriveRel 1) ∧ decode 0xA60000C1 = some (.waitAcq 1) ∧
    decode 0xA6530102 = some (.bvote 5 6 2) := by decide +kernel
theorem test_decode_copies : decode 0x9A548001 = some (.xwaitAny 5 9) ∧ decode 0x9A648080 = some (.xfind 6 9) := by decide +kernel
theorem test_decode_queue : decode 0xAA531C00 = some (.qpost 5 6 7) := by decide +kernel
theorem test_decode_system : decode 0xB0500017 = some (.rds 5 0x17) ∧ decode 0xB0031052 = some (.wrs 6 0x52) ∧
    decode 0xB2000012 = some (.trap 0x12) ∧ decode 0xB2001000 = some .eret ∧ decode 0xB2002000 = some .wfi ∧
    decode 0xB2003000 = some (.brk 0) ∧ decode 0xB4052C00 = some (.sfence 10 11) ∧ decode 0xB6000000 = some .cdrain ∧
    decode 0x2A000000 = some .retire := by decide +kernel
theorem test_decode_records : decode 0xB8400000 = some (.cxsave 4) ∧ decode 0xB8400001 = some (.cxload 4) := by decide +kernel
theorem test_decode_refuses : decode 0 = none ∧ decode 0xFE000000 = none ∧ decode 0x2A000001 = none := by decide +kernel

/-! ### Small states -/

/-- A logical core that runs, at user level, with every vector lane active. -/
def core : LCore := { LCore.cleared with gang := 1, run := .running, lcn := 2, pc := 0x10, vl := 64 }

/-- The part after reset with that logical core. -/
def base : State := { State.reset with cur := core }

/-- Two x registers set. -/
def with2 (a b : BitVec 5) (v w : W64) : State := base.modCur (fun c => (c.setX a v).setX b w)

/-- Bytes of the payload of that object in the core pad. -/
def fillPay (s : State) (off n v : Nat) : State :=
  let d := s.pad (.core 0)
  s.setPad { d with mem := Mem.writeN d.mem (0x110 + off) n v }

/-- The next state of an instruction has a property. -/
def next (i : Instr) (s : State) (p : State → Bool) : Bool :=
  match exec i s with
  | .next t => p t
  | _ => false

/-- An operation succeeds with a property of its value and its state. -/
def ok {α : Type} (r : EStateM.Result Exn State α) (p : α → State → Bool) : Bool :=
  match r with
  | .ok a s => p a s
  | .error _ _ => false

/-- An operation traps with a cause. -/
def traps {α : Type} (r : EStateM.Result Exn State α) (code : BitVec 6) : Bool :=
  match r with
  | .ok _ _ => false
  | .error e _ => e.code == code

/-- v registers set to the same 32-bit elements. -/
def vec (s : State) (r : BitVec 5) (e : Nat) : State :=
  s.modCur (fun c => c.setV r (BitVec.ofNat 512 (packElems 32 (List.replicate 16 e))))

/-- A tensor entry: 32 rows of 32 values of f32, 128 bytes apart. -/
def entry : BitVec 512 := BitVec.ofNat 512 ((mkPtr 3 0x10000).toNat + 32 * 2 ^ 192 + 32 * 2 ^ 224 + 128 * 2 ^ 320 + 9 * 2 ^ 464 + 2 ^ 472 +
  2 ^ 474 + 2 * 2 ^ 480 + 32 * 2 ^ 488 + 31 * 2 ^ 496)

/-- The tensors 4 and 5 have that entry. -/
def tensors : State := (base.setTidEntry 0 4 entry).setTidEntry 0 5 entry

/-- A gang of one logical core with three barriers and a task pool. -/
def gang : Gang := { Gang.none 1 with hdr := BitVec.ofNat 512 (3 * 2 ^ 40 + 2 ^ 320 * 0x6000000000010000) }
def ganged : State := { base with gangs := [gang] }

/-! ### Results from the rules -/

theorem test_result_add : next (.add 3 1 2) (with2 1 2 0xFFFFFFFFFFFFFFFF 2) (fun t => t.cur.getX 3 == 1 && t.cur.pc == 0x14) := by
  decide +kernel
theorem test_result_x0 : next (.add 0 1 2) (with2 1 2 5 2) (fun t => t.cur.getX 0 == 0) := by decide +kernel
theorem test_result_division : next (.div 3 1 2) (with2 1 2 0x8000000000000000 0xFFFFFFFFFFFFFFFF) (fun t => t.cur.getX 3 == 0x8000000000000000) ∧
    next (.rem 3 1 2) (with2 1 2 7 0) (fun t => t.cur.getX 3 == 7) ∧
    next (.rem 3 1 2) (with2 1 2 0xFFFFFFFFFFFFFFF9 2) (fun t => t.cur.getX 3 == 0xFFFFFFFFFFFFFFFF) := by decide +kernel
theorem test_result_shift : next (.sar 3 1 2) (with2 1 2 0x8000000000000000 0x41) (fun t => t.cur.getX 3 == 0xC000000000000000) := by
  decide +kernel
theorem test_result_joined : next (.addi 7 0 0x345) (base.modCur (fun c => { c with pfx := some 0x12, unit := some 0xC }))
    (fun t => t.cur.getX 7 == 0x12345 && t.cur.pfx == none) := by decide +kernel
theorem test_result_load : next (.ld 5 3 0 6 1) (fillPay (base.place 3 0 0 64) 4 4 0xFFFFFFFE) (fun t => t.cur.getX 5 == 0xFFFFFFFFFFFFFFFE) := by
  decide +kernel
theorem test_result_store : next (.st 5 3 1 1 0) (with2 5 6 0xABCD 0 |>.place 3 0 0 64) (fun t =>
    Mem.readN (t.pad (.core 0)).mem 0x110 4 == 0xABCD && (t.cur.getP 3).cur == 2) := by decide +kernel
theorem test_result_vector : next (.vadd 3 1 2 0 0 2) (vec (vec base 1 0xFFFFFFFF) 2 3) (fun t => t.cur.settled.getV 3 ==
    BitVec.ofNat 512 (packElems 32 (List.replicate 16 2))) := by decide +kernel
theorem test_result_sum : next (.vredAdd 3 1 0 0 2) (vec base 1 5) (fun t => elemAt (t.cur.settled.getV 3) 32 0 == 80) := by decide +kernel
/-- The exchange phase with twelve words in the port. -/
def fullPort : State := (base.modCur (fun c => { c.setX 1 1 with exch := true, port := List.replicate 12 ⟨0, 1, 0, 7, 4, 4, true, false⟩ }))
theorem test_result_frozen : next (.sendv 1 2 0) fullPort (fun t => t.cur.queued && next (.addi 5 0 7) t (fun u => u.cur.getX 5 == 7 &&
    ({ u with cur := { u.cur with port := [] } }.pump).cur.port.length == 8)) := by decide +kernel
theorem test_result_held : next .depositArrive { base with clk := 9, cur := { core.setQ 3 ⟨1, true⟩ with port := [⟨0, 0, 3, 7, 4, 4, true,
    false⟩] } } (fun t => t.cur.getQ 3 == ⟨1, true⟩ && t.cur.port == [⟨0, 0, 3, 7, 4, 4, true, true⟩]) := by decide +kernel
theorem test_result_trap : next (.trap 0x12) base (fun t => t.cur.pl == 3 && t.cur.mbank.epc == 0x10 && t.cur.mbank.tval == 0x12 &&
    t.cur.mbank.cause == 4) := by decide +kernel
theorem test_result_privilege : next .eret base (fun t => t.cur.mbank.cause == 3 && t.cur.mbank.tval == 0xB2001000) := by decide +kernel
theorem test_result_step : (match step (base.withFetchWord 32 0x06500007) with
    | .next t => t.cur.getX 5 == 7 && t.cur.pc == 0x14
    | _ => false) = true := by decide +kernel

/-! ### Hypotheses that hold together -/

/-- A state with two resident functions, the pc in the first, and p4 naming the second. -/
def coded : State := { base with
  codeMap := [⟨0, 0x10, 68⟩, ⟨0, 0x110, 64⟩]
  ipad := [⟨0, 0, 0x10, 68, List.replicate 17 fillWord, false, true⟩, ⟨0, 0, 0x110, 64, List.replicate 16 fillWord, false, true⟩]
  cur := core.setP 4 ⟨mkPtr 3 0x100, 0, 64⟩ }

/-- All of a list pass in a state. -/
def pass (s : State) (l : List Instr) : Bool := l.all (fun i => s.passes i)
/-- All of a list may issue at once in a state. -/
def ready (s : State) (l : List Instr) : Bool := l.all (fun i => s.copReady i)

theorem test_meets_DecodeAndEncodeAgree : (Instr.add 1 2 3).wf = true ∧ encode (.add 1 2 3) = some 0x02110C00 ∧
    decode 0x02110C00 = some (.add 1 2 3) := by decide +kernel
theorem test_meets_FrozenKept : (match step { base with frozen := true, inputs := [.freezeInput] } with
    | .next t => t.frozen
    | _ => false) = true := by decide +kernel
theorem test_meets_ScalarArithmetic_divisions : pass base [.div 1 2 3, .rem 1 2 3, .divz 1 2 3, .remz 31 0 0] = true := by decide +kernel
theorem test_meets_ScalarArithmetic : pass base [.add 0 0 0, .sub 31 31 31, .mul 1 2 3, .mulh 1 2 3, .mulhz 1 2 3, .and 1 2 3, .or 1 2 3,
    .xor 1 2 3, .andn 1 2 3, .shl 0 0 0, .shr 31 31 31, .sar 1 2 3, .rol 1 2 3, .ror 1 2 3, .slt 1 2 3,
    .sltz 1 2 3, .min 1 2 3, .max 1 2 3, .minz 1 2 3, .maxz 1 2 3, .cmov 1 2 3] = true := by decide +kernel
theorem test_meets_ImmediateOperations : pass base [.addi 0 0 0x800, .andi 31 31 0x7FF, .ori 1 2 3, .xori 1 2 3, .slti 1 2 3, .sltzi 1 2 3,
    .lup 1 0x80000, .aupc 1 0x7FFFF] = true := by decide +kernel
theorem test_meets_BitOperations : pass base [.clz 1 2, .ctz 0 0, .popc 31 31, .brev 1 2, .bswap 1 2, .shli 1 2 63, .shri 1 2 0, .sari 1 2 63,
    .ext 1 2 0 63, .ins 1 2 63 0] = true := by decide +kernel
/-- The state whose next word is addi x5, x0, 7. -/
def atWord : State := base.withFetchWord 32 0x06500007
theorem test_meets_StepRunsDecoded : atWord.mayStep ∧ atWord.entered atWord.cur.pc = true ∧ atWord.wordAt atWord.cur.pc = some 0x06500007 ∧
    decode 0x06500007 = some (.addi 5 0 7) := by
  have h : atWord.retryRestore = atWord := by
    rw [State.retryRestore, if_neg (by decide +kernel)]
  have n : atWord.commandNext.isNone = true ∧ atWord.cur.queued = false := by decide +kernel
  have u : atWord.pump = atWord := Machine.pump_idle rfl n.2 rfl
  have k : (∀ g ∈ atWord.gangs, g.boundary = false) ∧ atWord.gangs.any atWord.gangOver = false ∧ atWord.portWords = 0 := by decide +kernel
  have l : atWord.pointTrap.isNone = true ∧ atWord.canRun atWord.cur = true ∧ (atWord.cur.blk == some .stall) = false := by decide +kernel
  have m : atWord.entered atWord.cur.pc = true ∧ atWord.wordAt atWord.cur.pc = some 0x06500007 ∧
    decode 0x06500007 = some (.addi 5 0 7) := by decide +kernel
  exact ⟨⟨rfl, rfl, rfl, rfl, k.1, k.2.1, Option.isNone_iff_eq_none.mp n.1, h, k.2.2, n.2, u, Option.isNone_iff_eq_none.mp l.1, l.2.1,
    by simpa using l.2.2⟩, m⟩
/-- The state whose next word no instruction has. -/
def atNone : State := base.withFetchWord 32 0xFE000000
theorem test_meets_DecodeChecks_refused : atNone.mayStep ∧ atNone.entered atNone.cur.pc = true ∧ atNone.wordAt atNone.cur.pc = some 0xFE000000 ∧
    decode 0xFE000000 = none := by
  have h : atNone.retryRestore = atNone := by
    rw [State.retryRestore, if_neg (by decide +kernel)]
  have n : atNone.commandNext.isNone = true ∧ atNone.cur.queued = false := by decide +kernel
  have u : atNone.pump = atNone := Machine.pump_idle rfl n.2 rfl
  have k : (∀ g ∈ atNone.gangs, g.boundary = false) ∧ atNone.gangs.any atNone.gangOver = false ∧ atNone.portWords = 0 := by decide +kernel
  have l : atNone.pointTrap.isNone = true ∧ atNone.canRun atNone.cur = true ∧ (atNone.cur.blk == some .stall) = false := by decide +kernel
  have m : atNone.entered atNone.cur.pc = true ∧ atNone.wordAt atNone.cur.pc = some 0xFE000000 ∧ decode 0xFE000000 = none := by decide +kernel
  exact ⟨⟨rfl, rfl, rfl, rfl, k.1, k.2.1, Option.isNone_iff_eq_none.mp n.1, h, k.2.2, n.2, u, Option.isNone_iff_eq_none.mp l.1, l.2.1,
    by simpa using l.2.2⟩, m⟩
theorem test_meets_StepKeepsMemories : atWord.memOk = true ∧ atWord.ringsOk = true ∧ (match step atWord with
    | .next t => t.memOk && t.ringsOk
    | _ => false) = true := by decide +kernel
theorem test_meets_ControlTransfers_branches : pass coded [.bEq 1 2 1, .bNe 1 2 1, .bLt 1 2 1, .bGe 1 2 1, .bLtz 1 2 1, .bGez 1 2 16] = true ∧
    coded.funcAt 0x10 = some ⟨0, 0x10, 68⟩ := by decide +kernel
theorem test_meets_ControlTransfers_targets : pass coded [.j 4, .call 1 4, .jr 0, .callr 1 4] = true ∧ ok (enterCode 0x20 coded) (fun _ _ => true) = true ∧
    ok (enterCode 0x110 (coded.awaited [1])) (fun _ _ => true) = true ∧ ptrMalformed (mkPtr 3 0x100) = false ∧
    coded.codeMap.any (fun f => f.ctx == coded.fetchCtx && f.start == BitVec.ofNat 64 (ptrAddr (mkPtr 3 0x100) + 16)) = true := by decide +kernel
theorem test_meets_CodeResolution : traps (enterCode 0x12 coded) cCODE_TARGET = true ∧ traps (enterCode 0x60 coded) cCODE_TARGET = true ∧
    coded.entered 0x20 = true ∧ coded.funcAt coded.cur.pc = coded.funcAt 0x20 := by decide +kernel
theorem test_meets_RepetitionAndPrefixes : pass coded [.rep 2 0 4 0, .rep 0 1 0 3, .immx 0x12, .hint 0] = true ∧
    coded.bodyFits 0x14 1 = true ∧ coded.funcAt 0x10 = coded.funcAt 0x14 := by decide +kernel
/-- The function that holds the pc ends with the word at the pc. -/
def atEnd : State := coded.modCur (fun c => { c with pc := 0x50 })
theorem test_meets_RepetitionAndPrefixes_ends : pass atEnd [.rep 2 0 4 0, .immx 0x12] = true ∧ atEnd.bodyFits 0x54 1 = false ∧
    atEnd.wordAt 0x54 = none ∧ next (.rep 2 0 4 0) atEnd (fun t => t.cur.mbank.cause == 1) ∧
    next (.immx 0x12) atEnd (fun t => t.cur.mbank.tval == 0xFC000012) := by decide +kernel
theorem test_meets_OperandForms : traps (memOperand 3 0 0 4 base) cOBJ_NULL = true ∧
    traps (memOperand 3 0 0 4 (base.modCur (fun c => c.setP 3 ⟨1, 0, 0⟩))) cOBJ_MALFORMED = true ∧
    traps (memOperand 3 0 16 4 (base.place 3 0 0 64)) cOBJ_BOUND = true ∧
    ok (memOperand 3 0 15 4 (base.place 3 0 0 64)) (fun r _ => r.1 == 60) = true := by decide +kernel
/-- p3 names a scalar object of 64 bytes in the core pad. -/
def placed : State := base.place 3 0 0 64
theorem test_placed : placed.padded 3 := by
  unfold State.padded
  decide +kernel
theorem test_placed_inPlace : placed.inPlace 3 := by
  have h : placed.inPad (placed.cur.getP 3).ptr := by
    unfold State.inPad
    decide +kernel
  have k : ptrLvl (placed.cur.getP 3).ptr = 0 := by decide +kernel
  exact ⟨h, .inr (.inr fun l _ => k ▸ Nat.zero_le l)⟩
theorem test_meets_LoadsInPlace : placed.passes (.ld 5 3 0 6 4) = true ∧ placed.inPlace 3 ∧ memOffset placed.cur 3 0 4 4 = 16 ∧
    16 + 4 ≤ (placed.cur.getP 3).len.toNat :=
  ⟨by decide +kernel, test_placed_inPlace, by decide +kernel, by decide +kernel⟩
theorem test_meets_StoresInPlace : (placed.passes (.st 5 3 0 3 7) = true ∧ hdrKind (placed.hdrOf 3) = 0) ∧ placed.inPlace 3 ∧
    memOffset placed.cur 3 0 7 8 = 56 ∧ 56 + 8 ≤ (placed.cur.getP 3).len.toNat :=
  ⟨by decide +kernel, test_placed_inPlace, by decide +kernel, by decide +kernel⟩
theorem test_meets_MemoryWordsAtAnyLevel : pass base [.ld 5 3 0 6 4, .st 5 3 0 3 7, .ldp 2 3 0 0, .stp 2 3 0 0] = true ∧
    ok (memOperand 3 0 0 8 (base.place 3 1 1 64)) (fun r u => hdrKind r.2 == 1 && r.1 % 8 == 0 &&
      ok (readPay (u.cur.getP 3).ptr r.1 8 accLoad u) (fun v u1 => ok (lenOf (BitVec.ofNat 64 v) u1) (fun _ _ => true)) &&
      ok (stpValue 2 3 u) (fun v u1 => v.isSome && ok (writePay (u1.cur.getP 3).ptr r.1 8 (v.getD 0).toNat accStore u1)
        (fun _ _ => true))) = true := by decide +kernel
theorem test_meets_MemoryTrapsAndStoredPointers : pass base [.st 5 3 0 0 0, .ldp 2 3 0 0, .stp 2 3 0 0] = true ∧
    ok (memOperand 3 0 0 1 (base.place 3 0 1 64)) (fun r _ => hdrKind r.2 == 1) = true ∧
    ok (memOperand 3 1 0 8 ((base.place 3 0 1 64).modCur (fun c => c.setP 3 { c.getP 3 with cur := 4 }))) (fun r _ => r.1 % 8 == 4) = true ∧
    base.cur.tookFault base.cur = false := by decide +kernel
/-- Context 0 with one page at address 0, whose frame holds a pointer object at 0x100, and a window onto its own die through slot 0. -/
def windowed : State := { base with
  mg := { base.mg with ctxbase := 0x100000, ctxn := 1, expbase := 0x110000 }
  frameOwner := [(0x24, 0)]
  mem := [(0x100000, 0x200001), (0x100048, 0x120FFF), (0x200000, 0x210001), (0x210000, 0x220001), (0x220000, 0x230001), (0x230000, 0x2410E2),
    (0x240100, (mkHdr 0 1 64).toNat), (0x120000, 2 ^ 63 + 2 ^ 62), (0x120010, 0x10000), (0x110000, 2 ^ 63 + 2 ^ 62),
    (0x110018, 0x10000)].foldl (fun m x => Mem.writeN m x.1 8 x.2) [] }
theorem test_meets_StoredPointerValues : ok (readHdr (mkPtr 4 0x100) windowed) (fun w _ => w == mkHdr 0 1 64) = true ∧
    traps (stpValue 2 3 (windowed.modCur (fun c => (c.setP 2 ⟨mkPtr 3 0x100, 0, 0⟩).setP 3 ⟨mkPtr 4 0x100, 0, 0⟩))) cOBJ_ESCAPE = true ∧
    ok (stpValue 2 3 (windowed.modCur (fun c => (c.setP 2 ⟨mkPtr 3 0x200, 0, 0⟩).setP 3 ⟨mkPtr 3 0x100, 0, 0⟩))) (fun v _ => v == mkPtr 3 0x200) =
      true := by decide +kernel
theorem test_meets_PointerAndObjectWords : pass base [.pmov 1 2, .padj 1 2 3, .plen 1 2, .ptox 1 2, .pslice 1 2 3, .otouch 3] = true ∧
    (base.modCur (fun c => { c with status := 1 })).passes (.pfrom 1 2) = true ∧ ok (lenOf 0 base) (fun n _ => n == 0) = true ∧
    ok (touch 3 (base.place 3 0 0 64)) (fun w0 u => hdrKind w0 == 0 && ok (allocObj 0 0 8 u) (fun o u1 =>
      ok (snapshot (u1.cur.getP 3).ptr 16 8 accLoad u1) (fun b u2 => ok (fillObj o 16 8 b accStore u2) (fun _ _ => true))) &&
      ok (sliceInto 1 3 0 8 16 u) (fun b _ => b)) = true := by decide +kernel
theorem test_meets_Allocations : pass base [.alloc 1 2 0 0, .allocr 1 2 3 1] = true ∧ ok (allocObj 0 0 64 base) (fun _ _ => true) = true ∧
    (base.bumpPad (.core 0) 80).isSome = true ∧ traps (allocObj 3 0 64 base) cHEAP_EXHAUSTED = true := by decide +kernel
theorem test_meets_AcquireAndRelease : pass base [.oacq 3 0 1, .orel 3 0 1] = true ∧ ok (touch 3 (base.place 3 0 0 64)) (fun w u =>
    ok (canonOf (u.cur.getP 3).ptr w u) (fun k v => v.mayAcquire k) && ok (acquire (u.cur.getP 3).ptr w u) (fun _ _ => true) &&
      ok (release (u.cur.getP 3).ptr w u) (fun _ _ => true)) = true ∧ hdrC (placed.hdrOf 3) = false ∧ placed.msgs = [] ∧
    placed.caughtUp = true ∧ placed.cur.acks = [] := by decide +kernel
theorem test_meets_AtomicsInPads : (pass placed [.amo 1 2 3 0 0 0 0, .amo 0 31 3 8 5 0 1, .cas 1 2 3 0 0 1] = true ∧
    (placed.cur.getP 3).ptr ≠ 0 ∧ ptrMalformed (placed.cur.getP 3).ptr = false ∧ hdrC (placed.hdrOf 3) = false ∧
    hdrKind (placed.hdrOf 3) = 0 ∧ (placed.cur.getP 3).cur.toNat + 8 ≤ (placed.cur.getP 3).len.toNat) ∧ placed.padded 3 :=
  ⟨by decide +kernel, test_placed⟩
theorem test_meets_AtomicsAnywhere : ok (canonical (mkPtr 0 0x100) (placed.awaited [2, 1])) (fun o u => ok (readHdr o u) (fun h u1 =>
    hdrKind h == 0 && ok (locate o 16 4 accAtomic u1) (fun l u2 => storageOf 0 l == 0 && placeReason 0 0 0 true == none &&
      placeReason 0 0 5 false == none && ok (locRead l 4 0 u2) (fun _ u3 => ok (locWrite l 4 1 0 u3) (fun _ _ => true))))) = true ∧
    pass placed [.amo 1 2 3 0 0 1 0, .amo 1 2 3 7 5 0 1] = true ∧ ready placed [.vamo 1 3 0 2 0 0 0 0] = true := by decide +kernel

/-! Words of the coprocessor -/

theorem test_meets_VectorLengthAndScalars : pass base [.setvl 1 2 0, .setvl 1 2 13] = true ∧ ready base [.vext 1 2 3 0, .vpopc 1 0 0 13,
    .vfirst 1 0 0 0] = true := by decide +kernel
theorem test_meets_VectorSumsAndProducts : ready base [.vadd 1 2 3 0 0 0, .vsub 1 2 3 0 0 11, .vmul 1 2 3 7 1 8] = true := by decide +kernel
theorem test_meets_VectorIntegerOperations : ready base [.vmulh 1 2 3 0 0 0, .vmulhz 1 2 3 0 0 4, .vmin 1 2 3 0 0 3, .vmax 1 2 3 0 0 0,
    .vminz 1 2 3 0 0 7, .vmaxz 1 2 3 0 0 4, .vand 1 2 3 0 0 0, .vor 1 2 3 0 0 0, .vxor 1 2 3 0 0 0, .vandn 1 2 3 0 0 0, .vshl 1 2 3 0 0 0,
    .vshr 1 2 3 0 0 7, .vsar 1 2 3 0 0 0] = true := by decide +kernel
theorem test_meets_VectorFloatOperations : ready base [.vfma 1 2 3 0 0 8, .vfms 1 2 3 0 0 9, .vfnma 1 2 3 0 0 10, .vfnms 1 2 3 0 0 11,
    .vfdiv 1 2 3 0 0 8, .vfmin 1 2 3 0 0 8, .vfmax 1 2 3 0 0 11, .vfsqrt 1 2 0 0 8] = true := by decide +kernel
theorem test_meets_VectorComparesAndMasks : ready base [.vcmpEq 1 2 3 0 0 0, .vcmpNe 0 2 3 0 0 7, .vcmpLt 1 2 3 0 0 0, .vcmpLe 1 2 3 0 0 0,
    .vfcmpEq 1 2 3 0 0 8, .vfcmpLt 1 2 3 0 0 8, .vfcmpLe 1 2 3 0 0 8, .vfcmpUn 7 2 3 0 0 11, .mlogAnd 0 1 2, .mlogOr 1 2 3, .mlogXor 1 2 3,
    .mlogAndn 7 2 3] = true := by decide +kernel
theorem test_meets_VectorMoves : ready base [.vsel 1 2 3 0 0 0, .vperm 1 2 3 0 0 0, .vslideUp 1 2 3 0 0 0, .vslideDn 1 2 3 0 0 0,
    .vbcast 1 2 0 0 0, .viota 1 0 0 0, .vcompress 1 2 0 0 0, .vexpand 1 2 0 0 0, .vmv 1 2 0 0 13, .vins 1 2 3 11] = true := by decide +kernel
theorem test_meets_VectorConversions : ready base [.vcvt 1 2 14 0 0 8, .vcvtSat 1 2 8 0 0 0, .vquant 1 2 3 15, .vquant 1 2 0 12] = true := by
  decide +kernel
theorem test_meets_ReductionsAndScans : ready base [.vredAdd 1 2 0 0 0, .vredMin 1 2 0 0 11, .vredMax 1 2 0 0 8, .vredOr 1 2 0 0 7,
    .vscanAdd 1 2 0 0 0, .vscanMin 1 2 0 0 8, .vscanMax 1 2 0 0 11, .vscanOr 1 2 0 0 0] = true := by decide +kernel
theorem test_meets_TopElementsAndExactSums : ready base [.vtopk 1 2 3 0 0 11, .vxacc 1 2 3 0 0 8, .vxrnd 1 2 3 11] = true := by decide +kernel
theorem test_meets_VectorMemoryInPads : (ready placed [.vld 1 3 0 2 0 0 13, .vlds 1 3 0 0 0 0 0, .vgath 1 3 0 2 0 0 11, .vst 1 3 0 2 0 0 2,
    .vscat 1 3 0 2 0 0 2] = true ∧ placed.cur.takes 2 0 0 15 = true ∧ placed.pinRoom [(placed.cur.getP 3).ptr] = true ∧ hdrKind (placed.hdrOf 3) = 0) ∧ placed.padded 3 ∧
    touch 3 (placed.awaited [2]) = .ok (placed.hdrOf 3) (placed.awaited [2]) :=
  ⟨by decide +kernel, test_placed, by with_unfolding_all rfl⟩
theorem test_meets_CoprocessorMemoryWords : next (.vld 1 3 0 0 0 0 2) (base.place 3 1 0 64) (fun t => t.cur.late == none) ∧
    next (.vst 1 3 0 0 0 0 2) (base.place 3 1 0 64) (fun t => t.cur.late == none) ∧
    next (.tidst 3 4) (base.place 3 0 0 64) (fun t => t.cur.late == none) ∧
    next (.tidld 3 4) (base.place 3 0 0 64) (fun t => t.cur.late == none) := by decide +kernel
theorem test_meets_TileWords : (ready base [.tclaim 1 4, .tfree 1, .tzero 1, .tload 1 2] = true ∧ base.entryRoom 4 = true ∧ base.tidOk base.cur.ctx 4 = true ∧
    placed.canStore (tidAddr placed 0 4) 64 = true ∧ ready placed [.tidst 3 4, .tidld 3 4] = true ∧ placed.pinRoom [(placed.cur.getP 3).ptr] = true) ∧ placed.inPlace 3 ∧ Entry.valid (tensors.tidEntry 0 4) = true ∧
    entryReason tensors.feat (fun _ => true) (tensors.tidEntry 0 4) = none ∧
    next (.tclaim 1 4) tensors (fun t => (t.cur.getT 1).state == .claimed && (t.cur.getT 1).tid == 4) :=
  ⟨by decide +kernel, test_placed_inPlace, by decide +kernel⟩
/-- Tensor 4 lies in an object of the core pad, and slot 1 is ready with it. -/
def padTensor : State := ((base.place 3 0 0 0x1000).setTidEntry 0 4 (BitVec.ofNat 512 (entry.toNat / 2 ^ 64 * 2 ^ 64 + (mkPtr 0 0x100).toNat))).modCur
  (fun c => c.setT 1 { c.getT 1 with state := .ready, tid := 4 })
theorem test_meets_TensorStoresAndLoads : (ready padTensor [.tstore 1 2, .astore 1 4 2, .aload 3 4 2] = true ∧ padTensor.entryRoom 4 = true ∧
    entryReason padTensor.feat (fun x => Entry.fmt x != 15) (padTensor.tidEntry 0 4) = none ∧
    entryReason padTensor.feat blockFmt (padTensor.tidEntry 0 4) = none ∧ Entry.wr (padTensor.tidEntry 0 4) = true) ∧
    padTensor.storable (tileElems (padTensor.tidEntry 0 4) (padTensor.cur.getT 1) 0) ∧
    padTensor.storable (blockElems (padTensor.tidEntry 0 4) 0 (padTensor.cur.getA 1) padTensor.cur.mode) := by
  refine ⟨by decide +kernel, ?_, ?_⟩
  · unfold State.storable State.inPad
    decide +kernel
  · unfold State.storable State.inPad
    decide +kernel
theorem test_meets_MatrixProducts : ready base [.mma 0 1 2 0 9 9, .mma 3 1 2 0 0 0] = true ∧ base.cur.sem 0 = 0 ∧ base.cur.aff 3 = false := by
  decide +kernel
theorem test_meets_AccumulatorWords : ready base [.azero 0, .amode 3 2, .afill 0 1 13, .adrain 0 1 9] = true ∧ base.cur.nant = false ∧
    (base.modCur (fun c => { c with astat := 0x10 })).cur.nanf 0 = false := by decide +kernel
theorem test_meets_AffineWords : ready base [.again 0 1, .againPlain 3, .aapply 0 1, .kload 0 1, .kstore 3 31, .kzero 0, .kcomb 0 1 2,
    .ascan 0 1 31, .ascanK 0 1 0, .ascanG 0 1 2 9 31] = true ∧ (base.modCur (fun c => { c with astat := 1 })).cur.aff 0 = true ∧
    bits base.cur.astat.toNat 30 28 = 0 := by decide +kernel

/-! Copies, streams, exchange, gangs -/

theorem test_meets_CopyWords : pass base [.xfer 1 2 3 0, .xgath 1 2 3 63, .xprefTr 2 3 0, .xprefMg 2 3 63, .xwaitAll 1 2, .xwaitAny 1 2,
    .xfind 1 2, .xprefTq 1 2] = true ∧ base.cur.anyRunning [0] = false ∧ tensors.tidOk 0 4 = true ∧
    tensors.tensorReason (copyAccept 0 (tensors.tidEntry 0 5)) (tensors.tidEntry 0 4) = none ∧ next (.xfer 1 2 3 0) (tensors.modCur (fun c => ((c.setX 1 4).setX 2 5).setX 3 0x2000000020)) (fun t => t.cur.startQ == [0] &&
      t.cur.anyRunning [0]) := by decide +kernel
theorem test_meets_StreamWords : ready base [.sbind 0 1 2, .sclose 7, .vmvStream 1 0 0 0 9] = true ∧
    next (.sbind 0 1 2) (tensors.modCur (fun c => c.setX 1 4)) (fun t => (t.cur.getS 0).bound) ∧
    next (.sbind 0 1 2) (tensors.modCur (fun c => (c.setX 1 4).setX 2 0x1000000000000)) (fun t => t.cur.late.isSome) := by decide +kernel
theorem test_meets_ExchangeWords : pass base [.send 1 2 15, .recv 1 0, .qclr 1, .xphase, .fence 0 1, .xfence 1 4 0 1, .xfence 4 0 0 1] = true ∧
    ready base [.sendv 1 2 8, .recvV 1 8] = true ∧ base.cur.calm = true ∧
    next (.send 1 2 15) (base.modCur (fun c => { c.setX 1 1 with exch := true })) (fun t => t.cur.port.length == 1) ∧
    next (.recv 1 0) (base.modCur (fun c => c.setQ 0 ⟨7, true⟩)) (fun t => t.cur.getX 1 == 7) ∧
    next (.recv 1 0) base (fun t => t.cur.blk == some (.inbox 0 1)) := by decide +kernel
theorem test_meets_BarrierWords : pass ganged [.arrive 1, .arriveRel 3, .wait 1, .waitAcq 3, .bvote 1 2 2] = true ∧ hNlb gang.hdr = 3 ∧
    next (.arrive 1) ganged (fun t => (t.gang 1).phase.get 1 == 1 && t.cur.unwaited 1 == some 0 && next (.wait 1) t (fun u =>
      u.cur.unwaited 1 == none)) ∧ next (.bvote 1 2 3) (ganged.modCur (fun c => c.setX 2 1)) (fun t => t.cur.getX 1 == 1) := by decide +kernel
theorem test_meets_SuperstepWords : ganged.passes .sstep = true ∧ next .sstep ganged (fun t => t.cur.blk == some (.sstep 0) &&
    (t.gang 1).boundary) ∧ ok (codeTarget (mkPtr 3 0x100) coded) (fun a _ => a == 0x110) = true ∧ ok (loadPtr 15 0 coded) (fun _ _ => true) = true := by
  decide +kernel
theorem test_meets_PoolAndQueueWords : pass ganged [.spawn 1 2 3, .take 1 2 3, .join 1, .qpost 1 2 3] = true ∧ hPool gang.hdr ≠ 0 ∧
    next (.take 1 2 3) ganged (fun t => t.cur.pc == 0x14 && t.cur.getP 1 == PtrReg.null) := by decide +kernel

/-! System words and traps -/

theorem test_meets_SpecialRegisters : pass base [.rds 1 0x001, .rds 1 0x061, .wrs 1 0x021, .wrs 1 0x061] = true ∧
    next (.rds 1 0x037) base (fun t => t.cur.getX 1 == 0 && t.cur.pc == 0x14) ∧ next (.rds 1 0x030) base (fun t => t.cur.getX 1 == 0x7FFF) ∧
    next (.rds 1 0x003) base (fun t => t.cur.mbank.cause == 1) ∧
    next (.wrs 1 0x052) (with2 1 2 7 0) (fun t => t.cur.mbank.cause == 1) ∧ next (.wrs 1 0x061) ((with2 1 2 7 0).modCur (fun c => { c with
      status := 1 })) (fun t => t.cur.mbank.cause == 8) ∧ next (.rds 1 0x044) base (fun t => t.cur.mbank.cause == 3) := by decide +kernel
theorem test_meets_WaitsAndRetirement : pass base [.retire, .cdrain] = true ∧ pass (base.modCur (fun c => { c with status := 1 })) [.wfi,
    .sfence 1 2] = true ∧ base.cur.anyTag = false ∧ next .retire base (fun t => t.cur.run == .retired) := by decide +kernel
theorem test_meets_SoftwareTraps : pass base [.trap 0, .brk 0xFFF] = true ∧ base.cur.calm = true ∧ base.cur.unit = none ∧
    (base.modCur (fun c => { c with status := 1 })).passes .eret = true := by decide +kernel
theorem test_meets_TrapReturn : next .eret (base.modCur (fun c => { c with status := 0x13, mbank := { c.mbank with epc := 0x40 } })) (fun t =>
    t.cur.pc == 0x40 && t.cur.pl == 1) ∧ next .eret (base.modCur (fun c => { c with status := 0x31 })) (fun t => t.cur.mbank.cause == 3) := by decide +kernel
theorem test_meets_TrapEntry : base.cur.pend = [] ∧ base.cur.loads = [] ∧ base.cur.posts = [] ∧ base.cur.late = none ∧ base.mg.trEn = false ∧
    base.emulEntry 0x10 3 = none ∧ base.allowsIrq 1 = true ∧
    next (.takeTrap 5 false true 0 0) { base with cur := { base.cur with status := 3 } } (fun t => t.irqs.length == 1) ∧ (base.modCur (fun c => { c with late := some ⟨0, ⟨cSTREAM_UNBOUND, 0, 0⟩⟩ })).cur.late.isSome = true := by
  decide +kernel
theorem test_meets_DecodeChecks : (encode (.ext 1 2 8 56)).isSome = true ∧ base.cur.queued = false ∧ base.cur.owing = false ∧ base.cur.retakes.isNone = true ∧
    base.cur.handler = 0 ∧ (Instr.ext 1 2 8 56).wf = false ∧
    { base with feat := 1 }.missing (.mma 0 1 2 1 14 14) = some 3 ∧ base.cur.pl.toNat < (Instr.eret).priv ∧
    next (.ext 1 2 8 56) base (fun t => t.cur.mbank.cause == 1) ∧ next (.vadd 1 2 3 0 0 2) { base with feat := 1 } (fun t =>
      t.cur.mbank.cause == 2 && t.cur.mbank.tval2 == 1) := by decide +kernel
/-- A supervisor, and the object that its records go to. -/
def recorded : State := (base.modCur (fun c => { c with status := 1 })).place 4 2 0 0x27280
theorem test_meets_ContextRecords : pass recorded [.cxsave 4, .cxload 4] = true ∧ ok (recordPlace 4 recorded) (fun r u => r == recorded.cur.getP 4 &&
    u.cur.calm && u.cur.port == []) = true := by decide +kernel

/-! Steps of the part -/

theorem test_meets_EngineEvents : next .coprocessorIssue base (fun t => t.cur.ring == []) ∧ base.cur.frozenAt = none ∧
    next (.sendv 1 2 0) fullPort (fun t => t.cur.queued && next .coprocessorIssue { t with cur := { t.cur with port := [] } } (fun u => !u.cur.queued && u.cur.port.length == 8)) ∧ next .destinationWrite (base.modCur (fun c =>
    { c with ccy := 9, pend := [⟨3, .v 1 (BitVec.allOnes 512) 7⟩, ⟨9, .v 2 (BitVec.allOnes 512) 7⟩] })) (fun t => t.cur.getV 1 == 7 &&
      t.cur.getV 2 == 0 && t.cur.pend.length == 1) ∧
    next (.xprefTr 2 3 5) (base.modCur (fun c => c.setX 3 0x100000001)) (fun t => next .engineTakeCopy t (fun u => next .copyComplete u (fun w =>
      w.cur.getTag 5 == .ready && u.cur.startQ == []))) := by decide +kernel
theorem test_meets_SchedulingEvents : base.mustSwitch = false ∧ next .depositArrive { base with clk := 9, cur := { core with port := [⟨0, 0, 3, 7, 4,
    4, true, false⟩] } } (fun t => t.cur.getQ 3 == ⟨7, true⟩ && t.cur.port == []) ∧ next .superstepBoundary { ganged with gangs :=
      [{ gang with boundary := true }] } (fun t => (t.gang 1).boundary == false) ∧ base.overrunDue = false := by decide +kernel
theorem test_meets_ObjectAndCodeEvents : next (.touchComplete 3) placed (fun t => t.cur.pc == 0x10) ∧
    next (.touchComplete 3) base (fun t => t.cur.mbank.cause == 7) ∧ next (.pageWalk 0x10000 0) base (fun t => t.cur.mbank.cause == 0x11) ∧
    next .demandCopyIn coded (fun t => t.cur.pc == 0x10) := by decide +kernel
theorem test_meets_LinkAndPageEvents : messageOk 0 64 = true ∧ MsgKind.all[0]?.any (fun k => k.cls 64 == 0) = true ∧ next (.linkMessage 51 0 1 64) base (fun t => (t.links.toList.getD 51 Link.reset).control == 15 &&
    next (.permitReturn 51 0 1 64) t (fun u => (u.links.toList.getD 51 Link.reset).shared == Link.reset.shared)) ∧ messageOk 0 65 = false ∧ next (.linkMessage 51 11 0 64) base (fun t => (t.links.toList.getD 51 Link.reset).control == 16) ∧ next .lateResponse { base with expired := 1 } (fun t =>
      t.mg.latecnt == base.mg.latecnt + 1) ∧ base.movable 1 0 = none := by decide +kernel
theorem test_meets_QueueEvents : next (.queueEnable 5) base (fun t => (t.queue 5).state == 0) ∧ next (.queueDisable 255) base (fun t =>
    (t.queue 255).state == 3) ∧ next (.queueSkip 0) (base.setQueue 0 ((base.queue 0).withStat 4 2)) (fun t => (t.queue 0).qrd == 1 &&
      (t.queue 0).state == 0) ∧ next (.doorbell 0 1) (base.setQueue 0 { base.queue 0 with qcfg := 0x8000000004 }) (fun t => (t.queue 0).qwr == 1 ||
        !(base.queue 0).host) := by decide +kernel
theorem test_meets_ManagementEvents : whoPl 3 = 3 ∧ next (.managementRegisterWrite 3 0x40 0x1000) base (fun t => t.mg.ctxbase == 0x1000) ∧
    barNumber false 1 0x40 = 0x1000040 ∧ next (.managementRegisterWrite 3 0x1000040 0x1000) base (fun t => t.mg.ctxbase == 0 && (t.peers.get 1).ctxbase == 0x1000) ∧
    next (.managementRegisterWrite 0 0x40 0x1000) base (fun t => t.mg.ctxbase == 0) ∧ base.mayControl 3 0 = true ∧ base.oldestGang 0 0 = none ∧ ganged.oldestGang 0 0 = some gang ∧
    next (.endTask 1 0) ganged (fun t => t.cur.run == .ended) := by decide +kernel
theorem test_meets_ObservationEvents : next (.traceEnable 3 0) base (fun t => t.mg.trEn) ∧ next .freezeInput base (fun t => t.frozen) ∧
    next .traceHoldExpiry { base with clk := 50000, trHoldSince := some 1, trHeld := [0] } (fun t => t.trHeld == [] || t.gtc ≤ 10001) ∧
    next (.softError 1 3) base (fun t => t.takeLost.any (fun u => u.cur.mbank.cause == 0x1E)) ∧ next (.lineRetirement 0x80) { base with badSectors := [4, 9] } (fun t =>
      t.badSectors == [9] && t.spared == [1]) ∧ next (.scrubbing 0x0400000000000080) base (fun t => t.corr == [(memSrc 0x80, 0, 0)]) := by decide +kernel
theorem test_meets_RootOfTrustEvents : next .load base (fun t => t.irqs.length == 1 && t.loading == none) ∧ base.mailbox 0 1 ≠ 2 ∧
    (State.goOnWriting { base with clk := 5, rot := { base.rot with writing := some ([1], 5) } }).rot.flash = [1] ∧ ({ base with loading := some ⟨[], 1, 0, [], [], 9⟩ } : State).goOnLoading.loading.isSome = true ∧
    ({ base with clk := 9, loading := some ⟨[], 1, 0, [], [], 9⟩ } : State).goOnLoading.loading.isSome = false ∧ next (.fwgo 16) { base with rot := { base.rot with recovery := true } } (fun t => t.mg.fwstat == 2) ∧
    next .getVersion base (fun t => t.spdm == [.version 1 2]) ∧ base.measure 9 = none := by decide +kernel
theorem test_sha256 : sha256 [0x61, 0x62, 0x63] = 0xBA7816BF8F01CFEA414140DE5DAE2223B00361A396177A9CB410FF61F20015AD := by decide +kernel
theorem test_reset_memory : State.reset.memOk = true := by decide +kernel

end Sys2Proof.Tests
end

namespace Sys2Proof.Machine

open Host (Cell)

/-! The memories of a state stay canonical whatever it does: one lemma for each operation of the model, in the order of the model, which
follows the shape of its definition and cites the lemmas of the operations it calls. `memOk_f` speaks of a function to states, `wf_f` of
one to pads, `keeps_f` of a meaning that may trap (`Keeps`), `safe_f` of a function to outcomes (`Safe`). -/

/-! ### Byte lists and pads -/

theorem Memory.wf_foldl {γ : Type} {f : List Cell → γ → List Cell} {l : List γ} {m : List Cell} (h : Memory.wf m = true)
    (hf : ∀ m x, Memory.wf m = true → Memory.wf (f m x) = true) : Memory.wf (l.foldl f m) = true := by
  induction l generalizing m with
  | nil => exact h
  | cons x l ih => exact ih (hf m x h)

theorem Pad.wf_foldl {γ : Type} {f : Pad → γ → Pad} {l : List γ} {p : Pad} (h : Memory.wf p.mem = true)
    (hf : ∀ p x, Memory.wf p.mem = true → Memory.wf (f p x).mem = true) : Memory.wf (l.foldl f p).mem = true := by
  induction l generalizing p with
  | nil => exact h
  | cons x l ih => exact ih (hf p x h)

theorem Pad.wf_ite {c : Prop} [Decidable c] {p q : Pad} (hp : Memory.wf p.mem = true) (hq : Memory.wf q.mem = true) :
    Memory.wf (if c then p else q).mem = true := by
  split <;> assumption

/-! ### The memories of a state -/

theorem memOk_iff {s : State} : s.memOk = true ↔ Memory.wf s.mem = true ∧ Memory.wf s.hostMem = true ∧
    (∀ p ∈ s.pads, Memory.wf p.mem = true) ∧ ∀ i ∈ s.images, ∀ p ∈ i.pads, Memory.wf p.mem = true := by
  simp [State.memOk, and_assoc]

theorem wf_mem {s : State} (h : s.memOk = true) : Memory.wf s.mem = true := (memOk_iff.mp h).1

theorem wf_hostMem {s : State} (h : s.memOk = true) : Memory.wf s.hostMem = true := (memOk_iff.mp h).2.1

theorem wf_pads {s : State} (h : s.memOk = true) : ∀ p ∈ s.pads, Memory.wf p.mem = true := (memOk_iff.mp h).2.2.1

theorem wf_images {s : State} (h : s.memOk = true) : ∀ i ∈ s.images, ∀ p ∈ i.pads, Memory.wf p.mem = true := (memOk_iff.mp h).2.2.2

/-- Whatever replaces the fields that are no memories, the memories stay canonical. -/
theorem memOk_frame {s : State}
    {cur others turns inputs codeMap ipad loads ldq loading gangs nextGang queues lastQ irqs hostIrqs lastCuts mg feat die pkg
    straps peers farPorts frameOwner seals lineTags badSectors badPads corr failAt retiredLines spared retiredFrames pageCtrs
    moves relNo applied msgs stamps marked held silent expired links trPend trHeld trHoldSince trGap trGapAt wbFailed stands
    collected created rot spdm roce readout frozen clk free}
    (h : s.memOk = true) :
    ({ s with
      cur := cur, others := others, turns := turns, inputs := inputs, codeMap := codeMap, ipad := ipad, loads := loads,
      ldq := ldq, loading := loading, gangs := gangs, nextGang := nextGang, queues := queues, lastQ := lastQ, irqs := irqs,
      hostIrqs := hostIrqs, lastCuts := lastCuts, mg := mg, feat := feat, die := die, pkg := pkg, straps := straps,
      peers := peers, farPorts := farPorts, frameOwner := frameOwner, seals := seals, lineTags := lineTags,
      badSectors := badSectors, badPads := badPads, corr := corr, failAt := failAt, retiredLines := retiredLines,
      spared := spared, retiredFrames := retiredFrames, pageCtrs := pageCtrs, moves := moves, relNo := relNo, applied := applied,
      msgs := msgs, stamps := stamps, marked := marked, held := held, silent := silent, expired := expired, links := links,
      trPend := trPend, trHeld := trHeld, trHoldSince := trHoldSince, trGap := trGap, trGapAt := trGapAt, wbFailed := wbFailed,
      stands := stands, collected := collected, created := created, rot := rot, spdm := spdm, roce := roce, readout := readout,
      frozen := frozen, clk := clk, free := free } : State).memOk = true := h

/-- A change of physical memory, and of anything that is no memory. -/
theorem memOk_of_mem {s t : State} (h : s.memOk = true) (hm : Memory.wf t.mem = true) (hh : t.hostMem = s.hostMem := by rfl)
    (hp : t.pads = s.pads := by rfl) (hi : t.images = s.images := by rfl) : t.memOk = true :=
  memOk_iff.mpr ⟨hm, hh ▸ wf_hostMem h, hp ▸ wf_pads h, hi ▸ wf_images h⟩

/-- A change of the memory of the host, and of anything that is no memory. -/
theorem memOk_of_hostMem {s t : State} (h : s.memOk = true) (hh : Memory.wf t.hostMem = true) (hm : t.mem = s.mem := by rfl)
    (hp : t.pads = s.pads := by rfl) (hi : t.images = s.images := by rfl) : t.memOk = true :=
  memOk_iff.mpr ⟨hm ▸ wf_mem h, hh, hp ▸ wf_pads h, hi ▸ wf_images h⟩

/-- A change of the pads, and of anything that is no memory. -/
theorem memOk_of_pads {s t : State} (h : s.memOk = true) (hp : ∀ p ∈ t.pads, Memory.wf p.mem = true) (hm : t.mem = s.mem := by rfl)
    (hh : t.hostMem = s.hostMem := by rfl) (hi : t.images = s.images := by rfl) : t.memOk = true :=
  memOk_iff.mpr ⟨hm ▸ wf_mem h, hh ▸ wf_hostMem h, hp, hi ▸ wf_images h⟩

/-- A change of the in-place images, and of anything that is no memory. -/
theorem memOk_of_images {s t : State} (h : s.memOk = true) (hi : ∀ i ∈ t.images, ∀ p ∈ i.pads, Memory.wf p.mem = true)
    (hm : t.mem = s.mem := by rfl) (hh : t.hostMem = s.hostMem := by rfl) (hp : t.pads = s.pads := by rfl) : t.memOk = true :=
  memOk_iff.mpr ⟨hm ▸ wf_mem h, hh ▸ wf_hostMem h, hp ▸ wf_pads h, hi⟩

theorem memOk_ite {c : Prop} [Decidable c] {s t : State} (hs : s.memOk = true) (ht : t.memOk = true) :
    (if c then s else t).memOk = true := by
  split <;> assumption

theorem memOk_of_fst {α : Type} {p : State × α} {s : State} {a : α} (hp : p = (s, a)) (h : p.1.memOk = true) : s.memOk = true := by
  rwa [hp] at h

theorem memOk_of_snd {α : Type} {p : α × State} {s : State} {a : α} (hp : p = (a, s)) (h : p.2.memOk = true) : s.memOk = true := by
  rwa [hp] at h

theorem memOk_foldl {γ : Type} {f : State → γ → State} {l : List γ} {s : State} (h : s.memOk = true)
    (hf : ∀ s x, s.memOk = true → (f s x).memOk = true) : (l.foldl f s).memOk = true := by
  induction l generalizing s with
  | nil => exact h
  | cons x l ih => exact ih (hf s x h)

/-! ### Operations that keep them -/

/-- A run has ended, by itself or with a trap, in a state whose memories are canonical. -/
def Ends {α : Type} : EStateM.Result Exn State α → Prop
  | .ok _ t => t.memOk = true
  | .error _ t => t.memOk = true

/-- An operation keeps the memories canonical, whether it ends or traps. -/
def Keeps {α : Type} (m : Ex α) : Prop := ∀ s : State, s.memOk = true → Ends (m s)

theorem Ends.run {α : Type} {m : Ex α} {s : State} (hm : Keeps m) (h : s.memOk = true) : Ends (m s) := hm s h

theorem Ends.ite {α : Type} {c : Prop} [Decidable c] {r q : EStateM.Result Exn State α} (hr : Ends r) (hq : Ends q) :
    Ends (if c then r else q) := by
  split <;> assumption

theorem memOk_of_ok {α : Type} {m : Ex α} {s t : State} {a : α} (hr : m s = .ok a t) (hm : Keeps m) (h : s.memOk = true) :
    t.memOk = true := by
  simpa [hr, Ends] using hm s h

theorem memOk_of_error {α : Type} {m : Ex α} {s t : State} {e : Exn} (hr : m s = .error e t) (hm : Keeps m) (h : s.memOk = true) :
    t.memOk = true := by
  simpa [hr, Ends] using hm s h

theorem memOk_attempt {α : Type} {m : Ex α} {s : State} (h : s.memOk = true) (hm : Keeps m) : (s.attempt m).memOk = true := by
  unfold State.attempt
  split
  · exact memOk_of_ok ‹_› hm h
  · exact memOk_of_error ‹_› hm h

namespace Keeps

variable {α β γ : Type} {m : Ex α} {f : α → Ex β}

theorem pure {a : α} : Keeps (Pure.pure a : Ex α) := fun _ h => h

theorem throw {e : Exn} : Keeps (throw e : Ex α) := fun _ h => h

theorem trapWith {c : BitVec 6} {t1 t2 : W64} : Keeps (trapWith c t1 t2 : Ex α) := throw

theorem bind (hm : Keeps m) (hf : ∀ a, Keeps (f a)) : Keeps (m >>= f) := by
  intro s hs
  simp only [Bind.bind, EStateM.bind]
  cases hr : m s with
  | ok a t => exact hf a t (memOk_of_ok hr hm hs)
  | error e t => exact memOk_of_error hr hm hs

theorem get {k : State → Ex β} (hk : ∀ s : State, s.memOk = true → Keeps (k s)) : Keeps (MonadState.get >>= k) :=
  fun s hs => hk s hs s hs

theorem set {t : State} (h : t.memOk = true) : Keeps (set t : Ex PUnit) := fun _ _ => h

theorem modify {k : State → State} (hk : ∀ s : State, s.memOk = true → (k s).memOk = true) : Keeps (modify k : Ex PUnit) := hk

theorem ite {c : Prop} [Decidable c] {n : Ex α} (hm : Keeps m) (hn : Keeps n) : Keeps (if c then m else n) := by
  split <;> assumption

/-- What stands behind an `if` without `else` comes once. -/
theorem guard {c : Prop} [Decidable c] {n : Ex β} (hm : Keeps m) (hn : Keeps n) : Keeps (if c then m >>= fun _ => n else n) :=
  ite (bind hm fun _ => hn) hn

theorem guard_seq {c : Prop} [Decidable c] {m' : Ex γ} {n : Ex β} (hm : Keeps m) (hm' : Keeps m') (hn : Keeps n) :
    Keeps (if c then m >>= fun _ => m' >>= fun _ => n else n) :=
  ite (bind hm fun _ => bind hm' fun _ => hn) hn

theorem forIn {l : List γ} {b : β} {k : γ → β → Ex (ForInStep β)} (hk : ∀ x r, Keeps (k x r)) : Keeps (ForIn.forIn l b k) := by
  induction l generalizing b with
  | nil => exact .pure
  | cons x l ih =>
    rw [List.forIn_cons]
    refine .bind (hk x b) fun r => ?_
    cases r with
    | done b => exact .pure
    | yield b => exact ih

end Keeps

/-- The step ends with canonical memories, if it ends in a state. -/
def Safe (o : Host.Outcome State Fault Refusal) : Prop := ∀ t, o = .next t → t.memOk = true

theorem Safe.next {t : State} (h : t.memOk = true) : Safe (.next t) := by
  rintro _ ⟨⟩; exact h

theorem Safe.ite {c : Prop} [Decidable c] {o p : Host.Outcome State Fault Refusal} (ho : Safe o) (hp : Safe p) :
    Safe (if c then o else p) := by
  split <;> assumption

end Sys2Proof.Machine

namespace Sys2Proof.Machine

open Host (Cell)

/-! ### Storage, page walks and object pointers -/

theorem memOk_modCur {s : State} {f} (h : s.memOk = true) : (s.modCur f).memOk = true := memOk_frame h

theorem wf_fresh {id} : Memory.wf (Pad.fresh id).mem = true := rfl

theorem memOk_healLines {s : State} {cmp pa n} (h : s.memOk = true) : (s.healLines cmp pa n).memOk = true := memOk_frame h

theorem memOk_healPad {s : State} {id off n} (h : s.memOk = true) : (s.healPad id off n).memOk = true := memOk_frame h

theorem memOk_noteFail {s : State} {rep pa} (h : s.memOk = true) : (s.noteFail rep pa).memOk = true := memOk_frame h

theorem keeps_failMem {α : Type} {rep pa} : Keeps (failMem rep pa : Ex α) :=
  .bind (.modify fun _ hs => memOk_noteFail hs) fun _ => .trapWith

theorem memOk_setTag {s : State} {line t} (h : s.memOk = true) : (s.setTag line t).memOk = true := memOk_frame h

theorem memOk_retagLine {s : State} {whole l} (h : s.memOk = true) : (s.retagLine whole l).memOk = true :=
  memOk_ite (memOk_setTag h) h

theorem memOk_retag {s : State} {pa n} (h : s.memOk = true) : (s.retag pa n).memOk = true :=
  memOk_foldl h fun _ _ hs => memOk_retagLine hs

theorem memOk_physStore {s : State} {pa n v} (h : s.memOk = true) : (s.physStore pa n v).memOk = true :=
  memOk_ite (memOk_retag (memOk_of_mem h (Memory.wf_writeN (wf_mem h) _ _ _))) h

theorem memOk_physZero {s : State} {pa n} (h : s.memOk = true) : (s.physZero pa n).memOk = true :=
  memOk_ite (memOk_retag (memOk_of_mem h (Memory.wf_fill (wf_mem h) _ _ _))) h

theorem memOk_regStore {s : State} {reg k n v} (h : s.memOk = true) : (s.regStore reg k n v).memOk = true := memOk_frame h

theorem memOk_timedOut {s : State} (h : s.memOk = true) : s.timedOut.memOk = true := memOk_frame h

theorem keeps_crossFar {l rep} : Keeps (crossFar l rep) :=
  .get fun _ hs => .ite (.bind (.set (memOk_timedOut hs)) fun _ => .trapWith) .pure

theorem keeps_locRead {l n va} : Keeps (locRead l n va) := by
  unfold locRead
  split
  · exact .get fun _ _ => .ite keeps_failMem .pure
  · exact .get fun _ _ => .pure
  · refine .bind keeps_crossFar fun _ => .get fun _ _ => .ite (.ite keeps_failMem .pure) ?_
    split
    · exact .pure
    · exact keeps_failMem
  · exact .get fun _ hs => .bind (.set (memOk_frame hs)) fun _ => .pure

theorem keeps_locWrite {l n v va} : Keeps (locWrite l n v va) := by
  unfold locWrite
  split
  · refine .get fun _ hs => .ite keeps_failMem ?_
    exact .set (memOk_setPad (memOk_healPad hs) (Memory.wf_writeN (pad_wf (memOk_healPad hs) _) _ _ _))
  · exact .modify fun _ hs => memOk_of_hostMem hs (Memory.wf_writeN (wf_hostMem hs) _ _ _)
  · refine .bind keeps_crossFar fun _ => .get fun _ hs => .ite (.ite keeps_failMem ?_) ?_
    · extract_lets s1
      have h1 : s1.memOk = true := memOk_of_mem hs (Memory.wf_writeN (wf_mem hs) _ _ _)
      exact .set (memOk_ite (memOk_retag h1) h1)
    split
    · exact keeps_failMem
    · exact .set (memOk_regStore hs)
  · exact .pure

theorem keeps_locCells {l k va} : Keeps (locCells l k va) := by
  unfold locCells
  split
  · exact .get fun _ _ => .ite keeps_failMem .pure
  · exact .get fun _ _ => .pure
  · refine .bind keeps_crossFar fun _ => .get fun _ _ => .ite (.ite keeps_failMem .pure) ?_
    split
    · exact .pure
    · exact keeps_failMem
  · exact .get fun _ hs => .bind (.set (memOk_frame hs)) fun _ => .pure

theorem keeps_locFill {l k cs va} : Keeps (locFill l k cs va) := by
  unfold locFill
  split
  · refine .get fun _ hs => .ite keeps_failMem ?_
    exact .set (memOk_setPad (memOk_healPad hs) (Memory.wf_fill (pad_wf (memOk_healPad hs) _) _ _ _))
  · exact .modify fun _ hs => memOk_of_hostMem hs (Memory.wf_fill (wf_hostMem hs) _ _ _)
  · refine .bind keeps_crossFar fun _ => .get fun _ hs => .ite (.ite keeps_failMem ?_) ?_
    · extract_lets s1
      have h1 : s1.memOk = true := memOk_of_mem hs (Memory.wf_fill (wf_mem hs) _ _ _)
      exact .set (memOk_ite (memOk_retag h1) h1)
    split
    · exact keeps_failMem
    · refine .set (memOk_foldl hs fun _ _ hs => ?_)
      split
      · exact memOk_regStore hs
      · exact hs
  · exact .pure

theorem memOk_holdWord {s : State} {ctx base size pa} (h : s.memOk = true) : (s.holdWord ctx base size pa).memOk = true :=
  memOk_ite h (memOk_frame h)

theorem memOk_holdWords {s : State} {ctx base size l} (h : s.memOk = true) : (s.holdWords ctx base size l).memOk = true :=
  memOk_foldl h fun _ _ hs => memOk_holdWord hs

theorem memOk_ownTableWrite {s : State} {pa v} (h : s.memOk = true) : (s.ownTableWrite pa v).memOk = true :=
  memOk_frame (memOk_physStore h)

theorem memOk_dropServing {s : State} {ctx va} (h : s.memOk = true) : (s.dropServing ctx va).memOk = true := memOk_frame h

theorem memOk_holdCtx {s : State} {base ctx} (h : s.memOk = true) : (s.holdCtx base ctx).memOk = true := memOk_holdWords h

theorem memOk_setCtxWord {s : State} {ctx w v} (h : s.memOk = true) : (s.setCtxWord ctx w v).memOk = true := memOk_ownTableWrite h

theorem memOk_walked {s : State} {ctxbase named ctx va} (h : s.memOk = true) : (s.walked ctxbase named ctx va).memOk = true := by
  unfold State.walked
  split
  · exact h
  · exact memOk_foldl (memOk_holdCtx h) fun _ _ hs => memOk_holdWord hs

theorem memOk_zeroFrame {s : State} {f} (h : s.memOk = true) : (s.zeroFrame f).memOk = true :=
  memOk_of_mem h (Memory.wf_fill (wf_mem h) _ _ _)

theorem memOk_takeFrame {s : State} {pa ctx pte tbl} (h : s.memOk = true) : (s.takeFrame pa ctx pte tbl).memOk = true :=
  memOk_ite h (memOk_frame (memOk_foldl h fun _ _ hs => memOk_zeroFrame hs))

theorem memOk_setAD {s : State} {ea pte acc} (h : s.memOk = true) : (s.setAD ea pte acc).memOk = true :=
  memOk_ite h (memOk_frame (memOk_physStore h))

theorem memOk_walkFor {s : State} {ctxbase named ctx va acc user} (h : s.memOk = true) :
    (s.walkFor ctxbase named ctx va acc user).2.memOk = true := by
  unfold State.walkFor
  dsimp only
  split
  · split
    · exact memOk_walked (memOk_dropServing (memOk_walked h))
    · exact memOk_walked h
  · exact memOk_walked h

theorem keeps_useLeaf {d ctxbase named ctx va acc user pin rep deny} :
    Keeps (useLeaf d ctxbase named ctx va acc user pin rep deny) := by
  unfold useLeaf
  refine .get fun _ hs => ?_
  refine .guard keeps_crossFar ?_
  refine .bind (.set (memOk_walkFor hs)) fun _ => ?_
  split
  · exact .throw
  · exact keeps_failMem
  · refine .ite .throw (.ite .throw (.ite keeps_failMem (.ite .throw ?_)))
    exact .bind (.set (memOk_setAD (memOk_takeFrame (memOk_walkFor hs)))) fun _ => .pure

theorem memOk_countPage {s : State} {ctx va pa n setMax} (h : s.memOk = true) : (s.countPage ctx va pa n setMax).memOk = true :=
  memOk_ite (memOk_ite (memOk_frame (memOk_physStore (memOk_frame h))) (memOk_frame (memOk_frame h))) (memOk_frame h)

theorem keeps_translateIn {ctxbase named ctx va acc cnt user rep} : Keeps (translateIn ctxbase named ctx va acc cnt user rep) :=
  .get fun _ _ => .bind keeps_useLeaf fun _ => .bind (.modify fun _ hs1 => memOk_countPage hs1) fun _ => .pure

theorem keeps_setDirtyBit {d ctxbase named ctx va} : Keeps (setDirtyBit d ctxbase named ctx va) := by
  refine .get fun _ _ => .ite .pure (.bind keeps_useLeaf fun _ => .bind keeps_locRead fun _ => .guard .throw ?_)
  exact .bind keeps_useLeaf fun _ => .bind keeps_locRead fun _ => keeps_locWrite

theorem keeps_translateN {va acc cnt} : Keeps (translateN va acc cnt) :=
  .get fun _ _ => .bind keeps_translateIn fun _ => .guard keeps_setDirtyBit .pure

theorem keeps_translate {va acc} : Keeps (translate va acc) := keeps_translateN

theorem memOk_setLink {s : State} {i f} (h : s.memOk = true) : (s.setLink i f).memOk = true := memOk_frame h

theorem memOk_useLink {s : State} {i} (h : s.memOk = true) : (s.useLink i).memOk = true := memOk_setLink (memOk_frame h)

theorem keeps_awayAccess {ptr pkg acc} : Keeps (awayAccess ptr pkg acc) := by
  unfold awayAccess
  refine .get fun _ hs => ?_
  dsimp only
  split
  on_goal 1 => refine .bind .trapWith fun _ => ?_
  on_goal 2 => refine .bind (.set (memOk_useLink hs)) fun _ => ?_
  all_goals
    refine .get fun _ hs => .bind (.set (memOk_frame hs)) fun _ => ?_
    split
    · exact .pure
    · refine .guard (.modify fun _ hs => memOk_frame hs) ?_
      exact .ite (.bind (.modify fun _ hs => memOk_modCur hs) fun _ => .pure) .throw

theorem keeps_peerAccess {addr off n acc cnt} : Keeps (peerAccess addr off n acc cnt) := by
  refine .get fun _ hs => .guard keeps_failMem (.guard .trapWith (.bind (.set (memOk_holdWords (memOk_holdCtx hs))) fun _ => ?_))
  refine .get fun _ hs1 => .guard keeps_failMem (.guard .trapWith (.guard .trapWith (.guard .trapWith ?_)))
  refine .ite keeps_awayAccess (.guard_seq (.set (memOk_timedOut hs1)) .trapWith (.guard keeps_failMem ?_))
  refine .bind (.modify fun _ hs2 => memOk_holdWords hs2) fun _ => .guard .trapWith (.guard .trapWith ?_)
  exact .bind keeps_useLeaf fun _ => .guard (.modify fun _ hs2 => memOk_countPage hs2) (.guard keeps_setDirtyBit .pure)

theorem keeps_checkPtr {p} : Keeps (checkPtr p) := .guard .trapWith (.ite .trapWith .pure)

theorem keeps_locateN {p off n acc cnt} : Keeps (locateN p off n acc cnt) :=
  .get fun _ _ => .ite (.ite .trapWith .pure) (.ite keeps_translateN keeps_peerAccess)

theorem keeps_locate {p off n acc} : Keeps (locate p off n acc) := keeps_locateN

theorem keeps_readObjC {cnt p off n acc} : Keeps (readObjC cnt p off n acc) := by
  refine .bind keeps_locateN fun _ => .bind keeps_locRead fun _ => ?_
  exact .ite (.bind keeps_locateN fun _ => .bind keeps_locRead fun _ => .pure) .pure

theorem keeps_readObj {p off n acc} : Keeps (readObj p off n acc) := keeps_readObjC

theorem keeps_writeObjC {cnt p off n v acc} : Keeps (writeObjC cnt p off n v acc) :=
  .bind keeps_locateN fun _ => .ite (.bind keeps_locateN fun _ => .bind keeps_locWrite fun _ => keeps_locWrite) keeps_locWrite

theorem keeps_writeObj {p off n v acc} : Keeps (writeObj p off n v acc) := keeps_writeObjC

theorem keeps_snapshot {p off n acc} : Keeps (snapshot p off n acc) :=
  .bind (.forIn fun _ _ => .bind keeps_locateN fun _ => .bind keeps_locCells fun _ => .pure) fun _ => .pure

theorem keeps_fillObj {p off n cs acc} : Keeps (fillObj p off n cs acc) :=
  .bind (.forIn fun _ _ => .bind keeps_locate fun _ => .bind keeps_locFill fun _ => .pure) fun _ => .pure

theorem keeps_readHdr {p} : Keeps (readHdr p) := .bind keeps_readObj fun _ => .pure

theorem keeps_readHdr1 {p} : Keeps (readHdr1 p) := .bind keeps_readObj fun _ => .pure

theorem keeps_canonOf {p w0} : Keeps (canonOf p w0) := .ite keeps_readHdr1 .pure

/-! ### Trace and error records -/

theorem keeps_asCtx {α : Type} {m : Ex α} {ctx} (hm : Keeps m) : Keeps (asCtx ctx m : Ex α) := by
  refine .get fun _ _ => .bind (.modify fun _ hs1 => memOk_modCur hs1) fun _ => .bind hm fun _ => ?_
  exact .bind (.modify fun _ hs1 => memOk_modCur hs1) fun _ => .pure

theorem memOk_knowing {s t : State} (h : s.memOk = true) : (s.knowing t).memOk = true := memOk_frame h

theorem memOk_tryStore {s : State} {ctx va n v} (h : s.memOk = true) : (s.tryStore ctx va n v).2.memOk = true := by
  unfold State.tryStore
  split
  · exact h
  · split
    next t e => exact (memOk_of_ok e (keeps_asCtx (.bind keeps_translate fun _ => keeps_locWrite)) h :)
    · exact memOk_knowing h

theorem memOk_tryLoad {s : State} {ctx va n} (h : s.memOk = true) : (s.tryLoad ctx va n).2.memOk = true := by
  unfold State.tryLoad
  split
  · exact h
  · split
    next t e => exact (memOk_of_ok e (keeps_asCtx (.bind keeps_translate fun _ => keeps_locRead)) h :)
    · exact memOk_knowing h

theorem memOk_raiseIrq {s : State} {code t1 t2} (h : s.memOk = true) : (s.raiseIrq code t1 t2).memOk = true := memOk_frame h

theorem memOk_dropTrace {s : State} {at_} (h : s.memOk = true) : (s.dropTrace at_).memOk = true := memOk_frame h

theorem memOk_nextTracePage {s : State} (h : s.memOk = true) : s.nextTracePage.memOk = true := memOk_frame h

theorem memOk_putTrace {s : State} {r} (h : s.memOk = true) : (s.putTrace r).1.memOk = true := by
  unfold State.putTrace
  split
  · exact memOk_dropTrace h
  · split
    next t e => exact memOk_frame (memOk_of_snd e (memOk_tryStore h) :)
    next t e => exact memOk_nextTracePage (memOk_dropTrace (memOk_of_snd e (memOk_tryStore h) :))

theorem memOk_putGap {s : State} {at_ src} (h : s.memOk = true) : (s.putGap at_ src).memOk = true :=
  memOk_ite h (memOk_ite (memOk_frame (memOk_putTrace h)) h)

theorem memOk_putInOrder {s : State} {r} (h : s.memOk = true) : (s.putInOrder r).memOk = true := memOk_putTrace (memOk_putGap h)

theorem memOk_dropHeld1 {s : State} {r} (h : s.memOk = true) : (s.dropHeld1 r).memOk = true :=
  memOk_ite (memOk_frame h) (memOk_dropTrace h)

theorem memOk_dropHeldRecords {s : State} (h : s.memOk = true) : s.dropHeldRecords.memOk = true :=
  memOk_frame (memOk_foldl (memOk_frame h) fun _ _ hs => memOk_dropHeld1 hs)

theorem memOk_writeTraceRec {s : State} {r} (h : s.memOk = true) : (s.writeTraceRec r).memOk = true := by
  unfold State.writeTraceRec
  refine memOk_ite ?_ (memOk_putInOrder h)
  split
  · exact memOk_ite (memOk_frame h) (memOk_frame h)
  · exact memOk_ite (memOk_frame h) (memOk_dropTrace h)

theorem memOk_writeTraceRecs {s : State} {l} (h : s.memOk = true) : (s.writeTraceRecs l).memOk = true :=
  memOk_foldl h fun _ _ hs => memOk_writeTraceRec hs

theorem memOk_flushTick {s : State} (h : s.memOk = true) : s.flushTick.memOk = true :=
  memOk_ite h (memOk_writeTraceRecs (memOk_frame h))

theorem memOk_traceRec {s : State} {r} (h : s.memOk = true) : (s.traceRec r).memOk = true := memOk_frame (memOk_flushTick h)

theorem memOk_expireHold {s : State} (h : s.memOk = true) : s.expireHold.memOk = true := by
  unfold State.expireHold
  split
  · exact h
  · exact memOk_ite h (memOk_dropHeldRecords h)

theorem memOk_flushTrace {s : State} (h : s.memOk = true) : s.flushTrace.memOk = true := by
  unfold State.flushTrace
  refine memOk_ite h ?_
  extract_lets s0 t u
  have hu : u.memOk = true := memOk_frame (memOk_foldl (memOk_frame (memOk_expireHold h)) fun _ _ hs => memOk_putInOrder hs)
  exact memOk_ite (memOk_putGap (memOk_nextTracePage hu)) hu

theorem memOk_traceAt {s : State} {ty ctx lcid src a b} (h : s.memOk = true) : (s.traceAt ty ctx lcid src a b).memOk = true :=
  memOk_ite (memOk_traceRec h) h

theorem memOk_trace {s : State} {ty ctx lcid unit a b} (h : s.memOk = true) : (s.trace ty ctx lcid unit a b).memOk = true :=
  memOk_traceAt h

theorem memOk_errorRecordAt {s : State} {ty ctx lcid src a b} (h : s.memOk = true) :
    (s.errorRecordAt ty ctx lcid src a b).memOk = true :=
  memOk_ite (memOk_frame h) (memOk_traceAt (memOk_raiseIrq (memOk_frame (memOk_physStore h))))

theorem memOk_errorRecord {s : State} {ty ctx lcid unit a b} (h : s.memOk = true) :
    (s.errorRecord ty ctx lcid unit a b).memOk = true :=
  memOk_errorRecordAt h

theorem memOk_corrected {s : State} {src a} (h : s.memOk = true) : (s.corrected src a).memOk = true := by
  unfold State.corrected
  dsimp only
  split
  · exact memOk_errorRecordAt (memOk_frame h)
  · exact memOk_ite (memOk_frame h) (memOk_errorRecordAt (memOk_frame h))

theorem memOk_ownWriteFailed {s : State} {what queue tag ctx va} (h : s.memOk = true) :
    (s.ownWriteFailed what queue tag ctx va).memOk = true :=
  memOk_errorRecord h

theorem memOk_memError {s : State} {ty ctx lcid unit e} (h : s.memOk = true) : (s.memError ty ctx lcid unit e).memOk = true :=
  memOk_ite (memOk_errorRecord (memOk_frame h)) h

theorem memOk_noteTrap {s : State} {ctx lcid unit cause epc e} (h : s.memOk = true) :
    (s.noteTrap ctx lcid unit cause epc e).memOk = true :=
  memOk_memError (memOk_trace (memOk_frame h))

/-! ### Registers, traps and code -/

theorem keeps_cur : Keeps cur := .get fun _ _ => .pure

theorem keeps_modCur {f} : Keeps (modCur f) := .modify fun _ hs => memOk_modCur hs

theorem keeps_rdX {r} : Keeps (rdX r) := .get fun _ _ => .pure

theorem keeps_wrX {r v} : Keeps (wrX r v) := keeps_modCur

theorem keeps_rdP {r} : Keeps (rdP r) := .get fun _ _ => .pure

theorem keeps_wrP {r v} : Keeps (wrP r v) := keeps_modCur

theorem memOk_enterTrap {s : State} {e late int} (h : s.memOk = true) : (s.enterTrap e late int).memOk = true :=
  memOk_noteTrap (memOk_frame h)

theorem keeps_illegal {α : Type} {i} : Keeps (illegal i : Ex α) := .trapWith

theorem keeps_rangeTrap {α : Type} {i reason} : Keeps (rangeTrap i reason : Ex α) := .trapWith

theorem keeps_checkWord {i} : Keeps (checkWord i) := by
  unfold checkWord
  refine .get fun s _ => ?_
  dsimp only
  refine .guard keeps_illegal ?_
  split
  · exact .bind .trapWith fun _ => .ite .trapWith .pure
  · exact .ite .trapWith .pure

theorem memOk_awaited {s : State} {uses} (h : s.memOk = true) : (s.awaited uses).memOk = true := memOk_frame h

theorem memOk_finish {s : State} {fl t} (h : s.memOk = true) : (s.finish fl t).memOk = true := memOk_frame h

theorem keeps_eretCore {i} : Keeps (eretCore i) := .bind keeps_cur fun _ => .guard .trapWith (.bind keeps_modCur fun _ => .pure)

theorem keeps_fetchWords {a k} : Keeps (fetchWords a k) := by
  induction k generalizing a with
  | zero => exact .pure
  | succ _ ih =>
    exact .get fun _ _ => .bind keeps_translateIn fun _ => .bind keeps_locRead fun _ => .bind ih fun _ => .pure

theorem keeps_copyIn {f pref} : Keeps (copyIn f pref) := by
  unfold copyIn
  refine .bind keeps_fetchWords fun _ => .modify fun _ hs => ?_
  dsimp only
  split
  · exact hs
  · exact memOk_frame hs

theorem keeps_prefetchIn {f} : Keeps (prefetchIn f) := by
  unfold prefetchIn
  refine .get fun _ hs => .ite .pure ?_
  split
  next t e => exact .set (memOk_of_ok e keeps_copyIn hs :)
  · exact .set (memOk_memError (memOk_knowing hs))

theorem keeps_prefetchAll {l} : Keeps (prefetchAll l) := by
  induction l with
  | nil => exact .pure
  | cons _ _ ih => exact .bind keeps_prefetchIn fun _ => ih

theorem keeps_prefetchSucc {start} : Keeps (prefetchSucc start) := by
  unfold prefetchSucc
  refine .get fun _ _ => ?_
  split
  · exact .pure
  · exact keeps_prefetchAll

theorem keeps_enterCode {tgt} : Keeps (enterCode tgt) := by
  unfold enterCode
  refine .get fun _ _ => ?_
  refine .guard .trapWith ?_
  split
  · exact .trapWith
  · exact .guard keeps_copyIn (.bind (.modify fun _ hs1 => memOk_frame hs1) fun _ => .ite keeps_prefetchSucc .pure)

/-! ### Objects and the janitor -/

theorem wf_setWord {p : Pad} {off w} (hp : Memory.wf p.mem = true) : Memory.wf (Pad.setWord p off w).mem = true :=
  Memory.wf_writeN hp _ _ _

theorem memOk_mapCores {s : State} {f} (h : s.memOk = true) : (s.mapCores f).memOk = true := memOk_frame h

theorem memOk_createCtx {s : State} {ctx} (h : s.memOk = true) : (s.createCtx ctx).memOk = true :=
  memOk_ite h (memOk_frame (memOk_physZero h))

theorem memOk_setTidEntry {s : State} {ctx tid e} (h : s.memOk = true) : (s.setTidEntry ctx tid e).memOk = true :=
  memOk_physStore h

theorem memOk_dirtied {s t : State} {d ctx va pa} (h : s.memOk = true) (ht : s.dirtied d ctx va pa = some t) :
    t.memOk = true := by
  unfold State.dirtied at ht
  dsimp only at ht
  split at ht
  next e =>
    obtain rfl := Option.some.inj ht
    refine memOk_of_ok e keeps_setDirtyBit ?_
    split
    next e => exact memOk_ite (memOk_of_ok e keeps_useLeaf h) h
    · exact h
  · exact absurd ht (by simp)

theorem memOk_markP {s : State} {on k} (h : s.memOk = true) : (s.markP on k).memOk = true := by
  unfold State.markP
  dsimp only
  split
  · split
    next e => exact memOk_ite (memOk_setPad h (wf_setWord (wf_pads h _ (List.mem_of_find?_eq_some e)))) h
    · exact h
  · refine memOk_ite h ?_
    split
    next e =>
      have ht := memOk_dirtied h e
      exact memOk_ite (memOk_of_hostMem ht (Memory.wf_writeN (wf_hostMem ht) _ _ _)) (memOk_physStore ht)
    · exact h
  · exact h

theorem memOk_syncPins {s : State} (h : s.memOk = true) : s.syncPins.memOk = true :=
  memOk_ite h (memOk_frame (memOk_foldl (memOk_foldl h fun _ _ hs => memOk_markP hs) fun _ _ hs => memOk_markP hs))

theorem wf_forward {p : Pad} {m} (hp : Memory.wf p.mem = true) : Memory.wf (Pad.forward m p).mem = true :=
  Pad.wf_foldl hp fun _ _ hs => Pad.wf_ite (wf_setWord (Pad.wf_foldl hs fun _ _ hs1 =>
    Pad.wf_ite (wf_setWord hs1) hs1)) (Pad.wf_foldl hs fun _ _ hs1 => Pad.wf_ite (wf_setWord hs1) hs1)

theorem memOk_forwardAll {s : State} {id ctx m} (h : s.memOk = true) : (s.forwardAll id ctx m).memOk = true := by
  unfold State.forwardAll
  refine memOk_foldl (memOk_of_pads h fun p hp => ?_) fun _ _ hs => memOk_ite (memOk_setTidEntry hs) hs
  obtain ⟨q, hq, rfl⟩ := List.mem_map.mp hp
  exact Pad.wf_ite (wf_forward (wf_pads h q hq)) (wf_pads h q hq)

theorem keeps_allOrNothing {α : Type} {m : Ex α} (hm : Keeps m) : Keeps (allOrNothing m : Ex α) := by
  unfold allOrNothing
  refine fun _ hs => ?_
  dsimp only
  split
  next t e => exact (memOk_of_ok e hm hs :)
  · exact memOk_frame hs

theorem keeps_roomOr {α : Type} {m : Ex α} {d} (hm : Keeps m) : Keeps (roomOr d m : Ex α) := by
  unfold roomOr
  refine fun _ hs => ?_
  dsimp only
  split
  next t e => exact (memOk_of_ok e hm hs :)
  next t e =>
    have ht : t.memOk = true := memOk_of_error e hm hs
    exact .ite ht ht

theorem memOk_healBytes {s : State} {cmp base bs} (h : s.memOk = true) : (s.healBytes cmp base bs).memOk = true :=
  memOk_ite h (memOk_frame h)

theorem keeps_storeBytes {l bs va} : Keeps (storeBytes l bs va) := by
  unfold storeBytes
  extract_lets put
  have hput : ∀ base m, Memory.wf m = true → Memory.wf (put base m) = true :=
    fun _ _ hm => Memory.wf_foldl hm fun _ _ hm => Memory.wf_write hm _ _
  split
  · exact .get fun _ hs => .ite keeps_failMem (.set (memOk_setPad (memOk_frame hs) (hput _ _ (pad_wf (memOk_frame hs) _))))
  · exact .modify fun _ hs => memOk_of_hostMem hs (hput _ _ (wf_hostMem hs))
  · refine .bind keeps_crossFar fun _ => .get fun s hs => .ite (.ite keeps_failMem ?_) ?_
    · extract_lets s2
      have h2 : s2.memOk = true := memOk_of_mem (memOk_healBytes hs) (hput _ _ (wf_mem (memOk_healBytes hs)))
      exact .set (memOk_ite (memOk_foldl h2 fun _ _ hs => memOk_retagLine hs) h2)
    · exact .bind (.forIn fun _ _ => .bind keeps_locWrite fun _ => .pure) fun _ => .pure
  · exact .pure

theorem keeps_mergePages {canon bs l} : Keeps (mergePages canon bs l) := by
  induction l with
  | nil => exact .pure
  | cons _ _ ih =>
    unfold mergePages
    dsimp only
    split
    · exact .bind keeps_locateN fun _ => .bind keeps_storeBytes fun _ => ih
    · exact ih

theorem keeps_mergeBytes {canon bs} : Keeps (mergeBytes canon bs) := keeps_mergePages

theorem wf_clean {p : Pad} {off} (hp : Memory.wf p.mem = true) : Memory.wf (Pad.clean p off).mem = true := wf_setWord hp

theorem keeps_padReadable {id off n rep} : Keeps (padReadable id off n rep) := .get fun _ _ => .ite keeps_failMem .pure

theorem keeps_dirtyReadable {id off rep} : Keeps (dirtyReadable id off rep) := .get fun _ _ => .ite keeps_failMem .pure

theorem keeps_writeBack {id off} : Keeps (writeBack id off) := by
  unfold writeBack
  refine .get fun _ _ => .ite ?_ .pure
  refine .bind (fun _ hs1 => ?_) fun _ => .modify fun _ hs1 => memOk_setPad hs1 (wf_clean (pad_wf hs1 _))
  split
  next t e => exact (memOk_of_ok e (.bind keeps_dirtyReadable fun _ => keeps_mergeBytes) hs1 :)
  · exact memOk_frame hs1

theorem keeps_writeBackAll {id l} : Keeps (writeBackAll id l) := by
  induction l with
  | nil => exact .pure
  | cons _ _ ih => exact .bind keeps_writeBack fun _ => ih

theorem memOk_bumpPad {s : State} {id size} (h : s.memOk = true) {r} (hr : s.bumpPad id size = some r) : r.2.memOk = true := by
  unfold State.bumpPad at hr
  dsimp only at hr
  split at hr
  · obtain rfl := Option.some.inj hr
    exact memOk_setPad h (Memory.wf_fill (pad_wf h _) _ _ _)
  · exact absurd hr (by simp)

theorem keeps_heapPlace {size} : Keeps (heapPlace size) := by
  refine .get fun _ hs => .guard keeps_failMem (.guard .trapWith (.bind (.set (memOk_setCtxWord hs)) fun _ => ?_))
  exact .bind keeps_fillObj fun _ => .pure

theorem keeps_reserveEach {reserve : ℕ → ℕ → Ex W64} {h l} (hreserve : ∀ x y, Keeps (reserve x y)) :
    Keeps (reserveEach reserve h l) := by
  induction l with
  | nil => exact .pure
  | cons _ _ ih =>
    refine .get fun _ _ => .bind (hreserve _ _) fun _ => .bind keeps_writeObj fun _ => .bind keeps_modCur fun _ => ?_
    exact .bind ih fun _ => .bind keeps_modCur fun _ => .pure

theorem keeps_reserveUp {reserve : ℕ → ℕ → Ex W64} {check : List W64 → Ex Bool} {k k1 l l1}
    (hreserve : ∀ x y, Keeps (reserve x y)) (hcheck : ∀ x, Keeps (check x)) : Keeps (reserveUp reserve check k k1 l l1) := by
  induction k generalizing k1 l1 with
  | zero => exact .pure
  | succ _ ih =>
    refine .get fun _ _ => .bind (hcheck _) fun _ => .ite .pure (.bind (keeps_reserveEach fun _ _ => hreserve _ _) fun _ => ?_)
    exact .ite .pure (.bind keeps_modCur fun _ => .bind ih fun _ => .bind keeps_modCur fun _ => .pure)

theorem keeps_unpinned {α : Type} {m : Ex α} (hm : Keeps m) : Keeps (unpinned m : Ex α) := by
  unfold unpinned
  refine fun _ hs => ?_
  dsimp only
  split
  next t e => exact memOk_modCur (memOk_of_ok e hm hs :)
  next t e => exact memOk_modCur (memOk_of_error e hm hs :)

theorem keeps_moveObj {id o n w1} : Keeps (moveObj id o n w1) :=
  .get fun _ _ => .bind keeps_padReadable fun _ => .bind keeps_fillObj fun _ => keeps_writeObj

theorem keeps_patchMoved {m l} : Keeps (patchMoved m l) := by
  induction l with
  | nil => exact .pure
  | cons _ _ ih =>
    exact .bind keeps_readHdr fun _ => .guard (.forIn fun _ _ => .bind keeps_readObj fun _ => .guard keeps_writeObj .pure) ih

theorem keeps_moveAll {home l} : Keeps (moveAll home l) := by
  induction l with
  | nil => exact .pure
  | cons _ _ ih => exact .get fun _ _ => .bind keeps_moveObj fun _ => ih

theorem keeps_forwardLevels {m} : Keeps (forwardLevels m) :=
  .bind (.forIn fun _ _ => .guard (.modify fun _ hs => memOk_forwardAll hs) .pure) fun _ => .pure

theorem keeps_noted {m : Ex Unit} {lvl} (hm : Keeps m) : Keeps (noted lvl m) := by
  unfold noted
  refine fun _ hs => ?_
  dsimp only
  split
  next t e => exact memOk_frame (memOk_of_ok e hm hs :)
  next t e =>
    have ht : t.memOk = true := memOk_of_error e hm hs
    exact memOk_ite (memOk_frame ht) ht

theorem keeps_mayCollect {id live} : Keeps (mayCollect id live) := by
  unfold mayCollect
  refine .get fun s _ => ?_
  dsimp only
  refine .guard keeps_failMem ?_
  split
  · exact .bind keeps_failMem fun _ => .ite .trapWith .pure
  · exact .ite .trapWith .pure

theorem keeps_nonePinned {id cl} : Keeps (nonePinned id cl) := .get fun _ _ => .guard .trapWith .pure

theorem keeps_collectWith {reserve : ℕ → ℕ → Ex W64} {up id} (hreserve : ∀ x y, Keeps (reserve x y)) :
    Keeps (collectWith reserve up id) := by
  refine keeps_noted (.get fun _ _ => .bind keeps_mayCollect fun _ => ?_)
  refine .bind (keeps_unpinned (keeps_reserveUp hreserve fun _ => keeps_nonePinned)) fun _ => ?_
  refine .bind keeps_writeBackAll fun _ => .bind keeps_moveAll fun _ => .get fun _ hs => ?_
  refine .bind (.set (memOk_forwardAll (memOk_mapCores ?_))) fun _ => .bind keeps_forwardLevels fun _ => ?_
  · exact memOk_setPad hs (Mem.wf_filter (pad_wf hs _) _)
  · exact .bind keeps_patchMoved fun _ => .get fun _ hs => .set (memOk_trace (memOk_frame hs))

theorem keeps_place {l0 size k k1} : Keeps (place l0 size k k1) := by
  induction k generalizing l0 size k1 with
  | zero => exact .ite keeps_heapPlace .trapWith
  | succ _ ih =>
    unfold place
    refine .ite keeps_heapPlace ?_
    refine .get fun _ hs => .ite ?_ (.ite .trapWith ih)
    split
    next t e => exact .bind (.set (memOk_bumpPad hs e :)) fun _ => .pure
    · refine .bind (keeps_roomOr (keeps_collectWith fun _ _ => ih)) fun _ => .get fun _ hs1 => ?_
      split
      next t e => exact .bind (.set (memOk_bumpPad hs1 e :)) fun _ => .pure
      · exact .ite .trapWith ih

theorem keeps_placeAt {l size} : Keeps (placeAt l size) := by
  unfold placeAt
  refine fun _ hs => ?_
  dsimp only
  split
  next t e => exact memOk_frame (memOk_of_ok e keeps_place hs :)
  next t e => exact memOk_frame (memOk_of_error e keeps_place hs :)

theorem keeps_collect {l} : Keeps (collect l) := .get fun _ _ => keeps_collectWith fun _ _ => keeps_place

theorem memOk_recollect {s : State} {levels} (h : s.memOk = true) : (s.recollect levels).memOk = true := by
  unfold State.recollect
  refine memOk_foldl h fun _ _ hs => ?_
  split
  next t e => exact memOk_frame (memOk_of_ok e keeps_collect hs :)
  next t e => exact memOk_frame (memOk_of_error e keeps_collect hs :)

theorem memOk_collectBack {s : State} {lvl} (h : s.memOk = true) : (s.collectBack lvl).memOk = true := by
  unfold State.collectBack
  split
  next t e => exact memOk_frame (memOk_of_ok e keeps_collect h :)
  next t e => exact memOk_memError (memOk_frame (memOk_of_error e keeps_collect h :))

theorem keeps_placeCopy {size lvl k k1} : Keeps (placeCopy size lvl k k1) := by
  induction k generalizing k1 with
  | zero => exact .pure
  | succ _ ih =>
    unfold placeCopy
    refine .ite .pure ?_
    refine .get fun _ hs => .ite ?_ ih
    split
    next t e => exact .bind (.set (memOk_bumpPad hs e :)) fun _ => .pure
    · refine .bind (fun _ hs1 => ?_) fun _ => ?_
      · split
        next t e => exact memOk_frame (memOk_of_ok e keeps_collect hs1 :)
        next t e =>
          have ht : t.memOk = true := memOk_of_error e keeps_collect hs1
          exact .ite (memOk_frame ht) (memOk_frame ht)
      · refine .get fun _ hs1 => ?_
        split
        next t e => exact .bind (.set (memOk_bumpPad hs1 e :)) fun _ => .pure
        · exact ih

theorem keeps_evictCopy {canon cp} : Keeps (evictCopy canon cp) :=
  .get fun _ _ => .bind keeps_writeBack fun _ => .modify fun _ hs1 => memOk_forwardAll (memOk_modCur hs1)

theorem keeps_markShared {p w0} : Keeps (markShared p w0) := by
  unfold markShared
  refine .bind keeps_locateN fun _ => .get fun _ _ => ?_
  dsimp only
  split
  · exact .pure
  · exact .pure
  · exact .bind keeps_setDirtyBit fun _ => keeps_locWrite

theorem keeps_ctxCheck {p w0} : Keeps (ctxCheck p w0) := .get fun _ _ => .guard .trapWith (.ite keeps_markShared .pure)

theorem keeps_touch {r} : Keeps (touch r) := by
  unfold touch
  refine .bind keeps_rdP fun _ => .bind keeps_checkPtr fun _ => .bind keeps_readHdr fun _ => .guard .trapWith ?_
  refine .bind keeps_ctxCheck fun _ => .ite (.bind keeps_modCur fun _ => .pure) (.ite .pure (.get fun _ _ => ?_))
  split
  · exact .pure
  refine .ite .pure ?_
  split
  · exact .bind keeps_modCur fun _ => .bind keeps_readHdr fun _ => .bind keeps_wrP fun _ => .pure
  refine .ite ?_ ?_
  on_goal 1 =>
    split
    on_goal 1 => refine .bind keeps_evictCopy fun _ => ?_
  all_goals
    refine .bind keeps_placeCopy fun _ => ?_
    split
    · exact .pure
    refine .bind keeps_rdP fun _ => .get fun _ _ => .bind (fun _ hs => ?_) fun _ => ?_
    · split
      next e => exact (memOk_of_ok e keeps_snapshot hs :)
      next e =>
        have ht := memOk_of_error e keeps_snapshot hs
        exact memOk_setPad ht (pad_wf ht _)
    · exact .bind keeps_fillObj fun _ => .bind keeps_writeObj fun _ => .bind keeps_modCur fun _ => .bind keeps_wrP fun _ => .pure

theorem keeps_markDirty {p o n} : Keeps (markDirty p o n) :=
  .ite (.modify fun _ hs => memOk_ite (memOk_setPad hs (Pad.wf_ite (pad_wf hs _) (wf_setWord (pad_wf hs _)))) hs) .pure

theorem keeps_readPay {p o n acc} : Keeps (readPay p o n acc) := keeps_readObj

theorem keeps_writePayC {cnt p o n v acc} : Keeps (writePayC cnt p o n v acc) := .bind keeps_writeObjC fun _ => keeps_markDirty

theorem keeps_writePay {p o n v acc} : Keeps (writePay p o n v acc) := keeps_writePayC

theorem keeps_lenOf {v} : Keeps (lenOf v) := .ite .pure (.bind keeps_readHdr fun _ => .bind keeps_ctxCheck fun _ => .pure)

theorem keeps_allocObj {l kind len} : Keeps (allocObj l kind len) :=
  .bind keeps_placeAt fun _ => .get fun _ _ => .bind keeps_writeObj fun _ => .pure

theorem keeps_homeLevel {p w0} : Keeps (homeLevel p w0) := .bind keeps_canonOf fun _ => .pure

theorem keeps_promoteCheck {cl} : Keeps (promoteCheck cl) := by
  unfold promoteCheck
  refine .get fun _ _ => ?_
  refine .guard keeps_failMem ?_
  refine .bind ?_ fun _ => ?_
  · refine .forIn fun _ _ => .bind keeps_padReadable fun _ => ?_
    refine .guard keeps_padReadable ?_
    split
    · exact .bind .trapWith fun _ => .pure
    · exact .pure
  · refine .bind ?_ fun _ => .pure
    refine .forIn fun _ _ => ?_
    dsimp only
    split
    · exact .bind .trapWith fun _ => .guard .trapWith .pure
    · exact .guard .trapWith .pure

theorem keeps_promote {v h} : Keeps (promote v h) := by
  unfold promote
  refine .get fun _ _ => ?_
  refine .bind (keeps_unpinned (keeps_reserveUp (fun _ _ => keeps_placeAt) fun _ => keeps_promoteCheck)) fun _ => ?_
  split
  · exact .pure
  · exact .bind keeps_moveAll fun _ => .bind keeps_forwardLevels fun _ => .bind keeps_patchMoved fun _ => .pure

theorem memOk_addStamp {s : State} {o v} (h : s.memOk = true) : (s.addStamp o v).memOk = true := memOk_frame h

theorem keeps_stampRelease {canon} : Keeps (stampRelease canon) := .modify fun _ hs => memOk_frame (memOk_addStamp hs)

theorem keeps_observe {canon} : Keeps (observe canon) := by
  unfold observe
  refine .modify fun _ hs => ?_
  split
  · exact memOk_frame hs
  · exact hs

theorem keeps_raiseVer {p} : Keeps (raiseVer p) := .bind keeps_readObj fun _ => keeps_writeObj

theorem memOk_applyMerge {s : State} {m} (h : s.memOk = true) : (s.applyMerge m).memOk = true := by
  unfold State.applyMerge
  dsimp only
  split
  next t e => exact (memOk_of_ok e (keeps_asCtx (.bind keeps_raiseVer fun _ => keeps_mergeBytes)) h :)
  · exact memOk_knowing h

theorem memOk_shareHome {s : State} {o} (h : s.memOk = true) : (s.shareHome o).memOk = true := by
  unfold State.shareHome
  refine memOk_ite h ?_
  split
  next t e => exact (memOk_of_ok e (keeps_asCtx (.bind keeps_readHdr fun _ => .ite keeps_writeObj .pure)) h :)
  · exact memOk_knowing h

theorem memOk_applyThis {s : State} {m} (h : s.memOk = true) : (s.applyThis m).memOk = true := by
  unfold State.applyThis
  extract_lets src s1 s2
  have h1 : s1.memOk = true := memOk_frame (memOk_addStamp h)
  have h2 : s2.memOk = true := memOk_ite h1 (memOk_shareHome h1)
  split
  · exact memOk_applyMerge h2
  · exact h2

theorem memOk_applyMsg {s : State} (h : s.memOk = true) : s.applyMsg.memOk = true := by
  unfold State.applyMsg
  split
  · exact h
  · exact memOk_applyThis h

theorem memOk_applyMsgs {s : State} {k} (h : s.memOk = true) : (s.applyMsgs k).memOk = true := by
  induction k generalizing s with
  | zero => exact h
  | succ _ ih => exact ih (memOk_applyMsg h)

theorem memOk_messagesCome {s : State} (h : s.memOk = true) : s.messagesCome.memOk = true :=
  memOk_ite h (memOk_applyMsgs (memOk_frame h))

theorem memOk_applyNeeded {s : State} {p k} (h : s.memOk = true) : (State.applyNeeded p s k).memOk = true := by
  induction k generalizing s with
  | zero => exact h
  | succ _ ih => exact memOk_ite h (ih (memOk_applyMsg h))

theorem memOk_forAcquire {s : State} {p} (h : s.memOk = true) : (s.forAcquire p).memOk = true :=
  memOk_applyNeeded (memOk_messagesCome h)

theorem keeps_ackedNow {before} : Keeps (ackedNow before) := by
  unfold ackedNow
  refine .get fun _ _ => ?_
  split
  · exact .throw
  · exact .pure

theorem keeps_release {p w0} : Keeps (release p w0) := by
  refine .ite ?_ ?_
  · refine .get fun _ _ => .bind keeps_dirtyReadable fun _ => .bind keeps_mergeBytes fun _ => .bind keeps_raiseVer fun _ => ?_
    refine .bind keeps_ackedNow fun _ => .bind (.modify fun _ hs1 => memOk_setPad hs1 (wf_clean (pad_wf hs1 _))) fun _ => ?_
    exact keeps_stampRelease
  · exact .get fun _ _ => .bind keeps_raiseVer fun _ => .bind keeps_ackedNow fun _ => keeps_stampRelease

theorem keeps_acquire {p w0} : Keeps (acquire p w0) := by
  refine .ite ?_ ?_
  · refine .get fun _ _ => .bind keeps_snapshot fun _ => .bind keeps_padReadable fun _ => ?_
    exact .bind (.modify fun _ hs1 => memOk_setPad hs1 (Memory.wf_fill (pad_wf hs1 _) _ _ _)) fun _ => keeps_observe
  · exact .bind keeps_readHdr1 fun _ => keeps_observe

/-! ### Tensor entries, the tile loader and words -/

theorem keeps_needEntry {i accept e} : Keeps (needEntry i accept e) := by
  unfold needEntry
  refine .get fun _ _ => ?_
  split
  · exact keeps_rangeTrap
  · exact .pure

theorem keeps_placeHdr {p} : Keeps (placeHdr p) :=
  .bind keeps_checkPtr fun _ => .bind keeps_readObjC fun _ => .guard .trapWith .pure

theorem keeps_ackedLate {m : Ex Unit} (hm : Keeps m) : Keeps (ackedLate m) := by
  unfold ackedLate
  refine .get fun _ _ => .bind hm fun _ => .get fun _ _ => ?_
  split
  · exact .pure
  · exact .bind keeps_modCur fun _ => .throw

theorem keeps_readSeg {e i0 r cnt acc} : Keeps (readSeg e i0 r cnt acc) :=
  .bind keeps_placeHdr fun _ => .guard .trapWith (.bind keeps_readPay fun _ => .pure)

theorem keeps_readSide {p o n acc} : Keeps (readSide p o n acc) := .bind keeps_placeHdr fun _ => .guard .trapWith keeps_readPay

theorem keeps_readScaleF {e r k acc} : Keeps (readScaleF e r k acc) :=
  .bind keeps_readSide fun _ => .ite (.bind keeps_readSide fun _ => .pure) .pure

theorem keeps_readScale {e r k acc} : Keeps (readScale e r k acc) := .bind keeps_readScaleF fun _ => .pure

theorem keeps_rowSide {e i0 r cnt k k1} : Keeps (rowSide e i0 r cnt k k1) := by
  induction k generalizing k1 with
  | zero => exact .pure
  | succ _ ih => exact .bind (.ite .pure (.ite keeps_readScale .pure)) fun _ => .bind ih fun _ => .pure

theorem keeps_loadRow {e rc j} : Keeps (loadRow e rc j) :=
  .bind (.ite .pure keeps_readSeg) fun _ => .bind keeps_rowSide fun _ => .pure

theorem keeps_loadStep {r} : Keeps (loadStep r) := .bind keeps_needEntry fun _ => keeps_loadRow

theorem memOk_landRow {s : State} (h : s.memOk = true) : s.landRow.memOk = true := by
  unfold State.landRow
  split
  · exact h
  · split
    · exact memOk_modCur h
    · split
      next t e => exact memOk_modCur (memOk_of_error e keeps_loadStep h :)
      next t e => exact memOk_modCur (memOk_of_ok e keeps_loadStep h :)

theorem memOk_landRows {s : State} {k} (h : s.memOk = true) : (s.landRows k).memOk = true := by
  induction k generalizing s with
  | zero => exact h
  | succ _ ih => exact memOk_ite h (ih (memOk_landRow h))

theorem memOk_finishLoads {s : State} (h : s.memOk = true) : s.finishLoads.memOk = true := memOk_landRows h

theorem memOk_quiesce {s : State} (h : s.memOk = true) : s.quiesce.memOk = true :=
  memOk_frame (memOk_modCur (memOk_ite h (memOk_finishLoads h)))

theorem memOk_takeTrap {s : State} {e int} (h : s.memOk = true) : (s.takeTrap e int).memOk = true := by
  unfold State.takeTrap
  dsimp only
  split <;> exact memOk_enterTrap (memOk_quiesce h)

theorem memOk_takeLate {s : State} (h : s.memOk = true) : s.takeLate.memOk = true := by
  unfold State.takeLate
  split
  · exact memOk_enterTrap (memOk_quiesce h)
  · exact h

theorem memOk_stall {s : State} (h : s.memOk = true) : s.stall.memOk = true := memOk_finish h

theorem safe_draining {f : State → Host.Outcome State Fault Refusal} {s : State} (hf : ∀ x, x.memOk = true → Safe (f x))
    (h : s.memOk = true) : Safe (draining f s) := by
  unfold draining
  split
  · exact .next (memOk_takeLate (memOk_modCur h))
  · exact .ite (.next (memOk_stall h)) (hf _ h)

theorem memOk_undone {s t : State} (h : s.memOk = true) (ht : t.memOk = true) : (s.undone t).memOk = true := by
  unfold State.undone
  refine memOk_ite ht (memOk_ite (memOk_modCur (memOk_frame ht)) ?_)
  extract_lets v c u
  have hu : u.memOk = true := memOk_frame (memOk_recollect h)
  exact memOk_ite (memOk_setCtxWord hu) hu

theorem memOk_trapFrom {s : State} {t : State} {e} (h : s.memOk = true) (ht : t.memOk = true) : (s.trapFrom t e).memOk = true :=
  memOk_ite (memOk_stall h) (memOk_takeTrap (memOk_undone h ht))

theorem safe_runWord {body : Ex Flow} {s : State} {i t} (hbody : Keeps body) (h : s.memOk = true) :
    Safe (runWord i t body s) := by
  unfold runWord
  refine .ite (.next (memOk_ite (memOk_takeLate h) (memOk_stall h))) ?_
  dsimp only
  split
  next t1 e => exact .next (memOk_finish (memOk_of_ok e (.bind keeps_checkWord fun _ => hbody) (memOk_awaited h) :))
  next t1 e =>
    exact .next (memOk_trapFrom (memOk_awaited h) (memOk_of_error e (.bind keeps_checkWord fun _ => hbody) (memOk_awaited h) :))

theorem safe_runStep {f : State → State} {s : State} (hf : ∀ x, x.memOk = true → (f x).memOk = true) (h : s.memOk = true) :
    Safe (runStep f s) :=
  .next (hf _ h)

/-! ### Flags and modes -/

theorem keeps_raiseFlags {f} : Keeps (raiseFlags f) := keeps_modCur

/-! ### The coprocessor -/

theorem keeps_issueWork {act : RingEntry → Ex Issued} {u r ci} (hact : ∀ x, Keeps (act x)) : Keeps (issueWork u act r ci) := by
  unfold issueWork
  refine fun _ hs => ?_
  dsimp only
  split
  next t e => exact memOk_modCur (memOk_of_error e (hact _) (memOk_modCur hs) :)
  next t e => exact memOk_modCur (memOk_of_ok e (hact _) (memOk_modCur hs) :)

theorem keeps_issueNow {act : RingEntry → Ex Issued} {u r} (hact : ∀ x, Keeps (act x)) : Keeps (issueNow u act r) := by
  unfold issueNow
  intro s hs
  beta_reduce
  extract_lets s0
  have h0 : s0.memOk = true := memOk_ite (memOk_finishLoads hs) hs
  exact .ite h0 (.ite (memOk_modCur h0) (.run (keeps_issueWork hact) (memOk_modCur h0)))

theorem keeps_issue {act : RingEntry → Ex Issued} {u q} (hact : ∀ x, Keeps (act x)) : Keeps (issue u act q) := by
  unfold issue
  refine fun _ hs => ?_
  dsimp only
  split
  · exact .ite hs (.ite (memOk_modCur hs) (.run (keeps_issueNow fun _ => hact _) (memOk_modCur hs)))
  · exact hs

theorem keeps_dispatch {i k} : Keeps (dispatch i k) := .bind keeps_cur fun _ => .bind keeps_modCur fun _ => .pure

theorem keeps_orStall {m : Ex Bool} (hm : Keeps m) : Keeps (orStall m) := by
  unfold orStall
  refine fun _ hs => ?_
  dsimp only
  split
  next t e => exact (memOk_of_ok e hm hs :)
  · exact memOk_finishLoads hs
  next t e => exact (memOk_of_error e hm hs :)

theorem keeps_enqueue {prep : Ex Capture} {act : RingEntry → Ex Issued} {i u} (hprep : Keeps prep) (hact : ∀ x, Keeps (act x)) :
    Keeps (enqueue i u prep act) :=
  keeps_orStall (.bind keeps_cur fun _ => .ite .pure (.bind hprep fun _ => .get fun _ _ =>
    .ite .pure (.bind keeps_dispatch fun _ => .guard (keeps_issue fun _ => hact _) .pure)))

theorem safe_runCop {prep : Ex Capture} {act : RingEntry → Ex Issued} {s : State} {i uses u} (hprep : Keeps prep)
    (hact : ∀ x, Keeps (act x)) (h : s.memOk = true) : Safe (runCop i uses u prep act s) :=
  safe_runWord (.bind keeps_cur fun _ => .guard keeps_rangeTrap (keeps_enqueue hprep fun _ => hact _)) h

theorem keeps_noCapture : Keeps noCapture := .pure

theorem keeps_captureX {a b} : Keeps (captureX a b) := .bind keeps_cur fun _ => .pure

theorem keeps_holdSources {r s1 s2 m} : Keeps (holdSources r s1 s2 m) := .ite .pure (.bind keeps_modCur fun _ => .pure)

theorem keeps_setProgress {q n} : Keeps (setProgress q n) := keeps_modCur

theorem keeps_drain : Keeps drain := by
  unfold drain
  refine .bind (.modify fun _ hs => memOk_quiesce hs) fun _ => .get fun _ _ => ?_
  split
  · exact .throw
  · exact .pure

/-! ### Vector instructions -/

theorem keeps_elementWise {d t m n busy lat f e} : Keeps (elementWise d t m n busy lat f e) :=
  .bind keeps_cur fun _ => .bind keeps_raiseFlags fun _ => .pure

theorem keeps_compare {d a b m n t f e} : Keeps (compare d a b m n t f e) :=
  .bind keeps_cur fun _ => .bind keeps_raiseFlags fun _ => .pure

theorem keeps_reduce {op d a m n t e} : Keeps (reduce op d a m n t e) :=
  .bind keeps_cur fun _ => .bind keeps_raiseFlags fun _ => .pure

theorem keeps_scan {op d a m n t e} : Keeps (scan op d a m n t e) :=
  .bind keeps_cur fun _ => .bind keeps_raiseFlags fun _ => .pure

theorem keeps_convertVec {ov d a s m n t e} : Keeps (convertVec ov d a s m n t e) :=
  .bind keeps_cur fun _ => .bind keeps_raiseFlags fun _ => .pure

theorem keeps_quantVec {d a b t _e} : Keeps (quantVec d a b t _e) :=
  .bind keeps_cur fun _ => .bind keeps_raiseFlags fun _ => .pure

/-! ### The copy engines -/

theorem keeps_curEntry {tid} : Keeps (curEntry tid) := .get fun _ _ => .ite .pure keeps_failMem

theorem keeps_remoteByte : Keeps remoteByte := .get fun _ hs => .bind (.set (memOk_frame hs)) fun _ => .pure

theorem keeps_remoteBytes {k} : Keeps (remoteBytes k) := by
  induction k with
  | zero => exact .pure
  | succ _ ih => exact .bind keeps_remoteByte fun _ => .bind ih fun _ => .pure

theorem keeps_descriptor {p off} : Keeps (descriptor p off) :=
  .bind keeps_readPay fun _ => .bind keeps_readPay fun _ => .bind keeps_readPay fun _ => .get fun _ _ => .guard .trapWith .pure

theorem keeps_remoteRead {p n} : Keeps (remoteRead p n) := .bind keeps_descriptor fun _ => keeps_remoteBytes

theorem keeps_remoteWrite {w n v} : Keeps (remoteWrite w n v) := .modify fun _ hs => memOk_frame hs

theorem keeps_engineRead {first p off n sh acc} : Keeps (engineRead first p off n sh acc) :=
  .bind keeps_placeHdr fun _ => .ite keeps_remoteRead (.guard .trapWith keeps_readObjC)

theorem keeps_engineOld {p off n acc} : Keeps (engineOld p off n acc) :=
  .bind keeps_placeHdr fun _ => .ite keeps_remoteRead (.guard .trapWith keeps_readObjC)

theorem keeps_engineWritable {p off n acc} : Keeps (engineWritable p off n acc) :=
  .bind keeps_placeHdr fun _ => .guard .trapWith (.guard .trapWith .pure)

theorem keeps_engineWrite {first p off n v sh acc} : Keeps (engineWrite first p off n v sh acc) :=
  .bind keeps_engineWritable fun _ => .ite (.bind keeps_descriptor fun _ => keeps_remoteWrite) keeps_writePayC

theorem keeps_readElem {first e i0 r acc} : Keeps (readElem first e i0 r acc) := .bind keeps_engineRead fun _ => .pure

theorem keeps_oldElem {e i0 r acc} : Keeps (oldElem e i0 r acc) := .bind keeps_engineOld fun _ => .pure

theorem keeps_oldByte {p off acc} : Keeps (oldByte p off acc) :=
  .bind keeps_engineWritable fun _ => .ite keeps_remoteRead keeps_readObjC

theorem keeps_writeElem {first e i0 r v acc} : Keeps (writeElem first e i0 r v acc) :=
  .ite (.bind keeps_oldByte fun _ => keeps_engineWrite) keeps_engineWrite

theorem keeps_readLane {first e i0 r acc} : Keeps (readLane first e i0 r acc) := keeps_engineRead

theorem keeps_oldLane {e i0 r acc} : Keeps (oldLane e i0 r acc) := keeps_engineOld

theorem keeps_openLine {p off hi} : Keeps (openLine p off hi) := by
  unfold openLine
  refine .bind keeps_locateN fun _ => ?_
  split
  · exact .ite (.modify fun _ hs => memOk_healLines hs) (.ite (.modify fun _ hs => memOk_healLines hs) .pure)
  · exact .ite (.modify fun _ hs => memOk_healPad hs) .pure
  · exact .pure

theorem memOk_burstTag {s : State} {old whole line} (h : s.memOk = true) : (s.burstTag old whole line).memOk = true :=
  memOk_setTag h

theorem keeps_burstTags {t0 p whole last n off} : Keeps (burstTags t0 p whole last n off) := by
  induction n generalizing off with
  | zero => exact .pure
  | succ _ ih =>
    unfold burstTags
    refine .ite .pure ?_
    refine .bind keeps_locateN fun _ => ?_
    split
    · exact .bind (.modify fun _ hs => memOk_burstTag hs) fun _ => ih
    · exact ih
    · exact .pure

theorem keeps_pairOfTensor {c e} : Keeps (pairOfTensor c e) :=
  .bind keeps_placeHdr fun _ => .get fun _ _ => .guard .trapWith .pure

theorem keeps_landOne {c first i sr j} : Keeps (landOne c first i sr j) := by
  refine .bind keeps_cur fun _ => ?_
  refine .ite ?_ ?_
  · exact .bind keeps_readElem fun _ => .bind keeps_oldLane fun _ => .bind keeps_engineWrite fun _ => .pure
  · refine .ite ?_ ?_
    · exact .bind keeps_readLane fun _ => .bind keeps_oldLane fun _ => .bind keeps_engineWrite fun _ => .pure
    · refine .bind keeps_readElem fun _ => .bind (.ite .pure keeps_oldElem) fun _ => ?_
      refine .ite ?_ ?_
      · exact .bind keeps_engineRead fun _ => .bind keeps_engineWrite fun _ => .bind keeps_writeElem fun _ => .pure
      · exact .bind keeps_writeElem fun _ => .pure

theorem keeps_landStep {c lines i sr j0 j} : Keeps (landStep c lines i sr j0 j) := .guard keeps_openLine keeps_landOne

theorem keeps_copyRow {t c lines i sr j0 k k1} : Keeps (copyRow t c lines i sr j0 k k1) := by
  induction k generalizing k1 with
  | zero => exact .pure
  | succ _ ih => exact .bind keeps_modCur fun _ => .bind keeps_landStep fun _ => .bind keeps_modCur fun _ => ih

theorem keeps_burstRow {t c lines i sr j0} : Keeps (burstRow t c lines i sr j0) := by
  unfold burstRow
  refine fun _ hs => ?_
  dsimp only
  split
  next t1 e =>
    have ht1 : t1.memOk = true := memOk_of_ok e keeps_copyRow hs
    exact memOk_ite (memOk_attempt ht1 keeps_burstTags) ht1
  next t1 e =>
    have ht1 : t1.memOk = true := memOk_of_error e keeps_copyRow hs
    exact memOk_ite (memOk_attempt ht1 keeps_burstTags) ht1

theorem keeps_sourceRow {c i} : Keeps (sourceRow c i) :=
  .ite (.bind keeps_pairOfTensor fun _ => .bind keeps_readElem fun _ => .guard .trapWith .pure) .pure

theorem keeps_copyRows {t c k k1 k2} : Keeps (copyRows t c k k1 k2) := by
  induction k generalizing k1 k2 with
  | zero => exact .pure
  | succ _ ih =>
    refine .bind keeps_modCur fun _ => .bind keeps_sourceRow fun _ => .bind keeps_pairOfTensor fun _ => ?_
    exact .bind keeps_pairOfTensor fun _ => .bind keeps_burstRow fun _ => ih

theorem memOk_markPages {s : State} {mg l} (h : s.memOk = true) : (s.markPages mg l).memOk = true := by
  induction l generalizing s with
  | nil => exact h
  | cons _ _ ih =>
    unfold State.markPages
    refine memOk_ite (ih h) ?_
    split
    · refine memOk_ite (ih h) ?_
      exact ih (memOk_ite (memOk_countPage (memOk_takeFrame (memOk_walked h))) (memOk_takeFrame (memOk_walked h)))
    · exact ih h
    · exact ih h

theorem memOk_runCopy {s : State} {t} (h : s.memOk = true) : (s.runCopy t).memOk = true := by
  unfold State.runCopy
  split
  · refine memOk_ite ?_ h
    dsimp only
    split
    · exact memOk_modCur (memOk_markPages (memOk_modCur h))
    · exact memOk_modCur (memOk_markPages (memOk_modCur h))
    · split
      next t1 e => exact memOk_modCur (memOk_of_ok e keeps_copyRows (memOk_modCur h) :)
      next t1 e => exact memOk_modCur (memOk_of_error e keeps_copyRows (memOk_modCur h) :)
  · exact h

theorem memOk_endCopy {s : State} {t} (h : s.memOk = true) : (s.endCopy t).memOk = true := by
  unfold State.endCopy
  split
  · split
    · exact memOk_modCur h
    · exact memOk_modCur h
    · exact h
  · exact h

theorem memOk_finishTags {s : State} {l} (h : s.memOk = true) : (s.finishTags l).memOk = true := by
  induction l generalizing s with
  | nil => exact h
  | cons _ _ ih => exact ih (memOk_endCopy (memOk_runCopy h))

theorem keeps_takeStopped {l} : Keeps (takeStopped l) := by
  unfold takeStopped
  refine .bind keeps_cur fun _ => ?_
  split
  · exact .pure
  · split
    · exact .pure
    · refine .bind (.modify fun _ hs => memOk_quiesce hs) fun _ => .get fun _ _ => ?_
      split
      · exact .throw
      · exact .bind keeps_modCur fun _ => .throw

theorem keeps_waitTags {l} : Keeps (waitTags l) := .bind (.modify fun _ hs => memOk_finishTags hs) fun _ => keeps_takeStopped

theorem keeps_startCopy {t c} : Keeps (startCopy t c) :=
  .bind keeps_cur fun _ => .guard (.modify fun _ hs => memOk_finishTags hs) (.ite keeps_modCur keeps_modCur)

theorem keeps_again : Keeps again := .pure

/-! ### Operand forms -/

theorem keeps_memOperand {p m off sz} : Keeps (memOperand p m off sz) :=
  .bind keeps_cur fun _ => .bind keeps_checkPtr fun _ => .guard .trapWith (.guard .trapWith (.bind keeps_touch fun _ => .pure))

theorem keeps_postIncrement {p m sz} : Keeps (postIncrement p m sz) := .ite keeps_modCur .pure

/-! ### Vector memory instructions -/

theorem keeps_vecPrep {p adv b} : Keeps (vecPrep p adv b) :=
  .bind keeps_touch fun _ => .bind keeps_cur fun _ => .ite (.guard .trapWith (.bind keeps_wrP fun _ => .pure)) .pure

theorem keeps_checkSpan {len w l} : Keeps (checkSpan len w l) := by
  induction l with
  | nil => exact .pure
  | cons _ _ ih => exact .ite .trapWith ih

theorem keeps_loadElems {q p w l k} : Keeps (loadElems q p w l k) := by
  induction l generalizing k with
  | nil => exact .pure
  | cons _ _ ih => exact .bind keeps_modCur fun _ => .bind keeps_readPay fun _ => ih

theorem keeps_probe {α : Type} {m : Ex α} (hm : Keeps m) : Keeps (probe m) := by
  unfold probe
  refine fun _ hs => ?_
  dsimp only
  split
  · exact hs
  next t e => exact (memOk_of_error e (keeps_allOrNothing hm) hs :)

theorem keeps_probeElems {q p w l} : Keeps (probeElems q p w l) := by
  induction l with
  | nil => exact .pure
  | cons _ _ ih => exact .bind keeps_setProgress fun _ => .bind (keeps_probe (keeps_ackedLate keeps_writePay)) fun _ => ih

theorem keeps_storeElems {p w v l} : Keeps (storeElems p w v l) := by
  induction l with
  | nil => exact .pure
  | cons _ _ ih => exact .bind (keeps_ackedLate keeps_writePay) fun _ => ih

theorem keeps_vecLoad {d idx m n t busy lat offs e} : Keeps (vecLoad d idx m n t busy lat offs e) :=
  .bind keeps_cur fun _ => .bind keeps_holdSources fun _ => .bind keeps_checkSpan fun _ => .bind keeps_loadElems fun _ => .pure

theorem keeps_vecStoreTo {d idx m n t busy offs e} : Keeps (vecStoreTo d idx m n t busy offs e) := by
  refine .bind keeps_cur fun _ => .bind keeps_holdSources fun _ => .bind keeps_checkSpan fun _ => .guard .trapWith ?_
  exact .bind keeps_probeElems fun _ => .bind keeps_storeElems fun _ => .pure

/-! ### The matrix unit -/

theorem keeps_needSlot {i t} : Keeps (needSlot i t) := .bind keeps_cur fun _ => .guard keeps_illegal .pure

theorem keeps_setSlot {t f} : Keeps (setSlot t f) := keeps_modCur

theorem keeps_holdEntry {r tid} : Keeps (holdEntry r tid) :=
  .ite .pure (.bind keeps_curEntry fun _ => .bind keeps_modCur fun _ => .pure)

theorem keeps_actTload {t r r1} : Keeps (actTload t r r1) := by
  refine .ite (.bind keeps_modCur fun _ => .pure) (.bind keeps_needSlot fun _ => .bind keeps_curEntry fun _ => ?_)
  exact .bind keeps_modCur fun _ => .pure

theorem keeps_storeRow {e sl r i0 j k} : Keeps (storeRow e sl r i0 j k) := by
  induction k with
  | zero => exact .pure
  | succ _ ih => exact .bind ih fun _ => keeps_writeElem

theorem keeps_storeScales {e sl r i0 j cnt k} : Keeps (storeScales e sl r i0 j cnt k) := by
  induction k with
  | zero => exact .pure
  | succ _ ih => exact .bind ih fun _ => .ite keeps_engineWrite .pure

theorem keeps_storeTileRow {e sl rc j} : Keeps (storeTileRow e sl rc j) := .bind keeps_storeRow fun _ => keeps_storeScales

theorem keeps_probeRows {f : ℕ → Ex Unit} {q k k1} (hf : ∀ x, Keeps (f x)) : Keeps (probeRows q f k k1) := by
  induction k generalizing k1 with
  | zero => exact .pure
  | succ _ ih => exact .bind keeps_setProgress fun _ => .bind (keeps_probe (keeps_ackedLate (hf _))) fun _ => ih

theorem keeps_eachRow {f : ℕ → Ex Unit} {k k1} (hf : ∀ x, Keeps (f x)) : Keeps (eachRow f k k1) := by
  induction k generalizing k1 with
  | zero => exact .pure
  | succ _ ih => exact .bind (keeps_ackedLate (hf _)) fun _ => ih

theorem keeps_actTstore {t r r1} : Keeps (actTstore t r r1) := by
  refine .bind keeps_needSlot fun _ => .bind keeps_holdEntry fun _ => .bind keeps_needEntry fun _ => .guard keeps_rangeTrap ?_
  refine .bind (keeps_probeRows fun _ => keeps_storeTileRow) fun _ => ?_
  exact .bind (keeps_eachRow fun _ => keeps_storeTileRow) fun _ => .pure

theorem keeps_tidPrep {p} : Keeps (tidPrep p) := .bind keeps_touch fun _ => .bind keeps_rdP fun _ => .pure

theorem keeps_tidRoom {e} : Keeps (tidRoom e) := .ite .trapWith .pure

theorem keeps_actTidld {_p tid r} : Keeps (actTidld _p tid r) := by
  refine .bind keeps_tidRoom fun _ => .guard .trapWith (.bind keeps_curEntry fun _ => ?_)
  exact .bind (keeps_allOrNothing (keeps_ackedLate keeps_writePay)) fun _ => .pure

theorem keeps_actTidst {p tid r} : Keeps (actTidst p tid r) := by
  refine .bind keeps_tidRoom fun _ => .bind keeps_readPay fun _ => .guard keeps_needEntry (.get fun _ hs => ?_)
  exact .guard keeps_failMem (.guard .throw (.bind (.set (memOk_setTidEntry hs)) fun _ => .pure))

theorem keeps_slotBs {sl} : Keeps (slotBs sl) := .bind keeps_curEntry fun _ => .pure

theorem keeps_actMma {n ta tb op t u r} : Keeps (actMma n ta tb op t u r) := by
  refine .bind keeps_needSlot fun _ => .bind keeps_needSlot fun _ => .bind keeps_cur fun _ => .guard keeps_rangeTrap ?_
  refine .bind (.ite keeps_slotBs .pure) fun _ => .bind (.ite keeps_slotBs .pure) fun _ => .guard keeps_rangeTrap ?_
  exact .bind keeps_modCur fun _ => .pure

theorem keeps_fillB {n b} : Keeps (fillB n b) := keeps_modCur

theorem keeps_drainAcc {n f64} : Keeps (drainAcc n f64) := .bind keeps_cur fun _ => .ite .pure (.bind keeps_modCur fun _ => .pure)

theorem keeps_loadCells {e rc aff old i k} : Keeps (loadCells e rc aff old i k) := by
  induction k with
  | zero => exact .pure
  | succ _ ih => exact .bind ih fun _ => .bind (.ite keeps_readElem .pure) fun _ => .ite .pure .pure

theorem keeps_loadAcc {q n e rc k k1} : Keeps (loadAcc q n e rc k k1) := by
  induction k generalizing k1 with
  | zero => exact .pure
  | succ _ ih =>
    exact .bind keeps_setProgress fun _ => .bind keeps_cur fun _ => .bind keeps_loadCells fun _ => .bind keeps_modCur fun _ => ih

theorem keeps_actAload {n tid r r1} : Keeps (actAload n tid r r1) :=
  .bind keeps_holdEntry fun _ => .bind keeps_needEntry fun _ => .bind keeps_loadAcc fun _ => .bind keeps_modCur fun _ => .pure

theorem keeps_storeCells {e rc a md i k} : Keeps (storeCells e rc a md i k) := by
  induction k with
  | zero => exact .pure
  | succ _ ih => exact .bind ih fun _ => .ite (.bind keeps_writeElem fun _ => keeps_raiseFlags) .pure

theorem keeps_actAstore {n tid r r1} : Keeps (actAstore n tid r r1) := by
  refine .bind keeps_holdEntry fun _ => .bind keeps_needEntry fun _ => .guard keeps_rangeTrap (.bind keeps_cur fun _ => ?_)
  refine .bind (keeps_probeRows fun _ => keeps_storeCells) fun _ => .bind keeps_drainAcc fun _ => .bind keeps_cur fun _ => ?_
  exact .bind (keeps_eachRow fun _ => keeps_storeCells) fun _ => .pure

theorem keeps_actAdrain {n t ty r} : Keeps (actAdrain n t ty r) := by
  refine .bind keeps_needSlot fun _ => .bind keeps_drainAcc fun _ => .bind keeps_cur fun _ => .bind keeps_setSlot fun _ => ?_
  exact .bind keeps_raiseFlags fun _ => .pure

/-! ### Affine accumulation and the scan network -/

theorem keeps_noteUnderflow {n seq resumed u} : Keeps (noteUnderflow n seq resumed u) := by
  unfold noteUnderflow
  refine .bind keeps_cur fun _ => ?_
  dsimp only
  split
  · exact .ite .pure (.bind keeps_modCur fun _ => .pure)
  · exact .pure

theorem keeps_affineScan {i n k len gain skip cyc e} : Keeps (affineScan i n k len gain skip cyc e) := by
  unfold affineScan
  dsimp only
  split
  · refine .bind keeps_needSlot fun _ => .bind keeps_cur fun _ => .guard keeps_rangeTrap (.bind keeps_modCur fun _ => ?_)
    exact .bind keeps_noteUnderflow fun _ => .pure
  · exact .bind keeps_cur fun _ => .guard keeps_rangeTrap (.bind keeps_modCur fun _ => .bind keeps_noteUnderflow fun _ => .pure)

theorem keeps_actKcomb {d a n r} : Keeps (actKcomb d a n r) :=
  .bind keeps_cur fun _ => .ite .pure (.bind keeps_modCur fun _ => .bind keeps_noteUnderflow fun _ => .pure)

/-! ### Scalar and pointer loads, stores and allocation -/

theorem safe_execLd {s : State} {d p m z o} (h : s.memOk = true) : Safe (execLd d p m z o s) := by
  refine safe_runWord (.bind keeps_memOperand fun _ => .bind keeps_rdP fun _ => .bind keeps_readPay fun _ => ?_) h
  exact .bind keeps_wrX fun _ => .bind keeps_postIncrement fun _ => .bind keeps_modCur fun _ => .pure

theorem safe_execSt {s : State} {d p m z o} (h : s.memOk = true) : Safe (execSt d p m z o s) := by
  refine safe_runWord (.bind keeps_rdP fun _ => .bind keeps_memOperand fun _ => .guard .trapWith (.bind keeps_rdP fun _ => ?_)) h
  exact .bind keeps_rdX fun _ => .bind keeps_writePay fun _ => .bind keeps_postIncrement fun _ => .pure

theorem keeps_slotOperand {p m o} : Keeps (slotOperand p m o) :=
  .bind keeps_rdP fun _ => .bind keeps_memOperand fun _ => .guard .trapWith (.guard .trapWith .pure)

theorem safe_execLdp {s : State} {q p m o} (h : s.memOk = true) : Safe (execLdp q p m o s) := by
  refine safe_runWord (.bind keeps_slotOperand fun _ => .bind keeps_rdP fun _ => .bind keeps_readPay fun _ => ?_) h
  exact .bind keeps_lenOf fun _ => .bind keeps_postIncrement fun _ => .bind keeps_wrP fun _ => .pure

theorem keeps_uncopied {v} : Keeps (uncopied v) := .ite (.bind keeps_readHdr fun _ => keeps_canonOf) .pure

theorem keeps_escaping {v h} : Keeps (escaping v h) := .ite .pure (.guard .trapWith keeps_promote)

theorem keeps_orWait {m : Ex Bool} (hm : Keeps m) : Keeps (orWait m) := by
  unfold orWait
  generalize tagsOf (BitVec.allOnes 64) = tags
  refine fun _ hs => ?_
  dsimp only
  split
  next e => exact memOk_of_ok e hm hs
  · exact .run (.bind (.modify fun _ hs1 => memOk_finishLoads hs1) fun _ => .bind keeps_waitTags fun _ => keeps_again) hs
  next e => exact memOk_of_error e hm hs

theorem keeps_escapingTo {home : Ex ℕ} {k x} (hhome : Keeps home) : Keeps (escapingTo home k x) := by
  induction k generalizing x with
  | zero => exact .pure
  | succ _ ih =>
    unfold escapingTo
    refine .bind hhome fun _ => .bind keeps_escaping fun _ => ?_
    split
    · exact .pure
    · exact .ite .pure ih

theorem keeps_stpValue {q p} : Keeps (stpValue q p) := by
  refine .bind keeps_rdP fun _ => .bind keeps_uncopied fun _ => ?_
  refine .bind (.bind keeps_rdP fun _ => .bind keeps_readHdr fun _ => keeps_homeLevel) fun _ => .guard .trapWith ?_
  exact keeps_escapingTo (.bind keeps_rdP fun _ => .bind keeps_readHdr fun _ => keeps_homeLevel)

theorem safe_execStp {s : State} {q p m o} (h : s.memOk = true) : Safe (execStp q p m o s) := by
  unfold execStp
  refine safe_runWord ?_ h
  refine keeps_orWait ?_
  refine .bind keeps_slotOperand fun _ => .bind keeps_stpValue fun _ => ?_
  split
  · exact .pure
  · exact .bind keeps_rdP fun _ => .bind keeps_writePay fun _ => .bind keeps_postIncrement fun _ => .pure

theorem safe_execPadj {s : State} {d a b} (h : s.memOk = true) : Safe (execPadj d a b s) :=
  safe_runWord (.bind keeps_rdP fun _ => .bind keeps_rdX fun _ => .guard .trapWith (.bind keeps_wrP fun _ => .pure)) h

theorem keeps_promoteSlots {a c h l} : Keeps (promoteSlots a c h l) := by
  induction l with
  | nil => exact .pure
  | cons _ _ ih =>
    unfold promoteSlots
    refine .bind keeps_rdP fun _ => .bind keeps_readPay fun _ => .bind keeps_escaping fun _ => ?_
    split
    · exact .pure
    · exact ih

theorem keeps_sliceInto {d a kind c n} : Keeps (sliceInto d a kind c n) := by
  refine .bind keeps_allocObj fun _ => .bind keeps_modCur fun _ => .bind keeps_rdP fun _ => .bind keeps_snapshot fun _ => ?_
  refine .bind (.ite keeps_promoteSlots .pure) fun _ => .bind keeps_modCur fun _ => .ite .pure (.bind keeps_rdP fun _ => ?_)
  exact .bind (.ite keeps_snapshot .pure) fun _ => .bind keeps_fillObj fun _ => .bind keeps_wrP fun _ => .pure

theorem safe_execPslice {s : State} {d a b} (h : s.memOk = true) : Safe (execPslice d a b s) := by
  refine safe_runWord (keeps_orWait (.bind keeps_rdP fun _ => .bind keeps_rdX fun _ => .bind keeps_touch fun _ => ?_)) h
  exact .bind keeps_rdP fun _ => .guard .trapWith (.guard .trapWith (.guard .trapWith keeps_sliceInto))

theorem keeps_roomOrNull {m : Ex W64} (hm : Keeps m) : Keeps (allocInstr.roomOrNull m) := by
  unfold allocInstr.roomOrNull
  refine fun _ hs => ?_
  dsimp only
  split
  next e => exact memOk_of_ok e hm hs
  next e => exact .ite hs (memOk_of_error e hm hs)

theorem safe_allocInstr {s : State} {i orNull d a l k} (h : s.memOk = true) : Safe (allocInstr i orNull d a l k s) := by
  unfold allocInstr
  refine safe_runWord (.bind keeps_rdX fun _ => ?_) h
  refine .guard .trapWith (.bind (.ite (keeps_roomOrNull keeps_allocObj) (.bind keeps_allocObj fun _ => .pure)) fun _ => ?_)
  split <;> exact .bind keeps_wrP fun _ => .pure

theorem keeps_raiseAck {g st} : Keeps (raiseAck g st) := by
  unfold raiseAck
  refine .ite ?_ .pure
  refine .bind keeps_cur fun _ => ?_
  split
  · exact .pure
  · exact .bind keeps_modCur fun _ => .throw

theorem safe_execOacq {s : State} {d g st} (h : s.memOk = true) : Safe (execOacq d g st s) := by
  refine safe_runWord (.bind keeps_touch fun _ => .bind keeps_rdP fun _ => .bind keeps_canonOf fun _ => ?_) h
  exact .bind (.modify fun _ hs => memOk_forAcquire hs) fun _ => .get fun _ _ => .ite .pure (.bind keeps_acquire fun _ => .pure)

theorem safe_execOrel {s : State} {d g st} (h : s.memOk = true) : Safe (execOrel d g st s) := by
  refine safe_runWord (.bind keeps_raiseAck fun _ => .bind keeps_touch fun _ => .bind keeps_rdP fun _ => ?_) h
  exact .bind keeps_release fun _ => .pure

/-! ### Atomics and fences -/

theorem keeps_canonical {p} : Keeps (canonical p) :=
  .bind keeps_checkPtr fun _ => .ite (.bind keeps_readHdr fun _ => keeps_canonOf) .pure

theorem keeps_atomicKind {p obj} : Keeps (atomicKind p obj) := .bind keeps_readHdr fun _ => .ite .trapWith .pure

theorem keeps_storageAt {obj off} : Keeps (storageAt obj off) := by
  unfold storageAt
  refine .ite .pure ?_
  refine .get fun _ hs => .bind (.set (memOk_walkFor hs)) fun _ => ?_
  split
  · exact .pure
  · exact .throw
  · exact keeps_failMem

theorem keeps_needPlace {i lvl stor agent swapAdd} : Keeps (needPlace i lvl stor agent swapAdd) := by
  unfold needPlace
  split
  · exact keeps_rangeTrap
  · exact .pure

theorem safe_atomic {s : State} {i d p b g st w swapAdd f} (h : s.memOk = true) : Safe (atomic i d p b g st w swapAdd f s) := by
  refine safe_runWord (.bind keeps_cur fun _ => .bind keeps_checkPtr fun _ => .guard .trapWith (.guard .trapWith ?_)) h
  refine .bind keeps_canonical fun _ => .bind keeps_atomicKind fun _ => .bind keeps_storageAt fun _ => .guard keeps_rangeTrap ?_
  refine .bind keeps_needPlace fun _ => .bind keeps_locate fun _ => .bind keeps_locRead fun _ => .bind keeps_locWrite fun _ => ?_
  exact .bind keeps_wrX fun _ => .bind (.modify fun _ hs => memOk_frame hs) fun _ => .pure

theorem keeps_vamoElem {i pr obj g w o} : Keeps (vamoElem i pr obj g w o) :=
  .guard .trapWith (.bind keeps_atomicKind fun _ => .bind keeps_storageAt fun _ => .bind keeps_needPlace fun _ => keeps_writeObj)

theorem keeps_vamoCheck {q i pr obj g w l} : Keeps (vamoCheck q i pr obj g w l) := by
  induction l with
  | nil => exact .pure
  | cons _ _ ih => exact .bind keeps_setProgress fun _ => .bind (keeps_probe keeps_vamoElem) fun _ => ih

theorem keeps_vamoApply {obj op w v l} : Keeps (vamoApply obj op w v l) := by
  induction l with
  | nil => exact .pure
  | cons _ _ ih => exact .bind keeps_readObjC fun _ => .bind keeps_writeObj fun _ => ih

theorem keeps_actVamo {d p wd b m n o g r} : Keeps (actVamo d p wd b m n o g r) :=
  .bind keeps_cur fun _ => .bind keeps_holdSources fun _ => .bind keeps_vamoCheck fun _ => .bind keeps_vamoApply fun _ => .pure

/-! ### Prefixes, transfers and the repetition -/

theorem keeps_spendMore {n} : Keeps (spendMore n) := .modify fun _ hs => memOk_frame hs

theorem keeps_branchTo {off} : Keeps (branchTo off) := by
  unfold branchTo
  refine .get fun _ _ => ?_
  dsimp only
  split
  · exact .trapWith
  · exact .ite (.bind keeps_spendMore fun _ => .pure) .trapWith

theorem safe_branchIf {s : State} {i cond a b off} (h : s.memOk = true) : Safe (branchIf i cond a b off s) :=
  safe_runWord (.bind keeps_cur fun _ => .ite keeps_branchTo .pure) h

theorem safe_execJ {s : State} {o} (h : s.memOk = true) : Safe (execJ o s) :=
  safe_runWord (.bind keeps_cur fun _ => .bind keeps_enterCode fun _ => .bind keeps_spendMore fun _ => .pure) h

theorem safe_execCall {s : State} {d o} (h : s.memOk = true) : Safe (execCall d o s) := by
  refine safe_runWord (.bind keeps_cur fun _ => .bind keeps_enterCode fun _ => .bind keeps_wrX fun _ => ?_) h
  exact .bind keeps_spendMore fun _ => .pure

theorem safe_execJr {s : State} {a} (h : s.memOk = true) : Safe (execJr a s) :=
  safe_runWord (.bind keeps_rdX fun _ => .bind keeps_enterCode fun _ => .bind keeps_spendMore fun _ => .pure) h

theorem safe_execCallr {s : State} {d p} (h : s.memOk = true) : Safe (execCallr d p s) := by
  refine safe_runWord (.get fun _ _ => .bind keeps_checkPtr fun _ => ?_) h
  exact .ite (.bind keeps_enterCode fun _ => .bind keeps_wrX fun _ => .bind keeps_spendMore fun _ => .pure) .trapWith

theorem safe_execRep {s : State} {st a n l} (h : s.memOk = true) : Safe (execRep st a n l s) :=
  safe_runWord (.get fun _ _ => .guard keeps_illegal (.guard .trapWith (.ite .pure (.bind keeps_modCur fun _ => .pure)))) h

theorem safe_execImmx {s : State} {p} (h : s.memOk = true) : Safe (execImmx p s) := by
  unfold execImmx
  refine safe_runWord ?_ h
  refine .get fun _ _ => ?_
  dsimp only
  split
  · exact .bind (.bind keeps_modCur fun _ => .trapWith) fun _ => .bind keeps_modCur fun _ => .pure
  · split
    · exact .guard (.bind keeps_modCur fun _ => .trapWith) (.bind keeps_modCur fun _ => .pure)
    · exact .bind keeps_modCur fun _ => .pure

theorem safe_execHint {s : State} {h} (hs : s.memOk = true) : Safe (execHint h s) := by
  unfold execHint
  refine safe_runWord ?_ hs
  refine .get fun _ _ => .ite (.bind keeps_modCur fun _ => .pure) ?_
  refine .ite ?_ .pure
  dsimp only
  split
  · exact .pure
  · split
    · exact .pure
    · split
      · exact .bind keeps_prefetchIn fun _ => .pure
      · exact .pure

/-! ### Copies and waits for their tags -/

theorem keeps_prefEntry {tid} : Keeps (prefEntry tid) := .get fun _ _ => .pure

theorem keeps_newCopy {i kind dst src shape} : Keeps (newCopy i kind dst src shape) := by
  refine .bind keeps_cur fun _ => .bind (.ite keeps_curEntry .pure) fun _ => ?_
  exact .bind (.ite keeps_curEntry keeps_prefEntry) fun _ => .bind (.ite keeps_curEntry .pure) fun _ => .pure

theorem keeps_startOn {t c} : Keeps (startOn t c) := by
  unfold startOn
  refine .bind keeps_waitTags fun _ => .bind keeps_cur fun _ => ?_
  split
  · exact keeps_again
  · exact .get fun _ _ => .ite keeps_again (.bind keeps_startCopy fun _ => .pure)

theorem safe_transfer {s : State} {i kind d a b t} (h : s.memOk = true) : Safe (transfer i kind d a b t s) := by
  unfold transfer
  refine safe_runWord (.get fun _ _ => .bind keeps_newCopy fun _ => ?_) h
  dsimp only
  refine .guard .trapWith ?_
  split
  · exact keeps_rangeTrap
  · exact keeps_startOn

theorem safe_execXprefTr {s : State} {a b t} (h : s.memOk = true) : Safe (execXprefTr a b t s) :=
  safe_runWord (.bind keeps_rdX fun _ => .bind keeps_rdX fun _ => .bind keeps_newCopy fun _ => keeps_startOn) h

theorem safe_execXprefMg {s : State} {a b t} (h : s.memOk = true) : Safe (execXprefMg a b t s) :=
  safe_runWord (.bind keeps_rdX fun _ => .bind keeps_rdX fun _ => .bind keeps_newCopy fun _ => keeps_startOn) h

theorem keeps_lineTag {lvl va} : Keeps (lineTag lvl va) := by
  unfold lineTag
  refine .ite .pure ?_
  refine .bind (.ite keeps_translate keeps_peerAccess) fun _ => .get fun _ _ => ?_
  split <;> exact .pure

theorem keeps_lineTags {lvl line k} : Keeps (lineTags lvl line k) := by
  induction k generalizing line with
  | zero => exact .pure
  | succ _ ih => exact .bind keeps_lineTag fun _ => .bind ih fun _ => .pure

theorem safe_execXprefTq {s : State} {d a} (h : s.memOk = true) : Safe (execXprefTq d a s) := by
  unfold execXprefTq
  refine safe_runWord ?_ h
  refine .bind keeps_rdX fun _ => .bind keeps_curEntry fun _ => .get fun _ _ => ?_
  dsimp only
  split
  on_goal 1 => refine .bind keeps_rangeTrap fun _ => ?_
  all_goals
    refine .guard keeps_rangeTrap (.bind (.modify fun _ hs => memOk_quiesce hs) fun _ => ?_)
    exact .bind (.modify fun _ hs => memOk_finishTags hs) fun _ => .bind keeps_lineTags fun _ => .bind keeps_wrX fun _ => .pure

theorem safe_execXwaitAll {s : State} {d a} (h : s.memOk = true) : Safe (execXwaitAll d a s) := by
  refine safe_runWord (.bind keeps_rdX fun _ => .bind keeps_waitTags fun _ => .bind keeps_cur fun _ => .ite keeps_again ?_) h
  exact .bind keeps_wrX fun _ => .pure

theorem memOk_finishAny {s : State} {m l} (h : s.memOk = true) : (s.finishAny m l).memOk = true := by
  induction l generalizing s with
  | nil => exact h
  | cons _ _ ih => exact memOk_ite h (ih (memOk_endCopy (memOk_runCopy h)))

theorem safe_execXwaitAny {s : State} {d a} (h : s.memOk = true) : Safe (execXwaitAny d a s) := by
  refine safe_runWord (.bind keeps_rdX fun _ => .bind (.modify fun _ hs => memOk_finishAny hs) fun _ => ?_) h
  exact .bind keeps_takeStopped fun _ => .bind keeps_cur fun _ => .ite keeps_again (.bind keeps_wrX fun _ => .pure)

theorem safe_execXfind {s : State} {d a} (h : s.memOk = true) : Safe (execXfind d a s) := by
  unfold execXfind
  refine safe_runWord ?_ h
  refine .bind keeps_rdX fun _ => .bind keeps_takeStopped fun _ => .bind keeps_cur fun _ => ?_
  dsimp only
  split
  · exact .bind keeps_wrX fun _ => .pure
  · exact .bind keeps_modCur fun _ => .bind keeps_wrX fun _ => .pure

/-! ### Gangs -/

theorem memOk_setGang {s : State} {g} (h : s.memOk = true) : (s.setGang g).memOk = true :=
  memOk_ite (memOk_frame h) (memOk_frame h)

theorem memOk_modGang {s : State} {id f} (h : s.memOk = true) : (s.modGang id f).memOk = true := memOk_setGang h

theorem memOk_modWhere {s : State} {p f} (h : s.memOk = true) : (s.modWhere p f).memOk = true := memOk_frame h

theorem memOk_bring {s : State} {p} (h : s.memOk = true) : (s.bring p).memOk = true := by
  unfold State.bring
  refine memOk_ite h ?_
  split
  · exact memOk_frame h
  · exact h

theorem memOk_onCore {s : State} {f : State → State} {p} (h : s.memOk = true) (hf : ∀ x, x.memOk = true → (f x).memOk = true) :
    (s.onCore p f).memOk = true := by
  unfold State.onCore
  refine memOk_ite (hf _ h) ?_
  split
  · dsimp only
    split
    · exact memOk_frame (hf _ (memOk_frame h))
    · exact hf _ (memOk_frame h)
  · exact h

theorem memOk_completeBarrier {s : State} {id n} (h : s.memOk = true) : (s.completeBarrier id n).memOk = true :=
  memOk_ite h (memOk_setGang h)

theorem memOk_arriveOn {s : State} {n vote byVote rel} (h : s.memOk = true) : (s.arriveOn n vote byVote rel).memOk = true :=
  memOk_completeBarrier (memOk_modCur (memOk_setGang h))

theorem memOk_endWait {s : State} {n acq} (h : s.memOk = true) : (s.endWait n acq).memOk = true := memOk_modCur h

theorem keeps_poolRecord {pool k} : Keeps (poolRecord pool k) := .bind keeps_readPay fun _ => .pure

theorem keeps_popTask {g} : Keeps (popTask g) :=
  .ite .pure (.bind keeps_poolRecord fun _ => .bind (.modify fun _ hs => memOk_modGang hs) fun _ => .pure)

theorem keeps_pushTask {g fn frame jn} : Keeps (pushTask g fn frame jn) := by
  unfold pushTask
  refine .get fun _ _ => ?_
  dsimp only
  split
  · exact .bind (.modify fun _ hs1 => memOk_modGang (memOk_modWhere hs1)) fun _ => .pure
  · refine .bind keeps_readHdr fun _ => .ite .pure (.bind keeps_writePay fun _ => ?_)
    exact .bind (.modify fun _ hs1 => memOk_modGang hs1) fun _ => .pure

theorem memOk_dropWord {s : State} {gang w} (h : s.memOk = true) : (s.dropWord gang w).memOk = true := memOk_modWhere h

theorem memOk_holdAt {s : State} {gang w} (h : s.memOk = true) : (s.holdAt gang w).memOk = true := memOk_modWhere h

theorem memOk_landOne {s : State} (h : s.memOk = true) : s.landOne.memOk = true := by
  unfold State.landOne
  split
  · exact h
  · exact memOk_ite (memOk_modWhere (memOk_dropWord h)) (memOk_holdAt h)

theorem memOk_landWords {s : State} {k} (h : s.memOk = true) : (s.landWords k).memOk = true := by
  induction k generalizing s with
  | zero => exact h
  | succ _ ih => exact memOk_ite h (ih (memOk_landOne h))

theorem memOk_deposits {s : State} (h : s.memOk = true) : s.deposits.memOk = true := memOk_ite h (memOk_landWords h)

/-! ### Exchange, barriers and the task pool -/

theorem keeps_sendChecks {i tgt} : Keeps (sendChecks i tgt) :=
  .bind keeps_cur fun _ => .guard keeps_rangeTrap (.ite keeps_rangeTrap .pure)

theorem keeps_enterPort {tgt q w t} : Keeps (enterPort tgt q w t) := .modify fun _ hs => memOk_modCur hs

theorem safe_execSend {s : State} {t v q} (h : s.memOk = true) : Safe (execSend t v q s) := by
  refine safe_runWord (.bind keeps_rdX fun _ => .bind keeps_sendChecks fun _ => .bind keeps_cur fun _ => .ite keeps_again ?_) h
  exact .bind keeps_rdX fun _ => .get fun _ _ => .bind keeps_enterPort fun _ => .pure

theorem keeps_actSendv {_t v q r} : Keeps (actSendv _t v q r) :=
  .get fun _ _ => .bind (.forIn fun _ _ => .bind keeps_enterPort fun _ => .pure) fun _ => .pure

theorem keeps_noTask {i} : Keeps (noTask i) := .bind keeps_cur fun _ => .ite keeps_rangeTrap .pure

theorem safe_execRecv {s : State} {d q} (h : s.memOk = true) : Safe (execRecv d q s) := by
  refine safe_runWord (.bind keeps_noTask fun _ => .bind keeps_cur fun _ => ?_) h
  exact .ite (.bind keeps_wrX fun _ => .bind keeps_modCur fun _ => .pure) .pure

theorem keeps_actRecvV {d _q r} : Keeps (actRecvV d _q r) := .pure

theorem safe_execRecvV {s : State} {d q} (h : s.memOk = true) : Safe (execRecvV d q s) := by
  refine safe_runWord (.bind keeps_cur fun _ => .guard keeps_rangeTrap (.bind keeps_noTask fun _ => ?_)) h
  exact .bind keeps_cur fun _ => .ite (keeps_enqueue (.bind keeps_modCur fun _ => .pure) fun _ => keeps_actRecvV) .pure

theorem safe_execQclr {s : State} {a} (h : s.memOk = true) : Safe (execQclr a s) :=
  safe_runWord (.bind keeps_rdX fun _ => .get fun _ _ => .bind (.forIn fun _ _ => .guard keeps_modCur .pure) fun _ => .pure) h

theorem safe_execXfence {s : State} {c e g st} (h : s.memOk = true) : Safe (execXfence c e g st s) := by
  unfold execXfence
  generalize tagsOf (BitVec.allOnes 64) = tags
  dsimp only
  have hw : ∀ s : State, s.memOk = true → Safe (runWord (.xfence c e g st) Timing.one (do
      if c = 1 then drain
      if c = 2 then takeStopped tags
      let s ← get
      if c = 4 ∧ s.cur.port ≠ [] then again
      else if c = 5 ∧ s.moves.any (fun m => s.cur.is m.gang m.lcid) = true then again
      else return .seq) s) := fun _ hs => safe_runWord
    (.guard keeps_drain (.guard keeps_takeStopped (.get fun _ _ => .ite keeps_again (.ite keeps_again .pure)))) hs
  split
  · exact safe_draining hw h
  · exact hw s h

theorem keeps_barrierChecks {i n} : Keeps (barrierChecks i n) :=
  .bind keeps_noTask fun _ => .get fun _ _ => .guard keeps_rangeTrap .pure

theorem keeps_abandonedTrap {g n} : Keeps (abandonedTrap g n) := by
  unfold abandonedTrap
  split
  · exact .trapWith
  · exact .pure

theorem safe_arriveInstr {s : State} {i n rel} (h : s.memOk = true) : Safe (arriveInstr i n rel s) := by
  refine safe_runWord (.bind keeps_barrierChecks fun _ => .bind keeps_cur fun _ => .ite .pure ?_) h
  exact .bind (.modify fun _ hs => memOk_arriveOn hs) fun _ => .pure

theorem safe_waitInstr {s : State} {i n acq} (h : s.memOk = true) : Safe (waitInstr i n acq s) := by
  unfold waitInstr
  refine safe_runWord ?_ h
  refine .bind keeps_barrierChecks fun _ => .bind keeps_cur fun _ => ?_
  split
  · exact keeps_rangeTrap
  · exact .bind keeps_abandonedTrap fun _ => .ite (.bind (.modify fun _ hs => memOk_endWait hs) fun _ => .pure) .pure

theorem keeps_endVote {d n p} : Keeps (endVote d n p) :=
  .get fun _ _ => .ite (.bind keeps_wrX fun _ => .bind (.modify fun _ hs1 => memOk_endWait hs1) fun _ => .pure) .pure

theorem safe_execBvote {s : State} {d a n} (h : s.memOk = true) : Safe (execBvote d a n s) := by
  unfold execBvote
  refine safe_runWord ?_ h
  refine .bind keeps_barrierChecks fun _ => .bind keeps_cur fun _ => ?_
  split
  · exact .guard keeps_abandonedTrap keeps_endVote
  · exact .bind keeps_abandonedTrap fun _ => .ite .pure (.bind (.modify fun _ hs => memOk_arriveOn hs) fun _ => keeps_endVote)

theorem keeps_needPool {i} : Keeps (needPool i) := .get fun _ _ => .guard keeps_rangeTrap .pure

theorem keeps_namesFunction {p} : Keeps (namesFunction p) := .get fun _ _ => .ite .trapWith .pure

theorem keeps_poolPointer {v} : Keeps (poolPointer v) := .bind keeps_uncopied fun _ => keeps_escaping

theorem keeps_pushRecord {frame : Ex W64} {jn : Ex W64} {i fn} (hframe : Keeps frame) (hjn : Keeps jn) :
    Keeps (pushRecord i fn frame jn) := by
  unfold pushRecord
  refine .bind keeps_namesFunction fun _ => .bind hframe fun _ => .bind keeps_poolPointer fun _ => ?_
  split
  · exact .pure
  · refine .bind hjn fun _ => .bind keeps_poolPointer fun _ => ?_
    split
    · exact .pure
    · exact .get fun _ _ => .bind keeps_pushTask fun _ => .guard keeps_rangeTrap .pure

theorem safe_execSpawn {s : State} {c f j} (h : s.memOk = true) : Safe (execSpawn c f j s) := by
  refine safe_runWord (keeps_orWait (.bind keeps_needPool fun _ => .bind (.bind keeps_rdP fun _ => .pure) fun _ => ?_)) h
  exact keeps_pushRecord (.bind keeps_rdP fun _ => .pure) (.bind keeps_rdP fun _ => .pure)

theorem keeps_loadPtr {r v} : Keeps (loadPtr r v) := .bind keeps_lenOf fun _ => keeps_wrP

theorem safe_execTake {s : State} {c f j} (h : s.memOk = true) : Safe (execTake c f j s) := by
  refine safe_runWord (.bind keeps_needPool fun _ => .bind keeps_popTask fun _ => .bind keeps_loadPtr fun _ => ?_) h
  exact .bind keeps_loadPtr fun _ => .bind keeps_loadPtr fun _ => .pure

theorem keeps_joinPush {m : Ex Bool} {i} (hm : Keeps m) : Keeps (joinPush i m) := by
  unfold joinPush
  refine fun _ hs => ?_
  dsimp only
  split
  next t e => exact (memOk_of_ok e hm hs :)
  next t e => exact .run keeps_rangeTrap (memOk_of_error e hm hs :)

theorem safe_execJoin {s : State} {j} (h : s.memOk = true) : Safe (execJoin j s) := by
  refine safe_runWord (keeps_orWait (.bind keeps_needPool fun _ => .bind keeps_rdP fun _ => .guard .trapWith ?_)) h
  refine .bind keeps_checkPtr fun _ => .bind keeps_canonical fun _ => .bind keeps_readHdr fun _ => .guard .trapWith ?_
  refine .guard .trapWith (.bind keeps_readPay fun _ => .bind keeps_canonical fun _ => .guard keeps_rangeTrap ?_)
  refine .bind keeps_locate fun _ => .guard keeps_rangeTrap (.bind keeps_locRead fun _ => .bind keeps_locWrite fun _ => ?_)
  refine .ite ?_ ?_
  · exact keeps_joinPush (keeps_pushRecord (.bind keeps_rdP fun _ => .bind keeps_canonical fun _ => .bind keeps_readPay fun _ =>
        .pure) (.bind keeps_rdP fun _ => .bind keeps_canonical fun _ => .bind keeps_readPay fun _ => .pure))
  · exact .pure

theorem keeps_codeTarget {p} : Keeps (codeTarget p) := .bind keeps_namesFunction fun _ => .bind keeps_enterCode fun _ => .pure

theorem keeps_runTask {r} : Keeps (runTask r) := by
  refine .bind keeps_cur fun _ => .bind keeps_loadPtr fun _ => .bind keeps_loadPtr fun _ => .bind keeps_wrX fun _ => ?_
  exact .bind keeps_codeTarget fun _ => .bind keeps_modCur fun _ => .pure

theorem keeps_endSstep : Keeps endSstep := .bind (.modify fun _ hs => memOk_modCur (memOk_applyMsgs hs)) fun _ => .pure

theorem safe_execSstep {s : State} (h : s.memOk = true) : Safe (execSstep s) := by
  unfold execSstep
  generalize tagsOf (BitVec.allOnes 64) = tags
  refine safe_draining (fun _ hs => safe_runWord (.get fun _ _ => ?_) hs) h
  dsimp only
  split
  · exact keeps_runTask
  · split
    · exact .guard keeps_abandonedTrap (.ite keeps_endSstep .pure)
    · refine .bind keeps_abandonedTrap fun _ => .bind keeps_drain fun _ => .bind keeps_waitTags fun _ => .bind keeps_cur fun _ =>
          ?_
      refine .ite keeps_again (.ite .pure ?_)
      refine .guard keeps_modCur (.bind keeps_modCur fun _ => .bind keeps_popTask fun _ => ?_)
      split
      · exact keeps_runTask
      · exact .bind (.modify fun _ hs => memOk_arriveOn hs) fun _ => .pure

/-! ### Streams -/

theorem keeps_sourceElem {st k} : Keeps (sourceElem st k) := by
  refine .ite ?_ ?_
  · exact .ite .pure (.bind keeps_readElem fun _ => .bind keeps_readScaleF fun _ => .pure)
  · exact .ite .pure (.bind keeps_readElem fun _ => .pure)

theorem keeps_setStream {s f} : Keeps (setStream s f) := keeps_modCur

theorem keeps_streamElems {s st md pop k l} : Keeps (streamElems s st md pop k l) := by
  induction k generalizing l with
  | zero => exact .pure
  | succ _ ih => exact .bind keeps_setStream fun _ => .bind keeps_sourceElem fun _ => ih

theorem keeps_streamVec {s st pop} : Keeps (streamVec s st pop) := by
  unfold streamVec
  refine .bind keeps_cur fun _ => .bind keeps_streamElems fun _ => .bind keeps_setStream fun _ => ?_
  split <;> exact .pure

theorem memOk_readAhead {s : State} {r} (h : s.memOk = true) : (s.readAhead r).memOk = true := by
  unfold State.readAhead
  refine memOk_ite ?_ h
  split
  next t e => exact memOk_modCur (memOk_of_ok e keeps_streamVec h :)
  next t e => exact memOk_memError (memOk_modCur (memOk_of_error e keeps_streamVec h :))

theorem keeps_popStream {i r} : Keeps (popStream i r) := by
  unfold popStream
  refine .bind keeps_cur fun _ => ?_
  refine .guard .trapWith ?_
  split
  · exact .bind keeps_setStream fun _ => .pure
  · exact .bind keeps_setStream fun _ => .throw
  · exact .bind keeps_streamVec fun _ => .bind keeps_setStream fun _ => .pure

theorem keeps_actSbind {r a b r1} : Keeps (actSbind r a b r1) := by
  unfold actSbind
  refine .bind keeps_setStream fun _ => ?_
  refine .bind keeps_cur fun _ => .bind keeps_curEntry fun _ => .bind keeps_needEntry fun _ => ?_
  refine .guard keeps_rangeTrap ?_
  refine .get fun _ _ => ?_
  dsimp only
  split
  · exact .bind .trapWith fun _ => .bind keeps_setStream fun _ => .pure
  · exact .bind keeps_setStream fun _ => .pure

theorem keeps_actVmvStream {d r m n t r1} : Keeps (actVmvStream d r m n t r1) :=
  .bind keeps_cur fun _ => .bind keeps_holdSources fun _ => .bind keeps_popStream fun _ => .bind keeps_raiseFlags fun _ => .pure

/-! ### What the words of the coprocessor do at issue -/

/-- The work of a coprocessor word, where there is one, keeps the memories canonical. -/
def ActKeeps (o : Option (CopUnit × (RingEntry → Ex Issued))) : Prop := ∀ u act, o = some (u, act) → ∀ r, Keeps (act r)

theorem ActKeeps.none : ActKeeps none := by
  rintro _ _ ⟨⟩

theorem ActKeeps.some {u : CopUnit} {act : RingEntry → Ex Issued} (h : ∀ r, Keeps (act r)) : ActKeeps (some (u, act)) := by
  rintro _ _ ⟨⟩; exact h

theorem actKeeps_copAct (i : Instr) : ActKeeps (copAct i) := by
  cases i
  case vamo => exact .some fun _ => keeps_actVamo
  case vadd | vsub | vmul | vmulh | vmulhz | vfma | vfms | vfnma | vfnms | vfdiv | vfsqrt | vmin | vmax | vminz | vmaxz | vfmin |
      vfmax | vand | vor | vxor | vandn | vshl | vshr | vsar => exact .some fun _ => keeps_elementWise
  case vcmpEq | vcmpNe | vcmpLt | vcmpLe | vfcmpEq | vfcmpLt | vfcmpLe | vfcmpUn => exact .some fun _ => keeps_compare
  case vsel | vperm | vslideUp | vslideDn | vbcast | vext | viota | vcompress | vexpand | vpopc | vfirst | vmv | mlogAnd |
      mlogOr | mlogXor | mlogAndn | kstore => exact .some fun _ => .bind keeps_cur fun _ => .pure
  case vcvt | vcvtSat => exact .some fun _ => keeps_convertVec
  case vquant => exact .some fun _ => keeps_quantVec
  case vredAdd | vredMin | vredMax | vredOr => exact .some fun _ => keeps_reduce
  case vscanAdd | vscanMin | vscanMax | vscanOr => exact .some fun _ => keeps_scan
  case vins => exact .some fun _ => .pure
  case vtopk | vxacc | vxrnd => exact .some fun _ => .bind keeps_cur fun _ => .bind keeps_raiseFlags fun _ => .pure
  case vld | vlds | vgath => exact .some fun _ => keeps_vecLoad
  case vst | vscat => exact .some fun _ => keeps_vecStoreTo
  case vmvStream => exact .some fun _ => keeps_actVmvStream
  case mma => exact .some fun _ => keeps_actMma
  case tclaim => exact .some fun _ => .bind keeps_curEntry fun _ => .guard keeps_rangeTrap (.bind keeps_setSlot fun _ => .pure)
  case tfree => exact .some fun _ => .bind keeps_setSlot fun _ => .pure
  case tload => exact .some fun _ => keeps_actTload
  case tstore => exact .some fun _ => keeps_actTstore
  case tzero => exact .some fun _ => .bind keeps_needSlot fun _ => .bind keeps_setSlot fun _ => .pure
  case tidld => exact .some fun _ => keeps_actTidld
  case tidst => exact .some fun _ => keeps_actTidst
  case azero => exact .some fun _ => .bind keeps_fillB fun _ => .pure
  case aload => exact .some fun _ => keeps_actAload
  case astore => exact .some fun _ => keeps_actAstore
  case adrain => exact .some fun _ => keeps_actAdrain
  case afill => exact .some fun _ => .bind keeps_needSlot fun _ => .bind keeps_modCur fun _ => .pure
  case amode => exact .some fun _ => .bind keeps_modCur fun _ => .bind keeps_fillB fun _ => .pure
  case again | againPlain | kload | kzero => exact .some fun _ => .bind keeps_modCur fun _ => .pure
  case ascan | ascanK | ascanG => exact .some fun _ => keeps_affineScan
  case aapply => exact .some fun _ => .bind keeps_cur fun _ => .guard keeps_rangeTrap (.bind keeps_modCur fun _ => .pure)
  case kcomb => exact .some fun _ => keeps_actKcomb
  case sbind => exact .some fun _ => keeps_actSbind
  case sclose => exact .some fun _ => .bind keeps_setStream fun _ => .pure
  case sendv => exact .some fun _ => keeps_actSendv
  case recvV => exact .some fun _ => keeps_actRecvV
  all_goals exact .none

/-- A coprocessor word dispatches the work `copAct` gives it. -/
theorem safe_copWord {prep : Ex Capture} {act : RingEntry → Ex Issued} {s : State} {i uses u} (hi : copAct i = some (u, act))
    (hprep : Keeps prep) (h : s.memOk = true) : Safe (runCop i uses u prep act s) :=
  safe_runCop hprep (actKeeps_copAct _ _ _ hi) h

theorem keeps_reissue {l} : Keeps (reissue l) := by
  induction l with
  | nil => exact .pure
  | cons r l ih =>
    unfold reissue
    split
    next e => exact .bind (keeps_issue (actKeeps_copAct _ _ _ e)) fun _ => .bind keeps_cur fun _ => .ite .pure ih
    · exact .bind keeps_cur fun _ => .ite .pure ih

theorem memOk_issueDue {s : State} (h : s.memOk = true) : s.issueDue.memOk = true := by
  unfold State.issueDue
  split
  next t e => exact (memOk_of_ok e keeps_reissue h :)
  next t e => exact (memOk_of_error e keeps_reissue h :)

theorem memOk_waitFor {s : State} {t} (h : s.memOk = true) : (s.waitFor t).memOk = true := memOk_frame h

theorem memOk_passTo {s : State} (h : s.memOk = true) : s.passTo.memOk = true := memOk_issueDue (memOk_waitFor h)

theorem memOk_landDue {s : State} {k} (h : s.memOk = true) : (s.landDue k).memOk = true := by
  induction k generalizing s with
  | zero => exact h
  | succ _ ih =>
    unfold State.landDue
    split
    · exact h
    · exact memOk_ite (ih (memOk_landRow h)) h

theorem memOk_pump {s : State} (h : s.memOk = true) : s.pump.memOk = true := by
  unfold State.pump
  extract_lets s1
  have h1 : s1.memOk = true := memOk_ite h (memOk_ite (memOk_finishLoads h) (memOk_landDue h))
  exact memOk_modCur (memOk_ite (memOk_ite (memOk_passTo h1) (memOk_issueDue h1)) h1)

theorem keeps_eretBody : Keeps eretBody := by
  refine .bind keeps_cur fun _ => .bind keeps_eretCore fun _ => .bind keeps_modCur fun _ => .bind keeps_modCur fun _ => ?_
  exact .bind keeps_modCur fun _ => .pure

/-! ### System instructions -/

theorem safe_execRds {s : State} {d n} (h : s.memOk = true) : Safe (execRds d n s) := by
  refine safe_runWord (.get fun _ _ => .guard keeps_illegal (.bind keeps_cur fun _ => .guard .trapWith (.guard keeps_drain ?_))) h
  exact .get fun _ _ => .bind keeps_wrX fun _ => .pure

theorem keeps_rootValue {v} : Keeps (rootValue v) :=
  .ite .pure (.guard .trapWith (.ite (.bind keeps_readHdr fun _ => keeps_canonOf) .pure))

theorem keeps_writeSpecial {n v} : Keeps (writeSpecial n v) := by
  refine .ite keeps_modCur (.ite keeps_modCur (.ite keeps_modCur (.ite keeps_modCur (.ite keeps_modCur (.ite keeps_modCur ?_)))))
  refine .ite keeps_modCur (.ite keeps_modCur (.ite keeps_modCur (.ite keeps_modCur ?_)))
  exact .ite (.bind keeps_rootValue fun _ => keeps_modCur) .pure

theorem safe_execWrs {s : State} {a n} (h : s.memOk = true) : Safe (execWrs a n s) := by
  refine safe_runWord (.bind keeps_rdX fun _ => .guard keeps_illegal (.bind keeps_cur fun _ => .guard .trapWith ?_)) h
  exact .get fun _ _ => .guard keeps_illegal (.guard keeps_drain (.bind keeps_writeSpecial fun _ => .pure))

theorem memOk_dropHeld {s : State} {addr ctx} (h : s.memOk = true) : (s.dropHeld addr ctx).memOk = true :=
  memOk_frame (memOk_frame h)

theorem safe_execSfence {s : State} {a b} (h : s.memOk = true) : Safe (execSfence a b s) :=
  safe_runWord (.bind keeps_rdX fun _ => .bind keeps_rdX fun _ => .bind (.modify fun _ hs => memOk_dropHeld hs) fun _ => .pure) h

theorem keeps_writeBackCopies {l} : Keeps (writeBackCopies l) := by
  induction l with
  | nil => exact .pure
  | cons _ _ ih => exact .bind keeps_cur fun _ => .bind keeps_writeBack fun _ => ih

theorem memOk_completeAll {s : State} {id} (h : s.memOk = true) : (s.completeAll id).memOk = true :=
  memOk_completeBarrier (memOk_completeBarrier (memOk_completeBarrier (memOk_completeBarrier h)))

theorem safe_execRetire {s : State} (h : s.memOk = true) : Safe (execRetire s) := by
  unfold execRetire
  generalize tagsOf (BitVec.allOnes 64) = tags
  refine safe_draining (fun _ hs => safe_runWord ?_ hs) h
  refine .bind keeps_drain fun _ => .bind keeps_waitTags fun _ => .bind keeps_cur fun _ => .ite keeps_again ?_
  refine .bind keeps_cur fun _ => .bind keeps_writeBackCopies fun _ => .bind keeps_modCur fun _ => ?_
  exact .bind (.modify fun _ hs => memOk_completeAll hs) fun _ => .pure

/-! ### Core records -/

theorem keeps_recordPlace {p} : Keeps (recordPlace p) := by
  refine .bind keeps_rdP fun _ => .bind keeps_checkPtr fun _ => .bind keeps_readHdr fun _ => .guard .trapWith ?_
  exact .bind keeps_ctxCheck fun _ => .guard .trapWith (.guard .trapWith .pure)

theorem memOk_settleCopies {s : State} (h : s.memOk = true) : s.settleCopies.memOk = true :=
  memOk_modCur (memOk_foldl h fun _ _ hs => memOk_endCopy hs)

theorem safe_execCxsave {s : State} {p} (h : s.memOk = true) : Safe (execCxsave p s) := by
  unfold execCxsave
  refine safe_runWord ?_ h
  refine .bind keeps_recordPlace fun _ => .bind keeps_drain fun _ => .bind keeps_cur fun _ => .ite keeps_again ?_
  refine .bind ?_ ?_
  · exact .modify fun _ hs => memOk_settleCopies hs
  refine fun _ => .get fun _ _ => ?_
  dsimp only
  split
  · exact .bind .trapWith fun _ => .bind keeps_fillObj fun _ => .bind keeps_markDirty fun _ => .bind keeps_modCur fun _ => .pure
  · refine .bind keeps_modCur fun _ => .bind keeps_fillObj fun _ => .bind keeps_markDirty fun _ => .bind keeps_modCur fun _ => ?_
    exact .pure

theorem keeps_fillLens : Keeps fillLens := by
  refine .bind ?_ fun _ => ?_
  · exact .forIn fun _ _ => .bind keeps_rdP fun _ => .bind keeps_lenOf fun _ => .bind keeps_wrP fun _ => .pure
  exact .bind keeps_cur fun _ => .bind keeps_lenOf fun _ => .bind keeps_lenOf fun _ => keeps_modCur

theorem keeps_enterFrom {k l} : Keeps (enterFrom k l) := by
  induction l generalizing k with
  | nil => exact .pure
  | cons _ _ ih => exact .bind keeps_enterPort fun _ => ih

theorem keeps_enterWords {l} : Keeps (enterWords l) := .get fun _ _ => keeps_enterFrom

theorem safe_execCxload {s : State} {p} (h : s.memOk = true) : Safe (execCxload p s) := by
  unfold execCxload
  refine safe_runWord ?_ h
  refine .bind keeps_recordPlace fun _ => .bind keeps_snapshot fun _ => .get fun _ _ => ?_
  dsimp only
  split
  on_goal 1 => refine .bind .trapWith fun _ => ?_
  all_goals
    refine .bind keeps_drain fun _ => .bind keeps_cur fun _ => .ite keeps_again (.bind keeps_cur fun _ => ?_)
    refine .bind keeps_cur fun _ => .bind keeps_enterWords fun _ => .bind keeps_modCur fun _ => .bind keeps_modCur fun _ => ?_
    exact .bind keeps_fillLens fun _ => .pure

/-! ### Queues and the command processor -/

theorem memOk_setQueue {s : State} {q k} (h : s.memOk = true) : (s.setQueue q k).memOk = true := memOk_frame h

theorem memOk_setBk {s : State} {q b} (h : s.memOk = true) : (s.setBk q b).memOk = true := memOk_frame h

theorem memOk_tryWords {s : State} {ctx va k} (h : s.memOk = true) : (s.tryWords ctx va k).2.memOk = true := by
  induction k generalizing s va with
  | zero => exact h
  | succ _ ih =>
    unfold State.tryWords
    split
    next t e => exact (memOk_of_snd e (memOk_tryLoad h) :)
    next t e => exact ih (memOk_of_snd e (memOk_tryLoad h) :)

theorem memOk_depMet {s : State} {ctx a v} (h : s.memOk = true) : (s.depMet ctx a v).2.memOk = true := by
  unfold State.depMet
  split
  · exact h
  · exact memOk_tryLoad h

theorem memOk_depsMet {s : State} {ctx l} (h : s.memOk = true) : (s.depsMet ctx l).2.memOk = true := by
  induction l generalizing s with
  | nil => exact h
  | cons _ _ ih =>
    unfold State.depsMet
    split
    next t e => exact (memOk_of_snd e (memOk_depMet h) :)
    next t e => exact ih (memOk_of_snd e (memOk_depMet h) :)

theorem memOk_head {s : State} {q} (h : s.memOk = true) : (s.head q).1.memOk = true := by
  unfold State.head
  dsimp only
  split
  · exact h
  split
  · exact h
  split
  next e => exact memOk_of_snd e (memOk_tryWords h)
  next t e =>
    have ht : t.memOk = true := memOk_of_snd e (memOk_tryWords h)
    split
    next e => exact memOk_of_snd e (memOk_depsMet ht)
    next e => exact memOk_of_snd e (memOk_depsMet ht)
    next e =>
      have hu := memOk_of_snd e (memOk_depsMet ht)
      split
      · exact hu
      · split <;> exact hu

theorem memOk_objHead {s : State} {ctx p} (h : s.memOk = true) : (s.objHead ctx p).2.memOk = true := by
  unfold State.objHead
  split
  · exact h
  · split
    · exact h
    · split
      next t e => exact (memOk_of_snd e (memOk_tryLoad h) :)
      next t e => exact (memOk_of_snd e (memOk_tryLoad h) :)

theorem memOk_ringOk {s : State} {ctx p kind} (h : s.memOk = true) : (s.ringOk ctx p kind).2.memOk = true := by
  unfold State.ringOk
  split
  · exact h
  · split
    next t e => exact (memOk_of_snd e (memOk_objHead h) :)
    next t e => exact (memOk_of_snd e (memOk_objHead h) :)

theorem memOk_headerOk {s : State} {ctx hdr} (h : s.memOk = true) : (s.headerOk ctx hdr).2.memOk = true := by
  unfold State.headerOk
  dsimp only
  split
  · split
    next e => exact memOk_ringOk (memOk_of_snd e (memOk_ringOk h))
    next e => exact memOk_of_snd e (memOk_ringOk h)
  · exact h

theorem memOk_launchIn {s : State} {ctx p} (h : s.memOk = true) : (s.launchIn ctx p).2.memOk = true := by
  unfold State.launchIn
  split
  next e => exact (memOk_of_snd e (memOk_objHead h) :)
  next t e =>
    have ht : t.memOk = true := memOk_of_snd e (memOk_objHead h)
    split
    · exact ht
    split
    next e => exact (memOk_of_snd e (memOk_tryWords ht) :)
    next u e =>
      have hu : u.memOk = true := memOk_of_snd e (memOk_tryWords ht)
      dsimp only
      split
      next v _ _ e _ =>
        have hv : v.memOk = true := memOk_of_snd e (memOk_headerOk hu)
        split
        · exact hv
        split <;> exact (memOk_of_snd ‹_› (memOk_objHead hv) :)
      next e _ => exact (memOk_of_snd e (memOk_headerOk hu) :)

theorem memOk_clearPad {s : State} {id} (h : s.memOk = true) : (s.clearPad id).memOk = true :=
  memOk_setPad (memOk_healPad h) wf_fresh

theorem memOk_givePad {s : State} {ctx id} (h : s.memOk = true) : (s.givePad ctx id).memOk = true :=
  memOk_setPad (memOk_ite h (memOk_clearPad h)) (pad_wf (memOk_ite h (memOk_clearPad h)) _)

theorem memOk_takePads {s : State} {ctx cores} (h : s.memOk = true) : (s.takePads ctx cores).memOk = true := by
  unfold State.takePads
  extract_lets s1 s2 s3
  have h1 : s1.memOk = true := memOk_foldl h fun _ _ hs => memOk_clearPad hs
  have h2 : s2.memOk = true := memOk_foldl h1 fun _ _ hs => memOk_ite hs (memOk_givePad hs)
  exact memOk_frame (memOk_ite h2 (memOk_givePad h2))

theorem memOk_dropPads {s : State} (h : s.memOk = true) : s.dropPads.memOk = true := by
  unfold State.dropPads
  dsimp only
  split
  · exact h
  · exact memOk_ite h (memOk_setPad h (pad_wf h _))

theorem memOk_addCores {s : State} {l} (h : s.memOk = true) : (s.addCores l).memOk = true := by
  unfold State.addCores
  split <;> exact memOk_frame h

theorem memOk_writeTens {s : State} {ctx kidx r} (h : s.memOk = true) : (s.writeTens ctx kidx r).memOk = true :=
  memOk_foldl h fun _ _ hs => memOk_setTidEntry hs

theorem memOk_startGang {s : State} {q tag ctx ca h r k cores} (hs : s.memOk = true) :
    (s.startGang q tag ctx ca h r k cores).memOk = true :=
  memOk_addCores (memOk_frame (memOk_writeTens (memOk_takePads (memOk_createCtx hs))))

theorem memOk_walkList {s : State} {ctx p} (h : s.memOk = true) : (s.walkList ctx p).memOk = true := by
  unfold State.walkList
  refine memOk_ite h ?_
  split
  next t e => exact (memOk_of_snd e (memOk_objHead h) :)
  next t e =>
    have ht : t.memOk = true := memOk_of_snd e (memOk_objHead h)
    refine memOk_modCur ?_
    refine memOk_foldl (memOk_modCur ht) fun _ _ hs => ?_
    split
    next t1 e1 => exact memOk_markPages (memOk_of_snd e1 (memOk_tryWords hs) :)
    next t1 _ e1 => exact (memOk_of_snd e1 (memOk_tryWords hs) :)

theorem memOk_addCounter {s : State} {ctx a amount what q tag} (h : s.memOk = true) :
    (s.addCounter ctx a amount what q tag).memOk = true := by
  unfold State.addCounter
  refine memOk_ite h ?_
  extract_lets done
  have hd : done.2.memOk = true := by
    unfold done
    split
    · exact h
    split
    next e => exact memOk_tryStore (memOk_of_snd e (memOk_tryLoad h))
    next e => exact memOk_of_snd e (memOk_tryLoad h)
  exact memOk_ite hd (memOk_ownWriteFailed hd)

theorem memOk_completePacket {s : State} {q tag ctx ca amount} (h : s.memOk = true) :
    (s.completePacket q tag ctx ca amount).memOk = true :=
  memOk_trace (memOk_addCounter h)

theorem memOk_endRequest {s : State} {sts} (h : s.memOk = true) : (s.endRequest sts).memOk = true :=
  memOk_trace (memOk_addCounter (memOk_frame h))

theorem memOk_removeMembers {s : State} {id} (h : s.memOk = true) : (s.removeMembers id).memOk = true := by
  unfold State.removeMembers
  split <;> exact memOk_frame h

theorem memOk_removeGang {s : State} {id} (h : s.memOk = true) : (s.removeGang id).memOk = true :=
  memOk_dropPads (memOk_frame (memOk_removeMembers h))

theorem memOk_finishGang {s : State} {g} (h : s.memOk = true) : (s.finishGang g).memOk = true := by
  unfold State.finishGang
  extract_lets ended s1 s2 s3
  have h1 : s1.memOk = true := memOk_removeGang h
  have h3 : s3.memOk = true := memOk_foldl (memOk_ite (memOk_raiseIrq h1) (memOk_completePacket h1)) fun _ _ hs =>
      memOk_completePacket hs
  exact memOk_ite (memOk_endRequest h3) h3

theorem memOk_finishGangs {s : State} (h : s.memOk = true) : s.finishGangs.memOk = true :=
  memOk_foldl h fun _ _ hs => memOk_finishGang hs

theorem memOk_ageQueue {s : State} {q} (h : s.memOk = true) : (s.ageQueue q).memOk = true := by
  unfold State.ageQueue
  dsimp only
  split
  · exact memOk_setQueue h
  · exact memOk_ite h (memOk_setQueue h)

theorem memOk_ageQueues {s : State} (h : s.memOk = true) : s.ageQueues.memOk = true :=
  memOk_foldl h fun _ _ hs => memOk_ageQueue hs

theorem memOk_packetCheck {s : State} {q p} (h : s.memOk = true) : (s.packetCheck q p).2.memOk = true := by
  unfold State.packetCheck
  dsimp only
  split
  · exact h
  · split
    · split
      next t e => exact (memOk_of_snd e (memOk_launchIn h) :)
      next t e => exact (memOk_of_snd e (memOk_launchIn h) :)
    · split
      · split
        · exact h
        · split <;> exact h
      · exact h

theorem memOk_failQueue {s : State} {q sts tag} (h : s.memOk = true) : (s.failQueue q sts tag).memOk = true :=
  memOk_ite (memOk_frame (memOk_setQueue h)) (memOk_raiseIrq (memOk_setQueue h))

theorem memOk_dispatchHead {s : State} {q p} (h : s.memOk = true) : (s.dispatchHead q p).memOk = true :=
  memOk_trace (memOk_frame (memOk_setQueue h))

theorem memOk_runPacket {s : State} {q p} (h : s.memOk = true) : (s.runPacket q p).memOk = true := by
  unfold State.runPacket
  extract_lets ctx s1
  refine memOk_ite ?_ ?_
  · split
    next e => exact memOk_of_snd e (memOk_launchIn h)
    next t e =>
      have ht : t.memOk = true := memOk_of_snd e (memOk_launchIn h)
      split
      · exact ht
      · exact memOk_walkList (memOk_startGang (memOk_dispatchHead ht))
  have h1 : s1.memOk = true := memOk_dispatchHead h
  refine memOk_ite (memOk_completePacket h1) (memOk_ite ?_ (memOk_completePacket h1))
  split
  · exact memOk_completePacket h1
  · exact memOk_setGang h1

theorem memOk_command {s : State} {ty q} (h : s.memOk = true) : (s.command ty q).memOk = true := by
  unfold State.command
  extract_lets s0
  have h0 : (s0.head q).1.memOk = true := memOk_head (memOk_ageQueues h)
  split
  next e => exact memOk_failQueue (memOk_of_fst e h0)
  next e => exact memOk_trace (memOk_setBk (memOk_of_fst e h0))
  next t _ e =>
    have ht : t.memOk = true := memOk_of_fst e h0
    split
    · exact memOk_ite (memOk_failQueue (memOk_packetCheck ht)) ht
    · exact memOk_ite (memOk_ageQueue (memOk_runPacket ht)) ht
  next e => exact memOk_of_fst e h0

theorem memOk_commandNext {s t : State} (h : s.memOk = true) (ht : s.commandNext = some t) : t.memOk = true := by
  unfold State.commandNext at ht
  dsimp only at ht
  split at ht
  · obtain ⟨q, -, hq⟩ := List.exists_of_findSome?_eq_some ht
    obtain ⟨ty, -, rfl⟩ := Option.map_eq_some_iff.mp hq
    exact memOk_command (memOk_ageQueues h)
  · exact absurd ht (by simp)

theorem memOk_ageHeads {s : State} (h : s.memOk = true) : s.ageHeads.memOk = true := memOk_ite (memOk_ageQueues h) h

theorem safe_execPacketComplete {s : State} {q tag} (h : s.memOk = true) : Safe (execPacketComplete q tag s) := by
  unfold execPacketComplete
  refine safe_runStep (fun _ hs => ?_) h
  split
  · exact memOk_finishGang hs
  · exact hs

theorem safe_execPriorityAging {s : State} (h : s.memOk = true) : Safe (execPriorityAging s) := by
  unfold execPriorityAging
  refine safe_runStep (fun _ hs => ?_) h
  refine memOk_foldl hs fun _ _ hs1 => ?_
  dsimp only
  split
  · exact memOk_setQueue hs1
  · exact hs1

theorem safe_execLaunchSeniority {s : State} (h : s.memOk = true) : Safe (execLaunchSeniority s) := by
  unfold execLaunchSeniority
  refine safe_runStep (fun _ hs => ?_) h
  refine memOk_foldl hs fun _ _ hs1 => ?_
  dsimp only
  split
  · exact memOk_setQueue hs1
  · exact hs1

theorem memOk_ring {s : State} {q w} (h : s.memOk = true) : (s.ring q w).memOk = true :=
  memOk_ite h (memOk_ite (memOk_ageQueue (memOk_setQueue h)) (memOk_frame (memOk_setQueue h)))

theorem memOk_skipQueue {s : State} {q} (h : s.memOk = true) : (s.skipQueue q).memOk = true :=
  memOk_ite (memOk_ageQueue (memOk_setQueue h)) h

theorem memOk_resetQueue {s : State} {q} (h : s.memOk = true) : (s.resetQueue q).memOk = true := memOk_setBk (memOk_setQueue h)

theorem memOk_enableQueue {s : State} {q} (h : s.memOk = true) : (s.enableQueue q).memOk = true :=
  memOk_ageQueue (memOk_setQueue h)

theorem memOk_disableQueue {s : State} {q} (h : s.memOk = true) : (s.disableQueue q).memOk = true :=
  memOk_setBk (memOk_setQueue h)

theorem memOk_writeQstat {s : State} {q v} (h : s.memOk = true) : (s.writeQstat q v).memOk = true := by
  refine memOk_ite (memOk_resetQueue h) (memOk_ite (memOk_skipQueue h) (memOk_ite (memOk_enableQueue h) ?_))
  exact memOk_ite (memOk_disableQueue h) h

theorem memOk_writeQueue {s : State} {host q reg v} (h : s.memOk = true) : (s.writeQueue host q reg v).memOk = true := by
  refine memOk_ite (memOk_ite (memOk_setQueue h) h) (memOk_ite (memOk_ite (memOk_setQueue h) h) ?_)
  exact memOk_ite (memOk_ite (memOk_ring h) h) (memOk_ite (memOk_writeQstat h) h)

theorem keeps_storeWords {va l} : Keeps (storeWords va l) := by
  induction l generalizing va with
  | nil => exact .pure
  | cons _ _ ih => exact .guard .throw (.bind keeps_translate fun _ => .bind keeps_locWrite fun _ => ih)

theorem safe_execQpost {s : State} {d a p} (h : s.memOk = true) : Safe (execQpost d a p s) := by
  refine safe_runWord (.bind keeps_touch fun _ => .bind keeps_rdP fun _ => .guard .trapWith (.bind keeps_rdX fun _ => ?_)) h
  refine .get fun _ _ => .guard keeps_rangeTrap ?_
  refine .ite ?_ ?_
  · refine .bind keeps_readPay fun _ => .bind (keeps_asCtx keeps_storeWords) fun _ => ?_
    exact .bind (.modify fun _ hs1 => memOk_ageQueue (memOk_setQueue hs1)) fun _ => .bind keeps_wrX fun _ => .pure
  · exact .bind keeps_wrX fun _ => .pure

/-! ### Superstep boundaries -/

theorem memOk_tryWrite {s : State} {ctx p off n v} (h : s.memOk = true) : (s.tryWrite ctx p off n v).2.memOk = true := by
  unfold State.tryWrite
  split
  next t e => exact (memOk_of_ok e (keeps_asCtx keeps_writeObj) h :)
  · exact memOk_knowing h

theorem memOk_writeRollCall {s : State} {g} (h : s.memOk = true) : (s.writeRollCall g).memOk = true := by
  unfold State.writeRollCall
  refine memOk_trace ?_
  refine memOk_ite h ?_
  dsimp only
  split
  next t e => exact memOk_ownWriteFailed (memOk_of_snd e (memOk_objHead h) :)
  next t e =>
    have ht : t.memOk = true := memOk_of_snd e (memOk_objHead h)
    refine memOk_ite (memOk_ownWriteFailed ht) ?_
    split
    next t1 e1 => exact (memOk_of_snd e1 (memOk_tryWrite ht) :)
    next t1 e1 => exact memOk_ownWriteFailed (memOk_of_snd e1 (memOk_tryWrite ht) :)

theorem memOk_debugStop {s : State} {g mode} (h : s.memOk = true) : (s.debugStop g mode).memOk = true :=
  memOk_enterTrap (memOk_frame h)

theorem memOk_debugStops {s : State} {id} (h : s.memOk = true) : (s.debugStops id).memOk = true := by
  unfold State.debugStops
  extract_lets g mode s0 ls s1
  refine memOk_ite h ?_
  have h1 : s1.memOk = true :=
    memOk_foldl (memOk_modWhere (memOk_applyMsgs h)) fun _ _ hs => memOk_onCore hs fun _ hs1 => memOk_debugStop hs1
  exact memOk_ite (memOk_frame (memOk_trace h1)) (memOk_trace h1)

theorem keeps_asPlaced {α : Type} {m : Ex α} {ctx pcid} (hm : Keeps m) : Keeps (asPlaced ctx pcid m : Ex α) :=
  .get fun _ _ => .bind keeps_modCur fun _ => .bind (keeps_asCtx hm) fun _ => .bind keeps_modCur fun _ => .pure

theorem memOk_roomFrom {s : State} {ctx pcid size n lvl} (h : s.memOk = true) {r} (hr : s.roomFrom ctx pcid size n lvl = some r) :
    r.2.memOk = true := by
  induction n generalizing lvl with
  | zero => exact absurd hr (by simp [State.roomFrom])
  | succ n ih =>
    unfold State.roomFrom at hr
    split at hr
    · exact absurd hr (by simp)
    split at hr
    next e =>
      obtain rfl := Option.some.inj hr
      exact memOk_bumpPad h e
    · exact ih hr

theorem memOk_collectAt {s : State} {ctx pcid lvl} (h : s.memOk = true) : (s.collectAt ctx pcid lvl).memOk = true := by
  unfold State.collectAt
  refine memOk_ite h ?_
  dsimp only
  split
  · exact memOk_frame (memOk_collectBack (memOk_frame h))
  · exact h

theorem memOk_collectPads {s : State} {ctx from_ cores} (h : s.memOk = true) : (s.collectPads ctx from_ cores).memOk = true :=
  memOk_foldl h fun _ _ hs => memOk_foldl hs fun _ _ hs1 => memOk_collectAt hs1

theorem memOk_reserveMoves {s : State} {g reach newPcid l} (h : s.memOk = true) {r}
    (hr : s.reserveMoves g reach newPcid l = some r) : r.1.memOk = true := by
  induction l generalizing s r with
  | nil =>
    obtain rfl := Option.some.inj hr
    exact h
  | cons o l ih =>
    have next : ∀ (s1 : State) (m : Move1), s1.memOk = true →
        (s1.reserveMoves g reach newPcid l).map (fun x => (x.1, m :: x.2)) = some r → r.1.memOk = true := by
      intro s1 m h1 hm
      obtain ⟨x, hx, rfl⟩ := Option.map_eq_some_iff.mp hm
      exact (ih h1 hx :)
    unfold State.reserveMoves at hr
    dsimp only at hr
    split at hr
    · exact ih h hr
    split at hr
    next e => exact next _ _ (memOk_roomFrom h e) hr
    split at hr
    · split at hr
      next e => exact next _ _ (memOk_of_ok e (keeps_asPlaced keeps_mergeBytes) h) hr
      · exact next _ _ (memOk_memError (memOk_knowing h)) hr
    · split at hr
      next e => exact next _ _ (memOk_of_ok e (keeps_asCtx keeps_heapPlace) h) hr
      · exact absurd hr (by simp)

theorem memOk_forwardMoves {s : State} {ctx ms} (h : s.memOk = true) : (s.forwardMoves ctx ms).memOk = true :=
  memOk_foldl h fun _ _ hs => memOk_forwardAll hs

theorem memOk_moveBytes {s : State} {ctx m} (h : s.memOk = true) : (s.moveBytes ctx m).memOk = true := by
  unfold State.moveBytes
  split
  · exact memOk_setPad h (Memory.wf_fill (pad_wf h _) _ _ _)
  · refine memOk_ite h ?_
    split
    next e =>
      refine memOk_of_ok e (keeps_asCtx ?_) h
      refine .bind ?_ ?_
      · exact keeps_fillObj
      · exact fun _ => keeps_writeObj
    · exact memOk_knowing h

theorem memOk_planMoves {s : State} {g cores newPcid} (h : s.memOk = true) {r} (hr : s.planMoves g cores newPcid = some r) :
    r.1.memOk = true := by
  unfold State.planMoves at hr
  dsimp only at hr
  split at hr
  next e =>
    split at hr
    · obtain rfl := Option.some.inj hr
      exact memOk_reserveMoves h e
    · exact memOk_reserveMoves (memOk_collectPads h) hr
  · exact memOk_reserveMoves (memOk_collectPads h) hr

theorem memOk_moveGang {s t : State} {g cores} (h : s.memOk = true) (ht : s.moveGang g cores = some t) : t.memOk = true := by
  obtain ⟨x, hx, rfl⟩ := Option.map_eq_some_iff.mp ht
  refine memOk_modGang (memOk_frame (memOk_foldl (memOk_modWhere (memOk_foldl ?_ fun _ _ hs => memOk_moveBytes hs))
    fun _ _ hs => memOk_clearPad hs))
  exact memOk_forwardMoves (memOk_modWhere (memOk_planMoves h hx))

theorem memOk_doShrink {s : State} {id x} (h : s.memOk = true) : (s.doShrink id x).memOk = true := by
  unfold State.doShrink
  refine memOk_ite (memOk_failQueue h) ?_
  dsimp only
  split
  · exact memOk_failQueue h
  next t e => exact memOk_completePacket (memOk_moveGang h e :)

theorem memOk_doShrinks {s : State} {id} (h : s.memOk = true) : (s.doShrinks id).memOk = true :=
  memOk_foldl (memOk_modGang h) fun _ _ hs => memOk_doShrink hs

theorem memOk_discardCopies {s : State} (h : s.memOk = true) : s.discardCopies.memOk = true :=
  memOk_foldl h fun _ _ hs => memOk_setPad hs (wf_clean (pad_wf hs _))

theorem memOk_endHere {s : State} (h : s.memOk = true) : s.endHere.memOk = true :=
  memOk_modGang (memOk_modCur (memOk_discardCopies h))

theorem memOk_endMember {s : State} {id lcid} (h : s.memOk = true) : (s.endMember id lcid).memOk = true := by
  refine memOk_ite ?_ ?_
  · refine memOk_ite ?_ ?_
    · exact memOk_endRequest (memOk_modGang (memOk_onCore h fun _ hs => memOk_endHere hs))
    · exact memOk_onCore h fun _ hs => memOk_endHere hs
  · exact h

theorem memOk_abortTask {s : State} {who v} (h : s.memOk = true) : (s.abortTask who v).memOk = true := by
  unfold State.abortTask
  dsimp only
  split
  · exact h
  · exact memOk_ite (memOk_endMember h) h

/-! ### Satchels -/

theorem memOk_tryFill {s : State} {ctx p off n cs} (h : s.memOk = true) : (s.tryFill ctx p off n cs).2.memOk = true := by
  unfold State.tryFill
  split
  next t e => exact (memOk_of_ok e (keeps_asCtx keeps_fillObj) h :)
  · exact memOk_knowing h

theorem memOk_trySnap {s : State} {ctx p n} (h : s.memOk = true) : (s.trySnap ctx p n).2.memOk = true := by
  unfold State.trySnap
  split
  next t e => exact (memOk_of_ok e (keeps_asCtx keeps_snapshot) h :)
  · exact memOk_knowing h

theorem memOk_imgLen {s : State} {ctx p} (h : s.memOk = true) : (s.imgLen ctx p).2.memOk = true := by
  unfold State.imgLen
  split
  next t e => exact (memOk_of_snd e (memOk_objHead h) :)
  next t e => exact (memOk_of_snd e (memOk_objHead h) :)

theorem memOk_quietZero {s : State} {ctx va n} (h : s.memOk = true) : (s.quietZero ctx va n).memOk = true :=
  memOk_foldl h fun _ _ hs => memOk_attempt hs (.bind keeps_useLeaf fun _ => keeps_locFill)

theorem memOk_writePortable {s : State} {g} (h : s.memOk = true) : (s.writePortable g).2.memOk = true := by
  unfold State.writePortable
  extract_lets
  split
  next dp dn _ =>
  split
  next cells n _ =>
  split
  next t e1 => exact (memOk_of_snd e1 (memOk_imgLen h) :)
  next t e1 =>
    have h1 : t.memOk = true := memOk_of_snd e1 (memOk_imgLen h)
    split
    · exact h1
    split
    next t e2 => exact (memOk_of_snd e2 (memOk_tryFill h1) :)
    next t e2 =>
      have h2 : t.memOk = true := memOk_of_snd e2 (memOk_tryFill h1)
      split
      · exact h2
      split
      next t e3 => exact (memOk_of_snd e3 (memOk_trySnap h2) :)
      next t e3 =>
        have h3 : t.memOk = true := memOk_of_snd e3 (memOk_trySnap h2)
        split
        next t e4 => exact (memOk_of_snd e4 (memOk_tryFill h3) :)
        next t e4 => exact memOk_frame (memOk_quietZero (memOk_of_snd e4 (memOk_tryFill h3)))

theorem memOk_dropMerges {s : State} {ctx} (h : s.memOk = true) : (s.dropMerges ctx).memOk = true := memOk_frame h

theorem memOk_takeCut {s : State} {id} (h : s.memOk = true) : (s.takeCut id).memOk = true := by
  unfold State.takeCut
  extract_lets s0 g s1
  split
  · exact h
  have h1 : s1.memOk = true := memOk_setGang (memOk_applyMsgs h)
  refine memOk_ite (memOk_endRequest h1) ?_
  split
  next t e => exact memOk_endRequest (memOk_of_snd e (memOk_writePortable h1) :)
  next t e =>
    have ht : t.memOk = true := memOk_of_snd e (memOk_writePortable h1)
    refine memOk_ite (memOk_endRequest ?_) (memOk_endRequest ht)
    exact memOk_foldl (memOk_removeGang (memOk_dropMerges ht)) fun _ _ hs => memOk_completePacket hs

theorem memOk_boundary {s : State} {id} (h : s.memOk = true) : (s.boundary id).memOk = true := by
  refine memOk_ite ?_ ?_
  · exact memOk_modGang (memOk_modWhere (memOk_doShrinks (memOk_debugStops (memOk_takeCut (memOk_writeRollCall h)))))
  · exact memOk_takeCut (memOk_writeRollCall h)

theorem safe_execSuperstepBoundary {s : State} (h : s.memOk = true) : Safe (execSuperstepBoundary s) := by
  unfold execSuperstepBoundary
  refine safe_runStep (fun _ hs => ?_) h
  split
  · exact memOk_boundary hs
  · exact hs

theorem memOk_stopScan {s : State} {w r n k len gain skip} (h : s.memOk = true) :
    (s.stopScan w r n k len gain skip).memOk = true :=
  memOk_ite h (memOk_attempt (memOk_frame h) keeps_noteUnderflow)

theorem memOk_stopMma {s : State} {w r n ta tb op t u} (h : s.memOk = true) : (s.stopMma w r n ta tb op t u).memOk = true :=
  memOk_ite h (memOk_frame h)

theorem memOk_stopWork {s : State} (h : s.memOk = true) : s.stopWork.memOk = true := by
  unfold State.stopWork
  split
  · exact h
  · split
    · exact h
    · refine memOk_ite h ?_
      split
      · exact memOk_stopMma h
      · exact memOk_stopScan h
      · exact memOk_stopScan h
      · exact memOk_stopScan h
      · exact h

theorem memOk_stopLoads {s : State} (h : s.memOk = true) : s.stopLoads.memOk = true := memOk_modCur (memOk_landRow h)

theorem memOk_stopMembers {s : State} {id} (h : s.memOk = true) : (s.stopMembers id).memOk = true :=
  memOk_foldl h fun _ _ hs => memOk_onCore hs fun _ hs1 => memOk_modCur (memOk_stopLoads (memOk_stopWork
    (memOk_settleCopies hs1)))

theorem memOk_settleWords {s : State} {id k} (h : s.memOk = true) : (s.settleWords id k).memOk = true := by
  induction k generalizing s with
  | zero => exact h
  | succ _ ih =>
    unfold State.settleWords
    dsimp only
    split
    · exact h
    · exact ih (memOk_deposits (memOk_frame h))

theorem memOk_endSteps {s : State} {id} (h : s.memOk = true) : (s.endSteps id).memOk = true := memOk_modWhere h

theorem memOk_preempt {s : State} {id} (h : s.memOk = true) : (s.preempt id).memOk = true := by
  unfold State.preempt
  extract_lets b s0 g img
  have hb : b.memOk = true := memOk_endSteps (memOk_ite (memOk_boundary h) h)
  have hs0 : s0.memOk = true := memOk_stopMembers (memOk_settleWords hb)
  split
  split
  · exact memOk_endRequest (memOk_knowing hb)
  next t e =>
    have ht : t.memOk = true := memOk_of_snd e (memOk_imgLen hs0)
    refine memOk_ite (memOk_endRequest (memOk_knowing hb)) ?_
    split
    · exact memOk_endRequest (memOk_knowing hb)
    next u e =>
      have hu : u.memOk = true := memOk_of_snd e (memOk_tryFill ht)
      refine memOk_endRequest (memOk_removeGang (memOk_of_images hu ?_))
      simp only [List.mem_append, List.mem_singleton]
      rintro i (hi | rfl) p hp
      · exact wf_images hu i hi p hp
      · simp only [List.mem_map] at hp
        obtain ⟨_, -, rfl⟩ := hp
        exact pad_wf hu _

theorem wf_padOfRecord {r held} : Memory.wf (padOfRecord r held).mem = true := Memory.wf_canon _

theorem memOk_placeObjects {s : State} {ctx m offs reach place l} (h : s.memOk = true) {r}
    (hr : s.placeObjects ctx m offs reach place l = some r) : r.1.memOk = true := by
  induction l generalizing s r with
  | nil =>
    obtain rfl := Option.some.inj hr
    exact h
  | cons j l ih =>
    unfold State.placeObjects at hr
    dsimp only at hr
    split at hr
    next e =>
      obtain ⟨x, hx, rfl⟩ := Option.map_eq_some_iff.mp hr
      exact (ih (memOk_roomFrom h e) hx :)
    · split at hr
      · obtain ⟨x, hx, rfl⟩ := Option.map_eq_some_iff.mp hr
        exact (ih h hx :)
      · exact absurd hr (by simp)

theorem memOk_planObjects {s : State} {ctx m offs reach place} (h : s.memOk = true) {r}
    (hr : s.planObjects ctx m offs reach place = some r) : r.1.memOk = true := by
  unfold State.planObjects at hr
  dsimp only at hr
  split at hr
  next e =>
    split at hr
    · obtain rfl := Option.some.inj hr
      exact memOk_placeObjects h e
    · exact memOk_placeObjects (memOk_collectPads h) hr
  · exact memOk_placeObjects (memOk_collectPads h) hr

theorem memOk_putObject {s : State} {ctx m off f home o} (h : s.memOk = true) :
    (s.putObject ctx m off f home o).memOk = true := by
  unfold State.putObject
  dsimp only
  split
  · exact memOk_setPad h (Memory.wf_fill (pad_wf h _) _ _ _)
  · split
    next t e => exact (memOk_of_ok e (keeps_asPlaced keeps_mergeBytes) h :)
    · exact memOk_memError (memOk_knowing h)

theorem memOk_applyRecords {s : State} {ctx m k k1} (h : s.memOk = true) : (s.applyRecords ctx m k k1).memOk = true := by
  induction k generalizing s k1 with
  | zero => exact h
  | succ _ ih => exact ih (memOk_applyMerge h)

theorem memOk_fillMembers {s : State} {id} (h : s.memOk = true) : (s.fillMembers id).memOk = true :=
  memOk_foldl h fun _ _ hs => memOk_onCore hs fun _ hs1 => memOk_modCur hs1

theorem memOk_remark {s : State} (h : s.memOk = true) : s.remark.memOk = true := memOk_frame h

theorem memOk_restorePortable {s t : State} {ctx m cores nom} (h : s.memOk = true)
    (ht : s.restorePortable ctx m cores nom = some t) : t.memOk = true := by
  obtain ⟨x, hx, rfl⟩ := Option.map_eq_some_iff.mp ht
  have hx := memOk_planObjects (memOk_frame (memOk_takePads (memOk_createCtx h))) hx
  refine memOk_remark (memOk_fillMembers (memOk_addCores (memOk_frame (memOk_applyRecords ?_))))
  refine memOk_foldl (memOk_foldl (memOk_foldl hx fun _ _ hs => ?_) fun _ _ hs => ?_) fun _ _ hs => ?_
  · exact memOk_setTidEntry hs
  · exact memOk_putObject hs
  · exact memOk_putObject hs

theorem memOk_reenter {s : State} {id lcid r held} (h : s.memOk = true) : (s.reenter id lcid r held).memOk = true :=
  memOk_onCore h fun _ hs => memOk_modCur (memOk_attempt hs keeps_enterWords)

theorem memOk_reissueHere {s : State} (h : s.memOk = true) : s.reissueHere.memOk = true :=
  memOk_ite h (memOk_pump (memOk_modCur h))

theorem memOk_restoreInPlace {s : State} {ctx m held} (h : s.memOk = true) : (s.restoreInPlace ctx m held).memOk = true := by
  have h1 : ∀ cores, ({ (s.createCtx ctx).takePads ctx cores with
      nextGang := s.nextGang + 1, images := s.images.filter (fun i => i != held) } : State).memOk = true := fun _ =>
    memOk_of_images (memOk_takePads (memOk_createCtx h)) fun i hi => wf_images h i (List.mem_of_mem_filter hi)
  unfold State.restoreInPlace
  refine memOk_foldl (memOk_foldl (memOk_remark (memOk_fillMembers (memOk_addCores (memOk_frame ?_)))) fun _ _ hs =>
      memOk_reenter hs)
    fun _ _ hs => memOk_ite (memOk_onCore hs fun _ hs => memOk_reissueHere hs) hs
  exact memOk_foldl (h1 _) fun _ _ hs => memOk_setPad hs wf_padOfRecord

theorem memOk_restoreNow {s : State} (h : s.memOk = true) : s.restoreNow.memOk = true := by
  unfold State.restoreNow
  dsimp only
  split
  next e => exact memOk_endRequest (memOk_of_snd e (memOk_imgLen h))
  next t e =>
    have ht : t.memOk = true := memOk_of_snd e (memOk_imgLen h)
    split
    next e => exact memOk_endRequest (memOk_of_snd e (memOk_trySnap ht))
    next u e =>
      have hu : u.memOk = true := memOk_of_snd e (memOk_trySnap ht)
      refine memOk_ite (memOk_endRequest hu) ?_
      split
      · exact memOk_endRequest hu
      refine memOk_ite ?_ ?_
      · split
        · exact memOk_endRequest hu
        · exact memOk_ite (memOk_endRequest (memOk_restoreInPlace hu)) h
      split
      · exact memOk_endRequest hu
      split
      · exact h
      split
      · exact memOk_endRequest hu
      next e => exact memOk_endRequest (memOk_restorePortable hu e)

theorem memOk_retryRestore {s : State} (h : s.memOk = true) : s.retryRestore.memOk = true := memOk_ite (memOk_restoreNow h) h

theorem memOk_releaseImage {s : State} (h : s.memOk = true) : s.releaseImage.memOk = true := by
  unfold State.releaseImage
  dsimp only
  refine memOk_ite (memOk_endRequest (memOk_imgLen h)) ?_
  split
  · exact memOk_endRequest h
  · refine memOk_endRequest (memOk_foldl (memOk_dropPads ?_) fun _ _ hs => memOk_completePacket hs)
    exact memOk_of_images h fun i hi => wf_images h i (List.mem_of_mem_filter hi)

theorem memOk_gangRequest {s : State} {f : Gang → State → State} {q tag} (h : s.memOk = true)
    (hf : ∀ x y, y.memOk = true → (f x y).memOk = true) : (s.gangRequest q tag f).memOk = true := by
  unfold State.gangRequest
  split
  · exact memOk_endRequest h
  · exact memOk_ite (memOk_endRequest h) (hf _ _ h)

theorem memOk_satRequest {s : State} {who q tag op} (h : s.memOk = true) : (s.satRequest who q tag op).memOk = true := by
  refine memOk_ite h (memOk_ite (memOk_frame h) ?_)
  refine memOk_ite ?_ ?_
  · exact memOk_gangRequest (memOk_frame h) fun _ _ hs => memOk_setGang hs
  · refine memOk_ite ?_ ?_
    · exact memOk_gangRequest (memOk_frame h) fun _ _ hs => memOk_preempt hs
    · refine memOk_ite (memOk_restoreNow (memOk_frame h)) (memOk_ite (memOk_releaseImage (memOk_frame h)) ?_)
      exact memOk_endRequest (memOk_frame h)

/-! ### The links of the package -/

theorem memOk_onLink {s : State} {link f} (h : s.memOk = true) : (s.onLink link f).memOk = true := by
  unfold State.onLink
  split
  · exact memOk_frame h
  · exact h

theorem safe_execLinkMessage {s : State} {link kind ctx size} (h : s.memOk = true) :
    Safe (execLinkMessage link kind ctx size s) := by
  unfold execLinkMessage
  refine safe_runStep (fun _ hs => ?_) h
  split
  · exact memOk_ite hs (memOk_onLink hs)
  · exact hs

theorem memOk_lateResponse {s : State} (h : s.memOk = true) : s.lateResponse.memOk = true := memOk_ite h (memOk_frame h)

theorem memOk_portDown {s : State} {port} (h : s.memOk = true) : (s.portDown port).memOk = true := by
  unfold State.portDown
  split
  · exact memOk_ite (memOk_errorRecordAt (memOk_setLink (memOk_useLink h))) h
  · exact h

theorem memOk_startMove {s : State} {ctx va frame} (h : s.memOk = true) : (s.startMove ctx va frame).memOk = true :=
  memOk_ite (memOk_frame h) h

theorem memOk_moveFrame {s : State} {old new} (h : s.memOk = true) : (s.moveFrame old new).memOk = true :=
  memOk_of_mem h (Memory.wf_fill (wf_mem h) _ _ _)

theorem memOk_finishMove {s : State} (h : s.memOk = true) : s.finishMove.memOk = true := by
  unfold State.finishMove
  split
  · exact h
  · dsimp only
    split
    · exact memOk_flushTrace (memOk_frame h)
    · refine memOk_ite (memOk_flushTrace (memOk_frame h)) ?_
      refine memOk_ite ?_ ?_
      · exact memOk_flushTrace (memOk_errorRecordAt (memOk_frame (memOk_frame h)))
      · exact memOk_flushTrace (memOk_traceAt (memOk_raiseIrq (memOk_frame (memOk_ownTableWrite (memOk_moveFrame
            (memOk_takeFrame (memOk_frame h)))))))

/-! ### Observation, errors and frozen parts -/

theorem memOk_writeTrctl {s : State} {who v} (h : s.memOk = true) : (s.writeTrctl who v).memOk = true :=
  memOk_ite (memOk_ite (memOk_frame h) (memOk_frame (memOk_ite (memOk_writeTraceRecs (memOk_frame h)) h))) h

theorem memOk_writeTrace {s : State} {who f} (h : s.memOk = true) : (s.writeTrace who f).memOk = true :=
  memOk_ite (memOk_frame h) h

theorem memOk_writeTrrd {s' : State} {who v} (hs' : s'.memOk = true) : (s'.writeTrrd who v).memOk = true := by
  refine memOk_ite ?_ ?_
  · exact memOk_ite (memOk_putGap (memOk_frame (memOk_flushTick hs'))) (memOk_frame (memOk_flushTick hs'))
  · exact memOk_flushTick hs'

theorem memOk_writeDbgctl {s : State} {who q tag mode} (h : s.memOk = true) : (s.writeDbgctl who q tag mode).memOk = true :=
  memOk_ite (memOk_frame h) h

theorem memOk_releaseBreak {s : State} {who v} (h : s.memOk = true) : (s.releaseBreak who v).memOk = true :=
  memOk_ite h (memOk_ageQueue (memOk_setQueue (memOk_setBk h)))

theorem memOk_testReadout {s : State} (h : s.memOk = true) : s.testReadout.memOk = true := memOk_ite (memOk_frame h) h

theorem memOk_softError {s : State} {unit synd} (h : s.memOk = true) : (s.softError unit synd).memOk = true :=
  memOk_ite h (memOk_modCur (memOk_errorRecord (memOk_frame (memOk_modCur h))))

theorem memOk_retireLine {s : State} {pa} (h : s.memOk = true) : (s.retireLine pa).memOk = true :=
  memOk_ite h (memOk_ite (memOk_errorRecordAt (memOk_frame h)) (memOk_errorRecordAt (memOk_frame h)))

theorem memOk_foundBad {s : State} {src a} (h : s.memOk = true) : (s.foundBad src a).memOk = true :=
  memOk_errorRecordAt (memOk_frame h)

theorem memOk_badMemory {s : State} {pa} (h : s.memOk = true) : (s.badMemory pa).memOk = true :=
  memOk_ite (memOk_foundBad (memOk_frame h)) h

theorem memOk_badPad {s : State} {a} (h : s.memOk = true) : (s.badPad a).memOk = true :=
  memOk_ite (memOk_foundBad (memOk_frame h)) h

theorem memOk_refill {s : State} {start} (h : s.memOk = true) : (s.refill start).memOk = true := by
  unfold State.refill
  split
  · exact h
  · split
    next t e => exact memOk_frame (memOk_of_ok e keeps_fetchWords h :)
    · exact memOk_frame (memOk_knowing h)

theorem memOk_scrub {s : State} {key} (h : s.memOk = true) : (s.scrub key).memOk = true := by
  refine memOk_ite (memOk_badMemory h) (memOk_ite (memOk_ite (memOk_corrected h) h) (memOk_ite (memOk_badPad h) ?_))
  refine memOk_ite (memOk_ite (memOk_corrected h) h) (memOk_ite (memOk_refill h) (memOk_ite (memOk_frame h) ?_))
  exact memOk_ite (memOk_corrected h) h

/-! ### Code objects and the loader -/

theorem memOk_imagePage {s : State} {ctx va code} (h : s.memOk = true) {r} (hr : s.imagePage ctx va code = some r) :
    r.1.memOk = true := by
  unfold State.imagePage at hr
  dsimp only at hr
  split at hr
  next e =>
    obtain ⟨-, hr⟩ := Option.ite_none_right_eq_some.mp hr
    obtain rfl := Option.some.inj hr
    exact memOk_setAD (memOk_takeFrame (memOk_of_snd e (memOk_walkFor h)))
  · exact absurd hr (by simp)

theorem memOk_imagePages {s : State} {ctx base codePages k k1} (h : s.memOk = true) :
    (s.imagePages ctx base codePages k k1).1.memOk = true := by
  induction k1 generalizing s k with
  | zero => exact h
  | succ _ ih =>
    unfold State.imagePages
    split
    · exact h
    next t _ e =>
      split
      · exact (memOk_imagePage h e :)
      · exact ih (memOk_imagePage h e :)

theorem memOk_fillFrame {s : State} {f cmp bytes} (h : s.memOk = true) : (s.fillFrame f cmp bytes).memOk = true :=
  memOk_ite (memOk_retag (memOk_of_mem h (Memory.wf_fill (wf_mem h) _ _ _))) (memOk_of_mem h (Memory.wf_fill (wf_mem h) _ _ _))

theorem memOk_fillPages {s : State} {ctx img k l} (h : s.memOk = true) : (s.fillPages ctx img k l).1.memOk = true := by
  induction l generalizing s k with
  | nil => exact h
  | cons _ _ ih =>
    unfold State.fillPages
    split
    next t e => exact ih (memOk_fillFrame (memOk_dirtied h e :))
    · exact ih h

theorem memOk_callRequest {s : State} (h : s.memOk = true) : s.callRequest.memOk = true := by
  unfold State.callRequest
  split
  · exact h
  · exact memOk_frame h

theorem memOk_answer {s : State} {status detail} (h : s.memOk = true) : (s.answer status detail).memOk = true :=
  memOk_raiseIrq (memOk_callRequest (memOk_frame (memOk_physStore (memOk_physStore h))))

theorem memOk_finishLoad {s : State} {j} (h : s.memOk = true) : (s.finishLoad j).memOk = true :=
  memOk_answer (memOk_physStore (memOk_frame (memOk_fillPages (memOk_createCtx h))))

theorem memOk_goOnLoading {s : State} (h : s.memOk = true) : s.goOnLoading.memOk = true := by
  unfold State.goOnLoading
  split
  · exact memOk_ite (memOk_finishLoad h) h
  · exact h

theorem memOk_load {s : State} (h : s.memOk = true) : s.load.memOk = true := by
  unfold State.load
  refine memOk_ite h ?_
  dsimp only
  split
  · exact memOk_answer h
  · split
    next t _ e => exact memOk_answer (memOk_of_fst e (memOk_imagePages h) :)
    next t _ e =>
      have ht : t.memOk = true := memOk_of_fst e (memOk_imagePages h)
      split
      · exact memOk_answer ht
      · exact memOk_frame ht

theorem memOk_unload {s : State} (h : s.memOk = true) : s.unload.memOk = true := by
  unfold State.unload
  refine memOk_ite h ?_
  refine memOk_ite (memOk_answer h) ?_
  refine memOk_ite (memOk_answer h) ?_
  split
  · exact memOk_answer h
  · exact memOk_answer (memOk_frame (memOk_foldl (memOk_frame h) fun _ _ hs => memOk_fillFrame hs))

theorem memOk_submit {s : State} (h : s.memOk = true) : s.submit.memOk = true :=
  memOk_ite (memOk_callRequest (memOk_frame h)) (memOk_frame h)

/-! ### The root of trust and the management block -/

theorem memOk_setMgmt {s : State} {d f} (h : s.memOk = true) : (s.setMgmt d f).memOk = true :=
  memOk_ite (memOk_frame h) (memOk_frame h)

theorem memOk_enrolKey {s : State} {who a} (h : s.memOk = true) : (s.enrolKey who a).memOk = true := by
  unfold State.enrolKey
  refine memOk_ite h ?_
  dsimp only
  split
  · exact memOk_setMgmt h
  · exact memOk_ite (memOk_frame (memOk_setMgmt h)) (memOk_setMgmt h)

theorem memOk_updateFirmware {s : State} {who a len} (h : s.memOk = true) : (s.updateFirmware who a len).memOk = true :=
  memOk_ite (memOk_frame h) h

theorem memOk_goOnWriting {s : State} (h : s.memOk = true) : s.goOnWriting.memOk = true := by
  unfold State.goOnWriting
  split
  · exact memOk_ite (memOk_frame h) h
  · exact h

theorem memOk_setFwstat {s : State} {v} (h : s.memOk = true) : (s.setFwstat v).memOk = true := memOk_frame h

theorem memOk_fwgo {s : State} {len} (h : s.memOk = true) : (s.fwgo len).memOk = true :=
  memOk_ite (memOk_setFwstat (memOk_frame h)) h

theorem memOk_bringUp {s : State} (h : s.memOk = true) : s.bringUp.memOk = true := memOk_frame h

theorem memOk_endVerify {s : State} (h : s.memOk = true) : s.endVerify.memOk = true := by
  unfold State.endVerify
  split
  · exact h
  · exact memOk_ite (memOk_bringUp (memOk_setFwstat (memOk_frame h))) (memOk_setFwstat (memOk_frame h))

theorem memOk_waitAgain {s : State} (h : s.memOk = true) : s.waitAgain.memOk = true := memOk_ite (memOk_setFwstat h) h

theorem memOk_unsealAll {s : State} (h : s.memOk = true) : s.unsealAll.memOk = true :=
  memOk_frame (memOk_foldl h fun _ _ hs => memOk_fillFrame hs)

theorem memOk_disown {s : State} (h : s.memOk = true) : s.disown.memOk = true :=
  memOk_frame (memOk_foldl h fun _ _ hs => memOk_zeroFrame hs)

theorem memOk_afterReset {s : State} (h : s.memOk = true) : s.afterReset.memOk = true :=
  memOk_iff.mpr ⟨(wf_mem (memOk_disown (memOk_unsealAll h)) :), (wf_hostMem h :), by simp [State.afterReset, State.reset],
    by simp [State.afterReset, State.reset]⟩

theorem memOk_doReset {s : State} (h : s.memOk = true) : s.doReset.memOk = true :=
  memOk_ite (memOk_bringUp (memOk_afterReset h)) (memOk_setFwstat (memOk_frame (memOk_afterReset h)))

theorem memOk_reply {s : State} {r} (h : s.memOk = true) : (s.reply r).memOk = true := memOk_frame h

theorem safe_execGetMeasurements {s : State} {i} (h : s.memOk = true) : Safe (execGetMeasurements i s) := by
  unfold execGetMeasurements
  refine safe_runStep (fun _ hs => ?_) h
  split
  · exact memOk_reply hs
  · exact hs

theorem memOk_setMg {s : State} {ok f} (h : s.memOk = true) : (s.setMg ok f).memOk = true := memOk_ite (memOk_frame h) h

theorem memOk_writeMgmt {s : State} {who off v} (h : s.memOk = true) : (s.writeMgmt who off v).memOk = true := by
  refine memOk_ite (memOk_ite (memOk_submit h) h) (memOk_ite (memOk_abortTask h) (memOk_ite (memOk_satRequest h) ?_))
  refine memOk_ite (memOk_setMg h) (memOk_ite (memOk_setMg h) (memOk_ite (memOk_writeDbgctl h) (memOk_ite (memOk_setMg h) ?_)))
  refine memOk_ite (memOk_releaseBreak h) (memOk_ite (memOk_writeTrace h) (memOk_ite (memOk_writeTrace h) ?_))
  exact memOk_ite (memOk_writeTrctl h) (memOk_ite (memOk_writeTrrd h) (memOk_setMg h))

theorem memOk_writeBar0 {s : State} {who d off v} (h : s.memOk = true) : (s.writeBar0 who d off v).memOk = true := by
  refine memOk_ite (memOk_ite (memOk_frame h) h) (memOk_ite (memOk_ite (memOk_enrolKey h) h) ?_)
  exact memOk_ite (memOk_ite (memOk_fwgo h) h) (memOk_ite (memOk_writeMgmt h) (memOk_setMgmt h))

theorem memOk_writeQblk {s : State} {who off v} (h : s.memOk = true) : (s.writeQblk who off v).memOk = true :=
  memOk_ite h (memOk_writeQueue h)

theorem memOk_writeRecovery {s : State} {who d off v} (h : s.memOk = true) : (s.writeRecovery who d off v).memOk = true :=
  memOk_ite h (memOk_ite (memOk_fwgo h) (memOk_ite (memOk_frame h) h))

theorem memOk_writeBar {s : State} {who reg v} (h : s.memOk = true) : (s.writeBar who reg v).memOk = true :=
  memOk_ite (memOk_ite h (memOk_writeRecovery h)) (memOk_ite (memOk_ite (memOk_writeQblk h) h) (memOk_ite (memOk_writeBar0 h) h))

/-! ### Logical cores and their next point -/

theorem memOk_switchTo {s : State} {c} (h : s.memOk = true) : (s.switchTo c).memOk = true :=
  memOk_ite (memOk_takeLate (memOk_quiesce h)) (memOk_modCur (memOk_bring (memOk_modCur (memOk_quiesce h))))

theorem memOk_switchCore {s : State} (h : s.memOk = true) : s.switchCore.memOk = true := by
  unfold State.switchCore
  refine memOk_ite ?_ h
  split
  · exact memOk_switchTo h
  · exact h

theorem memOk_takeOverrun {s : State} (h : s.memOk = true) : s.takeOverrun.memOk = true := by
  unfold State.takeOverrun
  dsimp only
  split
  · exact memOk_takeLate h
  · exact memOk_takeTrap (memOk_modCur h)

theorem memOk_takeIrq {s : State} {q} (h : s.memOk = true) : (s.takeIrq q).memOk = true := by
  unfold State.takeIrq
  split
  · exact memOk_takeLate h
  · exact memOk_takeTrap (memOk_frame h)

theorem memOk_takeLost {s t : State} (h : s.memOk = true) (ht : s.takeLost = some t) : t.memOk = true := by
  obtain ⟨x, -, rfl⟩ := Option.map_eq_some_iff.mp ht
  split
  · exact memOk_takeLate h
  · exact memOk_takeTrap (memOk_modCur h)

theorem memOk_takeDebug {s : State} (h : s.memOk = true) : s.takeDebug.memOk = true := by
  unfold State.takeDebug
  split
  · exact memOk_takeLate h
  · exact memOk_takeTrap (memOk_modCur h)

theorem memOk_pointTrap {s t : State} (h : s.memOk = true) (ht : s.pointTrap = some t) : t.memOk = true := by
  unfold State.pointTrap at ht
  split_ifs at ht
  · exact Option.some.inj ht ▸ memOk_takeLate h
  · exact Option.some.inj ht ▸ memOk_passTo h
  · exact Option.some.inj ht ▸ memOk_takeDebug h
  · exact Option.some.inj ht ▸ memOk_takeOverrun h
  · exact memOk_takeLost h ht
  · rcases Option.or_eq_some_iff.mp ht with ht | ⟨-, ht⟩
    · obtain ⟨q, -, rfl⟩ := Option.map_eq_some_iff.mp ht
      exact memOk_takeIrq h
    · exact memOk_takeLost h ht

theorem memOk_engines {s : State} (h : s.memOk = true) : s.engines.memOk = true := memOk_ite (memOk_finishTags h) h

theorem memOk_goOn {s : State} {pcid} (h : s.memOk = true) : (s.goOn pcid).memOk = true :=
  memOk_modCur (memOk_engines (memOk_bring h))

theorem keeps_fetchIn : Keeps fetchIn := .get fun _ _ => .guard .trapWith keeps_enterCode

theorem memOk_fetchTrap {s : State} {t : State} {e} (h : s.memOk = true) (ht : t.memOk = true) : (s.fetchTrap t e).memOk = true :=
  memOk_ite (memOk_stall h) (memOk_takeTrap (memOk_ite (memOk_modCur (memOk_undone h ht)) (memOk_undone h ht)))

theorem memOk_fetch {s : State} (h : s.memOk = true) : s.fetch.1.memOk = true := by
  unfold State.fetch
  split
  next t e => exact memOk_fetchTrap h (memOk_of_error e keeps_fetchIn h :)
  next t e =>
    have ht : t.memOk = true := memOk_of_ok e keeps_fetchIn h
    dsimp only
    split
    · exact ht
    · exact memOk_trapFrom ht ht

/-! ### Steps that belong to no word -/

theorem memOk_perform {α : Type} {s : State} {m : Ex α} (h : s.memOk = true) (hm : Keeps m) : (s.perform m).memOk = true := by
  unfold State.perform
  split
  next t e => exact (memOk_of_ok e hm h :)
  next t e => exact memOk_trapFrom h (memOk_of_error e hm h :)

theorem memOk_issueNext {s : State} (h : s.memOk = true) : s.issueNext.memOk = true := by
  unfold State.issueNext
  refine memOk_ite ?_ h
  split
  · exact h
  · exact memOk_attempt (memOk_waitFor h) keeps_reissue

theorem safe_execTakeTrap {s : State} {code late int t1 t2} (h : s.memOk = true) : Safe (execTakeTrap code late int t1 t2 s) := by
  unfold execTakeTrap
  refine safe_runStep (fun _ hs => ?_) h
  refine memOk_ite hs ?_
  refine memOk_ite ?_ (memOk_ite (memOk_ite hs (memOk_ite (memOk_takeTrap hs) (memOk_ite (memOk_takeLate (memOk_raiseIrq hs))
      (memOk_raiseIrq hs)))) (memOk_takeTrap hs))
  split
  · exact memOk_enterTrap (memOk_quiesce hs)
  · exact hs

theorem memOk_installMember {s : State} {lcid} (h : s.memOk = true) : (s.installMember lcid).memOk = true := by
  unfold State.installMember
  dsimp only
  split
  · exact memOk_modWhere (memOk_takePads h)
  · exact h

theorem memOk_onCopy {s : State} {f : State → BitVec 6 → State} {p} (h : s.memOk = true)
    (hf : ∀ x y, x.memOk = true → (f x y).memOk = true) : (s.onCopy p f).memOk = true := by
  unfold State.onCopy
  refine memOk_onCore h fun _ hs => ?_
  split
  · exact hf _ _ hs
  · exact hs

theorem memOk_takeCopy {s : State} (h : s.memOk = true) : s.takeCopy.memOk = true := by
  unfold State.takeCopy
  refine memOk_onCore h fun _ hs => ?_
  split
  · exact memOk_runCopy hs
  · exact hs

theorem safe_execStreamReadAhead {s : State} (h : s.memOk = true) : Safe (execStreamReadAhead s) := by
  unfold execStreamReadAhead
  refine safe_runStep (fun _ hs => ?_) h
  split
  · exact memOk_readAhead hs
  · exact hs

theorem safe_execPrefetchCopyIn {s : State} {a} (h : s.memOk = true) : Safe (execPrefetchCopyIn a s) := by
  unfold execPrefetchCopyIn
  refine safe_runStep (fun _ hs => ?_) h
  split
  · exact memOk_attempt hs keeps_prefetchIn
  · exact hs

theorem safe_execMergeApply {s : State} (h : s.memOk = true) : Safe (execMergeApply s) := by
  unfold execMergeApply
  refine safe_runStep (fun _ hs => ?_) h
  split
  · exact memOk_applyThis hs
  · exact hs

theorem safe_execReleaseNotice {s : State} (h : s.memOk = true) : Safe (execReleaseNotice s) := by
  unfold execReleaseNotice
  refine safe_runStep (fun _ hs => ?_) h
  split
  · exact memOk_applyThis hs
  · exact hs

/-! ### Scalar operations -/

theorem keeps_putX {d f} : Keeps (putX d f) := .bind keeps_cur fun _ => .bind keeps_wrX fun _ => .pure

theorem safe_aluRR {s : State} {i lat f d a b} (h : s.memOk = true) : Safe (aluRR i lat f d a b s) := safe_runWord keeps_putX h

theorem safe_aluR {s : State} {i f d a} (h : s.memOk = true) : Safe (aluR i f d a s) := safe_runWord keeps_putX h

theorem keeps_divider : Keeps divider := keeps_modCur

theorem safe_divRR {s : State} {i f d a b} (h : s.memOk = true) : Safe (divRR i f d a b s) :=
  safe_runWord (.bind keeps_divider fun _ => keeps_putX) h

theorem safe_aluI {s : State} {i f d a imm} (h : s.memOk = true) : Safe (aluI i f d a imm s) := safe_runWord keeps_putX h

theorem safe_aluS {s : State} {i f d a} (h : s.memOk = true) : Safe (aluS i f d a s) := safe_runWord keeps_putX h

/-! ### Every instruction and event -/

theorem safe_exec {s : State} {i} (h : s.memOk = true) : Safe (exec i s) := by
  unfold exec
  cases i <;> dsimp only
  case add | sub | mul | mulh | mulhz | and | or | xor | andn | shl | shr | sar | rol | ror | slt | sltz | min | max | minz |
      maxz => exact safe_aluRR h
  case div | divz | rem | remz => exact safe_divRR h
  case cmov | lup | aupc => exact safe_runWord keeps_putX h
  case clz | ctz | popc | brev | bswap => exact safe_aluR h
  case addi | andi | ori | xori | slti | sltzi => exact safe_aluI h
  case shli | shri | sari | ext | ins => exact safe_aluS h
  case bEq | bNe | bLt | bGe | bLtz | bGez => exact safe_branchIf h
  case j => exact safe_execJ h
  case call => exact safe_execCall h
  case jr => exact safe_execJr h
  case callr => exact safe_execCallr h
  case rep => exact safe_execRep h
  case retire => exact safe_execRetire h
  case ld => exact safe_execLd h
  case st => exact safe_execSt h
  case ldp => exact safe_execLdp h
  case stp => exact safe_execStp h
  case pmov => exact safe_runWord (.bind keeps_rdP fun _ => .bind keeps_wrP fun _ => .pure) h
  case padj => exact safe_execPadj h
  case plen | ptox => exact safe_runWord (.bind keeps_rdP fun _ => .bind keeps_wrX fun _ => .pure) h
  case pslice => exact safe_execPslice h
  case pfrom => exact safe_runWord (.bind keeps_rdX fun _ => .bind keeps_lenOf fun _ => .bind keeps_wrP fun _ => .pure) h
  case alloc | allocr => exact safe_allocInstr h
  case otouch => exact safe_runWord (.bind keeps_touch fun _ => .pure) h
  case oacq => exact safe_execOacq h
  case orel => exact safe_execOrel h
  case amo | cas => exact safe_atomic h
  case vamo => exact safe_copWord rfl (.bind keeps_cur fun _ => .bind keeps_canonical fun _ => .pure) h
  case fence => exact safe_runWord (.bind keeps_raiseAck fun _ => .pure) h
  case xfence => exact safe_execXfence h
  case setvl => exact safe_runWord (.bind keeps_rdX fun _ => .bind keeps_modCur fun _ => .bind keeps_wrX fun _ => .pure) h
  case vadd | vsub | vmul | vmulh | vmulhz | vfma | vfms | vfnma | vfnms | vfdiv | vfsqrt | vmin | vmax | vminz | vmaxz | vfmin |
      vfmax | vand | vor | vxor | vandn | vshl | vshr | vsar | vcmpEq | vcmpNe | vcmpLt | vcmpLe | vfcmpEq | vfcmpLt | vfcmpLe |
      vfcmpUn | vsel | vcvt | vcvtSat | vquant | vredAdd | vredMin | vredMax | vredOr | vscanAdd | vscanMin | vscanMax |
      vscanOr | vperm | viota | vcompress | vexpand | vpopc | vfirst | vmv | vmvStream | mlogAnd | mlogOr | mlogXor | mlogAndn |
      mma | tclaim | tfree | tzero | azero | adrain | afill | amode | again | againPlain | ascan | ascanK | ascanG | aapply |
      kload | kstore | kcomb | kzero | sclose => exact safe_copWord rfl keeps_noCapture h
  case vslideUp | vslideDn | vbcast | vext | vins | vtopk | vxacc | vxrnd | tload | tstore | aload | astore | sbind =>
    exact safe_copWord rfl keeps_captureX h
  case vld | vlds | vst | vgath | vscat => exact safe_copWord rfl keeps_vecPrep h
  case tidld | tidst => exact safe_copWord rfl keeps_tidPrep h
  case xfer | xgath => exact safe_transfer h
  case xprefTr => exact safe_execXprefTr h
  case xprefMg => exact safe_execXprefMg h
  case xprefTq => exact safe_execXprefTq h
  case xwaitAll => exact safe_execXwaitAll h
  case xwaitAny => exact safe_execXwaitAny h
  case xfind => exact safe_execXfind h
  case send => exact safe_execSend h
  case sendv => exact safe_copWord rfl (.bind keeps_rdX fun _ => .bind keeps_sendChecks fun _ => .pure) h
  case recv => exact safe_execRecv h
  case recvV => exact safe_execRecvV h
  case qclr => exact safe_execQclr h
  case xphase => exact safe_runWord (.bind keeps_noTask fun _ => .bind keeps_modCur fun _ => .pure) h
  case sstep => exact safe_execSstep h
  case arrive | arriveRel => exact safe_arriveInstr h
  case wait | waitAcq => exact safe_waitInstr h
  case bvote => exact safe_execBvote h
  case spawn => exact safe_execSpawn h
  case take => exact safe_execTake h
  case join => exact safe_execJoin h
  case qpost => exact safe_execQpost h
  case rds => exact safe_execRds h
  case wrs => exact safe_execWrs h
  case trap | brk => exact safe_runWord .trapWith h
  case eret => exact safe_runWord keeps_eretBody h
  case wfi => exact safe_runWord (.get fun _ _ => .ite .pure .pure) h
  case sfence => exact safe_execSfence h
  case cdrain => exact safe_draining (fun _ hs => safe_runWord (.bind keeps_drain fun _ => .pure) hs) h
  case cxsave => exact safe_execCxsave h
  case cxload => exact safe_execCxload h
  case immx => exact safe_execImmx h
  case hint => exact safe_execHint h
  case coprocessorIssue => exact safe_runStep (fun _ hs => memOk_issueNext hs) h
  case destinationWrite => exact safe_runStep (fun _ hs => memOk_modCur hs) h
  case takeTrap => exact safe_execTakeTrap h
  case install => exact safe_runStep (fun _ hs => memOk_installMember hs) h
  case logicalCoreSwitch => exact safe_runStep (fun _ hs => memOk_switchCore hs) h
  case depositArrive => exact safe_runStep (fun _ hs => memOk_landOne hs) h
  case superstepBoundary => exact safe_execSuperstepBoundary h
  case superstepOverrun => exact safe_runStep (fun _ hs => memOk_ite (memOk_takeOverrun hs) hs) h
  case tileRowLand => exact safe_runStep (fun _ hs => memOk_landRow hs) h
  case engineTakeCopy => exact safe_runStep (fun _ hs => memOk_takeCopy hs) h
  case copyComplete | copyFaultStop => exact safe_runStep (fun _ hs => memOk_onCopy hs fun _ _ hs1 => memOk_endCopy hs1) h
  case streamReadAhead => exact safe_execStreamReadAhead h
  case touchComplete => exact safe_runStep (fun _ hs => memOk_perform hs keeps_touch) h
  case demandCopyIn => exact safe_runStep (fun _ hs => memOk_perform hs keeps_fetchIn) h
  case prefetchCopyIn => exact safe_execPrefetchCopyIn h
  case collect => exact safe_runStep (fun _ hs => memOk_ite hs (memOk_collectBack hs)) h
  case mergeApply => exact safe_execMergeApply h
  case releaseNotice => exact safe_execReleaseNotice h
  case pageWalk => exact safe_runStep (fun _ hs => memOk_perform hs keeps_translate) h
  case migrationComplete => exact safe_runStep (fun _ hs => memOk_finishMove hs) h
  case counterHalve | crossDieTimeout | clockStretch | freezeInput => exact safe_runStep (fun _ hs => memOk_frame hs) h
  case lateResponse => exact safe_runStep (fun _ hs => memOk_lateResponse hs) h
  case linkMessage => exact safe_execLinkMessage h
  case permitReturn => exact safe_runStep (fun _ hs => memOk_onLink hs) h
  case linkDown => exact safe_runStep (fun _ hs => memOk_portDown hs) h
  case softError => exact safe_runStep (fun _ hs => memOk_softError hs) h
  case lineRetirement => exact safe_runStep (fun _ hs => memOk_retireLine hs) h
  case nop | launch | signal | shrink => exact safe_runStep (fun _ hs => memOk_command hs) h
  case packetComplete => exact safe_execPacketComplete h
  case dependenceRecheck => exact safe_runStep (fun _ hs => memOk_ageQueues hs) h
  case priorityAging => exact safe_execPriorityAging h
  case launchSeniority => exact safe_execLaunchSeniority h
  case doorbell => exact safe_runStep (fun _ hs => memOk_ring hs) h
  case queueSkip => exact safe_runStep (fun _ hs => memOk_skipQueue hs) h
  case queueReset => exact safe_runStep (fun _ hs => memOk_resetQueue hs) h
  case queueEnable => exact safe_runStep (fun _ hs => memOk_enableQueue hs) h
  case queueDisable => exact safe_runStep (fun _ hs => memOk_disableQueue hs) h
  case managementRegisterWrite => exact safe_runStep (fun _ hs => memOk_writeBar hs) h
  case tabort => exact safe_runStep (fun _ hs => memOk_abortTask hs) h
  case endTask => exact safe_runStep (fun _ hs => memOk_endMember hs) h
  case satchelFreeze | satchelCheckpoint | urgentPreemption | satchelRestore | releaseInPlaceImage =>
    exact safe_runStep (fun _ hs => memOk_satRequest hs) h
  case debugOff | debugAtSsm | debugEveryBoundary | debugNextBoundary => exact safe_runStep (fun _ hs => memOk_writeDbgctl hs) h
  case bkrel => exact safe_runStep (fun _ hs => memOk_releaseBreak hs) h
  case traceEnable | traceDisable => exact safe_runStep (fun _ hs => memOk_writeTrctl hs) h
  case traceHoldExpiry => exact safe_runStep (fun _ hs => memOk_expireHold hs) h
  case freeze => exact safe_runStep (fun _ hs => memOk_ite (memOk_frame hs) hs) h
  case testAccessReadout => exact safe_runStep (fun _ hs => memOk_testReadout hs) h
  case reset => exact safe_runStep (fun _ hs => memOk_doReset hs) h
  case fwgo => exact safe_runStep (fun _ hs => memOk_fwgo hs) h
  case recoveryImageVerified => exact safe_runStep (fun _ hs => memOk_endVerify hs) h
  case load => exact safe_runStep (fun _ hs => memOk_load hs) h
  case unload => exact safe_runStep (fun _ hs => memOk_unload hs) h
  case keyenr => exact safe_runStep (fun _ hs => memOk_enrolKey hs) h
  case getVersion | getCapabilities | negotiateAlgorithms | getDigests | getCertificate | challenge =>
    exact safe_runStep (fun _ hs => memOk_reply hs) h
  case getMeasurements => exact safe_execGetMeasurements h
  case pageMoveStart => exact safe_runStep (fun _ hs => memOk_startMove hs) h
  case firmwareUpdate => exact safe_runStep (fun _ hs => memOk_updateFirmware hs) h
  case scrubbing => exact safe_runStep (fun _ hs => memOk_scrub hs) h

/-! ### One step -/

theorem safe_runHere {s : State} (h : s.memOk = true) : Safe s.runHere := by
  unfold State.runHere
  split
  next t _ e => exact safe_exec (memOk_of_fst e (memOk_fetch (memOk_modCur h)) :)
  next t e => exact .next (memOk_of_fst e (memOk_fetch (memOk_modCur h)) :)

theorem memOk_idle {s : State} (h : s.memOk = true) : s.idle.memOk = true := by
  unfold State.idle
  split
  · exact memOk_goOn h
  · exact memOk_frame h

theorem memOk_elsewhere {s : State} (h : s.memOk = true) : s.elsewhere.memOk = true := by
  unfold State.elsewhere
  split
  · exact memOk_switchTo h
  · exact memOk_idle h

theorem safe_pointHere {s : State} (h : s.memOk = true) : Safe s.pointHere := by
  unfold State.pointHere
  split
  next t e => exact .next (memOk_pointTrap h e :)
  · refine .ite (.next (memOk_elsewhere h)) ?_
    refine .ite (.next (memOk_idle h)) ?_
    refine .ite ?_ (safe_runHere h)
    split
    · exact .next (memOk_goOn h)
    · exact safe_runHere h

theorem safe_point {s : State} (h : s.memOk = true) : Safe s.point := safe_pointHere (memOk_pump (memOk_engines h))

theorem safe_turn {s : State} (h : s.memOk = true) : Safe s.turn := by
  unfold State.turn
  split
  · exact safe_point (memOk_goOn (memOk_frame h))
  · exact safe_point h

theorem safe_auto {s : State} (h : s.memOk = true) : Safe s.auto := by
  unfold State.auto
  split
  · exact .next (memOk_boundary h)
  · refine .ite (.next (memOk_finishGangs h)) ?_
    split
    next t e => exact .next (memOk_commandNext h e :)
    · exact safe_turn (memOk_deposits (memOk_retryRestore h))

theorem memOk_settled {s : State} (h : s.memOk = true) : s.settled.memOk = true :=
  memOk_flushTick (memOk_ageHeads (memOk_syncPins (memOk_goOnWriting (memOk_goOnLoading h))))

theorem safe_settle {o} (h : Safe o) : Safe (settle o) := by
  cases o with
  | next s => exact .next (memOk_settled (h s rfl))
  | fault _ => rintro _ ⟨⟩
  | refused _ => rintro _ ⟨⟩

theorem Safe.fault {f} : Safe (.fault f) := by
  rintro _ ⟨⟩

theorem safe_step {s : State} (h : s.memOk = true) : Safe (step s) := by
  unfold step
  split
  · split
    · exact .fault
    · exact .ite (safe_exec (memOk_frame h)) (.next (memOk_frame h))
  split
  · refine .ite (.next (memOk_waitAgain h)) ?_
    split
    · exact .next (memOk_frame h)
    · exact .ite (safe_exec (memOk_frame h)) (.next (memOk_frame h))
  · split
    · exact safe_settle (safe_auto h)
    · exact safe_settle (safe_exec (memOk_frame h))

end Sys2Proof.Machine

/-- Settles O5: every operation of the model keeps the memories canonical (`Keeps`), so every step does. -/
theorem stepKeepsMemories : Obligations.StepKeepsMemories := by
  unfold Obligations.StepKeepsMemories
  intro s t h e
  exact Sys2Proof.Machine.safe_step h t e

namespace Sys2Proof.Machine

/-! Scheduling: switches, the install sequence, deposits, boundaries and overruns (R17, R43, R249, R250, R263, R265), and what a trap
entry leaves (R331). The statement O54 compares the trap of an overrun with the context's entry as it reads before the drain of the
coprocessor (R328), while the model reads that entry after the drain. Where the die holds an old value of the entry's words, `Config.usesOld`
chooses at each time between old and new (R296, log entry 13), and it is opaque: O54 holds if that choice does not depend on the time
(`schedulingEvents_of_steady`), and gives that it does not, on the core of `overrunAt` (`usesOld_steady_of_schedulingEvents`). -/

/-! ### Events that are no words: which function of the state each one is -/

theorem exec_logicalCoreSwitch (s : State) : exec .logicalCoreSwitch s = .next s.switchCore := by rfl
theorem exec_depositArrive (s : State) : exec .depositArrive s = .next s.landOne := by rfl
theorem exec_install (s : State) (l : BitVec 16) : exec (.install l) s = .next (s.installMember l) := by rfl
theorem exec_superstepOverrun (s : State) :
    exec .superstepOverrun s = .next (if s.overrunDue then s.takeOverrun else s) := by rfl
theorem exec_superstepBoundary_of_some {s : State} {g : Gang} (h : s.gangs.find? s.atBoundary = some g) :
    exec .superstepBoundary s = .next (s.boundary g.id) := by
  show Host.Outcome.next (match s.gangs.find? s.atBoundary with | some g => s.boundary g.id | none => s) = _
  rw [h]
theorem exec_superstepBoundary_of_none {s : State} (h : s.gangs.find? s.atBoundary = none) :
    exec .superstepBoundary s = .next s := by
  show Host.Outcome.next (match s.gangs.find? s.atBoundary with | some g => s.boundary g.id | none => s) = _
  rw [h]

/-! ### Draining a coprocessor that has nothing outstanding -/

theorem quiesce_drained {s : State} (hl : s.cur.loads = []) (hp : s.cur.pend = []) (hn : s.cur.nextPost = s.cur) :
    s.quiesce = s.later (s.clk + (s.cur.quietAt - s.cur.ccy)) s.cur.quietAt := by
  have h1 : (if s.cur.loads == [] then s else s.finishLoads).modCur LCore.nextPost = s := by
    simp only [hl, beq_self_eq_true, if_true, State.modCur, hn]
  unfold State.quiesce
  simp only [h1, land_nil hp]
  rfl

theorem late_quiesce_drained {s : State} (hl : s.cur.loads = []) (hp : s.cur.pend = []) (hn : s.cur.nextPost = s.cur) :
    s.quiesce.cur.late = s.cur.late := by
  rw [quiesce_drained hl hp hn]; rfl

/-! ### Switches (R17, R249) -/

theorem mustSwitch_iff (s : State) : s.mustSwitch = true ↔ s.canRun s.cur = false ∧ s.cur.queued = false ∧
    ∀ b ∈ s.cur.blk, s.cur.run = .running → b ≠ .causal ∧ b ≠ .stall := by
  have point_iff (b : Block) : b.point = true ↔ b ≠ .causal ∧ b ≠ .stall := by cases b <;> simp [Block.point]
  simp [State.mustSwitch, Option.all_eq_true, and_assoc, ← imp_iff_not_or, point_iff]

theorem switchCore_of_not {s : State} (h : s.mustSwitch = false) : s.switchCore = s := by
  simp [State.switchCore, h]

theorem switchCore_of_next {s : State} {c : LCore} (h : s.mustSwitch = true) (hc : s.nextHosted = some c) :
    s.switchCore = s.switchTo c := by
  simp [State.switchCore, h, hc]

/-- A switch that finds a late fault while the coprocessor drains takes the fault instead (R249, R333). -/
theorem switchTo_late {s : State} {c : LCore} (hr : s.quiesce.cur.run = .running) (hh : s.quiesce.cur.handler = 0)
    (hl : s.quiesce.cur.late.isSome = true) : s.switchTo c = s.quiesce.takeLate := by
  unfold State.switchTo
  exact if_pos ⟨hr, hh, hl⟩

/-- To bring a logical core that is not the present one. -/
theorem bring_other {s : State} {p : LCore → Bool} {c : LCore} (hp : p s.cur = false) (hc : s.others.find? p = some c) :
    s.bring p = { s with cur := c, others := s.cur :: s.others.erase c } := by
  simp [State.bring, hp, hc]

theorem switchTo_drained {s : State} {c : LCore} (hl : s.cur.loads = []) (hp : s.cur.pend = []) (hn : s.cur.nextPost = s.cur)
    (hlate : s.cur.late = none) (hcur : s.cur.is c.gang c.lcid = false)
    (hc : s.others.find? (fun x => x.is c.gang c.lcid) = some c) :
    (s.switchTo c).cur = { c with port := s.cur.port ++ c.port } ∧
      (s.switchTo c).others = { s.cur with port := [], ccy := s.cur.quietAt } :: s.others.erase c := by
  unfold State.switchTo
  rw [if_neg (by rw [late_quiesce_drained hl hp hn, hlate]; simp), quiesce_drained hl hp hn]
  dsimp only
  rw [bring_other (c := c) (by exact hcur) (by exact hc)]
  exact ⟨rfl, rfl⟩

/-! ### Install (R43) -/

/-- Nothing but the pads, their failed sectors and the instruction pads has changed. -/
def PadsOnly (s t : State) : Prop := t = { s with pads := t.pads, badPads := t.badPads, ipad := t.ipad }

theorem PadsOnly.trans {s t u : State} (h : PadsOnly s t) (h' : PadsOnly t u) : PadsOnly s u := by
  unfold PadsOnly at h h' ⊢
  rw [h', h]

theorem PadsOnly.cur {s t : State} (h : PadsOnly s t) : t.cur = s.cur := (congrArg State.cur h :)
theorem PadsOnly.mem {s t : State} (h : PadsOnly s t) : t.mem = s.mem := (congrArg State.mem h :)
theorem PadsOnly.gangs {s t : State} (h : PadsOnly s t) : t.gangs = s.gangs := (congrArg State.gangs h :)
theorem PadsOnly.clk {s t : State} (h : PadsOnly s t) : t.clk = s.clk := (congrArg State.clk h :)

theorem padsOnly_clearPad (s : State) (id : PadId) : PadsOnly s (s.clearPad id) := rfl

theorem padsOnly_givePad (s : State) (ctx : BitVec 16) (id : PadId) : PadsOnly s (s.givePad ctx id) := by
  unfold State.givePad
  dsimp only
  split <;> rfl

theorem pad_id (s : State) (id : PadId) : (s.pad id).id = id := by
  unfold State.pad
  cases h : s.pads.find? (fun p => p.id == id) with
  | none => rfl
  | some p => exact eq_of_beq (List.find?_some h :)

theorem pad_clearPad (s : State) (id k : PadId) : (s.clearPad id).pad k = if k = id then Pad.fresh id else s.pad k :=
  pad_setPad _ _ _

/-- A pad that passes to a context is the only one that changes. -/
theorem pad_givePad {s : State} {ctx : BitVec 16} {id k : PadId} (h : k ≠ id) : (s.givePad ctx id).pad k = s.pad k := by
  unfold State.givePad
  dsimp only
  rw [pad_setPad, if_neg (by simpa only [pad_id] using h)]
  split
  · rfl
  · rw [pad_clearPad, if_neg h]

/-- The grant of one core clears its pad and gives pads of the outer levels (R43): what these steps keep, it keeps. -/
theorem takePads_one {P : State → Prop} {s : State} {ctx : BitVec 16} {n : Nat} (clear : P (s.clearPad (.core n)))
    (give : ∀ t id, id ≠ .core n → P t → P (t.givePad ctx id)) (instr : ∀ t l, P t → P { t with ipad := l }) :
    P (s.takePads ctx [n]) := by
  have cluster : [n / 16].dedup = [n / 16] := by simp
  unfold State.takePads
  simp only [List.foldl_cons, List.foldl_nil, List.map_cons, List.map_nil, cluster]
  refine instr _ _ ?_
  have outer : P (if ((s.clearPad (.core n)).pad (.cluster (n / 16))).owner == some ctx then s.clearPad (.core n)
      else (s.clearPad (.core n)).givePad ctx (.cluster (n / 16))) :=
    iteInduction (fun _ => clear) (fun _ => give _ _ (by simp) clear)
  exact iteInduction (fun _ => outer) (fun _ => give _ _ (by simp) outer)

theorem padsOnly_takePads (s : State) (ctx : BitVec 16) (n : Nat) : PadsOnly s (s.takePads ctx [n]) :=
  takePads_one (padsOnly_clearPad s _) (fun _ _ _ h => h.trans (padsOnly_givePad _ _ _)) (fun _ _ h => h.trans rfl)

theorem pad_takePads (s : State) (ctx : BitVec 16) (n : Nat) : (s.takePads ctx [n]).pad (.core n) = Pad.fresh (.core n) :=
  takePads_one (P := fun t => t.pad (.core n) = Pad.fresh (.core n)) (by rw [pad_clearPad, if_pos rfl])
    (fun _ _ hid h => by rw [pad_givePad hid.symm, h]) (fun _ _ h => h)

/-- The install sequence of the present logical core, from its gang and the kernel that it runs (R43). -/
theorem installMember_self {s : State} {r : LoadRec} {k : KernRec} (hg : (s.gang s.cur.gang).id = s.cur.gang)
    (hk : s.kernelOf (s.gang s.cur.gang).ctx (s.gang s.cur.gang).hdr = some (r, k)) :
    s.installMember s.cur.lcid =
      (s.takePads (s.gang s.cur.gang).ctx [s.cur.pcid.toNat]).modWhere (fun x => x.is (s.gang s.cur.gang).id s.cur.lcid)
        (fun _ => (s.takePads (s.gang s.cur.gang).ctx [s.cur.pcid.toNat]).installed (s.gang s.cur.gang).id
          (s.gang s.cur.gang).ctx (s.gang s.cur.gang).hdr s.cur.lcid.toNat s.cur.pcid.toNat (entryOf r k s.cur.lcid.toNat)) := by
  have member : (s.members (s.gang s.cur.gang).id).find? (fun c => c.lcid == s.cur.lcid) = some s.cur := by
    simp [State.members, hg]
  unfold State.installMember
  dsimp only
  rw [member, hk]

theorem installed_congr {s t : State} (h : t.clk = s.clk) : t.installed = s.installed := by
  unfold State.installed State.gtc
  rw [h]

/-- What the install sequence leaves of the present logical core and of the part (R43). -/
theorem installMember_frame {s : State} {r : LoadRec} {k : KernRec} (hg : (s.gang s.cur.gang).id = s.cur.gang)
    (hk : s.kernelOf (s.gang s.cur.gang).ctx (s.gang s.cur.gang).hdr = some (r, k)) :
    let g := s.gang s.cur.gang
    let t := s.installMember s.cur.lcid
    t.cur = s.installed s.cur.gang g.ctx g.hdr s.cur.lcid.toNat s.cur.pcid.toNat (entryOf r k s.cur.lcid.toNat) ∧
      t.pad (.core s.cur.pcid.toNat) = Pad.fresh (.core s.cur.pcid.toNat) ∧ t.mem = s.mem ∧ t.gangs = s.gangs := by
  dsimp only
  rw [installMember_self hg hk]
  have only := padsOnly_takePads s (s.gang s.cur.gang).ctx s.cur.pcid.toNat
  have own := pad_takePads s (s.gang s.cur.gang).ctx s.cur.pcid.toNat
  generalize s.takePads (s.gang s.cur.gang).ctx [s.cur.pcid.toNat] = t at only own ⊢
  refine ⟨?_, own, only.mem, only.gangs⟩
  simp [State.modWhere, LCore.is, hg, only.cur, installed_congr only.clk]

/-- The registers and numbers of an installed logical core (R43). -/
theorem installed_regs (s : State) (gang : BitVec 32) (ctx : BitVec 16) (h : BitVec 512) (l pcid : Nat) (pc : W64) :
    let c := s.installed gang ctx h l pcid pc
    c.pl = 0 ∧ c.ie = false ∧ c.ctx = ctx ∧ (∀ n, c.getX n = 0) ∧ (∀ n, c.getP n = PtrReg.null) ∧ (∀ n, c.getV n = 0) := by
  refine ⟨?_, ?_, ?_, fun n => ?_, fun n => ?_, fun n => ?_⟩
  · show (ctx.setWidth 64 <<< 16).extractLsb' 0 2 = 0#2
    ext i hi
    simp [show i < 16 by omega]
  · show (ctx.setWidth 64 <<< 16).getLsbD 2 = false
    simp
  · show (ctx.setWidth 64 <<< 16).extractLsb' 16 16 = ctx
    refine BitVec.eq_of_getLsbD_eq fun i hi => ?_
    simp [hi, show 16 + i < 64 by omega]
  · show (if n = 0 then 0 else (Vector.replicate 32 (0 : W64))[n.toNat]) = 0
    simp
  · show (Vector.replicate 16 PtrReg.null)[n.toNat] = PtrReg.null
    simp
  · show (Vector.replicate 32 (0 : VWord))[n.toNat] = 0
    simp

/-! ### Deposits (R250) -/

section
variable {s : State} {w : PortWord} {l : List PortWord}

/-- The only word of the part that has arrived is the first of the present core's port. -/
theorem arrived_first (ho : s.others = []) (hp : s.cur.port = w :: l) (hw : w.left = true) (hd : w.due < s.clk)
    (hl : ∀ x ∈ l, x.left = true → s.clk ≤ x.due) : s.arrived = [(s.cur.gang, w)] := by
  have rest : l.filter (fun w => w.left && decide (w.due < s.clk)) = [] := by
    simpa [List.filter_eq_nil_iff] using hl
  simp [State.arrived, ho, hp, hw, hd, rest]

/-- A word for the present logical core, which has not left its gang. -/
theorem canLand_self (ho : s.others = []) (ht : w.tgt = s.cur.lcid) (hg : s.cur.gone = false) :
    s.canLand (s.cur.gang, w) = !(s.cur.getQ w.qn).full := by
  simp [State.canLand, State.target, State.members, ho, ht, hg]

theorem landOne_of_single {g : BitVec 32} (h : s.ripeWords = [(g, w)]) : s.landOne =
    if s.canLand (g, w) then
      (s.dropWord g w).modWhere (fun c => c.is g w.tgt && !c.gone) (fun c => c.setQ w.qn ⟨w.word, true⟩)
    else s.holdAt g w := by
  unfold State.landOne
  rw [h]
  rfl

theorem landOne_of_none (h : s.ripeWords = []) : s.landOne = s := by
  unfold State.landOne
  rw [h]

theorem modWhere_alone {p : LCore → Bool} {f : LCore → LCore} (ho : s.others = []) (hp : p s.cur = true) :
    s.modWhere p f = s.modCur f := by
  simp [State.modWhere, State.modCur, hp, ho]

/-- The first word of the port lands, and those behind it leave (R250). -/
theorem landOne_lands (ho : s.others = []) (hp : s.cur.port = w :: l) (ha : s.arrived = [(s.cur.gang, w)])
    (ht : w.tgt = s.cur.lcid) (hg : s.cur.gone = false) (hq : (s.cur.getQ w.qn).full = false) :
    s.landOne = s.modCur (fun c => { c.setQ w.qn ⟨w.word, true⟩ with port := leavePort s.clk l }) := by
  have land : s.canLand (s.cur.gang, w) = true := by rw [canLand_self ho ht hg, hq]; rfl
  rw [landOne_of_single (by simp [State.ripeWords, ha, land] : s.ripeWords = [(s.cur.gang, w)]), if_pos land]
  have drop : s.dropWord s.cur.gang w = s.modCur (fun c => { c with port := leavePort s.clk l }) := by
    rw [State.dropWord, modWhere_alone ho (by simp [hp])]
    simp [State.modCur, hp]
  rw [drop, modWhere_alone (by exact ho)]
  · rfl
  · show (s.cur.gang == s.cur.gang && s.cur.lcid == w.tgt && !s.cur.gone) = true
    simp [ht, hg]

/-- It is held at a full register, and keeps those that would leave after it (R250). -/
theorem landOne_holds (ho : s.others = []) (hp : s.cur.port = w :: l) (ha : s.arrived = [(s.cur.gang, w)])
    (ht : w.tgt = s.cur.lcid) (hg : s.cur.gone = false) (hq : (s.cur.getQ w.qn).full = true) (hh : w.held = false) (hw : w ∉ l) :
    s.landOne = s.modCur (fun c => { c with port := { w with held := true } :: l.map (stayAfter w.due) }) := by
  have full : s.canLand (s.cur.gang, w) = false := by rw [canLand_self ho ht hg, hq]; rfl
  rw [landOne_of_single (by simp [State.ripeWords, ha, full, hh] : s.ripeWords = [(s.cur.gang, w)]), if_neg (by simp [full])]
  rw [State.holdAt, modWhere_alone ho (by simp [hp])]
  have behind : l.map (fun x => stayAfter w.due (if x == w then { x with held := true } else x)) = l.map (stayAfter w.due) :=
    List.map_congr_left fun x hx => by rw [if_neg (by simpa using fun e : x = w => hw (e ▸ hx))]
  simp only [State.modCur, hp, List.map_cons, behind, beq_self_eq_true, if_true]
  rfl

/-- A word that is held waits on. -/
theorem landOne_waits (ho : s.others = []) (ha : s.arrived = [(s.cur.gang, w)]) (ht : w.tgt = s.cur.lcid)
    (hg : s.cur.gone = false) (hq : (s.cur.getQ w.qn).full = true) (hh : w.held = true) : s.landOne = s := by
  have full : s.canLand (s.cur.gang, w) = false := by rw [canLand_self ho ht hg, hq]; rfl
  exact landOne_of_none (by simp [State.ripeWords, ha, full, hh])

end

/-! ### Boundaries of a gang that nothing has asked anything of (R263) -/

theorem trace_off {s : State} (h : s.mg.trEn = false) (ty : Nat) (ctx lcid : BitVec 16) (unit : Nat) (a b : W64) :
    s.trace ty ctx lcid unit a b = s := by
  simp [State.trace, State.traceAt, Mgmt.trOn, h]

/-- Without a record to write and a trace, the roll-call leaves the state. -/
theorem writeRollCall_none {s : State} {g : Gang} (hr : hRcr g.hdr = 0) (ht : s.mg.trEn = false) : s.writeRollCall g = s := by
  unfold State.writeRollCall
  simp only [hr, if_true, trace_off ht]

theorem takeCut_none {s : State} {id : BitVec 32} (hm : s.msgs = []) (hc : (s.gang id).cut = none) : s.takeCut id = s := by
  unfold State.takeCut
  simp only [hm, List.length_nil, State.applyMsgs, hc]

theorem debugStops_none {s : State} {id : BitVec 32} (h : bits s.mg.dbgctl.toNat 19 16 = 0) : s.debugStops id = s := by
  have mode : s.debugMode (s.gang id) = 0 := by
    unfold State.debugMode
    simp only [h]
    split <;> simp
  unfold State.debugStops
  simp only [mode, if_true]

/-- A logical core whose superstep timer starts again (R263, R265). -/
def LCore.newStep (gtc : Nat) (c : LCore) : LCore := { c with timer := gtc, overrun := false }

section
variable {s : State} {x : Gang}

/-- The only gang of the part, found by its number. -/
theorem gang_only (h : s.gangs = [x]) : s.gang x.id = x := by
  simp [State.gang, h]

theorem modGang_only {f : Gang → Gang} (h : s.gangs = [x]) (hf : (f x).id = x.id) :
    s.modGang x.id f = { s with gangs := [f x] } := by
  rw [State.modGang, gang_only h, State.setGang]
  simp [h, hf]

theorem doShrinks_none (h : s.gangs = [x]) (hs : x.shrinks = []) : s.doShrinks x.id = s := by
  have same : s.modGang x.id (fun g => { g with shrinks := [] }) = s := by
    rw [modGang_only h (by rfl), ← hs]
    exact congrArg (fun l => { s with gangs := l }) h.symm
  unfold State.doShrinks
  rw [gang_only h, hs]
  exact same

/-- The boundary of the only gang, with nothing to record, to cut, to stop or to shrink (R263). -/
theorem boundary_only (h : s.gangs = [x]) (hr : hRcr x.hdr = 0) (hc : x.cut = none) (hs : x.shrinks = [])
    (hd : bits s.mg.dbgctl.toNat 19 16 = 0) (hm : s.msgs = []) (ht : s.mg.trEn = false) :
    s.boundary x.id = { s.modWhere (fun c => c.gang == x.id) (LCore.newStep s.gtc) with
      gangs := [{ x with boundary := false, arriveAt := [] }] } := by
  unfold State.boundary
  simp only [gang_only h, writeRollCall_none hr ht, takeCut_none hm (by rw [gang_only h]; exact hc), debugStops_none hd,
    doShrinks_none h hs]
  rw [if_pos (by simp [h])]
  exact modGang_only (s := s.modWhere _ _) h rfl

theorem find_atBoundary_only (h : s.gangs = [x]) (hb : x.boundary = true) (hc : x.cut = none) :
    s.gangs.find? s.atBoundary = some x := by
  simp [h, State.atBoundary, hb, hc]

end

/-- Every core of the gang has a timer that starts now. -/
theorem timers_newStep {s : State} {id : BitVec 32} {n : Nat} :
    let t := s.modWhere (fun c => c.gang == id) (LCore.newStep n)
    ∀ y ∈ t.cur :: t.others, y.gang = id → y.timer = n ∧ y.overrun = false := by
  have one : ∀ c : LCore, (if c.gang == id then c.newStep n else c).gang = id →
      (if c.gang == id then c.newStep n else c).timer = n ∧ (if c.gang == id then c.newStep n else c).overrun = false := by
    intro c hg
    split at hg
    · rw [if_pos ‹_›]; exact ⟨rfl, rfl⟩
    · exact absurd (beq_iff_eq.mpr hg) ‹_›
  intro t y hy
  rcases List.mem_cons.mp hy with rfl | hy
  · exact one _
  · obtain ⟨c, -, rfl⟩ := List.mem_map.mp hy
    exact one c

/-- The registers of the present core stay. -/
theorem regs_newStep {s : State} {p : LCore → Bool} {n : Nat} :
    (s.modWhere p (LCore.newStep n)).cur.x = s.cur.x ∧ (s.modWhere p (LCore.newStep n)).cur.pc = s.cur.pc := by
  unfold State.modWhere
  dsimp only
  split
  · exact ⟨rfl, rfl⟩
  · exact ⟨rfl, rfl⟩

/-! ### What the part writes on its own account leaves the logical cores and the pads (R359 to R362, R370) -/

/-- The logical cores and the pads of `t` are those of `s`. -/
structure CoresKept (s t : State) : Prop where
  cur : t.cur = s.cur
  others : t.others = s.others
  pads : t.pads = s.pads

theorem CoresKept.refl (s : State) : CoresKept s s := ⟨rfl, rfl, rfl⟩

/-- Whatever replaces the fields that are neither cores nor pads. -/
theorem CoresKept.frame {s t : State}
    {turns inputs mem hostMem codeMap ipad loads ldq loading gangs nextGang queues lastQ irqs hostIrqs lastCuts mg feat die pkg
    straps peers farPorts frameOwner seals lineTags badSectors badPads corr failAt retiredLines spared retiredFrames pageCtrs
    moves relNo applied msgs stamps marked held silent expired links images trPend trHeld trHoldSince trGap trGapAt wbFailed stands
    collected created rot spdm roce readout frozen clk free}
    (h : CoresKept s t) :
    CoresKept s { t with
      turns := turns, inputs := inputs, mem := mem, hostMem := hostMem, codeMap := codeMap, ipad := ipad, loads := loads,
      ldq := ldq, loading := loading, gangs := gangs, nextGang := nextGang, queues := queues, lastQ := lastQ, irqs := irqs,
      hostIrqs := hostIrqs, lastCuts := lastCuts, mg := mg, feat := feat, die := die, pkg := pkg, straps := straps,
      peers := peers, farPorts := farPorts, frameOwner := frameOwner, seals := seals, lineTags := lineTags,
      badSectors := badSectors, badPads := badPads, corr := corr, failAt := failAt, retiredLines := retiredLines,
      spared := spared, retiredFrames := retiredFrames, pageCtrs := pageCtrs, moves := moves, relNo := relNo,
      applied := applied, msgs := msgs, stamps := stamps, marked := marked, held := held, silent := silent,
      expired := expired, links := links, images := images, trPend := trPend, trHeld := trHeld, trHoldSince := trHoldSince,
      trGap := trGap, trGapAt := trGapAt, wbFailed := wbFailed, stands := stands, collected := collected, created := created,
      rot := rot, spdm := spdm, roce := roce, readout := readout, frozen := frozen, clk := clk, free := free } :=
  ⟨h.cur, h.others, h.pads⟩

theorem CoresKept.ite {s t u : State} {c : Prop} [Decidable c] (ht : CoresKept s t) (hu : CoresKept s u) :
    CoresKept s (if c then t else u) := by
  split <;> assumption

theorem CoresKept.foldl {γ : Type} {f : State → γ → State} {l : List γ} {s t : State} (h : CoresKept s t)
    (hf : ∀ u x, CoresKept s u → CoresKept s (f u x)) : CoresKept s (l.foldl f t) := by
  induction l generalizing t with
  | nil => exact h
  | cons x l ih => exact ih (hf t x h)

/-- Where the operation ends from a state with the cores and pads of `s`, it leaves them, and its result is as `Q` says. -/
def Spares {α : Type} (s : State) (Q : α → Prop) (m : Ex α) : Prop :=
  ∀ t, CoresKept s t → ∀ a u, m t = .ok a u → CoresKept s u ∧ Q a

namespace Spares

variable {α β : Type} {s : State} {Q : α → Prop} {R : β → Prop} {m : Ex α} {f : α → Ex β}

theorem pure {a : α} (h : Q a) : Spares s Q (Pure.pure a : Ex α) := by
  rintro t ht _ _ ⟨⟩; exact ⟨ht, h⟩

theorem throw {e : Exn} : Spares s Q (throw e : Ex α) := by
  rintro t ht _ _ ⟨⟩

theorem bind (hm : Spares s Q m) (hf : ∀ a, Q a → Spares s R (f a)) : Spares s R (m >>= f) := by
  intro t ht b u hr
  rw [run_bind] at hr
  split at hr
  next a v e =>
    obtain ⟨hv, ha⟩ := hm t ht a v e
    exact hf a ha v hv b u hr
  · cases hr

theorem get {k : State → Ex β} (hk : ∀ t, CoresKept s t → Spares s R (k t)) : Spares s R (MonadState.get >>= k) :=
  fun t ht => hk t ht t ht

theorem set {t : State} (h : CoresKept s t) : Spares s (fun _ => True) (set t : Ex PUnit) := by
  rintro u - _ _ ⟨⟩; exact ⟨h, trivial⟩

theorem modify {k : State → State} (hk : ∀ t, CoresKept s t → CoresKept s (k t)) :
    Spares s (fun _ => True) (modify k : Ex PUnit) := by
  rintro u hu _ _ ⟨⟩; exact ⟨hk u hu, trivial⟩

theorem ite {c : Prop} [Decidable c] {n : Ex α} (hm : Spares s Q m) (hn : Spares s Q n) : Spares s Q (if c then m else n) := by
  split <;> assumption

/-- What stands behind an `if` without `else` comes once. -/
theorem guard {c : Prop} [Decidable c] {n : Ex β} (hm : Spares s Q m) (hn : Spares s R n) :
    Spares s R (if c then m >>= fun _ => n else n) :=
  ite (bind hm fun _ _ => hn) hn

theorem failMem {rep : W64} {pa : Nat} : Spares s Q (failMem rep pa : Ex α) :=
  bind (modify fun _ h => h.frame) fun _ _ => throw

end Spares

/-! ### Memory and table walks -/

section
variable {s t : State}

theorem coresKept_retag {pa n} (h : CoresKept s t) : CoresKept s (t.retag pa n) := .foldl h fun _ _ hu => .ite hu.frame hu

theorem coresKept_physStore {pa n v} (h : CoresKept s t) : CoresKept s (t.physStore pa n v) := .ite (coresKept_retag h.frame) h

theorem coresKept_holdWord {ctx base size pa} (h : CoresKept s t) : CoresKept s (t.holdWord ctx base size pa) := .ite h h.frame

theorem coresKept_walked {ctxbase named ctx va} (h : CoresKept s t) : CoresKept s (t.walked ctxbase named ctx va) := by
  unfold State.walked
  split
  · exact h
  · exact .foldl (.foldl h fun _ _ => coresKept_holdWord) fun _ _ => coresKept_holdWord

theorem coresKept_walkFor {ctxbase named ctx va acc user} (h : CoresKept s t) :
    CoresKept s (t.walkFor ctxbase named ctx va acc user).2 := by
  unfold State.walkFor
  dsimp only
  split
  · split
    · exact coresKept_walked (coresKept_walked h).frame
    · exact coresKept_walked h
  · exact coresKept_walked h

theorem coresKept_takeFrame {pa ctx pte tbl} (h : CoresKept s t) : CoresKept s (t.takeFrame pa ctx pte tbl) :=
  .ite h (.frame (.foldl h fun _ _ hu => hu.frame))

theorem coresKept_setAD {ea pte acc} (h : CoresKept s t) : CoresKept s (t.setAD ea pte acc) := .ite h (coresKept_physStore h).frame

theorem coresKept_countPage {ctx va pa n setMax} (h : CoresKept s t) : CoresKept s (t.countPage ctx va pa n setMax) :=
  .ite (.ite (coresKept_physStore h.frame).frame h.frame.frame) h.frame

theorem spares_crossFar {l rep} : Spares s (fun _ => True) (crossFar l rep) :=
  .get fun _ ht => .ite (.bind (.set ht.frame) fun _ _ => .throw) (.pure trivial)

/-- A location of physical memory. -/
def Loc.isPhys (l : Loc) : Prop := ∃ host cmp pa, l = .phys host cmp pa

theorem spares_locRead {l n va} (hl : l.isPhys) : Spares s (fun _ => True) (locRead l n va) := by
  obtain ⟨host, cmp, pa, rfl⟩ := hl
  cases host with
  | true => exact .get fun _ _ => .pure trivial
  | false =>
    refine .bind spares_crossFar fun _ _ => .get fun _ _ => .ite (.ite .failMem (.pure trivial)) ?_
    split
    · exact .pure trivial
    · exact .failMem

theorem spares_locWrite {l n v va} (hl : l.isPhys) : Spares s (fun _ => True) (locWrite l n v va) := by
  obtain ⟨host, cmp, pa, rfl⟩ := hl
  cases host with
  | true => exact .modify fun _ ht => ht.frame
  | false =>
    refine .bind spares_crossFar fun _ _ => .get fun _ ht => .ite (.ite .failMem ?_) ?_
    · exact .set (.ite (coresKept_retag ht.frame) ht.frame)
    split
    · exact .failMem
    · exact .set ht.frame

theorem spares_useLeaf {d ctxbase named ctx va acc user pin rep deny} :
    Spares s (fun _ => True) (useLeaf d ctxbase named ctx va acc user pin rep deny) := by
  unfold useLeaf
  refine .get fun _ ht => .guard spares_crossFar (.bind (.set (coresKept_walkFor ht)) fun _ _ => ?_)
  split
  · exact .throw
  · exact .failMem
  · refine .ite .throw (.ite .throw (.ite .failMem (.ite .throw ?_)))
    exact .bind (.set (coresKept_setAD (coresKept_takeFrame (coresKept_walkFor ht)))) fun _ _ => .pure trivial

theorem spares_translateIn {ctxbase named ctx va acc cnt user rep} :
    Spares s Loc.isPhys (translateIn ctxbase named ctx va acc cnt user rep) :=
  .get fun _ _ => .bind spares_useLeaf fun _ _ => .bind (.modify fun _ => coresKept_countPage) fun _ _ => .pure ⟨_, _, _, rfl⟩

theorem spares_setDirtyBit {d ctxbase named ctx va} : Spares s (fun _ => True) (setDirtyBit d ctxbase named ctx va) := by
  refine .get fun _ _ => .ite (.pure trivial) (.bind spares_useLeaf fun _ _ => .bind (spares_locRead ⟨_, _, _, rfl⟩) fun _ _ => ?_)
  refine .guard (Q := fun _ => True) .throw (.bind spares_useLeaf fun _ _ => ?_)
  exact .bind (spares_locRead ⟨_, _, _, rfl⟩) fun _ _ => spares_locWrite ⟨_, _, _, rfl⟩

theorem spares_translate {va acc} : Spares s Loc.isPhys (translate va acc) :=
  .get fun _ _ => .bind spares_translateIn fun _ hl => .guard spares_setDirtyBit (.pure hl)

/-! ### Trace and error records -/

/-- Run as the part itself, an operation leaves the cores whatever their status is meanwhile. -/
theorem spares_asCtx {α : Type} {Q : α → Prop} {m : Ex α} {ctx} (hm : ∀ s, Spares s Q m) : Spares s Q (asCtx ctx m) := by
  intro t ht a u hr
  simp only [asCtx, run_bind, run_get, run_modify, run_pure] at hr
  split at hr
  next b v e =>
    obtain ⟨hv, hb⟩ := hm _ _ (.refl _) b v e
    cases hr
    refine ⟨⟨?_, hv.others.trans ht.others, hv.pads.trans ht.pads⟩, hb⟩
    show { v.cur with status := t.cur.status } = s.cur
    rw [hv.cur, ← ht.cur]
    rfl
  · cases hr

theorem coresKept_tryStore {ctx va n v} (h : CoresKept s t) : CoresKept s (t.tryStore ctx va n v).2 := by
  unfold State.tryStore
  split
  · exact h
  · split
    next u e =>
      exact (spares_asCtx (fun _ => .bind spares_translate fun _ hl => spares_locWrite hl) t h _ u e).1
    · exact h.frame

theorem coresKept_dropTrace {at_} (h : CoresKept s t) : CoresKept s (t.dropTrace at_) := h.frame

theorem coresKept_putTrace {r} (h : CoresKept s t) : CoresKept s (t.putTrace r).1 := by
  unfold State.putTrace
  split
  · exact coresKept_dropTrace h
  · have store := coresKept_tryStore (ctx := t.mg.trCtx) (va := t.mg.trAddr) (n := 32) (v := r.toNat) h
    split
    next u e => rw [e] at store; exact store.frame
    next u e => rw [e] at store; exact (coresKept_dropTrace store).frame

theorem coresKept_putGap {at_ src} (h : CoresKept s t) : CoresKept s (t.putGap at_ src) :=
  .ite h (.ite (coresKept_putTrace h).frame h)

theorem coresKept_writeTraceRec {r} (h : CoresKept s t) : CoresKept s (t.writeTraceRec r) := by
  unfold State.writeTraceRec
  refine .ite ?_ (coresKept_putTrace (coresKept_putGap h))
  split
  · exact .ite h.frame h.frame
  · exact .ite h.frame (coresKept_dropTrace h)

theorem coresKept_flushTick (h : CoresKept s t) : CoresKept s t.flushTick :=
  .ite h (.foldl h.frame fun _ _ => coresKept_writeTraceRec)

theorem coresKept_traceAt {ty ctx lcid src a b} (h : CoresKept s t) : CoresKept s (t.traceAt ty ctx lcid src a b) :=
  .ite (coresKept_flushTick h).frame h

theorem coresKept_errorRecordAt {ty ctx lcid src a b} (h : CoresKept s t) :
    CoresKept s (t.errorRecordAt ty ctx lcid src a b) :=
  .ite h.frame (coresKept_traceAt (coresKept_physStore h).frame.frame)

theorem coresKept_memError {ty ctx lcid unit e} (h : CoresKept s t) : CoresKept s (t.memError ty ctx lcid unit e) :=
  .ite (coresKept_errorRecordAt h.frame) h

/-- What trap entry records leaves the cores and the pads (R361, R367). -/
theorem coresKept_noteTrap {ctx lcid unit cause epc e} (h : CoresKept s t) :
    CoresKept s (t.noteTrap ctx lcid unit cause epc e) :=
  coresKept_memError (coresKept_traceAt h.frame)

end

/-! ### STATUS after a trap entry (R36, R331) -/

/-- A word of less than 8 bits has no bit from bit 8 on. -/
theorem getLsbD_high {v : W64} {i : Nat} (hv : v.toNat < 2 ^ 8) (hi : 8 ≤ i) : v.getLsbD i = false :=
  Nat.testBit_lt_two_pow (lt_of_lt_of_le hv (Nat.pow_le_pow_right (by decide) hi))

theorem statusWith_getLsbD (st : W64) (pl : BitVec 2) (ie : Bool) (ppl : BitVec 2) (pie : Bool) {i : Nat} (hi : i < 64) :
    (statusWith st pl ie ppl pie).getLsbD i =
      if i < 2 then pl.getLsbD i else if i = 2 then ie else if i = 4 ∨ i = 5 then ppl.getLsbD (i - 4)
      else if i = 7 then pie else st.getLsbD i := by
  by_cases h : i < 8
  · cases ie <;> cases pie <;> interval_cases i <;> simp [statusWith]
  · have mask : (0xB7 : W64).getLsbD i = false := getLsbD_high (by decide) (by omega)
    have ie0 : ((if ie then 4 else 0 : Nat) : W64).getLsbD i = false := getLsbD_high (by cases ie <;> decide) (by omega)
    have pie0 : (if pie then (0x80 : W64) else 0).getLsbD i = false := getLsbD_high (by cases pie <;> decide) (by omega)
    simp only [statusWith, BitVec.getLsbD_or, BitVec.getLsbD_and, BitVec.getLsbD_not, BitVec.getLsbD_setWidth,
      BitVec.getLsbD_shiftLeft, mask, BitVec.getLsbD_of_ge pl i (by omega), BitVec.getLsbD_of_ge ppl (i - 4) (by omega)]
    rw [ie0, pie0]
    simp [hi, show ¬i < 2 by omega, show i ≠ 2 by omega, show ¬(i = 4 ∨ i = 5) by omega, show i ≠ 7 by omega]

theorem status_entered (st : W64) (tgt ppl : BitVec 2) (pie : Bool) :
    let w := statusWith st tgt false ppl pie
    w.extractLsb' 0 2 = tgt ∧ w.getLsbD 2 = false ∧ w.extractLsb' 4 2 = ppl ∧ w.getLsbD 7 = pie ∧
      w &&& ~~~(0xB7 : W64) = st &&& ~~~(0xB7 : W64) := by
  have bit := fun {i : Nat} => statusWith_getLsbD st tgt false ppl pie (i := i)
  refine ⟨?_, ?_, ?_, ?_, ?_⟩
  · refine BitVec.eq_of_getLsbD_eq fun i hi => ?_
    rw [BitVec.getLsbD_extractLsb', bit (by omega), if_pos (by omega)]
    simp [hi]
  · rw [bit (by omega)]; rfl
  · refine BitVec.eq_of_getLsbD_eq fun i hi => ?_
    rw [BitVec.getLsbD_extractLsb', bit (by omega), if_neg (by omega), if_neg (by omega), if_pos (by omega)]
    simp [hi]
  · rw [bit (by omega)]; rfl
  · have mask : ∀ i, i < 8 → i = 3 ∨ i = 6 ∨ (~~~(0xB7 : W64)).getLsbD i = false := by decide
    refine BitVec.eq_of_getLsbD_eq fun i hi => ?_
    rw [BitVec.getLsbD_and, BitVec.getLsbD_and, bit hi]
    by_cases kept : 8 ≤ i ∨ i = 3 ∨ i = 6
    · rw [if_neg (by omega), if_neg (by omega), if_neg (by omega), if_neg (by omega)]
    · have clear : (~~~(0xB7 : W64)).getLsbD i = false := ((mask i (by omega)).resolve_left (by omega)).resolve_left (by omega)
      rw [clear, Bool.and_false, Bool.and_false]

/-! ### Trap entry (R331) -/

/-- The state of a trap entry at a level and an address, before its trace and error records. -/
def State.entering (s : State) (e : Exn) (late : Option (BitVec 16)) (int : Bool) (tgt : BitVec 2) (entry : W64) : State :=
  let c := s.cur.rewind
  let bank : Bank :=
    { cause := mkCause int late.isSome e.code, epc := c.pc, tval := e.tval, tval2 := e.tval2,
      cseq := match late with
        | some q => (c.nextSeq - 1).setWidth 64 <<< 16 ||| q.setWidth 64
        | none => (c.bankOf tgt).cseq,
      srepc := c.repc }
  { s with
    clk := s.clk + 8,
    cur := { c with
      mbank := if tgt = 3 then bank else c.mbank, sbank := if tgt = 3 then c.sbank else bank,
      repc := c.repc &&& ~~~(0x20000000 : W64), status := statusWith c.status tgt false c.pl c.ie,
      pc := entry, blk := none, ccy := c.ccy + 8,
      late := if late.isSome then none else c.late,
      handler := if late.isSome then 1 else if c.handler = 0 then 0 else c.handler + 1,
      taken := (late.map (fun q => ⟨q, e⟩)).or c.taken } }

theorem entered_entering (s : State) (e : Exn) (late : Option (BitVec 16)) (int : Bool) (tgt : BitVec 2) (entry : W64) :
    Entered s int late e tgt entry (s.entering e late int tgt entry) := by
  obtain ⟨hpl, hie, hppl, hpie, hrest⟩ := status_entered s.cur.status tgt s.cur.pl s.cur.ie
  refine ⟨?_, hpl, hie, hppl, hpie, hrest, ?_, rfl, rfl⟩
  · by_cases h : tgt = 3
    · simp only [LCore.bankOf, State.entering, if_pos h]; rfl
    · simp only [LCore.bankOf, State.entering, if_neg h]; rfl
  · by_cases h : tgt = 3
    · simp only [State.entering, if_pos h]; rfl
    · simp only [State.entering, if_neg h]; rfl

/-- The entry, seen on a state with the same cores and pads. -/
theorem Entered.kept {s t u : State} {int : Bool} {late : Option (BitVec 16)} {e : Exn} {tgt : BitVec 2} {entry : W64}
    (h : Entered s int late e tgt entry t) (k : CoresKept t u) : Entered s int late e tgt entry u := by
  unfold Entered at h ⊢
  rw [k.cur, k.others, k.pads]
  exact h

/-- A trap entry with no routine of R321 in its way. -/
theorem trapTaken_enterTrap {s : State} {e : Exn} {late : Option (BitVec 16)} {int : Bool}
    (h : e.code = cFEATURE_ABSENT → int = false → s.emulEntry s.cur.unitStart e.tval2.toNat = none) :
    TrapTaken s int late e (s.enterTrap e late int) := by
  have emul : (if e.code = cFEATURE_ABSENT ∧ int = false then s.emulEntry s.cur.rewind.pc e.tval2.toNat else none) = none := by
    split
    next hc => exact h hc.1 hc.2
    · rfl
  refine (entered_entering s e late int _ _).kept ?_
  unfold State.enterTrap
  dsimp only
  rw [emul]
  exact coresKept_noteTrap (.refl _)

/-! ### The time a drain takes (R328), and the table words read before and after it (R296) -/

/-- An entry from a later cycle, as seen from before: the words of the context's entry that name the level and SVEC read the same. -/
theorem TrapTaken.of_later {s t : State} {clk ccy : Nat} {int : Bool} {late : Option (BitVec 16)} {e : Exn}
    (hw : ∀ w, (s.later clk ccy).ctxWord s.cur.ctx w = s.ctxWord s.cur.ctx w) (h : TrapTaken (s.later clk ccy) int late e t) :
    TrapTaken s int late e t := by
  have target : (s.later clk ccy).trapTarget e.code int = s.trapTarget e.code int := by
    show (if s.cur.pl = 3 ∨ 0x1F ≤ e.code.toNat then 3
      else if ((s.later clk ccy).ctxWord s.cur.ctx (if int then 8 else 7)).getLsbD e.code.toNat then 1 else 3) = _
    rw [hw]
    rfl
  unfold TrapTaken at h ⊢
  rw [target, show (s.later clk ccy).cur.ctx = s.cur.ctx from rfl, hw] at h
  exact h

/-- A trap with nothing outstanding and no late fault: the drain lets time pass, and then the trap is entered (R328, R331). -/
theorem takeTrap_drained {s : State} {e : Exn} {int : Bool} (hl : s.cur.loads = []) (hp : s.cur.pend = [])
    (hn : s.cur.nextPost = s.cur) (hlate : s.cur.late = none) :
    s.takeTrap e int = (s.later (s.clk + (s.cur.quietAt - s.cur.ccy)) s.cur.quietAt).enterTrap e none int := by
  unfold State.takeTrap
  dsimp only
  rw [late_quiesce_drained hl hp hn, hlate, quiesce_drained hl hp hn]

/-! ### An overrun (R265) -/

/-- A context's entry reads the same at a time that chooses alike between old and new words. -/
theorem ctxWord_later {s : State} {clk : Nat} (hu : ∀ pa, Config.usesOld clk pa = Config.usesOld s.clk pa) (ccy : Nat)
    (ctx : BitVec 16) (w : Nat) : (s.later clk ccy).ctxWord ctx w = s.ctxWord ctx w := by
  have either : ∀ pa held, (s.later clk ccy).eitherWord pa held = s.eitherWord pa held := by
    intro pa held
    cases held with
    | none => rfl
    | some h =>
      show (if h.val ≠ s.physWord pa && Config.usesOld clk pa then h.val else s.physWord pa) = _
      rw [hu]
      rfl
  exact either _ _

/-- The logical core, marked as having had its trap in this superstep (R265). -/
def LCore.overran (c : LCore) : LCore := { c with overrun := true }

theorem nextPost_overran {c : LCore} (h : c.nextPost = c) : c.overran.nextPost = c.overran := by
  have keep : c.overran.nextPost = c.nextPost.overran := by
    unfold LCore.nextPost LCore.overran
    dsimp only
    split
    · rfl
    · split <;> rfl
  rw [keep, h]

section
variable {s : State} (hl : s.cur.loads = []) (hp : s.cur.pend = []) (hn : s.cur.nextPost = s.cur) (hlate : s.cur.late = none)
include hl hp hn hlate

/-- An overrun with nothing outstanding: the drain lets time pass, and then the marked core's trap is entered (R265, R328). -/
theorem takeOverrun_drained : s.takeOverrun =
    ((s.modCur LCore.overran).later (s.clk + (s.cur.quietAt - s.cur.ccy)) s.cur.quietAt).enterTrap
      ⟨cSUPERSTEP_OVERRUN, s.cur.ssc, BitVec.ofNat 64 (hSstl (s.gang s.cur.gang).hdr)⟩ none false := by
  unfold State.takeOverrun
  dsimp only
  rw [late_quiesce_drained hl hp hn, hlate]
  exact takeTrap_drained (s := s.modCur LCore.overran) hl hp (nextPost_overran hn) hlate

/-- It is the trap of the state before, where the context's entry reads the same after the drain as before it (R265, R296). -/
theorem trapTaken_takeOverrun (hu : ∀ pa, Config.usesOld (s.clk + (s.cur.quietAt - s.cur.ccy)) pa = Config.usesOld s.clk pa) :
    TrapTaken (s.modCur LCore.overran) false none
      ⟨cSUPERSTEP_OVERRUN, s.cur.ssc, BitVec.ofNat 64 (hSstl (s.gang s.cur.gang).hdr)⟩ s.takeOverrun := by
  rw [takeOverrun_drained hl hp hn hlate]
  exact .of_later (ctxWord_later hu s.cur.quietAt _) (trapTaken_enterTrap fun h => absurd h (show cSUPERSTEP_OVERRUN ≠ cFEATURE_ABSENT by decide))

end

/-! ### The statement O54, as far as the model decides it -/

/-- The statement O54 holds if the choice between the old and the new value of a table word does not depend on the time. -/
theorem schedulingEvents_of_steady (steady : ∀ clk clk' pa, Config.usesOld clk pa = Config.usesOld clk' pa) :
    Obligations.SchedulingEvents := by
  unfold Obligations.SchedulingEvents
  intro s c r k w l
  refine ⟨fun h => ?_, mustSwitch_iff s, fun h hc hp hl hlate hn hcur ho => ?_, fun hg hk => ?_, fun ho hp hw hd hl ht hg => ?_,
    exec_superstepBoundary_of_none, fun x h hb hr hc hs hd hm ht => ?_, fun h => ?_, fun h hc hr hh hl => ?_, fun h hp hl hlate hn => ?_⟩
  · rw [exec_logicalCoreSwitch, switchCore_of_not h]
  · obtain ⟨cur, others⟩ := switchTo_drained hl hp hn hlate hcur ho
    exact ⟨_, by rw [exec_logicalCoreSwitch, switchCore_of_next h hc], cur, _, others⟩
  · obtain ⟨cur, pad, mem, gangs⟩ := installMember_frame hg hk
    obtain ⟨pl, ie, ctx, x, p, v⟩ := installed_regs s s.cur.gang (s.gang s.cur.gang).ctx (s.gang s.cur.gang).hdr
      s.cur.lcid.toNat s.cur.pcid.toNat (entryOf r k s.cur.lcid.toNat)
    refine ⟨_, exec_install s _, ?_⟩
    rw [cur, pad]
    exact ⟨rfl, BitVec.ofNat_toNat .., BitVec.ofNat_toNat .., rfl, rfl, rfl, rfl, rfl, pl, ie, ctx, x, p, v, fun _ => rfl, mem, gangs⟩
  · have arrived := arrived_first ho hp hw hd hl
    have single : w ∉ l := fun hm => absurd (hl w hm hw) (by omega)
    simp only [exec_depositArrive]
    exact ⟨fun hq => by rw [landOne_lands ho hp arrived ht hg hq],
      fun hq hh => by rw [landOne_holds ho hp arrived ht hg hq hh single],
      fun hq hh => by rw [landOne_waits ho arrived ht hg hq hh]⟩
  · refine ⟨_, exec_superstepBoundary_of_some (find_atBoundary_only h hb hc), ?_⟩
    rw [boundary_only h hr hc hs hd hm ht]
    exact ⟨rfl, timers_newStep, rfl, rfl, regs_newStep (p := fun c => c.gang == x.id)⟩
  · rw [exec_superstepOverrun, h, if_neg Bool.false_ne_true]
  · rw [exec_logicalCoreSwitch, switchCore_of_next h hc, switchTo_late hr hh hl]
  · exact ⟨_, by rw [exec_superstepOverrun, h, if_pos rfl], trapTaken_takeOverrun hl hp hn hlate fun pa => steady ..⟩

/-- A core that has run past the limit of its superstep, at a cycle `clk` and with a coprocessor that is quiet `d` cycles later; the die
holds an old value of the word that delegates its traps, which is 0 in memory. -/
def overrunAt (clk d : Nat) : State :=
  { State.reset with
    clk := clk
    cur := { LCore.cleared with run := .running, copNext := d }
    gangs := [{ Gang.none 0 with hdr := 1 <<< 96 }]
    held := [⟨56, BitVec.allOnes 64, 0, 0, 0⟩] }

theorem overrunDue_overrunAt {clk : Nat} (d : Nat) (h : 615 ≤ clk) : (overrunAt clk d).overrunDue = true := by
  have limit : hSstl (1 <<< 96) = 1 := by decide +kernel
  have late : hSstl (1 <<< 96) * 1024 < clk * 5 / 3 - 0 := by rw [limit]; omega
  show (true && hSstl (1 <<< 96) != 0 && true && true && decide (hSstl (1 <<< 96) * 1024 < clk * 5 / 3 - 0)) = true
  rw [decide_eq_true late, limit]
  rfl

theorem quietAt_overrunAt (clk d : Nat) : (overrunAt clk d).cur.quietAt - (overrunAt clk d).cur.ccy = d := by
  show max 0 (max d (max 0 0)) - 0 = d
  omega

/-- Where the die holds an old value of the word that delegates the traps of context 0, and memory holds 0, an overrun goes to the
supervisor if the old value is used, and else to the machine level. -/
theorem trapTarget_of_held {s : State} (hc : s.cur.status = 0) (hb : s.mg.ctxbase = 0) (hm : s.mem = [])
    (hh : s.held = [⟨56, BitVec.allOnes 64, 0, 0, 0⟩]) :
    s.trapTarget cSUPERSTEP_OVERRUN false = if Config.usesOld s.clk 56 then 1 else 3 := by
  have ctx : s.cur.ctx = 0 := by rw [LCore.ctx, hc]; rfl
  have pl : s.cur.pl = 0 := by rw [LCore.pl, hc]; rfl
  have phys : s.physWord 56 = 0 := by rw [State.physWord, hm]; rfl
  have word : s.ctxWord 0 7 = if Config.usesOld s.clk 56 then BitVec.allOnes 64 else 0 := by
    rw [State.ctxWord, State.ctxWordAt, State.tableWord, hb, hh]
    show (if BitVec.allOnes 64 ≠ s.physWord 56 && Config.usesOld s.clk 56 then BitVec.allOnes 64 else s.physWord 56) = _
    rw [phys]
    rfl
  unfold State.trapTarget
  rw [pl, ctx, if_neg (by decide), if_neg Bool.false_ne_true, word]
  cases Config.usesOld s.clk 56 <;> rfl

/-- An overrun is entered at the level that the context's entry names once the coprocessor is quiet. -/
theorem pl_takeOverrun_overrunAt (clk d : Nat) :
    (overrunAt clk d).takeOverrun.cur.pl = if Config.usesOld (clk + d) 56 then 1 else 3 := by
  have taken := takeOverrun_drained (s := overrunAt clk d) rfl rfl rfl rfl
  rw [quietAt_overrunAt] at taken
  rw [taken]
  have entered := trapTaken_enterTrap (late := none) (int := false)
    (s := ((overrunAt clk d).modCur LCore.overran).later (clk + d) (overrunAt clk d).cur.quietAt)
    (e := ⟨cSUPERSTEP_OVERRUN, (overrunAt clk d).cur.ssc, BitVec.ofNat 64 (hSstl ((overrunAt clk d).gang (overrunAt clk d).cur.gang).hdr)⟩)
    fun h => absurd h (show cSUPERSTEP_OVERRUN ≠ cFEATURE_ABSENT by decide)
  exact entered.2.1.trans (trapTarget_of_held rfl rfl rfl rfl)

/-- The statement O54 makes the choice for the table word at address 56 the same at every cycle from 615 on, the first at which a limit of 1024
ticks can have passed: the overrun of `overrunAt` is entered at the level of the word as it reads `d` cycles later, and O54 has it entered at
the level of the word as it reads now. -/
theorem usesOld_steady_of_schedulingEvents (h : Obligations.SchedulingEvents) {clk : Nat} (d : Nat) (hclk : 615 ≤ clk) :
    Config.usesOld (clk + d) 56 = Config.usesOld clk 56 := by
  obtain ⟨-, -, -, -, -, -, -, -, -, overrun⟩ := h (overrunAt clk d) LCore.cleared ⟨0, 0, 0, 0, 0, [], [], [], [], []⟩ ⟨0, [], [], []⟩
    ⟨0, 0, 0, 0, 0, 0, false, false⟩ []
  obtain ⟨t, ht, -, before, -⟩ := overrun (overrunDue_overrunAt d hclk) rfl rfl rfl rfl
  rw [exec_superstepOverrun, overrunDue_overrunAt d hclk, if_pos rfl] at ht
  cases ht
  have levels := (pl_takeOverrun_overrunAt clk d).symm.trans (before.trans (trapTarget_of_held rfl rfl rfl rfl))
  change _ = if Config.usesOld clk 56 then (1 : BitVec 2) else 3 at levels
  revert levels
  cases Config.usesOld (clk + d) 56 <;> cases Config.usesOld clk 56 <;> decide

end Sys2Proof.Machine

namespace Sys2Proof.Machine

/-! Objects in pads and operands of the memory form (R23, R24, R48, R67, R185). -/

/-! ### Pointers and objects in pads (R24, R25) -/

theorem checkPtr_null (s : State) : checkPtr 0 s = .error ⟨cOBJ_NULL, 0, 0⟩ s := by
  unfold checkPtr
  rw [if_pos rfl]
  rfl

theorem checkPtr_malformed {p : W64} {s : State} (h : p ≠ 0) (hm : ptrMalformed p = true) :
    checkPtr p s = .error ⟨cOBJ_MALFORMED, p, 0⟩ s := by
  unfold checkPtr
  rw [if_neg h, if_pos hm]
  rfl

theorem ptrAddr_aligned {p : W64} (h : ptrMalformed p = false) : ptrAddr p % 16 = 0 := by
  simp only [ptrMalformed, Bool.or_eq_false_iff, bne_eq_false_iff_eq] at h
  obtain ⟨⟨⟨⟨-, aligned⟩, -⟩, -⟩, -⟩ := h
  exact aligned

section
variable {s : State} {p : W64} (hb : s.badPads = []) (hm : ptrMalformed p = false) (hl : ptrLvl p ≤ 2)
  (ho : ptrLvl p = 2 → s.ownsDie = true)

include hl ho in
theorem locateN_pad (off n acc cnt : Nat) :
    locateN p off n acc cnt s = .ok (.pad (s.cur.padId (ptrLvl p)) (ptrAddr p + off)) s := by
  have owned : ¬(ptrLvl p = 2 ∧ s.ownsDie = false) := fun h => absurd (ho h.1) (by simp [h.2])
  unfold locateN
  rw [run_bind_ok (run_get s), if_pos hl, if_neg owned]
  rfl

include hb in
theorem locRead_pad (id : PadId) (off n : Nat) (va : W64) :
    locRead (.pad id off) n va s = .ok (Mem.readN (s.pad id).mem off n) s := by
  unfold locRead
  dsimp only
  rw [run_bind_ok (run_get s), padBad_none hb, if_neg Bool.false_ne_true]
  rfl

include hb hl ho in
/-- An access that lies within one piece of 64 KiB reads the pad. -/
theorem readObj_pad {off n : Nat} (acc : Nat) (hf : (ptrAddr p + off) % 65536 + n ≤ 65536) :
    readObj p off n acc s = .ok (Mem.readN (s.pad (s.cur.padId (ptrLvl p))).mem (ptrAddr p + off) n) s := by
  have whole : min n (65536 - (ptrAddr p + off) % 65536) = n := by omega
  unfold readObj readObjC
  rw [whole, run_bind_ok (locateN_pad hl ho ..), run_bind_ok (locRead_pad hb ..), if_neg (lt_irrefl n)]
  rfl

include hb hm hl ho in
theorem readHdr_pad : readHdr p s = .ok (s.hdrAt p) s := by
  have aligned := ptrAddr_aligned hm
  unfold readHdr
  rw [run_bind_ok (readObj_pad hb hl ho _ (by omega))]
  rfl

include hb hm hl ho in
theorem readHdr1_pad : readHdr1 p s = .ok ((s.pad (s.cur.padId (ptrLvl p))).word (ptrAddr p + 8)) s := by
  have aligned := ptrAddr_aligned hm
  unfold readHdr1
  rw [run_bind_ok (readObj_pad hb hl ho _ (by omega))]
  rfl

include hl in
/-- The contexts of objects in pads are not checked (R290). -/
theorem ctxCheck_pad (w0 : W64) : ctxCheck p w0 s = .ok () s := by
  unfold ctxCheck
  rw [run_bind_ok (run_get s), if_neg (by omega), if_neg (by omega)]
  rfl

end

/-! ### The touch of an object in a pad (R67, R185) -/

/-- A touch of an object whose header has a reserved kind traps (R25). -/
theorem touch_reservedKind {s : State} {r : BitVec 4} (h : s.padded r) (hz : (s.cur.getP r).ptr ≠ 0)
    (hm : ptrMalformed (s.cur.getP r).ptr = false) (hk : 4 ≤ hdrKind (s.hdrOf r)) :
    touch r s = .error ⟨cOBJ_MALFORMED, (s.cur.getP r).ptr, 0⟩ s := by
  obtain ⟨hb, hl, ho⟩ := h
  unfold touch
  rw [run_bind_ok (run_rdP r s), run_bind_ok (run_checkPtr hz hm), run_bind_ok (readHdr_pad hb hm hl ho), if_pos (by exact hk)]
  rfl

theorem touched_copy {w0 : W64} (h : hdrC w0 = true) (p : W64) (c : LCore) : c.touched w0 p =
    { c with cidx := c.cidx.filter (fun e => e.2 == p) ++ c.cidx.filter (fun e => e.2 != p) } := by
  rw [LCore.touched, if_pos h]

theorem touched_noCopy {w0 : W64} (h : hdrC w0 = false) (p : W64) (c : LCore) : c.touched w0 p = c := by
  rw [LCore.touched, if_neg (by simp [h])]

/-- A touch of an object that stays where it is: a copy becomes the one touched last. -/
theorem touch_inPlace {s : State} {r : BitVec 4} (h : s.inPlace r) :
    touch r s = .ok (s.hdrOf r) (s.modCur (LCore.touched (s.hdrOf r) (s.cur.getP r).ptr)) := by
  obtain ⟨⟨hb, hz, hm, hl, ho, hk⟩, stays⟩ := h
  have header : readHdr (s.cur.getP r).ptr s = .ok (s.hdrOf r) s := readHdr_pad hb hm hl ho
  change hdrKind (s.hdrOf r) < 4 at hk
  unfold touch
  rw [run_bind_ok (run_rdP r s), run_bind_ok (run_checkPtr hz hm), run_bind_ok header, if_neg (Nat.not_le.mpr hk)]
  beta_reduce
  rw [run_bind_ok (ctxCheck_pad hl _)]
  by_cases copy : hdrC (s.hdrOf r) = true
  · rw [if_pos ⟨copy, hl⟩, show LCore.touched (s.hdrOf r) (s.cur.getP r).ptr = _ from funext (touched_copy copy _)]
    rfl
  have same : s.modCur (LCore.touched (s.hdrOf r) (s.cur.getP r).ptr) = s := by
    rw [State.modCur, touched_noCopy (by simpa using copy)]
  rw [if_neg fun h => copy h.1, same]
  by_cases scope : hdrKind (s.hdrOf r) = 2
  · rw [if_pos scope]
    rfl
  rw [if_neg scope, run_bind_ok (run_get s)]
  cases level : s.copyLevel (s.cur.getP r).len.toNat with
  | none => rfl
  | some tgt =>
    have near : ptrLvl (s.cur.getP r).ptr ≤ tgt := by
      rcases stays with h | h | h
      · exact absurd h copy
      · exact absurd h scope
      · exact h tgt level
    dsimp only
    rw [if_pos near]
    rfl

/-! ### The memory form (R48) -/

theorem joined_eq_offsetOf (c : LCore) {n : Nat} (o : BitVec n) : joined c o = c.offsetOf o := by
  unfold joined LCore.offsetOf
  cases c.pfx <;> rfl

section
variable {s : State} {p : BitVec 4} {m : BitVec 2} {o : BitVec 11} {n : Nat}

theorem memOperand_null (hz : (s.cur.getP p).ptr = 0) : memOperand p m o n s = .error ⟨cOBJ_NULL, 0, 0⟩ s := by
  unfold memOperand
  rw [run_bind_ok (run_cur s)]
  exact run_bind_error (by rw [hz]; exact checkPtr_null s)

theorem memOperand_malformed (hz : (s.cur.getP p).ptr ≠ 0) (hm : ptrMalformed (s.cur.getP p).ptr = true) :
    memOperand p m o n s = .error ⟨cOBJ_MALFORMED, (s.cur.getP p).ptr, 0⟩ s := by
  unfold memOperand
  rw [run_bind_ok (run_cur s)]
  exact run_bind_error (checkPtr_malformed hz hm)

variable (hz : (s.cur.getP p).ptr ≠ 0) (hm : ptrMalformed (s.cur.getP p).ptr = false)
include hz hm

theorem memOperand_outside (ho : memOffset s.cur p m o n < 0 ∨ ((s.cur.getP p).len.toNat : Int) < memOffset s.cur p m o n + n) :
    memOperand p m o n s =
      .error ⟨cOBJ_BOUND, BitVec.ofInt 64 (memOffset s.cur p m o n), (s.cur.getP p).len.setWidth 64⟩ s := by
  unfold memOperand
  rw [run_bind_ok (run_cur s), run_bind_ok (run_checkPtr hz hm)]
  dsimp only
  rw [if_pos ho]
  rfl

/-- An operand inside its object, whose post-increment does not overflow, is as its touch leaves it. -/
theorem memOperand_inside (h0 : 0 ≤ memOffset s.cur p m o n) (hn : memOffset s.cur p m o n + n ≤ (s.cur.getP p).len.toNat)
    (hi : m = 1 → (s.cur.getP p).cur.toNat + n < 2 ^ 32) :
    memOperand p m o n s = (do
      let w0 ← touch p
      return ((memOffset s.cur p m o n).toNat, w0) : Ex (Nat × W64)) s := by
  unfold memOperand
  rw [run_bind_ok (run_cur s), run_bind_ok (run_checkPtr hz hm)]
  dsimp only
  rw [if_neg (by omega), if_neg fun h => absurd (hi h.1) (Nat.not_lt.mpr h.2)]

end

end Sys2Proof.Machine

namespace Sys2Proof.Machine

/-- Settles O14: the checks of `memOperand` one after the other, then the touch of an object that stays in its place. -/
theorem operandForms : Obligations.OperandForms := by
  unfold Obligations.OperandForms
  intro s p m o n
  have offset : memOffset s.cur p m o n = if m = 0 then (joinedNat s.cur o * n : Int) else if m = 1 then ((s.cur.getP p).cur.toNat : Int)
      else if m = 2 then ((s.cur.getX (o.extractLsb' 0 5)).toNat * n : Int)
      else (s.cur.getP p).cur.toNat + s.cur.offsetOf o * n := by
    rw [memOffset, joined_eq_offsetOf]
  extract_lets pr off
  rw [show off = memOffset s.cur p m o n from offset.symm]
  refine ⟨memOperand_null, memOperand_malformed, memOperand_outside, fun hp hz hm h0 hn hi hk => ?_, fun hp h0 hn hi => ?_⟩
  · rw [memOperand_inside hz hm h0 hn hi]
    exact run_bind_error (touch_reservedKind hp hz hm hk)
  · obtain ⟨-, hz, hm, -⟩ := hp.1
    rw [memOperand_inside hz hm h0 hn hi]
    exact run_bind_ok (touch_inPlace hp)

end Sys2Proof.Machine

namespace Sys2Proof.Machine

/-! Special registers (R31 to R33, R36 to R42, R302). -/

/-! ### A drain with nothing outstanding (R42, R333) -/

theorem nextPost_calm {c : LCore} (h : c.posts = [] ∨ c.handler ≠ 0) : c.nextPost = c := by
  unfold LCore.nextPost
  split
  · rfl
  next p l posts =>
    have handler : c.handler ≠ 0 := h.resolve_left (by simp [posts])
    rw [if_neg fun g => handler g.1]

theorem calm_iff {c : LCore} :
    c.calm = true ↔ c.pend = [] ∧ c.loads = [] ∧ c.late = none ∧ (c.posts = [] ∨ c.handler ≠ 0) := by
  simp [LCore.calm, and_assoc]

/-- A drain that has nothing to wait for only lets time pass. -/
theorem drain_calm {s : State} (h : s.cur.calm = true) :
    drain s = .ok () (s.later (s.clk + (s.cur.quietAt - s.cur.ccy)) s.cur.quietAt) := by
  obtain ⟨pend, loads, late, posts⟩ := calm_iff.mp h
  have quiet := quiesce_drained loads pend (nextPost_calm posts)
  have noLate : (s.later (s.clk + (s.cur.quietAt - s.cur.ccy)) s.cur.quietAt).cur.late = none := late
  unfold drain
  rw [run_bind_ok (run_modify ..), quiet, run_bind_ok (run_get _), noLate]
  rfl

/-- What holds for registers of one kind asks nothing of another register. -/
theorem notAsked {b : Bool} {q : Prop} (h : b = false) : b = true → q := fun e => absurd e (ne_true_of_eq_false h)

/-- A word that waits for the coprocessor where it must: where a drain has nothing to wait for, only time passes. -/
theorem wait_calm {s : State} {w : Bool} {β : Type} (k : Ex β) (h : w = true → s.cur.calm = true) :
    ∃ clk ccy, (if w then drain >>= fun _ => k else k) s = k (s.later clk ccy) ∧ (w = false → s.later clk ccy = s) := by
  cases w with
  | false => exact ⟨s.clk, s.cur.ccy, rfl, fun _ => rfl⟩
  | true => exact ⟨_, _, run_bind_ok (drain_calm (h rfl)), fun e => absurd e (by decide)⟩

/-- The check of a register that needs supervisor privilege (R31, R32). -/
theorem privilege_held (c : LCore) (r : Bool) (h : r = true → c.pl ≠ 0) : ¬(r && c.pl == 0) = true := by
  simpa using h

/-! ### `rds` (R31, R32, R302) -/

theorem exec_rds (d : BitVec 5) (n : BitVec 12) (s : State) : exec (.rds d n) s = execRds d n s := by rfl

theorem wrote_later (s : State) (clk ccy : Nat) (d : BitVec 5) (v : W64) (t : Timing) :
    Wrote s d v (((s.later clk ccy).modCur (fun c => c.setX d v)).finish .seq t) := by
  refine ⟨fun r => ?_, (rfl)⟩
  rw [← getX_setX]
  apply getX_congr
  simp [State.later]

/-- The time of a read does not matter to the registers that it waits for. -/
theorem special_later {s : State} {n : Nat} (clk ccy : Nat) (h : waitsForCop n = true) :
    (s.later clk ccy).special n = s.special n := by
  simp only [waitsForCop, Bool.or_eq_true, beq_iff_eq] at h
  rcases h with (((rfl | rfl) | rfl) | rfl) | rfl <;> rfl

theorem bankRegister_iff {n : Nat} : bankRegister n = true ↔ 0x040 ≤ n ∧ n ≤ 0x044 := by
  simp [bankRegister]

theorem special_bankRegister {s : State} {n : Nat} (h : bankRegister n = true) : (s.special n).isSome = true := by
  obtain ⟨lo, hi⟩ := bankRegister_iff.mp h
  interval_cases n <;> rfl

/-- A number that the table lacks names no register. -/
theorem special_none {s : State} {n : BitVec 12} (h : n ∉ ([0x000, 0x001, 0x002, 0x010, 0x011, 0x012, 0x013, 0x014, 0x015, 0x016,
    0x017, 0x020, 0x021, 0x030, 0x031, 0x032, 0x033, 0x034, 0x035, 0x036, 0x037, 0x040, 0x041, 0x042, 0x043, 0x044, 0x050, 0x051, 0x052,
    0x053, 0x060, 0x061] : List (BitVec 12))) : s.special n.toNat = none := by
  simp [BitVec.toNat_eq] at h
  have feat : ¬(0x030 ≤ n.toNat ∧ n.toNat ≤ 0x037) := by omega
  simp [State.special, h, feat]

section
variable {s : State} {d : BitVec 5} {n : BitVec 12} (hp : s.passes (.rds d n) = true)
include hp

/-- A register that the level may read, and that need not wait or has nothing to wait for, is read. -/
theorem rds_reads {v : W64} (hv : (s.awaited [d]).special n.toNat = some v) (hb : bankRegister n.toNat = true → s.cur.pl ≠ 0)
    (hc : waitsForCop n.toNat = true → s.cur.calm = true) : Writes s (.rds d n) d v := by
  obtain ⟨clk, ccy, waited, still⟩ := wait_calm (s := s.awaited [d]) (w := waitsForCop n.toNat) (do
    let s ← get
    wrX d ((s.special n.toNat).getD 0)
    return Flow.seq) hc
  have kept : ((s.awaited [d]).later clk ccy).special n.toNat = some v := by
    cases waits : waitsForCop n.toNat with
    | false => rw [still waits, hv]
    | true => rw [special_later _ _ waits, hv]
  rw [Writes, exec_rds, execRds, runWord_ok (s' := ((s.awaited [d]).later clk ccy).modCur (fun c => c.setX d v)) (fl := .seq) hp]
  · exact ⟨_, rfl, wrote_later s clk ccy d v _⟩
  rw [run_bind_ok (run_get _), hv, if_neg (by simp)]
  beta_reduce
  rw [run_bind_ok (run_cur _), if_neg (privilege_held (s.awaited [d]).cur _ hb)]
  refine waited.trans ?_
  rw [run_bind_ok (run_get _), kept]
  rfl

theorem rds_illegal (hn : (s.awaited [d]).special n.toNat = none) :
    exec (.rds d n) s = .next ((s.awaited [d]).takeTrap ⟨cILLEGAL, (wordOf (.rds d n)).setWidth 64, 0⟩) := by
  rw [exec_rds, execRds, runWord_traps hp]
  rw [run_bind_ok (run_get _), hn]
  rfl

theorem rds_privilege (hb : bankRegister n.toNat = true) (hl : s.cur.pl = 0) :
    exec (.rds d n) s = .next ((s.awaited [d]).takeTrap ⟨cPRIVILEGE, (wordOf (.rds d n)).setWidth 64, 0⟩) := by
  have named := special_bankRegister (s := s.awaited [d]) hb
  have user : (bankRegister n.toNat && (s.awaited [d]).cur.pl == 0) = true :=
    Bool.and_eq_true_iff.mpr ⟨hb, beq_iff_eq.mpr hl⟩
  rw [exec_rds, execRds, runWord_traps hp]
  rw [run_bind_ok (run_get _), if_neg (by simpa [Option.isSome_iff_ne_none] using named)]
  beta_reduce
  rw [run_bind_ok (run_cur _), if_pos user]
  rfl

end

/-! ### The fields that `wrs` writes (R31, R36) -/

theorem mem_tagsOf {m : W64} {k : BitVec 6} : k ∈ tagsOf m ↔ m.getLsbD k.toNat = true := by
  unfold tagsOf
  rw [List.mem_map]
  constructor
  · rintro ⟨i, hi, rfl⟩
    obtain ⟨lt, bit⟩ := List.mem_filter.mp hi
    rwa [BitVec.toNat_ofNat, Nat.mod_eq_of_lt (List.mem_range.mp lt)]
  · exact fun h => ⟨k.toNat, List.mem_filter.mpr ⟨List.mem_range.mpr k.isLt, h⟩, BitVec.ofNat_toNat ..⟩

theorem getTag_setTag (c : LCore) (t k : BitVec 6) (v : Tag) : (c.setTag t v).getTag k = if k = t then v else c.getTag k := by
  show (c.tags.set t.toNat v t.isLt)[k.toNat]'k.isLt = if k = t then v else c.tags[k.toNat]'k.isLt
  rw [get_set_eq]
  by_cases e : k = t
  · rw [if_pos (e ▸ rfl), if_pos e]
  · rw [if_neg (fun h => e (BitVec.eq_of_toNat_eq h.symm)), if_neg e]

/-- The tags of a logical core, with those of a list that are ready made idle. -/
def LCore.tagsCleared (c : LCore) (l : List (BitVec 6)) : Vector Tag 64 :=
  Vector.ofFn fun k => if BitVec.ofFin k ∈ l ∧ c.getTag (.ofFin k) = .ready then .idle else c.getTag (.ofFin k)

theorem foldl_clearTag (l : List (BitVec 6)) (c : LCore) :
    l.foldl (fun c t => if c.getTag t = .ready then c.setTag t .idle else c) c = { c with tags := c.tagsCleared l } := by
  induction l generalizing c with
  | nil =>
    have same : c.tagsCleared [] = c.tags := Vector.ext fun i hi => by
      simp [LCore.tagsCleared, LCore.getTag, Vector.get]
    rw [same]
    rfl
  | cons t l ih =>
    rw [List.foldl_cons, ih]
    by_cases ready : c.getTag t = .ready
    · have cleared : (c.setTag t .idle).tagsCleared l = c.tagsCleared (t :: l) := by
        refine congrArg Vector.ofFn (funext fun k => ?_)
        by_cases e : BitVec.ofFin k = t <;> simp [getTag_setTag, e, ready]
      rw [if_pos ready, cleared]
      rfl
    · have cleared : c.tagsCleared l = c.tagsCleared (t :: l) := by
        refine congrArg Vector.ofFn (funext fun k => ?_)
        by_cases e : BitVec.ofFin k = t <;> simp [e, ready]
      rw [if_neg ready, cleared]

theorem clearTags_eq (c : LCore) (m : W64) : c.clearTags m = { c with tags := c.tagsCleared (tagsOf m) } := foldl_clearTag _ c

theorem getTag_clearTags (c : LCore) (m : W64) (k : BitVec 6) :
    (c.clearTags m).getTag k = if m.getLsbD k.toNat ∧ c.getTag k = .ready then .idle else c.getTag k := by
  rw [clearTags_eq]
  show (c.tagsCleared (tagsOf m))[k.toNat] = _
  simp only [LCore.tagsCleared, Vector.getElem_ofFn, mem_tagsOf]
  rfl

theorem getLsbD_merge (old v m : W64) (k : Nat) :
    (merge old v m).getLsbD k = if m.getLsbD k then v.getLsbD k else old.getLsbD k := by
  by_cases hk : k < 64
  · rw [merge, BitVec.getLsbD_or, BitVec.getLsbD_and, BitVec.getLsbD_and, BitVec.getLsbD_not]
    cases m.getLsbD k <;> simp [hk]
  · simp [BitVec.getLsbD_of_ge, Nat.not_lt.mp hk]

/-- STATUS written: the QCOL bits written 1 are cleared; IE, PPL and PIE change above user level (R36). -/
theorem getLsbD_statusWrite (pl : BitVec 2) (old v : W64) {k : Nat} (hk : k < 64) : (statusWrite pl old v).getLsbD k =
    if 32 ≤ k ∧ k < 48 then (old.getLsbD k && !v.getLsbD k)
    else if pl ≠ 0 ∧ (k = 2 ∨ k = 4 ∨ k = 5 ∨ k = 7) then v.getLsbD k else old.getLsbD k := by
  have qcol : ∀ k < 64, (0x0000FFFF00000000 : W64).getLsbD k = decide (32 ≤ k ∧ k < 48) := by decide
  have fields : ∀ k < 64, (0xB4 : W64).getLsbD k = decide (k = 2 ∨ k = 4 ∨ k = 5 ∨ k = 7) := by decide
  have cleared : (old &&& ~~~(v &&& 0x0000FFFF00000000)).getLsbD k =
      if 32 ≤ k ∧ k < 48 then (old.getLsbD k && !v.getLsbD k) else old.getLsbD k := by
    rw [BitVec.getLsbD_and, BitVec.getLsbD_not, BitVec.getLsbD_and, qcol k hk]
    by_cases q : 32 ≤ k ∧ k < 48 <;> simp [q, hk]
  unfold statusWrite
  by_cases user : pl = 0
  · rw [if_pos user, cleared]
    simp [user]
  · rw [if_neg user, getLsbD_merge, fields k hk, cleared]
    by_cases f : k = 2 ∨ k = 4 ∨ k = 5 ∨ k = 7
    · rw [if_pos (by simpa using f), if_neg (by omega), if_pos ⟨user, f⟩]
    · rw [if_neg (by simpa using f)]
      simp [f]

/-! ### Reserved values (R32, R36, R37, R40) -/

/-- User software writes QCOL alone (R36). -/
theorem writeNeedsS_status {v : W64} : writeNeedsS 0x050 v = true ↔ v &&& 0xFFFF0000FFFFFFFF ≠ 0 := by
  simp [writeNeedsS, bankRegister]

theorem reservedValue_status {f : Bool} {v : W64} : reservedValue f 0x050 v = true ↔ bits v.toNat 5 4 = 2 := by
  simp [reservedValue]

theorem reservedValue_fmode {f : Bool} {v : W64} : reservedValue f 0x052 v = true ↔ (if f then 5 else 4) ≤ bits v.toNat 2 0 := by
  simp [reservedValue]

theorem reservedValue_astat {f : Bool} {v : W64} :
    reservedValue f 0x053 v = true ↔ ∃ k < 4, bits v.toNat (17 + 2 * k) (16 + 2 * k) = 3 := by
  rw [reservedValue, show ([0, 1, 2, 3] : List Nat) = List.range 4 from rfl]
  simp [List.any_eq_true]

/-! ### The values that ROOT takes (R33) -/

theorem rootValue_null (s : State) : rootValue 0 s = .ok 0 s := by rfl

theorem rootValue_malformed {v : W64} {s : State} (h : v ≠ 0) (hm : ptrMalformed v = true) :
    rootValue v s = .error ⟨cOBJ_MALFORMED, v, 0⟩ s := by
  unfold rootValue
  rw [if_neg h, if_pos hm]
  rfl

theorem rootValue_far {v : W64} {s : State} (h : v ≠ 0) (hm : ptrMalformed v = false) (hl : 3 ≤ ptrLvl v) :
    rootValue v s = .ok v s := by
  unfold rootValue
  rw [if_neg h, if_neg (by simp [hm]), if_neg (by omega)]
  rfl

/-- The null pointer, and a pointer to memory, is written as it is (R33). -/
theorem rootValue_uncopied {v : W64} {s : State} (h : v = 0 ∨ (ptrMalformed v = false ∧ 3 ≤ ptrLvl v)) : rootValue v s = .ok v s := by
  by_cases hz : v = 0
  · rw [hz, rootValue_null]
  · obtain ⟨hm, hl⟩ := h.resolve_left hz
    exact rootValue_far hz hm hl

/-- Of a copy in a pad the canonical object is written (R33, R211). -/
theorem rootValue_pad {v : W64} {s : State} (h : s.inPad v) : rootValue v s =
    .ok (if hdrC (s.hdrAt v) then (s.pad (s.cur.padId (ptrLvl v))).word (ptrAddr v + 8) else v) s := by
  obtain ⟨hb, hz, hm, hl, ho, -⟩ := h
  unfold rootValue
  rw [if_neg hz, if_neg (by simp [hm]), if_pos hl]
  beta_reduce
  rw [run_bind_ok (readHdr_pad hb hm hl ho)]
  unfold canonOf
  cases copy : hdrC (s.hdrAt v) with
  | false => rfl
  | true =>
    rw [if_pos (by simpa using hl), readHdr1_pad hb hm hl ho]
    rfl

/-! ### `wrs` (R31, R32, R302) -/

/-- The logical core in another cycle. -/
def LCore.atCycle (ccy : Nat) (c : LCore) : LCore := { c with ccy := ccy }

theorem later_eq (s : State) (clk ccy : Nat) : s.later clk ccy = { s with clk := clk, cur := s.cur.atCycle ccy } := rfl

/-- Of a body only what it does in the state at which it starts counts. -/
theorem runWord_congr {i : Instr} {t : Timing} {body body' : Ex Flow} {s : State} (h : s.passes i = true)
    (hb : body (s.awaited t.uses) = body' (s.awaited t.uses)) : runWord i t body s = runWord i t body' s := by
  cases r : body' (s.awaited t.uses) with
  | ok fl s' => rw [runWord_ok h (hb.trans r), runWord_ok h r]
  | error e s' => rw [runWord_trap h (hb.trans r), runWord_trap h r]

theorem Advanced.ended {s t : State} (h : Advanced s t) : Ended s t := by
  unfold Advanced at h
  unfold Ended
  rw [h]

theorem Ended.tags {u t : State} (h : Ended u t) : t.cur.tags = u.cur.tags := (congrArg (fun s => s.cur.tags) h :)
theorem Ended.status {u t : State} (h : Ended u t) : t.cur.status = u.cur.status := (congrArg (fun s => s.cur.status) h :)

theorem exec_wrs (a : BitVec 5) (n : BitVec 12) (s : State) : exec (.wrs a n) s = execWrs a n s := by rfl

theorem writable_bankRegister {n : Nat} (h : bankRegister n = true) : writable n = true := by
  simp [writable, h]

theorem writable_iff {n : BitVec 12} : writable n.toNat = true ↔
    n ∈ ([0x021, 0x040, 0x041, 0x042, 0x043, 0x044, 0x050, 0x051, 0x052, 0x053, 0x061] : List (BitVec 12)) := by
  simp [writable, BitVec.toNat_eq, bankRegister_iff]
  omega

section
variable {s : State} {a : BitVec 5} {n : BitVec 12} (hp : s.passes (.wrs a n) = true)
include hp

theorem wrs_notWritable (hw : writable n.toNat = false) :
    exec (.wrs a n) s = .next ((s.awaited [a]).takeTrap ⟨cILLEGAL, (wordOf (.wrs a n)).setWidth 64, 0⟩) := by
  rw [exec_wrs, execWrs, runWord_traps hp]
  rw [run_bind_ok (run_rdX a _), hw]
  rfl

variable (hw : writable n.toNat = true)
include hw

theorem wrs_privilege (hn : writeNeedsS n.toNat (s.cur.getX a) = true) (hl : s.cur.pl = 0) :
    exec (.wrs a n) s = .next ((s.awaited [a]).takeTrap ⟨cPRIVILEGE, (wordOf (.wrs a n)).setWidth 64, 0⟩) := by
  have user : (writeNeedsS n.toNat ((s.awaited [a]).cur.getX a) && (s.awaited [a]).cur.pl == 0) = true :=
    Bool.and_eq_true_iff.mpr ⟨hn, beq_iff_eq.mpr hl⟩
  rw [exec_wrs, execWrs, runWord_traps hp]
  rw [run_bind_ok (run_rdX a _), hw, if_neg (by decide)]
  beta_reduce
  rw [run_bind_ok (run_cur _), if_pos user]
  rfl

variable (hn : writeNeedsS n.toNat (s.cur.getX a) = true → s.cur.pl ≠ 0)
include hn

/-- Past the checks of its number and of the privilege. -/
theorem wrs_allowed : exec (.wrs a n) s = runWord (.wrs a n) ⟨[a], 0, 1, 1⟩ (do
    if reservedValue ((← get).feat.getLsbD 10) n.toNat (s.cur.getX a) then illegal (.wrs a n)
    if waitsForCop n.toNat then drain
    writeSpecial n.toNat (s.cur.getX a)
    return .seq) s := by
  rw [exec_wrs, execWrs]
  refine runWord_congr hp ?_
  rw [run_bind_ok (run_rdX a _), hw, if_neg (by decide)]
  beta_reduce
  rw [run_bind_ok (run_cur _), if_neg (privilege_held (s.awaited [a]).cur (writeNeedsS n.toNat ((s.awaited [a]).cur.getX a)) hn)]
  rfl

theorem wrs_reserved (hr : reservedValue (s.feat.getLsbD 10) n.toNat (s.cur.getX a) = true) :
    exec (.wrs a n) s = .next ((s.awaited [a]).takeTrap ⟨cILLEGAL, (wordOf (.wrs a n)).setWidth 64, 0⟩) := by
  rw [wrs_allowed hp hw hn, runWord_traps hp]
  rw [run_bind_ok (run_get _)]
  exact congrFun (if_pos hr) _

variable (hr : reservedValue (s.feat.getLsbD 10) n.toNat (s.cur.getX a) = false)
  (hc : waitsForCop n.toNat = true → s.cur.calm = true)
include hr hc

/-- After its checks a write runs as its last step, in a state in which only time has passed. -/
theorem wrs_checked : ∃ clk ccy, exec (.wrs a n) s = runWord (.wrs a n) ⟨[a], 0, 1, 1⟩ (fun w => (do
    writeSpecial n.toNat (s.cur.getX a)
    return Flow.seq : Ex Flow) (w.later clk ccy)) s ∧
      (waitsForCop n.toNat = false → (s.awaited [a]).later clk ccy = s.awaited [a]) := by
  obtain ⟨clk, ccy, waited, still⟩ := wait_calm (s := s.awaited [a]) (w := waitsForCop n.toNat) (do
    writeSpecial n.toNat (s.cur.getX a)
    return Flow.seq) hc
  refine ⟨clk, ccy, ?_, still⟩
  rw [wrs_allowed hp hw hn]
  refine runWord_congr hp ?_
  rw [run_bind_ok (run_get _)]
  exact (congrFun (if_neg (ne_true_of_eq_false hr)) _).trans waited

/-- A value that is allowed is written to its fields, and nothing else changes. -/
theorem wrs_ended {f : LCore → LCore} (hx : ∀ clk ccy, writeSpecial n.toNat (s.cur.getX a) (s.later clk ccy) =
    .ok () ((s.later clk ccy).modCur f)) (hf : ∀ ccy, f (s.cur.atCycle ccy) = (f s.cur).atCycle ccy) :
    ∃ t, exec (.wrs a n) s = .next t ∧ Ended (s.modCur f) t := by
  obtain ⟨clk, ccy, run, -⟩ := wrs_checked hp hw hn hr hc
  refine ⟨_, run.trans (runWord_ok hp (run_bind_ok (hx clk ccy))), ?_⟩
  have same : (s.later clk ccy).modCur f = (s.modCur f).later clk ccy := by
    rw [later_eq, State.modCur, hf]
    rfl
  rw [same]
  exact (advanced (s.modCur f) clk ccy (.inl rfl)).ended

/-- A write that traps in a register that need not wait has changed nothing. -/
theorem wrs_traps {e : Exn} (hf : waitsForCop n.toNat = false)
    (hx : writeSpecial n.toNat (s.cur.getX a) (s.awaited [a]) = .error e (s.awaited [a])) :
    exec (.wrs a n) s = .next ((s.awaited [a]).takeTrap e) := by
  obtain ⟨clk, ccy, run, still⟩ := wrs_checked hp hw hn hr hc
  exact run.trans (runWord_traps hp (by rw [show (s.awaited _).later clk ccy = _ from still hf]; exact run_bind_error hx))

end

/-- The bank of the level, changed (R31). -/
theorem setBank_bank (c : LCore) (f : Bank → Bank) :
    c.setBank (f c.bank) = if c.pl = 3 then { c with mbank := f c.mbank } else { c with sbank := f c.sbank } := by
  unfold LCore.setBank LCore.bank
  split <;> rfl

theorem wrs_bank {s : State} {a : BitVec 5} {n : BitVec 12} (f : Bank → Bank) (hp : s.passes (.wrs a n) = true)
    (hb : bankRegister n.toNat = true) (hl : s.cur.pl ≠ 0)
    (hx : ∀ w, writeSpecial n.toNat (s.cur.getX a) w = .ok () (w.modCur fun c => c.setBank (f c.bank))) :
    ∃ t, exec (.wrs a n) s = .next t ∧
      Ended (s.modCur fun c => if c.pl = 3 then { c with mbank := f c.mbank } else { c with sbank := f c.sbank }) t := by
  obtain ⟨lo, hi⟩ := bankRegister_iff.mp hb
  refine wrs_ended hp (writable_bankRegister hb) (fun _ => hl) ?_ (fun h => ?_) (fun clk ccy => ?_) fun ccy => ?_
  · simp [reservedValue]
    omega
  · simp [waitsForCop] at h
    omega
  · rw [hx, show (fun c : LCore => c.setBank (f c.bank)) = _ from funext fun c => setBank_bank c f]
  · show (if s.cur.pl = 3 then _ else _) = _
    split <;> rfl

/-- ROOT, in a register that need not wait (R33). -/
theorem wrs_root {s : State} {a : BitVec 5} {v : W64} (hp : s.passes (.wrs a 0x061) = true) (hl : s.cur.pl ≠ 0)
    (hv : ∀ clk ccy, rootValue (s.cur.getX a) (s.later clk ccy) = .ok v (s.later clk ccy)) :
    ∃ t, exec (.wrs a 0x061) s = .next t ∧ Ended (s.modCur fun c => { c with root := v }) t :=
  wrs_ended hp rfl (fun _ => hl) rfl (notAsked rfl) (fun clk ccy => run_bind_ok (hv clk ccy)) fun _ => rfl

/-- XRDY: the ready tags of the mask become idle (R31). -/
theorem wrs_xrdy {s : State} {a : BitVec 5} (hp : s.passes (.wrs a 0x021) = true) :
    ∃ t, exec (.wrs a 0x021) s = .next t ∧ Ended { s with cur := { s.cur with tags := t.cur.tags } } t ∧
      ∀ k, t.cur.getTag k = if (s.cur.getX a).getLsbD k.toNat ∧ s.cur.getTag k = .ready then .idle else s.cur.getTag k := by
  obtain ⟨t, run, ended⟩ := wrs_ended (f := fun c => c.clearTags (s.cur.getX a)) hp rfl (notAsked rfl) rfl (notAsked rfl)
    (fun _ _ => rfl) fun ccy => by rw [clearTags_eq, clearTags_eq]; rfl
  have tags : t.cur.tags = (s.cur.clearTags (s.cur.getX a)).tags := ended.tags
  refine ⟨t, run, ?_, fun k => ?_⟩
  · rw [tags, show { s.cur with tags := (s.cur.clearTags (s.cur.getX a)).tags } = s.cur.clearTags (s.cur.getX a) by rw [clearTags_eq]]
    exact ended
  · rw [← getTag_clearTags]
    exact congrArg (Vector.get · k.toFin) tags

/-- STATUS: its writable bits take those of the value (R36). -/
theorem wrs_status {s : State} {a : BitVec 5} (hp : s.passes (.wrs a 0x050) = true) (hr : bits (s.cur.getX a).toNat 5 4 ≠ 2)
    (hu : s.cur.pl = 0 → s.cur.getX a &&& 0xFFFF0000FFFFFFFF = 0) :
    ∃ t, exec (.wrs a 0x050) s = .next t ∧ Ended { s with cur := { s.cur with status := t.cur.status } } t ∧
      ∀ k, k < 64 → t.cur.status.getLsbD k =
        if 32 ≤ k ∧ k < 48 then (s.cur.status.getLsbD k && !(s.cur.getX a).getLsbD k)
        else if s.cur.pl ≠ 0 ∧ (k = 2 ∨ k = 4 ∨ k = 5 ∨ k = 7) then (s.cur.getX a).getLsbD k else s.cur.status.getLsbD k := by
  obtain ⟨t, run, ended⟩ := wrs_ended (f := fun c => { c with status := statusWrite c.pl c.status (s.cur.getX a) }) hp rfl
    (fun h hl => writeNeedsS_status.mp h (hu hl)) (Bool.eq_false_iff.mpr (mt reservedValue_status.mp hr)) (notAsked rfl)
    (fun _ _ => rfl) fun _ => rfl
  have status : t.cur.status = statusWrite s.cur.pl s.cur.status (s.cur.getX a) := ended.status
  refine ⟨t, run, ?_, fun k hk => ?_⟩
  · rw [status]
    exact ended
  · rw [status, getLsbD_statusWrite _ _ _ hk]

/-- Settles O46: `rds_reads` and `wrs_ended` for the registers of the table, and the checks that come before them for the traps. -/
theorem specialRegisters : Obligations.SpecialRegisters := by
  unfold Obligations.SpecialRegisters
  refine ⟨?_, ?_⟩
  · intro s d n v c b trap reads hp
    have held : c.bank = b := rfl
    refine ⟨fun h => ?_, fun k hk e hv => ?_, fun hl h => ?_, fun hc h => ?_, fun hl lo hi => ?_, fun hn => ?_⟩
    · simp only [List.mem_cons, Prod.mk.injEq, List.not_mem_nil, or_false] at h
      rcases h with ⟨rfl, rfl⟩ | ⟨rfl, rfl⟩ | ⟨rfl, rfl⟩ | ⟨rfl, rfl⟩ | ⟨rfl, rfl⟩ | ⟨rfl, rfl⟩ | ⟨rfl, rfl⟩ | ⟨rfl, rfl⟩ | ⟨rfl, rfl⟩ |
        ⟨rfl, rfl⟩ | ⟨rfl, rfl⟩ | ⟨rfl, rfl⟩ | ⟨rfl, rfl⟩ | ⟨rfl, rfl⟩ <;>
        exact rds_reads hp rfl (notAsked rfl) (notAsked rfl)
    · subst hv
      interval_cases k <;> subst e <;> exact rds_reads hp rfl (notAsked rfl) (notAsked rfl)
    · rw [← held] at h
      simp only [List.mem_cons, Prod.mk.injEq, List.not_mem_nil, or_false] at h
      rcases h with ⟨rfl, rfl⟩ | ⟨rfl, rfl⟩ | ⟨rfl, rfl⟩ | ⟨rfl, rfl⟩ | ⟨rfl, rfl⟩ <;>
        exact rds_reads hp rfl (fun _ => hl) (notAsked rfl)
    · simp only [List.mem_cons, Prod.mk.injEq, List.not_mem_nil, or_false] at h
      rcases h with ⟨rfl, rfl⟩ | ⟨rfl, rfl⟩ | ⟨rfl, rfl⟩ | ⟨rfl, rfl⟩ | ⟨rfl, rfl⟩ <;>
        exact rds_reads hp rfl (notAsked rfl) (fun _ => hc)
    · exact rds_privilege hp (bankRegister_iff.mpr ⟨lo, hi⟩) hl
    · exact rds_illegal hp (special_none hn)
  · intro s a n c v i sets bank trap hp
    refine ⟨fun e => ?_, fun hl => ⟨fun e => ?_, fun e => ?_, fun e => ?_, fun e => ?_, fun e => ?_⟩, fun e hr hu => ?_, fun hc e => ?_,
      fun hc hr e => ?_, fun hc hr e => ?_, fun hl hv e => ?_, fun hl hv _ e => ?_, fun hl e hz hm => ?_, fun h => ?_, fun hl h => ?_,
      fun hn => ?_⟩
    · subst e
      exact wrs_xrdy hp
    · subst e
      exact wrs_bank (fun b => { b with cause := v &&& 0xC00000000000003F }) hp rfl hl fun _ => rfl
    · subst e
      exact wrs_bank (fun b => { b with epc := v }) hp rfl hl fun _ => rfl
    · subst e
      exact wrs_bank (fun b => { b with tval := v }) hp rfl hl fun _ => rfl
    · subst e
      exact wrs_bank (fun b => { b with tval2 := v }) hp rfl hl fun _ => rfl
    · subst e
      exact wrs_bank (fun b => { b with cseq := v &&& 0xFFFFFFFF }) hp rfl hl fun _ => rfl
    · subst e
      exact wrs_status hp hr hu
    · subst e
      exact wrs_ended hp rfl (notAsked rfl) rfl (fun _ => hc) (fun _ _ => rfl) fun _ => rfl
    · subst e
      exact wrs_ended hp rfl (notAsked rfl) (Bool.eq_false_iff.mpr (mt reservedValue_fmode.mp (Nat.not_le.mpr hr))) (fun _ => hc)
        (fun _ _ => rfl) fun _ => rfl
    · subst e
      exact wrs_ended hp rfl (notAsked rfl) (Bool.eq_false_iff.mpr (mt reservedValue_astat.mp fun ⟨k, hk, e⟩ => hr k hk e)) (fun _ => hc)
        (fun _ _ => rfl) fun _ => rfl
    · subst e
      exact wrs_root hp hl fun clk ccy => rootValue_uncopied hv
    · subst e
      exact wrs_root hp hl fun clk ccy => rootValue_pad (s := s.later clk ccy) hv
    · subst e
      exact wrs_traps hp rfl (fun _ => hl) rfl (notAsked rfl) rfl (run_bind_error (rootValue_malformed hz hm))
    · rcases h with ⟨e, hl, hv⟩ | ⟨e, hv⟩ | ⟨e, hv⟩ <;> subst e
      · exact wrs_reserved hp rfl (fun _ => hl) (reservedValue_status.mpr hv)
      · exact wrs_reserved hp rfl (notAsked rfl) (reservedValue_fmode.mpr hv)
      · exact wrs_reserved hp rfl (notAsked rfl) (reservedValue_astat.mpr hv)
    · rcases h with ⟨lo, hi⟩ | e | ⟨e, hv⟩
      · have hb := bankRegister_iff.mpr ⟨lo, hi⟩
        exact wrs_privilege hp (writable_bankRegister hb) (by simp [writeNeedsS, hb]) hl
      · subst e
        exact wrs_privilege hp rfl rfl hl
      · subst e
        exact wrs_privilege hp rfl (writeNeedsS_status.mpr hv) hl
    · exact wrs_notWritable hp (by simpa using mt writable_iff.mp hn)

end Sys2Proof.Machine

namespace Sys2Proof.Laws.Encoding

set_option Elab.async false

/-! The words of instructions and the instructions of words (R46 to R60). -/

/-! ### The word of what a word decodes to -/

/-- Every instruction that a row gives has the number `n` as its word. -/
def EncodesTo (n : Nat) (o : Option Instr) : Prop := ∀ i, o = some i → encodeNat i = some n

theorem encodesTo_none (n : Nat) : EncodesTo n none := nofun

theorem encodesTo_some {n : Nat} {i : Instr} (h : encodeNat i = some n) : EncodesTo n (some i) := by
  rintro _ ⟨⟩; exact h

theorem encodesTo_ite {n : Nat} {c : Prop} [Decidable c] {i : Instr} {o : Option Instr} (others : EncodesTo n o)
    (this : c → encodeNat i = some n) : EncodesTo n (if c then some i else o) := by
  split
  · exact encodesTo_some (this ‹_›)
  · exact others

/-- A word is cut at the two ends of a field. -/
theorem mod_field (n lo k : Nat) : n % 2 ^ (lo + k) = n % 2 ^ lo + (field n lo k).toNat * 2 ^ lo := by
  rw [Nat.pow_add, Nat.mod_mul, Nat.mul_comm, field, BitVec.toNat_ofNat]

theorem encodesTo_op01 {n : Nat} (h : n / 33554432 = 0x01) : EncodesTo n (decodeOp01 n) := by
  have := mod_field n 20 5
  have := mod_field n 15 5
  have := mod_field n 10 5
  unfold decodeOp01
  repeat refine encodesTo_ite ?_ fun row => congrArg some ?_
  · exact encodesTo_none n
  all_goals omega

theorem encodesTo_op03 {n : Nat} (h : n / 33554432 = 0x03) : EncodesTo n (decodeOp03 n) := by
  have := mod_field n 20 5
  have := mod_field n 15 5
  have := mod_field n 0 12
  unfold decodeOp03
  repeat refine encodesTo_ite ?_ fun row => congrArg some ?_
  · exact encodesTo_none n
  all_goals omega

theorem encodesTo_op04 {n : Nat} (h : n / 33554432 = 0x04) : EncodesTo n (decodeOp04 n) := by
  have := mod_field n 20 5
  have := mod_field n 15 5
  have := mod_field n 6 6
  have := mod_field n 0 6
  unfold decodeOp04
  repeat refine encodesTo_ite ?_ fun row => congrArg some ?_
  · exact encodesTo_none n
  all_goals omega

theorem encodesTo_op05 {n : Nat} (h : n / 33554432 = 0x05) : EncodesTo n (decodeOp05 n) := by
  have := mod_field n 20 5
  have := mod_field n 0 20
  refine encodesTo_some (congrArg some ?_)
  omega

theorem encodesTo_op06 {n : Nat} (h : n / 33554432 = 0x06) : EncodesTo n (decodeOp06 n) := by
  have := mod_field n 20 5
  have := mod_field n 0 20
  refine encodesTo_some (congrArg some ?_)
  omega

theorem encodesTo_op10 {n : Nat} (h : n / 33554432 = 0x10) : EncodesTo n (decodeOp10 n) := by
  have := mod_field n 20 5
  have := mod_field n 15 5
  have := mod_field n 0 12
  unfold decodeOp10
  repeat refine encodesTo_ite ?_ fun row => congrArg some ?_
  · exact encodesTo_none n
  all_goals omega

theorem encodesTo_op11 {n : Nat} (h : n / 33554432 = 0x11) : EncodesTo n (decodeOp11 n) := by
  have := mod_field n 0 20
  unfold decodeOp11
  repeat refine encodesTo_ite ?_ fun row => congrArg some ?_
  · exact encodesTo_none n
  all_goals omega

theorem encodesTo_op12 {n : Nat} (h : n / 33554432 = 0x12) : EncodesTo n (decodeOp12 n) := by
  have := mod_field n 20 5
  have := mod_field n 0 20
  refine encodesTo_some (congrArg some ?_)
  omega

theorem encodesTo_op13 {n : Nat} (h : n / 33554432 = 0x13) : EncodesTo n (decodeOp13 n) := by
  have := mod_field n 20 5
  have := mod_field n 15 5
  have := mod_field n 15 4
  unfold decodeOp13
  repeat refine encodesTo_ite ?_ fun row => congrArg some ?_
  · exact encodesTo_none n
  all_goals omega

theorem encodesTo_op14 {n : Nat} (h : n / 33554432 = 0x14) : EncodesTo n (decodeOp14 n) := by
  have := mod_field n 20 5
  have := mod_field n 15 5
  have := mod_field n 4 8
  have := mod_field n 0 4
  unfold decodeOp14
  repeat refine encodesTo_ite ?_ fun row => congrArg some ?_
  · exact encodesTo_none n
  all_goals omega

theorem encodesTo_op15 {n : Nat} (h : n / 33554432 = 0x15) : EncodesTo n (decodeOp15 n) := by
  unfold decodeOp15
  repeat refine encodesTo_ite ?_ fun row => congrArg some ?_
  · exact encodesTo_none n
  all_goals omega

theorem encodesTo_op18 {n : Nat} (h : n / 33554432 = 0x18) : EncodesTo n (decodeOp18 n) := by
  have := mod_field n 20 5
  have := mod_field n 16 4
  have := mod_field n 14 2
  have := mod_field n 11 3
  have := mod_field n 0 11
  refine encodesTo_some (congrArg some ?_)
  omega

theorem encodesTo_op19 {n : Nat} (h : n / 33554432 = 0x19) : EncodesTo n (decodeOp19 n) := by
  have := mod_field n 20 5
  have := mod_field n 16 4
  have := mod_field n 14 2
  have := mod_field n 11 3
  have := mod_field n 0 11
  refine encodesTo_some (congrArg some ?_)
  omega

theorem encodesTo_op1A {n : Nat} (h : n / 33554432 = 0x1A) : EncodesTo n (decodeOp1A n) := by
  have := mod_field n 20 4
  have := mod_field n 16 4
  have := mod_field n 14 2
  have := mod_field n 0 11
  unfold decodeOp1A
  repeat refine encodesTo_ite ?_ fun row => congrArg some ?_
  · exact encodesTo_none n
  all_goals omega

theorem encodesTo_op1B {n : Nat} (h : n / 33554432 = 0x1B) : EncodesTo n (decodeOp1B n) := by
  have := mod_field n 20 4
  have := mod_field n 20 5
  have := mod_field n 15 5
  have := mod_field n 15 4
  have := mod_field n 10 5
  unfold decodeOp1B
  repeat refine encodesTo_ite ?_ fun row => congrArg some ?_
  · exact encodesTo_none n
  all_goals omega

theorem encodesTo_op1C {n : Nat} (h : n / 33554432 = 0x1C) : EncodesTo n (decodeOp1C n) := by
  have := mod_field n 20 4
  have := mod_field n 15 5
  have := mod_field n 9 3
  have := mod_field n 4 2
  have := mod_field n 1 4
  have := mod_field n 0 4
  unfold decodeOp1C
  repeat refine encodesTo_ite ?_ fun row => congrArg some ?_
  · exact encodesTo_none n
  all_goals omega

theorem encodesTo_op1D {n : Nat} (h : n / 33554432 = 0x1D) : EncodesTo n (decodeOp1D n) := by
  have := mod_field n 20 5
  have := mod_field n 16 4
  have := mod_field n 10 5
  have := mod_field n 6 4
  have := mod_field n 3 3
  have := mod_field n 1 2
  have := mod_field n 0 1
  unfold decodeOp1D
  repeat refine encodesTo_ite ?_ fun row => congrArg some ?_
  · exact encodesTo_none n
  all_goals omega

theorem encodesTo_op1E {n : Nat} (h : n / 33554432 = 0x1E) : EncodesTo n (decodeOp1E n) := by
  have := mod_field n 20 5
  have := mod_field n 16 4
  have := mod_field n 15 1
  have := mod_field n 10 5
  have := mod_field n 7 3
  have := mod_field n 6 1
  have := mod_field n 2 4
  have := mod_field n 0 2
  refine encodesTo_some (congrArg some ?_)
  omega

theorem encodesTo_op1F {n : Nat} (h : n / 33554432 = 0x1F) : EncodesTo n (decodeOp1F n) := by
  have := mod_field n 15 3
  have := mod_field n 10 3
  have := mod_field n 5 3
  have := mod_field n 1 4
  unfold decodeOp1F
  repeat refine encodesTo_ite ?_ fun row => congrArg some ?_
  · exact encodesTo_none n
  all_goals omega

theorem encodesTo_op20 {n : Nat} (h : n / 33554432 = 0x20) : EncodesTo n (decodeOp20 n) := by
  have := mod_field n 20 5
  have := mod_field n 15 5
  have := mod_field n 2 4
  unfold decodeOp20
  repeat refine encodesTo_ite ?_ fun row => congrArg some ?_
  · exact encodesTo_none n
  all_goals omega

theorem encodesTo_op21 {n : Nat} (h : n / 33554432 = 0x21) : EncodesTo n (decodeOp21 n) := by
  have := mod_field n 20 5
  have := mod_field n 15 5
  have := mod_field n 10 5
  have := mod_field n 7 3
  have := mod_field n 6 1
  have := mod_field n 2 4
  unfold decodeOp21
  repeat refine encodesTo_ite ?_ fun row => congrArg some ?_
  · exact encodesTo_none n
  all_goals omega

theorem encodesTo_op22 {n : Nat} (h : n / 33554432 = 0x22) : EncodesTo n (decodeOp22 n) := by
  have := mod_field n 20 5
  have := mod_field n 15 5
  have := mod_field n 10 5
  have := mod_field n 7 3
  have := mod_field n 6 1
  have := mod_field n 2 4
  unfold decodeOp22
  repeat refine encodesTo_ite ?_ fun row => congrArg some ?_
  · exact encodesTo_none n
  all_goals omega

theorem encodesTo_op23 {n : Nat} (h : n / 33554432 = 0x23) : EncodesTo n (decodeOp23 n) := by
  have := mod_field n 20 5
  have := mod_field n 15 5
  have := mod_field n 10 5
  have := mod_field n 7 3
  have := mod_field n 6 1
  have := mod_field n 2 4
  unfold decodeOp23
  repeat refine encodesTo_ite ?_ fun row => congrArg some ?_
  · exact encodesTo_none n
  all_goals omega

theorem encodesTo_op24 {n : Nat} (h : n / 33554432 = 0x24) : EncodesTo n (decodeOp24 n) := by
  have := mod_field n 20 5
  have := mod_field n 15 5
  have := mod_field n 10 5
  have := mod_field n 7 3
  have := mod_field n 6 1
  have := mod_field n 2 4
  unfold decodeOp24
  repeat refine encodesTo_ite ?_ fun row => congrArg some ?_
  · exact encodesTo_none n
  all_goals omega

theorem encodesTo_op25 {n : Nat} (h : n / 33554432 = 0x25) : EncodesTo n (decodeOp25 n) := by
  have := mod_field n 20 5
  have := mod_field n 15 5
  have := mod_field n 10 5
  have := mod_field n 7 3
  have := mod_field n 6 1
  have := mod_field n 2 4
  unfold decodeOp25
  repeat refine encodesTo_ite ?_ fun row => congrArg some ?_
  · exact encodesTo_none n
  all_goals omega

theorem encodesTo_op26 {n : Nat} (h : n / 33554432 = 0x26) : EncodesTo n (decodeOp26 n) := by
  have := mod_field n 20 5
  have := mod_field n 15 5
  have := mod_field n 10 5
  have := mod_field n 7 3
  have := mod_field n 6 1
  have := mod_field n 2 4
  unfold decodeOp26
  repeat refine encodesTo_ite ?_ fun row => congrArg some ?_
  · exact encodesTo_none n
  all_goals omega

theorem encodesTo_op27 {n : Nat} (h : n / 33554432 = 0x27) : EncodesTo n (decodeOp27 n) := by
  have := mod_field n 20 5
  have := mod_field n 15 5
  have := mod_field n 10 5
  have := mod_field n 7 3
  have := mod_field n 6 1
  have := mod_field n 2 4
  unfold decodeOp27
  repeat refine encodesTo_ite ?_ fun row => congrArg some ?_
  · exact encodesTo_none n
  all_goals omega

theorem encodesTo_op28 {n : Nat} (h : n / 33554432 = 0x28) : EncodesTo n (decodeOp28 n) := by
  have := mod_field n 20 5
  have := mod_field n 15 5
  have := mod_field n 10 5
  have := mod_field n 7 3
  have := mod_field n 6 1
  have := mod_field n 2 4
  unfold decodeOp28
  repeat refine encodesTo_ite ?_ fun row => congrArg some ?_
  · exact encodesTo_none n
  all_goals omega

theorem encodesTo_op29 {n : Nat} (h : n / 33554432 = 0x29) : EncodesTo n (decodeOp29 n) := by
  have := mod_field n 20 3
  have := mod_field n 15 5
  have := mod_field n 10 5
  have := mod_field n 7 3
  have := mod_field n 6 1
  have := mod_field n 2 4
  unfold decodeOp29
  repeat refine encodesTo_ite ?_ fun row => congrArg some ?_
  · exact encodesTo_none n
  all_goals omega

theorem encodesTo_op2A {n : Nat} (h : n / 33554432 = 0x2A) : EncodesTo n (decodeOp2A n) := by
  have := mod_field n 20 3
  have := mod_field n 15 5
  have := mod_field n 10 5
  have := mod_field n 7 3
  have := mod_field n 6 1
  have := mod_field n 2 4
  unfold decodeOp2A
  repeat refine encodesTo_ite ?_ fun row => congrArg some ?_
  · exact encodesTo_none n
  all_goals omega

theorem encodesTo_op2B {n : Nat} (h : n / 33554432 = 0x2B) : EncodesTo n (decodeOp2B n) := by
  have := mod_field n 20 5
  have := mod_field n 15 5
  have := mod_field n 10 5
  have := mod_field n 7 3
  have := mod_field n 6 1
  have := mod_field n 2 4
  unfold decodeOp2B
  repeat refine encodesTo_ite ?_ fun row => congrArg some ?_
  · exact encodesTo_none n
  all_goals omega

theorem encodesTo_op2C {n : Nat} (h : n / 33554432 = 0x2C) : EncodesTo n (decodeOp2C n) := by
  have := mod_field n 20 5
  have := mod_field n 15 5
  have := mod_field n 10 4
  have := mod_field n 7 3
  have := mod_field n 6 1
  have := mod_field n 2 4
  unfold decodeOp2C
  repeat refine encodesTo_ite ?_ fun row => congrArg some ?_
  · exact encodesTo_none n
  all_goals omega

theorem encodesTo_op2D {n : Nat} (h : n / 33554432 = 0x2D) : EncodesTo n (decodeOp2D n) := by
  have := mod_field n 20 5
  have := mod_field n 15 5
  have := mod_field n 10 5
  have := mod_field n 2 4
  unfold decodeOp2D
  repeat refine encodesTo_ite ?_ fun row => congrArg some ?_
  · exact encodesTo_none n
  all_goals omega

theorem encodesTo_op2E {n : Nat} (h : n / 33554432 = 0x2E) : EncodesTo n (decodeOp2E n) := by
  have := mod_field n 20 5
  have := mod_field n 15 5
  have := mod_field n 7 3
  have := mod_field n 6 1
  have := mod_field n 2 4
  unfold decodeOp2E
  repeat refine encodesTo_ite ?_ fun row => congrArg some ?_
  · exact encodesTo_none n
  all_goals omega

theorem encodesTo_op2F {n : Nat} (h : n / 33554432 = 0x2F) : EncodesTo n (decodeOp2F n) := by
  have := mod_field n 20 5
  have := mod_field n 15 5
  have := mod_field n 7 3
  have := mod_field n 6 1
  have := mod_field n 2 4
  unfold decodeOp2F
  repeat refine encodesTo_ite ?_ fun row => congrArg some ?_
  · exact encodesTo_none n
  all_goals omega

theorem encodesTo_op30 {n : Nat} (h : n / 33554432 = 0x30) : EncodesTo n (decodeOp30 n) := by
  have := mod_field n 20 5
  have := mod_field n 15 5
  have := mod_field n 10 5
  have := mod_field n 7 3
  have := mod_field n 6 1
  have := mod_field n 2 4
  unfold decodeOp30
  repeat refine encodesTo_ite ?_ fun row => congrArg some ?_
  · exact encodesTo_none n
  all_goals omega

theorem encodesTo_op31 {n : Nat} (h : n / 33554432 = 0x31) : EncodesTo n (decodeOp31 n) := by
  have := mod_field n 20 5
  have := mod_field n 15 5
  have := mod_field n 10 5
  have := mod_field n 7 3
  have := mod_field n 6 1
  have := mod_field n 2 4
  unfold decodeOp31
  repeat refine encodesTo_ite ?_ fun row => congrArg some ?_
  · exact encodesTo_none n
  all_goals omega

theorem encodesTo_op32 {n : Nat} (h : n / 33554432 = 0x32) : EncodesTo n (decodeOp32 n) := by
  have := mod_field n 20 5
  have := mod_field n 15 5
  have := mod_field n 7 3
  have := mod_field n 6 1
  have := mod_field n 2 4
  unfold decodeOp32
  repeat refine encodesTo_ite ?_ fun row => congrArg some ?_
  · exact encodesTo_none n
  all_goals omega

theorem encodesTo_op33 {n : Nat} (h : n / 33554432 = 0x33) : EncodesTo n (decodeOp33 n) := by
  have := mod_field n 20 5
  have := mod_field n 7 3
  have := mod_field n 6 1
  have := mod_field n 2 4
  unfold decodeOp33
  repeat refine encodesTo_ite ?_ fun row => congrArg some ?_
  · exact encodesTo_none n
  all_goals omega

theorem encodesTo_op34 {n : Nat} (h : n / 33554432 = 0x34) : EncodesTo n (decodeOp34 n) := by
  have := mod_field n 20 5
  have := mod_field n 15 5
  have := mod_field n 10 5
  have := mod_field n 7 3
  have := mod_field n 6 1
  have := mod_field n 2 4
  unfold decodeOp34
  repeat refine encodesTo_ite ?_ fun row => congrArg some ?_
  · exact encodesTo_none n
  all_goals omega

theorem encodesTo_op35 {n : Nat} (h : n / 33554432 = 0x35) : EncodesTo n (decodeOp35 n) := by
  have := mod_field n 20 5
  have := mod_field n 15 5
  have := mod_field n 10 5
  have := mod_field n 7 3
  have := mod_field n 6 1
  have := mod_field n 2 4
  unfold decodeOp35
  repeat refine encodesTo_ite ?_ fun row => congrArg some ?_
  · exact encodesTo_none n
  all_goals omega

theorem encodesTo_op36 {n : Nat} (h : n / 33554432 = 0x36) : EncodesTo n (decodeOp36 n) := by
  have := mod_field n 20 5
  have := mod_field n 16 4
  have := mod_field n 15 1
  have := mod_field n 10 5
  have := mod_field n 7 3
  have := mod_field n 6 1
  have := mod_field n 2 4
  unfold decodeOp36
  repeat refine encodesTo_ite ?_ fun row => congrArg some ?_
  · exact encodesTo_none n
  all_goals omega

theorem encodesTo_op37 {n : Nat} (h : n / 33554432 = 0x37) : EncodesTo n (decodeOp37 n) := by
  have := mod_field n 20 5
  have := mod_field n 16 4
  have := mod_field n 15 1
  have := mod_field n 10 5
  have := mod_field n 7 3
  have := mod_field n 6 1
  have := mod_field n 2 4
  unfold decodeOp37
  repeat refine encodesTo_ite ?_ fun row => congrArg some ?_
  · exact encodesTo_none n
  all_goals omega

theorem encodesTo_op38 {n : Nat} (h : n / 33554432 = 0x38) : EncodesTo n (decodeOp38 n) := by
  have := mod_field n 20 5
  have := mod_field n 15 5
  have := mod_field n 15 3
  have := mod_field n 7 3
  have := mod_field n 6 1
  have := mod_field n 2 4
  unfold decodeOp38
  repeat refine encodesTo_ite ?_ fun row => congrArg some ?_
  · exact encodesTo_none n
  all_goals omega

theorem encodesTo_op39 {n : Nat} (h : n / 33554432 = 0x39) : EncodesTo n (decodeOp39 n) := by
  have := mod_field n 20 3
  have := mod_field n 15 3
  have := mod_field n 10 3
  unfold decodeOp39
  repeat refine encodesTo_ite ?_ fun row => congrArg some ?_
  · exact encodesTo_none n
  all_goals omega

theorem encodesTo_op40 {n : Nat} (h : n / 33554432 = 0x40) : EncodesTo n (decodeOp40 n) := by
  have := mod_field n 23 2
  have := mod_field n 19 4
  have := mod_field n 15 4
  have := mod_field n 13 2
  have := mod_field n 7 4
  have := mod_field n 3 4
  unfold decodeOp40
  repeat refine encodesTo_ite ?_ fun row => congrArg some ?_
  · exact encodesTo_none n
  all_goals omega

theorem encodesTo_op41 {n : Nat} (h : n / 33554432 = 0x41) : EncodesTo n (decodeOp41 n) := by
  have := mod_field n 19 4
  have := mod_field n 0 5
  have := mod_field n 0 8
  unfold decodeOp41
  repeat refine encodesTo_ite ?_ fun row => congrArg some ?_
  · exact encodesTo_none n
  all_goals omega

theorem encodesTo_op42 {n : Nat} (h : n / 33554432 = 0x42) : EncodesTo n (decodeOp42 n) := by
  have := mod_field n 19 4
  have := mod_field n 0 8
  unfold decodeOp42
  repeat refine encodesTo_ite ?_ fun row => congrArg some ?_
  · exact encodesTo_none n
  all_goals omega

theorem encodesTo_op43 {n : Nat} (h : n / 33554432 = 0x43) : EncodesTo n (decodeOp43 n) := by
  have := mod_field n 23 2
  have := mod_field n 19 4
  have := mod_field n 15 8
  have := mod_field n 13 2
  have := mod_field n 11 4
  have := mod_field n 0 5
  unfold decodeOp43
  repeat refine encodesTo_ite ?_ fun row => congrArg some ?_
  · exact encodesTo_none n
  all_goals omega

theorem encodesTo_op44 {n : Nat} (h : n / 33554432 = 0x44) : EncodesTo n (decodeOp44 n) := by
  have := mod_field n 23 2
  have := mod_field n 19 4
  have := mod_field n 19 2
  have := mod_field n 15 2
  have := mod_field n 11 4
  have := mod_field n 0 5
  unfold decodeOp44
  repeat refine encodesTo_ite ?_ fun row => congrArg some ?_
  · exact encodesTo_none n
  all_goals omega

theorem encodesTo_op45 {n : Nat} (h : n / 33554432 = 0x45) : EncodesTo n (decodeOp45 n) := by
  have := mod_field n 23 2
  have := mod_field n 19 2
  have := mod_field n 15 2
  have := mod_field n 0 5
  unfold decodeOp45
  repeat refine encodesTo_ite ?_ fun row => congrArg some ?_
  · exact encodesTo_none n
  all_goals omega

theorem encodesTo_op4C {n : Nat} (h : n / 33554432 = 0x4C) : EncodesTo n (decodeOp4C n) := by
  have := mod_field n 20 5
  have := mod_field n 15 5
  have := mod_field n 10 5
  have := mod_field n 0 6
  unfold decodeOp4C
  repeat refine encodesTo_ite ?_ fun row => congrArg some ?_
  · exact encodesTo_none n
  all_goals omega

theorem encodesTo_op4D {n : Nat} (h : n / 33554432 = 0x4D) : EncodesTo n (decodeOp4D n) := by
  have := mod_field n 20 5
  have := mod_field n 15 5
  unfold decodeOp4D
  repeat refine encodesTo_ite ?_ fun row => congrArg some ?_
  · exact encodesTo_none n
  all_goals omega

theorem encodesTo_op4E {n : Nat} (h : n / 33554432 = 0x4E) : EncodesTo n (decodeOp4E n) := by
  have := mod_field n 20 3
  have := mod_field n 15 5
  have := mod_field n 10 5
  unfold decodeOp4E
  repeat refine encodesTo_ite ?_ fun row => congrArg some ?_
  · exact encodesTo_none n
  all_goals omega

theorem encodesTo_op50 {n : Nat} (h : n / 33554432 = 0x50) : EncodesTo n (decodeOp50 n) := by
  have := mod_field n 15 5
  have := mod_field n 10 5
  have := mod_field n 0 4
  unfold decodeOp50
  repeat refine encodesTo_ite ?_ fun row => congrArg some ?_
  · exact encodesTo_none n
  all_goals omega

theorem encodesTo_op51 {n : Nat} (h : n / 33554432 = 0x51) : EncodesTo n (decodeOp51 n) := by
  have := mod_field n 20 5
  have := mod_field n 15 5
  have := mod_field n 0 4
  unfold decodeOp51
  repeat refine encodesTo_ite ?_ fun row => congrArg some ?_
  · exact encodesTo_none n
  all_goals omega

theorem encodesTo_op52 {n : Nat} (h : n / 33554432 = 0x52) : EncodesTo n (decodeOp52 n) := by
  unfold decodeOp52
  repeat refine encodesTo_ite ?_ fun row => congrArg some ?_
  · exact encodesTo_none n
  all_goals omega

theorem encodesTo_op53 {n : Nat} (h : n / 33554432 = 0x53) : EncodesTo n (decodeOp53 n) := by
  have := mod_field n 20 5
  have := mod_field n 15 5
  have := mod_field n 0 2
  unfold decodeOp53
  repeat refine encodesTo_ite ?_ fun row => congrArg some ?_
  · exact encodesTo_none n
  all_goals omega

theorem encodesTo_op54 {n : Nat} (h : n / 33554432 = 0x54) : EncodesTo n (decodeOp54 n) := by
  have := mod_field n 20 4
  have := mod_field n 15 4
  have := mod_field n 10 4
  unfold decodeOp54
  repeat refine encodesTo_ite ?_ fun row => congrArg some ?_
  · exact encodesTo_none n
  all_goals omega

theorem encodesTo_op55 {n : Nat} (h : n / 33554432 = 0x55) : EncodesTo n (decodeOp55 n) := by
  have := mod_field n 20 5
  have := mod_field n 15 5
  have := mod_field n 10 4
  unfold decodeOp55
  repeat refine encodesTo_ite ?_ fun row => congrArg some ?_
  · exact encodesTo_none n
  all_goals omega

theorem encodesTo_op58 {n : Nat} (h : n / 33554432 = 0x58) : EncodesTo n (decodeOp58 n) := by
  have := mod_field n 20 5
  have := mod_field n 15 5
  have := mod_field n 0 12
  unfold decodeOp58
  repeat refine encodesTo_ite ?_ fun row => congrArg some ?_
  · exact encodesTo_none n
  all_goals omega

theorem encodesTo_op59 {n : Nat} (h : n / 33554432 = 0x59) : EncodesTo n (decodeOp59 n) := by
  have := mod_field n 0 12
  unfold decodeOp59
  repeat refine encodesTo_ite ?_ fun row => congrArg some ?_
  · exact encodesTo_none n
  all_goals omega

theorem encodesTo_op5A {n : Nat} (h : n / 33554432 = 0x5A) : EncodesTo n (decodeOp5A n) := by
  have := mod_field n 15 5
  have := mod_field n 10 5
  unfold decodeOp5A
  repeat refine encodesTo_ite ?_ fun row => congrArg some ?_
  · exact encodesTo_none n
  all_goals omega

theorem encodesTo_op5B {n : Nat} (h : n / 33554432 = 0x5B) : EncodesTo n (decodeOp5B n) := by
  unfold decodeOp5B
  repeat refine encodesTo_ite ?_ fun row => congrArg some ?_
  · exact encodesTo_none n
  all_goals omega

theorem encodesTo_op5C {n : Nat} (h : n / 33554432 = 0x5C) : EncodesTo n (decodeOp5C n) := by
  have := mod_field n 20 4
  unfold decodeOp5C
  repeat refine encodesTo_ite ?_ fun row => congrArg some ?_
  · exact encodesTo_none n
  all_goals omega

theorem encodesTo_op7E {n : Nat} (h : n / 33554432 = 0x7E) : EncodesTo n (decodeOp7E n) := by
  have := mod_field n 0 22
  unfold decodeOp7E
  repeat refine encodesTo_ite ?_ fun row => congrArg some ?_
  · exact encodesTo_none n
  all_goals omega

/-- The major opcode selects the rows, each of which keeps every bit of the word. -/
theorem encodesTo_decodeRow {n : Nat} (hn : n < 2 ^ 32) : EncodesTo n (decodeRow n) := by
  have op : n / 33554432 % 128 = n / 33554432 := by omega
  unfold decodeRow
  rw [op]
  split

  · exact encodesTo_op01 ‹_›
  · exact encodesTo_op03 ‹_›
  · exact encodesTo_op04 ‹_›
  · exact encodesTo_op05 ‹_›
  · exact encodesTo_op06 ‹_›
  · exact encodesTo_op10 ‹_›
  · exact encodesTo_op11 ‹_›
  · exact encodesTo_op12 ‹_›
  · exact encodesTo_op13 ‹_›
  · exact encodesTo_op14 ‹_›
  · exact encodesTo_op15 ‹_›
  · exact encodesTo_op18 ‹_›
  · exact encodesTo_op19 ‹_›
  · exact encodesTo_op1A ‹_›
  · exact encodesTo_op1B ‹_›
  · exact encodesTo_op1C ‹_›
  · exact encodesTo_op1D ‹_›
  · exact encodesTo_op1E ‹_›
  · exact encodesTo_op1F ‹_›
  · exact encodesTo_op20 ‹_›
  · exact encodesTo_op21 ‹_›
  · exact encodesTo_op22 ‹_›
  · exact encodesTo_op23 ‹_›
  · exact encodesTo_op24 ‹_›
  · exact encodesTo_op25 ‹_›
  · exact encodesTo_op26 ‹_›
  · exact encodesTo_op27 ‹_›
  · exact encodesTo_op28 ‹_›
  · exact encodesTo_op29 ‹_›
  · exact encodesTo_op2A ‹_›
  · exact encodesTo_op2B ‹_›
  · exact encodesTo_op2C ‹_›
  · exact encodesTo_op2D ‹_›
  · exact encodesTo_op2E ‹_›
  · exact encodesTo_op2F ‹_›
  · exact encodesTo_op30 ‹_›
  · exact encodesTo_op31 ‹_›
  · exact encodesTo_op32 ‹_›
  · exact encodesTo_op33 ‹_›
  · exact encodesTo_op34 ‹_›
  · exact encodesTo_op35 ‹_›
  · exact encodesTo_op36 ‹_›
  · exact encodesTo_op37 ‹_›
  · exact encodesTo_op38 ‹_›
  · exact encodesTo_op39 ‹_›
  · exact encodesTo_op40 ‹_›
  · exact encodesTo_op41 ‹_›
  · exact encodesTo_op42 ‹_›
  · exact encodesTo_op43 ‹_›
  · exact encodesTo_op44 ‹_›
  · exact encodesTo_op45 ‹_›
  · exact encodesTo_op4C ‹_›
  · exact encodesTo_op4D ‹_›
  · exact encodesTo_op4E ‹_›
  · exact encodesTo_op50 ‹_›
  · exact encodesTo_op51 ‹_›
  · exact encodesTo_op52 ‹_›
  · exact encodesTo_op53 ‹_›
  · exact encodesTo_op54 ‹_›
  · exact encodesTo_op55 ‹_›
  · exact encodesTo_op58 ‹_›
  · exact encodesTo_op59 ‹_›
  · exact encodesTo_op5A ‹_›
  · exact encodesTo_op5B ‹_›
  · exact encodesTo_op5C ‹_›
  · exact encodesTo_op7E ‹_›
  · exact encodesTo_none n

theorem encode_of_decode {w : W32} {i : Instr} (h : decode w = some i) : encode i = some w := by
  rw [encode, encodesTo_decodeRow w.isLt i h]
  exact congrArg some (BitVec.ofNat_toNat ..)

/-! ### The instruction of a word -/

theorem decode_of_encode : ∀ i, Statement i
  | .add .. => add _ _ _
  | .sub .. => sub _ _ _
  | .mul .. => mul _ _ _
  | .mulh .. => mulh _ _ _
  | .mulhz .. => mulhz _ _ _
  | .div .. => div _ _ _
  | .divz .. => divz _ _ _
  | .rem .. => rem _ _ _
  | .remz .. => remz _ _ _
  | .and .. => and _ _ _
  | .or .. => or _ _ _
  | .xor .. => xor _ _ _
  | .andn .. => andn _ _ _
  | .shl .. => shl _ _ _
  | .shr .. => shr _ _ _
  | .sar .. => sar _ _ _
  | .rol .. => rol _ _ _
  | .ror .. => ror _ _ _
  | .slt .. => slt _ _ _
  | .sltz .. => sltz _ _ _
  | .min .. => min _ _ _
  | .max .. => max _ _ _
  | .minz .. => minz _ _ _
  | .maxz .. => maxz _ _ _
  | .cmov .. => cmov _ _ _
  | .clz .. => clz _ _
  | .ctz .. => ctz _ _
  | .popc .. => popc _ _
  | .brev .. => brev _ _
  | .bswap .. => bswap _ _
  | .addi .. => addi _ _ _
  | .andi .. => andi _ _ _
  | .ori .. => ori _ _ _
  | .xori .. => xori _ _ _
  | .slti .. => slti _ _ _
  | .sltzi .. => sltzi _ _ _
  | .shli .. => shli _ _ _
  | .shri .. => shri _ _ _
  | .sari .. => sari _ _ _
  | .ext .. => ext _ _ _ _
  | .ins .. => ins _ _ _ _
  | .lup .. => lup _ _
  | .aupc .. => aupc _ _
  | .bEq .. => bEq _ _ _
  | .bNe .. => bNe _ _ _
  | .bLt .. => bLt _ _ _
  | .bGe .. => bGe _ _ _
  | .bLtz .. => bLtz _ _ _
  | .bGez .. => bGez _ _ _
  | .j .. => j _
  | .call .. => call _ _
  | .jr .. => jr _
  | .callr .. => callr _ _
  | .rep .. => rep _ _ _ _
  | .ld .. => ld _ _ _ _ _
  | .st .. => st _ _ _ _ _
  | .ldp .. => ldp _ _ _ _
  | .stp .. => stp _ _ _ _
  | .pmov .. => pmov _ _
  | .padj .. => padj _ _ _
  | .plen .. => plen _ _
  | .pslice .. => pslice _ _ _
  | .pfrom .. => pfrom _ _
  | .ptox .. => ptox _ _
  | .alloc .. => alloc _ _ _ _
  | .allocr .. => allocr _ _ _ _
  | .otouch .. => otouch _
  | .oacq .. => oacq _ _ _
  | .orel .. => orel _ _ _
  | .amo .. => amo _ _ _ _ _ _ _
  | .cas .. => cas _ _ _ _ _ _
  | .vamo .. => vamo _ _ _ _ _ _ _ _
  | .fence .. => fence _ _
  | .xfence .. => xfence _ _ _ _
  | .setvl .. => setvl _ _ _
  | .vadd .. => vadd _ _ _ _ _ _
  | .vsub .. => vsub _ _ _ _ _ _
  | .vmul .. => vmul _ _ _ _ _ _
  | .vmulh .. => vmulh _ _ _ _ _ _
  | .vmulhz .. => vmulhz _ _ _ _ _ _
  | .vfma .. => vfma _ _ _ _ _ _
  | .vfms .. => vfms _ _ _ _ _ _
  | .vfnma .. => vfnma _ _ _ _ _ _
  | .vfnms .. => vfnms _ _ _ _ _ _
  | .vfdiv .. => vfdiv _ _ _ _ _ _
  | .vfsqrt .. => vfsqrt _ _ _ _ _
  | .vmin .. => vmin _ _ _ _ _ _
  | .vmax .. => vmax _ _ _ _ _ _
  | .vminz .. => vminz _ _ _ _ _ _
  | .vmaxz .. => vmaxz _ _ _ _ _ _
  | .vfmin .. => vfmin _ _ _ _ _ _
  | .vfmax .. => vfmax _ _ _ _ _ _
  | .vand .. => vand _ _ _ _ _ _
  | .vor .. => vor _ _ _ _ _ _
  | .vxor .. => vxor _ _ _ _ _ _
  | .vandn .. => vandn _ _ _ _ _ _
  | .vshl .. => vshl _ _ _ _ _ _
  | .vshr .. => vshr _ _ _ _ _ _
  | .vsar .. => vsar _ _ _ _ _ _
  | .vcmpEq .. => vcmpEq _ _ _ _ _ _
  | .vcmpNe .. => vcmpNe _ _ _ _ _ _
  | .vcmpLt .. => vcmpLt _ _ _ _ _ _
  | .vcmpLe .. => vcmpLe _ _ _ _ _ _
  | .vfcmpEq .. => vfcmpEq _ _ _ _ _ _
  | .vfcmpLt .. => vfcmpLt _ _ _ _ _ _
  | .vfcmpLe .. => vfcmpLe _ _ _ _ _ _
  | .vfcmpUn .. => vfcmpUn _ _ _ _ _ _
  | .vsel .. => vsel _ _ _ _ _ _
  | .vcvt .. => vcvt _ _ _ _ _ _
  | .vcvtSat .. => vcvtSat _ _ _ _ _ _
  | .vquant .. => vquant _ _ _ _
  | .vredAdd .. => vredAdd _ _ _ _ _
  | .vredMin .. => vredMin _ _ _ _ _
  | .vredMax .. => vredMax _ _ _ _ _
  | .vredOr .. => vredOr _ _ _ _ _
  | .vscanAdd .. => vscanAdd _ _ _ _ _
  | .vscanMin .. => vscanMin _ _ _ _ _
  | .vscanMax .. => vscanMax _ _ _ _ _
  | .vscanOr .. => vscanOr _ _ _ _ _
  | .vperm .. => vperm _ _ _ _ _ _
  | .vslideUp .. => vslideUp _ _ _ _ _ _
  | .vslideDn .. => vslideDn _ _ _ _ _ _
  | .vbcast .. => vbcast _ _ _ _ _
  | .vext .. => vext _ _ _ _
  | .vins .. => vins _ _ _ _
  | .viota .. => viota _ _ _ _
  | .vcompress .. => vcompress _ _ _ _ _
  | .vexpand .. => vexpand _ _ _ _ _
  | .vpopc .. => vpopc _ _ _ _
  | .vfirst .. => vfirst _ _ _ _
  | .vtopk .. => vtopk _ _ _ _ _ _
  | .vxacc .. => vxacc _ _ _ _ _ _
  | .vxrnd .. => vxrnd _ _ _ _
  | .vld .. => vld _ _ _ _ _ _ _
  | .vlds .. => vlds _ _ _ _ _ _ _
  | .vst .. => vst _ _ _ _ _ _ _
  | .vgath .. => vgath _ _ _ _ _ _ _
  | .vscat .. => vscat _ _ _ _ _ _ _
  | .vmv .. => vmv _ _ _ _ _
  | .vmvStream .. => vmvStream _ _ _ _ _
  | .mlogAnd .. => mlogAnd _ _ _
  | .mlogOr .. => mlogOr _ _ _
  | .mlogXor .. => mlogXor _ _ _
  | .mlogAndn .. => mlogAndn _ _ _
  | .mma .. => mma _ _ _ _ _ _
  | .tclaim .. => tclaim _ _
  | .tfree .. => tfree _
  | .tload .. => tload _ _
  | .tstore .. => tstore _ _
  | .tzero .. => tzero _
  | .tidld .. => tidld _ _
  | .tidst .. => tidst _ _
  | .azero .. => azero _
  | .aload .. => aload _ _ _
  | .astore .. => astore _ _ _
  | .adrain .. => adrain _ _ _
  | .afill .. => afill _ _ _
  | .amode .. => amode _ _
  | .again .. => again _ _
  | .againPlain .. => againPlain _
  | .ascan .. => ascan _ _ _
  | .ascanK .. => ascanK _ _ _
  | .ascanG .. => ascanG _ _ _ _ _
  | .aapply .. => aapply _ _
  | .kload .. => kload _ _
  | .kstore .. => kstore _ _
  | .kcomb .. => kcomb _ _ _
  | .kzero .. => kzero _
  | .xfer .. => xfer _ _ _ _
  | .xgath .. => xgath _ _ _ _
  | .xprefTr .. => xprefTr _ _ _
  | .xprefMg .. => xprefMg _ _ _
  | .xprefTq .. => xprefTq _ _
  | .xwaitAll .. => xwaitAll _ _
  | .xwaitAny .. => xwaitAny _ _
  | .xfind .. => xfind _ _
  | .sbind .. => sbind _ _ _
  | .sclose .. => sclose _
  | .send .. => send _ _ _
  | .sendv .. => sendv _ _ _
  | .recv .. => recv _ _
  | .recvV .. => recvV _ _
  | .qclr .. => qclr _
  | .arrive .. => arrive _
  | .arriveRel .. => arriveRel _
  | .wait .. => wait _
  | .waitAcq .. => waitAcq _
  | .bvote .. => bvote _ _ _
  | .spawn .. => spawn _ _ _
  | .take .. => take _ _ _
  | .join .. => join _
  | .qpost .. => qpost _ _ _
  | .rds .. => rds _ _
  | .wrs .. => wrs _ _
  | .trap .. => trap _
  | .brk .. => brk _
  | .sfence .. => sfence _ _
  | .cxsave .. => cxsave _
  | .cxload .. => cxload _
  | .immx .. => immx _
  | .hint .. => hint _
  | .takeTrap .. => takeTrap _ _ _ _ _
  | .install .. => install _
  | .touchComplete .. => touchComplete _
  | .prefetchCopyIn .. => prefetchCopyIn _
  | .collect .. => collect _
  | .pageWalk .. => pageWalk _ _
  | .linkMessage .. => linkMessage _ _ _ _
  | .permitReturn .. => permitReturn _ _ _ _
  | .linkDown .. => linkDown _
  | .clockStretch .. => clockStretch _
  | .softError .. => softError _ _
  | .lineRetirement .. => lineRetirement _
  | .nop .. => nop _
  | .launch .. => launch _
  | .signal .. => signal _
  | .shrink .. => shrink _
  | .packetComplete .. => packetComplete _ _
  | .doorbell .. => doorbell _ _
  | .queueSkip .. => queueSkip _
  | .queueReset .. => queueReset _
  | .queueEnable .. => queueEnable _
  | .queueDisable .. => queueDisable _
  | .managementRegisterWrite .. => managementRegisterWrite _ _ _
  | .tabort .. => tabort _ _
  | .endTask .. => endTask _ _
  | .satchelFreeze .. => satchelFreeze _ _ _
  | .satchelCheckpoint .. => satchelCheckpoint _ _ _
  | .urgentPreemption .. => urgentPreemption _ _ _
  | .satchelRestore .. => satchelRestore _ _ _
  | .releaseInPlaceImage .. => releaseInPlaceImage _ _ _
  | .debugOff .. => debugOff _ _ _
  | .debugAtSsm .. => debugAtSsm _ _ _
  | .debugEveryBoundary .. => debugEveryBoundary _ _ _
  | .debugNextBoundary .. => debugNextBoundary _ _ _
  | .bkrel .. => bkrel _ _
  | .traceEnable .. => traceEnable _ _
  | .traceDisable .. => traceDisable _ _
  | .freeze .. => freeze _
  | .fwgo .. => fwgo _
  | .keyenr .. => keyenr _ _
  | .getMeasurements .. => getMeasurements _
  | .pageMoveStart .. => pageMoveStart _ _ _
  | .firmwareUpdate .. => firmwareUpdate _ _ _
  | .scrubbing .. => scrubbing _
  | .retire => retire
  | .xphase => xphase
  | .sstep => sstep
  | .eret => eret
  | .wfi => wfi
  | .cdrain => cdrain
  | .coprocessorIssue => coprocessorIssue
  | .destinationWrite => destinationWrite
  | .logicalCoreSwitch => logicalCoreSwitch
  | .depositArrive => depositArrive
  | .superstepBoundary => superstepBoundary
  | .superstepOverrun => superstepOverrun
  | .tileRowLand => tileRowLand
  | .engineTakeCopy => engineTakeCopy
  | .copyComplete => copyComplete
  | .copyFaultStop => copyFaultStop
  | .streamReadAhead => streamReadAhead
  | .demandCopyIn => demandCopyIn
  | .mergeApply => mergeApply
  | .releaseNotice => releaseNotice
  | .migrationComplete => migrationComplete
  | .counterHalve => counterHalve
  | .crossDieTimeout => crossDieTimeout
  | .lateResponse => lateResponse
  | .dependenceRecheck => dependenceRecheck
  | .priorityAging => priorityAging
  | .launchSeniority => launchSeniority
  | .traceHoldExpiry => traceHoldExpiry
  | .freezeInput => freezeInput
  | .testAccessReadout => testAccessReadout
  | .reset => reset
  | .recoveryImageVerified => recoveryImageVerified
  | .load => load
  | .unload => unload
  | .getVersion => getVersion
  | .getCapabilities => getCapabilities
  | .negotiateAlgorithms => negotiateAlgorithms
  | .getDigests => getDigests
  | .getCertificate => getCertificate
  | .challenge => challenge

end Sys2Proof.Laws.Encoding

namespace Sys2Proof.Laws.Encoding

/-- Settles O2: one lemma for each row that has a word, and one for each major opcode of the decoder. -/
theorem decodeAndEncodeAgree : Obligations.DecodeAndEncodeAgree :=
  ⟨decode_of_encode, fun _ _ => encode_of_decode⟩

/-- Settles O1, by running the decoder on each of the words. -/
theorem decodeWords : Obligations.DecodeWords := by
  unfold Obligations.DecodeWords
  decide

end Sys2Proof.Laws.Encoding

namespace Sys2Proof.Machine

set_option Elab.async false

/-! The checks of R60 and the step that meets a word. -/

/-! ### A word that the checks refuse (R60) -/

theorem checkWord_illegal {i : Instr} {s : State} (h : i.wf = false) :
    checkWord i s = .error ⟨cILLEGAL, (wordOf i).setWidth 64, 0⟩ s := by
  unfold checkWord
  rw [run_bind_ok (run_get s), h, Bool.not_false, if_pos rfl]
  rfl

theorem checkWord_featureAbsent {i : Instr} {s : State} {b : Nat} (h : i.wf = true) (hb : s.missing i = some b) :
    checkWord i s = .error ⟨cFEATURE_ABSENT, (wordOf i).setWidth 64, BitVec.ofNat 64 b⟩ s := by
  unfold checkWord
  simp only [run_bind_ok (run_get s), h, hb, Bool.not_true, Bool.false_eq_true, if_false]
  exact run_bind_error rfl

theorem checkWord_privilege {i : Instr} {s : State} (h : i.wf = true) (hm : s.missing i = none) (hp : s.cur.pl.toNat < i.priv) :
    checkWord i s = .error ⟨cPRIVILEGE, (wordOf i).setWidth 64, 0⟩ s := by
  unfold checkWord
  simp only [run_bind_ok (run_get s), h, hm, Bool.not_true, Bool.false_eq_true, if_false, if_pos hp]
  rfl

/-- A word that a check stops has done nothing that a trap would have to undo. -/
theorem runWord_refused {i : Instr} {t : Timing} {body : Ex Flow} {s : State} {e : Exn} (hq : s.cur.queued = false)
    (ho : s.cur.owing = false) (hc : checkWord i (s.awaited t.uses) = .error e (s.awaited t.uses)) :
    runWord i t body s = .next ((s.awaited t.uses).takeTrap e) := by
  have nothingQueued : (s.awaited t.uses).cur.queued = false := hq
  rw [runWord, stalled_of hq ho, if_neg Bool.false_ne_true]
  dsimp only
  rw [run_bind_error hc]
  dsimp only
  rw [State.trapFrom, nothingQueued, if_neg Bool.false_ne_true, undone_self]

theorem draining_of_mayDrain {f : State → Host.Outcome State Fault Refusal} {s : State} (h : s.cur.mayDrain) : draining f s = f s := by
  obtain ⟨taken, waits⟩ := h
  rw [draining, taken]
  dsimp only
  rw [if_neg fun ⟨handler, unissued⟩ => waits.elim handler fun h => Bool.false_ne_true (h ▸ unissued)]

/-- The outcome of the instruction `i` is that of a word with some timing and some body. -/
def RunsAsWord (i : Instr) (s : State) (o : Host.Outcome State Fault Refusal) : Prop := ∃ t body, o = runWord i t body s

theorem runsAsWord_runWord {i : Instr} {t : Timing} {body : Ex Flow} {s : State} : RunsAsWord i s (runWord i t body s) := ⟨t, body, rfl⟩

section
variable {i : Instr} {d a b : BitVec 5} {s : State}

theorem runsAsWord_aluRR {lat : Nat} {f : W64 → W64 → W64} : RunsAsWord i s (aluRR i lat f d a b s) := runsAsWord_runWord
theorem runsAsWord_aluR {f : W64 → W64} : RunsAsWord i s (aluR i f d a s) := runsAsWord_runWord
theorem runsAsWord_divRR {f : W64 → W64 → W64} : RunsAsWord i s (divRR i f d a b s) := runsAsWord_runWord
theorem runsAsWord_aluI {f : W64 → Int → W64} {imm : BitVec 12} : RunsAsWord i s (aluI i f d a imm s) := runsAsWord_runWord
theorem runsAsWord_aluS {f : W64 → W64 → W64} : RunsAsWord i s (aluS i f d a s) := runsAsWord_runWord

end

/-- Every word is run as `runWord` says, once nothing that it drains stands in its way. -/
theorem exec_runsAsWord {i : Instr} {s : State} (word : (encode i).isSome = true) (h : s.cur.mayDrain) : RunsAsWord i s (exec i s) := by
  unfold exec
  cases i <;> dsimp only
  case add | sub | mul | mulh | mulhz | and | or | xor | andn | shl | shr | sar | rol | ror | slt | sltz | min | max | minz |
      maxz => exact runsAsWord_aluRR
  case div | divz | rem | remz => exact runsAsWord_divRR
  case clz | ctz | popc | brev | bswap => exact runsAsWord_aluR
  case addi | andi | ori | xori | slti | sltzi => exact runsAsWord_aluI
  case shli | shri | sari | ext | ins => exact runsAsWord_aluS
  case retire | sstep | cdrain => exact ⟨_, _, draining_of_mayDrain h⟩
  case xfence c e g st =>
    unfold execXfence
    dsimp only
    split
    · exact ⟨_, _, draining_of_mayDrain h⟩
    · exact runsAsWord_runWord
  all_goals cases word
  all_goals exact runsAsWord_runWord

/-! ### The step that meets the word at the pc (R105, R106, R249) -/

/-- With nothing else to do, a step runs the word at the pc. -/
theorem step_eq_runHere {s : State} (h : s.mayStep) : step s = settle s.runHere := by
  obtain ⟨running, up, inputs, turns, boundaries, ended, packets, restore, port, -, pump, trap, runs, stall⟩ := h
  have noBoundary : s.gangs.find? s.atBoundary = none :=
    List.find?_eq_none.mpr fun g hg => by simp [State.atBoundary, boundaries g hg]
  have noEngine : s.engines = s := by rw [State.engines, if_neg stall]
  have stays : s.mustSwitch = false := by rw [State.mustSwitch, runs]; rfl
  have point : s.point = s.runHere := by
    rw [State.point, noEngine, pump, State.pointHere, trap]
    dsimp only
    rw [stays, if_neg Bool.false_ne_true, runs, if_neg (by decide), if_neg stall]
  rw [step, running, if_neg Bool.false_ne_true, up, if_neg Bool.false_ne_true, inputs]
  dsimp only
  rw [State.auto, noBoundary]
  dsimp only
  rw [ended, if_neg Bool.false_ne_true, packets]
  dsimp only
  rw [restore, State.deposits, if_pos port, State.turn, turns]
  exact congrArg settle point

/-- The target of an entered function is resolved with nothing to bring in. -/
theorem enterCode_entered {s : State} (h : s.entered s.cur.pc = true) : enterCode s.cur.pc s = .ok () s := by
  simp only [State.entered, Bool.and_eq_true, beq_iff_eq] at h
  obtain ⟨aligned, known⟩ := h
  cases function : s.funcAt s.cur.pc with
  | none => rw [function] at known; exact absurd known Bool.false_ne_true
  | some f =>
    rw [function] at known
    simp only [Bool.and_eq_true, List.all_eq_true, Bool.or_eq_true, bne_iff_ne, ne_eq] at known
    obtain ⟨resident, marked⟩ := known
    have same : { s with ipad := s.ipad.map (fun r =>
        if r.pcid == s.cur.pcid && r.start == f.start then { r with entered := true } else r) } = s := by
      have marks : ∀ r ∈ s.ipad, (if r.pcid == s.cur.pcid && r.start == f.start then { r with entered := true } else r) = r := by
        intro r hr
        split
        next here =>
          simp only [Bool.and_eq_true, beq_iff_eq] at here
          have := (marked r hr).resolve_left fun h => h.elim (· here.1) (· here.2)
          rw [← this]
        · rfl
      rw [List.map_congr_left marks, List.map_id']
    unfold enterCode
    rw [run_bind_ok (run_get s), if_neg (by simpa using aligned), function]
    dsimp only
    rw [if_neg (by simp [Option.isNone_eq_false_iff.mpr resident]), run_bind_ok (run_modify _ s), same, if_neg (by simp)]
    rfl

/-- A word that no instruction has, in a function that has been entered, traps at its fetch. -/
theorem fetch_illegal {s : State} {w : W32} (hq : s.cur.queued = false) (h : s.entered s.cur.pc = true)
    (hw : s.wordAt s.cur.pc = some w) (hd : decode w = none) :
    s.fetch = (s.takeTrap ⟨cILLEGAL, w.setWidth 64, 0⟩, none) := by
  have known : (s.funcAt s.cur.pc).isNone = false := by
    cases function : s.funcAt s.cur.pc with
    | none => rw [State.wordAt, function] at hw; cases hw
    | some f => rfl
  have fetched : fetchIn s = .ok () s := by
    unfold fetchIn
    rw [run_bind_ok (run_get s)]
    dsimp only
    rw [known, Bool.false_and, if_neg Bool.false_ne_true]
    exact enterCode_entered h
  rw [State.fetch, fetched]
  dsimp only
  rw [hw, Option.getD_some, LCore.passInstr, hd]
  dsimp only [Option.map_none]
  rw [State.trapFrom, hq, if_neg Bool.false_ne_true, undone_self]

/-- Settles O51: each check as it stops a word, and the fetch of a word that no instruction has. -/
theorem decodeChecks : Obligations.DecodeChecks := by
  unfold Obligations.DecodeChecks
  refine ⟨fun s i word hq ho hd => ?_, fun s w hs he hw hd => ?_⟩
  · obtain ⟨t, body, run⟩ := exec_runsAsWord word hd
    refine ⟨t.uses, fun wf => ?_, fun b wf missing => ?_, fun wf missing pl => ?_⟩
    all_goals refine run.trans (runWord_refused hq ho ?_)
    · exact checkWord_illegal wf
    · exact checkWord_featureAbsent wf missing
    · exact checkWord_privilege wf missing pl
  · have hq : s.cur.queued = false := by
      obtain ⟨-, -, -, -, -, -, -, -, -, hq, -⟩ := hs
      exact hq
    have fetched : (s.modCur (fun c => { c with blk := none })).fetch = _ := fetch_illegal hq he hw hd
    rw [step_eq_runHere hs, State.runHere, fetched]

end Sys2Proof.Machine

namespace Sys2Proof.Machine

/-! The memory words (R48, R67, R188, R189). -/

/-! ### What their bodies end in -/

theorem run_postIncrement (p : BitVec 4) (m : BitVec 2) (n : Nat) (s : State) :
    postIncrement p m n s = .ok () (s.modCur (LCore.stepped p m n)) := by
  unfold postIncrement
  split
  next h => rw [show LCore.stepped p m n = _ from funext fun c => if_pos h]; rfl
  next h => rw [show LCore.stepped p m n = id from funext fun c => if_neg h]; rfl

/-- A word without a result leaves the state that its body ends in at the next word. -/
theorem ended_finish (u : State) (uses : List (BitVec 5)) : Ended u (u.finish .seq ⟨uses, 0, 1, 1⟩) := by
  rw [State.finish, spend_none _ (Or.inl rfl)]
  exact (rfl)

/-- The cycle in which the result of a load is ready (R187). -/
def LCore.loaded (d : BitVec 5) (lat : Nat) (c : LCore) : LCore :=
  { c with xrdy := if d = 0 then c.xrdy else c.xrdy.set d.toNat (c.ccy + lat) d.isLt }

theorem ended_finish_loaded (u : State) (d : BitVec 5) (lat : Nat) (uses : List (BitVec 5)) :
    Ended u ((u.modCur (LCore.loaded d lat)).finish .seq ⟨uses, 0, 1, 1⟩) := by
  rw [State.finish, spend_none _ (Or.inl rfl)]
  exact (rfl)

theorem run_loaded (d : BitVec 5) (lat : Nat) (s : State) :
    modCur (fun c => if d = 0 then c else { c with xrdy := c.xrdy.set d.toNat (c.ccy + lat) d.isLt }) s =
      .ok () (s.modCur (LCore.loaded d lat)) := by
  rw [run_modCur]
  congr 2
  funext c
  unfold LCore.loaded
  split <;> rfl

/-- A word that does not have to wait for a promotion. -/
theorem orWait_done {body : Ex Bool} {s t : State} (h : body s = .ok true t) : orWait body s = .ok .seq t := by
  rw [orWait, h]

section
variable {s u u1 u2 : State} {d : BitVec 5} {q p : BitVec 4} {m : BitVec 2} {z : BitVec 3} {o : BitVec 11} {off v : Nat} {w0 r : W64}
  {len : BitVec 40}

theorem ld_ended (hp : s.passes (.ld d p m z o) = true)
    (operand : memOperand p m o (sizeBytes z) (s.awaited (d :: memUses m o)) = .ok (off, w0) u)
    (read : readPay (u.cur.getP p).ptr off (sizeBytes z) accLoad u = .ok v u1) :
    ∃ t, exec (.ld d p m z o) s = .next t ∧
      Ended (u1.modCur (fun c => (c.setX d (extendLoad z v)).stepped p m (sizeBytes z))) t := by
  refine ⟨_, runWord_ok hp ?_, ended_finish_loaded _ d (loadLat (ptrLvl (u.cur.getP p).ptr)) _⟩
  refine (run_bind_ok operand).trans ?_
  refine (run_bind_ok (run_rdP p u)).trans ((run_bind_ok read).trans ((run_bind_ok (run_wrX _ _ u1)).trans ?_))
  exact (run_bind_ok (run_postIncrement ..)).trans (run_bind_ok (run_loaded ..))

theorem st_ended (hp : s.passes (.st d p m z o) = true)
    (operand : memOperand p m o (sizeBytes z) (s.awaited (d :: memUses m o)) = .ok (off, w0) u)
    (notRefs : hdrKind w0 ≠ 1) (notScope : hdrKind w0 ≠ 2)
    (write : writePay (u.cur.getP p).ptr off (sizeBytes z) ((u.cur.getX d).toNat % 2 ^ (8 * sizeBytes z)) accStore u = .ok () u1) :
    ∃ t, exec (.st d p m z o) s = .next t ∧ Ended (u1.modCur (fun c => c.stepped p m (sizeBytes z))) t := by
  refine ⟨_, runWord_ok hp ?_, ended_finish _ (d :: memUses m o)⟩
  refine (run_bind_ok (run_rdP p _)).trans ((run_bind_ok operand).trans ((run_if_neg (by simp [notRefs, notScope]) ..).trans ?_))
  refine (run_bind_ok (run_rdP p u)).trans ((run_bind_ok (run_rdX d u)).trans ((run_bind_ok write).trans ?_))
  exact run_bind_ok (run_postIncrement ..)

/-- The operand of a pointer word in a reference object, at a slot (R189). -/
theorem slotOperand_ok {s : State} (operand : memOperand p m o 8 s = .ok (off, w0) u) (refs : hdrKind w0 = 1) (slot : off % 8 = 0) :
    slotOperand p m o s = .ok (off, w0) u := by
  refine (run_bind_ok (run_rdP p s)).trans ((run_bind_ok operand).trans ?_)
  exact (run_if_neg (by simp [refs]) ..).trans ((run_if_neg (by simp [slot]) ..).trans (run_pure ..))

theorem ldp_ended (hp : s.passes (.ldp q p m o) = true) (operand : memOperand p m o 8 (s.awaited (memUses m o)) = .ok (off, w0) u)
    (refs : hdrKind w0 = 1) (slot : off % 8 = 0) (read : readPay (u.cur.getP p).ptr off 8 accLoad u = .ok v u1)
    (length : lenOf (BitVec.ofNat 64 v) u1 = .ok len u2) :
    ∃ t, exec (.ldp q p m o) s = .next t ∧
      Ended (u2.modCur (fun c => (c.stepped p m 8).setP q ⟨BitVec.ofNat 64 v, 0, len⟩)) t := by
  refine ⟨_, runWord_ok hp ?_, ended_finish _ (memUses m o)⟩
  refine (run_bind_ok (slotOperand_ok operand refs slot)).trans ((run_bind_ok (run_rdP p u)).trans ?_)
  refine (run_bind_ok read).trans ((run_bind_ok length).trans ((run_bind_ok (run_postIncrement ..)).trans ?_))
  exact run_bind_ok (run_wrP ..)

theorem stp_ended (hp : s.passes (.stp q p m o) = true) (operand : memOperand p m o 8 (s.awaited (memUses m o)) = .ok (off, w0) u)
    (refs : hdrKind w0 = 1) (slot : off % 8 = 0) (value : stpValue q p u = .ok (some r) u1)
    (write : writePay (u1.cur.getP p).ptr off 8 r.toNat accStore u1 = .ok () u2) :
    ∃ t, exec (.stp q p m o) s = .next t ∧ Ended (u2.modCur (fun c => c.stepped p m 8)) t := by
  refine ⟨_, runWord_ok hp ?_, ended_finish _ (memUses m o)⟩
  refine orWait_done ((run_bind_ok (slotOperand_ok operand refs slot)).trans ((run_bind_ok value).trans ?_))
  exact (run_bind_ok (run_rdP p u1)).trans ((run_bind_ok write).trans (run_bind_ok (run_postIncrement ..)))

end

/-- Settles O17: each word is its operand, its access and the step of its cursor, one after the other. -/
theorem memoryWordsAtAnyLevel : Obligations.MemoryWordsAtAnyLevel := by
  unfold Obligations.MemoryWordsAtAnyLevel
  intro s u u1 u2 d q p m z o off v w0 r len
  exact ⟨ld_ended, st_ended, ldp_ended, stp_ended⟩

end Sys2Proof.Machine

namespace Sys2Proof.Machine

set_option Elab.async false

open Host (Cell)

/-! Words that load from and store to objects in pads (R4, R48, R185, R188). -/

/-! ### Accesses that two pieces of 64 KiB share (R24, R298) -/

theorem Mem.readN_add (m : List Cell) (a k l : Nat) :
    Mem.readN m a (k + l) = Mem.readN m a k + Mem.readN m (a + k) l * 2 ^ (8 * k) := by
  induction k generalizing a with
  | zero => simp [Mem.readN]
  | succ k ih =>
    rw [Nat.succ_add, Mem.readN, ih, Mem.readN, show a + (k + 1) = a + 1 + k by omega, show 8 * (k + 1) = 8 * k + 8 by ring, Nat.pow_add]
    ring

theorem Mem.writeN_add (m : List Cell) (a k l v : Nat) :
    Mem.writeN m a (k + l) v = Mem.writeN (Mem.writeN m a k (v % 2 ^ (8 * k))) (a + k) l (v / 2 ^ (8 * k)) := by
  induction k generalizing m a v with
  | zero => simp [Mem.writeN]
  | succ k ih =>
    have split : 2 ^ (8 * (k + 1)) = 2 ^ 8 * 2 ^ (8 * k) := by rw [← Nat.pow_add]; congr 1; ring
    have byte : BitVec.ofNat 8 (v % 2 ^ (8 * (k + 1))) = BitVec.ofNat 8 v :=
      BitVec.eq_of_toNat_eq (by simp only [BitVec.toNat_ofNat]; rw [split, Nat.mod_mul_right_mod])
    have rest : v % 2 ^ (8 * (k + 1)) / 256 = v / 256 % 2 ^ (8 * k) := by
      rw [split]; exact Nat.mod_mul_right_div_self v (2 ^ 8) _
    rw [Nat.succ_add, Mem.writeN, ih, Mem.writeN, byte, rest, split, ← Nat.div_div_eq_div_mul, show a + (k + 1) = a + 1 + k by omega]
    rfl

/-! ### Reads and writes of an object in a pad -/

/-- A pad with the low `n` bytes of `v` stored from byte `a` on. -/
def Pad.put (pd : Pad) (a n v : Nat) : Pad := { pd with mem := Mem.writeN pd.mem a n v }

theorem Pad.put_add (pd : Pad) (a k l v : Nat) :
    pd.put a (k + l) v = (pd.put a k (v % 2 ^ (8 * k))).put (a + k) l (v / 2 ^ (8 * k)) := by
  rw [Pad.put, Mem.writeN_add]
  rfl

theorem setPad_setPad {s : State} {p q : Pad} (h : p.id = q.id) : (s.setPad p).setPad q = s.setPad q := by
  have once : (p :: s.pads.filter (fun r => r.id != p.id)).filter (fun r => r.id != q.id) = s.pads.filter (fun r => r.id != q.id) := by
    rw [List.filter_cons_of_neg (by simp [h]), h, List.filter_filter, List.filter_congr fun r _ => Bool.and_self _]
  rw [State.setPad, State.setPad, once]
  rfl

section
variable {s : State} {p : W64} (hb : s.badPads = []) (hl : ptrLvl p ≤ 2) (ho : ptrLvl p = 2 → s.ownsDie = true)

include hb in
theorem locWrite_pad (id : PadId) (off n v : Nat) (va : W64) :
    locWrite (.pad id off) n v va s = .ok () (s.setPad ((s.pad id).put off n v)) := by
  have sound : s.healPad id off n = s := by rw [State.healPad, hb]; cases s; cases hb; rfl
  unfold locWrite
  dsimp only
  rw [run_bind_ok (run_get s), sound, padBad_none hb, if_neg Bool.false_ne_true]
  rfl

include hb hl ho in
theorem readObj_inPad (off n acc : Nat) :
    readObj p off n acc s = .ok (Mem.readN (s.pad (s.cur.padId (ptrLvl p))).mem (ptrAddr p + off) n) s := by
  unfold readObj readObjC
  rw [run_bind_ok (locateN_pad hl ho ..), run_bind_ok (locRead_pad hb ..)]
  generalize hk : min n (65536 - (ptrAddr p + off) % 65536) = k
  split
  next more =>
    rw [run_bind_ok (locateN_pad hl ho ..), run_bind_ok (locRead_pad hb ..), ← Nat.add_assoc]
    exact congrArg (EStateM.Result.ok · s) ((Mem.readN_add _ _ k (n - k)).symm.trans (by rw [Nat.add_sub_cancel' more.le]))
  next whole =>
    rw [show k = n by omega]
    rfl

include hb hl ho in
theorem writeObj_inPad (off n v acc : Nat) : writeObj p off n v acc s =
    .ok () (s.setPad ((s.pad (s.cur.padId (ptrLvl p))).put (ptrAddr p + off) n v)) := by
  unfold writeObj writeObjC
  rw [run_bind_ok (locateN_pad hl ho ..)]
  generalize hk : min n (65536 - (ptrAddr p + off) % 65536) = k
  split
  next more =>
    have own : ((s.pad (s.cur.padId (ptrLvl p))).put (ptrAddr p + off) k (v % 2 ^ (8 * k))).id = s.cur.padId (ptrLvl p) := pad_id s _
    rw [run_bind_ok (locateN_pad hl ho ..), run_bind_ok (locWrite_pad hb ..), locWrite_pad (by exact hb), pad_setPad, own, if_pos rfl,
      setPad_setPad (by rfl), ← Nat.add_assoc, ← Pad.put_add, Nat.add_sub_cancel' more.le]
  next whole => rw [locWrite_pad hb]

/-! ### The dirty mask of a copy (R185) -/

theorem mem_insertOff {a k : Nat} {l : List Nat} : k ∈ insertOff a l ↔ k = a ∨ k ∈ l := by
  induction l with
  | nil => simp [insertOff]
  | cons x l ih =>
    rw [insertOff]
    split
    · simp
    split
    next same => simp [same]
    · simp only [List.mem_cons, ih]; tauto

theorem mem_offsets {a n k : Nat} : k ∈ offsets a n ↔ a ≤ k ∧ k < a + n := by
  induction n generalizing a with
  | zero => simp [offsets]
  | succ n ih => rw [offsets, List.mem_cons, ih]; omega

theorem mem_foldl_insertOff {k : Nat} {l d : List Nat} : k ∈ l.foldl (fun d a => insertOff a d) d ↔ k ∈ d ∨ k ∈ l := by
  induction l generalizing d with
  | nil => simp
  | cons a l ih => rw [List.foldl_cons, ih, mem_insertOff, List.mem_cons]; tauto

/-- A pad whose copy at `h` has its D bit set (R185). -/
def Pad.flagged (pd : Pad) (h : Nat) : Pad := if hdrD (pd.word h) then pd else pd.setWord h (pd.word h ||| 0x100000000000)

/-- A pad once `n` bytes of the object at `h` have been stored to from byte `a` on: a copy gets D and those bytes in its dirty mask (R185). -/
def Pad.marked (pd : Pad) (h a n : Nat) : Pad :=
  if hdrC (pd.word h) then { pd.flagged h with dirty := (offsets a n).foldl (fun l k => insertOff k l) (pd.flagged h).dirty } else pd

theorem word_setWord (pd : Pad) (h : Nat) (w : W64) : (pd.setWord h w).word h = w := by
  rw [Pad.word, Pad.setWord, Mem.readN_writeN, Nat.mod_eq_of_lt (by exact w.isLt), BitVec.ofNat_toNat, BitVec.setWidth_eq]

theorem word_flagged (pd : Pad) (h : Nat) : (pd.flagged h).word h = pd.word h ||| 0x100000000000 := by
  rw [Pad.flagged]
  split
  next set =>
    refine BitVec.eq_of_getLsbD_eq fun i hi => ?_
    rw [BitVec.getLsbD_or, show (0x100000000000 : W64) = BitVec.twoPow 64 44 from rfl, BitVec.getLsbD_twoPow]
    by_cases at44 : 44 = i
    · subst at44; rw [show (pd.word h).getLsbD 44 = true from set]; rfl
    · simp [at44]
  · exact word_setWord ..

theorem read_flagged (pd : Pad) {h k : Nat} (hk : ¬(h ≤ k ∧ k < h + 8)) : Mem.read (pd.flagged h).mem k = Mem.read pd.mem k := by
  rw [Pad.flagged]
  split
  · rfl
  · rw [Pad.setWord, Mem.read_writeN, if_neg hk]

theorem dirty_flagged (pd : Pad) (h : Nat) : (pd.flagged h).dirty = pd.dirty := by
  rw [Pad.flagged]
  split <;> rfl

theorem Pad.marked_copy {pd : Pad} {h : Nat} (copy : hdrC (pd.word h) = true) (a n : Nat) :
    pd.marked h a n = { pd.flagged h with dirty := (offsets a n).foldl (fun l k => insertOff k l) (pd.flagged h).dirty } := if_pos copy

theorem Pad.marked_noCopy {pd : Pad} {h : Nat} (home : hdrC (pd.word h) ≠ true) (a n : Nat) : pd.marked h a n = pd := if_neg home

/-- Marking changes the bytes and the dirty mask of a pad alone. -/
theorem Pad.marked_rest (pd : Pad) (h a n : Nat) : pd.marked h a n = { pd with mem := (pd.marked h a n).mem, dirty := (pd.marked h a n).dirty } := by
  unfold Pad.marked Pad.flagged
  split
  · split <;> rfl
  · rfl

theorem read_marked (pd : Pad) {h k : Nat} (a n : Nat) (hk : ¬(hdrC (pd.word h) = true ∧ h ≤ k ∧ k < h + 8)) :
    Mem.read (pd.marked h a n).mem k = Mem.read pd.mem k := by
  by_cases copy : hdrC (pd.word h) = true
  · rw [Pad.marked_copy copy]
    exact read_flagged pd fun inside => hk ⟨copy, inside⟩
  · rw [Pad.marked_noCopy copy]

theorem mem_dirty_marked {pd : Pad} {h a n k : Nat} :
    k ∈ (pd.marked h a n).dirty ↔ k ∈ pd.dirty ∨ (hdrC (pd.word h) = true ∧ a ≤ k ∧ k < a + n) := by
  by_cases copy : hdrC (pd.word h) = true
  · rw [Pad.marked_copy copy]
    simp only [mem_foldl_insertOff, mem_offsets, dirty_flagged, copy, true_and]
  · rw [Pad.marked_noCopy copy]
    simp [copy]

include hl in
theorem markDirty_inPad (off n : Nat) : markDirty p off n s = .ok ()
    (if hdrC (s.hdrAt p) then s.setPad ((s.pad (s.cur.padId (ptrLvl p))).marked (ptrAddr p) (ptrAddr p + 16 + off) n) else s) := by
  unfold markDirty
  rw [if_pos hl, run_modify]
  refine congrArg (EStateM.Result.ok ()) ?_
  change (if hdrC (s.hdrAt p) = true then _ else s) = _
  split
  next copy => rw [Pad.marked_copy copy]; rfl
  · rfl

include hb hl ho in
/-- A store to the payload of an object in a pad (R185, R188). -/
theorem writePay_inPad (off n v acc : Nat) : writePay p off n v acc s = .ok () (s.setPad
    (((s.pad (s.cur.padId (ptrLvl p))).put (ptrAddr p + 16 + off) n v).marked (ptrAddr p) (ptrAddr p + 16 + off) n)) := by
  generalize hq : (s.pad (s.cur.padId (ptrLvl p))).put (ptrAddr p + 16 + off) n v = q
  have own : q.id = s.cur.padId (ptrLvl p) := by rw [← hq]; exact pad_id s _
  have stored : (s.setPad q).pad (s.cur.padId (ptrLvl p)) = q := by rw [pad_setPad, own, if_pos rfl]
  have header : (s.setPad q).hdrAt p = q.word (ptrAddr p) := congrArg (Pad.word · (ptrAddr p)) stored
  have write := writeObj_inPad hb hl ho (16 + off) n v acc
  rw [← Nat.add_assoc, hq] at write
  unfold writePay writePayC
  refine (run_bind_ok write).trans ?_
  rw [markDirty_inPad (s := s.setPad q) hl, header]
  refine congrArg (EStateM.Result.ok ()) ?_
  split
  next copy =>
    rw [show (s.setPad q).cur = s.cur from rfl, stored]
    refine setPad_setPad ?_
    rw [Pad.marked_rest]
  next home => rw [Pad.marked_noCopy home]

end

/-! ### Operands in place (R67) -/

/-- A touch of an object in its place changes the order of the copy index alone. -/
theorem touched_eq (w0 q : W64) (c : LCore) : c.touched w0 q =
    { c with cidx := if hdrC w0 then c.cidx.filter (fun e => e.2 == q) ++ c.cidx.filter (fun e => e.2 != q) else c.cidx } := by
  unfold LCore.touched
  split <;> rfl

theorem touched_rest (w0 q : W64) (c : LCore) : c.touched w0 q = { c with cidx := (c.touched w0 q).cidx } := by
  rw [touched_eq]

theorem getP_stepped (p : BitVec 4) (m : BitVec 2) (n : Nat) (c : LCore) (r : BitVec 4) : (c.stepped p m n).getP r =
    if m = 1 ∧ r = p then { c.getP p with cur := (c.getP p).cur + BitVec.ofNat 32 n } else c.getP r := by
  unfold LCore.stepped
  by_cases hm : m = 1
  · simp only [hm, if_true, true_and]
    exact getP_setP ..
  · simp only [hm, if_false, false_and]

theorem getP_setX (c : LCore) (d : BitVec 5) (v : W64) (r : BitVec 4) : (c.setX d v).getP r = c.getP r := rfl

theorem Ended.x {u t : State} (h : Ended u t) : t.cur.x = u.cur.x := congrArg (fun v => v.cur.x) h

theorem Ended.p {u t : State} (h : Ended u t) : t.cur.p = u.cur.p := congrArg (fun v => v.cur.p) h

theorem Ended.pads {u t : State} (h : Ended u t) : t.pads = u.pads := congrArg (fun v => v.pads) h

theorem Ended.getP {u t : State} (h : Ended u t) (r : BitVec 4) : t.cur.getP r = u.cur.getP r := by
  rw [LCore.getP, h.p, LCore.getP]

/-- What a word leaves that has changed no register but x and p registers. -/
theorem Ended.registers {v t : State} {x : Vector W64 32} {q : Vector PtrReg 16} (h : Ended { v with cur := { v.cur with x := x, p := q } } t) :
    t = { v with
      clk := t.clk
      cur := { v.cur.passed with x := t.cur.x, p := t.cur.p, ccy := t.cur.ccy, xrdy := t.cur.xrdy } } := by
  have hx : t.cur.x = x := h.x
  have hq : t.cur.p = q := h.p
  rw [hx, hq]
  exact h

/-- What a word leaves that has changed no register but p registers, and pads. -/
theorem Ended.padsAndCursor {v t : State} {l : List Pad} {q : Vector PtrReg 16} (h : Ended { v with pads := l, cur := { v.cur with p := q } } t) :
    t = { v with
      clk := t.clk
      pads := t.pads
      cur := { v.cur.passed with p := t.cur.p, ccy := t.cur.ccy, xrdy := t.cur.xrdy } } := by
  have hl : t.pads = l := h.pads
  have hq : t.cur.p = q := h.p
  rw [hl, hq]
  exact h

theorem stepped_rest (p : BitVec 4) (m : BitVec 2) (n : Nat) (c : LCore) : c.stepped p m n = { c with p := (c.stepped p m n).p } := by
  unfold LCore.stepped
  split <;> rfl

/-- The state once a word has waited for the registers `uses` and has touched the object of p`p` in its place. -/
def State.touchedAt (s : State) (uses : List (BitVec 5)) (p : BitVec 4) : State :=
  (s.awaited uses).modCur (fun c => { c with cidx := (s.cur.touched (s.hdrOf p) (s.cur.getP p).ptr).cidx })

/-- The wait and the touch change the time and the copy index alone. -/
theorem touchedAt_eq (s : State) (uses : List (BitVec 5)) (p : BitVec 4) : s.touchedAt uses p = { s with
    clk := (s.touchedAt uses p).clk
    cur := { s.cur.touched (s.hdrOf p) (s.cur.getP p).ptr with ccy := (s.touchedAt uses p).cur.ccy } } := by
  rw [touched_rest]
  rfl

theorem memOperand_inPlace {s : State} {p : BitVec 4} {m : BitVec 2} {o : BitVec 11} {n off : Nat} (uses : List (BitVec 5))
    (h : s.inPlace p) (at_ : memOffset s.cur p m o n = off) (inside : off + n ≤ (s.cur.getP p).len.toNat)
    (noWrap : m = 1 → (s.cur.getP p).cur.toNat + n < 2 ^ 32) :
    memOperand p m o n (s.awaited uses) = .ok (off, s.hdrOf p) (s.touchedAt uses p) := by
  obtain ⟨-, hz, hm, -⟩ := h.1
  change memOffset (s.awaited uses).cur p m o n = off at at_
  rw [memOperand_inside (s := s.awaited uses) hz hm (by omega) (by rw [at_]; exact_mod_cast inside) noWrap, at_]
  refine (run_bind_ok (touch_inPlace (s := s.awaited uses) h)).trans ?_
  rw [State.touchedAt, touched_eq, State.modCur, touched_eq]
  rfl

/-- Settles O15: the operand in place, the read of its pad, and the word's end. -/
theorem loadsInPlace : Obligations.LoadsInPlace := by
  unfold Obligations.LoadsInPlace
  intro s d p m z o off hp here at_ inside noWrap
  obtain ⟨sound, -, -, near, owned, -⟩ := here.1
  have operand := memOperand_inPlace (d :: memUses m o) here at_ inside noWrap
  have read := readObj_inPad (s := s.touchedAt (d :: memUses m o) p) sound near owned (16 + off) (sizeBytes z) accLoad
  rw [← Nat.add_assoc] at read
  obtain ⟨t, run, ended⟩ := ld_ended hp operand read
  refine ⟨t, run, fun r => ?_, fun r => ?_, ?_⟩
  · rw [← getX_setX]
    refine (getX_congr ended.x r).trans (getX_congr ?_ r)
    exact (congrArg LCore.x (stepped_rest ..)).trans rfl
  · refine (ended.getP r).trans ?_
    change (LCore.stepped p m _ (LCore.setX _ d _)).getP r = _
    rw [getP_stepped, getP_stepped, getP_setX, getP_setX]
    rfl
  · rw [State.modCur, stepped_rest] at ended
    have rest := Ended.registers (v := s.touchedAt (d :: memUses m o) p) ended
    rw [touchedAt_eq] at rest
    exact rest

/-- Byte `k` of the low `n` bytes of a register. -/
theorem byte_of_low {n k : Nat} (x : W64) (hk : k < n) :
    BitVec.ofNat 8 (x.toNat % 2 ^ (8 * n) / 256 ^ k) = x.extractLsb' (8 * k) 8 := by
  have above : 2 ^ (8 * n) = 2 ^ (8 * k) * (2 ^ 8 * 2 ^ (8 * (n - k - 1))) := by
    rw [← Nat.pow_add, ← Nat.pow_add]
    congr 1
    omega
  refine BitVec.eq_of_toNat_eq ?_
  rw [BitVec.toNat_ofNat, BitVec.extractLsb'_toNat, Nat.shiftRight_eq_div_pow, show 256 ^ k = 2 ^ (8 * k) from (Nat.pow_mul 2 8 k).symm,
    above, Nat.mod_mul_right_div_self, Nat.mod_mul_right_mod]

theorem pad_congr {s t : State} (h : t.pads = s.pads) (id : PadId) : t.pad id = s.pad id := by
  rw [State.pad, h, State.pad]

/-- `st` to a pad: the pad with the bytes stored and a copy marked, the cursor stepped, and nothing else. -/
theorem st_inPlace {s : State} {d : BitVec 5} {p : BitVec 4} {m : BitVec 2} {z : BitVec 3} {o : BitVec 11} {off n : Nat}
    (hn : sizeBytes z = n) (hp : s.passes (.st d p m z o) = true) (here : s.inPlace p) (at_ : memOffset s.cur p m o n = off)
    (inside : off + n ≤ (s.cur.getP p).len.toNat) (noWrap : m = 1 → (s.cur.getP p).cur.toNat + n < 2 ^ 32)
    (notRefs : hdrKind (s.hdrOf p) ≠ 1) (notScope : hdrKind (s.hdrOf p) ≠ 2) :
    ∃ t, exec (.st d p m z o) s = .next t ∧
      t.pads = (s.setPad (((s.pad (s.padOf p)).put (s.offOf p + 16 + off) n ((s.cur.getX d).toNat % 2 ^ (8 * n))).marked
        (s.offOf p) (s.offOf p + 16 + off) n)).pads ∧
      (∀ r, t.cur.getP r = (s.cur.stepped p m n).getP r) ∧
      t = { s with
        clk := t.clk
        pads := t.pads
        cur := { (s.cur.touched (s.hdrOf p) (s.cur.getP p).ptr).passed with p := t.cur.p, ccy := t.cur.ccy, xrdy := t.cur.xrdy } } := by
  subst hn
  obtain ⟨sound, -, -, near, owned, -⟩ := here.1
  have operand := memOperand_inPlace (d :: memUses m o) here at_ inside noWrap
  have write := fun v => writePay_inPad (s := s.touchedAt (d :: memUses m o) p) sound near owned off (sizeBytes z) v accStore
  obtain ⟨t, run, ended⟩ := st_ended hp operand notRefs notScope (write _)
  refine ⟨t, run, ended.pads, fun r => ?_, ?_⟩
  · refine (ended.getP r).trans ?_
    change (LCore.stepped p m _ _).getP r = _
    rw [getP_stepped, getP_stepped]
    rfl
  · rw [State.modCur, stepped_rest] at ended
    have rest := Ended.padsAndCursor (v := s.touchedAt (d :: memUses m o) p) ended
    rw [touchedAt_eq] at rest
    exact rest

/-- Settles O16: what the store leaves in the bytes, the header and the dirty mask of its pad. -/
theorem storesInPlace : Obligations.StoresInPlace := by
  unfold Obligations.StoresInPlace
  intro s d p m z o off hp here id h a n c at_ inside noWrap notRefs notScope
  obtain ⟨t, run, pads, cursor, rest⟩ := st_inPlace rfl hp here at_ inside noWrap notRefs notScope
  have own : (((s.pad id).put a n ((s.cur.getX d).toNat % 2 ^ (8 * n))).marked h a n).id = id :=
    (congrArg Pad.id (Pad.marked_rest ..)).trans (pad_id s id)
  have pad : t.pad id = ((s.pad id).put a n ((s.cur.getX d).toNat % 2 ^ (8 * n))).marked h a n := by
    rw [pad_congr pads, pad_setPad, if_pos own.symm]
  have header : ((s.pad id).put a n ((s.cur.getX d).toNat % 2 ^ (8 * n))).word h = s.hdrOf p :=
    congrArg (BitVec.ofNat 64) (Mem.readN_writeN_other _ _ _ _ _ _ (by omega))
  refine ⟨t, run, fun k hk => ?_, fun copy => ?_, fun k outside notHeader => ?_, fun k => ?_, ?_, fun j hj => ?_, cursor, rest⟩
  · rw [pad, read_marked _ a n (by omega), Pad.put, Mem.read_writeN, if_pos (by omega), Nat.add_sub_cancel_left]
    exact byte_of_low _ hk
  · rw [pad, Pad.marked_copy (by rw [header]; exact copy), ← header]
    exact word_flagged ..
  · rw [pad, read_marked _ a n (by rw [header]; exact notHeader), Pad.put, Mem.read_writeN, if_neg outside]
  · rw [pad, mem_dirty_marked, header]
    exact Iff.rfl
  · rw [pad]
    exact Pad.marked_rest ..
  · rw [pad_congr pads, pad_setPad, if_neg (fun e => hj (e.trans own))]

end Sys2Proof.Machine

namespace Sys2Proof.Machine

/-! The return from a trap (R66, R230, R304, R329, R330). -/

theorem issueAt_nil (c : LCore) : c.issueAt [] = c.ccy := by
  simp [LCore.issueAt]

/-- A word that names no x register waits for none. -/
theorem awaited_nil (s : State) : s.awaited [] = s := by
  rw [awaited_later, issueAt_nil, Nat.sub_self, Nat.add_zero]
  rfl

/-- STATUS after a return: PL and IE are the old PPL and PIE, which become 0 (R36, R304). -/
theorem statusWith_return (st : W64) (pl : BitVec 2) (ie : Bool) :
    statusWith st pl ie 0 false = (st &&& ~~~(0xB7 : W64)) ||| pl.setWidth 64 ||| (if ie then 4 else 0) := by
  simp [statusWith]

theorem eretCore_privilege {i : Instr} {s : State} (h : s.cur.pl.toNat < s.cur.ppl.toNat) :
    eretCore i s = .error ⟨cPRIVILEGE, (wordOf i).setWidth 64, 0⟩ s := by
  unfold eretCore
  rw [run_bind_ok (run_cur s)]
  exact (run_if_pos h ..).trans (run_bind_error rfl)

/-- The logical core whose STATUS, repetition state and pc a return has taken from the bank. -/
def LCore.returned (c : LCore) : LCore :=
  { c with
    status := (c.status &&& ~~~(0xB7 : W64)) ||| c.ppl.setWidth 64 ||| (if c.pie then 4 else 0)
    repc := (c.bankOf c.pl).srepc
    pc := (c.bankOf c.pl).epc }

theorem eretCore_ok {i : Instr} {s : State} (h : s.cur.ppl.toNat ≤ s.cur.pl.toNat) :
    eretCore i s = .ok (s.cur.bankOf s.cur.pl) (s.modCur LCore.returned) := by
  unfold eretCore
  rw [run_bind_ok (run_cur s)]
  refine (run_if_neg (Nat.not_lt.mpr h) ..).trans ((run_bind_ok (run_modCur ..)).trans ?_)
  rw [State.modCur, statusWith_return]
  rfl

/-- The ring entries that a return lets issue again. -/
def LCore.reissued (c : LCore) : List RingEntry :=
  if (c.bankOf c.pl).cause.getLsbD 62 then
    c.pendingEntries ((c.bankOf c.pl).cseq.extractLsb' 0 16) ((c.bankOf c.pl).cseq.extractLsb' 16 16)
  else c.stoppedEntries

theorem eretBody_privilege {s : State} (h : s.cur.pl.toNat < s.cur.ppl.toNat) :
    eretBody s = .error ⟨cPRIVILEGE, (wordOf .eret).setWidth 64, 0⟩ s :=
  (run_bind_ok (run_cur s)).trans (run_bind_error (eretCore_privilege h))

/-- The core after the word's own updates: those of `LCore.returned`, of the handler's end, of the ring and of the stopped copies. -/
def LCore.afterReturn (c : LCore) : LCore :=
  ((c.returned.leaveHandler ((c.bankOf c.pl).cause.getLsbD 62)).requeue c.reissued).resumeCopies (c.pl == 3)

theorem eretBody_ok {s : State} (h : s.cur.ppl.toNat ≤ s.cur.pl.toNat) : eretBody s = .ok .placed (s.modCur LCore.afterReturn) := by
  unfold eretBody
  rw [run_bind_ok (run_cur s), run_bind_ok (eretCore_ok h), run_bind_ok (run_modCur ..), run_bind_ok (run_modCur ..),
    run_bind_ok (run_modCur ..)]
  rfl

/-- The end of a word that has set the pc itself and has no result. -/
theorem finish_placed (s : State) (f : LCore → LCore) {t : Timing} (h : t.dest = 0 ∨ t.lat ≤ t.issue) :
    (s.modCur f).finish .placed t = { s with
      clk := s.clk + t.issue
      cur := { f s.cur with unit := none, pfx := none, ccy := (f s.cur).ccy + t.issue } } := by
  rw [State.finish, spend_none _ h]
  rfl

/-- Settles O49: the check of PPL, then the updates of the logical core one after the other. -/
theorem trapReturn : Obligations.TrapReturn := by
  unfold Obligations.TrapReturn
  intro s c bank late put stopped hp
  refine ⟨fun above => runWord_traps (i := .eret) hp (eretBody_privilege above), fun below => ⟨_, runWord_ok (i := .eret) hp (eretBody_ok below), ?_⟩⟩
  have core : s.cur.afterReturn = (put.requeue stopped).resumeCopies (c.pl == 3) := rfl
  rw [awaited_nil, finish_placed _ _ (Or.inl rfl), core]

end Sys2Proof.Machine

namespace Sys2Proof.Machine

set_option Elab.async false

/-! The steps of the coprocessor, of the loader, of the copy engines and of the streams (R63, R150, R222 to R230, R237). -/

/-! ### The lowest number that a test picks -/

theorem find_lowest {w : Nat} {p : BitVec w → Bool} {b : BitVec w} (hb : p b = true)
    (low : ∀ y : BitVec w, y.toNat < b.toNat → p y = false) : ((List.range (2 ^ w)).map (BitVec.ofNat w)).find? p = some b := by
  have first : (List.range (2 ^ w)).find? (p ∘ BitVec.ofNat w) = some b.toNat := by
    rw [List.find?_range_eq_some]
    refine ⟨?_, List.mem_range.mpr b.isLt, fun j hj => ?_⟩
    · rw [Function.comp, BitVec.ofNat_toNat, BitVec.setWidth_eq, hb]
    · have : (BitVec.ofNat w j).toNat = j := by rw [BitVec.toNat_ofNat, Nat.mod_eq_of_lt (by omega)]
      rw [Function.comp, low _ (by omega)]
      rfl
  rw [List.find?_map, first, Option.map_some, BitVec.ofNat_toNat, BitVec.setWidth_eq]

theorem tagsOf_allOnes : tagsOf (BitVec.allOnes 64) = (List.range (2 ^ 6)).map (BitVec.ofNat 6) := by decide

/-! ### The copy engines -/

theorem onCore_running {s : State} {p : LCore → Bool} (f : State → State) (h : p s.cur = true) : s.onCore p f = f s := by
  rw [State.onCore, if_pos h]

/-- A copy runs on the tag, and the test picks it. -/
def Tag.picked (p : Copy → Bool) : Tag → Bool
  | .running k => p k
  | _ => false

/-- The lowest tag whose copy the test picks. -/
def LCore.lowest (p : Copy → Bool) (c : LCore) : Option (BitVec 6) := (tagsOf (BitVec.allOnes 64)).find? (fun t => (c.getTag t).picked p)

theorem lowest_eq {c : LCore} {p : Copy → Bool} {t : BitVec 6} {k : Copy} (hk : c.getTag t = .running k) (hp : p k = true)
    (low : ∀ x k, x.toNat < t.toNat → c.getTag x = .running k → p k = false) : c.lowest p = some t := by
  rw [LCore.lowest, tagsOf_allOnes]
  refine find_lowest (by rw [hk]; exact hp) (fun x hx => ?_)
  cases hx' : c.getTag x with
  | running k => exact low x k hx hx'
  | _ => rfl

theorem onCopy_lowest {s : State} {p : Copy → Bool} (f : State → BitVec 6 → State) {t : BitVec 6} (h : s.cur.lowest p = some t) :
    s.onCopy p f = f s t := by
  unfold State.onCopy
  dsimp only
  change s.onCore (fun c => (c.lowest p).isSome) _ = _
  rw [onCore_running _ (by rw [h]; rfl)]
  split
  next u hu =>
    have found : s.cur.lowest p = some u := hu
    rw [Option.some.inj (h.symm.trans found)]
  next hu =>
    have none : s.cur.lowest p = none := hu
    exact absurd (h.symm.trans none) (Option.some_ne_none t)

theorem takeCopy_head {s : State} {t : BitVec 6} (h : s.cur.startQ.head? = some t) : s.takeCopy = s.runCopy t := by
  obtain ⟨rest, hq⟩ : ∃ rest, s.cur.startQ = t :: rest := List.head?_eq_some_iff.mp h
  rw [State.takeCopy, onCore_running _ (by rw [hq]; rfl), hq]

theorem endCopy_moved {s : State} {t : BitVec 6} {k : Copy} (hk : s.cur.getTag t = .running k) (hp : k.phase = .moved) :
    s.endCopy t = s.modCur (fun c => (c.raise k.flags).setTag t .ready) := by
  simp only [State.endCopy, hk, hp]

theorem endCopy_met {s : State} {t : BitVec 6} {k : Copy} {e : Exn} (hk : s.cur.getTag t = .running k) (hp : k.phase = .met e) :
    s.endCopy t = s.modCur (fun c => c.setTag t (.running { k with phase := .stopped e })) := by
  simp only [State.endCopy, hk, hp, State.modCur, LCore.modCopy]

/-- The state in which a copy engine has taken a copy from the start queue. -/
def State.taking (s : State) (t : BitVec 6) : State := s.modCur (fun c => { c with startQ := c.startQ.filter (fun x => x != t) })

/-- A copy that moves elements, rather than the pages of a prefetch, comes to its end. -/
theorem runCopy_rows_ok {s w : State} {t : BitVec 6} {k : Copy} (hk : s.cur.getTag t = .running k) (hp : k.phase = .queued)
    (kind : k.kind = .xfer ∨ k.kind = .xgath) (rows : copyRows t k (k.rows - k.row) k.row k.col (s.taking t) = .ok () w) :
    s.runCopy t = w.modCur (fun l => l.modCopy t (fun k => { k with phase := .moved })) := by
  unfold State.taking at rows
  cases kind with
  | inl h => simp only [State.runCopy, hk, hp, h, if_true, rows]
  | inr h => simp only [State.runCopy, hk, hp, h, if_true, rows]

/-- … or to the fault it meets. -/
theorem runCopy_rows_error {s w : State} {t : BitVec 6} {k : Copy} {e : Exn} (hk : s.cur.getTag t = .running k) (hp : k.phase = .queued)
    (kind : k.kind = .xfer ∨ k.kind = .xgath) (rows : copyRows t k (k.rows - k.row) k.row k.col (s.taking t) = .error e w) :
    s.runCopy t = w.modCur (fun l => l.modCopy t (fun k => { k with phase := .met e })) := by
  unfold State.taking at rows
  cases kind with
  | inl h => simp only [State.runCopy, hk, hp, h, if_true, rows]
  | inr h => simp only [State.runCopy, hk, hp, h, if_true, rows]

/-- A prefetch of translations; with its kind the other way, of pages to migrate. -/
theorem runCopy_prefTr {s : State} {t : BitVec 6} {k : Copy} (hk : s.cur.getTag t = .running k) (hp : k.phase = .queued)
    (kind : k.kind = .prefTr) : s.runCopy t =
      ((s.taking t).markPages false ((s.taking t).prefPages k)).modCur (fun l => l.modCopy t (fun k => { k with phase := .moved })) := by
  simp only [State.runCopy, hk, hp, kind, if_true, State.taking]

theorem runCopy_prefMg {s : State} {t : BitVec 6} {k : Copy} (hk : s.cur.getTag t = .running k) (hp : k.phase = .queued)
    (kind : k.kind = .prefMg) : s.runCopy t =
      ((s.taking t).markPages true ((s.taking t).prefPages k)).modCur (fun l => l.modCopy t (fun k => { k with phase := .moved })) := by
  simp only [State.runCopy, hk, hp, kind, if_true, State.taking]

/-! ### Writes that land and rows that load -/

theorem landList_append (t : Nat) (m : List PendWrite) (hm : ∀ p ∈ m.head?, t ≤ p.due) :
    ∀ (l : List PendWrite) (c : LCore), (∀ p ∈ l, p.due < t) →
      landList c t (l ++ m) = { l.foldl (fun c p => p.dest.apply c) c with pend := m }
  | [], c, _ => by
    cases m with
    | nil => rfl
    | cons p m => rw [List.nil_append, landList, if_neg (Nat.not_lt.mpr (hm p rfl))]; rfl
  | p :: l, c, hl => by
    rw [List.cons_append, landList, if_pos (hl p (.head l)), landList_append t m hm l _ (fun x hx => hl x (.tail p hx))]
    rfl

/-! ### The head of the coprocessor queue -/

theorem holdFor_neg {u : CopUnit} {t : Nat} {c : LCore} (h : ¬t < c.loaderReady u t) : c.holdFor u t = c := if_neg h

theorem holdFor_pos {u : CopUnit} {t : Nat} {c : LCore} (h : t < c.loaderReady u t) :
    c.holdFor u t = { c.standing t (c.loaderReady u t - t) with copNext := c.loaderReady u t } := if_pos h

/-- The freeze for the tile loader changes no load, no fault that waits and no cycle. -/
theorem holdFor_keeps (u : CopUnit) (t : Nat) (c : LCore) :
    (c.holdFor u t).loads = c.loads ∧ (c.holdFor u t).late = c.late ∧ (c.holdFor u t).ccy = c.ccy := by
  by_cases h : t < c.loaderReady u t
  · rw [holdFor_pos h]
    exact ⟨rfl, rfl, rfl⟩
  · rw [holdFor_neg h]
    exact ⟨rfl, rfl, rfl⟩

/-- The cycle a word issues in, once the freeze for the tile loader has ended. -/
theorem copCycle_holdFor (u : CopUnit) (r : RingEntry) (c : LCore) :
    (c.holdFor u (c.copCycle u r)).copCycle u r = max (c.copCycle u r) (c.loaderReady u (c.copCycle u r)) := by
  by_cases h : c.copCycle u r < c.loaderReady u (c.copCycle u r)
  · rw [holdFor_pos h]
    generalize c.loaderReady u (c.copCycle u r) = ready at h ⊢
    by_cases mat : u.mat = true
    · simp only [LCore.copCycle, LCore.standing, if_pos mat] at h ⊢
      rw [if_neg (by omega)]
      omega
    · simp only [LCore.copCycle, LCore.standing, if_neg mat] at h ⊢
      rw [if_neg (by omega)]
      omega
  · rw [holdFor_neg h]
    omega

theorem late_of_queued {c : LCore} (h : c.queued = true) : c.late = none := by
  simp only [LCore.queued, Bool.and_eq_true, Option.isNone_iff_eq_none] at h
  exact h.1.1.1

/-- The cycle that the head of the queue waits for. -/
theorem headCycle_eq {c : LCore} {r : RingEntry} {u : CopUnit} {act : RingEntry → Ex Issued}
    (hr : c.ring.find? (fun x => x.state == .notIssued) = some r) (ha : copAct r.instr = some (u, act)) :
    c.headCycle = max (c.copCycle u r) (c.loaderReady u (c.copCycle u r)) := by
  simp only [LCore.headCycle, hr, Option.bind_some, ha, Option.map_some, Option.getD_some]

theorem issueNow_clear {s : State} {r : RingEntry} {u : CopUnit} {act : RingEntry → Ex Issued} (hl : s.cur.loads = []) (ht : s.cur.late = none) :
    issueNow u act r s =
      if u.frozen s r then .ok () (s.modCur (LCore.freezeCop (s.cur.copCycle u r)))
      else issueWork u act r ((s.modCur LCore.thawCop).cur.copCycle u r) (s.modCur LCore.thawCop) := by
  simp only [issueNow, afterLoads_nil u hl, Bool.false_eq_true, if_false, ht, Option.isSome_none]

section Head
variable {s : State} {r : RingEntry} {u : CopUnit} {act : RingEntry → Ex Issued}

/-- The state in which the head of the queue meets its unit: its cycle has come, and the tile loader holds it no longer. -/
def State.headDue (s : State) (u : CopUnit) (r : RingEntry) : State :=
  (s.waitFor s.cur.headCycle).modCur (fun c => c.holdFor u (c.copCycle u r))

theorem issue_headDue (hq : s.cur.queued = true) (hl : s.cur.loads = []) (hr : s.cur.ring.find? (fun x => x.state == .notIssued) = some r)
    (he : s.cur.entryOf r.seq = some r) (ha : copAct r.instr = some (u, act)) :
    issue u act r.seq (s.waitFor s.cur.headCycle) =
      if u.frozen (s.headDue u r) r then
        .ok () ((s.headDue u r).modCur (LCore.freezeCop ((s.headDue u r).cur.copCycle u r)))
      else
        issueWork u act r (((s.headDue u r).modCur LCore.thawCop).cur.copCycle u r) ((s.headDue u r).modCur LCore.thawCop) := by
  obtain ⟨loads, late, ccy⟩ : (s.headDue u r).cur.loads = s.cur.loads ∧ (s.headDue u r).cur.late = s.cur.late ∧
    (s.headDue u r).cur.ccy = max s.cur.ccy s.cur.headCycle := holdFor_keeps ..
  have cycle : (s.headDue u r).cur.copCycle u r = s.cur.headCycle := by
    rw [headCycle_eq hr ha]
    exact copCycle_holdFor u r (s.waitFor s.cur.headCycle).cur
  have come : s.cur.headCycle ≤ (s.headDue u r).cur.ccy := (le_max_right _ _).trans_eq ccy.symm
  have first : (s.waitFor s.cur.headCycle).cur.copCycle u r ≤ (s.waitFor s.cur.headCycle).cur.ccy := by
    refine le_trans ?_ (le_max_right s.cur.ccy s.cur.headCycle)
    rw [headCycle_eq hr ha]
    exact le_max_left ..
  unfold issue
  rw [show (s.waitFor s.cur.headCycle).cur.late = none from late_of_queued hq,
    show (s.waitFor s.cur.headCycle).cur.entryOf r.seq = some r from he]
  dsimp only
  rw [if_neg (Nat.not_lt.mpr first)]
  change (if (s.headDue u r).cur.ccy < (s.headDue u r).cur.copCycle u r then _ else issueNow u act r (s.headDue u r)) = _
  rw [if_neg (by rw [cycle]; exact Nat.not_lt.mpr come)]
  exact issueNow_clear (loads.trans hl) (late.trans (late_of_queued hq))

/-- The step of the queue is the issue of its head. -/
theorem issueNext_head {w : State} (hq : s.cur.queued = true) (hr : s.cur.ring.find? (fun x => x.state == .notIssued) = some r)
    (ha : copAct r.instr = some (u, act)) (h : issue u act r.seq (s.waitFor s.cur.headCycle) = .ok () w) : s.issueNext = w := by
  have one : reissue [r] (s.waitFor s.cur.headCycle) = .ok () w := by
    rw [reissue, ha]
    refine (run_bind_ok h).trans ((run_bind_ok (run_cur w)).trans ?_)
    rw [run_ite, reissue]
    exact ite_self _
  rw [State.issueNext, if_pos hq, hr]
  simp only [State.attempt, one]


end Head

theorem issueWork_ok {u : CopUnit} {act : RingEntry → Ex Issued} {r : RingEntry} {ci : Nat} {s w : State} {i : Issued}
    (h : act { r with state := .issued } (s.modCur (LCore.started ci { r with state := .issued })) = .ok i w) :
    issueWork u act r ci s = .ok () (w.modCur (LCore.complete u ci r.seq i)) := by
  simp only [issueWork, h]

theorem issueWork_error {u : CopUnit} {act : RingEntry → Ex Issued} {r : RingEntry} {ci : Nat} {s w : State} {e : Exn}
    (h : act { r with state := .issued } (s.modCur (LCore.started ci { r with state := .issued })) = .error e w) :
    issueWork u act r ci s = .ok () (w.modCur (fun c => c.faultEntry r.seq e)) := by
  simp only [issueWork, h]

/-! ### The steps -/

theorem coprocessorIssue_idle {s : State} (h : s.cur.queued = false) : exec .coprocessorIssue s = .next s := by
  change Host.Outcome.next s.issueNext = _
  rw [State.issueNext, if_neg (by simp [h])]

theorem landRow_ok {s w : State} {q : BitVec 16} {sl : BitVec 4} {rest : List (BitVec 16 × BitVec 4)} {r : RingEntry} {v side : Nat}
    (hl : s.cur.loads = (q, sl) :: rest) (he : s.cur.entryOf q = some r) (hr : loadStep r s = .ok (v, side) w) :
    s.landRow = w.modCur (fun c =>
      let row := ((c.getT sl).setRow r.prog v).setSide (Entry.fmt r.entry) r.prog side
      if r.prog = 31 then
        { (c.setT sl { row with state := .ready, prog := 0, row := r.xa.extractLsb' 0 32, col := r.xa.extractLsb' 32 32 }).setEntry
          { r with state := .complete, prog := 0 } with loads := rest }
      else (c.setT sl { row with prog := BitVec.ofNat 6 (r.prog + 1) }).setEntry { r with prog := r.prog + 1 }) := by
  simp only [State.landRow, hl, he, hr]

/-- The stream has room for a vector read ahead, and holds no fault. -/
def Stream.hasRoom (st : Stream) : Bool := st.bound && decide (st.buf.length < 4) && st.fault.isNone

theorem hasRoom_iff {st : Stream} : st.hasRoom = true ↔ st.bound = true ∧ st.buf.length < 4 ∧ st.fault = none := by
  simp only [Stream.hasRoom, Bool.and_eq_true, decide_eq_true_eq, Option.isNone_iff_eq_none, and_assoc]

theorem readAhead_ok {s w : State} {st : BitVec 3} {v : StreamVec} (room : (s.cur.getS st).hasRoom = true)
    (hv : streamVec st (s.cur.getS st) ((s.cur.getS st).pops.toNat + (s.cur.getS st).buf.length) s = .ok v w) :
    s.readAhead st = w.modCur (fun c => c.setS st { c.getS st with buf := (s.cur.getS st).buf ++ [v] }) := by
  unfold Stream.hasRoom at room
  simp only [State.readAhead, if_pos room, hv]

/-- Settles O53. -/
theorem engineEvents : Obligations.EngineEvents := by
  unfold Obligations.EngineEvents
  intro s w r u act i l m q sl rest v side tag k e st vec
  refine ⟨coprocessorIssue_idle, ?_, ?_, ?_, ?_, ?_, ?_⟩
  · intro due s1 ci hq hl hr he ha
    have head := issue_headDue hq hl hr he ha
    refine ⟨fun frozen => ?_, fun free work => ?_, fun free fault => ?_⟩
    · exact congrArg Host.Outcome.next (issueNext_head hq hr ha (head.trans (if_pos frozen)))
    · exact congrArg Host.Outcome.next
        (issueNext_head hq hr ha (head.trans ((if_neg (Bool.not_eq_true _ ▸ free)).trans (issueWork_ok work))))
    · exact congrArg Host.Outcome.next
        (issueNext_head hq hr ha (head.trans ((if_neg (Bool.not_eq_true _ ▸ free)).trans (issueWork_error fault))))
  · intro pend early late
    have land : s.cur.land s.cur.copNow = { l.foldl (fun c p => p.dest.apply c) s.cur with pend := m } := by
      rw [LCore.land, pend, landList_append _ _ late _ _ early]
    exact congrArg (fun c => Host.Outcome.next { s with cur := c }) land
  · intro hl he hr
    exact congrArg Host.Outcome.next (landRow_ok hl he hr)
  · intro hq hk queued s0 at_
    have taken := takeCopy_head hq
    refine ⟨fun kind => ?_, fun kind => ?_, fun kind rows => ?_, fun kind rows => ?_⟩
    · exact congrArg Host.Outcome.next (taken.trans (runCopy_prefTr hk queued kind))
    · exact congrArg Host.Outcome.next (taken.trans (runCopy_prefMg hk queued kind))
    · exact congrArg Host.Outcome.next (taken.trans (runCopy_rows_ok hk queued kind rows))
    · exact congrArg Host.Outcome.next (taken.trans (runCopy_rows_error hk queued kind rows))
  · intro hk
    refine ⟨fun moved low => ?_, fun met low => ?_⟩
    · have lowest : s.cur.lowest (fun k => k.phase == .moved) = some tag :=
        lowest_eq hk (by simp [moved]) (fun x c hx hc => by simpa using low x c hx hc)
      exact congrArg Host.Outcome.next ((onCopy_lowest _ lowest).trans (endCopy_moved hk moved))
    · refine congrArg Host.Outcome.next ((onCopy_lowest _ (lowest_eq hk ?_ ?_)).trans (endCopy_met hk met))
      · simp only [met]
      · intro x c hx hc
        cases phase : c.phase with
        | met f => exact absurd phase (low x c f hx hc)
        | _ => rfl
  · intro room x space low hv
    have first : ((List.range 8).map (BitVec.ofNat 3)).find? (fun r => (s.cur.getS r).hasRoom) = some st :=
      find_lowest (w := 3) (hasRoom_iff.mpr space) (fun y hy => by
        rw [Bool.eq_false_iff, ne_eq, hasRoom_iff]
        exact low y hy)
    refine congrArg Host.Outcome.next (Eq.trans ?_ (readAhead_ok (hasRoom_iff.mpr space) hv))
    simp only [Stream.hasRoom] at first
    simp only [first]

end Sys2Proof.Machine

namespace Sys2Proof.Machine.Rings

set_option Elab.async false

open Host (Cell)

/-! The rings stay within 64 entries whatever a state does (R62). What the operations of a logical core do to its ring stands first; only a
dispatch lengthens one, and it drops the oldest entries past 64. Then comes one lemma for each operation of the model that needs one, in the order of the
model, which follows the shape of its definition and cites the lemmas of the operations it calls: `ringsOk_f` speaks of a function to states,
`keeps_f` of a meaning that may trap (`Keeps`), `safe_f` of a function to outcomes (`Safe`), as O5 does of the memories. An operation that changes
other fields alone needs none: that is `ringsOk_frame`. -/

/-- The ring of a logical core is within 64 entries. -/
abbrev RingOk (c : LCore) : Prop := c.ring.length ≤ 64

/-! ### The ring of a core: operations that leave it -/

theorem ring_ite {p : Prop} [Decidable p] {c d e : LCore} (hc : c.ring = e.ring) (hd : d.ring = e.ring) : (if p then c else d).ring = e.ring := by
  split <;> assumption

theorem ring_foldl {γ : Type} {f : LCore → γ → LCore} (hf : ∀ c x, (f c x).ring = c.ring) (l : List γ) (c : LCore) :
    (l.foldl f c).ring = c.ring := by
  induction l generalizing c with
  | nil => rfl
  | cons x l ih => exact (ih _).trans (hf c x)

theorem finish_ring (c : LCore) (fl : Flow) : (c.finish fl).ring = c.ring := by
  cases fl <;> rfl

theorem setBank_ring (c : LCore) (b : Bank) : (c.setBank b).ring = c.ring := ring_ite rfl rfl

theorem clearTags_ring (c : LCore) (m : W64) : (c.clearTags m).ring = c.ring :=
  ring_foldl (f := fun c t => if c.getTag t = .ready then c.setTag t .idle else c) (fun _ _ => ring_ite rfl rfl) _ _

theorem modCopy_ring (c : LCore) (t : BitVec 6) (f : Copy → Copy) : (c.modCopy t f).ring = c.ring := by
  unfold LCore.modCopy
  split <;> rfl

theorem foldFlags_ring (c : LCore) : c.foldFlags.ring = c.ring :=
  ring_foldl (fun c t => by split <;> rfl) _ _

theorem apply_ring (d : PendDest) (c : LCore) : (d.apply c).ring = c.ring := by
  cases d <;> rfl

theorem landList_ring (c : LCore) (t : Nat) (l : List PendWrite) : (landList c t l).ring = c.ring := by
  induction l generalizing c with
  | nil => rfl
  | cons w l ih => exact ring_ite ((ih _).trans (apply_ring _ c)) rfl

theorem land_ring (c : LCore) (t : Nat) : (c.land t).ring = c.ring := landList_ring ..

theorem nextPost_ring (c : LCore) : c.nextPost.ring = c.ring := by
  unfold LCore.nextPost
  split
  · rfl
  · exact ring_ite rfl rfl

theorem lateWith_ring (c : LCore) (q : BitVec 16) (e : Exn) : (c.lateWith q e).ring = c.ring := by
  unfold LCore.lateWith
  split
  · rfl
  · exact ring_ite rfl rfl

theorem resumeCopies_ring (c : LCore) (machine : Bool) : (c.resumeCopies machine).ring = c.ring :=
  ring_foldl (fun c t => by
    dsimp only
    split
    · exact ring_ite rfl rfl
    · rfl) _ _

theorem endStep_ring (c : LCore) (v : Vector Nat 10) : (c.endStep v).ring = c.ring := rfl

theorem scanTo_ring (c : LCore) (n k : BitVec 2) (len : Nat) (gain : Option (BitVec 4 × BitVec 4)) (skip : Bool) (stop : Nat) :
    (c.scanTo n k len gain skip stop).1.ring = c.ring := by
  unfold LCore.scanTo
  dsimp only
  split <;> rfl

theorem stopped_ring (c : LCore) : c.stopped.ring = c.ring := land_ring ..

theorem slotProgress_ring (c : LCore) : c.slotProgress.ring = c.ring :=
  ring_foldl (fun c r => by
    dsimp only
    split
    · exact ring_ite rfl rfl
    · rfl) _ _

/-! ### The ring of a core: operations that change its entries -/

theorem ringOk_of_ring {c d : LCore} (h : RingOk c) (hd : d.ring = c.ring) : RingOk d := by
  rwa [RingOk, hd]

theorem ringOk_map {c : LCore} {f : RingEntry → RingEntry} (h : RingOk c) : (c.ring.map f).length ≤ 64 := by
  rwa [List.length_map]

theorem ringOk_filter {c : LCore} {p : RingEntry → Bool} (h : RingOk c) : (c.ring.filter p).length ≤ 64 :=
  le_trans (List.length_filter_le ..) h

theorem ringOk_ite {p : Prop} [Decidable p] {c d : LCore} (hc : RingOk c) (hd : RingOk d) : RingOk (if p then c else d) := by
  split <;> assumption

theorem ringOk_setEntry {c : LCore} {r : RingEntry} (h : RingOk c) : RingOk (c.setEntry r) := ringOk_map h

theorem ringOk_faultEntry {c : LCore} {q : BitVec 16} {e : Exn} (h : RingOk c) : RingOk (c.faultEntry q e) :=
  ringOk_of_ring (ringOk_map h) (lateWith_ring ..)

theorem ringOk_standing {c : LCore} {t d : Nat} (h : RingOk c) : RingOk (c.standing t d) := ringOk_map h

theorem ringOk_holdFor {c : LCore} {u : CopUnit} {t : Nat} (h : RingOk c) : RingOk (c.holdFor u t) := ringOk_ite (ringOk_standing h) h

theorem ringOk_thawCop {c : LCore} (h : RingOk c) : RingOk c.thawCop := by
  unfold LCore.thawCop
  split
  · exact h
  · exact ringOk_standing h

theorem ringOk_started {c : LCore} {ci : Nat} {r : RingEntry} (h : RingOk c) : RingOk (c.started ci r) :=
  ringOk_setEntry (ringOk_of_ring h (land_ring ..))

theorem ringOk_complete {c : LCore} {u : CopUnit} {ci : Nat} {q : BitVec 16} {w : Issued} (h : RingOk c) :
    RingOk (c.complete u ci q w) := by
  unfold LCore.complete
  extract_lets c1 c2 c3
  have h2 : RingOk c2 := by
    unfold c2
    split <;> exact h
  have h3 : RingOk c3 := ringOk_map h2
  split
  · exact ringOk_of_ring h3 (lateWith_ring ..)
  · exact h3

/-- The ring keeps its last 64 entries (R62). -/
theorem ringOk_dispatched {c : LCore} {i : Instr} {k : Capture} : RingOk (c.dispatched i k) := by
  unfold LCore.dispatched
  simp only [RingOk, List.length_drop, List.length_append, List.length_singleton]
  omega

theorem ringOk_forward {c : LCore} {m : List (W64 × W64)} (h : RingOk c) : RingOk (c.forward m) := ringOk_map h

theorem ringOk_leaveHandler {c : LCore} {late : Bool} (h : RingOk c) : RingOk (c.leaveHandler late) := by
  unfold LCore.leaveHandler
  dsimp only [RingOk]
  split
  · exact ringOk_filter h
  · exact h

theorem ringOk_requeue {c : LCore} {l : List RingEntry} (h : RingOk c) : RingOk (c.requeue l) := ringOk_map h

theorem ringOk_unwork {c : LCore} {w : Work} {r : RingEntry} (h : RingOk c) : RingOk (c.unwork w r) := ringOk_map h

theorem ringOk_nil {c : LCore} (h : c.ring = []) : RingOk c := by
  simp [RingOk, h]

theorem ringOk_cleared : RingOk LCore.cleared := ringOk_nil rfl

theorem ringOk_leave {c : LCore} : RingOk c.leave := ringOk_nil rfl

/-- A core record holds 64 ring entries (R355). -/
theorem ringOk_loadExtension {c : LCore} {m : List Cell} {machine : Bool} : RingOk (c.loadExtension m machine) := by
  refine ringOk_of_ring ?_ (slotProgress_ring _)
  exact le_trans (List.length_filterMap_le ..) (List.length_range.le)

theorem ringOk_resumed {c : LCore} {g : Gang} (h : RingOk c) : RingOk (c.resumed g) :=
  ringOk_ite h (ringOk_of_ring h ((LCore.advance_ring (c.endStep (g.doneJoin.get 0))).trans (endStep_ring ..)))

theorem ringOk_restoredCore {s : State} {id ctx h ssc l pcid r f bars} : RingOk (s.restoredCore id ctx h ssc l pcid r f bars) :=
  ringOk_ite (ringOk_nil rfl) ringOk_cleared

theorem ringOk_inPlaceCore {s : State} {id ctx h ssc l pcid cut m r held} : RingOk (s.inPlaceCore id ctx h ssc l pcid cut m r held) := by
  refine ringOk_ite ringOk_restoredCore ?_
  cases held <;> exact ringOk_loadExtension

theorem ringOk_lose {c : LCore} {unit n row : Nat} {w : W64} {v : VWord} (h : RingOk c) : RingOk (c.lose unit n row w v) := by
  unfold LCore.lose
  refine ringOk_ite h (ringOk_ite h (ringOk_ite (ringOk_ite h h) (ringOk_ite h (ringOk_ite (ringOk_ite h h) (ringOk_ite h ?_)))))
  refine ringOk_ite (ringOk_map h) (ringOk_ite ?_ h)
  dsimp only
  split <;> exact h

/-! ### The rings of a state -/

theorem ringsOk_iff {s : State} : s.ringsOk = true ↔
    RingOk s.cur ∧ (∀ c ∈ s.others, RingOk c) ∧ ∀ i ∈ s.images, ∀ c ∈ i.cores, RingOk c := by
  simp [State.ringsOk]

theorem ringOk_cur {s : State} (h : s.ringsOk = true) : RingOk s.cur := (ringsOk_iff.mp h).1

theorem ringOk_others {s : State} (h : s.ringsOk = true) : ∀ c ∈ s.others, RingOk c := (ringsOk_iff.mp h).2.1

theorem ringOk_images {s : State} (h : s.ringsOk = true) : ∀ i ∈ s.images, ∀ c ∈ i.cores, RingOk c := (ringsOk_iff.mp h).2.2

/-- Whatever replaces the other fields, and those of the running core but its ring. -/
theorem ringsOk_frame {s : State} {cur : LCore}
    {turns inputs mem hostMem pads codeMap ipad loads ldq loading gangs nextGang queues lastQ irqs hostIrqs lastCuts mg feat die pkg
    straps peers farPorts frameOwner seals lineTags badSectors badPads corr failAt retiredLines spared retiredFrames pageCtrs
    moves relNo applied msgs stamps marked held silent expired links trPend trHeld trHoldSince trGap trGapAt wbFailed stands
    collected created rot spdm roce readout frozen clk free}
    (h : s.ringsOk = true) (hc : cur.ring = s.cur.ring := by rfl) :
    ({ s with
      cur := cur, turns := turns, inputs := inputs, mem := mem, hostMem := hostMem, pads := pads, codeMap := codeMap, ipad := ipad,
      loads := loads, ldq := ldq, loading := loading, gangs := gangs, nextGang := nextGang, queues := queues, lastQ := lastQ, irqs := irqs,
      hostIrqs := hostIrqs, lastCuts := lastCuts, mg := mg, feat := feat, die := die, pkg := pkg, straps := straps,
      peers := peers, farPorts := farPorts, frameOwner := frameOwner, seals := seals, lineTags := lineTags,
      badSectors := badSectors, badPads := badPads, corr := corr, failAt := failAt, retiredLines := retiredLines,
      spared := spared, retiredFrames := retiredFrames, pageCtrs := pageCtrs, moves := moves, relNo := relNo, applied := applied,
      msgs := msgs, stamps := stamps, marked := marked, held := held, silent := silent, expired := expired, links := links,
      trPend := trPend, trHeld := trHeld, trHoldSince := trHoldSince, trGap := trGap, trGapAt := trGapAt, wbFailed := wbFailed,
      stands := stands, collected := collected, created := created, rot := rot, spdm := spdm, roce := roce, readout := readout,
      frozen := frozen, clk := clk, free := free } : State).ringsOk = true := by
  rw [ringsOk_iff] at h ⊢
  rwa [RingOk, hc]

/-- Other cores, each with its ring within 64 entries. -/
theorem ringsOk_cores {s : State} {c : LCore} {l : List LCore} (h : s.ringsOk = true) (hc : RingOk c) (hl : ∀ d ∈ l, RingOk d) :
    ({ s with cur := c, others := l } : State).ringsOk = true := by
  rw [ringsOk_iff] at h ⊢
  exact ⟨hc, hl, h.2.2⟩

/-- A change of the in-place images, and of anything but the cores. -/
theorem ringsOk_of_images {s t : State} (h : s.ringsOk = true) (hi : ∀ i ∈ t.images, ∀ c ∈ i.cores, RingOk c)
    (hc : t.cur = s.cur := by rfl) (ho : t.others = s.others := by rfl) : t.ringsOk = true :=
  ringsOk_iff.mpr ⟨hc ▸ ringOk_cur h, ho ▸ ringOk_others h, hi⟩

theorem ringOk_core {s : State} {c : LCore} (h : s.ringsOk = true) (hc : c ∈ s.cur :: s.others) : RingOk c :=
  (List.forall_mem_cons.mpr ⟨ringOk_cur h, ringOk_others h⟩) c hc

theorem ringsOk_withCur {s : State} {c : LCore} (h : s.ringsOk = true) (hc : RingOk c) : ({ s with cur := c } : State).ringsOk = true :=
  ringsOk_cores h hc (ringOk_others h)

theorem ringsOk_modCur {s : State} {f : LCore → LCore} (h : s.ringsOk = true) (hf : (f s.cur).ring = s.cur.ring := by rfl) :
    (s.modCur f).ringsOk = true := ringsOk_frame h hf

theorem ringsOk_modRing {s : State} {f : LCore → LCore} (h : s.ringsOk = true) (hf : ∀ c, RingOk c → RingOk (f c)) :
    (s.modCur f).ringsOk = true := by
  rw [ringsOk_iff] at h ⊢
  exact ⟨hf _ h.1, h.2⟩

theorem ringsOk_mapCores {s : State} {f : LCore → LCore} (h : s.ringsOk = true) (hf : ∀ c, RingOk c → RingOk (f c)) :
    (s.mapCores f).ringsOk = true := by
  refine ringsOk_cores h (hf _ (ringOk_cur h)) fun c hc => ?_
  obtain ⟨d, hd, rfl⟩ := List.mem_map.mp hc
  exact hf d (ringOk_others h d hd)

theorem ringsOk_modWhere {s : State} {p : LCore → Bool} {f : LCore → LCore} (h : s.ringsOk = true)
    (hf : ∀ c, RingOk c → RingOk (f c) := by exact fun _ hc => hc) : (s.modWhere p f).ringsOk = true := by
  have either : ∀ c, RingOk c → RingOk (if p c then f c else c) := fun c hc => by
    split
    · exact hf c hc
    · exact hc
  refine ringsOk_cores h (either _ (ringOk_cur h)) fun c hc => ?_
  obtain ⟨d, hd, rfl⟩ := List.mem_map.mp hc
  exact either d (ringOk_others h d hd)

theorem ringsOk_ite {c : Prop} [Decidable c] {s t : State} (hs : s.ringsOk = true) (ht : t.ringsOk = true) :
    (if c then s else t).ringsOk = true := by
  split <;> assumption

theorem ringsOk_of_fst {α : Type} {p : State × α} {s : State} {a : α} (hp : p = (s, a)) (h : p.1.ringsOk = true) : s.ringsOk = true := by
  rwa [hp] at h

theorem ringsOk_of_snd {α : Type} {p : α × State} {s : State} {a : α} (hp : p = (a, s)) (h : p.2.ringsOk = true) : s.ringsOk = true := by
  rwa [hp] at h

theorem ringsOk_foldl {γ : Type} {f : State → γ → State} {l : List γ} {s : State} (h : s.ringsOk = true)
    (hf : ∀ s x, s.ringsOk = true → (f s x).ringsOk = true) : (l.foldl f s).ringsOk = true := by
  induction l generalizing s with
  | nil => exact h
  | cons x l ih => exact ih (hf s x h)

theorem mem_of_mem_insertKey {α : Type} {key : α → Nat} {x y : α} {l : List α} (h : y ∈ insertKey key x l) : y = x ∨ y ∈ l := by
  induction l with
  | nil => exact .inl (List.mem_singleton.mp h)
  | cons z l ih =>
    unfold insertKey at h
    split at h
    · exact List.mem_cons.mp h
    · exact (List.mem_cons.mp h).elim (fun first => .inr (first ▸ .head _)) fun rest => (ih rest).imp_right (.tail _)

theorem mem_of_mem_foldl_insertKey {α : Type} {key : α → Nat} {y : α} {l sorted : List α}
    (h : y ∈ l.foldl (fun a x => insertKey key x a) sorted) : y ∈ sorted ∨ y ∈ l := by
  induction l generalizing sorted with
  | nil => exact .inl h
  | cons x l ih =>
    rcases ih h with inserted | rest
    · exact (mem_of_mem_insertKey inserted).elim (fun first => .inr (first ▸ .head _)) .inl
    · exact .inr (.tail _ rest)

theorem mem_of_mem_sortKey {α : Type} {key : α → Nat} {y : α} {l : List α} (h : y ∈ sortKey key l) : y ∈ l :=
  (mem_of_mem_foldl_insertKey h).resolve_left List.not_mem_nil

/-- The members of a gang are logical cores of the die. -/
theorem ringOk_member {s : State} {id : BitVec 32} {c : LCore} (h : s.ringsOk = true) (hc : c ∈ s.memberList id) : RingOk c :=
  ringOk_core h (List.mem_of_mem_filter (mem_of_mem_sortKey hc))

/-! ### Operations that keep them -/

/-- A run has ended, by itself or with a trap, in a state whose rings are within 64 entries. -/
def Ends {α : Type} : EStateM.Result Exn State α → Prop
  | .ok _ t => t.ringsOk = true
  | .error _ t => t.ringsOk = true

/-- An operation keeps the rings within 64 entries, whether it ends or traps. -/
def Keeps {α : Type} (m : Ex α) : Prop := ∀ s : State, s.ringsOk = true → Ends (m s)

theorem Ends.run {α : Type} {m : Ex α} {s : State} (hm : Keeps m) (h : s.ringsOk = true) : Ends (m s) := hm s h

theorem Ends.ite {α : Type} {c : Prop} [Decidable c] {r q : EStateM.Result Exn State α} (hr : Ends r) (hq : Ends q) :
    Ends (if c then r else q) := by
  split <;> assumption

theorem ringsOk_of_ok {α : Type} {m : Ex α} {s t : State} {a : α} (hr : m s = .ok a t) (hm : Keeps m) (h : s.ringsOk = true) :
    t.ringsOk = true := by
  simpa [hr, Ends] using hm s h

theorem ringsOk_of_error {α : Type} {m : Ex α} {s t : State} {e : Exn} (hr : m s = .error e t) (hm : Keeps m) (h : s.ringsOk = true) :
    t.ringsOk = true := by
  simpa [hr, Ends] using hm s h

theorem ringsOk_attempt {α : Type} {m : Ex α} {s : State} (h : s.ringsOk = true) (hm : Keeps m) : (s.attempt m).ringsOk = true := by
  unfold State.attempt
  split
  · exact ringsOk_of_ok ‹_› hm h
  · exact ringsOk_of_error ‹_› hm h

namespace Keeps

variable {α β γ : Type} {m : Ex α} {f : α → Ex β}

theorem pure {a : α} : Keeps (Pure.pure a : Ex α) := fun _ h => h

theorem throw {e : Exn} : Keeps (throw e : Ex α) := fun _ h => h

theorem trapWith {c : BitVec 6} {t1 t2 : W64} : Keeps (trapWith c t1 t2 : Ex α) := throw

theorem bind (hm : Keeps m) (hf : ∀ a, Keeps (f a)) : Keeps (m >>= f) := by
  intro s hs
  simp only [Bind.bind, EStateM.bind]
  cases hr : m s with
  | ok a t => exact hf a t (ringsOk_of_ok hr hm hs)
  | error e t => exact ringsOk_of_error hr hm hs

theorem get {k : State → Ex β} (hk : ∀ s : State, s.ringsOk = true → Keeps (k s)) : Keeps (MonadState.get >>= k) :=
  fun s hs => hk s hs s hs

theorem set {t : State} (h : t.ringsOk = true) : Keeps (set t : Ex PUnit) := fun _ _ => h

theorem modify {k : State → State} (hk : ∀ s : State, s.ringsOk = true → (k s).ringsOk = true) : Keeps (modify k : Ex PUnit) := hk

theorem ite {c : Prop} [Decidable c] {n : Ex α} (hm : Keeps m) (hn : Keeps n) : Keeps (if c then m else n) := by
  split <;> assumption

/-- What stands behind an `if` without `else` comes once. -/
theorem guard {c : Prop} [Decidable c] {n : Ex β} (hm : Keeps m) (hn : Keeps n) : Keeps (if c then m >>= fun _ => n else n) :=
  ite (bind hm fun _ => hn) hn

theorem guard_seq {c : Prop} [Decidable c] {m' : Ex γ} {n : Ex β} (hm : Keeps m) (hm' : Keeps m') (hn : Keeps n) :
    Keeps (if c then m >>= fun _ => m' >>= fun _ => n else n) :=
  ite (bind hm fun _ => bind hm' fun _ => hn) hn

theorem modCur {f : LCore → LCore} (hf : ∀ c, (f c).ring = c.ring := by exact fun _ => rfl) : Keeps (modCur f) :=
  fun s hs => ringsOk_modCur hs (hf s.cur)

theorem modRing {f : LCore → LCore} (hf : ∀ c, RingOk c → RingOk (f c)) : Keeps (Machine.modCur f) := fun _ hs => ringsOk_modRing hs hf

/-- What is made of the running core may count on its ring. -/
theorem cur {k : LCore → Ex β} (hk : ∀ c : LCore, RingOk c → Keeps (k c)) : Keeps (Machine.cur >>= k) :=
  fun s hs => hk s.cur (ringOk_cur hs) s hs

theorem forIn {l : List γ} {b : β} {k : γ → β → Ex (ForInStep β)} (hk : ∀ x r, Keeps (k x r)) : Keeps (ForIn.forIn l b k) := by
  induction l generalizing b with
  | nil => exact .pure
  | cons x l ih =>
    rw [List.forIn_cons]
    refine .bind (hk x b) fun r => ?_
    cases r with
    | done b => exact .pure
    | yield b => exact ih

end Keeps

/-- The step ends with rings within 64 entries, if it ends in a state. -/
def Safe (o : Host.Outcome State Fault Refusal) : Prop := ∀ t, o = .next t → t.ringsOk = true

theorem Safe.next {t : State} (h : t.ringsOk = true) : Safe (.next t) := by
  rintro _ ⟨⟩; exact h

theorem Safe.ite {c : Prop} [Decidable c] {o p : Host.Outcome State Fault Refusal} (ho : Safe o) (hp : Safe p) :
    Safe (if c then o else p) := by
  split <;> assumption

/-! ### Storage, page walks and object pointers -/

theorem keeps_failMem {α : Type} {rep pa} : Keeps (failMem rep pa : Ex α) :=
  .bind (.modify fun _ hs => ringsOk_frame hs) fun _ => .trapWith

theorem ringsOk_retagLine {s : State} {whole l} (h : s.ringsOk = true) : (s.retagLine whole l).ringsOk = true :=
  ringsOk_ite (ringsOk_frame h) h

theorem ringsOk_retag {s : State} {pa n} (h : s.ringsOk = true) : (s.retag pa n).ringsOk = true :=
  ringsOk_foldl h fun _ _ hs => ringsOk_retagLine hs

theorem ringsOk_physStore {s : State} {pa n v} (h : s.ringsOk = true) : (s.physStore pa n v).ringsOk = true :=
  ringsOk_ite (ringsOk_retag (ringsOk_frame h)) h

theorem ringsOk_physZero {s : State} {pa n} (h : s.ringsOk = true) : (s.physZero pa n).ringsOk = true :=
  ringsOk_ite (ringsOk_retag (ringsOk_frame h)) h

theorem keeps_crossFar {l rep} : Keeps (crossFar l rep) :=
  .get fun _ hs => .ite (.bind (.set (ringsOk_frame hs)) fun _ => .trapWith) .pure

theorem keeps_locRead {l n va} : Keeps (locRead l n va) := by
  unfold locRead
  split
  · exact .get fun _ _ => .ite keeps_failMem .pure
  · exact .get fun _ _ => .pure
  · refine .bind keeps_crossFar fun _ => .get fun _ _ => .ite (.ite keeps_failMem .pure) ?_
    split
    · exact .pure
    · exact keeps_failMem
  · exact .get fun _ hs => .bind (.set (ringsOk_frame hs)) fun _ => .pure

theorem keeps_locWrite {l n v va} : Keeps (locWrite l n v va) := by
  unfold locWrite
  split
  · refine .get fun _ hs => .ite keeps_failMem ?_
    exact .set (ringsOk_frame (ringsOk_frame hs))
  · exact .modify fun _ hs => ringsOk_frame hs
  · refine .bind keeps_crossFar fun _ => .get fun _ hs => .ite (.ite keeps_failMem ?_) ?_
    · extract_lets s1
      have h1 : s1.ringsOk = true := ringsOk_frame hs
      exact .set (ringsOk_ite (ringsOk_retag h1) h1)
    split
    · exact keeps_failMem
    · exact .set (ringsOk_frame hs)
  · exact .pure

theorem keeps_locCells {l k va} : Keeps (locCells l k va) := by
  unfold locCells
  split
  · exact .get fun _ _ => .ite keeps_failMem .pure
  · exact .get fun _ _ => .pure
  · refine .bind keeps_crossFar fun _ => .get fun _ _ => .ite (.ite keeps_failMem .pure) ?_
    split
    · exact .pure
    · exact keeps_failMem
  · exact .get fun _ hs => .bind (.set (ringsOk_frame hs)) fun _ => .pure

theorem keeps_locFill {l k cs va} : Keeps (locFill l k cs va) := by
  unfold locFill
  split
  · refine .get fun _ hs => .ite keeps_failMem ?_
    exact .set (ringsOk_frame (ringsOk_frame hs))
  · exact .modify fun _ hs => ringsOk_frame hs
  · refine .bind keeps_crossFar fun _ => .get fun _ hs => .ite (.ite keeps_failMem ?_) ?_
    · extract_lets s1
      have h1 : s1.ringsOk = true := ringsOk_frame hs
      exact .set (ringsOk_ite (ringsOk_retag h1) h1)
    split
    · exact keeps_failMem
    · refine .set (ringsOk_foldl hs fun _ _ hs => ?_)
      split
      · exact ringsOk_frame hs
      · exact hs
  · exact .pure

theorem ringsOk_holdWord {s : State} {ctx base size pa} (h : s.ringsOk = true) : (s.holdWord ctx base size pa).ringsOk = true :=
  ringsOk_ite h (ringsOk_frame h)

theorem ringsOk_holdWords {s : State} {ctx base size l} (h : s.ringsOk = true) : (s.holdWords ctx base size l).ringsOk = true :=
  ringsOk_foldl h fun _ _ hs => ringsOk_holdWord hs

theorem ringsOk_ownTableWrite {s : State} {pa v} (h : s.ringsOk = true) : (s.ownTableWrite pa v).ringsOk = true :=
  ringsOk_frame (ringsOk_physStore h)

theorem ringsOk_holdCtx {s : State} {base ctx} (h : s.ringsOk = true) : (s.holdCtx base ctx).ringsOk = true := ringsOk_holdWords h

theorem ringsOk_setCtxWord {s : State} {ctx w v} (h : s.ringsOk = true) : (s.setCtxWord ctx w v).ringsOk = true := ringsOk_ownTableWrite h

theorem ringsOk_walked {s : State} {ctxbase named ctx va} (h : s.ringsOk = true) : (s.walked ctxbase named ctx va).ringsOk = true := by
  unfold State.walked
  split
  · exact h
  · exact ringsOk_foldl (ringsOk_holdCtx h) fun _ _ hs => ringsOk_holdWord hs

theorem ringsOk_takeFrame {s : State} {pa ctx pte tbl} (h : s.ringsOk = true) : (s.takeFrame pa ctx pte tbl).ringsOk = true :=
  ringsOk_ite h (ringsOk_frame (ringsOk_foldl h fun _ _ hs => ringsOk_frame hs))

theorem ringsOk_setAD {s : State} {ea pte acc} (h : s.ringsOk = true) : (s.setAD ea pte acc).ringsOk = true :=
  ringsOk_ite h (ringsOk_frame (ringsOk_physStore h))

theorem ringsOk_walkFor {s : State} {ctxbase named ctx va acc user} (h : s.ringsOk = true) :
    (s.walkFor ctxbase named ctx va acc user).2.ringsOk = true := by
  unfold State.walkFor
  dsimp only
  split
  · split
    · exact ringsOk_walked (ringsOk_frame (ringsOk_walked h))
    · exact ringsOk_walked h
  · exact ringsOk_walked h

theorem keeps_useLeaf {d ctxbase named ctx va acc user pin rep deny} :
    Keeps (useLeaf d ctxbase named ctx va acc user pin rep deny) := by
  unfold useLeaf
  refine .get fun _ hs => ?_
  refine .guard keeps_crossFar ?_
  refine .bind (.set (ringsOk_walkFor hs)) fun _ => ?_
  split
  · exact .throw
  · exact keeps_failMem
  · refine .ite .throw (.ite .throw (.ite keeps_failMem (.ite .throw ?_)))
    exact .bind (.set (ringsOk_setAD (ringsOk_takeFrame (ringsOk_walkFor hs)))) fun _ => .pure

theorem ringsOk_countPage {s : State} {ctx va pa n setMax} (h : s.ringsOk = true) : (s.countPage ctx va pa n setMax).ringsOk = true :=
  ringsOk_ite (ringsOk_ite (ringsOk_frame (ringsOk_physStore (ringsOk_frame h))) (ringsOk_frame (ringsOk_frame h))) (ringsOk_frame h)

theorem keeps_translateIn {ctxbase named ctx va acc cnt user rep} : Keeps (translateIn ctxbase named ctx va acc cnt user rep) :=
  .get fun _ _ => .bind keeps_useLeaf fun _ => .bind (.modify fun _ hs1 => ringsOk_countPage hs1) fun _ => .pure

theorem keeps_setDirtyBit {d ctxbase named ctx va} : Keeps (setDirtyBit d ctxbase named ctx va) := by
  refine .get fun _ _ => .ite .pure (.bind keeps_useLeaf fun _ => .bind keeps_locRead fun _ => .guard .throw ?_)
  exact .bind keeps_useLeaf fun _ => .bind keeps_locRead fun _ => keeps_locWrite

theorem keeps_translateN {va acc cnt} : Keeps (translateN va acc cnt) :=
  .get fun _ _ => .bind keeps_translateIn fun _ => .guard keeps_setDirtyBit .pure

theorem keeps_translate {va acc} : Keeps (translate va acc) := keeps_translateN

theorem ringsOk_useLink {s : State} {i} (h : s.ringsOk = true) : (s.useLink i).ringsOk = true := ringsOk_frame (ringsOk_frame h)

theorem keeps_awayAccess {ptr pkg acc} : Keeps (awayAccess ptr pkg acc) := by
  unfold awayAccess
  refine .get fun _ hs => ?_
  dsimp only
  split
  on_goal 1 => refine .bind .trapWith fun _ => ?_
  on_goal 2 => refine .bind (.set (ringsOk_useLink hs)) fun _ => ?_
  all_goals
    refine .get fun _ hs => .bind (.set (ringsOk_frame hs)) fun _ => ?_
    split
    · exact .pure
    · refine .guard (.modify fun _ hs => ringsOk_frame hs) ?_
      exact .ite (.bind (.modify fun _ hs => ringsOk_modCur hs) fun _ => .pure) .throw

theorem keeps_peerAccess {addr off n acc cnt} : Keeps (peerAccess addr off n acc cnt) := by
  refine .get fun _ hs => .guard keeps_failMem (.guard .trapWith (.bind (.set (ringsOk_holdWords (ringsOk_holdCtx hs))) fun _ => ?_))
  refine .get fun _ hs1 => .guard keeps_failMem (.guard .trapWith (.guard .trapWith (.guard .trapWith ?_)))
  refine .ite keeps_awayAccess (.guard_seq (.set (ringsOk_frame hs1)) .trapWith (.guard keeps_failMem ?_))
  refine .bind (.modify fun _ hs2 => ringsOk_holdWords hs2) fun _ => .guard .trapWith (.guard .trapWith ?_)
  exact .bind keeps_useLeaf fun _ => .guard (.modify fun _ hs2 => ringsOk_countPage hs2) (.guard keeps_setDirtyBit .pure)

theorem keeps_checkPtr {p} : Keeps (checkPtr p) := .guard .trapWith (.ite .trapWith .pure)

theorem keeps_locateN {p off n acc cnt} : Keeps (locateN p off n acc cnt) :=
  .get fun _ _ => .ite (.ite .trapWith .pure) (.ite keeps_translateN keeps_peerAccess)

theorem keeps_locate {p off n acc} : Keeps (locate p off n acc) := keeps_locateN

theorem keeps_readObjC {cnt p off n acc} : Keeps (readObjC cnt p off n acc) := by
  refine .bind keeps_locateN fun _ => .bind keeps_locRead fun _ => ?_
  exact .ite (.bind keeps_locateN fun _ => .bind keeps_locRead fun _ => .pure) .pure

theorem keeps_readObj {p off n acc} : Keeps (readObj p off n acc) := keeps_readObjC

theorem keeps_writeObjC {cnt p off n v acc} : Keeps (writeObjC cnt p off n v acc) :=
  .bind keeps_locateN fun _ => .ite (.bind keeps_locateN fun _ => .bind keeps_locWrite fun _ => keeps_locWrite) keeps_locWrite

theorem keeps_writeObj {p off n v acc} : Keeps (writeObj p off n v acc) := keeps_writeObjC

theorem keeps_snapshot {p off n acc} : Keeps (snapshot p off n acc) :=
  .bind (.forIn fun _ _ => .bind keeps_locateN fun _ => .bind keeps_locCells fun _ => .pure) fun _ => .pure

theorem keeps_fillObj {p off n cs acc} : Keeps (fillObj p off n cs acc) :=
  .bind (.forIn fun _ _ => .bind keeps_locate fun _ => .bind keeps_locFill fun _ => .pure) fun _ => .pure

theorem keeps_readHdr {p} : Keeps (readHdr p) := .bind keeps_readObj fun _ => .pure

theorem keeps_readHdr1 {p} : Keeps (readHdr1 p) := .bind keeps_readObj fun _ => .pure

theorem keeps_canonOf {p w0} : Keeps (canonOf p w0) := .ite keeps_readHdr1 .pure

/-! ### Trace and error records -/

theorem keeps_asCtx {α : Type} {m : Ex α} {ctx} (hm : Keeps m) : Keeps (asCtx ctx m : Ex α) := by
  refine .get fun _ _ => .bind (.modify fun _ hs1 => ringsOk_modCur hs1) fun _ => .bind hm fun _ => ?_
  exact .bind (.modify fun _ hs1 => ringsOk_modCur hs1) fun _ => .pure

theorem ringsOk_tryStore {s : State} {ctx va n v} (h : s.ringsOk = true) : (s.tryStore ctx va n v).2.ringsOk = true := by
  unfold State.tryStore
  split
  · exact h
  · split
    next t e => exact (ringsOk_of_ok e (keeps_asCtx (.bind keeps_translate fun _ => keeps_locWrite)) h :)
    · exact ringsOk_frame h

theorem ringsOk_tryLoad {s : State} {ctx va n} (h : s.ringsOk = true) : (s.tryLoad ctx va n).2.ringsOk = true := by
  unfold State.tryLoad
  split
  · exact h
  · split
    next t e => exact (ringsOk_of_ok e (keeps_asCtx (.bind keeps_translate fun _ => keeps_locRead)) h :)
    · exact ringsOk_frame h

theorem ringsOk_putTrace {s : State} {r} (h : s.ringsOk = true) : (s.putTrace r).1.ringsOk = true := by
  unfold State.putTrace
  split
  · exact ringsOk_frame h
  · split
    next t e => exact ringsOk_frame (ringsOk_of_snd e (ringsOk_tryStore h) :)
    next t e => exact ringsOk_frame (ringsOk_frame (ringsOk_of_snd e (ringsOk_tryStore h) :))

theorem ringsOk_putGap {s : State} {at_ src} (h : s.ringsOk = true) : (s.putGap at_ src).ringsOk = true :=
  ringsOk_ite h (ringsOk_ite (ringsOk_frame (ringsOk_putTrace h)) h)

theorem ringsOk_putInOrder {s : State} {r} (h : s.ringsOk = true) : (s.putInOrder r).ringsOk = true := ringsOk_putTrace (ringsOk_putGap h)

theorem ringsOk_dropHeld1 {s : State} {r} (h : s.ringsOk = true) : (s.dropHeld1 r).ringsOk = true :=
  ringsOk_ite (ringsOk_frame h) (ringsOk_frame h)

theorem ringsOk_dropHeldRecords {s : State} (h : s.ringsOk = true) : s.dropHeldRecords.ringsOk = true :=
  ringsOk_frame (ringsOk_foldl (ringsOk_frame h) fun _ _ hs => ringsOk_dropHeld1 hs)

theorem ringsOk_writeTraceRec {s : State} {r} (h : s.ringsOk = true) : (s.writeTraceRec r).ringsOk = true := by
  unfold State.writeTraceRec
  refine ringsOk_ite ?_ (ringsOk_putInOrder h)
  split
  · exact ringsOk_ite (ringsOk_frame h) (ringsOk_frame h)
  · exact ringsOk_ite (ringsOk_frame h) (ringsOk_frame h)

theorem ringsOk_writeTraceRecs {s : State} {l} (h : s.ringsOk = true) : (s.writeTraceRecs l).ringsOk = true :=
  ringsOk_foldl h fun _ _ hs => ringsOk_writeTraceRec hs

theorem ringsOk_flushTick {s : State} (h : s.ringsOk = true) : s.flushTick.ringsOk = true :=
  ringsOk_ite h (ringsOk_writeTraceRecs (ringsOk_frame h))

theorem ringsOk_traceRec {s : State} {r} (h : s.ringsOk = true) : (s.traceRec r).ringsOk = true := ringsOk_frame (ringsOk_flushTick h)

theorem ringsOk_expireHold {s : State} (h : s.ringsOk = true) : s.expireHold.ringsOk = true := by
  unfold State.expireHold
  split
  · exact h
  · exact ringsOk_ite h (ringsOk_dropHeldRecords h)

theorem ringsOk_flushTrace {s : State} (h : s.ringsOk = true) : s.flushTrace.ringsOk = true := by
  unfold State.flushTrace
  refine ringsOk_ite h ?_
  extract_lets s0 t u
  have hu : u.ringsOk = true := ringsOk_frame (ringsOk_foldl (ringsOk_frame (ringsOk_expireHold h)) fun _ _ hs => ringsOk_putInOrder hs)
  exact ringsOk_ite (ringsOk_putGap (ringsOk_frame hu)) hu

theorem ringsOk_traceAt {s : State} {ty ctx lcid src a b} (h : s.ringsOk = true) : (s.traceAt ty ctx lcid src a b).ringsOk = true :=
  ringsOk_ite (ringsOk_traceRec h) h

theorem ringsOk_trace {s : State} {ty ctx lcid unit a b} (h : s.ringsOk = true) : (s.trace ty ctx lcid unit a b).ringsOk = true :=
  ringsOk_traceAt h

theorem ringsOk_errorRecordAt {s : State} {ty ctx lcid src a b} (h : s.ringsOk = true) :
    (s.errorRecordAt ty ctx lcid src a b).ringsOk = true :=
  ringsOk_ite (ringsOk_frame h) (ringsOk_traceAt (ringsOk_frame (ringsOk_frame (ringsOk_physStore h))))

theorem ringsOk_errorRecord {s : State} {ty ctx lcid unit a b} (h : s.ringsOk = true) :
    (s.errorRecord ty ctx lcid unit a b).ringsOk = true :=
  ringsOk_errorRecordAt h

theorem ringsOk_corrected {s : State} {src a} (h : s.ringsOk = true) : (s.corrected src a).ringsOk = true := by
  unfold State.corrected
  dsimp only
  split
  · exact ringsOk_errorRecordAt (ringsOk_frame h)
  · exact ringsOk_ite (ringsOk_frame h) (ringsOk_errorRecordAt (ringsOk_frame h))

theorem ringsOk_ownWriteFailed {s : State} {what queue tag ctx va} (h : s.ringsOk = true) :
    (s.ownWriteFailed what queue tag ctx va).ringsOk = true :=
  ringsOk_errorRecord h

theorem ringsOk_memError {s : State} {ty ctx lcid unit e} (h : s.ringsOk = true) : (s.memError ty ctx lcid unit e).ringsOk = true :=
  ringsOk_ite (ringsOk_errorRecord (ringsOk_frame h)) h

theorem ringsOk_noteTrap {s : State} {ctx lcid unit cause epc e} (h : s.ringsOk = true) :
    (s.noteTrap ctx lcid unit cause epc e).ringsOk = true :=
  ringsOk_memError (ringsOk_trace (ringsOk_frame h))

/-! ### Registers, traps and code -/

theorem keeps_cur : Keeps cur := .get fun _ _ => .pure

theorem keeps_rdX {r} : Keeps (rdX r) := .get fun _ _ => .pure

theorem keeps_wrX {r v} : Keeps (wrX r v) := .modCur

theorem keeps_rdP {r} : Keeps (rdP r) := .get fun _ _ => .pure

theorem keeps_wrP {r v} : Keeps (wrP r v) := .modCur

theorem ringsOk_enterTrap {s : State} {e late int} (h : s.ringsOk = true) : (s.enterTrap e late int).ringsOk = true :=
  ringsOk_noteTrap (ringsOk_frame h)

theorem keeps_illegal {α : Type} {i} : Keeps (illegal i : Ex α) := .trapWith

theorem keeps_rangeTrap {α : Type} {i reason} : Keeps (rangeTrap i reason : Ex α) := .trapWith

theorem keeps_checkWord {i} : Keeps (checkWord i) := by
  unfold checkWord
  refine .get fun s _ => ?_
  dsimp only
  refine .guard keeps_illegal ?_
  split
  · exact .bind .trapWith fun _ => .ite .trapWith .pure
  · exact .ite .trapWith .pure

theorem ringsOk_finish {s : State} {fl t} (h : s.ringsOk = true) : (s.finish fl t).ringsOk = true :=
  ringsOk_frame h (finish_ring _ fl)

theorem keeps_eretCore {i} : Keeps (eretCore i) := .bind keeps_cur fun _ => .guard .trapWith (.bind .modCur fun _ => .pure)

theorem keeps_fetchWords {a k} : Keeps (fetchWords a k) := by
  induction k generalizing a with
  | zero => exact .pure
  | succ _ ih =>
    exact .get fun _ _ => .bind keeps_translateIn fun _ => .bind keeps_locRead fun _ => .bind ih fun _ => .pure

theorem keeps_copyIn {f pref} : Keeps (copyIn f pref) := by
  unfold copyIn
  refine .bind keeps_fetchWords fun _ => .modify fun _ hs => ?_
  dsimp only
  split
  · exact hs
  · exact ringsOk_frame hs

theorem keeps_prefetchIn {f} : Keeps (prefetchIn f) := by
  unfold prefetchIn
  refine .get fun _ hs => .ite .pure ?_
  split
  next t e => exact .set (ringsOk_of_ok e keeps_copyIn hs :)
  · exact .set (ringsOk_memError (ringsOk_frame hs))

theorem keeps_prefetchAll {l} : Keeps (prefetchAll l) := by
  induction l with
  | nil => exact .pure
  | cons _ _ ih => exact .bind keeps_prefetchIn fun _ => ih

theorem keeps_prefetchSucc {start} : Keeps (prefetchSucc start) := by
  unfold prefetchSucc
  refine .get fun _ _ => ?_
  split
  · exact .pure
  · exact keeps_prefetchAll

theorem keeps_enterCode {tgt} : Keeps (enterCode tgt) := by
  unfold enterCode
  refine .get fun _ _ => ?_
  refine .guard .trapWith ?_
  split
  · exact .trapWith
  · exact .guard keeps_copyIn (.bind (.modify fun _ hs1 => ringsOk_frame hs1) fun _ => .ite keeps_prefetchSucc .pure)

/-! ### Objects and the janitor -/

theorem ringsOk_createCtx {s : State} {ctx} (h : s.ringsOk = true) : (s.createCtx ctx).ringsOk = true :=
  ringsOk_ite h (ringsOk_frame (ringsOk_physZero h))

theorem ringsOk_setTidEntry {s : State} {ctx tid e} (h : s.ringsOk = true) : (s.setTidEntry ctx tid e).ringsOk = true :=
  ringsOk_physStore h

theorem ringsOk_dirtied {s t : State} {d ctx va pa} (h : s.ringsOk = true) (ht : s.dirtied d ctx va pa = some t) :
    t.ringsOk = true := by
  unfold State.dirtied at ht
  dsimp only at ht
  split at ht
  next e =>
    obtain rfl := Option.some.inj ht
    refine ringsOk_of_ok e keeps_setDirtyBit ?_
    split
    next e => exact ringsOk_ite (ringsOk_of_ok e keeps_useLeaf h) h
    · exact h
  · exact absurd ht (by simp)

theorem ringsOk_markP {s : State} {on k} (h : s.ringsOk = true) : (s.markP on k).ringsOk = true := by
  unfold State.markP
  dsimp only
  split
  · split
    next e => exact ringsOk_ite (ringsOk_frame h) h
    · exact h
  · refine ringsOk_ite h ?_
    split
    next e =>
      have ht := ringsOk_dirtied h e
      exact ringsOk_ite (ringsOk_frame ht) (ringsOk_physStore ht)
    · exact h
  · exact h

theorem ringsOk_syncPins {s : State} (h : s.ringsOk = true) : s.syncPins.ringsOk = true :=
  ringsOk_ite h (ringsOk_frame (ringsOk_foldl (ringsOk_foldl h fun _ _ hs => ringsOk_markP hs) fun _ _ hs => ringsOk_markP hs))

theorem ringsOk_forwardAll {s : State} {id ctx m} (h : s.ringsOk = true) : (s.forwardAll id ctx m).ringsOk = true := by
  unfold State.forwardAll
  extract_lets s1
  have h1 : s1.ringsOk = true := ringsOk_mapCores h fun c hc => by
    split
    · exact ringOk_forward hc
    · exact hc
  exact ringsOk_foldl (ringsOk_frame h1) fun _ _ hs => ringsOk_ite (ringsOk_setTidEntry hs) hs

theorem keeps_allOrNothing {α : Type} {m : Ex α} (hm : Keeps m) : Keeps (allOrNothing m : Ex α) := by
  unfold allOrNothing
  refine fun _ hs => ?_
  dsimp only
  split
  next t e => exact (ringsOk_of_ok e hm hs :)
  · exact ringsOk_frame hs

theorem keeps_roomOr {α : Type} {m : Ex α} {d} (hm : Keeps m) : Keeps (roomOr d m : Ex α) := by
  unfold roomOr
  refine fun _ hs => ?_
  dsimp only
  split
  next t e => exact (ringsOk_of_ok e hm hs :)
  next t e =>
    have ht : t.ringsOk = true := ringsOk_of_error e hm hs
    exact .ite ht ht

theorem ringsOk_healBytes {s : State} {cmp base bs} (h : s.ringsOk = true) : (s.healBytes cmp base bs).ringsOk = true :=
  ringsOk_ite h (ringsOk_frame h)

theorem keeps_storeBytes {l bs va} : Keeps (storeBytes l bs va) := by
  unfold storeBytes
  extract_lets put
  have hput : ∀ base m, Memory.wf m = true → Memory.wf (put base m) = true :=
    fun _ _ hm => Memory.wf_foldl hm fun _ _ hm => Memory.wf_write hm _ _
  split
  · exact .get fun _ hs => .ite keeps_failMem (.set (ringsOk_frame (ringsOk_frame hs)))
  · exact .modify fun _ hs => ringsOk_frame hs
  · refine .bind keeps_crossFar fun _ => .get fun s hs => .ite (.ite keeps_failMem ?_) ?_
    · extract_lets s2
      have h2 : s2.ringsOk = true := ringsOk_frame (ringsOk_healBytes hs)
      exact .set (ringsOk_ite (ringsOk_foldl h2 fun _ _ hs => ringsOk_retagLine hs) h2)
    · exact .bind (.forIn fun _ _ => .bind keeps_locWrite fun _ => .pure) fun _ => .pure
  · exact .pure

theorem keeps_mergePages {canon bs l} : Keeps (mergePages canon bs l) := by
  induction l with
  | nil => exact .pure
  | cons _ _ ih =>
    unfold mergePages
    dsimp only
    split
    · exact .bind keeps_locateN fun _ => .bind keeps_storeBytes fun _ => ih
    · exact ih

theorem keeps_mergeBytes {canon bs} : Keeps (mergeBytes canon bs) := keeps_mergePages

theorem keeps_padReadable {id off n rep} : Keeps (padReadable id off n rep) := .get fun _ _ => .ite keeps_failMem .pure

theorem keeps_dirtyReadable {id off rep} : Keeps (dirtyReadable id off rep) := .get fun _ _ => .ite keeps_failMem .pure

theorem keeps_writeBack {id off} : Keeps (writeBack id off) := by
  unfold writeBack
  refine .get fun _ _ => .ite ?_ .pure
  refine .bind (fun _ hs1 => ?_) fun _ => .modify fun _ hs1 => ringsOk_frame hs1
  split
  next t e => exact (ringsOk_of_ok e (.bind keeps_dirtyReadable fun _ => keeps_mergeBytes) hs1 :)
  · exact ringsOk_frame hs1

theorem keeps_writeBackAll {id l} : Keeps (writeBackAll id l) := by
  induction l with
  | nil => exact .pure
  | cons _ _ ih => exact .bind keeps_writeBack fun _ => ih

theorem ringsOk_bumpPad {s : State} {id size} (h : s.ringsOk = true) {r} (hr : s.bumpPad id size = some r) : r.2.ringsOk = true := by
  unfold State.bumpPad at hr
  dsimp only at hr
  split at hr
  · obtain rfl := Option.some.inj hr
    exact ringsOk_frame h
  · exact absurd hr (by simp)

theorem keeps_heapPlace {size} : Keeps (heapPlace size) := by
  refine .get fun _ hs => .guard keeps_failMem (.guard .trapWith (.bind (.set (ringsOk_setCtxWord hs)) fun _ => ?_))
  exact .bind keeps_fillObj fun _ => .pure

theorem keeps_reserveEach {reserve : ℕ → ℕ → Ex W64} {h l} (hreserve : ∀ x y, Keeps (reserve x y)) :
    Keeps (reserveEach reserve h l) := by
  induction l with
  | nil => exact .pure
  | cons _ _ ih =>
    refine .get fun _ _ => .bind (hreserve _ _) fun _ => .bind keeps_writeObj fun _ => .bind .modCur fun _ => ?_
    exact .bind ih fun _ => .bind .modCur fun _ => .pure

theorem keeps_reserveUp {reserve : ℕ → ℕ → Ex W64} {check : List W64 → Ex Bool} {k k1 l l1}
    (hreserve : ∀ x y, Keeps (reserve x y)) (hcheck : ∀ x, Keeps (check x)) : Keeps (reserveUp reserve check k k1 l l1) := by
  induction k generalizing k1 l1 with
  | zero => exact .pure
  | succ _ ih =>
    refine .get fun _ _ => .bind (hcheck _) fun _ => .ite .pure (.bind (keeps_reserveEach fun _ _ => hreserve _ _) fun _ => ?_)
    exact .ite .pure (.bind .modCur fun _ => .bind ih fun _ => .bind .modCur fun _ => .pure)

theorem keeps_unpinned {α : Type} {m : Ex α} (hm : Keeps m) : Keeps (unpinned m : Ex α) := by
  unfold unpinned
  refine fun _ hs => ?_
  dsimp only
  split
  next t e => exact ringsOk_modCur (ringsOk_of_ok e hm hs :)
  next t e => exact ringsOk_modCur (ringsOk_of_error e hm hs :)

theorem keeps_moveObj {id o n w1} : Keeps (moveObj id o n w1) :=
  .get fun _ _ => .bind keeps_padReadable fun _ => .bind keeps_fillObj fun _ => keeps_writeObj

theorem keeps_patchMoved {m l} : Keeps (patchMoved m l) := by
  induction l with
  | nil => exact .pure
  | cons _ _ ih =>
    exact .bind keeps_readHdr fun _ => .guard (.forIn fun _ _ => .bind keeps_readObj fun _ => .guard keeps_writeObj .pure) ih

theorem keeps_moveAll {home l} : Keeps (moveAll home l) := by
  induction l with
  | nil => exact .pure
  | cons _ _ ih => exact .get fun _ _ => .bind keeps_moveObj fun _ => ih

theorem keeps_forwardLevels {m} : Keeps (forwardLevels m) :=
  .bind (.forIn fun _ _ => .guard (.modify fun _ hs => ringsOk_forwardAll hs) .pure) fun _ => .pure

theorem keeps_noted {m : Ex Unit} {lvl} (hm : Keeps m) : Keeps (noted lvl m) := by
  unfold noted
  refine fun _ hs => ?_
  dsimp only
  split
  next t e => exact ringsOk_frame (ringsOk_of_ok e hm hs :)
  next t e =>
    have ht : t.ringsOk = true := ringsOk_of_error e hm hs
    exact ringsOk_ite (ringsOk_frame ht) ht

theorem keeps_mayCollect {id live} : Keeps (mayCollect id live) := by
  unfold mayCollect
  refine .get fun s _ => ?_
  dsimp only
  refine .guard keeps_failMem ?_
  split
  · exact .bind keeps_failMem fun _ => .ite .trapWith .pure
  · exact .ite .trapWith .pure

theorem keeps_nonePinned {id cl} : Keeps (nonePinned id cl) := .get fun _ _ => .guard .trapWith .pure

theorem keeps_collectWith {reserve : ℕ → ℕ → Ex W64} {up id} (hreserve : ∀ x y, Keeps (reserve x y)) :
    Keeps (collectWith reserve up id) := by
  refine keeps_noted (.get fun _ _ => .bind keeps_mayCollect fun _ => ?_)
  refine .bind (keeps_unpinned (keeps_reserveUp hreserve fun _ => keeps_nonePinned)) fun _ => ?_
  refine .bind keeps_writeBackAll fun _ => .bind keeps_moveAll fun _ => .get fun _ hs => ?_
  refine .bind (.set (ringsOk_forwardAll (ringsOk_mapCores ?_ ?_))) fun _ => .bind keeps_forwardLevels fun _ => ?_
  · exact ringsOk_frame hs
  · exact fun _ hc => ringOk_ite hc hc
  · exact .bind keeps_patchMoved fun _ => .get fun _ hs => .set (ringsOk_trace (ringsOk_frame hs))

theorem keeps_place {l0 size k k1} : Keeps (place l0 size k k1) := by
  induction k generalizing l0 size k1 with
  | zero => exact .ite keeps_heapPlace .trapWith
  | succ _ ih =>
    unfold place
    refine .ite keeps_heapPlace ?_
    refine .get fun _ hs => .ite ?_ (.ite .trapWith ih)
    split
    next t e => exact .bind (.set (ringsOk_bumpPad hs e :)) fun _ => .pure
    · refine .bind (keeps_roomOr (keeps_collectWith fun _ _ => ih)) fun _ => .get fun _ hs1 => ?_
      split
      next t e => exact .bind (.set (ringsOk_bumpPad hs1 e :)) fun _ => .pure
      · exact .ite .trapWith ih

theorem keeps_placeAt {l size} : Keeps (placeAt l size) := by
  unfold placeAt
  refine fun _ hs => ?_
  dsimp only
  split
  next t e => exact ringsOk_frame (ringsOk_of_ok e keeps_place hs :)
  next t e => exact ringsOk_frame (ringsOk_of_error e keeps_place hs :)

theorem keeps_collect {l} : Keeps (collect l) := .get fun _ _ => keeps_collectWith fun _ _ => keeps_place

theorem ringsOk_recollect {s : State} {levels} (h : s.ringsOk = true) : (s.recollect levels).ringsOk = true := by
  unfold State.recollect
  refine ringsOk_foldl h fun _ _ hs => ?_
  split
  next t e => exact ringsOk_frame (ringsOk_of_ok e keeps_collect hs :)
  next t e => exact ringsOk_frame (ringsOk_of_error e keeps_collect hs :)

theorem ringsOk_collectBack {s : State} {lvl} (h : s.ringsOk = true) : (s.collectBack lvl).ringsOk = true := by
  unfold State.collectBack
  split
  next t e => exact ringsOk_frame (ringsOk_of_ok e keeps_collect h :)
  next t e => exact ringsOk_memError (ringsOk_frame (ringsOk_of_error e keeps_collect h :))

theorem keeps_placeCopy {size lvl k k1} : Keeps (placeCopy size lvl k k1) := by
  induction k generalizing k1 with
  | zero => exact .pure
  | succ _ ih =>
    unfold placeCopy
    refine .ite .pure ?_
    refine .get fun _ hs => .ite ?_ ih
    split
    next t e => exact .bind (.set (ringsOk_bumpPad hs e :)) fun _ => .pure
    · refine .bind (fun _ hs1 => ?_) fun _ => ?_
      · split
        next t e => exact ringsOk_frame (ringsOk_of_ok e keeps_collect hs1 :)
        next t e =>
          have ht : t.ringsOk = true := ringsOk_of_error e keeps_collect hs1
          exact .ite (ringsOk_frame ht) (ringsOk_frame ht)
      · refine .get fun _ hs1 => ?_
        split
        next t e => exact .bind (.set (ringsOk_bumpPad hs1 e :)) fun _ => .pure
        · exact ih

theorem keeps_evictCopy {canon cp} : Keeps (evictCopy canon cp) :=
  .get fun _ _ => .bind keeps_writeBack fun _ => .modify fun _ hs1 => ringsOk_forwardAll (ringsOk_modCur hs1)

theorem keeps_markShared {p w0} : Keeps (markShared p w0) := by
  unfold markShared
  refine .bind keeps_locateN fun _ => .get fun _ _ => ?_
  dsimp only
  split
  · exact .pure
  · exact .pure
  · exact .bind keeps_setDirtyBit fun _ => keeps_locWrite

theorem keeps_ctxCheck {p w0} : Keeps (ctxCheck p w0) := .get fun _ _ => .guard .trapWith (.ite keeps_markShared .pure)

theorem keeps_touch {r} : Keeps (touch r) := by
  unfold touch
  refine .bind keeps_rdP fun _ => .bind keeps_checkPtr fun _ => .bind keeps_readHdr fun _ => .guard .trapWith ?_
  refine .bind keeps_ctxCheck fun _ => .ite (.bind .modCur fun _ => .pure) (.ite .pure (.get fun _ _ => ?_))
  split
  · exact .pure
  refine .ite .pure ?_
  split
  · exact .bind .modCur fun _ => .bind keeps_readHdr fun _ => .bind keeps_wrP fun _ => .pure
  refine .ite ?_ ?_
  on_goal 1 =>
    split
    on_goal 1 => refine .bind keeps_evictCopy fun _ => ?_
  all_goals
    refine .bind keeps_placeCopy fun _ => ?_
    split
    · exact .pure
    refine .bind keeps_rdP fun _ => .get fun _ _ => .bind (fun _ hs => ?_) fun _ => ?_
    · split
      next e => exact (ringsOk_of_ok e keeps_snapshot hs :)
      next e =>
        have ht := ringsOk_of_error e keeps_snapshot hs
        exact ringsOk_frame ht
    · exact .bind keeps_fillObj fun _ => .bind keeps_writeObj fun _ => .bind .modCur fun _ => .bind keeps_wrP fun _ => .pure

theorem keeps_markDirty {p o n} : Keeps (markDirty p o n) :=
  .ite (.modify fun _ hs => ringsOk_ite (ringsOk_frame hs) hs) .pure

theorem keeps_readPay {p o n acc} : Keeps (readPay p o n acc) := keeps_readObj

theorem keeps_writePayC {cnt p o n v acc} : Keeps (writePayC cnt p o n v acc) := .bind keeps_writeObjC fun _ => keeps_markDirty

theorem keeps_writePay {p o n v acc} : Keeps (writePay p o n v acc) := keeps_writePayC

theorem keeps_lenOf {v} : Keeps (lenOf v) := .ite .pure (.bind keeps_readHdr fun _ => .bind keeps_ctxCheck fun _ => .pure)

theorem keeps_allocObj {l kind len} : Keeps (allocObj l kind len) :=
  .bind keeps_placeAt fun _ => .get fun _ _ => .bind keeps_writeObj fun _ => .pure

theorem keeps_homeLevel {p w0} : Keeps (homeLevel p w0) := .bind keeps_canonOf fun _ => .pure

theorem keeps_promoteCheck {cl} : Keeps (promoteCheck cl) := by
  unfold promoteCheck
  refine .get fun _ _ => ?_
  refine .guard keeps_failMem ?_
  refine .bind ?_ fun _ => ?_
  · refine .forIn fun _ _ => .bind keeps_padReadable fun _ => ?_
    refine .guard keeps_padReadable ?_
    split
    · exact .bind .trapWith fun _ => .pure
    · exact .pure
  · refine .bind ?_ fun _ => .pure
    refine .forIn fun _ _ => ?_
    dsimp only
    split
    · exact .bind .trapWith fun _ => .guard .trapWith .pure
    · exact .guard .trapWith .pure

theorem keeps_promote {v h} : Keeps (promote v h) := by
  unfold promote
  refine .get fun _ _ => ?_
  refine .bind (keeps_unpinned (keeps_reserveUp (fun _ _ => keeps_placeAt) fun _ => keeps_promoteCheck)) fun _ => ?_
  split
  · exact .pure
  · exact .bind keeps_moveAll fun _ => .bind keeps_forwardLevels fun _ => .bind keeps_patchMoved fun _ => .pure

theorem keeps_stampRelease {canon} : Keeps (stampRelease canon) := .modify fun _ hs => ringsOk_frame (ringsOk_frame hs)

theorem keeps_observe {canon} : Keeps (observe canon) := by
  unfold observe
  refine .modify fun _ hs => ?_
  split
  · exact ringsOk_frame hs
  · exact hs

theorem keeps_raiseVer {p} : Keeps (raiseVer p) := .bind keeps_readObj fun _ => keeps_writeObj

theorem ringsOk_applyMerge {s : State} {m} (h : s.ringsOk = true) : (s.applyMerge m).ringsOk = true := by
  unfold State.applyMerge
  dsimp only
  split
  next t e => exact (ringsOk_of_ok e (keeps_asCtx (.bind keeps_raiseVer fun _ => keeps_mergeBytes)) h :)
  · exact ringsOk_frame h

theorem ringsOk_shareHome {s : State} {o} (h : s.ringsOk = true) : (s.shareHome o).ringsOk = true := by
  unfold State.shareHome
  refine ringsOk_ite h ?_
  split
  next t e => exact (ringsOk_of_ok e (keeps_asCtx (.bind keeps_readHdr fun _ => .ite keeps_writeObj .pure)) h :)
  · exact ringsOk_frame h

theorem ringsOk_applyThis {s : State} {m} (h : s.ringsOk = true) : (s.applyThis m).ringsOk = true := by
  unfold State.applyThis
  extract_lets src s1 s2
  have h1 : s1.ringsOk = true := ringsOk_frame (ringsOk_frame h)
  have h2 : s2.ringsOk = true := ringsOk_ite h1 (ringsOk_shareHome h1)
  split
  · exact ringsOk_applyMerge h2
  · exact h2

theorem ringsOk_applyMsg {s : State} (h : s.ringsOk = true) : s.applyMsg.ringsOk = true := by
  unfold State.applyMsg
  split
  · exact h
  · exact ringsOk_applyThis h

theorem ringsOk_applyMsgs {s : State} {k} (h : s.ringsOk = true) : (s.applyMsgs k).ringsOk = true := by
  induction k generalizing s with
  | zero => exact h
  | succ _ ih => exact ih (ringsOk_applyMsg h)

theorem ringsOk_messagesCome {s : State} (h : s.ringsOk = true) : s.messagesCome.ringsOk = true :=
  ringsOk_ite h (ringsOk_applyMsgs (ringsOk_frame h))

theorem ringsOk_applyNeeded {s : State} {p k} (h : s.ringsOk = true) : (State.applyNeeded p s k).ringsOk = true := by
  induction k generalizing s with
  | zero => exact h
  | succ _ ih => exact ringsOk_ite h (ih (ringsOk_applyMsg h))

theorem ringsOk_forAcquire {s : State} {p} (h : s.ringsOk = true) : (s.forAcquire p).ringsOk = true :=
  ringsOk_applyNeeded (ringsOk_messagesCome h)

theorem keeps_ackedNow {before} : Keeps (ackedNow before) := by
  unfold ackedNow
  refine .get fun _ _ => ?_
  split
  · exact .throw
  · exact .pure

theorem keeps_release {p w0} : Keeps (release p w0) := by
  refine .ite ?_ ?_
  · refine .get fun _ _ => .bind keeps_dirtyReadable fun _ => .bind keeps_mergeBytes fun _ => .bind keeps_raiseVer fun _ => ?_
    refine .bind keeps_ackedNow fun _ => .bind (.modify fun _ hs1 => ringsOk_frame hs1) fun _ => ?_
    exact keeps_stampRelease
  · exact .get fun _ _ => .bind keeps_raiseVer fun _ => .bind keeps_ackedNow fun _ => keeps_stampRelease

theorem keeps_acquire {p w0} : Keeps (acquire p w0) := by
  refine .ite ?_ ?_
  · refine .get fun _ _ => .bind keeps_snapshot fun _ => .bind keeps_padReadable fun _ => ?_
    exact .bind (.modify fun _ hs1 => ringsOk_frame hs1) fun _ => keeps_observe
  · exact .bind keeps_readHdr1 fun _ => keeps_observe

/-! ### Tensor entries, the tile loader and words -/

theorem keeps_needEntry {i accept e} : Keeps (needEntry i accept e) := by
  unfold needEntry
  refine .get fun _ _ => ?_
  split
  · exact keeps_rangeTrap
  · exact .pure

theorem keeps_placeHdr {p} : Keeps (placeHdr p) :=
  .bind keeps_checkPtr fun _ => .bind keeps_readObjC fun _ => .guard .trapWith .pure

theorem keeps_ackedLate {m : Ex Unit} (hm : Keeps m) : Keeps (ackedLate m) := by
  unfold ackedLate
  refine .get fun _ _ => .bind hm fun _ => .get fun _ _ => ?_
  split
  · exact .pure
  · exact .bind .modCur fun _ => .throw

theorem keeps_readSeg {e i0 r cnt acc} : Keeps (readSeg e i0 r cnt acc) :=
  .bind keeps_placeHdr fun _ => .guard .trapWith (.bind keeps_readPay fun _ => .pure)

theorem keeps_readSide {p o n acc} : Keeps (readSide p o n acc) := .bind keeps_placeHdr fun _ => .guard .trapWith keeps_readPay

theorem keeps_readScaleF {e r k acc} : Keeps (readScaleF e r k acc) :=
  .bind keeps_readSide fun _ => .ite (.bind keeps_readSide fun _ => .pure) .pure

theorem keeps_readScale {e r k acc} : Keeps (readScale e r k acc) := .bind keeps_readScaleF fun _ => .pure

theorem keeps_rowSide {e i0 r cnt k k1} : Keeps (rowSide e i0 r cnt k k1) := by
  induction k generalizing k1 with
  | zero => exact .pure
  | succ _ ih => exact .bind (.ite .pure (.ite keeps_readScale .pure)) fun _ => .bind ih fun _ => .pure

theorem keeps_loadRow {e rc j} : Keeps (loadRow e rc j) :=
  .bind (.ite .pure keeps_readSeg) fun _ => .bind keeps_rowSide fun _ => .pure

theorem keeps_loadStep {r} : Keeps (loadStep r) := .bind keeps_needEntry fun _ => keeps_loadRow

theorem ringsOk_landRow {s : State} (h : s.ringsOk = true) : s.landRow.ringsOk = true := by
  unfold State.landRow
  split
  · exact h
  · split
    · exact ringsOk_modCur h
    · split
      next t e => exact ringsOk_modRing (ringsOk_of_error e keeps_loadStep h :) fun _ hc => ringOk_faultEntry hc
      next t e =>
        exact ringsOk_modRing (ringsOk_of_ok e keeps_loadStep h :) fun _ hc => ringOk_ite (ringOk_setEntry hc) (ringOk_setEntry hc)

theorem ringsOk_landRows {s : State} {k} (h : s.ringsOk = true) : (s.landRows k).ringsOk = true := by
  induction k generalizing s with
  | zero => exact h
  | succ _ ih => exact ringsOk_ite h (ih (ringsOk_landRow h))

theorem ringsOk_finishLoads {s : State} (h : s.ringsOk = true) : s.finishLoads.ringsOk = true := ringsOk_landRows h

theorem ringsOk_quiesce {s : State} (h : s.ringsOk = true) : s.quiesce.ringsOk = true :=
  ringsOk_frame (ringsOk_modCur (ringsOk_ite h (ringsOk_finishLoads h)) (nextPost_ring _)) (land_ring ..)

theorem ringsOk_takeTrap {s : State} {e int} (h : s.ringsOk = true) : (s.takeTrap e int).ringsOk = true := by
  unfold State.takeTrap
  dsimp only
  split <;> exact ringsOk_enterTrap (ringsOk_quiesce h)

theorem ringsOk_takeLate {s : State} (h : s.ringsOk = true) : s.takeLate.ringsOk = true := by
  unfold State.takeLate
  split
  · exact ringsOk_enterTrap (ringsOk_quiesce h)
  · exact h

theorem ringsOk_stall {s : State} (h : s.ringsOk = true) : s.stall.ringsOk = true := ringsOk_finish h

theorem safe_draining {f : State → Host.Outcome State Fault Refusal} {s : State} (hf : ∀ x, x.ringsOk = true → Safe (f x))
    (h : s.ringsOk = true) : Safe (draining f s) := by
  unfold draining
  split
  · exact .next (ringsOk_takeLate (ringsOk_modCur h))
  · exact .ite (.next (ringsOk_stall h)) (hf _ h)

theorem ringsOk_undone {s t : State} (h : s.ringsOk = true) (ht : t.ringsOk = true) : (s.undone t).ringsOk = true := by
  unfold State.undone
  refine ringsOk_ite ht (ringsOk_ite (ringsOk_modCur (ringsOk_frame ht)) ?_)
  extract_lets v c u
  have hu : u.ringsOk = true := ringsOk_frame (ringsOk_recollect h)
  exact ringsOk_ite (ringsOk_setCtxWord hu) hu

theorem ringsOk_trapFrom {s : State} {t : State} {e} (h : s.ringsOk = true) (ht : t.ringsOk = true) : (s.trapFrom t e).ringsOk = true :=
  ringsOk_ite (ringsOk_stall h) (ringsOk_takeTrap (ringsOk_undone h ht))

theorem safe_runWord {body : Ex Flow} {s : State} {i t} (hbody : Keeps body) (h : s.ringsOk = true) :
    Safe (runWord i t body s) := by
  unfold runWord
  refine .ite (.next (ringsOk_ite (ringsOk_takeLate h) (ringsOk_stall h))) ?_
  dsimp only
  split
  next t1 e => exact .next (ringsOk_finish (ringsOk_of_ok e (.bind keeps_checkWord fun _ => hbody) (ringsOk_frame h) :))
  next t1 e =>
    exact .next (ringsOk_trapFrom (ringsOk_frame h) (ringsOk_of_error e (.bind keeps_checkWord fun _ => hbody) (ringsOk_frame h) :))

theorem safe_runStep {f : State → State} {s : State} (hf : ∀ x, x.ringsOk = true → (f x).ringsOk = true) (h : s.ringsOk = true) :
    Safe (runStep f s) :=
  .next (hf _ h)

/-! ### Flags and modes -/

theorem keeps_raiseFlags {f} : Keeps (raiseFlags f) := .modCur

/-! ### The coprocessor -/

theorem keeps_issueWork {act : RingEntry → Ex Issued} {u r ci} (hact : ∀ x, Keeps (act x)) : Keeps (issueWork u act r ci) := by
  unfold issueWork
  refine fun _ hs => ?_
  dsimp only
  split
  all_goals have h0 := ringsOk_modRing hs fun _ hc => ringOk_started (ci := ci) (r := { r with state := .issued }) hc
  next t e => exact ringsOk_modRing (ringsOk_of_error e (hact _) h0 :) fun _ hc => ringOk_faultEntry hc
  next t e => exact ringsOk_modRing (ringsOk_of_ok e (hact _) h0 :) fun _ hc => ringOk_complete hc

theorem keeps_issueNow {act : RingEntry → Ex Issued} {u r} (hact : ∀ x, Keeps (act x)) : Keeps (issueNow u act r) := by
  unfold issueNow
  intro s hs
  beta_reduce
  extract_lets s0
  have h0 : s0.ringsOk = true := ringsOk_ite (ringsOk_finishLoads hs) hs
  exact .ite h0 (.ite (ringsOk_modCur h0) (.run (keeps_issueWork hact) (ringsOk_modRing h0 fun _ hc => ringOk_thawCop hc)))

theorem keeps_issue {act : RingEntry → Ex Issued} {u q} (hact : ∀ x, Keeps (act x)) : Keeps (issue u act q) := by
  unfold issue
  refine fun _ hs => ?_
  dsimp only
  split
  · have held := ringsOk_modRing hs fun c hc => ringOk_holdFor (u := u) (t := c.copCycle u ‹_›) hc
    exact .ite hs (.ite held (.run (keeps_issueNow fun _ => hact _) held))
  · exact hs

theorem keeps_dispatch {i k} : Keeps (dispatch i k) :=
  .bind keeps_cur fun _ => .bind (.modRing fun _ _ => ringOk_dispatched) fun _ => .pure

theorem keeps_orStall {m : Ex Bool} (hm : Keeps m) : Keeps (orStall m) := by
  unfold orStall
  refine fun _ hs => ?_
  dsimp only
  split
  next t e => exact (ringsOk_of_ok e hm hs :)
  · exact ringsOk_finishLoads hs
  next t e => exact (ringsOk_of_error e hm hs :)

theorem keeps_enqueue {prep : Ex Capture} {act : RingEntry → Ex Issued} {i u} (hprep : Keeps prep) (hact : ∀ x, Keeps (act x)) :
    Keeps (enqueue i u prep act) :=
  keeps_orStall (.bind keeps_cur fun _ => .ite .pure (.bind hprep fun _ => .get fun _ _ =>
    .ite .pure (.bind keeps_dispatch fun _ => .guard (keeps_issue fun _ => hact _) .pure)))

theorem safe_runCop {prep : Ex Capture} {act : RingEntry → Ex Issued} {s : State} {i uses u} (hprep : Keeps prep)
    (hact : ∀ x, Keeps (act x)) (h : s.ringsOk = true) : Safe (runCop i uses u prep act s) :=
  safe_runWord (.bind keeps_cur fun _ => .guard keeps_rangeTrap (keeps_enqueue hprep fun _ => hact _)) h

theorem keeps_noCapture : Keeps noCapture := .pure

theorem keeps_captureX {a b} : Keeps (captureX a b) := .bind keeps_cur fun _ => .pure

theorem keeps_holdSources {r s1 s2 m} : Keeps (holdSources r s1 s2 m) :=
  .ite .pure (.bind (.modRing fun _ hc => ringOk_setEntry hc) fun _ => .pure)

theorem keeps_setProgress {q n} : Keeps (setProgress q n) := .modRing fun _ hc => ringOk_map hc

theorem keeps_drain : Keeps drain := by
  unfold drain
  refine .bind (.modify fun _ hs => ringsOk_quiesce hs) fun _ => .get fun _ _ => ?_
  split
  · exact .throw
  · exact .pure

/-! ### Vector instructions -/

theorem keeps_elementWise {d t m n busy lat f e} : Keeps (elementWise d t m n busy lat f e) :=
  .bind keeps_cur fun _ => .bind keeps_raiseFlags fun _ => .pure

theorem keeps_compare {d a b m n t f e} : Keeps (compare d a b m n t f e) :=
  .bind keeps_cur fun _ => .bind keeps_raiseFlags fun _ => .pure

theorem keeps_reduce {op d a m n t e} : Keeps (reduce op d a m n t e) :=
  .bind keeps_cur fun _ => .bind keeps_raiseFlags fun _ => .pure

theorem keeps_scan {op d a m n t e} : Keeps (scan op d a m n t e) :=
  .bind keeps_cur fun _ => .bind keeps_raiseFlags fun _ => .pure

theorem keeps_convertVec {ov d a s m n t e} : Keeps (convertVec ov d a s m n t e) :=
  .bind keeps_cur fun _ => .bind keeps_raiseFlags fun _ => .pure

theorem keeps_quantVec {d a b t _e} : Keeps (quantVec d a b t _e) :=
  .bind keeps_cur fun _ => .bind keeps_raiseFlags fun _ => .pure

/-! ### The copy engines -/

theorem keeps_curEntry {tid} : Keeps (curEntry tid) := .get fun _ _ => .ite .pure keeps_failMem

theorem keeps_remoteByte : Keeps remoteByte := .get fun _ hs => .bind (.set (ringsOk_frame hs)) fun _ => .pure

theorem keeps_remoteBytes {k} : Keeps (remoteBytes k) := by
  induction k with
  | zero => exact .pure
  | succ _ ih => exact .bind keeps_remoteByte fun _ => .bind ih fun _ => .pure

theorem keeps_descriptor {p off} : Keeps (descriptor p off) :=
  .bind keeps_readPay fun _ => .bind keeps_readPay fun _ => .bind keeps_readPay fun _ => .get fun _ _ => .guard .trapWith .pure

theorem keeps_remoteRead {p n} : Keeps (remoteRead p n) := .bind keeps_descriptor fun _ => keeps_remoteBytes

theorem keeps_remoteWrite {w n v} : Keeps (remoteWrite w n v) := .modify fun _ hs => ringsOk_frame hs

theorem keeps_engineRead {first p off n sh acc} : Keeps (engineRead first p off n sh acc) :=
  .bind keeps_placeHdr fun _ => .ite keeps_remoteRead (.guard .trapWith keeps_readObjC)

theorem keeps_engineOld {p off n acc} : Keeps (engineOld p off n acc) :=
  .bind keeps_placeHdr fun _ => .ite keeps_remoteRead (.guard .trapWith keeps_readObjC)

theorem keeps_engineWritable {p off n acc} : Keeps (engineWritable p off n acc) :=
  .bind keeps_placeHdr fun _ => .guard .trapWith (.guard .trapWith .pure)

theorem keeps_engineWrite {first p off n v sh acc} : Keeps (engineWrite first p off n v sh acc) :=
  .bind keeps_engineWritable fun _ => .ite (.bind keeps_descriptor fun _ => keeps_remoteWrite) keeps_writePayC

theorem keeps_readElem {first e i0 r acc} : Keeps (readElem first e i0 r acc) := .bind keeps_engineRead fun _ => .pure

theorem keeps_oldElem {e i0 r acc} : Keeps (oldElem e i0 r acc) := .bind keeps_engineOld fun _ => .pure

theorem keeps_oldByte {p off acc} : Keeps (oldByte p off acc) :=
  .bind keeps_engineWritable fun _ => .ite keeps_remoteRead keeps_readObjC

theorem keeps_writeElem {first e i0 r v acc} : Keeps (writeElem first e i0 r v acc) :=
  .ite (.bind keeps_oldByte fun _ => keeps_engineWrite) keeps_engineWrite

theorem keeps_readLane {first e i0 r acc} : Keeps (readLane first e i0 r acc) := keeps_engineRead

theorem keeps_oldLane {e i0 r acc} : Keeps (oldLane e i0 r acc) := keeps_engineOld

theorem keeps_openLine {p off hi} : Keeps (openLine p off hi) := by
  unfold openLine
  refine .bind keeps_locateN fun _ => ?_
  split
  · exact .ite (.modify fun _ hs => ringsOk_frame hs) (.ite (.modify fun _ hs => ringsOk_frame hs) .pure)
  · exact .ite (.modify fun _ hs => ringsOk_frame hs) .pure
  · exact .pure

theorem keeps_burstTags {t0 p whole last n off} : Keeps (burstTags t0 p whole last n off) := by
  induction n generalizing off with
  | zero => exact .pure
  | succ _ ih =>
    unfold burstTags
    refine .ite .pure ?_
    refine .bind keeps_locateN fun _ => ?_
    split
    · exact .bind (.modify fun _ hs => ringsOk_frame hs) fun _ => ih
    · exact ih
    · exact .pure

theorem keeps_pairOfTensor {c e} : Keeps (pairOfTensor c e) :=
  .bind keeps_placeHdr fun _ => .get fun _ _ => .guard .trapWith .pure

theorem keeps_landOne {c first i sr j} : Keeps (landOne c first i sr j) := by
  refine .bind keeps_cur fun _ => ?_
  refine .ite ?_ ?_
  · exact .bind keeps_readElem fun _ => .bind keeps_oldLane fun _ => .bind keeps_engineWrite fun _ => .pure
  · refine .ite ?_ ?_
    · exact .bind keeps_readLane fun _ => .bind keeps_oldLane fun _ => .bind keeps_engineWrite fun _ => .pure
    · refine .bind keeps_readElem fun _ => .bind (.ite .pure keeps_oldElem) fun _ => ?_
      refine .ite ?_ ?_
      · exact .bind keeps_engineRead fun _ => .bind keeps_engineWrite fun _ => .bind keeps_writeElem fun _ => .pure
      · exact .bind keeps_writeElem fun _ => .pure

theorem keeps_landStep {c lines i sr j0 j} : Keeps (landStep c lines i sr j0 j) := .guard keeps_openLine keeps_landOne

theorem keeps_modCopy {t f} : Keeps (modCur (fun c => c.modCopy t f)) := .modCur fun _ => modCopy_ring ..

theorem ringsOk_modCopy {s : State} {t f} (h : s.ringsOk = true) : (s.modCur (fun c => c.modCopy t f)).ringsOk = true :=
  ringsOk_modCur h (modCopy_ring ..)

theorem keeps_copyRow {t c lines i sr j0 k k1} : Keeps (copyRow t c lines i sr j0 k k1) := by
  induction k generalizing k1 with
  | zero => exact .pure
  | succ _ ih => exact .bind keeps_modCopy fun _ => .bind keeps_landStep fun _ => .bind keeps_modCopy fun _ => ih

theorem keeps_burstRow {t c lines i sr j0} : Keeps (burstRow t c lines i sr j0) := by
  unfold burstRow
  refine fun _ hs => ?_
  dsimp only
  split
  next t1 e =>
    have ht1 : t1.ringsOk = true := ringsOk_of_ok e keeps_copyRow hs
    exact ringsOk_ite (ringsOk_attempt ht1 keeps_burstTags) ht1
  next t1 e =>
    have ht1 : t1.ringsOk = true := ringsOk_of_error e keeps_copyRow hs
    exact ringsOk_ite (ringsOk_attempt ht1 keeps_burstTags) ht1

theorem keeps_sourceRow {c i} : Keeps (sourceRow c i) :=
  .ite (.bind keeps_pairOfTensor fun _ => .bind keeps_readElem fun _ => .guard .trapWith .pure) .pure

theorem keeps_copyRows {t c k k1 k2} : Keeps (copyRows t c k k1 k2) := by
  induction k generalizing k1 k2 with
  | zero => exact .pure
  | succ _ ih =>
    refine .bind keeps_modCopy fun _ => .bind keeps_sourceRow fun _ => .bind keeps_pairOfTensor fun _ => ?_
    exact .bind keeps_pairOfTensor fun _ => .bind keeps_burstRow fun _ => ih

theorem ringsOk_markPages {s : State} {mg l} (h : s.ringsOk = true) : (s.markPages mg l).ringsOk = true := by
  induction l generalizing s with
  | nil => exact h
  | cons _ _ ih =>
    unfold State.markPages
    refine ringsOk_ite (ih h) ?_
    split
    · refine ringsOk_ite (ih h) ?_
      exact ih (ringsOk_ite (ringsOk_countPage (ringsOk_takeFrame (ringsOk_walked h))) (ringsOk_takeFrame (ringsOk_walked h)))
    · exact ih h
    · exact ih h

theorem ringsOk_runCopy {s : State} {t} (h : s.ringsOk = true) : (s.runCopy t).ringsOk = true := by
  unfold State.runCopy
  split
  · refine ringsOk_ite ?_ h
    dsimp only
    split
    · exact ringsOk_modCopy (ringsOk_markPages (ringsOk_modCur h))
    · exact ringsOk_modCopy (ringsOk_markPages (ringsOk_modCur h))
    · split
      next t1 e => exact ringsOk_modCopy (ringsOk_of_ok e keeps_copyRows (ringsOk_modCur h) :)
      next t1 e => exact ringsOk_modCopy (ringsOk_of_error e keeps_copyRows (ringsOk_modCur h) :)
  · exact h

theorem ringsOk_endCopy {s : State} {t} (h : s.ringsOk = true) : (s.endCopy t).ringsOk = true := by
  unfold State.endCopy
  split
  · split
    · exact ringsOk_modCur h
    · exact ringsOk_modCopy h
    · exact h
  · exact h

theorem ringsOk_finishTags {s : State} {l} (h : s.ringsOk = true) : (s.finishTags l).ringsOk = true := by
  induction l generalizing s with
  | nil => exact h
  | cons _ _ ih => exact ih (ringsOk_endCopy (ringsOk_runCopy h))

theorem keeps_takeStopped {l} : Keeps (takeStopped l) := by
  unfold takeStopped
  refine .bind keeps_cur fun _ => ?_
  split
  · exact .pure
  · split
    · exact .pure
    · refine .bind (.modify fun _ hs => ringsOk_quiesce hs) fun _ => .get fun _ _ => ?_
      split
      · exact .throw
      · exact .bind (.modCur fun _ => ring_ite (modCopy_ring ..) (modCopy_ring ..)) fun _ => .throw

theorem keeps_waitTags {l} : Keeps (waitTags l) := .bind (.modify fun _ hs => ringsOk_finishTags hs) fun _ => keeps_takeStopped

theorem keeps_startCopy {t c} : Keeps (startCopy t c) :=
  .bind keeps_cur fun _ => .guard (.modify fun _ hs => ringsOk_finishTags hs) (.ite .modCur .modCur)

theorem keeps_again : Keeps again := .pure

/-! ### Operand forms -/

theorem keeps_memOperand {p m off sz} : Keeps (memOperand p m off sz) :=
  .bind keeps_cur fun _ => .bind keeps_checkPtr fun _ => .guard .trapWith (.guard .trapWith (.bind keeps_touch fun _ => .pure))

theorem keeps_postIncrement {p m sz} : Keeps (postIncrement p m sz) := .ite .modCur .pure

/-! ### Vector memory instructions -/

theorem keeps_vecPrep {p adv b} : Keeps (vecPrep p adv b) :=
  .bind keeps_touch fun _ => .bind keeps_cur fun _ => .ite (.guard .trapWith (.bind keeps_wrP fun _ => .pure)) .pure

theorem keeps_checkSpan {len w l} : Keeps (checkSpan len w l) := by
  induction l with
  | nil => exact .pure
  | cons _ _ ih => exact .ite .trapWith ih

theorem keeps_loadElems {q p w l k} : Keeps (loadElems q p w l k) := by
  induction l generalizing k with
  | nil => exact .pure
  | cons _ _ ih => exact .bind (.modRing fun _ hc => ringOk_map hc) fun _ => .bind keeps_readPay fun _ => ih

theorem keeps_probe {α : Type} {m : Ex α} (hm : Keeps m) : Keeps (probe m) := by
  unfold probe
  refine fun _ hs => ?_
  dsimp only
  split
  · exact hs
  next t e => exact (ringsOk_of_error e (keeps_allOrNothing hm) hs :)

theorem keeps_probeElems {q p w l} : Keeps (probeElems q p w l) := by
  induction l with
  | nil => exact .pure
  | cons _ _ ih => exact .bind keeps_setProgress fun _ => .bind (keeps_probe (keeps_ackedLate keeps_writePay)) fun _ => ih

theorem keeps_storeElems {p w v l} : Keeps (storeElems p w v l) := by
  induction l with
  | nil => exact .pure
  | cons _ _ ih => exact .bind (keeps_ackedLate keeps_writePay) fun _ => ih

theorem keeps_vecLoad {d idx m n t busy lat offs e} : Keeps (vecLoad d idx m n t busy lat offs e) :=
  .bind keeps_cur fun _ => .bind keeps_holdSources fun _ => .bind keeps_checkSpan fun _ => .bind keeps_loadElems fun _ => .pure

theorem keeps_vecStoreTo {d idx m n t busy offs e} : Keeps (vecStoreTo d idx m n t busy offs e) := by
  refine .bind keeps_cur fun _ => .bind keeps_holdSources fun _ => .bind keeps_checkSpan fun _ => .guard .trapWith ?_
  exact .bind keeps_probeElems fun _ => .bind keeps_storeElems fun _ => .pure

/-! ### The matrix unit -/

theorem keeps_needSlot {i t} : Keeps (needSlot i t) := .bind keeps_cur fun _ => .guard keeps_illegal .pure

theorem keeps_setSlot {t f} : Keeps (setSlot t f) := .modCur

theorem keeps_holdEntry {r tid} : Keeps (holdEntry r tid) :=
  .ite .pure (.bind keeps_curEntry fun _ => .bind (.modRing fun _ hc => ringOk_setEntry hc) fun _ => .pure)

theorem keeps_actTload {t r r1} : Keeps (actTload t r r1) := by
  refine .ite (.bind .modCur fun _ => .pure) (.bind keeps_needSlot fun _ => .bind keeps_curEntry fun _ => ?_)
  exact .bind (.modRing fun _ hc => ringOk_setEntry hc) fun _ => .pure

theorem keeps_storeRow {e sl r i0 j k} : Keeps (storeRow e sl r i0 j k) := by
  induction k with
  | zero => exact .pure
  | succ _ ih => exact .bind ih fun _ => keeps_writeElem

theorem keeps_storeScales {e sl r i0 j cnt k} : Keeps (storeScales e sl r i0 j cnt k) := by
  induction k with
  | zero => exact .pure
  | succ _ ih => exact .bind ih fun _ => .ite keeps_engineWrite .pure

theorem keeps_storeTileRow {e sl rc j} : Keeps (storeTileRow e sl rc j) := .bind keeps_storeRow fun _ => keeps_storeScales

theorem keeps_probeRows {f : ℕ → Ex Unit} {q k k1} (hf : ∀ x, Keeps (f x)) : Keeps (probeRows q f k k1) := by
  induction k generalizing k1 with
  | zero => exact .pure
  | succ _ ih => exact .bind keeps_setProgress fun _ => .bind (keeps_probe (keeps_ackedLate (hf _))) fun _ => ih

theorem keeps_eachRow {f : ℕ → Ex Unit} {k k1} (hf : ∀ x, Keeps (f x)) : Keeps (eachRow f k k1) := by
  induction k generalizing k1 with
  | zero => exact .pure
  | succ _ ih => exact .bind (keeps_ackedLate (hf _)) fun _ => ih

theorem keeps_actTstore {t r r1} : Keeps (actTstore t r r1) := by
  refine .bind keeps_needSlot fun _ => .bind keeps_holdEntry fun _ => .bind keeps_needEntry fun _ => .guard keeps_rangeTrap ?_
  refine .bind (keeps_probeRows fun _ => keeps_storeTileRow) fun _ => ?_
  exact .bind (keeps_eachRow fun _ => keeps_storeTileRow) fun _ => .pure

theorem keeps_tidPrep {p} : Keeps (tidPrep p) := .bind keeps_touch fun _ => .bind keeps_rdP fun _ => .pure

theorem keeps_tidRoom {e} : Keeps (tidRoom e) := .ite .trapWith .pure

theorem keeps_actTidld {_p tid r} : Keeps (actTidld _p tid r) := by
  refine .bind keeps_tidRoom fun _ => .guard .trapWith (.bind keeps_curEntry fun _ => ?_)
  exact .bind (keeps_allOrNothing (keeps_ackedLate keeps_writePay)) fun _ => .pure

theorem keeps_actTidst {p tid r} : Keeps (actTidst p tid r) := by
  refine .bind keeps_tidRoom fun _ => .bind keeps_readPay fun _ => .guard keeps_needEntry (.get fun _ hs => ?_)
  exact .guard keeps_failMem (.guard .throw (.bind (.set (ringsOk_setTidEntry hs)) fun _ => .pure))

theorem keeps_slotBs {sl} : Keeps (slotBs sl) := .bind keeps_curEntry fun _ => .pure

theorem keeps_actMma {n ta tb op t u r} : Keeps (actMma n ta tb op t u r) := by
  refine .bind keeps_needSlot fun _ => .bind keeps_needSlot fun _ => .bind keeps_cur fun _ => .guard keeps_rangeTrap ?_
  refine .bind (.ite keeps_slotBs .pure) fun _ => .bind (.ite keeps_slotBs .pure) fun _ => .guard keeps_rangeTrap ?_
  exact .bind .modCur fun _ => .pure

theorem keeps_fillB {n b} : Keeps (fillB n b) := .modCur

theorem keeps_drainAcc {n f64} : Keeps (drainAcc n f64) := .bind keeps_cur fun _ => .ite .pure (.bind .modCur fun _ => .pure)

theorem keeps_loadCells {e rc aff old i k} : Keeps (loadCells e rc aff old i k) := by
  induction k with
  | zero => exact .pure
  | succ _ ih => exact .bind ih fun _ => .bind (.ite keeps_readElem .pure) fun _ => .ite .pure .pure

theorem keeps_loadAcc {q n e rc k k1} : Keeps (loadAcc q n e rc k k1) := by
  induction k generalizing k1 with
  | zero => exact .pure
  | succ _ ih =>
    exact .bind keeps_setProgress fun _ => .bind keeps_cur fun _ => .bind keeps_loadCells fun _ => .bind .modCur fun _ => ih

theorem keeps_actAload {n tid r r1} : Keeps (actAload n tid r r1) :=
  .bind keeps_holdEntry fun _ => .bind keeps_needEntry fun _ => .bind keeps_loadAcc fun _ => .bind .modCur fun _ => .pure

theorem keeps_storeCells {e rc a md i k} : Keeps (storeCells e rc a md i k) := by
  induction k with
  | zero => exact .pure
  | succ _ ih => exact .bind ih fun _ => .ite (.bind keeps_writeElem fun _ => keeps_raiseFlags) .pure

theorem keeps_actAstore {n tid r r1} : Keeps (actAstore n tid r r1) := by
  refine .bind keeps_holdEntry fun _ => .bind keeps_needEntry fun _ => .guard keeps_rangeTrap (.bind keeps_cur fun _ => ?_)
  refine .bind (keeps_probeRows fun _ => keeps_storeCells) fun _ => .bind keeps_drainAcc fun _ => .bind keeps_cur fun _ => ?_
  exact .bind (keeps_eachRow fun _ => keeps_storeCells) fun _ => .pure

theorem keeps_actAdrain {n t ty r} : Keeps (actAdrain n t ty r) := by
  refine .bind keeps_needSlot fun _ => .bind keeps_drainAcc fun _ => .bind keeps_cur fun _ => .bind keeps_setSlot fun _ => ?_
  exact .bind keeps_raiseFlags fun _ => .pure

/-! ### Affine accumulation and the scan network -/

theorem keeps_noteUnderflow {n seq resumed u} : Keeps (noteUnderflow n seq resumed u) := by
  unfold noteUnderflow
  refine .bind keeps_cur fun _ => ?_
  dsimp only
  split
  · exact .ite .pure (.bind .modCur fun _ => .pure)
  · exact .pure

theorem keeps_affineScan {i n k len gain skip cyc e} : Keeps (affineScan i n k len gain skip cyc e) := by
  unfold affineScan
  dsimp only
  split
  on_goal 1 => refine .bind keeps_needSlot fun _ => ?_
  all_goals
    refine .cur fun _ hc => .guard keeps_rangeTrap (.bind (.modRing fun _ _ => ringOk_of_ring hc (scanTo_ring ..)) fun _ => ?_)
    exact .bind keeps_noteUnderflow fun _ => .pure

theorem keeps_actKcomb {d a n r} : Keeps (actKcomb d a n r) :=
  .bind keeps_cur fun _ => .ite .pure (.bind .modCur fun _ => .bind keeps_noteUnderflow fun _ => .pure)

/-! ### Scalar and pointer loads, stores and allocation -/

theorem safe_execLd {s : State} {d p m z o} (h : s.ringsOk = true) : Safe (execLd d p m z o s) := by
  refine safe_runWord (.bind keeps_memOperand fun _ => .bind keeps_rdP fun _ => .bind keeps_readPay fun _ => ?_) h
  exact .bind keeps_wrX fun _ => .bind keeps_postIncrement fun _ => .bind (.modCur fun _ => ring_ite rfl rfl) fun _ => .pure

theorem safe_execSt {s : State} {d p m z o} (h : s.ringsOk = true) : Safe (execSt d p m z o s) := by
  refine safe_runWord (.bind keeps_rdP fun _ => .bind keeps_memOperand fun _ => .guard .trapWith (.bind keeps_rdP fun _ => ?_)) h
  exact .bind keeps_rdX fun _ => .bind keeps_writePay fun _ => .bind keeps_postIncrement fun _ => .pure

theorem keeps_slotOperand {p m o} : Keeps (slotOperand p m o) :=
  .bind keeps_rdP fun _ => .bind keeps_memOperand fun _ => .guard .trapWith (.guard .trapWith .pure)

theorem safe_execLdp {s : State} {q p m o} (h : s.ringsOk = true) : Safe (execLdp q p m o s) := by
  refine safe_runWord (.bind keeps_slotOperand fun _ => .bind keeps_rdP fun _ => .bind keeps_readPay fun _ => ?_) h
  exact .bind keeps_lenOf fun _ => .bind keeps_postIncrement fun _ => .bind keeps_wrP fun _ => .pure

theorem keeps_uncopied {v} : Keeps (uncopied v) := .ite (.bind keeps_readHdr fun _ => keeps_canonOf) .pure

theorem keeps_escaping {v h} : Keeps (escaping v h) := .ite .pure (.guard .trapWith keeps_promote)

theorem keeps_orWait {m : Ex Bool} (hm : Keeps m) : Keeps (orWait m) := by
  unfold orWait
  generalize tagsOf (BitVec.allOnes 64) = tags
  refine fun _ hs => ?_
  dsimp only
  split
  next e => exact ringsOk_of_ok e hm hs
  · exact .run (.bind (.modify fun _ hs1 => ringsOk_finishLoads hs1) fun _ => .bind keeps_waitTags fun _ => keeps_again) hs
  next e => exact ringsOk_of_error e hm hs

theorem keeps_escapingTo {home : Ex ℕ} {k x} (hhome : Keeps home) : Keeps (escapingTo home k x) := by
  induction k generalizing x with
  | zero => exact .pure
  | succ _ ih =>
    unfold escapingTo
    refine .bind hhome fun _ => .bind keeps_escaping fun _ => ?_
    split
    · exact .pure
    · exact .ite .pure ih

theorem keeps_stpValue {q p} : Keeps (stpValue q p) := by
  refine .bind keeps_rdP fun _ => .bind keeps_uncopied fun _ => ?_
  refine .bind (.bind keeps_rdP fun _ => .bind keeps_readHdr fun _ => keeps_homeLevel) fun _ => .guard .trapWith ?_
  exact keeps_escapingTo (.bind keeps_rdP fun _ => .bind keeps_readHdr fun _ => keeps_homeLevel)

theorem safe_execStp {s : State} {q p m o} (h : s.ringsOk = true) : Safe (execStp q p m o s) := by
  unfold execStp
  refine safe_runWord ?_ h
  refine keeps_orWait ?_
  refine .bind keeps_slotOperand fun _ => .bind keeps_stpValue fun _ => ?_
  split
  · exact .pure
  · exact .bind keeps_rdP fun _ => .bind keeps_writePay fun _ => .bind keeps_postIncrement fun _ => .pure

theorem safe_execPadj {s : State} {d a b} (h : s.ringsOk = true) : Safe (execPadj d a b s) :=
  safe_runWord (.bind keeps_rdP fun _ => .bind keeps_rdX fun _ => .guard .trapWith (.bind keeps_wrP fun _ => .pure)) h

theorem keeps_promoteSlots {a c h l} : Keeps (promoteSlots a c h l) := by
  induction l with
  | nil => exact .pure
  | cons _ _ ih =>
    unfold promoteSlots
    refine .bind keeps_rdP fun _ => .bind keeps_readPay fun _ => .bind keeps_escaping fun _ => ?_
    split
    · exact .pure
    · exact ih

theorem keeps_sliceInto {d a kind c n} : Keeps (sliceInto d a kind c n) := by
  refine .bind keeps_allocObj fun _ => .bind .modCur fun _ => .bind keeps_rdP fun _ => .bind keeps_snapshot fun _ => ?_
  refine .bind (.ite keeps_promoteSlots .pure) fun _ => .bind .modCur fun _ => .ite .pure (.bind keeps_rdP fun _ => ?_)
  exact .bind (.ite keeps_snapshot .pure) fun _ => .bind keeps_fillObj fun _ => .bind keeps_wrP fun _ => .pure

theorem safe_execPslice {s : State} {d a b} (h : s.ringsOk = true) : Safe (execPslice d a b s) := by
  refine safe_runWord (keeps_orWait (.bind keeps_rdP fun _ => .bind keeps_rdX fun _ => .bind keeps_touch fun _ => ?_)) h
  exact .bind keeps_rdP fun _ => .guard .trapWith (.guard .trapWith (.guard .trapWith keeps_sliceInto))

theorem keeps_roomOrNull {m : Ex W64} (hm : Keeps m) : Keeps (allocInstr.roomOrNull m) := by
  unfold allocInstr.roomOrNull
  refine fun _ hs => ?_
  dsimp only
  split
  next e => exact ringsOk_of_ok e hm hs
  next e => exact .ite hs (ringsOk_of_error e hm hs)

theorem safe_allocInstr {s : State} {i orNull d a l k} (h : s.ringsOk = true) : Safe (allocInstr i orNull d a l k s) := by
  unfold allocInstr
  refine safe_runWord (.bind keeps_rdX fun _ => ?_) h
  refine .guard .trapWith (.bind (.ite (keeps_roomOrNull keeps_allocObj) (.bind keeps_allocObj fun _ => .pure)) fun _ => ?_)
  split <;> exact .bind keeps_wrP fun _ => .pure

theorem keeps_raiseAck {g st} : Keeps (raiseAck g st) := by
  unfold raiseAck
  refine .ite ?_ .pure
  refine .bind keeps_cur fun _ => ?_
  split
  · exact .pure
  · exact .bind .modCur fun _ => .throw

theorem safe_execOacq {s : State} {d g st} (h : s.ringsOk = true) : Safe (execOacq d g st s) := by
  refine safe_runWord (.bind keeps_touch fun _ => .bind keeps_rdP fun _ => .bind keeps_canonOf fun _ => ?_) h
  exact .bind (.modify fun _ hs => ringsOk_forAcquire hs) fun _ => .get fun _ _ => .ite .pure (.bind keeps_acquire fun _ => .pure)

theorem safe_execOrel {s : State} {d g st} (h : s.ringsOk = true) : Safe (execOrel d g st s) := by
  refine safe_runWord (.bind keeps_raiseAck fun _ => .bind keeps_touch fun _ => .bind keeps_rdP fun _ => ?_) h
  exact .bind keeps_release fun _ => .pure

/-! ### Atomics and fences -/

theorem keeps_canonical {p} : Keeps (canonical p) :=
  .bind keeps_checkPtr fun _ => .ite (.bind keeps_readHdr fun _ => keeps_canonOf) .pure

theorem keeps_atomicKind {p obj} : Keeps (atomicKind p obj) := .bind keeps_readHdr fun _ => .ite .trapWith .pure

theorem keeps_storageAt {obj off} : Keeps (storageAt obj off) := by
  unfold storageAt
  refine .ite .pure ?_
  refine .get fun _ hs => .bind (.set (ringsOk_walkFor hs)) fun _ => ?_
  split
  · exact .pure
  · exact .throw
  · exact keeps_failMem

theorem keeps_needPlace {i lvl stor agent swapAdd} : Keeps (needPlace i lvl stor agent swapAdd) := by
  unfold needPlace
  split
  · exact keeps_rangeTrap
  · exact .pure

theorem safe_atomic {s : State} {i d p b g st w swapAdd f} (h : s.ringsOk = true) : Safe (atomic i d p b g st w swapAdd f s) := by
  refine safe_runWord (.bind keeps_cur fun _ => .bind keeps_checkPtr fun _ => .guard .trapWith (.guard .trapWith ?_)) h
  refine .bind keeps_canonical fun _ => .bind keeps_atomicKind fun _ => .bind keeps_storageAt fun _ => .guard keeps_rangeTrap ?_
  refine .bind keeps_needPlace fun _ => .bind keeps_locate fun _ => .bind keeps_locRead fun _ => .bind keeps_locWrite fun _ => ?_
  exact .bind keeps_wrX fun _ => .bind (.modify fun _ hs => ringsOk_frame hs) fun _ => .pure

theorem keeps_vamoElem {i pr obj g w o} : Keeps (vamoElem i pr obj g w o) :=
  .guard .trapWith (.bind keeps_atomicKind fun _ => .bind keeps_storageAt fun _ => .bind keeps_needPlace fun _ => keeps_writeObj)

theorem keeps_vamoCheck {q i pr obj g w l} : Keeps (vamoCheck q i pr obj g w l) := by
  induction l with
  | nil => exact .pure
  | cons _ _ ih => exact .bind keeps_setProgress fun _ => .bind (keeps_probe keeps_vamoElem) fun _ => ih

theorem keeps_vamoApply {obj op w v l} : Keeps (vamoApply obj op w v l) := by
  induction l with
  | nil => exact .pure
  | cons _ _ ih => exact .bind keeps_readObjC fun _ => .bind keeps_writeObj fun _ => ih

theorem keeps_actVamo {d p wd b m n o g r} : Keeps (actVamo d p wd b m n o g r) :=
  .bind keeps_cur fun _ => .bind keeps_holdSources fun _ => .bind keeps_vamoCheck fun _ => .bind keeps_vamoApply fun _ => .pure

/-! ### Prefixes, transfers and the repetition -/

theorem keeps_spendMore {n} : Keeps (spendMore n) := .modify fun _ hs => ringsOk_frame hs

theorem keeps_branchTo {off} : Keeps (branchTo off) := by
  unfold branchTo
  refine .get fun _ _ => ?_
  dsimp only
  split
  · exact .trapWith
  · exact .ite (.bind keeps_spendMore fun _ => .pure) .trapWith

theorem safe_branchIf {s : State} {i cond a b off} (h : s.ringsOk = true) : Safe (branchIf i cond a b off s) :=
  safe_runWord (.bind keeps_cur fun _ => .ite keeps_branchTo .pure) h

theorem safe_execJ {s : State} {o} (h : s.ringsOk = true) : Safe (execJ o s) :=
  safe_runWord (.bind keeps_cur fun _ => .bind keeps_enterCode fun _ => .bind keeps_spendMore fun _ => .pure) h

theorem safe_execCall {s : State} {d o} (h : s.ringsOk = true) : Safe (execCall d o s) := by
  refine safe_runWord (.bind keeps_cur fun _ => .bind keeps_enterCode fun _ => .bind keeps_wrX fun _ => ?_) h
  exact .bind keeps_spendMore fun _ => .pure

theorem safe_execJr {s : State} {a} (h : s.ringsOk = true) : Safe (execJr a s) :=
  safe_runWord (.bind keeps_rdX fun _ => .bind keeps_enterCode fun _ => .bind keeps_spendMore fun _ => .pure) h

theorem safe_execCallr {s : State} {d p} (h : s.ringsOk = true) : Safe (execCallr d p s) := by
  refine safe_runWord (.get fun _ _ => .bind keeps_checkPtr fun _ => ?_) h
  exact .ite (.bind keeps_enterCode fun _ => .bind keeps_wrX fun _ => .bind keeps_spendMore fun _ => .pure) .trapWith

theorem safe_execRep {s : State} {st a n l} (h : s.ringsOk = true) : Safe (execRep st a n l s) :=
  safe_runWord (.get fun _ _ => .guard keeps_illegal (.guard .trapWith (.ite .pure (.bind .modCur fun _ => .pure)))) h

theorem safe_execImmx {s : State} {p} (h : s.ringsOk = true) : Safe (execImmx p s) := by
  unfold execImmx
  refine safe_runWord ?_ h
  refine .get fun _ _ => ?_
  dsimp only
  split
  · exact .bind (.bind .modCur fun _ => .trapWith) fun _ => .bind .modCur fun _ => .pure
  · split
    · exact .guard (.bind .modCur fun _ => .trapWith) (.bind .modCur fun _ => .pure)
    · exact .bind .modCur fun _ => .pure

theorem safe_execHint {s : State} {h} (hs : s.ringsOk = true) : Safe (execHint h s) := by
  unfold execHint
  refine safe_runWord ?_ hs
  refine .get fun _ _ => .ite (.bind .modCur fun _ => .pure) ?_
  refine .ite ?_ .pure
  dsimp only
  split
  · exact .pure
  · split
    · exact .pure
    · split
      · exact .bind keeps_prefetchIn fun _ => .pure
      · exact .pure

/-! ### Copies and waits for their tags -/

theorem keeps_prefEntry {tid} : Keeps (prefEntry tid) := .get fun _ _ => .pure

theorem keeps_newCopy {i kind dst src shape} : Keeps (newCopy i kind dst src shape) := by
  refine .bind keeps_cur fun _ => .bind (.ite keeps_curEntry .pure) fun _ => ?_
  exact .bind (.ite keeps_curEntry keeps_prefEntry) fun _ => .bind (.ite keeps_curEntry .pure) fun _ => .pure

theorem keeps_startOn {t c} : Keeps (startOn t c) := by
  unfold startOn
  refine .bind keeps_waitTags fun _ => .bind keeps_cur fun _ => ?_
  split
  · exact keeps_again
  · exact .get fun _ _ => .ite keeps_again (.bind keeps_startCopy fun _ => .pure)

theorem safe_transfer {s : State} {i kind d a b t} (h : s.ringsOk = true) : Safe (transfer i kind d a b t s) := by
  unfold transfer
  refine safe_runWord (.get fun _ _ => .bind keeps_newCopy fun _ => ?_) h
  dsimp only
  refine .guard .trapWith ?_
  split
  · exact keeps_rangeTrap
  · exact keeps_startOn

theorem safe_execXprefTr {s : State} {a b t} (h : s.ringsOk = true) : Safe (execXprefTr a b t s) :=
  safe_runWord (.bind keeps_rdX fun _ => .bind keeps_rdX fun _ => .bind keeps_newCopy fun _ => keeps_startOn) h

theorem safe_execXprefMg {s : State} {a b t} (h : s.ringsOk = true) : Safe (execXprefMg a b t s) :=
  safe_runWord (.bind keeps_rdX fun _ => .bind keeps_rdX fun _ => .bind keeps_newCopy fun _ => keeps_startOn) h

theorem keeps_lineTag {lvl va} : Keeps (lineTag lvl va) := by
  unfold lineTag
  refine .ite .pure ?_
  refine .bind (.ite keeps_translate keeps_peerAccess) fun _ => .get fun _ _ => ?_
  split <;> exact .pure

theorem keeps_lineTags {lvl line k} : Keeps (lineTags lvl line k) := by
  induction k generalizing line with
  | zero => exact .pure
  | succ _ ih => exact .bind keeps_lineTag fun _ => .bind ih fun _ => .pure

theorem safe_execXprefTq {s : State} {d a} (h : s.ringsOk = true) : Safe (execXprefTq d a s) := by
  unfold execXprefTq
  refine safe_runWord ?_ h
  refine .bind keeps_rdX fun _ => .bind keeps_curEntry fun _ => .get fun _ _ => ?_
  dsimp only
  split
  on_goal 1 => refine .bind keeps_rangeTrap fun _ => ?_
  all_goals
    refine .guard keeps_rangeTrap (.bind (.modify fun _ hs => ringsOk_quiesce hs) fun _ => ?_)
    exact .bind (.modify fun _ hs => ringsOk_finishTags hs) fun _ => .bind keeps_lineTags fun _ => .bind keeps_wrX fun _ => .pure

theorem safe_execXwaitAll {s : State} {d a} (h : s.ringsOk = true) : Safe (execXwaitAll d a s) := by
  refine safe_runWord (.bind keeps_rdX fun _ => .bind keeps_waitTags fun _ => .bind keeps_cur fun _ => .ite keeps_again ?_) h
  exact .bind keeps_wrX fun _ => .pure

theorem ringsOk_finishAny {s : State} {m l} (h : s.ringsOk = true) : (s.finishAny m l).ringsOk = true := by
  induction l generalizing s with
  | nil => exact h
  | cons _ _ ih => exact ringsOk_ite h (ih (ringsOk_endCopy (ringsOk_runCopy h)))

theorem safe_execXwaitAny {s : State} {d a} (h : s.ringsOk = true) : Safe (execXwaitAny d a s) := by
  refine safe_runWord (.bind keeps_rdX fun _ => .bind (.modify fun _ hs => ringsOk_finishAny hs) fun _ => ?_) h
  exact .bind keeps_takeStopped fun _ => .bind keeps_cur fun _ => .ite keeps_again (.bind keeps_wrX fun _ => .pure)

theorem safe_execXfind {s : State} {d a} (h : s.ringsOk = true) : Safe (execXfind d a s) := by
  unfold execXfind
  refine safe_runWord ?_ h
  refine .bind keeps_rdX fun _ => .bind keeps_takeStopped fun _ => .bind keeps_cur fun _ => ?_
  dsimp only
  split
  · exact .bind keeps_wrX fun _ => .pure
  · exact .bind .modCur fun _ => .bind keeps_wrX fun _ => .pure

/-! ### Gangs -/

theorem ringsOk_setGang {s : State} {g} (h : s.ringsOk = true) : (s.setGang g).ringsOk = true :=
  ringsOk_ite (ringsOk_frame h) (ringsOk_frame h)

theorem ringsOk_modGang {s : State} {id f} (h : s.ringsOk = true) : (s.modGang id f).ringsOk = true := ringsOk_setGang h

theorem ringsOk_bring {s : State} {p} (h : s.ringsOk = true) : (s.bring p).ringsOk = true := by
  unfold State.bring
  refine ringsOk_ite h ?_
  split
  next c found =>
    refine ringsOk_cores h (ringOk_others h c (List.mem_of_find?_eq_some found)) ?_
    rintro d (_ | ⟨_, hd⟩)
    · exact ringOk_cur h
    · exact ringOk_others h d (List.mem_of_mem_erase hd)
  · exact h

/-- Another core takes the place of the running one, which joins the others. -/
theorem ringsOk_swapped {s : State} {c : LCore} {l : List LCore} (h : s.ringsOk = true) (hc : RingOk c) (hl : ∀ d ∈ l, d ∈ s.others) :
    ({ s with cur := c, others := s.cur :: l } : State).ringsOk = true := by
  refine ringsOk_cores h hc ?_
  rintro d (_ | ⟨_, hd⟩)
  · exact ringOk_cur h
  · exact ringOk_others h d (hl d hd)

/-- The core that stands first among the others takes the place of the running one, which goes to the `n`th. -/
theorem ringsOk_swappedBack {s : State} {me : LCore} {rest : List LCore} {n : Nat} (h : s.ringsOk = true) (he : s.others = me :: rest) :
    ({ s with cur := me, others := rest.take n ++ s.cur :: rest.drop n } : State).ringsOk = true := by
  have others : ∀ d ∈ me :: rest, RingOk d := he ▸ ringOk_others h
  refine ringsOk_cores h (others me (.head _)) fun d hd => ?_
  rcases List.mem_append.mp hd with front | (_ | ⟨_, back⟩)
  · exact others d (.tail _ (List.mem_of_mem_take front))
  · exact ringOk_cur h
  · exact others d (.tail _ (List.mem_of_mem_drop back))

theorem ringsOk_onCore {s : State} {f : State → State} {p} (h : s.ringsOk = true) (hf : ∀ x, x.ringsOk = true → (f x).ringsOk = true) :
    (s.onCore p f).ringsOk = true := by
  unfold State.onCore
  refine ringsOk_ite (hf _ h) ?_
  split
  next c found =>
    extract_lets pre post t
    have ht : t.ringsOk = true := by
      refine hf _ (ringsOk_swapped h (ringOk_others h c (List.mem_of_find?_eq_some found)) fun d hd => ?_)
      exact (List.mem_append.mp hd).elim (fun front => (List.takeWhile_subset _ front)) (fun back => List.mem_of_mem_drop back)
    split
    next me rest others => exact ringsOk_swappedBack ht others
    · exact ht
  · exact h

theorem ringsOk_completeBarrier {s : State} {id n} (h : s.ringsOk = true) : (s.completeBarrier id n).ringsOk = true :=
  ringsOk_ite h (ringsOk_setGang h)

theorem ringsOk_arriveOn {s : State} {n vote byVote rel} (h : s.ringsOk = true) : (s.arriveOn n vote byVote rel).ringsOk = true :=
  ringsOk_completeBarrier (ringsOk_modCur (ringsOk_setGang h))

theorem ringsOk_endWait {s : State} {n acq} (h : s.ringsOk = true) : (s.endWait n acq).ringsOk = true := ringsOk_modCur h

theorem keeps_poolRecord {pool k} : Keeps (poolRecord pool k) := .bind keeps_readPay fun _ => .pure

theorem keeps_popTask {g} : Keeps (popTask g) :=
  .ite .pure (.bind keeps_poolRecord fun _ => .bind (.modify fun _ hs => ringsOk_modGang hs) fun _ => .pure)

theorem keeps_pushTask {g fn frame jn} : Keeps (pushTask g fn frame jn) := by
  unfold pushTask
  refine .get fun _ _ => ?_
  dsimp only
  split
  · exact .bind (.modify fun _ hs1 => ringsOk_modGang (ringsOk_modWhere hs1)) fun _ => .pure
  · refine .bind keeps_readHdr fun _ => .ite .pure (.bind keeps_writePay fun _ => ?_)
    exact .bind (.modify fun _ hs1 => ringsOk_modGang hs1) fun _ => .pure

theorem ringsOk_dropWord {s : State} {gang w} (h : s.ringsOk = true) : (s.dropWord gang w).ringsOk = true := ringsOk_modWhere h

theorem ringsOk_holdAt {s : State} {gang w} (h : s.ringsOk = true) : (s.holdAt gang w).ringsOk = true := ringsOk_modWhere h

theorem ringsOk_landOne {s : State} (h : s.ringsOk = true) : s.landOne.ringsOk = true := by
  unfold State.landOne
  split
  · exact h
  · exact ringsOk_ite (ringsOk_modWhere (ringsOk_dropWord h)) (ringsOk_holdAt h)

theorem ringsOk_landWords {s : State} {k} (h : s.ringsOk = true) : (s.landWords k).ringsOk = true := by
  induction k generalizing s with
  | zero => exact h
  | succ _ ih => exact ringsOk_ite h (ih (ringsOk_landOne h))

theorem ringsOk_deposits {s : State} (h : s.ringsOk = true) : s.deposits.ringsOk = true := ringsOk_ite h (ringsOk_landWords h)

/-! ### Exchange, barriers and the task pool -/

theorem keeps_sendChecks {i tgt} : Keeps (sendChecks i tgt) :=
  .bind keeps_cur fun _ => .guard keeps_rangeTrap (.ite keeps_rangeTrap .pure)

theorem keeps_enterPort {tgt q w t} : Keeps (enterPort tgt q w t) := .modify fun _ hs => ringsOk_modCur hs

theorem safe_execSend {s : State} {t v q} (h : s.ringsOk = true) : Safe (execSend t v q s) := by
  refine safe_runWord (.bind keeps_rdX fun _ => .bind keeps_sendChecks fun _ => .bind keeps_cur fun _ => .ite keeps_again ?_) h
  exact .bind keeps_rdX fun _ => .get fun _ _ => .bind keeps_enterPort fun _ => .pure

theorem keeps_actSendv {_t v q r} : Keeps (actSendv _t v q r) :=
  .get fun _ _ => .bind (.forIn fun _ _ => .bind keeps_enterPort fun _ => .pure) fun _ => .pure

theorem keeps_noTask {i} : Keeps (noTask i) := .bind keeps_cur fun _ => .ite keeps_rangeTrap .pure

theorem safe_execRecv {s : State} {d q} (h : s.ringsOk = true) : Safe (execRecv d q s) := by
  refine safe_runWord (.bind keeps_noTask fun _ => .bind keeps_cur fun _ => ?_) h
  exact .ite (.bind keeps_wrX fun _ => .bind .modCur fun _ => .pure) .pure

theorem keeps_actRecvV {d _q r} : Keeps (actRecvV d _q r) := .pure

theorem safe_execRecvV {s : State} {d q} (h : s.ringsOk = true) : Safe (execRecvV d q s) := by
  refine safe_runWord (.bind keeps_cur fun _ => .guard keeps_rangeTrap (.bind keeps_noTask fun _ => ?_)) h
  refine .bind keeps_cur fun _ => .ite (keeps_enqueue ?_ fun _ => keeps_actRecvV) .pure
  exact .bind (.modCur fun _ => ring_foldl (fun c _ => LCore.setQ_ring c _ _) ..) fun _ => .pure

theorem safe_execQclr {s : State} {a} (h : s.ringsOk = true) : Safe (execQclr a s) :=
  safe_runWord (.bind keeps_rdX fun _ => .get fun _ _ => .bind (.forIn fun _ _ => .guard (.modCur fun _ => ring_ite rfl rfl) .pure)
    fun _ => .pure) h

theorem safe_execXfence {s : State} {c e g st} (h : s.ringsOk = true) : Safe (execXfence c e g st s) := by
  unfold execXfence
  generalize tagsOf (BitVec.allOnes 64) = tags
  dsimp only
  have hw : ∀ s : State, s.ringsOk = true → Safe (runWord (.xfence c e g st) Timing.one (do
      if c = 1 then drain
      if c = 2 then takeStopped tags
      let s ← get
      if c = 4 ∧ s.cur.port ≠ [] then again
      else if c = 5 ∧ s.moves.any (fun m => s.cur.is m.gang m.lcid) = true then again
      else return .seq) s) := fun _ hs => safe_runWord
    (.guard keeps_drain (.guard keeps_takeStopped (.get fun _ _ => .ite keeps_again (.ite keeps_again .pure)))) hs
  split
  · exact safe_draining hw h
  · exact hw s h

theorem keeps_barrierChecks {i n} : Keeps (barrierChecks i n) :=
  .bind keeps_noTask fun _ => .get fun _ _ => .guard keeps_rangeTrap .pure

theorem keeps_abandonedTrap {g n} : Keeps (abandonedTrap g n) := by
  unfold abandonedTrap
  split
  · exact .trapWith
  · exact .pure

theorem safe_arriveInstr {s : State} {i n rel} (h : s.ringsOk = true) : Safe (arriveInstr i n rel s) := by
  refine safe_runWord (.bind keeps_barrierChecks fun _ => .bind keeps_cur fun _ => .ite .pure ?_) h
  exact .bind (.modify fun _ hs => ringsOk_arriveOn hs) fun _ => .pure

theorem safe_waitInstr {s : State} {i n acq} (h : s.ringsOk = true) : Safe (waitInstr i n acq s) := by
  unfold waitInstr
  refine safe_runWord ?_ h
  refine .bind keeps_barrierChecks fun _ => .bind keeps_cur fun _ => ?_
  split
  · exact keeps_rangeTrap
  · exact .bind keeps_abandonedTrap fun _ => .ite (.bind (.modify fun _ hs => ringsOk_endWait hs) fun _ => .pure) .pure

theorem keeps_endVote {d n p} : Keeps (endVote d n p) :=
  .get fun _ _ => .ite (.bind keeps_wrX fun _ => .bind (.modify fun _ hs1 => ringsOk_endWait hs1) fun _ => .pure) .pure

theorem safe_execBvote {s : State} {d a n} (h : s.ringsOk = true) : Safe (execBvote d a n s) := by
  unfold execBvote
  refine safe_runWord ?_ h
  refine .bind keeps_barrierChecks fun _ => .bind keeps_cur fun _ => ?_
  split
  · exact .guard keeps_abandonedTrap keeps_endVote
  · exact .bind keeps_abandonedTrap fun _ => .ite .pure (.bind (.modify fun _ hs => ringsOk_arriveOn hs) fun _ => keeps_endVote)

theorem keeps_needPool {i} : Keeps (needPool i) := .get fun _ _ => .guard keeps_rangeTrap .pure

theorem keeps_namesFunction {p} : Keeps (namesFunction p) := .get fun _ _ => .ite .trapWith .pure

theorem keeps_poolPointer {v} : Keeps (poolPointer v) := .bind keeps_uncopied fun _ => keeps_escaping

theorem keeps_pushRecord {frame : Ex W64} {jn : Ex W64} {i fn} (hframe : Keeps frame) (hjn : Keeps jn) :
    Keeps (pushRecord i fn frame jn) := by
  unfold pushRecord
  refine .bind keeps_namesFunction fun _ => .bind hframe fun _ => .bind keeps_poolPointer fun _ => ?_
  split
  · exact .pure
  · refine .bind hjn fun _ => .bind keeps_poolPointer fun _ => ?_
    split
    · exact .pure
    · exact .get fun _ _ => .bind keeps_pushTask fun _ => .guard keeps_rangeTrap .pure

theorem safe_execSpawn {s : State} {c f j} (h : s.ringsOk = true) : Safe (execSpawn c f j s) := by
  refine safe_runWord (keeps_orWait (.bind keeps_needPool fun _ => .bind (.bind keeps_rdP fun _ => .pure) fun _ => ?_)) h
  exact keeps_pushRecord (.bind keeps_rdP fun _ => .pure) (.bind keeps_rdP fun _ => .pure)

theorem keeps_loadPtr {r v} : Keeps (loadPtr r v) := .bind keeps_lenOf fun _ => keeps_wrP

theorem safe_execTake {s : State} {c f j} (h : s.ringsOk = true) : Safe (execTake c f j s) := by
  refine safe_runWord (.bind keeps_needPool fun _ => .bind keeps_popTask fun _ => .bind keeps_loadPtr fun _ => ?_) h
  exact .bind keeps_loadPtr fun _ => .bind keeps_loadPtr fun _ => .pure

theorem keeps_joinPush {m : Ex Bool} {i} (hm : Keeps m) : Keeps (joinPush i m) := by
  unfold joinPush
  refine fun _ hs => ?_
  dsimp only
  split
  next t e => exact (ringsOk_of_ok e hm hs :)
  next t e => exact .run keeps_rangeTrap (ringsOk_of_error e hm hs :)

theorem safe_execJoin {s : State} {j} (h : s.ringsOk = true) : Safe (execJoin j s) := by
  refine safe_runWord (keeps_orWait (.bind keeps_needPool fun _ => .bind keeps_rdP fun _ => .guard .trapWith ?_)) h
  refine .bind keeps_checkPtr fun _ => .bind keeps_canonical fun _ => .bind keeps_readHdr fun _ => .guard .trapWith ?_
  refine .guard .trapWith (.bind keeps_readPay fun _ => .bind keeps_canonical fun _ => .guard keeps_rangeTrap ?_)
  refine .bind keeps_locate fun _ => .guard keeps_rangeTrap (.bind keeps_locRead fun _ => .bind keeps_locWrite fun _ => ?_)
  refine .ite ?_ ?_
  · exact keeps_joinPush (keeps_pushRecord (.bind keeps_rdP fun _ => .bind keeps_canonical fun _ => .bind keeps_readPay fun _ =>
        .pure) (.bind keeps_rdP fun _ => .bind keeps_canonical fun _ => .bind keeps_readPay fun _ => .pure))
  · exact .pure

theorem keeps_codeTarget {p} : Keeps (codeTarget p) := .bind keeps_namesFunction fun _ => .bind keeps_enterCode fun _ => .pure

theorem keeps_runTask {r} : Keeps (runTask r) := by
  refine .bind keeps_cur fun _ => .bind keeps_loadPtr fun _ => .bind keeps_loadPtr fun _ => .bind keeps_wrX fun _ => ?_
  exact .bind keeps_codeTarget fun _ => .bind .modCur fun _ => .pure

theorem keeps_endSstep : Keeps endSstep := .bind (.modify fun _ hs => ringsOk_modCur (ringsOk_applyMsgs hs)) fun _ => .pure

theorem safe_execSstep {s : State} (h : s.ringsOk = true) : Safe (execSstep s) := by
  unfold execSstep
  generalize tagsOf (BitVec.allOnes 64) = tags
  refine safe_draining (fun _ hs => safe_runWord (.get fun _ _ => ?_) hs) h
  dsimp only
  split
  · exact keeps_runTask
  · split
    · exact .guard keeps_abandonedTrap (.ite keeps_endSstep .pure)
    · refine .bind keeps_abandonedTrap fun _ => .bind keeps_drain fun _ => .bind keeps_waitTags fun _ => .bind keeps_cur fun _ =>
          ?_
      refine .ite keeps_again (.ite .pure ?_)
      refine .guard .modCur (.bind .modCur fun _ => .bind keeps_popTask fun _ => ?_)
      split
      · exact keeps_runTask
      · exact .bind (.modify fun _ hs => ringsOk_arriveOn hs) fun _ => .pure

/-! ### Streams -/

theorem keeps_sourceElem {st k} : Keeps (sourceElem st k) := by
  refine .ite ?_ ?_
  · exact .ite .pure (.bind keeps_readElem fun _ => .bind keeps_readScaleF fun _ => .pure)
  · exact .ite .pure (.bind keeps_readElem fun _ => .pure)

theorem keeps_setStream {s f} : Keeps (setStream s f) := .modCur

theorem keeps_streamElems {s st md pop k l} : Keeps (streamElems s st md pop k l) := by
  induction k generalizing l with
  | zero => exact .pure
  | succ _ ih => exact .bind keeps_setStream fun _ => .bind keeps_sourceElem fun _ => ih

theorem keeps_streamVec {s st pop} : Keeps (streamVec s st pop) := by
  unfold streamVec
  refine .bind keeps_cur fun _ => .bind keeps_streamElems fun _ => .bind keeps_setStream fun _ => ?_
  split <;> exact .pure

theorem ringsOk_readAhead {s : State} {r} (h : s.ringsOk = true) : (s.readAhead r).ringsOk = true := by
  unfold State.readAhead
  refine ringsOk_ite ?_ h
  split
  next t e => exact ringsOk_modCur (ringsOk_of_ok e keeps_streamVec h :)
  next t e => exact ringsOk_memError (ringsOk_modCur (ringsOk_of_error e keeps_streamVec h :))

theorem keeps_popStream {i r} : Keeps (popStream i r) := by
  unfold popStream
  refine .bind keeps_cur fun _ => ?_
  refine .guard .trapWith ?_
  split
  · exact .bind keeps_setStream fun _ => .pure
  · exact .bind keeps_setStream fun _ => .throw
  · exact .bind keeps_streamVec fun _ => .bind keeps_setStream fun _ => .pure

theorem keeps_actSbind {r a b r1} : Keeps (actSbind r a b r1) := by
  unfold actSbind
  refine .bind keeps_setStream fun _ => ?_
  refine .bind keeps_cur fun _ => .bind keeps_curEntry fun _ => .bind keeps_needEntry fun _ => ?_
  refine .guard keeps_rangeTrap ?_
  refine .get fun _ _ => ?_
  dsimp only
  split
  · exact .bind .trapWith fun _ => .bind keeps_setStream fun _ => .pure
  · exact .bind keeps_setStream fun _ => .pure

theorem keeps_actVmvStream {d r m n t r1} : Keeps (actVmvStream d r m n t r1) :=
  .bind keeps_cur fun _ => .bind keeps_holdSources fun _ => .bind keeps_popStream fun _ => .bind keeps_raiseFlags fun _ => .pure

/-! ### What the words of the coprocessor do at issue -/

/-- The work of a coprocessor word, where there is one, keeps the rings. -/
def ActKeeps (o : Option (CopUnit × (RingEntry → Ex Issued))) : Prop := ∀ u act, o = some (u, act) → ∀ r, Keeps (act r)

theorem ActKeeps.none : ActKeeps none := by
  rintro _ _ ⟨⟩

theorem ActKeeps.some {u : CopUnit} {act : RingEntry → Ex Issued} (h : ∀ r, Keeps (act r)) : ActKeeps (some (u, act)) := by
  rintro _ _ ⟨⟩; exact h

theorem actKeeps_copAct (i : Instr) : ActKeeps (copAct i) := by
  cases i
  case vamo => exact .some fun _ => keeps_actVamo
  case vadd | vsub | vmul | vmulh | vmulhz | vfma | vfms | vfnma | vfnms | vfdiv | vfsqrt | vmin | vmax | vminz | vmaxz | vfmin |
      vfmax | vand | vor | vxor | vandn | vshl | vshr | vsar => exact .some fun _ => keeps_elementWise
  case vcmpEq | vcmpNe | vcmpLt | vcmpLe | vfcmpEq | vfcmpLt | vfcmpLe | vfcmpUn => exact .some fun _ => keeps_compare
  case vsel | vperm | vslideUp | vslideDn | vbcast | vext | viota | vcompress | vexpand | vpopc | vfirst | vmv | mlogAnd |
      mlogOr | mlogXor | mlogAndn | kstore => exact .some fun _ => .bind keeps_cur fun _ => .pure
  case vcvt | vcvtSat => exact .some fun _ => keeps_convertVec
  case vquant => exact .some fun _ => keeps_quantVec
  case vredAdd | vredMin | vredMax | vredOr => exact .some fun _ => keeps_reduce
  case vscanAdd | vscanMin | vscanMax | vscanOr => exact .some fun _ => keeps_scan
  case vins => exact .some fun _ => .pure
  case vtopk | vxacc | vxrnd => exact .some fun _ => .bind keeps_cur fun _ => .bind keeps_raiseFlags fun _ => .pure
  case vld | vlds | vgath => exact .some fun _ => keeps_vecLoad
  case vst | vscat => exact .some fun _ => keeps_vecStoreTo
  case vmvStream => exact .some fun _ => keeps_actVmvStream
  case mma => exact .some fun _ => keeps_actMma
  case tclaim => exact .some fun _ => .bind keeps_curEntry fun _ => .guard keeps_rangeTrap (.bind keeps_setSlot fun _ => .pure)
  case tfree => exact .some fun _ => .bind keeps_setSlot fun _ => .pure
  case tload => exact .some fun _ => keeps_actTload
  case tstore => exact .some fun _ => keeps_actTstore
  case tzero => exact .some fun _ => .bind keeps_needSlot fun _ => .bind keeps_setSlot fun _ => .pure
  case tidld => exact .some fun _ => keeps_actTidld
  case tidst => exact .some fun _ => keeps_actTidst
  case azero => exact .some fun _ => .bind keeps_fillB fun _ => .pure
  case aload => exact .some fun _ => keeps_actAload
  case astore => exact .some fun _ => keeps_actAstore
  case adrain => exact .some fun _ => keeps_actAdrain
  case afill => exact .some fun _ => .bind keeps_needSlot fun _ => .bind .modCur fun _ => .pure
  case amode => exact .some fun _ => .bind .modCur fun _ => .bind keeps_fillB fun _ => .pure
  case again | againPlain | kload | kzero => exact .some fun _ => .bind .modCur fun _ => .pure
  case ascan | ascanK | ascanG => exact .some fun _ => keeps_affineScan
  case aapply => exact .some fun _ => .bind keeps_cur fun _ => .guard keeps_rangeTrap (.bind .modCur fun _ => .pure)
  case kcomb => exact .some fun _ => keeps_actKcomb
  case sbind => exact .some fun _ => keeps_actSbind
  case sclose => exact .some fun _ => .bind keeps_setStream fun _ => .pure
  case sendv => exact .some fun _ => keeps_actSendv
  case recvV => exact .some fun _ => keeps_actRecvV
  all_goals exact .none

/-- A coprocessor word dispatches the work `copAct` gives it. -/
theorem safe_copWord {prep : Ex Capture} {act : RingEntry → Ex Issued} {s : State} {i uses u} (hi : copAct i = some (u, act))
    (hprep : Keeps prep) (h : s.ringsOk = true) : Safe (runCop i uses u prep act s) :=
  safe_runCop hprep (actKeeps_copAct _ _ _ hi) h

theorem keeps_reissue {l} : Keeps (reissue l) := by
  induction l with
  | nil => exact .pure
  | cons r l ih =>
    unfold reissue
    split
    next e => exact .bind (keeps_issue (actKeeps_copAct _ _ _ e)) fun _ => .bind keeps_cur fun _ => .ite .pure ih
    · exact .bind keeps_cur fun _ => .ite .pure ih

theorem ringsOk_issueDue {s : State} (h : s.ringsOk = true) : s.issueDue.ringsOk = true := by
  unfold State.issueDue
  split
  next t e => exact (ringsOk_of_ok e keeps_reissue h :)
  next t e => exact (ringsOk_of_error e keeps_reissue h :)

theorem ringsOk_passTo {s : State} (h : s.ringsOk = true) : s.passTo.ringsOk = true := ringsOk_issueDue (ringsOk_frame h)

theorem ringsOk_landDue {s : State} {k} (h : s.ringsOk = true) : (s.landDue k).ringsOk = true := by
  induction k generalizing s with
  | zero => exact h
  | succ _ ih =>
    unfold State.landDue
    split
    · exact h
    · exact ringsOk_ite (ih (ringsOk_landRow h)) h

theorem ringsOk_pump {s : State} (h : s.ringsOk = true) : s.pump.ringsOk = true := by
  unfold State.pump
  extract_lets s1
  have h1 : s1.ringsOk = true := ringsOk_ite h (ringsOk_ite (ringsOk_finishLoads h) (ringsOk_landDue h))
  exact ringsOk_modCur (ringsOk_ite (ringsOk_ite (ringsOk_passTo h1) (ringsOk_issueDue h1)) h1) (nextPost_ring _)

theorem keeps_eretBody : Keeps eretBody := by
  refine .bind keeps_cur fun _ => .bind keeps_eretCore fun _ => .bind (.modRing fun _ hc => ringOk_leaveHandler hc) fun _ => ?_
  refine .bind (.modRing fun _ hc => ringOk_requeue hc) fun _ => ?_
  exact .bind (.modCur fun _ => resumeCopies_ring ..) fun _ => .pure

/-! ### System instructions -/

theorem safe_execRds {s : State} {d n} (h : s.ringsOk = true) : Safe (execRds d n s) := by
  refine safe_runWord (.get fun _ _ => .guard keeps_illegal (.bind keeps_cur fun _ => .guard .trapWith (.guard keeps_drain ?_))) h
  exact .get fun _ _ => .bind keeps_wrX fun _ => .pure

theorem keeps_rootValue {v} : Keeps (rootValue v) :=
  .ite .pure (.guard .trapWith (.ite (.bind keeps_readHdr fun _ => keeps_canonOf) .pure))

theorem keeps_setBank {f : LCore → Bank} : Keeps (modCur (fun c => c.setBank (f c))) := .modCur fun _ => setBank_ring ..

theorem keeps_writeSpecial {n v} : Keeps (writeSpecial n v) := by
  refine .ite (.modCur fun _ => clearTags_ring ..) (.ite keeps_setBank (.ite keeps_setBank (.ite keeps_setBank ?_)))
  refine .ite keeps_setBank (.ite keeps_setBank (.ite .modCur (.ite .modCur (.ite .modCur (.ite .modCur ?_)))))
  exact .ite (.bind keeps_rootValue fun _ => .modCur) .pure

theorem safe_execWrs {s : State} {a n} (h : s.ringsOk = true) : Safe (execWrs a n s) := by
  refine safe_runWord (.bind keeps_rdX fun _ => .guard keeps_illegal (.bind keeps_cur fun _ => .guard .trapWith ?_)) h
  exact .get fun _ _ => .guard keeps_illegal (.guard keeps_drain (.bind keeps_writeSpecial fun _ => .pure))

theorem ringsOk_dropHeld {s : State} {addr ctx} (h : s.ringsOk = true) : (s.dropHeld addr ctx).ringsOk = true :=
  ringsOk_frame (ringsOk_frame h)

theorem safe_execSfence {s : State} {a b} (h : s.ringsOk = true) : Safe (execSfence a b s) :=
  safe_runWord (.bind keeps_rdX fun _ => .bind keeps_rdX fun _ => .bind (.modify fun _ hs => ringsOk_dropHeld hs) fun _ => .pure) h

theorem keeps_writeBackCopies {l} : Keeps (writeBackCopies l) := by
  induction l with
  | nil => exact .pure
  | cons _ _ ih => exact .bind keeps_cur fun _ => .bind keeps_writeBack fun _ => ih

theorem ringsOk_completeAll {s : State} {id} (h : s.ringsOk = true) : (s.completeAll id).ringsOk = true :=
  ringsOk_completeBarrier (ringsOk_completeBarrier (ringsOk_completeBarrier (ringsOk_completeBarrier h)))

theorem safe_execRetire {s : State} (h : s.ringsOk = true) : Safe (execRetire s) := by
  unfold execRetire
  generalize tagsOf (BitVec.allOnes 64) = tags
  refine safe_draining (fun _ hs => safe_runWord ?_ hs) h
  refine .bind keeps_drain fun _ => .bind keeps_waitTags fun _ => .bind keeps_cur fun _ => .ite keeps_again ?_
  refine .bind keeps_cur fun _ => .bind keeps_writeBackCopies fun _ => .bind (.modRing fun _ _ => ringOk_leave) fun _ => ?_
  exact .bind (.modify fun _ hs => ringsOk_completeAll hs) fun _ => .pure

/-! ### Core records -/

theorem keeps_recordPlace {p} : Keeps (recordPlace p) := by
  refine .bind keeps_rdP fun _ => .bind keeps_checkPtr fun _ => .bind keeps_readHdr fun _ => .guard .trapWith ?_
  exact .bind keeps_ctxCheck fun _ => .guard .trapWith (.guard .trapWith .pure)

theorem ringsOk_settleCopies {s : State} (h : s.ringsOk = true) : s.settleCopies.ringsOk = true :=
  ringsOk_modCur (ringsOk_foldl h fun _ _ hs => ringsOk_endCopy hs) (foldFlags_ring _)

theorem safe_execCxsave {s : State} {p} (h : s.ringsOk = true) : Safe (execCxsave p s) := by
  unfold execCxsave
  refine safe_runWord ?_ h
  refine .bind keeps_recordPlace fun _ => .bind keeps_drain fun _ => .bind keeps_cur fun _ => .ite keeps_again ?_
  refine .bind ?_ ?_
  · exact .modify fun _ hs => ringsOk_settleCopies hs
  refine fun _ => .get fun _ _ => ?_
  dsimp only
  split
  on_goal 1 => refine .bind .trapWith fun _ => ?_
  on_goal 2 => refine .bind .modCur fun _ => ?_
  all_goals
    refine .bind keeps_fillObj fun _ => .bind keeps_markDirty fun _ => ?_
    exact .bind (.modRing fun _ _ => ringOk_nil rfl) fun _ => .pure

theorem keeps_fillLens : Keeps fillLens := by
  refine .bind ?_ fun _ => ?_
  · exact .forIn fun _ _ => .bind keeps_rdP fun _ => .bind keeps_lenOf fun _ => .bind keeps_wrP fun _ => .pure
  exact .bind keeps_cur fun _ => .bind keeps_lenOf fun _ => .bind keeps_lenOf fun _ => .modCur

theorem keeps_enterFrom {k l} : Keeps (enterFrom k l) := by
  induction l generalizing k with
  | nil => exact .pure
  | cons _ _ ih => exact .bind keeps_enterPort fun _ => ih

theorem keeps_enterWords {l} : Keeps (enterWords l) := .get fun _ _ => keeps_enterFrom

theorem safe_execCxload {s : State} {p} (h : s.ringsOk = true) : Safe (execCxload p s) := by
  unfold execCxload
  refine safe_runWord ?_ h
  refine .bind keeps_recordPlace fun _ => .bind keeps_snapshot fun _ => .get fun _ _ => ?_
  dsimp only
  split
  on_goal 1 => refine .bind .trapWith fun _ => ?_
  all_goals
    refine .bind keeps_drain fun _ => .bind keeps_cur fun _ => .ite keeps_again (.bind keeps_cur fun _ => ?_)
    refine .bind keeps_cur fun _ => .bind keeps_enterWords fun _ => .bind (.modRing fun _ _ => ringOk_loadExtension) fun _ => ?_
    exact .bind (.modCur fun _ => setBank_ring ..) fun _ => .bind keeps_fillLens fun _ => .pure

/-! ### Queues and the command processor -/

theorem ringsOk_tryWords {s : State} {ctx va k} (h : s.ringsOk = true) : (s.tryWords ctx va k).2.ringsOk = true := by
  induction k generalizing s va with
  | zero => exact h
  | succ _ ih =>
    unfold State.tryWords
    split
    next t e => exact (ringsOk_of_snd e (ringsOk_tryLoad h) :)
    next t e => exact ih (ringsOk_of_snd e (ringsOk_tryLoad h) :)

theorem ringsOk_depMet {s : State} {ctx a v} (h : s.ringsOk = true) : (s.depMet ctx a v).2.ringsOk = true := by
  unfold State.depMet
  split
  · exact h
  · exact ringsOk_tryLoad h

theorem ringsOk_depsMet {s : State} {ctx l} (h : s.ringsOk = true) : (s.depsMet ctx l).2.ringsOk = true := by
  induction l generalizing s with
  | nil => exact h
  | cons _ _ ih =>
    unfold State.depsMet
    split
    next t e => exact (ringsOk_of_snd e (ringsOk_depMet h) :)
    next t e => exact ih (ringsOk_of_snd e (ringsOk_depMet h) :)

theorem ringsOk_head {s : State} {q} (h : s.ringsOk = true) : (s.head q).1.ringsOk = true := by
  unfold State.head
  dsimp only
  split
  · exact h
  split
  · exact h
  split
  next e => exact ringsOk_of_snd e (ringsOk_tryWords h)
  next t e =>
    have ht : t.ringsOk = true := ringsOk_of_snd e (ringsOk_tryWords h)
    split
    next e => exact ringsOk_of_snd e (ringsOk_depsMet ht)
    next e => exact ringsOk_of_snd e (ringsOk_depsMet ht)
    next e =>
      have hu := ringsOk_of_snd e (ringsOk_depsMet ht)
      split
      · exact hu
      · split <;> exact hu

theorem ringsOk_objHead {s : State} {ctx p} (h : s.ringsOk = true) : (s.objHead ctx p).2.ringsOk = true := by
  unfold State.objHead
  split
  · exact h
  · split
    · exact h
    · split
      next t e => exact (ringsOk_of_snd e (ringsOk_tryLoad h) :)
      next t e => exact (ringsOk_of_snd e (ringsOk_tryLoad h) :)

theorem ringsOk_ringOk {s : State} {ctx p kind} (h : s.ringsOk = true) : (s.ringOk ctx p kind).2.ringsOk = true := by
  unfold State.ringOk
  split
  · exact h
  · split
    next t e => exact (ringsOk_of_snd e (ringsOk_objHead h) :)
    next t e => exact (ringsOk_of_snd e (ringsOk_objHead h) :)

theorem ringsOk_headerOk {s : State} {ctx hdr} (h : s.ringsOk = true) : (s.headerOk ctx hdr).2.ringsOk = true := by
  unfold State.headerOk
  dsimp only
  split
  · split
    next e => exact ringsOk_ringOk (ringsOk_of_snd e (ringsOk_ringOk h))
    next e => exact ringsOk_of_snd e (ringsOk_ringOk h)
  · exact h

theorem ringsOk_launchIn {s : State} {ctx p} (h : s.ringsOk = true) : (s.launchIn ctx p).2.ringsOk = true := by
  unfold State.launchIn
  split
  next e => exact (ringsOk_of_snd e (ringsOk_objHead h) :)
  next t e =>
    have ht : t.ringsOk = true := ringsOk_of_snd e (ringsOk_objHead h)
    split
    · exact ht
    split
    next e => exact (ringsOk_of_snd e (ringsOk_tryWords ht) :)
    next u e =>
      have hu : u.ringsOk = true := ringsOk_of_snd e (ringsOk_tryWords ht)
      dsimp only
      split
      next v _ _ e _ =>
        have hv : v.ringsOk = true := ringsOk_of_snd e (ringsOk_headerOk hu)
        split
        · exact hv
        split <;> exact (ringsOk_of_snd ‹_› (ringsOk_objHead hv) :)
      next e _ => exact (ringsOk_of_snd e (ringsOk_headerOk hu) :)

theorem ringsOk_clearPad {s : State} {id} (h : s.ringsOk = true) : (s.clearPad id).ringsOk = true :=
  ringsOk_frame (ringsOk_frame h)

theorem ringsOk_givePad {s : State} {ctx id} (h : s.ringsOk = true) : (s.givePad ctx id).ringsOk = true :=
  ringsOk_frame (ringsOk_ite h (ringsOk_clearPad h))

theorem ringsOk_takePads {s : State} {ctx cores} (h : s.ringsOk = true) : (s.takePads ctx cores).ringsOk = true := by
  unfold State.takePads
  extract_lets s1 s2 s3
  have h1 : s1.ringsOk = true := ringsOk_foldl h fun _ _ hs => ringsOk_clearPad hs
  have h2 : s2.ringsOk = true := ringsOk_foldl h1 fun _ _ hs => ringsOk_ite hs (ringsOk_givePad hs)
  exact ringsOk_frame (ringsOk_ite h2 (ringsOk_givePad h2))

theorem ringsOk_dropPads {s : State} (h : s.ringsOk = true) : s.dropPads.ringsOk = true := by
  unfold State.dropPads
  dsimp only
  split
  · exact h
  · exact ringsOk_ite h (ringsOk_frame h)

theorem ringsOk_addCores {s : State} {l} (h : s.ringsOk = true) (hl : ∀ c ∈ l, RingOk c) : (s.addCores l).ringsOk = true := by
  unfold State.addCores
  split
  next c rest _ _ =>
    obtain ⟨hc, hrest⟩ := List.forall_mem_cons.mp hl
    exact ringsOk_cores h hc (List.forall_mem_append.mpr ⟨ringOk_others h, hrest⟩)
  · exact ringsOk_cores h (ringOk_cur h) (List.forall_mem_append.mpr ⟨ringOk_others h, hl⟩)

theorem ringsOk_writeTens {s : State} {ctx kidx r} (h : s.ringsOk = true) : (s.writeTens ctx kidx r).ringsOk = true :=
  ringsOk_foldl h fun _ _ hs => ringsOk_setTidEntry hs

theorem ringsOk_startGang {s : State} {q tag ctx ca h r k cores} (hs : s.ringsOk = true) :
    (s.startGang q tag ctx ca h r k cores).ringsOk = true := by
  refine ringsOk_addCores (ringsOk_frame (ringsOk_writeTens (ringsOk_takePads (ringsOk_createCtx hs)))) ?_
  exact List.forall_mem_map.mpr fun _ _ => ringOk_cleared

theorem ringsOk_walkList {s : State} {ctx p} (h : s.ringsOk = true) : (s.walkList ctx p).ringsOk = true := by
  unfold State.walkList
  refine ringsOk_ite h ?_
  split
  next t e => exact (ringsOk_of_snd e (ringsOk_objHead h) :)
  next t e =>
    have ht : t.ringsOk = true := ringsOk_of_snd e (ringsOk_objHead h)
    refine ringsOk_modCur ?_
    refine ringsOk_foldl (ringsOk_modCur ht) fun _ _ hs => ?_
    split
    next t1 e1 => exact ringsOk_markPages (ringsOk_of_snd e1 (ringsOk_tryWords hs) :)
    next t1 _ e1 => exact (ringsOk_of_snd e1 (ringsOk_tryWords hs) :)

theorem ringsOk_addCounter {s : State} {ctx a amount what q tag} (h : s.ringsOk = true) :
    (s.addCounter ctx a amount what q tag).ringsOk = true := by
  unfold State.addCounter
  refine ringsOk_ite h ?_
  extract_lets done
  have hd : done.2.ringsOk = true := by
    unfold done
    split
    · exact h
    split
    next e => exact ringsOk_tryStore (ringsOk_of_snd e (ringsOk_tryLoad h))
    next e => exact ringsOk_of_snd e (ringsOk_tryLoad h)
  exact ringsOk_ite hd (ringsOk_ownWriteFailed hd)

theorem ringsOk_completePacket {s : State} {q tag ctx ca amount} (h : s.ringsOk = true) :
    (s.completePacket q tag ctx ca amount).ringsOk = true :=
  ringsOk_trace (ringsOk_addCounter h)

theorem ringsOk_endRequest {s : State} {sts} (h : s.ringsOk = true) : (s.endRequest sts).ringsOk = true :=
  ringsOk_trace (ringsOk_addCounter (ringsOk_frame h))

theorem ringsOk_removeMembers {s : State} {id} (h : s.ringsOk = true) : (s.removeMembers id).ringsOk = true := by
  unfold State.removeMembers
  split
  · exact ringsOk_cores h ringOk_cleared fun _ hc => absurd hc List.not_mem_nil
  next c l stay =>
    have kept : ∀ d ∈ c :: l, RingOk d := fun d hd => ringOk_core h (List.mem_of_mem_filter (stay ▸ hd))
    obtain ⟨hc, hl⟩ := List.forall_mem_cons.mp kept
    exact ringsOk_cores h hc hl

theorem ringsOk_removeGang {s : State} {id} (h : s.ringsOk = true) : (s.removeGang id).ringsOk = true :=
  ringsOk_dropPads (ringsOk_frame (ringsOk_removeMembers h))

theorem ringsOk_finishGang {s : State} {g} (h : s.ringsOk = true) : (s.finishGang g).ringsOk = true := by
  unfold State.finishGang
  extract_lets ended s1 s2 s3
  have h1 : s1.ringsOk = true := ringsOk_removeGang h
  have h3 : s3.ringsOk = true := ringsOk_foldl (ringsOk_ite (ringsOk_frame h1) (ringsOk_completePacket h1)) fun _ _ hs =>
      ringsOk_completePacket hs
  exact ringsOk_ite (ringsOk_endRequest h3) h3

theorem ringsOk_finishGangs {s : State} (h : s.ringsOk = true) : s.finishGangs.ringsOk = true :=
  ringsOk_foldl h fun _ _ hs => ringsOk_finishGang hs

theorem ringsOk_ageQueue {s : State} {q} (h : s.ringsOk = true) : (s.ageQueue q).ringsOk = true := by
  unfold State.ageQueue
  dsimp only
  split
  · exact ringsOk_frame h
  · exact ringsOk_ite h (ringsOk_frame h)

theorem ringsOk_ageQueues {s : State} (h : s.ringsOk = true) : s.ageQueues.ringsOk = true :=
  ringsOk_foldl h fun _ _ hs => ringsOk_ageQueue hs

theorem ringsOk_packetCheck {s : State} {q p} (h : s.ringsOk = true) : (s.packetCheck q p).2.ringsOk = true := by
  unfold State.packetCheck
  dsimp only
  split
  · exact h
  · split
    · split
      next t e => exact (ringsOk_of_snd e (ringsOk_launchIn h) :)
      next t e => exact (ringsOk_of_snd e (ringsOk_launchIn h) :)
    · split
      · split
        · exact h
        · split <;> exact h
      · exact h

theorem ringsOk_failQueue {s : State} {q sts tag} (h : s.ringsOk = true) : (s.failQueue q sts tag).ringsOk = true :=
  ringsOk_ite (ringsOk_frame (ringsOk_frame h)) (ringsOk_frame (ringsOk_frame h))

theorem ringsOk_dispatchHead {s : State} {q p} (h : s.ringsOk = true) : (s.dispatchHead q p).ringsOk = true :=
  ringsOk_trace (ringsOk_frame (ringsOk_frame h))

theorem ringsOk_runPacket {s : State} {q p} (h : s.ringsOk = true) : (s.runPacket q p).ringsOk = true := by
  unfold State.runPacket
  extract_lets ctx s1
  refine ringsOk_ite ?_ ?_
  · split
    next e => exact ringsOk_of_snd e (ringsOk_launchIn h)
    next t e =>
      have ht : t.ringsOk = true := ringsOk_of_snd e (ringsOk_launchIn h)
      split
      · exact ht
      · exact ringsOk_walkList (ringsOk_startGang (ringsOk_dispatchHead ht))
  have h1 : s1.ringsOk = true := ringsOk_dispatchHead h
  refine ringsOk_ite (ringsOk_completePacket h1) (ringsOk_ite ?_ (ringsOk_completePacket h1))
  split
  · exact ringsOk_completePacket h1
  · exact ringsOk_setGang h1

theorem ringsOk_command {s : State} {ty q} (h : s.ringsOk = true) : (s.command ty q).ringsOk = true := by
  unfold State.command
  extract_lets s0
  have h0 : (s0.head q).1.ringsOk = true := ringsOk_head (ringsOk_ageQueues h)
  split
  next e => exact ringsOk_failQueue (ringsOk_of_fst e h0)
  next e => exact ringsOk_trace (ringsOk_frame (ringsOk_of_fst e h0))
  next t _ e =>
    have ht : t.ringsOk = true := ringsOk_of_fst e h0
    split
    · exact ringsOk_ite (ringsOk_failQueue (ringsOk_packetCheck ht)) ht
    · exact ringsOk_ite (ringsOk_ageQueue (ringsOk_runPacket ht)) ht
  next e => exact ringsOk_of_fst e h0

theorem ringsOk_commandNext {s t : State} (h : s.ringsOk = true) (ht : s.commandNext = some t) : t.ringsOk = true := by
  unfold State.commandNext at ht
  dsimp only at ht
  split at ht
  · obtain ⟨q, -, hq⟩ := List.exists_of_findSome?_eq_some ht
    obtain ⟨ty, -, rfl⟩ := Option.map_eq_some_iff.mp hq
    exact ringsOk_command (ringsOk_ageQueues h)
  · exact absurd ht (by simp)

theorem ringsOk_ageHeads {s : State} (h : s.ringsOk = true) : s.ageHeads.ringsOk = true := ringsOk_ite (ringsOk_ageQueues h) h

theorem safe_execPacketComplete {s : State} {q tag} (h : s.ringsOk = true) : Safe (execPacketComplete q tag s) := by
  unfold execPacketComplete
  refine safe_runStep (fun _ hs => ?_) h
  split
  · exact ringsOk_finishGang hs
  · exact hs

theorem safe_execPriorityAging {s : State} (h : s.ringsOk = true) : Safe (execPriorityAging s) := by
  unfold execPriorityAging
  refine safe_runStep (fun _ hs => ?_) h
  refine ringsOk_foldl hs fun _ _ hs1 => ?_
  dsimp only
  split
  · exact ringsOk_frame hs1
  · exact hs1

theorem safe_execLaunchSeniority {s : State} (h : s.ringsOk = true) : Safe (execLaunchSeniority s) := by
  unfold execLaunchSeniority
  refine safe_runStep (fun _ hs => ?_) h
  refine ringsOk_foldl hs fun _ _ hs1 => ?_
  dsimp only
  split
  · exact ringsOk_frame hs1
  · exact hs1

theorem ringsOk_ring {s : State} {q w} (h : s.ringsOk = true) : (s.ring q w).ringsOk = true :=
  ringsOk_ite h (ringsOk_ite (ringsOk_ageQueue (ringsOk_frame h)) (ringsOk_frame (ringsOk_frame h)))

theorem ringsOk_skipQueue {s : State} {q} (h : s.ringsOk = true) : (s.skipQueue q).ringsOk = true :=
  ringsOk_ite (ringsOk_ageQueue (ringsOk_frame h)) h

theorem ringsOk_resetQueue {s : State} {q} (h : s.ringsOk = true) : (s.resetQueue q).ringsOk = true := ringsOk_frame (ringsOk_frame h)

theorem ringsOk_enableQueue {s : State} {q} (h : s.ringsOk = true) : (s.enableQueue q).ringsOk = true :=
  ringsOk_ageQueue (ringsOk_frame h)

theorem ringsOk_disableQueue {s : State} {q} (h : s.ringsOk = true) : (s.disableQueue q).ringsOk = true :=
  ringsOk_frame (ringsOk_frame h)

theorem ringsOk_writeQstat {s : State} {q v} (h : s.ringsOk = true) : (s.writeQstat q v).ringsOk = true := by
  refine ringsOk_ite (ringsOk_resetQueue h) (ringsOk_ite (ringsOk_skipQueue h) (ringsOk_ite (ringsOk_enableQueue h) ?_))
  exact ringsOk_ite (ringsOk_disableQueue h) h

theorem ringsOk_writeQueue {s : State} {host q reg v} (h : s.ringsOk = true) : (s.writeQueue host q reg v).ringsOk = true := by
  refine ringsOk_ite (ringsOk_ite (ringsOk_frame h) h) (ringsOk_ite (ringsOk_ite (ringsOk_frame h) h) ?_)
  exact ringsOk_ite (ringsOk_ite (ringsOk_ring h) h) (ringsOk_ite (ringsOk_writeQstat h) h)

theorem keeps_storeWords {va l} : Keeps (storeWords va l) := by
  induction l generalizing va with
  | nil => exact .pure
  | cons _ _ ih => exact .guard .throw (.bind keeps_translate fun _ => .bind keeps_locWrite fun _ => ih)

theorem safe_execQpost {s : State} {d a p} (h : s.ringsOk = true) : Safe (execQpost d a p s) := by
  refine safe_runWord (.bind keeps_touch fun _ => .bind keeps_rdP fun _ => .guard .trapWith (.bind keeps_rdX fun _ => ?_)) h
  refine .get fun _ _ => .guard keeps_rangeTrap ?_
  refine .ite ?_ ?_
  · refine .bind keeps_readPay fun _ => .bind (keeps_asCtx keeps_storeWords) fun _ => ?_
    exact .bind (.modify fun _ hs1 => ringsOk_ageQueue (ringsOk_frame hs1)) fun _ => .bind keeps_wrX fun _ => .pure
  · exact .bind keeps_wrX fun _ => .pure

/-! ### Superstep boundaries -/

theorem ringsOk_tryWrite {s : State} {ctx p off n v} (h : s.ringsOk = true) : (s.tryWrite ctx p off n v).2.ringsOk = true := by
  unfold State.tryWrite
  split
  next t e => exact (ringsOk_of_ok e (keeps_asCtx keeps_writeObj) h :)
  · exact ringsOk_frame h

theorem ringsOk_writeRollCall {s : State} {g} (h : s.ringsOk = true) : (s.writeRollCall g).ringsOk = true := by
  unfold State.writeRollCall
  refine ringsOk_trace ?_
  refine ringsOk_ite h ?_
  dsimp only
  split
  next t e => exact ringsOk_ownWriteFailed (ringsOk_of_snd e (ringsOk_objHead h) :)
  next t e =>
    have ht : t.ringsOk = true := ringsOk_of_snd e (ringsOk_objHead h)
    refine ringsOk_ite (ringsOk_ownWriteFailed ht) ?_
    split
    next t1 e1 => exact (ringsOk_of_snd e1 (ringsOk_tryWrite ht) :)
    next t1 e1 => exact ringsOk_ownWriteFailed (ringsOk_of_snd e1 (ringsOk_tryWrite ht) :)

theorem ringsOk_debugStop {s : State} {g mode} (h : s.ringsOk = true) : (s.debugStop g mode).ringsOk = true :=
  ringsOk_enterTrap (ringsOk_frame h (LCore.advance_ring (s.cur.endStep (g.doneJoin.get 0))))

theorem ringsOk_debugStops {s : State} {id} (h : s.ringsOk = true) : (s.debugStops id).ringsOk = true := by
  unfold State.debugStops
  extract_lets g mode s0 ls s1
  refine ringsOk_ite h ?_
  have h1 : s1.ringsOk = true :=
    ringsOk_foldl (ringsOk_modWhere (ringsOk_applyMsgs h)) fun _ _ hs => ringsOk_onCore hs fun _ hs1 => ringsOk_debugStop hs1
  exact ringsOk_ite (ringsOk_frame (ringsOk_trace h1)) (ringsOk_trace h1)

theorem keeps_asPlaced {α : Type} {m : Ex α} {ctx pcid} (hm : Keeps m) : Keeps (asPlaced ctx pcid m : Ex α) :=
  .get fun _ _ => .bind .modCur fun _ => .bind (keeps_asCtx hm) fun _ => .bind .modCur fun _ => .pure

theorem ringsOk_roomFrom {s : State} {ctx pcid size n lvl} (h : s.ringsOk = true) {r} (hr : s.roomFrom ctx pcid size n lvl = some r) :
    r.2.ringsOk = true := by
  induction n generalizing lvl with
  | zero => exact absurd hr (by simp [State.roomFrom])
  | succ n ih =>
    unfold State.roomFrom at hr
    split at hr
    · exact absurd hr (by simp)
    split at hr
    next e =>
      obtain rfl := Option.some.inj hr
      exact ringsOk_bumpPad h e
    · exact ih hr

theorem ringsOk_collectAt {s : State} {ctx pcid lvl} (h : s.ringsOk = true) : (s.collectAt ctx pcid lvl).ringsOk = true := by
  unfold State.collectAt
  refine ringsOk_ite h ?_
  extract_lets _ t
  have ht : t.ringsOk = true := ringsOk_collectBack (ringsOk_swapped h ringOk_cleared fun _ hd => hd)
  split
  next c l others =>
    obtain ⟨hc, hl⟩ := List.forall_mem_cons.mp (others ▸ ringOk_others ht)
    exact ringsOk_cores ht hc hl
  · exact h

theorem ringsOk_collectPads {s : State} {ctx from_ cores} (h : s.ringsOk = true) : (s.collectPads ctx from_ cores).ringsOk = true :=
  ringsOk_foldl h fun _ _ hs => ringsOk_foldl hs fun _ _ hs1 => ringsOk_collectAt hs1

theorem ringsOk_reserveMoves {s : State} {g reach newPcid l} (h : s.ringsOk = true) {r}
    (hr : s.reserveMoves g reach newPcid l = some r) : r.1.ringsOk = true := by
  induction l generalizing s r with
  | nil =>
    obtain rfl := Option.some.inj hr
    exact h
  | cons o l ih =>
    have next : ∀ (s1 : State) (m : Move1), s1.ringsOk = true →
        (s1.reserveMoves g reach newPcid l).map (fun x => (x.1, m :: x.2)) = some r → r.1.ringsOk = true := by
      intro s1 m h1 hm
      obtain ⟨x, hx, rfl⟩ := Option.map_eq_some_iff.mp hm
      exact (ih h1 hx :)
    unfold State.reserveMoves at hr
    dsimp only at hr
    split at hr
    · exact ih h hr
    split at hr
    next e => exact next _ _ (ringsOk_roomFrom h e) hr
    split at hr
    · split at hr
      next e => exact next _ _ (ringsOk_of_ok e (keeps_asPlaced keeps_mergeBytes) h) hr
      · exact next _ _ (ringsOk_memError (ringsOk_frame h)) hr
    · split at hr
      next e => exact next _ _ (ringsOk_of_ok e (keeps_asCtx keeps_heapPlace) h) hr
      · exact absurd hr (by simp)

theorem ringsOk_forwardMoves {s : State} {ctx ms} (h : s.ringsOk = true) : (s.forwardMoves ctx ms).ringsOk = true :=
  ringsOk_foldl h fun _ _ hs => ringsOk_forwardAll hs

theorem ringsOk_moveBytes {s : State} {ctx m} (h : s.ringsOk = true) : (s.moveBytes ctx m).ringsOk = true := by
  unfold State.moveBytes
  split
  · exact ringsOk_frame h
  · refine ringsOk_ite h ?_
    split
    next e =>
      refine ringsOk_of_ok e (keeps_asCtx ?_) h
      refine .bind ?_ ?_
      · exact keeps_fillObj
      · exact fun _ => keeps_writeObj
    · exact ringsOk_frame h

theorem ringsOk_planMoves {s : State} {g cores newPcid} (h : s.ringsOk = true) {r} (hr : s.planMoves g cores newPcid = some r) :
    r.1.ringsOk = true := by
  unfold State.planMoves at hr
  dsimp only at hr
  split at hr
  next e =>
    split at hr
    · obtain rfl := Option.some.inj hr
      exact ringsOk_reserveMoves h e
    · exact ringsOk_reserveMoves (ringsOk_collectPads h) hr
  · exact ringsOk_reserveMoves (ringsOk_collectPads h) hr

theorem ringsOk_moveGang {s t : State} {g cores} (h : s.ringsOk = true) (ht : s.moveGang g cores = some t) : t.ringsOk = true := by
  obtain ⟨x, hx, rfl⟩ := Option.map_eq_some_iff.mp ht
  refine ringsOk_modGang (ringsOk_frame (ringsOk_foldl (ringsOk_modWhere (ringsOk_foldl ?_ fun _ _ hs => ringsOk_moveBytes hs))
    fun _ _ hs => ringsOk_clearPad hs))
  exact ringsOk_forwardMoves (ringsOk_modWhere (ringsOk_planMoves h hx))

theorem ringsOk_doShrink {s : State} {id x} (h : s.ringsOk = true) : (s.doShrink id x).ringsOk = true := by
  unfold State.doShrink
  refine ringsOk_ite (ringsOk_failQueue h) ?_
  dsimp only
  split
  · exact ringsOk_failQueue h
  next t e => exact ringsOk_completePacket (ringsOk_moveGang h e :)

theorem ringsOk_doShrinks {s : State} {id} (h : s.ringsOk = true) : (s.doShrinks id).ringsOk = true :=
  ringsOk_foldl (ringsOk_modGang h) fun _ _ hs => ringsOk_doShrink hs

theorem ringsOk_discardCopies {s : State} (h : s.ringsOk = true) : s.discardCopies.ringsOk = true :=
  ringsOk_foldl h fun _ _ hs => ringsOk_frame hs

theorem ringsOk_endHere {s : State} (h : s.ringsOk = true) : s.endHere.ringsOk = true :=
  ringsOk_modGang (ringsOk_modRing (ringsOk_discardCopies h) fun c _ => ringOk_leave (c := c))

theorem ringsOk_endMember {s : State} {id lcid} (h : s.ringsOk = true) : (s.endMember id lcid).ringsOk = true := by
  refine ringsOk_ite ?_ ?_
  · refine ringsOk_ite ?_ ?_
    · exact ringsOk_endRequest (ringsOk_modGang (ringsOk_onCore h fun _ hs => ringsOk_endHere hs))
    · exact ringsOk_onCore h fun _ hs => ringsOk_endHere hs
  · exact h

theorem ringsOk_abortTask {s : State} {who v} (h : s.ringsOk = true) : (s.abortTask who v).ringsOk = true := by
  unfold State.abortTask
  dsimp only
  split
  · exact h
  · exact ringsOk_ite (ringsOk_endMember h) h

/-! ### Satchels -/

theorem ringsOk_tryFill {s : State} {ctx p off n cs} (h : s.ringsOk = true) : (s.tryFill ctx p off n cs).2.ringsOk = true := by
  unfold State.tryFill
  split
  next t e => exact (ringsOk_of_ok e (keeps_asCtx keeps_fillObj) h :)
  · exact ringsOk_frame h

theorem ringsOk_trySnap {s : State} {ctx p n} (h : s.ringsOk = true) : (s.trySnap ctx p n).2.ringsOk = true := by
  unfold State.trySnap
  split
  next t e => exact (ringsOk_of_ok e (keeps_asCtx keeps_snapshot) h :)
  · exact ringsOk_frame h

theorem ringsOk_imgLen {s : State} {ctx p} (h : s.ringsOk = true) : (s.imgLen ctx p).2.ringsOk = true := by
  unfold State.imgLen
  split
  next t e => exact (ringsOk_of_snd e (ringsOk_objHead h) :)
  next t e => exact (ringsOk_of_snd e (ringsOk_objHead h) :)

theorem ringsOk_quietZero {s : State} {ctx va n} (h : s.ringsOk = true) : (s.quietZero ctx va n).ringsOk = true :=
  ringsOk_foldl h fun _ _ hs => ringsOk_attempt hs (.bind keeps_useLeaf fun _ => keeps_locFill)

theorem ringsOk_writePortable {s : State} {g} (h : s.ringsOk = true) : (s.writePortable g).2.ringsOk = true := by
  unfold State.writePortable
  extract_lets
  split
  next dp dn _ =>
  split
  next cells n _ =>
  split
  next t e1 => exact (ringsOk_of_snd e1 (ringsOk_imgLen h) :)
  next t e1 =>
    have h1 : t.ringsOk = true := ringsOk_of_snd e1 (ringsOk_imgLen h)
    split
    · exact h1
    split
    next t e2 => exact (ringsOk_of_snd e2 (ringsOk_tryFill h1) :)
    next t e2 =>
      have h2 : t.ringsOk = true := ringsOk_of_snd e2 (ringsOk_tryFill h1)
      split
      · exact h2
      split
      next t e3 => exact (ringsOk_of_snd e3 (ringsOk_trySnap h2) :)
      next t e3 =>
        have h3 : t.ringsOk = true := ringsOk_of_snd e3 (ringsOk_trySnap h2)
        split
        next t e4 => exact (ringsOk_of_snd e4 (ringsOk_tryFill h3) :)
        next t e4 => exact ringsOk_frame (ringsOk_quietZero (ringsOk_of_snd e4 (ringsOk_tryFill h3)))

theorem ringsOk_takeCut {s : State} {id} (h : s.ringsOk = true) : (s.takeCut id).ringsOk = true := by
  unfold State.takeCut
  extract_lets s0 g s1
  split
  · exact h
  have h1 : s1.ringsOk = true := ringsOk_setGang (ringsOk_applyMsgs h)
  refine ringsOk_ite (ringsOk_endRequest h1) ?_
  split
  next t e => exact ringsOk_endRequest (ringsOk_of_snd e (ringsOk_writePortable h1) :)
  next t e =>
    have ht : t.ringsOk = true := ringsOk_of_snd e (ringsOk_writePortable h1)
    refine ringsOk_ite (ringsOk_endRequest ?_) (ringsOk_endRequest ht)
    exact ringsOk_foldl (ringsOk_removeGang (ringsOk_frame ht)) fun _ _ hs => ringsOk_completePacket hs

theorem ringsOk_boundary {s : State} {id} (h : s.ringsOk = true) : (s.boundary id).ringsOk = true := by
  refine ringsOk_ite ?_ ?_
  · exact ringsOk_modGang (ringsOk_modWhere (ringsOk_doShrinks (ringsOk_debugStops (ringsOk_takeCut (ringsOk_writeRollCall h)))))
  · exact ringsOk_takeCut (ringsOk_writeRollCall h)

theorem safe_execSuperstepBoundary {s : State} (h : s.ringsOk = true) : Safe (execSuperstepBoundary s) := by
  unfold execSuperstepBoundary
  refine safe_runStep (fun _ hs => ?_) h
  split
  · exact ringsOk_boundary hs
  · exact hs

theorem ringsOk_stopScan {s : State} {w r n k len gain skip} (h : s.ringsOk = true) :
    (s.stopScan w r n k len gain skip).ringsOk = true := by
  refine ringsOk_ite h (ringsOk_attempt (ringsOk_withCur h ?_) keeps_noteUnderflow)
  exact ringOk_of_ring (ringOk_unwork (ringOk_cur h)) (scanTo_ring ..)

theorem ringsOk_stopMma {s : State} {w r n ta tb op t u} (h : s.ringsOk = true) : (s.stopMma w r n ta tb op t u).ringsOk = true :=
  ringsOk_ite h (ringsOk_withCur h (ringOk_unwork (w := w) (ringOk_cur h)))

theorem ringsOk_stopWork {s : State} (h : s.ringsOk = true) : s.stopWork.ringsOk = true := by
  unfold State.stopWork
  split
  · exact h
  · split
    · exact h
    · refine ringsOk_ite h ?_
      split
      · exact ringsOk_stopMma h
      · exact ringsOk_stopScan h
      · exact ringsOk_stopScan h
      · exact ringsOk_stopScan h
      · exact h

theorem ringsOk_stopLoads {s : State} (h : s.ringsOk = true) : s.stopLoads.ringsOk = true := ringsOk_modCur (ringsOk_landRow h)

theorem ringsOk_stopMembers {s : State} {id} (h : s.ringsOk = true) : (s.stopMembers id).ringsOk = true :=
  ringsOk_foldl h fun _ _ hs => ringsOk_onCore hs fun _ hs1 => ringsOk_modCur (ringsOk_stopLoads (ringsOk_stopWork
    (ringsOk_settleCopies hs1))) (stopped_ring _)

theorem ringsOk_settleWords {s : State} {id k} (h : s.ringsOk = true) : (s.settleWords id k).ringsOk = true := by
  induction k generalizing s with
  | zero => exact h
  | succ _ ih =>
    unfold State.settleWords
    dsimp only
    split
    · exact h
    · exact ih (ringsOk_deposits (ringsOk_frame h))

theorem ringsOk_endSteps {s : State} {id} (h : s.ringsOk = true) : (s.endSteps id).ringsOk = true :=
  ringsOk_modWhere h fun _ hc => ringOk_resumed hc

theorem ringsOk_preempt {s : State} {id} (h : s.ringsOk = true) : (s.preempt id).ringsOk = true := by
  unfold State.preempt
  extract_lets b s0 g img
  have hb : b.ringsOk = true := ringsOk_endSteps (ringsOk_ite (ringsOk_boundary h) h)
  have hs0 : s0.ringsOk = true := ringsOk_stopMembers (ringsOk_settleWords hb)
  split
  split
  · exact ringsOk_endRequest (ringsOk_frame hb)
  next t e =>
    have ht : t.ringsOk = true := ringsOk_of_snd e (ringsOk_imgLen hs0)
    refine ringsOk_ite (ringsOk_endRequest (ringsOk_frame hb)) ?_
    split
    · exact ringsOk_endRequest (ringsOk_frame hb)
    next u e =>
      have hu : u.ringsOk = true := ringsOk_of_snd e (ringsOk_tryFill ht)
      refine ringsOk_endRequest (ringsOk_removeGang (ringsOk_of_images hu ?_))
      refine List.forall_mem_append.mpr ⟨ringOk_images hu, List.forall_mem_singleton.mpr fun c hc => ?_⟩
      exact ringOk_member hu hc

theorem ringsOk_placeObjects {s : State} {ctx m offs reach place l} (h : s.ringsOk = true) {r}
    (hr : s.placeObjects ctx m offs reach place l = some r) : r.1.ringsOk = true := by
  induction l generalizing s r with
  | nil =>
    obtain rfl := Option.some.inj hr
    exact h
  | cons j l ih =>
    unfold State.placeObjects at hr
    dsimp only at hr
    split at hr
    next e =>
      obtain ⟨x, hx, rfl⟩ := Option.map_eq_some_iff.mp hr
      exact (ih (ringsOk_roomFrom h e) hx :)
    · split at hr
      · obtain ⟨x, hx, rfl⟩ := Option.map_eq_some_iff.mp hr
        exact (ih h hx :)
      · exact absurd hr (by simp)

theorem ringsOk_planObjects {s : State} {ctx m offs reach place} (h : s.ringsOk = true) {r}
    (hr : s.planObjects ctx m offs reach place = some r) : r.1.ringsOk = true := by
  unfold State.planObjects at hr
  dsimp only at hr
  split at hr
  next e =>
    split at hr
    · obtain rfl := Option.some.inj hr
      exact ringsOk_placeObjects h e
    · exact ringsOk_placeObjects (ringsOk_collectPads h) hr
  · exact ringsOk_placeObjects (ringsOk_collectPads h) hr

theorem ringsOk_putObject {s : State} {ctx m off f home o} (h : s.ringsOk = true) :
    (s.putObject ctx m off f home o).ringsOk = true := by
  unfold State.putObject
  dsimp only
  split
  · exact ringsOk_frame h
  · split
    next t e => exact (ringsOk_of_ok e (keeps_asPlaced keeps_mergeBytes) h :)
    · exact ringsOk_memError (ringsOk_frame h)

theorem ringsOk_applyRecords {s : State} {ctx m k k1} (h : s.ringsOk = true) : (s.applyRecords ctx m k k1).ringsOk = true := by
  induction k generalizing s k1 with
  | zero => exact h
  | succ _ ih => exact ih (ringsOk_applyMerge h)

theorem ringsOk_fillMembers {s : State} {id} (h : s.ringsOk = true) : (s.fillMembers id).ringsOk = true :=
  ringsOk_foldl h fun _ _ hs => ringsOk_onCore hs fun _ hs1 => ringsOk_modCur hs1

theorem ringsOk_restorePortable {s t : State} {ctx m cores nom} (h : s.ringsOk = true)
    (ht : s.restorePortable ctx m cores nom = some t) : t.ringsOk = true := by
  obtain ⟨x, hx, rfl⟩ := Option.map_eq_some_iff.mp ht
  have hx := ringsOk_planObjects (ringsOk_frame (ringsOk_takePads (ringsOk_createCtx h))) hx
  refine ringsOk_frame (ringsOk_fillMembers (ringsOk_addCores (ringsOk_frame (ringsOk_applyRecords ?_)) ?_))
  on_goal 2 => exact List.forall_mem_map.mpr fun _ _ => ringOk_ite ringOk_restoredCore ringOk_restoredCore
  refine ringsOk_foldl (ringsOk_foldl (ringsOk_foldl hx fun _ _ hs => ?_) fun _ _ hs => ?_) fun _ _ hs => ?_
  · exact ringsOk_setTidEntry hs
  · exact ringsOk_putObject hs
  · exact ringsOk_putObject hs

theorem ringsOk_reenter {s : State} {id lcid r held} (h : s.ringsOk = true) : (s.reenter id lcid r held).ringsOk = true :=
  ringsOk_onCore h fun _ hs => ringsOk_modCur (ringsOk_attempt hs keeps_enterWords)

theorem ringsOk_reissueHere {s : State} (h : s.ringsOk = true) : s.reissueHere.ringsOk = true :=
  ringsOk_ite h (ringsOk_pump (ringsOk_modRing h fun _ hc => ringOk_requeue hc))

theorem ringsOk_restoreInPlace {s : State} {ctx m held} (h : s.ringsOk = true) : (s.restoreInPlace ctx m held).ringsOk = true := by
  have h1 : ∀ cores, ({ (s.createCtx ctx).takePads ctx cores with
      nextGang := s.nextGang + 1, images := s.images.filter (fun i => i != held) } : State).ringsOk = true := fun _ =>
    ringsOk_of_images (ringsOk_takePads (ringsOk_createCtx h)) fun i hi => ringOk_images h i (List.mem_of_mem_filter hi)
  unfold State.restoreInPlace
  refine ringsOk_foldl (ringsOk_foldl (ringsOk_frame (ringsOk_fillMembers (ringsOk_addCores (ringsOk_frame ?_) ?_))) fun _ _ hs =>
      ringsOk_reenter hs)
    fun _ _ hs => ringsOk_ite (ringsOk_onCore hs fun _ hs => ringsOk_reissueHere hs) hs
  · exact ringsOk_foldl (h1 _) fun _ _ hs => ringsOk_frame hs
  · exact List.forall_mem_map.mpr fun _ _ => ringOk_inPlaceCore

theorem ringsOk_restoreNow {s : State} (h : s.ringsOk = true) : s.restoreNow.ringsOk = true := by
  unfold State.restoreNow
  dsimp only
  split
  next e => exact ringsOk_endRequest (ringsOk_of_snd e (ringsOk_imgLen h))
  next t e =>
    have ht : t.ringsOk = true := ringsOk_of_snd e (ringsOk_imgLen h)
    split
    next e => exact ringsOk_endRequest (ringsOk_of_snd e (ringsOk_trySnap ht))
    next u e =>
      have hu : u.ringsOk = true := ringsOk_of_snd e (ringsOk_trySnap ht)
      refine ringsOk_ite (ringsOk_endRequest hu) ?_
      split
      · exact ringsOk_endRequest hu
      refine ringsOk_ite ?_ ?_
      · split
        · exact ringsOk_endRequest hu
        · exact ringsOk_ite (ringsOk_endRequest (ringsOk_restoreInPlace hu)) h
      split
      · exact ringsOk_endRequest hu
      split
      · exact h
      split
      · exact ringsOk_endRequest hu
      next e => exact ringsOk_endRequest (ringsOk_restorePortable hu e)

theorem ringsOk_retryRestore {s : State} (h : s.ringsOk = true) : s.retryRestore.ringsOk = true := ringsOk_ite (ringsOk_restoreNow h) h

theorem ringsOk_releaseImage {s : State} (h : s.ringsOk = true) : s.releaseImage.ringsOk = true := by
  unfold State.releaseImage
  dsimp only
  refine ringsOk_ite (ringsOk_endRequest (ringsOk_imgLen h)) ?_
  split
  · exact ringsOk_endRequest h
  · refine ringsOk_endRequest (ringsOk_foldl (ringsOk_dropPads ?_) fun _ _ hs => ringsOk_completePacket hs)
    exact ringsOk_of_images h fun i hi => ringOk_images h i (List.mem_of_mem_filter hi)

theorem ringsOk_gangRequest {s : State} {f : Gang → State → State} {q tag} (h : s.ringsOk = true)
    (hf : ∀ x y, y.ringsOk = true → (f x y).ringsOk = true) : (s.gangRequest q tag f).ringsOk = true := by
  unfold State.gangRequest
  split
  · exact ringsOk_endRequest h
  · exact ringsOk_ite (ringsOk_endRequest h) (hf _ _ h)

theorem ringsOk_satRequest {s : State} {who q tag op} (h : s.ringsOk = true) : (s.satRequest who q tag op).ringsOk = true := by
  refine ringsOk_ite h (ringsOk_ite (ringsOk_frame h) ?_)
  refine ringsOk_ite ?_ ?_
  · exact ringsOk_gangRequest (ringsOk_frame h) fun _ _ hs => ringsOk_setGang hs
  · refine ringsOk_ite ?_ ?_
    · exact ringsOk_gangRequest (ringsOk_frame h) fun _ _ hs => ringsOk_preempt hs
    · refine ringsOk_ite (ringsOk_restoreNow (ringsOk_frame h)) (ringsOk_ite (ringsOk_releaseImage (ringsOk_frame h)) ?_)
      exact ringsOk_endRequest (ringsOk_frame h)

/-! ### The links of the package -/

theorem ringsOk_onLink {s : State} {link f} (h : s.ringsOk = true) : (s.onLink link f).ringsOk = true := by
  unfold State.onLink
  split
  · exact ringsOk_frame h
  · exact h

theorem safe_execLinkMessage {s : State} {link kind ctx size} (h : s.ringsOk = true) :
    Safe (execLinkMessage link kind ctx size s) := by
  unfold execLinkMessage
  refine safe_runStep (fun _ hs => ?_) h
  split
  · exact ringsOk_ite hs (ringsOk_onLink hs)
  · exact hs

theorem ringsOk_lateResponse {s : State} (h : s.ringsOk = true) : s.lateResponse.ringsOk = true := ringsOk_ite h (ringsOk_frame h)

theorem ringsOk_portDown {s : State} {port} (h : s.ringsOk = true) : (s.portDown port).ringsOk = true := by
  unfold State.portDown
  split
  · exact ringsOk_ite (ringsOk_errorRecordAt (ringsOk_frame (ringsOk_useLink h))) h
  · exact h

theorem ringsOk_startMove {s : State} {ctx va frame} (h : s.ringsOk = true) : (s.startMove ctx va frame).ringsOk = true :=
  ringsOk_ite (ringsOk_frame h) h

theorem ringsOk_finishMove {s : State} (h : s.ringsOk = true) : s.finishMove.ringsOk = true := by
  unfold State.finishMove
  split
  · exact h
  · dsimp only
    split
    · exact ringsOk_flushTrace (ringsOk_frame h)
    · refine ringsOk_ite (ringsOk_flushTrace (ringsOk_frame h)) ?_
      refine ringsOk_ite ?_ ?_
      · exact ringsOk_flushTrace (ringsOk_errorRecordAt (ringsOk_frame (ringsOk_frame h)))
      · exact ringsOk_flushTrace (ringsOk_traceAt (ringsOk_frame (ringsOk_frame (ringsOk_ownTableWrite (ringsOk_frame
            (ringsOk_takeFrame (ringsOk_frame h)))))))

/-! ### Observation, errors and frozen parts -/

theorem ringsOk_writeTrctl {s : State} {who v} (h : s.ringsOk = true) : (s.writeTrctl who v).ringsOk = true :=
  ringsOk_ite (ringsOk_ite (ringsOk_frame h) (ringsOk_frame (ringsOk_ite (ringsOk_writeTraceRecs (ringsOk_frame h)) h))) h

theorem ringsOk_writeTrace {s : State} {who f} (h : s.ringsOk = true) : (s.writeTrace who f).ringsOk = true :=
  ringsOk_ite (ringsOk_frame h) h

theorem ringsOk_writeTrrd {s' : State} {who v} (hs' : s'.ringsOk = true) : (s'.writeTrrd who v).ringsOk = true := by
  refine ringsOk_ite ?_ ?_
  · exact ringsOk_ite (ringsOk_putGap (ringsOk_frame (ringsOk_flushTick hs'))) (ringsOk_frame (ringsOk_flushTick hs'))
  · exact ringsOk_flushTick hs'

theorem ringsOk_writeDbgctl {s : State} {who q tag mode} (h : s.ringsOk = true) : (s.writeDbgctl who q tag mode).ringsOk = true :=
  ringsOk_ite (ringsOk_frame h) h

theorem ringsOk_releaseBreak {s : State} {who v} (h : s.ringsOk = true) : (s.releaseBreak who v).ringsOk = true :=
  ringsOk_ite h (ringsOk_ageQueue (ringsOk_frame (ringsOk_frame h)))

theorem ringsOk_testReadout {s : State} (h : s.ringsOk = true) : s.testReadout.ringsOk = true := ringsOk_ite (ringsOk_frame h) h

theorem ringsOk_softError {s : State} {unit synd} (h : s.ringsOk = true) : (s.softError unit synd).ringsOk = true :=
  ringsOk_ite h (ringsOk_modCur (ringsOk_errorRecord (ringsOk_frame (ringsOk_modRing h fun _ hc => ringOk_lose hc))))

theorem ringsOk_retireLine {s : State} {pa} (h : s.ringsOk = true) : (s.retireLine pa).ringsOk = true :=
  ringsOk_ite h (ringsOk_ite (ringsOk_errorRecordAt (ringsOk_frame h)) (ringsOk_errorRecordAt (ringsOk_frame h)))

theorem ringsOk_foundBad {s : State} {src a} (h : s.ringsOk = true) : (s.foundBad src a).ringsOk = true :=
  ringsOk_errorRecordAt (ringsOk_frame h)

theorem ringsOk_badMemory {s : State} {pa} (h : s.ringsOk = true) : (s.badMemory pa).ringsOk = true :=
  ringsOk_ite (ringsOk_foundBad (ringsOk_frame h)) h

theorem ringsOk_badPad {s : State} {a} (h : s.ringsOk = true) : (s.badPad a).ringsOk = true :=
  ringsOk_ite (ringsOk_foundBad (ringsOk_frame h)) h

theorem ringsOk_refill {s : State} {start} (h : s.ringsOk = true) : (s.refill start).ringsOk = true := by
  unfold State.refill
  split
  · exact h
  · split
    next t e => exact ringsOk_frame (ringsOk_of_ok e keeps_fetchWords h :)
    · exact ringsOk_frame (ringsOk_frame h)

theorem ringsOk_scrub {s : State} {key} (h : s.ringsOk = true) : (s.scrub key).ringsOk = true := by
  refine ringsOk_ite (ringsOk_badMemory h) (ringsOk_ite (ringsOk_ite (ringsOk_corrected h) h) (ringsOk_ite (ringsOk_badPad h) ?_))
  refine ringsOk_ite (ringsOk_ite (ringsOk_corrected h) h) (ringsOk_ite (ringsOk_refill h) (ringsOk_ite (ringsOk_frame h) ?_))
  exact ringsOk_ite (ringsOk_corrected h) h

/-! ### Code objects and the loader -/

theorem ringsOk_imagePage {s : State} {ctx va code} (h : s.ringsOk = true) {r} (hr : s.imagePage ctx va code = some r) :
    r.1.ringsOk = true := by
  unfold State.imagePage at hr
  dsimp only at hr
  split at hr
  next e =>
    obtain ⟨-, hr⟩ := Option.ite_none_right_eq_some.mp hr
    obtain rfl := Option.some.inj hr
    exact ringsOk_setAD (ringsOk_takeFrame (ringsOk_of_snd e (ringsOk_walkFor h)))
  · exact absurd hr (by simp)

theorem ringsOk_imagePages {s : State} {ctx base codePages k k1} (h : s.ringsOk = true) :
    (s.imagePages ctx base codePages k k1).1.ringsOk = true := by
  induction k1 generalizing s k with
  | zero => exact h
  | succ _ ih =>
    unfold State.imagePages
    split
    · exact h
    next t _ e =>
      split
      · exact (ringsOk_imagePage h e :)
      · exact ih (ringsOk_imagePage h e :)

theorem ringsOk_fillFrame {s : State} {f cmp bytes} (h : s.ringsOk = true) : (s.fillFrame f cmp bytes).ringsOk = true :=
  ringsOk_ite (ringsOk_retag (ringsOk_frame h)) (ringsOk_frame h)

theorem ringsOk_fillPages {s : State} {ctx img k l} (h : s.ringsOk = true) : (s.fillPages ctx img k l).1.ringsOk = true := by
  induction l generalizing s k with
  | nil => exact h
  | cons _ _ ih =>
    unfold State.fillPages
    split
    next t e => exact ih (ringsOk_fillFrame (ringsOk_dirtied h e :))
    · exact ih h

theorem ringsOk_callRequest {s : State} (h : s.ringsOk = true) : s.callRequest.ringsOk = true := by
  unfold State.callRequest
  split
  · exact h
  · exact ringsOk_frame h

theorem ringsOk_answer {s : State} {status detail} (h : s.ringsOk = true) : (s.answer status detail).ringsOk = true :=
  ringsOk_frame (ringsOk_callRequest (ringsOk_frame (ringsOk_physStore (ringsOk_physStore h))))

theorem ringsOk_finishLoad {s : State} {j} (h : s.ringsOk = true) : (s.finishLoad j).ringsOk = true :=
  ringsOk_answer (ringsOk_physStore (ringsOk_frame (ringsOk_fillPages (ringsOk_createCtx h))))

theorem ringsOk_goOnLoading {s : State} (h : s.ringsOk = true) : s.goOnLoading.ringsOk = true := by
  unfold State.goOnLoading
  split
  · exact ringsOk_ite (ringsOk_finishLoad h) h
  · exact h

theorem ringsOk_load {s : State} (h : s.ringsOk = true) : s.load.ringsOk = true := by
  unfold State.load
  refine ringsOk_ite h ?_
  dsimp only
  split
  · exact ringsOk_answer h
  · split
    next t _ e => exact ringsOk_answer (ringsOk_of_fst e (ringsOk_imagePages h) :)
    next t _ e =>
      have ht : t.ringsOk = true := ringsOk_of_fst e (ringsOk_imagePages h)
      split
      · exact ringsOk_answer ht
      · exact ringsOk_frame ht

theorem ringsOk_unload {s : State} (h : s.ringsOk = true) : s.unload.ringsOk = true := by
  unfold State.unload
  refine ringsOk_ite h ?_
  refine ringsOk_ite (ringsOk_answer h) ?_
  refine ringsOk_ite (ringsOk_answer h) ?_
  split
  · exact ringsOk_answer h
  · exact ringsOk_answer (ringsOk_frame (ringsOk_foldl (ringsOk_frame h) fun _ _ hs => ringsOk_fillFrame hs))

theorem ringsOk_submit {s : State} (h : s.ringsOk = true) : s.submit.ringsOk = true :=
  ringsOk_ite (ringsOk_callRequest (ringsOk_frame h)) (ringsOk_frame h)

/-! ### The root of trust and the management block -/

theorem ringsOk_setMgmt {s : State} {d f} (h : s.ringsOk = true) : (s.setMgmt d f).ringsOk = true :=
  ringsOk_ite (ringsOk_frame h) (ringsOk_frame h)

theorem ringsOk_enrolKey {s : State} {who a} (h : s.ringsOk = true) : (s.enrolKey who a).ringsOk = true := by
  unfold State.enrolKey
  refine ringsOk_ite h ?_
  dsimp only
  split
  · exact ringsOk_setMgmt h
  · exact ringsOk_ite (ringsOk_frame (ringsOk_setMgmt h)) (ringsOk_setMgmt h)

theorem ringsOk_updateFirmware {s : State} {who a len} (h : s.ringsOk = true) : (s.updateFirmware who a len).ringsOk = true :=
  ringsOk_ite (ringsOk_frame h) h

theorem ringsOk_goOnWriting {s : State} (h : s.ringsOk = true) : s.goOnWriting.ringsOk = true := by
  unfold State.goOnWriting
  split
  · exact ringsOk_ite (ringsOk_frame h) h
  · exact h

theorem ringsOk_fwgo {s : State} {len} (h : s.ringsOk = true) : (s.fwgo len).ringsOk = true :=
  ringsOk_ite (ringsOk_frame (ringsOk_frame h)) h

theorem ringsOk_endVerify {s : State} (h : s.ringsOk = true) : s.endVerify.ringsOk = true := by
  unfold State.endVerify
  split
  · exact h
  · exact ringsOk_ite (ringsOk_frame (ringsOk_frame (ringsOk_frame h))) (ringsOk_frame (ringsOk_frame h))

theorem ringsOk_waitAgain {s : State} (h : s.ringsOk = true) : s.waitAgain.ringsOk = true := ringsOk_ite (ringsOk_frame h) h

theorem ringsOk_afterReset {s : State} : s.afterReset.ringsOk = true := rfl

theorem ringsOk_doReset {s : State} : s.doReset.ringsOk = true :=
  ringsOk_ite (ringsOk_frame ringsOk_afterReset) (ringsOk_frame (ringsOk_frame ringsOk_afterReset))

theorem safe_execGetMeasurements {s : State} {i} (h : s.ringsOk = true) : Safe (execGetMeasurements i s) := by
  unfold execGetMeasurements
  refine safe_runStep (fun _ hs => ?_) h
  split
  · exact ringsOk_frame hs
  · exact hs

theorem ringsOk_setMg {s : State} {ok f} (h : s.ringsOk = true) : (s.setMg ok f).ringsOk = true := ringsOk_ite (ringsOk_frame h) h

theorem ringsOk_writeMgmt {s : State} {who off v} (h : s.ringsOk = true) : (s.writeMgmt who off v).ringsOk = true := by
  refine ringsOk_ite (ringsOk_ite (ringsOk_submit h) h) (ringsOk_ite (ringsOk_abortTask h) (ringsOk_ite (ringsOk_satRequest h) ?_))
  refine ringsOk_ite (ringsOk_setMg h) (ringsOk_ite (ringsOk_setMg h) (ringsOk_ite (ringsOk_writeDbgctl h) (ringsOk_ite (ringsOk_setMg h) ?_)))
  refine ringsOk_ite (ringsOk_releaseBreak h) (ringsOk_ite (ringsOk_writeTrace h) (ringsOk_ite (ringsOk_writeTrace h) ?_))
  exact ringsOk_ite (ringsOk_writeTrctl h) (ringsOk_ite (ringsOk_writeTrrd h) (ringsOk_setMg h))

theorem ringsOk_writeBar0 {s : State} {who d off v} (h : s.ringsOk = true) : (s.writeBar0 who d off v).ringsOk = true := by
  refine ringsOk_ite (ringsOk_ite (ringsOk_frame h) h) (ringsOk_ite (ringsOk_ite (ringsOk_enrolKey h) h) ?_)
  exact ringsOk_ite (ringsOk_ite (ringsOk_fwgo h) h) (ringsOk_ite (ringsOk_writeMgmt h) (ringsOk_setMgmt h))

theorem ringsOk_writeQblk {s : State} {who off v} (h : s.ringsOk = true) : (s.writeQblk who off v).ringsOk = true :=
  ringsOk_ite h (ringsOk_writeQueue h)

theorem ringsOk_writeRecovery {s : State} {who d off v} (h : s.ringsOk = true) : (s.writeRecovery who d off v).ringsOk = true :=
  ringsOk_ite h (ringsOk_ite (ringsOk_fwgo h) (ringsOk_ite (ringsOk_frame h) h))

theorem ringsOk_writeBar {s : State} {who reg v} (h : s.ringsOk = true) : (s.writeBar who reg v).ringsOk = true :=
  ringsOk_ite (ringsOk_ite h (ringsOk_writeRecovery h)) (ringsOk_ite (ringsOk_ite (ringsOk_writeQblk h) h) (ringsOk_ite (ringsOk_writeBar0 h) h))

/-! ### Logical cores and their next point -/

theorem ringsOk_switchTo {s : State} {c} (h : s.ringsOk = true) : (s.switchTo c).ringsOk = true :=
  ringsOk_ite (ringsOk_takeLate (ringsOk_quiesce h)) (ringsOk_modCur (ringsOk_bring (ringsOk_modCur (ringsOk_quiesce h))))

theorem ringsOk_switchCore {s : State} (h : s.ringsOk = true) : s.switchCore.ringsOk = true := by
  unfold State.switchCore
  refine ringsOk_ite ?_ h
  split
  · exact ringsOk_switchTo h
  · exact h

theorem ringsOk_takeOverrun {s : State} (h : s.ringsOk = true) : s.takeOverrun.ringsOk = true := by
  unfold State.takeOverrun
  dsimp only
  split
  · exact ringsOk_takeLate h
  · exact ringsOk_takeTrap (ringsOk_modCur h)

theorem ringsOk_takeIrq {s : State} {q} (h : s.ringsOk = true) : (s.takeIrq q).ringsOk = true := by
  unfold State.takeIrq
  split
  · exact ringsOk_takeLate h
  · exact ringsOk_takeTrap (ringsOk_frame h)

theorem ringsOk_takeLost {s t : State} (h : s.ringsOk = true) (ht : s.takeLost = some t) : t.ringsOk = true := by
  obtain ⟨x, -, rfl⟩ := Option.map_eq_some_iff.mp ht
  split
  · exact ringsOk_takeLate h
  · exact ringsOk_takeTrap (ringsOk_modCur h)

theorem ringsOk_takeDebug {s : State} (h : s.ringsOk = true) : s.takeDebug.ringsOk = true := by
  unfold State.takeDebug
  split
  · exact ringsOk_takeLate h
  · exact ringsOk_takeTrap (ringsOk_modCur h)

theorem ringsOk_pointTrap {s t : State} (h : s.ringsOk = true) (ht : s.pointTrap = some t) : t.ringsOk = true := by
  unfold State.pointTrap at ht
  split_ifs at ht
  · exact Option.some.inj ht ▸ ringsOk_takeLate h
  · exact Option.some.inj ht ▸ ringsOk_passTo h
  · exact Option.some.inj ht ▸ ringsOk_takeDebug h
  · exact Option.some.inj ht ▸ ringsOk_takeOverrun h
  · exact ringsOk_takeLost h ht
  · rcases Option.or_eq_some_iff.mp ht with ht | ⟨-, ht⟩
    · obtain ⟨q, -, rfl⟩ := Option.map_eq_some_iff.mp ht
      exact ringsOk_takeIrq h
    · exact ringsOk_takeLost h ht

theorem ringsOk_engines {s : State} (h : s.ringsOk = true) : s.engines.ringsOk = true := ringsOk_ite (ringsOk_finishTags h) h

theorem ringsOk_goOn {s : State} {pcid} (h : s.ringsOk = true) : (s.goOn pcid).ringsOk = true :=
  ringsOk_modCur (ringsOk_engines (ringsOk_bring h)) (ring_ite rfl rfl)

theorem keeps_fetchIn : Keeps fetchIn := .get fun _ _ => .guard .trapWith keeps_enterCode

theorem ringsOk_fetchTrap {s : State} {t : State} {e} (h : s.ringsOk = true) (ht : t.ringsOk = true) : (s.fetchTrap t e).ringsOk = true :=
  ringsOk_ite (ringsOk_stall h) (ringsOk_takeTrap (ringsOk_ite (ringsOk_modCur (ringsOk_undone h ht)) (ringsOk_undone h ht)))

theorem ringsOk_fetch {s : State} (h : s.ringsOk = true) : s.fetch.1.ringsOk = true := by
  unfold State.fetch
  split
  next t e => exact ringsOk_fetchTrap h (ringsOk_of_error e keeps_fetchIn h :)
  next t e =>
    have ht : t.ringsOk = true := ringsOk_of_ok e keeps_fetchIn h
    dsimp only
    split
    · exact ht
    · exact ringsOk_trapFrom ht ht

/-! ### Steps that belong to no word -/

theorem ringsOk_perform {α : Type} {s : State} {m : Ex α} (h : s.ringsOk = true) (hm : Keeps m) : (s.perform m).ringsOk = true := by
  unfold State.perform
  split
  next t e => exact (ringsOk_of_ok e hm h :)
  next t e => exact ringsOk_trapFrom h (ringsOk_of_error e hm h :)

theorem ringsOk_issueNext {s : State} (h : s.ringsOk = true) : s.issueNext.ringsOk = true := by
  unfold State.issueNext
  refine ringsOk_ite ?_ h
  split
  · exact h
  · exact ringsOk_attempt (ringsOk_frame h) keeps_reissue

theorem safe_execTakeTrap {s : State} {code late int t1 t2} (h : s.ringsOk = true) : Safe (execTakeTrap code late int t1 t2 s) := by
  unfold execTakeTrap
  refine safe_runStep (fun _ hs => ?_) h
  refine ringsOk_ite hs ?_
  refine ringsOk_ite ?_ (ringsOk_ite (ringsOk_ite hs (ringsOk_ite (ringsOk_takeTrap hs) (ringsOk_ite (ringsOk_takeLate (ringsOk_frame hs))
      (ringsOk_frame hs)))) (ringsOk_takeTrap hs))
  split
  · exact ringsOk_enterTrap (ringsOk_quiesce hs)
  · exact hs

theorem ringsOk_installMember {s : State} {lcid} (h : s.ringsOk = true) : (s.installMember lcid).ringsOk = true := by
  unfold State.installMember
  dsimp only
  split
  · exact ringsOk_modWhere (ringsOk_takePads h) fun _ _ => ringOk_cleared
  · exact h

theorem ringsOk_onCopy {s : State} {f : State → BitVec 6 → State} {p} (h : s.ringsOk = true)
    (hf : ∀ x y, x.ringsOk = true → (f x y).ringsOk = true) : (s.onCopy p f).ringsOk = true := by
  unfold State.onCopy
  refine ringsOk_onCore h fun _ hs => ?_
  split
  · exact hf _ _ hs
  · exact hs

theorem ringsOk_takeCopy {s : State} (h : s.ringsOk = true) : s.takeCopy.ringsOk = true := by
  unfold State.takeCopy
  refine ringsOk_onCore h fun _ hs => ?_
  split
  · exact ringsOk_runCopy hs
  · exact hs

theorem safe_execStreamReadAhead {s : State} (h : s.ringsOk = true) : Safe (execStreamReadAhead s) := by
  unfold execStreamReadAhead
  refine safe_runStep (fun _ hs => ?_) h
  split
  · exact ringsOk_readAhead hs
  · exact hs

theorem safe_execPrefetchCopyIn {s : State} {a} (h : s.ringsOk = true) : Safe (execPrefetchCopyIn a s) := by
  unfold execPrefetchCopyIn
  refine safe_runStep (fun _ hs => ?_) h
  split
  · exact ringsOk_attempt hs keeps_prefetchIn
  · exact hs

theorem safe_execMergeApply {s : State} (h : s.ringsOk = true) : Safe (execMergeApply s) := by
  unfold execMergeApply
  refine safe_runStep (fun _ hs => ?_) h
  split
  · exact ringsOk_applyThis hs
  · exact hs

theorem safe_execReleaseNotice {s : State} (h : s.ringsOk = true) : Safe (execReleaseNotice s) := by
  unfold execReleaseNotice
  refine safe_runStep (fun _ hs => ?_) h
  split
  · exact ringsOk_applyThis hs
  · exact hs

/-! ### Scalar operations -/

theorem keeps_putX {d f} : Keeps (putX d f) := .bind keeps_cur fun _ => .bind keeps_wrX fun _ => .pure

theorem safe_aluRR {s : State} {i lat f d a b} (h : s.ringsOk = true) : Safe (aluRR i lat f d a b s) := safe_runWord keeps_putX h

theorem safe_aluR {s : State} {i f d a} (h : s.ringsOk = true) : Safe (aluR i f d a s) := safe_runWord keeps_putX h

theorem keeps_divider : Keeps divider := .modCur

theorem safe_divRR {s : State} {i f d a b} (h : s.ringsOk = true) : Safe (divRR i f d a b s) :=
  safe_runWord (.bind keeps_divider fun _ => keeps_putX) h

theorem safe_aluI {s : State} {i f d a imm} (h : s.ringsOk = true) : Safe (aluI i f d a imm s) := safe_runWord keeps_putX h

theorem safe_aluS {s : State} {i f d a} (h : s.ringsOk = true) : Safe (aluS i f d a s) := safe_runWord keeps_putX h

/-! ### Every instruction and event -/

theorem safe_exec {s : State} {i} (h : s.ringsOk = true) : Safe (exec i s) := by
  unfold exec
  cases i <;> dsimp only
  case add | sub | mul | mulh | mulhz | and | or | xor | andn | shl | shr | sar | rol | ror | slt | sltz | min | max | minz |
      maxz => exact safe_aluRR h
  case div | divz | rem | remz => exact safe_divRR h
  case cmov | lup | aupc => exact safe_runWord keeps_putX h
  case clz | ctz | popc | brev | bswap => exact safe_aluR h
  case addi | andi | ori | xori | slti | sltzi => exact safe_aluI h
  case shli | shri | sari | ext | ins => exact safe_aluS h
  case bEq | bNe | bLt | bGe | bLtz | bGez => exact safe_branchIf h
  case j => exact safe_execJ h
  case call => exact safe_execCall h
  case jr => exact safe_execJr h
  case callr => exact safe_execCallr h
  case rep => exact safe_execRep h
  case retire => exact safe_execRetire h
  case ld => exact safe_execLd h
  case st => exact safe_execSt h
  case ldp => exact safe_execLdp h
  case stp => exact safe_execStp h
  case pmov => exact safe_runWord (.bind keeps_rdP fun _ => .bind keeps_wrP fun _ => .pure) h
  case padj => exact safe_execPadj h
  case plen | ptox => exact safe_runWord (.bind keeps_rdP fun _ => .bind keeps_wrX fun _ => .pure) h
  case pslice => exact safe_execPslice h
  case pfrom => exact safe_runWord (.bind keeps_rdX fun _ => .bind keeps_lenOf fun _ => .bind keeps_wrP fun _ => .pure) h
  case alloc | allocr => exact safe_allocInstr h
  case otouch => exact safe_runWord (.bind keeps_touch fun _ => .pure) h
  case oacq => exact safe_execOacq h
  case orel => exact safe_execOrel h
  case amo | cas => exact safe_atomic h
  case vamo => exact safe_copWord rfl (.bind keeps_cur fun _ => .bind keeps_canonical fun _ => .pure) h
  case fence => exact safe_runWord (.bind keeps_raiseAck fun _ => .pure) h
  case xfence => exact safe_execXfence h
  case setvl => exact safe_runWord (.bind keeps_rdX fun _ => .bind .modCur fun _ => .bind keeps_wrX fun _ => .pure) h
  case vadd | vsub | vmul | vmulh | vmulhz | vfma | vfms | vfnma | vfnms | vfdiv | vfsqrt | vmin | vmax | vminz | vmaxz | vfmin |
      vfmax | vand | vor | vxor | vandn | vshl | vshr | vsar | vcmpEq | vcmpNe | vcmpLt | vcmpLe | vfcmpEq | vfcmpLt | vfcmpLe |
      vfcmpUn | vsel | vcvt | vcvtSat | vquant | vredAdd | vredMin | vredMax | vredOr | vscanAdd | vscanMin | vscanMax |
      vscanOr | vperm | viota | vcompress | vexpand | vpopc | vfirst | vmv | vmvStream | mlogAnd | mlogOr | mlogXor | mlogAndn |
      mma | tclaim | tfree | tzero | azero | adrain | afill | amode | again | againPlain | ascan | ascanK | ascanG | aapply |
      kload | kstore | kcomb | kzero | sclose => exact safe_copWord rfl keeps_noCapture h
  case vslideUp | vslideDn | vbcast | vext | vins | vtopk | vxacc | vxrnd | tload | tstore | aload | astore | sbind =>
    exact safe_copWord rfl keeps_captureX h
  case vld | vlds | vst | vgath | vscat => exact safe_copWord rfl keeps_vecPrep h
  case tidld | tidst => exact safe_copWord rfl keeps_tidPrep h
  case xfer | xgath => exact safe_transfer h
  case xprefTr => exact safe_execXprefTr h
  case xprefMg => exact safe_execXprefMg h
  case xprefTq => exact safe_execXprefTq h
  case xwaitAll => exact safe_execXwaitAll h
  case xwaitAny => exact safe_execXwaitAny h
  case xfind => exact safe_execXfind h
  case send => exact safe_execSend h
  case sendv => exact safe_copWord rfl (.bind keeps_rdX fun _ => .bind keeps_sendChecks fun _ => .pure) h
  case recv => exact safe_execRecv h
  case recvV => exact safe_execRecvV h
  case qclr => exact safe_execQclr h
  case xphase => exact safe_runWord (.bind keeps_noTask fun _ => .bind .modCur fun _ => .pure) h
  case sstep => exact safe_execSstep h
  case arrive | arriveRel => exact safe_arriveInstr h
  case wait | waitAcq => exact safe_waitInstr h
  case bvote => exact safe_execBvote h
  case spawn => exact safe_execSpawn h
  case take => exact safe_execTake h
  case join => exact safe_execJoin h
  case qpost => exact safe_execQpost h
  case rds => exact safe_execRds h
  case wrs => exact safe_execWrs h
  case trap | brk => exact safe_runWord .trapWith h
  case eret => exact safe_runWord keeps_eretBody h
  case wfi => exact safe_runWord (.get fun _ _ => .ite .pure .pure) h
  case sfence => exact safe_execSfence h
  case cdrain => exact safe_draining (fun _ hs => safe_runWord (.bind keeps_drain fun _ => .pure) hs) h
  case cxsave => exact safe_execCxsave h
  case cxload => exact safe_execCxload h
  case immx => exact safe_execImmx h
  case hint => exact safe_execHint h
  case coprocessorIssue => exact safe_runStep (fun _ hs => ringsOk_issueNext hs) h
  case destinationWrite => exact safe_runStep (fun _ hs => ringsOk_modCur hs (land_ring ..)) h
  case takeTrap => exact safe_execTakeTrap h
  case install => exact safe_runStep (fun _ hs => ringsOk_installMember hs) h
  case logicalCoreSwitch => exact safe_runStep (fun _ hs => ringsOk_switchCore hs) h
  case depositArrive => exact safe_runStep (fun _ hs => ringsOk_landOne hs) h
  case superstepBoundary => exact safe_execSuperstepBoundary h
  case superstepOverrun => exact safe_runStep (fun _ hs => ringsOk_ite (ringsOk_takeOverrun hs) hs) h
  case tileRowLand => exact safe_runStep (fun _ hs => ringsOk_landRow hs) h
  case engineTakeCopy => exact safe_runStep (fun _ hs => ringsOk_takeCopy hs) h
  case copyComplete | copyFaultStop => exact safe_runStep (fun _ hs => ringsOk_onCopy hs fun _ _ hs1 => ringsOk_endCopy hs1) h
  case streamReadAhead => exact safe_execStreamReadAhead h
  case touchComplete => exact safe_runStep (fun _ hs => ringsOk_perform hs keeps_touch) h
  case demandCopyIn => exact safe_runStep (fun _ hs => ringsOk_perform hs keeps_fetchIn) h
  case prefetchCopyIn => exact safe_execPrefetchCopyIn h
  case collect => exact safe_runStep (fun _ hs => ringsOk_ite hs (ringsOk_collectBack hs)) h
  case mergeApply => exact safe_execMergeApply h
  case releaseNotice => exact safe_execReleaseNotice h
  case pageWalk => exact safe_runStep (fun _ hs => ringsOk_perform hs keeps_translate) h
  case migrationComplete => exact safe_runStep (fun _ hs => ringsOk_finishMove hs) h
  case counterHalve | crossDieTimeout | clockStretch | freezeInput => exact safe_runStep (fun _ hs => ringsOk_frame hs) h
  case lateResponse => exact safe_runStep (fun _ hs => ringsOk_lateResponse hs) h
  case linkMessage => exact safe_execLinkMessage h
  case permitReturn => exact safe_runStep (fun _ hs => ringsOk_onLink hs) h
  case linkDown => exact safe_runStep (fun _ hs => ringsOk_portDown hs) h
  case softError => exact safe_runStep (fun _ hs => ringsOk_softError hs) h
  case lineRetirement => exact safe_runStep (fun _ hs => ringsOk_retireLine hs) h
  case nop | launch | signal | shrink => exact safe_runStep (fun _ hs => ringsOk_command hs) h
  case packetComplete => exact safe_execPacketComplete h
  case dependenceRecheck => exact safe_runStep (fun _ hs => ringsOk_ageQueues hs) h
  case priorityAging => exact safe_execPriorityAging h
  case launchSeniority => exact safe_execLaunchSeniority h
  case doorbell => exact safe_runStep (fun _ hs => ringsOk_ring hs) h
  case queueSkip => exact safe_runStep (fun _ hs => ringsOk_skipQueue hs) h
  case queueReset => exact safe_runStep (fun _ hs => ringsOk_resetQueue hs) h
  case queueEnable => exact safe_runStep (fun _ hs => ringsOk_enableQueue hs) h
  case queueDisable => exact safe_runStep (fun _ hs => ringsOk_disableQueue hs) h
  case managementRegisterWrite => exact safe_runStep (fun _ hs => ringsOk_writeBar hs) h
  case tabort => exact safe_runStep (fun _ hs => ringsOk_abortTask hs) h
  case endTask => exact safe_runStep (fun _ hs => ringsOk_endMember hs) h
  case satchelFreeze | satchelCheckpoint | urgentPreemption | satchelRestore | releaseInPlaceImage =>
    exact safe_runStep (fun _ hs => ringsOk_satRequest hs) h
  case debugOff | debugAtSsm | debugEveryBoundary | debugNextBoundary => exact safe_runStep (fun _ hs => ringsOk_writeDbgctl hs) h
  case bkrel => exact safe_runStep (fun _ hs => ringsOk_releaseBreak hs) h
  case traceEnable | traceDisable => exact safe_runStep (fun _ hs => ringsOk_writeTrctl hs) h
  case traceHoldExpiry => exact safe_runStep (fun _ hs => ringsOk_expireHold hs) h
  case freeze => exact safe_runStep (fun _ hs => ringsOk_ite (ringsOk_frame hs) hs) h
  case testAccessReadout => exact safe_runStep (fun _ hs => ringsOk_testReadout hs) h
  case reset => exact safe_runStep (fun _ _ => ringsOk_doReset) h
  case fwgo => exact safe_runStep (fun _ hs => ringsOk_fwgo hs) h
  case recoveryImageVerified => exact safe_runStep (fun _ hs => ringsOk_endVerify hs) h
  case load => exact safe_runStep (fun _ hs => ringsOk_load hs) h
  case unload => exact safe_runStep (fun _ hs => ringsOk_unload hs) h
  case keyenr => exact safe_runStep (fun _ hs => ringsOk_enrolKey hs) h
  case getVersion | getCapabilities | negotiateAlgorithms | getDigests | getCertificate | challenge =>
    exact safe_runStep (fun _ hs => ringsOk_frame hs) h
  case getMeasurements => exact safe_execGetMeasurements h
  case pageMoveStart => exact safe_runStep (fun _ hs => ringsOk_startMove hs) h
  case firmwareUpdate => exact safe_runStep (fun _ hs => ringsOk_updateFirmware hs) h
  case scrubbing => exact safe_runStep (fun _ hs => ringsOk_scrub hs) h

/-! ### One step -/

theorem safe_runHere {s : State} (h : s.ringsOk = true) : Safe s.runHere := by
  unfold State.runHere
  split
  next t _ e => exact safe_exec (ringsOk_of_fst e (ringsOk_fetch (ringsOk_modCur h)) :)
  next t e => exact .next (ringsOk_of_fst e (ringsOk_fetch (ringsOk_modCur h)) :)

theorem ringsOk_idle {s : State} (h : s.ringsOk = true) : s.idle.ringsOk = true := by
  unfold State.idle
  split
  · exact ringsOk_goOn h
  · exact ringsOk_frame h

theorem ringsOk_elsewhere {s : State} (h : s.ringsOk = true) : s.elsewhere.ringsOk = true := by
  unfold State.elsewhere
  split
  · exact ringsOk_switchTo h
  · exact ringsOk_idle h

theorem safe_pointHere {s : State} (h : s.ringsOk = true) : Safe s.pointHere := by
  unfold State.pointHere
  split
  next t e => exact .next (ringsOk_pointTrap h e :)
  · refine .ite (.next (ringsOk_elsewhere h)) ?_
    refine .ite (.next (ringsOk_idle h)) ?_
    refine .ite ?_ (safe_runHere h)
    split
    · exact .next (ringsOk_goOn h)
    · exact safe_runHere h

theorem safe_point {s : State} (h : s.ringsOk = true) : Safe s.point := safe_pointHere (ringsOk_pump (ringsOk_engines h))

theorem safe_turn {s : State} (h : s.ringsOk = true) : Safe s.turn := by
  unfold State.turn
  split
  · exact safe_point (ringsOk_goOn (ringsOk_frame h))
  · exact safe_point h

theorem safe_auto {s : State} (h : s.ringsOk = true) : Safe s.auto := by
  unfold State.auto
  split
  · exact .next (ringsOk_boundary h)
  · refine .ite (.next (ringsOk_finishGangs h)) ?_
    split
    next t e => exact .next (ringsOk_commandNext h e :)
    · exact safe_turn (ringsOk_deposits (ringsOk_retryRestore h))

theorem ringsOk_settled {s : State} (h : s.ringsOk = true) : s.settled.ringsOk = true :=
  ringsOk_flushTick (ringsOk_ageHeads (ringsOk_syncPins (ringsOk_goOnWriting (ringsOk_goOnLoading h))))

theorem safe_settle {o} (h : Safe o) : Safe (settle o) := by
  cases o with
  | next s => exact .next (ringsOk_settled (h s rfl))
  | fault _ => rintro _ ⟨⟩
  | refused _ => rintro _ ⟨⟩

theorem Safe.fault {f} : Safe (.fault f) := by
  rintro _ ⟨⟩

theorem safe_step {s : State} (h : s.ringsOk = true) : Safe (step s) := by
  unfold step
  split
  · split
    · exact .fault
    · exact .ite (safe_exec (ringsOk_frame h)) (.next (ringsOk_frame h))
  split
  · refine .ite (.next (ringsOk_waitAgain h)) ?_
    split
    · exact .next (ringsOk_frame h)
    · exact .ite (safe_exec (ringsOk_frame h)) (.next (ringsOk_frame h))
  · split
    · exact safe_settle (safe_auto h)
    · exact safe_settle (safe_exec (ringsOk_frame h))

end Sys2Proof.Machine.Rings

/-- Settles O6: every operation of the model keeps the rings within 64 entries (`Keeps`), so every step does. -/
theorem stepKeepsRings : Obligations.StepKeepsRings := by
  unfold Obligations.StepKeepsRings
  intro s t h e
  exact Sys2Proof.Machine.Rings.safe_step h t e

namespace Sys2Proof.Machine

set_option Elab.async false

/-! The stream words `sbind`, `sclose` and `vmv` of a stream (R127, R233 to R238). The statement O41 compares what `sbind` binds with the entry
of its TID as it reads when the word comes to the core, while the model reads the entry once the registers of the word are ready (R65, R98). Where
the die holds an old value of the address of the context's table, `Config.usesOld` chooses at each time between old and new (R296, log entry 13),
and it is opaque: O41 holds if that choice does not depend on the time (`streamWords_of_steady`), and gives that it does not, on the core of
`bindAt` (`usesOld_steady_of_streamWords`). Its clauses about `sclose` and `vmv` hold (`sclose_unbinds`, `vmvStream_takes`, `vmvStream_unbound`),
and so do those about `sbind` with the entry as it reads once the registers are ready (`sbind_binds`, `sbind_faults`). -/

/-! ### Room among the pins (R195) -/

theorem offsetsAt_subset {lvl : Nat} {l m : List W64} (h : ∀ p ∈ l, p ≠ 0 → p ∈ m) : offsetsAt lvl l ⊆ offsetsAt lvl m := by
  refine List.map_subset _ fun p hp => ?_
  simp only [List.mem_filter, Bool.and_eq_true, bne_iff_ne, ne_eq] at hp ⊢
  exact ⟨h p hp.1 hp.2.2, hp.2⟩

/-- `t` has the pads, the in-place images and the other logical cores of `s`, and its running logical core stands where it stood, in its context. -/
structure SameAgents (s t : State) : Prop where
  others : t.others = s.others
  pads : t.pads = s.pads
  images : t.images = s.images
  pcid : t.cur.pcid = s.cur.pcid
  status : t.cur.status = s.cur.status
  run : t.cur.run = s.cur.run

namespace SameAgents
variable {s t : State}

theorem ctx (h : SameAgents s t) : t.cur.ctx = s.cur.ctx := by rw [LCore.ctx, h.status, LCore.ctx]

theorem padId (h : SameAgents s t) (lvl : Nat) : t.cur.padId lvl = s.cur.padId lvl := by simp only [LCore.padId, h.pcid]

theorem pad (h : SameAgents s t) (id : PadId) : t.pad id = s.pad id := pad_congr h.pads id

theorem padCtx (h : SameAgents s t) (q : Pad) : t.padCtx q = s.padCtx q := by
  unfold State.padCtx State.allCores
  split
  · simp only [List.find?_cons, h.others, h.pcid, h.run]
    split
    · simp only [Option.map_some, h.ctx]
    · rfl
  · rfl

theorem under (h : SameAgents s t) (id : PadId) (q : Pad) : t.under id q = s.under id q := by
  rw [State.under, h.padCtx, h.pad, State.under]

theorem heldFrom (h : SameAgents s t) (id : PadId) (more : List W64) : t.heldFrom id more = s.heldFrom id more := by
  simp only [State.heldFrom, h.images, h.pad]

theorem heldIn (h : SameAgents s t) (id : PadId) : t.heldIn id = s.heldIn id := by
  simp only [State.heldIn, h.images, h.pads, h.under, h.heldFrom]

/-- A running core that pins no more leaves no more offsets pinned. -/
theorem workPinned_subset (h : SameAgents s t) (pins : ∀ p ∈ t.cur.pins, p ≠ 0 → p ∈ s.cur.pins) (id : PadId) :
    t.workPinned id ⊆ s.workPinned id := by
  refine offsetsAt_subset fun p hp hz => ?_
  simp only [State.holders, State.allCores, h.others, h.pad, List.mem_flatMap, List.mem_filter, List.mem_cons] at hp ⊢
  obtain ⟨c, ⟨rfl | hc, reach⟩, hp⟩ := hp
  · simp only [LCore.reaches, h.padId, h.ctx] at reach
    exact ⟨s.cur, ⟨.inl rfl, reach⟩, pins p hp hz⟩
  · exact ⟨c, ⟨.inr hc, reach⟩, hp⟩

/-- Where there is room for new pins there is room for them beside fewer of the running core's. -/
theorem pinRoom (h : SameAgents s t) (pins : ∀ p ∈ t.cur.pins, p ≠ 0 → p ∈ s.cur.pins) {new : List W64} (room : s.pinRoom new = true) :
    t.pinRoom new = true := by
  have pinned : ∀ id, t.pinned id ⊆ s.pinned id := fun id x hx => by
    rw [State.pinned, List.mem_append] at hx ⊢
    exact hx.imp (h.workPinned_subset pins id ·) (h.heldIn id ▸ ·)
  simp only [State.pinRoom, State.ownsDie, h.pad, h.ctx, h.padId, List.all_eq_true, Bool.or_eq_true, decide_eq_true_eq] at room ⊢
  intro lvl hl
  refine (room lvl hl).imp_right fun room => le_trans (List.subperm_of_subset (List.nodup_dedup _) fun x hx => ?_).length_le room
  rw [List.mem_dedup, List.mem_append] at hx ⊢
  exact hx.imp_right (pinned _ ·)

theorem modCur (h : SameAgents s t) {f : LCore → LCore} (pcid : (f t.cur).pcid = t.cur.pcid) (status : (f t.cur).status = t.cur.status)
    (run : (f t.cur).run = t.cur.run) : SameAgents s (t.modCur f) :=
  ⟨h.others, h.pads, h.images, pcid.trans h.pcid, status.trans h.status, run.trans h.run⟩

end SameAgents

theorem sameAgents_awaited (s : State) (l : List (BitVec 5)) : SameAgents s (s.awaited l) :=
  ⟨rfl, rfl, rfl, rfl, rfl, rfl⟩

/-- A binding pins the objects of its entry. -/
theorem mem_streamPins {c : LCore} {p : W64} : p ∈ c.streamPins.map Prod.fst ↔ ∃ x ∈ c.st.toList, x.bound = true ∧ p ∈ entPtrs x.entry := by
  simp only [LCore.streamPins, List.mem_map, List.mem_flatMap]
  constructor
  · rintro ⟨q, ⟨⟨x, k⟩, hx, hq⟩, rfl⟩
    split at hq
    next hb =>
      obtain ⟨w, hw, rfl⟩ := List.mem_map.mp hq
      exact ⟨x, List.fst_mem_of_mem_zipIdx hx, hb, hw⟩
    · exact absurd hq List.not_mem_nil
  · rintro ⟨x, hx, hb, hp⟩
    obtain ⟨k, hk, rfl⟩ := List.getElem_of_mem hx
    exact ⟨(p, k), ⟨(_, k), List.mk_mem_zipIdx_iff_getElem?.mpr (List.getElem?_eq_getElem hk), by rw [if_pos hb]; exact List.mem_map_of_mem hp⟩, rfl⟩

/-- Unbinding a stream releases the pins of its binding and adds none (R233). -/
theorem streamPins_unbound {c : LCore} {r : BitVec 3} {p : W64} (h : p ∈ (c.setS r Stream.unbound).streamPins.map Prod.fst) :
    p ∈ c.streamPins.map Prod.fst := by
  obtain ⟨x, hx, hb, hp⟩ := mem_streamPins.mp h
  rw [LCore.setS, Vector.toList_set] at hx
  rcases List.mem_or_eq_of_mem_set hx with hm | rfl
  · exact mem_streamPins.mpr ⟨x, hm, hb, hp⟩
  · exact absurd hb Bool.false_ne_true

/-- An entry that captures no pointer pins nothing (R195). -/
theorem pins_entry_null {c : LCore} {i : Instr} {k : Capture} {p : W64} (hk : k.ptr = PtrReg.null ∧ k.entry = 0) (hp : p ∈ (c.entry i k).pins) : p = 0 := by
  obtain ⟨h1, h2⟩ := hk
  have pins : (c.entry i k).pins = capturedPins k.ptr.ptr k.entry := rfl
  rw [pins, h1, h2, capturedPins, show (0 : BitVec 512) = 0#512 from rfl, entPtrs_zero] at hp
  simp only [List.mem_cons, List.not_mem_nil, or_false] at hp
  rcases hp with rfl | rfl | rfl | rfl <;> rfl

/-- The dispatch of a word that captures no pointer, with a stream unbound, adds no pin. -/
theorem pins_dispatched_unbound {c : LCore} {i : Instr} {k : Capture} {r : BitVec 3} (hk : k.ptr = PtrReg.null ∧ k.entry = 0) :
    ∀ p ∈ ((c.dispatched i k).setS r Stream.unbound).pins, p ≠ 0 → p ∈ c.pins := by
  intro p hp hz
  simp only [LCore.pins, LCore.workPins, List.mem_append, List.mem_flatMap] at hp ⊢
  rcases hp with ((ht | ⟨e, he, hp⟩) | hs) | hx
  · exact .inl (.inl (.inl ht))
  · rcases List.mem_append.mp (List.mem_of_mem_drop he) with hm | hm
    · exact .inl (.inl (.inr ⟨e, hm, hp⟩))
    · rw [List.mem_singleton.mp hm] at hp
      exact absurd (pins_entry_null hk hp) hz
  · exact .inl (.inr (streamPins_unbound (c := c) hs))
  · exact .inr hx

theorem tidEntry_modCur (s : State) (f : LCore → LCore) (ctx : BitVec 16) (tid : BitVec 8) : (s.modCur f).tidEntry ctx tid = s.tidEntry ctx tid := (rfl)

/-- `sbind` does not freeze where the entry of its address word finds room among the pins (R195, R233). -/
theorem bindUnit_flows {s : State} {i : Instr} {k : Capture} {r : BitVec 3} (hk : k.ptr = PtrReg.null ∧ k.entry = 0)
    (room : s.entryRoom (adTid k.xa) = true) :
    (bindUnit r).frozen (s.modCur (LCore.dispatched i k)) (s.cur.entry i k) = false := by
  have same : SameAgents s ((s.modCur (LCore.dispatched i k)).modCur (fun c => c.setS r Stream.unbound)) := ⟨rfl, rfl, rfl, rfl, rfl, rfl⟩
  have room := same.pinRoom (pins_dispatched_unbound hk) room
  rw [← tidEntry_modCur _ (LCore.dispatched i k), ← tidEntry_modCur _ (fun c => c.setS r Stream.unbound), ← same.ctx] at room
  exact congrArg (!·) room

/-! ### A word that issues at once: what its work leaves, or its fault (R62, R63, R66) -/

/-- The state `s` once a word that has issued at once has done its work: a ring entry more, and the time that it has waited. -/
def State.worked (s : State) (clk : Nat) (ring : List RingEntry) (copNext ccy : Nat) : State :=
  { s with clk := clk, cur := { s.cur with ring := ring, nextSeq := s.cur.nextSeq + 1, copNext := copNext, ccy := ccy } }

/-- The word `i` is complete on `s`, with the writes and the result of `w` and the flags `fl`. -/
def Completed (s : State) (i : Instr) (w : Issued) (fl : Fp.Flags) (t : State) : Prop :=
  CopFrame s i t ∧ t.cur.settled.v = (w.writes.foldl (fun c d => d.apply c) s.cur).v ∧
    t.cur.settled.m = (w.writes.foldl (fun c d => d.apply c) s.cur).m ∧
    t.cur.x = (match w.xw with | some (d, v) => (s.cur.setX d v).x | none => s.cur.x) ∧
    t.cur.fstat = s.cur.fstat ||| fl.setWidth 64

/-- The entry that completes is found complete. -/
theorem find_doneRing {q : BitVec 16} {ring : List RingEntry} {r : RingEntry} (time : Nat) (h : ring.find? (fun x => x.seq == q) = some r) :
    (doneRing q time ring).find? (fun x => x.seq == q) = some { r with state := .complete, time := time } := by
  have seq : (fun x : RingEntry => (if x.seq == q then { x with state := RingState.complete, time := time } else x : RingEntry).seq == q) =
      (fun x : RingEntry => x.seq == q) := funext fun x => by split <;> rfl
  have hq : (r.seq == q) = true := List.find?_some (p := fun x : RingEntry => x.seq == q) h
  rw [doneRing, List.find?_map, Function.comp_def, seq, h, Option.map_some, if_pos hq]

theorem passed_worked (s : State) (clk : Nat) (ring : List RingEntry) (copNext ccy : Nat) (fl : Fp.Flags) :
    ((s.worked clk ring copNext ccy).cur.raise fl).passed = { s.cur.passed with
      ring := ring
      nextSeq := s.cur.nextSeq + 1
      copNext := copNext
      ccy := ccy
      fstat := s.cur.fstat ||| fl.setWidth 64
      work := s.cur.work.map (fun w => { w with fstat := w.fstat ||| fl.setWidth 64 }) } := (rfl)

/-- The completion of a word whose work is done, with flags raised. -/
theorem finish_worked {s : State} {u : CopUnit} {w : Issued} {fl : Fp.Flags} {ring : List RingEntry} {q : BitVec 16} (clk copNext ccy ci : Nat) (tm : Timing)
    (hg : w.goesOn = false) (hw : w.post = none) (hp : s.cur.pend = []) :
    ∃ clk' vecFree matFree ccy' xrdy,
      (((s.worked clk ring copNext ccy).modCur (fun c => c.raise fl)).modCur (LCore.complete u ci q w)).finish .seq tm =
      copLeft s clk' (doneRing q (ci + max w.lat w.busy) ring)
        copNext vecFree matFree (w.writes.map (fun d => ⟨ci + w.lat, d⟩)) ccy' xrdy (fl.setWidth 64)
        (match w.xw with | some (d, v) => (if d = 0 then s.cur.x else s.cur.x.set d.toNat v d.isLt) | none => s.cur.x) := by
  have writes := insertWrites (ci + w.lat) w.writes []
  rw [List.nil_append, List.map_nil, ← hp] at writes
  obtain ⟨vecFree, matFree, xrdy, done⟩ := passed_complete u ci q w ((s.worked clk ring copNext ccy).cur.raise fl) hg hw
  rw [passed_worked] at done
  rw [← writes, modCur_modCur, finish_modCur, done]
  exact ⟨_, vecFree, matFree, _, _, rfl⟩

theorem completed_worked {s : State} {i : Instr} {u : CopUnit} {w : Issued} {fl : Fp.Flags} {ring : List RingEntry} {r : RingEntry}
    (clk copNext ccy ci : Nat) (tm : Timing) (hg : w.goesOn = false) (hw : w.post = none) (hp : s.cur.pend = []) (hl : s.cur.late = none)
    (hr : ring.find? (fun x => x.seq == s.cur.nextSeq) = some r) (hi : r.instr = i ∧ r.addr = s.cur.pc) :
    Completed s i w fl
      ((((s.worked clk ring copNext ccy).modCur (fun c => c.raise fl)).modCur (LCore.complete u ci s.cur.nextSeq w)).finish .seq tm) := by
  obtain ⟨_, _, _, _, _, left⟩ :=
    finish_worked (s := s) (u := u) (fl := fl) (ring := ring) (q := s.cur.nextSeq) clk copNext ccy ci tm hg hw hp
  rw [left]
  refine ⟨copLeft_frame hl (find_doneRing _ hr) ⟨rfl, hi⟩, ?_, ?_, ?_, rfl⟩
  · exact (settled_vm (l := w.writes) rfl).1.trans (applyAll_congr w.writes (by rfl) (by rfl)).1
  · exact (settled_vm (l := w.writes) rfl).2.trans (applyAll_congr w.writes (by rfl) (by rfl)).2
  · show (match w.xw with | some (d, v) => (if d = 0 then s.cur.x else s.cur.x.set d.toNat v d.isLt) | none => s.cur.x) = _
    cases w.xw <;> rfl

/-- The issue of an entry on a coprocessor with nothing outstanding is its work in the present cycle (R63). -/
theorem issue_clear {u : CopUnit} {act : RingEntry → Ex Issued} {r : RingEntry} {t : State}
    (hl : t.cur.loads = []) (ht : t.cur.late = none) (hz : t.cur.frozenAt = none) (hr : t.cur.entryOf r.seq = some r)
    (hc : t.cur.copCycle u r = t.cur.ccy) (hi : ∀ x ∈ t.cur.ring, x.state ≠ .notIssued → x.time < t.cur.ccy) (hf : u.frozen t r = false) :
    issue u act r.seq t = issueWork u act r t.cur.ccy t := by
  have hold : t.modCur (fun c => c.holdFor u (c.copCycle u r)) = t :=
    congrArg (fun c => { t with cur := c }) (show t.cur.holdFor u (t.cur.copCycle u r) = t.cur by rw [hc, hold_idle u hi])
  have thaw : t.modCur LCore.thawCop = t := congrArg (fun c => { t with cur := c }) (thaw_none hz)
  unfold issue
  simp only [ht, hr, hold, hc, lt_irrefl, if_false]
  rw [issueNow_clear hl ht, hf, if_neg Bool.false_ne_true, thaw, hc]

section
variable {i : Instr} {uses : List (BitVec 5)} {u : CopUnit} {prep : Ex Capture} {act : RingEntry → Ex Issued} {s : State} {k : Capture}
  (h : s.copReady i = true) (hp : prep (s.awaited uses) = .ok k (s.awaited uses))
  (hr : (s.awaited uses).pinRoom (capturedPins k.ptr.ptr k.entry) = true)
  (hz : u.frozen ((s.awaited uses).modCur (LCore.dispatched i k)) ((s.cur.await uses).entry i k) = false)
include h hp hr hz

/-- A coprocessor word that meets nothing in its way, and whose work leaves the state `s'` with the ring `ring`. -/
theorem cop_completed {s' : State} {w : Issued} {fl : Fp.Flags} {ring : List RingEntry} {r : RingEntry} {clk copNext ccy : Nat}
    (ha : act (RingEntry.issuing (s.cur.await uses) i k) ((s.awaited uses).modCur (LCore.issuing i k)) =
      .ok w ((s'.worked clk ring copNext ccy).modCur (fun c => c.raise fl)))
    (hg : w.goesOn = false) (hw : w.post = none) (clear : s'.cur.clear = true) (seq : s'.cur.nextSeq = s.cur.nextSeq)
    (find : ring.find? (fun x => x.seq == s.cur.nextSeq) = some r) (hi : r.instr = i ∧ r.addr = s'.cur.pc) :
    ∃ t, runCop i uses u prep act s = .next t ∧ Completed s' i w fl t := by
  have ready := h
  simp only [State.copReady, Bool.and_eq_true] at ready
  obtain ⟨pend, -, late, -⟩ := LCore.clear_iff.mp clear
  have done := completed_worked (u := u) (fl := fl) clk copNext ccy (s.awaited uses).cur.ccy ⟨uses, 0, 1, 1⟩ hg hw pend late (seq ▸ find) hi
  rw [seq] at done
  exact ⟨_, runCop_ready h hp (clear_await uses ready.2) hr hz ha, done⟩

/-- A coprocessor word that meets nothing in its way, and whose work faults: its entry is marked, and the late fault waits (R66). -/
theorem cop_faulted {e : Exn} {w : State}
    (ha : act (RingEntry.issuing (s.cur.await uses) i k) ((s.awaited uses).modCur (LCore.issuing i k)) = .error e w) :
    runCop i uses u prep act s = .next ((w.modCur (fun c => c.faultEntry s.cur.nextSeq e)).finish .seq ⟨uses, 0, 1, 1⟩) := by
  simp only [State.copReady, Bool.and_eq_true] at h
  obtain ⟨passes, clear⟩ := h
  obtain ⟨-, -, -, -, handler, -, full, -, -⟩ := LCore.clear_iff.mp clear
  obtain ⟨pend, loads, late, -, -, frozen, -, free, ring⟩ := LCore.clear_iff.mp (clear_await uses clear)
  have other : ∀ x ∈ (s.awaited uses).cur.ring, x.seq ≠ (s.awaited uses).cur.nextSeq := fun x hx => (ring x hx).2.2
  have started : ((s.awaited uses).modCur (LCore.dispatched i k)).modCur
      (LCore.started (s.awaited uses).cur.ccy (RingEntry.issuing (s.awaited uses).cur i k)) = (s.awaited uses).modCur (LCore.issuing i k) :=
    congrArg (fun c => { s.awaited uses with cur := c }) (started_dispatched i k pend other)
  have issues := issue_clear (u := u) (act := act) (r := (s.awaited uses).cur.entry i k) (t := (s.awaited uses).modCur (LCore.dispatched i k))
    loads late frozen (find_dispatched (s.awaited uses).cur.ring ((s.awaited uses).cur.entry i k) _ (by omega) other)
    (cycle_idle (c := (s.awaited uses).cur.dispatched i k) u free rfl) (dispatched_times ring) hz
  refine runCop_of passes handler (ringFull_await uses full) hp hr ?_
  rw [if_pos (flowing_clear clear)]
  exact issues.trans (issueWork_error ((congrArg _ started).trans ha))
end

/-- Where no late fault waits, the fault of an entry is the one that does (R66). -/
theorem faultEntry_eq {c : LCore} (h : c.late = none) (q : BitVec 16) (e : Exn) : c.faultEntry q e = { c with
    ring := c.ring.map (fun x => if x.seq == q then { x with state := .faulted } else x)
    late := some ⟨q, e⟩ } := by
  unfold LCore.faultEntry LCore.lateWith
  simp only [h]

/-- The late fault of a word that has just faulted, and its stream registers. -/
theorem late_finish_faulted {w : State} (h : w.cur.late = none) (q : BitVec 16) (e : Exn) (tm : Timing) :
    ((w.modCur (fun c => c.faultEntry q e)).finish .seq tm).cur.late = some ⟨q, e⟩ ∧
      ((w.modCur (fun c => c.faultEntry q e)).finish .seq tm).cur.st = w.cur.st := by
  rw [finish_modCur]
  simp only [timed, faultEntry_eq h]
  exact ⟨rfl, rfl⟩

/-! ### What the stream words do at issue -/

theorem run_setStream (r : BitVec 3) (f : Stream → Stream) (s : State) :
    setStream r f s = .ok () (s.modCur (fun c => c.setS r (f (c.getS r)))) := (rfl)

theorem run_noCapture (s : State) : noCapture s = .ok {} s := (rfl)
theorem vecUnit_flows (s : State) (e : RingEntry) : vecUnit.frozen s e = false := (rfl)

theorem run_captureX (a b : BitVec 5) (s : State) : captureX a b s = .ok { xa := s.cur.getX a, xb := s.cur.getX b } s := (rfl)

theorem setS_setS (c : LCore) (r : BitVec 3) (v w : Stream) : (c.setS r v).setS r w = c.setS r w := by
  simp only [LCore.setS, Vector.set_set]

theorem getS_setS (c : LCore) (r : BitVec 3) (v : Stream) : (c.setS r v).getS r = v :=
  (get_set_eq c.st r.toNat r.toNat r.isLt r.isLt v).trans (if_pos rfl)

theorem tidOk_modCur (s : State) (f : LCore → LCore) (ctx : BitVec 16) (tid : BitVec 8) : (s.modCur f).tidOk ctx tid = s.tidOk ctx tid := (rfl)

theorem run_curEntry {s : State} {tid : BitVec 8} (readable : s.tidOk s.cur.ctx tid = true) :
    curEntry tid s = .ok (s.tidEntry s.cur.ctx tid) s :=
  (run_bind_ok (run_get s)).trans (run_if_pos readable _ _ s)

theorem run_needEntry {s : State} {i : Instr} {accept : Entry → Bool} {e : Entry} (fits : entryReason s.feat accept e = none) :
    needEntry i accept e s = .ok () s := by
  rw [needEntry, run_bind_ok (run_get s), fits]
  rfl

/-- The stream that `sbind` binds (R233). -/
def LCore.binding (c : LCore) (addr card : W64) (ent : Entry) : Stream :=
  { Stream.unbound with bound := true, addr := addr, card := card, fmode := c.fmode, ssc := c.ssc, entry := ent }

/-- The state with the stream `r` unbound. -/
def State.unbinding (s : State) (r : BitVec 3) : State := s.modCur (fun c => c.setS r Stream.unbound)

/-- How the work of `sbind` ends once the checks of the entry have passed, by the illegal stage of the card (R233). -/
def State.bindOutcome (s : State) (r : BitVec 3) (addr card : W64) (ent : Entry) : Option Nat → EStateM.Result Exn State Issued
  | some k => .error ⟨cCARD_ILLEGAL, card, BitVec.ofNat 64 k⟩ (s.unbinding r)
  | none => .ok {} (s.modCur (fun c => c.setS r (s.cur.binding addr card ent)))

theorem run_actSbind {r : BitVec 3} {a b : BitVec 5} {e : RingEntry} {s : State} {addr card : W64} {ent : Entry} (ha : e.xa = addr) (hb : e.xb = card)
    (entry : s.tidEntry s.cur.ctx (adTid addr) = ent) (readable : s.tidOk s.cur.ctx (adTid addr) = true)
    (fits : entryReason s.feat (fun _ => true) ent = none) (row : adRow addr < Entry.rows ent) (col : adCol addr < Entry.dim ent 0)
    {fault : Option Nat} (legal : cardFault (s.feat.getLsbD 6) (Entry.fmt ent) (Entry.bs ent || Entry.fmt ent == 15) card = fault) :
    actSbind r a b e s = s.bindOutcome r addr card ent fault := by
  subst ha hb
  have inside : ¬(Entry.rows ent ≤ adRow e.xa ∨ Entry.dim ent 0 ≤ adCol e.xa) := by omega
  have unbound : setStream r (fun _ => Stream.unbound) s = .ok () (s.unbinding r) := run_setStream ..
  have named : curEntry (adTid e.xa) (s.unbinding r) = .ok ent (s.unbinding r) := entry ▸ run_curEntry (s := s.unbinding r) readable
  have checked : needEntry (.sbind r a b) (fun _ => true) ent (s.unbinding r) = .ok () (s.unbinding r) := run_needEntry fits
  refine (run_bind_ok unbound).trans ((run_bind_ok (run_cur _)).trans ((run_bind_ok named).trans ((run_bind_ok checked).trans ?_)))
  refine (run_if_neg inside ..).trans ((run_bind_ok (run_get _)).trans ?_)
  rw [show (s.unbinding r).feat = s.feat from rfl, legal]
  cases fault with
  | some k => rfl
  | none =>
    have rebound : (s.unbinding r).modCur (fun c => c.setS r (s.cur.binding e.xa e.xb ent)) =
        s.modCur (fun c => c.setS r (s.cur.binding e.xa e.xb ent)) := congrArg (fun c => { s with cur := c }) (setS_setS ..)
    have bind : setStream r (fun _ => s.cur.binding e.xa e.xb ent) (s.unbinding r) =
        .ok () (s.modCur (fun c => c.setS r (s.cur.binding e.xa e.xb ent))) := (run_setStream ..).trans (congrArg (EStateM.Result.ok ()) rebound)
    exact run_bind_ok bind

/-- The ring entry with the mask that a `vmv` of a stream has read. -/
def RingEntry.masked (e : RingEntry) (m : W64) : RingEntry := { e with held := true, src1 := 0, src2 := 0, mask := m }

theorem run_holdSources {e : RingEntry} {m : W64} {s : State} (h : e.held = false) :
    holdSources e 0 0 m s = .ok (e.masked m) (s.modCur (fun c => c.setEntry (e.masked m))) := by
  unfold holdSources
  rw [h, if_neg Bool.false_ne_true]
  rfl

/-- The stream with its first vector read ahead popped. -/
def Stream.popped (st : Stream) (l : List StreamVec) : Stream := { st with buf := l, pops := st.pops + 1 }

section
variable {i : Instr} {r : BitVec 3} {s : State} {st : Stream} (stream : s.cur.getS r = st)
include stream

theorem popStream_ahead {v : StreamVec} {l : List StreamVec} (bound : st.bound = true) (buf : st.buf = v :: l) :
    popStream i r s = .ok v (s.modCur (fun c => c.setS r (st.popped l))) := by
  subst stream
  refine (run_bind_ok (run_cur s)).trans ((run_if_neg (by simp [bound]) ..).trans ?_)
  simp only [buf]
  exact run_bind_ok (run_setStream ..)

theorem popStream_unbound (bound : st.bound = false) :
    popStream i r s = .error ⟨cSTREAM_UNBOUND, (wordOf i).setWidth 64, r.setWidth 64⟩ s := by
  subst stream
  refine (run_bind_ok (run_cur s)).trans ((run_if_pos (by simp [bound]) ..).trans ?_)
  exact run_bind_error (run_trapWith ..)
end

/-- What a `vmv` of a stream gives its destination. -/
def vmvIssued (d : BitVec 5) (t : BitVec 4) (v : StreamVec) (sel : List Nat) : Issued :=
  { writes := [elemWrite d (Fp.width t.toNat) (sel.map (fun j => (j, elemAt v.vec (Fp.width t.toNat) j)))] }

/-- A move of elements that are all given. -/
theorem moveWrite_some (d : BitVec 5) (t : Nat) (sel : List Nat) (f : Nat → Nat) (busy lat : Nat) :
    moveWrite d t (sel.map (fun j => (j, some (f j)))) busy lat =
      { writes := [elemWrite d (Fp.width t) (sel.map (fun j => (j, f j)))], busy := busy, lat := lat } := by
  simp only [moveWrite, List.filterMap_map, Function.comp_def, Option.map_some, List.filterMap_eq_map']

section
variable {d : BitVec 5} {r m : BitVec 3} {n : BitVec 1} {t : BitVec 4} {e : RingEntry} {s : State} {mask : W64} {st : Stream}
  (held : e.held = false) (masked : s.cur.getM m = mask) (stream : s.cur.getS r = st)
include held masked stream

theorem run_actVmvStream {v : StreamVec} {l : List StreamVec} {sel : List Nat} (bound : st.bound = true) (buf : st.buf = v :: l)
    (picks : selected e t.toNat mask n = sel) :
    actVmvStream d r m n t e s = .ok (vmvIssued d t v sel) (((s.modCur (fun c => c.setEntry (e.masked mask))).modCur
      (fun c => c.setS r (st.popped l))).modCur (fun c => c.raise (takenFlags v st.width (Fp.width t.toNat) sel))) := by
  subst masked picks
  have pop := popStream_ahead (i := .vmvStream d r m n t) (s := s.modCur (fun c => c.setEntry (e.masked (s.cur.getM m)))) stream bound buf
  refine (run_bind_ok (run_cur s)).trans ((run_bind_ok (run_holdSources held)).trans ((run_bind_ok pop).trans ?_))
  rw [stream]
  refine (run_bind_ok (run_modCur _ _)).trans ?_
  exact congrArg (EStateM.Result.ok · _) (moveWrite_some ..)

theorem run_actVmvStream_unbound (bound : st.bound = false) :
    actVmvStream d r m n t e s = .error ⟨cSTREAM_UNBOUND, (wordOf (.vmvStream d r m n t)).setWidth 64, r.setWidth 64⟩
      (s.modCur (fun c => c.setEntry (e.masked mask))) := by
  subst masked
  have pop := popStream_unbound (i := .vmvStream d r m n t) (s := s.modCur (fun c => c.setEntry (e.masked (s.cur.getM m)))) stream bound
  exact (run_bind_ok (run_cur s)).trans ((run_bind_ok (run_holdSources held)).trans (run_bind_error pop))
end

/-! ### The stream words -/

theorem raise_zero (c : LCore) : c.raise 0 = c := by
  have none : (0 : Fp.Flags).setWidth 64 = 0#64 := rfl
  have work : c.work.map (fun w => { w with fstat := w.fstat ||| 0#64 }) = c.work := by
    cases c.work with
    | none => rfl
    | some w => exact congrArg (fun f => some { w with fstat := f }) BitVec.or_zero
  unfold LCore.raise
  rw [none, BitVec.or_zero, work]

/-- The work of a word that changes one stream register, on the state with the change. -/
theorem worked_setS (s : State) (uses : List (BitVec 5)) (i : Instr) (k : Capture) (r : BitVec 3) (v : Stream) :
    ((s.awaited uses).modCur (LCore.issuing i k)).modCur (fun c => c.setS r v) =
      ((s.modCur (fun c => c.setS r v)).worked (s.clk + (s.cur.issueAt uses - s.cur.ccy))
        ((s.cur.ring ++ [RingEntry.issuing (s.cur.await uses) i k]).drop (s.cur.ring.length + 1 - 64))
        (s.cur.issueAt uses + 1) (s.cur.issueAt uses)).modCur (fun c => c.raise 0) := by
  simp only [raise_zero]
  rfl

/-- The number of a word that comes next is that of no entry of an idle ring. -/
theorem seq_ne_of_clear {c : LCore} (h : c.clear = true) : ∀ x ∈ c.ring, x.seq ≠ c.nextSeq := by
  obtain ⟨-, -, -, -, -, -, -, -, ring⟩ := LCore.clear_iff.mp h
  exact fun x hx => (ring x hx).2.2

theorem clear_of_copReady {s : State} {i : Instr} (h : s.copReady i = true) : s.cur.clear = true := by
  simp only [State.copReady, Bool.and_eq_true] at h
  exact h.2

theorem clear_setS (c : LCore) (r : BitVec 3) (v : Stream) : (c.setS r v).clear = c.clear := (rfl)

/-- A coprocessor word whose work sets one stream register. -/
theorem copEffect_setS {i : Instr} {uses : List (BitVec 5)} {u : CopUnit} {prep : Ex Capture} {act : RingEntry → Ex Issued} {s : State} {k : Capture}
    {r : BitVec 3} {v : Stream} (he : exec i s = runCop i uses u prep act s) (h : s.copReady i = true)
    (hp : prep (s.awaited uses) = .ok k (s.awaited uses)) (hr : (s.awaited uses).pinRoom (capturedPins k.ptr.ptr k.entry) = true)
    (hz : u.frozen ((s.awaited uses).modCur (LCore.dispatched i k)) ((s.cur.await uses).entry i k) = false)
    (ha : act (RingEntry.issuing (s.cur.await uses) i k) ((s.awaited uses).modCur (LCore.issuing i k)) =
      .ok {} (((s.awaited uses).modCur (LCore.issuing i k)).modCur (fun c => c.setS r v))) :
    CopEffect s i (fun c => c.setS r v) := by
  have clear := clear_of_copReady h
  obtain ⟨t, run, frame, hv, hm, hx, flags⟩ := cop_completed (s' := s.modCur (fun c => c.setS r v)) h hp hr hz
    (ha.trans (congrArg _ (worked_setS s uses i k r v))) rfl rfl ((clear_setS ..).trans clear) rfl
    (find_dispatched s.cur.ring (RingEntry.issuing (s.cur.await uses) i k) _ (by omega) (seq_ne_of_clear clear)) ⟨rfl, rfl⟩
  exact ⟨t, he.trans run, frame, hv, hm, hx, flags.trans BitVec.or_zero⟩

theorem exec_sclose (r : BitVec 3) (s : State) : exec (.sclose r) s = runCop (.sclose r) [] vecUnit noCapture (actSclose r) s := (rfl)

theorem exec_sbind (r : BitVec 3) (a b : BitVec 5) (s : State) :
    exec (.sbind r a b) s = runCop (.sbind r a b) [a, b] (bindUnit r) (captureX a b) (actSbind r a b) s := (rfl)

theorem exec_vmvStream (d : BitVec 5) (r m : BitVec 3) (n : BitVec 1) (t : BitVec 4) (s : State) :
    exec (.vmvStream d r m n t) s = runCop (.vmvStream d r m n t) [] vecUnit noCapture (actVmvStream d r m n t) s := (rfl)

/-- `sclose` unbinds its stream (R233). -/
theorem sclose_unbinds {s : State} {r : BitVec 3} (h : s.copReady (.sclose r) = true) :
    CopEffect s (.sclose r) (fun c => c.setS r Stream.unbound) :=
  copEffect_setS (exec_sclose r s) h (run_noCapture (s.awaited [])) (pinRoom_x _) (vecUnit_flows ..) (run_bind_ok (run_setStream ..))

/-- The work of `sbind` once it has been dispatched. -/
theorem run_actSbind_issuing {w : State} {i : Instr} {k : Capture} {r : BitVec 3} {a b : BitVec 5} {ent : Entry}
    (entry : w.tidEntry w.cur.ctx (adTid k.xa) = ent) (readable : w.tidOk w.cur.ctx (adTid k.xa) = true)
    (fits : entryReason w.feat (fun _ => true) ent = none) (row : adRow k.xa < Entry.rows ent) (col : adCol k.xa < Entry.dim ent 0)
    {fault : Option Nat} (card : cardFault (w.feat.getLsbD 6) (Entry.fmt ent) (Entry.bs ent || Entry.fmt ent == 15) k.xb = fault) :
    actSbind r a b (RingEntry.issuing w.cur i k) (w.modCur (LCore.issuing i k)) =
      (w.modCur (LCore.issuing i k)).bindOutcome r k.xa k.xb ent fault := by
  have ctx : (w.modCur (LCore.issuing i k)).cur.ctx = w.cur.ctx := rfl
  have feat : (w.modCur (LCore.issuing i k)).feat = w.feat := State.modCur_feat ..
  rw [← feat] at fits card
  exact run_actSbind rfl rfl (by rw [tidEntry_modCur, ctx]; exact entry) (by rw [tidOk_modCur, ctx]; exact readable) fits row col card

section
variable {s : State} {r : BitVec 3} {a b : BitVec 5} {ent : Entry} (h : s.copReady (.sbind r a b) = true)
  (entry : (s.awaited [a, b]).tidEntry s.cur.ctx (adTid (s.cur.getX a)) = ent)
  (readable : (s.awaited [a, b]).tidOk s.cur.ctx (adTid (s.cur.getX a)) = true) (fits : entryReason s.feat (fun _ => true) ent = none)
  (row : adRow (s.cur.getX a) < Entry.rows ent) (col : adCol (s.cur.getX a) < Entry.dim ent 0)
  (room : (s.awaited [a, b]).entryRoom (adTid (s.cur.getX a)) = true)
include h entry readable fits row col room

/-- `sbind` with a legal card binds the stream to the entry as it reads once its registers are ready (R233). -/
theorem sbind_binds (card : cardFault (s.feat.getLsbD 6) (Entry.fmt ent) (Entry.bs ent || Entry.fmt ent == 15) (s.cur.getX b) = none) :
    CopEffect s (.sbind r a b) (fun c => c.setS r (s.cur.binding (s.cur.getX a) (s.cur.getX b) ent)) := by
  have act := run_actSbind_issuing (w := s.awaited [a, b]) (i := .sbind r a b) (k := { xa := s.cur.getX a, xb := s.cur.getX b })
    (r := r) (a := a) (b := b) entry readable fits row col card
  have flows := bindUnit_flows (s := s.awaited [a, b]) (i := .sbind r a b) (k := { xa := s.cur.getX a, xb := s.cur.getX b }) (r := r) ⟨rfl, rfl⟩ room
  exact copEffect_setS (exec_sbind r a b s) h (run_captureX a b (s.awaited [a, b])) (pinRoom_x _) flows act

/-- `sbind` with an illegal card leaves the stream unbound, and faults at the stage (R233, R235). -/
theorem sbind_faults {j : Nat} (card : cardFault (s.feat.getLsbD 6) (Entry.fmt ent) (Entry.bs ent || Entry.fmt ent == 15) (s.cur.getX b) = some j) :
    ∃ u, exec (.sbind r a b) s = .next u ∧ u.cur.getS r = Stream.unbound ∧
      u.cur.late = some ⟨s.cur.nextSeq, ⟨cCARD_ILLEGAL, s.cur.getX b, BitVec.ofNat 64 j⟩⟩ := by
  have act := run_actSbind_issuing (w := s.awaited [a, b]) (i := .sbind r a b) (k := { xa := s.cur.getX a, xb := s.cur.getX b })
    (r := r) (a := a) (b := b) entry readable fits row col card
  have flows := bindUnit_flows (s := s.awaited [a, b]) (i := .sbind r a b) (k := { xa := s.cur.getX a, xb := s.cur.getX b }) (r := r) ⟨rfl, rfl⟩ room
  have run := (exec_sbind r a b s).trans (cop_faulted h (run_captureX a b (s.awaited [a, b])) (pinRoom_x _) flows act)
  obtain ⟨-, -, late, -⟩ := LCore.clear_iff.mp (clear_of_copReady h)
  obtain ⟨raised, streams⟩ := late_finish_faulted (w := ((s.awaited [a, b]).modCur (LCore.issuing (.sbind r a b)
    { xa := s.cur.getX a, xb := s.cur.getX b })).unbinding r) late s.cur.nextSeq ⟨cCARD_ILLEGAL, s.cur.getX b, BitVec.ofNat 64 j⟩ ⟨[a, b], 0, 1, 1⟩
  refine ⟨_, run, ?_, raised⟩
  rw [LCore.getS, streams]
  exact getS_setS ..
end

/-! `vmv` of a stream. -/

/-- The ring after the dispatch of a word whose work has noted the mask that it has read. -/
def heldRing (c : LCore) (i : Instr) (m : W64) : List RingEntry :=
  ((c.ring ++ [RingEntry.issuing (c.await []) i {}]).drop (c.ring.length + 1 - 64)).map
    (fun x => if x.seq == c.nextSeq then (RingEntry.issuing (c.await []) i {}).masked m else x)

theorem find_held {c : LCore} {i : Instr} {m : W64} (other : ∀ x ∈ c.ring, x.seq ≠ c.nextSeq) :
    (heldRing c i m).find? (fun x => x.seq == c.nextSeq) = some ((RingEntry.issuing (c.await []) i {}).masked m) := by
  have ring : heldRing c i m = (c.ring ++ [(RingEntry.issuing (c.await []) i {}).masked m]).drop (c.ring.length + 1 - 64) :=
    map_dispatched c.ring (RingEntry.issuing (c.await []) i {}) (fun _ => (RingEntry.issuing (c.await []) i {}).masked m) _ (by omega) other
  rw [ring]
  exact find_dispatched c.ring ((RingEntry.issuing (c.await []) i {}).masked m) _ (by omega) other

/-- The work of a `vmv` of a stream, on the state with the pop. -/
theorem worked_popped (s : State) (i : Instr) (r : BitVec 3) (st : Stream) (m : W64) :
    (((s.awaited []).modCur (LCore.issuing i {})).modCur (fun c => c.setEntry ((RingEntry.issuing (s.cur.await []) i {}).masked m))).modCur
      (fun c => c.setS r st) =
      (s.modCur (fun c => c.setS r st)).worked (s.clk + (s.cur.issueAt [] - s.cur.ccy)) (heldRing s.cur i m)
        (s.cur.issueAt [] + 1) (s.cur.issueAt []) := by
  simp only [State.modCur, State.awaited, State.worked, LCore.setS, LCore.setEntry, LCore.issuing, LCore.await, heldRing]
  rfl

section
variable {s : State} {d : BitVec 5} {r m : BitVec 3} {n : BitVec 1} {t : BitVec 4} (h : s.copReady (.vmvStream d r m n t) = true)
include h

/-- `vmv` of a stream that is not bound faults (R127). -/
theorem vmvStream_unbound (bound : (s.cur.getS r).bound = false) : ∃ u, exec (.vmvStream d r m n t) s = .next u ∧
    u.cur.late = some ⟨s.cur.nextSeq, ⟨cSTREAM_UNBOUND, (wordOf (.vmvStream d r m n t)).setWidth 64, r.setWidth 64⟩⟩ := by
  have work : actVmvStream d r m n t (RingEntry.issuing (s.cur.await []) (.vmvStream d r m n t) {})
      ((s.awaited []).modCur (LCore.issuing (.vmvStream d r m n t) {})) = _ :=
    run_actVmvStream_unbound (s := (s.awaited []).modCur (LCore.issuing (.vmvStream d r m n t) {})) (mask := s.cur.getM m) (st := s.cur.getS r) rfl rfl rfl bound
  obtain ⟨-, -, late, -⟩ := LCore.clear_iff.mp (clear_of_copReady h)
  have run := (exec_vmvStream d r m n t s).trans (cop_faulted h (run_noCapture (s.awaited [])) (pinRoom_x _) (vecUnit_flows ..) work)
  have raised := late_finish_faulted (w := ((s.awaited []).modCur (LCore.issuing (.vmvStream d r m n t) {})).modCur
    (fun c => c.setEntry ((RingEntry.issuing (s.cur.await []) (.vmvStream d r m n t) {}).masked (s.cur.getM m)))) late s.cur.nextSeq
    ⟨cSTREAM_UNBOUND, (wordOf (.vmvStream d r m n t)).setWidth 64, r.setWidth 64⟩ ⟨[], 0, 1, 1⟩
  exact ⟨_, run, raised.1⟩

theorem vmvStream_pops {v : StreamVec} {l : List StreamVec} (bound : (s.cur.getS r).bound = true) (buf : (s.cur.getS r).buf = v :: l) :
    ∃ u, exec (.vmvStream d r m n t) s = .next u ∧ Completed (s.modCur (fun c => c.setS r ((s.cur.getS r).popped l))) (.vmvStream d r m n t)
      (vmvIssued d t v (s.cur.picks t m n)) (takenFlags v (s.cur.getS r).width (Fp.width t.toNat) (s.cur.picks t m n)) u := by
  have clear := clear_of_copReady h
  have work : actVmvStream d r m n t (RingEntry.issuing (s.cur.await []) (.vmvStream d r m n t) {})
      ((s.awaited []).modCur (LCore.issuing (.vmvStream d r m n t) {})) = _ :=
    run_actVmvStream (s := (s.awaited []).modCur (LCore.issuing (.vmvStream d r m n t) {})) (mask := s.cur.getM m) (st := s.cur.getS r)
      (sel := s.cur.picks t m n) rfl rfl rfl bound buf rfl
  rw [worked_popped] at work
  obtain ⟨u, run, done⟩ := cop_completed h (run_noCapture (s.awaited [])) (pinRoom_x _) (vecUnit_flows ..) work rfl rfl ((clear_setS ..).trans clear) rfl
    (find_held (seq_ne_of_clear clear)) ⟨rfl, rfl⟩
  exact ⟨u, (exec_vmvStream ..).trans run, done⟩

end

/-- Once its writes have landed a word that lists elements has given them. -/
theorem vecResult_of_completed {s u : State} {i : Instr} {d : BitVec 5} {t : Nat} {l : List Nat} {f : Nat → Nat} {g : Nat → Option Nat} {fl : Fp.Flags}
    {w : Issued} (h : Completed s i w fl u) (hx : w.xw = none) (hl : w.writes = [elemWrite d (Fp.width t) (l.map (fun i => (i, f i)))]) (hn : l.Nodup)
    (hv : ∀ j, j < 512 / Fp.width t → g j = if j ∈ l then some (f j) else none) : VecResult s u d (Fp.width t) fl g := by
  obtain ⟨-, vregs, mregs, xregs, flags⟩ := h
  rw [hx] at xregs
  rw [hl] at vregs mregs
  simp only [List.foldl_cons, List.foldl_nil] at vregs mregs
  have landed : ∀ q, u.cur.settled.getV q = ((elemWrite d (Fp.width t) (l.map (fun i => (i, f i)))).apply s.cur).getV q := fun q => by
    simp only [LCore.getV, vregs]
  refine ⟨fun j hj => ?_, fun q hq => ?_, mregs.trans rfl, xregs, flags⟩
  · rw [landed, elem_elemWrite (width_pos t) (by rw [List.map_map]; simpa [Function.comp_def] using hn) _ _ (elem_fits hj), elemOr_indexes, hv j hj]
    split_ifs <;> rfl
  · rw [landed, getV_elemWrite _ _ _ _ _ hq]

/-! ### The statement O41, as far as the model decides it -/

theorem pins_await (c : LCore) (l : List (BitVec 5)) : (c.await l).pins = c.pins := by
  simp only [LCore.pins, LCore.workPins, LCore.streamPins, LCore.await_tags, LCore.await_ring, LCore.await_st, LCore.await_cxpins]

section
variable {s : State} {l : List (BitVec 5)} (hu : ∀ pa, Config.usesOld (s.awaited l).clk pa = Config.usesOld s.clk pa)
include hu

/-- The table of a context stands where it stood, at a time that chooses alike between old and new words (R296). -/
theorem tidAddr_awaited (ctx : BitVec 16) (tid : BitVec 8) : tidAddr (s.awaited l) ctx tid = tidAddr s ctx tid :=
  congrArg (fun w : W64 => w.toNat + 64 * tid.toNat) (ctxWord_later hu (s.cur.issueAt l) ctx 5)

theorem tidEntry_awaited (ctx : BitVec 16) (tid : BitVec 8) : (s.awaited l).tidEntry ctx tid = s.tidEntry ctx tid := by
  rw [State.tidEntry, tidAddr_awaited hu, State.awaited_mem, State.tidEntry]

theorem tidOk_awaited (ctx : BitVec 16) (tid : BitVec 8) : (s.awaited l).tidOk ctx tid = s.tidOk ctx tid := by
  rw [State.tidOk, tidAddr_awaited hu, State.tidOk]
  rfl

theorem entryRoom_awaited {tid : BitVec 8} (room : s.entryRoom tid = true) : (s.awaited l).entryRoom tid = true := by
  have same := sameAgents_awaited s l
  rw [State.entryRoom, tidEntry_awaited hu, same.ctx]
  exact same.pinRoom (fun p hp _ => pins_await s.cur l ▸ hp) room
end

/-- The elements that a `vmv` of a stream takes. -/
theorem mem_picks {c : LCore} {t : BitVec 4} {m : BitVec 3} {n : BitVec 1} {j : Nat} : j ∈ c.picks t m n ↔ c.takes t m n j = true := by
  simp only [LCore.picks, LCore.takes, List.mem_filter, List.mem_range, Bool.and_eq_true, decide_eq_true_eq]

/-- `vmv` of a stream with vectors read ahead takes the first, whatever is selected, with the flags of the elements that it takes (R88, R127). -/
theorem vmvStream_takes {s : State} {d : BitVec 5} {r m : BitVec 3} {n : BitVec 1} {t : BitVec 4} {v : StreamVec} {l : List StreamVec}
    (h : s.copReady (.vmvStream d r m n t) = true) (bound : (s.cur.getS r).bound = true) (buf : (s.cur.getS r).buf = v :: l) :
    ∃ u, exec (.vmvStream d r m n t) s = .next u ∧ CopFrame (s.modCur (fun c => c.setS r ((s.cur.getS r).popped l))) (.vmvStream d r m n t) u ∧
      VecResult (s.modCur (fun c => c.setS r ((s.cur.getS r).popped l))) u d (Fp.width t.toNat)
        (takenFlags v (s.cur.getS r).width (Fp.width t.toNat) (s.cur.picks t m n))
        (fun j => if s.cur.takes t m n j then some (elemAt v.vec (Fp.width t.toNat) j) else none) := by
  obtain ⟨u, run, done⟩ := vmvStream_pops h bound buf
  refine ⟨u, run, done.1, vecResult_of_completed done rfl rfl (List.nodup_range.filter _) fun j _ => ?_⟩
  simp only [mem_picks]

/-- The statement O41 holds if the choice between the old and the new value of a table word does not depend on the time. -/
theorem streamWords_of_steady (steady : ∀ clk clk' pa, Config.usesOld clk pa = Config.usesOld clk' pa) : Obligations.StreamWords := by
  unfold Obligations.StreamWords
  intro s r a b d m n t addr card ent st fault
  refine ⟨fun h readable fits row col room => ?_, sclose_unbinds, fun h bound v l buf => vmvStream_takes h bound buf, vmvStream_unbound⟩
  have hu : ∀ pa, Config.usesOld (s.awaited [a, b]).clk pa = Config.usesOld s.clk pa := fun _ => steady ..
  have entry := tidEntry_awaited hu s.cur.ctx (adTid addr)
  have readable := (tidOk_awaited hu s.cur.ctx (adTid addr)).trans readable
  have room := entryRoom_awaited hu room
  exact ⟨sbind_binds h entry readable fits row col room, fun _ => sbind_faults h entry readable fits row col room⟩

theorem copEffect_setS_inj {s : State} {i : Instr} {r : BitVec 3} {v w : Stream} (hv : CopEffect s i (fun c => c.setS r v))
    (hw : CopEffect s i (fun c => c.setS r w)) : v = w := by
  have holds : ∀ {v t}, EffectOf s i (fun c => c.setS r v) t → t.cur.getS r = v := by
    rintro v t ⟨⟨⟨-, frame⟩, -⟩, -⟩
    exact (congrArg (fun t : State => t.cur.getS r) frame).trans (getS_setS s.cur r v)
  obtain ⟨t, run, effect⟩ := hv
  obtain ⟨t', run', effect'⟩ := hw
  rw [run] at run'
  injection run' with same
  subst same
  exact (holds effect).symm.trans (holds effect')

/-- A tensor of one value of f32, whose tiles have one row or two. -/
def oneValue (two : Bool) : Entry :=
  BitVec.ofNat 512 (0x6000000000010000 + 2 ^ 192 + 9 * 2 ^ 464 + 2 ^ 472 + 2 ^ 480 + (if two then 2 else 1) * 2 ^ 488)

/-- The bytes of `oneValue` at an address. -/
def oneValueAt (a : Nat) (two : Bool) : List Host.Cell :=
  [(a + 2, 1), (a + 7, 0x60), (a + 24, 1), (a + 58, 9), (a + 59, 1), (a + 60, 1), (a + 61, if two then 2 else 1)]

/-- A core at a cycle `clk` whose register x1 is ready `d` cycles later. Memory has the table of context 0 at 0x1000; the die holds the old
value of its address, 0x2000. -/
def bindAt (clk d : Nat) : State :=
  { State.reset with
    clk := clk
    feat := BitVec.allOnes 512
    cur := { LCore.cleared with run := .running, xrdy := (Vector.replicate 32 0).set 1 d }
    mem := (41, 0x10) :: (oneValueAt 0x1000 false ++ oneValueAt 0x2000 true)
    held := [⟨40, 0x2000, 0, 0, 0⟩] }

theorem copReady_bindAt (clk d : Nat) : (bindAt clk d).copReady (.sbind 0 1 0) = true := by
  have missing : (bindAt clk d).missing (.sbind 0 1 0) = none :=
    show ((Instr.sbind 0 1 0).feats.filter (fun b => !(BitVec.allOnes 512).getLsbD b)).min? = none by decide +kernel
  have clear : (bindAt clk d).cur.clear = true := rfl
  rw [State.copReady, State.passes, missing, clear]
  rfl

/-- Null pointers and pointers to memory need no room among the pins. -/
theorem pinRoom_of_offsets {s : State} {l : List W64} (h : ∀ lvl ∈ [0, 1, 2], offsetsAt lvl l = []) : s.pinRoom l = true := by
  refine List.all_eq_true.mpr fun lvl hl => ?_
  simp only [h lvl hl, beq_self_eq_true, Bool.true_or]

section
variable (clk d now ccy : Nat)

theorem ctxWord_bindAt : ((bindAt clk d).later now ccy).ctxWord 0 5 = if Config.usesOld now 40 then 0x2000 else 0x1000 := by
  have word : ((bindAt clk d).later now ccy).physWord 40 = 0x1000 := show BitVec.ofNat 64 (Mem.readN (bindAt 0 0).mem 40 8) = 0x1000 by decide +kernel
  show (if (0x2000 : W64) ≠ ((bindAt clk d).later now ccy).physWord 40 && Config.usesOld now 40 then (0x2000 : W64)
    else ((bindAt clk d).later now ccy).physWord 40) = _
  rw [word]
  rfl

/-- Which table the entry of TID 0 stands in depends on whether the old value of its address is used. -/
theorem tidAddr_bindAt : tidAddr ((bindAt clk d).later now ccy) 0 0 = if Config.usesOld now 40 then 0x2000 else 0x1000 := by
  rw [tidAddr, ctxWord_bindAt]
  cases Config.usesOld now 40 <;> rfl

theorem tidEntry_bindAt : ((bindAt clk d).later now ccy).tidEntry 0 0 = oneValue (Config.usesOld now 40) := by
  have entries : ∀ old : Bool, BitVec.ofNat 512 (Mem.readN (bindAt 0 0).mem (if old then 0x2000 else 0x1000) 64) = oneValue old := by decide +kernel
  rw [State.tidEntry, tidAddr_bindAt]
  exact entries _

theorem tidOk_bindAt : ((bindAt clk d).later now ccy).tidOk 0 0 = true := by
  have dram : ∀ old : Bool, (bindAt 0 0).physOk (if old then 0x2000 else 0x1000) 64 = true := by decide +kernel
  rw [State.tidOk, tidAddr_bindAt]
  exact dram _

theorem entryRoom_bindAt : ((bindAt clk d).later now ccy).entryRoom 0 = true := by
  have far : ∀ old, ∀ lvl ∈ [0, 1, 2], offsetsAt lvl (entPtrs (oneValue old)) = [] := by decide +kernel
  refine pinRoom_of_offsets ?_
  rw [show ((bindAt clk d).later now ccy).cur.ctx = 0 from show (0 : W64).extractLsb' 16 16 = 0 by decide, tidEntry_bindAt]
  exact far _
end

theorem entry_oneValue (two : Bool) : entryReason (BitVec.allOnes 512) (fun _ => true) (oneValue two) = none ∧ 0 < Entry.rows (oneValue two) ∧
    0 < Entry.dim (oneValue two) 0 ∧
    cardFault true (Entry.fmt (oneValue two)) (Entry.bs (oneValue two) || Entry.fmt (oneValue two) == 15) 0 = none := by
  revert two
  decide +kernel

theorem oneValue_injective : Function.Injective oneValue := by
  intro x y
  revert x y
  decide +kernel

/-- What `bindAt` gives to the words of O41. -/
theorem operands_bindAt (clk d : Nat) : (bindAt clk d).cur.ctx = 0 ∧ (bindAt clk d).cur.getX 1 = 0 ∧ (bindAt clk d).cur.getX 0 = 0 ∧
    (bindAt clk d).feat.getLsbD 6 = true := by
  refine ⟨?_, ?_, rfl, ?_⟩
  · show (0 : W64).extractLsb' 16 16 = 0
    decide
  · show LCore.cleared.getX 1 = 0
    decide +kernel
  · show (BitVec.allOnes 512).getLsbD 6 = true
    decide +kernel

theorem fields_zero : adTid 0 = 0 ∧ adRow 0 = 0 ∧ adCol 0 = 0 := by decide +kernel

theorem awaited_bindAt (clk d : Nat) : (bindAt clk d).awaited [1, 0] = (bindAt clk d).later (clk + d) d := by
  have ready : (bindAt clk d).cur.issueAt [1, 0] = d := by
    show max (max 0 d) 0 = d
    omega
  rw [awaited_later, ready]
  rfl

/-- The statement O41 makes the choice for the table word at address 40 the same at every cycle: `sbind` binds the entry as it reads once x1 is
ready, and O41 has it bind the entry as it reads now. -/
theorem usesOld_steady_of_streamWords (h : Obligations.StreamWords) (clk d : Nat) : Config.usesOld (clk + d) 40 = Config.usesOld clk 40 := by
  obtain ⟨ctx, addr, card, feat⟩ := operands_bindAt clk d
  obtain ⟨tid, zeroRow, zeroCol⟩ := fields_zero
  obtain ⟨fits, row, col, legal⟩ := entry_oneValue (Config.usesOld clk 40)
  obtain ⟨fits', row', col', legal'⟩ := entry_oneValue (Config.usesOld (clk + d) 40)
  have entry : (bindAt clk d).tidEntry 0 0 = oneValue (Config.usesOld clk 40) := tidEntry_bindAt clk d clk 0
  have readable : (bindAt clk d).tidOk 0 0 = true := tidOk_bindAt clk d clk 0
  have room : (bindAt clk d).entryRoom 0 = true := entryRoom_bindAt clk d clk 0
  obtain ⟨now, -⟩ := h (bindAt clk d) 0 1 0 0 0 0 0
  have binds := @sbind_binds (bindAt clk d) 0 1 0 (oneValue (Config.usesOld (clk + d) 40))
  simp only [ctx, addr, card, feat, tid, zeroRow, zeroCol, entry, awaited_bindAt] at now binds
  obtain ⟨stated, -⟩ := now (copReady_bindAt clk d) readable fits row col room
  have bound := binds (copReady_bindAt clk d) (tidEntry_bindAt ..) (tidOk_bindAt ..) fits' row' col' (entryRoom_bindAt ..) legal'
  exact oneValue_injective (congrArg Stream.entry (copEffect_setS_inj bound (stated legal)))

end Sys2Proof.Machine

namespace Sys2Proof.Machine

/-! The scalar words (R99 to R104): what each writes, and that it changes nothing else. -/

/-! ### A word that computes one register result -/

/-- A body that computes a value from the registers alone and puts it in x`d`. -/
theorem writes_putX {i : Instr} {s : State} {t : Timing} {d : BitVec 5} {f : LCore → W64} {v : W64} (hp : s.passes i = true)
    (run : exec i s = runWord i t (putX d f) s) (value : f (s.cur.await t.uses) = v) : Writes s i d v := by
  subst value
  exact ⟨_, run.trans (runWord_ok hp (run_putX d f _)), wrote s t.uses d _ t⟩

theorem computes2_aluRR {mk : BitVec 5 → BitVec 5 → BitVec 5 → Instr} {lat : Nat} {f g : W64 → W64 → W64}
    (run : ∀ d a b s, exec (mk d a b) s = aluRR (mk d a b) lat f d a b s) (value : ∀ x y, f x y = g x y) : Computes2 mk g :=
  fun s d a b hp => writes_putX hp (run d a b s) (value ..)

theorem relates1_aluR {mk : BitVec 5 → BitVec 5 → Instr} {f : W64 → W64} {p : W64 → W64 → Prop}
    (run : ∀ d a s, exec (mk d a) s = aluR (mk d a) f d a s) (value : ∀ x, p x (f x)) : Relates1 mk p :=
  fun s d a hp => ⟨_, writes_putX hp (run d a s) rfl, value _⟩

theorem computesI_aluI {mk : BitVec 5 → BitVec 5 → BitVec 12 → Instr} {f g : W64 → Int → W64}
    (run : ∀ d a n s, exec (mk d a n) s = aluI (mk d a n) f d a n s) (value : ∀ x n, f x n = g x n) : ComputesI mk g :=
  fun s d a n hp => writes_putX hp (run d a n s) (value ..)

/-- The cycle in which the divider takes the next division (R98). -/
def LCore.divBusy (n : Nat) (c : LCore) : LCore := { c with divFree := n }

/-- The divider is waited for and kept busy (R98). -/
theorem run_divider (s : State) : divider s =
    .ok () ((s.later s.clk (max s.cur.ccy s.cur.divFree)).modCur (LCore.divBusy (max s.cur.ccy s.cur.divFree + 34))) := (rfl)

/-- A division waits for the divider and keeps it busy (R98). -/
theorem run_division (f : W64 → W64 → W64) (d a b : BitVec 5) (s : State) :
    ∃ clk ccy n, (do divider; putX d (fun c => f (c.getX a) (c.getX b)) : Ex Flow) s =
      .ok .seq (((s.later clk ccy).modCur (LCore.divBusy n)).modCur (fun c => c.setX d (f (s.cur.getX a) (s.cur.getX b)))) :=
  ⟨_, _, _, (run_bind_ok (run_divider s)).trans (run_putX ..)⟩

theorem wrote_divided (s : State) (clk ccy n : Nat) (d : BitVec 5) (v : W64) (t : Timing) :
    Wrote s d v ((((s.later clk ccy).modCur (LCore.divBusy n)).modCur (fun c => c.setX d v)).finish .seq t) := by
  refine ⟨fun r => ?_, ?_⟩
  · rw [← getX_setX]
    apply getX_congr
    simp [State.later, LCore.divBusy]
  · simp only [State.finish, State.modCur, LCore.finish, LCore.passed, State.later, LCore.divBusy, LCore.setX, LCore.spend,
      LCore.advance]

theorem writes_divRR {i : Instr} {s : State} {f : W64 → W64 → W64} {d a b : BitVec 5} {v : W64} (hp : s.passes i = true)
    (run : exec i s = divRR i f d a b s) (value : f (s.cur.getX a) (s.cur.getX b) = v) : Writes s i d v := by
  subst value
  obtain ⟨clk, ccy, n, body⟩ := run_division f d a b (s.awaited [a, b, d])
  exact ⟨_, run.trans (runWord_ok hp body), wrote_divided s clk ccy n d _ _⟩

theorem writes_aluS {i : Instr} {s : State} {f : W64 → W64 → W64} {d a : BitVec 5} {v : W64} (hp : s.passes i = true)
    (run : exec i s = aluS i f d a s) (value : f (s.cur.getX a) (s.cur.getX d) = v) : Writes s i d v :=
  writes_putX hp run value

/-! ### The values (R99, R100) -/

theorem ushiftRight_eq_ofNat (x : W64) (n : Nat) : x >>> n = BitVec.ofNat 64 (x.toNat / 2 ^ n) := by
  apply BitVec.eq_of_toNat_eq
  have small : x.toNat / 2 ^ n < 2 ^ 64 := (Nat.div_le_self ..).trans_lt x.isLt
  rw [BitVec.toNat_ushiftRight, Nat.shiftRight_eq_div_pow, BitVec.toNat_ofNat, Nat.mod_eq_of_lt small]

theorem shiftLeft_eq_ofNat (x : W64) (n : Nat) : x <<< n = BitVec.ofNat 64 (x.toNat * 2 ^ n) := by
  apply BitVec.eq_of_toNat_eq
  rw [BitVec.toNat_shiftLeft, Nat.shiftLeft_eq, BitVec.toNat_ofNat]

theorem sshiftRight_eq_ofInt (x : W64) (n : Nat) : x.sshiftRight n = BitVec.ofInt 64 (x.toInt / 2 ^ n) := by
  rw [BitVec.sshiftRight, Int.shiftRight_eq_div_pow]
  norm_cast

theorem shAmt_lt (b : W64) : shAmt b < 64 := Nat.mod_lt _ (by decide)

theorem rolW_eq_rotateLeft (x : W64) {n : Nat} (h : n < 64) : rolW x n = x.rotateLeft n := by
  rw [rolW, BitVec.rotateLeft_def, Nat.mod_eq_of_lt h]
  rcases Nat.eq_zero_or_pos n with rfl | pos
  · simp [BitVec.ushiftRight_eq_zero]
  · rw [Nat.mod_eq_of_lt (by omega)]

theorem rolW_eq_rotateRight (x : W64) {n : Nat} (h : n < 64) : rolW x ((64 - n) % 64) = x.rotateRight n := by
  rw [rolW, BitVec.rotateRight_def, Nat.mod_eq_of_lt h, BitVec.or_comm]
  rcases Nat.eq_zero_or_pos n with rfl | pos
  · simp
  · rw [Nat.mod_eq_of_lt (a := 64 - n) (by omega), show (64 - (64 - n)) % 64 = n by omega]

theorem boolW_decide (p : Prop) [Decidable p] : boolW (decide p) = if p then 1 else 0 := by
  simp [boolW]

section
variable {β : Type} [LinearOrder β] {key : W64 → β} (inj : Function.Injective key)
include inj

/-- Of two registers with equal keys either is the lesser: they are equal. -/
theorem lesser_eq (x y : W64) : (if key x < key y then x else y) = if key x ≤ key y then x else y := by
  rcases lt_trichotomy (key x) (key y) with h | h | h
  · rw [if_pos h, if_pos h.le]
  · rw [if_neg h.not_lt, if_pos h.le, inj h]
  · rw [if_neg h.not_gt, if_neg h.not_ge]

theorem greater_eq (x y : W64) : (if key x < key y then y else x) = if key x ≤ key y then y else x := by
  rcases lt_trichotomy (key x) (key y) with h | h | h
  · rw [if_pos h, if_pos h.le]
  · rw [if_neg h.not_lt, if_pos h.le, inj h]
  · rw [if_neg h.not_gt, if_neg h.not_ge]

end

theorem toInt_injective : Function.Injective (BitVec.toInt : W64 → Int) := fun _ _ => BitVec.eq_of_toInt_eq

/-- A zero divisor, and the one quotient that does not fit (R100). -/
theorem divS_eq (x y : W64) : divS x y = if y = 0 then 0xFFFFFFFFFFFFFFFF
    else if x.toInt = -2 ^ 63 ∧ y.toInt = -1 then 0x8000000000000000 else BitVec.ofInt 64 (x.toInt.tdiv y.toInt) := by
  unfold divS
  split
  · rfl
  · split
    next h => rw [h.1, h.2]; rfl
    · rfl

theorem remS_eq (x y : W64) : remS x y = if y = 0 then x
    else if x.toInt = -2 ^ 63 ∧ y.toInt = -1 then 0 else BitVec.ofInt 64 (x.toInt.tmod y.toInt) := by
  unfold remS
  split
  · rfl
  · split
    next h => rw [h.1, h.2]; rfl
    · rfl

theorem cmov_writes {s : State} {d a b : BitVec 5} (hp : s.passes (.cmov d a b) = true) :
    Writes s (.cmov d a b) d (if s.cur.getX b = 0 then s.cur.getX d else s.cur.getX a) :=
  writes_putX hp (show _ = execCmov d a b s from rfl) (ite_not ..)

/-- Settles O7: each word is the function of its sources that the model names, and that function is the one of the table of R99. -/
theorem scalarArithmetic : Obligations.ScalarArithmetic := by
  unfold Obligations.ScalarArithmetic
  refine ⟨⟨computes2_aluRR (fun d a b s => show _ = execAdd d a b s from rfl) fun x y => ?add,
    computes2_aluRR (fun d a b s => show _ = execSub d a b s from rfl) fun x y => ?sub,
    computes2_aluRR (fun d a b s => show _ = execMul d a b s from rfl) fun x y => ?mul,
    computes2_aluRR (fun d a b s => show _ = execMulh d a b s from rfl) fun x y => rfl,
    computes2_aluRR (fun d a b s => show _ = execMulhz d a b s from rfl) fun x y => rfl,
    computes2_aluRR (fun d a b s => show _ = execAnd d a b s from rfl) fun x y => rfl,
    computes2_aluRR (fun d a b s => show _ = execOr d a b s from rfl) fun x y => rfl,
    computes2_aluRR (fun d a b s => show _ = execXor d a b s from rfl) fun x y => rfl,
    computes2_aluRR (fun d a b s => show _ = execAndn d a b s from rfl) fun x y => rfl,
    computes2_aluRR (fun d a b s => show _ = execShl d a b s from rfl) fun x y => shiftLeft_eq_ofNat x _,
    computes2_aluRR (fun d a b s => show _ = execShr d a b s from rfl) fun x y => ushiftRight_eq_ofNat x _,
    computes2_aluRR (fun d a b s => show _ = execSar d a b s from rfl) fun x y => sshiftRight_eq_ofInt x _,
    computes2_aluRR (fun d a b s => show _ = execRol d a b s from rfl) fun x y => rolW_eq_rotateLeft x (shAmt_lt y),
    computes2_aluRR (fun d a b s => show _ = execRor d a b s from rfl) fun x y => rolW_eq_rotateRight x (shAmt_lt y),
    computes2_aluRR (fun d a b s => show _ = execSlt d a b s from rfl) fun x y => boolW_decide _,
    computes2_aluRR (fun d a b s => show _ = execSltz d a b s from rfl) fun x y => boolW_decide _,
    computes2_aluRR (fun d a b s => show _ = execMin d a b s from rfl) fun x y => ?min,
    computes2_aluRR (fun d a b s => show _ = execMax d a b s from rfl) fun x y => ?max,
    computes2_aluRR (fun d a b s => show _ = execMinz d a b s from rfl) fun x y => ?minz,
    computes2_aluRR (fun d a b s => show _ = execMaxz d a b s from rfl) fun x y => ?maxz,
    fun s d a b => cmov_writes⟩, fun s d a b => ⟨fun hp => ?_, fun hp => ?_, fun hp => ?_, fun hp => ?_⟩⟩
  case add => rw [BitVec.ofNat_add, BitVec.ofNat_toNat, BitVec.ofNat_toNat, BitVec.setWidth_eq, BitVec.setWidth_eq]
  case sub => rw [← BitVec.toInt_inj]; simp
  case mul => rw [← BitVec.toInt_inj]; simp
  case min => simpa only [BitVec.slt_iff_toInt_lt] using lesser_eq toInt_injective x y
  case max => simpa only [BitVec.slt_iff_toInt_lt] using greater_eq toInt_injective x y
  case minz => simpa only [BitVec.ult_iff_lt, BitVec.lt_def] using lesser_eq BitVec.toNat_injective x y
  case maxz => simpa only [BitVec.ult_iff_lt, BitVec.lt_def] using greater_eq BitVec.toNat_injective x y
  · exact writes_divRR hp (show _ = execDiv d a b s from rfl) (divS_eq ..)
  · exact writes_divRR hp (show _ = execRem d a b s from rfl) (remS_eq ..)
  · exact writes_divRR hp (show _ = execDivz d a b s from rfl) rfl
  · exact writes_divRR hp (show _ = execRemz d a b s from rfl) rfl

/-! ### Immediates (R101, R104) -/

/-- Settles O8: the immediate that each word joins is the one that the statement names. -/
theorem immediateOperations : Obligations.ImmediateOperations := by
  unfold Obligations.ImmediateOperations
  refine ⟨⟨computesI_aluI (fun d a n s => show _ = execAddi d a n s from rfl) fun x n => ?_,
    computesI_aluI (fun d a n s => show _ = execAndi d a n s from rfl) fun x n => rfl,
    computesI_aluI (fun d a n s => show _ = execOri d a n s from rfl) fun x n => rfl,
    computesI_aluI (fun d a n s => show _ = execXori d a n s from rfl) fun x n => rfl,
    computesI_aluI (fun d a n s => show _ = execSlti d a n s from rfl) fun x n => boolW_decide _,
    computesI_aluI (fun d a n s => show _ = execSltzi d a n s from rfl) fun x n => boolW_decide _⟩,
    fun s d n => ⟨fun hp => ?_, fun hp => ?_⟩⟩
  · rw [BitVec.ofInt_add, BitVec.ofInt_toInt]
  · exact writes_putX hp (show _ = execLup d n s from rfl) rfl
  · exact writes_putX hp (show _ = execAupc d n s from rfl) (by rw [BitVec.ofInt_add, BitVec.ofInt_toInt]; rfl)

/-! ### Bits (R99, R102) -/

/-- `ctzNat` counts the zero bits below the lowest 1 of the low `n`. -/
theorem ctzNat_spec (w n : Nat) : ctzNat w n ≤ n ∧ (∀ k, k < ctzNat w n → w.testBit k = false) ∧
    (ctzNat w n < n → w.testBit (ctzNat w n) = true) := by
  induction n generalizing w with
  | zero => simp [ctzNat]
  | succ n ih =>
    obtain ⟨le, zeros, one⟩ := ih (w / 2)
    rw [ctzNat]
    split
    next odd => simp [Nat.testBit_zero, odd]
    next even =>
      refine ⟨by omega, fun k hk => ?_, fun h => ?_⟩
      · cases k with
        | zero => simpa [Nat.testBit_zero] using even
        | succ k => rw [Nat.testBit_succ, zeros k (by omega)]
      · rw [Nat.add_comm, Nat.testBit_succ, one (by omega)]

theorem popNat_eq (w n : Nat) : popNat w n = ((List.range n).filter w.testBit).length := by
  induction n generalizing w with
  | zero => rfl
  | succ n ih =>
    have bits : (w / 2).testBit = w.testBit ∘ Nat.succ := funext fun k => (Nat.testBit_succ ..).symm
    rw [popNat, ih, List.range_succ_eq_map, List.filter_cons, List.filter_map, ← bits, Nat.testBit_zero]
    rcases Nat.mod_two_eq_zero_or_one w with h | h <;> simp [h, Nat.add_comm]

theorem revNat_lt (w n : Nat) : revNat w n < 2 ^ n := by
  induction n generalizing w with
  | zero => simp [revNat]
  | succ n ih =>
    have rest := ih (w / 2)
    rw [revNat, Nat.pow_succ]
    rcases Nat.mod_two_eq_zero_or_one w with h | h <;> rw [h] <;> omega

theorem testBit_revNat (w : Nat) {n k : Nat} (h : k < n) : (revNat w n).testBit k = w.testBit (n - 1 - k) := by
  induction n generalizing w with
  | zero => omega
  | succ n ih =>
    rw [revNat, Nat.mul_comm, Nat.testBit_two_pow_mul_add _ (revNat_lt ..)]
    split
    next low => rw [ih _ low, ← Nat.testBit_succ, show (n - 1 - k).succ = n + 1 - 1 - k by omega]
    next high =>
      obtain rfl : k = n := by omega
      simp [Nat.testBit_zero]

theorem bswapNat_lt (w n : Nat) : bswapNat w n < 256 ^ n := by
  induction n generalizing w with
  | zero => simp [bswapNat]
  | succ n ih =>
    have rest := ih (w / 256)
    have top : w % 256 * 256 ^ n ≤ 255 * 256 ^ n := Nat.mul_le_mul_right _ (by omega)
    rw [bswapNat, Nat.pow_succ]
    omega

/-- Byte `k` of the reversed bytes is byte `n - 1 - k`. -/
theorem bswapNat_byte (w : Nat) {n k : Nat} (h : k < n) : bswapNat w n / 256 ^ k % 256 = w / 256 ^ (n - 1 - k) % 256 := by
  induction n generalizing w with
  | zero => omega
  | succ n ih =>
    rw [bswapNat]
    by_cases low : k < n
    · have split : 256 ^ n = 256 ^ k * (256 * 256 ^ (n - 1 - k)) := by
        rw [← Nat.pow_succ', ← Nat.pow_add]
        congr 1
        omega
      have shift : w / 256 / 256 ^ (n - 1 - k) = w / 256 ^ (n + 1 - 1 - k) := by
        rw [Nat.div_div_eq_div_mul, ← Nat.pow_succ']
        congr 2
        omega
      rw [split, ← Nat.mul_assoc, Nat.mul_right_comm, Nat.add_comm, Nat.add_mul_div_right _ _ (by positivity),
        Nat.mul_left_comm, Nat.add_mul_mod_self_left, ih _ low, shift]
    · obtain rfl : k = n := by omega
      rw [Nat.add_comm, Nat.add_mul_div_right _ _ (by positivity), Nat.div_eq_of_lt (bswapNat_lt ..)]
      simp

/-- The `m` bits of `y` from bit `p` up replaced by the low `m` bits of `x`. -/
theorem testBit_insert (x y p m k : Nat) :
    (y - y / 2 ^ p % 2 ^ m * 2 ^ p + x % 2 ^ m * 2 ^ p).testBit k =
      if p ≤ k ∧ k < p + m then x.testBit (k - p) else y.testBit k := by
  have parts : y - y / 2 ^ p % 2 ^ m * 2 ^ p + x % 2 ^ m * 2 ^ p =
      2 ^ p * (2 ^ m * (y / 2 ^ p / 2 ^ m) + x % 2 ^ m) + y % 2 ^ p := by
    have outer := Nat.div_add_mod y (2 ^ p)
    have inner := Nat.div_add_mod (y / 2 ^ p) (2 ^ m)
    have le : y / 2 ^ p % 2 ^ m * 2 ^ p ≤ y := (Nat.mul_le_mul_right _ (Nat.mod_le ..)).trans (Nat.div_mul_le_self ..)
    zify [le] at outer inner ⊢
    linear_combination -(2 ^ p : Int) * inner - outer
  rw [parts, Nat.testBit_two_pow_mul_add _ (Nat.mod_lt _ (by positivity))]
  by_cases low : k < p
  · rw [if_pos low, if_neg (by omega), Nat.testBit_mod_two_pow, decide_eq_true low, Bool.true_and]
  · rw [if_neg low, Nat.testBit_two_pow_mul_add _ (Nat.mod_lt _ (by positivity))]
    by_cases mid : k - p < m
    · rw [if_pos mid, if_pos (by omega), Nat.testBit_mod_two_pow, decide_eq_true mid, Bool.true_and]
    · rw [if_neg mid, if_neg (by omega), Nat.testBit_div_two_pow, Nat.testBit_div_two_pow]
      congr 1
      omega

theorem getLsbD_ofNat_lt (v : Nat) {k : Nat} (h : k < 64) : (BitVec.ofNat 64 v).getLsbD k = v.testBit k := by
  rw [BitVec.getLsbD_ofNat, decide_eq_true h, Bool.true_and]

theorem ctz_spec (v : Nat) : (BitVec.ofNat 64 (ctzNat v 64)).toNat ≤ 64 ∧
    (∀ k, k < (BitVec.ofNat 64 (ctzNat v 64)).toNat → v.testBit k = false) ∧
      ((BitVec.ofNat 64 (ctzNat v 64)).toNat < 64 → v.testBit (BitVec.ofNat 64 (ctzNat v 64)).toNat = true) := by
  have spec := ctzNat_spec v 64
  rwa [BitVec.toNat_ofNat, Nat.mod_eq_of_lt (spec.1.trans_lt (by decide))]

/-- The leading zeros of a word are the trailing zeros of its bits in reverse. -/
theorem clz_spec (x : W64) : (BitVec.ofNat 64 (ctzNat (revNat x.toNat 64) 64)).toNat ≤ 64 ∧
    (∀ k, k < (BitVec.ofNat 64 (ctzNat (revNat x.toNat 64) 64)).toNat → x.getLsbD (63 - k) = false) ∧
      ((BitVec.ofNat 64 (ctzNat (revNat x.toNat 64) 64)).toNat < 64 →
        x.getLsbD (63 - (BitVec.ofNat 64 (ctzNat (revNat x.toNat 64) 64)).toNat) = true) := by
  obtain ⟨le, zeros, one⟩ := ctz_spec (revNat x.toNat 64)
  refine ⟨le, fun k hk => ?_, fun h => ?_⟩
  · rw [← zeros k hk, testBit_revNat _ (hk.trans_le le)]; rfl
  · rw [← one h, testBit_revNat _ h]; rfl

theorem popc_spec (x : W64) : (BitVec.ofNat 64 (popNat x.toNat 64)).toNat = ((List.range 64).filter x.getLsbD).length := by
  have le : ((List.range 64).filter x.toNat.testBit).length ≤ 64 := List.length_filter_le ..
  rw [popNat_eq, BitVec.toNat_ofNat, Nat.mod_eq_of_lt (le.trans_lt (by decide))]
  rfl

theorem bswap_spec (x : W64) {k : Nat} (h : k < 8) :
    (BitVec.ofNat 64 (bswapNat x.toNat 8)).extractLsb' (8 * k) 8 = x.extractLsb' (8 * (7 - k)) 8 := by
  apply BitVec.eq_of_toNat_eq
  have small : bswapNat x.toNat 8 < 2 ^ 64 := bswapNat_lt ..
  rw [BitVec.extractLsb'_toNat, BitVec.extractLsb'_toNat, BitVec.toNat_ofNat, Nat.mod_eq_of_lt small, Nat.shiftRight_eq_div_pow,
    Nat.shiftRight_eq_div_pow, Nat.pow_mul, Nat.pow_mul]
  exact bswapNat_byte x.toNat h

/-- Settles O9: each bit of a result, from the recursion of the model over the bits of its source. -/
theorem bitOperations : Obligations.BitOperations := by
  unfold Obligations.BitOperations
  refine ⟨⟨relates1_aluR (fun d a s => show _ = execClz d a s from rfl) clz_spec,
    relates1_aluR (fun d a s => show _ = execCtz d a s from rfl) fun x => ctz_spec x.toNat,
    relates1_aluR (fun d a s => show _ = execPopc d a s from rfl) popc_spec,
    relates1_aluR (fun d a s => show _ = execBrev d a s from rfl) fun x k h => ?brev,
    relates1_aluR (fun d a s => show _ = execBswap d a s from rfl) fun x k h => bswap_spec x h⟩,
    fun s d a n w p => ⟨fun hp => ?shli, fun hp => ?shri, fun hp => ?sari,
      fun hp => ⟨_, writes_aluS hp (show _ = execExt d a w p s from rfl) rfl, fun k h => ?ext⟩,
      fun hp => ⟨_, writes_aluS hp (show _ = execIns d a w p s from rfl) rfl, fun k h => ?ins⟩⟩⟩
  case brev => exact (getLsbD_ofNat_lt _ h).trans (testBit_revNat _ h)
  case shli => exact writes_aluS hp (show _ = execShli d a n s from rfl) (shiftLeft_eq_ofNat ..)
  case shri => exact writes_aluS hp (show _ = execShri d a n s from rfl) (ushiftRight_eq_ofNat ..)
  case sari => exact writes_aluS hp (show _ = execSari d a n s from rfl) (sshiftRight_eq_ofInt ..)
  case ext =>
    rw [getLsbD_ofNat_lt _ h, Nat.testBit_mod_two_pow, Nat.testBit_div_two_pow]
    simp only [Nat.lt_succ_iff]
    rfl
  case ins =>
    rw [getLsbD_ofNat_lt _ h, testBit_insert]
    simp only [← Nat.add_assoc, Nat.lt_succ_iff]
    rfl

end Sys2Proof.Machine

namespace Sys2Proof.Machine

/-! Code targets, and the step that meets an instruction (R105 to R110, R116). -/

/-! ### Copying code in leaves the logical cores (R108 to R110) -/

section
variable {s t : State}

theorem spares_fetchWords {a n : Nat} : Spares s (fun _ => True) (fetchWords a n) := by
  induction n generalizing a with
  | zero => exact .pure trivial
  | succ n ih =>
    exact .get fun _ _ => .bind spares_translateIn fun _ hl => .bind (spares_locRead hl) fun _ _ => .bind ih fun _ _ => .pure trivial

theorem spares_copyIn {f : FuncEntry} {pref : Bool} : Spares s (fun _ => True) (copyIn f pref) := by
  refine .bind spares_fetchWords fun _ _ => .modify fun _ h => ?_
  dsimp only
  split
  · exact h
  · exact h.frame

/-- A prefetch never traps (R110). -/
theorem run_prefetchIn (f : FuncEntry) (h : CoresKept s t) : ∃ u, prefetchIn f t = .ok () u ∧ CoresKept s u := by
  unfold prefetchIn
  rw [run_bind_ok (run_get t)]
  split
  · exact ⟨t, rfl, h⟩
  · cases copied : copyIn f true t with
    | ok _ u => exact ⟨u, rfl, (spares_copyIn t h _ u copied).1⟩
    | error e u => exact ⟨_, rfl, coresKept_memError h.frame⟩

theorem spares_prefetchIn {f : FuncEntry} : Spares s (fun _ => True) (prefetchIn f) := by
  intro t h _ u run
  obtain ⟨v, prefetched, kept⟩ := run_prefetchIn f h
  cases prefetched.symm.trans run
  exact ⟨kept, trivial⟩

theorem spares_prefetchAll {l : List FuncEntry} : Spares s (fun _ => True) (prefetchAll l) := by
  induction l with
  | nil => exact .pure trivial
  | cons f l ih => exact .bind spares_prefetchIn fun _ _ => ih

theorem spares_prefetchSucc {start : W64} : Spares s (fun _ => True) (prefetchSucc start) := by
  refine .get fun _ _ => ?_
  split
  · exact .pure trivial
  · exact spares_prefetchAll

/-! ### Resolving a target (R106, R107) -/

theorem enterCode_unaligned {tgt : W64} (h : tgt.toNat % 4 ≠ 0) : enterCode tgt s = .error ⟨cCODE_TARGET, tgt, 1⟩ s := by
  unfold enterCode
  rw [run_bind_ok (run_get s), if_pos h]
  rfl

theorem enterCode_unmapped {tgt : W64} (h : tgt.toNat % 4 = 0) (unmapped : s.funcAt tgt = none) :
    enterCode tgt s = .error ⟨cCODE_TARGET, tgt, 2⟩ s := by
  unfold enterCode
  rw [run_bind_ok (run_get s), if_neg (not_not.mpr h), unmapped]
  rfl

/-- The functions of the present core that start at an address are entered. -/
def State.markEntered (s : State) (start : W64) : State :=
  { s with ipad := s.ipad.map (fun r => if r.pcid == s.cur.pcid && r.start == start then { r with entered := true } else r) }

/-- A function is copied in where it is not resident, and is entered (R106 to R108). -/
def enterFunction (f : FuncEntry) : Ex Unit := do
  let s ← get
  if (s.residentAt f.start).isNone then copyIn f false
  modify (State.markEntered · f.start)
  if s.funcAt s.cur.pc != some f then prefetchSucc f.start

theorem enterCode_mapped {tgt : W64} {f : FuncEntry} (h : tgt.toNat % 4 = 0) (mapped : s.funcAt tgt = some f) :
    enterCode tgt s = enterFunction f s := by
  unfold enterCode enterFunction
  rw [run_bind_ok (run_get s), if_neg (not_not.mpr h), mapped]
  rfl

theorem spares_enterFunction {f : FuncEntry} : Spares s (fun _ => True) (enterFunction f) :=
  .get fun _ _ => .guard spares_copyIn (.bind (.modify fun _ h => h.frame) fun _ _ => .ite spares_prefetchSucc (.pure trivial))

/-- Entering code leaves every logical core as it is. -/
theorem enterCode_keeps {tgt : W64} {u : State} (run : enterCode tgt s = .ok () u) :
    CoresKept s u ∧ tgt.toNat % 4 = 0 ∧ (s.funcAt tgt).isSome := by
  by_cases aligned : tgt.toNat % 4 = 0
  · cases mapped : s.funcAt tgt with
    | none => rw [enterCode_unmapped aligned mapped] at run; cases run
    | some f =>
      rw [enterCode_mapped aligned mapped] at run
      exact ⟨(spares_enterFunction s (.refl s) _ u run).1, aligned, rfl⟩
  · rw [enterCode_unaligned aligned] at run
    cases run

theorem entered_iff {a : W64} : s.entered a = true ↔ a.toNat % 4 = 0 ∧ ∃ f, s.funcAt a = some f ∧ (s.residentAt f.start).isSome = true ∧
    ∀ r ∈ s.ipad, r.pcid = s.cur.pcid → r.start = f.start → r.entered = true := by
  rw [State.entered]
  cases s.funcAt a <;> simp [or_iff_not_imp_left]

theorem markEntered_marked {start : W64}
    (marked : ∀ r ∈ s.ipad, r.pcid = s.cur.pcid → r.start = start → r.entered = true) : s.markEntered start = s := by
  have same : ∀ r ∈ s.ipad, (if r.pcid == s.cur.pcid && r.start == start then { r with entered := true } else r) = r := by
    intro r hr
    split
    next here =>
      obtain ⟨core, first⟩ := Bool.and_eq_true_iff.mp here
      rw [← marked r hr (beq_iff_eq.mp core) (beq_iff_eq.mp first)]
    · rfl
  rw [State.markEntered, List.map_congr_left same, List.map_id']

/-- A target in the function that holds the pc, which has been entered, changes nothing. -/
theorem enterCode_within {tgt : W64} (h : s.entered tgt = true) (within : s.funcAt s.cur.pc = s.funcAt tgt) :
    enterCode tgt s = .ok () s := by
  obtain ⟨aligned, f, mapped, resident, marked⟩ := entered_iff.mp h
  rw [enterCode_mapped aligned mapped, enterFunction, run_bind_ok (run_get s),
    if_neg (by simp [Option.isNone_eq_false_iff.mpr resident])]
  beta_reduce
  rw [run_bind_ok (run_modify _ s), markEntered_marked marked, if_neg (by simp [within, mapped])]
  rfl

/-- Settles O12: the two refusals, the target within the present function, and what copying code in leaves. -/
theorem codeResolution : Obligations.CodeResolution := by
  unfold Obligations.CodeResolution
  intro s tgt
  refine ⟨enterCode_unaligned, enterCode_unmapped, enterCode_within, fun u run => ?_⟩
  obtain ⟨kept, aligned, mapped⟩ := enterCode_keeps run
  exact ⟨kept.cur, aligned, mapped⟩

end

/-! ### The step that meets an instruction (R105, R116) -/

/-- The fetch of a word that an instruction has, in a function that has been entered. -/
theorem fetch_decoded {s : State} {w : W32} {i : Instr} (h : s.entered s.cur.pc = true) (hw : s.wordAt s.cur.pc = some w)
    (hd : s.cur.passInstr w = some i) : s.fetch = (s, some i) := by
  have mapped : (s.funcAt s.cur.pc).isNone = false := by
    obtain ⟨-, f, mapped, -⟩ := entered_iff.mp h
    rw [mapped]
    rfl
  have fetched : fetchIn s = .ok () s := by
    unfold fetchIn
    rw [run_bind_ok (run_get s)]
    dsimp only
    rw [mapped, Bool.false_and, if_neg Bool.false_ne_true]
    exact enterCode_within h rfl
  rw [State.fetch, fetched]
  dsimp only
  rw [hw, Option.getD_some, hd]

/-- Settles O10: with nothing before it, the step fetches the word at the pc and runs what it decodes to. -/
theorem stepRunsDecoded : Obligations.StepRunsDecoded := by
  unfold Obligations.StepRunsDecoded
  intro s w i may entered word decoded
  have fetched := fetch_decoded (s := s.modCur (fun c => { c with blk := none })) entered word (congrArg (Option.map _) decoded)
  rw [step_eq_runHere may, State.runHere, fetched]
  rfl

end Sys2Proof.Machine

namespace Sys2Proof.Machine

/-! Transfers of control and the repetition (R112 to R117). The statements O11 and O13 read the code map when a word comes to the core, the
model when the x registers of the word are ready (R65, R98). Where the die holds an old value of the word that places the map,
`Config.usesOld` chooses at each time between old and new (R296, log entry 13), and it is opaque: O11 and O13 hold if that choice does not
depend on the time (`controlTransfers_of_steady`, `repetitionAndPrefixes_of_steady`), and give, on the core of `mappedAt`, that it does not,
for a value that places a map (`usesOld_steady_of_controlTransfers`, `usesOld_steady_of_repetitionAndPrefixes`). Their clauses hold with the
map as it reads once the registers are ready (`branchIf_notTaken`, `branchIf_inside`, `branchIf_outside`, `callr_linked`, `rep_illegal`,
`rep_skips`, `rep_tooLong`, `rep_starts`), and those about `j`, `call`, `jr`, the words in sequence and the prefixes hold as they stand
(`j_linked`, `call_linked`, `jr_linked`, `passed_alone`, `passed_within`, `passed_again`, `passed_over`, `immx_kept`, `immx_last`,
`immx_refused`, `hint_leaves`). -/

/-! ### The code map once the registers of a word are ready -/

section
variable {s : State} {l : List (BitVec 5)} (hu : ∀ pa, Config.usesOld (s.awaited l).clk pa = Config.usesOld s.clk pa)
include hu

/-- The code map of a context reads the same at a time that chooses alike between old and new words (R289, R296). -/
theorem codeFuncs_awaited (ctx : BitVec 16) : (s.awaited l).codeFuncs ctx = s.codeFuncs ctx := by
  have place : (s.awaited l).ctxWord ctx 4 = s.ctxWord ctx 4 := ctxWord_later hu (s.cur.issueAt l) ctx 4
  rw [State.codeFuncs, place]
  rfl

theorem funcAt_awaited (a : W64) : (s.awaited l).funcAt a = s.funcAt a := by
  rw [State.funcAt, codeFuncs_awaited hu]
  rfl

theorem funcFrom_awaited (a : W64) : (s.awaited l).funcFrom a = s.funcFrom a := by
  rw [State.funcFrom, codeFuncs_awaited hu]
  rfl

theorem wordAt_awaited (a : W64) : (s.awaited l).wordAt a = s.wordAt a := by
  rw [State.wordAt, funcAt_awaited hu]
  rfl

theorem bodyFits_awaited (a : W64) (n : Nat) : (s.awaited l).bodyFits a n = s.bodyFits a n := by
  induction n generalizing a with
  | zero => rfl
  | succ n ih => simp only [State.bodyFits, wordAt_awaited hu, ih]

end

/-! ### Branches (R112) -/

/-- The address that a branch names. -/
def LCore.branchTarget (c : LCore) (o : BitVec 12) : W64 := c.pc + BitVec.ofInt 64 (c.offsetOf o * 4)

section
variable {s : State} {o : BitVec 12}

theorem branchTo_inside {f : FuncEntry} (mapped : s.funcAt s.cur.pc = some f)
    (inside : f.start.toNat ≤ (s.cur.branchTarget o).toNat ∧ (s.cur.branchTarget o).toNat < f.start.toNat + f.len) :
    branchTo o s = .ok (.jump (s.cur.branchTarget o)) (s.later (s.clk + 1) (s.cur.ccy + 1)) := by
  unfold branchTo
  rw [run_bind_ok (run_get s), mapped]
  exact (run_if_pos inside ..).trans (run_bind_ok (run_spendMore 1 s))

theorem branchTo_outside (outside : ∀ f, s.funcAt s.cur.pc = some f →
      ¬(f.start.toNat ≤ (s.cur.branchTarget o).toNat ∧ (s.cur.branchTarget o).toNat < f.start.toNat + f.len)) :
    branchTo o s = .error ⟨cCODE_TARGET, s.cur.branchTarget o, 3⟩ s := by
  unfold branchTo
  rw [run_bind_ok (run_get s)]
  cases mapped : s.funcAt s.cur.pc with
  | none => rfl
  | some f => exact run_if_neg (outside f mapped) ..

end

section
variable {s : State} {i : Instr} {cond : W64 → W64 → Bool} {a b : BitVec 5} {o : BitVec 12} (hp : s.passes i = true)
include hp

/-- What a branch does once it has its registers. -/
theorem branchIf_eq : branchIf i cond a b o s =
    runWord i ⟨[a, b], 0, 1, 1⟩ (if cond (s.cur.getX a) (s.cur.getX b) then branchTo o else return .seq) s :=
  runWord_congr hp ((run_bind_ok (run_cur (s.awaited [a, b]))).trans rfl)

theorem branchIf_notTaken (h : cond (s.cur.getX a) (s.cur.getX b) = false) :
    ∃ t, branchIf i cond a b o s = .next t ∧ Advanced s t := by
  rw [branchIf_eq hp, if_neg (ne_true_of_eq_false h)]
  exact ⟨_, runWord_ok hp (run_pure ..), advanced s _ _ (.inl rfl)⟩

theorem branchIf_inside {f : FuncEntry} (h : cond (s.cur.getX a) (s.cur.getX b) = true)
    (mapped : (s.awaited [a, b]).funcAt s.cur.pc = some f)
    (inside : f.start.toNat ≤ (s.cur.branchTarget o).toNat ∧ (s.cur.branchTarget o).toNat < f.start.toNat + f.len) :
    ∃ t, branchIf i cond a b o s = .next t ∧ Moved s (s.cur.branchTarget o) t := by
  rw [branchIf_eq hp, if_pos h]
  exact ⟨_, runWord_ok hp (branchTo_inside mapped inside), moved s _ _ _ (.inl rfl)⟩

theorem branchIf_outside (h : cond (s.cur.getX a) (s.cur.getX b) = true)
    (outside : ∀ f, (s.awaited [a, b]).funcAt s.cur.pc = some f →
      ¬(f.start.toNat ≤ (s.cur.branchTarget o).toNat ∧ (s.cur.branchTarget o).toNat < f.start.toNat + f.len)) :
    branchIf i cond a b o s = .next ((s.awaited [a, b]).takeTrap ⟨cCODE_TARGET, s.cur.branchTarget o, 3⟩) := by
  rw [branchIf_eq hp, if_pos h]
  exact runWord_traps hp (branchTo_outside outside)

end

/-- The choice between the old and the new value of a table word does not depend on the time (R296). -/
def SteadyWords : Prop := ∀ clk clk' pa, Config.usesOld clk pa = Config.usesOld clk' pa

theorem branches_branchIf {mk : BitVec 5 → BitVec 5 → BitVec 12 → Instr} {c cond : W64 → W64 → Bool} (steady : SteadyWords)
    (run : ∀ a b o s, exec (mk a b o) s = branchIf (mk a b o) c a b o s) (same : ∀ x y, c x y = cond x y) : Branches mk cond := by
  intro s a b o hp
  obtain rfl : c = cond := funext fun x => funext (same x)
  have mapped := funcAt_awaited (s := s) (l := [a, b]) (fun pa => steady ..) s.cur.pc
  rw [run, ← mapped]
  exact ⟨branchIf_notTaken hp, fun taken => ⟨fun f mapped low high => branchIf_inside hp taken mapped ⟨low, high⟩,
    fun outside => branchIf_outside hp taken outside⟩⟩

/-! ### Jumps and calls (R113, R114) -/

/-- A target that has been resolved is taken, without a link. -/
theorem transfer_ok {s u : State} {tgt : W64} (n : Nat) (h : enterCode tgt s = .ok () u) :
    (do enterCode tgt; spendMore n; return .jump tgt : Ex Flow) s = .ok (.jump tgt) (u.later (u.clk + n) (u.cur.ccy + n)) :=
  (run_bind_ok h).trans (run_bind_ok (run_spendMore n u))

/-- The same, with a link. -/
theorem linking_ok {s u : State} {tgt : W64} (d : BitVec 5) (link : W64) (n : Nat) (h : enterCode tgt s = .ok () u) :
    (do enterCode tgt; wrX d link; spendMore n; return .jump tgt : Ex Flow) s =
      .ok (.jump tgt) ((u.modCur (fun c => c.setX d link)).later (u.clk + n) (u.cur.ccy + n)) :=
  (run_bind_ok h).trans ((run_bind_ok (run_wrX d link u)).trans (run_bind_ok (run_spendMore n _)))

section
variable {s u : State} {d a : BitVec 5} {p : BitVec 4} {o : BitVec 20} {tgt : W64}

theorem j_linked (hp : s.passes (.j o) = true) (h : enterCode (jumpTarget s.cur o) (s.awaited []) = .ok () u) :
    ∃ t, exec (.j o) s = .next t ∧ Linked u 0 0 (jumpTarget s.cur o) t :=
  ⟨_, runWord_ok hp ((run_bind_ok (run_cur _)).trans (transfer_ok 1 h)), linked u _ _ 0 0 _ _⟩

theorem call_linked (hp : s.passes (.call d o) = true) (h : enterCode (jumpTarget s.cur o) (s.awaited [d]) = .ok () u) :
    ∃ t, exec (.call d o) s = .next t ∧ Linked u d (s.cur.pc + 4) (jumpTarget s.cur o) t :=
  ⟨_, runWord_ok hp ((run_bind_ok (run_cur _)).trans (linking_ok d _ 1 h)), linked u _ _ d _ _ _⟩

theorem jr_linked (hp : s.passes (.jr a) = true) (h : enterCode (s.cur.getX a) (s.awaited [a]) = .ok () u) :
    ∃ t, exec (.jr a) s = .next t ∧ Linked u 0 0 (s.cur.getX a) t :=
  ⟨_, runWord_ok hp ((run_bind_ok (run_rdX a _)).trans (transfer_ok 2 h)), linked u _ _ 0 0 _ _⟩

/-- The payload that the function header at p`p` stands before (R114). -/
def LCore.calleeOf (c : LCore) (p : BitVec 4) : W64 := BitVec.ofNat 64 (ptrAddr (c.getP p).ptr + 16)

theorem callr_linked (hp : s.passes (.callr d p) = true) (notNull : (s.cur.getP p).ptr ≠ 0)
    (formed : ptrMalformed (s.cur.getP p).ptr = false) (memory : ptrLvl (s.cur.getP p).ptr = 3)
    (mapped : ((s.awaited [d]).funcFrom (s.cur.calleeOf p)).isSome = true) (h : enterCode (s.cur.calleeOf p) (s.awaited [d]) = .ok () u) :
    ∃ t, exec (.callr d p) s = .next t ∧ Linked u d (s.cur.pc + 4) (s.cur.calleeOf p) t := by
  have named : (ptrLvl (s.cur.getP p).ptr = 3 && ((s.awaited [d]).funcFrom (s.cur.calleeOf p)).isSome) = true := by simp [memory, mapped]
  have run : exec (.callr d p) s = runWord (.callr d p) ⟨[d], d, 1, 1⟩ (do
      enterCode (s.cur.calleeOf p)
      wrX d (s.cur.pc + 4)
      spendMore 3
      return .jump (s.cur.calleeOf p)) s :=
    runWord_congr hp ((run_bind_ok (run_get _)).trans ((run_bind_ok (run_checkPtr notNull formed)).trans (run_if_pos named ..)))
  rw [run]
  exact ⟨_, runWord_ok hp (linking_ok d _ 3 h), linked u _ _ d _ _ _⟩

end

/-- The statement O11 holds if the choice between the old and the new value of a table word does not depend on the time. -/
theorem controlTransfers_of_steady (steady : SteadyWords) : Obligations.ControlTransfers := by
  unfold Obligations.ControlTransfers
  refine ⟨⟨branches_branchIf steady (fun a b o s => show _ = execBEq a b o s from rfl) fun _ _ => rfl,
    branches_branchIf steady (fun a b o s => show _ = execBNe a b o s from rfl) fun _ _ => rfl,
    branches_branchIf steady (fun a b o s => show _ = execBLt a b o s from rfl) fun _ _ => rfl,
    branches_branchIf steady (fun a b o s => show _ = execBGe a b o s from rfl) fun x y => ?_,
    branches_branchIf steady (fun a b o s => show _ = execBLtz a b o s from rfl) fun _ _ => rfl,
    branches_branchIf steady (fun a b o s => show _ = execBGez a b o s from rfl) fun x y => ?_⟩,
    fun s u d a p o => ⟨j_linked, call_linked, jr_linked, fun hp notNull formed memory mapped => callr_linked hp notNull formed memory ?_⟩⟩
  · simp only [BitVec.slt, ← decide_not, not_lt]
  · simp only [BitVec.ult, ← decide_not, not_lt]
  · rwa [← funcFrom_awaited (l := [d]) fun pa => steady ..] at mapped

/-! ### The fields of REPC (R41) -/

section
variable (cnt blen pos : Nat) (strd : BitVec 5) (act : Bool)

theorem toNat_mkRepc : (mkRepc cnt blen pos strd act).toNat = cnt % 65536 + blen % 16 * 65536 + pos % 16 * 0x100000 +
    strd.toNat * 0x1000000 + (if act then 0x20000000 else 0) := by
  rw [mkRepc, BitVec.toNat_ofNat, Nat.mod_eq_of_lt]
  split <;> omega

@[simp] theorem repcCnt_mkRepc : repcCnt (mkRepc cnt blen pos strd act) = cnt % 65536 := by
  rw [repcCnt, bits, toNat_mkRepc]
  split <;> omega

@[simp] theorem repcLen_mkRepc : repcLen (mkRepc cnt blen pos strd act) = blen % 16 := by
  rw [repcLen, bits, toNat_mkRepc]
  split <;> omega

@[simp] theorem repcPos_mkRepc : repcPos (mkRepc cnt blen pos strd act) = pos % 16 := by
  rw [repcPos, bits, toNat_mkRepc]
  split <;> omega

@[simp] theorem repcStrd_mkRepc : repcStrd (mkRepc cnt blen pos strd act) = strd := by
  apply BitVec.eq_of_toNat_eq
  rw [repcStrd, BitVec.extractLsb'_toNat, toNat_mkRepc, Nat.shiftRight_eq_div_pow]
  split <;> omega

@[simp] theorem repcAct_mkRepc : repcAct (mkRepc cnt blen pos strd act) = act := by
  rw [repcAct, BitVec.getLsbD, toNat_mkRepc, Nat.testBit_eq_decide_div_mod_eq]
  cases act <;> simp <;> omega

end

theorem repcCnt_lt (r : W64) : repcCnt r < 65536 := Nat.mod_lt _ (by decide)
theorem repcLen_lt (r : W64) : repcLen r < 16 := Nat.mod_lt _ (by decide)

/-! ### The pc and REPC after a word in sequence (R51, R116) -/

theorem nextRepc_strd (r : W64) : repcStrd (nextRepc r) = repcStrd r := by
  unfold nextRepc
  split_ifs <;> simp

theorem nextRepc_len (r : W64) : repcLen (nextRepc r) = repcLen r := by
  unfold nextRepc
  split_ifs <;> simp [Nat.mod_eq_of_lt (repcLen_lt r)]

section
variable {c : LCore}

theorem passed_alone (h : repcAct c.repc = false) : c.passed.pc = c.pc + 4 ∧ c.passed.repc = c.repc := by
  simp [LCore.passed, nextPc, nextRepc, repeats, h]

variable (h : repcAct c.repc = true)
include h

theorem passed_within (inner : repcPos c.repc ≠ repcLen c.repc) (small : repcPos c.repc < 15) :
    c.passed.pc = c.pc + 4 ∧ repcPos c.passed.repc = repcPos c.repc + 1 ∧ repcCnt c.passed.repc = repcCnt c.repc ∧
      repcAct c.passed.repc = true := by
  have next : repcPos c.repc + 1 < 16 := by omega
  simp [LCore.passed, nextPc, nextRepc, repeats, h, inner, Nat.mod_eq_of_lt next, Nat.mod_eq_of_lt (repcCnt_lt c.repc)]

theorem passed_again (last : repcPos c.repc = repcLen c.repc) (more : 1 < repcCnt c.repc) :
    c.passed.pc = c.pc - BitVec.ofNat 64 (4 * repcLen c.repc) ∧ repcPos c.passed.repc = 0 ∧
      repcCnt c.passed.repc = repcCnt c.repc - 1 ∧ repcAct c.passed.repc = true := by
  have left : repcCnt c.repc - 1 ≠ 0 := by omega
  have count : repcCnt c.repc - 1 < 65536 := by have := repcCnt_lt c.repc; omega
  simp [LCore.passed, nextPc, nextRepc, repeats, h, last, left, Nat.mod_eq_of_lt count]

theorem passed_over (last : repcPos c.repc = repcLen c.repc) (one : repcCnt c.repc = 1) :
    c.passed.pc = c.pc + 4 ∧ repcCnt c.passed.repc = 0 ∧ repcAct c.passed.repc = false := by
  simp [LCore.passed, nextPc, nextRepc, repeats, h, last, one]

end

/-! ### The body of a repetition (R115) -/

theorem bodyFits_iff (s : State) (a : W64) (n : Nat) : s.bodyFits a n = true ↔
    ∀ k, k < n → ∃ w, s.wordAt (a + BitVec.ofNat 64 (4 * k)) = some w ∧ notInBody w = false ∧ (k + 1 = n → isPrefix w = false) := by
  induction n generalizing a with
  | zero => simp [State.bodyFits]
  | succ n ih =>
    have next : ∀ k, a + 4 + BitVec.ofNat 64 (4 * k) = a + BitVec.ofNat 64 (4 * (k + 1)) := fun k => by
      rw [Nat.mul_succ, Nat.add_comm, BitVec.ofNat_add, BitVec.add_assoc]
      rfl
    have first : a + BitVec.ofNat 64 (4 * 0) = a := BitVec.add_zero a
    rw [Nat.forall_lt_succ_left, State.bodyFits]
    simp only [Nat.add_left_inj, first, ← next, ← ih]
    cases s.wordAt a with
    | none => simp
    | some w => simp [and_comm, or_iff_not_imp_left, eq_comm (a := n)]

theorem notInBody_iff (w : W32) : notInBody w = false ↔ ¬(0x10 ≤ w.toNat / 2 ^ 25 ∧ w.toNat / 2 ^ 25 ≤ 0x15) ∧
    ¬(0x52 ≤ w.toNat / 2 ^ 25 ∧ w.toNat / 2 ^ 25 ≤ 0x54) ∧ ¬(0x59 ≤ w.toNat / 2 ^ 25 ∧ w.toNat / 2 ^ 25 ≤ 0x5C) := by
  simp only [notInBody, Bool.or_eq_false_iff, Bool.and_eq_false_iff, decide_eq_false_iff_not, not_and_or, and_assoc]

theorem isPrefix_iff (w : W32) : isPrefix w = false ↔ w.toNat / 2 ^ 25 ≠ 0x7E := by
  simp [isPrefix]

/-! ### `rep` (R115, R116) -/

/-- The passes that a `rep` asks for. -/
def LCore.repCount (c : LCore) (a : BitVec 5) (n : BitVec 8) : Nat := if a = 0 then n.toNat else (c.getX a).toNat

/-- The body of `l` + 1 words suits a repetition, and lies in the function that holds the `rep`. -/
def State.repeatable (s : State) (l : BitVec 4) : Prop :=
  s.bodyFits (s.cur.pc + 4) (l.toNat + 1) = true ∧ s.funcAt s.cur.pc = s.funcAt (s.cur.pc + BitVec.ofNat 64 (4 * (l.toNat + 1)))

theorem repeatable_awaited {s : State} {uses : List (BitVec 5)}
    (hu : ∀ pa, Config.usesOld (s.awaited uses).clk pa = Config.usesOld s.clk pa)
    (l : BitVec 4) : (s.awaited uses).repeatable l ↔ s.repeatable l := by
  rw [State.repeatable, bodyFits_awaited hu, funcAt_awaited hu, funcAt_awaited hu]
  rfl

/-- The logical core with another repetition state. -/
def LCore.repeating (r : W64) (c : LCore) : LCore := { c with repc := r }

/-- A `rep` of `cnt` passes at `pc`, the word of which is `w`, once its body suits it. -/
def startRep (w : W64) (d : BitVec 5) (l : BitVec 4) (cnt : Nat) (pc : W64) : Ex Flow := do
  if 65535 < cnt then trapWith cOPERAND_RANGE w (BitVec.ofNat 64 cnt)
  if cnt = 0 then return .jump (pc + BitVec.ofNat 64 (4 * (l.toNat + 2)))
  else
    modCur (LCore.repeating (mkRepc cnt l.toNat 0 d true))
    return .jump (pc + 4)

section
variable {s : State} {w : W64} {d : BitVec 5} {l : BitVec 4} {cnt : Nat} {pc : W64}

theorem startRep_none : startRep w d l 0 pc s = .ok (.jump (pc + BitVec.ofNat 64 (4 * (l.toNat + 2)))) s := by rfl

theorem startRep_long (h : 65535 < cnt) : startRep w d l cnt pc s = .error ⟨cOPERAND_RANGE, w, BitVec.ofNat 64 cnt⟩ s :=
  (run_if_pos h ..).trans (run_bind_error (run_trapWith ..))

theorem startRep_some (h : 0 < cnt) (short : cnt ≤ 65535) : startRep w d l cnt pc s =
    .ok (.jump (pc + 4)) (s.modCur (LCore.repeating (mkRepc cnt l.toNat 0 d true))) := by
  unfold startRep
  rw [if_neg short.not_gt]
  exact (run_if_neg h.ne' ..).trans (run_bind_ok (run_modCur _ _))

end

/-- A word that starts a repetition and ends at a target. -/
theorem moved_repeating (s : State) (uses : List (BitVec 5)) (r a : W64) : Moved (s.modCur (LCore.repeating r)) a
    (((s.awaited uses).modCur (LCore.repeating r)).finish (.jump a) ⟨uses, 0, 1, 1⟩) :=
  moved (s.modCur (LCore.repeating r)) _ _ _ (.inl rfl)

theorem repc_repeating (s : State) (r a : W64) (t : Timing) : ((s.modCur (LCore.repeating r)).finish (.jump a) t).cur.repc = r := rfl

section
variable {s : State} {d a : BitVec 5} {n : BitVec 8} {l : BitVec 4} (hp : s.passes (.rep d a n l) = true)
include hp

theorem rep_illegal (h : ¬(s.awaited [a]).repeatable l) :
    exec (.rep d a n l) s = .next ((s.awaited [a]).takeTrap ⟨cILLEGAL, (wordOf (.rep d a n l)).setWidth 64, 0⟩) := by
  refine (show _ = execRep d a n l s from rfl).trans (runWord_traps hp ?_)
  rw [run_bind_ok (run_get _), if_pos]
  · rfl
  · simpa [State.repeatable, or_iff_not_imp_left] using h

theorem rep_suits (h : (s.awaited [a]).repeatable l) : exec (.rep d a n l) s = runWord (.rep d a n l) ⟨[a], 0, 1, 1⟩
    (startRep ((wordOf (.rep d a n l)).setWidth 64) d l (s.cur.repCount a n) s.cur.pc) s := by
  refine (show _ = execRep d a n l s from rfl).trans (runWord_congr hp ?_)
  rw [run_bind_ok (run_get _), if_neg]
  · rfl
  · simpa [State.repeatable] using h

variable (h : (s.awaited [a]).repeatable l)
include h

theorem rep_skips (zero : s.cur.repCount a n = 0) :
    ∃ t, exec (.rep d a n l) s = .next t ∧ Moved s (s.cur.pc + BitVec.ofNat 64 (4 * (l.toNat + 2))) t := by
  rw [rep_suits hp h, zero, runWord_ok hp startRep_none]
  exact ⟨_, rfl, moved s _ _ _ (.inl rfl)⟩

theorem rep_tooLong (long : 65535 < s.cur.repCount a n) :
    exec (.rep d a n l) s = .next ((s.awaited [a]).takeTrap
      ⟨cOPERAND_RANGE, (wordOf (.rep d a n l)).setWidth 64, BitVec.ofNat 64 (s.cur.repCount a n)⟩) := by
  rw [rep_suits hp h]
  exact runWord_traps hp (startRep_long long)

theorem rep_starts (pos : 0 < s.cur.repCount a n) (short : s.cur.repCount a n ≤ 65535) :
    ∃ t, exec (.rep d a n l) s = .next t ∧ Moved (s.modCur (LCore.repeating t.cur.repc)) (s.cur.pc + 4) t ∧
      t.cur.repc = mkRepc (s.cur.repCount a n) l.toNat 0 d true :=
  ⟨_, (rep_suits hp h).trans (runWord_ok hp (startRep_some pos short)), moved_repeating .., repc_repeating ..⟩

end

/-! ### Prefixes (R49 to R51) -/

/-- After an `immx` or a `hint`: at the next word, in the unit that it is in or begins (R51). -/
def LCore.prefixed (c : LCore) : LCore := { c.advance with unit := some c.unitStart }

theorem prefixed_finish (u : State) : u.finish .prefix_ Timing.one =
    { u with clk := u.clk + 1, cur := { u.cur.prefixed with ccy := u.cur.ccy + 1 } } := by
  rw [State.finish, spend_none _ (.inl rfl)]
  rfl

/-- The logical core with the payload of an `immx`. -/
def LCore.withPfx (p : Option (BitVec 22)) (c : LCore) : LCore := { c with pfx := p }

/-- The logical core outside any unit. -/
def LCore.unitEnded (c : LCore) : LCore := { c with unit := none, pfx := none }

/-- The words that may follow an `immx`: those that no instruction has, and those that take an immediate. -/
def mayFollow (w : W32) : Prop := ∀ j, decode w = some j → j.takesImmx = true

/-- A trap at the `immx` leaves the unit ended, and nothing else. -/
theorem undone_unitEnded (s : State) : s.undone (s.modCur LCore.unitEnded) = s.modCur LCore.unitEnded := by
  have noCollections : (s.modCur LCore.unitEnded).collected.drop s.collected.length = [] := List.drop_length ..
  have noneStands : ((s.modCur LCore.unitEnded).stands && !s.stands) = false := Bool.and_not_self s.stands
  rw [State.undone]
  split
  · rfl
  · rw [noneStands, if_neg Bool.false_ne_true, noCollections]
    dsimp only [State.recollect, List.foldl_nil]
    have sameWords : (s.ctxValid s.cur.ctx && (s.modCur LCore.unitEnded).physWord (s.mg.ctxbase.toNat + 128 * s.cur.ctx.toNat + 80) !=
        (s.modCur LCore.unitEnded).physWord (s.mg.ctxbase.toNat + 128 * s.cur.ctx.toNat + 80)) = false := by simp
    exact if_neg (ne_true_of_eq_false sameWords)

theorem trapFrom_unitEnded {s : State} {i : Instr} {body : Ex Flow} {e : Exn} (hp : s.passes i = true)
    (traps : body s = .error e (s.modCur LCore.unitEnded)) :
    runWord i Timing.one body s = .next ((s.modCur LCore.unitEnded).takeTrap e) := by
  have here : s.awaited Timing.one.uses = s := awaited_nil s
  rw [runWord_trap hp (here ▸ traps), here, undone_unitEnded]

section
variable {s : State} {p : BitVec 22} {w : W32} (hp : s.passes (.immx p) = true)
include hp

theorem immx_kept (word : s.wordAt (s.cur.pc + 4) = some w) (takes : mayFollow w) :
    exec (.immx p) s = .next ((s.modCur (LCore.withPfx (some p))).finish .prefix_ Timing.one) := by
  refine (show _ = execImmx p s from rfl).trans (runWord_ok hp ?_)
  rw [show s.awaited Timing.one.uses = s from awaited_nil s, run_bind_ok (run_get s), word]
  dsimp only
  cases decoded : decode w with
  | none => rfl
  | some j =>
    dsimp only
    rw [takes j decoded]
    rfl

theorem immx_last (last : s.wordAt (s.cur.pc + 4) = none) :
    exec (.immx p) s = .next ((s.modCur LCore.unitEnded).takeTrap ⟨cILLEGAL, (wordOf (.immx p)).setWidth 64, 0⟩) := by
  refine (show _ = execImmx p s from rfl).trans (trapFrom_unitEnded hp ?_)
  rw [run_bind_ok (run_get s), last]
  rfl

theorem immx_refused {j : Instr} (word : s.wordAt (s.cur.pc + 4) = some w) (decoded : decode w = some j) (no : j.takesImmx = false) :
    exec (.immx p) s = .next ((s.modCur LCore.unitEnded).takeTrap ⟨cILLEGAL, w.setWidth 64, 0⟩) := by
  refine (show _ = execImmx p s from rfl).trans (trapFrom_unitEnded hp ?_)
  rw [run_bind_ok (run_get s), word]
  dsimp only
  rw [decoded]
  dsimp only
  rw [no]
  rfl

end

/-! ### Hints (R50, R110) -/

/-- The logical core with the number of a scheduling hint. -/
def LCore.hinted (n : BitVec 19) (c : LCore) : LCore := { c with hint := n }

/-- A word that names no register and goes on within its unit. -/
theorem runWord_prefix {i : Instr} {body : Ex Flow} {s u : State} (hp : s.passes i = true) (h : body s = .ok .prefix_ u) :
    runWord i Timing.one body s = .next (u.finish .prefix_ Timing.one) :=
  runWord_ok hp ((congrArg body (awaited_nil s)).trans h)

theorem exists_runWord_prefix {i : Instr} {body : Ex Flow} {s : State} {P : State → Prop} (hp : s.passes i = true)
    (h : ∃ u, body s = .ok .prefix_ u ∧ P u) : ∃ u, runWord i Timing.one body s = .next (u.finish .prefix_ Timing.one) ∧ P u :=
  h.imp fun _ h => ⟨runWord_prefix hp h.1, h.2⟩

section
variable {s : State} {p : BitVec 22} (hp : s.passes (.hint p) = true)
include hp

theorem hint_scheduling (kind : p.toNat / 2 ^ 19 = 0) :
    exec (.hint p) s = .next ((s.modCur (LCore.hinted (p.extractLsb' 0 19))).finish .prefix_ Timing.one) := by
  refine (show _ = execHint p s from rfl).trans (runWord_prefix hp ?_)
  rw [run_bind_ok (run_get s)]
  dsimp only
  rw [if_pos kind]
  rfl

/-- A successor hint leaves every logical core, whatever comes of its prefetch. -/
theorem hint_successor (kind : p.toNat / 2 ^ 19 = 2) :
    ∃ u, exec (.hint p) s = .next (u.finish .prefix_ Timing.one) ∧ CoresKept s u := by
  show ∃ u, execHint p s = _ ∧ _
  refine exists_runWord_prefix hp ?_
  rw [run_bind_ok (run_get s)]
  dsimp only
  rw [if_neg (by omega), if_pos kind]
  cases s.funcRecAt (((s.funcAt s.cur.pc).map (·.start)).getD 0) with
  | none => exact ⟨s, rfl, .refl s⟩
  | some record =>
    obtain ⟨r, f⟩ := record
    dsimp only
    cases r.funcs[p.toNat % 2 ^ 19]? with
    | none => exact ⟨s, rfl, .refl s⟩
    | some g =>
      dsimp only
      cases s.funcFrom (r.base + BitVec.ofNat 64 (g.hdr + 16)) with
      | none => exact ⟨s, rfl, .refl s⟩
      | some e =>
        obtain ⟨u, run, kept⟩ := run_prefetchIn e (.refl s)
        exact ⟨u, run_bind_ok run, kept⟩

theorem hint_other (zero : p.toNat / 2 ^ 19 ≠ 0) (two : p.toNat / 2 ^ 19 ≠ 2) :
    exec (.hint p) s = .next (s.finish .prefix_ Timing.one) := by
  refine (show _ = execHint p s from rfl).trans (runWord_prefix hp ?_)
  rw [run_bind_ok (run_get s)]
  dsimp only
  rw [if_neg zero, if_neg two]
  rfl

/-- What a hint leaves of the core: the next word, the number of a scheduling hint, and time (R50, R51). -/
theorem hint_leaves : ∃ t, exec (.hint p) s = .next t ∧
    t.cur = { s.cur.advance with
      unit := some s.cur.unitStart
      hint := if p.toNat / 2 ^ 19 = 0 then p.extractLsb' 0 19 else s.cur.hint
      ccy := t.cur.ccy } ∧
    (p.toNat / 2 ^ 19 ≠ 2 → t = { s with clk := t.clk, cur := t.cur }) := by
  by_cases zero : p.toNat / 2 ^ 19 = 0
  · rw [if_pos zero]
    exact ⟨_, hint_scheduling hp zero, by rw [prefixed_finish]; rfl, fun _ => by rw [prefixed_finish]; rfl⟩
  · rw [if_neg zero]
    by_cases two : p.toNat / 2 ^ 19 = 2
    · obtain ⟨u, run, kept⟩ := hint_successor hp two
      refine ⟨_, run, ?_, fun h => absurd two h⟩
      rw [prefixed_finish, ← kept.cur]
      rfl
    · exact ⟨_, hint_other hp zero two, by rw [prefixed_finish]; rfl, fun _ => by rw [prefixed_finish]⟩

end

/-! ### The statement O13, as far as the model decides it -/

/-- A word that `rep` refuses, in the numbers of the operation codes (R115). -/
theorem bodyFits_codes (s : State) (a : W64) (n : Nat) : s.bodyFits a n = true ↔
    ∀ k, k < n → ∃ w, s.wordAt (a + BitVec.ofNat 64 (4 * k)) = some w ∧
      let op := w.toNat / 2 ^ 25
      ¬(0x10 ≤ op ∧ op ≤ 0x15) ∧ ¬(0x52 ≤ op ∧ op ≤ 0x54) ∧ ¬(0x59 ≤ op ∧ op ≤ 0x5C) ∧ (k + 1 = n → op ≠ 0x7E) := by
  simp only [bodyFits_iff, notInBody_iff, isPrefix_iff, and_assoc]

/-- The modes of the memory form with an immediate field (R48, R49). -/
theorem immediate_modes (m : BitVec 2) : (m == 0 || m == 3) = (m != 1 && m != 2) := by
  revert m
  decide

/-- The statement O13 holds if the choice between the old and the new value of a table word does not depend on the time. -/
theorem repetitionAndPrefixes_of_steady (steady : SteadyWords) : Obligations.RepetitionAndPrefixes := by
  unfold Obligations.RepetitionAndPrefixes
  have suits : ∀ (s : State) (a : BitVec 5) (l : BitVec 4), (s.awaited [a]).repeatable l ↔ s.repeatable l :=
    fun s a l => repeatable_awaited (fun pa => steady ..) l
  refine ⟨⟨fun s d a n l hp fits within => ?_, fun s d a n l hp unfit => ?_, bodyFits_codes, fun c => ⟨passed_alone, fun act => ?_⟩⟩,
    fun s p => ⟨fun hp ⟨w, word, takes⟩ => ?_, fun hp => ⟨fun last => ?_, fun w j word decoded no => ?_⟩, rfl, rfl,
      fun _ _ _ => rfl, fun _ _ _ => rfl, fun _ _ m _ _ => ⟨immediate_modes m, immediate_modes m⟩,
      fun _ _ m _ => ⟨immediate_modes m, immediate_modes m⟩, hint_leaves⟩⟩
  · have h := (suits s a l).mpr ⟨fits, within⟩
    refine ⟨rep_skips hp h, fun pos short => ?_, rep_tooLong hp h⟩
    obtain ⟨t, run, frame, repc⟩ := rep_starts hp h pos short
    refine ⟨t, run, frame, ?_⟩
    rw [repc]
    have count : s.cur.repCount a n < 65536 := Nat.lt_succ_of_le short
    exact ⟨(repcCnt_mkRepc ..).trans (Nat.mod_eq_of_lt count), (repcLen_mkRepc ..).trans (Nat.mod_eq_of_lt l.isLt), repcPos_mkRepc ..,
      repcStrd_mkRepc .., repcAct_mkRepc ..⟩
  · refine rep_illegal hp fun h => ?_
    obtain ⟨fits, within⟩ := (suits s a l).mp h
    exact unfit.elim (fun no => Bool.false_ne_true (no.symm.trans fits)) (· within)
  · exact ⟨nextRepc_strd _, nextRepc_len _, passed_within act, passed_again act, passed_over act⟩
  · exact ⟨_, immx_kept hp word takes, by rw [prefixed_finish]; rfl⟩
  · rw [awaited_nil]
    exact immx_last hp last
  · rw [awaited_nil]
    exact immx_refused hp word decoded no

/-! ### What the statements O11 and O13 say of that choice -/

/-- A core at a cycle `clk`, at the start of a function in its instruction pad, whose register x1 is ready `d` cycles later. Memory places
no code map for context 0; the die holds an old value of that word, `v`. -/
def mappedAt (v start : W64) (len clk d : Nat) : State :=
  { State.reset with
    clk := clk
    codeMap := []
    ipad := [⟨0, 0, start, len, [fillWord, fillWord], false, true⟩]
    cur := { LCore.cleared with run := .running, pc := start, xrdy := (Vector.replicate 32 0).set 1 d }
    held := [⟨32, v, 0, 0, 0⟩] }

/-- Where the code map of context 0 stands depends on whether the old value of its address is used. -/
theorem ctxWord_of_held {s : State} {v : W64} (hb : s.mg.ctxbase = 0) (hm : s.mem = []) (hh : s.held = [⟨32, v, 0, 0, 0⟩]) :
    s.ctxWord 0 4 = if Config.usesOld s.clk 32 then v else 0 := by
  have word : s.physWord 32 = 0 := by rw [State.physWord, hm]; rfl
  rw [State.ctxWord, State.ctxWordAt, State.tableWord, hb, hh]
  show (if v ≠ s.physWord 32 && Config.usesOld s.clk 32 then v else s.physWord 32) = _
  rw [word]
  cases Config.usesOld s.clk 32 with
  | false => simp
  | true =>
    by_cases zero : v = 0
    · simp [zero]
    · rw [if_pos (by simpa using zero), if_pos rfl]

section
variable (v start : W64) (len clk d : Nat)

theorem passes_mappedAt : (mappedAt v start len clk d).passes (.bEq 1 1 0) = true ∧
    (mappedAt v start len clk d).passes (.rep 0 1 0 0) = true :=
  ⟨rfl, rfl⟩

theorem awaited_mappedAt {uses : List (BitVec 5)} (h : uses = [1] ∨ uses = [1, 1]) :
    (mappedAt v start len clk d).awaited uses = (mappedAt v start len clk d).later (clk + d) d := by
  have ready : (mappedAt v start len clk d).cur.issueAt uses = d := by
    rcases h with rfl | rfl
    · show max 0 d = d
      omega
    · show max (max 0 d) d = d
      omega
  rw [awaited_later, ready]
  rfl

theorem ctxWord_mappedAt (now ccy : Nat) :
    ((mappedAt v start len clk d).later now ccy).ctxWord 0 4 = if Config.usesOld now 32 then v else 0 :=
  ctxWord_of_held rfl rfl rfl

theorem fetchCtx_mappedAt (now ccy : Nat) : ((mappedAt v start len clk d).later now ccy).fetchCtx = 0 :=
  show (if (0 : W64).extractLsb' 0 2 = 3 then 0 else (0 : W64).extractLsb' 16 16 : BitVec 16) = 0 by decide

variable {v start len} (placed : Config.codeMapAt v [] = [(start, len)]) (nonzero : v ≠ 0)
include placed nonzero

theorem codeFuncs_mappedAt (now ccy : Nat) :
    ((mappedAt v start len clk d).later now ccy).codeFuncs 0 = if Config.usesOld now 32 then [⟨0, start, len⟩] else [] := by
  rw [State.codeFuncs, ctxWord_mappedAt]
  cases Config.usesOld now 32 with
  | false => rfl
  | true =>
    rw [if_pos rfl, if_neg nonzero]
    have image : Config.codeMapAt v ((mappedAt v start len clk d).later now ccy).mem = [(start, len)] := placed
    rw [image]
    rfl

theorem funcAt_mappedAt (now ccy : Nat) {a : W64} (low : start.toNat ≤ a.toNat) (high : a.toNat < start.toNat + len) :
    ((mappedAt v start len clk d).later now ccy).funcAt a = if Config.usesOld now 32 then some ⟨0, start, len⟩ else none := by
  rw [State.funcAt, fetchCtx_mappedAt, codeFuncs_mappedAt clk d placed nonzero]
  cases Config.usesOld now 32 with
  | false => rfl
  | true => simp [low, high]

theorem wordAt_mappedAt (now ccy : Nat) (room : 8 ≤ len) (fits : start.toNat + len ≤ 2 ^ 64) :
    ((mappedAt v start len clk d).later now ccy).wordAt (start + 4) = if Config.usesOld now 32 then some fillWord else none := by
  have next : (start + 4).toNat = start.toNat + 4 := BitVec.toNat_add_of_lt (by show start.toNat + 4 < _; omega)
  rw [State.wordAt, funcAt_mappedAt clk d placed nonzero now ccy (by omega) (by omega)]
  cases Config.usesOld now 32 with
  | false => rfl
  | true =>
    have resident : ((mappedAt v start len clk d).later now ccy).residentAt start =
        some ⟨0, 0, start, len, [fillWord, fillWord], false, true⟩ := by
      have user : ((mappedAt v start len clk d).later now ccy).fetchCtx = 0 := fetchCtx_mappedAt ..
      rw [State.residentAt, user]
      exact List.find?_cons_of_pos (by simp; rfl)
    rw [if_pos rfl, Option.bind_some, resident, Option.bind_some, next]
    simp

end

/-- A trap of user software does not leave the core at the level it had. -/
theorem not_moved_takeTrap {s t : State} {e : Exn} {a : W64} (same : t.cur.pl = 0) (loads : s.cur.loads = [])
    (pend : s.cur.pend = []) (posts : s.cur.nextPost = s.cur) (late : s.cur.late = none) (code : e.code ≠ cFEATURE_ABSENT) :
    ¬Moved t a (s.takeTrap e) := by
  intro moved
  have user : (s.takeTrap e).cur.pl = 0 := (congrArg (fun t : State => t.cur.pl) moved :).trans same
  rw [takeTrap_drained loads pend posts late] at user
  obtain ⟨-, level, -⟩ := trapTaken_enterTrap (s := s.later (s.clk + (s.cur.quietAt - s.cur.ccy)) s.cur.quietAt)
    (late := none) (int := false) fun h => absurd h code
  have target := user.symm.trans level
  revert target
  unfold State.trapTarget
  split_ifs <;> decide

section
variable {v start : W64} {len : Nat} (placed : Config.codeMapAt v [] = [(start, len)]) (nonzero : v ≠ 0) (room : 8 ≤ len)
  (fits : start.toNat + len ≤ 2 ^ 64) (clk d : Nat)

/-- A word on this core does not both end at a target and trap. -/
theorem not_moved_mappedAt {o : Host.Outcome State Fault Refusal} {a : W64} {uses : List (BitVec 5)} {code : BitVec 6} {v1 v2 : W64}
    (present : code ≠ cFEATURE_ABSENT) (moves : ∃ t, o = .next t ∧ Moved (mappedAt v start len clk d) a t)
    (traps : o = .next (((mappedAt v start len clk d).awaited uses).takeTrap ⟨code, v1, v2⟩)) : False := by
  obtain ⟨t, ends, moved⟩ := moves
  cases ends.symm.trans traps
  exact not_moved_takeTrap (by show (0 : W64).extractLsb' 0 2 = 0; decide) rfl rfl rfl rfl present moved

include placed nonzero room

theorem repeatable_mappedAt (fits : start.toNat + len ≤ 2 ^ 64) (now ccy : Nat) :
    ((mappedAt v start len clk d).later now ccy).repeatable 0 ↔ Config.usesOld now 32 = true := by
  have next : (start + 4).toNat = start.toNat + 4 := BitVec.toNat_add_of_lt (by show start.toNat + 4 < _; omega)
  have here : ((mappedAt v start len clk d).later now ccy).cur.pc = start := rfl
  have body : ((mappedAt v start len clk d).later now ccy).bodyFits (start + 4) 1 = Config.usesOld now 32 := by
    rw [State.bodyFits, wordAt_mappedAt clk d placed nonzero now ccy room fits]
    cases Config.usesOld now 32 <;> rfl
  rw [State.repeatable, here, show start + BitVec.ofNat 64 (4 * ((0 : BitVec 4).toNat + 1)) = start + 4 from rfl,
    funcAt_mappedAt clk d placed nonzero now ccy le_rfl (by omega), funcAt_mappedAt clk d placed nonzero now ccy (by omega) (by omega)]
  exact ⟨fun h => body ▸ h.1, fun h => ⟨body.trans h, rfl⟩⟩

/-- If `v` places a code map with one function, the statement O11 makes the choice for the table word at address 32 the same at every
cycle: a branch in that function finds it in the map as it reads once x1 is ready, and O11 has it find it in the map as it reads now. -/
theorem usesOld_steady_of_controlTransfers (h : Obligations.ControlTransfers) : Config.usesOld (clk + d) 32 = Config.usesOld clk 32 := by
  obtain ⟨⟨branches, -⟩, -⟩ := h
  have hp := (passes_mappedAt v start len clk d).1
  obtain ⟨-, stated⟩ := branches (mappedAt v start len clk d) 1 1 0 hp
  obtain ⟨inside, outside⟩ := stated (beq_self_eq_true _)
  have taken : ((mappedAt v start len clk d).cur.getX 1 == (mappedAt v start len clk d).cur.getX 1) = true := beq_self_eq_true _
  have target : (mappedAt v start len clk d).cur.branchTarget 0 = start := BitVec.add_zero start
  have now := funcAt_mappedAt clk d placed nonzero clk 0 (a := start) le_rfl (by omega)
  have ready := funcAt_mappedAt clk d placed nonzero (clk + d) d (a := start) le_rfl (by omega)
  rw [← awaited_mappedAt v start len clk d (.inr rfl)] at ready
  have within : start.toNat ≤ ((mappedAt v start len clk d).cur.branchTarget 0).toNat ∧
      ((mappedAt v start len clk d).cur.branchTarget 0).toNat < start.toNat + len := by
    rw [target]
    omega
  cases new : Config.usesOld (clk + d) 32 <;> cases old : Config.usesOld clk 32
  case false.true =>
    rw [new] at ready
    rw [old] at now
    exact (not_moved_mappedAt clk d (by decide) (inside _ now within.1 within.2)
      (branchIf_outside hp taken fun f mapped => absurd (ready.symm.trans mapped) nofun)).elim
  case true.false =>
    rw [new] at ready
    rw [old] at now
    exact (not_moved_mappedAt clk d (by decide) (branchIf_inside hp taken ready within)
      (outside fun f mapped => absurd (now.symm.trans mapped) nofun)).elim
  all_goals rfl

include fits

/-- The statement O13 makes that choice the same at every cycle too: `rep` finds its body in the map as it reads once x1 is ready. -/
theorem usesOld_steady_of_repetitionAndPrefixes (h : Obligations.RepetitionAndPrefixes) :
    Config.usesOld (clk + d) 32 = Config.usesOld clk 32 := by
  obtain ⟨⟨suited, unsuited, -⟩, -⟩ := h
  have hp := (passes_mappedAt v start len clk d).2
  have suited := suited (mappedAt v start len clk d) 0 1 0 0 hp
  have unsuited := unsuited (mappedAt v start len clk d) 0 1 0 0 hp
  have ready := repeatable_mappedAt placed nonzero room clk d fits (clk + d) d
  have now := repeatable_mappedAt placed nonzero room clk d fits clk 0
  rw [← awaited_mappedAt v start len clk d (.inl rfl)] at ready
  have noPasses : (mappedAt v start len clk d).cur.repCount 1 0 = 0 := rfl
  cases new : Config.usesOld (clk + d) 32 <;> cases old : Config.usesOld clk 32
  case false.true =>
    rw [new] at ready
    obtain ⟨fit, within⟩ := now.mpr old
    exact (not_moved_mappedAt clk d (by decide) ((suited fit within).1 noPasses)
      (rep_illegal hp fun h => absurd (ready.mp h) nofun)).elim
  case true.false =>
    rw [old] at now
    have unfit : ¬(mappedAt v start len clk d).repeatable 0 := fun h => absurd (now.mp h) nofun
    rw [State.repeatable, not_and_or, Bool.not_eq_true] at unfit
    exact (not_moved_mappedAt clk d (by decide) (rep_skips hp (ready.mpr new) noPasses) (unsuited unfit)).elim
  all_goals rfl

end

end Sys2Proof.Machine

namespace Sys2Proof.Machine

/-! The vector words (R119 to R139): what the work of a vector word leaves in its destination, said once for each kind of destination. -/

/-! ### Elements that a list gives -/

/-- The elements that `o` gives among those of a list, with their numbers. -/
def listed (l : List Nat) (o : Nat → Option Nat) : List (Nat × Nat) := l.filterMap (fun j => (o j).map (fun x => (j, x)))

theorem listed_some (l : List Nat) (f : Nat → Nat) : listed l (fun j => some (f j)) = l.map (fun j => (j, f j)) := by
  simp only [listed, Option.map_some, List.filterMap_eq_map']

/-- A move of elements writes those that it is given. -/
theorem moveWrite_listed (d : BitVec 5) (t : Nat) (l : List Nat) (o : Nat → Option Nat) (busy lat : Nat) :
    moveWrite d t (l.map (fun j => (j, o j))) busy lat =
      { writes := [elemWrite d (Fp.width t) (listed l o)], busy := busy, lat := lat } := by
  simp only [moveWrite, List.filterMap_map, Function.comp_def, listed]

theorem listed_numbers (l : List Nat) (o : Nat → Option Nat) : (listed l o).map Prod.fst = l.filter (fun j => (o j).isSome) := by
  induction l with
  | nil => rfl
  | cons j l ih => rw [listed, List.filterMap_cons, List.filter_cons]; cases o j <;> simp [listed, ← ih]

theorem listed_nodup {l : List Nat} (h : l.Nodup) (o : Nat → Option Nat) : ((listed l o).map Prod.fst).Nodup := by
  rw [listed_numbers]
  exact h.filter _

theorem elemOr_listed (l : List Nat) (o : Nat → Option Nat) (w j old : Nat) :
    elemOr (listed l o) w j old = ((if j ∈ l then o j else none).map (· % 2 ^ w)).getD old := by
  induction l with
  | nil => rfl
  | cons i l ih =>
    by_cases same : i = j
    · subst same
      cases given : o i with
      | none =>
        have rest : listed (i :: l) o = listed l o := by simp only [listed, List.filterMap_cons, given, Option.map_none]
        rw [rest, ih, if_pos List.mem_cons_self, given]
        split <;> rfl
      | some x => simp [elemOr, listed, given]
    · have rest : elemOr (listed (i :: l) o) w j old = elemOr (listed l o) w j old := by
        cases given : o i <;> simp [elemOr, listed, given, same]
      rw [rest, ih]
      simp [List.mem_cons, Ne.symm same]

/-! ### What a completed word leaves in a register -/

/-- What the elements of a register become up to the low bits that each holds, and up to how the flags are written down. -/
theorem VecResult.congr {s t : State} {d : BitVec 5} {w : Nat} {fl fl' : Fp.Flags} {g g' : Nat → Option Nat} (h : VecResult s t d w fl g)
    (flags : fl = fl') (low : ∀ j, j < 512 / w → (g j).map (· % 2 ^ w) = (g' j).map (· % 2 ^ w)) : VecResult s t d w fl' g' := by
  subst flags
  obtain ⟨elems, rest⟩ := h
  exact ⟨fun j hj => by rw [elems j hj, low j hj], rest⟩

theorem GivesElems.congr {s : State} {i : Instr} {d : BitVec 5} {w : Nat} {fl fl' : Fp.Flags} {g g' : Nat → Option Nat} (h : GivesElems s i d w fl g)
    (flags : fl = fl') (low : ∀ j, j < 512 / w → (g j).map (· % 2 ^ w) = (g' j).map (· % 2 ^ w)) : GivesElems s i d w fl' g' := by
  obtain ⟨t, run, frame, result⟩ := h
  exact ⟨t, run, frame, result.congr flags low⟩

/-- Once its one write has landed a word that lists elements of `w` bits has given them. -/
theorem vecResult_listed {s u : State} {i : Instr} {d : BitVec 5} {w : Nat} {l : List Nat} {o : Nat → Option Nat} {fl : Fp.Flags}
    {work : Issued} (h : Completed s i work fl u) (noX : work.xw = none) (writes : work.writes = [elemWrite d w (listed l o)]) (hw : 0 < w)
    (hn : l.Nodup) : VecResult s u d w fl (fun j => if j ∈ l then o j else none) := by
  obtain ⟨-, vregs, mregs, xregs, flags⟩ := h
  rw [noX] at xregs
  rw [writes] at vregs mregs
  have landed : ∀ q, u.cur.settled.getV q = ((elemWrite d w (listed l o)).apply s.cur).getV q := fun q => congrArg (·.get q.toFin) vregs
  refine ⟨fun j hj => ?_, fun q hq => ?_, mregs.trans rfl, xregs, flags⟩
  · have fits : w * j + w ≤ 512 := by
      rw [← Nat.mul_succ, Nat.mul_comm]
      exact (Nat.le_div_iff_mul_le hw).mp hj
    rw [landed, elem_elemWrite hw (listed_nodup hn o) _ _ fits, elemOr_listed]
  · rw [landed, getV_elemWrite _ _ _ _ _ hq]

theorem getM_setM (c : LCore) (d r : BitVec 3) (v : W64) : (c.setM d v).getM r = if r = d ∧ d ≠ 0 then v else c.getM r := by
  by_cases zero : r = 0
  · rw [if_neg fun h : r = d ∧ d ≠ 0 => h.2 (h.1 ▸ zero), zero, getM_zero, getM_zero]
  by_cases discarded : d = 0
  · rw [discarded, setM_zero, if_neg (by simp)]
  simp only [LCore.setM, LCore.getM, if_neg zero, if_neg discarded]
  show (c.m.set d.toNat v d.isLt)[r.toNat]'r.isLt = if r = d ∧ d ≠ 0 then v else c.m[r.toNat]'r.isLt
  rw [get_set_eq]
  by_cases e : r = d
  · rw [if_pos (e ▸ rfl), if_pos ⟨e, discarded⟩]
  · rw [if_neg (fun h => e (BitVec.eq_of_toNat_eq h.symm)), if_neg (fun h : r = d ∧ d ≠ 0 => e h.1)]

/-! ### Words of the vector unit that issue at once -/

theorem modCur_raise_zero (s : State) : s.modCur (fun c => c.raise 0) = s := congrArg (fun c => { s with cur := c }) (raise_zero s.cur)

theorem wf_of_copReady {s : State} {i : Instr} (h : s.copReady i = true) : i.wf = true := by
  simp only [State.copReady, State.passes, Bool.and_eq_true] at h
  obtain ⟨⟨⟨⟨⟨wf, -⟩, -⟩, -⟩, -⟩, -⟩ := h
  exact wf

section
variable {s : State} {i : Instr} {uses : List (BitVec 5)} {prep : Ex Capture} {act : RingEntry → Ex Issued} {xa xb : W64} {work : Issued}
  {fl : Fp.Flags} {d : BitVec 5} (h : s.copReady i = true) (run : exec i s = runCop i uses vecUnit prep act s)
  (captures : prep (s.awaited uses) = .ok { xa := xa, xb := xb } (s.awaited uses))
include h run captures

/-- A vector word that captures no pointer completes with what its work raises and leaves to land. -/
theorem vec_completed (works : act (RingEntry.issuing (s.cur.await uses) i { xa := xa, xb := xb })
      ((s.awaited uses).modCur (LCore.issuing i { xa := xa, xb := xb })) =
      .ok work (((s.awaited uses).modCur (LCore.issuing i { xa := xa, xb := xb })).modCur (fun c => c.raise fl)))
    (ends : work.goesOn = false ∧ work.post = none) : ∃ t, exec i s = .next t ∧ Completed s i work fl t := by
  obtain ⟨t, next, left⟩ := cop_ok h captures works ends.1 ends.2 (pinRoom_x _) (vecUnit_flows ..)
  exact ⟨t, run.trans next, left⟩

/-- A vector word whose one write lists elements. -/
theorem vec_givesElems {w : Nat} {l : List Nat} {o : Nat → Option Nat} {busy lat : Nat}
    (works : act (RingEntry.issuing (s.cur.await uses) i { xa := xa, xb := xb })
      ((s.awaited uses).modCur (LCore.issuing i { xa := xa, xb := xb })) =
      .ok { writes := [elemWrite d w (listed l o)], busy := busy, lat := lat }
        (((s.awaited uses).modCur (LCore.issuing i { xa := xa, xb := xb })).modCur (fun c => c.raise fl)))
    (hw : 0 < w) (hn : l.Nodup) : GivesElems s i d w fl (fun j => if j ∈ l then o j else none) := by
  obtain ⟨t, next, done⟩ := vec_completed h run captures works ⟨rfl, rfl⟩
  exact ⟨t, next, done.1, vecResult_listed done rfl rfl hw hn⟩

/-- A vector word that answers in an x register. -/
theorem vec_givesX {v : W64} {lat : Nat} (works : act (RingEntry.issuing (s.cur.await uses) i { xa := xa, xb := xb })
      ((s.awaited uses).modCur (LCore.issuing i { xa := xa, xb := xb })) =
      .ok { xw := some (d, v), lat := lat } ((s.awaited uses).modCur (LCore.issuing i { xa := xa, xb := xb }))) : GivesX s i d v := by
  obtain ⟨t, next, frame, vregs, mregs, xregs, flags⟩ := vec_completed h run captures (works.trans (congrArg _ (modCur_raise_zero _).symm)) ⟨rfl, rfl⟩
  exact ⟨t, next, frame, fun r => (getX_congr xregs r).trans (getX_setX ..), vregs, mregs, flags.trans BitVec.or_zero⟩

end
end Sys2Proof.Machine

namespace Sys2Proof.Machine

/-! ### The length, and the words that answer in an x register (R122, R133, R135) -/

/-- `setvl` grants the elements of a register, or as many as are asked for, and VL counts their bytes (R122). -/
theorem setvl_wrote {s : State} {d a : BitVec 5} {t : BitVec 4} (h : s.passes (.setvl d a t) = true) :
    ∃ u, exec (.setvl d a t) s = .next u ∧
      Wrote (s.modCur (fun c => { c with vl := BitVec.ofNat 7 (min (s.cur.getX a).toNat (64 / elemBytes t.toNat) * elemBytes t.toNat) })) d
        (BitVec.ofNat 64 (min (s.cur.getX a).toNat (64 / elemBytes t.toNat))) u :=
  ⟨_, runWord_ok (i := .setvl d a t) (t := ⟨[a, d], d, 1, 1⟩) (fl := .seq) h rfl, wrote (s.modCur _) [a, d] d _ ⟨[a, d], d, 1, 1⟩⟩

/-- Settles O24: `setvl` runs in the scalar pipeline, and each of the others is one result of the vector unit. -/
theorem vectorLengthAndScalars : Obligations.VectorLengthAndScalars := by
  unfold Obligations.VectorLengthAndScalars
  refine ⟨fun s d a t => setvl_wrote, fun s d a b m n t => ⟨fun h => ?_, fun h => ?_, fun h => ?_⟩⟩
  · exact vec_givesX h rfl (run_captureX 0 b (s.awaited [b, d])) rfl
  · exact vec_givesX h rfl (run_noCapture (s.awaited [d])) rfl
  · exact vec_givesX h rfl (run_noCapture (s.awaited [d])) rfl

/-! ### Element-wise words (R124, R125) -/

/-- Settles O25: each word is element-wise with the operation that the rule names for integers and for floats. -/
theorem vectorSumsAndProducts : Obligations.VectorSumsAndProducts := by
  unfold Obligations.VectorSumsAndProducts
  refine ⟨?_, ?_, ?_⟩
  · exact elementwise_ok (busy := fun t => (figAdd t).1) (lat := fun t => (figAdd t).2) fun _ _ _ _ _ _ _ => rfl
  · exact elementwise_ok (busy := fun t => (figAdd t).1) (lat := fun t => (figAdd t).2) fun _ _ _ _ _ _ _ => rfl
  · exact elementwise_ok (busy := fun t => (figMul t).1) (lat := fun t => (figMul t).2) fun _ _ _ _ _ _ _ => rfl

/-- An element-wise word gives the low bits of its operation, so that operations which agree on them give the same. -/
theorem Elementwise.congr {mk : BitVec 5 → BitVec 5 → BitVec 5 → BitVec 3 → BitVec 1 → BitVec 4 → Instr}
    {f g : Nat → Fp.Mode → Nat → Nat → Nat → Nat → Nat × Fp.Flags} (h : Elementwise mk f)
    (flags : ∀ t md j x y z, (f t md j x y z).2 = (g t md j x y z).2)
    (low : ∀ t md j x y z, (f t md j x y z).1 % 2 ^ Fp.width t = (g t md j x y z).1 % 2 ^ Fp.width t) : Elementwise mk g := by
  intro s d a b m n t ready
  refine (h s d a b m n t ready).congr ?_ fun j _ => ?_
  · simp only [flags]
  · split
    · simp only [Option.map_some, low]
    · rfl

theorem intMinMax_false (t x y : Nat) : intMinMax false t x y = if Fp.intVal t x ≤ Fp.intVal t y then x else y := by
  simp only [intMinMax, Bool.bne_false, decide_eq_true_eq]

theorem intMinMax_true (t x y : Nat) : intMinMax true t x y = if Fp.intVal t x ≤ Fp.intVal t y then y else x := by
  simp only [intMinMax, Bool.bne_true, Bool.not_eq_true', decide_eq_false_iff_not]
  split_ifs <;> rfl

/-- The element-wise words that all take one cycle and have a latency of `lat` (R123). -/
theorem elementwise_oneCycle {mk : BitVec 5 → BitVec 5 → BitVec 5 → BitVec 3 → BitVec 1 → BitVec 4 → Instr}
    {f : Nat → Fp.Mode → Nat → Nat → Nat → Nat → Nat × Fp.Flags} (lat : Nat)
    (he : ∀ d a b m n t s, exec (mk d a b m n t) s = runCop (mk d a b m n t) [] vecUnit noCapture
      (elementWise d t.toNat m n 1 lat (ternary d a b t (f t.toNat))) s) : Elementwise mk f :=
  elementwise_ok (busy := fun _ => 1) (lat := fun _ => lat) he

/-- Settles O26: the operations of the model, with the lesser and the greater by value, and the low bits of a shift to the left. -/
theorem vectorIntegerOperations : Obligations.VectorIntegerOperations := by
  unfold Obligations.VectorIntegerOperations
  simp only [← intMinMax_false, ← intMinMax_true]
  refine ⟨?_, ?_, ?_, ?_, ?_, ?_, ?_, ?_, ?_, ?_, ?_, ?_, ?_⟩
  case refine_11 =>
    have shl : Elementwise .vshl (fun t _ _ x y _ => (x * 2 ^ (y % Fp.width t) % 2 ^ Fp.width t, 0)) :=
      elementwise_oneCycle 2 fun _ _ _ _ _ _ _ => rfl
    exact shl.congr (fun _ _ _ _ _ _ => rfl) fun _ _ _ _ _ _ => Nat.mod_mod _ _
  case refine_1 | refine_2 => exact elementwise_oneCycle 4 fun _ _ _ _ _ _ _ => rfl
  all_goals exact elementwise_oneCycle 2 fun _ _ _ _ _ _ _ => rfl

/-- Settles O27: each word is element-wise with its operation, `vfsqrt` with one that reads no second source. -/
theorem vectorFloatOperations : Obligations.VectorFloatOperations := by
  unfold Obligations.VectorFloatOperations
  refine ⟨?_, ?_, ?_, ?_, ?_, ?_, ?_, fun s d a m n t h => ?_⟩
  case refine_8 =>
    have sqrt : Elementwise (fun d a _ m n t => .vfsqrt d a m n t) (fun t md j x _ _ => floatOp t md j (Fp.sqrt (Fp.decode t x))) :=
      elementwise_ok (busy := fun t => (figDiv t).1) (lat := fun t => (figDiv t).2) fun _ _ _ _ _ _ _ => rfl
    exact sqrt s d a a m n t h
  case refine_5 => exact elementwise_ok (busy := fun t => (figDiv t).1) (lat := fun t => (figDiv t).2) fun _ _ _ _ _ _ _ => rfl
  case refine_6 | refine_7 => exact elementwise_oneCycle 2 fun _ _ _ _ _ _ _ => rfl
  all_goals exact elementwise_ok (busy := fun t => (figMul t).1) (lat := fun t => (figMul t).2) fun _ _ _ _ _ _ _ => rfl

end Sys2Proof.Machine

namespace Sys2Proof.Machine

/-! ### Compares and mask operations (R126, R136) -/

/-- Fields of `k` bits that are added in rising order do not carry into each other. -/
theorem foldl_add_fields {k : Nat} (f : Nat → Nat) (hf : ∀ j, f j < 2 ^ k) {l : List Nat} (rising : l.Pairwise (· < ·)) (s : Nat)
    (above : ∀ j ∈ l, s < 2 ^ (k * j)) :
    l.foldl (fun s j => s + f j * 2 ^ (k * j)) s = l.foldl (fun s j => s ||| f j % 2 ^ k * 2 ^ (k * j)) s := by
  induction l generalizing s with
  | nil => rfl
  | cons j l ih =>
    obtain ⟨first, rising⟩ := List.pairwise_cons.mp rising
    have added : s + f j * 2 ^ (k * j) = s ||| f j % 2 ^ k * 2 ^ (k * j) := by
      rw [Nat.mod_eq_of_lt (hf j), Nat.lor_comm, Nat.add_comm, Nat.mul_comm]
      exact Nat.two_pow_add_eq_or_of_lt (above j List.mem_cons_self) _
    have below : s + f j * 2 ^ (k * j) < 2 ^ (k * (j + 1)) := by
      have hs := above j List.mem_cons_self
      have hj : (f j + 1) * 2 ^ (k * j) ≤ 2 ^ k * 2 ^ (k * j) := Nat.mul_le_mul_right _ (hf j)
      rw [Nat.add_mul, Nat.one_mul] at hj
      rw [Nat.mul_succ, Nat.add_comm (k * j), Nat.pow_add]
      omega
    rw [List.foldl_cons, List.foldl_cons, ih rising _ fun i hi =>
      lt_of_lt_of_le below (Nat.pow_le_pow_right (by decide) (Nat.mul_le_mul_left k (first i hi))), added]

/-- A bit of fields of `k` bits that are added in rising order. -/
theorem testBit_addFields {k : Nat} (hk : 0 < k) (f : Nat → Nat) (hf : ∀ j, f j < 2 ^ k) {l : List Nat} (rising : l.Pairwise (· < ·)) (b : Nat) :
    (l.foldl (fun s j => s + f j * 2 ^ (k * j)) 0).testBit b = (decide (b / k ∈ l) && (f (b / k)).testBit (b % k)) := by
  have field := testBit_valFold hk (l.map (fun j => (j, f j))) 0 b
  rw [List.foldl_map, Nat.zero_testBit, Bool.false_or, List.any_map] at field
  rw [foldl_add_fields f hf rising 0 fun _ _ => Nat.two_pow_pos _, field, Bool.eq_iff_iff]
  simp only [List.any_eq_true, Function.comp_apply, Bool.and_eq_true, decide_eq_true_eq]
  exact ⟨fun ⟨j, hj, e, bit⟩ => e ▸ ⟨hj, bit⟩, fun ⟨hj, bit⟩ => ⟨_, hj, rfl, bit⟩⟩

theorem picks_rising (c : LCore) (t : BitVec 4) (m : BitVec 3) (n : BitVec 1) : (c.picks t m n).Pairwise (· < ·) :=
  List.pairwise_lt_range.filter _

theorem picks_nodup (c : LCore) (t : BitVec 4) (m : BitVec 3) (n : BitVec 1) : (c.picks t m n).Nodup := List.nodup_range.filter _

/-- The bits of the lanes of element `j`, all alike (R126). -/
def laneBits (k : Nat) (b : Bool) : Nat := if b then 2 ^ k - 1 else 0

theorem laneBits_lt (k : Nat) (b : Bool) : laneBits k b < 2 ^ k := by
  have := Nat.two_pow_pos k
  unfold laneBits
  split <;> omega

theorem testBit_laneBits {k b : Nat} (x : Bool) (h : b < k) : (laneBits k x).testBit b = x := by
  cases x with
  | false => exact Nat.zero_testBit b
  | true => simp only [laneBits, if_true, Nat.testBit_two_pow_sub_one, h, decide_true]

section
variable {s : State} {i : Instr} {d : BitVec 3} {work : Issued} {fl : Fp.Flags} {uses : List (BitVec 5)} {prep : Ex Capture}
  {act : RingEntry → Ex Issued} {xa xb : W64} (h : s.copReady i = true) (run : exec i s = runCop i uses vecUnit prep act s)
  (captures : prep (s.awaited uses) = .ok { xa := xa, xb := xb } (s.awaited uses))
include h run captures

/-- A vector word whose one write goes to a mask register gives it the bits of `val` that `mask` names. -/
theorem vec_givesMask {mask val : W64} {busy lat : Nat} (works : act (RingEntry.issuing (s.cur.await uses) i { xa := xa, xb := xb })
      ((s.awaited uses).modCur (LCore.issuing i { xa := xa, xb := xb })) =
      .ok { writes := [.m d mask val], busy := busy, lat := lat }
        (((s.awaited uses).modCur (LCore.issuing i { xa := xa, xb := xb })).modCur (fun c => c.raise fl))) :
    GivesMask s i d fl (fun k => if mask.getLsbD k then some (val.getLsbD k) else none) := by
  obtain ⟨t, next, frame, vregs, mregs, xregs, flags⟩ := vec_completed h run captures works ⟨rfl, rfl⟩
  have landed : ∀ q, t.cur.settled.getM q = (s.cur.setM d ((s.cur.getM d &&& ~~~mask) ||| (val &&& mask))).getM q := fun q => by
    rw [LCore.getM, mregs, LCore.getM]
    rfl
  refine ⟨t, next, frame, fun nz k hk => ?_, fun q hq => ?_, vregs.trans rfl, xregs, flags⟩
  · rw [landed, getM_setM, if_pos ⟨rfl, nz⟩]
    simp only [BitVec.getLsbD_or, BitVec.getLsbD_and, BitVec.getLsbD_not, hk, decide_true, Bool.true_and]
    cases mask.getLsbD k <;> simp
  · rw [landed, getM_setM, if_neg fun e : q = d ∧ d ≠ 0 => hq.elim (fun h => h e.1) e.2]

end

theorem GivesMask.congr {s : State} {i : Instr} {d : BitVec 3} {fl fl' : Fp.Flags} {g g' : Nat → Option Bool} (h : GivesMask s i d fl g)
    (flags : fl = fl') (same : ∀ k, k < 64 → g k = g' k) : GivesMask s i d fl' g' := by
  subst flags
  obtain ⟨t, next, frame, bits, rest⟩ := h
  exact ⟨t, next, frame, fun nz k hk => same k hk ▸ bits nz k hk, rest⟩

/-- The mask bits of the lanes of the listed elements, set where `p` holds (R126). -/
def lanesOf (k : Nat) (l : List Nat) (p : Nat → Bool) : W64 := BitVec.ofNat 64 (l.foldl (fun s j => s + laneBits k (p j) * 2 ^ (k * j)) 0)

theorem getLsbD_lanesOf {k b : Nat} (hk : 0 < k) {l : List Nat} (rising : l.Pairwise (· < ·)) (p : Nat → Bool) (hb : b < 64) :
    (lanesOf k l p).getLsbD b = (decide (b / k ∈ l) && p (b / k)) := by
  rw [lanesOf, BitVec.getLsbD_ofNat, testBit_addFields hk _ (fun j => laneBits_lt k _) rising, testBit_laneBits _ (Nat.mod_lt b hk)]
  simp only [hb, decide_true, Bool.true_and]

theorem run_compare {d : BitVec 3} {a b : BitVec 5} {m : BitVec 3} {n : BitVec 1} {t : BitVec 4} {f : Nat → Nat → Bool × Fp.Flags} {e : RingEntry}
    {s : State} {l : List Nat} {r : Nat → Bool × Fp.Flags} (picks : selected e t.toNat (s.cur.getM m) n = l)
    (result : ∀ j, f (elemAt (s.cur.getV a) (Fp.width t.toNat) j) (elemAt (s.cur.getV b) (Fp.width t.toNat) j) = r j) :
    compare d a b m n t f e s =
      .ok { writes := [.m d (lanesOf (elemBytes t.toNat) l (fun _ => true)) (lanesOf (elemBytes t.toNat) l (fun j => (r j).1))], lat := 2 }
        (s.modCur (fun c => c.raise (l.foldl (fun fl j => fl ||| (r j).2) 0))) := by
  subst picks
  refine (run_bind_ok (run_cur s)).trans ((run_bind_ok (run_modCur _ s)).trans ?_)
  simp only [List.foldl_map, result, lanesOf, laneBits, if_true, ite_mul, Nat.zero_mul]
  rfl

/-- The types of a byte or more are those of the codes 0 to 13 (R56). -/
theorem elemBytes_pos {t : Nat} (h : t ≤ 13) : 0 < elemBytes t := by
  unfold elemBytes Fp.width
  split_ifs <;> omega

theorem width_eq_bytes {t : Nat} (h : t ≤ 13) : Fp.width t = 8 * elemBytes t := by
  unfold elemBytes Fp.width
  split_ifs <;> omega

theorem typeIn_iff {t : BitVec 4} {lo hi : Nat} : typeIn t lo hi = true ↔ lo ≤ t.toNat ∧ t.toNat ≤ hi := by
  simp only [typeIn, Bool.and_eq_true, decide_eq_true_eq]

/-- A compare writes the lanes of each element that it takes (R126). -/
theorem compares_of {mk : BitVec 3 → BitVec 5 → BitVec 5 → BitVec 3 → BitVec 1 → BitVec 4 → Instr} {f : Nat → Nat → Nat → Bool × Fp.Flags}
    {g : BitVec 4 → Nat → Nat → Bool × Fp.Flags} (same : ∀ t x y, g t x y = f t.toNat x y) {lo hi : Nat}
    (wf : ∀ d a b m n t, (mk d a b m n t).wf = typeIn t lo hi) (whole : hi ≤ 13)
    (run : ∀ d a b m n t s, exec (mk d a b m n t) s = runCop (mk d a b m n t) [] vecUnit noCapture (compare d a b m n t (g t)) s) :
    Compares mk f := by
  intro s d a b m n t ready w r
  have bytes : 0 < elemBytes t.toNat := elemBytes_pos ((typeIn_iff.mp (wf .. ▸ wf_of_copReady ready)).2.trans whole)
  have work : compare d a b m n t (g t) (RingEntry.issuing (s.cur.await []) (mk d a b m n t) {})
      ((s.awaited []).modCur (LCore.issuing (mk d a b m n t) {})) = _ :=
    run_compare (l := s.cur.picks t m n) (r := r) rfl fun _ => same ..
  refine (vec_givesMask ready (run ..) (run_noCapture (s.awaited [])) work).congr rfl fun k hk => ?_
  rw [getLsbD_lanesOf bytes (picks_rising ..) _ hk, getLsbD_lanesOf bytes (picks_rising ..) _ hk]
  simp only [mem_picks, Bool.decide_eq_true, Bool.and_true]
  split
  next taken => rw [taken, Bool.true_and]
  next => rfl

/-- The ordered compares of floats: false where one is a NaN (R126). -/
theorem floatCompare_ordered (t : BitVec 4) (quiet : Bool) (f : Int → Bool) (x y : Nat) : floatCompare t quiet false f x y =
    (!(Fp.isNaN (Fp.decode t.toNat x) || Fp.isNaN (Fp.decode t.toNat y)) && f (Fp.cmp (Fp.decode t.toNat x) (Fp.decode t.toNat y)),
      if quiet then Fp.sigFlag [Fp.decode t.toNat x, Fp.decode t.toNat y]
      else if Fp.isNaN (Fp.decode t.toNat x) || Fp.isNaN (Fp.decode t.toNat y) then Fp.fNV else 0) := by
  unfold floatCompare
  dsimp only
  cases Fp.isNaN (Fp.decode t.toNat x) || Fp.isNaN (Fp.decode t.toNat y) <;> rfl

/-- The compare that asks whether one is a NaN (R126). -/
theorem floatCompare_unordered (t : BitVec 4) (f : Int → Bool) (x y : Nat) : floatCompare t true true f x y =
    (Fp.isNaN (Fp.decode t.toNat x) || Fp.isNaN (Fp.decode t.toNat y), Fp.sigFlag [Fp.decode t.toNat x, Fp.decode t.toNat y]) := by
  unfold floatCompare
  dsimp only
  cases Fp.isNaN (Fp.decode t.toNat x) || Fp.isNaN (Fp.decode t.toNat y) <;> rfl

/-- A mask operation writes all 64 bits (R136). -/
theorem maskOp_gives {s : State} {i : Instr} {d a b : BitVec 3} {act : RingEntry → Ex Issued} {op : W64 → W64 → W64} {f : Bool → Bool → Bool}
    (h : s.copReady i = true) (run : exec i s = runCop i [] vecUnit noCapture act s)
    (works : ∀ e u, act e u = .ok { writes := [.m d (BitVec.allOnes 64) (op (u.cur.getM a) (u.cur.getM b))] } u)
    (bits : ∀ x y k, k < 64 → (op x y).getLsbD k = f (x.getLsbD k) (y.getLsbD k)) :
    GivesMask s i d 0 (fun k => some (f ((s.cur.getM a).getLsbD k) ((s.cur.getM b).getLsbD k))) := by
  refine (vec_givesMask h run (run_noCapture (s.awaited [])) (fl := 0) ((works ..).trans (congrArg _ (modCur_raise_zero _).symm))).congr rfl fun k hk => ?_
  rw [BitVec.getLsbD_allOnes, if_pos (decide_eq_true hk), bits _ _ k hk]
  rfl

/-- The integer compares (R126). -/
theorem intCompares_of {mk : BitVec 3 → BitVec 5 → BitVec 5 → BitVec 3 → BitVec 1 → BitVec 4 → Instr} {rel : Int → Int → Bool}
    (wf : ∀ d a b m n t, (mk d a b m n t).wf = typeIn t 0 7)
    (run : ∀ d a b m n t s, exec (mk d a b m n t) s = runCop (mk d a b m n t) [] vecUnit noCapture
      (compare d a b m n t (fun x y => (rel (Fp.intVal t.toNat x) (Fp.intVal t.toNat y), 0))) s) :
    Compares mk (fun t x y => (rel (Fp.intVal t x) (Fp.intVal t y), 0)) :=
  compares_of (g := fun t x y => (rel (Fp.intVal t.toNat x) (Fp.intVal t.toNat y), 0)) (fun _ _ _ => rfl) wf (by decide) run

/-- Settles O28: the compares by what they ask of two elements, the mask operations bit by bit. -/
theorem vectorComparesAndMasks : Obligations.VectorComparesAndMasks := by
  unfold Obligations.VectorComparesAndMasks
  refine ⟨⟨?_, ?_, ?_, ?_, ?_, ?_, ?_, ?_⟩, fun s d a b => ⟨fun h => ?_, fun h => ?_, fun h => ?_, fun h => ?_⟩⟩
  case refine_1 => exact intCompares_of (rel := fun x y => decide (x = y)) (fun _ _ _ _ _ _ => rfl) fun _ _ _ _ _ _ _ => rfl
  case refine_2 =>
    have unequal : ∀ x y : Int, decide (x ≠ y) = (x != y) := fun _ _ => decide_not
    simp only [unequal]
    exact intCompares_of (rel := fun x y => x != y) (fun _ _ _ _ _ _ => rfl) fun _ _ _ _ _ _ _ => rfl
  case refine_3 => exact intCompares_of (rel := fun x y => decide (x < y)) (fun _ _ _ _ _ _ => rfl) fun _ _ _ _ _ _ _ => rfl
  case refine_4 => exact intCompares_of (rel := fun x y => decide (x ≤ y)) (fun _ _ _ _ _ _ => rfl) fun _ _ _ _ _ _ _ => rfl
  case refine_5 | refine_6 | refine_7 =>
    exact compares_of (fun t x y => floatCompare_ordered t _ _ x y) (fun _ _ _ _ _ _ => rfl) (by decide) fun _ _ _ _ _ _ _ => rfl
  case refine_8 => exact compares_of (fun t x y => floatCompare_unordered t _ x y) (fun _ _ _ _ _ _ => rfl) (by decide) fun _ _ _ _ _ _ _ => rfl
  · exact maskOp_gives h rfl (fun _ _ => rfl) fun x y k _ => BitVec.getLsbD_and
  · exact maskOp_gives h rfl (fun _ _ => rfl) fun x y k _ => BitVec.getLsbD_or
  · exact maskOp_gives h rfl (fun _ _ => rfl) fun x y k _ => BitVec.getLsbD_xor
  · exact maskOp_gives (op := fun x y => x &&& ~~~y) (f := fun x y => x && !y) h rfl (fun _ _ => rfl) fun x y k hk => by
      simp only [BitVec.getLsbD_and, BitVec.getLsbD_not, hk, decide_true, Bool.true_and]

end Sys2Proof.Machine

namespace Sys2Proof.Machine

/-! ### Words that move elements (R127, R132 to R134) -/

section
variable {s : State} {i : Instr} {uses : List (BitVec 5)} {prep : Ex Capture} {act : RingEntry → Ex Issued} {xa xb : W64}
  {d : BitVec 5} (h : s.copReady i = true) (run : exec i s = runCop i uses vecUnit prep act s)
  (captures : prep (s.awaited uses) = .ok { xa := xa, xb := xb } (s.awaited uses))
include h run captures

/-- A vector word that raises no flag and gives elements of a list. -/
theorem vec_gives {w : Nat} {l : List Nat} {o : Nat → Option Nat} {busy lat : Nat}
    (works : act (RingEntry.issuing (s.cur.await uses) i { xa := xa, xb := xb })
      ((s.awaited uses).modCur (LCore.issuing i { xa := xa, xb := xb })) =
      .ok { writes := [elemWrite d w (listed l o)], busy := busy, lat := lat }
        ((s.awaited uses).modCur (LCore.issuing i { xa := xa, xb := xb })))
    (hw : 0 < w) (hn : l.Nodup) : GivesElems s i d w 0 (fun j => if j ∈ l then o j else none) :=
  vec_givesElems h run captures (works.trans (congrArg _ (modCur_raise_zero _).symm)) hw hn

/-- The same, for a word that gives every element of its list. -/
theorem vec_givesAll {w : Nat} {l : List Nat} {f : Nat → Nat} {busy lat : Nat}
    (works : act (RingEntry.issuing (s.cur.await uses) i { xa := xa, xb := xb })
      ((s.awaited uses).modCur (LCore.issuing i { xa := xa, xb := xb })) =
      .ok { writes := [elemWrite d w (l.map (fun j => (j, f j)))], busy := busy, lat := lat }
        ((s.awaited uses).modCur (LCore.issuing i { xa := xa, xb := xb })))
    (hw : 0 < w) (hn : l.Nodup) : GivesElems s i d w 0 (fun j => if j ∈ l then some (f j) else none) := by
  rw [← listed_some] at works
  exact vec_gives h run captures works hw hn

/-- A word that moves elements to those that it takes. -/
theorem move_gives {t : BitVec 4} {m : BitVec 3} {n : BitVec 1} {o : Nat → Option Nat} {busy lat : Nat}
    (works : act (RingEntry.issuing (s.cur.await uses) i { xa := xa, xb := xb })
      ((s.awaited uses).modCur (LCore.issuing i { xa := xa, xb := xb })) =
      .ok (moveWrite d t.toNat ((s.cur.picks t m n).map (fun j => (j, o j))) busy lat)
        ((s.awaited uses).modCur (LCore.issuing i { xa := xa, xb := xb }))) :
    GivesElems s i d (Fp.width t.toNat) 0 (fun j => if s.cur.takes t m n j then o j else none) := by
  simp only [moveWrite_listed] at works
  exact (vec_gives h run captures works (width_pos _) (picks_nodup ..)).congr rfl fun j _ => by simp only [mem_picks]

end

/-- In a list that rises each element has below it those that stand before it. -/
theorem countBelow_getElem {l : List Nat} (rising : l.Pairwise (· < ·)) {k : Nat} (hk : k < l.length) : countBelow l l[k] = k := by
  have split : l = l.take k ++ l.drop k := (List.take_append_drop k l).symm
  have before : (l.take k).filter (fun x => decide (x < l[k])) = l.take k := List.filter_eq_self.mpr fun x hx => by
    obtain ⟨j, hj, rfl⟩ := List.getElem_of_mem hx
    rw [List.getElem_take]
    exact decide_eq_true (List.pairwise_iff_getElem.mp rising _ _ _ _ (by rw [List.length_take] at hj; omega))
  have after : (l.drop k).filter (fun x => decide (x < l[k])) = [] := List.filter_eq_nil_iff.mpr fun x hx => by
    obtain ⟨j, hj, rfl⟩ := List.getElem_of_mem hx
    rw [List.getElem_drop, decide_eq_true_eq, Nat.not_lt]
    rcases Nat.eq_zero_or_pos j with rfl | hp
    · exact le_refl _
    · exact (List.pairwise_iff_getElem.mp rising k (k + j) hk _ (by omega)).le
  rw [countBelow, show l.filter (fun x => decide (x < l[k])) = (l.take k).filter (fun x => decide (x < l[k])) ++
    (l.drop k).filter (fun x => decide (x < l[k])) by rw [← List.filter_append, ← split], before, after, List.append_nil, List.length_take,
    Nat.min_eq_left hk.le]

/-- The elements of a rising list, in the places that `vcompress` gives them (R134). -/
theorem compressed_eq {l : List Nat} (rising : l.Pairwise (· < ·)) (f : Nat → Nat) :
    l.map (fun j => (countBelow l j, some (f j))) = (List.range l.length).map (fun k => (k, (l[k]?).map f)) := by
  refine List.ext_getElem (by simp) fun k hk _ => ?_
  rw [List.length_map] at hk
  simp [countBelow_getElem rising hk, hk]

section
variable {s : State} {d a b : BitVec 5} {m : BitVec 3} {n : BitVec 1} {t : BitVec 4}

/-- `vsel` gives every active element (R127). -/
theorem vsel_gives (h : s.copReady (.vsel d a b m n t) = true) : GivesElems s (.vsel d a b m n t) d (Fp.width t.toNat) 0 (fun j =>
    if j < activeElems s.cur.vl t.toNat then some (if laneSel (s.cur.getM m) n (elemBytes t.toNat * j)
      then elemAt (s.cur.getV a) (Fp.width t.toNat) j else elemAt (s.cur.getV b) (Fp.width t.toNat) j) else none) := by
  refine (vec_givesAll h rfl (run_noCapture (s.awaited [])) (l := List.range (activeElems s.cur.vl t.toNat)) (f := fun j =>
    elemAt (if laneSel (s.cur.getM m) n (elemBytes t.toNat * j) then s.cur.getV a else s.cur.getV b) (Fp.width t.toNat) j)
    rfl (width_pos _) List.nodup_range).congr rfl fun j _ => ?_
  simp only [List.mem_range, apply_ite (elemAt · (Fp.width t.toNat) j)]

/-- `vcompress` gives the selected elements one after another (R134). -/
theorem vcompress_gives (h : s.copReady (.vcompress d a m n t) = true) : GivesElems s (.vcompress d a m n t) d (Fp.width t.toNat) 0
    (fun j => ((s.cur.picks t m n)[j]?).map (elemAt (s.cur.getV a) (Fp.width t.toNat))) := by
  have works : actVcompress d a m n t (RingEntry.issuing (s.cur.await []) (.vcompress d a m n t) {})
      ((s.awaited []).modCur (LCore.issuing (.vcompress d a m n t) {})) = .ok (moveWrite d t.toNat ((s.cur.picks t m n).map (fun j =>
        (countBelow (s.cur.picks t m n) j, some (elemAt (s.cur.getV a) (Fp.width t.toNat) j)))) 1 3) _ := rfl
  rw [compressed_eq (picks_rising ..), moveWrite_listed] at works
  refine (vec_gives h rfl (run_noCapture (s.awaited [])) works (width_pos _) List.nodup_range).congr rfl fun j _ => ?_
  by_cases inside : j < (s.cur.picks t m n).length
  · rw [if_pos (List.mem_range.mpr inside)]
  · rw [if_neg (mt List.mem_range.mp inside), List.getElem?_eq_none (Nat.not_lt.mp inside)]
    rfl

/-- `vbcast` gives the low bits of an x register (R133). -/
theorem vbcast_gives (h : s.copReady (.vbcast d a m n t) = true) : GivesElems s (.vbcast d a m n t) d (Fp.width t.toNat) 0
    (fun j => if s.cur.takes t m n j then some (s.cur.getX a).toNat else none) := by
  refine (move_gives h rfl (run_captureX a 0 (s.awaited [a])) (o := fun _ => some ((s.cur.getX a).toNat % 2 ^ Fp.width t.toNat)) rfl).congr rfl fun j _ => ?_
  split
  · exact congrArg some (Nat.mod_mod ..)
  · rfl

/-- `vins` gives one element, where the register has it (R133). -/
theorem vins_gives (h : s.copReady (.vins d a b t) = true) : GivesElems s (.vins d a b t) d (Fp.width t.toNat) 0
    (fun j => if j = (s.cur.getX b).toNat then some (s.cur.getX a).toNat else none) := by
  have one : (if (s.cur.getX b).toNat < 512 / Fp.width t.toNat then [((s.cur.getX b).toNat, (s.cur.getX a).toNat % 2 ^ Fp.width t.toNat)] else []) =
      (if (s.cur.getX b).toNat < 512 / Fp.width t.toNat then [(s.cur.getX b).toNat] else []).map
        (fun j => (j, (s.cur.getX a).toNat % 2 ^ Fp.width t.toNat)) := by
    split <;> rfl
  have works : actVins d a b t (RingEntry.issuing (s.cur.await [a, b]) (.vins d a b t) { xa := s.cur.getX a, xb := s.cur.getX b })
      ((s.awaited [a, b]).modCur (LCore.issuing (.vins d a b t) { xa := s.cur.getX a, xb := s.cur.getX b })) =
      .ok { writes := [elemWrite d (Fp.width t.toNat) (if (s.cur.getX b).toNat < 512 / Fp.width t.toNat
        then [((s.cur.getX b).toNat, (s.cur.getX a).toNat % 2 ^ Fp.width t.toNat)] else [])], lat := 2 } _ := rfl
  rw [one] at works
  refine (vec_givesAll h rfl (run_captureX a b (s.awaited [a, b])) works (width_pos _) (by split <;> simp)).congr rfl fun j hj => ?_
  by_cases at_ : j = (s.cur.getX b).toNat
  · rw [if_pos at_, if_pos (by rw [← at_, if_pos hj]; exact List.mem_singleton_self j)]
    exact congrArg some (Nat.mod_mod ..)
  · rw [if_neg at_, if_neg (by split <;> simp [at_])]

end

/-- Settles O29: each word by the places that its elements come from. -/
theorem vectorMoves : Obligations.VectorMoves := by
  unfold Obligations.VectorMoves
  intro s d a b m n t w va vb cnt xb sel taken
  refine ⟨vsel_gives, fun h => ?_, fun h => ?_, fun h => ?_, vbcast_gives, fun h => ?_, vcompress_gives, fun h => ?_, fun h => ?_, vins_gives⟩
  case refine_2 | refine_3 => exact move_gives h rfl (run_captureX 0 b (s.awaited [b])) rfl
  all_goals exact move_gives h rfl (run_noCapture (s.awaited [])) rfl

end Sys2Proof.Machine

namespace Sys2Proof.Machine

/-! ### Conversions and quantisation (R128, R129) -/

section
variable {s : State} {i : Instr} {uses : List (BitVec 5)} {prep : Ex Capture} {act : RingEntry → Ex Issued} {xa xb : W64}
  {d : BitVec 5} (h : s.copReady i = true) (run : exec i s = runCop i uses vecUnit prep act s)
  (captures : prep (s.awaited uses) = .ok { xa := xa, xb := xb } (s.awaited uses))
include h run captures

/-- A vector word that gives every element of a list, each with its flags. -/
theorem vec_givesEach {w : Nat} {l : List Nat} {f : Nat → Nat × Fp.Flags} {busy lat : Nat}
    (works : act (RingEntry.issuing (s.cur.await uses) i { xa := xa, xb := xb })
      ((s.awaited uses).modCur (LCore.issuing i { xa := xa, xb := xb })) =
      .ok { writes := [elemWrite d w ((l.map (fun j => (j, f j))).map (fun x => (x.1, x.2.1)))], busy := busy, lat := lat }
        (((s.awaited uses).modCur (LCore.issuing i { xa := xa, xb := xb })).modCur
          (fun c => c.raise ((l.map (fun j => (j, f j))).foldl (fun fl x => fl ||| x.2.2) 0))))
    (hw : 0 < w) (hn : l.Nodup) :
    GivesElems s i d w (l.foldl (fun fl j => fl ||| (f j).2) 0) (fun j => if j ∈ l then some (f j).1 else none) := by
  rw [List.map_map, List.foldl_map, show (fun x : Nat × Nat × Fp.Flags => (x.1, x.2.1)) ∘ (fun j => (j, f j)) = fun j => (j, (f j).1) from rfl,
    ← listed_some] at works
  exact vec_givesElems h run captures works hw hn

/-- A vector word that gives element 0 alone, with flags. -/
theorem vec_givesFirst {w x : Nat} {fl : Fp.Flags} {busy lat : Nat}
    (works : act (RingEntry.issuing (s.cur.await uses) i { xa := xa, xb := xb })
      ((s.awaited uses).modCur (LCore.issuing i { xa := xa, xb := xb })) =
      .ok { writes := [elemWrite d w [(0, x)]], busy := busy, lat := lat }
        (((s.awaited uses).modCur (LCore.issuing i { xa := xa, xb := xb })).modCur (fun c => c.raise fl)))
    (hw : 0 < w) : GivesElems s i d w fl (fun j => if j = 0 then some x else none) := by
  have one : [(0, x)] = listed [0] (fun _ => some x) := rfl
  rw [one] at works
  refine (vec_givesElems h run captures works hw (List.nodup_singleton 0)).congr rfl fun j _ => ?_
  simp only [List.mem_singleton]

end

/-- A conversion gives the elements that it selects, counted by the wider of its types (R128). -/
theorem convert_gives {s : State} {i : Instr} {ov : Fp.Over} {d a : BitVec 5} {ty t : BitVec 4} {m : BitVec 3} {n : BitVec 1}
    (h : s.copReady i = true) (run : exec i s = runCop i [] vecUnit noCapture (convertVec ov d a ty m n t) s) {wm : Nat}
    (wider : max (Fp.width t.toNat) (Fp.width ty.toNat) = wm) {sel : Nat → Bool}
    (selects : ∀ j, sel j = (decide (j < s.cur.vl.toNat * 8 / wm) && laneSel (s.cur.getM m) n (j * wm / 8))) {r : Nat → Nat × Fp.Flags}
    (result : ∀ j, r j = Fp.cvt ty.toNat t.toNat (elemAt (s.cur.getV a) (Fp.width ty.toNat) j) s.cur.mode j ov) :
    GivesElems s i d (Fp.width t.toNat) (((List.range (s.cur.vl.toNat * 8 / wm)).filter sel).foldl (fun fl j => fl ||| (r j).2) 0)
      (fun j => if sel j then some (r j).1 else none) := by
  subst wider
  obtain rfl : r = _ := funext result
  have picked : (List.range (s.cur.vl.toNat * 8 / max (Fp.width t.toNat) (Fp.width ty.toNat))).filter sel = (List.range _).filter
      (fun j => laneSel (s.cur.getM m) n (j * max (Fp.width t.toNat) (Fp.width ty.toNat) / 8)) := List.filter_congr fun j hj => by
    rw [selects, decide_eq_true (List.mem_range.mp hj), Bool.true_and]
  rw [picked]
  refine (vec_givesEach h run (run_noCapture (s.awaited [])) (f := fun j => Fp.cvt ty.toNat t.toNat
    (elemAt (s.cur.getV a) (Fp.width ty.toNat) j) s.cur.mode j ov) (by rfl) (width_pos _) (List.nodup_range.filter _)).congr rfl fun j _ => ?_
  simp only [← picked, List.mem_filter, List.mem_range, selects, Bool.and_eq_true, decide_eq_true_eq, and_self_left]

theorem ofNat_mod_two_pow (w x : Nat) : BitVec.ofNat w (x % 2 ^ w) = BitVec.ofNat w x :=
  BitVec.eq_of_toNat_eq (by simp only [BitVec.toNat_ofNat, Nat.mod_mod])

theorem ofNat_two_pow_sub_one (w : Nat) : BitVec.ofNat w (2 ^ w - 1) = BitVec.allOnes w :=
  BitVec.eq_of_toNat_eq (by rw [BitVec.toNat_ofNat, BitVec.toNat_allOnes, Nat.mod_eq_of_lt (Nat.sub_lt (Nat.two_pow_pos w) Nat.one_pos)])

/-- The one element that is the whole register. -/
theorem elemWrite_whole (d : BitVec 5) (x : Nat) : elemWrite d 512 [(0, x)] = .v d (BitVec.allOnes 512) (BitVec.ofNat 512 x) := by
  simp only [elemWrite, List.foldl_cons, List.foldl_nil, Nat.mul_zero, Nat.pow_zero, Nat.mul_one, Nat.zero_or, ofNat_mod_two_pow,
    ofNat_two_pow_sub_one]

/-- The work of `vquant`, whose result is one element of 512 bits (R129). -/
theorem run_quantVec {d a b : BitVec 5} {t : BitVec 4} (e : RingEntry) {s : State} {r : Nat × Fp.Flags}
    (result : (if t = 15 then quantQ4 (fp32s s.cur a 4) (elemAt (s.cur.getV b) 32 0) else quantMx t.toNat (fp32s s.cur a 2) s.cur.mode) = r) :
    quantVec d a b t e s = .ok { writes := [elemWrite d 512 [(0, r.1)]], busy := 2, lat := 8 } (s.modCur (fun c => c.raise r.2)) := by
  refine (run_bind_ok (run_cur s)).trans ?_
  rw [result, elemWrite_whole]
  exact run_bind_ok (run_modCur _ s)

/-- Settles O30: conversions element by element, counted by the wider type, and a block as the one element of the whole register. -/
theorem vectorConversions : Obligations.VectorConversions := by
  unfold Obligations.VectorConversions
  refine ⟨fun s d a ty t m n => ⟨fun h => ?_, fun h => ?_⟩, fun s d a b t h => ?_⟩
  · exact convert_gives h rfl rfl (fun _ => rfl) fun _ => rfl
  · exact convert_gives h rfl rfl (fun _ => rfl) fun _ => rfl
  · intro xs r
    have works : quantVec d a b t (RingEntry.issuing (s.cur.await []) (.vquant d a b t) {})
      ((s.awaited []).modCur (LCore.issuing (.vquant d a b t) {})) = _ := run_quantVec _ (r := r) rfl
    have given := vec_givesFirst h rfl (run_noCapture (s.awaited [])) works (by decide)
    exact given.congr rfl fun j hj => by rw [if_pos (by omega)]

/-! ### Reductions and scans (R130, R131) -/

theorem run_reduce {op : Nat} {d a : BitVec 5} {m : BitVec 3} {n : BitVec 1} {t : BitVec 4} {e : RingEntry} {s : State} {r : Node × Fp.Flags}
    (tree : redTree op t s.cur.mode 8 1 (nodesOf (s.cur.getV a) t e (s.cur.getM m) n) = r) : reduce op d a m n t e s =
      .ok { writes := [elemWrite d (Fp.width t.toNat) [(0, r.1.getD (identity op t))]], lat := figRed t } (s.modCur (fun c => c.raise r.2)) := by
  refine (run_bind_ok (run_cur s)).trans ?_
  rw [tree]
  exact run_bind_ok (run_modCur _ s)

theorem run_scan {op : Nat} {d a : BitVec 5} {m : BitVec 3} {n : BitVec 1} {t : BitVec 4} {e : RingEntry} {s : State} {r : List Node × Fp.Flags}
    {l : List Nat} (net : scanNet op t s.cur.mode (nodesOf (s.cur.getV a) t e (s.cur.getM m) n) = r) (picks : selected e t.toNat (s.cur.getM m) n = l) :
    scan op d a m n t e s = .ok { writes := [elemWrite d (Fp.width t.toNat) (l.map (fun j => (j, (r.1.getD j none).getD 0)))], lat := figRed t }
      (s.modCur (fun c => c.raise r.2)) := by
  refine (run_bind_ok (run_cur s)).trans ?_
  rw [net, picks]
  exact run_bind_ok (run_modCur _ s)

section
variable {s : State} {i : Instr} {d a : BitVec 5} {m : BitVec 3} {n : BitVec 1} {t : BitVec 4} {op : Nat} (h : s.copReady i = true)
include h

/-- A reduction writes element 0 (R130). -/
theorem reduce_gives (run : exec i s = runCop i [] vecUnit noCapture (reduce op d a m n t) s) :
    GivesElems s i d (Fp.width t.toNat) (redTree op t s.cur.mode 8 1 (s.cur.nodes a t m n)).2
      (fun j => if j = 0 then some ((redTree op t s.cur.mode 8 1 (s.cur.nodes a t m n)).1.getD (identity op t)) else none) := by
  have works : reduce op d a m n t (RingEntry.issuing (s.cur.await []) i {}) ((s.awaited []).modCur (LCore.issuing i {})) = _ :=
    run_reduce (r := redTree op t s.cur.mode 8 1 (s.cur.nodes a t m n)) (by rfl)
  exact vec_givesFirst h run (run_noCapture (s.awaited [])) works (width_pos _)

/-- A scan writes the elements that it takes (R131). -/
theorem scan_gives (run : exec i s = runCop i [] vecUnit noCapture (scan op d a m n t) s) :
    GivesElems s i d (Fp.width t.toNat) (scanNet op t s.cur.mode (s.cur.nodes a t m n)).2 (fun j => if s.cur.takes t m n j then
      some (((scanNet op t s.cur.mode (s.cur.nodes a t m n)).1.getD j none).getD 0) else none) := by
  have works : scan op d a m n t (RingEntry.issuing (s.cur.await []) i {}) ((s.awaited []).modCur (LCore.issuing i {})) = _ :=
    run_scan (r := scanNet op t s.cur.mode (s.cur.nodes a t m n)) (l := s.cur.picks t m n) (by rfl) rfl
  rw [← listed_some] at works
  exact (vec_givesElems h run (run_noCapture (s.awaited [])) works (width_pos _) (picks_nodup ..)).congr rfl fun j _ => by simp only [mem_picks]

end

end Sys2Proof.Machine

namespace Sys2Proof.Machine

/-! The value of the tree of R130, where the nodes combine to a value that does not depend on its shape. -/

section
variable {M : Type} {f : M → M → M} {e : M} {φ : Nat → M} {op : Nat} {t : BitVec 4}

/-- What the nodes of a level come to, in order; an absent one adds nothing. -/
def nodesTotal (f : M → M → M) (e : M) (φ : Nat → M) (l : List Node) : M := l.foldr (fun x r => x.elim r (fun a => f (φ a) r)) e

theorem nodesTotal_cons (x : Node) (l : List Node) :
    nodesTotal f e φ (x :: l) = x.elim (nodesTotal f e φ l) (fun a => f (φ a) (nodesTotal f e φ l)) := rfl

/-- The nodes combine exactly, as `f` does on the values `φ` of two nodes. -/
structure Combines (f : M → M → M) (e : M) (φ : Nat → M) (op : Nat) (t : BitVec 4) : Prop where
  assoc : ∀ x y z, f (f x y) z = f x (f y z)
  right : ∀ x, f x e = x
  value : ∀ md i a b, φ (comb op t md i a b).1 = f (φ a) (φ b)
  quiet : ∀ md i a b, (comb op t md i a b).2 = 0

theorem Combines.combNode (h : Combines f e φ op t) (md : Fp.Mode) (i : Nat) (x y : Node) (l : List Node) :
    (combNode op t md i x y).2 = 0 ∧ nodesTotal f e φ ((combNode op t md i x y).1 :: l) = nodesTotal f e φ (x :: y :: l) := by
  cases x with
  | none => exact ⟨rfl, rfl⟩
  | some a =>
    cases y with
    | none => exact ⟨rfl, rfl⟩
    | some b =>
      refine ⟨h.quiet md i a b, ?_⟩
      show f (φ (comb op t md i a b).1) (nodesTotal f e φ l) = f (φ a) (f (φ b) (nodesTotal f e φ l))
      rw [h.value, h.assoc]

/-- A level halves the nodes and keeps what they come to. -/
theorem Combines.redLevel (h : Combines f e φ op t) (md : Fp.Mode) (w : Nat) : ∀ (l : List Node) (i : Nat),
    (redLevel op t md w i l).2 = 0 ∧ nodesTotal f e φ (redLevel op t md w i l).1 = nodesTotal f e φ l ∧
      2 * (redLevel op t md w i l).1.length ≤ l.length + 1
  | [], _ => ⟨rfl, rfl, Nat.zero_le _⟩
  | [_], _ => ⟨rfl, rfl, le_refl _⟩
  | x :: y :: l, i => by
    obtain ⟨quiet, total, half⟩ := h.redLevel md w l (i + 2 * w)
    obtain ⟨flags, node⟩ := h.combNode md i x y (Machine.redLevel op t md w (i + 2 * w) l).1
    refine ⟨?_, ?_, ?_⟩
    · show (Machine.combNode op t md i x y).2 ||| (Machine.redLevel op t md w (i + 2 * w) l).2 = 0
      rw [flags, quiet]
      rfl
    · refine node.trans ?_
      rw [nodesTotal_cons, nodesTotal_cons, total, nodesTotal_cons, nodesTotal_cons]
    · show 2 * ((Machine.redLevel op t md w (i + 2 * w) l).1.length + 1) ≤ l.length + 1 + 1 + 1
      omega

/-- A tree over enough levels raises nothing, and its value is what its leaves come to. -/
theorem Combines.redTree (h : Combines f e φ op t) (md : Fp.Mode) (fuel w : Nat) (l : List Node) (levels : l.length ≤ 2 ^ fuel) :
    (redTree op t md fuel w l).2 = 0 ∧ (redTree op t md fuel w l).1.elim e φ = nodesTotal f e φ l := by
  have one : ∀ l : List Node, l.length ≤ 1 → (l.headD none).elim e φ = nodesTotal f e φ l := fun l hl => by
    match l, hl with
    | [], _ => rfl
    | [none], _ => rfl
    | [some a], _ => exact (h.right _).symm
  induction fuel generalizing w l with
  | zero => exact ⟨rfl, one l levels⟩
  | succ fuel ih =>
    unfold Machine.redTree
    split
    next small => exact ⟨rfl, one l small⟩
    · obtain ⟨quiet, total, half⟩ := h.redLevel md w l 0
      obtain ⟨flags, value⟩ := ih (2 * w) (Machine.redLevel op t md w 0 l).1 (by rw [Nat.pow_succ] at levels; omega)
      exact ⟨by show _ ||| _ = _; rw [quiet, flags]; rfl, value.trans total⟩
end

theorem intBits_cast (t : Nat) (z : Int) : (Fp.intBits t z : ZMod (2 ^ Fp.width t)) = z := by
  have low : ((Fp.intBits t z : Nat) : Int) = z % (2 ^ Fp.width t : Nat) := by
    rw [Fp.intBits, Int.toNat_of_nonneg (Int.emod_nonneg _ (by positivity))]
    norm_cast
  rw [← Int.cast_natCast, low, ZMod.intCast_mod]

theorem intVal_cast (t x : Nat) : (Fp.intVal t x : ZMod (2 ^ Fp.width t)) = x := by
  unfold Fp.intVal
  split
  · rw [sextNat, BitVec.toInt_eq_toNat_bmod, BitVec.toNat_ofNat, ← Int.cast_natCast (R := ZMod _) x, ZMod.intCast_eq_intCast_iff]
    refine Int.bmod_emod.trans ?_
    rw [Int.natCast_mod, Int.emod_emod_of_dvd _ (dvd_refl _)]
  · rw [Int.cast_natCast, ZMod.natCast_mod]

/-- Integer sums modulo the width (R124, R130). -/
theorem combines_add {t : BitVec 4} (int : Fp.isFloat t.toNat = false) :
    Combines (· + ·) 0 (fun x : Nat => (x : ZMod (2 ^ Fp.width t.toNat))) 0 t where
  assoc := add_assoc
  right := add_zero
  value md i a b := by
    simp only [comb, arith, int, if_true, Bool.false_eq_true, if_false]
    exact (intBits_cast ..).trans (by rw [Int.cast_add, intVal_cast, intVal_cast])
  quiet md i a b := by simp only [comb, arith, int, if_true, Bool.false_eq_true, if_false]

/-- Unions (R130). -/
theorem combines_or (t : BitVec 4) : Combines (· ||| ·) 0 id 3 t where
  assoc := Nat.or_assoc
  right := Nat.or_zero
  value _ _ _ _ := rfl
  quiet _ _ _ _ := rfl

theorem nodesTotal_nodes {M : Type} (f : M → M → M) (e : M) (φ : Nat → M) (c : LCore) (a : BitVec 5) (t : BitVec 4) (m : BitVec 3) (n : BitVec 1) :
    nodesTotal f e φ (c.nodes a t m n) =
      ((c.picks t m n).map (elemAt (c.getV a) (Fp.width t.toNat))).foldr (fun x r => f (φ x) r) e := by
  unfold LCore.nodes LCore.picks
  induction List.range (activeElems c.vl t.toNat) with
  | nil => rfl
  | cons j l ih =>
    rw [List.map_cons, nodesTotal_cons, ih, List.filter_cons]
    split <;> simp

theorem nodes_levels (c : LCore) (a : BitVec 5) (t : BitVec 4) (m : BitVec 3) (n : BitVec 1) : (c.nodes a t m n).length ≤ 2 ^ 8 := by
  have bytes : c.vl.toNat / elemBytes t.toNat ≤ c.vl.toNat := Nat.div_le_self ..
  have := c.vl.isLt
  simp only [LCore.nodes, List.length_map, List.length_range, activeElems]
  omega

section
variable {s : State} {d a : BitVec 5} {m : BitVec 3} {n : BitVec 1} {t : BitVec 4}

/-- On integers the sum of a reduction is that of the elements it takes, modulo the width (R124, R130). -/
theorem vredAdd_sum (h : s.copReady (.vredAdd d a m n t) = true) (int : Fp.isFloat t.toNat = false) :
    GivesElems s (.vredAdd d a m n t) d (Fp.width t.toNat) 0
      (fun j => if j = 0 then some ((s.cur.picks t m n).map (elemAt (s.cur.getV a) (Fp.width t.toNat))).sum else none) := by
  obtain ⟨quiet, value⟩ := (combines_add int).redTree s.cur.mode 8 1 (s.cur.nodes a t m n) (nodes_levels ..)
  refine (reduce_gives h rfl).congr quiet fun j _ => ?_
  split
  · rw [nodesTotal_nodes] at value
    refine congrArg some ((ZMod.natCast_eq_natCast_iff' ..).mp ?_)
    rw [Nat.cast_list_sum, List.sum_eq_foldr, List.foldr_map, ← value]
    cases (redTree 0 t s.cur.mode 8 1 (s.cur.nodes a t m n)).1 with
    | none => exact Nat.cast_zero
    | some x => rfl
  · rfl

/-- The `or` of a reduction is the union of the elements that it takes (R130). -/
theorem vredOr_union (h : s.copReady (.vredOr d a m n t) = true) :
    GivesElems s (.vredOr d a m n t) d (Fp.width t.toNat) 0
      (fun j => if j = 0 then some (((s.cur.picks t m n).map (elemAt (s.cur.getV a) (Fp.width t.toNat))).foldl (· ||| ·) 0) else none) := by
  obtain ⟨quiet, value⟩ := (combines_or t).redTree s.cur.mode 8 1 (s.cur.nodes a t m n) (nodes_levels ..)
  refine (reduce_gives h rfl).congr quiet fun j _ => ?_
  split
  · rw [nodesTotal_nodes] at value
    rw [List.foldl_eq_foldr, ← show _ = List.foldr (· ||| ·) 0 _ from value]
    cases (redTree 3 t s.cur.mode 8 1 (s.cur.nodes a t m n)).1 <;> rfl
  · rfl
end

/-- Settles O31: words of reduction and of scan by their network, integer sums and unions by a value of the tree that no shape of it changes. -/
theorem reductionsAndScans : Obligations.ReductionsAndScans := by
  unfold Obligations.ReductionsAndScans
  refine ⟨⟨fun s d a m n t => ⟨fun h => ?_, fun h => ?_, fun h => ?_, fun h => ?_⟩,
    fun s d a m n t int => ⟨fun h => vredAdd_sum h int, vredOr_union⟩⟩, fun s d a m n t => ⟨fun h => ?_, fun h => ?_, fun h => ?_, fun h => ?_⟩⟩
  case refine_1 | refine_2 | refine_3 | refine_4 => exact reduce_gives h rfl
  all_goals exact scan_gives h rfl

end Sys2Proof.Machine

namespace Sys2Proof.Machine

/-! ### The top elements and the exact sums (R137 to R139) -/

/-- The entries of a list whose numbers `p` names, each with its number. -/
theorem zipIdx_listed {M : Type} (l : List M) (p : Nat → Bool) (g : M → Nat) :
    (l.zipIdx.filter (fun x => p x.2)).map (fun x => (x.2, g x.1)) =
      listed (List.range l.length) (fun j => if p j then (l[j]?).map g else none) := by
  induction l using List.reverseRecOn with
  | nil => rfl
  | append_singleton l x ih =>
    have front : listed (List.range l.length) (fun j => if p j then ((l ++ [x])[j]?).map g else none) =
        listed (List.range l.length) (fun j => if p j then (l[j]?).map g else none) :=
      List.filterMap_congr fun j hj => by simp only [List.getElem?_append_left (List.mem_range.mp hj)]
    rw [List.length_append, List.length_singleton, List.range_succ, listed, List.filterMap_append, ← listed, front, ← ih, List.zipIdx_append,
      List.filter_append, List.map_append]
    cases taken : p l.length <;> simp [taken]

section
variable {d a b : BitVec 5} {m : BitVec 3} {n : BitVec 1} {t : BitVec 4} {e : RingEntry} {s : State}

theorem run_vxacc {anchor : Int} {sel : List Nat} {r : List Int × Fp.Flags} (at_ : nearAnchor e.xb = anchor)
    (picks : selected e t.toNat (s.cur.getM m) n = sel)
    (sums : xaccAll anchor t (s.cur.getV a) sel ((List.range 4).map (laneVal (s.cur.getV d)), 0) = r) :
    actVxacc d a b m n t e s = .ok { writes := [elemWrite d 128 (listed (List.range r.1.length) (fun j =>
        if sel.any (fun k => k % 4 == j) then (r.1[j]?).map (fun x => (BitVec.ofInt 128 x).toNat) else none))], lat := 4 }
      (s.modCur (fun c => c.raise r.2)) := by
  refine (run_bind_ok (run_cur s)).trans ?_
  rw [at_, picks, sums, ← zipIdx_listed]
  exact run_bind_ok (run_modCur _ s)

theorem run_vxrnd {r : Nat × Fp.Flags} (result : (if ((List.range 4).map (laneVal (s.cur.getV a))).any (fun x => x == poison)
      then (Fp.canonNaN t.toNat, Fp.fNV) else Fp.round (.fin (((List.range 4).map (laneVal (s.cur.getV a))).foldl (· + ·) 0 < 0)
        (((List.range 4).map (laneVal (s.cur.getV a))).foldl (· + ·) 0).natAbs (nearAnchor e.xb - 96)) t.toNat s.cur.mode 0) = r) :
    actVxrnd d a b t e s = .ok { writes := [elemWrite d (Fp.width t.toNat) [(0, r.1)]], lat := 6 } (s.modCur (fun c => c.raise r.2)) := by
  refine (run_bind_ok (run_cur s)).trans ?_
  rw [result]
  exact run_bind_ok (run_modCur _ s)

theorem run_vtopk {k : Nat} {sel order : List Nat} {fl : Fp.Flags} (count : min e.xb.toNat (activeElems e.vl t.toNat) = k)
    (picks : selected e t.toNat (s.cur.getM m) n = sel) (ordered : sel.foldl (fun l j => topInsert t (s.cur.getV a) j l) [] = order)
    (flags : Fp.sigFlag (sel.map (fun j => Fp.value t.toNat (elemAt (s.cur.getV a) (Fp.width t.toNat) j))) = fl) :
    actVtopk d a b m n t e s = .ok { writes := [elemWrite d (Fp.width t.toNat) (listed (List.range k) (fun j =>
      some (order.getD j (2 ^ Fp.width t.toNat - 1))))], busy := 2, lat := 12 } (s.modCur (fun c => c.raise fl)) := by
  refine (run_bind_ok (run_cur s)).trans ?_
  rw [picks, flags, ordered, count, ← moveWrite_listed]
  exact run_bind_ok (run_modCur _ s)

end

/-- Settles O32: `vtopk` lists the order of R137, `vxacc` the lanes that elements go to, and `vxrnd` gives element 0. -/
theorem topElementsAndExactSums : Obligations.TopElementsAndExactSums := by
  unfold Obligations.TopElementsAndExactSums
  intro s d a b m n t w sel order anchor acc lanes sum rnd
  have captured := run_captureX 0 b (s.awaited [b])
  refine ⟨fun h => ?_, fun h => ?_, fun h => ?_⟩
  · have works : actVtopk d a b m n t (RingEntry.issuing (s.cur.await [b]) (.vtopk d a b m n t) { xb := s.cur.getX b })
      ((s.awaited [b]).modCur (LCore.issuing (.vtopk d a b m n t) { xb := s.cur.getX b })) = _ :=
      run_vtopk (sel := sel) (order := order) (k := min (s.cur.getX b).toNat (activeElems s.cur.vl t.toNat)) rfl rfl rfl rfl
    exact (vec_givesElems h rfl captured works (width_pos _) List.nodup_range).congr rfl fun j _ => by simp only [List.mem_range]; rfl
  · have works : actVxacc d a b m n t (RingEntry.issuing (s.cur.await [b]) (.vxacc d a b m n t) { xb := s.cur.getX b })
      ((s.awaited [b]).modCur (LCore.issuing (.vxacc d a b m n t) { xb := s.cur.getX b })) = _ :=
      run_vxacc (anchor := anchor) (sel := sel) (r := acc) rfl rfl rfl
    refine (vec_givesElems h rfl captured works (by decide) List.nodup_range).congr rfl fun j _ => ?_
    split
    next => rfl
    next outside =>
      rw [List.getElem?_eq_none (Nat.not_lt.mp (mt List.mem_range.mpr outside))]
      exact congrArg _ (ite_self _).symm
  · have works : actVxrnd d a b t (RingEntry.issuing (s.cur.await [b]) (.vxrnd d a b t) { xb := s.cur.getX b })
      ((s.awaited [b]).modCur (LCore.issuing (.vxrnd d a b t) { xb := s.cur.getX b })) = _ := run_vxrnd (r := rnd) rfl
    exact vec_givesFirst h rfl captured works (width_pos _)

end Sys2Proof.Machine

namespace Sys2Proof.Machine

/-! ### The memory words of the coprocessor complete (R62, R140) -/

/-- What a completion that answers in no x register leaves, once the word has taken its issue cycle. -/
theorem finish_quiet (t : State) (u : CopUnit) (ci : Nat) (q : BitVec 16) (uses : List (BitVec 5)) {w : Issued} (noX : w.xw = none)
    (noPost : w.post = none) (ends : w.goesOn = false) : (t.modCur (LCore.complete u ci q w)).finish .seq ⟨uses, 0, 1, 1⟩ = { t with
      clk := t.clk + 1
      cur := { t.cur.passed with
        ring := t.cur.ring.map (fun x => if x.seq == q then { x with state := .complete, time := ci + max w.lat w.busy } else x)
        pend := w.writes.foldl (fun l d => insertWrite ⟨ci + w.lat, d⟩ l) t.cur.pend
        vecFree := if u.mat then t.cur.vecFree else ci + w.busy
        matFree := if u.mat then ci + w.busy else t.cur.matFree
        ccy := t.cur.ccy + 1 } } := by
  obtain ⟨ws, xw, busy, lat, post, goesOn⟩ := w
  subst noX noPost ends
  rw [State.finish, spend_none _ (.inl rfl)]
  rfl

/-- A word of the coprocessor completes or waits as its unit does: nothing in this depends on the word. -/
theorem copRuns_of {s : State} {i : Instr} {uses : List (BitVec 5)} {u : CopUnit} {prep : Ex Capture} {act : RingEntry → Ex Issued}
    (run : exec i s = runCop i uses u prep act s) : CopRuns s i uses u prep act := by
  intro k v v' w passes noHandler room captures pins
  refine ⟨fun flows clear flowing works noX noPost ends => ?_, fun busy => ?_⟩
  · rw [run, runCop_ok passes noHandler room flows captures clear pins flowing works, finish_quiet _ _ _ _ _ noX noPost ends]
  · rw [run, runCop_waits passes noHandler room captures pins busy, State.finish, spend_none _ (.inl rfl)]
    rfl

/-- Settles O34: each word is run by the coprocessor with its own registers, unit, touch and work. -/
theorem coprocessorMemoryWords : Obligations.CoprocessorMemoryWords := by
  unfold Obligations.CoprocessorMemoryWords
  exact fun s d b p v n m t sl o a tid => ⟨copRuns_of rfl, copRuns_of rfl, copRuns_of rfl, copRuns_of rfl, copRuns_of rfl, copRuns_of rfl,
    copRuns_of rfl, copRuns_of rfl, copRuns_of rfl, copRuns_of rfl, copRuns_of rfl⟩

end Sys2Proof.Machine

namespace Sys2Proof.Machine

/-! ### The dispatch of a vector memory word on an object in its place (R67, R140) -/

/-- What the dispatch of a vector memory word does to the logical core: the touch, and the advance of the cursor where the word says so. -/
def State.vecTouch (s : State) (p : BitVec 4) (v : BitVec 1) (c : LCore) : LCore :=
  if v = 1 then (c.touched (s.hdrOf p) (s.cur.getP p).ptr).setP p
    { s.cur.getP p with cur := (s.cur.getP p).cur + BitVec.ofNat 32 c.vl.toNat }
  else c.touched (s.hdrOf p) (s.cur.getP p).ptr

theorem vecTouch_rest (s : State) (p : BitVec 4) (v : BitVec 1) (c : LCore) :
    s.vecTouch p v c = { c with cidx := (s.vecTouch p v c).cidx, p := (s.vecTouch p v c).p } := by
  unfold State.vecTouch
  rw [touched_eq]
  split <;> rfl

/-- What a vector memory word captures. -/
def State.vecCapture (s : State) (p : BitVec 4) (b : BitVec 5) : Capture := { xa := s.hdrOf p, xb := s.cur.getX b, ptr := s.cur.getP p }

/-- The state after the dispatch of a vector memory word that has waited for the registers `uses`. -/
def State.vecReady (s : State) (uses : List (BitVec 5)) (p : BitVec 4) (v : BitVec 1) : State := (s.awaited uses).modCur (s.vecTouch p v)

theorem vecReady_eq (s : State) (uses : List (BitVec 5)) (p : BitVec 4) (v : BitVec 1) : s.vecReady uses p v = { s.awaited uses with
    cur := { s.cur.await uses with cidx := (s.vecTouch p v s.cur).cidx, p := (s.vecTouch p v s.cur).p } } := by
  unfold State.vecReady State.modCur State.vecTouch
  rw [touched_eq, touched_eq]
  split <;> rfl

section
variable {s : State} {p : BitVec 4} {v : BitVec 1} {uses : List (BitVec 5)}

theorem vecPrep_inPlace (b : BitVec 5) (here : s.inPlace p) (fits : v = 1 → (s.cur.getP p).cur.toNat + s.cur.vl.toNat < 2 ^ 32) :
    vecPrep p v b (s.awaited uses) = .ok (s.vecCapture p b) (s.vecReady uses p v) := by
  obtain ⟨u, atTouch⟩ : ∃ u, u = (s.awaited uses).modCur (LCore.touched (s.hdrOf p) (s.cur.getP p).ptr) := ⟨_, rfl⟩
  have touch : touch p (s.awaited uses) = .ok (s.hdrOf p) u := (touch_inPlace (s := s.awaited uses) here).trans (by rw [atTouch]; rfl)
  have pointer : u.cur.getP p = s.cur.getP p := by rw [atTouch, State.modCur, touched_eq]; rfl
  have length : u.cur.vl = s.cur.vl := by rw [atTouch, State.modCur, touched_eq]; rfl
  have index : u.cur.getX b = s.cur.getX b := by rw [atTouch, State.modCur, touched_eq]; rfl
  unfold vecPrep
  refine (run_bind_ok touch).trans ((run_bind_ok (run_cur u)).trans ?_)
  rw [pointer, length, index]
  by_cases adv : v = 1
  · rw [if_pos adv, if_neg (Nat.not_le.mpr (fits adv)), State.vecReady, show s.vecTouch p v = _ from funext fun _ => if_pos adv]
    refine (run_bind_ok (run_wrP ..)).trans ?_
    rw [atTouch]
    rfl
  · rw [if_neg adv, State.vecReady, show s.vecTouch p v = _ from funext fun _ => if_neg adv, atTouch]
    rfl

theorem clear_vecReady (h : s.cur.clear = true) : (s.vecReady uses p v).cur.clear = true := by
  rw [vecReady_eq]
  exact clear_await uses h

/-- The touch pins nothing. -/
theorem pinRoom_vecReady (b : BitVec 5) (room : s.pinRoom [(s.cur.getP p).ptr] = true) :
    (s.vecReady uses p v).pinRoom (capturedPins (s.vecCapture p b).ptr.ptr (s.vecCapture p b).entry) = true := by
  have same : SameAgents s (s.vecReady uses p v) := by
    rw [vecReady_eq]
    exact ⟨rfl, rfl, rfl, rfl, rfl, rfl⟩
  have pins : (s.vecReady uses p v).cur.pins = s.cur.pins := by
    rw [vecReady_eq]
    rfl
  have one : ∀ lvl, offsetsAt lvl (capturedPins (s.cur.getP p).ptr (0#512)) = offsetsAt lvl [(s.cur.getP p).ptr] := fun lvl => by
    rw [capturedPins, entPtrs_zero]
    simp [offsetsAt, List.filter_cons]
  have room := same.pinRoom (fun q hq _ => pins ▸ hq) room
  show (s.vecReady uses p v).pinRoom (capturedPins (s.cur.getP p).ptr (0#512)) = true
  simp only [State.pinRoom, one] at room ⊢
  exact room

end

/-! ### A word whose dispatch changes the logical core -/

/-- The ring holds the entry of number `q`, of the word `i` at `pc`. -/
def Traced (i : Instr) (pc : W64) (q : BitVec 16) (ring : List RingEntry) : Prop :=
  ∃ r, ring.find? (fun x => x.seq == q) = some r ∧ r.instr = i ∧ r.addr = pc

/-- A change of entries that keeps their numbers, and an entry of the word one of the word. -/
theorem Traced.map {i : Instr} {pc : W64} {q : BitVec 16} {ring : List RingEntry} {f : RingEntry → RingEntry} (h : Traced i pc q ring)
    (seq : ∀ x, (f x).seq = x.seq) (word : ∀ x, x.instr = i ∧ x.addr = pc → (f x).instr = i ∧ (f x).addr = pc) : Traced i pc q (ring.map f) := by
  obtain ⟨r, find, at_⟩ := h
  refine ⟨f r, ?_, word r at_⟩
  simp only [List.find?_map, Function.comp_def, seq, find, Option.map_some]

/-- A coprocessor word that meets nothing in its way, whose dispatch leaves the state `s1`, and whose work leaves the state `s'` with the ring
`ring`. -/
theorem cop_completed_from {i : Instr} {uses : List (BitVec 5)} {u : CopUnit} {prep : Ex Capture} {act : RingEntry → Ex Issued} {s s1 s' : State}
    {k : Capture} {w : Issued} {fl : Fp.Flags} {ring : List RingEntry} {clk copNext ccy : Nat} (h : s.copReady i = true)
    (hp : prep (s.awaited uses) = .ok k s1) (clear : s1.cur.clear = true) (hr : s1.pinRoom (capturedPins k.ptr.ptr k.entry) = true)
    (hz : u.frozen (s1.modCur (LCore.dispatched i k)) (s1.cur.entry i k) = false)
    (ha : act (RingEntry.issuing s1.cur i k) (s1.modCur (LCore.issuing i k)) = .ok w ((s'.worked clk ring copNext ccy).modCur (fun c => c.raise fl)))
    (ends : w.goesOn = false ∧ w.post = none) (clear' : s'.cur.clear = true) (seq : s'.cur.nextSeq = s1.cur.nextSeq)
    (traced : Traced i s'.cur.pc s'.cur.nextSeq ring) : ∃ t, runCop i uses u prep act s = .next t ∧ Completed s' i w fl t := by
  obtain ⟨pend, -, late, -⟩ := LCore.clear_iff.mp clear'
  obtain ⟨r, find, at_⟩ := traced
  have done := completed_worked (u := u) (fl := fl) clk copNext ccy s1.cur.ccy ⟨uses, 0, 1, 1⟩ ends.1 ends.2 pend late find at_
  rw [seq] at done
  exact ⟨_, runCop_ready h hp clear hr hz ha, done⟩

end Sys2Proof.Machine

namespace Sys2Proof.Machine

open Host (Cell)

/-! ### The sources that a vector memory word holds (R66, R142) -/

/-- The ring entry of a vector memory word once it has held its sources. -/
def RingEntry.holding (e : RingEntry) (s1 s2 : VWord) (m : W64) : RingEntry := { e with held := true, src1 := s1, src2 := s2, mask := m }

/-- An entry of the word may stand for that of its number. -/
theorem Traced.setEntry {i : Instr} {pc : W64} {q : BitVec 16} {ring : List RingEntry} (h : Traced i pc q ring) (e : RingEntry)
    (word : e.instr = i ∧ e.addr = pc) : Traced i pc q (ring.map (fun x => if x.seq == e.seq then e else x)) := by
  refine h.map (f := fun x => if x.seq == e.seq then e else x) (fun x => ?_) fun x at_ => ?_
  · split
    next same => exact (eq_of_beq same).symm
    next => rfl
  · split
    · exact word
    · exact at_

theorem run_holding {e : RingEntry} (fresh : e.held = false) (s1 s2 : VWord) (m : W64) (u : State) :
    holdSources e s1 s2 m u = .ok (e.holding s1 s2 m) (u.modCur (fun c => c.setEntry (e.holding s1 s2 m))) := by
  unfold holdSources
  rw [if_neg (by simp [fresh])]
  exact run_bind_ok (run_modCur ..)

/-- Every selected element inside the object: none faults (R141). -/
theorem run_checkSpan {len w : Nat} {l : List (Nat × Int)} (inside : ∀ x ∈ l, 0 ≤ x.2 ∧ x.2 + w ≤ len) (u : State) :
    checkSpan len w l u = .ok () u := by
  induction l with
  | nil => rfl
  | cons x l ih =>
    obtain ⟨low, high⟩ := inside x List.mem_cons_self
    rw [checkSpan, if_neg (by omega)]
    exact ih fun y hy => inside y (List.mem_cons_of_mem _ hy)

/-! ### Elements from the bytes of a pad (R140, R141) -/

theorem Mem.readN_lt (m : List Cell) (a n : Nat) : Mem.readN m a n < 2 ^ (8 * n) := by
  induction n generalizing a with
  | zero => simp [Mem.readN]
  | succ n ih =>
    have rest := ih (a + 1)
    have byte := (Mem.read m a).isLt
    rw [Mem.readN, show 8 * (n + 1) = 8 * n + 8 by ring, Nat.pow_add]
    omega

/-- The register in which loaded elements come together: the bytes at `at_ j` in element `j`. -/
def gathered (m : List Cell) (w : Nat) (at_ : Nat → Nat) (l : List Nat) (got : Nat) : Nat :=
  l.foldl (fun g j => g + Mem.readN m (at_ j) w * 2 ^ (8 * w * j)) got

/-- An element that is loaded is its bytes. -/
theorem elemAt_gathered {m : List Cell} {w : Nat} (hw : 0 < w) {at_ : Nat → Nat} {l : List Nat} (rising : l.Pairwise (· < ·)) {j : Nat} (hj : j ∈ l)
    (fits : 8 * w * j + 8 * w ≤ 512) : elemAt (BitVec.ofNat 512 (gathered m w at_ l 0)) (8 * w) j = Mem.readN m (at_ j) w := by
  refine Nat.eq_of_testBit_eq fun b => ?_
  rw [testBit_elemAt]
  by_cases hb : b < 8 * w
  · have element : (8 * w * j + b) / (8 * w) = j := by rw [Nat.mul_add_div (by omega), Nat.div_eq_of_lt hb, Nat.add_zero]
    rw [BitVec.getLsbD_ofNat, gathered, testBit_addFields (by omega) _ (fun j => Mem.readN_lt ..) rising, element, Nat.mul_add_mod, Nat.mod_eq_of_lt hb,
      decide_eq_true hb, decide_eq_true hj, decide_eq_true (show 8 * w * j + b < 512 by omega)]
    simp only [Bool.true_and]
  · rw [decide_eq_false hb, Bool.false_and, Nat.testBit_lt_two_pow (lt_of_lt_of_le (Mem.readN_lt ..) (Nat.pow_le_pow_right (by decide) (by omega)))]

/-- A vector load that has just been dispatched holds its sources, and loads what its places `L` name. -/
theorem vecLoad_held {d idx : BitVec 5} {m : BitVec 3} {n : BitVec 1} {t : BitVec 4} {busy lat : Nat} {offs : RingEntry → VWord → Nat → Int}
    {e : RingEntry} {u : State} {L : List (Nat × Int)} (fresh : e.held = false) (places : (selected e t.toNat (u.cur.getM m) n).map
      (fun j => (j, offs (e.holding 0 (u.cur.getV idx) (u.cur.getM m)) (u.cur.getV idx) j)) = L) :
    vecLoad d idx m n t busy lat offs e u = (checkSpan e.ptr.len.toNat (elemBytes t.toNat) L >>= fun _ =>
      loadElems e.seq e.ptr.ptr (elemBytes t.toNat) (L.filter (fun x => decide (e.prog ≤ x.1))) (0 : VWord).toNat >>= fun got =>
      (pure { writes := [elemWrite d (8 * elemBytes t.toNat) (L.map (fun x => (x.1, elemAt (BitVec.ofNat 512 got) (8 * elemBytes t.toNat) x.1)))],
              busy := busy, lat := lat } : Ex Issued))
      (u.modCur (fun c => c.setEntry (e.holding 0 (u.cur.getV idx) (u.cur.getM m)))) := by
  subst places
  exact (run_bind_ok (run_cur u)).trans (run_bind_ok (run_holding fresh ..))

/-- A word that has progressed nowhere works on all its elements. -/
theorem filter_places (l : List Nat) (off : Nat → Int) : (l.map (fun j => (j, off j))).filter (fun x => decide (0 ≤ x.1)) = l.map (fun j => (j, off j)) :=
  List.filter_eq_self.mpr fun x _ => decide_eq_true (Nat.zero_le x.1)

section
variable {s : State} {i : Instr} {pc : W64} {q : BitVec 16} {ptr : W64} {ring : List RingEntry} {clk copNext ccy : Nat}
  (sound : s.badPads = []) (near : ptrLvl ptr ≤ 2) (owned : ptrLvl ptr = 2 → s.ownsDie = true)
include sound near owned

/-- Loads from an object in a pad, one after another, change the progress of the word's ring entry alone. -/
theorem run_loadElems (q' : BitVec 16) (w : Nat) (off : Nat → Int) (l : List Nat) (got : Nat) (traced : Traced i pc q ring) :
    ∃ ring', Traced i pc q ring' ∧ loadElems q' ptr w (l.map (fun j => (j, off j))) got (s.worked clk ring copNext ccy) =
      .ok (gathered (s.pad (s.cur.padId (ptrLvl ptr))).mem w (fun j => ptrAddr ptr + 16 + (off j).toNat) l got)
        (s.worked clk ring' copNext ccy) := by
  induction l generalizing got ring with
  | nil => exact ⟨ring, traced, rfl⟩
  | cons j l ih =>
    have read := readObj_inPad (s := s.worked clk (ring.map (fun x => if x.seq == q' then { x with prog := j, src1 := BitVec.ofNat 512 got } else x))
      copNext ccy) sound near owned (16 + (off j).toNat) w accLoad
    rw [← Nat.add_assoc] at read
    have traced := traced.map (f := fun x => if x.seq == q' then { x with prog := j, src1 := BitVec.ofNat 512 got } else x)
      (fun x => by split <;> rfl) (fun x at_ => by split <;> exact at_)
    obtain ⟨ring', traced', rest⟩ := ih
      (got + Mem.readN (s.pad (s.cur.padId (ptrLvl ptr))).mem (ptrAddr ptr + 16 + (off j).toNat) w * 2 ^ (8 * w * j)) traced
    exact ⟨ring', traced', (run_bind_ok (run_modCur ..)).trans ((run_bind_ok read).trans rest)⟩

/-- The work of a vector load from an object in a pad. -/
theorem run_vecLoad {e : RingEntry} {d idx : BitVec 5} {m : BitVec 3} {n : BitVec 1} {t : BitVec 4} {busy lat : Nat}
    {offs : RingEntry → VWord → Nat → Int} {off : Nat → Int} {l : List Nat} (fresh : e.held = false ∧ e.prog = 0) (pointer : e.ptr.ptr = ptr)
    (offsets : ∀ r : RingEntry, r.ptr = e.ptr → r.xb = e.xb → ∀ j, offs r (s.cur.getV idx) j = off j)
    (picks : selected e t.toNat (s.cur.getM m) n = l)
    (inside : ∀ j ∈ l, 0 ≤ off j ∧ off j + elemBytes t.toNat ≤ e.ptr.len.toNat) (traced : Traced e.instr e.addr e.seq ring) :
    ∃ ring', Traced e.instr e.addr e.seq ring' ∧ vecLoad d idx m n t busy lat offs e (s.worked clk ring copNext ccy) =
      .ok { writes := [elemWrite d (8 * elemBytes t.toNat) (listed l (fun j => some (elemAt (BitVec.ofNat 512
          (gathered (s.pad (s.cur.padId (ptrLvl ptr))).mem (elemBytes t.toNat) (fun j => ptrAddr ptr + 16 + (off j).toNat) l 0))
            (8 * elemBytes t.toNat) j)))], busy := busy, lat := lat } (s.worked clk ring' copNext ccy) := by
  obtain ⟨notHeld, start⟩ := fresh
  subst picks
  have traced := traced.setEntry (e.holding 0 (s.cur.getV idx) (s.cur.getM m)) ⟨rfl, rfl⟩
  obtain ⟨ring', traced', loads⟩ := run_loadElems (clk := clk) (copNext := copNext) (ccy := ccy) sound near owned e.seq (elemBytes t.toNat) off
    (selected e t.toNat (s.cur.getM m) n) 0 traced
  refine ⟨ring', traced', ?_⟩
  have places : (selected e t.toNat (s.cur.getM m) n).map (fun j => (j, offs (e.holding 0 (s.cur.getV idx) (s.cur.getM m)) (s.cur.getV idx) j)) = _ :=
    List.map_congr_left fun j _ => congrArg (Prod.mk j) (offsets (e.holding 0 (s.cur.getV idx) (s.cur.getM m)) rfl rfl j)
  refine (vecLoad_held (u := s.worked clk ring copNext ccy) notHeld places).trans ?_
  rw [run_bind_ok (run_checkSpan (by simpa using inside) _), start, filter_places, pointer, show (0 : VWord).toNat = 0 from BitVec.toNat_zero]
  refine (run_bind_ok loads).trans ?_
  rw [listed_some, List.map_map]
  rfl

end

/-! ### Loads (R140, R141) -/

/-- The ring that the entry of a word just dispatched stands in. -/
def State.vecRing (s : State) (uses : List (BitVec 5)) (i : Instr) (p : BitVec 4) (b : BitVec 5) : List RingEntry :=
  (s.cur.ring ++ [RingEntry.issuing (s.cur.await uses) i (s.vecCapture p b)]).drop (s.cur.ring.length + 1 - 64)

theorem issuing_vecReady (s : State) (uses : List (BitVec 5)) (i : Instr) (p : BitVec 4) (v : BitVec 1) (b : BitVec 5) :
    (s.vecReady uses p v).modCur (LCore.issuing i (s.vecCapture p b)) =
      (s.modCur (s.vecTouch p v)).worked (s.awaited uses).clk (s.vecRing uses i p b) ((s.cur.await uses).ccy + 1) (s.cur.await uses).ccy := by
  rw [vecReady_eq, State.modCur, State.modCur, vecTouch_rest s p v s.cur]
  rfl

theorem entry_vecReady (s : State) (uses : List (BitVec 5)) (i : Instr) (p : BitVec 4) (v : BitVec 1) (k : Capture) :
    RingEntry.issuing (s.vecReady uses p v).cur i k = RingEntry.issuing (s.cur.await uses) i k := by
  rw [vecReady_eq]
  rfl

theorem traced_vecRing {s : State} {uses : List (BitVec 5)} {i : Instr} {p : BitVec 4} {b : BitVec 5} (h : s.cur.clear = true) :
    Traced i s.cur.pc s.cur.nextSeq (s.vecRing uses i p b) := by
  obtain ⟨-, -, -, -, -, -, -, -, ring⟩ := LCore.clear_iff.mp h
  exact ⟨_, find_dispatched s.cur.ring (RingEntry.issuing (s.cur.await uses) i (s.vecCapture p b)) _ (by omega) fun x hx => (ring x hx).2.2, rfl, rfl⟩

/-- The state with the pads `l`. -/
def State.withPads (s : State) (l : List Pad) : State := { s with pads := l }

section
variable {s : State} {i : Instr} {uses : List (BitVec 5)} {b : BitVec 5} {p : BitVec 4} {v : BitVec 1} {act : RingEntry → Ex Issued}
  {w : Issued} {pads : List Pad} {ring : List RingEntry}

/-- A vector memory word on an object in its place, whose work changes pads and its ring entry alone. -/
theorem vecMem_completed (h : s.copReady i = true) (here : s.inPlace p) (room : s.pinRoom [(s.cur.getP p).ptr] = true)
    (fits : v = 1 → (s.cur.getP p).cur.toNat + s.cur.vl.toNat < 2 ^ 32) (traced : Traced i s.cur.pc s.cur.nextSeq ring)
    (works : act (RingEntry.issuing (s.cur.await uses) i (s.vecCapture p b)) ((s.modCur (s.vecTouch p v)).worked (s.awaited uses).clk
      (s.vecRing uses i p b) ((s.cur.await uses).ccy + 1) (s.cur.await uses).ccy) =
        .ok w (((s.modCur (s.vecTouch p v)).withPads pads).worked (s.awaited uses).clk ring ((s.cur.await uses).ccy + 1) (s.cur.await uses).ccy))
    (ends : w.goesOn = false ∧ w.post = none) : ∃ t, runCop i uses vecMem (vecPrep p v b) act s = .next t ∧
      Completed ((s.modCur (s.vecTouch p v)).withPads pads) i w 0 t := by
  have clear := clear_of_copReady h
  have kept : (s.vecTouch p v s.cur).clear = true ∧ (s.vecTouch p v s.cur).nextSeq = s.cur.nextSeq ∧ (s.vecTouch p v s.cur).pc = s.cur.pc := by
    rw [vecTouch_rest]
    exact ⟨clear, rfl, rfl⟩
  obtain ⟨clear', seq, pc⟩ := kept
  have same : (s.vecReady uses p v).cur.nextSeq = s.cur.nextSeq := by rw [vecReady_eq]; rfl
  refine cop_completed_from (s' := (s.modCur (s.vecTouch p v)).withPads pads) (ring := ring) (clk := (s.awaited uses).clk)
    (copNext := (s.cur.await uses).ccy + 1) (ccy := (s.cur.await uses).ccy) h (vecPrep_inPlace b here fits) (clear_vecReady clear)
    (pinRoom_vecReady b room) (by rfl) ?_ ends clear' (seq.trans same.symm) ?_
  · rw [entry_vecReady, issuing_vecReady, modCur_raise_zero]
    exact works
  · show Traced i (s.vecTouch p v s.cur).pc (s.vecTouch p v s.cur).nextSeq ring
    rw [seq, pc]
    exact traced

end

end Sys2Proof.Machine

namespace Sys2Proof.Machine

section
variable {s : State} {i : Instr} {uses : List (BitVec 5)} {d idx b : BitVec 5} {p : BitVec 4} {v n : BitVec 1} {m : BitVec 3} {t : BitVec 4}
  {busy lat : Nat} {offs : RingEntry → VWord → Nat → Int} {off : Nat → Int}
  (offsets : ∀ r : RingEntry, r.ptr = s.cur.getP p → r.xb = s.cur.getX b → ∀ j, offs r (s.cur.getV idx) j = off j)
  (whole : t.toNat ≤ 13) (here : s.inPlace p) (room : s.pinRoom [(s.cur.getP p).ptr] = true)
  (fits : v = 1 → (s.cur.getP p).cur.toNat + s.cur.vl.toNat < 2 ^ 32) (h : s.copReady i = true)
  (inside : ∀ j ∈ s.cur.picks t m n, 0 ≤ off j ∧ off j + elemBytes t.toNat ≤ (s.cur.getP p).len.toNat)
include offsets whole here room fits h inside

/-- A vector load from an object in its place gives each element that it takes the bytes at its offset. -/
theorem vecLoad_gives (run : exec i s = runCop i uses vecMem (vecPrep p v b) (vecLoad d idx m n t busy lat offs) s) :
    ∃ u, exec i s = .next u ∧ CopFrame (s.modCur (s.vecTouch p v)) i u ∧ VecResult s u d (8 * elemBytes t.toNat) 0 (fun j =>
      if s.cur.takes t m n j then some (Mem.readN (s.pad (s.padOf p)).mem (s.offOf p + 16 + (off j).toNat) (elemBytes t.toNat)) else none) := by
  obtain ⟨sound, -, -, near, owned, -⟩ := here.1
  have clear := clear_of_copReady h
  have bytes := elemBytes_pos whole
  obtain ⟨s', touched⟩ : ∃ s', s' = s.modCur (s.vecTouch p v) := ⟨_, rfl⟩
  have same : s' = { s with cur := { s.cur with cidx := s'.cur.cidx, p := s'.cur.p } } := by
    rw [touched, State.modCur, vecTouch_rest]
  obtain ⟨ring, traced, works⟩ := run_vecLoad (s := s') (e := RingEntry.issuing (s.cur.await uses) i (s.vecCapture p b)) (d := d) (idx := idx)
    (m := m) (n := n) (t := t) (busy := busy) (lat := lat) (offs := offs) (off := off) (l := s.cur.picks t m n)
    (clk := (s.awaited uses).clk) (copNext := (s.cur.await uses).ccy + 1) (ccy := (s.cur.await uses).ccy) (ring := s.vecRing uses i p b)
    (ptr := (s.cur.getP p).ptr) (by rw [same]; exact sound) near (by rw [same]; exact owned) ⟨rfl, rfl⟩ rfl (by rw [same]; exact offsets)
    (by rw [same]; rfl) inside (traced_vecRing clear)
  have pad : (s'.pad (s'.cur.padId (ptrLvl (s.cur.getP p).ptr))).mem = (s.pad (s.padOf p)).mem := by rw [same]; rfl
  rw [pad] at works
  subst touched
  obtain ⟨u, next, done⟩ := vecMem_completed (pads := s.pads) h here room fits traced works ⟨rfl, rfl⟩
  have result := vecResult_listed done rfl rfl (by omega) (picks_nodup ..)
  rw [show ((s.modCur (s.vecTouch p v)).withPads s.pads) = s.modCur (s.vecTouch p v) from rfl, same] at result
  refine ⟨u, run.trans next, done.1, VecResult.congr (s := s) result rfl fun j hj => ?_⟩
  simp only [mem_picks]
  by_cases taken : s.cur.takes t m n j = true
  · rw [if_pos taken, if_pos taken, elemAt_gathered bytes (picks_rising ..) (mem_picks.mpr taken) (by
      rw [← Nat.mul_succ, Nat.mul_comm]
      exact (Nat.le_div_iff_mul_le (by omega)).mp hj)]
    rfl
  · rw [if_neg taken, if_neg taken]
end
end Sys2Proof.Machine

namespace Sys2Proof.Machine

open Host (Cell)

/-! ### Stores to an object in a pad, one after another (R141, R185) -/

/-- A pad after stores of `w` bytes each to the object at `h`: the value `val j` to byte `at_ j`. -/
def Pad.storing (h w : Nat) (at_ val : Nat → Nat) (l : List Nat) (pd : Pad) : Pad :=
  l.foldl (fun pd j => (pd.put (at_ j) w (val j)).marked h (at_ j) w) pd

theorem hdrC_dirtied (x : W64) : hdrC (x ||| 0x100000000000) = hdrC x := by
  rw [hdrC, BitVec.getLsbD_or, show (0x100000000000 : W64) = BitVec.twoPow 64 44 from rfl, BitVec.getLsbD_twoPow]
  simp [hdrC]

section
variable {h w : Nat} {at_ val : Nat → Nat} {l : List Nat} {pd : Pad}

/-- A store beyond a header leaves it. -/
theorem word_put {a n v : Nat} (beyond : h + 8 ≤ a) : (pd.put a n v).word h = pd.word h :=
  congrArg (BitVec.ofNat 64) (Mem.readN_writeN_other _ _ _ _ _ _ (.inl beyond))

/-- A store beyond the header of a copy sets D in it. -/
theorem word_put_marked {a n v : Nat} (beyond : h + 8 ≤ a) :
    ((pd.put a n v).marked h a n).word h = if hdrC (pd.word h) then pd.word h ||| 0x100000000000 else pd.word h := by
  have header := word_put (pd := pd) (n := n) (v := v) beyond
  split
  next copy =>
    rw [Pad.marked_copy (by rw [header]; exact copy), ← header]
    exact word_flagged ..
  next home =>
    rw [Pad.marked_noCopy (by rw [header]; exact home)]
    exact header

theorem hdrC_put_marked {a n v : Nat} (beyond : h + 8 ≤ a) : hdrC (((pd.put a n v).marked h a n).word h) = hdrC (pd.word h) := by
  rw [word_put_marked beyond]
  split
  · exact hdrC_dirtied _
  · rfl

theorem storing_rest : pd.storing h w at_ val l = { pd with mem := (pd.storing h w at_ val l).mem, dirty := (pd.storing h w at_ val l).dirty } := by
  induction l generalizing pd with
  | nil => rfl
  | cons j l ih =>
    obtain ⟨q, hq⟩ : ∃ q, q = (pd.put (at_ j) w (val j)).marked h (at_ j) w := ⟨_, rfl⟩
    have rest : q = { pd with mem := q.mem, dirty := q.dirty } := hq ▸ Pad.marked_rest ..
    rw [show pd.storing h w at_ val (j :: l) = q.storing h w at_ val l from hq ▸ rfl]
    refine (ih (pd := q)).trans ?_
    rw [rest]

/-- Stores to a copy set D in its header. -/
theorem word_storing (beyond : ∀ j ∈ l, h + 8 ≤ at_ j) (copy : hdrC (pd.word h) = true) :
    (pd.storing h w at_ val l).word h = if l = [] then pd.word h else pd.word h ||| 0x100000000000 := by
  induction l generalizing pd with
  | nil => rfl
  | cons j l ih =>
    have first := beyond j List.mem_cons_self
    rw [if_neg (List.cons_ne_nil j l)]
    refine (ih (fun x hx => beyond x (List.mem_cons_of_mem _ hx)) ((hdrC_put_marked first).trans copy)).trans ?_
    rw [word_put_marked first, if_pos copy]
    split
    · rfl
    · rw [BitVec.or_assoc, BitVec.or_self]

/-- Beside the header of a copy the stores leave the bytes that they would leave in a memory alone. -/
theorem read_storing {m : List Cell} (beyond : ∀ j ∈ l, h + 8 ≤ at_ j)
    (same : ∀ k, ¬(hdrC (pd.word h) = true ∧ h ≤ k ∧ k < h + 8) → Mem.read pd.mem k = Mem.read m k) (k : Nat)
    (hk : ¬(hdrC (pd.word h) = true ∧ h ≤ k ∧ k < h + 8)) :
    Mem.read (pd.storing h w at_ val l).mem k = Mem.read ((l.map (fun j => (at_ j, 0, val j))).foldl (putElem (8 * w)) m) k := by
  induction l generalizing pd m with
  | nil => exact same k hk
  | cons j l ih =>
    have first := beyond j List.mem_cons_self
    have copy := hdrC_put_marked (pd := pd) (n := w) (v := val j) first
    have header := word_put (pd := pd) (n := w) (v := val j) first
    have put : putElem (8 * w) m (at_ j, 0, val j) = Mem.writeN m (at_ j) w (val j) := by
      rw [putElem, if_neg (by omega), show (8 * w + 7) / 8 = w by omega]
    rw [List.map_cons, List.foldl_cons, put]
    refine ih (fun x hx => beyond x (List.mem_cons_of_mem _ hx)) (fun k hk => ?_) (by rw [copy]; exact hk)
    rw [copy] at hk
    rw [read_marked _ _ _ (by rw [header]; exact hk), Pad.put, Mem.read_writeN, Mem.read_writeN, same k hk]

/-- The dirty mask of a copy gains the bytes of every store. -/
theorem mem_dirty_storing (beyond : ∀ j ∈ l, h + 8 ≤ at_ j) (k : Nat) : k ∈ (pd.storing h w at_ val l).dirty ↔
    k ∈ pd.dirty ∨ hdrC (pd.word h) = true ∧ ∃ j ∈ l, at_ j ≤ k ∧ k < at_ j + w := by
  induction l generalizing pd with
  | nil => simp [Pad.storing]
  | cons j l ih =>
    have first := beyond j List.mem_cons_self
    have header := word_put (pd := pd) (n := w) (v := val j) first
    refine (ih (pd := (pd.put (at_ j) w (val j)).marked h (at_ j) w) fun x hx => beyond x (List.mem_cons_of_mem _ hx)).trans ?_
    rw [hdrC_put_marked first, mem_dirty_marked, header]
    simp only [List.mem_cons, exists_eq_or_imp, and_or_left, or_assoc]
    rfl

end

/-- Where the stores to one object are all that the pads of `t` differ in, they are stored. -/
theorem stored_storing {s t : State} {ptr : W64} {w : Nat} {at_ val : Nat → Nat} {l : List Nat}
    (beyond : ∀ j ∈ l, ptrAddr ptr + 8 ≤ at_ j) (pads : ∀ id, t.pad id =
      if id = s.cur.padId (ptrLvl ptr) then (s.pad id).storing (ptrAddr ptr) w at_ val l else s.pad id) :
    Stored s t [⟨ptr, 8 * w, l.map (fun j => (at_ j, 0, val j))⟩] := by
  have bytes : ∀ o e, Stores.bytes ⟨o, 8 * w, e⟩ = w := fun _ _ => show (8 * w + 7) / 8 = w by omega
  refine ⟨fun id => ?_, fun id k hk => ?_, fun x hx copy => ?_, fun id k => ?_⟩
  · rw [pads]
    split
    · exact storing_rest
    · rfl
  · simp only [List.forall_mem_singleton] at hk
    rw [pads, List.foldl_cons, List.foldl_nil, Stores.apply]
    dsimp only
    split
    next own =>
      subst own
      rw [if_pos rfl]
      exact read_storing beyond (fun _ _ => rfl) k fun at_ => hk ⟨rfl, at_⟩
    next other => rw [if_neg (Ne.symm other)]
  · obtain rfl := List.mem_singleton.mp hx
    rw [pads, if_pos rfl]
    simp only [List.map_eq_nil_iff]
    exact word_storing beyond copy
  · simp only [List.mem_singleton, exists_eq_left]
    rw [pads]
    split
    next own =>
      subst own
      rw [mem_dirty_storing beyond]
      simp only [true_and, List.mem_map, exists_exists_and_eq_and, bytes]
      rfl
    next other => simp only [Ne.symm other, false_and, or_false]

/-! ### What the stores of the model do (R142) -/

theorem run_ackedLate {m : Ex Unit} {u u' : State} (run : m u = .ok () u') (acks : u'.cur.acks = u.cur.acks) : ackedLate m u = .ok () u' := by
  refine (run_bind_ok (run_get u)).trans ((run_bind_ok run).trans ((run_bind_ok (run_get u')).trans ?_))
  rw [acks, List.drop_length]
  rfl

theorem run_probe {m : Ex Unit} {u u' : State} (run : m u = .ok () u') : probe m u = .ok () u := by
  rw [probe, allOrNothing, run]

section
variable {s : State} {i : Instr} {pc : W64} {q : BitVec 16} {ptr : W64} {ring : List RingEntry} {clk copNext ccy : Nat}

/-- A pad that keeps its owner leaves the die pad to whom it belonged. -/
theorem ownsDie_setPad {pd : Pad} (owner : pd.owner = (s.pad pd.id).owner) : (s.setPad pd).ownsDie = s.ownsDie := by
  unfold State.ownsDie
  rw [pad_setPad]
  split
  next die => rw [owner, ← die]; rfl
  next => rfl

/-- A store of the vt path to an object in a pad. -/
theorem run_store (sound : s.badPads = []) (near : ptrLvl ptr ≤ 2) (owned : ptrLvl ptr = 2 → s.ownsDie = true) (o w v : Nat) :
    ackedLate (writePay ptr o w v accStore) s = .ok () (s.setPad
      (((s.pad (s.cur.padId (ptrLvl ptr))).put (ptrAddr ptr + 16 + o) w v).marked (ptrAddr ptr) (ptrAddr ptr + 16 + o) w)) :=
  run_ackedLate (writePay_inPad sound near owned ..) rfl

/-- The check of stores to an object in a pad changes the progress of the word's ring entry alone. -/
theorem run_probeElems (sound : s.badPads = []) (near : ptrLvl ptr ≤ 2) (owned : ptrLvl ptr = 2 → s.ownsDie = true) (q' : BitVec 16) (w : Nat)
    (off : Nat → Int) (l : List Nat) (traced : Traced i pc q ring) : ∃ ring', Traced i pc q ring' ∧
      probeElems q' ptr w (l.map (fun j => (j, off j))) (s.worked clk ring copNext ccy) = .ok () (s.worked clk ring' copNext ccy) := by
  induction l generalizing ring with
  | nil => exact ⟨ring, traced, rfl⟩
  | cons j l ih =>
    have traced := traced.map (f := fun x => if x.seq == q' then { x with prog := j } else x) (fun x => by split <;> rfl)
      (fun x at_ => by split <;> exact at_)
    have probed := run_probe (run_store (s := s.worked clk (ring.map (fun x => if x.seq == q' then { x with prog := j } else x)) copNext ccy)
      sound near owned (off j).toNat w 0)
    obtain ⟨ring', traced', rest⟩ := ih traced
    exact ⟨ring', traced', (run_bind_ok (run_modCur ..)).trans ((run_bind_ok probed).trans rest)⟩

/-- The stores of the elements of a register to an object in a pad. -/
theorem run_storeElems (sound : s.badPads = []) (near : ptrLvl ptr ≤ 2) (owned : ptrLvl ptr = 2 → s.ownsDie = true) (w : Nat) (v : VWord)
    (off : Nat → Int) (l : List Nat) : ∃ pads, (∀ id, (s.withPads pads).pad id = if id = s.cur.padId (ptrLvl ptr)
        then (s.pad id).storing (ptrAddr ptr) w (fun j => ptrAddr ptr + 16 + (off j).toNat) (fun j => elemAt v (8 * w) j) l else s.pad id) ∧
      storeElems ptr w v (l.map (fun j => (j, off j))) s = .ok () (s.withPads pads) := by
  induction l generalizing s with
  | nil => exact ⟨s.pads, fun id => (ite_self _).symm, rfl⟩
  | cons j l ih =>
    obtain ⟨pd, stored⟩ : ∃ pd, pd = ((s.pad (s.cur.padId (ptrLvl ptr))).put (ptrAddr ptr + 16 + (off j).toNat) w (elemAt v (8 * w) j)).marked
      (ptrAddr ptr) (ptrAddr ptr + 16 + (off j).toNat) w := ⟨_, rfl⟩
    have own : pd.id = s.cur.padId (ptrLvl ptr) := by rw [stored, Pad.marked_rest]; exact pad_id s _
    have owner : pd.owner = (s.pad pd.id).owner := by rw [own, stored, Pad.marked_rest]; rfl
    have store := run_store sound near owned (off j).toNat w (elemAt v (8 * w) j)
    rw [← stored] at store
    obtain ⟨pads, given, rest⟩ := ih (s := s.setPad pd) sound (fun die => (ownsDie_setPad owner).trans (owned die))
    refine ⟨pads, fun id => (given id).trans ?_, (run_bind_ok store).trans rest⟩
    rw [pad_setPad, own]
    show (if id = s.cur.padId (ptrLvl ptr) then _ else _) = _
    split
    next same => rw [stored, same]; rfl
    next => rfl

end

/-- A vector store that has just been dispatched holds its sources, and stores to what its places `L` name. -/
theorem vecStoreTo_held {d idx : BitVec 5} {m : BitVec 3} {n : BitVec 1} {t : BitVec 4} {busy : Nat} {offs : RingEntry → VWord → Nat → Int}
    {e : RingEntry} {u : State} {L : List (Nat × Int)} (fresh : e.held = false) (places : (selected e t.toNat (u.cur.getM m) n).map
      (fun j => (j, offs (e.holding (u.cur.getV d) (u.cur.getV idx) (u.cur.getM m)) (u.cur.getV idx) j)) = L) :
    vecStoreTo d idx m n t busy offs e u = (checkSpan e.ptr.len.toNat (elemBytes t.toNat) L >>= fun _ => do
      if hdrKind e.xa = 1 ∨ hdrKind e.xa = 2 then trapWith cOBJ_KIND e.ptr.ptr (BitVec.ofNat 64 (hdrKind e.xa))
      probeElems e.seq e.ptr.ptr (elemBytes t.toNat) (L.filter (fun x => decide (e.prog ≤ x.1)))
      storeElems e.ptr.ptr (elemBytes t.toNat) (u.cur.getV d) L
      return ({ busy := busy } : Issued))
      (u.modCur (fun c => c.setEntry (e.holding (u.cur.getV d) (u.cur.getV idx) (u.cur.getM m)))) := by
  subst places
  exact (run_bind_ok (run_cur u)).trans (run_bind_ok (run_holding fresh ..))

section
variable {s : State} {ptr : W64} {ring : List RingEntry} {clk copNext ccy : Nat} {e : RingEntry} {d idx : BitVec 5} {m : BitVec 3} {n : BitVec 1}
  {t : BitVec 4} {busy : Nat} {offs : RingEntry → VWord → Nat → Int} {off : Nat → Int} {l : List Nat}

/-- The work of a vector store to an object in a pad. -/
theorem run_vecStoreTo (sound : s.badPads = []) (near : ptrLvl ptr ≤ 2) (owned : ptrLvl ptr = 2 → s.ownsDie = true)
    (fresh : e.held = false ∧ e.prog = 0) (pointer : e.ptr.ptr = ptr) (kind : ¬(hdrKind e.xa = 1 ∨ hdrKind e.xa = 2))
    (offsets : ∀ r : RingEntry, r.ptr = e.ptr → r.xb = e.xb → ∀ j, offs r (s.cur.getV idx) j = off j)
    (picks : selected e t.toNat (s.cur.getM m) n = l) (inside : ∀ j ∈ l, 0 ≤ off j ∧ off j + elemBytes t.toNat ≤ e.ptr.len.toNat)
    (traced : Traced e.instr e.addr e.seq ring) :
    ∃ ring' pads, Traced e.instr e.addr e.seq ring' ∧ (∀ id, (s.withPads pads).pad id = if id = s.cur.padId (ptrLvl ptr)
        then (s.pad id).storing (ptrAddr ptr) (elemBytes t.toNat) (fun j => ptrAddr ptr + 16 + (off j).toNat)
          (fun j => elemAt (s.cur.getV d) (8 * elemBytes t.toNat) j) l else s.pad id) ∧
      vecStoreTo d idx m n t busy offs e (s.worked clk ring copNext ccy) = .ok { busy := busy } ((s.withPads pads).worked clk ring' copNext ccy) := by
  obtain ⟨notHeld, start⟩ := fresh
  subst picks
  have traced := traced.setEntry (e.holding (s.cur.getV d) (s.cur.getV idx) (s.cur.getM m)) ⟨rfl, rfl⟩
  obtain ⟨ring', traced', probes⟩ := run_probeElems (clk := clk) (copNext := copNext) (ccy := ccy) sound near owned e.seq (elemBytes t.toNat) off
    (selected e t.toNat (s.cur.getM m) n) traced
  obtain ⟨pads, given, stores⟩ := run_storeElems (s := s.worked clk ring' copNext ccy) sound near owned (elemBytes t.toNat) (s.cur.getV d) off
    (selected e t.toNat (s.cur.getM m) n)
  refine ⟨ring', pads, traced', given, ?_⟩
  have places : (selected e t.toNat (s.cur.getM m) n).map
      (fun j => (j, offs (e.holding (s.cur.getV d) (s.cur.getV idx) (s.cur.getM m)) (s.cur.getV idx) j)) = _ :=
    List.map_congr_left fun j _ => congrArg (Prod.mk j) (offsets (e.holding (s.cur.getV d) (s.cur.getV idx) (s.cur.getM m)) rfl rfl j)
  refine (vecStoreTo_held (u := s.worked clk ring copNext ccy) notHeld places).trans ?_
  rw [run_bind_ok (run_checkSpan (by simpa using inside) _), if_neg kind, start, filter_places, pointer]
  exact (run_bind_ok probes).trans (run_bind_ok stores)

end

end Sys2Proof.Machine

namespace Sys2Proof.Machine

section
variable {s : State} {i : Instr} {uses : List (BitVec 5)} {d idx b : BitVec 5} {p : BitVec 4} {v n : BitVec 1} {m : BitVec 3} {t : BitVec 4}
  {busy : Nat} {offs : RingEntry → VWord → Nat → Int} {off : Nat → Int}
  (offsets : ∀ r : RingEntry, r.ptr = s.cur.getP p → r.xb = s.cur.getX b → ∀ j, offs r (s.cur.getV idx) j = off j)
  (here : s.inPlace p) (room : s.pinRoom [(s.cur.getP p).ptr] = true)
  (fits : v = 1 → (s.cur.getP p).cur.toNat + s.cur.vl.toNat < 2 ^ 32) (h : s.copReady i = true)
  (inside : ∀ j ∈ s.cur.picks t m n, 0 ≤ off j ∧ off j + elemBytes t.toNat ≤ (s.cur.getP p).len.toNat)
include offsets here room fits h inside

/-- A vector store to an object in its place stores the elements that it takes, in increasing number. -/
theorem vecStoreTo_stores (notRefs : hdrKind (s.hdrOf p) ≠ 1) (notScope : hdrKind (s.hdrOf p) ≠ 2)
    (run : exec i s = runCop i uses vecMem (vecPrep p v b) (vecStoreTo d idx m n t busy offs) s) :
    CopStores s i (s.vecTouch p v) [⟨(s.cur.getP p).ptr, 8 * elemBytes t.toNat, (s.cur.picks t m n).map (fun j =>
      (s.offOf p + 16 + (off j).toNat, 0, elemAt (s.cur.getV d) (8 * elemBytes t.toNat) j))⟩] := by
  obtain ⟨sound, -, -, near, owned, -⟩ := here.1
  have clear := clear_of_copReady h
  obtain ⟨s', touched⟩ : ∃ s', s' = s.modCur (s.vecTouch p v) := ⟨_, rfl⟩
  have same : s' = { s with cur := { s.cur with cidx := s'.cur.cidx, p := s'.cur.p } } := by
    rw [touched, State.modCur, vecTouch_rest]
  obtain ⟨ring, pads, traced, given, works⟩ := run_vecStoreTo (s := s') (e := RingEntry.issuing (s.cur.await uses) i (s.vecCapture p b)) (d := d)
    (idx := idx) (m := m) (n := n) (t := t) (busy := busy) (offs := offs) (off := off) (l := s.cur.picks t m n)
    (clk := (s.awaited uses).clk) (copNext := (s.cur.await uses).ccy + 1) (ccy := (s.cur.await uses).ccy) (ring := s.vecRing uses i p b)
    (ptr := (s.cur.getP p).ptr) (by rw [same]; exact sound) near (by rw [same]; exact owned) ⟨rfl, rfl⟩ rfl (not_or.mpr ⟨notRefs, notScope⟩)
    (by rw [same]; exact offsets) (by rw [same]; rfl) inside (traced_vecRing clear)
  have stored : ∀ id, (s.withPads pads).pad id = if id = s.padOf p then (s.pad id).storing (s.offOf p) (elemBytes t.toNat)
      (fun j => s.offOf p + 16 + (off j).toNat) (fun j => elemAt (s.cur.getV d) (8 * elemBytes t.toNat) j) (s.cur.picks t m n) else s.pad id := by
    rw [same] at given
    exact given
  subst touched
  obtain ⟨u, next, frame, vregs, mregs, xregs, flags⟩ := vecMem_completed (pads := pads) h here room fits traced works ⟨rfl, rfl⟩
  have left : u.pads = pads := by rw [frame.1.2]; rfl
  have kept : (s.vecTouch p v s.cur).v = s.cur.v ∧ (s.vecTouch p v s.cur).m = s.cur.m ∧ (s.vecTouch p v s.cur).x = s.cur.x := by
    rw [vecTouch_rest]
    exact ⟨rfl, rfl, rfl⟩
  obtain ⟨keptV, keptM, keptX⟩ := kept
  exact ⟨u, run.trans next, left ▸ frame.1, stored_storing (fun j _ => by dsimp only [State.offOf]; omega)
    fun id => (pad_congr (s := s.withPads pads) left id).trans (stored id),
    vregs.trans keptV, mregs.trans keptM, xregs.trans keptX, flags.trans BitVec.or_zero⟩
end

theorem whole_of_typeIn {t : BitVec 4} {lo hi : Nat} {c : Bool} (h : (typeIn t lo hi && c) = true) (whole : hi ≤ 13) : t.toNat ≤ 13 := by
  rw [Bool.and_eq_true, typeIn_iff] at h
  exact h.1.2.trans whole

/-- Settles O33: each word is the vector load or the vector store of its places, which the captured pointer and X[b] give at issue. -/
theorem vectorMemoryInPads : Obligations.VectorMemoryInPads := by
  unfold Obligations.VectorMemoryInPads
  intro s d b p v n m t w pr h xb l seq stride index f loads stores here room fits
  have places : ∀ r : RingEntry, r.ptr = pr → r.xb = s.cur.getX b → ∀ u j, offSeq t r u j = seq j ∧ offStride r u j = stride j :=
    fun r pointer scalar u j => by
      rw [offSeq, offStride, pointer, scalar]
      exact ⟨rfl, rfl⟩
  have indexed : ∀ r : RingEntry, r.ptr = pr → r.xb = s.cur.getX 0 → ∀ j, offIndex t r (s.cur.getV b) j = index j := fun r pointer _ j => by
    rw [offIndex, pointer]
  refine ⟨fun ready inside => ?_, fun ready inside => ?_, fun ready inside => ?_, fun ready notRefs notScope inside => ?_,
    fun ready notRefs notScope inside => ?_⟩
  · exact vecLoad_gives (fun r hp hx j => (places r hp hx _ j).1) (whole_of_typeIn (wf_of_copReady ready) (by decide)) here room fits ready inside rfl
  · exact vecLoad_gives (fun r hp hx j => (places r hp hx _ j).2) (whole_of_typeIn (wf_of_copReady ready) (by decide)) here room fits ready inside rfl
  · exact vecLoad_gives indexed (whole_of_typeIn (wf_of_copReady ready) (by decide)) here room fits ready inside rfl
  · exact vecStoreTo_stores (fun r hp hx j => (places r hp hx _ j).1) here room fits ready inside notRefs notScope rfl
  · exact vecStoreTo_stores indexed here room fits ready inside notRefs notScope rfl

end Sys2Proof.Machine

namespace Sys2Proof.Machine

/-! The matrix unit (R144 to R165). -/

/-! ### A coprocessor word whose completed work may raise a late fault (R62, R63, R66) -/

/-- The work of a word without the late fault that it raises. -/
def Issued.quiet (w : Issued) : Issued := { w with post := none }

/-- The state in which the late fault `l` waits, or none. -/
def State.withLate (s : State) (l : Option Late) : State := s.modCur (fun c => { c with late := l })

theorem noLate_withLate {s : State} (idle : s.cur.late = none) (l : Option Late) : (s.withLate l).noLate = s :=
  congrArg (fun c => { s with cur := c }) (show { s.cur with late := none } = s.cur by rw [← idle])

/-- What a completion leaves beside the late fault of its work. -/
theorem complete_late {c : LCore} (idle : c.late = none) (u : CopUnit) (ci : Nat) (q : BitVec 16) (w : Issued) :
    LCore.complete u ci q w c = { LCore.complete u ci q w.quiet c with late := w.post.map (fun e => ⟨q, e⟩) } := by
  obtain ⟨writes, xw, busy, lat, post, goesOn⟩ := w
  cases post <;> cases xw <;> simp only [LCore.complete, Issued.quiet, LCore.lateWith, LCore.setX, idle, Option.map] <;> rfl

/-- The end of a word in sequence does not touch a late fault that waits. -/
theorem finish_late (s : State) {f g : LCore → LCore} {l : Option Late} (uses : List (BitVec 5)) (late : f s.cur = { g s.cur with late := l }) :
    (s.modCur f).finish .seq ⟨uses, 0, 1, 1⟩ = ((s.modCur g).finish .seq ⟨uses, 0, 1, 1⟩).withLate l := by
  rw [State.finish, State.finish, spend_none _ (.inl rfl), spend_none _ (.inl rfl), State.modCur, late]
  rfl

theorem Completed.idle {s t : State} {i : Instr} {w : Issued} {fl : Fp.Flags} (h : Completed s i w fl t) : t.cur.late = none := by
  obtain ⟨⟨⟨⟨-, -, idle, -⟩, -⟩, -⟩, -⟩ := h
  exact idle

/-- A coprocessor word that meets nothing in its way, whose dispatch leaves the state `s1`, and whose work leaves the state `s'` with the ring
`ring`: the late fault that the work raises waits, and beside it the word has completed. -/
theorem cop_ends {i : Instr} {uses : List (BitVec 5)} {u : CopUnit} {prep : Ex Capture} {act : RingEntry → Ex Issued} {s s1 s' : State}
    {k : Capture} {w : Issued} {fl : Fp.Flags} {ring : List RingEntry} {clk copNext ccy : Nat} (h : s.copReady i = true)
    (hp : prep (s.awaited uses) = .ok k s1) (clear : s1.cur.clear = true) (hr : s1.pinRoom (capturedPins k.ptr.ptr k.entry) = true)
    (hz : u.frozen (s1.modCur (LCore.dispatched i k)) (s1.cur.entry i k) = false)
    (ha : act (RingEntry.issuing s1.cur i k) (s1.modCur (LCore.issuing i k)) = .ok w ((s'.worked clk ring copNext ccy).modCur (fun c => c.raise fl)))
    (ends : w.goesOn = false) (clear' : s'.cur.clear = true) (seq : s'.cur.nextSeq = s1.cur.nextSeq)
    (traced : Traced i s'.cur.pc s'.cur.nextSeq ring) : ∃ t, runCop i uses u prep act s = .next t ∧
      t.cur.late = w.post.map (fun e => ⟨s1.cur.nextSeq, e⟩) ∧ Completed s' i w.quiet fl t.noLate := by
  obtain ⟨pend, -, late, -⟩ := LCore.clear_iff.mp clear'
  obtain ⟨r, find, at_⟩ := traced
  have done := completed_worked (u := u) (fl := fl) (w := w.quiet) clk copNext ccy s1.cur.ccy ⟨uses, 0, 1, 1⟩ ends rfl pend late find at_
  rw [seq] at done
  have raised := finish_late ((s'.worked clk ring copNext ccy).modCur (fun c => c.raise fl)) uses
    (complete_late (by exact late) u s1.cur.ccy s1.cur.nextSeq w)
  exact ⟨_, (runCop_ready h hp clear hr hz ha).trans (congrArg _ raised), rfl, (noLate_withLate done.idle _).symm ▸ done⟩

/-! ### Words of the matrix unit that change slots, accumulators and flags (R154, R158, R163) -/

/-- The logical core once a word has been dispatched and works. -/
def LCore.working (ring : List RingEntry) (copNext ccy : Nat) (c : LCore) : LCore :=
  { c with ring := ring, nextSeq := c.nextSeq + 1, copNext := copNext, ccy := ccy }

/-- A change that a matrix word makes: of the slots, the accumulators, ASTAT, the sticky flags and what is kept of work on its way (R354)
alone, and without regard to the ring and the cycles of the coprocessor. -/
structure OnMatrix (f : LCore → LCore) : Prop where
  rest : ∀ c, f c = { c with t := (f c).t, acc := (f c).acc, astat := (f c).astat, fstat := (f c).fstat, work := (f c).work }
  working : ∀ ring copNext ccy c, f (c.working ring copNext ccy) = (f c).working ring copNext ccy

namespace OnMatrix
variable {f g : LCore → LCore}

theorem comp (hg : OnMatrix g) (hf : OnMatrix f) : OnMatrix (fun c => g (f c)) where
  rest c := by
    have outer := hg.rest (f c)
    rw [hf.rest c] at outer ⊢
    exact outer
  working ring copNext ccy c := by rw [hf.working, hg.working]

theorem clear (hf : OnMatrix f) (c : LCore) : (f c).clear = c.clear := by
  rw [hf.rest c]
  rfl

theorem kept (hf : OnMatrix f) (c : LCore) : (f c).nextSeq = c.nextSeq ∧ (f c).v = c.v ∧ (f c).m = c.m ∧ (f c).x = c.x := by
  rw [hf.rest c]
  exact ⟨rfl, rfl, rfl, rfl⟩

theorem traced (hf : OnMatrix f) {s : State} {i : Instr} {ring : List RingEntry} (h : Traced i s.cur.pc s.cur.nextSeq ring) :
    Traced i (f s.cur).pc (f s.cur).nextSeq ring := by
  rw [hf.rest]
  exact h

theorem worked (hf : OnMatrix f) (s : State) (clk : Nat) (ring : List RingEntry) (copNext ccy : Nat) :
    (s.worked clk ring copNext ccy).modCur f = (s.modCur f).worked clk ring copNext ccy :=
  congrArg (fun c => { s with clk := clk, cur := c }) (hf.working ring copNext ccy s.cur)

end OnMatrix

theorem onMatrix_raise (fl : Fp.Flags) : OnMatrix (fun c => c.raise fl) := ⟨fun _ => rfl, fun _ _ _ _ => rfl⟩

/-- The state in which a word does its work, one ring entry on. -/
theorem issuing_worked (s : State) (uses : List (BitVec 5)) (i : Instr) (k : Capture) : (s.awaited uses).modCur (LCore.issuing i k) =
    s.worked (s.awaited uses).clk ((s.cur.ring ++ [RingEntry.issuing (s.cur.await uses) i k]).drop (s.cur.ring.length + 1 - 64))
      (s.cur.issueAt uses + 1) (s.cur.issueAt uses) := (rfl)

/-- The entry of a word just dispatched stands in the ring. -/
theorem traced_dispatched {c : LCore} (clear : c.clear = true) (uses : List (BitVec 5)) (i : Instr) (k : Capture) :
    Traced i c.pc c.nextSeq ((c.ring ++ [RingEntry.issuing (c.await uses) i k]).drop (c.ring.length + 1 - 64)) :=
  ⟨_, find_dispatched c.ring (RingEntry.issuing (c.await uses) i k) _ (by omega) (seq_ne_of_clear clear), rfl, rfl⟩

section
variable {s : State} {i : Instr} {slots : List (BitVec 4)} {act : RingEntry → Ex Issued} {w : Issued} {f : LCore → LCore}
  (h : s.copReady i = true) (run : exec i s = runCop i [] (matUnit slots) noCapture act s) (inner : OnMatrix f)
  (works : act (RingEntry.issuing (s.cur.await []) i {}) ((s.awaited []).modCur (LCore.issuing i {})) =
    .ok w (((s.awaited []).modCur (LCore.issuing i {})).modCur f))
  (ends : w.goesOn = false ∧ w.writes = [] ∧ w.xw = none)
include h run inner works ends

/-- A word of the matrix unit whose work does `f` to the logical core: beside the late fault that it raises, that is its effect. -/
theorem matrix_ends : ∃ t, exec i s = .next t ∧ t.cur.late = w.post.map (fun e => ⟨s.cur.nextSeq, e⟩) ∧ EffectOf s i f t.noLate := by
  obtain ⟨goesOn, writes, noX⟩ := ends
  have clear := clear_of_copReady h
  obtain ⟨seq, keptV, keptM, keptX⟩ := inner.kept s.cur
  have left := works.trans (congrArg _ ((congrArg (State.modCur · f) (issuing_worked s [] i {})).trans ((inner.worked ..).trans
    (modCur_raise_zero _).symm)))
  obtain ⟨t, next, late, frame, vregs, mregs, xregs, flags⟩ := cop_ends (u := matUnit slots) h (run_noCapture (s.awaited []))
    (clear_await [] clear) (pinRoom_x _) rfl left goesOn ((inner.clear _).trans clear) seq
    (inner.traced (traced_dispatched clear [] i {}))
  have noWrites : w.quiet.writes = [] := writes
  have noResult : w.quiet.xw = none := noX
  rw [noWrites] at vregs mregs
  rw [noResult] at xregs
  exact ⟨t, run.trans next, late, frame, vregs.trans keptV, mregs.trans keptM,
    xregs.trans keptX, flags.trans BitVec.or_zero⟩

theorem matrix_effect (quiet : w.post = none) : CopEffect s i f := by
  obtain ⟨t, next, late, effect⟩ := matrix_ends h run inner works ends
  rw [quiet] at late
  exact ⟨t, next, noLate_withLate late none ▸ effect⟩

theorem matrix_posts {e : Exn} (raises : w.post = some e) : CopPosts s i e (EffectOf s i f) := by
  obtain ⟨t, next, late, effect⟩ := matrix_ends h run inner works ends
  rw [raises] at late
  exact ⟨t, next, late, effect⟩

end

/-- Only what a word does to the logical core as it stands counts. -/
theorem EffectOf.congr {s t : State} {i : Instr} {f g : LCore → LCore} (h : EffectOf s i f t) (same : f s.cur = g s.cur) : EffectOf s i g t := by
  unfold EffectOf State.modCur at h ⊢
  rw [← same]
  exact h

theorem CopEffect.congr {s : State} {i : Instr} {f g : LCore → LCore} (h : CopEffect s i f) (same : f s.cur = g s.cur) : CopEffect s i g := by
  obtain ⟨t, next, effect⟩ := h
  exact ⟨t, next, effect.congr same⟩

/-! ### `azero`, `amode`, `afill` and `adrain` (R161, R163, R165) -/

theorem run_needSlot {s : State} {i : Instr} {t : BitVec 4} (held : (s.cur.getT t).state ≠ .free) : needSlot i t s = .ok (s.cur.getT t) s := by
  refine (run_bind_ok (run_cur s)).trans ?_
  dsimp only
  rw [if_neg held]
  rfl

/-- An accumulator with the offsets `b` and its detector cleared (R160, R163, R165). -/
def Acc.offsets (aff : Bool) (b : Fin 1024 → Nat) (a : Acc) : Acc :=
  { a.clearDet with cells := Vector.ofFn (fun k => withB aff (a.cells.get k) (b k)) }

theorem map_eq_ofFn {α β : Type} {n : Nat} (v : Vector α n) (f : α → β) : v.map f = Vector.ofFn (fun k => f (v.get k)) := by
  ext k hk
  simp only [Vector.getElem_map, Vector.getElem_ofFn]
  rfl

theorem run_fillB (n : BitVec 2) (b : Nat) (s : State) :
    fillB n b s = .ok () (s.modCur (fun c => c.setA n ((c.getA n).offsets (c.aff n) (fun _ => b)))) := by
  refine (run_modCur _ s).trans ?_
  simp only [map_eq_ofFn]
  rfl

/-- A field of a word that is replaced leaves the bits below it. -/
theorem getLsbD_setBits_below {w : W64} {hi lo v k : Nat} (below : k < lo) (inside : k < 64) : (setBits w hi lo v).getLsbD k = w.getLsbD k := by
  have field : 2 ^ lo * bits w.toNat hi lo ≤ w.toNat :=
    (Nat.mul_le_mul_left _ (Nat.mod_le ..)).trans (Nat.mul_div_le ..)
  have low : ∀ x : Nat, x.testBit k = (x % 2 ^ lo).testBit k := fun x => by rw [Nat.testBit_mod_two_pow, decide_eq_true below, Bool.true_and]
  rw [setBits, getLsbD_ofNat_lt _ inside, low, Nat.add_mul_mod_self_right, Nat.mul_comm (bits ..), Nat.sub_mul_mod field, ← low, BitVec.getLsbD]

/-- The semirings of ASTAT stand apart from the modes of the accumulators (R40). -/
theorem aff_setSem (c : LCore) (n : BitVec 2) (v : Nat) : (c.setSem n v).aff n = c.aff n :=
  getLsbD_setBits_below (by omega) (by omega)

/-- The late fault that a drain of an accumulator raises (R161). -/
def LCore.drainPost (n : BitVec 2) (c : LCore) : Option Exn :=
  if (c.getA n).rf = 0 ∧ (c.getA n).cf = 0 then none
  else if !c.nanf n && c.nant then some ⟨cNAN_PRODUCED, (c.getA n).frT, (c.getA n).frT2⟩ else none

theorem run_drainAcc (n : BitVec 2) (f64 : Bool) (s : State) :
    drainAcc n f64 s = .ok (s.cur.drainPost n) (s.modCur (LCore.drained n f64)) := by
  refine (run_bind_ok (run_cur s)).trans ?_
  dsimp only
  by_cases idle : (s.cur.getA n).rf = 0 ∧ (s.cur.getA n).cf = 0
  · rw [if_pos idle, State.modCur, LCore.drainPost, LCore.drained, if_pos idle, if_pos idle]
    rfl
  · rw [if_neg idle, State.modCur, LCore.drainPost, LCore.drained, if_neg idle, if_neg idle]
    exact run_bind_ok (run_modCur ..)

theorem drained_idle {n : BitVec 2} {c : LCore} (idle : (c.getA n).rf = 0 ∧ (c.getA n).cf = 0) (f64 : Bool) : c.drained n f64 = c := if_pos idle

theorem drained_marked {n : BitVec 2} {c : LCore} (marked : ¬((c.getA n).rf = 0 ∧ (c.getA n).cf = 0)) (f64 : Bool) : c.drained n f64 =
    (c.setA n { c.getA n with
      cells := Vector.ofFn (fun k => if (c.getA n).rf.getLsbD (k.val / 32) || (c.getA n).cf.getLsbD (k.val % 32)
        then (if c.aff n then 0x7FC000007FC00000 else if f64 then 0x7FF8000000000000 else 0x7FC00000) else (c.getA n).cells.get k)
      rf := 0, cf := 0 }).setAstatBit (8 + n.toNat) true := if_neg marked

theorem onMatrix_drained (n : BitVec 2) (f64 : Bool) : OnMatrix (LCore.drained n f64) where
  rest c := by
    by_cases idle : (c.getA n).rf = 0 ∧ (c.getA n).cf = 0
    · rw [drained_idle idle]
    · rw [drained_marked idle]
      rfl
  working ring copNext ccy c := by
    by_cases idle : (c.getA n).rf = 0 ∧ (c.getA n).cf = 0
    · rw [drained_idle idle]
      exact drained_idle (c := c.working ring copNext ccy) idle f64
    · rw [drained_marked idle]
      exact drained_marked (c := c.working ring copNext ccy) idle f64

theorem mode_drained (n : BitVec 2) (f64 : Bool) (c : LCore) : (c.drained n f64).mode = c.mode := by
  rw [(onMatrix_drained n f64).rest c]
  rfl

theorem drainPost_none {n : BitVec 2} {c : LCore} (h : (c.getA n).rf ≠ 0 ∨ (c.getA n).cf ≠ 0 → c.nanf n = true ∨ c.nant = false) :
    c.drainPost n = none := by
  by_cases idle : (c.getA n).rf = 0 ∧ (c.getA n).cf = 0
  · exact if_pos idle
  · rw [LCore.drainPost, if_neg idle, if_neg]
    rcases h (not_and_or.mp idle) with set | off
    · simp [set]
    · simp [off]

theorem drainPost_some {n : BitVec 2} {c : LCore} (marked : (c.getA n).rf ≠ 0 ∨ (c.getA n).cf ≠ 0) (clear : c.nanf n = false)
    (asked : c.nant = true) : c.drainPost n = some ⟨cNAN_PRODUCED, (c.getA n).frT, (c.getA n).frT2⟩ := by
  rw [LCore.drainPost, if_neg (not_and_or.mpr marked), clear, asked]
  rfl

/-- The rows that a drain writes into a slot, each with the flags of its rounding (R165). -/
def LCore.drainRows (n : BitVec 2) (ty : BitVec 4) (c : LCore) : List (Nat × Fp.Flags) :=
  (List.range 32).map (fun r => drainRow ((c.drained n false).getA n) ty.toNat c.mode r 32)

/-- The logical core once accumulator `n` has been drained into the slot `t` as the rows `rows` of type `ty` (R161, R165). -/
def LCore.drainedInto (n : BitVec 2) (t ty : BitVec 4) (rows : List (Nat × Fp.Flags)) (c : LCore) : LCore :=
  ((c.drained n false).setT t { (c.drained n false).getT t with
    state := .ready
    data := BitVec.ofNat 32768 ((rows.zipIdx).foldl (fun d r => d ||| r.1.1 * 2 ^ (1024 * r.2)) 0)
    side := BitVec.ofNat 4096 (if ty = 12 ∨ ty = 13 then (List.range 128).foldl (fun d k => d ||| 0x7F * 2 ^ (8 * k)) 0 else 0) }).raise
    (rows.foldl (fun f r => f ||| r.2) 0)

theorem onMatrix_drainedInto (n : BitVec 2) (t ty : BitVec 4) (rows : List (Nat × Fp.Flags)) : OnMatrix (LCore.drainedInto n t ty rows) := by
  have fill : ∀ fl data side, OnMatrix (fun c => (c.setT t { c.getT t with state := .ready, data := data, side := side }).raise fl) :=
    fun _ _ _ => ⟨fun _ => rfl, fun _ _ _ _ => rfl⟩
  exact (fill _ _ _).comp (onMatrix_drained n false)

theorem run_actAdrain {n : BitVec 2} {t ty : BitVec 4} {e : RingEntry} {s : State} (held : (s.cur.getT t).state ≠ .free) :
    actAdrain n t ty e s = .ok { busy := 32, lat := 32, post := s.cur.drainPost n } (s.modCur (LCore.drainedInto n t ty (s.cur.drainRows n ty))) := by
  refine (run_bind_ok (run_needSlot held)).trans ((run_bind_ok (run_drainAcc n false s)).trans ((run_bind_ok (run_cur _)).trans ?_))
  rw [LCore.drainRows, ← mode_drained n false s.cur]
  rfl

theorem drainRows_working (n : BitVec 2) (ty : BitVec 4) (c : LCore) (ring : List RingEntry) (copNext ccy : Nat) :
    (c.working ring copNext ccy).drainRows n ty = c.drainRows n ty := by
  rw [LCore.drainRows, (onMatrix_drained n false).working]
  rfl

section
variable {s : State} {n op : BitVec 2} {t ty : BitVec 4}

theorem onMatrix_offsets (n : BitVec 2) (b : Fin 1024 → Nat) : OnMatrix (fun c => c.setA n ((c.getA n).offsets (c.aff n) b)) :=
  ⟨fun _ => rfl, fun _ _ _ _ => rfl⟩

theorem onMatrix_setSem (n : BitVec 2) (v : Nat) : OnMatrix (fun c => c.setSem n v) := ⟨fun _ => rfl, fun _ _ _ _ => rfl⟩

theorem azero_effect (h : s.copReady (.azero n) = true) :
    CopEffect s (.azero n) (fun c => c.setA n ((c.getA n).offsets (c.aff n) (fun _ => 0))) :=
  matrix_effect (w := { busy := 2, lat := 2 }) h rfl (onMatrix_offsets n _) (run_bind_ok (run_fillB ..)) ⟨rfl, rfl, rfl⟩ rfl

theorem run_actAmode (e : RingEntry) (s : State) : actAmode n op e s = .ok { busy := 2, lat := 2 } (s.modCur (fun c =>
    (c.setSem n op.toNat).setA n (((c.setSem n op.toNat).getA n).offsets ((c.setSem n op.toNat).aff n)
      (fun _ => if op = 1 then 0xFF800000 else if op = 2 then 0x7F800000 else 0)))) :=
  (run_bind_ok (run_modCur ..)).trans ((run_bind_ok (run_fillB ..)).trans (congrArg _ (modCur_modCur ..)))

theorem amode_effect (h : s.copReady (.amode n op) = true) : CopEffect s (.amode n op) (fun c =>
    (c.setSem n op.toNat).setA n (((c.setSem n op.toNat).getA n).offsets ((c.setSem n op.toNat).aff n)
      (fun _ => if op = 1 then 0xFF800000 else if op = 2 then 0x7F800000 else 0))) :=
  matrix_effect h rfl ((onMatrix_offsets n _).comp (onMatrix_setSem n _)) (run_actAmode _ _) ⟨rfl, rfl, rfl⟩ rfl

theorem afill_effect (h : s.copReady (.afill n t ty) = true) (held : (s.cur.getT t).state ≠ .free) : CopEffect s (.afill n t ty) (fun c =>
    (c.setA n ((c.getA n).offsets (c.aff n) (fun k => fillValue (s.cur.getT t) ty.toNat (k.val / 32) (k.val % 32)))).raise
      (fillFlags (s.cur.getT t) ty.toNat)) :=
  matrix_effect (w := { busy := 32, lat := 32 }) h rfl ((onMatrix_raise _).comp (onMatrix_offsets n _))
    ((run_bind_ok (run_needSlot (s := (s.awaited []).modCur (LCore.issuing (.afill n t ty) {})) held)).trans (run_bind_ok (run_modCur ..)))
    ⟨rfl, rfl, rfl⟩ rfl

theorem adrain_works (held : (s.cur.getT t).state ≠ .free) : actAdrain n t ty (RingEntry.issuing (s.cur.await []) (.adrain n t ty) {})
      ((s.awaited []).modCur (LCore.issuing (.adrain n t ty) {})) = .ok { busy := 32, lat := 32, post := s.cur.drainPost n }
        (((s.awaited []).modCur (LCore.issuing (.adrain n t ty) {})).modCur (LCore.drainedInto n t ty (s.cur.drainRows n ty))) := by
  refine (run_actAdrain (s := (s.awaited []).modCur (LCore.issuing (.adrain n t ty) {})) held).trans ?_
  rw [show ((s.awaited []).modCur (LCore.issuing (.adrain n t ty) {})).cur.drainRows n ty = s.cur.drainRows n ty from drainRows_working ..]
  rfl

end

/-- Settles O38: the offsets of an accumulator set, or its drain into a slot, with the late fault that the drain raises. -/
theorem accumulatorWords : Obligations.AccumulatorWords := by
  unfold Obligations.AccumulatorWords
  intro s n op t ty a fill marked a1 rows data side drained
  refine ⟨fun h => ?_, fun h => ?_, fun h held => ?_, fun h held quiet => ?_, fun h held marks clear asked => ?_⟩
  · exact (azero_effect h).congr rfl
  · exact (amode_effect h).congr (by rw [aff_setSem]; rfl)
  · exact (afill_effect h held).congr rfl
  · exact matrix_effect h rfl (onMatrix_drainedInto n t ty rows) (adrain_works held) ⟨rfl, rfl, rfl⟩ (drainPost_none quiet)
  · exact matrix_posts h rfl (onMatrix_drainedInto n t ty rows) (adrain_works held) ⟨rfl, rfl, rfl⟩ (drainPost_some marks clear asked)

end Sys2Proof.Machine

namespace Sys2Proof.Machine

/-! ### `mma` (R156 to R160) -/

/-- BS of the entry of an i8 operand, the only operand of `mma` whose entry is consulted (R156). -/
theorem run_operandBs {s : State} {t : BitVec 4} {sl : Slot} (readable : t = 0 → s.tidOk s.cur.ctx sl.tid = true) :
    (if t = 0 then slotBs sl else pure false : Ex Bool) s = .ok (t == 0 && Entry.bs (s.tidEntry s.cur.ctx sl.tid)) s := by
  by_cases i8 : t = 0
  · rw [if_pos i8, i8]
    exact run_bind_ok (run_curEntry (readable i8))
  · rw [if_neg i8, beq_false_of_ne i8]
    rfl

section
variable {n op : BitVec 2} {ta tb t u : BitVec 4} {bs : Bool} {e : RingEntry} {s : State}

theorem run_actMma (heldA : (s.cur.getT ta).state ≠ .free) (heldB : (s.cur.getT tb).state ≠ .free) (mode : s.cur.sem n = op.toNat)
    (plain : t = 8 → s.cur.aff n = false)
    (readable : t = 0 → s.tidOk s.cur.ctx (s.cur.getT ta).tid = true ∧ s.tidOk s.cur.ctx (s.cur.getT tb).tid = true)
    (bsA : (t == 0 && Entry.bs (s.tidEntry s.cur.ctx (s.cur.getT ta).tid)) = bs)
    (bsB : (t == 0 && Entry.bs (s.tidEntry s.cur.ctx (s.cur.getT tb).tid)) = bs) :
    actMma n ta tb op t u e s = .ok { busy := if t = 8 then 256 else 32, lat := if t = 8 then 256 else 32 } (s.modCur (fun c =>
      c.startWork e.seq (if t = 8 then 256 else 32)
        (c.mmaGroups e.seq n ta tb op t u bs bs e.prog (rowElems t.toNat / groupSize t.toNat - e.prog)))) := by
  have legal : ¬(s.cur.sem n ≠ op.toNat ∨ (t = 8 ∧ s.cur.aff n = true)) := by
    rintro (wrong | ⟨f64, affine⟩)
    · exact wrong mode
    · exact absurd affine (by simp [plain f64])
  unfold actMma
  refine (run_bind_ok (run_needSlot heldA)).trans ((run_bind_ok (run_needSlot heldB)).trans ((run_bind_ok (run_cur s)).trans ?_))
  dsimp only
  rw [if_neg legal]
  refine (run_bind_ok (run_operandBs fun i8 => (readable i8).1)).trans ((run_bind_ok (run_operandBs fun i8 => (readable i8).2)).trans ?_)
  rw [bsA, bsB, if_neg (not_not.mpr rfl)]
  exact run_bind_ok (run_modCur ..)

end

section
variable (c : LCore) (n op : BitVec 2) (ta tb t u : BitVec 4) (bs : Bool) (g q : Nat)

/-- Cell `k` of an accumulator after an `mma`, with the flags of its roundings (R157). -/
def LCore.mmaResult (k : Fin 1024) : W64 × Fp.Flags :=
  mmaCell op.toNat t.toNat (c.aff n) ((c.getA n).cells.get k) (tileRow (c.getT ta) t.toNat bs g 0 q (k.val / 32))
    (tileRow (c.getT tb) u.toNat bs g 0 q (k.val % 32))

/-- The first special that an `mma` reports, while no mark stands (R160). -/
def LCore.mmaReport : Option (Nat × Bool × Nat × Nat) :=
  if (c.getA n).rf = 0 ∧ (c.getA n).cf = 0 then
    firstReport ((List.range 32).map (tileRow (c.getT ta) t.toNat bs g 0 q)) ((List.range 32).map (tileRow (c.getT tb) u.toNat bs g 0 q)) q 0
  else none

/-- An accumulator after an `mma` that has the number `seq` (R157, R160). -/
def LCore.mmaAcc (seq : BitVec 16) : Acc :=
  let a : Acc := { c.getA n with
    cells := Vector.ofFn (fun k => (c.mmaResult n op ta tb t u bs g q k).1)
    rf := (c.getA n).rf ||| specialMask ((List.range 32).map (tileRow (c.getT ta) t.toNat bs g 0 q))
    cf := (c.getA n).cf ||| specialMask ((List.range 32).map (tileRow (c.getT tb) u.toNat bs g 0 q)) }
  (c.mmaReport n ta tb t u bs g q).elim a (fun x => { a with
    frT := BitVec.ofNat 64 ((if x.2.1 then tb else ta).toNat * 2 ^ 14 + (if x.2.1 then 2 ^ 13 else 0) + (g * x.1 + x.2.2.2) % 256 * 32 + x.2.2.1)
    frT2 := BitVec.ofNat 64 (seq.toNat * 2 ^ 16 + n.toNat * 256 + u.toNat * 16 + t.toNat) })

/-- The flags that an `mma` raises: those of all its cells. -/
def LCore.mmaFlags : Fp.Flags := ((List.finRange 1024).map (fun k => (c.mmaResult n op ta tb t u bs g q k).2)).foldl (· ||| ·) 0

end

/-- A row that is listed is the one of its number. -/
theorem getD_rows {α : Type} (f : Nat → List α) {k : Nat} (h : k < 32) : ((List.range 32).map f).getD k [] = f k := by
  rw [List.getD_eq_getElem?_getD, List.getElem?_map, List.getElem?_range h]
  rfl

theorem mmaGroups_eq (c : LCore) (seq : BitVec 16) (n op : BitVec 2) (ta tb t u : BitVec 4) (bs : Bool) (q : Nat) :
    c.mmaGroups seq n ta tb op t u bs bs 0 q =
      (c.setA n (c.mmaAcc n op ta tb t u bs (groupSize t.toNat) q seq)).raise (c.mmaFlags n op ta tb t u bs (groupSize t.toNat) q) := by
  have cells : (fun k : Fin 1024 => mmaCell op.toNat t.toNat (c.aff n) ((c.getA n).cells.get k)
      (((List.range 32).map (tileRow (c.getT ta) t.toNat bs (groupSize t.toNat) 0 q)).getD (k.val / 32) [])
      (((List.range 32).map (tileRow (c.getT tb) u.toNat bs (groupSize t.toNat) 0 q)).getD (k.val % 32) [])) =
      c.mmaResult n op ta tb t u bs (groupSize t.toNat) q := funext fun k => by
    rw [getD_rows _ (by omega), getD_rows _ (Nat.mod_lt _ (by decide))]
    rfl
  unfold LCore.mmaGroups LCore.mmaAcc LCore.mmaFlags LCore.mmaReport
  simp only [cells, Nat.zero_add, Vector.toList_ofFn, List.ofFn_eq_map, List.map_map, Vector.map_ofFn, Function.comp_def, Bool.and_eq_true, beq_iff_eq]
  generalize (if (c.getA n).rf = 0 ∧ (c.getA n).cf = 0 then _ else none : Option (Nat × Bool × Nat × Nat)) = report
  generalize Vector.ofFn _ = cs
  generalize List.foldl _ _ _ = fl
  cases report <;> rfl

/-- The logical core after an `mma` that has the number `seq`, with what stopping it on its way would need (R157, R160, R354). -/
def LCore.mmaDone (n op : BitVec 2) (ta tb t u : BitVec 4) (bs : Bool) (g q : Nat) (seq : BitVec 16) (work : Option Work) (c : LCore) : LCore :=
  { (c.setA n (c.mmaAcc n op ta tb t u bs g q seq)).raise (c.mmaFlags n op ta tb t u bs g q) with work := work }

section
variable {s : State} {n op : BitVec 2} {ta tb t u : BitVec 4} {bs : Bool}

theorem onMatrix_mmaDone (g q : Nat) (seq : BitVec 16) (work : Option Work) : OnMatrix (LCore.mmaDone n op ta tb t u bs g q seq work) :=
  ⟨fun _ => rfl, fun _ _ _ _ => rfl⟩

/-- The work of a whole `mma`, as started in the core `c` (R354). -/
theorem startWork_mmaGroups (c : LCore) (seq : BitVec 16) (cycles q : Nat) :
    c.startWork seq cycles (c.mmaGroups seq n ta tb op t u bs bs 0 q) = c.mmaDone n op ta tb t u bs (groupSize t.toNat) q seq
      (some ⟨seq, c.copNext - 1, cycles, c.acc, c.k, c.astat, c.fstat⟩) := by
  rw [LCore.startWork, mmaGroups_eq]
  rfl

theorem mma_works (heldA : (s.cur.getT ta).state ≠ .free) (heldB : (s.cur.getT tb).state ≠ .free) (mode : s.cur.sem n = op.toNat)
    (plain : t = 8 → s.cur.aff n = false)
    (readable : t = 0 → s.tidOk s.cur.ctx (s.cur.getT ta).tid = true ∧ s.tidOk s.cur.ctx (s.cur.getT tb).tid = true)
    (bsA : (t == 0 && Entry.bs (s.tidEntry s.cur.ctx (s.cur.getT ta).tid)) = bs)
    (bsB : (t == 0 && Entry.bs (s.tidEntry s.cur.ctx (s.cur.getT tb).tid)) = bs) : ∃ work,
    actMma n ta tb op t u (RingEntry.issuing (s.cur.await []) (.mma n ta tb op t u) {})
        ((s.awaited []).modCur (LCore.issuing (.mma n ta tb op t u) {})) =
      .ok { busy := if t = 8 then 256 else 32, lat := if t = 8 then 256 else 32 }
        (((s.awaited []).modCur (LCore.issuing (.mma n ta tb op t u) {})).modCur
          (LCore.mmaDone n op ta tb t u bs (groupSize t.toNat) (rowElems t.toNat / groupSize t.toNat) s.cur.nextSeq work)) := by
  rw [awaited_nil]
  exact ⟨_, (run_actMma (s := s.modCur (LCore.issuing (.mma n ta tb op t u) {})) heldA heldB mode plain readable bsA bsB).trans
    (congrArg (fun c => EStateM.Result.ok _ { s with cur := c }) (startWork_mmaGroups (s.cur.issuing (.mma n ta tb op t u) {}) ..))⟩

end

/-- A word that changes accumulators, the sticky flags and the work on its way alone, told by the accumulators that it leaves. -/
theorem EffectOf.onAcc {s t : State} {i : Instr} {f : LCore → LCore} (h : EffectOf s i f t)
    (only : f s.cur = { s.cur with acc := (f s.cur).acc, fstat := (f s.cur).fstat, work := (f s.cur).work }) :
    t.cur.acc = (f s.cur).acc ∧ CopChange { s with cur := { s.cur with acc := t.cur.acc } } i t := by
  obtain ⟨⟨⟨done, frame⟩, -⟩, -⟩ := h
  have left : t.cur.acc = (f s.cur).acc := congrArg (fun t => t.cur.acc) frame
  rw [State.modCur, only] at done frame
  rw [left]
  exact ⟨rfl, done, frame⟩

section
variable (c : LCore) (n op : BitVec 2) (ta tb t u : BitVec 4) (bs : Bool) (g q : Nat) (seq : BitVec 16)

/-- The detector's report after an `mma` that has none to make (R160). -/
theorem mmaAcc_unreported (quiet : c.mmaReport n ta tb t u bs g q = none) :
    (c.mmaAcc n op ta tb t u bs g q seq).frT = (c.getA n).frT ∧ (c.mmaAcc n op ta tb t u bs g q seq).frT2 = (c.getA n).frT2 := by
  simp only [LCore.mmaAcc, quiet, Option.elim_none, and_self]

/-- The detector's report after an `mma` that meets the first special `x` (R160). -/
theorem mmaAcc_reported {x : Nat × Bool × Nat × Nat} (found : c.mmaReport n ta tb t u bs g q = some x) :
    (c.mmaAcc n op ta tb t u bs g q seq).frT = BitVec.ofNat 64 ((if x.2.1 then tb else ta).toNat * 2 ^ 14 + (if x.2.1 then 2 ^ 13 else 0) +
      (g * x.1 + x.2.2.2) % 256 * 32 + x.2.2.1) ∧
    (c.mmaAcc n op ta tb t u bs g q seq).frT2 = BitVec.ofNat 64 (seq.toNat * 2 ^ 16 + n.toNat * 256 + u.toNat * 16 + t.toNat) := by
  simp only [LCore.mmaAcc, found, Option.elim_some, and_self]

theorem mmaAcc_marks : (c.mmaAcc n op ta tb t u bs g q seq).cells = Vector.ofFn (fun k => (c.mmaResult n op ta tb t u bs g q k).1) ∧
    (c.mmaAcc n op ta tb t u bs g q seq).rf =
      (c.getA n).rf ||| specialMask ((List.range 32).map (tileRow (c.getT ta) t.toNat bs g 0 q)) ∧
    (c.mmaAcc n op ta tb t u bs g q seq).cf =
      (c.getA n).cf ||| specialMask ((List.range 32).map (tileRow (c.getT tb) u.toNat bs g 0 q)) := by
  unfold LCore.mmaAcc
  cases c.mmaReport n ta tb t u bs g q <;> exact ⟨rfl, rfl, rfl⟩

end

/-- Settles O37: the cells, marks, report and flags that an `mma` of whole tiles leaves, and its frame. -/
theorem matrixProducts : Obligations.MatrixProducts := by
  unfold Obligations.MatrixProducts
  intro s n op ta tb t u i sa sb ba bb g q ra rb old cell rows h readable heldA heldB mode plain same
  obtain ⟨work, works⟩ := mma_works heldA heldB mode plain readable rfl same.symm
  obtain ⟨v, next, effect⟩ := matrix_effect h rfl (onMatrix_mmaDone ..) works ⟨rfl, rfl, rfl⟩ rfl
  obtain ⟨left, change⟩ := effect.onAcc rfl
  obtain ⟨-, vregs, mregs, xregs, flags⟩ := effect
  have at_ : ∀ r, v.cur.getA r = if r = n then s.cur.mmaAcc n op ta tb t u ba g q s.cur.nextSeq else s.cur.getA r := fun r =>
    (congrArg (fun acc : Vector Acc 4 => acc.get r.toFin) left).trans (getA_setA ..)
  have here := (at_ n).trans (if_pos rfl)
  obtain ⟨cells, rf, cf⟩ := mmaAcc_marks s.cur n op ta tb t u ba g q s.cur.nextSeq
  have sameB : rb = tileRow sb u.toNat ba g 0 q := by
    rw [same]
  have sameCell : cell = s.cur.mmaResult n op ta tb t u ba g q := by
    simp only [cell, sameB]
    rfl
  have report : s.cur.mmaReport n ta tb t u ba g q = if old.rf = 0 ∧ old.cf = 0 then firstReport (rows ra) (rows rb) q 0 else none := by
    rw [sameB]
    rfl
  refine ⟨v, next, change, fun k => ?_, ?_, ?_, fun r other => ?_, fun unreported => ?_, fun x noRow noCol found => ?_, ?_, vregs, mregs, xregs⟩
  · rw [here, cells, sameCell]
    exact Vector.getElem_ofFn ..
  · rw [here, rf]
  · rw [here, cf, sameB]
  · rw [at_ r, if_neg other]
  · rw [here]
    refine mmaAcc_unreported (quiet := report.trans ?_) ..
    rcases unreported with marked | marked | quiet
    · exact if_neg fun fresh => marked fresh.1
    · exact if_neg fun fresh => marked fresh.2
    · rw [quiet, ite_self]
  · rw [here]
    exact mmaAcc_reported (found := report.trans ((if_pos ⟨noRow, noCol⟩).trans found)) ..
  · rw [sameCell]
    exact flags

end Sys2Proof.Machine

namespace Sys2Proof.Machine

/-! ### `tload` (R149, R150)

The statement O35 gives a load the entry of its slot's tensor as it reads when the word comes to the core, and O36 does the same for `tstore`,
`astore` and `aload`, while the model reads the entry once the x register of the word is ready (R65, R98). Where the die holds an old value of
the address of the context's table, `Config.usesOld` chooses at each time between old and new (R296, log entry 13), and it is opaque: O35 holds
if that choice does not depend on the time (`tileWords_of_steady`), and O35 and O36 give, on the cores of `tileAt` and `blockCoreAt`, that it does
not (`usesOld_steady_of_tileWords`, `usesOld_steady_of_tensorStoresAndLoads`). The clauses of O35 about `tclaim`, `tfree`, `tzero`, `tidst` and
`tidld` hold (`tclaim_effect`, `tfree_effect`, `tzero_effect`, `tidst_left`, `tidld_stores`), and so does the one about `tload` with the entry as
it reads once the register is ready (`tload_taken`). -/

/-- What a word that reads x`r` alone captures (R66). -/
def LCore.capturing (c : LCore) (r : BitVec 5) : Capture := { xa := c.getX r, xb := c.getX 0 }

theorem run_capturing (s : State) (r : BitVec 5) : captureX r 0 (s.awaited [r]) = .ok (s.cur.capturing r) (s.awaited [r]) := (rfl)

/-- The dispatch of a word that captures no pointer adds no pin (R195). -/
theorem pins_dispatched {c : LCore} {i : Instr} {k : Capture} (hk : k.ptr = PtrReg.null ∧ k.entry = 0) :
    ∀ p ∈ (c.dispatched i k).pins, p ≠ 0 → p ∈ c.pins := by
  intro p hp hz
  simp only [LCore.pins, LCore.workPins, List.mem_append, List.mem_flatMap] at hp ⊢
  rcases hp with ((tag | ⟨e, he, hp⟩) | stream) | index
  · exact .inl (.inl (.inl tag))
  · rcases List.mem_append.mp (List.mem_of_mem_drop he) with old | new
    · exact .inl (.inl (.inr ⟨e, old, hp⟩))
    · rw [List.mem_singleton.mp new] at hp
      exact absurd (pins_entry_null hk hp) hz
  · exact .inl (.inr stream)
  · exact .inr index

theorem entryRoom_dispatched {s : State} {i : Instr} {k : Capture} {tid : BitVec 8} (hk : k.ptr = PtrReg.null ∧ k.entry = 0)
    (room : s.entryRoom tid = true) : (s.modCur (LCore.dispatched i k)).entryRoom tid = true := by
  have same : SameAgents s (s.modCur (LCore.dispatched i k)) := ⟨rfl, rfl, rfl, rfl, rfl, rfl⟩
  have room := same.pinRoom (pins_dispatched hk) room
  rw [← tidEntry_modCur _ (LCore.dispatched i k), ← same.ctx] at room
  exact room

/-- The ring entry of a load that holds the entry of its tensor (R66, R150). -/
def RingEntry.loading (e : RingEntry) (ent : Entry) : RingEntry := { e with held := true, entry := ent }

section
variable (s : State) (uses : List (BitVec 5)) (i : Instr) (k : Capture)

theorem ctx_issuing : ((s.awaited uses).modCur (LCore.issuing i k)).cur.ctx = s.cur.ctx := by
  unfold LCore.ctx
  rfl

theorem getT_issuing (t : BitVec 4) : ((s.awaited uses).modCur (LCore.issuing i k)).cur.getT t = s.cur.getT t := by
  unfold LCore.getT
  rfl

end

/-- The logical core once the loader has taken up the load `e` of slot `t`, with the entry `ent` (R150). -/
def LCore.loadTaken (t : BitVec 4) (e : RingEntry) (ent : Entry) (c : LCore) : LCore :=
  { (c.setEntry (e.loading ent)).setT t { c.getT t with state := .loading, prog := 0 } with loads := c.loads ++ [(e.seq, t)] }

theorem run_actTload {s : State} {t : BitVec 4} {r : BitVec 5} {e : RingEntry} (fresh : e.held = false) (held : (s.cur.getT t).state ≠ .free)
    (readable : s.tidOk s.cur.ctx (s.cur.getT t).tid = true) :
    actTload t r e s = .ok { goesOn := true } (s.modCur (LCore.loadTaken t e (s.tidEntry s.cur.ctx (s.cur.getT t).tid))) := by
  unfold actTload
  rw [if_neg (by simp [fresh])]
  exact (run_bind_ok (run_needSlot held)).trans ((run_bind_ok (run_curEntry readable)).trans (run_bind_ok (run_modCur ..)))

/-- `u` is `s` after the `tload` of slot `t` and the register x`r`, whose load has gone into the loader with the entry `ent` (R150). -/
def LoadTaken (s : State) (t : BitVec 4) (r : BitVec 5) (ent : Entry) (u : State) : Prop :=
  u.cur.loads = [(s.cur.nextSeq, t)] ∧
  (∀ k, u.cur.getT k = if k = t then { s.cur.getT t with state := .loading, prog := 0 } else s.cur.getT k) ∧
  (∃ e, u.cur.entryOf s.cur.nextSeq = some e ∧ e.state = .issued ∧ e.instr = .tload t r ∧ e.entry = ent ∧ e.xa = s.cur.getX r ∧ e.prog = 0) ∧
  u = { s with
    clk := u.clk
    cur := { s.cur.passed with
      t := u.cur.t, loads := u.cur.loads, ring := u.cur.ring, nextSeq := s.cur.nextSeq + 1, copNext := u.cur.copNext
      vecFree := u.cur.vecFree, matFree := u.cur.matFree, pend := u.cur.pend, ccy := u.cur.ccy, xrdy := u.cur.xrdy } }

/-- The ring entry of number `q` once its word has issued and goes on beside its unit in the loader (R150). -/
def loadRing (q : BitVec 16) (time : Nat) (l : List RingEntry) : List RingEntry :=
  l.map (fun x => if x.seq == q then { x with time := time } else x)

/-- What the issue of a `tload` leaves of the logical core. -/
theorem complete_load (c : LCore) (t : BitVec 4) (ci : Nat) (q : BitVec 16) : LCore.complete (loadUnit t) ci q { goesOn := true } c =
    { c with matFree := ci + 1, ring := loadRing q (ci + loadTime) c.ring } := (rfl)

/-- What the issue of a `tload` leaves once its work is done. -/
theorem finish_load (s : State) (t : BitVec 4) (uses : List (BitVec 5)) (clk copNext ccy ci : Nat) (q : BitVec 16) (ring : List RingEntry) :
    ((s.worked clk ring copNext ccy).modCur (LCore.complete (loadUnit t) ci q { goesOn := true })).finish .seq ⟨uses, 0, 1, 1⟩ = { s with
      clk := clk + 1
      cur := { s.cur.passed with
        ring := loadRing q (ci + loadTime) ring, nextSeq := s.cur.nextSeq + 1, copNext := copNext, matFree := ci + 1, ccy := ccy + 1 } } := by
  rw [State.finish, spend_none _ (.inl rfl), State.modCur, complete_load]
  rfl

/-- The logical core in which the load `q` of slot `t` is on its way (R149, R150). -/
def LCore.loading (t : BitVec 4) (q : BitVec 16) (c : LCore) : LCore :=
  { c.setT t { c.getT t with state := .loading, prog := 0 } with loads := c.loads ++ [(q, t)] }

theorem loadTaken_worked (s : State) (clk copNext ccy : Nat) (ring : List RingEntry) (t : BitVec 4) (e : RingEntry) (ent : Entry) :
    (s.worked clk ring copNext ccy).modCur (LCore.loadTaken t e ent) = (s.modCur (LCore.loading t e.seq)).worked clk
      (ring.map (fun x => if x.seq == e.seq then e.loading ent else x)) copNext ccy := (rfl)

theorem passed_loading (c : LCore) (t : BitVec 4) (q : BitVec 16) :
    (c.loading t q).passed = { c.passed with t := (c.loading t q).t, loads := c.loads ++ [(q, t)] } := (rfl)

/-- The entry of a load that has just been taken up. -/
theorem find_load {l : List RingEntry} {e e' : RingEntry} (n time : Nat) (hn : n ≤ l.length) (h : ∀ x ∈ l, x.seq ≠ e.seq) (seq : e'.seq = e.seq) :
    (loadRing e.seq time (((l ++ [e]).drop n).map (fun x => if x.seq == e.seq then e' else x))).find? (fun x => x.seq == e.seq) =
      some { e' with time := time } := by
  rw [map_dispatched l e (fun _ => e') n hn h, loadRing, ← seq, map_dispatched l e' (fun x => { x with time := time }) n hn (seq ▸ h)]
  exact find_dispatched l { e' with time := time } n hn (seq ▸ h)

/-- `tload` puts a load with the entry of its slot's tensor, as it reads once x`r` is ready, into the loader. -/
theorem tload_taken {s : State} {t : BitVec 4} {r : BitVec 5} (h : s.copReady (.tload t r) = true)
    (readable : (s.awaited [r]).tidOk s.cur.ctx (s.cur.getT t).tid = true) (held : (s.cur.getT t).state ≠ .free)
    (room : (s.awaited [r]).entryRoom (s.cur.getT t).tid = true) :
    ∃ u, exec (.tload t r) s = .next u ∧ LoadTaken s t r ((s.awaited [r]).tidEntry s.cur.ctx (s.cur.getT t).tid) u := by
  have clear := clear_of_copReady h
  obtain ⟨-, loads, -⟩ := LCore.clear_iff.mp clear
  have flows : (loadUnit t).frozen ((s.awaited [r]).modCur (LCore.dispatched (.tload t r) (s.cur.capturing r)))
      ((s.awaited [r]).cur.entry (.tload t r) (s.cur.capturing r)) = false :=
    congrArg (!·) (entryRoom_dispatched ⟨rfl, rfl⟩ room)
  have works := run_actTload (r := r) (t := t) (s := (s.awaited [r]).modCur (LCore.issuing (.tload t r) (s.cur.capturing r)))
    (e := RingEntry.issuing (s.cur.await [r]) (.tload t r) (s.cur.capturing r)) rfl
  rw [ctx_issuing, getT_issuing, tidOk_modCur, tidEntry_modCur, issuing_worked, loadTaken_worked] at works
  have run := runCop_ready h (run_capturing s r) (clear_await [r] clear) (pinRoom_x _) flows (works held readable)
  rw [finish_load, show ∀ q, (s.modCur (LCore.loading t q)).cur = s.cur.loading t q from fun _ => rfl, passed_loading, loads] at run
  have found := find_load (l := s.cur.ring) (e := RingEntry.issuing (s.cur.await [r]) (.tload t r) (s.cur.capturing r))
    (e' := (RingEntry.issuing (s.cur.await [r]) (.tload t r) (s.cur.capturing r)).loading
      ((s.awaited [r]).tidEntry s.cur.ctx (s.cur.getT t).tid))
    (s.cur.ring.length + 1 - 64) (s.cur.issueAt [r] + loadTime) (by omega) (seq_ne_of_clear clear) rfl
  exact ⟨_, run, rfl, fun k => getT_setT s.cur t k _, ⟨_, found, rfl, rfl, rfl, rfl, rfl⟩, rfl⟩

/-! ### `tclaim`, `tfree` and `tzero` (R149, R154) -/

section
variable {s : State} {t : BitVec 4} {tid : BitVec 8}

theorem onMatrix_setT (t : BitVec 4) (sl : Slot) : OnMatrix (fun c => c.setT t sl) := ⟨fun _ => rfl, fun _ _ _ _ => rfl⟩

theorem run_setSlot (f : Slot → Slot) : setSlot t f s = .ok () (s.modCur (fun c => c.setT t (f (s.cur.getT t)))) := (rfl)

theorem tclaim_effect (h : s.copReady (.tclaim t tid) = true) (readable : s.tidOk s.cur.ctx tid = true)
    (valid : Entry.valid (s.tidEntry s.cur.ctx tid) = true) :
    CopEffect s (.tclaim t tid) (fun c => c.setT t { s.cur.getT t with state := .claimed, tid := tid, prog := 0 }) := by
  refine matrix_effect (w := {}) h rfl (onMatrix_setT t _) ?_ ⟨rfl, rfl, rfl⟩ rfl
  rw [awaited_nil]
  have legal : ¬(!Entry.valid (s.tidEntry s.cur.ctx tid)) = true := by simp [valid]
  exact (run_bind_ok (run_curEntry (s := s.modCur (LCore.issuing (.tclaim t tid) {})) readable)).trans
    ((run_if_neg legal _ _ _).trans (run_bind_ok (run_setSlot ..)))

theorem tfree_effect (h : s.copReady (.tfree t) = true) :
    CopEffect s (.tfree t) (fun c => c.setT t { s.cur.getT t with state := .free }) :=
  matrix_effect (w := {}) h rfl (onMatrix_setT t _) (run_bind_ok (run_setSlot ..)) ⟨rfl, rfl, rfl⟩ rfl

theorem tzero_effect (h : s.copReady (.tzero t) = true) (held : (s.cur.getT t).state ≠ .free) :
    CopEffect s (.tzero t) (fun c => c.setT t { s.cur.getT t with state := .ready, data := 0, side := 0 }) :=
  matrix_effect (w := {}) h rfl (onMatrix_setT t _)
    ((run_bind_ok (run_needSlot (s := (s.awaited []).modCur (LCore.issuing (.tzero t) {})) held)).trans (run_bind_ok (run_setSlot ..)))
    ⟨rfl, rfl, rfl⟩ rfl

end

end Sys2Proof.Machine

namespace Sys2Proof.Machine

/-! ### `tidst` and `tidld` (R145, R147, R155) -/

/-- A change of the running logical core and the time. -/
def State.atCur (s : State) (clk : Nat) (c : LCore) : State := { s with clk := clk, cur := c }

theorem retagLine_atCur (s : State) (clk : Nat) (c : LCore) (whole : Bool) (l : Nat) :
    (s.atCur clk c).retagLine whole l = (s.retagLine whole l).atCur clk c := by
  rw [State.retagLine, State.retagLine, show (s.atCur clk c).tagOf l = s.tagOf l from rfl]
  split <;> rfl

/-- Memory is written without regard to the running logical core and the time. -/
theorem physStore_atCur (s : State) (clk : Nat) (c : LCore) (pa n v : Nat) :
    (s.atCur clk c).physStore pa n v = (s.physStore pa n v).atCur clk c := by
  rw [State.physStore, State.physStore, show (s.atCur clk c).canStore pa n = s.canStore pa n from rfl]
  split
  · refine List.foldl_hom (fun t : State => t.atCur clk c) (init := { s.healLines false pa n with mem := Mem.writeN s.mem pa n v }) ?_
    exact fun t l => retagLine_atCur t clk c _ l
  · rfl

/-- A check that passes. -/
theorem run_check {α : Type} {b : Prop} {_ : Decidable b} {m : Ex PUnit} {k : PUnit → Ex α} {s : State} (passes : b → m s = .ok ⟨⟩ s) :
    (if b then m >>= k else k ⟨⟩ : Ex α) s = k ⟨⟩ s := by
  split
  next checked => exact run_bind_ok (passes checked)
  next => rfl

/-- The work of `tidst` on an object in a pad of a part that has no failed sector there. -/
theorem run_actTidst {s : State} {p : BitVec 4} {tid : BitVec 8} {e : RingEntry} {v : Entry} (long : 64 ≤ e.ptr.len.toNat) (sound : s.badPads = [])
    (near : ptrLvl e.ptr.ptr ≤ 2) (owned : ptrLvl e.ptr.ptr = 2 → s.ownsDie = true)
    (payload : BitVec.ofNat 512 (Mem.readN (s.pad (s.cur.padId (ptrLvl e.ptr.ptr))).mem (ptrAddr e.ptr.ptr + 16) 64) = v)
    (legal : Entry.valid v = true → entryReason s.feat (fun _ => true) v = none) (writable : s.canStore (tidAddr s s.cur.ctx tid) 64 = true) :
    actTidst p tid e s = .ok { busy := 4, lat := 4 }
      (s.setTidEntry s.cur.ctx tid (if Entry.valid v then s.uncopyEntry v &&& entryMask else 0)) := by
  obtain ⟨readable, free⟩ : (s.healLines false (tidAddr s s.cur.ctx tid) 64).physOk (tidAddr s s.cur.ctx tid) 64 = true ∧
      s.sealedAt (tidAddr s s.cur.ctx tid) = false := by
    simpa only [State.canStore, Bool.and_eq_true, Bool.not_eq_true'] using writable
  have read := readObj_inPad sound near owned (16 + 0) 64 accLoad
  unfold actTidst tidRoom
  rw [if_neg (Nat.not_lt.mpr long)]
  refine (run_bind_ok (run_pure ..)).trans ((run_bind_ok read).trans ?_)
  rw [Nat.add_zero, payload]
  refine (run_check fun valid => run_needEntry (legal valid)).trans ((run_bind_ok (run_get s)).trans ?_)
  dsimp only
  rw [if_neg (by simp [readable]), if_neg (by simp [free])]
  rfl

/-- The work of `tidld` on an object in a pad. -/
theorem run_actTidld {s : State} {p : BitVec 4} {tid : BitVec 8} {e : RingEntry} (long : 64 ≤ e.ptr.len.toNat) (sound : s.badPads = [])
    (near : ptrLvl e.ptr.ptr ≤ 2) (owned : ptrLvl e.ptr.ptr = 2 → s.ownsDie = true) (kind : ¬(hdrKind e.xa = 1 ∨ hdrKind e.xa = 2))
    (readable : s.tidOk s.cur.ctx tid = true) : actTidld p tid e s = .ok { busy := 4, lat := 4 }
      (s.setPad ((s.pad (s.cur.padId (ptrLvl e.ptr.ptr))).storing (ptrAddr e.ptr.ptr) 64 (fun _ => ptrAddr e.ptr.ptr + 16)
        (fun _ => (s.tidEntry s.cur.ctx tid &&& entryMask).toNat) [0])) := by
  have store := run_store sound near owned 0 64 (s.tidEntry s.cur.ctx tid &&& entryMask).toNat
  unfold actTidld tidRoom
  rw [if_neg (Nat.not_lt.mpr long)]
  refine (run_bind_ok (run_pure ..)).trans ?_
  dsimp only
  rw [if_neg kind]
  refine (run_bind_ok (run_curEntry readable)).trans (run_bind_ok (a := ()) ?_)
  rw [allOrNothing, store]
  rfl

/-- What `tidld` and `tidst` capture of an object in its place (R155). -/
theorem run_tidPrep {s : State} {p : BitVec 4} (here : s.inPlace p) :
    tidPrep p (s.awaited []) = .ok (s.vecCapture p 0) (s.vecReady [] p 0) := by
  rw [State.vecReady, awaited_nil, show s.vecTouch p 0 = LCore.touched (s.hdrOf p) (s.cur.getP p).ptr from funext fun _ => if_neg (by decide)]
  refine (run_bind_ok (touch_inPlace here)).trans ((run_bind_ok (run_rdP ..)).trans ?_)
  rw [State.modCur, touched_eq]
  rfl

section
variable {s : State} {i : Instr} {p : BitVec 4} {tid : BitVec 8} {act : RingEntry → Ex Issued}

/-- The state after the touch, in which a word with a tensor table entry does its work. -/
def State.tidWorking (s : State) (i : Instr) (p : BitVec 4) : State :=
  (s.modCur (s.vecTouch p 0)).worked s.clk (s.vecRing [] i p 0) (s.cur.ccy + 1) s.cur.ccy

/-- A word with a tensor table entry and an object in its place, whose work leaves the state `s'` with the touched logical core. -/
theorem tid_completed {s' : State} {w : Issued} (h : s.copReady i = true) (run : exec i s = runCop i [] matMem (tidPrep p) act s) (here : s.inPlace p)
    (room : s.pinRoom [(s.cur.getP p).ptr] = true) (kept : s'.cur = s.vecTouch p 0 s.cur)
    (works : act (RingEntry.issuing (s.cur.await []) i (s.vecCapture p 0)) (s.tidWorking i p) =
      .ok w (s'.worked s.clk (s.vecRing [] i p 0) (s.cur.ccy + 1) s.cur.ccy))
    (ends : w.goesOn = false ∧ w.post = none) : ∃ t, exec i s = .next t ∧ Completed s' i w 0 t := by
  have clear := clear_of_copReady h
  have touched : s'.cur.clear = true ∧ s'.cur.nextSeq = s.cur.nextSeq ∧ s'.cur.pc = s.cur.pc := by
    rw [kept, vecTouch_rest]
    exact ⟨clear, rfl, rfl⟩
  obtain ⟨clear', seq, pc⟩ := touched
  have same : (s.vecReady [] p 0).cur.nextSeq = s.cur.nextSeq := by rw [vecReady_eq]; rfl
  have left : act (RingEntry.issuing (s.vecReady [] p 0).cur i (s.vecCapture p 0)) ((s.vecReady [] p 0).modCur (LCore.issuing i (s.vecCapture p 0))) =
      .ok w ((s'.worked s.clk (s.vecRing [] i p 0) (s.cur.ccy + 1) s.cur.ccy).modCur (fun c => c.raise 0)) := by
    rw [entry_vecReady, issuing_vecReady, modCur_raise_zero, awaited_nil]
    exact works
  rw [run]
  refine cop_completed_from h (run_tidPrep here) (clear_vecReady clear) (pinRoom_vecReady 0 room) rfl left ends clear' (seq.trans same.symm) ?_
  rw [seq, pc]
  exact traced_vecRing clear

/-- The entry that `tidst` writes for the 64 bytes `v` of a payload (R145, R155). -/
def State.tidstEntry (s : State) (v : Entry) : Entry := if Entry.valid v then s.uncopyEntry v &&& entryMask else 0

/-- What a write of an entry leaves in a state in which a word works. -/
theorem setTidEntry_worked (u : State) (ctx : BitVec 16) (tid : BitVec 8) (e : Entry) (ring : List RingEntry) (copNext ccy : Nat) :
    (u.worked u.clk ring copNext ccy).setTidEntry ctx tid e = (u.setTidEntry ctx tid e).worked u.clk ring copNext ccy := by
  have cur : (u.setTidEntry ctx tid e).cur = u.cur := (coresKept_physStore (.refl u)).cur
  rw [State.worked, State.worked, cur]
  exact physStore_atCur ..

/-- A pointer to a copy is put in its canonical form without regard to the ring and the time. -/
theorem uncopy_worked (u : State) (clk copNext ccy : Nat) (ring : List RingEntry) (q : W64) : (u.worked clk ring copNext ccy).uncopy q = u.uncopy q := by
  unfold State.uncopy State.allCores
  simp only [List.filter_cons, BEq.rfl, if_true]
  rfl

theorem tidstEntry_worked (u : State) (clk copNext ccy : Nat) (ring : List RingEntry) (v : Entry) :
    (u.worked clk ring copNext ccy).tidstEntry v = u.tidstEntry v := by
  simp only [State.tidstEntry, State.uncopyEntry, uncopy_worked]

/-- `tidst` from an object in its place. -/
theorem tidst_left (h : s.copReady (.tidst p tid) = true) (here : s.inPlace p) (long : 64 ≤ (s.cur.getP p).len.toNat)
    (room : s.pinRoom [(s.cur.getP p).ptr] = true) (writable : s.canStore (tidAddr s s.cur.ctx tid) 64 = true) {v : Entry}
    (payload : BitVec.ofNat 512 (Mem.readN (s.pad (s.padOf p)).mem (s.offOf p + 16) 64) = v)
    (legal : Entry.valid v = true → entryReason s.feat (fun _ => true) v = none) : ∃ t, exec (.tidst p tid) s = .next t ∧
      Completed ((s.modCur (s.vecTouch p 0)).setTidEntry s.cur.ctx tid ((s.modCur (s.vecTouch p 0)).tidstEntry v)) (.tidst p tid)
        { busy := 4, lat := 4 } 0 t := by
  obtain ⟨sound, -, -, near, owned, -⟩ := here.1
  have touched := vecTouch_rest s p 0 s.cur
  have ctx : (s.vecTouch p 0 s.cur).ctx = s.cur.ctx := by rw [touched]; rfl
  have works := run_actTidst (s := s.tidWorking (.tidst p tid) p) (tid := tid) (p := p)
    (e := RingEntry.issuing (s.cur.await []) (.tidst p tid) (s.vecCapture p 0)) long sound near
    (by rw [State.tidWorking, State.modCur, touched]; exact owned) (by rw [State.tidWorking, State.modCur, touched]; exact payload) legal
    (by rw [State.tidWorking, State.modCur, touched]; exact writable)
  refine tid_completed h rfl here room ?_ (works.trans ?_) ⟨rfl, rfl⟩
  · exact (coresKept_physStore (.refl _)).cur
  · rw [← State.tidstEntry, State.tidWorking, tidstEntry_worked, show ((s.modCur (s.vecTouch p 0)).worked s.clk (s.vecRing [] (.tidst p tid) p 0)
      (s.cur.ccy + 1) s.cur.ccy).cur.ctx = s.cur.ctx from ctx]
    exact congrArg _ (setTidEntry_worked ..)

/-- `tidld` to an object in its place stores the bits of the entry that R145 names. -/
theorem tidld_stores (h : s.copReady (.tidld p tid) = true) (here : s.inPlace p) (long : 64 ≤ (s.cur.getP p).len.toNat)
    (room : s.pinRoom [(s.cur.getP p).ptr] = true) (readable : s.tidOk s.cur.ctx tid = true) (notRefs : hdrKind (s.hdrOf p) ≠ 1)
    (notScope : hdrKind (s.hdrOf p) ≠ 2) : CopStores s (.tidld p tid) (s.vecTouch p 0)
      [⟨(s.cur.getP p).ptr, 512, [(s.offOf p + 16, 0, (s.tidEntry s.cur.ctx tid &&& entryMask).toNat)]⟩] := by
  obtain ⟨sound, -, -, near, owned, -⟩ := here.1
  obtain ⟨u, touched⟩ : ∃ u, u = s.modCur (s.vecTouch p 0) := ⟨_, rfl⟩
  have same : u = { s with cur := { s.cur with cidx := u.cur.cidx, p := u.cur.p } } := by
    rw [touched, State.modCur, vecTouch_rest]
  obtain ⟨pd, stored⟩ : ∃ pd, pd = (s.pad (s.padOf p)).storing (s.offOf p) 64 (fun _ => s.offOf p + 16)
    (fun _ => (s.tidEntry s.cur.ctx tid &&& entryMask).toNat) [0] := ⟨_, rfl⟩
  have own : pd.id = s.padOf p := by rw [stored, storing_rest]; exact pad_id s _
  have works := run_actTidld (s := s.tidWorking (.tidld p tid) p) (tid := tid) (p := p)
    (e := RingEntry.issuing (s.cur.await []) (.tidld p tid) (s.vecCapture p 0)) long sound near
    (by rw [State.tidWorking, ← touched, same]; exact owned) (not_or.mpr ⟨notRefs, notScope⟩)
    (by rw [State.tidWorking, ← touched, same]; exact readable)
  have works : actTidld p tid (RingEntry.issuing (s.cur.await []) (.tidld p tid) (s.vecCapture p 0)) (s.tidWorking (.tidld p tid) p) =
      .ok { busy := 4, lat := 4 }
        (((s.modCur (s.vecTouch p 0)).setPad pd).worked s.clk (s.vecRing [] (.tidld p tid) p 0) (s.cur.ccy + 1) s.cur.ccy) := by
    refine works.trans ?_
    rw [stored, State.tidWorking, ← touched, same]
    rfl
  obtain ⟨t, next, frame, vregs, mregs, xregs, flags⟩ := tid_completed h rfl here room (by rfl) works ⟨rfl, rfl⟩
  have left : t.pads = (s.setPad pd).pads := by rw [frame.1.2]; rfl
  have kept : (s.vecTouch p 0 s.cur).v = s.cur.v ∧ (s.vecTouch p 0 s.cur).m = s.cur.m ∧ (s.vecTouch p 0 s.cur).x = s.cur.x := by
    rw [vecTouch_rest]
    exact ⟨rfl, rfl, rfl⟩
  obtain ⟨keptV, keptM, keptX⟩ := kept
  have change : CopChange { s.modCur (s.vecTouch p 0) with pads := t.pads } (.tidld p tid) t := left ▸ frame.1
  have given : ∀ id, t.pad id = if id = s.padOf p then (s.pad id).storing (s.offOf p) 64 (fun _ => s.offOf p + 16)
      (fun _ => (s.tidEntry s.cur.ctx tid &&& entryMask).toNat) [0] else s.pad id := fun id => by
    rw [pad_congr (s := s.setPad pd) left id, pad_setPad, own]
    split
    next at_ => rw [stored, at_]
    next => rfl
  exact ⟨t, next, change, stored_storing (l := [0]) (fun j _ => by dsimp only [State.offOf]; omega) given,
    vregs.trans keptV, mregs.trans keptM, xregs.trans keptX, flags.trans BitVec.or_zero⟩

end

end Sys2Proof.Machine

namespace Sys2Proof.Machine

/-! ### The statement O35, as far as the model decides it -/

theorem vecTouch_zero (s : State) (p : BitVec 4) : s.vecTouch p 0 = LCore.touched (s.hdrOf p) (s.cur.getP p).ptr :=
  funext fun _ => if_neg (by decide)

/-- The statement O35 holds if the choice between the old and the new value of a table word does not depend on the time. -/
theorem tileWords_of_steady (steady : SteadyWords) : Obligations.TileWords := by
  unfold Obligations.TileWords
  refine ⟨fun s t tid r => ⟨tclaim_effect, tfree_effect, tzero_effect, fun h readable held room => ?_⟩, fun s p tid here long room => ?_⟩
  · have hu : ∀ pa, Config.usesOld (s.awaited [r]).clk pa = Config.usesOld s.clk pa := fun _ => steady ..
    rw [← tidEntry_awaited hu]
    exact tload_taken h ((tidOk_awaited hu ..).trans readable) held (entryRoom_awaited hu room)
  · rw [← vecTouch_zero]
    refine ⟨fun h writable legal => ?_, fun h readable notRefs notScope => tidld_stores h here long room readable notRefs notScope⟩
    obtain ⟨t, next, frame, vregs, mregs, xregs, flags⟩ := tidst_left h here long room writable rfl legal
    have cur : ((s.modCur (s.vecTouch p 0)).setTidEntry s.cur.ctx tid ((s.modCur (s.vecTouch p 0)).tidstEntry
        (BitVec.ofNat 512 (Mem.readN (s.pad (s.padOf p)).mem (s.offOf p + 16) 64)))).cur = s.vecTouch p 0 s.cur :=
      (coresKept_physStore (.refl _)).cur
    rw [cur, vecTouch_rest] at vregs mregs xregs flags
    exact ⟨t, next, frame, vregs, mregs, xregs, flags.trans BitVec.or_zero⟩

/-- The core of `bindAt`, with a slot claimed for the tensor that the table of its context gives. -/
def tileAt (clk d : Nat) : State :=
  (bindAt clk d).modCur (fun c => c.setT 0 { c.getT 0 with state := .claimed, tid := 0 })

theorem copReady_tileAt (clk d : Nat) : (tileAt clk d).copReady (.tload 0 1) = true := by
  have missing : (tileAt clk d).missing (.tload 0 1) = none :=
    show ((Instr.tload 0 1).feats.filter (fun b => !(BitVec.allOnes 512).getLsbD b)).min? = none by decide +kernel
  have clear : (tileAt clk d).cur.clear = true := rfl
  rw [State.copReady, State.passes, missing, clear]
  rfl

theorem awaited_tileAt (clk d : Nat) : (tileAt clk d).awaited [1] = (tileAt clk d).later (clk + d) d := by
  have ready : (tileAt clk d).cur.issueAt [1] = d := Nat.zero_max d
  rw [awaited_later, ready]
  rfl

section
variable (clk d now ccy : Nat)

theorem tidEntry_tileAt : ((tileAt clk d).later now ccy).tidEntry 0 0 = oneValue (Config.usesOld now 40) := tidEntry_bindAt clk d now ccy

theorem tidOk_tileAt : ((tileAt clk d).later now ccy).tidOk 0 0 = true := tidOk_bindAt clk d now ccy

theorem entryRoom_tileAt : ((tileAt clk d).later now ccy).entryRoom 0 = true := by
  have far : ∀ old, ∀ lvl ∈ [0, 1, 2], offsetsAt lvl (entPtrs (oneValue old)) = [] := by decide +kernel
  refine pinRoom_of_offsets ?_
  rw [show ((tileAt clk d).later now ccy).cur.ctx = 0 from show (0 : W64).extractLsb' 16 16 = 0 by decide, tidEntry_tileAt]
  exact far _

end

/-- One load is taken up with one entry. -/
theorem loadTaken_inj {s : State} {t : BitVec 4} {r : BitVec 5} {x y : Entry} {u : State} (hx : LoadTaken s t r x u) (hy : LoadTaken s t r y u) :
    x = y := by
  obtain ⟨-, -, ⟨e, find, -, -, entry, -⟩, -⟩ := hx
  obtain ⟨-, -, ⟨e', find', -, -, entry', -⟩, -⟩ := hy
  rw [find] at find'
  rw [← entry, ← entry', Option.some.inj find']

/-- The statement O35 makes the choice for the table word at address 40 the same at every cycle: `tload` puts the entry as it reads once x1 is
ready into the loader, and O35 has it put the entry as it reads now there. -/
theorem usesOld_steady_of_tileWords (h : Obligations.TileWords) (clk d : Nat) : Config.usesOld (clk + d) 40 = Config.usesOld clk 40 := by
  obtain ⟨ctx, -⟩ := operands_bindAt clk d
  have slot : (tileAt clk d).cur.getT 0 = { LCore.cleared.getT 0 with state := .claimed, tid := 0 } := (getT_setT ..).trans (if_pos rfl)
  obtain ⟨words, -⟩ := h
  obtain ⟨-, -, -, loads⟩ := words (tileAt clk d) 0 0 1
  have left := @tload_taken (tileAt clk d) 0 1
  have claimed : ((tileAt clk d).cur.getT 0).tid = 0 ∧ ((tileAt clk d).cur.getT 0).state ≠ .free := by rw [slot]; decide
  obtain ⟨tensor, held⟩ := claimed
  rw [show (tileAt clk d).cur.ctx = 0 from ctx, tensor] at loads left
  rw [awaited_tileAt, tidEntry_tileAt] at left
  rw [show (tileAt clk d).tidEntry 0 0 = oneValue (Config.usesOld clk 40) from tidEntry_tileAt clk d clk 0] at loads
  obtain ⟨u, next, stated⟩ := loads (copReady_tileAt clk d) (tidOk_tileAt clk d clk 0) held (entryRoom_tileAt clk d clk 0)
  obtain ⟨u', next', taken⟩ := left (copReady_tileAt clk d) (tidOk_tileAt clk d (clk + d) d) held (entryRoom_tileAt clk d (clk + d) d)
  obtain rfl : u = u' := Host.Outcome.next.inj (next.symm.trans next')
  exact oneValue_injective (loadTaken_inj taken stated)

end Sys2Proof.Machine

namespace Sys2Proof.Machine

/-! ### The statement O36 and the entries of `tstore`, `astore` and `aload` (R150, R164) -/

/-- A word that has just issued takes the entry of its tensor as it reads then. -/
theorem run_holdEntry {s : State} {e : RingEntry} {tid : BitVec 8} (fresh : e.held = false) (readable : s.tidOk s.cur.ctx tid = true) :
    holdEntry e tid s = .ok (e.loading (s.tidEntry s.cur.ctx tid)) (s.modCur (fun c => c.setEntry (e.loading (s.tidEntry s.cur.ctx tid)))) := by
  unfold holdEntry
  rw [if_neg (by simp [fresh])]
  exact (run_bind_ok (run_curEntry readable)).trans (run_bind_ok (run_modCur ..))

theorem run_needEntry_fails {s : State} {i : Instr} {accept : Entry → Bool} {e : Entry} {j : Nat} (fails : entryReason s.feat accept e = some j) :
    ∃ x, needEntry i accept e s = .error x s := by
  rw [needEntry, run_bind_ok (run_get s), fails]
  exact ⟨_, rfl⟩

theorem run_actAload_fails {s : State} {n : BitVec 2} {tid : BitVec 8} {r : BitVec 5} {e : RingEntry} {j : Nat} (fresh : e.held = false)
    (readable : s.tidOk s.cur.ctx tid = true) (fails : entryReason s.feat blockFmt (s.tidEntry s.cur.ctx tid) = some j) :
    ∃ x w, actAload n tid r e s = .error x w ∧ w.cur.late = s.cur.late := by
  obtain ⟨x, fault⟩ := run_needEntry_fails (i := .aload n tid r) (s := s.modCur (fun c => c.setEntry (e.loading (s.tidEntry s.cur.ctx tid)))) fails
  exact ⟨x, _, (run_bind_ok (run_holdEntry fresh readable)).trans (run_bind_error fault), rfl⟩

/-- `aload` with an entry that fails the checks of R147 once x`r` is ready takes a late fault. -/
theorem aload_faults {s : State} {n : BitVec 2} {tid : BitVec 8} {r : BitVec 5} {j : Nat} (h : s.copReady (.aload n tid r) = true)
    (readable : (s.awaited [r]).tidOk s.cur.ctx tid = true) (room : (s.awaited [r]).entryRoom tid = true)
    (fails : entryReason s.feat blockFmt ((s.awaited [r]).tidEntry s.cur.ctx tid) = some j) :
    ∃ u, exec (.aload n tid r) s = .next u ∧ u.cur.late ≠ none := by
  have flows : (blockUnit tid).frozen ((s.awaited [r]).modCur (LCore.dispatched (.aload n tid r) (s.cur.capturing r)))
      ((s.cur.await [r]).entry (.aload n tid r) (s.cur.capturing r)) = false :=
    congrArg (!·) (entryRoom_dispatched ⟨rfl, rfl⟩ room)
  obtain ⟨x, w, act, kept⟩ := run_actAload_fails (n := n) (r := r)
    (e := RingEntry.issuing (s.cur.await [r]) (.aload n tid r) (s.cur.capturing r))
    (s := (s.awaited [r]).modCur (LCore.issuing (.aload n tid r) (s.cur.capturing r))) rfl
    (by rw [ctx_issuing, tidOk_modCur]; exact readable) (by rw [ctx_issuing, tidEntry_modCur]; exact fails)
  obtain ⟨-, -, late, -⟩ := LCore.clear_iff.mp (clear_of_copReady h)
  have run := cop_faulted h (run_capturing s r) (pinRoom_x _) flows act
  obtain ⟨raised, -⟩ := late_finish_faulted (kept.trans late) s.cur.nextSeq x ⟨[r], 0, 1, 1⟩
  exact ⟨_, run, fun none => Option.some_ne_none _ (raised.symm.trans none)⟩

end Sys2Proof.Machine

namespace Sys2Proof.Machine

/-- The core of `bindAt`, whose tensor table has an entry only where the old value of its address, or the new one, names it, and whose x1
names a block outside the tensor. -/
def blockCoreAt (old : Bool) (clk d : Nat) : State :=
  { bindAt clk d with
    cur := (bindAt clk d).cur.setX 1 0x100000000
    mem := (41, 0x10) :: oneValueAt (if old then 0x2000 else 0x1000) false }

section
variable (old : Bool) (clk d now ccy : Nat)

/-- The entry that stands at the address chosen. -/
def oneEntry (there : Bool) : Entry := if there then oneValue false else 0

theorem copReady_blockCoreAt : (blockCoreAt old clk d).copReady (.aload 0 0 1) = true := by
  have missing : (blockCoreAt old clk d).missing (.aload 0 0 1) = none :=
    show ((Instr.aload 0 0 1).feats.filter (fun b => !(BitVec.allOnes 512).getLsbD b)).min? = none by decide +kernel
  have clear : (blockCoreAt old clk d).cur.clear = true := rfl
  rw [State.copReady, State.passes, missing, clear]
  rfl

theorem awaited_blockCoreAt : (blockCoreAt old clk d).awaited [1] = (blockCoreAt old clk d).later (clk + d) d := by
  have ready : (blockCoreAt old clk d).cur.issueAt [1] = d := Nat.zero_max d
  rw [awaited_later, ready]
  rfl

theorem ctxWord_blockCoreAt : ((blockCoreAt old clk d).later now ccy).ctxWord 0 5 = if Config.usesOld now 40 then 0x2000 else 0x1000 := by
  have words : ∀ old : Bool, BitVec.ofNat 64 (Mem.readN (blockCoreAt old 0 0).mem 40 8) = 0x1000 := by decide +kernel
  have word : ((blockCoreAt old clk d).later now ccy).physWord 40 = 0x1000 := words old
  show (if (0x2000 : W64) ≠ ((blockCoreAt old clk d).later now ccy).physWord 40 && Config.usesOld now 40 then (0x2000 : W64)
    else ((blockCoreAt old clk d).later now ccy).physWord 40) = _
  rw [word]
  rfl

theorem tidAddr_blockCoreAt : tidAddr ((blockCoreAt old clk d).later now ccy) 0 0 = if Config.usesOld now 40 then 0x2000 else 0x1000 := by
  rw [tidAddr, ctxWord_blockCoreAt]
  cases Config.usesOld now 40 <;> rfl

theorem tidEntry_blockCoreAt : ((blockCoreAt old clk d).later now ccy).tidEntry 0 0 = oneEntry (Config.usesOld now 40 == old) := by
  have entries : ∀ old chosen : Bool, BitVec.ofNat 512 (Mem.readN (blockCoreAt old 0 0).mem (if chosen then 0x2000 else 0x1000) 64) =
      oneEntry (chosen == old) := by decide +kernel
  rw [State.tidEntry, tidAddr_blockCoreAt]
  exact entries old _

theorem tidOk_blockCoreAt : ((blockCoreAt old clk d).later now ccy).tidOk 0 0 = true := by
  have dram : ∀ chosen : Bool, (bindAt 0 0).physOk (if chosen then 0x2000 else 0x1000) 64 = true := by decide +kernel
  rw [State.tidOk, tidAddr_blockCoreAt]
  exact dram _

theorem entryRoom_blockCoreAt : ((blockCoreAt old clk d).later now ccy).entryRoom 0 = true := by
  have far : ∀ there, ∀ lvl ∈ [0, 1, 2], offsetsAt lvl (entPtrs (oneEntry there)) = [] := by decide +kernel
  refine pinRoom_of_offsets ?_
  rw [show ((blockCoreAt old clk d).later now ccy).cur.ctx = 0 from show (0 : W64).extractLsb' 16 16 = 0 by decide, tidEntry_blockCoreAt]
  exact far _

end

/-- `aload` takes `oneValue`, of which the block at column 32 holds nothing, and refuses an entry of zeros. -/
theorem legal_oneEntry : entryReason (BitVec.allOnes 512) blockFmt (oneEntry true) = none ∧
    entryReason (BitVec.allOnes 512) blockFmt (oneEntry false) = some 1 ∧ blockCells (oneEntry true) 0x100000000 = [] := by
  decide +kernel

/-- The statement O36 keeps the choice for the table word at address 40, whichever it is, at every cycle: O36 has `aload` complete where the
entry as it reads now is legal, and `aload` takes a late fault where the entry is not when x1 is ready. -/
theorem usesOld_steady_of_tensorStoresAndLoads (h : Obligations.TensorStoresAndLoads) (clk d : Nat) :
    Config.usesOld (clk + d) 40 = Config.usesOld clk 40 := by
  obtain ⟨old, now⟩ : ∃ old, Config.usesOld clk 40 = old := ⟨_, rfl⟩
  obtain ⟨legal, illegal, outside⟩ := legal_oneEntry
  have ctx : (blockCoreAt old clk d).cur.ctx = 0 := show (0 : W64).extractLsb' 16 16 = 0 by decide
  have block : (blockCoreAt old clk d).cur.getX 1 = 0x100000000 := (getX_setX ..).trans (if_pos (by decide))
  obtain ⟨-, -, loads⟩ := h (blockCoreAt old clk d) 0 0 0 1
  have faults := @aload_faults (blockCoreAt old clk d) 0 0 1 1
  rw [awaited_blockCoreAt, ctx, tidEntry_blockCoreAt] at faults
  simp only [ctx, block] at loads
  rw [show (blockCoreAt old clk d).tidEntry 0 0 = oneEntry true from
    (tidEntry_blockCoreAt old clk d clk 0).trans (by rw [now, BEq.rfl])] at loads
  obtain ⟨t, next, ⟨⟨⟨⟨-, -, late, -⟩, -⟩, -⟩, -⟩⟩ := loads (copReady_blockCoreAt old clk d) (tidOk_blockCoreAt old clk d clk 0) legal
    (entryRoom_blockCoreAt old clk d clk 0) (fun some => absurd outside some) (by rw [outside]; exact fun _ inside => absurd inside List.not_mem_nil)
  by_contra moved
  rw [now] at moved
  obtain ⟨u, next', raised⟩ := faults (copReady_blockCoreAt old clk d) (tidOk_blockCoreAt ..) (entryRoom_blockCoreAt ..)
    (by rw [beq_false_of_ne moved]; exact illegal)
  rw [next] at next'
  exact raised (Host.Outcome.next.inj next' ▸ late)

end Sys2Proof.Machine
